-- ==== Sys2Proof/Word.lean ====
section
/-!
DEFINITION. The words of the Draroth D7 and the one shape in which the model keeps sparse data.
-/
namespace Sys2Proof

/-- A byte. -/
abbrev Byte := BitVec 8
/-- A 32-bit lane value or scalar register (01 R11). -/
abbrev Word := BitVec 32
/-- A 64-bit doubleword: an instruction word, a header, a page-table entry (06 R111). -/
abbrev DWord := BitVec 64
/-- A set of the 64 lanes of a group, bit l for lane l (07 R142). -/
abbrev LaneMask := BitVec 64
/-- The 128 bits of a pointer (02 R24). -/
abbrev PtrBits := BitVec 128

/-- Sparse data by key.  Canonical form: keys strictly rising, no entry equal to the default value
that an unlisted key reads as. -/
abbrev Assoc (α : Type) := List (Nat × α)

end Sys2Proof
end

