-- ==== Sys2Proof/Syntax.lean ====
section
/-!
DEFINITION. The instructions, events and commands of the Draroth D7: one constructor for every row of
spec/opcode_table.json.  The 143 encoded instructions carry the fields of 06 R122; the other rows are
hardware steps, events and management commands, which carry the plain data that names what moves.
-/
namespace Sys2Proof

/-- The guard of an instruction word (06 R124): GE, GN, GK, GREG and GBIT. -/
structure Guard where
  en : Bool
  neg : Bool
  scalar : Bool
  reg : BitVec 8
  bit : BitVec 5
  deriving DecidableEq, Repr

/-- The guard that is true in every lane (06 R124, GE = 0). -/
def Guard.always : Guard := ⟨false, false, false, 0, 0⟩

/-- The operand fields of an instruction word (06 R122) and the immediate word of the long form (06 R123).
`d`, `a`, `b`, `c` are register numbers or constants, by the operand class of the row (06 R125). -/
structure Args where
  guard : Guard
  d : BitVec 8
  a : BitVec 8
  b : BitVec 8
  c : BitVec 8
  /-- The second word, present in long form (06 R123). -/
  long : Option DWord
  /-- FS, the flag selector (06 R120). -/
  fs : Bool
  /-- MOD, the family modifiers (06 R126). -/
  mod : BitVec 5
  deriving DecidableEq, Repr

/-- The six operands of a management command (25 R479). -/
structure MgmtArgs where
  a0 : DWord
  a1 : DWord
  a2 : DWord
  a3 : DWord
  a4 : DWord
  a5 : DWord
  deriving DecidableEq, Repr

/-- One lane's part of an atomic packet (21 R386, 16 R356): the lane, the byte offset of its element within the line,
its operand and, for a compare-and-swap, the value compared. -/
structure PacketLane where
  lane : Nat
  off : Nat
  operand : DWord
  compare : DWord
  deriving DecidableEq, Repr

/-- A Braid packet as the receiving interface meets it (21 R386, R390, R392): kind 0 load, 1 store,
2 atomic; the virtual line address; the bytes with their mask; the ordered flag and its snapshot. -/
structure Packet where
  source : Nat
  part : Nat
  path : Nat
  seq : Nat
  kind : Nat
  line : Nat
  /-- Byte offsets within the line, each with its value (the mask and the data of 21 R386). -/
  bytes : List (Nat × Byte)
  /-- 16 R356: the operation of an atomic: 0 to 8, 9 for CAS; 10 R243: 10 for LDRES; 10 R244: 11 for STCND; with its
  width and FMT. -/
  op : Nat
  width : Nat
  fmt : Nat
  lanes : List PacketLane
  /-- The group that sent it, which holds the reservations of 10 R243 together with the source. -/
  group : Nat
  /-- 02 R30: the packet stores whole granules with their tags. -/
  tagged : Bool
  ordered : Bool
  snapshot : List Nat
  replay : Bool
  deriving DecidableEq, Repr

/-- One section of a code object (04 R71): its sh_type, the index sh_link or sh_info names, the virtual
address it loads at and its bytes. -/
structure ObjSection where
  shType : Nat
  link : Nat
  addr : Nat
  bytes : List Byte
  deriving DecidableEq, Repr

/-- A code object as `drload` meets it (04 R71): the identification fields, the sections, the loaded address of each ELF symbol, and
the address at which the object's own address 0 is loaded. -/
structure CodeObject where
  elfClass64 : Bool
  data2Lsb : Bool
  eMachine : Nat
  eType : Nat
  sections : List ObjSection
  symbols : List Nat
  base : Nat
  deriving DecidableEq, Repr

/-- A place Confluence gives one workgroup (05 R97, R100): logical die, cluster and core, and the
scheduler of each of its native groups. -/
structure PlaceAt where
  ldie : Nat
  lcluster : Nat
  lcore : Nat
  scheds : List Nat
  deriving DecidableEq, Repr

/-- The encoded instruction rows of the opcode table, by name. -/
inductive Op where
  | nop
  | bra
  | brd
  | bri
  | call
  | calli
  | ret
  | maskLanes
  | splitq
  | yield
  | waitevTl
  | waitevBar
  | waitevFlag
  | endLanes
  | trap
  | tret
  | sysRecord
  | sysNotify
  | sysStop
  | bkpt
  | rds
  | wrs
  | launch
  | sadd
  | ssub
  | smul
  | smulh
  | sand
  | sor
  | sxor
  | sshl
  | sshr
  | ssra
  | smin
  | smax
  | scmp
  | ssel
  | smov
  | smovi
  | sbfe
  | sbfi
  | spopc
  | sclz
  | vadd
  | vsub
  | vmul
  | vmulh
  | vmad
  | vand
  | vor
  | vxor
  | vshl
  | vshr
  | vsra
  | vmin
  | vmax
  | vabs
  | vcmp
  | vsel
  | vmov
  | vbfe
  | vbfi
  | vpopc
  | vclz
  | vdot4
  | fadd
  | fsub
  | fmul
  | ffma
  | fmin
  | fmax
  | fcmp
  | fclass
  | frcp
  | frsq
  | fsqrt
  | fexp2
  | flog2
  | fsin
  | fcos
  | fround
  | cvt
  | cvtpk
  | cbexp
  | scalex
  | matchLanes
  | ballot
  | shfl
  | lred
  | lscan
  | rdlane
  | bcast
  | v2s
  | s2v
  | pder
  | padd
  | pfmt
  | pright
  | pget
  | pgetQuad
  | pnull
  | peq
  | widen
  | narrow
  | ld
  | ldVp
  | st
  | stVp
  | ldp
  | ldpQ
  | stp
  | stpQ
  | ldres
  | stcnd
  | pref
  | icinv
  | atom
  | atomn
  | cas
  | binit
  | barv
  | bexp
  | bwait
  | btest
  | binval
  | tlwait
  | tltest
  | tlreadIss
  | tlreadDone
  | stream
  | sgath
  | sdec
  | mloop
  | mstep
  | mstepV
  | aswap
  | azero
  | aread
  | astore
  | amark
  | xtopk
  | xqnt
  | xdqnt
  deriving DecidableEq, Repr

/-- The rows of the opcode table. -/
inductive Instr where
  /-- NOP (R179): Does nothing; its guard fields are still decoded and checked. -/
  | nop (x : Args)
  /-- BRA (R171): Branches the Active lanes to a target, dividing the split when lanes disagree, with an 8-cycle penalty. -/
  | bra (x : Args)
  /-- BRD (R171): Divergent branch to a target with a reconvergence offset, without the BRA penalty. -/
  | brd (x : Args)
  /-- BRI (R172): Branches to a target read from an s register, trapping 0x5005 when the target is misaligned. -/
  | bri (x : Args)
  /-- CALL (R173): Writes the return offset to sD and branches to the label, reconverging at the next clause. -/
  | call (x : Args)
  /-- CALLI (R173): Indirect call: reads the target from sA, writes the return offset, then branches. -/
  | calli (x : Args)
  /-- RET (R173): Branches to the offset held in sA, reconverging at the split's RPC. -/
  | ret (x : Args)
  /-- MASK (R174): Removes lanes from the split, holding them for the RPC or ending them in a root. -/
  | maskLanes (x : Args)
  /-- SPLITQ (R176): Writes one item of the split table, such as the live count, free entries, RPC or parent, to sD. -/
  | splitq (x : Args)
  /-- YIELD (R177): Ends the clause and puts the split last in round robin, with its group treated as the youngest. -/
  | yield (x : Args)
  /-- WAITEV_TL (R178): Parks the split until a timeline reaches a value. -/
  | waitevTl (x : Args)
  /-- WAITEV_BAR (R178): Parks the split until a barrier's phase parity changes. -/
  | waitevBar (x : Args)
  /-- WAITEV_FLAG (R178): Parks the split until a completion flag counter reads zero. -/
  | waitevFlag (x : Args)
  /-- END (R175): Ends the Active lanes; the split dissolves when its mask empties. -/
  | endLanes (x : Args)
  /-- TRAP (R180): Raises software trap 0x5006 with an 8-bit code for the Active lanes. -/
  | trap (x : Args)
  /-- TRET (R181): Returns an in-trap split to its faulting clause at the word given by RETRY. -/
  | tret (x : Args)
  /-- SYS_RECORD (R183): Releases at PKG and writes info record 0x0001 carrying the payload. -/
  | sysRecord (x : Args)
  /-- SYS_NOTIFY (R183): Releases at PKG and sends a KIND 3 interrupt message with the payload, or returns 1 when the ring is full or unset. -/
  | sysNotify (x : Args)
  /-- SYS_STOP (R183): Releases at PKG and fails the nearest fault domain with record 0x0002. -/
  | sysStop (x : Args)
  /-- BKPT (R182): Stops the group at this safe point when breakpoint stops are enabled. -/
  | bkpt (x : Args)
  /-- RDS (R186): Reads a special register into an s or v destination. -/
  | rds (x : Args)
  /-- WRS (R187): Writes FMODE or FSTAT from sA. -/
  | wrs (x : Args)
  /-- LAUNCH (R184): Releases at PKG, submits a launch block from device code, and returns the outcome. -/
  | launch (x : Args)
  /-- SADD (R197): Scalar integer add. -/
  | sadd (x : Args)
  /-- SSUB (R197): Scalar integer subtract. -/
  | ssub (x : Args)
  /-- SMUL (R197): Scalar multiply, low half. -/
  | smul (x : Args)
  /-- SMULH (R197): Scalar multiply, high half. -/
  | smulh (x : Args)
  /-- SAND (R197): Scalar bitwise and. -/
  | sand (x : Args)
  /-- SOR (R197): Scalar bitwise or. -/
  | sor (x : Args)
  /-- SXOR (R197): Scalar bitwise xor. -/
  | sxor (x : Args)
  /-- SSHL (R197): Scalar shift left. -/
  | sshl (x : Args)
  /-- SSHR (R197): Scalar logical shift right. -/
  | sshr (x : Args)
  /-- SSRA (R197): Scalar arithmetic shift right. -/
  | ssra (x : Args)
  /-- SMIN (R197): Scalar minimum. -/
  | smin (x : Args)
  /-- SMAX (R197): Scalar maximum. -/
  | smax (x : Args)
  /-- SCMP (R196): Scalar compare under a condition code, writing all ones or zero. -/
  | scmp (x : Args)
  /-- SSEL (R197): Scalar select on bit 0 of sC. -/
  | ssel (x : Args)
  /-- SMOV (R197): Scalar move. -/
  | smov (x : Args)
  /-- SMOVI (R199): Scalar move of an immediate, 64-bit for the 64-bit types. -/
  | smovi (x : Args)
  /-- SBFE (R197): Scalar bit-field extract. -/
  | sbfe (x : Args)
  /-- SBFI (R197): Scalar bit-field insert. -/
  | sbfi (x : Args)
  /-- SPOPC (R197): Scalar population count. -/
  | spopc (x : Args)
  /-- SCLZ (R197): Scalar count of leading zeros. -/
  | sclz (x : Args)
  /-- VADD (R200): Vector integer add, optionally saturating. -/
  | vadd (x : Args)
  /-- VSUB (R200): Vector integer subtract. -/
  | vsub (x : Args)
  /-- VMUL (R200): Vector multiply, low half. -/
  | vmul (x : Args)
  /-- VMULH (R200): Vector multiply, high half. -/
  | vmulh (x : Args)
  /-- VMAD (R200): Vector multiply-add. -/
  | vmad (x : Args)
  /-- VAND (R200): Vector bitwise and. -/
  | vand (x : Args)
  /-- VOR (R200): Vector bitwise or. -/
  | vor (x : Args)
  /-- VXOR (R200): Vector bitwise xor. -/
  | vxor (x : Args)
  /-- VSHL (R200): Vector shift left. -/
  | vshl (x : Args)
  /-- VSHR (R200): Vector logical shift right. -/
  | vshr (x : Args)
  /-- VSRA (R200): Vector arithmetic shift right. -/
  | vsra (x : Args)
  /-- VMIN (R200): Vector minimum. -/
  | vmin (x : Args)
  /-- VMAX (R200): Vector maximum. -/
  | vmax (x : Args)
  /-- VABS (R200): Vector absolute value, signed types only. -/
  | vabs (x : Args)
  /-- VCMP (R200): Vector compare under a condition code. -/
  | vcmp (x : Args)
  /-- VSEL (R200): Vector select on a per-element bit. -/
  | vsel (x : Args)
  /-- VMOV (R200): Vector move, or move of an immediate. -/
  | vmov (x : Args)
  /-- VBFE (R200): Vector bit-field extract. -/
  | vbfe (x : Args)
  /-- VBFI (R200): Vector bit-field insert. -/
  | vbfi (x : Args)
  /-- VPOPC (R200): Vector population count. -/
  | vpopc (x : Args)
  /-- VCLZ (R200): Vector count of leading zeros. -/
  | vclz (x : Args)
  /-- VDOT4 (R201): Four-way 8-bit dot product added to a 32-bit accumulator. -/
  | vdot4 (x : Args)
  /-- FADD (R203): Floating-point add, correctly rounded. -/
  | fadd (x : Args)
  /-- FSUB (R203): Floating-point subtract. -/
  | fsub (x : Args)
  /-- FMUL (R203): Floating-point multiply. -/
  | fmul (x : Args)
  /-- FFMA (R203): Fused multiply-add with a single rounding. -/
  | ffma (x : Args)
  /-- FMIN (R205): Floating-point minimum with NaN handling. -/
  | fmin (x : Args)
  /-- FMAX (R205): Floating-point maximum with NaN handling. -/
  | fmax (x : Args)
  /-- FCMP (R206): Floating-point compare under a condition code. -/
  | fcmp (x : Args)
  /-- FCLASS (R207): Writes a one-hot class of each element. -/
  | fclass (x : Args)
  /-- FRCP (R203): Correctly rounded reciprocal. -/
  | frcp (x : Args)
  /-- FRSQ (R203): Correctly rounded reciprocal square root. -/
  | frsq (x : Args)
  /-- FSQRT (R203): Correctly rounded square root. -/
  | fsqrt (x : Args)
  /-- FEXP2 (R203): Correctly rounded 2 to the power of a. -/
  | fexp2 (x : Args)
  /-- FLOG2 (R203): Correctly rounded base-2 logarithm. -/
  | flog2 (x : Args)
  /-- FSIN (R203): Correctly rounded sin(pi times a). -/
  | fsin (x : Args)
  /-- FCOS (R203): Correctly rounded cos(pi times a). -/
  | fcos (x : Args)
  /-- FROUND (R208): Rounds to an integral value in the chosen mode. -/
  | fround (x : Args)
  /-- CVT (R210): Converts one element per lane between formats. -/
  | cvt (x : Args)
  /-- CVTPK (R211): Converts two f32 values and inserts them as a pair of narrow elements. -/
  | cvtpk (x : Args)
  /-- CBEXP (R213): Expands a cb2 index into eight weights read from a scratchpad codebook. -/
  | cbexp (x : Args)
  /-- SCALEX (R212): Multiplies an f32 value by a scl10 block scale. -/
  | scalex (x : Args)
  /-- MATCH (R215): Writes, per lane, the mask of participating lanes holding an equal value. -/
  | matchLanes (x : Args)
  /-- BALLOT (R216): Collects one bit per participating lane into a scalar mask. -/
  | ballot (x : Args)
  /-- SHFL (R217): Shuffles values between participating lanes by index, up, down or xor. -/
  | shfl (x : Args)
  /-- LRED (R218): Reduces the participating lanes over a fixed tree. -/
  | lred (x : Args)
  /-- LSCAN (R219): Inclusive or exclusive scan in ascending lane order. -/
  | lscan (x : Args)
  /-- RDLANE (R220): Reads one lane's value into a scalar register. -/
  | rdlane (x : Args)
  /-- BCAST (R220): Broadcasts one lane's value to the Active lanes. -/
  | bcast (x : Args)
  /-- V2S (R220): Moves the lowest Active lane's value into a scalar register. -/
  | v2s (x : Args)
  /-- S2V (R220): Writes a scalar value into every Active lane. -/
  | s2v (x : Args)
  /-- PDER (R223): Derives a pointer to a sub-range given by an offset and a length. -/
  | pder (x : Args)
  /-- PADD (R223): Advances a pointer's base and shortens its length. -/
  | padd (x : Args)
  /-- PFMT (R224): Replaces a pointer's FMT. -/
  | pfmt (x : Args)
  /-- PRIGHT (R225): Clears rights and may lower CEIL. -/
  | pright (x : Args)
  /-- PGET (R226): Reads one pointer field into an s register. -/
  | pget (x : Args)
  /-- PGET_QUAD (R226): Writes a whole pointer into a vector quad and sets its pointer-valid bit when the pointer is well-formed. -/
  | pgetQuad (x : Args)
  /-- PNULL (R227): Writes the null pointer. -/
  | pnull (x : Args)
  /-- PEQ (R228): Tests two pointers for equality or containment. -/
  | peq (x : Args)
  /-- WIDEN (R229): Releases the range at the new scope and makes the pointer SYNC at the wider scope. -/
  | widen (x : Args)
  /-- NARROW (R229): Acquires over the range and makes the pointer PRIV at a narrower scope. -/
  | narrow (x : Args)
  /-- LD (R234): Flag-counted load through a register pointer, converting from the memory FMT to the register type. -/
  | ld (x : Args)
  /-- LD_VP (R234): Vector-pointer form of LD, with one pointer per lane from a V4 quad. -/
  | ldVp (x : Args)
  /-- ST (R234): Store through a register pointer, converting to the memory FMT. -/
  | st (x : Args)
  /-- ST_VP (R234): Vector-pointer form of ST. -/
  | stVp (x : Args)
  /-- LDP (R241): Loads one tagged pointer granule into a p register. -/
  | ldp (x : Args)
  /-- LDP_Q (R241): Loads a tagged pointer per lane into a vector quad. -/
  | ldpQ (x : Args)
  /-- STP (R241): Stores a p register as a tagged granule. -/
  | stp (x : Args)
  /-- STP_Q (R241): Stores each lane's vector-quad pointer as a tagged granule. -/
  | stpQ (x : Args)
  /-- LDRES (R243): Loads an element and sets the lane's reservation on it. -/
  | ldres (x : Args)
  /-- STCND (R244): Stores when the lane's reservation holds and writes a status. -/
  | stcnd (x : Args)
  /-- PREF (R245): Hints a line into L1 or the Firn without faulting. -/
  | pref (x : Args)
  /-- ICINV (R246): Releases code writes and discards overlapping instruction-cache lines within a scope. -/
  | icinv (x : Args)
  /-- ATOM (R357): Per-lane atomic read-modify-write that returns the old value. -/
  | atom (x : Args)
  /-- ATOMN (R357): Per-lane atomic read-modify-write with no return. -/
  | atomn (x : Args)
  /-- CAS (R357): Per-lane compare-and-swap that returns the old value. -/
  | cas (x : Args)
  /-- BINIT (R350): Initialises a barrier with its expected arrivals. -/
  | binit (x : Args)
  /-- BARV (R350): Releases at CLUS, arrives at a barrier and optionally adds transaction bytes. -/
  | barv (x : Args)
  /-- BEXP (R350): Adds expected transaction bytes to a barrier. -/
  | bexp (x : Args)
  /-- BWAIT (R353): Holds the split until the barrier's parity changes, then acquires at CLUS. -/
  | bwait (x : Args)
  /-- BTEST (R350): Tests the barrier's parity and acquires when the awaited phase is complete. -/
  | btest (x : Args)
  /-- BINVAL (R350): Invalidates a barrier that is not busy. -/
  | binval (x : Args)
  /-- TLWAIT (R355): Holds the split until a timeline reaches n, then acquires. -/
  | tlwait (x : Args)
  /-- TLTEST (R355): Tests whether a timeline has reached n, acquiring when it has. -/
  | tltest (x : Args)
  /-- TLREAD_ISS (R355): Reads a timeline's issued count. -/
  | tlreadIss (x : Args)
  /-- TLREAD_DONE (R355): Reads a timeline's reached value. -/
  | tlreadDone (x : Args)
  /-- STREAM (R282): Issues a tensor copy of up to nine dimensions to the stream engine and takes a ticket. -/
  | stream (x : Args)
  /-- SGATH (R283): Issues a gather copy driven by an index list. -/
  | sgath (x : Args)
  /-- SDEC (R284): Issues a decode of a coded weight stream into scratchpad. -/
  | sdec (x : Args)
  /-- MLOOP (R311): Queues count matrix steps on a tile's working bank. -/
  | mloop (x : Args)
  /-- MSTEP (R311): Queues one matrix step with A taken from scratchpad. -/
  | mstep (x : Args)
  /-- MSTEP_V (R303): Queues one matrix step with A taken from 32 vector registers. -/
  | mstepV (x : Args)
  /-- ASWAP (R313): Queues an exchange of a tile's working and visible banks in tile order. -/
  | aswap (x : Args)
  /-- AZERO (R313): Queues the zeroing of a tile's working bank. -/
  | azero (x : Args)
  /-- AREAD (R314): Flag-counted read of visible-bank rows into v registers. -/
  | aread (x : Args)
  /-- ASTORE (R318): Registers and queues a store of visible-bank rows to own-core scratchpad. -/
  | astore (x : Args)
  /-- AMARK (R316): Writes 64 when earlier tile operations have completed and 0 otherwise, or the legacy watermark. -/
  | amark (x : Args)
  /-- XTOPK (R322): Sends to the transform pipe a selection of the K largest values of x plus a residual, with error feedback. -/
  | xtopk (x : Args)
  /-- XQNT (R323): Sends to the transform pipe a block quantisation under a computed scale. -/
  | xqnt (x : Args)
  /-- XDQNT (R324): Sends to the transform pipe a block dequantisation under a given scale. -/
  | xdqnt (x : Args)
  /-- CLAUSE_FETCH (R112): Demand fetch of a clause through the fetch copy of p31, with its checks and translation. -/
  | clauseFetch (g sid : Nat)
  /-- CLAUSE_PREFETCH (R114): Sequential prefetch of clauses that never faults and stops at the listed limits. -/
  | clausePrefetch (g sid n : Nat)
  /-- CLAUSE_START (R119): A split reaches a clause start: RPC test, illegal-clause check and WAIT test. -/
  | clauseStart (g sid : Nat)
  /-- WAIT_RETEST_START (R155): A waiting-flags or held split starts its clause once every selected counter reads zero. -/
  | waitRetestStart (g sid : Nat)
  /-- SPILL_ROTATION (R153): The head of the spill queue is exchanged in after waiting 32,768 cycles. -/
  | spillRotation (g : Nat)
  /-- SPILL_CONDITION_TEST (R153): Periodic test, at least every 4,096 cycles, of the conditions of spilled waiting splits. -/
  | spillConditionTest (g : Nat)
  /-- EVENT_WAKE (R156): A waiting-event split becomes ready when its condition holds. -/
  | eventWake (g sid : Nat)
  /-- STARVATION_GUARD (R160): A split issue-ready for 2,048 cycles is chosen ahead of others. -/
  | starvationGuard (g sid : Nat)
  /-- CAP_RECOMPUTE (R162): Every 256 cycles the core recomputes the global memory issue cap. -/
  | capRecompute (core : Nat)
  /-- FLAG_COUNTED_COMPLETION (R120): A flag-counted instruction writes its destinations and decrements its flag counter. -/
  | flagCountedCompletion (g op : Nat)
  /-- BWAIT_PASS (R353): A held BWAIT passes when the parity changes and acquires at CLUS. -/
  | bwaitPass (g sid : Nat)
  /-- TLWAIT_PASS (R355): A held TLWAIT passes when the timeline reaches n and acquires. -/
  | tlwaitPass (g sid : Nat)
  /-- PAGE_WALK (R254): A TLB miss walks the page table and installs or faults, squashing any predicted access. -/
  | pageWalk (core part va : Nat)
  /-- SCOREBOARD_ENTRY_GRANT (R296): A waiting operation is granted a free scoreboard entry and registers. -/
  | scoreboardEntryGrant (g sid : Nat)
  /-- SCOREBOARD_ADMIT (R294): A group scratchpad access held on an interval passes once the conflict clears. -/
  | scoreboardAdmit (g sid : Nat)
  /-- STREAM_LANDING (R288): Stream bytes land, completing intervals and decrementing the barrier's pending transactions. -/
  | streamLanding (op : Nat) (elems : List Nat)
  /-- SDEC_DECODE (R68): The engine decodes an SDEC stream in turn, landing bytes or raising decode faults. -/
  | sdecDecode (op n : Nat)
  /-- ENGINE_OP_COMPLETE (R286): An engine operation completes, contributing flags, advancing its timeline and freeing its entry. -/
  | engineOpComplete (op : Nat)
  /-- ENGINE_OP_FAULT (R286): A fault met by an engine operation after issue is fatal. -/
  | engineOpFault (op : Nat)
  /-- MATRIX_QUEUE_GRANT (R317): An MLOOP or MSTEP waiting for a sequencer queue place is queued. -/
  | matrixQueueGrant (g sid : Nat)
  /-- MATRIX_STEP (R307): The sequencer performs one step on a tile's working bank. -/
  | matrixStep (core : Nat)
  /-- TILE_AZERO_EFFECT (R315): AZERO takes effect in tile order after earlier steps complete. -/
  | tileAzeroEffect (op : Nat)
  /-- TILE_ASWAP_EFFECT (R315): ASWAP exchanges the banks once earlier tile operations allow. -/
  | tileAswapEffect (op : Nat)
  /-- TILE_AREAD_EFFECT (R314): AREAD reads visible-bank rows in tile order and writes its destinations. -/
  | tileAreadEffect (op : Nat)
  /-- TILE_ASTORE_EFFECT (R318): ASTORE writes visible-bank rows to scratchpad in tile order and completes. -/
  | tileAstoreEffect (op : Nat)
  /-- TRANSFORM_REPLY (R320): The transform pipe replies, writes the destinations and contributes flags. -/
  | transformReply (g op : Nat)
  /-- GROUP_END (R363): A group with no split ends once its accesses are performed and its counters are zero. -/
  | groupEnd (g : Nat)
  /-- SUBMIT (R89): A write to a SUBMIT ADDR port has the launch checked and accepted, found full or rejected. -/
  | submit (part port : Nat) (addr : DWord)
  /-- SUBMIT_STATUS_READ (R88): A read of a port's STATUS completes once the outcome of the last write is decided. -/
  | submitStatusRead (part port : Nat)
  /-- FAILACK (R91): A write of a failed launch's ticket frees its queue entry. -/
  | failack (part : Nat) (ticket : DWord)
  /-- LAUNCH_READY (R92): A queued launch becomes ready, or fails with 0xB108, once its prerequisites resolve. -/
  | launchReady (part ticket : Nat)
  /-- CARVEOUT_OFFSET_FIX (R103): Confluence fixes a ready launch's carve-out offset once room exists on every die. -/
  | carveoutOffsetFix (part ticket off : Nat)
  /-- PLACEMENT_BEGIN (R94): Placement of a ready launch begins: mint checks, STATE 3 and the PKG acquire by cache invalidation. -/
  | placementBegin (part ticket : Nat)
  /-- WORKGROUP_PLACE (R97): A workgroup or gang is made resident once the limits and budgets allow, with registers zeroed. -/
  | workgroupPlace (part ticket : Nat) (places : List PlaceAt)
  /-- WORKGROUP_RETIRE (R444): A workgroup retires once its groups, timelines, tile operations and entries are done. -/
  | workgroupRetire (w : Nat)
  /-- LAUNCH_COMPLETE (R445): The last retirement releases at PKG, writes STATE 4, frees the entry, readies dependants and notifies. -/
  | launchComplete (part ticket : Nat)
  /-- LAUNCH_FAIL (R414): A failed launch writes back, sets STATE 5, keeps its entry and notifies. -/
  | launchFail (part ticket : Nat)
  /-- QUANTUM_EXPIRY (R106): A slice's quantum expires and the slice is renewed or ended. -/
  | quantumExpiry (die cluster : Nat)
  /-- PREEMPTION (R418): Confluence signals pre-emption and each split stops as its state requires. -/
  | preemption (die cluster : Nat)
  /-- CONTEXT_SAVE (R419): Once drains complete, contexts are saved to shadow storage. -/
  | contextSave (die cluster : Nat)
  /-- CONTEXT_RESTORE (R426): Contexts are restored with binding tables reloaded and instruction caches discarded. -/
  | contextRestore (die cluster part : Nat) (scheds : List (Nat × Nat)) (lost : Bool)
  /-- FAULT_DOMAIN_HALT (R415): A fatal fault broadcasts a halt, and groups stop and drain. -/
  | faultDomainHalt
  /-- DUMP_WRITE (R447): The dump writer writes a halted domain's dump, then frees its resources. -/
  | dumpWrite
  /-- IRQ_MESSAGE_DELIVER (R402): A held interrupt message is written into the ring once it has room, and signalled. -/
  | irqMessageDeliver (part : Nat)
  /-- SLICE_REGISTRATION (R367): A core's released or evicted D words are registered or written at the die's slice. -/
  | sliceRegistration (core key : Nat)
  /-- L1_EVICTION (R367): An L1 line is evicted and its written words are sent to the slice. -/
  | l1Eviction (core line : Nat)
  /-- FORWARDED_READ (R369): A read of a registered word is forwarded to the registrant core. -/
  | forwardedRead (core key : Nat)
  /-- DIRECTORY_REQUEST (R374): The home directory serves a shared or ownership request on a node. -/
  | directoryRequest (holder : Nat) (own : Bool) (line : Nat)
  /-- NODE_MERGE (R376): Quiet compatible sibling nodes merge. -/
  | nodeMerge (die base : Nat)
  /-- DIRECTORY_EVICTION (R378): The directory drops a node after recalling its holders. -/
  | directoryEviction (die base : Nat)
  /-- RECALL (R381): A recall reaches a holder's slices, which collect, cancel reservations and send the lines home. -/
  | recall (die base : Nat) (sharing : Bool)
  /-- COMPANION_WRITE (R334): A companion write over Mbatil acts as a SYNC store at PKG. -/
  | companionWrite (pa : Nat) (bytes : List Byte)
  /-- COMPANION_READ (R334): A companion read over Mbatil acts as a SYNC load at PKG. -/
  | companionRead (pa n : Nat)
  /-- PACKET_RECEIVE (R390): The receiving interface performs a Braid packet at the owner's home slice and acknowledges it. -/
  | packetReceive (p : Packet)
  /-- ORDERED_PACKET_RELEASE (R393): A held ordered packet is performed once PERF covers its snapshot. -/
  | orderedPacketRelease (source part path seq : Nat)
  /-- PACKET_ACK (R388): An acknowledgement arrives and advances ACKED on its path.  A response brings the bytes of a load by
their offset in the line with the offsets of the tagged granules; of an atomic, byte i of lane l under 8 × l + i. -/
  | packetAck (dest part path seq : Nat) (bytes : List (Nat × Byte)) (tags : List Nat) (faultCode : Nat)
  /-- PACKET_REFUSAL (R398): A refusal from a package without the partition raises 0x8003. -/
  | packetRefusal (dest part path seq : Nat)
  /-- PATH_DOWN (R397): A path declared down has its unacknowledged packets replayed on surviving paths. -/
  | pathDown (dest path : Nat)
  /-- PATH_RESTORE (R397): A retrained path is restored once ACKED equals SENT for every context. -/
  | pathRestore (dest path : Nat)
  /-- DOORBELL (R403): A write to DOORBELL starts the command held in CMD and ARG. -/
  | doorbell (value : DWord)
  /-- MSTAT_READ (R403): A read of MSTAT completes when the command leaves busy, or after 10 µs. -/
  | mstatRead
  /-- REGISTER_WRITE (R403): A write to a register with no row of its own, such as CMD and ARG, ignored while busy. -/
  | registerWrite (pa : Nat) (value : DWord)
  /-- SUMMARY (R481): Writes the package summary to a companion buffer. -/
  | summary (x : MgmtArgs)
  /-- PCREATE (R478): Creates a partition from a descriptor. -/
  | pcreate (x : MgmtArgs)
  /-- PDESTROY (R488): Resets the partition and frees its number and resources. -/
  | pdestroy (x : MgmtArgs)
  /-- PRECFG (R488): Changes a partition's priority, extents and logical clusters. -/
  | precfg (x : MgmtArgs)
  /-- PRESET (R474): Partition reset: contexts, queue entries and launches are lost. -/
  | preset (x : MgmtArgs)
  /-- TLBI (R267): Invalidates translations for a range and completes when the old entries are gone. -/
  | tlbi (x : MgmtArgs)
  /-- COHCFG (R377): Writes a die's COHCTL. -/
  | cohcfg (x : MgmtArgs)
  /-- CNTCLR (R469): Clears the class and coherence counters. -/
  | cntclr (x : MgmtArgs)
  /-- IRQCFG (R402): Sets a partition's interrupt ring and zeroes its header. -/
  | irqcfg (x : MgmtArgs)
  /-- ERRCFG (R468): Sets a partition's error area ring. -/
  | errcfg (x : MgmtArgs)
  /-- ERRREAD (R468): Copies records of Cirque's copy to a buffer. -/
  | errread (x : MgmtArgs)
  /-- ACCFG (R262): Sets a partition's counter ring and threshold, discarding counts. -/
  | accfg (x : MgmtArgs)
  /-- OBSCFG (R430): Writes the observation control set from a descriptor. -/
  | obscfg (x : MgmtArgs)
  /-- STOP (R431): Management command that requests a stop of a partition or launch. -/
  | stop (x : MgmtArgs)
  /-- RESUME (R432): Restarts every stopped split of a set. -/
  | resume (x : MgmtArgs)
  /-- STEP (R432): Runs one group's splits to their next stop sites. -/
  | step (x : MgmtArgs)
  /-- HISTRD (R436): Reads, and optionally clears, a scheduler's stall counters. -/
  | histrd (x : MgmtArgs)
  /-- SNAP (R437): Broadcasts a snapshot trigger and sets its options. -/
  | snap (x : MgmtArgs)
  /-- CKFREE (R439): Frees a checkpoint by merging it into the next. -/
  | ckfree (x : MgmtArgs)
  /-- REPLAY (R441): Rebuilds from checkpoints and replays against the Moraine log. -/
  | replay (x : MgmtArgs)
  /-- DUMPCFG (R446): Sets a partition's dump area and writes its header. -/
  | dumpcfg (x : MgmtArgs)
  /-- FWLOAD (R477): Loads a firmware image into the inactive slot of every Cirque. -/
  | fwload (x : MgmtArgs)
  /-- FWSWITCH (R484): Switches each Cirque in turn to the inactive image. -/
  | fwswitch (x : MgmtArgs)
  /-- RETIRE (R485): Retires a cluster or marks cores defective. -/
  | retire (x : MgmtArgs)
  /-- RETURN (R485): Returns a retired cluster or cores to service. -/
  | returnUnit (x : MgmtArgs)
  /-- DRCAL (R486): Recalibrates a DRAM channel, mapping it out on failure. -/
  | drcal (x : MgmtArgs)
  /-- LTRAIN (R487): Retrains a Braid port or Mbatil lanes. -/
  | ltrain (x : MgmtArgs)
  /-- RESET (R474): Resets the package, a die or a cluster, warm or not. -/
  | reset (x : MgmtArgs)
  /-- MEMCHK (R477): Tests a cluster's shadow bank set. -/
  | memchk (x : MgmtArgs)
  /-- COLD_RESET (R10): Power-on: each Cirque tests its clusters and chooses a spare, and a master is elected. -/
  | coldReset (pass : List (BitVec 7)) (spares : List Nat) (master : Nat)
  /-- SAMPLE_TIMER (R434): A scheduler's sample timer fires and chooses a split. -/
  | sampleTimer (die cluster core sched : Nat)
  /-- SAMPLE_WRITE (R434): The chosen split reaches its stop site and a sample is written, or it is dropped. -/
  | sampleWrite (g sid : Nat)
  /-- STOP_AT_SITE (R431): A split stops at a stop site or, after 65,536 cycles, at a clause boundary. -/
  | stopAtSite (g sid : Nat)
  /-- SNAPSHOT_LATCH (R437): A trigger reaches a block, which latches its snapshot registers. -/
  | snapshotLatch (die : Nat)
  /-- CHECKPOINT (R438): The checkpoint period expires: groups stop, contexts are written and regions marked pending. -/
  | checkpoint (part : Nat)
  /-- CHECKPOINT_REGION_COPY (R438): A pending region is copied to the checkpoint area. -/
  | checkpointRegionCopy (part va : Nat)
  /-- REPLAY_EVENT (R441): During replay a home matches an arriving event against its log. -/
  | replayEvent (part home : Nat) (kind ticket wg group lane : Nat) (addr value : DWord)
  /-- CODE_OBJECT_LOAD (R79): drload places, relocates and patches a code object, or fails with no change. -/
  | codeObjectLoad (part : Nat) (obj : CodeObject)
  /-- TRANSFORM_PIPE_ACCEPT (R320): The transform pipe, once free, accepts the next waiting XTOPK, XQNT or XDQNT in the order in which they became issue-ready. -/
  | transformPipeAccept (core : Nat)
  /-- CIRQUE_WATCHDOG_RESET (R474): A Cirque silent for 100 ms is reset, writing 0xB405. -/
  | cirqueWatchdogReset (die master : Nat)
  /-- FIRMWARE_FAULT (R474): A firmware self-check fault takes the other image. -/
  | firmwareFault (die master : Nat)
  /-- THERMAL_TRIP (R474): A temperature beyond trip resets the die. -/
  | thermalTrip (die : Nat)
  /-- DIE_THROTTLE (R471): A die near its thermal or current limit is throttled, writing 0xA001. -/
  | dieThrottle (die : Nat)
  /-- POWER_CAP_REACHED (R471): The module power cap is reached and the part throttles, writing 0xA002. -/
  | powerCapReached
  /-- UNCORRECTABLE_ERROR (R472): An uncorrectable error poisons a granule, and a read of it faults fatally. -/
  | uncorrectableError (key : Nat) (reader : Option Nat)
  /-- PATROL_SCRUB (R473): The patrol scrubber reads and corrects memory, poisoning what it cannot correct. -/
  | patrolScrub (die : Nat) (bad : List Nat)
  /-- RECALL_BOUND_EXCEEDED (R471): A recall not acknowledged within the bound of R382 raises 0x7001 and halts every partition holding the node. -/
  | recallBoundExceeded (die base : Nat)
  /-- DIRECTORY_ARRAY_UNCORRECTABLE (R474): An uncorrectable error in a directory array raises 0x7002 and takes a die reset. -/
  | directoryArrayUncorrectable (die : Nat)
  /-- PACKAGE_INTERCONNECT_FAILURE (R474): A failure of the package interconnect takes a package reset that loses all state and DRAM contents. -/
  | packageInterconnectFailure
  /-- LINK_LOSS_RESET (R474): The link down for 10 ms takes a link-loss reset and is retrained. -/
  | linkLossReset
  /-- MBATIL_LINK_DOWN (R404): The Mbatil link goes down and in-flight accesses raise 0x9001. -/
  | mbatilLinkDown
  /-- MBATIL_LANE_DEGRADED (R404): A lane retrains while others carry traffic, raising 0x9002. -/
  | mbatilLaneDegraded (lane : Nat)
  /-- DESTINATION_UNREACHABLE (R398): After 200 µs with no path, contexts raise 0x8002 and the partition halts on the sending package. -/
  | destinationUnreachable (dest : Nat)
  /-- STALL_HISTOGRAM_COUNT (R166): Every cycle each scheduler increments exactly one of H0 to H16 and, on H0 cycles, one of Z0 to Z11. -/
  | stallHistogramCount (die cluster core sched : Nat)
  /-- REPLAY_HOLD_TIMEOUT (R441): A held replay event waiting 2^20 cycles is a divergence. -/
  | replayHoldTimeout (part home : Nat)
  /-- SCORE_HALVING (R162): Every 1,024 cycles every lost-locality score halves. -/
  | scoreHalving (core : Nat)
  deriving DecidableEq, Repr

/-- The instruction a row name and its fields make. -/
def Op.instr (o : Op) (x : Args) : Instr :=
  match o with
  | .nop => .nop x
  | .bra => .bra x
  | .brd => .brd x
  | .bri => .bri x
  | .call => .call x
  | .calli => .calli x
  | .ret => .ret x
  | .maskLanes => .maskLanes x
  | .splitq => .splitq x
  | .yield => .yield x
  | .waitevTl => .waitevTl x
  | .waitevBar => .waitevBar x
  | .waitevFlag => .waitevFlag x
  | .endLanes => .endLanes x
  | .trap => .trap x
  | .tret => .tret x
  | .sysRecord => .sysRecord x
  | .sysNotify => .sysNotify x
  | .sysStop => .sysStop x
  | .bkpt => .bkpt x
  | .rds => .rds x
  | .wrs => .wrs x
  | .launch => .launch x
  | .sadd => .sadd x
  | .ssub => .ssub x
  | .smul => .smul x
  | .smulh => .smulh x
  | .sand => .sand x
  | .sor => .sor x
  | .sxor => .sxor x
  | .sshl => .sshl x
  | .sshr => .sshr x
  | .ssra => .ssra x
  | .smin => .smin x
  | .smax => .smax x
  | .scmp => .scmp x
  | .ssel => .ssel x
  | .smov => .smov x
  | .smovi => .smovi x
  | .sbfe => .sbfe x
  | .sbfi => .sbfi x
  | .spopc => .spopc x
  | .sclz => .sclz x
  | .vadd => .vadd x
  | .vsub => .vsub x
  | .vmul => .vmul x
  | .vmulh => .vmulh x
  | .vmad => .vmad x
  | .vand => .vand x
  | .vor => .vor x
  | .vxor => .vxor x
  | .vshl => .vshl x
  | .vshr => .vshr x
  | .vsra => .vsra x
  | .vmin => .vmin x
  | .vmax => .vmax x
  | .vabs => .vabs x
  | .vcmp => .vcmp x
  | .vsel => .vsel x
  | .vmov => .vmov x
  | .vbfe => .vbfe x
  | .vbfi => .vbfi x
  | .vpopc => .vpopc x
  | .vclz => .vclz x
  | .vdot4 => .vdot4 x
  | .fadd => .fadd x
  | .fsub => .fsub x
  | .fmul => .fmul x
  | .ffma => .ffma x
  | .fmin => .fmin x
  | .fmax => .fmax x
  | .fcmp => .fcmp x
  | .fclass => .fclass x
  | .frcp => .frcp x
  | .frsq => .frsq x
  | .fsqrt => .fsqrt x
  | .fexp2 => .fexp2 x
  | .flog2 => .flog2 x
  | .fsin => .fsin x
  | .fcos => .fcos x
  | .fround => .fround x
  | .cvt => .cvt x
  | .cvtpk => .cvtpk x
  | .cbexp => .cbexp x
  | .scalex => .scalex x
  | .matchLanes => .matchLanes x
  | .ballot => .ballot x
  | .shfl => .shfl x
  | .lred => .lred x
  | .lscan => .lscan x
  | .rdlane => .rdlane x
  | .bcast => .bcast x
  | .v2s => .v2s x
  | .s2v => .s2v x
  | .pder => .pder x
  | .padd => .padd x
  | .pfmt => .pfmt x
  | .pright => .pright x
  | .pget => .pget x
  | .pgetQuad => .pgetQuad x
  | .pnull => .pnull x
  | .peq => .peq x
  | .widen => .widen x
  | .narrow => .narrow x
  | .ld => .ld x
  | .ldVp => .ldVp x
  | .st => .st x
  | .stVp => .stVp x
  | .ldp => .ldp x
  | .ldpQ => .ldpQ x
  | .stp => .stp x
  | .stpQ => .stpQ x
  | .ldres => .ldres x
  | .stcnd => .stcnd x
  | .pref => .pref x
  | .icinv => .icinv x
  | .atom => .atom x
  | .atomn => .atomn x
  | .cas => .cas x
  | .binit => .binit x
  | .barv => .barv x
  | .bexp => .bexp x
  | .bwait => .bwait x
  | .btest => .btest x
  | .binval => .binval x
  | .tlwait => .tlwait x
  | .tltest => .tltest x
  | .tlreadIss => .tlreadIss x
  | .tlreadDone => .tlreadDone x
  | .stream => .stream x
  | .sgath => .sgath x
  | .sdec => .sdec x
  | .mloop => .mloop x
  | .mstep => .mstep x
  | .mstepV => .mstepV x
  | .aswap => .aswap x
  | .azero => .azero x
  | .aread => .aread x
  | .astore => .astore x
  | .amark => .amark x
  | .xtopk => .xtopk x
  | .xqnt => .xqnt x
  | .xdqnt => .xdqnt x

/-- The row name and the fields of an encoded instruction; none for an event or a command. -/
def Instr.opArgs? (i : Instr) : Option (Op × Args) :=
  match i with
  | .nop x => some (.nop, x)
  | .bra x => some (.bra, x)
  | .brd x => some (.brd, x)
  | .bri x => some (.bri, x)
  | .call x => some (.call, x)
  | .calli x => some (.calli, x)
  | .ret x => some (.ret, x)
  | .maskLanes x => some (.maskLanes, x)
  | .splitq x => some (.splitq, x)
  | .yield x => some (.yield, x)
  | .waitevTl x => some (.waitevTl, x)
  | .waitevBar x => some (.waitevBar, x)
  | .waitevFlag x => some (.waitevFlag, x)
  | .endLanes x => some (.endLanes, x)
  | .trap x => some (.trap, x)
  | .tret x => some (.tret, x)
  | .sysRecord x => some (.sysRecord, x)
  | .sysNotify x => some (.sysNotify, x)
  | .sysStop x => some (.sysStop, x)
  | .bkpt x => some (.bkpt, x)
  | .rds x => some (.rds, x)
  | .wrs x => some (.wrs, x)
  | .launch x => some (.launch, x)
  | .sadd x => some (.sadd, x)
  | .ssub x => some (.ssub, x)
  | .smul x => some (.smul, x)
  | .smulh x => some (.smulh, x)
  | .sand x => some (.sand, x)
  | .sor x => some (.sor, x)
  | .sxor x => some (.sxor, x)
  | .sshl x => some (.sshl, x)
  | .sshr x => some (.sshr, x)
  | .ssra x => some (.ssra, x)
  | .smin x => some (.smin, x)
  | .smax x => some (.smax, x)
  | .scmp x => some (.scmp, x)
  | .ssel x => some (.ssel, x)
  | .smov x => some (.smov, x)
  | .smovi x => some (.smovi, x)
  | .sbfe x => some (.sbfe, x)
  | .sbfi x => some (.sbfi, x)
  | .spopc x => some (.spopc, x)
  | .sclz x => some (.sclz, x)
  | .vadd x => some (.vadd, x)
  | .vsub x => some (.vsub, x)
  | .vmul x => some (.vmul, x)
  | .vmulh x => some (.vmulh, x)
  | .vmad x => some (.vmad, x)
  | .vand x => some (.vand, x)
  | .vor x => some (.vor, x)
  | .vxor x => some (.vxor, x)
  | .vshl x => some (.vshl, x)
  | .vshr x => some (.vshr, x)
  | .vsra x => some (.vsra, x)
  | .vmin x => some (.vmin, x)
  | .vmax x => some (.vmax, x)
  | .vabs x => some (.vabs, x)
  | .vcmp x => some (.vcmp, x)
  | .vsel x => some (.vsel, x)
  | .vmov x => some (.vmov, x)
  | .vbfe x => some (.vbfe, x)
  | .vbfi x => some (.vbfi, x)
  | .vpopc x => some (.vpopc, x)
  | .vclz x => some (.vclz, x)
  | .vdot4 x => some (.vdot4, x)
  | .fadd x => some (.fadd, x)
  | .fsub x => some (.fsub, x)
  | .fmul x => some (.fmul, x)
  | .ffma x => some (.ffma, x)
  | .fmin x => some (.fmin, x)
  | .fmax x => some (.fmax, x)
  | .fcmp x => some (.fcmp, x)
  | .fclass x => some (.fclass, x)
  | .frcp x => some (.frcp, x)
  | .frsq x => some (.frsq, x)
  | .fsqrt x => some (.fsqrt, x)
  | .fexp2 x => some (.fexp2, x)
  | .flog2 x => some (.flog2, x)
  | .fsin x => some (.fsin, x)
  | .fcos x => some (.fcos, x)
  | .fround x => some (.fround, x)
  | .cvt x => some (.cvt, x)
  | .cvtpk x => some (.cvtpk, x)
  | .cbexp x => some (.cbexp, x)
  | .scalex x => some (.scalex, x)
  | .matchLanes x => some (.matchLanes, x)
  | .ballot x => some (.ballot, x)
  | .shfl x => some (.shfl, x)
  | .lred x => some (.lred, x)
  | .lscan x => some (.lscan, x)
  | .rdlane x => some (.rdlane, x)
  | .bcast x => some (.bcast, x)
  | .v2s x => some (.v2s, x)
  | .s2v x => some (.s2v, x)
  | .pder x => some (.pder, x)
  | .padd x => some (.padd, x)
  | .pfmt x => some (.pfmt, x)
  | .pright x => some (.pright, x)
  | .pget x => some (.pget, x)
  | .pgetQuad x => some (.pgetQuad, x)
  | .pnull x => some (.pnull, x)
  | .peq x => some (.peq, x)
  | .widen x => some (.widen, x)
  | .narrow x => some (.narrow, x)
  | .ld x => some (.ld, x)
  | .ldVp x => some (.ldVp, x)
  | .st x => some (.st, x)
  | .stVp x => some (.stVp, x)
  | .ldp x => some (.ldp, x)
  | .ldpQ x => some (.ldpQ, x)
  | .stp x => some (.stp, x)
  | .stpQ x => some (.stpQ, x)
  | .ldres x => some (.ldres, x)
  | .stcnd x => some (.stcnd, x)
  | .pref x => some (.pref, x)
  | .icinv x => some (.icinv, x)
  | .atom x => some (.atom, x)
  | .atomn x => some (.atomn, x)
  | .cas x => some (.cas, x)
  | .binit x => some (.binit, x)
  | .barv x => some (.barv, x)
  | .bexp x => some (.bexp, x)
  | .bwait x => some (.bwait, x)
  | .btest x => some (.btest, x)
  | .binval x => some (.binval, x)
  | .tlwait x => some (.tlwait, x)
  | .tltest x => some (.tltest, x)
  | .tlreadIss x => some (.tlreadIss, x)
  | .tlreadDone x => some (.tlreadDone, x)
  | .stream x => some (.stream, x)
  | .sgath x => some (.sgath, x)
  | .sdec x => some (.sdec, x)
  | .mloop x => some (.mloop, x)
  | .mstep x => some (.mstep, x)
  | .mstepV x => some (.mstepV, x)
  | .aswap x => some (.aswap, x)
  | .azero x => some (.azero, x)
  | .aread x => some (.aread, x)
  | .astore x => some (.astore, x)
  | .amark x => some (.amark, x)
  | .xtopk x => some (.xtopk, x)
  | .xqnt x => some (.xqnt, x)
  | .xdqnt x => some (.xdqnt, x)
  | .clauseFetch _ _ => none
  | .clausePrefetch _ _ _ => none
  | .clauseStart _ _ => none
  | .waitRetestStart _ _ => none
  | .spillRotation _ => none
  | .spillConditionTest _ => none
  | .eventWake _ _ => none
  | .starvationGuard _ _ => none
  | .capRecompute _ => none
  | .scoreHalving _ => none
  | .flagCountedCompletion _ _ => none
  | .bwaitPass _ _ => none
  | .tlwaitPass _ _ => none
  | .pageWalk _ _ _ => none
  | .scoreboardEntryGrant _ _ => none
  | .scoreboardAdmit _ _ => none
  | .streamLanding _ _ => none
  | .sdecDecode _ _ => none
  | .engineOpComplete _ => none
  | .engineOpFault _ => none
  | .matrixQueueGrant _ _ => none
  | .matrixStep _ => none
  | .tileAzeroEffect _ => none
  | .tileAswapEffect _ => none
  | .tileAreadEffect _ => none
  | .tileAstoreEffect _ => none
  | .transformReply _ _ => none
  | .groupEnd _ => none
  | .submit _ _ _ => none
  | .submitStatusRead _ _ => none
  | .failack _ _ => none
  | .launchReady _ _ => none
  | .carveoutOffsetFix _ _ _ => none
  | .placementBegin _ _ => none
  | .workgroupPlace _ _ _ => none
  | .workgroupRetire _ => none
  | .launchComplete _ _ => none
  | .launchFail _ _ => none
  | .quantumExpiry _ _ => none
  | .preemption _ _ => none
  | .contextSave _ _ => none
  | .contextRestore _ _ _ _ _ => none
  | .faultDomainHalt => none
  | .dumpWrite => none
  | .irqMessageDeliver _ => none
  | .sliceRegistration _ _ => none
  | .l1Eviction _ _ => none
  | .forwardedRead _ _ => none
  | .directoryRequest _ _ _ => none
  | .nodeMerge _ _ => none
  | .directoryEviction _ _ => none
  | .recall _ _ _ => none
  | .companionWrite _ _ => none
  | .companionRead _ _ => none
  | .packetReceive _ => none
  | .orderedPacketRelease _ _ _ _ => none
  | .packetAck _ _ _ _ _ _ _ => none
  | .packetRefusal _ _ _ _ => none
  | .pathDown _ _ => none
  | .pathRestore _ _ => none
  | .destinationUnreachable _ => none
  | .mbatilLinkDown => none
  | .mbatilLaneDegraded _ => none
  | .linkLossReset => none
  | .doorbell _ => none
  | .mstatRead => none
  | .registerWrite _ _ => none
  | .summary _ => none
  | .pcreate _ => none
  | .pdestroy _ => none
  | .precfg _ => none
  | .preset _ => none
  | .tlbi _ => none
  | .cohcfg _ => none
  | .cntclr _ => none
  | .irqcfg _ => none
  | .errcfg _ => none
  | .errread _ => none
  | .accfg _ => none
  | .obscfg _ => none
  | .stop _ => none
  | .resume _ => none
  | .step _ => none
  | .histrd _ => none
  | .snap _ => none
  | .ckfree _ => none
  | .replay _ => none
  | .dumpcfg _ => none
  | .fwload _ => none
  | .fwswitch _ => none
  | .retire _ => none
  | .returnUnit _ => none
  | .drcal _ => none
  | .ltrain _ => none
  | .reset _ => none
  | .memchk _ => none
  | .coldReset _ _ _ => none
  | .cirqueWatchdogReset _ _ => none
  | .firmwareFault _ _ => none
  | .thermalTrip _ => none
  | .dieThrottle _ => none
  | .powerCapReached => none
  | .uncorrectableError _ _ => none
  | .patrolScrub _ _ => none
  | .sampleTimer _ _ _ _ => none
  | .sampleWrite _ _ => none
  | .stopAtSite _ _ => none
  | .snapshotLatch _ => none
  | .checkpoint _ => none
  | .checkpointRegionCopy _ _ => none
  | .replayEvent _ _ _ _ _ _ _ _ _ => none
  | .replayHoldTimeout _ _ => none
  | .codeObjectLoad _ _ => none
  | .transformPipeAccept _ => none
  | .recallBoundExceeded _ _ => none
  | .directoryArrayUncorrectable _ => none
  | .packageInterconnectFailure => none
  | .stallHistogramCount _ _ _ _ => none

end Sys2Proof
end

