-- ==== Sys2Proof/Machine/OpTable.lean ====
section
/-!
DEFINITION. The opcode map and the encoding tables: 06 R122 to R130, 08 R168, 09 R199 to R220, 10 R221,
13 R273, 14 R309, 16 R344.
-/
namespace Sys2Proof

/-- 06 R125: the operand classes, with the sets that an entry admits written out. -/
inductive Cls where
  /-- Unused: the field is zero. -/
  | zero
  /-- Bits of TGT (08 R168): any value. -/
  | raw
  | v | v2 | v4
  /-- `n` registers from one that is a multiple of `align` (10 R231, 14 R303, R314). -/
  | vrun (align n : Nat)
  | s | s2 | p | f | t | acc
  /-- A number among those listed: special registers (08 R185), format codes (03 R46), services. -/
  | oneOf (l : List Nat)
  /-- An unsigned constant up to `max`. -/
  | i8 (max : Nat)
  deriving DecidableEq, Repr

/-- 06 R125: the encodable values of a class. -/
def Cls.admits (c : Cls) (x : BitVec 8) : Bool :=
  let n := x.toNat
  match c with
  | .zero => n == 0
  | .raw => true
  | .v => true
  | .v2 => n % 2 == 0
  | .v4 => n % 4 == 0
  | .vrun al k => n % al == 0 && n + k ≤ 256
  | .s => n < 128
  | .s2 => n < 128 && n % 2 == 0
  | .p => n < 32
  | .f => n < 12
  | .t => n < 8
  | .acc => n < 4
  | .oneOf l => l.contains n
  | .i8 m => n ≤ m

/-- 06 R128: the nine-bit opcode of a row. -/
def Op.code (o : Op) : Nat :=
  match o with
  | .nop => 0x000
  | .bra => 0x001
  | .brd => 0x002
  | .bri => 0x003
  | .call => 0x004
  | .calli => 0x005
  | .ret => 0x006
  | .maskLanes => 0x007
  | .splitq => 0x008
  | .yield => 0x009
  | .waitevTl => 0x00A
  | .waitevBar => 0x00A
  | .waitevFlag => 0x00A
  | .endLanes => 0x00B
  | .trap => 0x00C
  | .tret => 0x00D
  | .sysRecord => 0x00E
  | .sysNotify => 0x00E
  | .sysStop => 0x00E
  | .bkpt => 0x00F
  | .rds => 0x010
  | .wrs => 0x011
  | .launch => 0x012
  | .sadd => 0x040
  | .ssub => 0x041
  | .smul => 0x042
  | .smulh => 0x043
  | .sand => 0x044
  | .sor => 0x045
  | .sxor => 0x046
  | .sshl => 0x047
  | .sshr => 0x048
  | .ssra => 0x049
  | .smin => 0x04A
  | .smax => 0x04B
  | .scmp => 0x04C
  | .ssel => 0x04D
  | .smov => 0x04E
  | .smovi => 0x04F
  | .sbfe => 0x050
  | .sbfi => 0x051
  | .spopc => 0x052
  | .sclz => 0x053
  | .vadd => 0x080
  | .vsub => 0x081
  | .vmul => 0x082
  | .vmulh => 0x083
  | .vmad => 0x084
  | .vand => 0x085
  | .vor => 0x086
  | .vxor => 0x087
  | .vshl => 0x088
  | .vshr => 0x089
  | .vsra => 0x08A
  | .vmin => 0x08B
  | .vmax => 0x08C
  | .vabs => 0x08D
  | .vcmp => 0x08E
  | .vsel => 0x08F
  | .vmov => 0x090
  | .vbfe => 0x091
  | .vbfi => 0x092
  | .vpopc => 0x093
  | .vclz => 0x094
  | .vdot4 => 0x095
  | .fadd => 0x0C0
  | .fsub => 0x0C1
  | .fmul => 0x0C2
  | .ffma => 0x0C3
  | .fmin => 0x0C4
  | .fmax => 0x0C5
  | .fcmp => 0x0C6
  | .fclass => 0x0C7
  | .frcp => 0x0C8
  | .frsq => 0x0C9
  | .fsqrt => 0x0CA
  | .fexp2 => 0x0CB
  | .flog2 => 0x0CC
  | .fsin => 0x0CD
  | .fcos => 0x0CE
  | .fround => 0x0CF
  | .cvt => 0x100
  | .cvtpk => 0x101
  | .cbexp => 0x102
  | .scalex => 0x103
  | .matchLanes => 0x104
  | .ballot => 0x105
  | .shfl => 0x106
  | .lred => 0x107
  | .lscan => 0x108
  | .rdlane => 0x109
  | .bcast => 0x10A
  | .v2s => 0x10B
  | .s2v => 0x10C
  | .pder => 0x140
  | .padd => 0x141
  | .pfmt => 0x142
  | .pright => 0x143
  | .pget => 0x144
  | .pgetQuad => 0x144
  | .pnull => 0x145
  | .peq => 0x146
  | .widen => 0x147
  | .narrow => 0x148
  | .ld => 0x149
  | .ldVp => 0x149
  | .st => 0x14A
  | .stVp => 0x14A
  | .ldp => 0x14B
  | .ldpQ => 0x14B
  | .stp => 0x14C
  | .stpQ => 0x14C
  | .ldres => 0x14D
  | .stcnd => 0x14E
  | .pref => 0x14F
  | .icinv => 0x150
  | .atom => 0x180
  | .atomn => 0x181
  | .cas => 0x182
  | .binit => 0x183
  | .barv => 0x184
  | .bexp => 0x185
  | .bwait => 0x186
  | .btest => 0x187
  | .binval => 0x188
  | .tlwait => 0x189
  | .tltest => 0x18A
  | .tlreadIss => 0x18B
  | .tlreadDone => 0x18B
  | .stream => 0x1C0
  | .sgath => 0x1C1
  | .sdec => 0x1C2
  | .mloop => 0x1C3
  | .mstep => 0x1C4
  | .mstepV => 0x1C4
  | .aswap => 0x1C5
  | .azero => 0x1C6
  | .aread => 0x1C7
  | .astore => 0x1C8
  | .amark => 0x1C9
  | .xtopk => 0x1CA
  | .xqnt => 0x1CB
  | .xdqnt => 0x1CC

/-- The rows that share no opcode with another, in blocks of consecutive opcodes (06 R128). -/
def Op.controlRows : List Op :=
  [.nop, .bra, .brd, .bri, .call, .calli, .ret, .maskLanes, .splitq, .yield, .waitevTl, .endLanes, .trap, .tret,
   .sysRecord, .bkpt, .rds, .wrs, .launch]
/-- 06 R128, 0x040 to 0x053. -/
def Op.scalarRows : List Op :=
  [.sadd, .ssub, .smul, .smulh, .sand, .sor, .sxor, .sshl, .sshr, .ssra, .smin, .smax, .scmp, .ssel, .smov, .smovi,
   .sbfe, .sbfi, .spopc, .sclz]
/-- 06 R128, 0x080 to 0x095. -/
def Op.vectorRows : List Op :=
  [.vadd, .vsub, .vmul, .vmulh, .vmad, .vand, .vor, .vxor, .vshl, .vshr, .vsra, .vmin, .vmax, .vabs, .vcmp, .vsel,
   .vmov, .vbfe, .vbfi, .vpopc, .vclz, .vdot4]
/-- 06 R128, 0x0C0 to 0x0CF. -/
def Op.floatRows : List Op :=
  [.fadd, .fsub, .fmul, .ffma, .fmin, .fmax, .fcmp, .fclass, .frcp, .frsq, .fsqrt, .fexp2, .flog2, .fsin, .fcos,
   .fround]
/-- 06 R128, 0x100 to 0x10C. -/
def Op.laneRows : List Op :=
  [.cvt, .cvtpk, .cbexp, .scalex, .matchLanes, .ballot, .shfl, .lred, .lscan, .rdlane, .bcast, .v2s, .s2v]
/-- 06 R128, 0x140 to 0x150. -/
def Op.memoryRows : List Op :=
  [.pder, .padd, .pfmt, .pright, .pget, .pnull, .peq, .widen, .narrow, .ld, .st, .ldp, .stp, .ldres, .stcnd, .pref,
   .icinv]
/-- 06 R128, 0x180 to 0x18B. -/
def Op.syncRows : List Op :=
  [.atom, .atomn, .cas, .binit, .barv, .bexp, .bwait, .btest, .binval, .tlwait, .tltest, .tlreadIss]
/-- 06 R128, 0x1C0 to 0x1CC. -/
def Op.engineRows : List Op :=
  [.stream, .sgath, .sdec, .mloop, .mstep, .aswap, .azero, .aread, .astore, .amark, .xtopk, .xqnt, .xdqnt]

/-- The first row of an opcode; none for an unassigned opcode (06 R128). -/
def Op.ofCode (n : Nat) : Option Op :=
  let block := n / 64
  let i := n % 64
  match block with
  | 0 => Op.controlRows[i]?
  | 1 => Op.scalarRows[i]?
  | 2 => Op.vectorRows[i]?
  | 3 => Op.floatRows[i]?
  | 4 => Op.laneRows[i]?
  | 5 => Op.memoryRows[i]?
  | 6 => Op.syncRows[i]?
  | 7 => Op.engineRows[i]?
  | _ => none

/-- The row among those of one opcode that MOD and A select: the kind of WAITEV, the service of SYS, `.quad` of
PGET, VP of LD and ST, Q of LDP and STP, the item of TLREAD, AV of MSTEP. -/
def Op.select (o : Op) (mod : BitVec 5) (a : BitVec 8) : Op :=
  let m := mod.toNat
  match o with
  | .waitevTl => if m % 4 == 2 then .waitevBar else if m % 4 == 3 then .waitevFlag else .waitevTl
  | .sysRecord => if a == 1 then .sysNotify else if a == 2 then .sysStop else .sysRecord
  | .pget => if m % 8 == 6 then .pgetQuad else .pget
  | .ld => if m / 16 == 1 then .ldVp else .ld
  | .st => if m / 16 == 1 then .stVp else .st
  | .ldp => if m % 2 == 1 then .ldpQ else .ldp
  | .stp => if m % 2 == 1 then .stpQ else .stp
  | .tlreadIss => if m % 2 == 1 then .tlreadDone else .tlreadIss
  | .mstep => if m / 16 == 1 then .mstepV else .mstep
  | o => o

/-- 06 R128: the flag-counted instructions. -/
def Op.flagCounted (o : Op) : Bool :=
  [Op.ld, .ldVp, .ldp, .ldpQ, .ldres, .stcnd, .atom, .cas, .aread, .xtopk, .xqnt, .xdqnt].contains o

/-- 06 R127: the control transfers, which end their clause. -/
def Op.endsClause (o : Op) : Bool :=
  [Op.bra, .brd, .bri, .call, .calli, .ret, .waitevTl, .waitevBar, .waitevFlag, .yield, .endLanes, .tret].contains o

/-- 08 R168: the instructions whose guard column reads "no". -/
def Op.noGuard (o : Op) : Bool :=
  [Op.yield, .waitevTl, .waitevBar, .waitevFlag, .tret, .bkpt].contains o

/-- 14 R319: illegal in a legacy image. -/
def Op.nativeOnly (o : Op) : Bool := [Op.aswap, .xtopk, .xqnt, .xdqnt].contains o

/-- How an entry uses the second word (06 R123). -/
inductive LongForm where
  /-- L = 1 is an illegal instruction. -/
  | never
  /-- A 32-bit immediate is admitted. -/
  | imm
  /-- Only the long form exists: SMOVI; `wide` for a 64-bit immediate (09 R199). -/
  | only (wide : Bool)
  /-- The reconvergence word of 08 R168. -/
  | rw
  deriving DecidableEq, Repr

/-- 03 R46: width in bits of a single element of a format code, 0 for a code with no such element. -/
def fmtWidth (n : Nat) : Nat :=
  match n with
  | 0x00 => 8
  | 0x01 => 8
  | 0x02 => 8
  | 0x03 => 16
  | 0x04 => 16
  | 0x05 => 32
  | 0x06 => 32
  | 0x07 => 64
  | 0x08 => 64
  | 0x10 => 32
  | 0x11 => 16
  | 0x12 => 16
  | 0x13 => 8
  | 0x14 => 8
  | 0x15 => 4
  | 0x16 => 16
  | 0x17 => 4
  | 0x18 => 32
  | 0x20 => 128
  | _ => 0

/-- 03 R46: the integer format codes. -/
def fmtIsInt (n : Nat) : Bool := (1 ≤ n && n ≤ 8) || n == 0x17

/-- 09 R210, 10 R231: the codes CVT, LD and ST admit. -/
def fmtCodes : List Nat := [1, 2, 3, 4, 5, 6, 7, 8, 0x10, 0x11, 0x12, 0x13, 0x14, 0x15, 0x17]
/-- 10 R242: the codes LDRES and STCND admit. -/
def resvCodes : List Nat := [5, 6, 7, 8, 0x10]
/-- 08 R185: the numbers of the special registers. -/
def srCodes : List Nat :=
  [0, 1, 2, 3, 4, 5, 6, 7, 8, 9, 0xA, 0xB, 0xC, 0xD, 0x10, 0x11, 0x12, 0x18, 0x19, 0x1A, 0x1B, 0x1C, 0x1D, 0x1E, 0x1F]
/-- 08 R185: the special registers 64 bits wide. -/
def srWide (n : Nat) : Bool := n == 1 || n == 0xD

/-- Scalar type of the 0x040 block: 64 bits wide (06 R126). -/
def sWide (m : Nat) : Bool := m / 16 == 1
/-- Vector type of the 0x080 block: 64 bits wide (06 R126). -/
def vWide (m : Nat) : Bool := m / 4 == 2 || m / 4 == 3

/-- S or S2 by width. -/
def Cls.sw (wide : Bool) : Cls := if wide then .s2 else .s
/-- V or V2 by width. -/
def Cls.vw (wide : Bool) : Cls := if wide then .v2 else .v

/-- The classes of a row's D, A, B and C fields. -/
structure Classes where
  d : Cls
  a : Cls
  b : Cls
  c : Cls
  deriving DecidableEq, Repr

/-- 10 R221: the class of the offset operand, by OW (MOD[3]) and US (MOD[2]). -/
def offsetCls (m : Nat) : Cls :=
  match m / 8 % 2, m / 4 % 2 with
  | 0, 0 => .v
  | _, 0 => .v2
  | 0, _ => .s
  | _, _ => .s2

/-- 10 R231, 14 R314: the count N' of a count field. -/
def countOf (n : Nat) : Nat :=
  match n with
  | 0 => 1
  | 1 => 2
  | _ => 4

/-- 10 R231: the registers of one element of a register type. -/
def regsOf (fmt : Nat) : Nat := if fmtWidth fmt == 64 then 2 else 1

/-- Every control-block row's classes (08 R168). -/
def Op.controlClasses (o : Op) (x : Args) : Classes :=
  let m := x.mod.toNat
  match o with
  | .bra => ⟨.zero, .raw, .raw, .raw⟩
  | .brd => ⟨.zero, .raw, .raw, .raw⟩
  | .bri => ⟨.zero, .s, .zero, .zero⟩
  | .call => ⟨.s, .raw, .raw, .raw⟩
  | .calli => ⟨.s, .s, .zero, .zero⟩
  | .ret => ⟨.zero, .s, .zero, .zero⟩
  | .maskLanes => ⟨.zero, if m % 2 == 1 then .s2 else .zero, .zero, .zero⟩
  | .splitq => ⟨.s, .zero, .zero, .zero⟩
  | .waitevTl => ⟨.zero, .t, .s2, .zero⟩
  | .waitevBar => ⟨.zero, .s, .s, .zero⟩
  | .waitevFlag => ⟨.zero, .f, .zero, .zero⟩
  | .trap => ⟨.zero, .i8 255, .zero, .zero⟩
  | .sysRecord => ⟨.s, .i8 255, .s2, .zero⟩
  | .sysNotify => ⟨.s, .i8 255, .s2, .zero⟩
  | .sysStop => ⟨.s, .i8 255, .s2, .zero⟩
  | .bkpt => ⟨.zero, .i8 255, .zero, .zero⟩
  | .rds => ⟨if m % 2 == 1 then Cls.vw (srWide x.a.toNat) else Cls.sw (srWide x.a.toNat), .oneOf srCodes, .zero, .zero⟩
  | .wrs => ⟨.oneOf [0x10, 0x11], .s, .zero, .zero⟩
  | .launch => ⟨.s2, .p, .zero, .zero⟩
  | _ => ⟨.zero, .zero, .zero, .zero⟩

/-- 09 R192: the class of an operand that the long form replaces. -/
def Cls.orImm (x : Args) (c : Cls) : Cls := if x.long.isSome then .zero else c

/-- Every scalar row's classes (09 R199). -/
def Op.scalarClasses (o : Op) (x : Args) : Classes :=
  let w := Cls.sw (sWide x.mod.toNat)
  match o with
  | .sshl => ⟨w, w, Cls.orImm x .s, .zero⟩
  | .sshr => ⟨w, w, Cls.orImm x .s, .zero⟩
  | .ssra => ⟨w, w, Cls.orImm x .s, .zero⟩
  | .scmp => ⟨.s, w, Cls.orImm x w, .zero⟩
  | .ssel => ⟨w, w, w, .s⟩
  | .smov => ⟨w, w, .zero, .zero⟩
  | .smovi => ⟨w, .zero, .zero, .zero⟩
  | .sbfe => ⟨w, w, Cls.orImm x .s, .zero⟩
  | .sbfi => ⟨w, w, Cls.orImm x .s, w⟩
  | .spopc => ⟨.s, w, .zero, .zero⟩
  | .sclz => ⟨.s, w, .zero, .zero⟩
  | _ => ⟨w, w, Cls.orImm x w, .zero⟩

/-- Every vector integer row's classes (09 R200). -/
def Op.vectorClasses (o : Op) (x : Args) : Classes :=
  let m := x.mod.toNat
  let wide := vWide m
  let us := m / 2 % 2 == 1
  let w := Cls.vw wide
  let b := Cls.orImm x (if us then Cls.sw wide else w)
  let n := Cls.orImm x (if us then .s else .v)
  match o with
  | .vmad => ⟨w, w, b, w⟩
  | .vshl => ⟨w, w, n, .zero⟩
  | .vshr => ⟨w, w, n, .zero⟩
  | .vsra => ⟨w, w, n, .zero⟩
  | .vabs => ⟨w, w, .zero, .zero⟩
  | .vcmp => ⟨.v, w, b, .i8 5⟩
  | .vsel => ⟨w, w, w, .v⟩
  | .vmov => ⟨w, Cls.orImm x w, .zero, .zero⟩
  | .vbfe => ⟨w, w, n, .zero⟩
  | .vbfi => ⟨w, w, n, w⟩
  | .vpopc => ⟨.v, w, .zero, .zero⟩
  | .vclz => ⟨.v, w, .zero, .zero⟩
  | .vdot4 => ⟨.v, .v, n, .v⟩
  | _ => ⟨w, w, b, .zero⟩

/-- Every floating-point row's classes (09 R202). -/
def Op.floatClasses (o : Op) (x : Args) : Classes :=
  let b := Cls.orImm x .v
  match o with
  | .fadd => ⟨.v, .v, b, .zero⟩
  | .fsub => ⟨.v, .v, b, .zero⟩
  | .fmul => ⟨.v, .v, b, .zero⟩
  | .ffma => ⟨.v, .v, b, .v⟩
  | .fmin => ⟨.v, .v, b, .zero⟩
  | .fmax => ⟨.v, .v, b, .zero⟩
  | .fcmp => ⟨.v, .v, b, .i8 7⟩
  | _ => ⟨.v, .v, .zero, .zero⟩

/-- Every conversion and lane row's classes (09 R210 to R220). -/
def Op.laneClasses (o : Op) (x : Args) : Classes :=
  let m := x.mod.toNat
  let wide := m / 8 == 1
  let f64 := fun (n : Nat) => n == 7 || n == 8
  match o with
  | .cvt => ⟨Cls.vw (f64 x.b.toNat), Cls.vw (f64 x.c.toNat), .oneOf fmtCodes, .oneOf fmtCodes⟩
  | .cvtpk => ⟨.v, .v, .v, .oneOf [0x11, 0x12, 0x13, 0x14, 0x15, 3, 4, 1, 2, 0x17]⟩
  | .cbexp => ⟨if m / 16 == 1 then .v4 else .v2, .v, .p, .zero⟩
  | .scalex => ⟨.v, .v, .v, .zero⟩
  | .matchLanes => ⟨.v2, Cls.vw wide, .zero, .zero⟩
  | .ballot => ⟨.s2, .v, .zero, .i8 31⟩
  | .shfl => ⟨.v, .v, Cls.orImm x .v, .zero⟩
  | .lred => ⟨Cls.vw (f64 x.c.toNat), Cls.vw (f64 x.c.toNat), .zero, .oneOf resvCodes⟩
  | .lscan => ⟨Cls.vw (f64 x.c.toNat), Cls.vw (f64 x.c.toNat), .i8 1, .oneOf resvCodes⟩
  | .rdlane => ⟨Cls.sw wide, Cls.vw wide, Cls.orImm x .s, .zero⟩
  | .bcast => ⟨Cls.vw wide, Cls.vw wide, Cls.orImm x .s, .zero⟩
  | .v2s => ⟨Cls.sw wide, Cls.vw wide, .zero, .zero⟩
  | .s2v => ⟨Cls.vw wide, Cls.sw wide, .zero, .zero⟩
  | _ => ⟨.zero, .zero, .zero, .zero⟩

/-- Every pointer and memory row's classes (10 R221). -/
def Op.memoryClasses (o : Op) (x : Args) : Classes :=
  let m := x.mod.toNat
  let off := offsetCls m
  let ptr := if m / 16 == 1 then Cls.v4 else .p
  let r := regsOf x.c.toNat
  let data := Cls.vrun r (r * countOf (m % 4))
  match o with
  | .pder => ⟨.p, .p, .s2, Cls.orImm x .s2⟩
  | .padd => ⟨.p, .p, Cls.orImm x .s2, .zero⟩
  | .pfmt => ⟨.p, .p, .zero, .i8 63⟩
  | .pright => ⟨.p, .p, .i8 15, .i8 31⟩
  | .pget => ⟨.s, .p, .zero, .zero⟩
  | .pgetQuad => ⟨.v4, .p, .zero, .zero⟩
  | .pnull => ⟨.p, .zero, .zero, .zero⟩
  | .peq => ⟨.s, .p, .p, .zero⟩
  | .widen => ⟨.p, .p, .i8 4, .zero⟩
  | .narrow => ⟨.p, .p, .i8 4, .zero⟩
  | .ld => ⟨data, .p, off, .oneOf fmtCodes⟩
  | .ldVp => ⟨data, .v4, off, .oneOf fmtCodes⟩
  | .st => ⟨data, .p, off, .oneOf fmtCodes⟩
  | .stVp => ⟨data, .v4, off, .oneOf fmtCodes⟩
  | .ldp => ⟨.p, .p, off, .zero⟩
  | .ldpQ => ⟨.v4, ptr, off, .zero⟩
  | .stp => ⟨.p, .p, off, .zero⟩
  | .stpQ => ⟨.v4, ptr, off, .zero⟩
  | .ldres => ⟨Cls.vw (r == 2), .p, off, .oneOf resvCodes⟩
  | .stcnd => ⟨Cls.vw (r == 2), .p, off, .oneOf resvCodes⟩
  | .pref => ⟨.zero, .p, off, .zero⟩
  | .icinv => ⟨.zero, .p, .i8 3, .zero⟩
  | _ => ⟨.zero, .zero, .zero, .zero⟩

/-- Every atomic, barrier and timeline row's classes (16 R344). -/
def Op.syncClasses (o : Op) (x : Args) : Classes :=
  let w := Cls.vw (x.mod.toNat % 2 == 1)
  match o with
  | .atom => ⟨w, .p, .v, w⟩
  | .atomn => ⟨.zero, .p, .v, w⟩
  | .cas => ⟨w, .p, .v, w⟩
  | .binit => ⟨.zero, .s, .s, .zero⟩
  | .barv => ⟨.zero, .s, if x.mod.toNat % 2 == 1 then .s2 else .zero, .zero⟩
  | .bexp => ⟨.zero, .s, .s2, .zero⟩
  | .bwait => ⟨.zero, .s, .s, .zero⟩
  | .btest => ⟨.s, .s, .s, .zero⟩
  | .binval => ⟨.zero, .s, .zero, .zero⟩
  | .tlwait => ⟨.zero, .t, Cls.orImm x .s2, .zero⟩
  | .tltest => ⟨.s, .t, Cls.orImm x .s2, .zero⟩
  | .tlreadIss => ⟨.s2, .t, .zero, .zero⟩
  | .tlreadDone => ⟨.s2, .t, .zero, .zero⟩
  | _ => ⟨.zero, .zero, .zero, .zero⟩

/-- Every engine row's classes (13 R273, 14 R309). -/
def Op.engineClasses (o : Op) (x : Args) : Classes :=
  let m := x.mod.toNat
  match o with
  | .stream => ⟨.s2, .p, .p, .s2⟩
  | .sgath => ⟨.s2, .p, .p, .s2⟩
  | .sdec => ⟨.s2, .p, .p, if m / 8 % 2 == 1 then .s else .zero⟩
  | .mloop => ⟨.acc, .s2, .s2, .s2⟩
  | .mstep => ⟨.acc, .s2, .s2, .s⟩
  | .mstepV => ⟨.acc, .vrun 1 32, .s2, .s⟩
  | .aswap => ⟨.acc, .zero, .zero, .zero⟩
  | .azero => ⟨.acc, .zero, .zero, .zero⟩
  | .aread => ⟨.vrun 1 (countOf (m % 4)), .acc, Cls.orImm x .s, .oneOf [0x10, 0x11, 0x12]⟩
  | .astore => ⟨.acc, .p, .s, .s⟩
  | .amark => ⟨.s, .acc, .zero, .zero⟩
  | .xtopk => ⟨.v2, .v2, .p, .s⟩
  | .xqnt => ⟨.v2, .v2, .s, .oneOf [0x13, 0x14, 0x15, 1, 0x17]⟩
  | .xdqnt => ⟨.v2, .v2, .s, .oneOf [0x13, 0x14, 0x15, 1, 0x17]⟩
  | _ => ⟨.zero, .zero, .zero, .zero⟩

/-- The classes of the operand fields of an instruction word. -/
def Op.classes (o : Op) (x : Args) : Classes :=
  match o.code / 64 with
  | 0 => o.controlClasses x
  | 1 => o.scalarClasses x
  | 2 => o.vectorClasses x
  | 3 => o.floatClasses x
  | 4 => o.laneClasses x
  | 5 => o.memoryClasses x
  | 6 => o.syncClasses x
  | _ => o.engineClasses x

/-- The use of the second word (06 R123). -/
def Op.longForm (o : Op) (x : Args) : LongForm :=
  match o with
  | .bra => .rw
  | .brd => .rw
  | .bri => .rw
  | .smovi => .only (sWide x.mod.toNat)
  | .sadd | .ssub | .smul | .smulh | .sand | .sor | .sxor | .sshl | .sshr | .ssra | .smin | .smax | .scmp | .sbfe
  | .sbfi => .imm
  | .vadd | .vsub | .vmul | .vmulh | .vmad | .vand | .vor | .vxor | .vshl | .vshr | .vsra | .vmin | .vmax | .vcmp
  | .vmov | .vbfe | .vbfi | .vdot4 => .imm
  | .fadd | .fsub | .fmul | .ffma | .fmin | .fmax | .fcmp => .imm
  | .shfl | .rdlane | .bcast => .imm
  | .pder | .padd | .ld | .ldVp | .st | .stVp | .ldp | .ldpQ | .stp | .stpQ | .ldres | .stcnd | .pref => .imm
  | .atom | .atomn | .cas | .tlwait | .tltest => .imm
  | .aread => .imm
  | _ => .never

/-- 08 R168: the reconvergence word: [24] NONE, [23:0] the offset ÷ 8, the rest zero. -/
def rwOk (w : DWord) : Bool := w.toNat < 2 ^ 25 && (w.toNat < 2 ^ 24 || w.toNat == 2 ^ 24)

/-- 06 R123, R130: the second word is one the entry admits. -/
def Op.longOk (o : Op) (x : Args) : Bool :=
  match o.longForm x, x.long with
  | .never, none => true
  | .never, some _ => false
  | .imm, none => true
  | .imm, some w => w.toNat < 2 ^ 32
  | .only _, none => false
  | .only wide, some w => wide || w.toNat < 2 ^ 32
  | .rw, none => false
  | .rw, some w => rwOk w

/-- 09 R200: the vector rows that admit US. -/
def Op.admitsUs (o : Op) : Bool :=
  !([Op.vabs, .vsel, .vmov, .vpopc, .vclz].contains o)
/-- 09 R200: the vector rows that admit SAT. -/
def Op.admitsSat (o : Op) : Bool := [Op.vadd, .vsub, .vmul, .vmad, .vabs, .vdot4].contains o

/-- 09 R200: MOD of a vector integer row. -/
def Op.vectorModOk (o : Op) (x : Args) : Bool :=
  let m := x.mod.toNat
  let ty := m / 4
  let us := m / 2 % 2 == 1
  let sat := m % 2 == 1
  (!us || (o.admitsUs && x.long.isNone)) && (!sat || o.admitsSat) &&
    (match o with
     | .vabs => ty % 2 == 0
     | .vbfe => ty < 4
     | .vbfi => ty < 4
     | .vdot4 => ty == 6 || ty == 7
     | _ => true)

/-- 06 R126, 09 R202: MOD of a floating-point row. -/
def Op.floatModOk (o : Op) (x : Args) : Bool :=
  let m := x.mod.toNat
  m / 8 < 3 && (if [Op.fmin, .fmax, .fcmp, .fclass].contains o then m % 8 == 0 else m % 8 ≤ 4)

/-- 09 R210 to R220: MOD of a conversion or lane row. -/
def Op.laneModOk (o : Op) (x : Args) : Bool :=
  let m := x.mod.toNat
  let hi := m / 8
  let lo := m % 8
  let c := x.c.toNat
  match o with
  | .cvt =>
    lo ≤ 4 && (if fmtIsInt x.b.toNat && fmtIsInt c then lo == 0 else true) &&
      (if fmtWidth c ≥ 32 then hi == 0 else if fmtWidth c == 16 then hi ≤ 1 else true)
  | .cvtpk => lo ≤ 4 && (if fmtWidth c == 16 then hi == 0 else if fmtWidth c == 8 then hi ≤ 1 else true)
  | .cbexp => lo == 0
  | .scalex => lo ≤ 4 && hi ≤ 2
  | .matchLanes => lo == 0 && hi ≤ 1
  | .ballot => m == 0
  | .shfl => lo == 0
  | .lred => (if c == 0x10 && hi == 0 then lo ≤ 4 else lo == 0) && (hi ≤ 2 || c != 0x10)
  | .lscan => (if c == 0x10 && hi == 0 then lo ≤ 4 else lo == 0) && (hi ≤ 2 || c != 0x10)
  | _ => lo == 0 && hi ≤ 1

/-- 10 R221: MOD of a pointer or memory row. -/
def Op.memoryModOk (o : Op) (x : Args) : Bool :=
  let m := x.mod.toNat
  match o with
  | .pget => m ≤ 4
  | .pgetQuad => m == 6
  | .peq => m ≤ 1
  | .ld => m < 16 && m % 4 < 3
  | .ldVp => m ≥ 16 && m % 4 < 3
  | .st => m < 16 && m % 4 < 3
  | .stVp => m ≥ 16 && m % 4 < 3
  | .ldp => m < 16 && m / 4 % 2 == 1 && m % 4 == 0
  | .ldpQ => m % 4 == 1
  | .stp => m < 16 && m / 4 % 2 == 1 && m % 4 == 0
  | .stpQ => m % 4 == 1
  | .ldres => m < 16 && m % 4 == 0
  | .stcnd => m < 16 && m % 4 == 0
  | .pref => m < 16 && m % 4 < 2
  | _ => m == 0

/-- 16 R344, 13 R273, 14 R309: MOD of a synchronisation or engine row. -/
def Op.engineModOk (o : Op) (x : Args) : Bool :=
  let m := x.mod.toNat
  match o with
  | .atom => m / 2 ≤ 8
  | .atomn => m / 2 ≤ 8
  | .cas => m ≤ 1
  | .barv => m ≤ 1
  | .tlreadIss => m == 0
  | .tlreadDone => m == 1
  | .stream => m < 16
  | .sgath => m < 16
  | .sdec => m < 16
  | .mstep => m == 0
  | .mstepV => m == 16
  | .aread => m < 3
  | .xtopk => true
  | .xqnt => m ≤ 4
  | .xdqnt => m ≤ 4
  | _ => m == 0

/-- 08 R168, R186: MOD of a control row. -/
def Op.controlModOk (o : Op) (x : Args) : Bool :=
  let m := x.mod.toNat
  match o with
  | .maskLanes => m ≤ 1
  | .splitq => m ≤ 4
  | .waitevTl => m == 1
  | .waitevBar => m == 2
  | .waitevFlag => m == 3
  | .rds => m ≤ 1 && !(m == 0 && x.a == 0)
  | .sysRecord => m == 0 && x.a != 1 && x.a != 2
  | .sysNotify => m == 0 && x.a == 1
  | .sysStop => m == 0 && x.a == 2
  | _ => m == 0

/-- 09 R199: MOD[2:0] of a scalar row. -/
def Op.scalarModOk (o : Op) (x : Args) : Bool :=
  let m := x.mod.toNat
  match o with
  | .scmp => m % 8 ≤ 5
  | _ => m % 8 == 0

/-- MOD is one the entry admits (06 R126, R130). -/
def Op.modOk (o : Op) (x : Args) : Bool :=
  match o.code / 64 with
  | 0 => o.controlModOk x
  | 1 => o.scalarModOk x
  | 2 => o.vectorModOk x
  | 3 => o.floatModOk x
  | 4 => o.laneModOk x
  | 5 => o.memoryModOk x
  | _ => o.engineModOk x

/-- 06 R124, R125, 08 R168: the guard fields are admitted. -/
def Op.guardOk (o : Op) (g : Guard) : Bool :=
  if g.en then !o.noGuard && (!g.scalar || g.reg.toNat < 128) else g == Guard.always

/-- 06 R125: every operand field holds an encodable value of its class. -/
def Op.operandsOk (o : Op) (x : Args) : Bool :=
  let k := o.classes x
  k.d.admits x.d && k.a.admits x.a && k.b.admits x.b && k.c.admits x.c

end Sys2Proof
end

