-- ==== Sys2Proof/Machine/Store.lean ====
section
/-!
DEFINITION. Sparse data in one canonical form: keys strictly rising, no entry equal to the default that an
unlisted key reads as; and sets of numbers as strictly rising lists.
-/
namespace Sys2Proof.Machine

/-- The value at a key; the default where none is listed. -/
def assocGet {α : Type} (d : α) (k : Nat) (l : Assoc α) : α :=
  match l with
  | [] => d
  | (k', v) :: t => if k' = k then v else assocGet d k t

/-- List a value at a key, keeping the keys rising. -/
def assocPut {α : Type} (k : Nat) (v : α) (l : Assoc α) : Assoc α :=
  match l with
  | [] => [(k, v)]
  | (k', v') :: t =>
    if k < k' then (k, v) :: (k', v') :: t
    else if k = k' then (k, v) :: t
    else (k', v') :: assocPut k v t

/-- List nothing at a key. -/
def assocDel {α : Type} (k : Nat) (l : Assoc α) : Assoc α := l.filter (fun kv => kv.1 != k)

/-- Write a value at a key, keeping the canonical form. -/
def assocSet {α : Type} [DecidableEq α] (d : α) (k : Nat) (v : α) (l : Assoc α) : Assoc α :=
  if v = d then assocDel k l else assocPut k v l

/-- Write several values, in order. -/
def assocSets {α : Type} [DecidableEq α] (d : α) (ws : List (Nat × α)) (l : Assoc α) : Assoc α :=
  ws.foldl (fun l kv => assocSet d kv.1 kv.2 l) l

/-- The first key of a list is above a bound. -/
def keysAbove {α : Type} (k : Nat) (l : Assoc α) : Bool :=
  match l with
  | [] => true
  | (k', _) :: _ => k < k'

/-- The canonical form. -/
def assocWf {α : Type} [DecidableEq α] (d : α) (l : Assoc α) : Bool :=
  match l with
  | [] => true
  | (k, v) :: t => keysAbove k t && !(decide (v = d)) && assocWf d t

/-- Drop the entries whose key fails a test. -/
def assocKeep {α : Type} (p : Nat → Bool) (l : Assoc α) : Assoc α := l.filter (fun kv => p kv.1)

/-- Put a number into a rising list. -/
def setAdd (k : Nat) (l : List Nat) : List Nat :=
  match l with
  | [] => [k]
  | k' :: t => if k < k' then k :: k' :: t else if k = k' then k' :: t else k' :: setAdd k t

/-- Take a number out of a list. -/
def setDel (k : Nat) (l : List Nat) : List Nat := l.filter (fun k' => k' != k)

/-- Put a number in or take it out. -/
def setPut (k : Nat) (b : Bool) (l : List Nat) : List Nat := if b then setAdd k l else setDel k l

/-- The elements of a list without repeats, in order of first occurrence. -/
def uniq (l : List Nat) : List Nat :=
  l.foldl (fun acc k => if acc.contains k then acc else acc ++ [k]) []

/-- Insert into a list sorted by a key, after equal keys. -/
def insertBy {α : Type} (key : α → Nat) (x : α) (l : List α) : List α :=
  match l with
  | [] => [x]
  | y :: t => if key x < key y then x :: y :: t else y :: insertBy key x t

/-- Sort by a key, keeping the order of equal keys. -/
def sortBy {α : Type} (key : α → Nat) (l : List α) : List α := l.foldl (fun acc x => insertBy key x acc) []

/-- The element with the least key; the first of equal ones. -/
def leastBy {α : Type} (key : α → Nat) (l : List α) : Option α :=
  match l with
  | [] => none
  | x :: t =>
    match leastBy key t with
    | none => some x
    | some y => if key y < key x then some y else some x

/-- Replace the first element that passes a test. -/
def replaceBy {α : Type} (p : α → Bool) (f : α → α) (l : List α) : List α :=
  match l with
  | [] => []
  | x :: t => if p x then f x :: t else x :: replaceBy p f t

/-- 00 R4: a number from bytes, the first lowest. -/
def natOfBytes (l : List Byte) : Nat := l.foldr (fun b n => n * 256 + b.toNat) 0

/-- 00 R4: `k` bytes of a number, lowest first. -/
def bytesOfNat (k n : Nat) : List Byte :=
  match k with
  | 0 => []
  | k + 1 => BitVec.ofNat 8 n :: bytesOfNat k (n / 256)

/-- A little-endian field of a list of bytes. -/
def fieldOf (bs : List Byte) (off n : Nat) : Nat := natOfBytes ((bs.drop off).take n)

/-- Bits [hi:lo] of a number. -/
def bits (n hi lo : Nat) : Nat := n / 2 ^ lo % 2 ^ (hi + 1 - lo)

/-- Bit k of a number. -/
def bitOf (n k : Nat) : Bool := n / 2 ^ k % 2 == 1

/-- A counter that saturates at 48 bits (20 R382, 25 R469). -/
def sat48 (n : Nat) : Nat := min n (2 ^ 48 - 1)

/-- The lanes of a mask, ascending (07 R142). -/
def lanesOf (m : LaneMask) : List Nat := (List.range 64).filter (fun l => m.getLsbD l)

/-- The mask with one lane. -/
def laneBit (l : Nat) : LaneMask := 1#64 <<< l

/-- The mask of a list of lanes. -/
def maskOf (ls : List Nat) : LaneMask := ls.foldl (fun m l => m ||| laneBit l) 0

end Sys2Proof.Machine
end

