-- ==== Sys2Proof/Machine/Format.lean ====
section
/-!
DEFINITION. Element formats (03 R46 to R66): exact values, Decode, rounding and Encode with their flags.
-/
namespace Sys2Proof.Machine

/-- The value of an element (03 R58): a NaN, an infinity, or ±(m + δ) × 2^e, where δ is 0, or lies strictly between
0 and 1 when `rest` is set. -/
inductive Val where
  | nan (signalling : Bool)
  | inf (neg : Bool)
  | fin (neg : Bool) (m : Nat) (e : Int) (rest : Bool)
  deriving DecidableEq, Repr

/-- The exact dyadic value ±m × 2^e. -/
def Val.dy (neg : Bool) (m : Nat) (e : Int) : Val := .fin neg m e false
/-- An integer as a value; 0 is +0 (03 R51). -/
def Val.int (x : Int) : Val := .fin (x < 0) x.natAbs 0 false
/-- A value is a NaN. -/
def Val.isNan : Val → Bool
  | .nan _ => true
  | _ => false
/-- A value is a signalling NaN (03 R50). -/
def Val.isSnan : Val → Bool
  | .nan b => b
  | _ => false
/-- The sign of a value. -/
def Val.neg? : Val → Bool
  | .nan _ => false
  | .inf n => n
  | .fin n _ _ _ => n
/-- A value is a zero. -/
def Val.isZero : Val → Bool
  | .fin _ m _ rest => m == 0 && !rest
  | _ => false
/-- A value with its sign changed. -/
def Val.negate : Val → Val
  | .nan b => .nan b
  | .inf n => .inf (!n)
  | .fin n m e r => .fin (!n) m e r

/-- 03 R54: the flags, as the low bits of FSTAT. -/
abbrev FlagBits := BitVec 5
def flagNV : FlagBits := 1#5
def flagDZ : FlagBits := 2#5
def flagOF : FlagBits := 4#5
def flagUF : FlagBits := 8#5
def flagNX : FlagBits := 16#5

/-- A flag under a condition. -/
def flagIf (b : Bool) (f : FlagBits) : FlagBits := if b then f else 0

/-- 03 R52: rounding modes. -/
inductive RMode where
  | rne | rtz | rdn | rup
  deriving DecidableEq, Repr

/-- 03 R52: the mode of a two-bit code. -/
def RMode.ofCode (n : Nat) : RMode :=
  match n % 4 with
  | 0 => .rne
  | 1 => .rtz
  | 2 => .rdn
  | _ => .rup

/-! ### Exact arithmetic on dyadic values -/

/-- The position above the highest one of a number, 0 for 0. -/
def bitLen (n : Nat) : Nat := if n = 0 then 0 else n.log2 + 1

/-- A dyadic number as an integer at an exponent no higher than its own. -/
def scaleTo (neg : Bool) (m : Nat) (e lo : Int) : Int :=
  let x : Int := (m * 2 ^ (e - lo).toNat : Nat)
  if neg then -x else x

/-- 03 R51: the sign of an exact zero sum. -/
def zeroSign (na nb : Bool) (mode : RMode) : Bool := if na == nb then na else mode == .rdn

/-- The exact sum of two dyadic values; `mode` gives the sign of an exact zero (03 R51). -/
def addFin (na : Bool) (ma : Nat) (ea : Int) (nb : Bool) (mb : Nat) (eb : Int) (mode : RMode) : Val :=
  let lo := min ea eb
  let x := scaleTo na ma ea lo + scaleTo nb mb eb lo
  if x = 0 then .dy (zeroSign na nb mode) 0 0 else .dy (x < 0) x.natAbs lo

/-- The sum of two values, with NV for ∞ − ∞ (03 R54); NaNs are the caller's. -/
def addVal (a b : Val) (mode : RMode) : Val × FlagBits :=
  match a, b with
  | .nan _, _ => (.nan false, 0)
  | _, .nan _ => (.nan false, 0)
  | .inf x, .inf y => if x == y then (.inf x, 0) else (.nan false, flagNV)
  | .inf x, _ => (.inf x, 0)
  | _, .inf y => (.inf y, 0)
  | .fin na ma ea _, .fin nb mb eb _ => (addFin na ma ea nb mb eb mode, 0)

/-- The product of two values, with NV for 0 × ∞ (03 R54). -/
def mulVal (a b : Val) : Val × FlagBits :=
  match a, b with
  | .nan _, _ => (.nan false, 0)
  | _, .nan _ => (.nan false, 0)
  | .inf x, .inf y => (.inf (x != y), 0)
  | .inf x, .fin n m _ _ => if m = 0 then (.nan false, flagNV) else (.inf (x != n), 0)
  | .fin n m _ _, .inf y => if m = 0 then (.nan false, flagNV) else (.inf (n != y), 0)
  | .fin na ma ea _, .fin nb mb eb _ => (.dy (na != nb) (ma * mb) (ea + eb), 0)

/-- Compare two values that are not NaN, −0 equal to +0. -/
def cmpVal (a b : Val) : Ordering :=
  match a, b with
  | .inf x, .inf y => if x == y then .eq else if x then .lt else .gt
  | .inf x, _ => if x then .lt else .gt
  | _, .inf y => if y then .gt else .lt
  | .fin na ma ea _, .fin nb mb eb _ =>
    let lo := min ea eb
    compare (scaleTo na ma ea lo) (scaleTo nb mb eb lo)
  | _, _ => .eq

/-! ### Decode -/

/-- 03 R49: a floating-point format: mantissa bits, exponent bits, bias, and the largest finite value m × 2^e. -/
structure FFmt where
  man : Nat
  exp : Nat
  bias : Nat
  maxM : Nat
  maxE : Int
  hasInf : Bool
  hasNan : Bool
  canon : Nat
  /-- 03 R55: FTZ applies to the format. -/
  flush : Bool
  deriving DecidableEq, Repr

/-- 03 R49: the formats by code. -/
def fFmt? (n : Nat) : Option FFmt :=
  match n with
  | 0x10 => some ⟨23, 8, 127, 0xFFFFFF, 104, true, true, 0x7FC00000, true⟩
  | 0x11 => some ⟨10, 5, 15, 0x7FF, 5, true, true, 0x7E00, true⟩
  | 0x12 => some ⟨7, 8, 127, 0xFF, 120, true, true, 0x7FC0, true⟩
  | 0x13 => some ⟨3, 4, 7, 14, 5, false, true, 0x7F, false⟩
  | 0x14 => some ⟨2, 5, 15, 7, 13, true, true, 0x7E, false⟩
  | 0x15 => some ⟨1, 2, 1, 3, 1, false, false, 0, false⟩
  | _ => none

/-- 03 R49: bits of a format. -/
def FFmt.width (f : FFmt) : Nat := f.man + f.exp + 1
/-- The least exponent of a normal number. -/
def FFmt.emin (f : FFmt) : Int := 1 - (f.bias : Int)

/-- 03 R49, R50, R58: Decode of a floating-point format. -/
def FFmt.decode (f : FFmt) (bits : Nat) : Val :=
  let m := bits % 2 ^ f.man
  let e := bits / 2 ^ f.man % 2 ^ f.exp
  let neg := bits / 2 ^ (f.man + f.exp) % 2 == 1
  if e = 2 ^ f.exp - 1 && f.hasInf then
    if m = 0 then .inf neg else .nan (f.flush && m < 2 ^ (f.man - 1))
  else if e = 2 ^ f.exp - 1 && f.hasNan && m = 2 ^ f.man - 1 then .nan false
  else if e = 0 then .dy neg m (f.emin - f.man)
  else .dy neg (2 ^ f.man + m) ((e : Int) - f.bias - f.man)

/-- The signed reading of w bits. -/
def signedOf (w n : Nat) : Int :=
  let x := n % 2 ^ w
  if x ≥ 2 ^ (w - 1) then (x : Int) - (2 ^ w : Nat) else x

/-- 03 R46: an integer format is signed. -/
def fmtSigned (n : Nat) : Bool := n == 1 || n == 3 || n == 5 || n == 7 || n == 0x17

/-- 03 R58: Decode(fmt, bits). -/
def decodeFmt (fmt bits : Nat) : Val :=
  match fFmt? fmt with
  | some f => f.decode bits
  | none =>
    let w := fmtWidth fmt
    if fmtSigned fmt then .int (signedOf w bits) else .int ((bits % 2 ^ w : Nat) : Int)

/-- 03 R55: a subnormal input of `f32`, `f16` or `bf16` is a zero of its sign under FTZ. -/
def flushIn (ftz : Bool) (fmt : Nat) (v : Val) : Val :=
  match fFmt? fmt, v with
  | some f, .fin n m e _ =>
    if ftz && f.flush && m < 2 ^ f.man && e == f.emin - f.man then .dy n 0 0 else v
  | _, _ => v

/-- 09 R203: In(t, bits). -/
def inFmt (ftz : Bool) (fmt bits : Nat) : Val := flushIn ftz fmt (decodeFmt fmt bits)

/-! ### Rounding and Encode -/

/-- Round (m + δ) ÷ 2^sh to an integer under a mode; the flag says that the result is inexact. -/
def roundShift (mode : RMode) (neg : Bool) (m sh : Nat) (rest : Bool) : Nat × Bool :=
  let q := m / 2 ^ sh
  let r := m % 2 ^ sh
  let half := 2 ^ sh / 2
  let inexact := r != 0 || rest
  let up := match mode with
    | .rne => sh != 0 && (r > half || (r == half && (rest || q % 2 == 1)))
    | .rtz => false
    | .rdn => neg && inexact
    | .rup => !neg && inexact
  (if up then q + 1 else q, inexact)

/-- Round a value to a multiple of 2^q. -/
def roundAt (mode : RMode) (neg : Bool) (m : Nat) (e : Int) (rest : Bool) (q : Int) : Nat × Bool :=
  if e ≥ q then (m * 2 ^ (e - q).toNat, rest) else roundShift mode neg m (q - e).toNat rest

/-- The exponent of the last place of a value at a precision of man + 1 bits. -/
def lastPlace (man m : Nat) (e : Int) : Int := e + (bitLen m : Int) - 1 - man

/-- Compare m × 2^e with m' × 2^e'. -/
def dyLt (m : Nat) (e : Int) (m' : Nat) (e' : Int) : Bool :=
  let lo := min e e'
  m * 2 ^ (e - lo).toNat < m' * 2 ^ (e' - lo).toNat

/-- The bits of a rounded magnitude M × 2^q with its sign. -/
def FFmt.pack (f : FFmt) (neg : Bool) (m : Nat) (q : Int) : Nat :=
  let s := if neg then 2 ^ (f.man + f.exp) else 0
  if m = 0 then s
  else
    let top := q + (bitLen m : Int) - 1
    let lp := (max top f.emin) - f.man
    let man := if q ≥ lp then m * 2 ^ (q - lp).toNat else m / 2 ^ (lp - q).toNat
    if top < f.emin then s + man else s + (top + f.bias).toNat * 2 ^ f.man + (man - 2 ^ f.man)

/-- 03 R58: ToInf(s, mode). -/
def toInf (neg : Bool) (mode : RMode) : Bool :=
  match mode with
  | .rne => true
  | .rtz => false
  | .rdn => neg
  | .rup => !neg

/-- 03 R58: the bits of an infinity, or of the largest finite value. -/
def FFmt.infBits (f : FFmt) (neg : Bool) : Nat :=
  (if neg then 2 ^ (f.man + f.exp) else 0) + (2 ^ f.exp - 1) * 2 ^ f.man
/-- The bits of the largest finite value. -/
def FFmt.maxBits (f : FFmt) (neg : Bool) : Nat := f.pack neg f.maxM f.maxE

/-- 03 R58: Encode into a floating-point format. -/
def FFmt.encode (f : FFmt) (ftz : Bool) (mode : RMode) (v : Val) : Nat × FlagBits :=
  match v with
  | .nan _ => if f.hasNan then (f.canon, 0) else (0, flagNV)
  | .inf n => if f.hasInf then (f.infBits n, 0) else (f.maxBits n, flagOF ||| flagNX)
  | .fin n m e rest =>
    if m = 0 && !rest then (f.pack n 0 0, 0)
    else
      let qu := lastPlace f.man m e
      let q := max qu (f.emin - f.man)
      let y := roundAt mode n m e rest q
      if dyLt f.maxM f.maxE y.1 q then
        (if f.hasInf && toInf n mode then f.infBits n else f.maxBits n, flagOF ||| flagNX)
      else
        let u := roundAt mode n m e rest qu
        let tiny := dyLt u.1 qu 1 f.emin
        let uf := flagIf (y.2 && tiny) flagUF
        if ftz && f.flush && y.1 != 0 && dyLt y.1 q 1 f.emin then (f.pack n 0 0, uf ||| flagUF ||| flagNX)
        else (f.pack n y.1 q, uf ||| flagIf y.2 flagNX)

/-- The least and greatest values of an integer type of w bits. -/
def minInt (signed : Bool) (w : Nat) : Int := if signed then -((2 ^ (w - 1) : Nat) : Int) else 0
/-- The greatest value of an integer type of w bits. -/
def maxInt (signed : Bool) (w : Nat) : Int := if signed then ((2 ^ (w - 1) : Nat) : Int) - 1 else ((2 ^ w : Nat) : Int) - 1

/-- Clamp an integer between two bounds. -/
def clampInt (x lo hi : Int) : Int := if x < lo then lo else if hi < x then hi else x

/-- The w-bit pattern of an integer. -/
def patOf (w : Nat) (x : Int) : Nat := (x % ((2 ^ w : Nat) : Int)).toNat

/-- 03 R58: Encode into an integer format of w bits. -/
def encodeInt (signed : Bool) (w : Nat) (mode : RMode) (v : Val) : Nat × FlagBits :=
  let lo := minInt signed w
  let hi := maxInt signed w
  match v with
  | .nan _ => (0, flagNV)
  | .inf n => (patOf w (if n then lo else hi), flagNV)
  | .fin n m e rest =>
    let y := roundAt mode n m e rest 0
    let x : Int := if n then -(y.1 : Int) else y.1
    if x < lo || hi < x then (patOf w (clampInt x lo hi), flagNV) else (patOf w x, flagIf y.2 flagNX)

/-- 03 R58: Encode(fmt, x, mode), with FTZ in force or not. -/
def encodeFmt (ftz : Bool) (fmt : Nat) (mode : RMode) (v : Val) : Nat × FlagBits :=
  match fFmt? fmt with
  | some f => f.encode ftz mode v
  | none => encodeInt (fmtSigned fmt) (fmtWidth fmt) mode v

/-- 03 R59: the flags of a conversion's source: NV for a signalling NaN (R54). -/
def snanFlag (v : Val) : FlagBits := flagIf v.isSnan flagNV

/-- 03 R59: convert an element between formats. -/
def convertFmt (ftz : Bool) (mode : RMode) (dst src bits : Nat) : Nat × FlagBits :=
  if fmtIsInt dst && fmtIsInt src then
    match decodeFmt src bits with
    | .fin n m _ _ =>
      let x : Int := if n then -(m : Int) else m
      let w := fmtWidth dst
      (patOf w (clampInt x (minInt (fmtSigned dst) w) (maxInt (fmtSigned dst) w)), 0)
    | _ => (0, 0)
  else
    let v := inFmt ftz src bits
    let r := encodeFmt ftz dst mode v
    (r.1, r.2 ||| snanFlag v)

/-- The canonical NaN of a floating-point format (03 R50). -/
def canonNan (fmt : Nat) : Nat := match fFmt? fmt with
  | some f => f.canon
  | none => 0

/-- 09 R209: bits above a narrow element in a lane: copies of the top bit for `s16`, `s8` and `s4`, else zeros. -/
def extendElem (fmt x : Nat) : Nat :=
  let w := fmtWidth fmt
  if w < 32 && fmtSigned fmt then patOf 32 (signedOf w x) else x

/-! ### Scales and codebooks -/

/-- 03 R63: field k of a scale word. -/
def scaleField (w k : Nat) : Nat := w / 2 ^ (10 * k) % 1024

/-- 03 R62: the value of a `scl10` scale; E = 0xFF is NaN. -/
def scaleVal (sc : Nat) : Val :=
  let e := sc / 4 % 256
  if e = 255 then .nan false else .dy false (4 + sc % 4) ((e : Int) - 129)

/-- 03 R63: field k of a scale word as a value; a word with bit 31 or 30 set decodes as NaN. -/
def scaleOfWord (w k : Nat) : Val := if w / 2 ^ 30 != 0 then .nan false else scaleVal (scaleField w k)

/-- 03 R65: weight j of an index over its row. -/
def codeWeight (row index j : Nat) : Val := .dy (bitOf index j) (bits row (4 * j + 3) (4 * j)) (-1)

end Sys2Proof.Machine
end

