-- ==== Sys2Proof/Machine/Elementary.lean ====
section
/-!
DEFINITION. The one-operand functions of 09 R203 and R204: exact quotients and roots, and the transcendental
functions in fixed point with 384 fraction bits.  Inputs have at most 24 significant bits, so the 352 bits kept of a
result that is not exact decide every rounding (log entry 20).
-/
namespace Sys2Proof.Machine

/-- Fraction bits of the fixed-point work. -/
def fixBits : Nat := 384
/-- One in fixed point. -/
def fixOne : Nat := 2 ^ fixBits
/-- Product in fixed point. -/
def fixMul (a b : Nat) : Nat := a * b / fixOne

/-- Integer square root, bit by bit from bit i − 1 down. -/
def isqrtFrom (n : Nat) (i : Nat) (r : Nat) : Nat :=
  match i with
  | 0 => r
  | i + 1 =>
    let r' := r + 2 ^ i
    isqrtFrom n i (if r' * r' ≤ n then r' else r)
/-- ⌊√n⌋. -/
def isqrt (n : Nat) : Nat := isqrtFrom n (bitLen n / 2 + 1) 0

/-- Σ t_k for t_0 = t, t_k = t_{k−1} × x ÷ k: the exponential series (steps count up from k). -/
def expSeries (fuel k t x : Nat) : Nat :=
  match fuel with
  | 0 => t
  | fuel + 1 => t + expSeries fuel (k + 1) (fixMul t x / (k + 1)) x

/-- e^x in fixed point, 0 ≤ x < 1. -/
def fixExp (x : Nat) : Nat := expSeries 90 0 fixOne x

/-- Σ z^(2k+1) ÷ (2k+1): artanh of z; `t` is the current power. -/
def artanhSeries (fuel k t z2 : Nat) : Nat :=
  match fuel with
  | 0 => 0
  | fuel + 1 => t / (2 * k + 1) + artanhSeries fuel (k + 1) (fixMul t z2) z2
/-- artanh z in fixed point, 0 ≤ z ≤ 1/3. -/
def fixArtanh (z : Nat) : Nat := artanhSeries 130 0 z (fixMul z z)

/-- ln 2 = 2 artanh(1/3). -/
def fixLn2 : Nat := 2 * fixArtanh (fixOne / 3)

/-- arctan of 1 ÷ n by its alternating series. -/
def arctanSeries (fuel k t n2 : Nat) : Int :=
  match fuel with
  | 0 => 0
  | fuel + 1 =>
    let x : Int := (t / (2 * k + 1) : Nat)
    (if k % 2 = 0 then x else -x) + arctanSeries fuel (k + 1) (t / n2) n2
/-- π by Machin's formula. -/
def fixPi : Nat :=
  (16 * arctanSeries 100 0 (fixOne / 5) 25 - 4 * arctanSeries 40 0 (fixOne / 239) 57121).toNat

/-- Σ ± t_k, t_k = t_{k−1} × x² ÷ ((2k)(2k+1)): the sine series. -/
def sinSeries (fuel k t x2 : Nat) : Int :=
  match fuel with
  | 0 => 0
  | fuel + 1 =>
    let x : Int := t
    (if k % 2 = 0 then x else -x) + sinSeries fuel (k + 1) (fixMul t x2 / ((2 * k + 2) * (2 * k + 3))) x2
/-- sin x in fixed point, 0 ≤ x ≤ π ÷ 2. -/
def fixSin (x : Nat) : Nat := (sinSeries 60 0 x (fixMul x x)).toNat

/-- A fixed-point result that is not exact, as a value. -/
def ofFix (neg : Bool) (x : Nat) (e : Int) : Val := .fin neg (x / 2 ^ 32) (e - 352) true

/-- The functions of 09 R203 with one operand. -/
inductive Fn1 where
  | rcp | rsq | sqrt | exp2 | log2 | sin | cos
  deriving DecidableEq, Repr

/-- 1 ÷ a. -/
def rcpFin (n : Bool) (m : Nat) (e : Int) : Val :=
  let k := bitLen m + 80
  .fin n (2 ^ k / m) (-e - k) (2 ^ k % m != 0)

/-- √a for a > 0. -/
def sqrtFin (m : Nat) (e : Int) : Val :=
  let m := if e % 2 = 0 then m else 2 * m
  let e := if e % 2 = 0 then e else e - 1
  let x := m * 2 ^ 160
  let r := isqrt x
  .fin false r (e / 2 - 80) (r * r != x)

/-- 1 ÷ √a for a > 0. -/
def rsqFin (m : Nat) (e : Int) : Val :=
  let m := if e % 2 = 0 then m else 2 * m
  let e := if e % 2 = 0 then e else e - 1
  let k := bitLen m + 100
  let r := isqrt (2 ^ (2 * k) / m)
  .fin false r (-(e / 2) - k) (r * r * m != 2 ^ (2 * k))

/-- ⌊m × 2^e⌋ and whether a fraction remains. -/
def floorDy (m : Nat) (e : Int) : Nat × Bool :=
  if e ≥ 0 then (m * 2 ^ e.toNat, false) else (m / 2 ^ (-e).toNat, m % 2 ^ (-e).toNat != 0)

/-- The fraction of m × 2^e in fixed point; e ≥ −384. -/
def fracDy (m : Nat) (e : Int) : Nat :=
  if e ≥ 0 then 0 else m % 2 ^ (-e).toNat * 2 ^ (fixBits - (-e).toNat)

/-- 2^a; a beyond ±1024 is far outside every format and is taken there. -/
def exp2Fin (n : Bool) (m : Nat) (e : Int) : Val :=
  let i := floorDy m e
  let ip := min i.1 1024
  if !i.2 then .dy false 1 (if n then -(ip : Int) else ip)
  else
    let f := fracDy m e
    let f := if n then fixOne - f else f
    let ex : Int := if n then -(ip : Int) - 1 else ip
    ofFix false (fixExp (fixMul f fixLn2)) ex

/-- log₂ a for a > 0. -/
def log2Fin (m : Nat) (e : Int) : Val :=
  let k : Int := e + (bitLen m : Int) - 1
  let x := m * 2 ^ (fixBits + 1 - bitLen m)
  if x = fixOne then .int k
  else
    let z := (x - fixOne) * fixOne / (x + fixOne)
    let l := 2 * fixArtanh z * fixOne / fixLn2
    let v : Int := k * (fixOne : Nat) + (l : Nat)
    ofFix (v < 0) v.natAbs 0

/-- sin(π × a) for a = ±m × 2^e, and cos with a half turn added. -/
def sinPi (n : Bool) (m : Nat) (e : Int) (cosine : Bool) : Val :=
  -- the turn, in units of 2^−384, modulo 2
  let t := if e ≥ 0 then m * 2 ^ e.toNat % 2 * fixOne else m * 2 ^ (fixBits - (-e).toNat) % (2 * fixOne)
  let t := if n then (2 * fixOne - t) % (2 * fixOne) else t
  let t := if cosine then (t + fixOne / 2) % (2 * fixOne) else t
  let neg := t ≥ fixOne
  let h := t % fixOne
  let h := if h > fixOne / 2 then fixOne - h else h
  if h = 0 then .dy (!cosine && n) 0 0
  else if h = fixOne / 2 then .dy neg 1 0
  else ofFix neg (fixSin (fixMul fixPi h)) 0

/-- 09 R203, R204: F(a) exactly, with NV or DZ; a is not a NaN. -/
def fn1 (f : Fn1) (a : Val) : Val × FlagBits :=
  match f, a with
  | _, .nan _ => (.nan false, 0)
  | .rcp, .inf n => (.dy n 0 0, 0)
  | .rsq, .inf n => if n then (.nan false, flagNV) else (.dy false 0 0, 0)
  | .sqrt, .inf n => if n then (.nan false, flagNV) else (.inf false, 0)
  | .exp2, .inf n => if n then (.dy false 0 0, 0) else (.inf false, 0)
  | .log2, .inf n => if n then (.nan false, flagNV) else (.inf false, 0)
  | .sin, .inf _ => (.nan false, flagNV)
  | .cos, .inf _ => (.nan false, flagNV)
  | .rcp, .fin n m e _ => if m = 0 then (.inf n, flagDZ) else (rcpFin n m e, 0)
  | .rsq, .fin n m e _ =>
    if m = 0 then (.inf n, flagDZ) else if n then (.nan false, flagNV) else (rsqFin m e, 0)
  | .sqrt, .fin n m e _ =>
    if m = 0 then (.dy n 0 0, 0) else if n then (.nan false, flagNV) else (sqrtFin m e, 0)
  | .exp2, .fin n m e _ => if m = 0 then (.dy false 1 0, 0) else (exp2Fin n m e, 0)
  | .log2, .fin n m e _ =>
    if m = 0 then (.inf true, flagDZ) else if n then (.nan false, flagNV) else (log2Fin m e, 0)
  | .sin, .fin n m e _ => if m = 0 then (.dy n 0 0, 0) else (sinPi n m e false, 0)
  | .cos, .fin n m e _ => if m = 0 then (.dy false 1 0, 0) else (sinPi n m e true, 0)

end Sys2Proof.Machine
end

