-- ==== Sys2Proof/WellFormed.lean ====
section
/-!
DEFINITION. Well-formed instructions: the encodings that 06 R122 to R130 make legal, whatever the clause.
What depends on the clause (an enabled SETA or SETB, a STOP bit for BKPT, a control transfer last) is checked by
the decoder of a clause.
-/
namespace Sys2Proof

/-- 06 R130: the checks of a word on its own. -/
def Op.legal (o : Op) (x : Args) : Bool :=
  o.guardOk x.guard && o.operandsOk x && o.modOk x && o.longOk x && (!x.fs || o.flagCounted)

/-- An event or a command is always well formed; an instruction is when its word is legal. -/
def Instr.wf (i : Instr) : Bool :=
  match i.opArgs? with
  | some (o, x) => o.legal x
  | none => true

end Sys2Proof
end

