-- ==== Sys2Proof/Decode.lean ====
section
/-!
DEFINITION. Decoding (06 R118 to R134) and, after it, the encoder.  The decoder is total: a word that is no
instruction is rejected under the name of the check of R130 that it fails.
-/
namespace Sys2Proof

/-- Why a word is no instruction: each is the illegal-instruction fault 0x5001 of 06 R130. -/
inductive DecodeError where
  /-- An opcode that 06 R128 leaves unassigned. -/
  | unassigned
  /-- GE = 0 with a guard field set, GE = 1 where no guard is admitted, or a GREG outside its class (R124, R125). -/
  | guardField
  /-- An operand value outside its class (R125). -/
  | operandValue
  /-- A reserved or unadmitted MOD (R126). -/
  | modifier
  /-- L where the entry gives no long form, a missing long form, or bits of the second word set (R123). -/
  | longForm
  /-- FS in an instruction that is not flag-counted (R120). -/
  | flagSelector
  /-- FS names a SETA or SETB that is not enabled (R130). -/
  | flagNotEnabled
  /-- A control transfer that is not last in its clause (R127). -/
  | notLast
  /-- BKPT without its STOP bit (08 R182). -/
  | noStopBit
  /-- Fewer bytes than the instruction needs. -/
  | truncated
  deriving DecidableEq, Repr

/-- 06 R122: OP. -/
def opField (w : DWord) : BitVec 9 := w.extractLsb' 55 9
/-- 06 R122: L. -/
def longBit (w : DWord) : Bool := w.getLsbD 6

/-- 06 R122: the operand fields of a first word, with the second word where L is set. -/
def argsOf (w : DWord) (imm : Option DWord) : Args :=
  { guard := { en := w.getLsbD 54, neg := w.getLsbD 53, scalar := w.getLsbD 52, reg := w.extractLsb' 44 8,
               bit := w.extractLsb' 39 5 },
    d := w.extractLsb' 31 8, a := w.extractLsb' 23 8, b := w.extractLsb' 15 8, c := w.extractLsb' 7 8,
    long := imm, fs := w.getLsbD 5, mod := w.extractLsb' 0 5 }

/-- 06 R130: the checks of a word on its own, in the order of the fields. -/
def checkWord (o : Op) (x : Args) : Except DecodeError Instr :=
  if !o.guardOk x.guard then .error .guardField
  else if !o.operandsOk x then .error .operandValue
  else if !o.modOk x then .error .modifier
  else if !o.longOk x then .error .longForm
  else if x.fs && !o.flagCounted then .error .flagSelector
  else .ok (o.instr x)

/-- 06 R122 to R128: the instruction of a first word and, in long form, a second word. -/
def decodeWord (w : DWord) (next : Option DWord) : Except DecodeError Instr :=
  match Op.ofCode (opField w).toNat with
  | none => .error .unassigned
  | some o =>
    if longBit w then
      match next with
      | none => .error .truncated
      | some imm =>
        let x := argsOf w (some imm)
        checkWord (o.select x.mod x.a) x
    else
      let x := argsOf w none
      checkWord (o.select x.mod x.a) x

/-- 00 R4: the doubleword of eight bytes, the first lowest. -/
def dwordOfBytes (l : List Byte) : DWord := l.foldr (fun b w => (w <<< 8) ||| b.setWidth 64) 0

/-- The eight bytes of a doubleword, lowest first (00 R4). -/
def bytesOfDWord (w : DWord) : List Byte := (List.range 8).map (fun i => w.extractLsb' (8 * i) 8)

/-- 06 R111, R122: the instruction at the head of a list of bytes, with the bytes after it. -/
def decodeBytes (l : List Byte) : Except DecodeError (Instr × List Byte) :=
  if l.length < 8 then .error .truncated
  else
    let w := dwordOfBytes (l.take 8)
    if longBit w then
      if l.length < 16 then .error .truncated
      else
        match decodeWord w (some (dwordOfBytes ((l.drop 8).take 8))) with
        | .ok i => .ok (i, l.drop 16)
        | .error e => .error e
    else
      match decodeWord w none with
      | .ok i => .ok (i, l.drop 8)
      | .error e => .error e

/-! ### Clauses (06 R118 to R121, R127, R130) -/

/-- 06 R118: a clause header. -/
structure Header where
  len : Nat
  wait : BitVec 12
  setaEn : Bool
  seta : Nat
  setbEn : Bool
  setb : Nat
  /-- Bit k - 1 marks word k. -/
  stop : BitVec 7
  merge : Bool
  yhint : Bool
  deriving DecidableEq, Repr

/-- 06 R118: the fields of a header word. -/
def headerOf (w : DWord) : Header :=
  { len := (w.extractLsb' 0 3).toNat, wait := w.extractLsb' 3 12, seta := (w.extractLsb' 15 4).toNat,
    setaEn := w.getLsbD 19, setb := (w.extractLsb' 20 4).toNat, setbEn := w.getLsbD 24, stop := w.extractLsb' 25 7,
    merge := w.getLsbD 32, yhint := w.getLsbD 33 }

/-- 06 R123: for each word of a clause's body, whether it is the second word of a long form. -/
def secondWords (second : Bool) (l : List DWord) : List Bool :=
  match l with
  | [] => []
  | w :: rest => second :: secondWords (!second && longBit w) rest

/-- 06 R130: the header makes a legal clause with the body words given (LEN of them). A last word with L set makes it illegal
whatever its entry, one with no long form among them (log entry 56). -/
def clauseLegal (w : DWord) (body : List DWord) : Bool :=
  let h := headerOf w
  let sec := secondWords false body
  h.len != 0 && (w.extractLsb' 34 30 == 0) &&
  (if h.setaEn then h.seta < 12 else h.seta == 0) && (if h.setbEn then h.setb < 12 else h.setb == 0) &&
  (List.range 7).all (fun k => !h.stop.getLsbD k || (k < h.len && !(sec.getD k false))) &&
  (match body.getLast?, sec.getLast? with
   | some l, some s => s || !longBit l
   | _, _ => true)

/-- 06 R120, R127, R130, 08 R182: the instruction at word k of a legal clause (header first), with the index of the
next instruction word. -/
def decodeAt (clause : List DWord) (k : Nat) : Except DecodeError (Instr × Nat) :=
  match clause, clause[k]? with
  | hw :: _, some w =>
    let h := headerOf hw
    let k' := if longBit w then k + 2 else k + 1
    match decodeWord w clause[k + 1]? with
    | .error e => .error e
    | .ok i =>
      match i.opArgs? with
      | none => .ok (i, k')
      | some (o, x) =>
        if o.flagCounted && !(if x.fs then h.setbEn else h.setaEn) then .error .flagNotEnabled
        else if o.endsClause && k' ≤ h.len then .error .notLast
        else if o == .bkpt && !h.stop.getLsbD (k - 1) then .error .noStopBit
        else .ok (i, k')
  | _, _ => .error .truncated

/-- The number of the flag an instruction counts, from its clause's header (06 R120). -/
def Header.flagOf (h : Header) (fs : Bool) : Nat := if fs then h.setb else h.seta

/-! ### The host's question -/

/-- The instruction the decoder reads from the bytes of an instruction, its bits numbered from the first word up. -/
def decodeTableWord (nbits w : Nat) : Option Instr :=
  let w := w % 2 ^ nbits
  match decodeBytes (bytesOfDWord (BitVec.ofNat 64 w) ++ bytesOfDWord (BitVec.ofNat 64 (w / 2 ^ 64))) with
  | .ok (i, _) => some i
  | .error _ => none

/-! ### The encoder -/

/-- 06 R122: the first word of an instruction. -/
def Op.word (o : Op) (x : Args) : DWord :=
  (BitVec.ofNat 9 o.code ++ BitVec.ofBool x.guard.en ++ BitVec.ofBool x.guard.neg ++ BitVec.ofBool x.guard.scalar ++
    x.guard.reg ++ x.guard.bit ++ x.d ++ x.a ++ x.b ++ x.c ++ BitVec.ofBool x.long.isSome ++ BitVec.ofBool x.fs ++
    x.mod : BitVec 64)

/-- 06 R122, R123: the words of an instruction; none for an event or a command. -/
def encode (i : Instr) : List DWord :=
  match i.opArgs? with
  | some (o, x) => o.word x :: x.long.toList
  | none => []

/-- 06 R111: the bytes of an instruction in memory. -/
def encodeBytes (i : Instr) : List Byte := (encode i).flatMap bytesOfDWord

/-- 06 R118: the word of a header. -/
def Header.word (h : Header) : DWord :=
  (0#30 ++ BitVec.ofBool h.yhint ++ BitVec.ofBool h.merge ++ h.stop ++ BitVec.ofBool h.setbEn ++
    BitVec.ofNat 4 h.setb ++ BitVec.ofBool h.setaEn ++ BitVec.ofNat 4 h.seta ++ h.wait ++ BitVec.ofNat 3 h.len : BitVec 64)

end Sys2Proof
end

