-- ==== Sys2Proof/Config.lean ====
section
/-!
DEFINITION. What one D7 fixes, and the free values: constants with no body, so that no proof can see a
value the manual leaves open (log entries 3 to 9).
-/
namespace Sys2Proof.Config

/-- Log entry 3: an open value of 64 bits, fresh for each value of `State.free`. -/
opaque freeDWord : Nat → DWord
/-- Log entry 3: an open choice. -/
opaque freeBool : Nat → Bool
/-- Log entry 3: an open choice for one lane, byte or register of many, by its key. -/
opaque mixBool : Nat → Nat → Bool
/-- Log entry 3: an open number. -/
opaque freeNat : Nat → Nat
/-- Log entry 3: an open 32-bit value. -/
opaque freeWord : Nat → Word
/-- Log entry 3: an open byte. -/
opaque freeByte : Nat → Byte
/-- Log entry 4: the core cycles one step takes (01 R3, R5: latencies are not promises). -/
opaque stepCycles : Nat → Nat
/-- Log entry 5: bytes of the entry of a SUMMARY section, by KIND (25 R482 gives no entry layout). -/
opaque summaryEntryBytes : Nat → Nat
/-- Log entry 6: the physical address Cirque gives partition n's control page (25 R478 leaves it to Cirque). -/
def controlPage (n : Nat) : Nat := 0xF_0000_0000_0000 + 0x1000 * (n + 1)
/-- Log entry 6: the physical address of the management mailbox page (21 R403 leaves it open). -/
def mailboxPage : Nat := 0xF_0000_0000_0000
/-- Log entry 7: the stepping of the part (04 R75). -/
def stepping : Nat := 1
/-- Log entry 7: the board's tier-2 size T (01 R490), a multiple of 1 GiB up to 4 TiB. -/
def tier2 : Nat := 0x400_0000_0000
/-- Log entry 7: the package's pod number before Cirque's training gives one (21 R385). -/
def podNumber : Nat := 0
/-- 20 R365: the home slice, 0 to 255, that a die chooses from PA[51:7]; not architectural. -/
opaque homeSlice : Nat → Fin 256
/-- Log entry 43: the DRAM channel that holds a granule of tier-1 memory (not given). -/
opaque channelOf : Nat → Nat
/-- Log entry 43: DRAM channels of a die (not given). -/
opaque channels : Nat
/-- 21 R387: paths from this package to each other package of the pod, one to four. -/
def pathsPerRoute : Nat := 4

/-- Log entry 14: the pod numbers of the other packages on which system software has created a partition, by the partition's number
(21 R385: its Braid domain). -/
opaque braidDomain : Nat → List Nat
/-- Log entry 53: what a read of a device-register window gives, by the counter of free values and the address (25 R478 gives a window
no behaviour). -/
opaque windowValue : Nat → Nat → Nat

/-- Log entry 5: byte j of an entry of a SUMMARY section, by KIND, the numbers the entry reports and j (25 R482 gives them no places).
-/
opaque summaryByte : Nat → List Nat → Nat → Byte
/-- Log entry 49: the bytes of a part of a snapshot image, by its block (0 the header) and the numbers it reports (23 R437 gives them
no places). -/
opaque snapshotBytes : Nat → List Nat → List Byte

end Sys2Proof.Config
end

