-- ==== Sys2Proof/Machine/State.lean ====
section
/-!
DEFINITION. The state of the Draroth D7 package, as plain data.  A field's docstring names the rule of
spec/ that gives it and its value at reset, or at placement for what exists only while work is placed.
-/
namespace Sys2Proof.Machine

/-! ### Splits, traps and groups (chapters 07, 08, 22) -/

/-- 07 R143: the state of a split. -/
inductive SplitState where
  | ready | waitingFlags | parked | waitingEvent | inTrap | divided
  deriving DecidableEq, Repr

/-- Why a split that may issue is held at its next word. -/
inductive Hold where
  /-- Not held. -/
  | none
  /-- 07 R155: an in-trap split at a clause whose WAIT has failed. -/
  | clauseWait
  /-- 07 R155: the instruction would count a flag on which another split waits. -/
  | flagBusy
  /-- 06 R120: the flag counter stands at 63. -/
  | flagLimit
  /-- 08 R178: an in-trap split at WAITEV; `waitOn` holds the condition, the EV fields are zero (07 R142). -/
  | event
  /-- 16 R353: a BWAIT that has not passed. -/
  | bwait
  /-- 16 R355: a TLWAIT that has not passed. -/
  | tlwait
  /-- 13 R294: a scratchpad access that overlaps an incomplete interval. -/
  | scoreboard
  /-- 13 R296: no free scoreboard entry. -/
  | entry
  /-- 14 R317: the matrix queue is full. -/
  | sequencer
  /-- 14 R319: in a legacy image, rows at or above the tile's watermark. -/
  | rows
  /-- 14 R320: the transform pipe is taken. -/
  | pipe
  /-- 20 R230, 21 R388, R392, R394: memory back pressure or acknowledgements awaited. -/
  | memory
  /-- 24 R452, HOLD 1: the instruction was abandoned at a halt or a pre-emption. -/
  | abandoned
  /-- 24 R452, HOLD 2: the instruction raised the fault that halted the domain. -/
  | faulted
  deriving DecidableEq, Repr

/-- 23 R431, R432: where a split stands in a stop. -/
inductive StopMark where
  | running
  /-- Stops at its next stop site, or, where it reaches none in time, at a clause boundary. -/
  | asked
  /-- Asked while it did not run: stops at its next clause boundary. -/
  | boundary
  | stopped
  /-- RESUME: the instruction at its own stop site issues without stopping again. -/
  | resumed
  /-- STEP: likewise, and it stops at its next stop site. -/
  | stepping
  deriving DecidableEq, Repr

/-- 23 R434: a sample that waits for its split's next stop site: the split, its partition and die, the cycle of the firing and
its stall reason, 0xFF when the split issued. -/
structure PendingSample where
  gid : Nat
  sid : Nat
  part : Nat
  die : Nat
  cycle : Nat
  stall : Nat
  deriving DecidableEq, Repr

/-- 07 R142: a split, resident or spilled, with the position that 24 R452 dumps beside it. -/
structure Split where
  /-- 07 R142, R144: SPLITID, 0 to 127. Placement: 0 for the root (R140), 1 for a second legacy root (R165). -/
  id : Nat
  /-- 07 R142: MASK, 64 bits. Placement: all lanes (R140). -/
  mask : LaneMask
  /-- 07 R142: HELD, 64 bits. Placement: 0. -/
  held : LaneMask
  /-- 06 R111, 07 R142: PC, 32 bits, image offset of the clause. Placement: the role's ENTRY (R140). -/
  pc : Word
  /-- 07 R142: RPC, 32 bits, 0xFFFF_FFFF for none. Placement: none (R140). -/
  rpc : Word
  /-- 07 R142: PARENT, none for a root. Placement: none (R140). -/
  parent : Option Nat
  /-- 07 R143: STATE. Placement: ready (R140). -/
  state : SplitState
  /-- 07 R142: NCHILD. Placement: 0. -/
  nchild : Nat
  /-- 07 R142, R165: ATTR.HALF, 1 bit. Placement: 0 in a native group. -/
  half : Bool
  /-- 07 R142, R143: ATTR.SPILLED, 1 bit. Placement: clear. -/
  spilled : Bool
  /-- 07 R142, 24 R452: the resident entry, 0 to 7, or the spill record that holds it. Placement: 0, and 1 for a
  second legacy root. -/
  slot : Nat
  /-- 07 R142, R156: EVKIND, 0 to 3. Placement: 0. -/
  evKind : Nat
  /-- 07 R142: EVREG, 8 bits. Placement: 0. -/
  evReg : Nat
  /-- 07 R142: EVVAL, 64 bits. Placement: 0. -/
  evVal : DWord
  /-- 07 R142, R151: RESUME, 32 bits. Placement: 0. -/
  resume : Word
  /-- 22 R407: the number of the trap frame held. Placement: none. -/
  frame : Option Nat
  /-- 06 R111, 24 R452: word index of the next instruction, 0 at a clause start. Placement: 0. -/
  word : Nat
  /-- 06 R116: the clause as fetched, header first; empty when none is. Placement: empty. -/
  clause : List DWord
  /-- 07 R147, 22 R411: the next clause start makes no RPC test. Placement: clear. -/
  skipRpc : Bool
  /-- 06 R119: the WAIT of the clause at PC has been passed, though no word of the clause stands next to issue: it is not
  tested again. Placement: clear. -/
  passed : Bool
  /-- 07 R155: the flags of the WAIT that the clause start has failed, until the clause starts. Placement: none. -/
  awaits : BitVec 12
  /-- 07 R155, R161; 24 R452: why the split is held. Placement: none. -/
  hold : Hold
  /-- 16 R353, R355; 08 R178: what a held BWAIT (the key of its barrier, the parity to leave), a held TLWAIT (its timeline, n)
  or an in-trap split's WAITEV (256 × kind + timeline or flag, the value) waits for. Placement: none. -/
  waitOn : Option (Nat × Nat)
  /-- 07 R152, R159: order number of the latest issue. Placement: 0. -/
  issuedAt : Nat
  /-- 07 R153: when the split joined the queue of spilled splits. Placement: none. -/
  queuedAt : Option Nat
  /-- 07 R160: issue-ready for 2,048 cycles without issuing, with the order number of that moment. Placement: none. -/
  starved : Option Nat
  /-- 08 R177: last in round robin for the next choice. Placement: clear. -/
  yielded : Bool
  /-- 21 R392, R394: (destination × 4 + path, SENT) counts that a held POD release waits for. Placement: empty. -/
  awaitAcks : List (Nat × Nat)
  /-- 23 R427, 24 R452: (IMAGEID, ORDINAL) of the last safe point passed. Placement: none. -/
  site : Option (Word × Word)
  /-- 23 R431, R432: the stop state. Placement: running. -/
  stop : StopMark
  deriving DecidableEq, Repr

/-- 22 R407, R408: a trap frame held by some split. -/
structure TrapFrame where
  /-- 22 R407: number 0 to 7. -/
  num : Nat
  /-- 22 R408: TRAPINFO0 bit 28. -/
  vav : Bool
  /-- 22 R409: TRAPINFO0 bit 27. -/
  retry : Bool
  /-- 22 R408: TRAPINFO0 bits 26 to 24. -/
  word : Nat
  /-- 22 R408: TRAPINFO0 bits 23 to 16. -/
  aux : Byte
  /-- 22 R408: TRAPINFO0 bits 15 to 0. -/
  code : BitVec 16
  /-- 22 R408: TRAPINFO1. -/
  resume : Word
  /-- 22 R408: TRAPINFO2 and 3. -/
  lanes : LaneMask
  /-- 22 R408: TRAPINFO4 and 5. -/
  va : BitVec 57
  /-- 22 R408: TRAPINFO6 and 7. -/
  iword : DWord
  deriving DecidableEq, Repr

/-- 10 R243, R244: the reservation of one lane. -/
structure Reservation where
  /-- 10 R243: the element's address, as a key of the memory. -/
  key : Nat
  /-- 10 R244: the element's width in bytes. -/
  width : Nat
  /-- 10 R243: held in the issuing core's L1 (a PRIV pointer), not at the home. -/
  inL1 : Bool
  /-- 10 R244: 0 while uncancelled, else the status (2, 3, 4) of what cancelled it. -/
  cancelled : Nat
  deriving DecidableEq, Repr

/-- 21 R386: one element that a remote load or atomic brings back, with the conversion of 10 R233. -/
structure RemoteElem where
  lane : Nat
  /-- First destination register. -/
  reg : Nat
  /-- Virtual byte address of the element's first byte. -/
  va : Nat
  /-- Bytes of the element. -/
  bytes : Nat
  /-- For a nibble, 0 or 1 within the byte; 2 for a whole element. -/
  nibble : Nat
  mfmt : Nat
  tfmt : Nat
  deriving DecidableEq, Repr

/-- 06 R120, R129: a flag-counted instruction that has issued and has not yet written its destinations. -/
structure PendingOp where
  /-- The model's number of the operation. -/
  id : Nat
  /-- 06 R120: the completion flag counted. -/
  flag : Nat
  /-- 03 R53: the legacy half whose FSTAT takes the flags. -/
  half : Bool
  /-- 06 R129: vector destinations still to be written, key register × 64 + lane. -/
  vWrites : List (Nat × Word)
  /-- 14 R323: scalar destinations still to be written. -/
  sWrites : List (Nat × Word)
  /-- 10 R241: pointer destinations still to be written. -/
  pWrites : List (Nat × PtrBits)
  /-- 02 R32: pointer-valid bits to set, key quad × 64 + lane. -/
  vTags : List Nat
  /-- 06 R129: destinations that a program's own write has taken: a `v` key, 2^20 + an `s` number, 2^21 + a `p` number. -/
  lost : List Nat
  /-- 03 R57: flags to contribute. -/
  fstat : BitVec 5
  /-- 21 R386, R390: (destination, path, sequence) of packets whose responses are awaited. -/
  awaits : List (Nat × Nat × Nat)
  /-- 21 R390: bytes that responses have brought, by virtual address. -/
  got : Assoc Byte
  /-- 21 R386: the elements those bytes make. -/
  elems : List RemoteElem
  /-- 03 R52, R55: FMODE at issue, for the conversions of remote elements. -/
  fmode : Word
  /-- 14 R314, R320: waits for its tile or its transform reply. -/
  waitsEngine : Bool
  /-- 21 R395: the acquire that follows the responses of a remote SYNC access: 0 for none, else its scope + 1. -/
  acq : Nat
  /-- 21 R401: the access goes over the Mbatil link: some byte of it lies in tier-2 memory. -/
  tier2 : Bool
  deriving DecidableEq, Repr

/-- 07 R140, R141; 22 R421: a placed native group. -/
structure Group where
  /-- The model's number of the group, unique among placed groups. -/
  gid : Nat
  /-- The model's number of its workgroup. -/
  wgKey : Nat
  /-- 08 R185: ROLE, 0 to 3. Placement: the role. -/
  role : Nat
  /-- 08 R185: GROUPID. Placement: by role order (04 R84). -/
  groupId : Nat
  /-- 05 R98: the scheduler, 0 to 3. Placement: Confluence's choice. -/
  sched : Nat
  /-- 04 R85: VREGS. -/
  vregs : Nat
  /-- 04 R85: SREGS. -/
  sregs : Nat
  /-- 04 R85: HANDLER, 0xFFFF_FFFF for none. -/
  handler : Word
  /-- 04 R85, 14 R301: ACC, the tiles the role may name. -/
  acc : BitVec 4
  /-- 13 R276: the group holds the workgroup's stream issue rights. -/
  streamRights : Bool
  /-- 03 R19, R140: `v0` to `v255`, 64 lanes × 32 bits, key register × 64 + lane. Placement: 0 (R141). -/
  v : Assoc Word
  /-- 02 R32: the pointer-valid bits set, key quad × 64 + lane, rising. Placement: none (R141). -/
  vtags : List Nat
  /-- 07 R141: `s0` to `s127`, 32 bits each. Placement: 0 (R141). -/
  s : Assoc Word
  /-- 02 R24, R27, R35: `p0` to `p31`, 128 bits each. Placement: null but for mints and `p28` to `p31`. -/
  p : Assoc PtrBits
  /-- 06 R120, 07 R154: counters of `f0` to `f11`, 0 to 63. Placement: 0 (R141). -/
  flags : Assoc Nat
  /-- 03 R53: FMODE of half 0, 32 bits. Placement: 0. -/
  fmode0 : Word
  /-- 03 R53: FMODE of half 1 (legacy), 32 bits. Placement: 0. -/
  fmode1 : Word
  /-- 03 R53: FSTAT of half 0, 32 bits. Placement: 0. -/
  fstat0 : Word
  /-- 03 R53: FSTAT of half 1 (legacy), 32 bits. Placement: 0. -/
  fstat1 : Word
  /-- 06 R112: the fetch unit's copy of `p31`, 128 bits. Placement: as `p31` (R35). -/
  fetchPtr : PtrBits
  /-- 07 R142: the live splits, resident and spilled. Placement: the root (R140) or roots (R165). -/
  splits : List Split
  /-- 22 R407: the trap frames held. Placement: none. -/
  frames : List TrapFrame
  /-- 06 R129: flag-counted instructions outstanding. Placement: none. -/
  ops : List PendingOp
  /-- 10 R243: the lanes' reservations, by lane. Placement: none. -/
  resv : Assoc Reservation
  /-- 07 R159: age order. Placement: order of placement. -/
  age : Nat
  /-- 07 R159: SPLITID that issued last. Placement: 0. -/
  lastSid : Nat
  /-- 08 R177: counts as the youngest for the next choice. Placement: clear. -/
  yielded : Bool
  /-- 07 R162: lost-locality score, 0 to 255. Placement: 0. -/
  score : Nat
  /-- 07 R162: the victim tag array, up to 32 line keys, latest first. Placement: empty. -/
  victims : List Nat
  /-- 07 R162: lines of its core's L1 that the group has accessed since they were filled. Placement: none. -/
  touched : List Nat
  /-- 24 R443: the group has ended. Placement: clear. -/
  ended : Bool
  /-- 24 R451: the group raised the fault that halted its domain. Placement: clear. -/
  faulted : Bool
  deriving DecidableEq, Repr

/-! ### The engines of a core (chapters 13, 14) -/

/-- 13 R289, R290; 14 R315: the kinds of engine operation. -/
inductive EngKind where
  | stream | sgath | sdec | mloop | mstep | azero | aswap | aread | astore
  deriving DecidableEq, Repr

/-- 13 R289: one interval of a scoreboard entry. -/
structure Interval where
  lo : Nat
  hi : Nat
  write : Bool
  /-- 13 R291: complete. -/
  complete : Bool
  deriving DecidableEq, Repr

/-- 13 R277: one dimension of a shape record. -/
structure Dim where
  ext : Nat
  sstr : Int
  dstr : Int
  deriving DecidableEq, Repr

/-- A fault met by an engine operation after issue (13 R286, R299), or by an access: its code, ADDR with VAV,
and PADDR with PAV. -/
structure FaultInfo where
  code : Nat
  addr : Nat
  vav : Bool
  paddr : Nat
  pav : Bool
  deriving DecidableEq, Repr

/-- 13 R273 to R299, 14 R300 to R319, 22 R420: an engine operation from issue to completion. -/
structure EngineOp where
  /-- The model's number, rising in order of arrival (13 R293, 14 R315). -/
  id : Nat
  kind : EngKind
  /-- The issuing group and its workgroup. -/
  gid : Nat
  wgKey : Nat
  /-- 03 R53: the issuing half. -/
  half : Bool
  /-- 13 R273: the timeline and ticket of a stream operation. -/
  timeline : Nat
  ticket : Nat
  /-- 13 R288: the barrier it counts into, as a memory key. -/
  barrier : Option Nat
  /-- 13 R289: it holds a scoreboard entry. -/
  entry : Bool
  /-- 13 R289: its intervals, in the order reads, writes. -/
  intervals : List Interval
  /-- 24 R455: cycle of registration. -/
  regCycle : Nat
  /-- 13 R275, R39: the pointer values kept from issue. -/
  src : PtrBits
  dst : PtrBits
  /-- 13 R277: the shape record. -/
  dims : List Dim
  fill : DWord
  /-- 13 R283: the index list's format, offset and length, zero for STREAM. -/
  idxFmt : Nat
  idxOff : Nat
  /-- 13 R281: SIZE. -/
  size : Nat
  /-- 13 R282: linear indices of the elements that have landed; for SDEC, output bytes landed. -/
  landed : List Nat
  /-- 13 R288: bytes already counted into the barrier. -/
  counted : Nat
  /-- 03 R68: SDEC: the 32 decoder states, words consumed, and the output length once the header is read. -/
  rans : List Nat
  consumed : Nat
  outlen : Option Nat
  /-- 14 R315: the tile named. -/
  tile : Nat
  /-- 14 R311: count and steps done. -/
  count : Nat
  steps : Nat
  /-- 14 R302: the six issue-time `s` operand words. -/
  sops : List Word
  /-- 14 R304: the 32 bytes of the format block. -/
  fmtBlock : List Byte
  /-- 03 R66: the codebook table, 1,024 bytes, read at issue. -/
  codebook : List Byte
  /-- 14 R303: A taken from registers, key register offset × 64 + lane. -/
  aRegs : Assoc Word
  aFromRegs : Bool
  /-- 14 R314: first row, count N', first destination register, format of AREAD, its lanes, and its PendingOp. -/
  row : Nat
  rows : Nat
  dreg : Nat
  fmt : Nat
  lanes : LaneMask
  pending : Nat
  /-- 14 R318: ASTORE's pitch in elements. -/
  pitch : Nat
  /-- 08 R187: FMODE in force at issue. -/
  fmode : Word
  /-- 03 R57: flags gathered, contributed at completion. -/
  fstat : BitVec 5
  /-- 03 R67: SDEC: the tensor header, once it is read. -/
  header : List Byte
  /-- 21 R390: bytes of another package that responses have brought, by virtual address. -/
  got : List (Nat × Byte)
  /-- 13 R291, R292: what has been read and not yet landed: elements by their linear indices; of SDEC, words by their numbers. -/
  fetched : List (Nat × Nat)
  /-- 13 R286: a fault met after issue, and whether its record has been written. -/
  fault : Option FaultInfo
  reported : Bool
  /-- 13 R298: IMAGEID and PC of the issuing clause. -/
  imageId : Word
  pc : Word
  deriving DecidableEq, Repr

/-- 14 R300, R319: an accumulator tile; banks keyed row × 64 + column, `f32` patterns. -/
structure Tile where
  /-- 14 R300: working bank. Placement: +0. -/
  working : Assoc Word
  /-- 14 R300: visible bank. Placement: +0. -/
  visible : Assoc Word
  /-- 14 R319: the legacy watermark W, 0 to 64. Placement: 64. -/
  watermark : Nat
  deriving DecidableEq, Repr

/-! ### Workgroups -/

/-- 16 R354, 13 R287: a timeline. -/
structure Timeline where
  /-- 13 R287: operations issued, 64 bits. Placement: 0. -/
  issued : Nat
  /-- 16 R354: the value reached, 64 bits. Placement: 0. -/
  reached : Nat
  /-- 13 R287: tickets above the reached value that have completed. Placement: none. -/
  done : List Nat
  /-- 16 R355: (ticket, scope) wherever the widest acquire scope of the operations so far rose. Placement: none. -/
  scopes : List (Nat × Nat)
  deriving DecidableEq, Repr

/-- 22 R414, R418, R421: where a workgroup stands. -/
inductive WgStatus where
  /-- Resident and running. -/
  | resident
  /-- 22 R418: pre-emption signalled; splits stop as they may. -/
  | stopping
  /-- 22 R419, R421: its context is in shadow storage. -/
  | saved
  /-- 22 R415: its fault domain has been halted; it waits for its dump. -/
  | halted
  deriving DecidableEq, Repr

/-- 01 R19, 22 R421: a placed workgroup. -/
structure Workgroup where
  /-- The model's number of the workgroup. -/
  key : Nat
  /-- The partition's number. -/
  part : Nat
  /-- 04 R90: the launch's ticket. -/
  ticket : Nat
  /-- 04 R84: the linear workgroup number. -/
  wg : Nat
  /-- 08 R185: WGID.X, .Y, .Z. -/
  x : Nat
  y : Nat
  z : Nat
  /-- 01 R17: logical die, cluster and core. -/
  ldie : Nat
  lcluster : Nat
  lcore : Nat
  /-- 01 R17, 05 R102: its physical core, (die × 7 + cluster) × 8 + core. -/
  phys : Nat
  /-- 05 R100: first linear number of its gang, its member number and GANGSIZE. -/
  gangBase : Nat
  member : Nat
  gangSize : Nat
  /-- 05 R101: the gang's binding table, (member, physical core). -/
  binding : List (Nat × Nat)
  /-- 04 R84: SCRATCHOFF, SCRATCHLEN, BARRIERS, TLALLOT, FIRNLEN, SPILL and PRIVBASE of the launch. -/
  scratchOff : Nat
  scratchLen : Nat
  barriers : Nat
  tlallot : Nat
  firnLen : Nat
  spill : Nat
  privBase : Nat
  /-- 05 R103: the launch's carve-out offset. -/
  carveOff : Nat
  /-- 04 R84: COUNT.X, .Y, .Z. -/
  countX : Nat
  countY : Nat
  countZ : Nat
  /-- 04 R72, R73: CODEOFF, CODELEN and IMAGEID of the running image. -/
  codeOff : Nat
  codeLen : Nat
  imageId : Word
  /-- 01 R22: the image is a D5 image. -/
  legacy : Bool
  /-- 04 R82: the effective PRIO and FDOM. -/
  prio : Nat
  fdom : Nat
  /-- 14 R300: union of its roles' ACC. -/
  acc : BitVec 4
  /-- 16 R354: its timelines. Placement: 0. -/
  timelines : List Timeline
  /-- 22 R418: where it stands. Placement: resident. -/
  status : WgStatus
  /-- 24 R444: it has retired; its allotments stay until its gang has. Placement: clear. -/
  retired : Bool
  /-- 22 R423: physical cluster (die × 7 + cluster) whose shadow storage holds its saved context. -/
  savedAt : Nat
  /-- 22 R421, R423: scratchpad bytes of a saved context, by offset, with the tags of its granules. -/
  savedScratch : Assoc Byte
  savedTags : List Nat
  /-- 25 R472: its poisoned granules. -/
  savedPoison : List Nat
  /-- 22 R420, R421: the tiles of its ACC union, by number, and its matrix operations, of a saved context. -/
  savedTiles : Assoc Tile
  savedOps : List EngineOp
  deriving DecidableEq, Repr

/-! ### The storage of a core (chapters 06, 11, 20) -/

/-- 20 R366: the state of a word an L1 holds (a word in I is not held). -/
inductive L1State where
  | valid | dirty | registered
  deriving DecidableEq, Repr

/-- 20 R366: a 4-byte word of global memory held in an L1, or one of another package's memory (20 R379). -/
structure L1Word where
  /-- Physical address of the word ÷ 4; for another package's, a number from 2^60 up, made of the partition, the remote epoch, the
  owner and the virtual address. -/
  key : Nat
  /-- 06 R113 and 20 R384: the partition that filled it. -/
  part : Nat
  st : L1State
  data : Word
  /-- Bytes of `data` that hold the word's bytes. -/
  have_ : BitVec 4
  /-- 20 R366: the dirty-byte mask. -/
  dirty : BitVec 4
  /-- 10 R236: the nibbles that the core has written of the bytes of `dirty`, bit 2 × byte + half: the stores of two cores to the
  halves of one byte both stand. -/
  nibs : BitVec 8
  /-- 02 R28: the pointer-valid tag held with the word's granule. -/
  tag : Bool
  /-- 10 R238: filled through an INV pointer. -/
  inv : Bool
  deriving DecidableEq, Repr

/-- 06 R113: a line of an instruction cache: virtual line number, partition and its sixteen doublewords. -/
structure ILine where
  line : Nat
  part : Nat
  words : List DWord
  deriving DecidableEq, Repr

/-- 11 R253: a leaf as the walker found it. -/
structure Leaf where
  level : Nat
  pa : Nat
  dev : Bool
  x : Bool
  w : Bool
  r : Bool
  dck : Bool
  ace : Bool
  fwd : Bool
  ord : Bool
  contig : Bool
  /-- Physical address of the entry. -/
  entry : Nat
  deriving DecidableEq, Repr

/-- 11 R264: a TLB entry: partition, virtual page number at the leaf's size, the leaf; for a merged block
(R257) the sixteen leaves share it. -/
structure TlbEntry where
  part : Nat
  /-- First virtual address covered. -/
  va : Nat
  /-- Bytes covered. -/
  size : Nat
  leaf : Leaf
  /-- 11 R257: the DCK of each leaf of a merged block. -/
  dcks : List Bool
  deriving DecidableEq, Repr

/-- 11 R264: a walk-cache entry: the table entry read at a level for the addresses that share its index. -/
structure WalkEntry where
  part : Nat
  level : Nat
  /-- The virtual address with the bits below the level's index cleared. -/
  va : Nat
  entry : DWord
  deriving DecidableEq, Repr

/-- 07 R166: a scheduler's stall histogram: H0 to H16 and Z0 to Z11, 48 bits each. -/
structure Histogram where
  /-- Reset: 0 (log entry 12). -/
  h : List Nat
  /-- Reset: 0 (log entry 12). -/
  z : List Nat
  deriving DecidableEq, Repr

/-- 01 R11: the storage and engines of a physical core that no group owns. -/
structure Core where
  /-- 20 R366: words the L1 holds. Reset: none. -/
  l1 : List L1Word
  /-- 06 R113: instruction-cache lines. Reset: none. -/
  icache : List ILine
  /-- 11 R264: TLB. Reset: none. -/
  tlb : List TlbEntry
  /-- 11 R264: walk cache. Reset: none. -/
  walk : List WalkEntry
  /-- 13 R289, 14 R317: engine operations, in order of arrival. Reset: none. -/
  ops : List EngineOp
  /-- 14 R300: tiles `acc0` to `acc3`. Reset: +0 (log entry 12). -/
  tiles : List Tile
  /-- 14 R320: transform operations accepted and not yet replied, (gid, PendingOp). Reset: none. -/
  pipe : List (Nat × Nat)
  /-- 07 R162: the cap on groups that may issue global memory instructions. Reset: 16 (log entry 12). -/
  cap : Nat
  /-- 07 R166: one histogram per scheduler. Reset: 0. -/
  hist : List Histogram
  deriving DecidableEq, Repr

/-! ### Dies, directories and clusters (chapters 01, 05, 20, 25) -/

/-- 20 R372: the state of a directory node. -/
inductive NodeState where
  | u | s | o
  deriving DecidableEq, Repr

/-- 20 R372, R383: a node of a home directory. -/
structure Node where
  /-- First line (physical address ÷ 128), a multiple of 2^size. -/
  base : Nat
  /-- 0 to 9: the node covers 2^size lines. -/
  size : Nat
  st : NodeState
  /-- Bit d for die d, bit 4 for the companion. -/
  hold : BitVec 5
  /-- Die cycle of the last state change; AGE is counted from it. -/
  changed : Nat
  deriving DecidableEq, Repr

/-- 20 R382: the coherence counters of a partition on a die, 48 bits each, saturating. Reset: 0. -/
structure CohCounters where
  regs : Nat
  fwds : Nat
  recallOut : Nat
  recallIn : Nat
  splits : Nat
  merges : Nat
  dirEvict : Nat
  epoch : Nat
  deriving DecidableEq, Repr

/-- 20 R379: a line of another package's memory, cached by RSHR loads in a die. -/
structure RemoteLine where
  part : Nat
  /-- Virtual address ÷ 128. -/
  line : Nat
  /-- The remote epoch under which it was filled. -/
  epoch : Nat
  /-- Offset and value of each byte held. -/
  bytes : Assoc Byte
  /-- 02 R28: offsets of its granules that came with their tags. -/
  tags : List Nat
  deriving DecidableEq, Repr

/-- 25 R482: the state of a physical cluster. -/
inductive ClusterState where
  | enabled | spare | retired | inService
  deriving DecidableEq, Repr

/-- 05 R105 to R110: how a physical cluster is shared. -/
structure ClusterShare where
  /-- 01 R9, 25 R482. Reset: the choice of the Cirque (R10); log entry 13. -/
  state : ClusterState
  /-- 05 R102: defective-core mask, 8 bits. Reset: 0 (log entry 13). -/
  defects : BitVec 8
  /-- 25 R485: the mask that applies from the next swap-in. Reset: 0 (log entry 13). -/
  newDefects : BitVec 8
  /-- 25 R485: MEMCHK of the cluster has passed since it was retired. Reset: clear. -/
  checked : Bool
  /-- 05 R105: the partition whose contexts are resident. Reset: none. -/
  resident : Option Nat
  /-- 05 R105: die cycle at which the slice started. Reset: 0. -/
  sliceStart : Nat
  /-- 05 R105: the quantum, in units of 10 µs. Reset: 0. -/
  quantum : Nat
  /-- 05 R106, 22 R418: a pre-emption has been signalled. Reset: clear. -/
  preempt : Bool
  /-- 05 R109, R110: a retirement awaits the end of the swap or of the restores. Reset: clear. -/
  retiring : Bool
  /-- 05 R107: by priority, one more than the number of the partition that had the last slice, for round robin. Reset: none. -/
  turns : Assoc Nat
  /-- 19 R364: the partition whose bytes the scratchpads may hold. Reset: none. -/
  lastPart : Option Nat
  /-- 05 R110: the partition whose contexts the swap in progress brings in. Reset: none. -/
  incoming : Option Nat
  deriving DecidableEq, Repr

/-- 25 R475, R476, R482 and chapter 20: one die. -/
structure Die where
  /-- 08 R185: CYCLE, 64 bits. Reset: 0. -/
  cycle : Nat
  /-- 01 R9: the seven clusters. -/
  clusters : List ClusterShare
  /-- 20 R377: COHCTL, 64 bits. Reset: QUIET 0x2_0000, SPLITEN 1. -/
  cohctl : DWord
  /-- 25 R475: RSTCAUSE, 64 bits. Reset: CAUSE 1, the rest 0. -/
  rstcause : DWord
  /-- 20 R372: the home directory. Reset: empty. -/
  nodes : List Node
  /-- 20 R382: coherence counters, by partition. Reset: 0. -/
  coh : Assoc CohCounters
  /-- 20 R379: remote epochs, by partition. Reset: 0. -/
  epochs : Assoc Nat
  /-- 20 R379: remote lines cached. Reset: none. -/
  remote : List RemoteLine
  /-- 11 R261: access counters, key partition × 2^41 + VA[56:16]. Reset: none. -/
  access : Assoc Nat
  /-- 11 R261: the kind (1 another die, 2 another package) of the latest access counted at each key. Reset: none. -/
  accessKind : Assoc Nat
  /-- 25 R482: firmware version of slots A and B. Reset: 1 and 1 (log entry 13). -/
  fwA : Nat
  fwB : Nat
  /-- 25 R484: the image of each slot is valid. Reset: set (log entry 13). -/
  fwValidA : Bool
  fwValidB : Bool
  /-- 25 R482: slot B is active. Reset: clear (log entry 13). -/
  fwActiveB : Bool
  /-- 25 R486: DRAM channels mapped out. Reset: none. -/
  mappedOut : List Nat
  /-- 25 R473: corrected errors per array since the hour began. Reset: 0. -/
  ecc : Assoc Nat
  /-- 25 R471: throttled. Reset: clear. -/
  throttled : Bool
  deriving DecidableEq, Repr

/-! ### Launches and partitions (chapters 04, 05, 23, 25) -/

/-- 04 R85: a role entry. -/
structure Role where
  entry : Word
  handler : Word
  vregs : Nat
  sregs : Nat
  groups : Nat
  str : Bool
  acc : BitVec 4
  deriving DecidableEq, Repr

/-- 04 R82, R83: a block of a launch's path with its effective budgets. -/
structure PathBlock where
  /-- Virtual address of the block. -/
  va : Nat
  clusters : Nat
  scratch : Nat
  firn : Nat
  deriving DecidableEq, Repr

/-- 04 R84, R90: Confluence's copy of an accepted launch. -/
structure Launch where
  ticket : Nat
  /-- Virtual address of the launch block. -/
  block : Nat
  /-- 04 R81: STATE: 1 queued, 2 waiting, 3 running, 4 complete, 5 failed. -/
  state : Nat
  /-- 04 R91: holds a queue entry. -/
  queued : Bool
  /-- 22 R414: a fault domain of it has been halted. -/
  failed : Bool
  /-- 04 R84: the block's fields. -/
  image : Nat
  countX : Nat
  countY : Nat
  countZ : Nat
  gang : Nat
  barriers : Nat
  tlallot : Nat
  scratchOff : Nat
  scratchLen : Nat
  firnLen : Nat
  spill : Nat
  privBase : Nat
  notify : Bool
  pre : List Nat
  roles : List Role
  /-- 04 R86: (REG, TEMPLATE). -/
  mints : List (Nat × PtrBits)
  /-- 04 R82: effective PRIO, FDOM and QUANTUM. -/
  prio : Nat
  fdom : Nat
  quantum : Nat
  /-- 04 R82, 05 R103: the path, the launch block first, the root last. -/
  path : List PathBlock
  /-- 04 R72: CODEOFF, CODELEN, IMAGEID and family 0x05 of the image. -/
  codeOff : Nat
  codeLen : Nat
  imageId : Word
  legacy : Bool
  /-- 05 R103: the carve-out offset, once fixed. -/
  carve : Option Nat
  /-- 05 R103: logical dies on which its carve-out is charged. -/
  charged : List Nat
  /-- 04 R94: next linear workgroup number to place, and workgroups retired or dumped. -/
  nextWg : Nat
  retired : Nat
  deriving DecidableEq, Repr

/-- 25 R478: a memory extent (kind 0) or device-register window (kind 1) of a partition. -/
structure Extent where
  device : Bool
  base : Nat
  size : Nat
  deriving DecidableEq, Repr

/-- 23 R435: a ring that Cirque writes: its address and bytes; zero bytes for a ring not set. -/
structure Ring where
  addr : Nat
  size : Nat
  deriving DecidableEq, Repr

/-- 23 R429: the observation control set. -/
structure ObsControl where
  bken : Bool
  stopdom : Nat
  smpl : Nat
  trace : BitVec 2
  ckt : Nat
  tbuf : Ring
  sbuf : Ring
  ckarea : Ring
  /-- BP0 to BP7: the word and its IMAGEID. -/
  bps : List (DWord × Word)
  deriving DecidableEq, Repr

/-- 23 R440: an entry of the Moraine log. -/
structure LogEntry where
  seq : Nat
  kind : Nat
  lane : Nat
  group : Nat
  wg : Nat
  ticket : Nat
  addr : DWord
  value : DWord
  deriving DecidableEq, Repr

/-- 23 R438, R439: a checkpoint in the checkpoint area. -/
structure Checkpoint where
  num : Nat
  /-- The contexts, as 22 R421 saves them. -/
  groups : List Group
  workgroups : List Workgroup
  launches : List Launch
  ticketNext : Nat
  carves : List (Nat × Nat × Nat)
  /-- Pages copied so far, (first physical address, bytes). -/
  pages : List (Nat × Nat)
  /-- Their bytes, by physical address, and the tags of their granules. -/
  bytes : Assoc Byte
  tags : List Nat
  /-- Pieces still pending, (virtual address of the region, first physical address, bytes). -/
  pending : List (Nat × Nat × Nat)
  /-- 23 R440: the log of each home up to the next checkpoint: homes 0 to 1,023 are die × 256 + slice, those above 1,024 +
  physical core. -/
  log : List (Nat × List LogEntry)
  deriving DecidableEq, Repr

/-- 23 R441, R442: a replay under way. -/
structure Replay where
  ckpt : Nat
  freeRun : Bool
  /-- Homes still presenting their logs, with the entries not yet matched. -/
  log : List (Nat × List LogEntry)
  deriving DecidableEq, Repr

/-- 04 R73, R74: an image `drload` has loaded: its IMAGEID, the virtual address of its descriptor and its
safe points, (image offset, ordinal). -/
structure Image where
  id : Word
  va : Nat
  codeOff : Nat
  codeLen : Nat
  points : List (Nat × Nat)
  deriving DecidableEq, Repr

/-- 25 R482: the state of a partition. -/
inductive PartState where
  | running | halted | resetting | reconfiguring
  deriving DecidableEq, Repr

/-- 21 R402: an interrupt message held until the ring has room. -/
structure HeldIrq where
  kind : Nat
  value : Nat
  ticket : Nat
  deriving DecidableEq, Repr

/-- 04 R80, 25 R478: a partition on this package. -/
structure Partition where
  num : Nat
  /-- 25 R482: state. At creation: running. -/
  state : PartState
  /-- 25 R478: PRIO, PTROOT, RBROOT, NDIE, PDIE, CLMAP and the extents. -/
  prio : Nat
  ptroot : Nat
  rbroot : Nat
  ndie : Nat
  pdie : List Nat
  /-- 0xFF for a logical cluster that does not exist; 0xFE for one left unmapped (05 R109). -/
  clmap : List Nat
  extents : List Extent
  /-- 04 R80, R87: TICKETNEXT. At creation: 1. -/
  ticketNext : Nat
  /-- 04 R88: the sixteen STATUS words, 64 bits each. Reset: 0. -/
  status : List DWord
  /-- 04 R89 to R92: accepted launches that hold an entry, and those still being retired. At creation: none. -/
  launches : List Launch
  /-- 05 R103: carve-out reservations, (ticket, offset, bytes). At creation: none. -/
  carves : List (Nat × Nat × Nat)
  /-- 21 R402: the interrupt ring: its physical address, and j, zero while it is unset. At creation: unset. -/
  irqRing : Nat
  irqJ : Nat
  /-- 21 R402: messages of KIND 1 and 2 held. At creation: none. -/
  held : List HeldIrq
  /-- 21 R402: number of the last KIND 4 message, and records not yet signalled. At creation: none, 0. -/
  kind4 : Option Nat
  unsignalled : Nat
  /-- 25 R468: the error area. At creation: unset. -/
  errRing : Ring
  /-- 11 R262: the counter ring and threshold. At creation: unset, 256. -/
  accRing : Ring
  threshold : Nat
  /-- 24 R446: the dump area (physical). At creation: unset. -/
  dumpArea : Ring
  /-- 25 R482: drops of records when no ring holds the count. At creation: 0. -/
  dumpDropped : Nat
  /-- 11 R257: contiguous mismatches. At creation: 0. -/
  mismatches : Nat
  /-- 25 R469: sixteen class counters, 48 bits. At creation: 0. -/
  classes : List Nat
  /-- 23 R429: observation control. At creation: zero. -/
  obs : ObsControl
  /-- 23 R438: checkpoints in the area, the number of the next, and whether the log is discarded. At creation: none, 0. -/
  ckpts : List Checkpoint
  ckptNext : Nat
  /-- 23 R438: a checkpoint has stopped the groups and waits for them. At creation: clear. -/
  ckptBusy : Bool
  logOff : Bool
  /-- 23 R441: a replay under way. At creation: none. -/
  replay : Option Replay
  /-- 04 R73: images loaded and the next IMAGEID. At creation: none, 1. -/
  images : List Image
  imageNext : Nat
  /-- 21 R385: pod numbers of the Braid domain, this package's among them; which the others are is open (log entry 14). -/
  domain : List Nat
  deriving DecidableEq, Repr

/-! ### Error records, halts and service (chapters 22, 24, 25) -/

/-- 25 R464: an error record. -/
structure ErrorRecord where
  code : Nat
  action : Nat
  recov : Nat
  part : Nat
  die : Nat
  vav : Bool
  pav : Bool
  spv : Bool
  ctxv : Bool
  group : Nat
  cycle : Nat
  ticket : Nat
  wg : Nat
  engine : Nat
  lanes : DWord
  addr : Nat
  paddr : Nat
  imageId : Word
  ordinal : Word
  deriving DecidableEq, Repr

/-- 22 R415, 24 R459, R460: where a halt stands. -/
inductive HaltStage where
  /-- Raised, not yet broadcast. -/
  | raised
  /-- Broadcast; draining or waiting for the dump writer. -/
  | halted
  deriving DecidableEq, Repr

/-- 22 R414 to R417: a halted fault domain, from its fatal fault to the end of its dump. -/
structure Halt where
  stage : HaltStage
  part : Nat
  /-- 0 workgroup, 1 gang, 2 launch, 3 partition. -/
  fdom : Nat
  ticket : Nat
  wg : Nat
  die : Nat
  /-- The workgroups of the domain that hold a place. -/
  wgs : List Nat
  cause : ErrorRecord
  haltCyc : Nat
  /-- 24 R459. -/
  nsecond : Nat
  second : Option ErrorRecord
  /-- 24 R458. -/
  records : List ErrorRecord
  /-- 24 R460: dumps completed while it waited. -/
  dropped : Bool
  /-- 22 R425, 24 R463: the context was lost. -/
  ctxLost : Bool
  deriving DecidableEq, Repr

/-- 21 R403: the management mailbox. -/
structure Mailbox where
  /-- CMD, 64 bits. Reset: 0 (log entry 13). -/
  cmd : DWord
  /-- ARG0 to ARG5. Reset: 0 (log entry 13). -/
  args : List DWord
  /-- MSTAT, 64 bits. Reset: 0, idle (log entry 13). -/
  mstat : DWord
  /-- RES0 to RES5. Reset: 0 (log entry 13). -/
  res : List DWord
  deriving DecidableEq, Repr

/-- 23 R437: what one block has latched for a snapshot. -/
structure SnapBlock where
  /-- 1 split-table entries, 2 scoreboard entries, 3 L1 word states, 4 directory nodes, 5 path counters, 6 engine queues, 7 stall
  counters; 8 a cluster in the middle of a swap. -/
  kind : Nat
  /-- The numbers it reports, in no given places. -/
  values : List Nat
  /-- 20 R383: the bytes of directory nodes, which have a layout. -/
  image : List Byte
  deriving DecidableEq, Repr

/-- 23 R437: the snapshot control and the image being latched. -/
structure Snapshot where
  buffer : Nat
  size : Nat
  onStop : Bool
  /-- Classes whose records trigger, bit c for class c. -/
  classes : BitVec 16
  /-- An image is being latched: the dies latched so far, with their latch cycles. -/
  active : Bool
  latched : List (Nat × Nat)
  /-- What their blocks have latched. -/
  blocks : List SnapBlock
  ignored : Nat
  deriving DecidableEq, Repr

/-- 21 R400: the state of a Braid path. -/
inductive LinkState where
  | up | congested | down | retraining
  deriving DecidableEq, Repr

/-- 21 R387, R400: a path to a destination. -/
structure BraidPath where
  dest : Nat
  path : Nat
  port : Nat
  state : LinkState
  replays : Nat
  deriving DecidableEq, Repr

/-- 21 R388: SENT and ACKED of a source context, 32 bits. -/
structure BraidCount where
  part : Nat
  dest : Nat
  path : Nat
  sent : Nat
  acked : Nat
  deriving DecidableEq, Repr

/-- 21 R388: PERF of a source package, partition and path, 32 bits, and the sequence numbers performed above it. -/
structure BraidPerf where
  source : Nat
  part : Nat
  path : Nat
  perf : Nat
  above : List Nat
  deriving DecidableEq, Repr

/-- 21 R386, R397: a packet sent and not yet acknowledged. -/
structure SentPacket where
  dest : Nat
  pkt : Packet
  /-- The group and the pending operation it serves, and the lanes whose elements lie in its line. -/
  gid : Nat
  opId : Nat
  /-- 13 R285: it serves the engine operation of that number. -/
  engine : Bool
  lanes : LaneMask
  /-- 11 R263: virtual address of the lowest such lane's access. -/
  va : Nat
  /-- 21 R389: the path on which a new packet of its line would travel is down. -/
  pinnedDown : Bool
  /-- 20 R379: for the packet of an RSHR load, the die that is to keep the line and its remote epoch at the sending. -/
  keep : Option (Nat × Nat)
  /-- 10 R239, 15 R337: some lane's access in it is a SYNC access. -/
  sync : Bool
  /-- 10 R240, 11 R260: some lane's access in it is strongly ordered. -/
  strong : Bool
  /-- 13 R286, R288: elements of the engine operation that it carries, which land when it is acknowledged. -/
  elems : List Nat
  deriving DecidableEq, Repr

/-- 21 R390, R398: the answer of the receiving interface to a packet. -/
structure Reply where
  source : Nat
  part : Nat
  path : Nat
  seq : Nat
  /-- 21 R398: this package does not hold the partition. -/
  refused : Bool
  /-- 11 R263: the code of the fault met here, 0 for none. -/
  faultCode : Nat
  /-- 21 R390: the bytes of a load by their offset in the line; of an atomic, byte i of lane l under 8 × l + i. -/
  bytes : List (Nat × Byte)
  /-- Offsets of the tagged granules of a load (02 R28). -/
  tags : List Nat
  deriving DecidableEq, Repr

/-- 10 R243, 21 R379: a reservation that a lane of another package holds at this one's home slices. -/
structure FarResv where
  source : Nat
  part : Nat
  group : Nat
  lane : Nat
  key : Nat
  width : Nat
  /-- 10 R244: 0 while uncancelled, else the status. -/
  cancelled : Nat
  deriving DecidableEq, Repr

/-! ### Faults and refusals of the model -/

/-- Why a step stops with a fault. -/
inductive Fault where
  /-- Raised by `exec` for an instruction row when no split is issuing. Safe: the hardware has no such event. -/
  | noIssuer
  /-- Raised by a companion access to an address 01 R490 calls not populated. Safe: the model stops. -/
  | notPopulated (pa : Nat)
  deriving DecidableEq, Repr

/-- Why a step is refused. -/
inductive Refusal where
  /-- Raised by the dispatch for a row whose meaning the model does not hold yet. Safe: no step is taken. -/
  | notModelled (mnemonic : String)
  deriving DecidableEq, Repr

/-! ### The machine -/

/-- The whole package. -/
structure State where
  /-- The split chosen to issue in the next step: group and SPLITID. Model's own: none at reset. -/
  cur : Option (Nat × Nat)
  /-- Which agents move next, in order (log entry 2). Model's own: empty at reset. -/
  agenda : List Instr
  /-- Counter of free values drawn (log entry 3). Model's own: DESIGN CHOICE 0 at reset. -/
  free : Nat
  /-- Model's own numbering of groups, workgroups, operations and issues. 0 at reset. -/
  serial : Nat
  /-- Bytes returned by the companion's latest read. Model's own: none at reset. -/
  bus : List Byte
  /-- 01 R490, R12: memory, scratchpads and carve-outs, by key. Reset: nothing listed. -/
  mem : List Host.Cell
  /-- 02 R28: granules (key ÷ 16) whose pointer-valid tag is set, rising. Reset: none. -/
  tags : List Nat
  /-- 25 R472: poisoned granules, rising. Reset: none. -/
  poison : List Nat
  /-- 01 R9: the four dies. -/
  dies : List Die
  /-- 01 R11: the cores, by (die × 7 + cluster) × 8 + core; one not listed is at reset. -/
  cores : Assoc Core
  /-- 04 R80: the partitions. Reset: none. -/
  parts : List Partition
  /-- 01 R19: placed workgroups. Reset: none. -/
  wgs : List Workgroup
  /-- 01 R19: placed groups. Reset: none. -/
  groups : List Group
  /-- 25 R468: Cirque's copy, the last 4,096 records, oldest first, and the index of the oldest. Reset: none, 0. -/
  records : List ErrorRecord
  recordBase : Nat
  /-- 25 R469: the package's class counters, 48 bits each. Reset: 0. -/
  classes : List Nat
  /-- 22 R415, 24 R460: halted domains. Reset: none. -/
  halts : List Halt
  /-- 21 R403. -/
  mailbox : Mailbox
  /-- 25 R474, R481: the die of the master Cirque. Reset: 0 (log entry 13). -/
  master : Nat
  /-- 21 R385: pod number, 0 to 511. Reset: log entry 7. -/
  pod : Nat
  /-- 21 R387, R400: the paths that are not up, or have replayed packets; one not listed is up (log entry 13). Reset: none. -/
  paths : List BraidPath
  /-- 21 R388: SENT and ACKED. Reset: none. -/
  counts : List BraidCount
  /-- 21 R388: PERF. Reset: none. -/
  perfs : List BraidPerf
  /-- 21 R397: packets not acknowledged. Reset: none. -/
  sent : List SentPacket
  /-- 11 R263: packets answered with a fault, with its code, until the other packets of their instruction are answered.
  Reset: none. -/
  answers : List (SentPacket × Nat)
  /-- 21 R390: the receiving interface's latest answer. Reset: none. -/
  reply : Option Reply
  /-- 21 R393: ordered packets held. Reset: none. -/
  heldPkts : List Packet
  /-- 10 R243, 21 R379: reservations of other packages' lanes. Reset: none. -/
  farResv : List FarResv
  /-- 21 R404: the Mbatil link is down. Reset: clear. -/
  linkDown : Bool
  /-- 21 R404: Mbatil lanes degraded. Reset: none. -/
  badLanes : List Nat
  /-- 25 R482: retrain counts, by lane, or 256 + port. Reset: 0. -/
  retrains : Assoc Nat
  /-- 25 R471: the module power cap is reached. Reset: clear. -/
  powerCap : Bool
  /-- 23 R437. -/
  snap : Snapshot
  /-- 23 R434: samples that wait for their splits' next stop sites. Reset: none. -/
  samples : List PendingSample
  deriving DecidableEq, Repr

/-! ### Reset -/

/-- A cluster at reset: enabled, or the spare (log entry 13: the model's spare is cluster 6). -/
def ClusterShare.reset (n : Nat) : ClusterShare :=
  { state := if n = 6 then .spare else .enabled, defects := 0, newDefects := 0, checked := false, resident := none, sliceStart := 0, quantum := 0,
    preempt := false, retiring := false, turns := [], lastPart := none, incoming := none }

/-- A die at cold reset (20 R377, 25 R475). -/
def Die.reset : Die :=
  { cycle := 0, clusters := (List.range 7).map ClusterShare.reset, cohctl := 0x2000001#64, rstcause := 1#64,
    nodes := [], coh := [], epochs := [], remote := [], access := [], accessKind := [], fwA := 1, fwB := 1,
    fwValidA := true, fwValidB := true, fwActiveB := false, mappedOut := [], ecc := [], throttled := false }

/-- A tile at placement (14 R300, R319). -/
def Tile.reset : Tile := { working := [], visible := [], watermark := 64 }

/-- A stall histogram at reset (log entry 12). -/
def Histogram.reset : Histogram := { h := List.replicate 17 0, z := List.replicate 12 0 }

/-- A core at reset (log entry 12). -/
def Core.reset : Core :=
  { l1 := [], icache := [], tlb := [], walk := [], ops := [], tiles := List.replicate 4 Tile.reset, pipe := [],
    cap := 16, hist := List.replicate 4 Histogram.reset }

/-- The mailbox at reset: idle (log entry 13). -/
def Mailbox.reset : Mailbox := { cmd := 0, args := List.replicate 6 0, mstat := 0, res := List.replicate 6 0 }

/-- Snapshot control at reset (log entry 13). -/
def Snapshot.reset : Snapshot :=
  { buffer := 0, size := 0, onStop := false, classes := 0, active := false, latched := [], blocks := [], ignored := 0 }

/-- The machine right after cold reset: no partition exists, so nothing is placed (04 R80, 25 R474). -/
def State.reset : State :=
  { cur := none, agenda := [], free := 0, serial := 0, bus := [], mem := [], tags := [], poison := [],
    dies := List.replicate 4 Die.reset, cores := [], parts := [], wgs := [], groups := [], records := [],
    recordBase := 0, classes := List.replicate 16 0, halts := [], mailbox := Mailbox.reset, master := 0,
    pod := Config.podNumber, paths := [], counts := [], perfs := [], sent := [], answers := [], reply := none, heldPkts := [], farResv := [], linkDown := false,
    badLanes := [], retrains := [], powerCap := false, snap := Snapshot.reset, samples := [] }

end Sys2Proof.Machine
end

