-- ==== Sys2Proof/Machine/View.lean ====
section
/-!
DEFINITION. Reaching the parts of the state: groups, splits, workgroups, partitions, dies and cores, each found and
changed in one place.
-/
namespace Sys2Proof.Machine

/-- The placed group of a number. -/
def State.group? (s : State) (g : Nat) : Option Group := s.groups.find? (fun x => x.gid == g)
/-- Change the group of a number. -/
def State.modGroup (s : State) (g : Nat) (f : Group → Group) : State :=
  { s with groups := replaceBy (fun x => x.gid == g) f s.groups }

/-- The live split of a SPLITID (07 R144). -/
def Group.split? (g : Group) (sid : Nat) : Option Split := g.splits.find? (fun x => x.id == sid)
/-- Change the split of a SPLITID. -/
def Group.modSplit (g : Group) (sid : Nat) (f : Split → Split) : Group :=
  { g with splits := replaceBy (fun x => x.id == sid) f g.splits }

/-- Change one split of one group. -/
def State.modSplit (s : State) (g sid : Nat) (f : Split → Split) : State :=
  s.modGroup g (fun x => x.modSplit sid f)

/-- The placed workgroup of a number. -/
def State.wg? (s : State) (k : Nat) : Option Workgroup := s.wgs.find? (fun w => w.key == k)
/-- Change the workgroup of a number. -/
def State.modWg (s : State) (k : Nat) (f : Workgroup → Workgroup) : State :=
  { s with wgs := replaceBy (fun w => w.key == k) f s.wgs }

/-- The partition of a number. -/
def State.part? (s : State) (n : Nat) : Option Partition := s.parts.find? (fun p => p.num == n)
/-- Change the partition of a number. -/
def State.modPart (s : State) (n : Nat) (f : Partition → Partition) : State :=
  { s with parts := replaceBy (fun p => p.num == n) f s.parts }

/-- 25 R429, R482: observation control at creation. -/
def ObsControl.blank : ObsControl :=
  { bken := false, stopdom := 0, smpl := 0, trace := 0, ckt := 0, tbuf := ⟨0, 0⟩, sbuf := ⟨0, 0⟩, ckarea := ⟨0, 0⟩,
    bps := List.replicate 8 (0, 0) }

/-- A partition as its creation leaves it, with nothing from its descriptor yet (25 R478). -/
def Partition.blank (n : Nat) : Partition :=
  { num := n, state := .running, prio := 0, ptroot := 0, rbroot := 0, ndie := 0, pdie := [], clmap := [], extents := [],
    ticketNext := 1, status := List.replicate 16 0, launches := [], carves := [], irqRing := 0, irqJ := 0, held := [],
    kind4 := none, unsignalled := 0, errRing := ⟨0, 0⟩, accRing := ⟨0, 0⟩, threshold := 256, dumpArea := ⟨0, 0⟩,
    dumpDropped := 0, mismatches := 0, classes := List.replicate 16 0, obs := ObsControl.blank, ckpts := [],
    ckptNext := 0, ckptBusy := false, logOff := false, replay := none, images := [], imageNext := 1, domain := [] }

/-- 04 R89, 25 R482: the partition is not halted, nor resetting. -/
def Partition.runs (p : Partition) : Bool := p.state == .running || p.state == .reconfiguring

/-- The partition of a workgroup. -/
def State.partOf (s : State) (n : Nat) : Partition := (s.part? n).getD (Partition.blank n)

/-- The launch of a ticket. -/
def Partition.launch? (p : Partition) (t : Nat) : Option Launch := p.launches.find? (fun l => l.ticket == t)
/-- Change the launch of a ticket. -/
def Partition.modLaunch (p : Partition) (t : Nat) (f : Launch → Launch) : Partition :=
  { p with launches := replaceBy (fun l => l.ticket == t) f p.launches }
/-- Change a launch of a partition. -/
def State.modLaunch (s : State) (n t : Nat) (f : Launch → Launch) : State :=
  s.modPart n (fun p => p.modLaunch t f)

/-- A die of the package. -/
def State.die (s : State) (d : Nat) : Die := s.dies.getD d Die.reset
/-- Change a die. -/
def State.modDie (s : State) (d : Nat) (f : Die → Die) : State :=
  { s with dies := s.dies.modify d f }

/-- A physical cluster, numbered die × 7 + cluster. -/
def State.share (s : State) (c : Nat) : ClusterShare := (s.die (c / 7)).clusters.getD (c % 7) (ClusterShare.reset 0)
/-- Change a physical cluster. -/
def State.modShare (s : State) (c : Nat) (f : ClusterShare → ClusterShare) : State :=
  s.modDie (c / 7) (fun d => { d with clusters := d.clusters.modify (c % 7) f })

/-- A physical core, numbered (die × 7 + cluster) × 8 + core. -/
def State.core (s : State) (c : Nat) : Core := assocGet Core.reset c s.cores
/-- Change a physical core. -/
def State.modCore (s : State) (c : Nat) (f : Core → Core) : State :=
  { s with cores := assocSet Core.reset c (f (s.core c)) s.cores }

/-- The die of a physical core. -/
def coreDie (c : Nat) : Nat := c / 56
/-- The physical cluster of a physical core, die × 7 + cluster. -/
def coreCluster (c : Nat) : Nat := c / 8
/-- All physical cores of the package. -/
def allCores : List Nat := List.range 224

/-- A fresh number for a group, a workgroup, an operation or an issue. -/
def State.bump (s : State) : State := { s with serial := s.serial + 1 }

/-- An open choice, with the state after it (log entry 3). -/
def State.drawBool (s : State) : Bool × State := (Config.freeBool s.free, { s with free := s.free + 1 })
/-- An open number, with the state after it (log entry 3). -/
def State.drawNat (s : State) : Nat × State := (Config.freeNat s.free, { s with free := s.free + 1 })
/-- An open doubleword, with the state after it (log entry 3). -/
def State.drawDWord (s : State) : DWord × State := (Config.freeDWord s.free, { s with free := s.free + 1 })

/-- 01 R18: the CORE index of a workgroup. -/
def Workgroup.coreIndex (w : Workgroup) : Nat := w.ldie * 48 + w.lcluster * 8 + w.lcore

/-- The groups of a workgroup. -/
def State.groupsOf (s : State) (k : Nat) : List Group := s.groups.filter (fun g => g.wgKey == k)

/-- A workgroup stands on its core and runs or stops there. -/
def Workgroup.onCore (w : Workgroup) : Bool := w.status != .saved

/-- The engine operation of a number, with its core. -/
def State.op? (s : State) (n : Nat) : Option (Nat × EngineOp) :=
  match s.cores.find? (fun c => c.2.ops.any (fun o => o.id == n)) with
  | some (k, c) => (c.ops.find? (fun o => o.id == n)).map (fun o => (k, o))
  | none => none

/-- Change an engine operation of a core. -/
def State.modOp (s : State) (core n : Nat) (f : EngineOp → EngineOp) : State :=
  s.modCore core (fun c => { c with ops := replaceBy (fun o => o.id == n) f c.ops })

/-- Take an engine operation off its core. -/
def State.dropOp (s : State) (core n : Nat) : State :=
  s.modCore core (fun c => { c with ops := c.ops.filter (fun o => o.id != n) })

end Sys2Proof.Machine
end

