-- ==== Sys2Proof/Machine/Pointer.lean ====
section
/-!
DEFINITION. Pointers (02 R24 to R45, R489): fields, well-formedness, coverage, the checks at issue.
-/
namespace Sys2Proof.Machine

/-- 02 R24: the fields of a pointer. -/
structure Ptr where
  base : Nat
  origin : Nat
  len : Nat
  fmt : Nat
  space : Nat
  cls : Nat
  scope : Nat
  ceil : Nat
  r : Bool
  w : Bool
  x : Bool
  p : Bool
  inv : Bool
  /-- Bits [127:126]. -/
  top : Nat
  deriving DecidableEq, Repr

/-- 02 R24: the fields of 128 bits. -/
def Ptr.ofBits (b : PtrBits) : Ptr :=
  { base := (b.extractLsb' 0 57).toNat, origin := (b.extractLsb' 57 8).toNat, len := (b.extractLsb' 65 39).toNat,
    fmt := (b.extractLsb' 104 6).toNat, space := (b.extractLsb' 110 3).toNat, cls := (b.extractLsb' 113 2).toNat,
    scope := (b.extractLsb' 115 3).toNat, ceil := (b.extractLsb' 118 3).toNat, r := b.getLsbD 121, w := b.getLsbD 122,
    x := b.getLsbD 123, p := b.getLsbD 124, inv := b.getLsbD 125, top := (b.extractLsb' 126 2).toNat }

/-- 02 R24: the 128 bits of the fields. -/
def Ptr.toBits (p : Ptr) : PtrBits :=
  (BitVec.ofNat 2 p.top ++ BitVec.ofBool p.inv ++ BitVec.ofBool p.p ++ BitVec.ofBool p.x ++ BitVec.ofBool p.w ++
    BitVec.ofBool p.r ++ BitVec.ofNat 3 p.ceil ++ BitVec.ofNat 3 p.scope ++ BitVec.ofNat 2 p.cls ++
    BitVec.ofNat 3 p.space ++ BitVec.ofNat 6 p.fmt ++ BitVec.ofNat 39 p.len ++ BitVec.ofNat 8 p.origin ++
    BitVec.ofNat 57 p.base : BitVec 128)

/-- 02 R27: the null pointer. -/
def nullPtr : PtrBits := 0

/-- 01 R15: the scopes. -/
def scopeCore : Nat := 0
def scopeClus : Nat := 1
def scopeDie : Nat := 2
def scopePkg : Nat := 3
def scopePod : Nat := 4

/-- 02 R25: scratchpad bytes of one core. -/
def scratchSize : Nat := 0x180000

/-- 02 R25: the widest CEIL of a SPACE. -/
def widestCeil (space : Nat) : Nat :=
  match space with
  | 0 => 4
  | 1 => 0
  | 2 => 1
  | 3 => 2
  | _ => 3

/-- 02 R25: BASE and LEN meet the limits of SPACE. -/
def Ptr.limitsOk (p : Ptr) : Bool :=
  match p.space with
  | 1 => p.base < 2 ^ 21 && p.base + p.len ≤ scratchSize
  | 2 => p.base < 2 ^ 24 && p.base % 2 ^ 21 + p.len ≤ scratchSize
  | 3 => p.base + p.len ≤ 2 ^ 26
  | _ => p.base + p.len ≤ 2 ^ 57

/-- 01 R18: the number of indices of a scope. -/
def indexRange (scope : Nat) : Nat :=
  match scope with
  | 0 => 192
  | 1 => 24
  | 2 => 4
  | _ => 1

/-- 02 R26: a pointer is well-formed. -/
def Ptr.wf (p : Ptr) : Bool :=
  p.top == 0 && p.space < 6 && p.cls < 3 && p.scope ≤ 4 && p.ceil ≤ 4 && p.scope ≤ p.ceil &&
    p.ceil ≤ widestCeil p.space && (!p.inv || p.cls == 1) && p.origin < indexRange p.scope && p.limitsOk

/-- 10 R229: the index at a scope of the unit holding a CORE index. -/
def indexAt (scope c : Nat) : Nat :=
  match scope with
  | 0 => c
  | 1 => c / 8
  | 2 => c / 48
  | _ => 0

/-- 02 R40: Covers(SCOPE, ORIGIN, c). -/
def covers (scope origin c : Nat) : Bool :=
  match scope with
  | 0 => c == origin
  | 1 => c / 8 == origin
  | 2 => c / 48 == origin
  | 3 => true
  | 4 => true
  | _ => false

/-- The access kinds of 02 R40. -/
inductive Access where
  | load | store | ldp | stp | atomic | resv | fetch | launch | codebook | streamSrc | streamDst | topk | tileStore
  deriving DecidableEq, Repr

/-- 02 R40: the numeric codes and `b8`, which LD and ST accept. -/
def fmtPlain (n : Nat) : Bool :=
  [0x00, 0x01, 0x02, 0x03, 0x04, 0x05, 0x06, 0x07, 0x08, 0x10, 0x11, 0x12, 0x13, 0x14, 0x15, 0x17].contains n

/-- 02 R40: an access needs the right R; the right W; P; X. -/
def Access.needs (a : Access) : Bool × Bool × Bool × Bool :=
  match a with
  | .load => (true, false, false, false)
  | .store => (false, true, false, false)
  | .ldp => (true, false, false, false)
  | .stp => (false, true, true, false)
  | .atomic => (true, true, false, false)
  | .resv => (true, true, false, false)
  | .fetch => (false, false, false, true)
  | .launch => (true, true, false, false)
  | .codebook => (true, false, false, false)
  | .streamSrc => (true, false, false, false)
  | .streamDst => (false, true, false, false)
  | .topk => (true, true, false, false)
  | .tileStore => (false, true, false, false)

/-- 02 R40, check 3. -/
def Ptr.rightsCover (p : Ptr) (a : Access) : Bool :=
  let n := a.needs
  (!n.1 || p.r) && (!n.2.1 || p.w) && (!n.2.2.1 || p.p) && (!n.2.2.2 || p.x)

/-- 02 R40, check 4: the access writes. -/
def Access.writes (a : Access) : Bool := a.needs.2.1

/-- Where the byte at an offset of a pointer lies: in SPACE 2 a member and an offset, else an address (02 R41). -/
structure PAddr where
  member : Nat
  addr : Nat
  deriving DecidableEq, Repr

/-- 02 R41: the address of an offset. -/
def Ptr.addrOf (p : Ptr) (off : Nat) : PAddr :=
  if p.space = 2 then
    { member := bits p.base 23 21 + bits off 23 21, addr := p.base % 2 ^ 21 + off % 2 ^ 21 }
  else { member := 0, addr := p.base + off }

/-- 02 R41, check 6: the lane's bytes lie within the reachable set. -/
def Ptr.boundsOk (p : Ptr) (gangSize off n : Nat) : Bool :=
  if p.space = 2 then
    off < 2 ^ 24 && bits p.base 23 21 + bits off 23 21 < gangSize && off % 2 ^ 21 + n ≤ p.len
  else off + n ≤ p.len

/-- 02 R40, R41: the checks in order, `fmtOk` being check 2 for the access; the code of the first that fails. -/
def Ptr.check (p : Ptr) (core gangSize off n : Nat) (a : Access) (fmtOk : Bool) : Option Nat :=
  if !p.wf then some 0x2007
  else if !fmtOk then some 0x2004
  else if !p.rightsCover a then some 0x2002
  else if p.cls == 1 && a.writes then some 0x2003
  else if !covers p.scope p.origin core then some 0x2005
  else if !p.boundsOk gangSize off n then some 0x2001
  else if (a == .ldp || a == .stp) && (p.addrOf off).addr % 16 != 0 then some 0x2009
  else none

/-- 02 R489: the home unit's index: a logical core for SPACE 1, a logical cluster for 2, a logical die for 3. -/
def Ptr.home (p : Ptr) : Nat :=
  match p.space, p.scope with
  | 1, _ => p.origin
  | 2, 0 => p.origin / 8
  | 2, _ => p.origin
  | 3, 0 => p.origin / 48
  | 3, 1 => p.origin / 6
  | _, _ => p.origin

/-- 22 R408: VAV is set for translation faults and for these pointer faults. -/
def codeHasVa (code : Nat) : Bool :=
  code / 0x1000 == 3 || [0x2009, 0x200C, 0x200D, 0x200E].contains code

/-- 02 R43, 22 R405: faults that are fatal whatever the role declares. -/
def alwaysFatal (code : Nat) : Bool :=
  [0x2001, 0x2006, 0x5004, 0x5301, 0x5302, 0x5303, 0x3403, 0x3405, 0x8002, 0x8003, 0x9001, 0x6002, 0x6102, 0x6301,
   0x0002].contains code

end Sys2Proof.Machine
end

