-- ==== Sys2Proof/Machine/Splits.lean ====
section
/-!
DEFINITION. The split table (07 R142 to R153): how splits divide, park, fuse, dissolve, trap and spill.
Functions here act on one group; `n` is the order number of the event (07 R152, R153).
-/
namespace Sys2Proof.Machine

/-- 07 R142: no reconvergence PC. -/
def noRpc : Word := 0xFFFFFFFF#32

/-- 06 R111: the offset of the next sequential clause of the clause in progress. -/
def Split.nextPc (sp : Split) : Word := sp.pc + BitVec.ofNat 32 (8 * sp.clause.length)

/-- Put a split at the start of the clause at an offset, with nothing fetched and no WAIT tested. -/
def Split.goto (sp : Split) (pc : Word) : Split :=
  { sp with pc := pc, word := 0, clause := [], passed := false, awaits := 0 }

/-- 06 R111: move past an instruction word to word k; past the last, to the next sequential clause. -/
def Split.advance (sp : Split) (k : Nat) : Split :=
  if k < sp.clause.length then { sp with word := k } else sp.goto sp.nextPc

/-- 07 R140: a root split at an offset. -/
def Split.root (id : Nat) (mask : LaneMask) (half : Bool) (pc : Word) : Split :=
  { id := id, mask := mask, held := 0, pc := pc, rpc := noRpc, parent := none, state := .ready, nchild := 0,
    half := half, spilled := false, slot := id, evKind := 0, evReg := 0, evVal := 0, resume := 0, frame := none,
    word := 0, clause := [], skipRpc := false, passed := false, awaits := 0, hold := .none, waitOn := none, issuedAt := 0, queuedAt := none, starved := none,
    yielded := false, awaitAcks := [], site := none, stop := .running }

/-- 07 R144: the lowest free SPLITID. -/
def Group.freeId (g : Group) : Nat :=
  ((List.range 128).find? (fun i => !(g.splits.any (fun x => x.id == i)))).getD 128

/-- 07 R142: resident splits. -/
def Group.resident (g : Group) : List Split := g.splits.filter (fun x => !x.spilled)

/-- The lowest free resident entry. -/
def Group.freeSlot (g : Group) : Nat :=
  ((List.range 8).find? (fun i => !(g.splits.any (fun x => !x.spilled && x.slot == i)))).getD 8

/-- The lowest free spill record of `cap`; none when all are in use (07 R152). -/
def Group.freeRecord (g : Group) (cap : Nat) : Option Nat :=
  (List.range (min cap 128)).find? (fun i => !(g.splits.any (fun x => x.spilled && x.slot == i)))

/-- 07 R152: the rank of a resident split as the one to spill; lower goes first. -/
def Split.spillRank (sp : Split) : Nat :=
  match sp.state with
  | .divided => 0
  | .parked => 1
  | .waitingEvent => 2
  | .waitingFlags => 3
  | .ready => 4
  | .inTrap => 5

/-- 06 R116, R119: the split has started the clause at its PC: its WAIT has been passed. -/
def Split.started (sp : Split) : Bool := sp.passed || (sp.word != 0 && !sp.skipRpc)

/-- A split that has begun its clause and issued no word of it (log entry 17). -/
def Split.atFirst (sp : Split) : Bool :=
  sp.word == 1 && !sp.skipRpc && sp.hold == .none && sp.stop == .running && (sp.state == .ready || sp.state == .inTrap)

/-- 07 R152: a split is spilled between clauses only: one that has issued no word of its clause stands at its start. -/
def Split.spillable (sp : Split) : Bool :=
  !sp.spilled && (sp.word == 0 || sp.state == .divided || sp.atFirst)

/-- 07 R152: the resident split that is spilled next, `busy` excepted. -/
def Group.victim? (g : Group) (busy : List Nat) : Option Split :=
  leastBy (fun x => x.spillRank * 2 ^ 80 + x.issuedAt)
    (g.splits.filter (fun x => x.spillable && !busy.contains x.id))

/-- What came of a request for a resident entry. -/
inductive Room where
  /-- The group with a free entry. -/
  | ok (g : Group)
  /-- Every resident split stands within a clause: wait for a clause boundary (07 R152). -/
  | wait
  /-- 07 R152: no spill record is free. -/
  | full
  deriving DecidableEq, Repr

/-- Spill one split into a record (07 R152); a ready or in-trap one joins the queue (07 R153).  One that had begun its clause
goes on at its first word, with no second test of its RPC or of its WAIT (06 R119). -/
def Group.spill (g : Group) (sid rec n : Nat) : Group :=
  g.modSplit sid (fun x =>
    { x with word := if x.atFirst then 0 else x.word, skipRpc := x.skipRpc || x.atFirst,
             passed := x.passed || x.atFirst, spilled := true, slot := rec,
             queuedAt := if x.state == .ready || x.state == .inTrap then some n else none })

/-- 07 R152: a free resident entry, made by spilling one split where all eight are live. -/
def Group.room (g : Group) (cap n : Nat) (busy : List Nat) : Room :=
  if g.resident.length < 8 then .ok g
  else
    match g.freeRecord cap with
    | none => .full
    | some rec =>
      match g.victim? busy with
      | none => .wait
      | some v => .ok (g.spill v.id rec n)

/-- Add a split in the lowest free entry, under the lowest free SPLITID (07 R144). -/
def Group.addSplit (g : Group) (sp : Split) : Group :=
  { g with splits := g.splits ++ [{ sp with id := g.freeId, slot := g.freeSlot, spilled := false, queuedAt := none }] }

/-- 07 R151, R152: add a split straight into a spill record, as ready or in-trap in the queue. -/
def Group.addSpilled (g : Group) (sp : Split) (rec n : Nat) : Group :=
  { g with splits := g.splits ++ [{ sp with id := g.freeId, slot := rec, spilled := true, queuedAt := some n }] }

/-- The live children of a split. -/
def Group.children (g : Group) (sid : Nat) : List Split := g.splits.filter (fun x => x.parent == some sid)

/-- Add to, or take from, a parent's NCHILD. -/
def Group.countChild (g : Group) (par : Option Nat) (f : Nat → Nat) : Group :=
  match par with
  | none => g
  | some p => g.modSplit p (fun x => { x with nchild := f x.nchild })

/-- Free a split and its SPLITID. -/
def Group.free (g : Group) (sid : Nat) : Group := { g with splits := g.splits.filter (fun x => x.id != sid) }

/-- 07 R148, R149: two splits become one, under the lower SPLITID, with both masks and both HELD sets. -/
def Group.join (g : Group) (a b : Split) : Group :=
  let lo := if a.id < b.id then a else b
  let hi := if a.id < b.id then b else a
  ((g.modSplit lo.id (fun x => { x with mask := x.mask ||| hi.mask, held := x.held ||| hi.held })).free hi.id).countChild
    lo.parent (· - 1)

/-- 07 R148: a split parks; a parked sibling at the same RPC takes it in. -/
def Group.park (g : Group) (sid : Nat) : Group :=
  match g.split? sid with
  | none => g
  | some sp =>
    let sp' := { (sp.goto sp.pc) with state := .parked, evKind := 0, evReg := 0, evVal := 0, queuedAt := none }
    let g := g.modSplit sid (fun _ => sp')
    match g.splits.find? (fun x => x.id != sid && x.state == .parked && x.parent == sp.parent && x.rpc == sp.rpc) with
    | none => g
    | some sib => g.join sib sp'

/-- 07 R150: a split with no lanes parks with its HELD lanes, or is freed. -/
def Group.dissolve (g : Group) (sid : Nat) : Group :=
  match g.split? sid with
  | none => g
  | some sp =>
    if sp.held != 0 && sp.rpc != noRpc then
      (g.modSplit sid (fun x => { x with frame := none, pc := x.rpc })).park sid
    else (g.free sid).countChild sp.parent (· - 1)

/-- 07 R148: a divided split whose live children are all parked fuses, and so may its parent in turn. -/
def Group.settle (fuel : Nat) (n : Nat) (g : Group) (par : Option Nat) : Group :=
  match fuel, par with
  | 0, _ => g
  | _, none => g
  | fuel + 1, some p =>
    match g.split? p with
    | none => g
    | some sp =>
      let cs := g.children p
      if sp.state == .divided && cs.all (fun c => c.state == .parked) then
        let lanes := cs.foldl (fun m c => m ||| c.mask ||| c.held) 0
        let g := { g with splits := g.splits.filter (fun x => x.parent != some p) }
        if lanes != 0 then
          g.modSplit p (fun x =>
            { (x.goto x.pc) with mask := lanes, nchild := 0, state := .ready,
                                 queuedAt := if x.spilled then some n else none })
        else
          ((g.modSplit p (fun x => { x with mask := 0, nchild := 0 })).dissolve p).settle fuel n sp.parent
      else g

/-- 07 R153: a freed entry takes the head of the queue of spilled splits. -/
def Group.refill (fuel : Nat) (g : Group) : Group :=
  match fuel with
  | 0 => g
  | fuel + 1 =>
    if g.resident.length < 8 then
      match leastBy (fun x => x.queuedAt.getD 0) (g.splits.filter (fun x => x.spilled && x.queuedAt.isSome)) with
      | none => g
      | some h =>
        let slot := g.freeSlot
        (g.modSplit h.id (fun x => { x with spilled := false, slot := slot, queuedAt := none })).refill fuel
    else g

/-- 22 R407: a trap frame that no live split holds is freed. -/
def Group.dropFrames (g : Group) : Group :=
  { g with frames := g.frames.filter (fun f => g.splits.any (fun x => x.frame == some f.num)) }

/-- The consequences of a split leaving its place: fusion upwards, frames, the queue. -/
def Group.tidy (g : Group) (n : Nat) (par : Option Nat) : Group :=
  ((g.settle 256 n par).dropFrames).refill 8

/-- 07 R147, R148: a ready split reaches its RPC at a clause start. -/
def Group.reachRpc (g : Group) (n sid : Nat) : Group :=
  match g.split? sid with
  | none => g
  | some sp => (g.park sid).tidy n sp.parent

/-- 07 R150: a split whose mask has become empty. -/
def Group.vanish (g : Group) (n sid : Nat) : Group :=
  match g.split? sid with
  | none => g
  | some sp => (g.dissolve sid).tidy n sp.parent

/-- 07 R146, 22 R410: divide a split into lanes `t` at `tgt` and the rest at the next clause, reconverging at `r`; in both
HELD, NCHILD and the EV fields are zero.  The split has been moved past the branch (log entry 16). -/
def Group.divide (g : Group) (cap n sid : Nat) (t : LaneMask) (tgt r : Word) : Room :=
  match g.split? sid with
  | none => .ok g
  | some sp =>
    let rest := sp.mask &&& ~~~t
    let flat := sp.state == .inTrap || r == sp.rpc
    if flat then
      let g := g.modSplit sid (fun x =>
        { (x.goto sp.nextPc) with mask := rest, held := 0, evKind := 0, evReg := 0, evVal := 0, nchild := 0, issuedAt := n })
      match g.room cap n [] with
      | .ok g =>
        let child := { (sp.goto tgt) with mask := t, held := 0, evKind := 0, evReg := 0, evVal := 0, nchild := 0,
                                          issuedAt := n }
        .ok ((g.addSplit child).countChild sp.parent (· + 1))
      | r => r
    else
      let base := { sp with held := 0, evKind := 0, evReg := 0, evVal := 0, nchild := 0, rpc := r, parent := some sid,
                            issuedAt := n }
      let g0 := g.modSplit sid (fun x => { (x.goto r) with state := .divided, nchild := 2 })
      match g0.room cap n [] with
      | .ok g =>
        let g := g.addSplit { (base.goto sp.nextPc) with mask := rest }
        match g.room cap n [] with
        | .ok g => .ok (g.addSplit { (base.goto tgt) with mask := t })
        | r => r
      | r => r

/-- 07 R153: a resident split stands aside, spilled as ready, for the head of the queue. -/
def Group.giveWay (g : Group) (n sid : Nat) : Group :=
  match g.split? sid, leastBy (fun x => x.queuedAt.getD 0) (g.splits.filter (fun x => x.spilled && x.queuedAt.isSome)) with
  | some sp, some h =>
    if sp.spilled then g
    else
      (g.modSplit h.id (fun x => { x with spilled := false, slot := sp.slot, queuedAt := none })).modSplit sid
        (fun x => { x with spilled := true, slot := h.slot, queuedAt := some n })
  | _, _ => g

/-- 07 R142, R152, 24 R452: the 64 bytes of a split's record. -/
def Split.recordBytes (sp : Split) : List Byte :=
  bytesOfNat 8 sp.mask.toNat ++ bytesOfNat 8 sp.held.toNat ++ bytesOfNat 4 sp.pc.toNat ++ bytesOfNat 4 sp.rpc.toNat ++
    bytesOfNat 1 sp.id ++ bytesOfNat 1 (match sp.parent with | none => 0x80 | some p => p) ++
    bytesOfNat 1 (match sp.state with
      | .ready => 0 | .waitingFlags => 1 | .parked => 2 | .waitingEvent => 3 | .inTrap => 4 | .divided => 5) ++
    bytesOfNat 1 sp.nchild ++ bytesOfNat 1 (sp.half.toNat + 2 * sp.spilled.toNat) ++ bytesOfNat 1 sp.evKind ++
    bytesOfNat 1 sp.evReg ++ bytesOfNat 1 0 ++ bytesOfNat 8 sp.evVal.toNat ++ bytesOfNat 4 sp.resume.toNat ++
    bytesOfNat 20 0

end Sys2Proof.Machine
end

