-- ==== Sys2Proof/Machine/Operands.lean ====
section
/-!
DEFINITION. The operands of an instruction: the registers of the issuing split's group, read at issue, and the
writing of results (06 R124, R125, R129; 09 R190 to R194, R209).
-/
namespace Sys2Proof.Machine

/-- What an instruction sees when it issues: its group, workgroup and split, and the counter of free values. -/
structure Ctx where
  g : Group
  w : Workgroup
  sp : Split
  free : Nat
  deriving DecidableEq, Repr

/-- The later of two listed values of a key. -/
def lastOf {α : Type} (k : Nat) (l : List (Nat × α)) : Option α :=
  (l.reverse.find? (fun kv => kv.1 == k)).map (·.2)

/-- 06 R129: the value that an outstanding flag-counted instruction writes to a `v` register in a lane. -/
def Group.pendingV (g : Group) (k : Nat) : Option Word := g.ops.findSome? (fun o => lastOf k o.vWrites)
/-- 06 R129: likewise for an `s` register. -/
def Group.pendingS (g : Group) (k : Nat) : Option Word := g.ops.findSome? (fun o => lastOf k o.sWrites)
/-- 06 R129: likewise for a `p` register. -/
def Group.pendingP (g : Group) (k : Nat) : Option PtrBits := g.ops.findSome? (fun o => lastOf k o.pWrites)

/-- 06 R129: the old value, or the value an outstanding instruction writes. -/
def eitherOf {α : Type} (free k : Nat) (old : α) (new : Option α) : α :=
  match new with
  | none => old
  | some x => if Config.mixBool free k then x else old

/-- `v`r in a lane. -/
def Ctx.v (c : Ctx) (r l : Nat) : Word :=
  let k := r * 64 + l
  eitherOf c.free k (assocGet 0 k c.g.v) (c.g.pendingV k)
/-- A pair of `v` registers in a lane, the even one low (09 R209). -/
def Ctx.v2 (c : Ctx) (r l : Nat) : Nat := (c.v r l).toNat + 2 ^ 32 * (c.v (r + 1) l).toNat
/-- One register or a pair. -/
def Ctx.vw (c : Ctx) (wide : Bool) (r l : Nat) : Nat := if wide then c.v2 r l else (c.v r l).toNat

/-- 09 R194: the physical scalar register of an operand. -/
def Ctx.sIndex (c : Ctx) (n : Nat) : Nat :=
  if c.w.legacy && c.sp.half then n + c.g.sregs / 2 else n
/-- `s`n. -/
def Ctx.s (c : Ctx) (n : Nat) : Word :=
  let k := c.sIndex n
  eitherOf c.free (2 ^ 20 + k) (assocGet 0 k c.g.s) (c.g.pendingS k)
/-- A pair of `s` registers, the even one low (09 R199). -/
def Ctx.s2 (c : Ctx) (n : Nat) : Nat := (c.s n).toNat + 2 ^ 32 * (c.s (n + 1)).toNat
/-- One register or a pair. -/
def Ctx.sw (c : Ctx) (wide : Bool) (n : Nat) : Nat := if wide then c.s2 n else (c.s n).toNat

/-- `p`n. -/
def Ctx.p (c : Ctx) (n : Nat) : PtrBits :=
  eitherOf c.free (2 ^ 21 + n) (assocGet nullPtr n c.g.p) (c.g.pendingP n)
/-- The fields of `p`n. -/
def Ctx.ptr (c : Ctx) (n : Nat) : Ptr := Ptr.ofBits (c.p n)

/-- 06 R129: an outstanding instruction writes to a quad of `v` registers in a lane, and a read of it gives what is to be written: one
choice for the quad and its pointer-valid bit. -/
def Ctx.quadNew (c : Ctx) (r l : Nat) : Bool :=
  (List.range 4).any (fun i => (c.g.pendingV ((r + i) * 64 + l)).isSome) && Config.mixBool c.free (2 ^ 22 + r * 64 + l)

/-- A word of a quad in a lane. -/
def Ctx.quadWord (c : Ctx) (r l i : Nat) : Word :=
  let k := (r + i) * 64 + l
  if c.quadNew r l then (c.g.pendingV k).getD (assocGet 0 k c.g.v) else assocGet 0 k c.g.v

/-- A quad of `v` registers in a lane as a pointer (02 R32). -/
def Ctx.quad (c : Ctx) (r l : Nat) : PtrBits :=
  (c.quadWord r l 3 ++ c.quadWord r l 2 ++ c.quadWord r l 1 ++ c.quadWord r l 0 : BitVec 128)

/-- The keys of the four registers of a tagged quad, by the key of its pointer-valid bit. -/
def quadKeys (t : Nat) : List Nat := (List.range 4).map (fun i => (t / 64 * 4 + i) * 64 + t % 64)

/-- 02 R32: an operation writes a whole quad and its pointer-valid bit. -/
def PendingOp.tagsQuad (o : PendingOp) (t : Nat) : Bool :=
  o.vTags.contains t && (quadKeys t).all (fun k => (lastOf k o.vWrites).isSome)

/-- The pointer-valid bit of a quad in a lane (02 R32; 06 R129). -/
def Ctx.quadTag (c : Ctx) (r l : Nat) : Bool :=
  if c.quadNew r l then c.g.ops.any (fun o => o.tagsQuad (r / 4 * 64 + l)) else c.g.vtags.contains (r / 4 * 64 + l)

/-- 06 R124: the guard in a lane. -/
def Ctx.guard (c : Ctx) (g : Guard) (l : Nat) : Bool :=
  if g.en then
    let w := if g.scalar then c.s g.reg.toNat else c.v g.reg.toNat l
    w.getLsbD g.bit.toNat != g.neg
  else true

/-- 06 R124: Active(S), as a list of lanes, ascending. -/
def Ctx.active (c : Ctx) (x : Args) : List Nat := (lanesOf c.sp.mask).filter (fun l => c.guard x.guard l)

/-- 01 R18: the CORE index of the issuing core. -/
def Ctx.core (c : Ctx) : Nat := c.w.coreIndex

/-- 09 R214: the number of a lane within a legacy half. -/
def Ctx.laneNo (c : Ctx) (l : Nat) : Nat := if c.w.legacy then l % 32 else l
/-- 09 R214: the lane of a number. -/
def Ctx.laneAt (c : Ctx) (n : Nat) : Nat := if c.w.legacy && c.sp.half then n + 32 else n

/-- The low 32 bits of the second word (06 R123). -/
def immOf (x : Args) : Option Nat := x.long.map (fun w => w.toNat % 2 ^ 32)

/-- 10 R231, 16 R357: the immediate added to an offset. -/
def immOffset (x : Args) : Nat := (immOf x).getD 0

/-- 10 R221, R231: the offset of a lane, by OW and US. -/
def Ctx.offset (c : Ctx) (x : Args) (l : Nat) : Nat :=
  let m := x.mod.toNat
  let b := x.b.toNat
  (match m / 8 % 2, m / 4 % 2 with
    | 0, 0 => (c.v b l).toNat
    | _, 0 => c.v2 b l
    | 0, _ => (c.s b).toNat
    | _, _ => c.s2 b) + immOffset x

/-! ### Writing registers -/

/-- 06 R129: a program's write of registers (as keys of `PendingOp.lost`) that an outstanding instruction also writes: the
one value or the other stays. -/
def Group.dropPending (g : Group) (free : Nat) (ks : List Nat) : Group :=
  if g.ops.isEmpty then g
  else
    let gone := ks.filter (fun k => Config.mixBool (free + 1) k)
    { g with ops := g.ops.map (fun o =>
        { o with vWrites := o.vWrites.filter (fun kv => !gone.contains kv.1),
                 sWrites := o.sWrites.filter (fun kv => !gone.contains (2 ^ 20 + kv.1)),
                 pWrites := o.pWrites.filter (fun kv => !gone.contains (2 ^ 21 + kv.1)),
                 lost := if o.elems.isEmpty && !o.waitsEngine then o.lost else o.lost ++ gone }) }

/-- Write `v` registers, key register × 64 + lane. -/
def Group.setV (g : Group) (ws : List (Nat × Word)) : Group :=
  { g with v := assocSets 0 ws g.v,
           vtags := if g.vtags.isEmpty then g.vtags
                    else g.vtags.filter (fun t => !(ws.any (fun kv => kv.1 / 256 * 64 + kv.1 % 64 == t))) }

/-- Set pointer-valid bits (02 R32). -/
def Group.tagV (g : Group) (ts : List Nat) : Group := { g with vtags := ts.foldl (fun l t => setAdd t l) g.vtags }

/-- Write `s` registers, by physical number. -/
def Group.setS (g : Group) (ws : List (Nat × Word)) : Group := { g with s := assocSets 0 ws g.s }

/-- Write `p` registers. -/
def Group.setP (g : Group) (ws : List (Nat × PtrBits)) : Group := { g with p := assocSets nullPtr ws g.p }

/-- Write `v` registers of the issuing group. -/
def State.writeV (s : State) (c : Ctx) (ws : List (Nat × Word)) : State :=
  s.modGroup c.g.gid (fun g => (g.dropPending c.free (ws.map (·.1))).setV ws)
/-- Write `s` registers of the issuing group, by operand number. -/
def State.writeS (s : State) (c : Ctx) (ws : List (Nat × Word)) : State :=
  s.modGroup c.g.gid (fun g =>
    (g.dropPending c.free (ws.map (fun kv => 2 ^ 20 + c.sIndex kv.1))).setS (ws.map (fun kv => (c.sIndex kv.1, kv.2))))
/-- Write `p` registers of the issuing group. -/
def State.writeP (s : State) (c : Ctx) (ws : List (Nat × PtrBits)) : State :=
  s.modGroup c.g.gid (fun g => (g.dropPending c.free (ws.map (fun kv => 2 ^ 21 + kv.1))).setP ws)

/-- The low word of a number. -/
def loWord (n : Nat) : Word := BitVec.ofNat 32 n
/-- The second word of a number. -/
def hiWord (n : Nat) : Word := BitVec.ofNat 32 (n / 2 ^ 32)

/-- A value in one `v` register or a pair, in a lane. -/
def vPut (wide : Bool) (r l n : Nat) : List (Nat × Word) :=
  if wide then [(r * 64 + l, loWord n), ((r + 1) * 64 + l, hiWord n)] else [(r * 64 + l, loWord n)]
/-- A value in one `s` register or a pair. -/
def sPut (wide : Bool) (r n : Nat) : List (Nat × Word) :=
  if wide then [(r, loWord n), (r + 1, hiWord n)] else [(r, loWord n)]

/-- A quad of `v` registers in a lane. -/
def quadPut (r l : Nat) (q : PtrBits) : List (Nat × Word) :=
  [(r * 64 + l, q.extractLsb' 0 32), ((r + 1) * 64 + l, q.extractLsb' 32 32), ((r + 2) * 64 + l, q.extractLsb' 64 32),
   ((r + 3) * 64 + l, q.extractLsb' 96 32)]

/-! ### The further limits of operand classes (06 R125, R130; 09 R194; 13 R273; 14 R301) -/

/-- An operand value breaks the further limit of its class. -/
def Ctx.beyond (c : Ctx) (k : Cls) (x : BitVec 8) : Bool :=
  let n := x.toNat
  let slim := if c.w.legacy then c.g.sregs / 2 else c.g.sregs
  match k with
  | .v => n ≥ c.g.vregs
  | .v2 => n + 1 ≥ c.g.vregs
  | .v4 => n + 3 ≥ c.g.vregs
  | .vrun _ m => n + m > c.g.vregs
  | .s => n ≥ slim
  | .s2 => n + 1 ≥ slim
  | .t => n ≥ c.w.tlallot
  | .acc => !c.g.acc.getLsbD n
  | _ => false

/-- 06 R130: 0x5003 is raised for the instruction. -/
def Ctx.overLimit (c : Ctx) (o : Op) (x : Args) : Bool :=
  let k := o.classes x
  c.beyond k.d x.d || c.beyond k.a x.a || c.beyond k.b x.b || c.beyond k.c x.c ||
    (x.guard.en && c.beyond (if x.guard.scalar then .s else .v) x.guard.reg) ||
    ((o == .stream || o == .sgath || o == .sdec) && x.mod.toNat % 8 ≥ c.w.tlallot)

/-- 06 R130, R134, 14 R319: the encoding fault of a decoded instruction in this group. -/
def Ctx.encodingFault (c : Ctx) (o : Op) (x : Args) : Option Nat :=
  if c.w.legacy && o.nativeOnly then some 0x5001
  else if c.overLimit o x then some 0x5003
  else none

end Sys2Proof.Machine
end

