-- ==== Sys2Proof/Machine/Flags.lean ====
section
/-!
DEFINITION. FMODE and FSTAT (03 R52 to R57): reading the mode in force, contributing flags.
-/
namespace Sys2Proof.Machine

/-- 03 R53: FMODE of a half. -/
def Group.fmode (g : Group) (half : Bool) : Word := if half then g.fmode1 else g.fmode0
/-- 03 R53: FSTAT of a half. -/
def Group.fstat (g : Group) (half : Bool) : Word := if half then g.fstat1 else g.fstat0

/-- 03 R53: the FMODE that governs a split. -/
def Ctx.fmode (c : Ctx) : Word := c.g.fmode c.sp.half

/-- 03 R53: FTZ. -/
def ftzOf (fmode : Word) : Bool := fmode.getLsbD 2
/-- 03 R53: RM. -/
def rmOf (fmode : Word) : RMode := RMode.ofCode (fmode.toNat % 4)

/-- 06 R126: a rounding field: 0 for FMODE.RM, else a mode. -/
def roundingOf (fmode : Word) (field : Nat) : RMode :=
  match field with
  | 0 => rmOf fmode
  | 1 => .rne
  | 2 => .rtz
  | 3 => .rdn
  | _ => .rup

/-- 03 R54, R57: contribute flags to FSTAT by OR. -/
def Group.addFlags (g : Group) (half : Bool) (f : FlagBits) : Group :=
  if half then { g with fstat1 := g.fstat1 ||| f.setWidth 32 } else { g with fstat0 := g.fstat0 ||| f.setWidth 32 }

/-- Contribute flags to the FSTAT of the issuing split's half. -/
def State.addFlags (s : State) (c : Ctx) (f : FlagBits) : State :=
  s.modGroup c.g.gid (fun g => g.addFlags c.sp.half f)

/-- The flags of a list of results, ORed (03 R48, R54). -/
def orFlags (l : List FlagBits) : FlagBits := l.foldl (· ||| ·) 0

/-- 03 R53: what a write leaves in FMODE. -/
def fmodeWrite (w : Word) : Word := w &&& 7#32
/-- 03 R53: what a write leaves in FSTAT. -/
def fstatWrite (w : Word) : Word := w &&& 0x1F#32

end Sys2Proof.Machine
end

