-- ==== Sys2Proof/Machine/Memory.lean ====
section
/-!
DEFINITION. Memory by key: physical addresses below 2^52 (01 R490), scratchpads at 2^56, carve-outs at 2^57; bytes,
tags (02 R28, R29), poison (25 R472) and the reservations a write cancels (10 R244).
-/
namespace Sys2Proof.Machine

/-- The key of a scratchpad byte: the physical core and the offset (01 R12). -/
def scratchKey (core off : Nat) : Nat := 2 ^ 56 + core * 2 ^ 21 + off
/-- The key of a carve-out byte: the partition, its logical die and the offset (05 R103). -/
def carveKey (part ldie off : Nat) : Nat := 2 ^ 57 + (part * 4 + ldie) * 2 ^ 26 + off
/-- A key names global memory. -/
def isGlobal (k : Nat) : Bool := k < 2 ^ 52
/-- A key names a scratchpad byte. -/
def isScratch (k : Nat) : Bool := 2 ^ 56 ≤ k && k < 2 ^ 57
/-- The core of a scratchpad key. -/
def keyCore (k : Nat) : Nat := (k - 2 ^ 56) / 2 ^ 21

/-- 01 R490: the address is tier-1 memory. -/
def isTier1 (pa : Nat) : Bool := pa < 0x800000_0000 && pa % 0x20_0000_0000 < 0x18_0000_0000
/-- 01 R490: the address is tier-2 memory. -/
def isTier2 (pa : Nat) : Bool := 0x400_0000_0000 ≤ pa && pa < 0x400_0000_0000 + Config.tier2
/-- 01 R490: the address is in device-register space. -/
def isDevice (pa : Nat) : Bool := 0xF_0000_0000_0000 ≤ pa && pa < 2 ^ 52
/-- 01 R490: n bytes from an address are all memory. -/
def memoryRange (pa n : Nat) : Bool :=
  (isTier1 pa && isTier1 (pa + n - 1) && pa / 0x20_0000_0000 == (pa + n - 1) / 0x20_0000_0000) ||
    (isTier2 pa && isTier2 (pa + n - 1))

/-- 20 R365: the home die of a global address. -/
def homeDie (pa : Nat) : Nat := if pa < 0x400_0000_0000 then pa / 0x20_0000_0000 % 4 else pa / 0x10000 % 4

/-- What a byte that nothing has written reads as (log entry 8). -/
def resetByte : Byte := 0

/-- The byte at a key, as the slices hold it. -/
def State.byte (s : State) (k : Nat) : Byte := assocGet resetByte k s.mem
/-- Bytes from a key up. -/
def State.bytes (s : State) (k n : Nat) : List Byte := (List.range n).map (fun i => s.byte (k + i))
/-- A little-endian number from memory (00 R4). -/
def State.num (s : State) (k n : Nat) : Nat := natOfBytes (s.bytes k n)

/-- The pointer-valid tag of the granule of a key (02 R28). -/
def State.tagAt (s : State) (k : Nat) : Bool := s.tags.contains (k / 16)
/-- 25 R472: the granule of a key is poisoned. -/
def State.poisonAt (s : State) (k : Nat) : Bool := s.poison.contains (k / 16)

/-- The memory holds its canonical form. -/
abbrev Memory.wf (m : Assoc Byte) : Bool := assocWf resetByte m

/-- The granules of a list of keys. -/
def granulesOf (ks : List Nat) : List Nat := uniq (ks.map (· / 16))

/-- A write covers a granule whole. -/
def coversGranule (ks : List Nat) (g : Nat) : Bool := (List.range 16).all (fun i => ks.contains (16 * g + i))

/-- 25 R472: what a write leaves of the poison: a write of a whole granule clears it. -/
def poisonAfter (ks : List Nat) (poison : List Nat) : List Nat :=
  if poison.isEmpty then poison else poison.filter (fun g => !coversGranule ks g)

/-- 02 R29: what a write that is no STP leaves of the tags. -/
def tagsAfter (ks : List Nat) (tags : List Nat) : List Nat :=
  if tags.isEmpty then tags else tags.filter (fun g => !(ks.any (fun k => k / 16 == g)))

/-- 10 R244: a reservation's element meets one of the keys. -/
def Reservation.meets (r : Reservation) (ks : List Nat) : Bool := ks.any (fun k => r.key ≤ k && k < r.key + r.width)

/-- 10 R244: cancel, with a status, the reservations that meet the keys, but for one lane of one group. -/
def Group.cancelResv (g : Group) (ks : List Nat) (status : Nat) (but : Option (Nat × Nat)) : Group :=
  if g.resv.isEmpty then g
  else
    { g with resv := g.resv.map (fun (l, r) =>
        if r.cancelled == 0 && r.meets ks && but != some (g.gid, l) then (l, { r with cancelled := status }) else (l, r)) }

/-- 10 R244: cancel, with a status, the reservations that other packages' lanes hold on the keys, but for one. -/
def FarResv.cancel (r : FarResv) (ks : List Nat) (status : Nat) : FarResv :=
  if r.cancelled == 0 && ks.any (fun k => r.key ≤ k && k < r.key + r.width) then { r with cancelled := status } else r

/-- 10 R244: a write cancels reservations in every group, and those of other packages' lanes. -/
def State.cancelResv (s : State) (ks : List Nat) (status : Nat) (but : Option (Nat × Nat)) : State :=
  { s with groups := s.groups.map (fun g => g.cancelResv ks status but),
           farResv := s.farResv.map (fun r => r.cancel ks status) }

/-- Put bytes at the place that holds them: the bytes, the tags (02 R29) and the poison (25 R472). -/
def State.putBytes (s : State) (ws : List (Nat × Byte)) : State :=
  let ks := ws.map (·.1)
  { s with mem := assocSets resetByte ws s.mem, tags := tagsAfter ks s.tags, poison := poisonAfter ks s.poison }

/-- Perform a write of bytes at the place that holds them: the bytes, the tags, the poison and the reservations
(10 R244). Over a barrier object, too, it leaves the bytes it is given, where 16 R349 lets any value be left (log entry 59). -/
def State.store (s : State) (ws : List (Nat × Byte)) (but : Option (Nat × Nat)) : State :=
  if ws.isEmpty then s else (s.putBytes ws).cancelResv (ws.map (·.1)) 2 but

/-- Set the tags of granules, by key (02 R29, R30). -/
def State.tagKeys (s : State) (ks : List Nat) : State := { s with tags := ks.foldl (fun l k => setAdd (k / 16) l) s.tags }

/-- A write of consecutive bytes. -/
def State.storeBytes (s : State) (k : Nat) (bs : List Byte) : State :=
  s.store ((List.range bs.length).zip bs |>.map (fun (i, b) => (k + i, b))) none

/-- A write of a little-endian number of n bytes. -/
def State.storeNum (s : State) (k n x : Nat) : State := s.storeBytes k (bytesOfNat n x)

/-- 02 R30: an STP writes a granule and its tag as one unit. -/
def State.storePtr (s : State) (k : Nat) (q : PtrBits) : State :=
  let s := s.storeBytes k (bytesOfNat 16 q.toNat)
  { s with tags := setAdd (k / 16) s.tags }

/-- The pointer in a granule. -/
def State.loadPtr (s : State) (k : Nat) : PtrBits := BitVec.ofNat 128 (s.num k 16)

/-- Clear memory keys of an interval, with their tags and poison. -/
def State.wipe (s : State) (lo n : Nat) : State :=
  { s with mem := s.mem.filter (fun kv => !(lo ≤ kv.1 && kv.1 < lo + n)),
           tags := s.tags.filter (fun g => !(lo ≤ 16 * g && 16 * g < lo + n)),
           poison := s.poison.filter (fun g => !(lo ≤ 16 * g && 16 * g < lo + n)) }

end Sys2Proof.Machine
end

