-- ==== Sys2Proof/Machine/Translate.lean ====
section
/-!
DEFINITION. Address translation (11 R249 to R268, R492): the walk, contiguous blocks, the TLB and walk cache, the
checks of a leaf.
-/
namespace Sys2Proof.Machine

/-- 11 R255: a page lies whole within one memory extent, or one device-register window, of a partition. -/
def Partition.holds (p : Partition) (device : Bool) (pa n : Nat) : Bool :=
  p.extents.any (fun e => e.device == device && e.base ≤ pa && pa + n ≤ e.base + e.size)

/-- 11 R255: each of n pages from an address lies so. -/
def Partition.holdsPages (p : Partition) (device : Bool) (pa size n : Nat) : Bool :=
  (List.range n).all (fun j => p.holds device (pa + j * size) size)

/-- 11 R250: bits of the page offset at a level. -/
def levelShift (l : Nat) : Nat := 12 + 9 * (l - 1)
/-- 11 R250: the index of a virtual address at a level. -/
def levelIndex (va l : Nat) : Nat := va / 2 ^ levelShift l % 512
/-- 11 R253: bytes of a page whose leaf is at a level. -/
def pageSize (l : Nat) : Nat := 2 ^ levelShift l

/-- 11 R253: a leaf entry's fields. -/
def leafOf (e : Nat) (l entry : Nat) : Leaf :=
  { level := l, pa := bits e 51 12 * 4096, dev := bitOf e 10, x := bitOf e 9, w := bitOf e 8, r := bitOf e 7,
    dck := bitOf e 6, ace := bitOf e 5, fwd := bitOf e 4, ord := bitOf e 3, contig := bitOf e 2, entry := entry }

/-- 11 R253: a reserved bit of a leaf at a level is set. -/
def leafReserved (e l : Nat) : Bool :=
  let x := leafOf e l 0
  bits e 63 52 != 0 || bitOf e 11 || (x.dev && !x.ord) || (x.dev && (x.x || x.fwd)) ||
    (if x.fwd then bits e 51 21 != 0 else x.pa % pageSize l != 0)

/-- 11 R253: the owner package of a FWD leaf. -/
def Leaf.owner (f : Leaf) : Nat := f.pa / 4096 % 512

/-- What a walk gives. -/
inductive Walk where
  | leaf (f : Leaf)
  /-- A fault code with, for the walk faults, the physical address of the entry (11 R268). -/
  | fault (code pa : Nat) (pav : Bool)
  deriving DecidableEq, Repr

/-- 11 R254: the walk from a table at a level down; `l` is the level itself. -/
def State.walkFrom (s : State) (p : Partition) (va : Nat) (l t : Nat) : Walk :=
  match l with
  | 0 => .fault 0x3301 t true
  | l' + 1 =>
    let a := t + 8 * levelIndex va (l' + 1)
    let e := s.num a 8
    if e % 2 = 0 then .fault (0x3100 + (l' + 1)) a true
    else if bitOf e 1 then
      if l' + 1 ≥ 4 then .fault (0x3300 + (l' + 1)) a true
      else if leafReserved e (l' + 1) then .fault (0x3200 + (l' + 1)) a true
      else .leaf (leafOf e (l' + 1) a)
    else if l' = 0 then .fault 0x3301 a true
    else if bits e 63 52 != 0 || bits e 11 2 != 0 then .fault (0x3200 + (l' + 1)) a true
    else
      let t' := bits e 51 12 * 4096
      if p.holds false t' 4096 then s.walkFrom p va l' t' else .fault 0x3403 a true

/-- 11 R264: the table that a walk-cache entry of a level names, where one covers the address. -/
def Core.walkHit (c : Core) (part va l : Nat) : Option Nat :=
  (c.walk.find? (fun w => w.part == part && w.level == l && w.va == va / 2 ^ levelShift l)).map
    (fun w => bits w.entry.toNat 51 12 * 4096)

/-- 11 R264: where a walk starts: below the lowest level that the walk cache covers, else at the root. -/
def State.walkStart (s : State) (core : Nat) (p : Partition) (va : Nat) : Nat × Nat :=
  let c := s.core core
  match c.walkHit p.num va 3, c.walkHit p.num va 4, c.walkHit p.num va 5 with
  | some t, _, _ => (2, t)
  | none, some t, _ => (3, t)
  | none, none, some t => (4, t)
  | none, none, none => (5, p.ptroot)

/-- 11 R254: the walk of an address on a core. -/
def State.walk (s : State) (core : Nat) (p : Partition) (va : Nat) : Walk :=
  let st := s.walkStart core p va
  s.walkFrom p va st.1 st.2

/-- 11 R264: the table entries that a walk reads at levels 5, 4 and 3, which the walk cache may hold. -/
def State.walkTables (s : State) (p : Partition) (va l t : Nat) : List WalkEntry :=
  match l with
  | 0 => []
  | l' + 1 =>
    let e := s.num (t + 8 * levelIndex va (l' + 1)) 8
    if l' + 1 ≥ 3 && e % 2 = 1 && !bitOf e 1 then
      { part := p.num, level := l' + 1, va := va / 2 ^ levelShift (l' + 1), entry := BitVec.ofNat 64 e } ::
        s.walkTables p va l' (bits e 51 12 * 4096)
    else []

/-- 11 R257: the sixteen entries of a contiguous block, when they merge: the merged entry. -/
def State.mergeBlock (s : State) (p : Partition) (va : Nat) (f : Leaf) : Option TlbEntry :=
  let line := f.entry / 128 * 128
  let es := (List.range 16).map (fun j => s.num (line + 8 * j) 8)
  let e0 := es.getD 0 0
  let f0 := leafOf e0 f.level line
  let size := pageSize f.level
  let mask := fun (e : Nat) => bits e 11 7 * 32 + bits e 5 2
  let walked := s.num f.entry 8
  let ok := es.all (fun e => e % 8 == 7 && !leafReserved e f.level && mask e == mask walked) &&
    (List.range 16).all (fun j => (leafOf (es.getD j 0) f.level 0).pa == f0.pa + j * size) &&
    f0.pa % (16 * size) == 0
  if ok then
    some { part := p.num, va := va / (16 * size) * (16 * size), size := 16 * size, leaf := f0, dcks := es.map (fun e => bitOf e 6) }
  else none

/-- The single-page entry of a leaf. -/
def singleEntry (part va : Nat) (f : Leaf) : TlbEntry :=
  { part := part, va := va / pageSize f.level * pageSize f.level, size := pageSize f.level, leaf := f, dcks := [f.dck] }

/-- 11 R264: the TLB entry that covers an address. -/
def Core.tlbHit (c : Core) (part va : Nat) : Option TlbEntry :=
  c.tlb.find? (fun t => t.part == part && t.va ≤ va && va < t.va + t.size)

/-- A translation: the physical address with the leaf's attributes, or a fault. -/
inductive Trans where
  | ok (pa : Nat) (f : Leaf) (dck : Bool)
  | fault (code pa : Nat) (pav : Bool)
  deriving DecidableEq, Repr

/-- The physical address and DCK that a TLB entry gives an address. -/
def TlbEntry.trans (t : TlbEntry) (va : Nat) : Trans :=
  let off := va - t.va
  .ok (if t.leaf.fwd then t.leaf.pa else t.leaf.pa + off) t.leaf
    (t.dcks.getD (off / (t.size / (max t.dcks.length 1))) false)

/-- What a miss installs: the entry, the walk-cache entries, and whether a contiguous block did not match; or the
fault it raises (11 R254, R255, R257) (log entry 15). -/
def State.miss (s : State) (core : Nat) (p : Partition) (va : Nat) : TlbEntry × List WalkEntry × Bool ⊕ (Nat × Nat × Bool) :=
  match s.walk core p va with
  | .fault c a v => .inr (c, a, v)
  | .leaf f =>
    let st := s.walkStart core p va
    let tables := s.walkTables p va st.1 st.2
    if f.fwd then .inl (singleEntry p.num va f, tables, false)
    else
      let out : TlbEntry × Bool := match f.contig, s.mergeBlock p va f with
        | true, some t => (t, false)
        | true, none => (singleEntry p.num va f, true)
        | false, _ => (singleEntry p.num va f, false)
      if p.holdsPages f.dev out.1.leaf.pa (pageSize f.level) (out.1.size / pageSize f.level) then .inl (out.1, tables, out.2) else .inr (0x3405, f.entry, true)

/-- 11 R264: the translation of an address on a core: from its TLB, or by a walk. -/
def State.translate (s : State) (core : Nat) (p : Partition) (va : Nat) : Trans :=
  match (s.core core).tlbHit p.num va with
  | some t => t.trans va
  | none =>
    match s.miss core p va with
    | .inl (t, _, _) => t.trans va
    | .inr (c, a, v) => .fault c a v

/-- Put walk-cache entries in, each in place of one it repeats. -/
def Core.addWalks (c : Core) (ws : List WalkEntry) : Core :=
  { c with walk := ws.foldl (fun l w =>
      if l.any (fun x => x.part == w.part && x.level == w.level && x.va == w.va) then l else w :: l) c.walk }

/-- 11 R254: PAGE_WALK: a walk for an address installs its translation, in place of any that covers it. -/
def State.install (s : State) (core : Nat) (p : Partition) (va : Nat) : State :=
  match s.miss core p va with
  | .inl (t, ws, mism) =>
    let s := s.modCore core (fun c =>
      { (c.addWalks ws) with tlb := t :: c.tlb.filter (fun x => !(x.part == p.num && x.va ≤ va && va < x.va + x.size)) })
    if mism then s.modPart p.num (fun p => { p with mismatches := p.mismatches + 1 }) else s
  | .inr _ => s

/-- The TLB after an access: a miss has walked (11 R264). -/
def State.touch (s : State) (core : Nat) (p : Partition) (va : Nat) : State :=
  match (s.core core).tlbHit p.num va with
  | some _ => s
  | none => s.install core p va

/-- The translations that a list of addresses makes a core hold, page by page. -/
def State.touches (s : State) (core : Nat) (p : Partition) (vas : List Nat) : State :=
  (uniq (vas.map (· / 4096))).foldl (fun s v => s.touch core p (v * 4096)) s

/-- How an access uses a leaf (11 R258, R259, R263). -/
structure Use where
  read : Bool
  write : Bool
  exec : Bool
  /-- Through SPACE 5. -/
  dev : Bool
  /-- SYNC through a pointer whose SCOPE is narrower than POD. -/
  syncNarrow : Bool
  deriving DecidableEq, Repr

/-- 11 R258, R259, R263, R492: the first check of a leaf that fails. -/
def Leaf.refuse (f : Leaf) (p : Partition) (pod : Nat) (u : Use) : Option Nat :=
  if (u.read && !f.r) || (u.write && !f.w) || (u.exec && !f.x) then some 0x3401
  else if u.dev != f.dev then some 0x3402
  else if f.fwd && (f.owner == pod || !p.domain.contains f.owner || u.exec || u.syncNarrow) then some 0x3404
  else none

/-- 11 R267: drop the translations of a partition that meet a range; none for the whole partition. -/
def Core.tlbi (c : Core) (part : Nat) (range : Option (Nat × Nat)) : Core :=
  let hits := fun (va size : Nat) => match range with
    | none => true
    | some (lo, n) => va < lo + n && lo < va + size
  { c with tlb := c.tlb.filter (fun t => !(t.part == part && hits t.va t.size)),
           walk := c.walk.filter (fun w => !(w.part == part && hits (w.va * 2 ^ levelShift w.level) (2 ^ levelShift w.level))) }

end Sys2Proof.Machine
end

