-- ==== Sys2Proof/Machine/Coherence.lean ====
section
/-!
DEFINITION. Coherence (chapter 20): the words of the L1s and their registration, the home directories, releases and
acquires, ranges of WIDEN, NARROW and ICINV.  Memory by key is what the slices hold: a registered
word's bytes stand there as well as in its registrant's L1.
-/
namespace Sys2Proof.Machine

/-! ### Words of an L1 (20 R366) -/

/-- The word an L1 holds. -/
def Core.word? (c : Core) (k : Nat) : Option L1Word := c.l1.find? (fun w => w.key == k)
/-- Put a word into an L1. -/
def Core.putWord (c : Core) (w : L1Word) : Core :=
  { c with l1 := insertBy (·.key) w (c.l1.filter (fun x => x.key != w.key)) }
/-- Take a word out of an L1. -/
def Core.dropWord (c : Core) (k : Nat) : Core := { c with l1 := c.l1.filter (fun x => x.key != k) }

/-- The nibbles of a mask of bytes. -/
def nibMask (b : BitVec 4) : BitVec 8 :=
  (List.range 4).foldl (fun (m : BitVec 8) i => if b.getLsbD i then m ||| (3#8 <<< (2 * i)) else m) 0

/-- The bytes of a word whose nibbles a mask holds whole. -/
def wholeBytes (n : BitVec 8) : BitVec 4 :=
  (List.range 4).foldl (fun (m : BitVec 4) i => if n.getLsbD (2 * i) && n.getLsbD (2 * i + 1) then m ||| (1#4 <<< i) else m) 0

/-- A word with the nibbles of a mask taken from another. -/
def mergeNibbles (old new : Word) (mask : BitVec 8) : Word :=
  let m := (List.range 8).foldl (fun (m : Word) i => if mask.getLsbD i then m ||| (0xF#32 <<< (4 * i)) else m) 0
  (old &&& ~~~m) ||| (new &&& m)

/-- What a word of an L1 gives where the slices hold `slice`: its own bytes and nibbles, else the slices'. -/
def L1Word.over (w : L1Word) (slice : Word) : Word := mergeNibbles slice w.data (nibMask w.have_ ||| w.nibs)

/-- The bytes of a word that a mask selects, with their keys. -/
def maskedBytes (k : Nat) (w : Word) (mask : BitVec 4) : List (Nat × Byte) :=
  ((List.range 4).filter (fun i => mask.getLsbD i)).map (fun i => (4 * k + i, w.extractLsb' (8 * i) 8))

/-- A word as the slices hold it. -/
def State.sliceWord (s : State) (k : Nat) : Word := BitVec.ofNat 32 (s.num (4 * k) 4)

/-- The cores that hold a word registered, but for one (20 R367). -/
def State.registrants (s : State) (k : Nat) (but : Option Nat) : List Nat :=
  (s.cores.filter (fun c => some c.1 != but && c.2.l1.any (fun w => w.key == k && w.st == .registered))).map (·.1)

/-! ### Counters (20 R382) -/

/-- 20 R382: counters at zero. -/
def CohCounters.zero : CohCounters := ⟨0, 0, 0, 0, 0, 0, 0, 0⟩
/-- 20 R382: change a die's counters of a partition. -/
def State.count (s : State) (die part : Nat) (f : CohCounters → CohCounters) : State :=
  s.modDie die (fun d => { d with coh := assocSet CohCounters.zero part (f (assocGet CohCounters.zero part d.coh)) d.coh })

/-- The partition whose memory holds an address. -/
def State.partAt (s : State) (pa : Nat) : Nat :=
  match s.parts.find? (fun p => p.extents.any (fun e => !e.device && e.base ≤ pa && pa < e.base + e.size)) with
  | some p => p.num
  | none => 0

/-! ### The directory (20 R372 to R378, R381) -/

/-- 20 R365: the line of an address. -/
def lineOf (pa : Nat) : Nat := pa / 128
/-- A node covers a line. -/
def Node.covers (n : Node) (line : Nat) : Bool := n.base ≤ line && line < n.base + 2 ^ n.size
/-- The node of a line. -/
def Die.node? (d : Die) (line : Nat) : Option Node := d.nodes.find? (fun n => n.covers line)
/-- A new node for a line that none covers: the largest aligned block, up to 64 KiB, that overlaps none (log entry 21). -/
def Die.freshNode (d : Die) (line : Nat) : Node :=
  let k := ((List.range 10).reverse.find? (fun k =>
    let b := line / 2 ^ k * 2 ^ k
    d.nodes.all (fun n => n.base + 2 ^ n.size ≤ b || b + 2 ^ k ≤ n.base))).getD 0
  { base := line / 2 ^ k * 2 ^ k, size := k, st := .u, hold := 0, changed := d.cycle }
/-- Put a node into a directory in place of what it covers. -/
def Die.putNode (d : Die) (n : Node) : Die :=
  { d with nodes := insertBy (·.base) n (d.nodes.filter (fun x => !(n.base ≤ x.base && x.base < n.base + 2 ^ n.size))) }

/-- The bit of a holder: die d, or 4 for the companion. -/
def holderBit (h : Nat) : BitVec 5 := 1#5 <<< h

/-- 20 R377: SPLITEN. -/
def Die.splitEn (d : Die) : Bool := d.cohctl.getLsbD 0
/-- 20 R377: QUIET, at least 1,024. -/
def Die.quiet (d : Die) : Nat := max 1024 (bits d.cohctl.toNat 39 8)

/-- 10 R244, 20 R381: a recall cancels the reservations on a run of lines: those of the groups of the die that it reaches, and at
the home die those that the other dies' groups and other packages hold at its slices. -/
def State.cancelSlice (s : State) (die lo n : Nat) (home : Bool) : State :=
  let inRun := fun (k : Nat) => isGlobal k && lo ≤ k / 128 && k / 128 < lo + n
  let dieOf := fun (g : Group) => ((s.wg? g.wgKey).map (fun w => coreDie w.phys)).getD 0
  { s with groups := s.groups.map (fun g =>
             if g.resv.isEmpty || !(home || dieOf g == die) then g
             else { g with resv := g.resv.map (fun (l, r) =>
               if r.cancelled == 0 && (!r.inL1 || dieOf g == die) && inRun r.key then (l, { r with cancelled := 3 }) else (l, r)) }),
           farResv := if home then s.farResv.map (fun r => if r.cancelled == 0 && inRun r.key then { r with cancelled := 3 } else r)
                      else s.farResv }

/-- 20 R381: a PRIV reservation of a group on a core is cancelled when its line is evicted or invalidated there. -/
def State.dropLineResv (s : State) (core : Nat) (lines : List Nat) : State :=
  if lines.isEmpty then s
  else { s with groups := s.groups.map (fun (g : Group) =>
    if g.resv.isEmpty || ((s.wg? g.wgKey).map (·.phys)) != some core then g
    else { g with resv := g.resv.map (fun (l, r) =>
      if r.cancelled == 0 && r.inL1 && lines.contains (r.key / 128) then (l, { r with cancelled := 3 }) else (l, r)) }) }

/-- 20 R381: a recall of a run of lines reaches a holder's slices: reservations are cancelled and registered words
collected; their L1 words become V for a sharing recall, else I.  The companion holds nothing of the model's. -/
def State.recallLines (s : State) (holder lo n : Nat) (sharing home : Bool) : State :=
  if holder ≥ 4 then s
  else
    let s := s.cancelSlice holder lo n home
    let inRun := fun (w : L1Word) => lo ≤ w.key / 32 && w.key / 32 < lo + n
    let s := if sharing then s else s.cores.foldl (fun s (kc : Nat × Core) =>
      if coreDie kc.1 == holder then
        s.dropLineResv kc.1 (uniq ((kc.2.l1.filter (fun w => inRun w && w.st == .registered)).map (·.key / 32)))
      else s) s
    { s with cores := s.cores.map (fun (k, c) =>
        if coreDie k == holder && c.l1.any inRun then
          (k, { c with l1 := c.l1.filterMap (fun w =>
            if inRun w && w.st == .registered then (if sharing then some { w with st := .valid, dirty := 0 } else none)
            else some w) })
        else (k, c)) }

/-- 20 R374, R381: the home directory recalls a node from a holder. -/
def State.recallNode (s : State) (homeD holder : Nat) (n : Node) (sharing : Bool) : State :=
  let part := s.partAt (n.base * 128)
  let s := (s.recallLines holder n.base (2 ^ n.size) sharing (holder == homeD)).count homeD part
    (fun c => { c with recallOut := sat48 (c.recallOut + 1) })
  if holder < 4 then s.count holder part (fun c => { c with recallIn := sat48 (c.recallIn + 1) }) else s

/-- 20 R375: halve a node; the half that holds the line is answered, both halves stand in the directory. -/
def State.splitNode (s : State) (homeD : Nat) (n : Node) (line : Nat) : State × Node :=
  let lo := { n with size := n.size - 1 }
  let hi := { lo with base := n.base + 2 ^ (n.size - 1) }
  let s := s.modDie homeD (fun d => (d.putNode lo).putNode hi)
  (s.count homeD (s.partAt (n.base * 128)) (fun c => { c with splits := sat48 (c.splits + 1) }),
   if lo.covers line then lo else hi)

/-- The holders of a node other than one. -/
def Node.others (n : Node) (h : Nat) : List Nat := (List.range 5).filter (fun i => i != h && n.hold.getLsbD i)

/-- 20 R374, R375: the home directory serves a request of a holder for a line, shared or for ownership. -/
def State.dirRequest (s : State) (h : Nat) (own : Bool) (line : Nat) : State :=
  let homeD := homeDie (line * 128)
  let d := s.die homeD
  let n0 := (d.node? line).getD (d.freshNode line)
  let conflict := n0.st != .u && n0.hold != holderBit h
  let sn := if conflict && d.splitEn && n0.size > 0 then s.splitNode homeD n0 line else (s, n0)
  let s := sn.1
  let n := sn.2
  let put := fun (s : State) (st : NodeState) (hold : BitVec 5) =>
    if n.st = st && n.hold = hold then s.modDie homeD (fun d => d.putNode n)
    else s.modDie homeD (fun d => d.putNode { n with st := st, hold := hold, changed := d.cycle })
  match n.st, own with
  | .u, false => put s .s (holderBit h)
  | .u, true => put s .o (holderBit h)
  | .s, false => put s .s (n.hold ||| holderBit h)
  | .s, true => put s .o (holderBit h)
  | .o, false =>
    if n.hold = holderBit h then s
    else put ((n.others h).foldl (fun s g => s.recallNode homeD g n true) s) .s (n.hold ||| holderBit h)
  | .o, true =>
    if n.hold = holderBit h then s
    else put ((n.others h).foldl (fun s g => s.recallNode homeD g n false) s) .o (holderBit h)

/-- A die holds a line, as owner or as a sharer. -/
def State.holdsLine (s : State) (die : Nat) (line : Nat) : Bool :=
  match (s.die (homeDie (line * 128))).node? line with
  | some n => n.hold.getLsbD die
  | none => false
/-- A die owns a line. -/
def State.ownsLine (s : State) (die : Nat) (line : Nat) : Bool :=
  match (s.die (homeDie (line * 128))).node? line with
  | some n => n.st == .o && n.hold.getLsbD die
  | none => false

/-- 20 R373: a die obtains ownership of a line it does not own. -/
def State.own (s : State) (die line : Nat) : State := if s.ownsLine die line then s else s.dirRequest die true line
/-- 20 R373: a read miss of a die that does not hold the line asks for a shared copy. -/
def State.share_ (s : State) (die line : Nat) : State := if s.holdsLine die line then s else s.dirRequest die false line

/-! ### Registration and eviction (20 R367, R368) -/

/-- 10 R244: a write that reaches a slice cancels the reservations on its bytes, but for those of the groups of the core
it comes from, which it met when it was made. -/
def State.cancelOthers (s : State) (core : Nat) (ks : List Nat) : State :=
  { s with groups := s.groups.map (fun g =>
             if ((s.wg? g.wgKey).map (·.phys)) == some core then g else g.cancelResv ks 2 none),
           farResv := s.farResv.map (fun r => r.cancel ks 2) }

/-- 20 R367: the words that other cores hold registered become I; their bytes stand at the slice. -/
def State.collect (s : State) (k : Nat) (but : Option Nat) : State :=
  (s.registrants k but).foldl (fun s c => s.modCore c (fun x => x.dropWord k)) s

/-- The words of one granule, by the key of one of them. -/
def granuleWords (k : Nat) : List Nat := (List.range 4).map (fun i => k / 4 * 4 + i)

/-- 02 R30, 15 R336, 20 R367: the D words that are registered as one unit with a D word: those of its granule while they hold an
STP, else those of its aligned 8 bytes. -/
def Core.unitOf (c : Core) (w : L1Word) : List L1Word :=
  (granuleWords w.key).filterMap (fun k =>
    match c.word? k with
    | some x => if x.st == .dirty && (if w.tag then x.tag else x.key / 2 == w.key / 2) then some x else none
    | none => none)

/-- 20 R367: a D word of a core, with the words of its unit, is registered at the die's slice, or written there and dropped
(`evict`). -/
def State.registerWord (s : State) (core k : Nat) (evict : Bool) : State :=
  match (s.core core).word? k with
  | none => s
  | some w =>
    if w.st = .dirty then
      let u := (s.core core).unitOf w
      let s := u.foldl (fun s x => s.collect x.key (some core)) (s.own (coreDie core) (k / 32))
      let bs := u.flatMap (fun x => maskedBytes x.key (mergeNibbles (s.sliceWord x.key) x.data x.nibs) x.dirty)
      let s := (s.putBytes bs).cancelOthers core (bs.map (·.1))
      let s := if w.tag then s.tagKeys [4 * k] else s
      if evict then s.modCore core (fun c => u.foldl (fun c x => c.dropWord x.key) c)
      else (s.modCore core (fun c => u.foldl (fun c x => c.putWord { x with st := .registered }) c)).count (coreDie core) w.part
        (fun c => { c with regs := sat48 (c.regs + u.length) })
    else if evict then s.modCore core (fun c => c.dropWord k)
    else s

/-- 20 R367: words of a core leave its L1; what was written goes to the slice. -/
def State.evictWords (s : State) (core : Nat) (ks : List Nat) : State :=
  (ks.foldl (fun s k => s.registerWord core k true) s).dropLineResv core (uniq (ks.map (· / 32)))

/-- 11 R261, 20 R373: set DCK in the leaf of an address whose translation shows it clear, by an atomic OR at the entry's home, and
in the TLB. -/
def State.setDck (s : State) (core : Nat) (p : Partition) (va : Nat) : State :=
  match s.translate core p va with
  | .ok _ f false =>
    -- the entry of the page itself within a merged block
    let page := pageSize f.level
    let entry := match (s.core core).tlbHit p.num va with
      | some t => if t.dcks.length == 16 then t.leaf.entry + 8 * ((va - t.va) / page) else f.entry
      | none => f.entry
    let s := (s.own (homeDie entry) (entry / 128)).collect (entry / 4) none
    let s := s.store [(entry, s.byte entry ||| 0x40#8)] none
    s.modCore core (fun c =>
      { c with tlb := c.tlb.map (fun t =>
          if t.part == p.num && t.va ≤ va && va < t.va + t.size then
            { t with dcks := t.dcks.modify ((va - t.va) / (t.size / (max t.dcks.length 1))) (fun _ => true) }
          else t) })
  | _ => s

/-- 20 R367, R370: a core's D words that pass a test are registered. -/
def State.releaseWhere (s : State) (core : Nat) (p : L1Word → Bool) : State :=
  (((s.core core).l1.filter (fun w => w.st == .dirty && p w)).map (·.key)).foldl
    (fun s k => s.registerWord core k false) s

/-- 20 R370: a release of a core at a scope: nothing at CORE, else every D word is registered; ownership at the home
directory comes with it. -/
def State.releaseCore (s : State) (core scope : Nat) : State :=
  if scope = 0 then s else s.releaseWhere core (fun _ => true)

/-- 20 R370: what an acquire leaves of a word: V words go, but for those of INV lines; D and G words stay as they are, with what
the core wrote of them; what it did not write is read again (log entry 22). -/
def acquireWord (w : L1Word) : Option L1Word :=
  match w.st with
  | .valid => if w.inv then some w else none
  | _ => some { w with have_ := wholeBytes w.nibs }

/-- 20 R379: the remote epoch of a partition on a die advances. -/
def State.advanceEpoch (s : State) (die part : Nat) : State :=
  (s.modDie die (fun d => { d with epochs := assocSet 0 part (assocGet 0 part d.epochs + 1) d.epochs })).count die part
    (fun c => { c with epoch := sat48 (c.epoch + 1) })

/-- 20 R370: an acquire of a core at a scope. -/
def State.acquireCore (s : State) (core part scope : Nat) : State :=
  if scope = 0 then s
  else
    let s := s.modCore core (fun c => { c with l1 := c.l1.filterMap acquireWord })
    if scope ≥ 4 then s.advanceEpoch (coreDie core) part else s

/-! ### Ranges (10 R230) -/

/-- 10 R230: some page of a run of virtual addresses maps an address: a walk of the tables of a level that covers
[va, va + 512 pages of the level), as they stand. -/
def State.rangeMaps (s : State) (p : Partition) (lo n pa : Nat) (l t va : Nat) : Bool :=
  match l with
  | 0 => false
  | l' + 1 =>
    let size := pageSize (l' + 1)
    (List.range 512).any (fun i =>
      let v := va + i * size
      v < lo + n && lo < v + size &&
        (let e := s.num (t + 8 * i) 8
         if e % 2 = 0 then false
         else if bitOf e 1 then
           l' + 1 < 4 && !leafReserved e (l' + 1) &&
             (let f := leafOf e (l' + 1) 0
              !f.fwd && f.pa ≤ pa && pa < f.pa + size && lo ≤ v + (pa - f.pa) && v + (pa - f.pa) < lo + n)
         else l' != 0 && bits e 63 52 == 0 && bits e 11 2 == 0 && p.holds false (bits e 51 12 * 4096) 4096 &&
           s.rangeMaps p lo n pa l' (bits e 51 12 * 4096) v))

/-- 20 R379: the key under which an L1 holds a word of another package's memory. -/
def farWord (part epoch owner va : Nat) : Nat := 2 ^ 60 + ((epoch * 2 ^ 16 + part) * 512 + owner) * 2 ^ 55 + va / 4
/-- A key is one of another package's memory. -/
def isFarWord (k : Nat) : Bool := 2 ^ 60 ≤ k
/-- The virtual address of such a key. -/
def farVa (k : Nat) : Nat := (k - 2 ^ 60) % 2 ^ 55 * 4

/-- 10 R230: a word of an L1 lies in the range of a pointer: some byte of it does. -/
def State.inRange (s : State) (p : Partition) (q : Ptr) (k : Nat) : Bool :=
  (q.space == 0 || q.space == 4 || q.space == 5) && q.len != 0 &&
    (if isFarWord k then farVa k < q.base + q.len && q.base < farVa k + 4
     else (List.range 4).any (fun i => s.rangeMaps p q.base q.len (4 * k + i) 5 p.ptroot 0))

/-- 10 R230: ReleaseRange on the words of a core's L1. -/
def State.releaseRange (s : State) (core : Nat) (p : Partition) (q : Ptr) (scope : Nat) : State :=
  if scope = 0 then s else s.releaseWhere core (fun w => s.inRange p q w.key)

/-- 10 R230: AcquireRange on the words of a core's L1: clean words of the range go, INV lines among them. -/
def State.acquireRange (s : State) (core : Nat) (p : Partition) (q : Ptr) (scope : Nat) : State :=
  let s' := s.modCore core (fun c =>
    { c with l1 := c.l1.filterMap (fun w =>
        if s.inRange p q w.key then acquireWord { w with inv := false } else some w) })
  if scope ≥ 4 then s'.advanceEpoch (coreDie core) p.num else s'

/-! ### Reading and writing words (10 R236 to R240; 20 R369, R371) -/

/-- 20 R369: a read that reaches a slice of the reader's die is forwarded to another registrant there, which keeps the word. -/
def State.noteForward (s : State) (core part k : Nat) : State :=
  if ((s.registrants k (some core)).filter (fun c => coreDie c == coreDie core)).isEmpty then s
  else s.count (coreDie core) part (fun c => { c with fwds := sat48 (c.fwds + 1) })

/-- 20 R369: another die's read at a die's slice: a word registered to a core of that die is forwarded, and its registration ends. -/
def State.serveAway (s : State) (die part k : Nat) : State :=
  match (s.registrants k none).filter (fun c => coreDie c == die) with
  | [] => s
  | l => (l.foldl (fun s c => s.modCore c (fun x => x.dropWord k)) s).count die part (fun c => { c with fwds := sat48 (c.fwds + 1) })

/-- 07 R162: a line leaves an L1: the groups that had accessed it remember it among their victims. -/
def Group.loseLine (g : Group) (line : Nat) : Group :=
  if g.touched.contains line then
    { g with touched := g.touched.filter (· != line), victims := (line :: g.victims.filter (· != line)).take 32 }
  else g

/-- 20 R367; 07 R162; 10 R244: every word of a line leaves a core's L1, written bytes to the slice. -/
def State.evictLine (s : State) (core line : Nat) : State :=
  let ks := ((s.core core).l1.filter (fun w => w.key / 32 == line)).map (·.key)
  if ks.isEmpty then s
  else
    let s := s.evictWords core ks
    { s with groups := s.groups.map (fun (g : Group) =>
        if ((s.wg? g.wgKey).map (·.phys)) == some core then g.loseLine line else g) }

/-- 01 R12: lines of an L1: 256 KiB of 128 bytes. -/
def l1Lines : Nat := 2048

/-- The lines of which an L1 holds words. -/
def Core.linesHeld (c : Core) : List Nat := uniq (c.l1.map (·.key / 32))

/-- 01 R12: room for a line in an L1 that holds as many as it can: one, which is open, is evicted, but none of `keep`. -/
def State.roomFor (s : State) (core line : Nat) (keep : List Nat) : Option State :=
  if (s.core core).l1.length < l1Lines then some s
  else
    let ls := (s.core core).linesHeld
    if ls.length < l1Lines || ls.contains line then some s
    else
      let l := ls.filter (fun x => !keep.contains x)
      (l[Config.freeNat s.free % l.length]?).map (s.evictLine core)

/-- Room for a line. -/
def State.l1Room (s : State) (core line : Nat) : State := (s.roomFor core line []).getD s

/-- A clean word as a slice gives it. -/
def State.freshWord (s : State) (part : Nat) (inv : Bool) (k : Nat) : L1Word :=
  { key := k, part := part, st := .valid, data := s.sliceWord k, have_ := 15, dirty := 0, nibs := 0, tag := s.tagAt (4 * k), inv := inv }

/-- 20 R366, 15 R336: an L1 with a line filled: words in I are brought in, but for those of poisoned granules, and a clean word whose
aligned 8 bytes lacked the other is brought in again with it. -/
def Core.fillLine (c : Core) (line : Nat) (fresh : Nat → Option L1Word) : Core :=
  let have_ := fun (k : Nat) => c.l1.find? (fun w => w.key == k)
  { c with l1 := c.l1.filter (fun w => w.key / 32 < line) ++
      (List.range 32).filterMap (fun i =>
        let k := line * 32 + i
        match have_ k with
        | some w => if w.st == .valid && (have_ (k / 2 * 2 + (1 - k % 2))).isNone then (fresh k).orElse (fun _ => some w) else some w
        | none => fresh k) ++
      c.l1.filter (fun w => line < w.key / 32) }

/-- 20 R366, R369, R373: an L1 in which there is room for a line fills it from the slices. -/
def State.fillFrom (s : State) (core part : Nat) (inv : Bool) (line : Nat) : State :=
  let s := s.share_ (coreDie core) line
  let ks := ((List.range 32).map (fun i => line * 32 + i)).filter (fun k => ((s.core core).word? k).isNone)
  let s := ks.foldl (fun s k => s.noteForward core part k) s
  s.modCore core (fun c => c.fillLine line (fun k => if s.poisonAt (4 * k) then none else some (s.freshWord part inv k)))

/-- 20 R366: a load miss in L1. -/
def State.fillMiss (s : State) (core part : Nat) (inv : Bool) (line : Nat) : State := (s.l1Room core line).fillFrom core part inv line

/-- 20 R366, R369: an L1 load of a word: what is missing is filled from the slices.  A word of a line filled through an INV pointer
serves a load without INV only anew (15 R339). -/
def State.fillWord (s : State) (core part : Nat) (inv : Bool) (k : Nat) : State :=
  match (s.core core).word? k with
  | some w =>
    if w.st == .valid && w.inv && !inv then
      let s := (s.share_ (coreDie core) (k / 32)).noteForward core part k
      s.modCore core (fun c => c.putWord (s.freshWord part false k))
    else if w.have_ = 15 then s
    else
      let s := (s.share_ (coreDie core) (k / 32)).noteForward core part k
      s.modCore core (fun c => c.putWord { w with data := w.over (s.sliceWord k), have_ := 15 })
  | none => s.fillMiss core part inv (k / 32)

/-- The byte that a core's L1 gives, else the slices'. -/
def State.seeByte (s : State) (core : Nat) (pa : Nat) : Byte :=
  match (s.core core).word? (pa / 4) with
  | some w => (w.over (s.sliceWord (pa / 4))).extractLsb' (8 * (pa % 4)) 8
  | none => s.byte pa

/-- The tag of a granule's words in an L1 (02 R28, R29). -/
def Core.tagGranule (c : Core) (g : Nat) (b : Bool) : Core :=
  { c with l1 := c.l1.map (fun (w : L1Word) => if w.key / 4 == g then { w with tag := b } else w) }

/-- 20 R366: a store of nibbles of one byte into a word of an L1: they are written and dirty; `have_` where the byte is whole. -/
def Core.writePart (c : Core) (part pa : Nat) (b : Byte) (nibs : BitVec 2) : Core :=
  let bit : BitVec 4 := 1#4 <<< (pa % 4)
  let nb : BitVec 8 := nibs.setWidth 8 <<< (2 * (pa % 4))
  let whole : BitVec 4 := if nibs = 3#2 then bit else 0
  let data : Word := b.setWidth 32 <<< (8 * (pa % 4))
  match c.word? (pa / 4) with
  | some w =>
    c.putWord { w with st := .dirty, data := mergeNibbles w.data data nb, have_ := w.have_ ||| whole,
                       dirty := (if w.st = .dirty then w.dirty else 0) ||| bit, nibs := (if w.st = .dirty then w.nibs else 0) ||| nb }
  | none => c.putWord { key := pa / 4, part := part, st := .dirty, data := data, have_ := whole, dirty := bit, nibs := nb, tag := false,
                        inv := false }

/-- 20 R366: a store of a byte into a word of an L1: it is written and dirty. -/
def Core.writeByte (c : Core) (part pa : Nat) (b : Byte) : Core := c.writePart part pa b 3#2

/-- 20 R366, 02 R29: a store into L1 allocates its line; the word is written and dirty, and its granule's tag goes. -/
def State.dirtyByte (s : State) (core part : Nat) (pa : Nat) (b : Byte) : State :=
  (s.l1Room core (pa / 128)).modCore core (fun c => (c.tagGranule (pa / 16) false).writeByte part pa b)

/-- 10 R236, R238: a nibble store into L1. -/
def State.dirtyNibble (s : State) (core part : Nat) (pa : Nat) (hi : Bool) (n : Nat) : State :=
  ((s.l1Room core (pa / 128)).modCore core (fun c =>
    (c.tagGranule (pa / 16) false).writePart part pa (BitVec.ofNat 8 (n % 16 * 17)) (if hi then 2#2 else 1#2))).cancelResv [pa] 2 none

/-- A write in L1 of bytes by physical address; it cancels reservations on them (10 R244). -/
def State.dirtyBytes (s : State) (core part : Nat) (ws : List (Nat × Byte)) (but : Option (Nat × Nat)) : State :=
  (ws.foldl (fun s w => s.dirtyByte core part w.1 w.2) s).cancelResv (ws.map (·.1)) 2 but

/-- 02 R30: an STP in L1: the granule's four words are dirty, with the tag. -/
def State.dirtyPtr (s : State) (core part : Nat) (pa : Nat) (q : PtrBits) : State :=
  let s := s.dirtyBytes core part ((List.range 16).map (fun i => (pa + i, q.extractLsb' (8 * i) 8))) none
  s.modCore core (fun c => c.tagGranule (pa / 16) true)

/-- 20 R369, R371, R373: a word that a core holds not of its own writing is read at the slice of its die where that owns the line, else
at the home's, which obtains it. -/
def State.readAtSlice (s : State) (core part k : Nat) : State :=
  let die := coreDie core
  let home := homeDie (4 * k)
  let s := s.modCore core (fun c => c.dropWord k)
  if s.ownsLine die (k / 32) then s.noteForward core part k
  else
    let s := s.share_ home (k / 32)
    if home = die then s.noteForward core part k else s.serveAway home part k

/-- 20 R369, R371, R373: words of a core are to be read at the slices: a word registered to it is served from its own L1, one
written there and not yet registered is registered first. -/
def State.sliceRead (s : State) (core part : Nat) (ks : List Nat) : State :=
  ks.foldl (fun s k =>
    match ((s.core core).word? k).map L1Word.st with
    | some .registered => s
    | some .dirty => s.registerWord core k false
    | _ => s.readAtSlice core part k) s

/-- 11 R260, 20 R365: a word of an ORD page is read at its home slice. -/
def State.readAtHome (s : State) (core part k : Nat) : State :=
  let home := homeDie (4 * k)
  let s := (s.registerWord core k true).share_ home (k / 32)
  if home = coreDie core then s.noteForward core part k else s.serveAway home part k

/-- 20 R367, R371, R373: words of a core are to be written at the slices of a die. -/
def State.sliceWrite (s : State) (core die : Nat) (ks : List Nat) : State :=
  ks.foldl (fun s k => ((s.registerWord core k true).own die (k / 32)).collect k none) s

/-- 20 R373: the die whose slice performs an atomic of a core on a line: its own when it owns the line, else the home. -/
def State.atomicDie (s : State) (core line : Nat) : Nat :=
  if s.ownsLine (coreDie core) line then coreDie core else homeDie (line * 128)

/-- 23 R438: copy pieces of memory, (region, first address, bytes), into a checkpoint. -/
def Checkpoint.copy (k : Checkpoint) (mem : Assoc Byte) (tags : List Nat) (l : List (Nat × Nat × Nat)) : Checkpoint :=
  let inside := fun (pa : Nat) => l.any (fun r => r.2.1 ≤ pa && pa < r.2.1 + r.2.2)
  { k with pages := k.pages ++ l.map (fun r => r.2),
           bytes := assocSets resetByte (mem.filter (fun kv => inside kv.1)) k.bytes,
           tags := (tags.filter (fun g => inside (16 * g))).foldl (fun l g => setAdd g l) k.tags,
           pending := k.pending.filter (fun r => !l.contains r) }

/-- 23 R438: copy the pending pieces that a test selects, in every partition. -/
def State.copyWhere (s : State) (f : Nat → Nat × Nat × Nat → Bool) : State :=
  { s with parts := s.parts.map (fun (p : Partition) =>
      if p.ckpts.any (fun k => k.pending.any (f p.num)) then
        { p with ckpts := p.ckpts.map (fun k => k.copy s.mem s.tags (k.pending.filter (f p.num))) }
      else p) }

/-- 23 R438: what a write from outside the cores would reach of a pending region is copied first. -/
def State.copyBefore (s : State) (ks : List Nat) : State :=
  s.copyWhere (fun _ r => ks.any (fun k => r.2.1 ≤ k && k < r.2.1 + r.2.2))

/-- 15 R334, 20 R380: the companion, Cirque or Confluence writes memory: at the home slice, as the companion. -/
def State.outerWrite (s : State) (ws : List (Nat × Byte)) : State :=
  let s := s.copyBefore (ws.map (·.1))
  let ks := uniq ((ws.filter (fun w => isGlobal w.1)).map (·.1 / 4))
  let s := ks.foldl (fun s k => (s.own 4 (k / 32)).collect k none) s
  s.store ws none

/-- A write by the companion, Cirque or Confluence of consecutive bytes. -/
def State.outerBytes (s : State) (k : Nat) (bs : List Byte) : State :=
  s.outerWrite ((List.range bs.length).zip bs |>.map (fun (i, b) => (k + i, b)))

/-- A write by the companion, Cirque or Confluence of a little-endian number. -/
def State.outerNum (s : State) (k n x : Nat) : State := s.outerBytes k (bytesOfNat n x)

end Sys2Proof.Machine
end

