-- ==== Sys2Proof/Machine/Records.lean ====
section
/-!
DEFINITION. Error records (25 R464 to R469), the rings they and other records go to (23 R435), interrupt messages
(21 R402).
-/
namespace Sys2Proof.Machine

/-- 25 R466: ACTION from DOM and WHAT. -/
def actionOf (dom what : Nat) : Nat := dom * 32 + what

/-- 25 R470, R471: RECOV of a code. -/
def recovOf (code : Nat) : Nat :=
  match code with
  | 0x200A => 3
  | 0x5004 => 2
  | 0x5301 => 2
  | 0x5302 => 2
  | 0x5303 => 2
  | 0x6001 => 6
  | 0x6002 => 6
  | 0x6101 => 0
  | 0x6102 => 5
  | 0x6103 => 12
  | 0x7001 => 10
  | 0x7002 => 4
  | 0xB102 => 1
  | 0xB106 => 1
  | 0xB108 => 3
  | 0xB109 => 4
  | 0xB301 => 1
  | 0xB302 => 13
  | 0xB403 => 0
  | 0xB404 => 9
  | 0xB405 => 9
  | 0xB406 => 9
  | _ =>
    match code / 0x1000 with
    | 0 => 0
    | 2 => 1
    | 3 => 2
    | 4 => 1
    | 5 => 1
    | 6 => 14
    | 7 => 11
    | 8 => 7
    | 9 => 7
    | 10 => 8
    | _ => 2

/-- A record of a die with no context: the fields that a caller then sets. -/
def State.plainRecord (s : State) (part die code action : Nat) : ErrorRecord :=
  { code := code, action := action, recov := recovOf code, part := part, die := die, vav := false, pav := false,
    spv := false, ctxv := false, group := 0xFF, cycle := (s.die die).cycle, ticket := 0, wg := 0, engine := 0,
    lanes := 0, addr := 0, paddr := 0, imageId := 0, ordinal := 0 }

/-- 25 R465: ENGINE of an engine of a physical core. -/
def engineOf (kind phys : Nat) : Nat := kind * 2 ^ 24 + (phys / 8 % 7) * 256 + phys % 8

/-- 25 R464: the record of a fault of a group. -/
def State.groupRecord (s : State) (w : Workgroup) (g : Group) (sp : Split) (code action : Nat) (lanes : LaneMask) : ErrorRecord :=
  { code := code, action := action, recov := recovOf code, part := w.part, die := coreDie w.phys, vav := false,
    pav := false, spv := sp.site.isSome, ctxv := true, group := g.groupId, cycle := (s.die (coreDie w.phys)).cycle,
    ticket := w.ticket, wg := w.wg, engine := engineOf 1 w.phys, lanes := lanes, addr := 0, paddr := 0,
    imageId := (sp.site.map (·.1)).getD 0, ordinal := (sp.site.map (·.2)).getD 0 }

/-- 25 R464: the 64 bytes of a record. -/
def ErrorRecord.toBytes (r : ErrorRecord) : List Byte :=
  bytesOfNat 2 r.code ++ bytesOfNat 1 r.action ++ bytesOfNat 1 r.recov ++ bytesOfNat 2 r.part ++
    bytesOfNat 1 (r.die % 4 + 4 * r.vav.toNat + 8 * r.pav.toNat + 16 * r.spv.toNat + 32 * r.ctxv.toNat) ++
    bytesOfNat 1 r.group ++ bytesOfNat 8 r.cycle ++ bytesOfNat 8 r.ticket ++ bytesOfNat 4 r.wg ++
    bytesOfNat 4 r.engine ++ bytesOfNat 8 r.lanes.toNat ++ bytesOfNat 8 r.addr ++ bytesOfNat 8 r.paddr ++
    bytesOfNat 4 r.imageId.toNat ++ bytesOfNat 4 r.ordinal.toNat

/-- The physical addresses of n bytes from a virtual address of a partition, read or written by Cirque: a walk of the
tables as they stand, with no cache; none when a byte is not mapped, or not to memory. -/
def State.vaKeys (s : State) (p : Partition) (va n : Nat) (write : Bool) : Option (List Nat) :=
  (List.range n).mapM (fun i =>
    match s.walkFrom p (va + i) 5 p.ptroot with
    | .leaf f =>
      let pa := f.pa + (va + i) % pageSize f.level
      if f.fwd || f.dev || !p.holds false f.pa (pageSize f.level) || (if write then !f.w else !f.r) then none else some pa
    | .fault _ _ _ => none)

/-- Bytes at keys. -/
def State.bytesAt (s : State) (ks : List Nat) : List Byte := ks.map s.byte

/-- A number read through a partition's tables, 0 where it is not mapped. -/
def State.vaNum (s : State) (p : Partition) (va n : Nat) : Nat :=
  match s.vaKeys p va n false with
  | some ks => natOfBytes (s.bytesAt ks)
  | none => 0

/-- 15 R334: a write by Cirque or Confluence through a partition's tables; not made where a byte is not mapped writable. -/
def State.vaStore (s : State) (p : Partition) (va : Nat) (bs : List Byte) : State :=
  match s.vaKeys p va bs.length true with
  | some ks => s.outerWrite (ks.zip bs)
  | none => s

/-- 23 R435: a ring cannot take a record. -/
def ringFull (write read cap : Nat) : Bool := read > write || write - read ≥ cap

/-- 23 R435: write a record of n bytes to a ring in the partition's memory, or count its drop (log entry 55). -/
def State.ringPut (s : State) (p : Partition) (r : Ring) (bs : List Byte) : State :=
  if r.size = 0 then s
  else
    let n := bs.length
    let cap := (r.size - 64) / n
    let write := s.vaNum p r.addr 8
    let read := s.vaNum p (r.addr + 8) 8
    if ringFull write read cap then s.vaStore p (r.addr + 16) (bytesOfNat 8 (s.vaNum p (r.addr + 16) 8 + 1))
    else
      let s := s.vaStore p (r.addr + 64 + write % cap * n) bs
      s.vaStore p r.addr (bytesOfNat 8 (write + 1))

/-- 23 R435, R468, 11 R262: the header of a ring set to zero. -/
def State.ringClear (s : State) (p : Partition) (addr : Nat) : State := s.vaStore p addr (bytesOfNat 64 0)

/-! ### Interrupt messages (21 R402) -/

/-- 21 R402: the interrupt ring cannot take a message. -/
def State.irqFull (s : State) (p : Partition) : Bool :=
  let write := s.num p.irqRing 8
  let read := s.num (p.irqRing + 8) 8
  read > write || read + 2 ^ p.irqJ < write + 1 || write - read ≥ 2 ^ p.irqJ - 1

/-- 21 R402: write a message and advance WRITE. -/
def State.irqPut (s : State) (p : Partition) (kind value ticket : Nat) : State :=
  let n := s.num p.irqRing 8
  let bs := bytesOfNat 1 kind ++ bytesOfNat 1 0 ++ bytesOfNat 2 p.num ++ bytesOfNat 4 n ++ bytesOfNat 8 value ++
    bytesOfNat 8 ticket ++ bytesOfNat 8 0
  (s.outerBytes (p.irqRing + 64 + n % 2 ^ p.irqJ * 32) bs).outerNum p.irqRing 8 (n + 1)

/-- 21 R402: the last message of KIND 4 is unread. -/
def State.kind4Unread (s : State) (p : Partition) : Bool :=
  match p.kind4 with
  | some n => s.num (p.irqRing + 8) 8 ≤ n
  | none => false

/-- 21 R402: signal the count of records: in place while a message of KIND 4 is unread, else as a new message. -/
def State.signalRecords (s : State) (part : Nat) : State :=
  match s.part? part with
  | none => s
  | some p =>
    if p.irqJ = 0 || p.unsignalled = 0 then s
    else if s.kind4Unread p then
      s.outerNum (p.irqRing + 64 + p.kind4.getD 0 % 2 ^ p.irqJ * 32 + 8) 8 p.unsignalled
    else if s.irqFull p then s
    else
      let n := s.num p.irqRing 8
      (s.irqPut p 4 p.unsignalled 0).modPart part (fun p => { p with kind4 := some n })

/-- 21 R402: one more record to signal; the count starts again once READ has passed the last message. -/
def State.countRecord (s : State) (part : Nat) : State :=
  match s.part? part with
  | none => s
  | some p =>
    if p.irqJ = 0 then s
    else
      let gone := p.kind4.isSome && !s.kind4Unread p
      (s.modPart part (fun p =>
        { p with unsignalled := (if gone then 0 else p.unsignalled) + 1, kind4 := if gone then none else p.kind4 })).signalRecords part

/-- 21 R402: a message of KIND 1 or 2: written, or held in ticket order until there is room; discarded with no ring. -/
def State.notifyLaunch (s : State) (part kind ticket : Nat) : State :=
  match s.part? part with
  | none => s
  | some p =>
    if p.irqJ = 0 then s
    else if p.held.isEmpty && !s.irqFull p then s.irqPut p kind ticket ticket
    else s.modPart part (fun p =>
      { p with held := insertBy (·.ticket) { kind := kind, value := ticket, ticket := ticket } p.held })

/-! ### Access counters (11 R261) -/

/-- 11 R261: the key of an access counter. -/
def accessKey (part va : Nat) : Nat := part * 2 ^ 41 + va / 65536

/-- 11 R261: write a counter's record to the partition's ring, and reset the count. -/
def State.emitAccess (s : State) (die part key kind : Nat) : State :=
  let n := assocGet 0 key (s.die die).access
  let p := s.partOf part
  let bs := bytesOfNat 8 (key % 2 ^ 41 * 65536) ++ bytesOfNat 2 n ++ bytesOfNat 1 die ++ bytesOfNat 1 kind ++ bytesOfNat 4 0
  (s.ringPut p p.accRing bs).modDie die (fun d => { d with access := assocSet 0 key 0 d.access })

/-- 11 R261: a counter's entry may be evicted, as the die chooses: its record is written, and the count reset. -/
def State.evictAccess (s : State) (die but : Nat) : State :=
  let l := ((s.die die).access.filter (fun kv => kv.1 != but && kv.2 != 0)).map (·.1)
  match l[Config.freeNat s.free % l.length]? with
  | some k => if Config.mixBool s.free k then s.emitAccess die (k / 2 ^ 41) k (assocGet 0 k (s.die die).accessKind) else s
  | none => s

/-- 11 R261: an access of a page with ACE, served by another die (1) or package (2), is counted. -/
def State.countAccess (s : State) (die : Nat) (p : Partition) (va kind : Nat) : State :=
  if p.accRing.size = 0 then s
  else
    let key := accessKey p.num va
    let n := assocGet 0 key (s.die die).access + 1
    let s := s.modDie die (fun d => { d with access := assocSet 0 key n d.access, accessKind := assocSet 0 key kind d.accessKind })
    let s := s.evictAccess die key
    if n ≥ p.threshold then s.emitAccess die p.num key kind else s

/-! ### Writing a record -/

/-- 25 R469: a class counter rises. -/
def bumpClass (l : List Nat) (code : Nat) : List Nat := l.modify (code / 0x1000) (fun n => sat48 (n + 1))

/-- 23 R437: a record of a class selected in SNAP triggers a snapshot; one that meets an image not written is counted. -/
def State.snapTrigger (s : State) : State :=
  if s.snap.active then { s with snap := { s.snap with ignored := s.snap.ignored + 1 } }
  else { s with snap := { s.snap with active := true, latched := [], blocks := [] } }

/-- 24 R458: a halt takes a record of its domain. -/
def Halt.covers (h : Halt) (r : ErrorRecord) (wgs : List Workgroup) : Bool :=
  h.part == r.part && r.ctxv && h.wgs.any (fun k => wgs.any (fun w => w.key == k && w.ticket == r.ticket && w.wg == r.wg))

/-- 25 R468, R469: a record goes to Cirque's copy, to the class counters, and for a partition to its error area and to
the count of records that its interrupt ring announces; 24 R458: and to the dump of its domain. -/
def State.record (s : State) (r : ErrorRecord) : State :=
  let full := s.records.length ≥ 4096
  let s := { s with records := (if full then s.records.drop 1 else s.records) ++ [r],
                    recordBase := if full then s.recordBase + 1 else s.recordBase,
                    classes := bumpClass s.classes r.code,
                    halts := s.halts.map (fun (h : Halt) =>
                      if h.stage == HaltStage.halted && h.covers r s.wgs && h.records.length < 256 then { h with records := h.records ++ [r] }
                      else h) }
  let s := if s.snap.classes.getLsbD (r.code / 0x1000) then s.snapTrigger else s
  match s.part? r.part with
  | none => s
  | some p =>
    let s := s.modPart r.part (fun p => { p with classes := bumpClass p.classes r.code })
    (s.ringPut p p.errRing r.toBytes).countRecord r.part

end Sys2Proof.Machine
end

