-- ==== Sys2Proof/Machine/Links.lean ====
section
/-!
DEFINITION. The sending side of Braid (21 R386 to R389): counts, paths and packets.
-/
namespace Sys2Proof

/-- A packet as it is about to be sent for a group, or for an engine operation, with nothing kept of what it brings. -/
def Packet.toSend (pkt : Packet) (dest gid opId va : Nat) (engine : Bool) : Machine.SentPacket :=
  { dest := dest, pkt := pkt, gid := gid, opId := opId, engine := engine, lanes := 0, va := va, pinnedDown := false, keep := none,
    sync := false, strong := false, elems := [] }

end Sys2Proof

namespace Sys2Proof.Machine

/-- 21 R388: SENT and ACKED of a context, a destination and a path. -/
def State.braid (s : State) (part dest path : Nat) : BraidCount :=
  (s.counts.find? (fun c => c.part == part && c.dest == dest && c.path == path)).getD ⟨part, dest, path, 0, 0⟩
/-- Set them. -/
def State.setBraid (s : State) (b : BraidCount) : State :=
  { s with counts := s.counts.filter (fun c => !(c.part == b.part && c.dest == b.dest && c.path == b.path)) ++ [b] }

/-- 21 R400: the state of a path; one not listed is up. -/
def State.linkState (s : State) (dest path : Nat) : LinkState :=
  ((s.paths.find? (fun p => p.dest == dest && p.path == path)).map (·.state)).getD .up
/-- 21 R387, R400: the port through which a path leaves, as the routing table stands. -/
def State.portOf (s : State) (dest path : Nat) : Nat :=
  ((s.paths.find? (fun p => p.dest == dest && p.path == path)).map (·.port)).getD ((Config.freeNat (dest * 4 + path)) % 32)
/-- 21 R400: the packets of a path resent so far. -/
def State.replaysOf (s : State) (dest path : Nat) : Nat :=
  ((s.paths.find? (fun p => p.dest == dest && p.path == path)).map (·.replays)).getD 0
/-- 21 R387: the other packages with the paths that the routing table gives to each. -/
def State.allPaths (s : State) : List (Nat × Nat) :=
  ((List.range 512).filter (· != s.pod)).flatMap (fun d => (List.range Config.pathsPerRoute).map (fun k => (d, k)))
/-- 21 R397: a path takes new packets. -/
def LinkState.takes (l : LinkState) : Bool := l == .up || l == .congested
/-- The paths to a destination that take new packets. -/
def State.livePaths (s : State) (dest : Nat) : List Nat :=
  (List.range Config.pathsPerRoute).filter (fun k => (s.linkState dest k).takes)

/-- 21 R389: the path to which a line is pinned while a packet of it is unacknowledged. -/
def State.pinned (s : State) (part dest line : Nat) : Option Nat :=
  (s.sent.find? (fun q => q.dest == dest && q.pkt.part == part && q.pkt.line == line)).map (·.pkt.path)

/-- 21 R387, R389: a packet of the line can be sent now. -/
def State.canSend (s : State) (part dest line : Nat) : Bool :=
  match s.pinned part dest line with
  | some k => (s.linkState dest k).takes
  | none => !(s.livePaths dest).isEmpty

/-- 21 R388: destinations of a context with packets unacknowledged. -/
def State.openDests (s : State) (part : Nat) : List Nat :=
  uniq ((s.sent.filter (fun q => q.pkt.part == part)).map (·.dest))

/-- 21 R388, R389: an instruction that sends to these (destination, line) pairs need not wait. -/
def State.canSendAll (s : State) (part : Nat) (dsts : List (Nat × Nat)) : Bool :=
  dsts.all (fun t => s.canSend part t.1 t.2) &&
    (uniq (s.openDests part ++ dsts.map (·.1))).length ≤ 64

/-- 21 R387, R389: the path of a packet: the line's own, else one of those that are up, as the sender chooses. -/
def State.pickPath (s : State) (part dest line : Nat) : Nat :=
  match s.pinned part dest line with
  | some k => k
  | none =>
    let l := s.livePaths dest
    l.getD (Config.freeNat (s.free + s.serial) % (max l.length 1)) 0

/-- A packet with nothing in it yet. -/
def State.packet (s : State) (part kind line : Nat) : Packet :=
  { source := s.pod, part := part, path := 0, seq := 0, kind := kind, line := line, bytes := [], op := 0, width := 0,
    fmt := 0, lanes := [], group := 0, tagged := false, ordered := false, snapshot := [], replay := false }

/-- 21 R388, R392: send a packet: it takes a path and the next number on it, and for an ordered packet the snapshot of
SENT on every path to its destination (log entry 44). -/
def State.send (s : State) (x : SentPacket) : State × Nat × Nat :=
  let k := s.pickPath x.pkt.part x.dest x.pkt.line
  let b := s.braid x.pkt.part x.dest k
  let n := (b.sent + 1) % 2 ^ 32
  let snap := if x.pkt.ordered then (List.range 4).map (fun i => (s.braid x.pkt.part x.dest i).sent) else []
  let q := { x.pkt with path := k, seq := n, snapshot := snap }
  let s := (s.setBraid { b with sent := n }).bump
  ({ s with sent := s.sent ++ [{ x with pkt := q }] }, k, n)

/-- 20 R379: a copy of another package's line that a die's Firn and L1s hold, or that a response is to bring them, is one no longer:
the die sends a write of it (10 R237). -/
def State.dropFar (s : State) (die part line : Nat) : State :=
  { s with
    dies := s.dies.modify die (fun d =>
      { d with remote := d.remote.filter (fun r => !(r.part == part && r.line == line)) }),
    cores := s.cores.map (fun (kc : Nat × Core) =>
      if coreDie kc.1 == die && kc.2.l1.any (fun w => isFarWord w.key && w.part == part && farVa w.key / 128 == line) then
        (kc.1, { kc.2 with l1 := kc.2.l1.filter (fun w => !(isFarWord w.key && w.part == part && farVa w.key / 128 == line)) })
      else kc),
    sent := s.sent.map (fun (q : SentPacket) =>
      if q.pkt.part == part && q.pkt.line == line && (q.keep.map (·.1)) == some die then { q with keep := none } else q) }

/-- 10 R237, 21 R386: send a packet that a die's agent writes with. -/
def State.sendWrite (s : State) (die : Nat) (x : SentPacket) : State × Nat × Nat :=
  (s.dropFar die x.pkt.part x.pkt.line).send x

end Sys2Proof.Machine
end

