-- ==== Sys2Proof/Machine/Ops.lean ====
section
/-!
DEFINITION. The shared operations: fatal faults and fault domains (22 R414), taking a trap (07 R151, 22 R405 to R408)
and the return from one (22 R411), and the issue of an instruction word (06 R120, R130, R131).
-/
namespace Sys2Proof.Machine

/-! ### Fatal faults -/

/-- 22 R414: the workgroups of the nearest fault domain that hold a place. -/
def State.domain (s : State) (w : Workgroup) : List Nat :=
  (s.wgs.filter (fun x =>
    x.part == w.part &&
      (match w.fdom with
       | 0 => x.key == w.key
       | 1 => x.ticket == w.ticket && x.gangBase == w.gangBase
       | 2 => x.ticket == w.ticket
       | _ => true))).map (·.key)

/-- 22 R414, R417, 24 R459: a fatal fault of a workgroup's agent: it starts a halt of the domain, or, in a domain already
halting, is counted as a further fault.  The record is written in either case. -/
def State.fatal (s : State) (w : Workgroup) (r : ErrorRecord) : State :=
  let r := if r.action = 0 then { r with action := actionOf (w.fdom + 1) 2 } else r
  let s := s.record r
  if s.halts.any (fun h => h.wgs.contains w.key) then
    { s with halts := replaceBy (fun h => h.wgs.contains w.key) (fun h =>
        { h with nsecond := h.nsecond + 1, second := if h.second.isNone then some r else h.second }) s.halts }
  else
    { s with halts := s.halts ++
        [{ stage := .raised, part := w.part, fdom := w.fdom, ticket := w.ticket, wg := w.wg, die := coreDie w.phys,
           wgs := s.domain w, cause := r, haltCyc := 0, nsecond := 0, second := none, records := [r],
           dropped := false, ctxLost := false }] }

/-- 24 R451, R452: mark the split and the group whose fault halts the domain. -/
def State.markFaulted (s : State) (gid sid : Nat) : State :=
  s.modGroup gid (fun g => { (g.modSplit sid (fun x => { x with hold := .faulted })) with faulted := true })

/-! ### Taking a trap -/

/-- A fault met by one lane: its code, with the virtual address of the lane's access and the physical address that the
record carries, where they are known. -/
structure LaneTrap where
  lane : Nat
  code : Nat
  va : Option Nat
  pa : Option Nat
  deriving DecidableEq, Repr

/-- The codes raised, ascending (22 R406). -/
def codesOf (ts : List LaneTrap) : List Nat := sortBy id (uniq (ts.map (·.code)))
/-- The lanes that raised a code. -/
def lanesOfCode (ts : List LaneTrap) (code : Nat) : LaneMask := maskOf ((ts.filter (fun t => t.code == code)).map (·.lane))
/-- 22 R408: the fault of the lowest lane that raised a code. -/
def firstOfCode (ts : List LaneTrap) (code : Nat) : Option LaneTrap :=
  leastBy (·.lane) (ts.filter (fun t => t.code == code))

/-- What the trap frame keeps of the instruction (22 R408). -/
structure TrapWord where
  word : Nat
  iword : DWord
  aux : Byte
  deriving DecidableEq, Repr

/-- 22 R407: the lowest free trap frame. -/
def Group.freeFrame (g : Group) : Option Nat := (List.range 8).find? (fun i => !(g.frames.any (fun f => f.num == i)))

/-- 22 R408: LANES of a frame, in a legacy half's own numbering. -/
def frameLanes (legacy half : Bool) (m : LaneMask) : LaneMask := if legacy && half then m >>> 32 else m

/-- 22 R408, R409: the frame of a trap. -/
def trapFrame (num code : Nat) (ts : List LaneTrap) (legacy half : Bool) (resume : Word) (tw : TrapWord) : TrapFrame :=
  let va := (firstOfCode ts code).bind (·.va)
  let vav := codeHasVa code && va.isSome
  { num := num, vav := vav, retry := code != 0x5006, word := tw.word, aux := if code == 0x5006 then tw.aux else 0,
    code := BitVec.ofNat 16 code, resume := resume, lanes := frameLanes legacy half (lanesOfCode ts code),
    va := if vav then BitVec.ofNat 57 (va.getD 0) else 0, iword := tw.iword }

/-- 10 R244: the lanes that enter a handler lose their reservations. -/
def Group.dropResv (g : Group) (m : LaneMask) (status : Nat) : Group :=
  { g with resv := g.resv.map (fun (l, r) =>
      if r.cancelled == 0 && m.getLsbD l then (l, { r with cancelled := status }) else (l, r)) }

/-- What came of forming an in-trap split. -/
inductive Formed where
  | ok (g : Group)
  /-- 07 R151: no split entry. -/
  | noEntry
  /-- 22 R407: no trap frame. -/
  | noFrame
  deriving DecidableEq, Repr

/-- 07 R151, 22 R406, R407: the lanes `m` of a split leave it for the handler, in a split of their own, or take the
split with them when it holds no others. -/
def Group.formTrap (g : Group) (cap n sid : Nat) (m : LaneMask) (fr : Nat → TrapFrame) : Formed :=
  match g.split? sid, g.freeFrame with
  | none, _ => .ok g
  | _, none => .noFrame
  | some sp, some k =>
    let g := { (g.dropResv m 4) with frames := g.frames ++ [fr k] }
    let enter := fun (x : Split) =>
      { (x.goto g.handler) with state := .inTrap, resume := sp.pc, frame := some k, hold := .none, skipRpc := false }
    if sp.mask &&& ~~~m == 0 then .ok (g.modSplit sid enter)
    else
      match g.room cap n [sid] with
      | .ok g =>
        let g := g.modSplit sid (fun x => { x with mask := x.mask &&& ~~~m })
        .ok ((g.addSplit { enter sp with mask := m, held := 0, nchild := 0 }).countChild sp.parent (· + 1))
      | .wait =>
        match g.freeRecord cap with
        | none => .noEntry
        | some rec =>
          let g := g.modSplit sid (fun x => { x with mask := x.mask &&& ~~~m })
          .ok ((g.addSpilled { enter sp with mask := m, held := 0, nchild := 0 } rec n).countChild sp.parent (· + 1))
      | .full => .noEntry

/-- 07 R143, R152, R153: the spill records that a change of a split table writes: those of splits spilled by it, and those whose
split has changed in the spill area. -/
def recordsChanged (old new : Group) : List Split :=
  new.splits.filter (fun x => x.spilled && !(old.splits.any (fun y => y.spilled && y.slot == x.slot && y.recordBytes == x.recordBytes)))

/-- 07 R153: the spilled splits that a change of a split table restores. -/
def recordsTaken (old new : Group) : List Split :=
  old.splits.filter (fun x => x.spilled && new.splits.any (fun y => y.id == x.id && !y.spilled))

/-- 04 R84, 07 R152: the virtual address of a group's private area. -/
def State.spillBase (s : State) (w : Workgroup) (g : Group) : Nat :=
  let native := (s.groupsOf w.key).length
  w.privBase + (w.wg * native + g.groupId) * w.spill

/-- What the scheduler asks of a leaf of the spill area. -/
def spillUse (write : Bool) : Use := { read := !write, write := write, exec := false, dev := false, syncNarrow := false }

/-- 21 R386: a spill record of another package's memory is written, or asked for, by a packet of its line. -/
def State.spillSend (s : State) (w : Workgroup) (gid owner va : Nat) (data : Option (List Byte)) : State :=
  let pkt := { s.packet w.part (if data.isSome then 1 else 0) (va / 128) with
    group := gid, bytes := (List.range 64).map (fun i => (va % 128 + i, (data.getD []).getD i 0)) }
  let x := pkt.toSend owner gid 0 va true
  (if data.isSome then s.sendWrite (coreDie w.phys) x else s.send x).1

/-- 07 R152, 20 R367, R373: a spill record of this package's memory is written at the slices of the die that serves it, or
read there. -/
def State.spillHome (s : State) (w : Workgroup) (p : Partition) (va pa : Nat) (f : Leaf) (data : Option (List Byte)) : State :=
  let die := coreDie w.phys
  let at_ := if f.ord then homeDie pa else die
  let away := homeDie pa != die && (f.ord || !(if data.isSome then s.ownsLine die (pa / 128) else s.holdsLine die (pa / 128)))
  let s := if f.ace && away then s.countAccess die p va 1 else s
  match data with
  | some bs =>
    let s := if p.obs.ckt = 0 then s else s.setDck w.phys p va
    ((List.range 16).foldl (fun s i => (s.own at_ (pa / 128)).collect (pa / 4 + i) none) s).storeBytes pa bs
  | none => s.share_ at_ (pa / 128)

/-- 07 R152, R153, 11 R249: the scheduler writes a spill record, or reads one; the fault of its translation, or of poison read
(25 R472). -/
def State.spillAccess (s : State) (w : Workgroup) (gid va : Nat) (data : Option (List Byte)) : State × Option FaultInfo :=
  let p := s.partOf w.part
  match s.translate w.phys p va with
  | .fault c pa pav => (s, some { code := c, addr := va, vav := true, paddr := if pav then pa else 0, pav := pav })
  | .ok pa f _ =>
    let s := s.touch w.phys p va
    match f.refuse p s.pod (spillUse data.isSome) with
    | some c => (s, some { code := c, addr := va, vav := true, paddr := 0, pav := false })
    | none =>
      if f.fwd then
        ((if f.ace then s.countAccess (coreDie w.phys) p va 2 else s).spillSend w gid f.owner va data, none)
      else if data.isNone && (List.range 4).any (fun i => s.poisonAt (pa + 16 * i)) then
        (s, some { code := 0x6002, addr := 0, vav := false, paddr := pa / 16 * 16, pav := true })
      else (s.spillHome w p va pa f data, none)

/-- Spill records accessed in turn, up to the first fault: (record, what is written to it). -/
def State.spillAll (s : State) (w : Workgroup) (gid base : Nat) (l : List (Nat × Option (List Byte))) : State × Option FaultInfo :=
  l.foldl (fun (acc : State × Option FaultInfo) x =>
    match acc.2 with
    | some _ => acc
    | none => acc.1.spillAccess w gid (base + 64 * x.1) x.2) (s, none)

/-- Put a changed split table into the state: the records restored are read, then those changed written; a fault of the spill
area is fatal (07 R152). -/
def State.putSplits (s : State) (w : Workgroup) (sid : Nat) (old new : Group) : State :=
  let l := (recordsTaken old new).map (fun x => (x.slot, none)) ++ (recordsChanged old new).map (fun x => (x.slot, some x.recordBytes))
  let s' := (s.modGroup old.gid (fun _ => new)).bump
  if l.isEmpty then s'
  else
    match s'.spillAll w old.gid (s.spillBase w old) l with
    | (s', none) => s'
    | (s', some f) =>
      match (old.split? sid).orElse (fun _ => old.splits.head?) with
      | some sp =>
        (s'.fatal w { s.groupRecord w old sp f.code 0 sp.mask with vav := f.vav, addr := f.addr, pav := f.pav, paddr := f.paddr }).markFaulted
          old.gid sp.id
      | none => s'

/-- A record of a lane fault, with its addresses (log entry 18). -/
def State.trapRecord (s : State) (c : Ctx) (ts : List LaneTrap) (code action : Nat) (tw : TrapWord) : ErrorRecord :=
  let f := firstOfCode ts code
  let va := f.bind (·.va)
  let pa := f.bind (·.pa)
  let r := s.groupRecord c.w c.g c.sp code action (lanesOfCode ts code)
  let vav := codeHasVa code && va.isSome
  { r with vav := vav, addr := if vav then va.getD 0 else if code == 0x5006 then tw.aux.toNat else 0,
           pav := pa.isSome, paddr := pa.getD 0 }

/-- 22 R405: the faults that are fatal for this split: those never delivered, else all when it is in-trap or its role has
no handler. -/
def fatalCodes (c : Ctx) (ts : List LaneTrap) : List Nat :=
  let codes := codesOf ts
  let always := codes.filter alwaysFatal
  if !always.isEmpty then always
  else if c.sp.state == .inTrap || c.g.handler == noRpc then codes
  else []

/-- 22 R406: form one in-trap split for each code, ascending. -/
def Group.formTraps (g : Group) (cap n sid : Nat) (legacy : Bool) (sp : Split) (ts : List LaneTrap) (tw : TrapWord)
    (codes : List Nat) : Formed × Nat :=
  match codes with
  | [] => (.ok g, 0)
  | code :: rest =>
    match g.formTrap cap n sid (lanesOfCode ts code) (fun k => trapFrame k code ts legacy sp.half sp.pc tw) with
    | .ok g => g.formTraps cap n sid legacy sp ts tw rest
    | bad => (bad, code)

/-- 11 R254, R257, R264: an access whose leaf refuses it has walked: its translation is held, and a mismatched block counted. -/
def State.touchTraps (s : State) (c : Ctx) (ts : List LaneTrap) : State :=
  ts.foldl (fun s t =>
    if t.code == 0x3401 || t.code == 0x3402 || t.code == 0x3404 then
      match t.va with
      | some va => s.touch c.w.phys (s.partOf c.w.part) va
      | none => s
    else s) s

/-- TAKING A TRAP (07 R151, 22 R405 to R408): the lanes leave for the role's handler with a trap frame for each code, or
the trap is fatal to the nearest fault domain. -/
def State.takeTrap (s0 : State) (c : Ctx) (ts : List LaneTrap) (tw : TrapWord) : State :=
  let s := s0.touchTraps c ts
  let gid := c.g.gid
  let sid := c.sp.id
  match fatalCodes c ts with
  | f :: fs =>
    ((f :: fs).foldl (fun s code => s.fatal c.w (s.trapRecord c ts code 0 tw)) s).markFaulted gid sid
  | [] =>
    match s.group? gid with
    | none => s
    | some g0 =>
      let g := g0.modSplit sid (fun x => { x with site := c.sp.site })
      let codes := codesOf ts
      match g.formTraps (c.w.spill / 64) s.serial sid c.w.legacy c.sp ts tw codes with
      | (.ok g', _) =>
        let s' := s.putSplits c.w sid g g'
        codes.foldl (fun s code => s.record (s.trapRecord c ts code (actionOf 0 1) tw)) s'
      | (.noEntry, code) =>
        (s.fatal c.w (s.trapRecord c ts code (actionOf (c.w.fdom + 1) 10) tw)).markFaulted gid sid
      | (.noFrame, code) =>
        (s.fatal c.w (s.trapRecord c ts code (actionOf (c.w.fdom + 1) 11) tw)).markFaulted gid sid

/-- Every lane of the split's mask raises one code (06 R131). -/
def Ctx.allLanes (c : Ctx) (code : Nat) (va : Option Nat) (pa : Option Nat) : List LaneTrap :=
  (lanesOf c.sp.mask).map (fun l => ⟨l, code, va, pa⟩)

/-- Lanes that raise one code with no address. -/
def lanesTrap (ls : List Nat) (code : Nat) : List LaneTrap := ls.map (fun l => ⟨l, code, none, none⟩)

/-! ### The return from a trap (08 R181, 22 R411) -/

/-- 22 R411: the split goes back to its faulting clause, ready, at the word its frame gives, past the clause when that is
beyond it; the clause is fetched again and its WAIT tested again. -/
def Split.trapReturn (sp : Split) (f : TrapFrame) : Split :=
  let w := if f.retry then f.word else f.word + 1
  { sp with state := .ready, pc := sp.resume, word := w, clause := [], skipRpc := true, passed := false, awaits := 0, frame := none,
            hold := .none }

/-! ### Issuing an instruction word -/

/-- What an instruction does when it issues. -/
inductive Eff where
  /-- Its effect is complete; the split moves past it. -/
  | done (s : State)
  /-- Some lanes fault; the state holds the effect of those that passed. -/
  | trap (s : State) (ts : List LaneTrap) (aux : Byte)
  /-- It is held at issue, with no effect. -/
  | held (h : Hold)
  /-- It is held at issue, and keeps what it waits for (21 R392, R394). -/
  | wait (s : State) (h : Hold)
  /-- It has moved the split itself. -/
  | moved (s : State)

/-- What the issuing split sees. -/
def State.ctx? (s : State) (gid sid : Nat) : Option Ctx :=
  match s.group? gid with
  | none => none
  | some g =>
    match s.wg? g.wgKey, g.split? sid with
    | some w, some sp => some { g := g, w := w, sp := sp, free := s.free }
    | _, _ => none

/-- 22 R418, 23 R431: a split may move: it is resident, not stopped, and its workgroup runs; while its workgroup stops for a
pre-emption, to the end of the clause it is in. -/
def Ctx.mayMove (c : Ctx) : Bool :=
  !c.sp.spilled && c.sp.stop != .stopped &&
    (c.w.status == .resident || (c.w.status == .stopping && c.sp.word != 0 && !c.sp.skipRpc && c.sp.hold != .abandoned))

/-- The word after an instruction (06 R123). -/
def nextWord (sp : Split) (x : Args) : Nat := sp.word + (if x.long.isSome then 2 else 1)

/-- The instruction's first word as fetched. -/
def Split.iword (sp : Split) : DWord := sp.clause.getD sp.word 0

/-- What a frame keeps of the instruction at the split's word. -/
def Split.trapWord (sp : Split) (aux : Byte) : TrapWord := { word := sp.word, iword := sp.iword, aux := aux }

/-- 23 R427, 24 R452: the safe point that the split's word is, when its STOP bit is set: its IMAGEID and the ordinal of
its offset among the points of the image loaded (04 R74). -/
def State.siteOf (s : State) (w : Workgroup) (sp : Split) : Option (Word × Word) :=
  match sp.clause with
  | [] => none
  | h :: _ =>
    if sp.word != 0 && (headerOf h).stop.getLsbD (sp.word - 1) then
      let off := sp.pc.toNat + 8 * sp.word
      let pts := match (s.part? w.part).bind (fun p => p.images.find? (fun i => i.id == w.imageId)) with
        | some i => i.points
        | none => []
      some (w.imageId, BitVec.ofNat 32 ((lastOf off pts).getD 0xFFFFFFFF))
    else none

/-- 23 R427, and the record of the sixth load in chapter 12: a split that issues the instruction of a safe point has passed it, though the instruction faults
(log entry 52). -/
def State.passSite (s : State) (c : Ctx) : Ctx :=
  { c with sp := { c.sp with site := (s.siteOf c.w c.sp).orElse (fun _ => c.sp.site) } }

/-- 23 R432: a restarted split has issued the instruction at its own stop site. -/
def StopMark.afterIssue (m : StopMark) : StopMark :=
  match m with
  | .resumed => .running
  | .stepping => .asked
  | m => m

/-- The marks that an issue leaves on the split and its group (07 R159, R160; 08 R177; 24 R452). -/
def State.noteIssue (s : State) (c : Ctx) : State :=
  s.modGroup c.g.gid (fun g =>
    { (g.modSplit c.sp.id (fun x =>
        { x with site := (s.siteOf c.w c.sp).orElse (fun _ => x.site),
                  stop := x.stop.afterIssue,
                  hold := if x.hold == .faulted then .faulted else .none, issuedAt := s.serial, starved := none, yielded := false, awaitAcks := [],
                  waitOn := none })) with
      lastSid := c.sp.id, yielded := false })

/-- Move the issuing split past an instruction, if it is still where it was. -/
def State.advance (s : State) (c : Ctx) (x : Args) : State :=
  s.modSplit c.g.gid c.sp.id (fun sp =>
    if sp.pc == c.sp.pc && sp.word == c.sp.word && sp.state == c.sp.state && sp.hold != .faulted then
      sp.advance (nextWord c.sp x)
    else sp)

/-- 06 R120: the flag the instruction counts. -/
def Ctx.flag (c : Ctx) (x : Args) : Nat :=
  match c.sp.clause with
  | h :: _ => (headerOf h).flagOf x.fs
  | [] => 0

/-- 06 R119: the flags that a clause header waits on read zero. -/
def Group.waitHolds (g : Group) (h : Header) : Bool :=
  (List.range 12).all (fun k => !h.wait.getLsbD k || assocGet 0 k g.flags == 0)

/-- 07 R155: the flag is one on which another split of the group waits. -/
def Group.flagAwaited (g : Group) (sid f : Nat) : Bool :=
  g.splits.any (fun x => x.id != sid && x.awaits.getLsbD f)

/-- 06 R120, 07 R155: what holds a flag-counted instruction at issue. -/
def Ctx.flagHold (c : Ctx) (o : Op) (x : Args) : Option Hold :=
  if o.flagCounted then
    let f := c.flag x
    if c.g.flagAwaited c.sp.id f then some .flagBusy
    else if assocGet 0 f c.g.flags ≥ 63 then some .flagLimit
    else none
  else none

/-- 06 R120: count a flag up. -/
def Group.countUp (g : Group) (f : Nat) : Group := { g with flags := assocSet 0 f (assocGet 0 f g.flags + 1) g.flags }
/-- 06 R120: count a flag down. -/
def Group.countDown (g : Group) (f : Nat) : Group := { g with flags := assocSet 0 f (assocGet 0 f g.flags - 1) g.flags }

/-- A pending operation of the issuing split with nothing to write yet. -/
def Ctx.newOp (c : Ctx) (x : Args) (id : Nat) : PendingOp :=
  { id := id, flag := c.flag x, half := c.sp.half, vWrites := [], sWrites := [], pWrites := [], vTags := [], lost := [], fstat := 0,
    awaits := [], got := [], elems := [], fmode := c.fmode, waitsEngine := false, acq := 0, tier2 := false }

/-- 06 R120: a flag-counted instruction is outstanding: its counter rises by one. -/
def State.pend (s : State) (c : Ctx) (op : PendingOp) : State :=
  (s.modGroup c.g.gid (fun g => { (g.countUp op.flag) with ops := g.ops ++ [op] })).bump

/-- What an effect leaves. -/
def settleEff (c : Ctx) (x : Args) (s : State) (e : Eff) : Host.Outcome State Fault Refusal :=
  match e with
  | .done s' => .next ((s'.advance c x).noteIssue c)
  | .trap s' ts aux => .next (((s'.takeTrap c ts (c.sp.trapWord aux)).advance c x).noteIssue c)
  | .held h => .next (s.modSplit c.g.gid c.sp.id (fun sp => { sp with hold := h }))
  | .wait s' h => .next (s'.modSplit c.g.gid c.sp.id (fun sp => { sp with hold := h }))
  | .moved s' => .next (s'.noteIssue c)

/-- Issue an instruction for the split that `cur` names: the encoding faults (06 R130, R131), then, with an empty Active
set, nothing (06 R120, 09 R190, R191), else what holds a flag-counted instruction, else its effect (log entry 54). -/
def issue (o : Op) (x : Args) (s : State) (body : Ctx → List Nat → Eff) : Host.Outcome State Fault Refusal :=
  match s.cur with
  | none => .fault .noIssuer
  | some (gid, sid) =>
    match s.ctx? gid sid with
    | none => .fault .noIssuer
    | some c0 =>
      let c := s.passSite c0
      match c.encodingFault o x with
      | some code => settleEff c x s (.trap s (c.allLanes code none none) 0)
      | none =>
        let act := c.active x
        if act.isEmpty then settleEff c x s (.done s)
        else
          match c.flagHold o x with
          | some h => settleEff c x s (.held h)
          | none => settleEff c x s (body c act)

/-- Issue an instruction that acts once and leaves a next state, whatever its operands (09 R191). -/
def issueDone (o : Op) (x : Args) (s : State) (body : Ctx → List Nat → State) : Host.Outcome State Fault Refusal :=
  issue o x s (fun c act => .done (body c act))

end Sys2Proof.Machine
end

