-- ==== Sys2Proof/Machine/Fabric.lean ====
section
/-!
DEFINITION. The waits of a POD release for acknowledgements (21 R392 to R394).
-/
namespace Sys2Proof.Machine

/-- 21 R392, R394: the SENT counts of a context that a POD release waits for, but for one destination. -/
def State.awaited (s : State) (part : Nat) (but : Option Nat) : List (Nat × Nat) :=
  (s.counts.filter (fun b => b.part == part && b.sent != b.acked && some b.dest != but)).map
    (fun b => (b.dest * 4 + b.path, b.sent))

/-- 21 R388: a counter has reached a value, modulo 2^32. -/
def wrapReached (have_ want : Nat) : Bool := (have_ + 2 ^ 32 - want) % 2 ^ 32 < 2 ^ 31

/-- 21 R394: the counts awaited have been acknowledged. -/
def State.ackedAll (s : State) (part : Nat) (l : List (Nat × Nat)) : Bool :=
  l.all (fun w => wrapReached (s.braid part (w.1 / 4) (w.1 % 4)).acked w.2)

/-- 21 R392, R394: what the acknowledgement wait of a POD release asks for: nothing more, or a wait with its counts. -/
def State.podWait (s : State) (c : Ctx) (but : Option Nat) : Option (List (Nat × Nat)) :=
  if !c.sp.awaitAcks.isEmpty then (if s.ackedAll c.w.part c.sp.awaitAcks then none else some c.sp.awaitAcks)
  else
    let l := s.awaited c.w.part but
    if l.isEmpty then none else some l

/-- A split that waits for acknowledgements. -/
def State.holdAcks (s : State) (c : Ctx) (l : List (Nat × Nat)) : Eff :=
  .wait (s.modSplit c.g.gid c.sp.id (fun x => { x with awaitAcks := l })) .memory

/-- 10 R240: the group has accesses that have not been performed. -/
def State.outstanding (s : State) (gid : Nat) : Bool := s.sent.any (fun q => q.gid == gid && !q.engine)

end Sys2Proof.Machine
end

