-- ==== Sys2Proof/Machine/IntOps.lean ====
section
/-!
DEFINITION. The integer operations on one element (09 R196 to R198, R201).
-/
namespace Sys2Proof.Machine

/-- 09 R197: the operations. -/
inductive IntFn where
  | add | sub | mul | mulh | mad | and | or | xor | shl | shr | sra | min | max | abs | sel | mov | bfe | bfi | popc | clz
  /-- 09 R196: a condition 0 to 5. -/
  | cmp (cc : Nat)
  deriving DecidableEq, Repr

/-- 09 R197: an element read under its type. -/
def elemInt (signed : Bool) (w n : Nat) : Int := if signed then signedOf w n else ((n % 2 ^ w : Nat) : Int)

/-- 09 R196: the condition of a comparison. -/
def condHolds (cc : Nat) (o : Ordering) : Bool :=
  match cc with
  | 0 => o == .eq
  | 1 => o != .eq
  | 2 => o == .lt
  | 3 => o != .gt
  | 4 => o == .gt
  | _ => o != .lt

/-- 09 R197: ones in the w bits of a pattern. -/
def popCount (w n : Nat) : Nat := ((List.range w).filter (fun i => bitOf n i)).length

/-- 09 R197: the exact value x; `a`, `b`, `c` are patterns of the element's width, `b` the whole count or field operand. -/
def intExact (f : IntFn) (signed : Bool) (w a b c : Nat) : Int :=
  let ia := elemInt signed w a
  let ib := elemInt signed w b
  let ic := elemInt signed w c
  let ua := a % 2 ^ w
  let ub := b % 2 ^ w
  let pos := b % 256
  let len := b / 256 % 256
  let n := Nat.min len (w - pos)
  match f with
  | .add => ia + ib
  | .sub => ia - ib
  | .mul => ia * ib
  | .mulh => ia * ib / ((2 ^ w : Nat) : Int)
  | .mad => ia * ib + ic
  | .and => ((ua &&& ub : Nat) : Int)
  | .or => ((ua ||| ub : Nat) : Int)
  | .xor => ((ua ^^^ ub : Nat) : Int)
  | .shl => if b ≥ w then 0 else ((ua * 2 ^ b : Nat) : Int)
  | .shr => if b ≥ w then 0 else ((ua / 2 ^ b : Nat) : Int)
  | .sra => signedOf w a / ((2 ^ Nat.min b (w - 1) : Nat) : Int)
  | .min => if ia ≤ ib then ia else ib
  | .max => if ia ≤ ib then ib else ia
  | .abs => ((ia.natAbs : Nat) : Int)
  | .sel => if c % 2 = 1 then ia else ib
  | .mov => ia
  | .bfe =>
    if pos ≥ w || len = 0 then 0
    else if signed then signedOf n (ua / 2 ^ pos) else ((ua / 2 ^ pos % 2 ^ n : Nat) : Int)
  | .bfi =>
    if pos ≥ w || len = 0 then ic
    else
      let m := (2 ^ n - 1) * 2 ^ pos
      ((c % 2 ^ w - (c % 2 ^ w &&& m) + (ua % 2 ^ n) * 2 ^ pos : Nat) : Int)
  | .popc => ((popCount w a : Nat) : Int)
  | .clz => ((w - bitLen ua : Nat) : Int)
  | .cmp cc => if condHolds cc (compare ia ib) then -1 else 0

/-- 09 R198: the pattern of the result: wrapped to `wr` bits, or clamped to the type under SAT. -/
def intResult (sat signed : Bool) (wr : Nat) (x : Int) : Nat :=
  if sat then patOf wr (clampInt x (minInt signed wr) (maxInt signed wr)) else patOf wr x

/-- An operation on one element of w bits, its result in wr bits. -/
def intElem (f : IntFn) (sat signed : Bool) (w wr a b c : Nat) : Nat := intResult sat signed wr (intExact f signed w a b c)

/-- 09 R193: element k of w bits. -/
def elemAt (w k n : Nat) : Nat := n / 2 ^ (w * k) % 2 ^ w

/-- 09 R193: an operation on each of the elements of w bits of a 32-bit value. -/
def intLane (f : IntFn) (sat signed : Bool) (w a b c : Nat) : Nat :=
  if w ≥ 32 then intElem f sat signed w (if w = 64 then (match f with | .cmp _ | .popc | .clz => 32 | _ => 64) else 32) a b c
  else
    (List.range (32 / w)).foldl
      (fun acc k => acc + intElem f sat signed w w (elemAt w k a) (elemAt w k b) (elemAt w k c) * 2 ^ (w * k)) 0

/-- 09 R192: a 32-bit immediate at the operand's width. -/
def extendImm (signed : Bool) (w n : Nat) : Nat :=
  match w with
  | 64 => if signed then patOf 64 (signedOf 32 n) else n
  | 16 => (n % 65536) * 0x10001
  | 8 => (n % 256) * 0x1010101
  | _ => n

/-- 09 R201: the four-way dot product of a lane. -/
def dot4 (sat signed : Bool) (a b c : Nat) : Nat :=
  let x := (List.range 4).foldl (fun acc k => acc + elemInt signed 8 (elemAt 8 k a) * elemInt signed 8 (elemAt 8 k b))
    (elemInt signed 32 c)
  intResult sat signed 32 x

end Sys2Proof.Machine
end

