-- ==== Sys2Proof/Machine/Vector.lean ====
section
/-!
DEFINITION. The vector integer block (09 R190, R192, R193, R196 to R201).
-/
namespace Sys2Proof.Machine

/-- 06 R126: element bits of a vector type. -/
def vecWidth (x : Args) : Nat :=
  match x.mod.toNat / 4 / 2 with
  | 0 => 32
  | 1 => 64
  | 2 => 16
  | _ => 8
/-- 06 R126: a vector type is signed. -/
def vecSigned (x : Args) : Bool := x.mod.toNat / 4 % 2 == 0
/-- 06 R126: SAT. -/
def vecSat (x : Args) : Bool := x.mod.toNat % 2 == 1
/-- 06 R126: US. -/
def vecUs (x : Args) : Bool := x.mod.toNat / 2 % 2 == 1

/-- 09 R192, R200: B in a lane: a register or pair, a uniform `s` register or pair, or the immediate. -/
def vectorB (c : Ctx) (x : Args) (wide : Bool) (l : Nat) : Nat :=
  match immOf x with
  | some n => if vecWidth x = 64 && !wide then n else extendImm (vecSigned x) (vecWidth x) n
  | none => if vecUs x then c.sw wide x.b.toNat else c.vw wide x.b.toNat l

/-- The value of a lane: `countB` for a B that is one register at every type. -/
def vectorValue (f : IntFn) (countB : Bool) (c : Ctx) (x : Args) (l : Nat) : Nat :=
  let wide := vWide x.mod.toNat
  let a := match f, immOf x with
    | .mov, some n => extendImm (vecSigned x) (vecWidth x) n
    | _, _ => c.vw wide x.a.toNat l
  let b := match f with
    | .mov => 0
    | .abs => 0
    | .popc => 0
    | .clz => 0
    | _ => vectorB c x (wide && !countB) l
  let cc := match f with
    | .mad => c.vw wide x.c.toNat l
    | .bfi => c.vw wide x.c.toNat l
    | .sel => (c.v x.c.toNat l).toNat
    | _ => 0
  intLane f (vecSat x) (vecSigned x) (vecWidth x) a b cc

/-- 09 R190: write a value in each lane of Active(S). -/
def writeLanes (s : State) (c : Ctx) (act : List Nat) (wide : Bool) (d : Nat) (val : Nat → Nat) : State :=
  s.writeV c (act.flatMap (fun l => vPut wide d l (val l)))

/-- 09 R190, R200: a vector instruction writes its destination in each lane of Active(S). -/
def vectorExec (o : Op) (f : IntFn) (countB narrow : Bool) (x : Args) (s : State) : Host.Outcome State Fault Refusal :=
  issueDone o x s (fun c act =>
    writeLanes s c act (vWide x.mod.toNat && !narrow) x.d.toNat (vectorValue f countB c x))

/-- VADD (09 R197, R200). -/
def execVadd (x : Args) (s : State) : Host.Outcome State Fault Refusal := vectorExec .vadd .add false false x s
/-- VSUB (09 R197, R200). -/
def execVsub (x : Args) (s : State) : Host.Outcome State Fault Refusal := vectorExec .vsub .sub false false x s
/-- VMUL (09 R197, R200). -/
def execVmul (x : Args) (s : State) : Host.Outcome State Fault Refusal := vectorExec .vmul .mul false false x s
/-- VMULH (09 R197, R200). -/
def execVmulh (x : Args) (s : State) : Host.Outcome State Fault Refusal := vectorExec .vmulh .mulh false false x s
/-- VMAD (09 R197, R200). -/
def execVmad (x : Args) (s : State) : Host.Outcome State Fault Refusal := vectorExec .vmad .mad false false x s
/-- VAND (09 R197, R200). -/
def execVand (x : Args) (s : State) : Host.Outcome State Fault Refusal := vectorExec .vand .and false false x s
/-- VOR (09 R197, R200). -/
def execVor (x : Args) (s : State) : Host.Outcome State Fault Refusal := vectorExec .vor .or false false x s
/-- VXOR (09 R197, R200). -/
def execVxor (x : Args) (s : State) : Host.Outcome State Fault Refusal := vectorExec .vxor .xor false false x s
/-- VSHL (09 R197, R200). -/
def execVshl (x : Args) (s : State) : Host.Outcome State Fault Refusal := vectorExec .vshl .shl true false x s
/-- VSHR (09 R197, R200). -/
def execVshr (x : Args) (s : State) : Host.Outcome State Fault Refusal := vectorExec .vshr .shr true false x s
/-- VSRA (09 R197, R200). -/
def execVsra (x : Args) (s : State) : Host.Outcome State Fault Refusal := vectorExec .vsra .sra true false x s
/-- VMIN (09 R197, R200). -/
def execVmin (x : Args) (s : State) : Host.Outcome State Fault Refusal := vectorExec .vmin .min false false x s
/-- VMAX (09 R197, R200). -/
def execVmax (x : Args) (s : State) : Host.Outcome State Fault Refusal := vectorExec .vmax .max false false x s
/-- VABS (09 R197, R198, R200). -/
def execVabs (x : Args) (s : State) : Host.Outcome State Fault Refusal := vectorExec .vabs .abs false false x s
/-- VCMP (09 R196, R200). -/
def execVcmp (x : Args) (s : State) : Host.Outcome State Fault Refusal :=
  vectorExec .vcmp (.cmp x.c.toNat) false true x s
/-- VSEL (09 R197, R200). -/
def execVsel (x : Args) (s : State) : Host.Outcome State Fault Refusal := vectorExec .vsel .sel false false x s
/-- VMOV (09 R197, R200). -/
def execVmov (x : Args) (s : State) : Host.Outcome State Fault Refusal := vectorExec .vmov .mov false false x s
/-- VBFE (09 R197, R200). -/
def execVbfe (x : Args) (s : State) : Host.Outcome State Fault Refusal := vectorExec .vbfe .bfe true false x s
/-- VBFI (09 R197, R200). -/
def execVbfi (x : Args) (s : State) : Host.Outcome State Fault Refusal := vectorExec .vbfi .bfi true false x s
/-- VPOPC (09 R197, R200). -/
def execVpopc (x : Args) (s : State) : Host.Outcome State Fault Refusal := vectorExec .vpopc .popc false true x s
/-- VCLZ (09 R197, R200). -/
def execVclz (x : Args) (s : State) : Host.Outcome State Fault Refusal := vectorExec .vclz .clz false true x s

/-- VDOT4 (09 R201): the long form's four bytes are taken as written. -/
def execVdot4 (x : Args) (s : State) : Host.Outcome State Fault Refusal :=
  issueDone .vdot4 x s (fun c act =>
    writeLanes s c act false x.d.toNat (fun l =>
      let b := match immOf x with
        | some n => n
        | none => if vecUs x then (c.s x.b.toNat).toNat else (c.v x.b.toNat l).toNat
      dot4 (vecSat x) (vecSigned x) (c.v x.a.toNat l).toNat b (c.v x.c.toNat l).toNat))

end Sys2Proof.Machine
end

