-- ==== Sys2Proof/Machine/Float.lean ====
section
/-!
DEFINITION. The floating-point block (09 R202 to R208).
-/
namespace Sys2Proof.Machine

/-- 06 R126: the format of a floating-point type. -/
def floatFmt (x : Args) : Nat :=
  match x.mod.toNat / 8 with
  | 0 => 0x10
  | 1 => 0x12
  | _ => 0x11

/-- 09 R202: the rounding mode of a floating-point instruction. -/
def Ctx.rounding (c : Ctx) (x : Args) : RMode := roundingOf c.fmode (x.mod.toNat % 8)

/-- A result with its flags. -/
abbrev Flagged := Nat × FlagBits

/-- 03 R48: an operation on each element of a lane's 32 bits, the flags ORed. -/
def perElem (w : Nat) (f : Nat → Flagged) : Flagged :=
  if w = 32 then f 0
  else
    let lo := f 0
    let hi := f 1
    (lo.1 + hi.1 * 65536, lo.2 ||| hi.2)

/-- 09 R203: an operation with a NaN operand. -/
def nanResult (fmt : Nat) (vs : List Val) : Flagged := (canonNan fmt, flagIf (vs.any (·.isSnan)) flagNV)

/-- 09 R203: Encode an exact result with the flags of the operation. -/
def roundedResult (ftz : Bool) (fmt : Nat) (mode : RMode) (r : Val × FlagBits) : Flagged :=
  let e := encodeFmt ftz fmt mode r.1
  (e.1, e.2 ||| r.2)

/-- 09 R203: FADD. -/
def addElem (ftz : Bool) (fmt : Nat) (mode : RMode) (a b : Val) : Flagged :=
  if a.isNan || b.isNan then nanResult fmt [a, b] else roundedResult ftz fmt mode (addVal a b mode)
/-- 09 R203: FMUL. -/
def mulElem (ftz : Bool) (fmt : Nat) (mode : RMode) (a b : Val) : Flagged :=
  if a.isNan || b.isNan then nanResult fmt [a, b] else roundedResult ftz fmt mode (mulVal a b)

/-- 09 R203: an infinity times a zero. -/
def infTimesZero (a b : Val) : Bool :=
  match a, b with
  | .inf _, y => y.isZero
  | x, .inf _ => x.isZero
  | _, _ => false

/-- 09 R203: FFMA: the product is not rounded; ∞ × 0 raises NV even when c is a quiet NaN. -/
def fmaElem (ftz : Bool) (fmt : Nat) (mode : RMode) (a b c : Val) : Flagged :=
  if a.isNan || b.isNan || c.isNan then
    let r := nanResult fmt [a, b, c]
    (r.1, r.2 ||| flagIf (infTimesZero a b) flagNV)
  else
    let p := mulVal a b
    if p.1.isNan then (canonNan fmt, p.2) else roundedResult ftz fmt mode (addVal p.1 c mode)

/-- 09 R203, R204: the functions of one operand. -/
def fn1Elem (f : Fn1) (ftz : Bool) (fmt : Nat) (mode : RMode) (a : Val) : Flagged :=
  if a.isNan then nanResult fmt [a] else roundedResult ftz fmt mode (fn1 f a)

/-- 09 R205: the pattern of an operand as read under In: a flushed subnormal is a zero of its sign. -/
def inBits (ftz : Bool) (fmt n : Nat) : Nat :=
  let v := inFmt ftz fmt n
  if v.isZero && n % 2 ^ (fmtWidth fmt - 1) != 0 then n / 2 ^ (fmtWidth fmt - 1) * 2 ^ (fmtWidth fmt - 1) else n

/-- 09 R205: a is before b, with −0 before +0. -/
def fLess (a b : Val) : Bool :=
  match cmpVal a b with
  | .lt => true
  | .gt => false
  | .eq => a.neg? && !b.neg?

/-- 09 R205: FMIN and FMAX on patterns. -/
def minMaxElem (greatest ftz : Bool) (fmt na nb : Nat) : Flagged :=
  let a := inFmt ftz fmt na
  let b := inFmt ftz fmt nb
  let d :=
    if a.isNan && b.isNan then canonNan fmt
    else if a.isNan then inBits ftz fmt nb
    else if b.isNan then inBits ftz fmt na
    else if fLess a b == greatest then inBits ftz fmt nb
    else inBits ftz fmt na
  (d, flagIf (a.isSnan || b.isSnan) flagNV)

/-- 09 R206: FCMP on one element of w bits. -/
def fcmpElem (cc w : Nat) (a b : Val) : Flagged :=
  let un := a.isNan || b.isNan
  let t :=
    if cc == 6 then un
    else if cc == 7 then !un
    else if un then cc == 1
    else condHolds cc (cmpVal a b)
  let ordering := 2 ≤ cc && cc ≤ 5
  (if t then 2 ^ w - 1 else 0, flagIf (if ordering then un else a.isSnan || b.isSnan) flagNV)

/-- 09 R207: the class bit of a value read under In. -/
def classBit (fmt : Nat) (v : Val) : Nat :=
  match v with
  | .nan s => if s then 8 else 9
  | .inf n => if n then 0 else 7
  | .fin n m _ _ =>
    if m = 0 then (if n then 3 else 4)
    else
      match fFmt? fmt with
      | some f => if m < 2 ^ f.man then (if n then 2 else 5) else (if n then 1 else 6)
      | none => 6

/-- 09 R208: FROUND on one element. -/
def froundElem (ftz : Bool) (fmt : Nat) (mode : RMode) (a : Val) : Flagged :=
  match a with
  | .nan s => (canonNan fmt, flagIf s flagNV)
  | .inf n => ((encodeFmt ftz fmt mode (.inf n)).1, 0)
  | .fin n m e rest =>
    let y := roundAt mode n m e rest 0
    if e ≥ 0 then ((encodeFmt ftz fmt mode a).1, 0) else ((encodeFmt ftz fmt mode (.dy n y.1 0)).1, 0)

/-- Write a value in each lane of Active(S) and contribute the flags of all of them (03 R54). -/
def writeFlagged (s : State) (c : Ctx) (act : List Nat) (d : Nat) (f : Nat → Flagged) : State :=
  let rs := act.map (fun l => (l, f l))
  (writeLanes s c act false d (fun l => ((lastOf l rs).getD (0, 0)).1)).addFlags c (orFlags (rs.map (·.2.2)))

/-- 09 R202: B in a lane, a register or the immediate. -/
def Ctx.fb (c : Ctx) (x : Args) (l : Nat) : Nat := (immOf x).getD (c.v x.b.toNat l).toNat

/-- An operation on the elements of a lane's operands, as patterns. -/
def floatLane (c : Ctx) (x : Args) (f : Nat → Nat → Nat → Flagged) (l : Nat) : Flagged :=
  let w := fmtWidth (floatFmt x)
  let a := (c.v x.a.toNat l).toNat
  let b := c.fb x l
  let cc := (c.v x.c.toNat l).toNat
  perElem w (fun k => f (elemAt w k a) (elemAt w k b) (elemAt w k cc))

/-- 09 R203: a floating-point instruction, by its function on patterns of one element. -/
def floatExec (o : Op) (x : Args) (s : State)
    (f : Bool → Nat → RMode → Nat → Nat → Nat → Flagged) : Host.Outcome State Fault Refusal :=
  issueDone o x s (fun c act =>
    writeFlagged s c act x.d.toNat (floatLane c x (f (ftzOf c.fmode) (floatFmt x) (c.rounding x))))

/-- A function of one operand. -/
def fn1Exec (o : Op) (f : Fn1) (x : Args) (s : State) : Host.Outcome State Fault Refusal :=
  floatExec o x s (fun ftz fmt mode a _ _ => fn1Elem f ftz fmt mode (inFmt ftz fmt a))

/-- FADD (09 R203). -/
def execFadd (x : Args) (s : State) : Host.Outcome State Fault Refusal :=
  floatExec .fadd x s (fun ftz fmt mode a b _ => addElem ftz fmt mode (inFmt ftz fmt a) (inFmt ftz fmt b))
/-- FSUB (09 R203): a + (−b). -/
def execFsub (x : Args) (s : State) : Host.Outcome State Fault Refusal :=
  floatExec .fsub x s (fun ftz fmt mode a b _ => addElem ftz fmt mode (inFmt ftz fmt a) (inFmt ftz fmt b).negate)
/-- FMUL (09 R203). -/
def execFmul (x : Args) (s : State) : Host.Outcome State Fault Refusal :=
  floatExec .fmul x s (fun ftz fmt mode a b _ => mulElem ftz fmt mode (inFmt ftz fmt a) (inFmt ftz fmt b))
/-- FFMA (09 R203). -/
def execFfma (x : Args) (s : State) : Host.Outcome State Fault Refusal :=
  floatExec .ffma x s (fun ftz fmt mode a b c =>
    fmaElem ftz fmt mode (inFmt ftz fmt a) (inFmt ftz fmt b) (inFmt ftz fmt c))
/-- FMIN (09 R205). -/
def execFmin (x : Args) (s : State) : Host.Outcome State Fault Refusal :=
  floatExec .fmin x s (fun ftz fmt _ a b _ => minMaxElem false ftz fmt a b)
/-- FMAX (09 R205). -/
def execFmax (x : Args) (s : State) : Host.Outcome State Fault Refusal :=
  floatExec .fmax x s (fun ftz fmt _ a b _ => minMaxElem true ftz fmt a b)
/-- FCMP (09 R206). -/
def execFcmp (x : Args) (s : State) : Host.Outcome State Fault Refusal :=
  floatExec .fcmp x s (fun ftz fmt _ a b _ =>
    fcmpElem x.c.toNat (fmtWidth fmt) (inFmt ftz fmt a) (inFmt ftz fmt b))
/-- FCLASS (09 R207). -/
def execFclass (x : Args) (s : State) : Host.Outcome State Fault Refusal :=
  floatExec .fclass x s (fun ftz fmt _ a _ _ => (2 ^ classBit fmt (inFmt ftz fmt a), 0))
/-- FRCP (09 R203, R204). -/
def execFrcp (x : Args) (s : State) : Host.Outcome State Fault Refusal := fn1Exec .frcp .rcp x s
/-- FRSQ (09 R203, R204). -/
def execFrsq (x : Args) (s : State) : Host.Outcome State Fault Refusal := fn1Exec .frsq .rsq x s
/-- FSQRT (09 R203, R204). -/
def execFsqrt (x : Args) (s : State) : Host.Outcome State Fault Refusal := fn1Exec .fsqrt .sqrt x s
/-- FEXP2 (09 R203, R204). -/
def execFexp2 (x : Args) (s : State) : Host.Outcome State Fault Refusal := fn1Exec .fexp2 .exp2 x s
/-- FLOG2 (09 R203, R204). -/
def execFlog2 (x : Args) (s : State) : Host.Outcome State Fault Refusal := fn1Exec .flog2 .log2 x s
/-- FSIN (09 R203, R204). -/
def execFsin (x : Args) (s : State) : Host.Outcome State Fault Refusal := fn1Exec .fsin .sin x s
/-- FCOS (09 R203, R204). -/
def execFcos (x : Args) (s : State) : Host.Outcome State Fault Refusal := fn1Exec .fcos .cos x s
/-- FROUND (09 R208). -/
def execFround (x : Args) (s : State) : Host.Outcome State Fault Refusal :=
  floatExec .fround x s (fun ftz fmt mode a _ _ => froundElem ftz fmt mode (inFmt ftz fmt a))

end Sys2Proof.Machine
end

