-- ==== Sys2Proof/Machine/Lane.lean ====
section
/-!
DEFINITION. Conversions and lane instructions (09 R209 to R220), CBEXP apart.
-/
namespace Sys2Proof.Machine

/-- 09 R209: a format of 64-bit elements, held in a pair. -/
def fmtWide (fmt : Nat) : Bool := fmtWidth fmt == 64

/-- Write an element of a format in each lane of Active(S), and the flags. -/
def writeElems (s : State) (c : Ctx) (act : List Nat) (fmt d : Nat) (f : Nat → Flagged) : State :=
  let rs := act.map (fun l => (l, f l))
  (writeLanes s c act (fmtWide fmt) d (fun l => extendElem fmt ((lastOf l rs).getD (0, 0)).1)).addFlags c
    (orFlags (rs.map (·.2.2)))

/-- CVT (09 R210). -/
def execCvt (x : Args) (s : State) : Host.Outcome State Fault Refusal :=
  issueDone .cvt x s (fun c act =>
    let dst := x.b.toNat
    let src := x.c.toNat
    let k := x.mod.toNat / 8
    writeElems s c act dst x.d.toNat (fun l =>
      convertFmt (ftzOf c.fmode) (c.rounding x) dst src
        (elemAt (fmtWidth src) k (c.vw (fmtWide src) x.a.toNat l))))

/-- 09 R211: put two adjacent elements of w bits into a word. -/
def insertPair (w p old lo hi : Nat) : Nat :=
  let at_ := 2 * p * w
  old % 2 ^ at_ + (lo + hi * 2 ^ w) * 2 ^ at_ + old / 2 ^ (at_ + 2 * w) * 2 ^ (at_ + 2 * w)

/-- CVTPK (09 R211). -/
def execCvtpk (x : Args) (s : State) : Host.Outcome State Fault Refusal :=
  issueDone .cvtpk x s (fun c act =>
    let fmt := x.c.toNat
    let w := fmtWidth fmt
    writeFlagged s c act x.d.toNat (fun l =>
      let lo := convertFmt (ftzOf c.fmode) (c.rounding x) fmt 0x10 (c.v x.a.toNat l).toNat
      let hi := convertFmt (ftzOf c.fmode) (c.rounding x) fmt 0x10 (c.v x.b.toNat l).toNat
      (insertPair w (x.mod.toNat / 8) (c.v x.d.toNat l).toNat lo.1 hi.1, lo.2 ||| hi.2)))

/-- SCALEX (09 R212). -/
def execScalex (x : Args) (s : State) : Host.Outcome State Fault Refusal :=
  issueDone .scalex x s (fun c act =>
    writeFlagged s c act x.d.toNat (fun l =>
      let sc := scaleOfWord (c.v x.b.toNat l).toNat (x.mod.toNat / 8)
      if sc.isNan then (0x7FC00000, flagNV)
      else mulElem (ftzOf c.fmode) 0x10 (c.rounding x) (inFmt (ftzOf c.fmode) 0x10 (c.v x.a.toNat l).toNat) sc))

/-- 09 R214: a mask of lanes, as the instruction's group numbers them. -/
def Ctx.laneMaskOf (c : Ctx) (ls : List Nat) : Nat := (maskOf (ls.map c.laneNo)).toNat

/-- 09 R220: the value operands are pairs. -/
def laneWide (x : Args) : Bool := x.mod.toNat / 8 == 1

/-- MATCH (09 R215). -/
def execMatchLanes (x : Args) (s : State) : Host.Outcome State Fault Refusal :=
  issueDone .matchLanes x s (fun c act =>
    let val := fun l => c.vw (laneWide x) x.a.toNat l
    writeLanes s c act true x.d.toNat (fun l => c.laneMaskOf (act.filter (fun k => val k == val l))))

/-- BALLOT (09 R216). -/
def execBallot (x : Args) (s : State) : Host.Outcome State Fault Refusal :=
  issueDone .ballot x s (fun c act =>
    s.writeS c (sPut true x.d.toNat
      (c.laneMaskOf (act.filter (fun l => (c.v x.a.toNat l).getLsbD x.c.toNat)))))

/-- 09 R217: the source lane number of SHFL; none when it is out of range. -/
def shflSource (mode l n range : Nat) : Option Nat :=
  let r := match mode with
    | 0 => some n
    | 1 => if n ≤ l then some (l - n) else none
    | 2 => some (l + n)
    | _ => some (l ^^^ n)
  r.filter (· < range)

/-- SHFL (09 R217). -/
def execShfl (x : Args) (s : State) : Host.Outcome State Fault Refusal :=
  issueDone .shfl x s (fun c act =>
    writeLanes s c act false x.d.toNat (fun l =>
      let src := match shflSource (x.mod.toNat / 8) (c.laneNo l) (c.fb x l) (if c.w.legacy then 32 else 64) with
        | some n => if act.contains (c.laneAt n) then c.laneAt n else l
        | none => l
      (c.v x.a.toNat src).toNat))

/-- 09 R218: Op of a reduction. -/
def redOp (op fmt : Nat) (ftz : Bool) (mode : RMode) (a b : Nat) : Flagged :=
  if fmt = 0x10 then
    match op with
    | 0 => addElem ftz 0x10 mode (inFmt ftz 0x10 a) (inFmt ftz 0x10 b)
    | 1 => minMaxElem false ftz 0x10 a b
    | _ => minMaxElem true ftz 0x10 a b
  else
    let w := fmtWidth fmt
    let f := match op with
      | 0 => IntFn.add
      | 1 => .min
      | 2 => .max
      | _ => .or
    (intElem f false (fmtSigned fmt) w w a b 0, 0)

/-- 09 R218: a value that may be absent, with the flags gathered on the way to it. -/
abbrev Partial := Option Nat × FlagBits

/-- 09 R218: Combine. -/
def combine (op : Nat → Nat → Flagged) (a b : Partial) : Partial :=
  match a.1, b.1 with
  | none, _ => (b.1, a.2 ||| b.2)
  | _, none => (a.1, a.2 ||| b.2)
  | some p, some q =>
    let r := op p q
    (some r.1, r.2 ||| a.2 ||| b.2)

/-- 09 R218: one level of the tree. -/
def combineLevel (op : Nat → Nat → Flagged) (l : List Partial) : List Partial :=
  match l with
  | a :: b :: t => combine op a b :: combineLevel op t
  | l => l

/-- 09 R218: the tree of six levels over the 64 lane positions. -/
def reduceTree (op : Nat → Nat → Flagged) (val : Nat → Nat) (act : List Nat) : Flagged :=
  let leaves : List Partial := (List.range 64).map (fun i => (if act.contains i then some (val i) else none, 0))
  let t := (List.range 6).foldl (fun t _ => combineLevel op t) leaves
  let r := t.headD (none, 0)
  (r.1.getD 0, r.2)

/-- 09 R218: the operation of LRED and LSCAN. -/
def Ctx.redOp (c : Ctx) (x : Args) : Nat → Nat → Flagged :=
  Sys2Proof.Machine.redOp (x.mod.toNat / 8) x.c.toNat (ftzOf c.fmode) (c.rounding x)

/-- LRED (09 R218). -/
def execLred (x : Args) (s : State) : Host.Outcome State Fault Refusal :=
  issueDone .lred x s (fun c act =>
    let wide := fmtWide x.c.toNat
    let r := reduceTree (c.redOp x) (fun l => c.vw wide x.a.toNat l) act
    (writeLanes s c act wide x.d.toNat (fun _ => r.1)).addFlags c r.2)

/-- 09 R219: Identity(op, t). -/
def redIdentity (op fmt : Nat) : Nat :=
  let w := fmtWidth fmt
  match op with
  | 1 => if fmt = 0x10 then 0x7F800000 else patOf w (maxInt (fmtSigned fmt) w)
  | 2 => if fmt = 0x10 then 0xFF800000 else patOf w (minInt (fmtSigned fmt) w)
  | _ => 0

/-- 09 R219: the running combination: each lane with the value before it and the value at it. -/
def scanLanes (op : Nat → Nat → Flagged) (val : Nat → Nat) (ls : List Nat) (run : Partial) :
    List (Nat × Option Nat × Nat) × FlagBits :=
  match ls with
  | [] => ([], run.2)
  | l :: t =>
    let run' := combine op run (some (val l), 0)
    let r := scanLanes op val t run'
    ((l, run.1, run'.1.getD 0) :: r.1, r.2)

/-- LSCAN (09 R219). -/
def execLscan (x : Args) (s : State) : Host.Outcome State Fault Refusal :=
  issueDone .lscan x s (fun c act =>
    let wide := fmtWide x.c.toNat
    let r := scanLanes (c.redOp x) (fun l => c.vw wide x.a.toNat l) act (none, 0)
    let out := fun l => match lastOf l r.1 with
      | some (prev, now) => if x.b.toNat % 2 = 0 then now else prev.getD (redIdentity (x.mod.toNat / 8) x.c.toNat)
      | none => 0
    (writeLanes s c act wide x.d.toNat out).addFlags c r.2)

/-- 09 R220: the lane that RDLANE and BCAST name. -/
def Ctx.namedLane (c : Ctx) (x : Args) : Nat :=
  let b := (immOf x).getD (c.s x.b.toNat).toNat
  c.laneAt (if c.w.legacy then b % 32 else b % 64)

/-- RDLANE (09 R220). -/
def execRdlane (x : Args) (s : State) : Host.Outcome State Fault Refusal :=
  issueDone .rdlane x s (fun c _ =>
    s.writeS c (sPut (laneWide x) x.d.toNat (c.vw (laneWide x) x.a.toNat (c.namedLane x))))

/-- BCAST (09 R220). -/
def execBcast (x : Args) (s : State) : Host.Outcome State Fault Refusal :=
  issueDone .bcast x s (fun c act =>
    writeLanes s c act (laneWide x) x.d.toNat (fun _ => c.vw (laneWide x) x.a.toNat (c.namedLane x)))

/-- V2S (09 R220). -/
def execV2s (x : Args) (s : State) : Host.Outcome State Fault Refusal :=
  issueDone .v2s x s (fun c act =>
    s.writeS c (sPut (laneWide x) x.d.toNat (c.vw (laneWide x) x.a.toNat (act.headD 0))))

/-- S2V (09 R220). -/
def execS2v (x : Args) (s : State) : Host.Outcome State Fault Refusal :=
  issueDone .s2v x s (fun c act =>
    writeLanes s c act (laneWide x) x.d.toNat (fun _ => c.sw (laneWide x) x.a.toNat))

end Sys2Proof.Machine
end

