-- ==== Sys2Proof/Machine/Access.lean ====
section
/-!
DEFINITION. The accesses of an instruction's lanes: where their bytes lie, what faults and what holds them, how they
are read and written (02 R41 to R43; 10 R231 to R240; 13 R294; 25 R472).
-/
namespace Sys2Proof.Machine

/-! ### Where bytes lie -/

/-- Where a byte of an access lies. -/
inductive Place where
  /-- A scratchpad or carve-out byte, by its memory key. -/
  | fixed (key : Nat)
  /-- A byte of global memory: its address, its virtual address, whether its leaf is ORD and whether it is ACE. -/
  | home (pa va : Nat) (ord ace : Bool)
  /-- A byte on another package: the owner, its virtual address, whether its leaf is ACE and whether it is ORD. -/
  | far (owner va : Nat) (ace ord : Bool)
  /-- A byte of device-register space. -/
  | device (pa : Nat)
  deriving DecidableEq, Repr

/-- The memory key of a place; a far byte stands at 2^58 and above. -/
def Place.key (p : Place) : Nat :=
  match p with
  | .fixed k => k
  | .home pa _ _ _ => pa
  | .far o va _ _ => 2 ^ 58 + o * 2 ^ 57 + va
  | .device pa => pa

/-- How bytes of global memory are reached (10 R238): through L1, at the slices, or at the home, uncached. -/
inductive Way where
  | l1 | slice | home
  deriving DecidableEq, Repr

/-- 10 R238, R240: the way that a pointer selects for a leaf. -/
def Ptr.way (q : Ptr) (ord : Bool) : Way :=
  if ord then .home else if q.cls = 2 && q.scope ≠ 0 then .slice else .l1

/-- 10 R238, 11 R258: what an access asks of a leaf. -/
def useOf (q : Ptr) (a : Access) : Use :=
  { read := a.needs.1, write := a.needs.2.1, exec := a.needs.2.2.2, dev := q.space == 5,
    syncNarrow := q.cls == 2 && q.scope < 4 }

/-- The physical core of a gang member (05 R101). -/
def Workgroup.memberCore (w : Workgroup) (m : Nat) : Nat := (lastOf m w.binding).getD w.phys

/-- 11 R254 to R263: the place of a byte of virtual memory, or the fault it meets, with its physical address where one is
recorded. -/
def State.placeVa (s : State) (core part : Nat) (va : Nat) (u : Use) : Except (Nat × Option Nat) Place :=
  let p := s.partOf part
  match s.translate core p va with
  | .fault code pa pav => .error (code, if pav then some pa else none)
  | .ok pa f _ =>
    match f.refuse p s.pod u with
    | some code => .error (code, none)
    | none =>
      if f.fwd then .ok (.far f.owner va f.ace f.ord)
      else if f.dev then .ok (.device pa)
      else .ok (.home pa va f.ord f.ace)

/-- 02 R41, R489: the place of the byte at an offset of a pointer. -/
def State.placeAt (s : State) (w : Workgroup) (q : Ptr) (off : Nat) (u : Use) : Except (Nat × Option Nat) Place :=
  let a := q.addrOf off
  match q.space with
  | 1 => .ok (.fixed (scratchKey w.phys a.addr))
  | 2 => .ok (.fixed (scratchKey (w.memberCore a.member) a.addr))
  | 3 => .ok (.fixed (carveKey w.part q.home a.addr))
  | _ => s.placeVa w.phys w.part a.addr u

/-- The places of n bytes, or the first fault with the address it faults at. -/
def State.placesFrom (s : State) (w : Workgroup) (q : Ptr) (off n : Nat) (u : Use) :
    Except (Nat × Nat × Option Nat) (List Place) :=
  match n with
  | 0 => .ok []
  | n + 1 =>
    match s.placeAt w q off u with
    | .error (code, pa) => .error (code, q.base + off, pa)
    | .ok p =>
      match s.placesFrom w q (off + 1) n u with
      | .error e => .error e
      | .ok l => .ok (p :: l)

/-- One lane's access, checked: its bytes in order. -/
structure LaneAcc where
  lane : Nat
  q : Ptr
  off : Nat
  places : List Place
  deriving DecidableEq, Repr

/-- What a lane asks for: its pointer, whether that pointer is valid (02 R32), the offset and number of its bytes, and
the offset of an element or nibble within them. -/
structure Ask where
  lane : Nat
  q : Ptr
  valid : Bool
  off : Nat
  n : Nat
  deriving DecidableEq, Repr

/-- 10 R234, R247: the checks of a lane in order: the pointer tag, those of 02 R40, `more` on the address, translation. -/
def State.checkLane (s : State) (c : Ctx) (a : Access) (fmtOk : Ptr → Bool) (more : Ptr → Nat → Option Nat) (k : Ask) :
    Except LaneTrap LaneAcc :=
  if !k.valid then .error ⟨k.lane, 0x2006, none, none⟩
  else
    match k.q.check c.core c.w.gangSize k.off k.n a (fmtOk k.q) with
    | some code => .error ⟨k.lane, code, if code = 0x2009 then some (k.q.addrOf k.off).addr else none, none⟩
    | none =>
      let addr := (k.q.addrOf k.off).addr
      match more k.q addr with
      | some code => .error ⟨k.lane, code, some addr, none⟩
      | none =>
        match s.placesFrom c.w k.q k.off k.n (useOf k.q a) with
        | .error (code, va, pa) => .error ⟨k.lane, code, some va, pa⟩
        | .ok l => .ok ⟨k.lane, k.q, k.off, l⟩

/-- The lanes that fault and the lanes that pass. -/
def splitLanes (l : List (Except LaneTrap LaneAcc)) : List LaneTrap × List LaneAcc :=
  l.foldr (fun x acc => match x with
    | .error t => (t :: acc.1, acc.2)
    | .ok a => (acc.1, a :: acc.2)) ([], [])

/-- 02 R43: a fault that stops every lane. -/
def stopsAll (ts : List LaneTrap) : Bool := ts.any (fun t => t.code == 0x2001 || t.code == 0x2006)

/-- 25 R472: the fault of a read of poisoned bytes: 0x6002 from DRAM, 0x6102 from a scratchpad or the Firn. -/
def State.poisonOf (s : State) (l : List Place) : Option (Nat × Nat) :=
  if s.poison.isEmpty then none
  else
    (l.find? (fun p => match p with
      | .fixed k => s.poisonAt k
      | .home pa _ _ _ => s.poisonAt pa
      | _ => false)).map (fun p => (if isGlobal p.key then 0x6002 else 0x6102, p.key / 16 * 16))

/-- 25 R472: the lanes that read poison. -/
def State.poisonTraps (s : State) (l : List LaneAcc) : List LaneTrap :=
  l.filterMap (fun a => (s.poisonOf a.places).map (fun x => ⟨a.lane, x.1, none, if isGlobal x.2 then some x.2 else none⟩))

/-! ### What holds an access at issue -/

/-- A split's order among those held for the same thing: the number under which it first asked. -/
def Split.askedAt (sp : Split) (h : Hold) (n : Nat) : Nat :=
  if sp.hold == h then (sp.waitOn.map (·.1)).getD n else n

/-- Hold the split in a queue, under the number at which it first asked, with what it asks for. -/
def State.queueOn (s : State) (c : Ctx) (h : Hold) (k : Nat) : Eff :=
  let n := c.sp.askedAt h s.serial
  .wait ((s.modSplit c.g.gid c.sp.id (fun x => { x with waitOn := some (n, k) })).bump) h

/-- 13 R292: two intervals of bytes of a scratchpad conflict. -/
def Interval.conflicts (i : Interval) (lo hi : Nat) (write : Bool) : Bool :=
  !i.complete && i.lo < hi && lo < i.hi && (i.write || write)

/-- 13 R289, R297: an operation holds a scoreboard entry; one that met a fault holds none once its workgroup drains. -/
def State.holdsEntry (s : State) (o : EngineOp) : Bool :=
  o.entry && !(o.fault.isSome && ((s.wg? o.wgKey).map (·.status)) != some .resident)

/-- 13 R294: bytes of a core's scratchpad meet an incomplete interval of an entry. -/
def State.scratchBusy (s : State) (core lo hi : Nat) (write : Bool) : Bool :=
  (s.core core).ops.any (fun o => s.holdsEntry o && o.intervals.any (fun i => i.conflicts lo hi write))

/-- 13 R294: `Scoreboard.Arrive` of a byte holds the access. -/
def State.placeBusy (s : State) (p : Place) (write : Bool) : Bool :=
  match p with
  | .fixed k => isScratch k && s.scratchBusy (keyCore k) (k % 2 ^ 21) (k % 2 ^ 21 + 1) write
  | _ => false

/-- A strongly ordered place (10 R240). -/
def Place.strong (p : Place) : Bool :=
  match p with
  | .home _ _ ord _ => ord
  | .far _ _ _ ord => ord
  | .device _ => true
  | _ => false

/-- A lane's access is strongly ordered (10 R240): its class adds nothing (15 R340, 16 R358). -/
def LaneAcc.strong (a : LaneAcc) : Bool := a.places.any (·.strong)

/-- A lane's access is a SYNC access. -/
def LaneAcc.sync (a : LaneAcc) : Bool := a.q.cls == 2 && !a.strong

/-- The (owner, line) pairs of far bytes. -/
def farLines (l : List LaneAcc) : List (Nat × Nat) :=
  ((l.flatMap (·.places)).filterMap (fun p => match p with
    | .far o va _ _ => some (o, va / 128)
    | _ => none)).eraseDups

/-- 21 R401: an access goes over the Mbatil link. -/
def LaneAcc.overLink (a : LaneAcc) : Bool := a.places.any (fun p => match p with
  | .home pa _ _ _ => isTier2 pa
  | _ => false)

/-- A lane has far bytes. -/
def LaneAcc.isFar (a : LaneAcc) : Bool := a.places.any (fun p => match p with
  | .far _ _ _ _ => true
  | _ => false)

/-- 21 R392: the one destination that a POD release need not wait for: that of the instruction's ordered packets, when
all its SYNC POD lanes go to it. -/
def exemptDest (l : List LaneAcc) : Option Nat :=
  let pod := l.filter (fun a => a.sync && a.q.scope == 4)
  match (farLines pod).map (·.1) |>.eraseDups with
  | [d] => if pod.all (·.isFar) then some d else none
  | _ => none

/-- 20 R379: the line of another package that a die holds for RSHR loads, under its epoch. -/
def State.remoteLine (s : State) (die part va : Nat) : Option RemoteLine :=
  let d := s.die die
  d.remote.find? (fun r => r.part == part && r.line == va / 128 && r.epoch == assocGet 0 part d.epochs)

/-- The byte of a remote line that the die holds. -/
def State.remoteByte (s : State) (die part va : Nat) : Option Byte :=
  (s.remoteLine die part va).bind (fun r => lastOf (va % 128) r.bytes)

/-- The key under which a core's L1 holds the word of a far byte now. -/
def State.farKey (s : State) (core part owner va : Nat) : Nat := farWord part (assocGet 0 part (s.die (coreDie core)).epochs) owner va

/-- 20 R379: the byte that a core's L1 holds of another package's memory, else its die. -/
def State.farByte (s : State) (core part owner va : Nat) : Option Byte :=
  match (s.core core).word? (s.farKey core part owner va) with
  | some w => if w.have_.getLsbD (va % 4) then some (w.data.extractLsb' (8 * (va % 4)) 8) else s.remoteByte (coreDie core) part va
  | none => s.remoteByte (coreDie core) part va

/-- 20 R379, 21 R386: an RSHR load of a far byte is served from a copy. -/
def State.farHeld (s : State) (c : Ctx) (q : Ptr) (p : Place) : Bool :=
  match p with
  | .far o va _ ord => q.cls == 1 && !ord && (s.farByte c.w.phys c.w.part o va).isSome
  | _ => false

/-- Packets that a group's instructions have sent and that have not been acknowledged. -/
def State.sentBy (s : State) (gid : Nat) : List SentPacket := s.sent.filter (fun q => q.gid == gid && !q.engine)

/-- 10 R239, R240; 15 R329, R337: the group's earlier accesses that this one must follow have not been performed: an acquire that
awaits its responses; a strongly ordered access, or any access before one; a SYNC access before one, but for ordered packets to
the one destination of these (21 R392). -/
def State.orderHold (s : State) (c : Ctx) (l : List LaneAcc) (write : Bool) : Bool :=
  let out := s.sentBy c.g.gid
  c.g.ops.any (fun o => o.acq != 0) || out.any (·.strong) || (l.any (·.strong) && !out.isEmpty) ||
    (l.any (·.sync) && out.any (fun q => q.sync &&
      !(write && q.pkt.ordered && l.all (fun a => !a.sync || a.q.scope == 4) && exemptDest l == some q.dest)))

/-- The lanes of a load without the far bytes that copies serve. -/
def State.unheld (s : State) (c : Ctx) (l : List LaneAcc) : List LaneAcc :=
  l.map (fun a => { a with places := a.places.filter (fun p => !s.farHeld c a.q p) })

/-- What holds the accesses of an instruction at issue: the scoreboard (13 R294), the order of the group's accesses, the fabric
(21 R388, R389), the Mbatil link while it is down (log entry 48). -/
def State.accessHold (s : State) (c : Ctx) (l : List LaneAcc) (write : Bool) : Option Hold :=
  if l.any (fun a => a.places.any (fun p => s.placeBusy p write)) then some .scoreboard
  else if s.orderHold c l write then some .memory
  else if !s.canSendAll c.w.part (farLines (if write then l else s.unheld c l)) then some .memory
  else if s.linkDown && l.any (·.overLink) then some .memory
  else none

/-! ### Reading -/

/-- The global words of an access that go a way. -/
def wordsOf (l : List LaneAcc) (w : Way) : List Nat :=
  uniq (l.flatMap (fun a => a.places.filterMap (fun p => match p with
    | .home pa _ ord _ => if a.q.way ord = w then some (pa / 4) else none
    | _ => none)))

/-- The virtual addresses of an access. -/
def vasOf (l : List LaneAcc) : List Nat :=
  l.flatMap (fun a => a.places.filterMap (fun p => match p with
    | .home _ va _ _ => some va
    | .far _ va _ _ => some va
    | .device _ => some (a.q.base + a.off)
    | _ => none))

/-- 11 R261: a byte of an access that another die's memory, or another package, serves: its virtual address, and which. -/
def State.servedKind (s : State) (c : Ctx) (q : Ptr) (write : Bool) (p : Place) : Option (Nat × Nat) :=
  match p with
  | .home pa va ord ace =>
    let die := coreDie c.w.phys
    let away := match q.way ord with
      | .home => true
      | .slice => !(if write then s.ownsLine die (pa / 128) else s.holdsLine die (pa / 128))
      | .l1 => !write && ((s.core c.w.phys).word? (pa / 4)).isNone && !s.holdsLine die (pa / 128)
    if ace && homeDie pa != die && away then some (va, 1) else none
  | .far _ va ace _ => if ace && !(!write && s.farHeld c q p) then some (va, 2) else none
  | _ => none

/-- 11 R261, R264: an access's translations are held, and it is counted, once for each counter that its bytes fall under. -/
def State.walkAll (s : State) (c : Ctx) (l : List LaneAcc) (write : Bool) : State :=
  let p := s.partOf c.w.part
  let served := l.flatMap (fun a =>
    ((a.places.filterMap (s.servedKind c a.q write)).map (fun k => (k.1 / 65536 * 65536, k.2))).eraseDups)
  let s := s.touches c.w.phys p (vasOf l)
  served.foldl (fun s k => s.countAccess (coreDie c.w.phys) (s.partOf c.w.part) k.1 k.2) s

/-- 07 R162: a group accesses lines through its L1; a miss that hits its victim array adds to its score. -/
def Group.touchLines (g : Group) (lines misses : List Nat) : Group :=
  { g with touched := lines.foldl (fun l k => setAdd k l) g.touched,
           score := min 255 (g.score + (misses.filter (fun k => g.victims.contains k)).length) }

/-- 07 R162: the lines that an access reaches through L1. -/
def State.noteLines (s : State) (c : Ctx) (ks : List Nat) : State :=
  if ks.isEmpty then s
  else
    let core := s.core c.w.phys
    let misses := uniq ((ks.filter (fun k => (core.word? k).isNone)).map (· / 32))
    s.modGroup c.g.gid (fun g => g.touchLines (uniq (ks.map (· / 32))) misses)

/-- 20 R379: a word of another package's memory that the die holds is brought into a core's L1. -/
def State.fillFar (s : State) (core part : Nat) (inv : Bool) (owner va : Nat) : State :=
  match s.remoteLine (coreDie core) part va with
  | none => s
  | some r =>
    let k := s.farKey core part owner va
    let at_ := va % 128 / 4 * 4
    let got := fun (i : Nat) => lastOf (at_ + i) r.bytes
    let mask := (List.range 4).foldl (fun (m : BitVec 4) i => if (got i).isSome then m ||| (1#4 <<< i) else m) 0
    let data := BitVec.ofNat 32 (natOfBytes ((List.range 4).map (fun i => (got i).getD 0)))
    (s.l1Room core (k / 32)).modCore core (fun c => c.putWord
      { key := k, part := part, st := .valid, data := data, have_ := mask, dirty := 0, nibs := 0, tag := r.tags.contains (at_ / 16 * 16),
        inv := inv })

/-- The words of far places that copies serve, by owner and virtual address, with INV. -/
def State.farWordsOf (s : State) (c : Ctx) (l : List LaneAcc) : List (Nat × Nat × Bool) :=
  (l.flatMap (fun a => a.places.filterMap (fun p => match p with
    | .far o va _ _ => if s.farHeld c a.q p && ((s.core c.w.phys).word? (s.farKey c.w.phys c.w.part o va)).isNone
        then some (o, va / 4 * 4, a.q.inv) else none
    | _ => none))).eraseDups

/-- 10 R238: bring what a read needs: words into L1, or to the slices that serve them. -/
def State.prepRead (s : State) (c : Ctx) (l : List LaneAcc) : State :=
  let s := s.walkAll c l false
  let s := s.noteLines c (wordsOf l .l1)
  let inv := fun (k : Nat) => l.all (fun a => a.q.inv || !a.places.any (fun p => p.key / 4 == k))
  let s := (wordsOf l .l1).foldl (fun s k => s.fillWord c.w.phys c.w.part (inv k) k) s
  let s := (s.farWordsOf c l).foldl (fun s x => s.fillFar c.w.phys c.w.part x.2.2 x.1 x.2.1) s
  let s := s.sliceRead c.w.phys c.w.part (wordsOf l .slice)
  (wordsOf l .home).foldl (fun s k => s.readAtHome c.w.phys c.w.part k) s

/-- The byte that a read returns at once; none for one that a response brings. -/
def State.readPlace (s : State) (c : Ctx) (q : Ptr) (p : Place) : Option Byte :=
  match p with
  | .fixed k => some (s.byte k)
  | .home pa _ ord _ => some (if q.way ord = .l1 then s.seeByte c.w.phys pa else s.byte pa)
  | .far o va _ ord => if q.cls = 1 && !ord then s.farByte c.w.phys c.w.part o va else none
  | .device _ => none

/-- The bytes of a list of places, when all can be read at once. -/
def State.readPlaces (s : State) (c : Ctx) (q : Ptr) (l : List Place) : Option (List Byte) :=
  l.mapM (s.readPlace c q)

/-! ### Writing -/

/-- 11 R261: with checkpointing enabled, the first write to a page sets DCK in its leaf. -/
def State.markDirty (s : State) (c : Ctx) (vas : List Nat) : State :=
  let p := s.partOf c.w.part
  if p.obs.ckt = 0 then s
  else (uniq (vas.map (· / 4096))).foldl (fun s v => s.setDck c.w.phys p (v * 4096)) s

/-- Before a write: translations, counts and DCK. -/
def State.prepWrite (s : State) (c : Ctx) (l : List LaneAcc) : State :=
  ((s.walkAll c l true).noteLines c (wordsOf l .l1)).markDirty c (vasOf l)

/-- 10 R238, 20 R371: write a byte at its place. -/
def State.writePlace (s : State) (c : Ctx) (q : Ptr) (but : Option (Nat × Nat)) (p : Place) (b : Byte) : State :=
  match p with
  | .fixed k => s.store [(k, b)] but
  | .home pa _ ord _ =>
    match q.way ord with
    | .l1 => s.dirtyBytes c.w.phys c.w.part [(pa, b)] but
    | .slice => (s.sliceWrite c.w.phys (coreDie c.w.phys) [pa / 4]).store [(pa, b)] but
    | .home => (s.sliceWrite c.w.phys (homeDie pa) [pa / 4]).store [(pa, b)] but
  | _ => s

/-- Write bytes at their places. -/
def State.writePlaces (s : State) (c : Ctx) (q : Ptr) (but : Option (Nat × Nat)) (l : List (Place × Byte)) : State :=
  l.foldl (fun s w => s.writePlace c q but w.1 w.2) s

/-- A byte with one nibble replaced (03 R47). -/
def setNibble (b : Byte) (hi : Bool) (n : Nat) : Byte :=
  if hi then (b &&& 0x0F#8) ||| BitVec.ofNat 8 (n % 16 * 16) else (b &&& 0xF0#8) ||| BitVec.ofNat 8 (n % 16)

/-- 10 R236, R238: a nibble store updates its byte atomically, at the place that its pointer selects (log entry 23). -/
def State.writeNibble (s : State) (c : Ctx) (q : Ptr) (p : Place) (hi : Bool) (n : Nat) : State :=
  match p with
  | .fixed k => s.store [(k, setNibble (s.byte k) hi n)] none
  | .home pa _ ord _ =>
    if q.way ord = .l1 then s.dirtyNibble c.w.phys c.w.part pa hi n
    else
      let s := s.sliceWrite c.w.phys (if ord then homeDie pa else coreDie c.w.phys) [pa / 4]
      s.store [(pa, setNibble (s.byte pa) hi n)] none
  | _ => s

/-- The widest scope of the SYNC lanes (10 R239). -/
def widestSync (l : List LaneAcc) : Option Nat :=
  let m := (l.filter (·.sync)).map (·.q.scope)
  if m.isEmpty then none else some (m.foldl max 0)

/-- 10 R239: the acquire of the SYNC lanes. -/
def State.acquireLanes (s : State) (c : Ctx) (l : List LaneAcc) : State :=
  match widestSync l with
  | some sc => s.acquireCore c.w.phys c.w.part sc
  | none => s

/-- 10 R239, 21 R392: the release before the stores of SYNC lanes, or the counts it must wait for. -/
def State.releaseLanes (s : State) (c : Ctx) (l : List LaneAcc) : Except (List (Nat × Nat)) State :=
  match widestSync l with
  | none => .ok s
  | some sc =>
    if sc ≥ 4 then
      match s.podWait c (exemptDest l) with
      | some w => .error w
      | none => .ok (s.releaseCore c.w.phys sc)
    else .ok (s.releaseCore c.w.phys sc)

/-! ### Far accesses -/

/-- One packet for each far line of an instruction's lanes; `mk` gives what it carries for a line. -/
def State.sendLines (s : State) (c : Ctx) (opId : Nat) (l : List LaneAcc)
    (mk : Nat → List LaneAcc → Packet → Packet) : State × List (Nat × Nat × Nat) :=
  (farLines l).foldl (fun (acc : State × List (Nat × Nat × Nat)) t =>
    let mine := l.filter (fun a => a.places.any (fun p => match p with
      | .far o va _ _ => o == t.1 && va / 128 == t.2
      | _ => false))
    let pkt := mk t.2 mine { acc.1.packet c.w.part 0 t.2 with group := c.g.gid }
    let va := match leastBy (·.lane) mine with
      | some a => a.q.base + a.off
      | none => t.2 * 128
    let die := coreDie c.w.phys
    let x := { pkt.toSend t.1 c.g.gid opId va false with
      lanes := maskOf (mine.map (·.lane)), sync := mine.any (·.sync), strong := mine.any (·.strong),
      keep := if pkt.kind = 0 && mine.all (fun a => a.q.cls == 1 && !a.strong) then
          some (die, assocGet 0 c.w.part (acc.1.die die).epochs) else none }
    let r := if pkt.kind = 1 || (pkt.kind = 2 && pkt.op != 10) then acc.1.sendWrite die x else acc.1.send x
    (r.1, acc.2 ++ [(t.1, r.2.1, r.2.2)])) (s, [])

/-- The far bytes of a lane that lie in a line, by offset in the line. -/
def LaneAcc.farIn (a : LaneAcc) (line : Nat) : List Nat :=
  a.places.filterMap (fun p => match p with
    | .far _ va _ _ => if va / 128 = line then some (va % 128) else none
    | _ => none)

end Sys2Proof.Machine
end

