-- ==== Sys2Proof/Machine/Device.lean ====
section
/-!
DEFINITION. Device-register space as far as the manual describes it: the partitions' control pages (04 R87, R88) and the
management mailbox (21 R403).
-/
namespace Sys2Proof.Machine

/-- 04 R87: the partition whose control page holds an address, with the offset in it. -/
def State.controlAt (s : State) (pa : Nat) : Option (Partition × Nat) :=
  (s.parts.find? (fun p => Config.controlPage p.num ≤ pa && pa < Config.controlPage p.num + 4096)).map
    (fun p => (p, pa - Config.controlPage p.num))

/-- 04 R87: a doubleword of a control page; FAILACK and ADDR, which are written only, and what the page gives no register read as
zero (log entry 24). -/
def Partition.controlWord (p : Partition) (off : Nat) : Nat :=
  match off with
  | 0x000 => p.ticketNext
  | 0x008 => (p.launches.filter (·.queued)).length
  | 0x010 => ((leastBy (·.ticket) (p.launches.filter (fun l => l.state == 5 && l.queued))).map (·.ticket)).getD 0
  | _ => if 0x100 ≤ off && off < 0x200 && off % 16 == 8 then (p.status.getD ((off - 0x100) / 16) 0).toNat else 0

/-- 21 R403: a doubleword of the mailbox; CMD, ARG and DOORBELL are written only and read as zero (log entry 24). -/
def Mailbox.word (m : Mailbox) (off : Nat) : Nat :=
  if off = 0x040 then m.mstat.toNat
  else if 0x048 ≤ off && off < 0x078 then (m.res.getD ((off - 0x048) / 8) 0).toNat
  else 0

/-- A read of n bytes of device-register space; what a window gives, whose device the manual does not describe, is open (log entry
53); `salt` tells apart the reads of one instruction. -/
def State.deviceLoad (s : State) (salt pa n : Nat) : Nat :=
  let part := fun (w : Nat) => w / 2 ^ (8 * (pa % 8)) % 2 ^ (8 * n)
  if Config.mailboxPage ≤ pa && pa < Config.mailboxPage + 4096 then
    part (s.mailbox.word ((pa - Config.mailboxPage) / 8 * 8))
  else
    match s.controlAt pa with
    | some (p, off) => part (p.controlWord (off / 8 * 8))
    | none => Config.windowValue (64 * s.free + salt) pa % 2 ^ (8 * n)

/-- A write of device-register space, as the event that it is; none where no register of the manual takes it: the write of a window
leaves the package's state as it is (log entry 53), one of another size than 8 bytes is ignored (04 R87; log entry 24). -/
def State.deviceStore (s : State) (pa n v : Nat) : Option Instr :=
  if n != 8 then none
  else if Config.mailboxPage ≤ pa && pa < Config.mailboxPage + 4096 then
    some (if pa - Config.mailboxPage = 0x038 then .doorbell (BitVec.ofNat 64 v) else .registerWrite pa (BitVec.ofNat 64 v))
  else
    match s.controlAt pa with
    | none => none
    | some (p, off) =>
      some (if off = 0x018 then .failack p.num (BitVec.ofNat 64 v)
        else if 0x100 ≤ off && off < 0x200 && off % 16 == 0 then .submit p.num ((off - 0x100) / 16) (BitVec.ofNat 64 v)
        else .registerWrite pa (BitVec.ofNat 64 v))

end Sys2Proof.Machine
end

