-- ==== Sys2Proof/Machine/Firn.lean ====
section
/-!
DEFINITION. Coherence as events of its own (20 R367 to R381): registration and eviction, forwarded reads, the home directory,
recalls; the companion's accesses (15 R334, 20 R380).
-/
namespace Sys2Proof.Machine

/-- SLICE_REGISTRATION (20 R367): a core's D word is registered at its die's slice. -/
def execSliceRegistration (core key : Nat) (s : State) : Host.Outcome State Fault Refusal := .next (s.registerWord core key false)

/-- L1_EVICTION (20 R367; 07 R162; 10 R244): every word of the line leaves the core's L1, written bytes to the slice. -/
def execL1Eviction (core line : Nat) (s : State) : Host.Outcome State Fault Refusal :=
  .next (s.evictLine core line)

/-- FORWARDED_READ (20 R369): a core's read of a word that another core of its die holds registered: the word reaches its L1
in state V. -/
def execForwardedRead (core key : Nat) (s : State) : Host.Outcome State Fault Refusal :=
  .next (if (s.registrants key (some core)).any (fun c => coreDie c == coreDie core) && ((s.core core).word? key).isNone then
      s.fillWord core (s.partAt (4 * key)) false key
    else s)

/-- DIRECTORY_REQUEST (20 R373 to R375): the home directory serves a request of die `holder`, or of the companion, 4. -/
def execDirectoryRequest (holder : Nat) (own : Bool) (line : Nat) (s : State) : Host.Outcome State Fault Refusal :=
  .next (if holder ≤ 4 && memoryRange (128 * line) 128 then s.dirRequest holder own line else s)

/-- 20 R376: what two sibling nodes merge into; whether the home slices hold a line of a U sibling is open (log entry 3). -/
def mergedState (free : Nat) (a b : Node) : Option (NodeState × BitVec 5) :=
  match a.st, b.st with
  | .u, .u => some (.u, 0)
  | .s, .s => some (.s, a.hold ||| b.hold)
  | .o, .o => if a.hold == b.hold then some (.o, a.hold) else none
  | .u, st => if Config.freeBool free && (st == .o || st == .s) then some (st, b.hold) else none
  | st, .u => if Config.freeBool free && (st == .o || st == .s) then some (st, a.hold) else none
  | _, _ => none

/-- 20 R376: a node has gone without a state change for the die's quiet interval. -/
def Die.isQuiet (d : Die) (n : Node) : Bool := n.changed + d.quiet ≤ d.cycle

/-- NODE_MERGE (20 R376): the node at a line and its sibling merge, once both are quiet. -/
def execNodeMerge (die base : Nat) (s : State) : Host.Outcome State Fault Refusal :=
  let d := s.die die
  .next (match d.nodes.find? (fun n => n.base == base) with
    | none => s
    | some a =>
      let lo := base / 2 ^ (a.size + 1) * 2 ^ (a.size + 1)
      let sib := if base = lo then base + 2 ^ a.size else lo
      match d.nodes.find? (fun n => n.base == sib && n.size == a.size) with
      | none => s
      | some b =>
        if a.size ≥ 9 || !d.isQuiet a || !d.isQuiet b then s
        else
          match mergedState s.free a b with
          | none => s
          | some (st, hold) =>
            let n : Node := { base := lo, size := a.size + 1, st := st, hold := hold,
                              changed := if a.st == b.st then max a.changed b.changed else d.cycle }
            (s.modDie die (fun d => d.putNode n)).count die (s.partAt (128 * lo)) (fun c => { c with merges := sat48 (c.merges + 1) }))

/-- DIRECTORY_EVICTION (20 R378): every holder of a node is recalled, as for an ownership request of the home die; the node
leaves the directory. -/
def execDirectoryEviction (die base : Nat) (s : State) : Host.Outcome State Fault Refusal :=
  .next (match (s.die die).nodes.find? (fun n => n.base == base) with
    | none => s
    | some n =>
      let s := if n.st == .o then
          ((n.others die).foldl (fun s h => s.recallNode die h n false) s).recallLines die n.base (2 ^ n.size) false true
        else s
      (s.modDie die (fun d => { d with nodes := d.nodes.filter (fun x => x.base != base) })).count die (s.partAt (128 * base))
        (fun c => { c with dirEvict := sat48 (c.dirEvict + 1) }))

/-- RECALL (20 R381): a recall of a node that a die owns reaches the die's slices. -/
def execRecall (die base : Nat) (sharing : Bool) (s : State) : Host.Outcome State Fault Refusal :=
  let home := homeDie (128 * base)
  .next (match (s.die home).nodes.find? (fun n => n.base == base) with
    | none => s
    | some n => if n.st == .o && n.hold.getLsbD die && die < 4 then s.recallNode home die n sharing else s)

/-! ### The companion (15 R334, 20 R380, 21 R401) -/

/-- 15 R334, 20 R380: the companion reads bytes at the home slices, as a sharer. -/
def State.outerRead (s : State) (pa n : Nat) : State :=
  (uniq ((List.range n).map (fun i => (pa + i) / 128))).foldl (fun s line => s.share_ 4 line) s

/-- COMPANION_WRITE (15 R334, 20 R380; 21 R401): a SYNC store at PKG; in device-register space, the write that its register
takes, if one does; while the link is down, none. -/
def execCompanionWrite (pa : Nat) (bytes : List Byte) (s : State) : Host.Outcome State Fault Refusal :=
  if s.linkDown || bytes.isEmpty then .next s
  else if memoryRange pa bytes.length then .next (s.outerBytes pa bytes)
  else if isDevice pa then
    .next { s with agenda := (s.deviceStore pa bytes.length (natOfBytes bytes)).toList ++ s.agenda }
  else .fault (.notPopulated pa)

/-- COMPANION_READ (15 R334; 25 R472): a SYNC load at PKG; a read of poison returns an error response, no bytes. -/
def execCompanionRead (pa n : Nat) (s : State) : Host.Outcome State Fault Refusal :=
  if s.linkDown || n = 0 then .next { s with bus := [] }
  else if memoryRange pa n then
    let s := s.outerRead pa n
    .next { s with bus := if (List.range n).any (fun i => s.poisonAt (pa + i)) then [] else s.bytes pa n }
  else if isDevice pa then
    .next { s with bus := bytesOfNat n (s.deviceLoad 0 pa n) }
  else .fault (.notPopulated pa)

end Sys2Proof.Machine
end

