-- ==== Sys2Proof/Machine/Stops.lean ====
section
/-!
DEFINITION. Stops (23 R427, R431 to R433): stop sites, triggers, the set that a stop halts.
-/
namespace Sys2Proof.Machine

/-- 23 R431: a split has been asked to stop. -/
def StopMark.due (m : StopMark) : Bool := m == .asked || m == .boundary

/-- 23 R431: mark a split of a set that is to stop: at its next stop site; one that does not run, at the clause boundary where it
stands or that it reaches next. -/
def Split.ask (sp : Split) : Split :=
  if sp.stop == .stopped || sp.stop.due then sp
  else if sp.spilled || (sp.state != .ready && sp.state != .inTrap) then { sp with stop := if sp.word == 0 then .stopped else .boundary }
  else { sp with stop := .asked }

/-- 23 R433: a stop of a set is under way: in each of its groups that still runs some split has been asked, or has stopped. -/
def State.stopping (s : State) (gids : List Nat) : Bool :=
  let gs := s.groups.filter (fun g => gids.contains g.gid && !g.splits.isEmpty)
  !gs.isEmpty && gs.all (fun g => g.splits.any (fun x => x.stop.due || x.stop == .stopped || x.stop == .stepping))

/-- Ask every split of a set of groups to stop. -/
def State.askStop (s : State) (gids : List Nat) : State :=
  { s with groups := s.groups.map (fun (g : Group) =>
      if gids.contains g.gid then { g with splits := g.splits.map Split.ask } else g) }

/-- 23 R429: the groups of a partition, of one launch of it, or of one group, by STOPDOM. -/
def State.stopSet (s : State) (part dom ticket gid : Nat) : List Nat :=
  (s.groups.filter (fun g => match s.wg? g.wgKey with
    | none => false
    | some w => w.part == part && (match dom with
      | 0 => g.gid == gid
      | 1 => w.ticket == ticket
      | _ => true))).map (·.gid)

/-- 23 R431, R435, R437: report a stop: its record, the trace copy, the snapshot. -/
def State.reportStop (s : State) (part : Nat) (r : ErrorRecord) : State :=
  let s := s.record r
  let p := s.partOf part
  let s := if p.obs.trace.getLsbD 1 then s.ringPut p p.obs.tbuf r.toBytes else s
  if s.snap.onStop then s.snapTrigger else s

/-- 23 R431, R433: a stop of a set begins, unless one is under way there. -/
def State.beginStop (s : State) (part : Nat) (gids : List Nat) (r : ErrorRecord) : State :=
  if s.stopping gids then s else (s.reportStop part r).askStop gids

/-- 23 R429: debug register n matches a stop site. -/
def bpMatches (bp : DWord × Word) (site : Word × Word) : Bool :=
  bp.1.getLsbD 63 && bits bp.1.toNat 47 16 == site.2.toNat && bp.2 == site.1

/-- SKIP of a debug register. -/
def bpSkip (bp : DWord × Word) : Nat := bp.1.toNat % 65536

/-- 23 R431: an enabled debug register with SKIP at zero matches the split's stop site. -/
def State.bpHits (s : State) (c : Ctx) : Bool :=
  match s.siteOf c.w c.sp with
  | none => false
  | some site =>
    let o := (s.partOf c.w.part).obs
    o.bken && o.bps.any (fun b => bpMatches b site && bpSkip b == 0)

/-- 23 R431: the debug registers that match the split's stop site count down. -/
def State.bpCount (s : State) (c : Ctx) : State :=
  match s.siteOf c.w c.sp with
  | none => s
  | some site =>
    if (s.partOf c.w.part).obs.bken then
      s.modPart c.w.part (fun p => { p with obs := { p.obs with bps := p.obs.bps.map (fun b =>
        if bpMatches b site && bpSkip b != 0 then (b.1 - 1#64, b.2) else b) } })
    else s

/-- 23 R431: the split triggers a stop at its stop site. -/
def State.triggerStop (s : State) (c : Ctx) (tag : Nat) : State :=
  let site := s.siteOf c.w c.sp
  let r := { s.groupRecord c.w c.g c.sp 0x0003 0 c.sp.mask with
    spv := site.isSome, imageId := (site.map (·.1)).getD 0, ordinal := (site.map (·.2)).getD 0, paddr := tag }
  let dom := (s.partOf c.w.part).obs.stopdom
  (s.beginStop c.w.part (s.stopSet c.w.part dom c.w.ticket c.g.gid) r).modSplit c.g.gid c.sp.id (fun x => { x with stop := .stopped })

/-- 23 R432: the split was restarted at this stop site. -/
def StopMark.restarted (m : StopMark) : Bool := m == .resumed || m == .stepping

/-- BKPT (08 R182): the stop at this safe point, or no effect. -/
def execBkpt (x : Args) (s : State) : Host.Outcome State Fault Refusal :=
  issue .bkpt x s (fun c _ =>
    if (s.partOf c.w.part).obs.bken && !c.sp.stop.restarted then .wait (s.triggerStop c x.a.toNat) .none else .done s)

/-- The tag of a BKPT at the split's word. -/
def Split.bkptTag (sp : Split) : Option Nat :=
  match decodeAt sp.clause sp.word with
  | .ok (.bkpt x, _) => some x.a.toNat
  | _ => none

/-- 23 R431: a stop is due before the split issues at its word. -/
def State.stopDue (s : State) (c : Ctx) : Bool :=
  (s.siteOf c.w c.sp).isSome && (c.sp.stop.due || (c.sp.stop == .running && s.bpHits c))

/-- STOP_AT_SITE (23 R431): at a stop site the split stops when it has been asked to, or triggers the stop, with the tag of a BKPT
that stands there (08 R182); asked, it may also stop at a clause boundary, and one that did not run when
it was asked does not pass it. -/
def execStopAtSite (g sid : Nat) (s : State) : Host.Outcome State Fault Refusal :=
  .next (match s.ctx? g sid with
    | none => s
    | some c =>
      if c.sp.stop.due && (c.sp.word == 0 || (s.siteOf c.w c.sp).isSome) then
        s.modSplit g sid (fun x => { x with stop := .stopped })
      else if c.mayMove && (c.sp.state == .ready || c.sp.state == .inTrap) && s.stopDue c then
        s.triggerStop c (c.sp.bkptTag.getD 0)
      else if c.mayMove && c.sp.stop == .running && c.sp.bkptTag.isSome && (s.partOf c.w.part).obs.bken then
        s.triggerStop c (c.sp.bkptTag.getD 0)
      else s)

/-- 23 R432: RESUME of a split. -/
def State.resumeSplit (s : State) (w : Workgroup) (sp : Split) : Split :=
  if sp.stop == .running then sp
  else { sp with stop := if sp.stop == .stopped && (s.siteOf w sp).isSome then .resumed else .running }

/-- 23 R432: STEP of a split. -/
def State.stepSplit (s : State) (w : Workgroup) (sp : Split) : Split :=
  { sp with stop := if sp.stop == .stopped && (s.siteOf w sp).isSome then .stepping else .asked }

end Sys2Proof.Machine
end

