-- ==== Sys2Proof/Machine/Moraine.lean ====
section
/-!
DEFINITION. The Moraine log and its replay (23 R440 to R442): the events that homes perform are logged, or matched.
-/
namespace Sys2Proof.Machine

/-- 23 R440: the home of a memory key: die × 256 + slice, or 1,024 + core for a scratchpad bank. -/
def homeOf (key : Nat) : Nat :=
  if isScratch key then 1024 + keyCore key
  else if isGlobal key then homeDie key * 256 + (Config.homeSlice (key / 128)).val
  else (key - 2 ^ 57) / 2 ^ 26 % 4 * 256 + (Config.homeSlice (key / 128)).val

/-- 01 R18: the CORE index that holds a physical core's work, as the log names it. -/
def State.coreIndexAt (s : State) (phys : Nat) : Nat :=
  match s.wgs.find? (fun w => w.phys == phys) with
  | some w => w.coreIndex
  | none => 0

/-- 23 R440: ADDR of a key; a carve-out byte by its offset (log entry 46). -/
def State.logAddr (s : State) (key : Nat) : DWord :=
  if isScratch key then BitVec.ofNat 64 (s.coreIndexAt (keyCore key) * 2 ^ 56 + key % 2 ^ 21)
  else BitVec.ofNat 64 (if isGlobal key then key else key % 2 ^ 26)

/-- An event at a home: its kind and context, its key, and its value. -/
structure Event where
  kind : Nat
  lane : Nat
  group : Nat
  wg : Nat
  ticket : Nat
  home : Nat
  addr : DWord
  value : DWord
  deriving DecidableEq, Repr

/-- An event of an instruction's lane at a key. -/
def State.event (s : State) (c : Ctx) (kind lane key value : Nat) : Event :=
  { kind := kind, lane := lane, group := c.g.groupId, wg := c.w.wg, ticket := c.w.ticket, home := homeOf key,
    addr := s.logAddr key, value := BitVec.ofNat 64 value }

/-- 23 R441: an event matches an entry in KIND, context, lane and ADDR. -/
def Event.hits (e : Event) (x : LogEntry) : Bool :=
  e.kind == x.kind && e.lane == x.lane && e.group == x.group && e.wg == x.wg && e.ticket % 2 ^ 32 == x.ticket && e.addr == x.addr

/-- The log of a home. -/
def logOf (home : Nat) (l : List (Nat × List LogEntry)) : List LogEntry := (lastOf home l).getD []
/-- Put a home's log. -/
def setLog (home : Nat) (x : List LogEntry) (l : List (Nat × List LogEntry)) : List (Nat × List LogEntry) :=
  let rest := l.filter (fun y => y.1 != home)
  if x.isEmpty then rest else insertBy (·.1) (home, x) rest

/-- What a home does with an arriving event (23 R441). -/
inductive Match where
  | perform
  | hold
  | diverge
  deriving DecidableEq, Repr

/-- 23 R441: match an event against a home's log. -/
def Event.against (e : Event) (l : List LogEntry) : Match :=
  match l with
  | [] => .diverge
  | x :: rest => if e.hits x then .perform else if (rest.take 63).any e.hits then .hold else .diverge

/-- The replay of a partition that still presents its log. -/
def State.replayOf (s : State) (part : Nat) : Option Replay := (s.part? part).bind (·.replay)

/-- 25 R465: ENGINE of a home. -/
def homeEngine (home : Nat) : Nat := if home < 1024 then 5 * 2 ^ 24 + home % 256 else engineOf 6 (home - 1024)
/-- The die of a home. -/
def homeDieOf (home : Nat) : Nat := if home < 1024 then home / 256 else coreDie (home - 1024)

/-- 23 R442: the last safe point of the split of a group that holds a lane. -/
def State.lastSite (s : State) (part ticket wg group lane : Nat) : Option (Word × Word) :=
  match s.wgs.find? (fun w => w.part == part && w.ticket % 2 ^ 32 == ticket && w.wg == wg) with
  | none => none
  | some w =>
    match (s.groupsOf w.key).find? (fun g => g.groupId == group) with
    | none => none
    | some g => (g.splits.find? (fun x => x.mask.getLsbD lane)).bind (·.site)

/-- 23 R431, R442: a replay stops every group of its partition; the stop's record names the safe point, where there is one. -/
def State.stopPart (s : State) (part : Nat) (site : Option (Word × Word)) : State :=
  s.beginStop part (s.stopSet part 2 0 0)
    { s.plainRecord part ((s.partOf part).pdie.headD 0) 0x0003 0 with
      engine := 12 * 2 ^ 24, spv := site.isSome, imageId := (site.map (·.1)).getD 0, ordinal := (site.map (·.2)).getD 0 }

/-- 23 R442: the first divergence: its record, then the stop, or in free-run nothing more. -/
def State.diverge (s : State) (part home seq ticket wg group lane : Nat) (addr : DWord) : State :=
  match s.replayOf part with
  | none => s
  | some r =>
    let site := s.lastSite part (ticket % 2 ^ 32) wg group lane
    let rec_ := { s.plainRecord part (homeDieOf home) 0xB301 0 with
      ctxv := true, group := group, ticket := ticket, wg := wg, lanes := laneBit lane, engine := homeEngine home, addr := seq,
      paddr := addr.toNat, spv := site.isSome, imageId := (site.map (·.1)).getD 0, ordinal := (site.map (·.2)).getD 0 }
    let s := (s.record rec_).modPart part (fun p => { p with replay := none, logOff := p.logOff || r.freeRun })
    if r.freeRun then s else s.stopPart part site

/-- 23 R442: the run has reached the end of its interval. -/
def State.replayDone (s : State) (part : Nat) (r : Replay) : State :=
  let s := (s.record (s.plainRecord part 0 0x0005 0)).modPart part (fun p => { p with replay := none })
  if r.freeRun then s else s.stopPart part none

/-- 23 R441: an event is matched at its home during a replay; a held one leaves the state as it is. -/
def State.matchEvent (s : State) (part : Nat) (e : Event) : State :=
  match s.replayOf part with
  | none => s
  | some r =>
    let l := logOf e.home r.log
    match e.against l, l with
    | .hold, _ => s
    | .perform, x :: rest =>
      if x.value == e.value then
        let r := { r with log := setLog e.home rest r.log }
        let s := s.modPart part (fun p => { p with replay := some r })
        if r.log.isEmpty then s.replayDone part r else s
      else s.diverge part e.home x.seq e.ticket e.wg e.group e.lane e.addr
    | _, _ => s.diverge part e.home ((l.head?.map (·.seq)).getD 0) e.ticket e.wg e.group e.lane e.addr

/-- 23 R440: an event is appended to its home's log under the latest checkpoint. -/
def State.appendLog (s : State) (part : Nat) (e : Event) : State :=
  s.modPart part (fun p =>
    match p.ckpts.reverse with
    | [] => p
    | k :: earlier =>
      let l := logOf e.home k.log
      let x : LogEntry := { seq := l.length, kind := e.kind, lane := e.lane, group := e.group, wg := e.wg,
                            ticket := e.ticket % 2 ^ 32, addr := e.addr, value := e.value }
      { p with ckpts := ({ k with log := setLog e.home (l ++ [x]) k.log } :: earlier).reverse })

/-- 23 R440, R441: a home performs an event: it is logged, or in a replay matched. -/
def State.logEvent (s : State) (part : Nat) (e : Event) : State :=
  let p := s.partOf part
  if p.replay.isSome then s.matchEvent part e
  else if p.obs.ckt = 0 || p.logOff || p.ckpts.isEmpty then s
  else s.appendLog part e

/-- Log events in order. -/
def State.logAll (s : State) (part : Nat) (es : List Event) : State := es.foldl (fun s e => s.logEvent part e) s

/-- 23 R441: some event of an instruction would be held at its home, the events before it performed. -/
def replayHolds (log : List (Nat × List LogEntry)) (es : List Event) : Bool :=
  match es with
  | [] => false
  | e :: rest =>
    match e.against (logOf e.home log) with
    | .hold => true
    | .perform => replayHolds (setLog e.home ((logOf e.home log).drop 1) log) rest
    | .diverge => false

/-- 23 R441: the events of an instruction hold it at issue. -/
def State.heldByReplay (s : State) (c : Ctx) (es : List Event) : Bool :=
  match s.replayOf c.w.part with
  | none => false
  | some r => replayHolds r.log es

/-- 23 R438, R440, R441: the partition logs or replays: it has checkpoints, or a replay. -/
def State.observes (s : State) (part : Nat) : Bool :=
  (s.partOf part).replay.isSome || !(s.partOf part).ckpts.isEmpty

/-- The key of a lane's access at a byte, where this package holds it. -/
def LaneAcc.keyAt (a : LaneAcc) (i : Nat) : Option Nat :=
  match a.places[i]? with
  | some (.fixed k) => some k
  | some (.home pa _ _ _) => some pa
  | _ => none

/-- 23 R440: the events of an instruction's elements, each with its lane's access, its first byte there and its value; loads
and stores are logged of SYNC accesses only. -/
def State.accEvents (s : State) (c : Ctx) (kind : Nat) (l : List (LaneAcc × Nat × Nat)) : List Event :=
  l.filterMap (fun a =>
    if kind > 2 || a.1.q.cls == 2 then (a.1.keyAt a.2.1).map (fun k => s.event c kind a.1.lane k a.2.2) else none)

/-- 23 R440: the elements that an instruction has performed are logged, or matched. -/
def State.logElems (s : State) (c : Ctx) (kind : Nat) (l : List (LaneAcc × Nat × Nat)) : State :=
  if s.observes c.w.part then s.logAll c.w.part (s.accEvents c kind l) else s

/-- 23 R438: a byte of global memory lies in a region that the latest checkpoint has still to copy. -/
def State.pendingAt (s : State) (part : Nat) (p : Place) : Bool :=
  match p with
  | .home pa _ _ _ => (s.partOf part).ckpts.any (fun k => k.pending.any (fun r => r.2.1 ≤ pa && pa < r.2.1 + r.2.2))
  | _ => false

/-- What holds an access at issue: what `accessHold` finds, an order that a replay keeps (23 R441), a region that a
checkpoint has still to copy (23 R438). -/
def State.holdOf (s : State) (c : Ctx) (l : List LaneAcc) (write : Bool) (kind : Nat) (es : List (LaneAcc × Nat)) :
    Option Hold :=
  match s.accessHold c l write with
  | some h => some h
  | none =>
    if !s.observes c.w.part then none
    else if s.heldByReplay c (s.accEvents c kind (es.map (fun e => (e.1, e.2, 0)))) then some .memory
    else if write && l.any (fun a => a.places.any (s.pendingAt c.w.part)) then some .memory
    else none

/-- REPLAY_EVENT (23 R441). -/
def execReplayEvent (part home : Nat) (kind ticket wg group lane : Nat) (addr value : DWord) (s : State) :
    Host.Outcome State Fault Refusal :=
  .next (s.matchEvent part
    { kind := kind, lane := lane, group := group, wg := wg, ticket := ticket, home := home, addr := addr, value := value })

/-- REPLAY_HOLD_TIMEOUT (23 R441, R442): the entry that a home awaits has not come. -/
def execReplayHoldTimeout (part home : Nat) (s : State) : Host.Outcome State Fault Refusal :=
  .next (match s.replayOf part with
    | none => s
    | some r =>
      match logOf home r.log with
      | [] => s
      | x :: _ => s.diverge part home x.seq x.ticket x.wg x.group x.lane x.addr)

end Sys2Proof.Machine
end

