-- ==== Sys2Proof/Machine/Loads.lean ====
section
/-!
DEFINITION. Loads, stores, pointer moves, reservations and prefetch (10 R231 to R245), CBEXP (09 R213).
-/
namespace Sys2Proof.Machine

/-! ### The elements of LD and ST (10 R231 to R233) -/

/-- 10 R232: bits of a memory element: of t through `b8`, else of the pointer's format. -/
def memBits (m t : Nat) : Nat := if m = 0 then fmtWidth t else fmtWidth m
/-- 10 R232: a nibble access. -/
def isNibble (m t : Nat) : Bool := memBits m t == 4

/-- An element within a lane's checked bytes: its first byte, its bytes, and 0 or 1 for a nibble, 2 for none. -/
structure Span where
  first : Nat
  count : Nat
  nib : Nat
  deriving DecidableEq, Repr

/-- 10 R232: the elements of a lane at offset `off`. -/
def spansOf (m t off n : Nat) : List Span :=
  (List.range n).map (fun k =>
    if isNibble m t then ⟨(off % 2 + k) / 2, 1, (off + k) % 2⟩
    else ⟨k * (memBits m t / 8), memBits m t / 8, 2⟩)

/-- 10 R232: the byte offset and byte count checked for a lane. -/
def checkedBytes (m t off n : Nat) : Nat × Nat :=
  if isNibble m t then (off / 2, (off + n - 1) / 2 - off / 2 + 1) else (off, n * (memBits m t / 8))

/-- The bits of an element from its bytes. -/
def spanBits (sp : Span) (bs : List Byte) : Nat :=
  let x := natOfBytes bs
  if sp.nib < 2 then x / 2 ^ (4 * sp.nib) % 16 else x

/-- 10 R233: what LD delivers for a memory element. -/
def loadValue (fmode : Word) (m t raw : Nat) : Flagged :=
  let r := if m = 0 then (raw, 0) else convertFmt (ftzOf fmode) (rmOf fmode) t m raw
  (extendElem t r.1, r.2)

/-- 10 R233: what ST stores for a register element. -/
def storeValue (fmode : Word) (m t raw : Nat) : Flagged :=
  let raw := raw % 2 ^ fmtWidth t
  if m = 0 then (raw, 0) else convertFmt (ftzOf fmode) (rmOf fmode) m t raw

/-- 10 R235: DeviceOK, as the code it raises. -/
def deviceOk (t n : Nat) (q : Ptr) (addr : Nat) : Option Nat :=
  let z := memBits q.fmt t
  if q.space = 5 && !(n == 1 && (z == 32 || z == 64) && addr % (z / 8) == 0 && (q.fmt == 0 || q.fmt == t)) then some 0x200C
  else none

/-- The pointer of a lane: `p`A, or the quad `v`A. -/
def Ctx.laneAsk (c : Ctx) (x : Args) (vp : Bool) (l off n : Nat) : Ask :=
  if vp then { lane := l, q := Ptr.ofBits (c.quad x.a.toNat l), valid := c.quadTag x.a.toNat l, off := off, n := n }
  else { lane := l, q := c.ptr x.a.toNat, valid := true, off := off, n := n }

/-- The lanes of LD or ST, checked. -/
def Ctx.ldstLanes (c : Ctx) (s : State) (x : Args) (vp : Bool) (act : List Nat) (a : Access) : List LaneTrap × List LaneAcc :=
  let t := x.c.toNat
  let n := countOf (x.mod.toNat % 4)
  splitLanes (act.map (fun l =>
    let k := c.laneAsk x vp l 0 0
    let b := checkedBytes k.q.fmt t (c.offset x l) n
    s.checkLane c a (fun q => fmtPlain q.fmt) (deviceOk t n) { k with off := b.1, n := b.2 }))

/-- The bits of an element that a read returns at once; none for one that a response brings. -/
def State.spanRead (s : State) (c : Ctx) (a : LaneAcc) (sp : Span) : Option Nat :=
  match a.places with
  | .device pa :: _ => some (s.deviceLoad a.lane pa a.places.length)
  | _ => (s.readPlaces c a.q ((a.places.drop sp.first).take sp.count)).map (spanBits sp)

/-- What a load gives one element: a value with its flags, or a remote element. -/
structure LoadElem where
  lane : Nat
  reg : Nat
  raw : Option Nat
  far : RemoteElem
  /-- Bytes of a far element that were read at once, by virtual address. -/
  here : List (Nat × Byte)
  deriving DecidableEq, Repr

/-- One element of a lane of a load. -/
def State.loadElem (s : State) (c : Ctx) (a : LaneAcc) (t reg : Nat) (sp : Span) : LoadElem :=
  let va := a.q.base + a.off + sp.first
  let raw := s.spanRead c a sp
  let here := if raw.isSome then [] else
    ((List.range sp.count).zip ((a.places.drop sp.first).take sp.count)).filterMap (fun (i, p) =>
      (s.readPlace c a.q p).map (fun b => (va + i, b)))
  { lane := a.lane, reg := reg, raw := raw, here := here,
    far := { lane := a.lane, reg := reg, va := va, bytes := sp.count, nibble := sp.nib, mfmt := a.q.fmt, tfmt := t } }

/-- The `v` registers that an element of type t writes. -/
def elemWrites (t reg l val : Nat) : List (Nat × Word) := vPut (fmtWide t) reg l val

/-- Let a flag-counted load be outstanding with what it has read, its responses awaited, and its acquire made now or
after them (21 R395). -/
def State.pendLoad (s : State) (c : Ctx) (x : Args) (as : List LaneAcc) (es : List LoadElem) (t : Nat)
    (mk : Nat → List LaneAcc → Packet → Packet) : State :=
  let far := es.filter (fun e => e.raw.isNone)
  let farLanes := as.filter (fun a => far.any (fun e => e.lane == a.lane))
  let r := s.sendLines c s.serial farLanes mk
  let vals := es.filterMap (fun e => e.raw.map (fun n => (e, loadValue c.fmode e.far.mfmt t n)))
  let sc := match widestSync as with
    | some n => n + 1
    | none => 0
  let op := { c.newOp x s.serial with
    vWrites := vals.flatMap (fun v => elemWrites t v.1.reg v.1.lane v.2.1),
    fstat := orFlags (vals.map (·.2.2)), awaits := r.2, got := es.flatMap (·.here), elems := far.map (·.far),
    acq := if far.isEmpty then 0 else sc, tier2 := as.any (·.overLink) }
  let s := r.1.pend c op
  if far.isEmpty then s.acquireLanes c as else s

/-- A load packet of a line. -/
def loadPacket (line : Nat) (mine : List LaneAcc) (p : Packet) : Packet :=
  { p with kind := 0, bytes := (uniq (mine.flatMap (fun a => a.farIn line))).map (fun o => (o, 0)) }

/-- What the faulting lanes do when the others are done. -/
def afterLanes (s : State) (ts : List LaneTrap) : Eff := if ts.isEmpty then .done s else .trap s ts 0

/-- LD in either form (10 R234). -/
def loadExec (o : Op) (vp : Bool) (x : Args) (s : State) : Host.Outcome State Fault Refusal :=
  issue o x s (fun c act =>
    let t := x.c.toNat
    let r := c.ldstLanes s x vp act .load
    if stopsAll r.1 || r.2.isEmpty then .trap s r.1 0
    else
      let n := countOf (x.mod.toNat % 4)
      let spans := r.2.flatMap (fun a => ((List.range n).zip (spansOf a.q.fmt t (c.offset x a.lane) n)).map (fun k => (a, k.1, k.2)))
      match s.holdOf c r.2 false 1 (spans.map (fun e => (e.1, e.2.2.first))) with
      | some h => .held h
      | none =>
        let bad := s.poisonTraps r.2
        if !bad.isEmpty then .trap s (r.1 ++ bad) 0
        else
          let s := s.prepRead c r.2
          let es := spans.map (fun e => (e, s.loadElem c e.1 t (x.d.toNat + e.2.1 * regsOf t) e.2.2))
          let log := es.filterMap (fun e => e.2.raw.map (fun n => (e.1.1, e.1.2.2.first, n)))
          afterLanes ((s.logElems c 1 log).pendLoad c x r.2 (es.map (·.2)) t loadPacket) r.1)

/-- LD (10 R234). -/
def execLd (x : Args) (s : State) : Host.Outcome State Fault Refusal := loadExec .ld false x s
/-- LD in vector-pointer form (10 R234). -/
def execLdVp (x : Args) (s : State) : Host.Outcome State Fault Refusal := loadExec .ldVp true x s

/-! ### ST -/

/-- One element that a store writes: its lane's access, its place in it, and its bits. -/
structure StoreElem where
  a : LaneAcc
  sp : Span
  val : Nat
  deriving DecidableEq, Repr

/-- The bytes of a stored element with their places. -/
def StoreElem.writes (e : StoreElem) : List (Place × Byte) :=
  ((e.a.places.drop e.sp.first).take e.sp.count).zip (bytesOfNat e.sp.count e.val)

/-- 10 R236: perform one element's store where it is not far; lanes and elements come in ascending order. -/
def State.storeElem (s : State) (c : Ctx) (e : StoreElem) : State :=
  if e.sp.nib < 2 then
    match (e.a.places.drop e.sp.first).head? with
    | some p => s.writeNibble c e.a.q p (e.sp.nib == 1) e.val
    | none => s
  else s.writePlaces c e.a.q none e.writes

/-- The place in a store packet of a byte at an offset of the line, or of one of its nibbles (10 R236): offsets from 128 up stand for
low nibbles, from 256 up for high ones. -/
def packetPlace (off nib : Nat) : Nat := if nib < 2 then 128 * (1 + nib) + off else off

/-- 21 R386: a line's store packet: the bytes and nibbles of its lanes' elements, ascending, a later one over an earlier. -/
def storePacket (es : List StoreElem) (line : Nat) (mine : List LaneAcc) (p : Packet) : Packet :=
  let far := es.flatMap (fun e => (e.writes.filterMap (fun w => match w.1 with
    | .far _ va _ _ => if va / 128 = line then some (packetPlace (va % 128) e.sp.nib, w.2) else none
    | _ => none)))
  { p with kind := 1, ordered := mine.any (fun a => a.sync && a.q.scope == 4),
           bytes := if far.all (fun f => f.1 < 128) then
               (far.foldl (fun (l : Assoc (Option Byte)) f => assocSet none f.1 (some f.2) l) []).map (fun kv => (kv.1, kv.2.getD 0))
             else far }

/-- The events that stores to device registers are (log entries 24, 53). -/
def State.deviceEvents (s : State) (es : List StoreElem) : List Instr :=
  es.filterMap (fun e => match e.a.places with
    | .device pa :: _ => s.deviceStore pa e.a.places.length e.val
    | _ => none)

/-- ST in either form (10 R234). -/
def storeExec (o : Op) (vp : Bool) (x : Args) (s : State) : Host.Outcome State Fault Refusal :=
  issue o x s (fun c act =>
    let t := x.c.toNat
    let r := c.ldstLanes s x vp act .store
    if stopsAll r.1 || r.2.isEmpty then .trap s r.1 0
    else
      let n := countOf (x.mod.toNat % 4)
      let vals := r.2.flatMap (fun a =>
        ((List.range n).zip (spansOf a.q.fmt t (c.offset x a.lane) n)).map (fun (k, sp) =>
          let v := storeValue c.fmode a.q.fmt t (c.vw (fmtWide t) (x.d.toNat + k * regsOf t) a.lane)
          (({ a := a, sp := sp, val := v.1 } : StoreElem), v.2)))
      let es := vals.map (·.1)
      match s.holdOf c r.2 true 2 (es.map (fun e => (e.a, e.sp.first))) with
      | some h => .held h
      | none =>
        let evs := s.deviceEvents es
        match s.releaseLanes c r.2 with
        | .error w => s.holdAcks c w
        | .ok s =>
          let s := es.foldl (fun s e => s.storeElem c e) (s.prepWrite c r.2)
          let s := s.logElems c 2 (es.map (fun e => (e.a, e.sp.first, e.val)))
          let s := (s.sendLines c s.serial r.2 (storePacket es)).1
          let s := { (s.addFlags c (orFlags (vals.map (·.2)))) with agenda := evs ++ s.agenda }
          afterLanes s r.1)

/-- ST (10 R234). -/
def execSt (x : Args) (s : State) : Host.Outcome State Fault Refusal := storeExec .st false x s
/-- ST in vector-pointer form (10 R234). -/
def execStVp (x : Args) (s : State) : Host.Outcome State Fault Refusal := storeExec .stVp true x s

/-! ### LDP and STP (10 R241) -/

/-- 10 R235: an access of any kind but LD and ST through SPACE 5. -/
def noDevice (q : Ptr) (_ : Nat) : Option Nat := if q.space = 5 then some 0x200C else none

/-- The accesses of LDP or STP: one, checked as the lowest lane, or one per lane; a fault of the one access is raised for
every lane of Active(S) (log entry 25). -/
def Ctx.pairLanes (c : Ctx) (s : State) (x : Args) (q : Bool) (act : List Nat) (a : Access) (more : Nat → Option Nat) :
    List LaneTrap × List LaneAcc :=
  let vp := x.mod.toNat ≥ 16
  let r := splitLanes ((if q then act else act.take 1).map (fun l =>
    s.checkLane c a (fun p => p.fmt == 0x20) (fun p addr => (noDevice p addr).orElse (fun _ => more l))
      (c.laneAsk x vp l (c.offset x l) 16)))
  if q then r else (r.1.flatMap (fun t => act.map (fun l => { t with lane := l })), r.2)

/-- 02 R30: an LDP through L1 reads its granule as a unit: the core's own words, or all of it from the slices. -/
def State.fillGranule (s : State) (core part : Nat) (k : Nat) : State :=
  (granuleWords k).foldl (fun s k =>
    match (s.core core).word? k with
    | none => s.fillWord core part false k
    | some w =>
      if w.st = .dirty then s.fillWord core part false k
      else s.modCore core (fun c => c.putWord { w with data := s.sliceWord k, have_ := 15, tag := s.tagAt (4 * k) })) s

/-- 02 R28, R31: the tag that an LDP reads. -/
def State.tagSeen (s : State) (c : Ctx) (a : LaneAcc) : Bool :=
  match a.places with
  | .fixed k :: _ => s.tagAt k
  | .home pa _ ord _ :: _ =>
    if a.q.way ord = .l1 then
      (granuleWords (pa / 4)).all (fun k => match (s.core c.w.phys).word? k with
        | some w => w.tag
        | none => s.tagAt pa)
    else s.tagAt pa
  | .far o va _ _ :: _ =>
    -- a copy that the die holds carries the tags; a response brings its own
    !s.farHeld c a.q (a.places.headD (.fixed 0)) ||
      ((List.range 4).all (fun i => match (s.core c.w.phys).word? (s.farKey c.w.phys c.w.part o (va + 4 * i)) with
        | some w => w.tag
        | none => ((s.remoteLine (coreDie c.w.phys) c.w.part va).map (fun r => r.tags.contains (va % 128))).getD false))
  | _ => true

/-- LDP in either form (10 R241). -/
def loadPtrExec (o : Op) (q : Bool) (x : Args) (s0 : State) : Host.Outcome State Fault Refusal :=
  issue o x s0 (fun c act =>
    let r := c.pairLanes s0 x q act .ldp (fun _ => none)
    if stopsAll r.1 || r.2.isEmpty then .trap s0 r.1 0
    else
      match s0.holdOf c r.2 false 1 (r.2.map (fun a => (a, 0))) with
      | some h => .held h
      | none =>
        let s := s0.prepRead c r.2
        let s := (wordsOf r.2 .l1).foldl (fun s k => s.fillGranule c.w.phys c.w.part k) s
        let bad := s0.poisonTraps r.2 ++ (r.2.filter (fun a => !s.tagSeen c a)).map (fun a => ⟨a.lane, 0x2006, none, none⟩)
        let bad := if q then bad else bad.flatMap (fun t => act.map (fun l => { t with lane := l }))
        if !bad.isEmpty then .trap s0 (r.1 ++ bad) 0
        else
          let here := r.2.filterMap (fun a => (s.readPlaces c a.q a.places).map (fun bs => (a, BitVec.ofNat 128 (natOfBytes bs))))
          let far := r.2.filter (fun a => !here.any (fun h => h.1.lane == a.lane))
          let s' := s.sendLines c s.serial far loadPacket
          let op := { c.newOp x s.serial with
            vWrites := if q then here.flatMap (fun h => quadPut x.d.toNat h.1.lane h.2) else [],
            vTags := if q then (here.filter (fun h => (Ptr.ofBits h.2).wf)).map (fun h => x.d.toNat / 4 * 64 + h.1.lane) else [],
            pWrites := if q then [] else here.map (fun h => (x.d.toNat, h.2)),
            awaits := s'.2,
            elems := far.map (fun a => { lane := a.lane, reg := x.d.toNat, va := a.q.base + a.off, bytes := 16, nibble := 2,
                                         mfmt := 0x20, tfmt := if q then 0x21 else 0x20 }),
            tier2 := r.2.any (·.overLink),
            acq := if far.isEmpty then 0 else (match widestSync r.2 with
              | some n => n + 1
              | none => 0) }
          let s := (s'.1.logElems c 1 (here.map (fun h => (h.1, 0, h.2.toNat)))).pend c op
          afterLanes (if far.isEmpty then s.acquireLanes c r.2 else s) r.1)

/-- LDP (10 R241). -/
def execLdp (x : Args) (s : State) : Host.Outcome State Fault Refusal := loadPtrExec .ldp false x s
/-- LDP.q (10 R241). -/
def execLdpQ (x : Args) (s : State) : Host.Outcome State Fault Refusal := loadPtrExec .ldpQ true x s

/-- 02 R30: write a granule and its tag. -/
def State.writePtr (s : State) (c : Ctx) (a : LaneAcc) (d : PtrBits) : State :=
  match a.places with
  | .fixed k :: _ => s.storePtr k d
  | .home pa _ ord _ :: _ =>
    match a.q.way ord with
    | .l1 => s.dirtyPtr c.w.phys c.w.part pa d
    | .slice => (s.sliceWrite c.w.phys (coreDie c.w.phys) (granuleWords (pa / 4))).storePtr pa d
    | .home => (s.sliceWrite c.w.phys (homeDie pa) (granuleWords (pa / 4))).storePtr pa d
  | _ => s

/-- STP in either form (10 R241). -/
def storePtrExec (o : Op) (q : Bool) (x : Args) (s : State) : Host.Outcome State Fault Refusal :=
  issue o x s (fun c act =>
    let d := fun (l : Nat) => if q then c.quad x.d.toNat l else c.p x.d.toNat
    let r := c.pairLanes s x q act .stp (fun l =>
      if q && !c.quadTag x.d.toNat l then some 0x2006 else if !(Ptr.ofBits (d l)).wf then some 0x2007 else none)
    if stopsAll r.1 || r.2.isEmpty then .trap s r.1 0
    else
      match s.holdOf c r.2 true 2 (r.2.map (fun a => (a, 0))) with
      | some h => .held h
      | none =>
        match s.releaseLanes c r.2 with
        | .error w => s.holdAcks c w
        | .ok s =>
          let s := r.2.foldl (fun s a => s.writePtr c a (d a.lane)) (s.prepWrite c r.2)
          let s := s.logElems c 2 (r.2.map (fun a => (a, 0, (d a.lane).toNat)))
          let s := (s.sendLines c s.serial r.2 (fun line mine p =>
            { p with kind := 1, tagged := true, ordered := mine.any (fun a => a.sync && a.q.scope == 4),
                     bytes := mine.flatMap (fun a => (a.farIn line).zip (bytesOfNat 16 (d a.lane).toNat)) })).1
          afterLanes s r.1)

/-- STP (10 R241). -/
def execStp (x : Args) (s : State) : Host.Outcome State Fault Refusal := storePtrExec .stp false x s
/-- STP.q (10 R241). -/
def execStpQ (x : Args) (s : State) : Host.Outcome State Fault Refusal := storePtrExec .stpQ true x s

/-! ### LDRES and STCND (10 R242 to R244) -/

/-- 10 R242: the further checks of LDRES and STCND. -/
def resvMore (z : Nat) (q : Ptr) (addr : Nat) : Option Nat :=
  (noDevice q addr).orElse (fun _ => if addr % z != 0 then some 0x200D else none)

/-- The lanes of LDRES or STCND, checked. -/
def Ctx.resvLanes (c : Ctx) (s : State) (x : Args) (act : List Nat) : List LaneTrap × List LaneAcc :=
  let t := x.c.toNat
  let z := fmtWidth t / 8
  splitLanes (act.map (fun l =>
    s.checkLane c .resv (fun q => q.fmt == 0 || q.fmt == t) (resvMore z) (c.laneAsk x false l (c.offset x l) z)))

/-- 10 R243: the reservation of a lane's access: through a SYNC pointer at the element's home, else in L1 where the access is. -/
def LaneAcc.resv (a : LaneAcc) : Reservation :=
  let p := a.places.headD (.fixed 0)
  { key := p.key, width := a.places.length, cancelled := 0,
    inL1 := match p with
      | .home _ _ ord _ => a.q.cls != 2 && a.q.way ord == .l1
      | _ => false }

/-- 10 R243: set, or with none clear, the reservation of a lane. -/
def Group.putResv (g : Group) (l : Nat) (r : Option Reservation) : Group :=
  let rest := g.resv.filter (fun kv => kv.1 != l)
  { g with resv := match r with
      | some r => insertBy (·.1) (l, r) rest
      | none => rest }

/-- The atomic packet of a line: each lane's element with its operand and compare value. -/
def atomicPacket (op width fmt : Nat) (operand compare : Nat → Nat) (line : Nat) (mine : List LaneAcc) (p : Packet) : Packet :=
  { p with kind := 2, op := op, width := width, fmt := fmt,
           ordered := op != 10 && mine.any (fun a => a.sync && a.q.scope == 4),
           lanes := mine.map (fun a => { lane := a.lane, off := (a.farIn line).headD 0,
                                         operand := BitVec.ofNat 64 (operand a.lane),
                                         compare := BitVec.ofNat 64 (compare a.lane) }) }

/-- The element that the response to a lane's atomic packet brings. -/
def answerElem (t reg l bytes : Nat) : RemoteElem :=
  { lane := l, reg := reg, va := 2 ^ 60 + 8 * l, bytes := bytes, nibble := 2, mfmt := 0, tfmt := t }

/-- 15 R338, 10 R244: clean words of an L1 that an LDRES reserves in are read anew: no write made before it lies after its value. -/
def State.dropClean (s : State) (core : Nat) (ks : List Nat) : State :=
  if ks.isEmpty then s
  else s.modCore core (fun c => { c with l1 := c.l1.filter (fun w => !(w.st == .valid && ks.contains w.key)) })

/-- LDRES (10 R243). -/
def execLdres (x : Args) (s : State) : Host.Outcome State Fault Refusal :=
  issue .ldres x s (fun c act =>
    let t := x.c.toNat
    let z := fmtWidth t / 8
    let r := c.resvLanes s x act
    if stopsAll r.1 || r.2.isEmpty then .trap s r.1 0
    else
      match s.holdOf c r.2 false 5 (r.2.map (fun a => (a, 0))) with
      | some h => .held h
      | none =>
        let bad := s.poisonTraps r.2
        if !bad.isEmpty then .trap s (r.1 ++ bad) 0
        else
          let s := (s.dropClean c.w.phys (wordsOf r.2 .l1)).prepRead c r.2
          let es := r.2.map (fun a =>
            let e := s.loadElem c a t x.d.toNat ⟨0, z, 2⟩
            if a.isFar then { e with raw := none, here := [], far := answerElem t x.d.toNat a.lane z }
            else { e with far := { e.far with mfmt := 0 } })
          let s := s.modGroup c.g.gid (fun g => r.2.foldl (fun g a => g.putResv a.lane (some a.resv)) g)
          let s := s.logElems c 5 ((r.2.zip es).filterMap (fun e => e.2.raw.map (fun n => (e.1, 0, n))))
          afterLanes (s.pendLoad c x r.2 es t (atomicPacket 10 z t (fun _ => 0) (fun _ => 0))) r.1)

/-- 10 R244: the status of a lane's STCND as its own reservation gives it: 0 while it holds. -/
def Group.resvStatus (g : Group) (a : LaneAcc) : Nat :=
  match (g.resv.find? (fun kv => kv.1 == a.lane)).map (·.2) with
  | none => 1
  | some r => if r.key == (a.places.headD (.fixed 0)).key && r.width == a.places.length then r.cancelled else 1

/-- 10 R244: one lane: store when its reservation holds, and clear it; the status. -/
def State.condLane (s : State) (c : Ctx) (a : LaneAcc) (val : Nat) : State × Nat :=
  let st := ((s.group? c.g.gid).map (fun g => g.resvStatus a)).getD 1
  let s := if st = 0 && !a.isFar then
      s.writePlaces c a.q (some (c.g.gid, a.lane)) (a.places.zip (bytesOfNat a.places.length val))
    else s
  (s.modGroup c.g.gid (fun g => g.putResv a.lane none), st)

/-- STCND (10 R244). -/
def execStcnd (x : Args) (s : State) : Host.Outcome State Fault Refusal :=
  issue .stcnd x s (fun c act =>
    let t := x.c.toNat
    let wide := fmtWide t
    let z := fmtWidth t / 8
    let r := c.resvLanes s x act
    if stopsAll r.1 || r.2.isEmpty then .trap s r.1 0
    else
      match s.holdOf c r.2 true 6 (r.2.map (fun a => (a, 0))) with
      | some h => .held h
      | none =>
        -- 15 R328: a STCND that stores releases before its stores
        let storing := r.2.filter (fun a => c.g.resvStatus a == 0)
        match s.releaseLanes c storing with
        | .error w => s.holdAcks c w
        | .ok s =>
          let s := s.prepWrite c storing
          let val := fun (l : Nat) => c.vw wide x.d.toNat l
          let out := r.2.foldl (fun (acc : State × List (LaneAcc × Nat)) a =>
            let k := acc.1.condLane c a (val a.lane)
            (k.1, acc.2 ++ [(a, k.2)])) (s, [])
          let far := (out.2.filter (fun o => o.2 == 0 && o.1.isFar)).map (·.1)
          let near := out.2.filter (fun o => !(o.2 == 0 && o.1.isFar))
          let s := out.1.logElems c 6 (near.map (fun o => (o.1, 0, o.2)))
          let sent := s.sendLines c s.serial far (atomicPacket 11 z t val (fun _ => 0))
          let op := { c.newOp x s.serial with
            vWrites := near.flatMap (fun o => vPut wide x.d.toNat o.1.lane o.2) ++
              (if wide then far.map (fun a => ((x.d.toNat + 1) * 64 + a.lane, 0#32)) else []),
            awaits := sent.2, elems := far.map (fun a => answerElem 0x06 x.d.toNat a.lane 1) }
          afterLanes (sent.1.pend c op) r.1)

/-! ### PREF (10 R245) -/

/-- 10 R245: PREF does something for a lane's byte. -/
def prefTakes (q : Ptr) : Bool := (q.space == 0 || q.space == 4) && !(q.cls == 2 && q.scope ≥ 2)

/-- 10 R245: obtaining a line for a die would recall a node in which a reservation is held, which PREF never does. -/
def State.prefBlocked (s : State) (die line : Nat) : Bool :=
  match (s.die (homeDie (line * 128))).node? line with
  | some n =>
    let inNode := fun (k : Nat) => isGlobal k && n.covers (k / 128)
    n.st == .o && n.hold != holderBit die &&
      (s.groups.any (fun g => g.resv.any (fun r => r.2.cancelled == 0 && inNode r.2.key)) ||
        s.farResv.any (fun r => r.cancelled == 0 && inNode r.key))
  | none => false

/-- 10 R245: the lines of a core's L1 on which PRIV reservations are held. -/
def State.resvLines (s : State) (core : Nat) : List Nat :=
  s.groups.flatMap (fun g => if ((s.wg? g.wgKey).map (·.phys)) == some core then
    (g.resv.filter (fun r => r.2.inL1 && r.2.cancelled == 0)).map (fun r => r.2.key / 128) else [])

/-- 10 R245: the line that holds an address, without its poisoned granules, comes to the Firn, or to L1 where there is room. -/
def State.prefLine (s : State) (c : Ctx) (firn inv : Bool) (pa : Nat) : State :=
  let core := c.w.phys
  if s.prefBlocked (coreDie core) (pa / 128) then s
  else if firn then s.share_ (coreDie core) (pa / 128)
  else
    match s.roomFor core (pa / 128) (s.resvLines core) with
    | some s => s.fillFrom core c.w.part inv (pa / 128)
    | none => s

/-- 10 R245, 20 R379: the line of another package is asked for, for RSHR loads, unless the die holds it or has asked; what comes of
it is no lane's fault. -/
def State.prefFar (s : State) (c : Ctx) (q : Ptr) (p : Place) : State :=
  match p with
  | .far o va _ _ =>
    if s.farHeld c q p || !s.canSendAll c.w.part [(o, va / 128)] ||
        s.sent.any (fun x => x.engine && x.opId == 0 && x.dest == o && x.pkt.part == c.w.part && x.pkt.line == va / 128) then s
    else
      let pkt := { s.packet c.w.part 0 (va / 128) with group := c.g.gid, bytes := (List.range 128).map (fun i => (i, 0)) }
      let die := coreDie c.w.phys
      (s.send { pkt.toSend o c.g.gid 0 va true with keep := some (die, assocGet 0 c.w.part (s.die die).epochs) }).1
  | _ => s

/-- PREF (10 R245). -/
def execPref (x : Args) (s : State) : Host.Outcome State Fault Refusal :=
  issue .pref x s (fun c act =>
    let as := (splitLanes (act.map (fun l =>
      s.checkLane c .load (fun q => fmtPlain q.fmt) (fun _ _ => none) (c.laneAsk x false l (c.offset x l) 1)))).2
    let s := as.foldl (fun s a =>
      match a.places with
      | [.home pa va false _] =>
        if prefTakes a.q then (s.touches c.w.phys (s.partOf c.w.part) [va]).prefLine c (x.mod.toNat % 2 == 1) a.q.inv pa else s
      | [.far o va ace false] =>
        if prefTakes a.q && a.q.cls == 1 then (s.touches c.w.phys (s.partOf c.w.part) [va]).prefFar c a.q (.far o va ace false) else s
      | _ => s) s
    .done s)

/-! ### CBEXP (09 R213) -/

/-- 09 R213: the format of the output. -/
def cbFmt (x : Args) : Nat := if x.mod.toNat ≥ 16 then 0x12 else 0x13

/-- 09 R213: the registers of a lane: eight weights of an index over its row. -/
def cbWeights (fmt index row : Nat) : List Word :=
  let w := fmtWidth fmt
  (List.range (w / 4)).map (fun r =>
    BitVec.ofNat 32 ((List.range (32 / w)).foldl (fun acc i =>
      acc + (encodeFmt false fmt .rne (codeWeight row index (r * (32 / w) + i))).1 * 2 ^ (w * i)) 0))

/-- CBEXP (09 R213). -/
def execCbexp (x : Args) (s : State) : Host.Outcome State Fault Refusal :=
  issue .cbexp x s (fun c act =>
    let index := fun (l : Nat) => elemAt 16 (x.mod.toNat / 8 % 2) (c.v x.a.toNat l).toNat
    let r := splitLanes (act.map (fun l =>
      s.checkLane c .codebook (fun q => (q.fmt == 0x16 || q.fmt == 0) && (q.space == 1 || q.space == 2)) (fun _ _ => none)
        { lane := l, q := c.ptr x.b.toNat, valid := true, off := 4 * (index l / 256), n := 4 }))
    if stopsAll r.1 || r.2.isEmpty then .trap s r.1 0
    else
      match s.accessHold c r.2 false with
      | some h => .held h
      | none =>
        let bad := s.poisonTraps r.2
        if !bad.isEmpty then .trap s (r.1 ++ bad) 0
        else
          let ws := r.2.flatMap (fun a =>
            let row := natOfBytes ((s.readPlaces c a.q a.places).getD [])
            let regs := cbWeights (cbFmt x) (index a.lane) row
            ((List.range regs.length).zip regs).map (fun (i, w) => ((x.d.toNat + i) * 64 + a.lane, w)))
          afterLanes (s.writeV c ws) r.1)

end Sys2Proof.Machine
end

