-- ==== Sys2Proof/Machine/Scope.lean ====
section
/-!
DEFINITION. WIDEN, NARROW and ICINV (10 R229, R230, R246; 06 R115).
-/
namespace Sys2Proof.Machine

/-- 10 R229: the first check of WIDEN or NARROW that fails. -/
def scopeCheck (c : Ctx) (q : Ptr) (widen : Bool) (n : Nat) : Option Nat :=
  if !q.wf then some 0x2007
  else if !covers q.scope q.origin c.core then some 0x2005
  else if widen then (if n < q.scope then some 0x2008 else if n > q.ceil then some 0x200B else none)
  else if n > q.scope then some 0x2008
  else none

/-- 10 R229: the pointer that WIDEN (CLASS SYNC) or NARROW (CLASS PRIV) makes. -/
def Ptr.rescope (q : Ptr) (cls n core : Nat) : Ptr :=
  { q with cls := cls, scope := n, origin := indexAt n core, inv := false }

/-- 10 R230: remote stores that the group has sent to bytes of a pointer's range have not been acknowledged. -/
def State.rangeUnacked (s : State) (c : Ctx) (q : Ptr) : Bool :=
  q.len != 0 && (s.sentBy c.g.gid).any (fun x =>
    x.pkt.part == c.w.part && (x.pkt.kind == 1 || (x.pkt.kind == 2 && x.pkt.op != 10)) &&
      (x.pkt.bytes.map (·.1) ++ x.pkt.lanes.flatMap (fun l => (List.range x.pkt.width).map (l.off + ·))).any (fun o =>
        q.base ≤ 128 * x.pkt.line + o % 128 && 128 * x.pkt.line + o % 128 < q.base + q.len))

/-- WIDEN (10 R229, R230). -/
def execWiden (x : Args) (s : State) : Host.Outcome State Fault Refusal :=
  issue .widen x s (fun c act =>
    let q := c.ptr x.a.toNat
    let n := x.b.toNat
    match scopeCheck c q true n with
    | some code => .trap s (lanesTrap act code) 0
    | none =>
      match if n ≥ 4 then s.podWait c none else none with
      | some w => s.holdAcks c w
      | none =>
        if s.rangeUnacked c q then .held .memory
        else
          let s := s.releaseRange c.w.phys (s.partOf c.w.part) q n
          .done (s.writeP c [(x.d.toNat, (q.rescope 2 n c.core).toBits)]))

/-- NARROW (10 R229). -/
def execNarrow (x : Args) (s : State) : Host.Outcome State Fault Refusal :=
  issue .narrow x s (fun c act =>
    let q := c.ptr x.a.toNat
    let n := x.b.toNat
    match scopeCheck c q false n with
    | some code => .trap s (lanesTrap act code) 0
    | none =>
      let s := s.acquireRange c.w.phys (s.partOf c.w.part) q q.scope
      .done (s.writeP c [(x.d.toNat, (q.rescope 0 n c.core).toBits)]))

/-- 01 R15: the physical cores within a scope of a core. -/
def coresWithin (scope core : Nat) : List Nat :=
  allCores.filter (fun k =>
    match scope with
    | 0 => k == core
    | 1 => coreCluster k == coreCluster core
    | 2 => coreDie k == coreDie core
    | _ => true)

/-- 10 R246: a line of code overlaps a pointer's reachable set: by its address, or by the bytes it maps. -/
def State.codeOverlaps (s : State) (p : Partition) (q : Ptr) (l : ILine) : Bool :=
  l.part == p.num && q.len != 0 &&
    ((l.line * 128 < q.base + q.len && q.base < l.line * 128 + 128) ||
      (match s.walkFrom p (l.line * 128) 5 p.ptroot with
       | .leaf f =>
         let pa := f.pa + l.line * 128 % pageSize f.level
         !f.fwd && (List.range 32).any (fun i => s.inRange p q (pa / 4 + i))
       | .fault _ _ _ => false))

/-- 06 R115, R116: the clause that a split has fetched and not started overlaps a pointer's reachable set. -/
def State.clauseOverlaps (s : State) (p : Partition) (w : Workgroup) (g : Group) (q : Ptr) (sp : Split) : Bool :=
  let lo := (Ptr.ofBits g.fetchPtr).base + w.codeOff + sp.pc.toNat
  !sp.clause.isEmpty && !sp.started &&
    (List.range ((lo % 128 + 8 * sp.clause.length + 127) / 128)).any (fun i =>
      s.codeOverlaps p q { line := lo / 128 + i, part := p.num, words := [] })

/-- 06 R115, 10 R246: the instruction-cache lines and the clauses fetched and not started of a core that overlap a pointer's reachable
set are discarded. -/
def State.discardCode (s : State) (p : Partition) (q : Ptr) (k : Nat) : State :=
  let s := if (s.core k).icache.isEmpty then s
    else s.modCore k (fun core => { core with icache := core.icache.filter (fun l => !s.codeOverlaps p q l) })
  { s with groups := s.groups.map (fun (g : Group) =>
      match s.wg? g.wgKey with
      | some w =>
        if w.part == p.num && w.phys == k && w.onCore && g.splits.any (s.clauseOverlaps p w g q) then
          { g with splits := g.splits.map (fun (sp : Split) => if s.clauseOverlaps p w g q sp then { sp with clause := [] } else sp) }
        else g
      | none => g) }

/-- ICINV (10 R246, 06 R115): the stores of the range leave the L1 at every scope, for fetch reads the slices (log entry 26), and
those sent to another package are acknowledged (10 R230). -/
def execIcinv (x : Args) (s : State) : Host.Outcome State Fault Refusal :=
  issue .icinv x s (fun c act =>
    let q := c.ptr x.a.toNat
    let p := s.partOf c.w.part
    if !q.wf then .trap s (lanesTrap act 0x2007) 0
    else if q.space ≠ 4 then .trap s (lanesTrap act 0x2004) 0
    else if !q.w then .trap s (lanesTrap act 0x2002) 0
    else if !covers q.scope q.origin c.core then .trap s (lanesTrap act 0x2005) 0
    else if s.rangeUnacked c q then .held .memory
    else
      let s := s.releaseRange c.w.phys p q (max x.b.toNat 1)
      .done ((coresWithin x.b.toNat c.w.phys).foldl (fun (s : State) k => s.discardCode p q k) s))

end Sys2Proof.Machine
end

