-- ==== Sys2Proof/Machine/Sync.lean ====
section
/-!
DEFINITION. Atomics, barriers and timelines (chapter 16).
-/
namespace Sys2Proof.Machine

/-! ### Atomics (16 R356 to R359) -/

/-- 16 R356: check 2 of 02 R40 for an operation (9 is CAS) on z bytes. -/
def atomFmt (op z fmt : Nat) : Bool :=
  let w := fmt == 0 || fmtWidth fmt == 8 * z || (fmt == 0x12 && z == 4)
  w && (match op with
    | 0 => [0x05, 0x06, 0x07, 0x10, 0x12].contains fmt
    | 1 => [0x05, 0x06, 0x07, 0x08, 0x10].contains fmt
    | 2 => [0x05, 0x06, 0x07, 0x08, 0x10].contains fmt
    | 3 => [0x00, 0x05, 0x06, 0x07, 0x08].contains fmt
    | 4 => [0x00, 0x05, 0x06, 0x07, 0x08].contains fmt
    | 5 => [0x00, 0x05, 0x06, 0x07, 0x08].contains fmt
    | 7 => fmt == 0x06
    | 8 => fmt == 0x06
    | _ => [0x00, 0x05, 0x06, 0x07, 0x08, 0x10].contains fmt)

/-- 16 R356: the new value from the old x and the operand v, on z bytes: RNE, nothing flushed, no flag. -/
def atomNew (op z fmt x v : Nat) : Nat :=
  let w := 8 * z
  let int := fun (f : IntFn) => intElem f false (fmtSigned fmt) w w x v 0
  let f := fun (m a b : Nat) => (addElem false m .rne (inFmt false m a) (inFmt false m b)).1
  match op with
  | 0 =>
    if fmt = 0x10 then f 0x10 x v
    else if fmt = 0x12 then f 0x12 (x % 65536) (v % 65536) + 65536 * f 0x12 (x / 65536) (v / 65536)
    else int .add
  | 1 => if fmt = 0x10 then (minMaxElem false false 0x10 x v).1 else int .min
  | 2 => if fmt = 0x10 then (minMaxElem true false 0x10 x v).1 else int .max
  | 3 => x &&& v
  | 4 => x ||| v
  | 5 => x ^^^ v
  | 6 => v
  | 7 => if x ≥ v then 0 else x + 1
  | _ => if x = 0 || x > v then v else x - 1

/-- 16 R357: the element of a lane is brought to where its atomic is performed. -/
def State.atomPrep (s : State) (c : Ctx) (a : LaneAcc) : State :=
  match a.places with
  | .home pa _ ord _ :: _ =>
    let ks := uniq (a.places.map (fun p => p.key / 4))
    match a.q.way ord with
    | .l1 => ks.foldl (fun s k => s.fillWord c.w.phys c.w.part false k) s
    | .slice =>
      let s := ks.foldl (fun s k => s.registerWord c.w.phys k true) s
      s.sliceWrite c.w.phys (s.atomicDie c.w.phys (pa / 128)) ks
    | .home => s.sliceWrite c.w.phys (homeDie pa) ks
  | _ => s

/-- Write an element that `atomPrep` has brought where it is performed. -/
def State.atomWrite (s : State) (c : Ctx) (a : LaneAcc) (val : Nat) : State :=
  let bs := bytesOfNat a.places.length val
  match a.places with
  | .home _ _ ord _ :: _ =>
    let ws := (a.places.map Place.key).zip bs
    if a.q.way ord = .l1 then s.dirtyBytes c.w.phys c.w.part ws none else s.store ws none
  | _ => s.store ((a.places.map Place.key).zip bs) none

/-- 16 R357: one lane's atomic: the old value, and the new one written unless a CAS fails. -/
def State.atomLane (s : State) (c : Ctx) (a : LaneAcc) (op operand compare : Nat) : State × Nat :=
  let s := s.atomPrep c a
  let x := natOfBytes ((s.readPlaces c a.q a.places).getD [])
  let z := a.places.length
  -- 11 R261, 16 R357: a CAS is a write only where it stores
  let put := fun (v : Nat) => (s.markDirty c (vasOf [a])).atomWrite c a v
  if op = 9 then (if x = compare then (put operand, x) else (s, x))
  else (put (atomNew op z a.q.fmt x operand), x)

/-- 16 R357: the further checks of an atomic: 0x200C, then 0x200E. -/
def atomMore (z : Nat) (q : Ptr) (addr : Nat) : Option Nat :=
  (noDevice q addr).orElse (fun _ => if addr % z != 0 then some 0x200E else none)

/-- ATOM, ATOMN and CAS (16 R357): `ret` when the old value is returned. -/
def atomExec (o : Op) (ret : Bool) (x : Args) (s : State) : Host.Outcome State Fault Refusal :=
  issue o x s (fun c act =>
    let m := x.mod.toNat
    let op := if o == .cas then 9 else m / 2
    let wide := m % 2 == 1
    let z := if wide then 8 else 4
    let r := splitLanes (act.map (fun l =>
      s.checkLane c .atomic (fun q => q.space != 4 && atomFmt op z q.fmt) (atomMore z)
        { lane := l, q := c.ptr x.a.toNat, valid := true, off := (c.v x.b.toNat l).toNat + immOffset x, n := z }))
    if stopsAll r.1 || r.2.isEmpty then .trap s r.1 0
    else
      let kind := if op = 9 then 4 else 3
      match s.holdOf c r.2 true kind (r.2.map (fun a => (a, 0))) with
      | some h => .held h
      | none =>
        let bad := s.poisonTraps r.2
        if !bad.isEmpty then .trap s (r.1 ++ bad) 0
        else
          match s.releaseLanes c r.2 with
          | .error w => s.holdAcks c w
          | .ok s =>
            let operand := fun (l : Nat) => if op = 9 then c.vw wide x.d.toNat l else c.vw wide x.c.toNat l
            let compare := fun (l : Nat) => if op = 9 then c.vw wide x.c.toNat l else 0
            let near := r.2.filter (fun a => !a.isFar)
            let far := r.2.filter (fun a => a.isFar)
            let done := near.foldl (fun (acc : State × List (LaneAcc × Nat × Nat)) a =>
              let k := acc.1.atomLane c a op (operand a.lane) (compare a.lane)
              (k.1, acc.2 ++ [(a, 0, k.2)])) ((s.walkAll c r.2 true).noteLines c (wordsOf r.2 .l1), [])
            let out := (done.1.logElems c kind done.2, done.2.map (fun k => (k.1.lane, k.2.2)))
            let fmt := (c.ptr x.a.toNat).fmt
            let sent := out.1.sendLines c out.1.serial far (atomicPacket op z fmt operand compare)
            let sc := match widestSync r.2 with
              | some n => n + 1
              | none => 0
            let fin := fun (s : State) => if far.isEmpty then s.acquireLanes c r.2 else s
            if ret then
              let t := if wide then 0x08 else 0x06
              let pend := { c.newOp x out.1.serial with
                vWrites := out.2.flatMap (fun k => vPut wide x.d.toNat k.1 k.2), awaits := sent.2,
                elems := far.map (fun a => answerElem t x.d.toNat a.lane z), acq := if far.isEmpty then 0 else sc, tier2 := r.2.any (·.overLink) }
              afterLanes (fin (sent.1.pend c pend)) r.1
            else if far.isEmpty || sc = 0 then afterLanes (fin sent.1) r.1
            else
              -- 21 R395: the acquire of a far ATOMN follows its response; it counts no flag
              let pend := { c.newOp x out.1.serial with flag := 12, awaits := sent.2, acq := sc }
              afterLanes ((sent.1.modGroup c.g.gid (fun g => { g with ops := g.ops ++ [pend] })).bump) r.1)

/-- ATOM (16 R357). -/
def execAtom (x : Args) (s : State) : Host.Outcome State Fault Refusal := atomExec .atom true x s
/-- ATOMN (16 R357). -/
def execAtomn (x : Args) (s : State) : Host.Outcome State Fault Refusal := atomExec .atomn false x s
/-- CAS (16 R357). -/
def execCas (x : Args) (s : State) : Host.Outcome State Fault Refusal := atomExec .cas true x s

/-! ### The barrier object (16 R346, R348) -/

/-- 16 R346: the fields of a barrier. -/
structure Barrier where
  expect : Nat
  pendArr : Nat
  phase : Nat
  /-- Signed 48 bits. -/
  pendTx : Int
  valid : Bool
  /-- Bits [126:112]. -/
  rest : Nat
  deriving DecidableEq, Repr

/-- 16 R346: the fields of 128 bits. -/
def Barrier.ofNat (n : Nat) : Barrier :=
  { expect := bits n 15 0, pendArr := bits n 31 16, phase := bits n 63 32, pendTx := signedOf 48 (bits n 111 64),
    valid := bitOf n 127, rest := bits n 126 112 }

/-- 16 R346: the 128 bits. -/
def Barrier.toNat (b : Barrier) : Nat :=
  b.expect % 2 ^ 16 + 2 ^ 16 * (b.pendArr % 2 ^ 16) + 2 ^ 32 * (b.phase % 2 ^ 32) + 2 ^ 64 * patOf 48 b.pendTx +
    2 ^ 112 * (b.rest % 2 ^ 15) + 2 ^ 127 * b.valid.toNat

/-- 16 R348: the evaluation after an action. -/
def Barrier.evaluate (b : Barrier) : Barrier :=
  if b.pendArr = 0 && b.pendTx = 0 then { b with phase := (b.phase + 1) % 2 ^ 32, pendArr := b.expect } else b

/-- A transaction count stays in its signed 48-bit range (16 R350). -/
def txFits (x : Int) : Bool := -(2 ^ 47 : Int) ≤ x && x < (2 ^ 47 : Int)

/-- The barrier at a key. -/
def State.barrierAt (s : State) (k : Nat) : Barrier := Barrier.ofNat (s.num k 16)
/-- Write the barrier at a key, where it changes. -/
def State.setBarrier (s : State) (k : Nat) (b : Barrier) : State :=
  if b.toNat = s.num k 16 then s else s.storeNum k 16 b.toNat

/-- 16 R347: the key of the barrier that an operand names; `own` for BINIT and BINVAL, which require G = 0. -/
def Workgroup.barrierKey (w : Workgroup) (own : Bool) (v : Word) : Option Nat :=
  let n := v.toNat
  let g := bitOf n 24
  let m := bits n 23 21
  let off := bits n 20 0
  if n / 2 ^ 25 != 0 || (!g && m != 0) || (g && own) || (g && m ≥ w.gangSize) || off % 16 != 0 || off < w.scratchOff ||
      off ≥ w.scratchOff + 16 * w.barriers then none
  else some (scratchKey (if g then w.memberCore m else w.phys) off)

/-- 08 R178, 13 R288: an offset names a barrier object. -/
def Workgroup.barrierOffset (w : Workgroup) (off : Nat) : Bool :=
  off % 16 == 0 && w.scratchOff ≤ off && off < w.scratchOff + 16 * w.barriers

/-- 16 R351: a split waits on a barrier. -/
def State.barrierWaited (s : State) (k : Nat) : Bool :=
  s.groups.any (fun g => match s.wg? g.wgKey with
    | some w => w.onCore && g.splits.any (fun x =>
        (x.hold == .bwait && x.waitOn.map (·.1) == some k) ||
          (x.state == .waitingEvent && x.evKind == 2 && scratchKey w.phys (x.evVal.toNat % 2 ^ 32) == k) ||
          (x.hold == .event && (match x.waitOn with
            | some (kr, v) => kr / 256 == 2 && scratchKey w.phys (v % 2 ^ 32) == k
            | none => false)))
    | none => false)

/-- 16 R351: a barrier is busy. -/
def State.barrierBusy (s : State) (k : Nat) : Bool :=
  s.barrierWaited k || (s.barrierAt k).pendTx != 0 || s.cores.any (fun c => c.2.ops.any (fun o => o.barrier == some k))

/-- 23 R440: VALUE of a barrier action's event: PHASE and PENDARR in their own bits of the object (log entry 47). -/
def Barrier.logValue (b : Barrier) : Nat := 2 ^ 32 * b.phase + 2 ^ 16 * b.pendArr

/-- 23 R440: a barrier action on a key is logged as of the lowest active lane, or matched. -/
def State.logBarrier (s : State) (c : Ctx) (act : List Nat) (k : Nat) : State :=
  if s.observes c.w.part then s.logEvent c.w.part (s.event c 7 (act.headD 0) k (s.barrierAt k).logValue) else s

/-- What a barrier action has done is logged when it is complete. -/
def Eff.logBarrier (e : Eff) (c : Ctx) (act : List Nat) (k : Nat) : Eff :=
  match e with
  | .done s => .done (s.logBarrier c act k)
  | e => e

/-- 17 R361: an action on the same object that arrived at the check before, under a lower number, is still held there. -/
def State.barrierAhead (s : State) (c : Ctx) (k : Nat) : Bool :=
  let n := c.sp.askedAt .scoreboard s.serial
  s.groups.any (fun g => g.splits.any (fun x => x.hold == .scoreboard && !(g.gid == c.g.gid && x.id == c.sp.id) &&
    (match x.waitOn with
     | some (m, k') => k' == k && m < n
     | none => false)))

/-- A barrier instruction: its operand, the scoreboard (16 R347, 17 R361), a replay's order (23 R441), then its action. -/
def barrierExec (o : Op) (own write : Bool) (x : Args) (s : State) (body : Ctx → List Nat → Nat → Barrier → Eff) :
    Host.Outcome State Fault Refusal :=
  issue o x s (fun c act =>
    match c.w.barrierKey own (c.s x.a.toNat) with
    | none => .trap s (lanesTrap act 0x4002) 0
    | some k =>
      if s.scratchBusy (keyCore k) (k % 2 ^ 21) (k % 2 ^ 21 + 16) write || s.barrierAhead c k then s.queueOn c .scoreboard k
      else if s.heldByReplay c [s.event c 7 (act.headD 0) k 0] then .held .memory
      else (body c act k (s.barrierAt k)).logBarrier c act k)

/-- BINIT (16 R350) (log entry 29). -/
def execBinit (x : Args) (s : State) : Host.Outcome State Fault Refusal :=
  barrierExec .binit true true x s (fun c act k _ =>
    let n := (c.s x.b.toNat).toNat
    if s.barrierBusy k then .trap s (lanesTrap act 0x4001) 0
    else if n = 0 || n > 65535 then .trap s (lanesTrap act 0x4006) 0
    else .done (s.setBarrier k { expect := n, pendArr := n, phase := 0, pendTx := 0, valid := true, rest := 0 }))

/-- BARV (16 R350): the checks run in the order VALID, PENDARR, byte count. -/
def execBarv (x : Args) (s : State) : Host.Outcome State Fault Refusal :=
  barrierExec .barv false true x s (fun c act k b =>
    let n := if x.mod.toNat % 2 = 1 then c.s2 x.b.toNat else 0
    if !b.valid then .trap s (lanesTrap act 0x4003) 0
    else if b.pendArr = 0 then .trap s (lanesTrap act 0x4004) 0
    else if n ≥ 2 ^ 47 || !txFits (b.pendTx + n) then .trap s (lanesTrap act 0x4005) 0
    else
      .done ((s.releaseCore c.w.phys 1).setBarrier k
        { b with pendTx := b.pendTx + n, pendArr := b.pendArr - 1 }.evaluate))

/-- BEXP (16 R350). -/
def execBexp (x : Args) (s : State) : Host.Outcome State Fault Refusal :=
  barrierExec .bexp false true x s (fun c act k b =>
    let n := c.s2 x.b.toNat
    if !b.valid then .trap s (lanesTrap act 0x4003) 0
    else if n ≥ 2 ^ 47 || !txFits (b.pendTx + n) then .trap s (lanesTrap act 0x4005) 0
    else .done (s.setBarrier k { b with pendTx := b.pendTx + n }.evaluate))

/-- 16 R350: the parity has left the one given. -/
def Barrier.passed (b : Barrier) (parity : Nat) : Bool := b.phase % 2 != parity

/-- BWAIT (16 R353): it passes with an acquire at CLUS, or holds the split. -/
def execBwait (x : Args) (s : State) : Host.Outcome State Fault Refusal :=
  barrierExec .bwait false false x s (fun c act k b =>
    let parity := (c.s x.b.toNat).toNat % 2
    if !b.valid then .trap s (lanesTrap act 0x4003) 0
    else if b.passed parity then .done (s.acquireCore c.w.phys c.w.part 1)
    else .wait (s.modSplit c.g.gid c.sp.id (fun sp => { sp with waitOn := some (k, parity) })) .bwait)

/-- BTEST (16 R350). -/
def execBtest (x : Args) (s : State) : Host.Outcome State Fault Refusal :=
  barrierExec .btest false false x s (fun c act _ b =>
    if !b.valid then .trap s (lanesTrap act 0x4003) 0
    else if b.passed ((c.s x.b.toNat).toNat % 2) then
      .done ((s.acquireCore c.w.phys c.w.part 1).writeS c [(x.d.toNat, 0xFFFFFFFF#32)])
    else .done (s.writeS c [(x.d.toNat, 0#32)]))

/-- BINVAL (16 R350): an object that is not valid is left as it is. -/
def execBinval (x : Args) (s : State) : Host.Outcome State Fault Refusal :=
  barrierExec .binval true true x s (fun _ act k b =>
    if !b.valid then .done s
    else if s.barrierBusy k then .trap s (lanesTrap act 0x4001) 0
    else .done (s.storeNum k 16 0))

/-! ### Timelines (16 R354, R355) -/

/-- A timeline with nothing issued. -/
def Timeline.zero : Timeline := { issued := 0, reached := 0, done := [], scopes := [] }
/-- A workgroup's timeline. -/
def Workgroup.timeline (w : Workgroup) (k : Nat) : Timeline := w.timelines.getD k Timeline.zero

/-- 16 R355: the scope of the acquire over the operations with tickets up to n. -/
def Timeline.acquireScope (t : Timeline) (n : Nat) : Nat := ((t.scopes.filter (fun x => x.1 ≤ n)).map (·.2)).foldl max 0

/-- 16 R355: the acquire of a passing TLWAIT or TLTEST; none when n is 0. -/
def State.acquireTl (s : State) (w : Workgroup) (k n : Nat) : State :=
  if n = 0 then s else s.acquireCore w.phys w.part ((w.timeline k).acquireScope n)

/-- 16 R355: the operand n. -/
def Ctx.tlValue (c : Ctx) (x : Args) : Nat := (immOf x).getD (c.s2 x.b.toNat)

/-- TLWAIT (16 R355): it passes with the acquire, or holds the split. -/
def execTlwait (x : Args) (s : State) : Host.Outcome State Fault Refusal :=
  issue .tlwait x s (fun c _ =>
    let n := c.tlValue x
    let k := x.a.toNat
    if n ≤ (c.w.timeline k).reached then .done (s.acquireTl c.w k n)
    else .wait (s.modSplit c.g.gid c.sp.id (fun sp => { sp with waitOn := some (k, n) })) .tlwait)

/-- TLTEST (16 R355). -/
def execTltest (x : Args) (s : State) : Host.Outcome State Fault Refusal :=
  issueDone .tltest x s (fun c _ =>
    let n := c.tlValue x
    let k := x.a.toNat
    if n ≤ (c.w.timeline k).reached then (s.acquireTl c.w k n).writeS c [(x.d.toNat, 0xFFFFFFFF#32)]
    else s.writeS c [(x.d.toNat, 0#32)])

/-- TLREAD.iss (16 R355). -/
def execTlreadIss (x : Args) (s : State) : Host.Outcome State Fault Refusal :=
  issueDone .tlreadIss x s (fun c _ => s.writeS c (sPut true x.d.toNat (c.w.timeline x.a.toNat).issued))
/-- TLREAD.done (16 R355). -/
def execTlreadDone (x : Args) (s : State) : Host.Outcome State Fault Refusal :=
  issueDone .tlreadDone x s (fun c _ => s.writeS c (sPut true x.d.toNat (c.w.timeline x.a.toNat).reached))

end Sys2Proof.Machine
end

