-- ==== Sys2Proof/Machine/Stream.lean ====
section
/-!
DEFINITION. The stream engine and the range scoreboard (chapter 13), coded weight streams (03 R67 to R70).
-/
namespace Sys2Proof.Machine

/-! ### Geometry of a copy (13 R277 to R281) -/

/-- 13 R279: the index tuple of a linear index. -/
def tupleOf (l : List Dim) (i : Nat) : List Nat :=
  match l with
  | [] => []
  | d :: t => i % max d.ext 1 :: tupleOf t (i / max d.ext 1)

/-- 13 R278: N, the product of the extents. -/
def productOf (l : List Dim) : Nat := l.foldl (fun n d => n * d.ext) 1

/-- 13 R279: the destination position of a linear index. -/
def EngineOp.destPos (o : EngineOp) (i : Nat) : Int :=
  ((tupleOf o.dims i).zip o.dims).foldl (fun a e => a + (e.1 : Int) * e.2.dstr) 0

/-- 13 R283: an entry of the index list. -/
def State.gatherIndex (s : State) (phys : Nat) (o : EngineOp) (k : Nat) : Nat :=
  let z := fmtWidth o.idxFmt / 8
  s.num (scratchKey phys (o.idxOff + z * k)) z

/-- 13 R279: the source position of a linear index. -/
def State.srcPos (s : State) (phys : Nat) (o : EngineOp) (i : Nat) : Int :=
  let t := tupleOf o.dims i
  let t := if o.kind == .sgath then t.modify 1 (s.gatherIndex phys o) else t
  (t.zip o.dims).foldl (fun a e => a + (e.1 : Int) * e.2.sstr) 0

/-- 13 R280: bits of an element of a side, by its format and the other side's (log entry 31). -/
def sideWidth (mine other : Nat) : Nat := if mine = 0 then fmtWidth other else fmtWidth mine

/-- 13 R280: the pair of formats is one the engine copies. -/
def formatPairOk (f g : Nat) : Bool :=
  f == g || f == 0 || g == 0 || (fmtCodes.contains f && fmtCodes.contains g)

/-- 13 R280: the element copied, with its flags. -/
def copyElem (f g x : Nat) : Flagged := if f = g || f = 0 || g = 0 then (x, 0) else convertFmt false .rne g f x

/-- 13 R281: the hull of a side, in bytes from its BASE: of (extent, stride) pairs and the bits of an element. -/
def hullOf (w : Nat) (l : List (Nat × Int)) : Int × Int :=
  let lo := l.foldl (fun a e => a + min 0 (((e.1 : Int) - 1) * e.2)) (0 : Int)
  let hi := l.foldl (fun a e => a + max 0 (((e.1 : Int) - 1) * e.2)) (0 : Int)
  if w = 4 then (lo / 2, hi / 2 + 1) else (lo * ((w / 8 : Nat) : Int), (hi + 1) * ((w / 8 : Nat) : Int))

/-- 13 R281: the destination hull of an operation. -/
def EngineOp.destHull (o : EngineOp) : Int × Int :=
  hullOf (sideWidth (Ptr.ofBits o.dst).fmt (Ptr.ofBits o.src).fmt) (o.dims.map (fun d => (d.ext, d.dstr)))

/-- 13 R281: the source hull of STREAM clipped to the source's reachable set; of SGATH that set (R283). -/
def EngineOp.srcHull (o : EngineOp) : Nat × Nat :=
  let q := Ptr.ofBits o.src
  if o.kind == .stream then
    let h := hullOf (sideWidth q.fmt (Ptr.ofBits o.dst).fmt) (o.dims.map (fun d => (d.ext, d.sstr)))
    (h.1.toNat, min h.2.toNat q.len)
  else (0, q.len)

/-- 13 R281: SIZE of N elements of w bits. -/
def sizeOf_ (n w : Nat) : Nat := (n * w + 7) / 8

/-- 13 R277: a shape record. -/
structure Shape where
  dims : List Dim
  fill : Nat
  idxFmt : Nat
  idxOff : Nat
  deriving DecidableEq, Repr

/-- 13 R277, R278: the shape of a record's 160 bytes, when it is valid for an allotment [lo, hi). -/
def shapeOf (bs : List Byte) (gather : Bool) (lo hi : Nat) : Option Shape :=
  let nd := fieldOf bs 0 1
  let dims := (List.range (min nd 9)).map (fun d =>
    { ext := fieldOf bs (0x10 + 16 * d) 4, sstr := signedOf 48 (fieldOf bs (0x14 + 16 * d) 6),
      dstr := signedOf 48 (fieldOf bs (0x1A + 16 * d) 6) : Dim })
  let f := fieldOf bs 1 1
  let off := fieldOf bs 4 4
  let z := fmtWidth f / 8
  let rows := (dims.map (·.ext)).getD 1 0
  let index := if gather then (f == 4 || f == 6) && off % z == 0 && lo ≤ off && off + z * rows ≤ hi else f == 0 && off == 0
  if (if gather then 2 else 1) ≤ nd && nd ≤ 9 && fieldOf bs 2 2 == 0 && (bs.drop (0x10 + 16 * nd)).all (· == 0) &&
      productOf dims ≤ 2 ^ 40 && index then
    some { dims := dims, fill := fieldOf bs 8 8, idxFmt := f, idxOff := off }
  else none

/-! ### Scoreboard entries (13 R289 to R296) -/

/-- An engine operation with nothing in it but its issue. -/
def Ctx.newEngineOp (s : State) (c : Ctx) (kind : EngKind) : EngineOp :=
  { id := s.serial, kind := kind, gid := c.g.gid, wgKey := c.w.key, half := c.sp.half, timeline := 0, ticket := 0,
    barrier := none, entry := false, intervals := [], regCycle := (s.die (coreDie c.w.phys)).cycle, src := 0, dst := 0,
    dims := [], fill := 0, idxFmt := 0, idxOff := 0, size := 0, landed := [], counted := 0, rans := [], consumed := 0,
    outlen := none, tile := 0, count := 0, steps := 0, sops := [], fmtBlock := [], codebook := [], aRegs := [],
    aFromRegs := false, row := 0, rows := 0, dreg := 0, fmt := 0, lanes := 0, pending := 0, pitch := 0, fmode := c.fmode,
    fstat := 0, header := [], got := [], fetched := [], fault := none, reported := false, imageId := c.w.imageId, pc := c.sp.pc }

/-- 13 R289: entries held in a core's scoreboard. -/
def State.entriesHeld (s : State) (core : Nat) : Nat := ((s.core core).ops.filter s.holdsEntry).length

/-- The intervals that are not empty. -/
def realIntervals (l : List Interval) : List Interval := l.filter (fun i => i.lo < i.hi)

/-- 13 R296, 14 R317, R320: another split of the core asked for the same thing first. -/
def State.askedBefore (s : State) (c : Ctx) (h : Hold) : Bool :=
  let mine := c.sp.askedAt h s.serial
  s.groups.any (fun g => ((s.wg? g.wgKey).map (·.phys)) == some c.w.phys &&
    g.splits.any (fun x => x.hold == h && !(g.gid == c.g.gid && x.id == c.sp.id) && x.askedAt h s.serial < mine))

/-- Hold the split in a queue, under the number at which it first asked. -/
def State.queueFor (s : State) (c : Ctx) (h : Hold) : Eff := s.queueOn c h 0

/-- 13 R296: the operation must wait for an entry. -/
def State.entryWait (s : State) (c : Ctx) (o : EngineOp) : Bool :=
  o.entry && (s.entriesHeld c.w.phys ≥ 32 || s.askedBefore c .entry)

/-- 13 R292: what came before in the core's scoreboard leaves an interval of an operation clear. -/
def State.intervalClear (s : State) (core : Nat) (o : EngineOp) (i : Interval) : Bool :=
  (s.core core).ops.all (fun y => y.id ≥ o.id || !s.holdsEntry y || y.intervals.all (fun z => !z.conflicts i.lo i.hi i.write))

/-- 13 R292: the intervals that an operation reads, or writes, are clear: that part of it may run. -/
def State.partClear (s : State) (core : Nat) (o : EngineOp) (write : Bool) : Bool :=
  o.intervals.all (fun i => i.write != write || i.complete || s.intervalClear core o i)

/-- 13 R292: every interval of an operation is clear. -/
def State.opClear (s : State) (core : Nat) (o : EngineOp) : Bool := s.partClear core o false && s.partClear core o true

/-- 13 R295, 15 R333: a byte of a gang peer's scratchpad that an access of the engine reaches is held by an entry registered
there. -/
def State.peerBusy (s : State) (o : EngineOp) (k : Nat) (write : Bool) : Bool :=
  isScratch k && (s.core (keyCore k)).ops.any (fun y =>
    y.id != o.id && s.holdsEntry y && y.intervals.any (fun i => i.conflicts (k % 2 ^ 21) (k % 2 ^ 21 + 1) write))

/-! ### Copy trace records (13 R298) -/

/-- A pointer's SPACE and BASE in a trace record. -/
def traceAddr (q : Ptr) : Nat := q.space * 2 ^ 57 + q.base

/-- 13 R298: the 64 bytes of a copy trace record. -/
def State.traceBytes (s : State) (w : Workgroup) (o : EngineOp) (kind : Nat) : List Byte :=
  let op := match o.kind with
    | .stream => 0
    | .sgath => 1
    | _ => 2
  let groupId := ((s.group? o.gid).map (·.groupId)).getD 0
  bytesOfNat 1 kind ++ bytesOfNat 1 op ++ bytesOfNat 1 (o.timeline + 128 * o.barrier.isSome.toNat) ++
    bytesOfNat 1 (coreDie w.phys) ++ bytesOfNat 1 w.coreIndex ++ bytesOfNat 1 groupId ++ bytesOfNat 2 0 ++
    bytesOfNat 8 (s.die (coreDie w.phys)).cycle ++ bytesOfNat 8 o.ticket ++ bytesOfNat 8 (traceAddr (Ptr.ofBits o.src)) ++
    bytesOfNat 8 (traceAddr (Ptr.ofBits o.dst)) ++ bytesOfNat 8 o.size ++
    bytesOfNat 4 (match o.barrier with
      | some k => k % 2 ^ 21
      | none => 0xFFFFFFFF) ++
    bytesOfNat 4 o.imageId.toNat ++ bytesOfNat 4 o.pc.toNat ++ bytesOfNat 4 0

/-- 13 R298, 23 R429: write a copy trace record when copy tracing is enabled. -/
def State.traceCopy (s : State) (w : Workgroup) (o : EngineOp) (kind : Nat) : State :=
  let p := s.partOf w.part
  if p.obs.trace.getLsbD 0 then s.ringPut p p.obs.tbuf (s.traceBytes w o kind) else s

/-! ### Completion (13 R286 to R288) -/

/-- 13 R287: an operation with a ticket completes. -/
def Timeline.complete (t : Timeline) (ticket : Nat) : Timeline :=
  let done := setAdd ticket t.done
  let n := (List.range done.length).foldl (fun r _ => if done.contains (r + 1) then r + 1 else r) t.reached
  { t with reached := n, done := done.filter (fun k => n < k) }

/-- 13 R287: an operation takes a ticket; its scope counts for the acquires of 16 R355. -/
def Timeline.issue (t : Timeline) (scope : Nat) : Timeline :=
  let n := t.issued + 1
  { t with issued := n, scopes := if t.acquireScope n < scope then t.scopes ++ [(n, scope)] else t.scopes }

/-- Change a timeline of a workgroup. -/
def State.modTimeline (s : State) (wg k : Nat) (f : Timeline → Timeline) : State :=
  s.modWg wg (fun w => { w with timelines := w.timelines.modify k f })

/-- 16 R355: the scope that an operation counts for: its destination's, CLUS at least when it writes outside
scratchpad. -/
def EngineOp.effScope (o : EngineOp) : Nat :=
  let q := Ptr.ofBits o.dst
  if (q.space == 0 || q.space == 3) && o.size != 0 then max q.scope 1 else q.scope

/-- 23 R440: an engine's count into a barrier is a barrier action of its workgroup's group (log entry 47). -/
def State.logCount (s : State) (o : EngineOp) (k : Nat) : State :=
  match s.wg? o.wgKey with
  | none => s
  | some w =>
    if s.observes w.part then
      s.logEvent w.part
        { kind := 7, lane := 0, group := ((s.group? o.gid).map (·.groupId)).getD 0, wg := w.wg, ticket := w.ticket, home := homeOf k,
          addr := s.logAddr k, value := BitVec.ofNat 64 (s.barrierAt k).logValue }
    else s

/-- 13 R288: count bytes into the operation's barrier, up to `upto` in all; 0x4005 where the count leaves its range
(16 R350). -/
def State.countBytes (s : State) (core : Nat) (o : EngineOp) (upto : Nat) : State :=
  match o.barrier with
  | none => s
  | some k =>
    let b := s.barrierAt k
    let n := upto - o.counted
    if n = 0 then s
    else if !txFits (b.pendTx - n) then
      s.modOp core o.id (fun o => { o with fault := some ⟨0x4005, 0, false, 0, false⟩ })
    else
      let s := s.setBarrier k { b with pendTx := b.pendTx - n }.evaluate
      (s.logCount o k).modOp core o.id (fun o => { o with counted := upto })

/-- 03 R57, 13 R286 to R288: an operation of the stream engine completes. -/
def State.completeStream (s : State) (core : Nat) (w : Workgroup) (o : EngineOp) : State :=
  let s := s.countBytes core o o.size
  match s.op? o.id with
  | some (_, o') =>
    if o'.fault.isSome then s
    else
      ((((s.modGroup o.gid (fun g => g.addFlags o.half o.fstat)).modTimeline w.key o.timeline (·.complete o.ticket)).traceCopy
        w o 3).dropOp core o.id)
  | none => s

/-! ### Issue (13 R273 to R276) -/

/-- 13 R276, R274: the issuing split holds the workgroup's stream issue rights. -/
def Ctx.mayStream (c : Ctx) : Bool := c.g.streamRights && !(c.w.legacy && c.sp.half)

/-- 13 R280: check 2 of 02 R40 for the engine. -/
def streamFmt (f : Nat) : Bool := fmtPlain f || f == 0x16 || f == 0x18

/-- 13 R275: checks 1 to 5 on both pointers. -/
def Ctx.streamPtrs (c : Ctx) (a b : Ptr) : Option Nat :=
  (a.check c.core 8 0 0 .streamSrc (streamFmt a.fmt)).orElse (fun _ => b.check c.core 8 0 0 .streamDst (streamFmt b.fmt))

/-- 13 R282, R284: the sides of a copy. -/
def sidesOk (decode : Bool) (a b : Ptr) : Bool :=
  if decode then b.space == 1 && (a.space == 0 || a.space == 1 || a.space == 3 || a.space == 4)
  else (a.space == 1 || b.space == 1) && a.space != 5 && b.space != 5 && b.space != 4

/-- 13 R288: the barrier operand names a valid object. -/
def State.barrierOperand (s : State) (w : Workgroup) (off : Nat) : Option Nat :=
  if w.barrierOffset off && (s.barrierAt (scratchKey w.phys off)).valid then some (scratchKey w.phys off) else none

/-- 13 R275: the last steps of an issue: the barrier operand, an entry, registration and the ticket. -/
def streamIssue (c : Ctx) (x : Args) (act : List Nat) (s : State) (o : EngineOp) (barOff : Nat) (bytes : Bool) : Eff :=
  let be := x.mod.toNat / 8 % 2 == 1
  let bar := s.barrierOperand c.w barOff
  if be && bar.isNone then .trap s (lanesTrap act 0x5404) 0
  else
    let tl := x.mod.toNat % 8
    let ivs := if bytes then realIntervals o.intervals else []
    let o := { o with barrier := if be then bar else none, timeline := tl, ticket := (c.w.timeline tl).issued + 1,
                      intervals := ivs, entry := !ivs.isEmpty }
    if s.entryWait c o then s.queueFor c .entry
    else
      let s := (s.modCore c.w.phys (fun k => { k with ops := k.ops ++ [o] })).bump
      let s := s.modTimeline c.w.key tl (·.issue o.effScope)
      let s := (s.traceCopy c.w o 1).writeS c (sPut true x.d.toNat o.ticket)
      .done (if bytes then s else s.completeStream c.w.phys c.w o)

/-- STREAM and SGATH (13 R275, R282, R283). -/
def streamExec (op : Op) (gather : Bool) (x : Args) (s : State) : Host.Outcome State Fault Refusal :=
  issue op x s (fun c act =>
    let a := c.ptr x.a.toNat
    let b := c.ptr x.b.toNat
    let off := (c.s x.c.toNat).toNat
    let lo := c.w.scratchOff
    let hi := lo + c.w.scratchLen
    if !c.mayStream then .trap s (lanesTrap act 0x5401) 0
    else
      match c.streamPtrs a b with
      | some code => .trap s (lanesTrap act code) 0
      | none =>
        if off % 16 != 0 || off < lo || hi < off + 160 then .trap s (lanesTrap act 0x5402) 0
        else if s.scratchBusy c.w.phys off (off + 160) false then .held .scoreboard
        else if (List.range 10).any (fun k => s.poisonAt (scratchKey c.w.phys (off + 16 * k))) then
          .trap s (lanesTrap act 0x6102) 0
        else
          match shapeOf (s.bytes (scratchKey c.w.phys off) 160) gather lo hi with
          | none => .trap s (lanesTrap act 0x5402) 0
          | some sh =>
            let o := { (c.newEngineOp s (if gather then .sgath else .stream)) with
              src := c.p x.a.toNat, dst := c.p x.b.toNat, dims := sh.dims, fill := BitVec.ofNat 64 sh.fill,
              idxFmt := sh.idxFmt, idxOff := sh.idxOff,
              size := sizeOf_ (productOf sh.dims) (sideWidth b.fmt a.fmt) }
            let n := productOf sh.dims
            let h := o.destHull
            let sr := o.srcHull
            if !formatPairOk a.fmt b.fmt then .trap s (lanesTrap act 0x2004) 0
            else if !sidesOk false a b || (n != 0 && a.space == 1 && b.space == 1 && sr.1 < sr.2 &&
                ((a.base + sr.1 : Nat) : Int) < (b.base : Int) + h.2 && (b.base : Int) + h.1 < ((a.base + sr.2 : Nat) : Int)) then
              .trap s (lanesTrap act 0x5403) 0
            else if n != 0 && (decide (h.1 < (0 : Int)) || !b.boundsOk c.w.gangSize h.1.toNat (h.2 - h.1).toNat) then
              .trap s (lanesTrap act 0x2001) 0
            else
              let reads : List Interval := (if a.space = 1 then [⟨a.base + sr.1, a.base + sr.2, false, false⟩] else []) ++
                (if gather then [⟨sh.idxOff, sh.idxOff + fmtWidth sh.idxFmt / 8 * (sh.dims.map (·.ext)).getD 1 0, false, false⟩]
                 else [])
              let writes : List Interval := if b.space = 1 then [⟨b.base + h.1.toNat, b.base + h.2.toNat, true, false⟩] else []
              streamIssue c x act s { o with intervals := reads ++ writes } (c.s (x.c.toNat + 1)).toNat (n != 0))

/-- STREAM (13 R282). -/
def execStream (x : Args) (s : State) : Host.Outcome State Fault Refusal := streamExec .stream false x s
/-- SGATH (13 R283). -/
def execSgath (x : Args) (s : State) : Host.Outcome State Fault Refusal := streamExec .sgath true x s

/-- SDEC (13 R284). -/
def execSdec (x : Args) (s : State) : Host.Outcome State Fault Refusal :=
  issue .sdec x s (fun c act =>
    let a := c.ptr x.a.toNat
    let b := c.ptr x.b.toNat
    if !c.mayStream then .trap s (lanesTrap act 0x5401) 0
    else
      match c.streamPtrs a b with
      | some code => .trap s (lanesTrap act code) 0
      | none =>
        if a.fmt != 0 then .trap s (lanesTrap act 0x2004) 0
        else if !sidesOk true a b then .trap s (lanesTrap act 0x5403) 0
        else
          let reads : List Interval := if a.space = 1 then [⟨a.base, a.base + a.len, false, false⟩] else []
          let o := { (c.newEngineOp s .sdec) with
            src := c.p x.a.toNat, dst := c.p x.b.toNat, intervals := reads ++ [⟨b.base, b.base + b.len, true, false⟩] }
          streamIssue c x act s o (c.s x.c.toNat).toNat true)

/-! ### Reaching memory for the engine (13 R285) -/

/-- What a fetch of the engine gives. -/
inductive Fetched where
  /-- The bytes, with their places. -/
  | bytes (l : List Byte) (ps : List Place)
  | fault (f : FaultInfo)
  /-- Bytes that only responses can bring: (owner, virtual address). -/
  | need (l : List (Nat × Nat))
  deriving DecidableEq, Repr

/-- A fault of an engine's access, at an address of a pointer. -/
def engineFault (code va : Nat) (pa : Option Nat) : FaultInfo :=
  { code := code, addr := if codeHasVa code then va else 0, vav := codeHasVa code, paddr := pa.getD 0, pav := pa.isSome }

/-- What the engine asks of a leaf. -/
def engineUse (write : Bool) : Use := { read := !write, write := write, exec := false, dev := false, syncNarrow := false }

/-- Bytes at an offset of a pointer, as the slices and scratchpads hold them. -/
def State.fetchBytes (s : State) (w : Workgroup) (o : EngineOp) (q : Ptr) (off n : Nat) : Fetched :=
  match s.placesFrom w q off n (engineUse false) with
  | .error (code, va, pa) => .fault (engineFault code va pa)
  | .ok ps =>
    match s.poisonOf ps with
    | some (code, pa) => .fault { code := code, addr := 0, vav := false, paddr := if isGlobal pa then pa else 0, pav := isGlobal pa }
    | none =>
      let missing := ps.filterMap (fun p => match p with
        | .far ow va _ _ => if (lastOf va o.got).isSome then none else some (ow, va)
        | _ => none)
      if missing.isEmpty then
        .bytes (ps.map (fun p => match p with
          | .far _ va _ _ => (lastOf va o.got).getD 0
          | p => s.byte p.key)) ps
      else .need missing

/-- The virtual addresses of places. -/
def placeVas (ps : List Place) : List Nat :=
  ps.filterMap (fun p => match p with
    | .home _ va _ _ => some va
    | .far _ va _ _ => some va
    | _ => none)

/-- 11 R261: what counts an access of the engine at a place: another die's memory, or another package. -/
def State.engineServed (s : State) (die : Nat) (write : Bool) (p : Place) : Option (Nat × Nat) :=
  match p with
  | .home pa va ord ace =>
    let held := if write then s.ownsLine die (pa / 128) else s.holdsLine die (pa / 128)
    if ace && homeDie pa != die && (ord || !held) then some (va / 65536 * 65536, 1) else none
  | .far _ va ace _ => if ace then some (va / 65536 * 65536, 2) else none
  | _ => none

/-- 13 R285; 11 R260; 20 R369, R373: a word that the engine of a core reads at the slices that serve it. -/
def State.engineRead (s : State) (core part k : Nat) (ord : Bool) : State :=
  let home := homeDie (4 * k)
  if ord then
    let s := s.share_ home (k / 32)
    if home = coreDie core then s.noteForward core part k else s.serveAway home part k
  else (s.share_ (coreDie core) (k / 32)).noteForward core part k

/-- 13 R285; 11 R260; 20 R373: a word that the engine of a core writes at the slices that serve it. -/
def State.engineWrite (s : State) (core k : Nat) (ord : Bool) : State :=
  (s.own (if ord then homeDie (4 * k) else coreDie core) (k / 32)).collect k none

/-- 13 R285; 11 R261, R264: an access of the engine reaches its places: their translations are held, it is counted, the pages it
writes are marked, and the slices obtain its words. -/
def State.engineReach (s : State) (core part : Nat) (ps : List Place) (write : Bool) : State :=
  let p := s.partOf part
  let served := (ps.filterMap (s.engineServed (coreDie core) write)).eraseDups
  let words := (ps.filterMap (fun x => match x with
    | .home pa _ ord _ => some (pa / 4, ord)
    | _ => none)).eraseDups
  let s := s.touches core p (placeVas ps)
  let s := served.foldl (fun s k => s.countAccess (coreDie core) (s.partOf part) k.1 k.2) s
  let s := if write && p.obs.ckt != 0 then (uniq ((placeVas ps).map (· / 4096))).foldl (fun s v => s.setDck core p (v * 4096)) s else s
  words.foldl (fun s k => if write then s.engineWrite core k.1 k.2 else s.engineRead core part k.1 k.2) s

/-- Set the fault that an operation has met. -/
def State.failOp (s : State) (core id : Nat) (f : FaultInfo) : State :=
  s.modOp core id (fun o => { o with fault := o.fault.orElse (fun _ => some f) })

/-- An access of the engine fails; where its leaf refused it, it has walked (11 R254, R257). -/
def State.failReach (s : State) (core part id : Nat) (f : FaultInfo) : State :=
  let s := if f.vav && (f.code == 0x3401 || f.code == 0x3402 || f.code == 0x3404) then s.touch core (s.partOf part) f.addr else s
  s.failOp core id f

/-- Ask other packages for bytes: one packet for each line, unless one of this operation is under way; none when the
fabric holds it back. -/
def State.engineAsk (s : State) (w : Workgroup) (o : EngineOp) (need : List (Nat × Nat)) : State :=
  let lines := (need.map (fun t => (t.1, t.2 / 128))).eraseDups.filter (fun t =>
    !(s.sent.any (fun q => q.engine && q.opId == o.id && q.dest == t.1 && q.pkt.line == t.2 && q.pkt.kind == 0)))
  if !s.canSendAll w.part lines then s
  else lines.foldl (fun (s : State) (t : Nat × Nat) =>
    let pkt : Packet := { s.packet w.part 0 t.2 with
      group := o.gid, bytes := ((need.filter (fun n => n.1 == t.1 && n.2 / 128 == t.2)).map (·.2 % 128)).eraseDups.map (fun b => (b, 0)) }
    (s.send (pkt.toSend t.1 o.gid o.id (t.2 * 128) true)).1) s

/-! ### Landing (13 R279 to R283, R285, R288, R291, R292) -/

/-- 13 R281, R279: the byte offset, bytes and nibble of an element position. -/
def elemSpan (w : Nat) (e : Nat) : Nat × Nat × Option Bool :=
  if w = 4 then (e / 2, 1, some (e % 2 == 1)) else (e * (w / 8), w / 8, none)

/-- 13 R279, R280: what an element brings: its bits and flags with the places read, or why it cannot be read yet. -/
inductive Brought where
  | value (x : Nat) (f : FlagBits) (ps : List Place)
  | held
  | fault (f : FaultInfo)
  | need (l : List (Nat × Nat))
  deriving DecidableEq, Repr

/-- 13 R279: the element of a linear index, read from the source, or FILL. -/
def State.bringElem (s : State) (phys : Nat) (w : Workgroup) (o : EngineOp) (i : Nat) : Brought :=
  let q := Ptr.ofBits o.src
  let d := Ptr.ofBits o.dst
  let es := s.srcPos phys o i
  let sp := elemSpan (sideWidth q.fmt d.fmt) es.toNat
  if es < 0 || !q.boundsOk w.gangSize sp.1 sp.2.1 then .value (o.fill.toNat % 2 ^ sideWidth d.fmt q.fmt) 0 []
  else if q.space == 2 && (List.range sp.2.1).any (fun k =>
      let a := q.addrOf (sp.1 + k)
      s.peerBusy o (scratchKey (w.memberCore a.member) a.addr) false) then .held
  else
    match s.fetchBytes w o q sp.1 sp.2.1 with
    | .fault f => .fault f
    | .need l => .need l
    | .bytes bs ps =>
      let raw := natOfBytes bs
      let raw := match sp.2.2 with
        | some hi => raw / (if hi then 16 else 1) % 16
        | none => raw
      let r := copyElem q.fmt d.fmt raw
      .value r.1 r.2 ps

/-- Elements of an operation that packets under way carry. -/
def State.underWay (s : State) (id : Nat) : List Nat := ((s.sent.filter (fun q => q.engine && q.opId == id)).flatMap (·.elems)).eraseDups

/-- An element of an operation has been read. -/
def State.elemRead (s : State) (o : EngineOp) (i : Nat) : Bool :=
  o.landed.contains i || o.fetched.any (fun e => e.1 == i) || (s.underWay o.id).contains i

/-- 13 R279, R285, R292: an element is read, once nothing holds the intervals that its operation reads. -/
def State.fetchElem (s : State) (phys : Nat) (w : Workgroup) (id i : Nat) : State :=
  match s.op? id with
  | none => s
  | some (_, o) =>
    if o.fault.isSome || s.elemRead o i || productOf o.dims ≤ i || !s.partClear phys o false then s
    else
      match s.bringElem phys w o i with
      | .held => s
      | .fault f => s.failReach phys w.part id f
      | .need l => s.engineAsk w o l
      | .value x f ps =>
        (s.engineReach phys w.part ps false).modOp phys id (fun o => { o with fetched := o.fetched ++ [(i, x)], fstat := o.fstat ||| f })

/-- A byte, or nibble, that an element has on another package. -/
structure FarPart where
  elem : Nat
  owner : Nat
  va : Nat
  byte : Byte
  nib : Option Bool
  deriving DecidableEq, Repr

/-- An element has landed. -/
def EngineOp.land (o : EngineOp) (i : Nat) : EngineOp :=
  { o with landed := setAdd i o.landed, fetched := o.fetched.filter (fun e => e.1 != i) }

/-- 13 R279, R282, R292: an element that has been read lands at its destination, once nothing holds the intervals that its operation
writes; what it has on another package is added to what is to be sent.  Of elements at one position the highest linear index
prevails. -/
def State.landElem (s : State) (phys : Nat) (w : Workgroup) (id i : Nat) (far : List FarPart) : State × List FarPart :=
  match s.op? id with
  | none => (s, far)
  | some (_, o) =>
    match o.fetched.find? (fun e => e.1 == i) with
    | none => (s, far)
    | some (_, x) =>
      let d := Ptr.ofBits o.dst
      let ed := o.destPos i
      let sp := elemSpan (sideWidth d.fmt (Ptr.ofBits o.src).fmt) ed.toNat
      if o.fault.isSome || !s.partClear phys o true then (s, far)
      else
        match s.placesFrom w d sp.1 sp.2.1 (engineUse true) with
        | .error (code, va, pa) => (s.failReach phys w.part id (engineFault code va pa), far)
        | .ok ps =>
          let busy := d.space == 2 && ps.any (fun p => match p with
            | .fixed k => s.peerBusy o k true
            | _ => false)
          if busy || ps.any (s.pendingAt w.part) then (s, far)
          else if (o.landed ++ s.underWay id ++ far.map (·.elem)).any (fun j => i < j && o.destPos j == ed) then
            (s.modOp phys id (·.land i), far)
          else
            let bs := ps.zip (bytesOfNat sp.2.1 x)
            let mine := bs.filterMap (fun e => match e.1 with
              | .far ow va _ _ => some (⟨i, ow, va, e.2, sp.2.2⟩ : FarPart)
              | _ => none)
            let s := s.engineReach phys w.part ps true
            let s := bs.foldl (fun s e => match e.1 with
              | .far _ _ _ _ => s
              | p => s.store [(p.key, match sp.2.2 with
                  | some hi => setNibble (s.byte p.key) hi e.2.toNat
                  | none => e.2)] none) s
            if mine.isEmpty then (s.modOp phys id (·.land i), far) else (s, far ++ mine)

/-- 13 R285, 21 R386: what elements have on other packages is sent, one packet for each line; none when the fabric holds it back. -/
def State.sendParts (s : State) (phys : Nat) (w : Workgroup) (id gid : Nat) (far : List FarPart) : State :=
  let lines := (far.map (fun x => (x.owner, x.va / 128))).eraseDups
  if far.isEmpty || !s.canSendAll w.part lines then s
  else
    let s := lines.foldl (fun (s : State) (t : Nat × Nat) =>
      let mine := far.filter (fun x => x.owner == t.1 && x.va / 128 == t.2)
      let pkt : Packet := { s.packet w.part 1 t.2 with
        group := gid, bytes := mine.map (fun x => (packetPlace (x.va % 128) ((x.nib.map Bool.toNat).getD 2), x.byte)) }
      (s.sendWrite (coreDie phys) { pkt.toSend t.1 gid id ((mine.map (·.va)).headD 0) true with elems := (mine.map (·.elem)).eraseDups }).1) s
    s.modOp phys id (fun o => { o with fetched := o.fetched.filter (fun e => !(far.any (fun x => x.elem == e.1))) })

/-- 13 R282: the granules of the destination hull lose their tags. -/
def State.untagHull (s : State) (w : Workgroup) (o : EngineOp) : State :=
  let d := Ptr.ofBits o.dst
  let h := o.destHull
  if s.tags.isEmpty then s
  else
    let lo := h.1.toNat
    let hi := h.2.toNat
    let p := s.partOf w.part
    let hit := fun (g : Nat) =>
      match d.space with
      | 1 => (let k := scratchKey w.phys d.base; k + lo < 16 * g + 16 && 16 * g < k + hi)
      | 2 => (let a := d.addrOf lo
              let k := scratchKey (w.memberCore a.member) a.addr
              k < 16 * g + 16 && 16 * g < k + (hi - lo))
      | 3 => (let k := carveKey w.part d.home d.base; k + lo < 16 * g + 16 && 16 * g < k + hi)
      | _ => isGlobal (16 * g) && (List.range 16).any (fun i => s.rangeMaps p (d.base + lo) (hi - lo) (16 * g + i) 5 p.ptroot 0)
    { s with tags := s.tags.filter (fun g => !hit g) }

/-- 13 R291: the intervals that an operation reads, or writes, are complete; its entry is freed when all are. -/
def EngineOp.close (o : EngineOp) (write : Bool) : EngineOp :=
  let l := o.intervals.map (fun i => if i.write == write then { i with complete := true } else i)
  { o with intervals := l, entry := o.entry && l.any (fun i => !i.complete) }

/-- 13 R291: an operation of which everything has been read. -/
def State.closeReads (s : State) (core id : Nat) : State :=
  match s.op? id with
  | none => s
  | some (_, o) =>
    let all := if o.kind == .sdec then o.outlen.isSome && 2 * (o.consumed + o.fetched.length) == fieldOf o.header 8 4
      else o.landed.length + o.fetched.length + (s.underWay id).length == productOf o.dims
    if all && o.intervals.any (fun i => !i.write && !i.complete) then s.modOp core id (·.close false) else s

/-- After a landing: the first-byte record, the bytes counted, the intervals (13 R288, R291, R298). -/
def State.afterLanding (s : State) (core : Nat) (w : Workgroup) (id before now total : Nat) : State :=
  match s.op? id with
  | none => s
  | some (_, o) =>
    let s := if before = 0 && 0 < now then s.traceCopy w o 2 else s
    if now = total then s.modOp core id (fun o => (o.close false).close true)
    else if o.fault.isSome then s
    else if o.kind == .sdec then s.countBytes core o now
    else s.countBytes core o (now * sideWidth (Ptr.ofBits o.dst).fmt (Ptr.ofBits o.src).fmt / 8)

/-- STREAM_LANDING (13 R279, R282, R283, R285, R288, R292): elements named by their linear indices are read and land, in the order
given; what is held back, or not yet brought or acknowledged, stays for later (log entry 27). -/
def execStreamLanding (op : Nat) (elems : List Nat) (s : State) : Host.Outcome State Fault Refusal :=
  .next (match s.op? op with
    | none => s
    | some (core, o) =>
      match s.wg? o.wgKey with
      | none => s
      | some w =>
        if !(o.kind == .stream || o.kind == .sgath) || o.fault.isSome then s
        else
          let s := if o.landed.isEmpty && !elems.isEmpty && s.partClear core o true then s.untagHull w o else s
          let r := elems.foldl (fun (r : State × List FarPart) i => (r.1.fetchElem core w op i).landElem core w op i r.2) (s, [])
          let s := (r.1.sendParts core w op o.gid r.2).closeReads core op
          let now := ((s.op? op).map (fun x => x.2.landed.length)).getD 0
          if now = o.landed.length then s else s.afterLanding core w op o.landed.length now (productOf o.dims))

/-- 13 R286, R288, R298: a packet of the engine has been acknowledged: the elements of which none other is under way have landed. -/
def State.landAcked (s : State) (q : SentPacket) : State :=
  match s.op? q.opId with
  | none => s
  | some (core, o) =>
    match s.wg? o.wgKey with
    | none => s
    | some w =>
      let es := q.elems.filter (fun i => !(s.underWay q.opId).contains i && !o.landed.contains i)
      if es.isEmpty then s
      else
        let s := s.modOp core q.opId (fun o => es.foldl (fun o i => o.land i) o)
        s.afterLanding core w q.opId o.landed.length (o.landed.length + es.length) (productOf o.dims)

/-! ### Coded weight streams (03 R67 to R70, 13 R284) -/

/-- 03 R67: FREQ of the symbols. -/
def freqsOf (h : List Byte) : List Nat := (List.range 256).map (fun k => fieldOf h (0x1A0 + 2 * k) 2)

/-- 03 R67: the fields of a header are in range. -/
def headerValid (h : List Byte) : Bool :=
  fieldOf h 0 2 == 1 && fieldOf h 2 2 == 0 && fieldOf h 8 4 % 2 == 0 && fieldOf h 0xC 4 % 16 == 0 && fieldOf h 0xC 4 ≥ 0x3A0 &&
    fieldOf h 0x10 16 == 0 && (List.range 32).all (fun j => fieldOf h (0x20 + 4 * j) 4 ≥ 2 ^ 16) &&
    (freqsOf h).all (fun f => f < 4096) && (freqsOf h).foldl (· + ·) 0 == 4096

/-- 03 R68: the symbol of a slot, with its cumulative frequency and its frequency. -/
def symbolAt (l : List Nat) (k c slot : Nat) : Nat × Nat × Nat :=
  match l with
  | [] => (0, 0, 0)
  | f :: t => if slot < c + f then (k, c, f) else symbolAt t (k + 1) (c + f) slot

/-- 03 R70: a decode fault, with the header's address. -/
def EngineOp.decodeFault (o : EngineOp) (code paddr : Nat) : FaultInfo :=
  let q := Ptr.ofBits o.src
  { code := code, addr := q.base, vav := q.space == 0 || q.space == 4, paddr := paddr, pav := false }

/-- 13 R284: read and check the header, before any byte lands; it starts at a 16-byte-aligned address (03 R67). -/
def State.decodeHeader (s : State) (core : Nat) (w : Workgroup) (o : EngineOp) : State :=
  let q := Ptr.ofBits o.src
  if q.len < 928 then s.failOp core o.id ⟨0x2001, 0, false, 0, false⟩
  else
    match s.fetchBytes w o q 0 928 with
    | .fault f => s.failReach core w.part o.id f
    | .need l => s.engineAsk w o l
    | .bytes h ps =>
      let s := s.engineReach core w.part ps false
      if q.base % 16 != 0 || !headerValid h then s.failOp core o.id (o.decodeFault 0x5301 0)
      else if fieldOf h 0xC 4 + fieldOf h 8 4 > q.len || fieldOf h 4 4 > (Ptr.ofBits o.dst).len then
        s.failOp core o.id ⟨0x2001, 0, false, 0, false⟩
      else
        s.modOp core o.id (fun o =>
          { o with header := h, outlen := some (fieldOf h 4 4), size := fieldOf h 4 4,
                   rans := (List.range 32).map (fun j => fieldOf h (0x20 + 4 * j) 4) })

/-- 03 R68: the number of words of the stream that have been read. -/
def EngineOp.wordsRead (o : EngineOp) : Nat := o.consumed + o.fetched.length

/-- 03 R68, 13 R291: the next word of the stream is read. -/
def State.readAhead (s : State) (core : Nat) (w : Workgroup) (id : Nat) : State :=
  match s.op? id with
  | none => s
  | some (_, o) =>
    if o.fault.isSome || o.outlen.isNone || 2 * o.wordsRead ≥ fieldOf o.header 8 4 then s
    else
      match s.fetchBytes w o (Ptr.ofBits o.src) (fieldOf o.header 0xC 4 + 2 * o.wordsRead) 2 with
      | .fault f => s.failReach core w.part id f
      | .need l => s.engineAsk w o l
      | .bytes bs ps =>
        (s.engineReach core w.part ps false).modOp core id (fun o => { o with fetched := o.fetched ++ [(o.wordsRead, natOfBytes bs)] })

/-- 03 R68: one decode step, where the word it needs has been read; it lands a byte. -/
def State.decodeStep (s : State) (core : Nat) (w : Workgroup) (id : Nat) : State :=
  match s.op? id with
  | none => s
  | some (_, o) =>
    let i := o.steps
    if o.fault.isSome || o.outlen.isNone || some i == o.outlen then s
    else
      let j := i % 32
      let x := o.rans.getD j 0
      let sy := symbolAt (freqsOf o.header) 0 0 (x % 4096)
      let x' := sy.2.2 * (x / 4096) + x % 4096 - sy.2.1
      let land := fun (x used : Nat) =>
        (s.store [(scratchKey w.phys ((Ptr.ofBits o.dst).base + i), BitVec.ofNat 8 (fieldOf o.header (0xA0 + sy.1) 1))] none).modOp
          core id (fun o =>
            { o with rans := o.rans.modify j (fun _ => x), consumed := o.consumed + used, steps := i + 1, fetched := o.fetched.drop used })
      if x' < 2 ^ 16 then
        match o.fetched with
        | e :: _ => land (x' * 2 ^ 16 + e.2) 1
        | [] => if 2 * o.consumed ≥ fieldOf o.header 8 4 then s.failOp core id (o.decodeFault 0x5302 i) else s
      else land x' 0

/-- 13 R284, R292: the engine reads a word of the stream, when the next step may need it or cannot be made yet; and makes the step,
when nothing holds the interval it writes. -/
def State.decodeOn (s : State) (core : Nat) (w : Workgroup) (id : Nat) : State :=
  match s.op? id with
  | none => s
  | some (_, o) =>
    let lands := s.partClear core o true
    let s := if (o.fetched.isEmpty || !lands) && s.partClear core o false then s.readAhead core w id else s
    if lands then s.decodeStep core w id else s

/-- 03 R69: after the last step every word has been consumed and every state is 2^16. -/
def EngineOp.endsWell (o : EngineOp) : Bool :=
  2 * o.consumed == fieldOf o.header 8 4 && o.rans.all (· == 2 ^ 16)

/-- 13 R284: an SDEC is still to be decoded, wholly or in part. -/
def EngineOp.decoding (o : EngineOp) : Bool := o.kind == .sdec && o.fault.isNone && o.outlen != some o.steps

/-- SDEC_DECODE (03 R68 to R70, 13 R284): the oldest SDEC of a core reads its header, or makes up to n decode steps. -/
def execSdecDecode (op n : Nat) (s : State) : Host.Outcome State Fault Refusal :=
  .next (match s.op? op with
    | none => s
    | some (core, o) =>
      match s.wg? o.wgKey with
      | none => s
      | some w =>
        let first := (s.core core).ops.all (fun y => !y.decoding || y.id ≥ o.id)
        if o.kind != .sdec || !first || o.fault.isSome then s
        else
          let s := if o.outlen.isNone && s.partClear core o false then s.decodeHeader core w o else s
          let s := ((List.range n).foldl (fun s _ => s.decodeOn core w op) s).closeReads core op
          match s.op? op with
          | none => s
          | some (_, o') =>
            let s := if o'.outlen.isNone || (o'.outlen != some 0 && o'.steps = o.steps) then s
              else s.afterLanding core w op o.steps o'.steps (o'.outlen.getD 0)
            if o'.fault.isSome || o'.outlen != some o'.steps || o'.endsWell then s
            else s.failOp core op (o'.decodeFault 0x5303 o'.steps))

/-! ### Events of the engines -/

/-- 13 R286: an operation of the stream engine has landed all it writes, and nothing of it is under way. -/
def State.streamDone (s : State) (o : EngineOp) : Bool :=
  o.fault.isNone && !(s.sent.any (fun q => q.engine && q.opId == o.id)) &&
    (match o.kind with
     | .sdec => o.outlen == some o.steps && !o.entry && o.endsWell
     | .stream => o.landed.length == productOf o.dims
     | .sgath => o.landed.length == productOf o.dims
     | _ => false)

/-- 14 R311: an MLOOP or MSTEP has made all its steps. -/
def EngineOp.stepsDone (o : EngineOp) : Bool := (o.kind == .mloop || o.kind == .mstep) && o.steps == o.count

/-- ENGINE_OP_COMPLETE (13 R286 to R288, 03 R57; 14 R311): it contributes its flags, advances its timeline, makes its last
count and frees its entry. -/
def execEngineOpComplete (op : Nat) (s : State) : Host.Outcome State Fault Refusal :=
  .next (match s.op? op with
    | none => s
    | some (core, o) =>
      match s.wg? o.wgKey with
      | none => s
      | some w =>
        if s.streamDone o then s.completeStream core w o
        else if o.stepsDone then (s.modGroup o.gid (fun g => g.addFlags o.half o.fstat)).dropOp core op
        else s)

/-- 13 R299, 25 R464, R465: the record of a fault of an engine operation after its issue. -/
def State.engineRecord (s : State) (w : Workgroup) (o : EngineOp) (f : FaultInfo) : ErrorRecord :=
  let stream := o.kind == .stream || o.kind == .sgath || o.kind == .sdec
  { s.plainRecord w.part (coreDie w.phys) f.code 0 with
    vav := f.vav, pav := f.pav, ctxv := true, group := ((s.group? o.gid).map (·.groupId)).getD 0, ticket := w.ticket,
    wg := w.wg, engine := if stream then engineOf 2 w.phys + o.timeline * 65536 else engineOf 3 w.phys,
    lanes := if stream then BitVec.ofNat 64 o.ticket else 0, addr := f.addr, paddr := f.paddr }

/-- ENGINE_OP_FAULT (13 R286, R299): a fault met after issue is fatal to the nearest fault domain. -/
def execEngineOpFault (op : Nat) (s : State) : Host.Outcome State Fault Refusal :=
  .next (match s.op? op with
    | none => s
    | some (core, o) =>
      match s.wg? o.wgKey, o.fault with
      | some w, some f =>
        if o.reported then s
        else
          ((s.fatal w (s.engineRecord w o f)).modOp core op (fun o => { o with reported := true })).modGroup o.gid
            (fun g => { g with faulted := true })
      | _, _ => s)

/-! ### Held instructions issue again -/

/-- Let a split that is held for one thing issue its instruction again: the next step runs it. -/
def State.reissue (s : State) (g sid : Nat) (h : Hold) (ready : Ctx → Bool) : State :=
  match s.ctx? g sid with
  | none => s
  | some c =>
    if c.sp.hold == h && c.mayMove && ready c then
      { s with cur := some (g, sid) }
    else s

/-- SCOREBOARD_ENTRY_GRANT (13 R296): the split that asked first issues its operation, once an entry is free. -/
def execScoreboardEntryGrant (g sid : Nat) (s : State) : Host.Outcome State Fault Refusal :=
  .next (s.reissue g sid .entry (fun c => s.entriesHeld c.w.phys < 32 && !s.askedBefore c .entry))

/-- SCOREBOARD_ADMIT (13 R294): an access held on an interval is checked again. -/
def execScoreboardAdmit (g sid : Nat) (s : State) : Host.Outcome State Fault Refusal :=
  .next (s.reissue g sid .scoreboard (fun _ => true))

end Sys2Proof.Machine
end

