-- ==== Sys2Proof/Machine/Complete.lean ====
section
/-!
DEFINITION. Completion of flag-counted instructions (06 R120, R129), and the passing of held BWAIT and TLWAIT (16 R353,
R355).
-/
namespace Sys2Proof.Machine

/-- What the elements of a remote access write once their bytes are here: `v` registers, `p` registers, pointer-valid
bits, flags (10 R233, R241; 21 R386). -/
structure Arrived where
  v : List (Nat × Word)
  p : List (Nat × PtrBits)
  tags : List Nat
  f : FlagBits
  deriving DecidableEq, Repr

/-- One element from the bytes that responses have brought. -/
def PendingOp.arrive (o : PendingOp) (e : RemoteElem) : Arrived :=
  let raw := spanBits ⟨0, e.bytes, e.nibble⟩ ((List.range e.bytes).map (fun i => (lastOf (e.va + i) o.got).getD 0))
  if e.mfmt = 0x20 then
    let q := BitVec.ofNat 128 raw
    if e.tfmt = 0x20 then ⟨[], [(e.reg, q)], [], 0⟩
    else ⟨quadPut e.reg e.lane q, [], if (Ptr.ofBits q).wf then [e.reg / 4 * 64 + e.lane] else [], 0⟩
  else
    let r := loadValue o.fmode e.mfmt e.tfmt raw
    ⟨elemWrites e.tfmt e.reg e.lane r.1, [], [], r.2⟩

/-- 06 R120: everything a flag-counted instruction writes is known. -/
def PendingOp.ready (o : PendingOp) : Bool := o.awaits.isEmpty && !o.waitsEngine

/-- 06 R120, R129; 03 R57: the instruction writes its destinations, contributes its flags and counts its flag down. -/
def Group.finishOp (g : Group) (o : PendingOp) : Group :=
  let es := o.elems.map o.arrive
  let v := o.vWrites ++ (es.flatMap (·.v)).filter (fun kv => !o.lost.contains kv.1)
  -- 02 R32: a quad of which another write has taken a register ends with its pointer-valid bit clear
  let ts := (o.vTags ++ es.flatMap (·.tags)).filter (fun t => (quadKeys t).all (fun k => v.any (fun kv => kv.1 == k)))
  let p := o.pWrites ++ (es.flatMap (·.p)).filter (fun kv => !o.lost.contains (2 ^ 21 + kv.1))
  let g := { g with ops := g.ops.filter (fun x => x.id != o.id) }
  let g := (((g.setV v).setS o.sWrites).setP p).tagV ts
  let g := g.addFlags o.half (o.fstat ||| orFlags (es.map (·.f)))
  if o.flag < 12 then g.countDown o.flag else g

/-- A flag-counted instruction that is ready completes, with the acquire that follows its responses (21 R395). -/
def State.finishOp (s : State) (gid op : Nat) : State :=
  match s.group? gid with
  | none => s
  | some g =>
    match g.ops.find? (fun o => o.id == op), s.wg? g.wgKey with
    | some o, some w =>
      if !o.ready then s
      else
        let s := s.modGroup gid (fun g => g.finishOp o)
        if o.acq = 0 then s else s.acquireCore w.phys w.part (o.acq - 1)
    | _, _ => s

/-- FLAG_COUNTED_COMPLETION (06 R120). -/
def execFlagCountedCompletion (g op : Nat) (s : State) : Host.Outcome State Fault Refusal := .next (s.finishOp g op)

/-- A held wait passes: the split moves past the instruction, once the acquire is made. -/
def State.passWait (s : State) (c : Ctx) : State :=
  match decodeAt c.sp.clause c.sp.word with
  | .ok (_, k) =>
    (s.modSplit c.g.gid c.sp.id (fun sp => sp.advance k)).noteIssue c
  | .error _ => s

/-- BWAIT_PASS (16 R353): the parity has changed; the acquire is at CLUS. -/
def execBwaitPass (g sid : Nat) (s : State) : Host.Outcome State Fault Refusal :=
  .next (match s.ctx? g sid with
    | none => s
    | some c =>
      match c.sp.hold, c.sp.waitOn with
      | .bwait, some (k, parity) =>
        let act := lanesOf c.sp.mask
        if c.mayMove && (s.barrierAt k).passed parity && !s.heldByReplay c [s.event c 7 (act.headD 0) k 0] then
          ((s.acquireCore c.w.phys c.w.part 1).passWait c).logBarrier c act k
        else s
      | _, _ => s)

/-- TLWAIT_PASS (16 R355). -/
def execTlwaitPass (g sid : Nat) (s : State) : Host.Outcome State Fault Refusal :=
  .next (match s.ctx? g sid with
    | none => s
    | some c =>
      match c.sp.hold, c.sp.waitOn with
      | .tlwait, some (k, n) =>
        if c.mayMove && n ≤ (c.w.timeline k).reached then (s.acquireTl c.w k n).passWait c else s
      | _, _ => s)

end Sys2Proof.Machine
end

