-- ==== Sys2Proof/Machine/Matrix.lean ====
section
/-!
DEFINITION. The matrix unit (14 R300 to R319): operands, the arithmetic of a step, tile order, the sequencer.
-/
namespace Sys2Proof.Machine

/-! ### Operands (14 R302 to R306) -/

/-- 14 R302: a scratchpad operand named by a pair of `s` words. -/
structure MatOperand where
  base : Nat
  tpitch : Nat
  rpitch : Nat
  deriving DecidableEq, Repr

/-- 14 R302: the operand of two words, when its alignments and zero field hold. -/
def matOperand (a b : Word) : Option MatOperand :=
  let o : MatOperand := { base := bits a.toNat 20 0, tpitch := bits b.toNat 31 16, rpitch := bits b.toNat 15 0 }
  if a.toNat / 2 ^ 24 = 0 && o.base % 16 = 0 && o.tpitch % 16 = 0 && o.rpitch % 16 = 0 then some o else none

/-- The operand of two words that have been checked. -/
def matOperandOf (a b : Word) : MatOperand := (matOperand a b).getD ⟨0, 0, 0⟩

/-- 14 R304: the fields of a format block. -/
structure FormatBlock where
  afmt : Nat
  bfmt : Nat
  ftz : Bool
  ascl : Bool
  bscl : Bool
  ascale : Nat
  bscale : Nat
  astep : Nat
  bstep : Nat
  cbtab : Nat
  mrows : Nat
  ncols : Nat
  klast : Nat
  deriving DecidableEq, Repr

/-- 14 R304: the fields of 32 bytes. -/
def formatBlockOf (b : List Byte) : FormatBlock :=
  let fl := fieldOf b 3 1
  { afmt := fieldOf b 0 1, bfmt := fieldOf b 1 1, ftz := bitOf fl 0, ascl := bitOf fl 1, bscl := bitOf fl 2,
    ascale := fieldOf b 4 4, bscale := fieldOf b 8 4, astep := fieldOf b 0xC 2, bstep := fieldOf b 0xE 2,
    cbtab := fieldOf b 0x10 4, mrows := fieldOf b 0x14 1, ncols := fieldOf b 0x15 1, klast := fieldOf b 0x16 1 }

/-- The eight-bit formats of 14 R305. -/
def isF8 (f : Nat) : Bool := f == 0x13 || f == 0x14
/-- The sixteen-bit formats of 14 R305. -/
def isF16 (f : Nat) : Bool := f == 0x11 || f == 0x12

/-- 14 R305: the pair of formats is admitted, with scales or not. -/
def matPairOk (a b : Nat) (scales : Bool) : Bool :=
  (isF16 a && isF16 b && !scales) || ((isF8 a || a == 0x15) && (isF8 b || b == 0x15 || b == 0x16))

/-- 14 R303 to R305: the format block is valid; `av` for A from registers, [lo, hi) the allotment. -/
def formatBlockOk (b : List Byte) (av : Bool) (lo hi : Nat) : Bool :=
  let f := formatBlockOf b
  let tab := f.cbtab / 1024 * 1024
  fieldOf b 2 1 == 0x80 && fieldOf b 3 1 < 8 && (b.drop 0x17).all (· == 0) &&
    f.ascale % 4 == 0 && f.bscale % 4 == 0 && f.astep % 4 == 0 && f.bstep % 4 == 0 &&
    (f.ascl || (f.ascale == 0 && f.astep == 0)) && (f.bscl || (f.bscale == 0 && f.bstep == 0)) &&
    (if f.bfmt == 0x16 then lo ≤ tab && tab + 1024 ≤ hi else f.cbtab == 0) &&
    1 ≤ f.mrows && f.mrows ≤ 64 && 1 ≤ f.ncols && f.ncols ≤ 64 && 1 ≤ f.klast && f.klast ≤ 128 &&
    matPairOk f.afmt f.bfmt (f.ascl || f.bscl) && (!av || isF8 f.afmt || f.afmt == 0x15)

/-- 14 R302: bytes of a row of 128 elements. -/
def matRowBytes (fmt : Nat) : Nat := if fmt = 0x16 then 32 else 16 * fmtWidth fmt

/-- 14 R312: the hull of an operand of a number of rows over a number of steps, exact (00 R7): of no step count − 1 is −1. -/
def MatOperand.hull (o : MatOperand) (fmt rows count : Nat) : Nat × Int :=
  (o.base, (o.base : Int) + ((count : Int) - 1) * o.tpitch + ((rows - 1) * o.rpitch + matRowBytes fmt : Nat))
/-- 14 R312: the hull of a side's scales, exact likewise. -/
def scaleHull (scale step rows count : Nat) : Nat × Int :=
  (scale, (scale : Int) + ((count : Int) - 1) * step + (4 * ((rows + 2) / 3) : Nat))

/-- A hull lies in an allotment. -/
def hullIn (h : Nat × Int) (lo hi : Nat) : Bool := lo ≤ h.1 && decide (h.2 ≤ (hi : Int))

/-- 14 R312: the byte hull of several hulls, as a read interval. -/
def joinHulls (l : List (Nat × Int)) : List Interval :=
  match l with
  | [] => []
  | h :: t => [⟨(t.map (·.1)).foldl min h.1, (t.map (·.2.toNat)).foldl max h.2.toNat, false, false⟩]

/-! ### The arithmetic of a step (14 R307, R308) -/

/-- 14 R302: element k of a row's bytes. -/
def rowElem (fmt : Nat) (codebook row : List Byte) (k : Nat) : Val :=
  if fmt = 0x16 then
    let index := fieldOf row (2 * (k / 8)) 2
    codeWeight (fieldOf codebook (4 * (index / 256)) 4) (index % 256) (k % 8)
  else if fmt = 0x15 then decodeFmt 0x15 ((row.getD (k / 2) 0).toNat / (if k % 2 = 1 then 16 else 1) % 16)
  else decodeFmt fmt (fieldOf row (fmtWidth fmt / 8 * k) (fmtWidth fmt / 8))

/-- 03 R55, 14 R307: an element whose scaled value is non-zero and below 2^−126 is a zero of its sign. -/
def flushScaled (ftz : Bool) (sc x : Val) : Val :=
  match sc, x with
  | .fin _ ms es _, .fin n m e _ => if ftz && m != 0 && ms != 0 && dyLt (m * ms) (e + es) 1 (-126) then .dy n 0 0 else x
  | _, _ => x

/-- The exact sum of a list of values that holds no NaN and not both infinities. -/
def sumVals (l : List Val) : Val := l.foldl (fun a v => (addVal a v .rne).1) (.dy false 0 0)

/-- 14 R307: term and whether it is a NaN that no NaN operand brought. -/
def matTerm (sa sb : Val) (ps : List (Val × Val)) : Val × Bool :=
  let operandNan := sa.isNan || sb.isNan || ps.any (fun p => p.1.isNan || p.2.isNan)
  let bad := ps.any (fun p => infTimesZero p.1 p.2)
  let prods := ps.map (fun p => (mulVal p.1 p.2).1)
  let clash := prods.contains (.inf true) && prods.contains (.inf false)
  if operandNan then (.nan false, false)
  else if bad || clash then (.nan false, true)
  else ((mulVal (mulVal (sumVals prods) sa).1 sb).1, false)

/-- 14 R307, R308: the new accumulator element from its old one and the term; `snan` for a signalling NaN element. -/
def matAccumulate (ftz : Bool) (sa sb : Val) (ps : List (Val × Val)) (w : Word) : Word × FlagBits :=
  let c := inFmt ftz 0x10 w.toNat
  let t := matTerm sa sb ps
  let nv := flagIf (sa.isNan || sb.isNan || ps.any (fun p => p.1.isSnan || p.2.isSnan)) flagNV
  if t.1.isNan then (0x7FC00000#32, nv ||| flagIf (t.2 && !c.isNan) flagNV)
  else if t.1.isZero then (w, nv)
  else if c.isNan then (0x7FC00000#32, nv)
  else
    let r := addVal c t.1 .rne
    if r.1.isNan then (0x7FC00000#32, nv ||| flagNV)
    else
      let e := encodeFmt ftz 0x10 .rne r.1
      (BitVec.ofNat 32 e.1, nv ||| e.2)

/-- A list of row bytes for each row of an operand in scratchpad. -/
def State.matRows (s : State) (phys : Nat) (o : MatOperand) (fmt rows t : Nat) : List (List Byte) :=
  (List.range rows).map (fun i => s.bytes (scratchKey phys (o.base + t * o.tpitch + i * o.rpitch)) (matRowBytes fmt))

/-- 14 R303: the rows that registers hold. -/
def regRows (a : Assoc Word) (rows : Nat) : List (List Byte) :=
  (List.range rows).map (fun m => (List.range 128).map (fun j =>
    (assocGet 0 (j / 4 * 64 + m) a).extractLsb' (8 * (j % 4)) 8))

/-- 14 R306: the scale of row i in a step. -/
def State.matScale (s : State) (phys : Nat) (on : Bool) (scale step t i : Nat) : Val :=
  if on then scaleOfWord (s.num (scratchKey phys (scale + t * step + 4 * (i / 3))) 4) (i % 3) else .dy false 1 0

/-- 14 R307: rows [from, upto) of a step on a working bank: the new bank, with the flags. -/
def State.matRowsStep (s : State) (phys : Nat) (o : EngineOp) (bank : Assoc Word) (lo hi : Nat) : Assoc Word × FlagBits :=
  let f := formatBlockOf o.fmtBlock
  let t := o.steps
  let kn := if t + 1 = o.count then f.klast else 128
  let opA := matOperandOf (o.sops.getD 0 0) (o.sops.getD 1 0)
  let opB := matOperandOf (o.sops.getD 2 0) (o.sops.getD 3 0)
  let as := if o.aFromRegs then regRows o.aRegs f.mrows else s.matRows phys opA f.afmt f.mrows t
  let bs := s.matRows phys opB f.bfmt f.ncols t
  let cols := (List.range f.ncols).map (fun n =>
    let sb := s.matScale phys f.bscl f.bscale f.bstep t n
    (sb, (List.range kn).map (fun k => flushScaled f.ftz sb (rowElem f.bfmt o.codebook (bs.getD n []) k))))
  ((List.range f.mrows).filter (fun m => lo ≤ m && m < hi)).foldl (fun (acc : Assoc Word × FlagBits) m =>
    let sa := s.matScale phys f.ascl f.ascale f.astep t m
    let row := (List.range kn).map (fun k => flushScaled f.ftz sa (rowElem f.afmt [] (as.getD m []) k))
    ((List.range f.ncols).zip cols).foldl (fun (acc : Assoc Word × FlagBits) nc =>
      let key := m * 64 + nc.1
      let r := matAccumulate f.ftz sa nc.2.1 (row.zip nc.2.2) (assocGet 0 key acc.1)
      (assocSet 0 key r.1 acc.1, acc.2 ||| r.2)) acc) (bank, 0)

/-! ### Tile order and the sequencer (14 R315 to R317, R319) -/

/-- MLOOP and MSTEP. -/
def EngKind.isStep (k : EngKind) : Bool := k == .mloop || k == .mstep
/-- The operations of the stream engine. -/
def EngKind.isStream (k : EngKind) : Bool := k == .stream || k == .sgath || k == .sdec

/-- The operations on a tile that arrived before an operation and are still to take effect. -/
def State.earlier (s : State) (core : Nat) (o : EngineOp) : List EngineOp :=
  (s.core core).ops.filter (fun y => !y.kind.isStream && y.tile == o.tile && y.id < o.id)

/-- 14 R315, R319: the operation's turn on its tile has come. -/
def State.tileTurn (s : State) (core : Nat) (legacy : Bool) (o : EngineOp) : Bool :=
  let before := s.earlier core o
  let reads := fun (k : EngKind) => k == .aread || k == .astore
  match o.kind with
  | .mloop => before.all (fun y => y.kind.isStep || (!legacy && reads y.kind))
  | .mstep => before.all (fun y => y.kind.isStep || (!legacy && reads y.kind))
  | .azero => before.all (fun y => !legacy && reads y.kind)
  | .aswap => before.isEmpty
  | _ => before.all (fun y => if legacy then y.kind.isStep || reads y.kind else y.kind != .aswap)

/-- 14 R319: in a legacy image, a row at or above the watermark waits while an earlier step operation is queued. -/
def State.rowsReady (s : State) (core : Nat) (legacy : Bool) (o : EngineOp) : Bool :=
  !legacy || !((s.earlier core o).any (fun y => y.kind.isStep)) ||
    o.row + o.rows ≤ (((s.core core).tiles.getD o.tile Tile.reset)).watermark

/-- 14 R317: step operations that hold a place in the sequencer's queue. -/
def State.stepQueue (s : State) (core : Nat) : List EngineOp := (s.core core).ops.filter (fun o => o.kind.isStep)

/-- 13 R297: the operations that draining stream operations wait for, directly or through a chain of entries; the
stream operations themselves among them. -/
def drainSet (ops : List EngineOp) : List Nat :=
  ops.reverse.foldl (fun set y =>
    let live := fun (x : EngineOp) => x.intervals.filter (fun i => !i.complete)
    let waited := y.entry && ops.any (fun x => set.contains x.id && x.id > y.id &&
      (live x).any (fun i => (live y).any (fun z => z.conflicts i.lo i.hi i.write)))
    if (y.kind.isStream && y.fault.isNone) || waited then y.id :: set else set) []

/-- 22 R418: a split of a core that is to be pre-empted must still issue an instruction of its clause that waits for an engine. -/
def State.awaitsEngine (s : State) (core : Nat) : Bool :=
  s.wgs.any (fun w => w.phys == core && w.status == .stopping && (s.groupsOf w.key).any (fun g => g.splits.any (fun x =>
    x.hold == .scoreboard || x.hold == .entry || x.hold == .sequencer || x.hold == .rows)))

/-- 13 R297, 14 R317: the operations that the sequencer may serve: those of running workgroups; those that come no later than the
last one that a draining stream operation waits for, or an AREAD, whose destinations are written before a dump or a save (22
R415, R419); and all of them while a clause must still be issued to its end (R418). -/
def State.mayServe (s : State) (core : Nat) (o : EngineOp) : Bool :=
  ((s.wg? o.wgKey).map (·.status)) == some .resident || s.awaitsEngine core ||
    (s.core core).ops.any (fun y => !y.kind.isStream && o.id ≤ y.id &&
      (y.kind == .aread || (drainSet (s.core core).ops).contains y.id))

/-- 14 R317: the operation that the sequencer serves next. -/
def State.sequencerHead (s : State) (core : Nat) : Option EngineOp :=
  (s.stepQueue core).find? (fun o => o.fault.isNone && s.mayServe core o)

/-- A core's tile. -/
def State.tile (s : State) (core k : Nat) : Tile := (s.core core).tiles.getD k Tile.reset
/-- Change a tile of a core. -/
def State.modTile (s : State) (core k : Nat) (f : Tile → Tile) : State :=
  s.modCore core (fun c => { c with tiles := c.tiles.modify k f })

/-- The offsets of the bytes that a step reads, as hulls. -/
def EngineOp.stepHulls (o : EngineOp) : List (Nat × Nat) := o.intervals.map (fun i => (i.lo, i.hi))

/-- 25 R472: a poisoned granule of the scratchpad in a step's operands (log entry 30). -/
def State.stepPoison (s : State) (phys : Nat) (o : EngineOp) : Bool :=
  !s.poison.isEmpty && s.poison.any (fun g => isScratch (16 * g) && keyCore (16 * g) == phys &&
    o.stepHulls.any (fun h => h.1 < 16 * g % 2 ^ 21 + 16 && 16 * g % 2 ^ 21 < h.2))

/-- The last of an operation's steps is done: its flags are contributed, and its entry and queue place are free; a legacy
tile with no step queued has its watermark at 64 (14 R311, R319). -/
def State.finishSteps (s : State) (core : Nat) (o : EngineOp) : State :=
  let s := (s.modGroup o.gid (fun g => g.addFlags o.half o.fstat)).dropOp core o.id
  if (s.stepQueue core).any (fun y => y.tile == o.tile) then s
  else s.modTile core o.tile (fun t => { t with watermark := 64 })

/-- One step, or in a legacy image one slice of eight rows of the last step of a tile's last operation. -/
def State.serveStep (s : State) (core : Nat) (w : Workgroup) (o : EngineOp) : State :=
  if s.stepPoison w.phys o then s.failOp core o.id ⟨0x6102, 0, false, 0, false⟩
  else
    let t := s.tile core o.tile
    let lastOp := !((s.stepQueue core).any (fun y => y.tile == o.tile && y.id > o.id))
    let slices := w.legacy && o.steps + 1 = o.count && (lastOp || 0 < o.row)
    let hi := if slices then o.row + 8 else 64
    let r := s.matRowsStep w.phys o t.working o.row hi
    let whole := hi ≥ 64
    let o' := { o with fstat := o.fstat ||| r.2, steps := if whole then o.steps + 1 else o.steps, row := if whole then 0 else hi }
    let s := s.modTile core o.tile (fun t => { t with working := r.1, watermark := if slices && lastOp then hi else t.watermark })
    if o'.steps = o'.count then s.finishSteps core o' else s.modOp core o.id (fun _ => o')

/-- MATRIX_STEP (14 R307, R317): the sequencer performs one step of the operation at its head, once its tile's turn has
come and its operands are admitted. -/
def execMatrixStep (core : Nat) (s : State) : Host.Outcome State Fault Refusal :=
  .next (match s.sequencerHead core with
    | none => s
    | some o =>
      match s.wg? o.wgKey with
      | none => s
      | some w => if s.tileTurn core w.legacy o && s.opClear core o then s.serveStep core w o else s)

/-! ### Issue (14 R309 to R314, R316, R318) -/

/-- 14 R315: an operation arrives at the sequencer. -/
def State.queueOp (s : State) (c : Ctx) (o : EngineOp) : State :=
  let s := (s.modCore c.w.phys (fun k => { k with ops := k.ops ++ [o] })).bump
  if c.w.legacy && o.kind.isStep then s.modTile c.w.phys o.tile (fun t => { t with watermark := 0 }) else s

/-- 25 R472: a poisoned granule in bytes of the own scratchpad. -/
def State.scratchPoison (s : State) (phys lo n : Nat) : Bool :=
  !s.poison.isEmpty && s.poison.any (fun g => scratchKey phys lo < 16 * g + 16 && 16 * g < scratchKey phys lo + n)

/-- MLOOP and MSTEP (14 R311): `count` is none where its upper half is not zero; `sops` are the operand words of A and B. -/
def matExec (op : Op) (kind : EngKind) (av : Bool) (x : Args) (s : State) (count : Ctx → Option Nat) :
    Host.Outcome State Fault Refusal :=
  issue op x s (fun c act =>
    let lo := c.w.scratchOff
    let hi := lo + c.w.scratchLen
    let off := (c.s x.c.toNat).toNat
    let bad := fun (code : Nat) => Eff.trap s (lanesTrap act code) 0
    if off % 32 != 0 || off < lo || hi < off + 32 then bad 0x5501
    else if s.scratchBusy c.w.phys off (off + 32) false then .held .scoreboard
    else if s.scratchPoison c.w.phys off 32 then bad 0x6102
    else
      let blk := s.bytes (scratchKey c.w.phys off) 32
      if !formatBlockOk blk av lo hi then bad 0x5501
      else
        let f := formatBlockOf blk
        let words := (if av then [0, 0] else [c.s x.a.toNat, c.s (x.a.toNat + 1)]) ++ [c.s x.b.toNat, c.s (x.b.toNat + 1)]
        match matOperand (words.getD 0 0) (words.getD 1 0), matOperand (words.getD 2 0) (words.getD 3 0), count c with
        | some a, some b, some n =>
          let hullsA := (if av then [] else [a.hull f.afmt f.mrows n]) ++ (if f.ascl then [scaleHull f.ascale f.astep f.mrows n] else [])
          let hullsB := b.hull f.bfmt f.ncols n :: (if f.bscl then [scaleHull f.bscale f.bstep f.ncols n] else [])
          let tab := f.cbtab / 1024 * 1024
          let cb := f.bfmt == 0x16
          if !((hullsA ++ hullsB).all (fun h => hullIn h lo hi)) then bad 0x5502
          else if cb && s.scratchBusy c.w.phys tab (tab + 1024) false then .held .scoreboard
          else if cb && s.scratchPoison c.w.phys tab 1024 then bad 0x6102
          else if n = 0 then .done s
          else if (s.stepQueue c.w.phys).length ≥ 8 || s.askedBefore c .sequencer then s.queueFor c .sequencer
          else
            let ivs := realIntervals (joinHulls hullsA ++ joinHulls hullsB)
            let o := { (c.newEngineOp s kind) with
              tile := x.d.toNat, count := n, sops := words, fmtBlock := blk, intervals := ivs, entry := !ivs.isEmpty,
              codebook := if cb then s.bytes (scratchKey c.w.phys tab) 1024 else [],
              aFromRegs := av,
              aRegs := if av then ((List.range 2048).map (fun k => (k, c.v (x.a.toNat + k / 64) (k % 64)))).filter (fun kv => kv.2 != 0)
                       else [] }
            if s.entryWait c o then s.queueFor c .entry else .done (s.queueOp c o)
        | _, _, _ => bad 0x5502)

/-- 14 R311: MLOOP's count: bits [31:16] of `s`C+1 must be zero. -/
def Ctx.loopCount (c : Ctx) (x : Args) : Option Nat :=
  let n := (c.s (x.c.toNat + 1)).toNat
  if n < 2 ^ 16 then some n else none

/-- MLOOP (14 R311). -/
def execMloop (x : Args) (s : State) : Host.Outcome State Fault Refusal :=
  matExec .mloop .mloop false x s (fun c => c.loopCount x)
/-- MSTEP (14 R311). -/
def execMstep (x : Args) (s : State) : Host.Outcome State Fault Refusal :=
  matExec .mstep .mstep false x s (fun _ => some 1)
/-- MSTEP.v (14 R303, R311). -/
def execMstepV (x : Args) (s : State) : Host.Outcome State Fault Refusal :=
  matExec .mstepV .mstep true x s (fun _ => some 1)

/-- ASWAP (14 R313, R315): it arrives in the tile's order. -/
def execAswap (x : Args) (s : State) : Host.Outcome State Fault Refusal :=
  issueDone .aswap x s (fun c _ => s.queueOp c { (c.newEngineOp s .aswap) with tile := x.d.toNat })

/-- AZERO (14 R313, R315). -/
def execAzero (x : Args) (s : State) : Host.Outcome State Fault Refusal :=
  issueDone .azero x s (fun c _ => s.queueOp c { (c.newEngineOp s .azero) with tile := x.d.toNat })

/-- 14 R319: in a legacy image, rows of a tile that are not all below its watermark are waited for, which is charged as Z9. -/
def State.rowsWait (s : State) (c : Ctx) (tile upto : Nat) : Bool := c.w.legacy && (s.tile c.w.phys tile).watermark < upto

/-- AREAD (14 R314): it counts a flag and arrives in the tile's order. -/
def execAread (x : Args) (s : State) : Host.Outcome State Fault Refusal :=
  issue .aread x s (fun c act =>
    let r := ((immOf x).getD (c.s x.b.toNat).toNat)
    let n := countOf (x.mod.toNat % 4)
    if r ≥ 64 || r + n > 64 then .trap s (lanesTrap act 0x5502) 0
    else if s.rowsWait c x.a.toNat (r + n) then .held .rows
    else
      let o := { (c.newEngineOp s .aread) with
        tile := x.a.toNat, row := r, rows := n, dreg := x.d.toNat, fmt := x.c.toNat, lanes := maskOf act, pending := s.serial + 1 }
      let s := s.queueOp c o
      .done (s.pend c { c.newOp x s.serial with waitsEngine := true }))

/-- 14 R318: the element format of ASTORE. -/
def storeFmt (f : Nat) : Bool := f == 0x10 || isF16 f || isF8 f || f == 0x15

/-- ASTORE (14 R318): the checks, the write interval, and the arrival in the tile's order. -/
def execAstore (x : Args) (s : State) : Host.Outcome State Fault Refusal :=
  issue .astore x s (fun c act =>
    let q := c.ptr x.a.toNat
    let rb := (c.s x.b.toNat).toNat
    let r0 := rb % 256
    let cnt := rb / 256 % 256
    let pitch := (c.s x.c.toNat).toNat
    let w := fmtWidth q.fmt
    let last := (cnt - 1) * (pitch % 2 ^ 24) + 63
    let n := if w = 4 then last / 2 + 1 else (last + 1) * (w / 8)
    match q.check c.core c.w.gangSize 0 n .tileStore (storeFmt q.fmt) with
    | some code => .trap s (lanesTrap act code) 0
    | none =>
      if q.space != 1 || rb ≥ 2 ^ 16 || cnt = 0 || r0 + cnt > 64 || pitch ≥ 2 ^ 24 then .trap s (lanesTrap act 0x5503) 0
      else if s.rowsWait c x.d.toNat (r0 + cnt) then .held .rows
      else
        let o := { (c.newEngineOp s .astore) with
          tile := x.d.toNat, dst := c.p x.a.toNat, row := r0, rows := cnt, pitch := pitch, entry := true, fmt := q.fmt,
          intervals := [⟨q.base, q.base + n, true, false⟩] }
        if s.entryWait c o then s.queueFor c .entry else .done (s.queueOp c o))

/-- AMARK (14 R316, R319). -/
def execAmark (x : Args) (s : State) : Host.Outcome State Fault Refusal :=
  issueDone .amark x s (fun c _ =>
    let k := x.a.toNat
    let busy := (s.core c.w.phys).ops.any (fun o => o.tile == k && (o.kind.isStep || o.kind == .azero))
    let n := if c.w.legacy then (s.tile c.w.phys k).watermark else if busy then 0 else 64
    s.writeS c [(x.d.toNat, BitVec.ofNat 32 n)])

/-! ### Effects in tile order (14 R313 to R315, R318) -/

/-- An operation of a kind whose turn on its tile has come. -/
def State.tileOp (s : State) (op : Nat) (kind : EngKind) : Option (Nat × Workgroup × EngineOp) :=
  match s.op? op with
  | none => none
  | some (core, o) =>
    match s.wg? o.wgKey with
    | none => none
    | some w =>
      let serves := w.status == .resident || s.mayServe core o
      if o.kind == kind && serves && s.tileTurn core w.legacy o then some (core, w, o) else none

/-- TILE_AZERO_EFFECT (14 R313, R315). -/
def execTileAzeroEffect (op : Nat) (s : State) : Host.Outcome State Fault Refusal :=
  .next (match s.tileOp op .azero with
    | none => s
    | some (core, _, o) => (s.modTile core o.tile (fun t => { t with working := [] })).dropOp core op)

/-- TILE_ASWAP_EFFECT (14 R313, R315). -/
def execTileAswapEffect (op : Nat) (s : State) : Host.Outcome State Fault Refusal :=
  .next (match s.tileOp op .aswap with
    | none => s
    | some (core, _, o) =>
      (s.modTile core o.tile (fun t => { t with working := t.visible, visible := t.working })).dropOp core op)

/-- The bank that AREAD and ASTORE read: the visible one, and in a legacy image the only one (14 R319). -/
def Tile.readBank (t : Tile) (legacy : Bool) : Assoc Word := if legacy then t.working else t.visible

/-- 14 R314: the elements that AREAD writes, with their flags. -/
def areadElems (o : EngineOp) (bank : Assoc Word) : List (Nat × Flagged) :=
  (List.range o.rows).flatMap (fun k => (lanesOf o.lanes).map (fun l =>
    let bits := (assocGet 0 ((o.row + k) * 64 + l) bank).toNat
    let v := inFmt (ftzOf o.fmode) 0x10 bits
    let r := encodeFmt (ftzOf o.fmode) o.fmt (rmOf o.fmode) v
    ((o.dreg + k) * 64 + l, (extendElem o.fmt r.1, r.2 ||| snanFlag v))))

/-- TILE_AREAD_EFFECT (14 R314): the rows are read and the destinations written. -/
def execTileAreadEffect (op : Nat) (s : State) : Host.Outcome State Fault Refusal :=
  .next (match s.tileOp op .aread with
    | none => s
    | some (core, w, o) =>
      if !s.rowsReady core w.legacy o then s
      else
        let es := areadElems o ((s.tile core o.tile).readBank w.legacy)
        let s := s.modGroup o.gid (fun g => { g with ops := g.ops.map (fun p =>
          if p.id == o.pending then
            { p with waitsEngine := false, fstat := orFlags (es.map (·.2.2)),
                     vWrites := (es.map (fun e => (e.1, BitVec.ofNat 32 e.2.1))).filter (fun kv => !p.lost.contains kv.1) }
          else p) })
        (s.dropOp core op).finishOp o.gid o.pending)

/-- 14 R318: the elements that ASTORE writes, in order: position and bits, with their flags. -/
def astoreElems (o : EngineOp) (bank : Assoc Word) : List (Nat × Flagged) :=
  (List.range o.rows).flatMap (fun i => (List.range 64).map (fun n =>
    let v := inFmt (ftzOf o.fmode) 0x10 (assocGet 0 ((o.row + i) * 64 + n) bank).toNat
    let r := encodeFmt (ftzOf o.fmode) o.fmt (rmOf o.fmode) v
    (i * o.pitch + n, (r.1, r.2 ||| snanFlag v))))

/-- Write an element of a format at a position counted from a key. -/
def State.storeElemAt (s : State) (base fmt pos x : Nat) : State :=
  let sp := elemSpan (fmtWidth fmt) pos
  match sp.2.2 with
  | some hi => s.store [(base + sp.1, setNibble (s.byte (base + sp.1)) hi x)] none
  | none => s.storeBytes (base + sp.1) (bytesOfNat sp.2.1 x)

/-- TILE_ASTORE_EFFECT (14 R318): the rows are written to the scratchpad; the operation completes. -/
def execTileAstoreEffect (op : Nat) (s : State) : Host.Outcome State Fault Refusal :=
  .next (match s.tileOp op .astore with
    | none => s
    | some (core, w, o) =>
      if !s.rowsReady core w.legacy o || !s.opClear core o then s
      else
        let es := astoreElems o ((s.tile core o.tile).readBank w.legacy)
        let base := scratchKey w.phys (Ptr.ofBits o.dst).base
        let s := es.foldl (fun s e => s.storeElemAt base o.fmt e.1 e.2.1) s
        (s.modGroup o.gid (fun g => g.addFlags o.half (orFlags (es.map (·.2.2))))).dropOp core op)

/-- MATRIX_QUEUE_GRANT (14 R317): the split that asked first issues its operation, once the queue has a place. -/
def execMatrixQueueGrant (g sid : Nat) (s : State) : Host.Outcome State Fault Refusal :=
  .next (s.reissue g sid .sequencer (fun c => (s.stepQueue c.w.phys).length < 8 && !s.askedBefore c .sequencer))

end Sys2Proof.Machine
end

