-- ==== Sys2Proof/Machine/Braid.lean ====
section
/-!
DEFINITION. Braid: packets that arrive from other packages (21 R390, R393; 11 R263), answers to packets sent (21 R388), path
failure (21 R397, R398), the Mbatil link (21 R404; 25 R474).
-/
namespace Sys2Proof.Machine

/-! ### The receiving interface -/

/-- 21 R388: PERF of a source package, partition and path. -/
def State.perfOf (s : State) (source part path : Nat) : BraidPerf :=
  (s.perfs.find? (fun b => b.source == source && b.part == part && b.path == path)).getD ⟨source, part, path, 0, []⟩

/-- 21 R388: PERF moves over the packets performed above it. -/
def BraidPerf.settle (b : BraidPerf) (fuel : Nat) : BraidPerf :=
  match fuel with
  | 0 => b
  | fuel + 1 =>
    let n := (b.perf + 1) % 2 ^ 32
    if b.above.contains n then ({ b with perf := n, above := b.above.filter (· != n) } : BraidPerf).settle fuel else b

/-- 21 R388: packet `seq` of a path has been performed. -/
def State.notePerf (s : State) (source part path seq : Nat) : State :=
  let b := s.perfOf source part path
  let b := ({ b with above := b.above ++ [seq % 2 ^ 32] } : BraidPerf).settle (b.above.length + 1)
  { s with perfs := s.perfs.filter (fun x => !(x.source == source && x.part == part && x.path == path)) ++ [b] }

/-- 21 R397: the packet has been performed before. -/
def State.performed (s : State) (p : Packet) : Bool :=
  let b := s.perfOf p.source p.part p.path
  wrapReached b.perf p.seq || b.above.contains (p.seq % 2 ^ 32)

/-- 21 R393: PERF covers the snapshot of an ordered packet. -/
def State.covered (s : State) (p : Packet) : Bool :=
  (List.range p.snapshot.length).all (fun k => wrapReached (s.perfOf p.source p.part k).perf (p.snapshot.getD k 0))

/-- 11 R254, R255, R263, R492: the physical address of a byte at the owner, with its leaf, or the code of the fault met here. -/
def State.ownerByte (s : State) (p : Partition) (va : Nat) (u : Use) : Except Nat (Nat × Leaf) :=
  match s.walkFrom p va 5 p.ptroot with
  | .fault code _ _ => .error code
  | .leaf f =>
    let pa := f.pa + va % pageSize f.level
    if !f.fwd && !p.holds f.dev f.pa (pageSize f.level) then .error 0x3405
    else
      match f.refuse p s.pod u with
      | some code => .error code
      | none => if f.fwd then .error 0x3404 else .ok (pa, f)

/-- 11 R258: what a packet asks of the owner's leaf: a load reads, a store writes, an atomic, an LDRES and a STCND ask for both. -/
def packetUse (p : Packet) : Use :=
  { read := p.kind != 1, write := p.kind != 0, exec := false, dev := false, syncNarrow := false }

/-- A packet returns bytes of memory: a load, an LDRES, an atomic. -/
def packetReads (p : Packet) : Bool := p.kind == 0 || (p.kind == 2 && p.op != 11)
/-- A packet may write memory. -/
def packetMayWrite (p : Packet) : Bool := p.kind == 1 || (p.kind == 2 && p.op != 10)

/-- Offsets in the line that a packet touches. -/
def packetOffsets (p : Packet) : List Nat :=
  if p.kind = 2 then p.lanes.flatMap (fun l => (List.range p.width).map (fun i => l.off + i)) else p.bytes.map (·.1 % 128)

/-- The owner's die obtains a line for reading, or for writing, as its home slice (20 R374, R379). -/
def State.ownerTake (s : State) (write : Bool) (pa : Nat) : State :=
  if write then (s.copyBefore [pa]).own (homeDie pa) (pa / 128) else s.share_ (homeDie pa) (pa / 128)

/-- 11 R261: with checkpointing enabled, the first write to a page sets DCK in its leaf, at the entry's home. -/
def State.ownerDirty (s : State) (p : Partition) (f : Leaf) : State :=
  if p.obs.ckt = 0 || f.dck then s
  else
    let s := (s.own (homeDie f.entry) (f.entry / 128)).collect (f.entry / 4) none
    s.store [(f.entry, s.byte f.entry ||| 0x40#8)] none

/-- The registered words of a line end their registration: the home slice holds them (20 R367, R369). -/
def State.collectAll (s : State) (ks : List Nat) : State := (uniq (ks.map (· / 4))).foldl (fun s k => s.collect k none) s

/-- 10 R243, R244: the reservation of another package's lane. -/
def State.farLane (s : State) (p : Packet) (lane : Nat) : Option FarResv :=
  s.farResv.find? (fun r => r.source == p.source && r.part == p.part && r.group == p.group && r.lane == lane)
/-- Set or clear it. -/
def State.setFarLane (s : State) (p : Packet) (lane : Nat) (r : Option FarResv) : State :=
  let rest := s.farResv.filter (fun r => !(r.source == p.source && r.part == p.part && r.group == p.group && r.lane == lane))
  { s with farResv := match r with
      | some r => rest ++ [r]
      | none => rest }

/-- 10 R243, R244; 16 R356, R357: one lane of an atomic packet at the key of its element; the state and what it returns. -/
def State.packetLane (s : State) (p : Packet) (l : PacketLane) (key : Nat) : State × List Byte :=
  let old := s.num key p.width
  let put := fun (s : State) (v : Nat) => s.store ((List.range p.width).map (fun i => key + i) |>.zip (bytesOfNat p.width v)) none
  match p.op with
  | 9 => (if old = l.compare.toNat % 2 ^ (8 * p.width) then put s l.operand.toNat else s, bytesOfNat p.width old)
  | 10 =>
    (s.setFarLane p l.lane (some { source := p.source, part := p.part, group := p.group, lane := l.lane, key := key, width := p.width,
                                   cancelled := 0 }), bytesOfNat p.width old)
  | 11 =>
    let st := match s.farLane p l.lane with
      | some r => if r.key == key && r.width == p.width then r.cancelled else 1
      | none => 1
    let s := s.setFarLane p l.lane none
    (if st = 0 then put s l.operand.toNat else s, bytesOfNat 1 st)
  | op => (put s (atomNew op p.width p.fmt old (l.operand.toNat % 2 ^ (8 * p.width))), bytesOfNat p.width old)

/-- 16 R357, 10 R244: a packet that may write does: every store and atomic, a CAS where some lane compares equal, a STCND where some lane
holds its reservation. -/
def State.packetWrites (s : State) (p : Packet) (line : Nat) : Bool :=
  if p.kind = 2 && p.op = 9 then
    p.lanes.any (fun l => s.num (line + l.off) p.width == l.compare.toNat % 2 ^ (8 * p.width))
  else if p.kind = 2 && p.op = 11 then
    p.lanes.any (fun l => match s.farLane p l.lane with
      | some r => r.key == line + l.off && r.width == p.width && r.cancelled == 0
      | none => false)
  else packetMayWrite p

/-- 10 R236: the bytes of a store packet, its nibbles put into the bytes that stand. -/
def State.packetBytes (s : State) (p : Packet) (line : Nat) : List (Nat × Byte) :=
  p.bytes.foldl (fun acc b =>
    let k := line + b.1 % 128
    acc ++ [(k, if b.1 < 128 then b.2 else setNibble ((lastOf k acc).getD (s.byte k)) (256 ≤ b.1) b.2.toNat)]) []

/-- What performing a packet gives: the state, the bytes and the tags of the answer. -/
structure Performed where
  state : State
  bytes : List (Nat × Byte)
  tags : List Nat

/-- 21 R390: perform a packet whose line stands at physical address `line`. -/
def State.doPacket (s : State) (p : Packet) (line : Nat) : Performed :=
  match p.kind with
  | 0 =>
    ⟨s, p.bytes.map (fun b => (b.1, s.byte (line + b.1))), ((List.range 8).map (16 * ·)).filter (fun o => s.tagAt (line + o))⟩
  | 1 =>
    let s := s.store (s.packetBytes p line) none
    ⟨if p.tagged then s.tagKeys (p.bytes.map (fun b => line + b.1)) else s, [], []⟩
  | _ =>
    let r := p.lanes.foldl (fun (acc : State × List (Nat × Byte)) l =>
      let x := acc.1.packetLane p l (line + l.off)
      (x.1, acc.2 ++ ((List.range x.2.length).map (fun i => 8 * l.lane + i)).zip x.2)) (s, [])
    ⟨r.1, r.2, []⟩

/-- 21 R390: the receiving interface's answer. -/
def packetAnswer (p : Packet) (refused : Bool) (code : Nat) (bytes : List (Nat × Byte)) (tags : List Nat) : Reply :=
  { source := p.source, part := p.part, path := p.path, seq := p.seq, refused := refused, faultCode := code, bytes := bytes,
    tags := tags }

/-- 23 R440: the event of a packet (log entry 47). -/
def State.packetEvent (_s : State) (p : Packet) (line : Nat) : Event :=
  { kind := 8, lane := 0, group := 0xFF, wg := 0, ticket := 0, home := homeOf line, addr := BitVec.ofNat 64 line,
    value := BitVec.ofNat 64 (natOfBytes ((p.bytes.map (·.2)).take 8)) }

/-- 11 R263, 21 R390: the packet is performed at the home slice, or answered with the fault that its translation meets. -/
def State.performPacket (s : State) (pt : Partition) (p : Packet) : State :=
  let va := 128 * p.line
  let s' := s.notePerf p.source p.part p.path p.seq
  match s.ownerByte pt (va + (packetOffsets p).headD 0) (packetUse p) with
  | .error code => { s' with reply := some (packetAnswer p false code [] []) }
  | .ok (pa, f) =>
    let line := pa / 128 * 128
    let ks := (packetOffsets p).map (line + ·)
    if packetReads p && ks.any s.poisonAt then { s' with reply := some (packetAnswer p false 0x6002 [] []) }
    else
      let s := s'.ownerTake (packetMayWrite p) pa
      let s := if packetMayWrite p then s.collectAll ks else s
      let s := if s.packetWrites p line then s.ownerDirty pt f else s
      let r := s.doPacket p line
      let s := if r.state.observes p.part then r.state.logEvent p.part (r.state.packetEvent p line) else r.state
      { s with reply := some (packetAnswer p false 0 r.bytes r.tags) }

/-- 23 R441: the packet's event is one that its home holds. -/
def State.packetHeld (s : State) (pt : Partition) (p : Packet) : Bool :=
  match pt.replay, s.ownerByte pt (128 * p.line + (packetOffsets p).headD 0) (packetUse p) with
  | some r, .ok (pa, _) => replayHolds r.log [s.packetEvent p (pa / 128 * 128)]
  | _, _ => false

/-- PACKET_RECEIVE (21 R390, R393, R397, R398). -/
def execPacketReceive (p : Packet) (s : State) : Host.Outcome State Fault Refusal :=
  .next (match s.part? p.part with
    | none => { s with reply := some (packetAnswer p true 0 [] []) }
    | some pt =>
      if s.performed p || s.heldPkts.any (fun q => q.source == p.source && q.part == p.part && q.path == p.path && q.seq == p.seq) then s
      else if (p.ordered && !s.covered p) || s.packetHeld pt p then { s with heldPkts := s.heldPkts ++ [p] }
      else s.performPacket pt p)

/-- ORDERED_PACKET_RELEASE (21 R393). -/
def execOrderedPacketRelease (source part path seq : Nat) (s : State) : Host.Outcome State Fault Refusal :=
  .next (match s.heldPkts.find? (fun q => q.source == source && q.part == part && q.path == path && q.seq == seq), s.part? part with
    | some p, some pt =>
      if (!p.ordered || s.covered p) && !s.packetHeld pt p then
        ({ s with heldPkts := s.heldPkts.filter (fun q =>
            !(q.source == source && q.part == part && q.path == path && q.seq == seq)) } : State).performPacket pt p
      else s
    | _, _ => s)

/-! ### Answers to packets sent (21 R388, R390; 11 R263) -/

/-- A fault domain that is a whole partition on this package (21 R398). -/
def State.fatalPartition (s : State) (part die : Nat) (r : ErrorRecord) : State :=
  let s := s.record r
  if s.halts.any (fun h => h.part == part && h.fdom == 3) then
    { s with halts := replaceBy (fun h => h.part == part && h.fdom == 3) (fun h =>
        { h with nsecond := h.nsecond + 1, second := if h.second.isNone then some r else h.second }) s.halts }
  else
    { s with halts := s.halts ++
        [{ stage := .raised, part := part, fdom := 3, ticket := r.ticket, wg := r.wg, die := die,
           wgs := (s.wgs.filter (fun w => w.part == part)).map (·.key), cause := r, haltCyc := 0, nsecond := 0, second := none,
           records := [r], dropped := false, ctxLost := false }] }

/-- The split of a group that holds the lowest of some lanes, else its first. -/
def Group.splitOf (g : Group) (m : LaneMask) : Option Split :=
  (g.splits.find? (fun x => x.mask &&& m != 0)).orElse (fun _ => g.splits.head?)

/-- 11 R263: a fault met at the owner is fatal to the issuing group's nearest fault domain. -/
def State.ownerFault (s : State) (q : SentPacket) (code : Nat) : State :=
  match s.group? q.gid with
  | none => s
  | some g =>
    match s.wg? g.wgKey, g.splitOf q.lanes with
    | some w, some sp =>
      s.fatal w { s.groupRecord w g sp code 0 q.lanes with vav := true, addr := q.va, pav := true, paddr := q.dest }
    | _, _ => s

/-- 11 R263: once every packet of an instruction is answered, its faults are raised, the line of the lowest lane first. -/
def State.raiseAnswers (s : State) (gid opId : Nat) : State :=
  let mine := fun (x : SentPacket) => x.gid == gid && x.opId == opId && !x.engine
  if s.sent.any mine then s
  else
    let l := s.answers.filter (fun a => mine a.1)
    let s := { s with answers := s.answers.filter (fun a => !mine a.1) }
    (sortBy (fun a => (lanesOf a.1.lanes).headD 64) l).foldl (fun s a => s.ownerFault a.1 a.2) s

/-- The response's bytes as the operation keeps them: of a line by virtual address, of an atomic by lane. -/
def SentPacket.gotBytes (q : SentPacket) (bytes : List (Nat × Byte)) : List (Nat × Byte) :=
  bytes.map (fun b => (if q.pkt.kind = 0 then 128 * q.pkt.line + b.1 else 2 ^ 60 + b.1, b.2))

/-- An element has bytes in a line. -/
def RemoteElem.inLine (e : RemoteElem) (line : Nat) : Bool := e.va / 128 ≤ line && line ≤ (e.va + e.bytes - 1) / 128

/-- 21 R386, R390: a response serves a pending operation; an element whose line faulted is not written. -/
def PendingOp.take (o : PendingOp) (q : SentPacket) (got : List (Nat × Byte)) (failed : Bool) : PendingOp :=
  { o with awaits := o.awaits.filter (fun a => a != (q.dest, q.pkt.path, q.pkt.seq)), got := o.got ++ got,
           elems := if failed then o.elems.filter (fun e =>
               !(q.lanes.getLsbD e.lane && (q.pkt.kind != 0 || e.inLine q.pkt.line))) else o.elems }

/-- 02 R43: an operation none of whose accesses is to be performed writes nothing. -/
def PendingOp.stopAll (o : PendingOp) : PendingOp :=
  { o with vWrites := [], sWrites := [], pWrites := [], vTags := [], elems := [], fstat := 0 }

/-- 10 R241, 02 R28: the lanes of an LDP or LDP.q whose granules in the line came without their tags. -/
def PendingOp.untagged (o : PendingOp) (q : SentPacket) (tags : List Nat) : LaneMask :=
  maskOf ((o.elems.filter (fun e => e.mfmt == 0x20 && e.va / 128 == q.pkt.line && !tags.contains (e.va % 128))).map (·.lane))

/-- 20 R379, 02 R28: a line that an RSHR load brought is kept by its die, with its granules' tags, under the epoch of its sending. -/
def State.keepLine (s : State) (q : SentPacket) (bytes : List (Nat × Byte)) (tags : List Nat) : State :=
  match q.keep with
  | none => s
  | some (die, epoch) =>
    s.modDie die (fun d =>
      let mine := fun (r : RemoteLine) => r.part == q.pkt.part && r.line == q.pkt.line
      let old := match d.remote.find? (fun r => mine r && r.epoch == epoch) with
        | some r => r.bytes
        | none => []
      { d with remote := { part := q.pkt.part, line := q.pkt.line, epoch := epoch, tags := tags,
                           bytes := bytes.foldl (fun l b => insertBy (·.1) b (l.filter (fun x => x.1 != b.1))) old } ::
                         d.remote.filter (fun r => !mine r) })

/-- 20 R379: the words that a response brought come to the L1 of the core that asked, where the epoch still stands. -/
def State.keepInL1 (s : State) (q : SentPacket) (bytes : List (Nat × Byte)) : State :=
  match q.keep, (s.group? q.gid).bind (fun g => s.wg? g.wgKey) with
  | some (die, epoch), some w =>
    if w.onCore && coreDie w.phys == die && epoch == assocGet 0 q.pkt.part (s.die die).epochs then
      (uniq (bytes.map (fun b => b.1 / 4 * 4))).foldl (fun s o => s.fillFar w.phys q.pkt.part false q.dest (128 * q.pkt.line + o)) s
    else s
  | _, _ => s

/-- 21 R388: ACKED of a packet's path rises. -/
def State.countAck (s : State) (q : SentPacket) : State :=
  let b := s.braid q.pkt.part q.dest q.pkt.path
  s.setBraid { b with acked := (b.acked + 1) % 2 ^ 32 }

/-- The packet of a path and number. -/
def State.sentPacket (s : State) (dest part path seq : Nat) : Option SentPacket :=
  s.sent.find? (fun q => q.dest == dest && q.pkt.part == part && q.pkt.path == path && q.pkt.seq == seq)

/-- Take a packet off those sent. -/
def State.dropSent (s : State) (q : SentPacket) : State :=
  { s with sent := s.sent.filter (fun x =>
      !(x.dest == q.dest && x.pkt.part == q.pkt.part && x.pkt.path == q.pkt.path && x.pkt.seq == q.pkt.seq)) }

/-- What an answer leaves on the operation that the packet serves. -/
def State.serveAnswer (s : State) (q : SentPacket) (bytes : List (Nat × Byte)) (failed : Bool) : State :=
  if q.engine then
    match s.op? q.opId with
    | some (core, _) => (s.modOp core q.opId (fun o => { o with got := o.got ++ q.gotBytes bytes })).landAcked q
    | none => s
  else
    s.modGroup q.gid (fun g => { g with ops := replaceBy (fun o => o.id == q.opId) (fun o => o.take q (q.gotBytes bytes) failed) g.ops })

/-- PACKET_ACK (21 R388, R390; 11 R263; 20 R379). -/
def execPacketAck (dest part path seq : Nat) (bytes : List (Nat × Byte)) (tags : List Nat) (faultCode : Nat) (s : State) :
    Host.Outcome State Fault Refusal :=
  .next (match s.sentPacket dest part path seq with
    | none => s
    | some q =>
      let s := (s.dropSent q).countAck q
      let bad := match (s.group? q.gid).bind (fun g => g.ops.find? (fun o => o.id == q.opId)) with
        | some o => if q.engine || q.pkt.kind != 0 then 0 else o.untagged q tags
        | none => 0
      if faultCode != 0 then
        if q.engine then
          (match s.op? q.opId with
           | some (core, _) => s.modOp core q.opId (fun o => { o with fault := o.fault.orElse (fun _ =>
               some { code := faultCode, addr := q.va, vav := true, paddr := dest, pav := true }) })
           | none => s)
        else (({ (s.serveAnswer q [] true) with answers := s.answers ++ [(q, faultCode)] }) : State).raiseAnswers q.gid q.opId
      else if bad != 0 then
        -- 02 R43: no lane's access is performed
        (({ (s.serveAnswer q [] true).modGroup q.gid (fun g =>
              { g with ops := replaceBy (fun o => o.id == q.opId) PendingOp.stopAll g.ops }) with
            answers := s.answers ++ [({ q with lanes := bad }, 0x2006)] }) : State).raiseAnswers q.gid q.opId
      else
        (((s.keepLine q bytes tags).keepInL1 q bytes).serveAnswer q bytes false).raiseAnswers q.gid q.opId)

/-- 25 R465: ENGINE of the Braid port of a path. -/
def State.pathEngine (s : State) (dest path : Nat) : Nat :=
  8 * 2 ^ 24 + s.portOf dest path * 256 + path

/-- The first physical die of a partition, on which records of its package-wide events are reported (log entry 37). -/
def State.partDie (s : State) (part : Nat) : Nat := (s.partOf part).pdie.headD 0

/-- 21 R398: what a packet that will have no answer leaves: the operation it serves awaits it no longer (log entry 44); an engine
operation goes no further, the context's one record standing for it. -/
def State.abandonPacket (s : State) (q : SentPacket) (code : Nat) : State :=
  if q.engine then
    match s.op? q.opId with
    | some (core, _) => (s.dropSent q).modOp core q.opId (fun o =>
        { o with fault := o.fault.orElse (fun _ => some { code := code, addr := 0, vav := false, paddr := q.dest, pav := true }),
                 reported := o.reported || o.fault.isNone })
    | none => s.dropSent q
  else (s.dropSent q).serveAnswer q [] true

/-- PACKET_REFUSAL (21 R398): 0x8003, fatal to the partition on this package. -/
def execPacketRefusal (dest part path seq : Nat) (s : State) : Host.Outcome State Fault Refusal :=
  .next (match s.sentPacket dest part path seq with
    | none => s
    | some q =>
      let s := s.abandonPacket q 0x8003
      s.fatalPartition part (s.partDie part)
        { s.plainRecord part (s.partDie part) 0x8003 (actionOf 4 2) with engine := s.pathEngine dest path, pav := true, paddr := dest })

/-! ### Path failure (21 R397, R398) -/

/-- Set the state of a path, counting replays. -/
def State.setPath (s : State) (dest path : Nat) (st : LinkState) (more : Nat) : State :=
  let p : BraidPath := { dest := dest, path := path, port := s.portOf dest path, state := st,
                         replays := sat48 (s.replaysOf dest path + more) }
  { s with paths := s.paths.filter (fun x => !(x.dest == dest && x.path == path)) ++ [p] }

/-- 21 R397: a path is declared down: its packets are resent, marked as replays, and the failure is recorded. -/
def State.downPath (s : State) (dest path : Nat) : State :=
  let mine := fun (q : SentPacket) => q.dest == dest && q.pkt.path == path
  let n := (s.sent.filter mine).length
  let s := s.setPath dest path .down n
  let s := { s with sent := s.sent.map (fun (q : SentPacket) =>
    if mine q then { q with pkt := { q.pkt with replay := true }, pinnedDown := true } else q) }
  s.record { s.plainRecord 0xFFFF s.master 0x8001 (actionOf 0 5) with engine := s.pathEngine dest path, pav := true, paddr := dest }

/-- PATH_DOWN (21 R397). -/
def execPathDown (dest path : Nat) (s : State) : Host.Outcome State Fault Refusal :=
  .next (if path < Config.pathsPerRoute && dest != s.pod && (s.linkState dest path).takes then s.downPath dest path else s)

/-- PATH_RESTORE (21 R397): a retrained path is up again once ACKED = SENT on it for every context. -/
def execPathRestore (dest path : Nat) (s : State) : Host.Outcome State Fault Refusal :=
  .next (if !(s.linkState dest path).takes && s.counts.all (fun b => b.dest != dest || b.path != path || b.sent == b.acked) then
      s.setPath dest path .up 0
    else s)

/-- DESTINATION_UNREACHABLE (21 R398): with no path to a destination, every context with packets there raises 0x8002. -/
def execDestinationUnreachable (dest : Nat) (s : State) : Host.Outcome State Fault Refusal :=
  .next (if !(s.livePaths dest).isEmpty then s
    else
      let qs := s.sent.filter (fun q => q.dest == dest)
      let parts := uniq (qs.map (·.pkt.part))
      let s := qs.foldl (fun s q => s.abandonPacket q 0x8002) s
      parts.foldl (fun s part =>
        let path := ((qs.find? (fun q => q.pkt.part == part)).map (·.pkt.path)).getD 0
        s.fatalPartition part (s.partDie part)
          { s.plainRecord part (s.partDie part) 0x8002 (actionOf 4 2) with engine := s.pathEngine dest path, pav := true, paddr := dest }) s)

/-! ### The Mbatil link (21 R404; 25 R474) -/

/-- The lanes that a pending operation writes. -/
def PendingOp.lanes (o : PendingOp) : LaneMask := maskOf (uniq (o.vWrites.map (fun w => w.1 % 64) ++ o.elems.map (·.lane)))

/-- 21 R404: a group's access in flight over the link fails: its operation writes nothing, and the fault is fatal. -/
def State.failAccess (s : State) (g : Group) (o : PendingOp) : State :=
  match s.wg? g.wgKey, g.splitOf o.lanes with
  | some w, some sp =>
    let s := s.fatal w (s.groupRecord w g sp 0x9001 0 o.lanes)
    s.modGroup g.gid (fun g =>
      let g := { g with ops := g.ops.filter (fun x => x.id != o.id) }
      if o.flag < 12 then g.countDown o.flag else g)
  | _, _ => s

/-- An engine operation has bytes in tier-2 memory: some page of its source or destination maps there, as the tables stand. -/
def State.opOverLink (s : State) (w : Workgroup) (o : EngineOp) : Bool :=
  let p := s.partOf w.part
  [Ptr.ofBits o.src, Ptr.ofBits o.dst].any (fun q =>
    (q.space == 0 || q.space == 4) && q.len != 0 &&
      (uniq ((List.range (q.len / 4096 + 2)).map (fun i => min (q.base + 4096 * i) (q.base + q.len - 1)))).any (fun va =>
        match s.walkFrom p va 5 p.ptroot with
        | .leaf f => !f.fwd && isTier2 (f.pa + va % pageSize f.level)
        | .fault _ _ _ => false))

/-- 21 R404: the engine operations in flight over the link; whether one has an access in flight just then is open (log
entry 48). -/
def State.failEngines (s : State) : State :=
  s.cores.foldl (fun s (kc : Nat × Core) => kc.2.ops.foldl (fun s o =>
    match s.wg? o.wgKey with
    | none => s
    | some w =>
      if o.kind.isStream && s.opOverLink w o && Config.mixBool s.free o.id then
        s.modOp kc.1 o.id (fun o => { o with fault := o.fault.orElse (fun _ => some ⟨0x9001, 0, false, 0, false⟩) })
      else s) s) s

/-- MBATIL_LINK_DOWN (21 R404). -/
def execMbatilLinkDown (s : State) : Host.Outcome State Fault Refusal :=
  .next (if s.linkDown then s
    else
      let fly := s.groups.flatMap (fun g => (g.ops.filter (fun o => o.tier2)).map (fun o => (g, o)))
      (fly.foldl (fun (s : State) (x : Group × PendingOp) => s.failAccess x.1 x.2) { s with linkDown := true }).failEngines)

/-- A unit has been retrained once more. -/
def State.countRetrain (s : State) (unit : Nat) : State :=
  { s with retrains := assocSet 0 unit (assocGet 0 unit s.retrains + 1) s.retrains }

/-- MBATIL_LANE_DEGRADED (21 R404): a lane retrains while the others carry traffic. -/
def execMbatilLaneDegraded (lane : Nat) (s : State) : Host.Outcome State Fault Refusal :=
  let s := { s.countRetrain lane with badLanes := setAdd lane s.badLanes }
  .next (s.record { s.plainRecord 0xFFFF s.master 0x9002 (actionOf 0 6) with engine := 9 * 2 ^ 24 + lane })

end Sys2Proof.Machine
end

