-- ==== Sys2Proof/Machine/Control.lean ====
section
/-!
DEFINITION. The control block (08 R168 to R189), LAUNCH and BKPT apart.
-/
namespace Sys2Proof.Machine

/-! ### Branches (08 R171 to R173) -/

/-- 08 R172: TGT × 8. -/
def tgtOf (x : Args) : Word := (x.a ++ x.b ++ x.c : BitVec 24).setWidth 32 <<< 3

/-- 08 R168: the reconvergence offset of RW; none for NONE. -/
def rwOf (x : Args) : Word :=
  match immOf x with
  | some w => if bitOf w 24 then noRpc else BitVec.ofNat 32 (w % 2 ^ 24 * 8)
  | none => noRpc

/-- 08 R171: Branch(S, tgt, r) for a non-empty T, in a state with the instruction's scalar effect. -/
def State.branch (s : State) (c : Ctx) (act : List Nat) (tgt r : Word) : Eff :=
  let t := maskOf act
  let f := c.sp.mask &&& ~~~t
  let gid := c.g.gid
  let sid := c.sp.id
  if tgt.toNat % 8 != 0 then .trap s (lanesTrap act 0x5005) 0
  else
    match s.group? gid with
    | none => .moved s
    | some g =>
      if f = 0 then
        let g' := g.modSplit sid (fun sp => sp.goto tgt)
        -- 07 R153: a branch backwards gives way to the queue
        let g' := if c.sp.state == .ready && tgt.toNat ≤ c.sp.pc.toNat then g'.giveWay s.serial sid else g'
        .moved (s.putSplits c.w sid g g')
      else
        let r := if r = noRpc then c.sp.rpc else r
        match g.divide (c.w.spill / 64) s.serial sid t tgt r with
        | .ok g' => .moved (s.putSplits c.w sid g g')
        | _ => .trap s (c.allLanes 0x5004 none none) 0

/-- A branch: its scalar effect first, then the branch itself. -/
def branchExec (o : Op) (x : Args) (s : State) (pre : State → Ctx → State) (tgt r : Ctx → Word) :
    Host.Outcome State Fault Refusal :=
  issue o x s (fun c act => (pre s c).branch c act (tgt c) (r c))

/-- BRA (08 R171, R172). -/
def execBra (x : Args) (s : State) : Host.Outcome State Fault Refusal :=
  branchExec .bra x s (fun s _ => s) (fun _ => tgtOf x) (fun _ => rwOf x)
/-- BRD (08 R171, R172). -/
def execBrd (x : Args) (s : State) : Host.Outcome State Fault Refusal :=
  branchExec .brd x s (fun s _ => s) (fun _ => tgtOf x) (fun _ => rwOf x)
/-- BRI (08 R171, R172). -/
def execBri (x : Args) (s : State) : Host.Outcome State Fault Refusal :=
  branchExec .bri x s (fun s _ => s) (fun c => c.s x.a.toNat) (fun _ => rwOf x)
/-- CALL (08 R173): `s`D takes the return offset first (log entry 19). -/
def execCall (x : Args) (s : State) : Host.Outcome State Fault Refusal :=
  branchExec .call x s (fun s c => s.writeS c [(x.d.toNat, c.sp.nextPc)]) (fun _ => tgtOf x) (fun c => c.sp.nextPc)
/-- CALLI (08 R173): `s`A is read before `s`D is written. -/
def execCalli (x : Args) (s : State) : Host.Outcome State Fault Refusal :=
  branchExec .calli x s (fun s c => s.writeS c [(x.d.toNat, c.sp.nextPc)]) (fun c => c.s x.a.toNat) (fun c => c.sp.nextPc)
/-- RET (08 R173): it reconverges at the split's own RPC. -/
def execRet (x : Args) (s : State) : Host.Outcome State Fault Refusal :=
  branchExec .ret x s (fun s _ => s) (fun c => c.s x.a.toNat) (fun c => c.sp.rpc)

/-! ### Lanes and splits (08 R174 to R178) -/

/-- 07 R150: the issuing split's mask has become empty. -/
def State.vanishSplit (s : State) (c : Ctx) : State :=
  match s.group? c.g.gid with
  | none => s
  | some g => s.putSplits c.w c.sp.id g (g.vanish s.serial c.sp.id)

/-- Take lanes out of the issuing split: held for its RPC, or ended; the split moves on or dissolves. -/
def State.removeLanes (s : State) (c : Ctx) (m : LaneMask) (hold : Bool) : Eff :=
  let s' := s.modSplit c.g.gid c.sp.id (fun sp =>
    { sp with mask := sp.mask &&& ~~~m, held := if hold then sp.held ||| m else sp.held })
  if c.sp.mask &&& ~~~m = 0 then .moved (s'.vanishSplit c) else .done s'

/-- MASK (08 R174). -/
def execMaskLanes (x : Args) (s : State) : Host.Outcome State Fault Refusal :=
  issue .maskLanes x s (fun c act =>
    let m := maskOf act
    let set := if x.mod.toNat % 2 = 1 then BitVec.ofNat 64 (c.s2 x.a.toNat) else BitVec.allOnes 64
    s.removeLanes c (m &&& set) (c.sp.parent.isSome || c.sp.rpc != noRpc))

/-- END (08 R175). -/
def execEndLanes (x : Args) (s : State) : Host.Outcome State Fault Refusal :=
  issue .endLanes x s (fun c act => s.removeLanes c (maskOf act) false)

/-- 08 R176: an item of the split table. -/
def Ctx.splitItem (c : Ctx) (item : Nat) : Nat :=
  match item with
  | 0 => c.g.splits.length
  | 1 => 8 - c.g.resident.length
  | 2 => c.w.spill / 64 - (c.g.splits.filter (·.spilled)).length
  | 3 => c.sp.rpc.toNat
  | _ => c.sp.parent.getD 0x80

/-- SPLITQ (08 R176). -/
def execSplitq (x : Args) (s : State) : Host.Outcome State Fault Refusal :=
  issueDone .splitq x s (fun c _ => s.writeS c [(x.d.toNat, BitVec.ofNat 32 (c.splitItem (x.mod.toNat % 8)))])

/-- YIELD (08 R177). -/
def execYield (x : Args) (s : State) : Host.Outcome State Fault Refusal :=
  match issue .yield x s (fun _ _ => .done s), s.cur with
  | .next s', some (gid, sid) =>
    .next (s'.modGroup gid (fun g => { (g.modSplit sid (fun sp => { sp with yielded := true })) with yielded := true }))
  | o, _ => o

/-- 07 R156: the condition of the EV fields holds. -/
def State.eventHolds (s : State) (w : Workgroup) (g : Group) (kind reg : Nat) (val : DWord) : Bool :=
  match kind with
  | 1 => val.toNat ≤ (w.timeline reg).reached
  | 2 => (s.barrierAt (scratchKey w.phys (val.toNat % 2 ^ 32))).passed (val.toNat / 2 ^ 32 % 2)
  | _ => assocGet 0 reg g.flags = 0

/-- 08 R178: a ready split parks in waiting-event; an in-trap one is held at its WAITEV until the condition holds, its EV fields
zero (07 R142). -/
def State.waitEvent (s : State) (c : Ctx) (kind reg : Nat) (val : DWord) : Eff :=
  if c.sp.state == .inTrap then
    if s.eventHolds c.w c.g kind reg val then .done s
    else .wait (s.modSplit c.g.gid c.sp.id (fun sp => { sp with waitOn := some (256 * kind + reg, val.toNat) })) .event
  else
    .moved (s.modSplit c.g.gid c.sp.id (fun sp =>
      { sp.goto sp.nextPc with evKind := kind, evReg := reg, evVal := val, state := .waitingEvent }))

/-- WAITEV.tl (08 R178). -/
def execWaitevTl (x : Args) (s : State) : Host.Outcome State Fault Refusal :=
  issue .waitevTl x s (fun c _ => s.waitEvent c 1 x.a.toNat (BitVec.ofNat 64 (c.s2 x.b.toNat)))
/-- WAITEV.bar (08 R178). -/
def execWaitevBar (x : Args) (s : State) : Host.Outcome State Fault Refusal :=
  issue .waitevBar x s (fun c _ =>
    let off := (c.s x.a.toNat).toNat
    if !c.w.barrierOffset off then .trap s (c.allLanes 0x500A none none) 0
    else s.waitEvent c 2 0 (BitVec.ofNat 64 (off + 2 ^ 32 * ((c.s x.b.toNat).toNat % 2))))
/-- WAITEV.flag (08 R178). -/
def execWaitevFlag (x : Args) (s : State) : Host.Outcome State Fault Refusal :=
  issue .waitevFlag x s (fun c _ => s.waitEvent c 3 x.a.toNat 0)

/-- NOP (08 R179). -/
def execNop (x : Args) (s : State) : Host.Outcome State Fault Refusal := issueDone .nop x s (fun _ _ => s)

/-! ### Traps (08 R180, R181) -/

/-- TRAP (08 R180). -/
def execTrap (x : Args) (s : State) : Host.Outcome State Fault Refusal :=
  issue .trap x s (fun _ act => .trap s (lanesTrap act 0x5006) x.a)

/-- 07 R145, 22 R411: the in-trap split returns to its faulting clause and frees its frame. -/
def Group.trapReturn (g : Group) (sid : Nat) : Group :=
  match (g.split? sid).bind (·.frame) with
  | none => g
  | some k =>
    match g.frames.find? (fun f => f.num == k) with
    | none => g
    | some f => (g.modSplit sid (fun sp => sp.trapReturn f)).dropFrames

/-- TRET (08 R181). -/
def execTret (x : Args) (s : State) : Host.Outcome State Fault Refusal :=
  issue .tret x s (fun c _ =>
    if c.sp.state == .inTrap then .moved (s.modGroup c.g.gid (fun g => g.trapReturn c.sp.id))
    else .trap s (c.allLanes 0x5008 none none) 0)

/-! ### Services (08 R183) -/

/-- The 64-bit payload of SYS. -/
def Ctx.payload (c : Ctx) (x : Args) : Nat := c.s2 x.b.toNat

/-- 08 R183: a record of the payload. -/
def State.sysRecordOf (s : State) (c : Ctx) (x : Args) (act : List Nat) (code : Nat) : ErrorRecord :=
  { s.groupRecord c.w c.g c.sp code 0 (maskOf act) with addr := c.payload x }

/-- SYS RECORD, and the services unknown, which raise 0x500B (08 R183). -/
def execSysRecord (x : Args) (s : State) : Host.Outcome State Fault Refusal :=
  issue .sysRecord x s (fun c act =>
    if x.a != 0 then .trap s (lanesTrap act 0x500B) 0
    else
      let s := s.releaseCore c.w.phys 3
      .done ((s.record (s.sysRecordOf c x act 0x0001)).writeS c [(x.d.toNat, 0#32)]))

/-- SYS NOTIFY (08 R183, 21 R402). -/
def execSysNotify (x : Args) (s : State) : Host.Outcome State Fault Refusal :=
  issueDone .sysNotify x s (fun c _ =>
    let s := s.releaseCore c.w.phys 3
    let p := s.partOf c.w.part
    if p.irqJ = 0 || s.irqFull p then s.writeS c [(x.d.toNat, 1#32)]
    else (s.irqPut p 3 (c.payload x) c.w.ticket).writeS c [(x.d.toNat, 0#32)])

/-- SYS STOP (08 R183). -/
def execSysStop (x : Args) (s : State) : Host.Outcome State Fault Refusal :=
  issue .sysStop x s (fun c act =>
    let s := s.releaseCore c.w.phys 3
    .moved ((s.fatal c.w (s.sysRecordOf c x act 0x0002)).markFaulted c.g.gid c.sp.id))

/-! ### Special registers (08 R185 to R187) -/

/-- 22 R408: TRAPINFO k of a frame. -/
def TrapFrame.info (f : TrapFrame) (k : Nat) : Nat :=
  match k with
  | 0 => f.vav.toNat * 2 ^ 28 + f.retry.toNat * 2 ^ 27 + f.word % 8 * 2 ^ 24 + f.aux.toNat * 2 ^ 16 + f.code.toNat
  | 1 => f.resume.toNat
  | 2 => f.lanes.toNat % 2 ^ 32
  | 3 => f.lanes.toNat / 2 ^ 32
  | 4 => f.va.toNat % 2 ^ 32
  | 5 => f.va.toNat / 2 ^ 32
  | 6 => f.iword.toNat % 2 ^ 32
  | _ => f.iword.toNat / 2 ^ 32

/-- 08 R185: the value of a special register in a lane; `cycle` is the die's. -/
def Ctx.special (c : Ctx) (cycle sr l : Nat) : Nat :=
  match sr with
  | 0x00 => c.laneNo l
  | 0x01 => (frameLanes c.w.legacy c.sp.half c.sp.mask).toNat
  | 0x02 => c.sp.id
  | 0x03 => if c.w.legacy then 2 * c.g.groupId + c.sp.half.toNat else c.g.groupId
  | 0x04 => c.g.role
  | 0x05 => c.w.x
  | 0x06 => c.w.y
  | 0x07 => c.w.z
  | 0x08 => c.w.countX
  | 0x09 => c.w.countY
  | 0x0A => c.w.countZ
  | 0x0B => c.w.member
  | 0x0C => c.w.gangSize
  | 0x0D => cycle
  | 0x10 => (c.g.fmode c.sp.half).toNat
  | 0x11 => (c.g.fstat c.sp.half).toNat
  | 0x12 => c.sp.half.toNat
  | _ =>
    match c.sp.frame.bind (fun k => c.g.frames.find? (fun f => f.num == k)) with
    | some f => f.info (sr % 8)
    | none => 0

/-- 08 R185: the registers of 64 bits. -/
def srWide (sr : Nat) : Bool := sr == 0x01 || sr == 0x0D

/-- RDS (08 R186). -/
def execRds (x : Args) (s : State) : Host.Outcome State Fault Refusal :=
  issue .rds x s (fun c act =>
    let sr := x.a.toNat
    let cycle := (s.die (coreDie c.w.phys)).cycle % 2 ^ 64
    if 0x18 ≤ sr && c.sp.frame.isNone then .trap s (lanesTrap act 0x5008) 0
    else if x.mod.toNat % 2 = 1 then .done (writeLanes s c act (srWide sr) x.d.toNat (c.special cycle sr))
    else .done (s.writeS c (sPut (srWide sr) x.d.toNat (c.special cycle sr 0))))

/-- 03 R53, R57: write FMODE (0x10) or FSTAT of a half. -/
def Group.writeMode (g : Group) (half mode : Bool) (w : Word) : Group :=
  match mode, half with
  | true, false => { g with fmode0 := fmodeWrite w }
  | true, true => { g with fmode1 := fmodeWrite w }
  | false, false => { g with fstat0 := fstatWrite w }
  | false, true => { g with fstat1 := fstatWrite w }

/-- WRS (08 R187). -/
def execWrs (x : Args) (s : State) : Host.Outcome State Fault Refusal :=
  issueDone .wrs x s (fun c _ =>
    s.modGroup c.g.gid (fun g => g.writeMode c.sp.half (x.d == 0x10#8) (c.s x.a.toNat)))

end Sys2Proof.Machine
end

