-- ==== Sys2Proof/Machine/Derive.lean ====
section
/-!
DEFINITION. Deriving and inspecting pointers (10 R222 to R228).
-/
namespace Sys2Proof.Machine

/-- 10 R223: the sub-range at an offset; `len` is none for PADD, which keeps what is left. -/
def Ptr.derive (q : Ptr) (off : Nat) (len : Option Nat) : Except Nat Ptr :=
  if !q.wf then .error 0x2007
  else
    let lo := if q.space = 2 then off % 2 ^ 21 else off
    let beyond := match len with
      | none => decide (lo > q.len)
      | some n => decide (lo + n > q.len)
    let n := len.getD (q.len - lo)
    if q.space = 2 then
      let m := bits q.base 23 21 + bits off 23 21
      if off ≥ 2 ^ 24 || m > 7 || beyond then .error 0x2008
      else .ok { q with base := m * 2 ^ 21 + (q.base % 2 ^ 21 + lo), len := n }
    else if beyond then .error 0x2008
    else .ok { q with base := q.base + off, len := n }

/-- 10 R225: clear rights and lower CEIL; `b` and `m` are the fields B and C. -/
def Ptr.restrict (q : Ptr) (b m : Nat) : Except Nat Ptr :=
  if !q.wf then .error 0x2007
  else
    let q' := { q with r := q.r && !bitOf m 0, w := q.w && !bitOf m 1, x := q.x && !bitOf m 2, p := q.p && !bitOf m 3,
                       inv := q.inv && !bitOf m 4 }
    if bitOf b 3 then
      if b % 8 > q.ceil || b % 8 < q.scope then .error 0x2008 else .ok { q' with ceil := b % 8 }
    else .ok q'

/-- 10 R228: the condition `.in`. -/
def Ptr.contains (a b : Ptr) : Bool :=
  a.wf && b.wf && a.space == b.space && (a.space == 0 || a.space > 3 || a.home == b.home) &&
    (if a.space = 2 then
       b.base % 2 ^ 21 ≥ a.base % 2 ^ 21 && b.base % 2 ^ 21 + b.len ≤ a.base % 2 ^ 21 + a.len &&
         bits b.base 23 21 ≥ bits a.base 23 21
     else b.base ≥ a.base && b.base + b.len ≤ a.base + a.len) &&
    (!b.r || a.r) && (!b.w || a.w) && (!b.x || a.x) && (!b.p || a.p)

/-- 10 R222: an instruction that writes `p`D with the pointer it derives, or faults for every lane of Active(S). -/
def deriveExec (o : Op) (x : Args) (s : State) (f : Ctx → Except Nat Ptr) : Host.Outcome State Fault Refusal :=
  issue o x s (fun c act =>
    match f c with
    | .ok q => .done (s.writeP c [(x.d.toNat, q.toBits)])
    | .error code => .trap s (lanesTrap act code) 0)

/-- PDER (10 R223): the immediate replaces the length. -/
def execPder (x : Args) (s : State) : Host.Outcome State Fault Refusal :=
  deriveExec .pder x s (fun c =>
    (c.ptr x.a.toNat).derive (c.s2 x.b.toNat) (some ((immOf x).getD (c.s2 x.c.toNat))))
/-- PADD (10 R223): the immediate replaces the offset. -/
def execPadd (x : Args) (s : State) : Host.Outcome State Fault Refusal :=
  deriveExec .padd x s (fun c => (c.ptr x.a.toNat).derive ((immOf x).getD (c.s2 x.b.toNat)) none)
/-- PFMT (10 R224). -/
def execPfmt (x : Args) (s : State) : Host.Outcome State Fault Refusal :=
  deriveExec .pfmt x s (fun c =>
    let q := c.ptr x.a.toNat
    if q.wf then .ok { q with fmt := x.c.toNat } else .error 0x2007)
/-- PRIGHT (10 R225). -/
def execPright (x : Args) (s : State) : Host.Outcome State Fault Refusal :=
  deriveExec .pright x s (fun c => (c.ptr x.a.toNat).restrict x.b.toNat x.c.toNat)

/-- 10 R226: the value of a field of a pointer register. -/
def pgetField (q : PtrBits) (field : Nat) : Word :=
  match field with
  | 0 => q.extractLsb' 0 32
  | 1 => (q.extractLsb' 32 25).setWidth 32
  | 2 => q.extractLsb' 65 32
  | 3 => (q.extractLsb' 97 7).setWidth 32
  | _ => (0#2 ++ q.extractLsb' 57 8 ++ q.extractLsb' 104 22 : BitVec 32)

/-- PGET (10 R226), fields 0 to 4. -/
def execPget (x : Args) (s : State) : Host.Outcome State Fault Refusal :=
  issueDone .pget x s (fun c _ => s.writeS c [(x.d.toNat, pgetField (c.p x.a.toNat) (x.mod.toNat % 8))])

/-- PGET.quad (10 R226): the pointer into a quad in each lane, its pointer-valid bit set when it is well-formed. -/
def execPgetQuad (x : Args) (s : State) : Host.Outcome State Fault Refusal :=
  issueDone .pgetQuad x s (fun c act =>
    let q := c.p x.a.toNat
    let s := s.writeV c (act.flatMap (fun l => quadPut x.d.toNat l q))
    if (Ptr.ofBits q).wf then s.modGroup c.g.gid (fun g => g.tagV (act.map (fun l => x.d.toNat / 4 * 64 + l))) else s)

/-- PNULL (10 R227). -/
def execPnull (x : Args) (s : State) : Host.Outcome State Fault Refusal :=
  issueDone .pnull x s (fun c _ => s.writeP c [(x.d.toNat, nullPtr)])

/-- PEQ (10 R228). -/
def execPeq (x : Args) (s : State) : Host.Outcome State Fault Refusal :=
  issueDone .peq x s (fun c _ =>
    let t := if x.mod.toNat % 2 = 1 then (c.ptr x.a.toNat).contains (c.ptr x.b.toNat)
      else c.p x.a.toNat == c.p x.b.toNat
    s.writeS c [(x.d.toNat, if t then 0xFFFFFFFF#32 else 0#32)])

end Sys2Proof.Machine
end

