-- ==== Sys2Proof/Machine/Transform.lean ====
section
/-!
DEFINITION. The transform pipe (14 R320 to R324).
-/
namespace Sys2Proof.Machine

/-- 14 R320: the pipe is taken: it may take another instruction before its replies are out (log entry 3). -/
def State.pipeBusy (s : State) (core : Nat) : Bool := !(s.core core).pipe.isEmpty && Config.freeBool s.free

/-- 14 R321: the present positions of a block, ascending. -/
def presentOf (act : List Nat) : List Nat := act ++ act.map (· + 64)

/-- 14 R321: the word at a position of a block in registers. -/
def Ctx.blockWord (c : Ctx) (r e : Nat) : Nat := (c.v (r + e / 64) (e % 64)).toNat
/-- 14 R321: the register key of a position. -/
def blockKey (r e : Nat) : Nat := (r + e / 64) * 64 + e % 64

/-- 14 R320: the pipe accepts an instruction; its destinations are written with the reply. -/
def State.sendPipe (s : State) (c : Ctx) (op : PendingOp) : State :=
  (s.pend c { op with waitsEngine := true }).modCore c.w.phys (fun k => { k with pipe := k.pipe ++ [(c.g.gid, op.id)] })

/-- An instruction of the pipe: it waits its turn, then acts. -/
def pipeExec (o : Op) (x : Args) (s : State) (body : Ctx → List Nat → Eff) : Host.Outcome State Fault Refusal :=
  issue o x s (fun c act => if s.pipeBusy c.w.phys || s.askedBefore c .pipe then s.queueFor c .pipe else body c act)

/-- The magnitude of an `f32` pattern; a NaN above every number. -/
def magOf (n : Nat) : Nat := n % 2 ^ 31

/-- 14 R322: the first k of the positions ranked by magnitude, ties to the lower position; listed ascending. -/
def topK (k : Nat) (ys : List (Nat × Nat)) : List (Nat × Nat) :=
  sortBy (·.1) ((sortBy (fun y => (2 ^ 31 - magOf y.2) * 128 + y.1) ys).take k)

/-- XTOPK (14 R322); the additions of elements that it does not keep set no flag (03 R56; log entry 60). -/
def execXtopk (x : Args) (s : State) : Host.Outcome State Fault Refusal :=
  issue .xtopk x s (fun c act =>
    let q := c.ptr x.b.toNat
    let off := (c.s x.c.toNat).toNat
    match q.check c.core c.w.gangSize off 512 .topk (q.fmt == 0x10 || q.fmt == 0) with
    | some code => .trap s (lanesTrap act code) 0
    | none =>
      let at_ := q.base + off
      if q.space != 1 || off % 4 != 0 then .trap s (lanesTrap act 0x5601) 0
      else if s.scratchBusy c.w.phys at_ (at_ + 512) true then .held .scoreboard
      else if s.scratchPoison c.w.phys at_ 512 then .trap s (lanesTrap act 0x6102) 0
      else if s.pipeBusy c.w.phys || s.askedBefore c .pipe then s.queueFor c .pipe
      else
        let ftz := ftzOf c.fmode
        let k := scratchKey c.w.phys at_
        let ys := (presentOf act).map (fun e =>
          (e, addElem ftz 0x10 (rmOf c.fmode) (inFmt ftz 0x10 (c.blockWord x.a.toNat e)) (inFmt ftz 0x10 (s.num (k + 4 * e) 4))))
        let kept := topK (x.mod.toNat + 1) (ys.map (fun y => (y.1, y.2.1)))
        let d := x.d.toNat
        let ws := (List.range 64).flatMap (fun j =>
          let y := (kept[j]?).getD (0xFFFFFFFF, 0)
          [(d * 64 + j, BitVec.ofNat 32 y.2), ((d + 1) * 64 + j, BitVec.ofNat 32 y.1)])
        let s := ys.foldl (fun s y =>
          s.storeNum (k + 4 * y.1) 4 (if kept.any (fun z => z.1 == y.1) then 0 else y.2.1)) s
        let fl := orFlags ((ys.filter (fun y => kept.any (fun z => z.1 == y.1))).map (·.2.2))
        .done (s.sendPipe c { c.newOp x s.serial with vWrites := ws, fstat := fl }))

/-- 14 R323: Max(fmt). -/
def maxOf (fmt : Nat) : Nat :=
  match fmt with
  | 0x13 => 448
  | 0x14 => 57344
  | 0x15 => 6
  | 1 => 127
  | _ => 7

/-- 14 R323: the scale covers a magnitude. -/
def scaleCovers (fmt sc : Nat) (amax : Val) : Bool :=
  match amax with
  | .fin _ m e _ => !dyLt ((4 + sc % 4) * maxOf fmt) ((sc / 4 : Nat) - 129 : Int) m e
  | _ => false

/-- 14 R323: the least scale that covers a magnitude; the largest one when none does. -/
def leastScale (fmt : Nat) (amax : Val) : Nat := ((List.range 1020).find? (fun sc => scaleCovers fmt sc amax)).getD 1019

/-- The magnitude of a value. -/
def absVal (v : Val) : Val :=
  match v with
  | .nan b => .nan b
  | .inf _ => .inf false
  | .fin _ m e r => .fin false m e r

/-- 14 R323: the largest magnitude of values that are not NaN; 0 for none. -/
def amaxOf (vs : List Val) : Val :=
  (vs.filter (fun v => !v.isNan)).foldl (fun a v => if cmpVal a (absVal v) == .lt then absVal v else a) (.dy false 0 0)

/-- 14 R323: the exact quotient of a value by a scale. -/
def divScale (v : Val) (sc : Nat) : Val :=
  match v with
  | .fin n m e _ =>
    let d := 4 + sc % 4
    .fin n (m * 2 ^ 96 / d) (e - 96 - (((sc / 4 : Nat) : Int) - 129)) (m * 2 ^ 96 % d != 0)
  | _ => v

/-- XQNT (14 R323) (log entry 30). -/
def execXqnt (x : Args) (s : State) : Host.Outcome State Fault Refusal :=
  pipeExec .xqnt x s (fun c act =>
    let ftz := ftzOf c.fmode
    let fmt := x.c.toNat
    let vs := (presentOf act).map (fun e => (e, inFmt ftz 0x10 (c.blockWord x.a.toNat e)))
    let sc := leastScale fmt (amaxOf (vs.map (·.2)))
    let rs := vs.map (fun v =>
      let r := encodeFmt ftz fmt (c.rounding x) (divScale v.2 sc)
      (v.1, r.1, r.2 ||| snanFlag v.2))
    .done (s.sendPipe c { c.newOp x s.serial with
      vWrites := rs.map (fun r => (blockKey x.d.toNat r.1, BitVec.ofNat 32 (extendElem fmt r.2.1))),
      sWrites := [(c.sIndex x.b.toNat, BitVec.ofNat 32 sc)], fstat := orFlags (rs.map (·.2.2)) }))

/-- 14 R324: one element dequantised. -/
def dequant (ftz : Bool) (fmt sc : Nat) (mode : RMode) (raw : Nat) : Flagged :=
  let scale := scaleVal sc
  let v := flushScaled ftz scale (decodeFmt fmt (raw % 2 ^ fmtWidth fmt))
  if scale.isNan then (0x7FC00000, flagNV)
  else if v.isNan then (0x7FC00000, snanFlag v)
  else encodeFmt ftz 0x10 mode (mulVal v scale).1

/-- XDQNT (14 R324). -/
def execXdqnt (x : Args) (s : State) : Host.Outcome State Fault Refusal :=
  pipeExec .xdqnt x s (fun c act =>
    let fmt := x.c.toNat
    let sc := (c.s x.b.toNat).toNat % 1024
    let rs := (presentOf act).map (fun e =>
      (e, dequant (ftzOf c.fmode) fmt sc (c.rounding x) (c.blockWord x.a.toNat e)))
    .done (s.sendPipe c { c.newOp x s.serial with
      vWrites := rs.map (fun r => (blockKey x.d.toNat r.1, BitVec.ofNat 32 r.2.1)), fstat := orFlags (rs.map (·.2.2)) }))

/-- TRANSFORM_REPLY (14 R320): the pipe replies in order: the destinations are written, the flags contributed and the flag
counted down. -/
def execTransformReply (g op : Nat) (s : State) : Host.Outcome State Fault Refusal :=
  .next (match (s.group? g).bind (fun x => s.wg? x.wgKey) with
    | none => s
    | some w =>
      if ((s.core w.phys).pipe.head?) != some (g, op) then s
      else
        let s := s.modCore w.phys (fun k => { k with pipe := k.pipe.drop 1 })
        (s.modGroup g (fun x => { x with ops := x.ops.map (fun p =>
          if p.id == op then { p with waitsEngine := false } else p) })).finishOp g op)

/-- TRANSFORM_PIPE_ACCEPT (14 R320): the split that asked first issues its instruction to the pipe. -/
def execTransformPipeAccept (core : Nat) (s : State) : Host.Outcome State Fault Refusal :=
  .next (
    let waiting := s.groups.flatMap (fun g =>
      if ((s.wg? g.wgKey).map (·.phys)) == some core then
        (g.splits.filter (fun x => x.hold == .pipe)).map (fun x => (g.gid, x))
      else [])
    match leastBy (fun (p : Nat × Split) => p.2.askedAt .pipe 0) waiting with
    | none => s
    | some (g, x) => if s.pipeBusy core then s else s.reissue g x.id .pipe (fun _ => true))

end Sys2Proof.Machine
end

