-- ==== Sys2Proof/Machine/Issue.lean ====
section
/-!
DEFINITION. The hardware's own steps around issue: clause fetch and start (chapter 06), the scheduler's rotations, wakes,
guard, cap and histogram (chapter 07), page walks (11 R254).
-/
namespace Sys2Proof.Machine

/-! ### Clause fetch (06 R112 to R114) -/

/-- The virtual address of an image offset, through the fetch copy (06 R112). -/
def Ctx.codeVa (c : Ctx) (pc : Nat) : Nat := (Ptr.ofBits c.g.fetchPtr).base + c.w.codeOff + pc

/-- 06 R112: the checks of n bytes at an image offset. -/
def Ctx.fetchCheck (c : Ctx) (pc n : Nat) : Option Nat :=
  match (Ptr.ofBits c.g.fetchPtr).check c.core c.w.gangSize (c.w.codeOff + pc) n .fetch true with
  | some code => some code
  | none => if pc + n > c.w.codeLen then some 0x2001 else none

/-- What fetch asks of a leaf. -/
def fetchUse : Use := { read := false, write := false, exec := true, dev := false, syncNarrow := false }

/-- The line of an instruction cache (06 R113), found by its virtual line number (log entry 56). -/
def Core.line? (c : Core) (part line : Nat) : Option ILine := c.icache.find? (fun l => l.part == part && l.line == line)

/-- 06 R113: fill a line from the slices of the core's die, of an ORD page from the home's (11 R260); the cache holds 512 lines,
the latest first (log entry 28). -/
def State.fillLine (s : State) (core part line pa : Nat) (ord : Bool) : State :=
  let s := s.share_ (if ord then homeDie pa else coreDie core) (pa / 128)
  let words := (List.range 16).map (fun i => BitVec.ofNat 64 (s.num (pa / 128 * 128 + 8 * i) 8))
  s.modCore core (fun c => { c with icache := ({ line := line, part := part, words := words } :: c.icache).take 512 })

/-- What fetching a doubleword gives: the state with its line held, and the word; a fault at an address; or nothing yet, where
the page is strongly ordered and earlier accesses of the group have not been performed (10 R240). -/
inductive FetchedWord where
  | ok (s : State) (w : DWord)
  | fault (code va : Nat) (pa : Option Nat)
  | later

/-- 06 R116: a doubleword that a held line gives: where memory has changed since, its old or its new contents. -/
def State.oldOrNew (s : State) (va pa : Nat) (old : DWord) : DWord :=
  let new := BitVec.ofNat 64 (s.num (pa / 8 * 8) 8)
  if new = old then old else if Config.mixBool s.free va then new else old

/-- 06 R112, R113: fetch the doubleword at a virtual address that has passed the checks. -/
def State.fetchWord (s : State) (c : Ctx) (va : Nat) : FetchedWord :=
  let p := s.partOf c.w.part
  let core := c.w.phys
  match s.translate core p va with
  | .fault code pa pav => .fault code va (if pav then some pa else none)
  | .ok pa f _ =>
    match f.refuse p s.pod fetchUse with
    | some code => .fault code va none
    | none =>
      let s := s.touch core p va
      let away := homeDie pa != coreDie core && (f.ord || !s.holdsLine (coreDie core) (pa / 128))
      match (s.core core).line? p.num (va / 128) with
      | some l => .ok s (s.oldOrNew va pa (l.words.getD (va % 128 / 8) 0))
      | none =>
        if f.ord && s.outstanding c.g.gid then .later
        else if s.poisonAt pa then .fault 0x6002 va (some (pa / 16 * 16))
        else
          let s := if f.ace && away then s.countAccess (coreDie core) p va 1 else s
          let s := s.fillLine core p.num (va / 128) pa f.ord
          match (s.core core).line? p.num (va / 128) with
          | some l => .ok s (l.words.getD (va % 128 / 8) 0)
          | none => .ok s 0

/-- Fetch n doublewords from an address up; else the fault met, none where a word cannot be fetched yet. -/
def State.fetchWords (s : State) (c : Ctx) (va n : Nat) : Except (Option (Nat × Nat × Option Nat)) (State × List DWord) :=
  match n with
  | 0 => .ok (s, [])
  | n + 1 =>
    match s.fetchWord c va with
    | .fault code v pa => .error (some (code, v, pa))
    | .later => .error none
    | .ok s w =>
      match s.fetchWords c (va + 8) n with
      | .error e => .error e
      | .ok (s, l) => .ok (s, w :: l)

/-- A split of a running group that may move by itself: resident, ready or in-trap, held by nothing. -/
def Ctx.runnable (c : Ctx) : Bool :=
  c.mayMove && (c.sp.state == .ready || c.sp.state == .inTrap) && c.sp.hold == .none && !c.g.faulted &&
    !(c.sp.stop == .boundary && c.sp.word == 0)

/-- 07 R155: the split waits at a clause start whose WAIT has failed. -/
def Split.waiting (sp : Split) : Bool := sp.state == .waitingFlags || sp.hold == .clauseWait

/-- A split that may fetch its clause: one that may move by itself, or one that waits at a clause start and whose clause has been
discarded (06 R115, R117). -/
def Ctx.fetches (c : Ctx) : Bool := c.sp.clause.isEmpty && (c.runnable || (c.mayMove && c.sp.waiting && !c.g.faulted))

/-- 07 R147: the split stands at its RPC, at a clause start where the test is made. -/
def Split.atRpc (sp : Split) : Bool := sp.state == .ready && !sp.skipRpc && sp.word == 0 && sp.pc == sp.rpc && sp.rpc != noRpc

/-- 22 R408: a fault of fetch, or of the clause itself, is taken on every lane of the split with word 0. -/
def State.fetchTrap (s : State) (c : Ctx) (code : Nat) (va : Option Nat) (pa : Option Nat) (iword : DWord) : State :=
  s.takeTrap c (c.allLanes code va pa) { word := 0, iword := iword, aux := 0 }

/-- CLAUSE_FETCH (06 R112, 11 R265): the header, then the words that its LEN counts. -/
def execClauseFetch (g sid : Nat) (s : State) : Host.Outcome State Fault Refusal :=
  .next (match s.ctx? g sid with
    | none => s
    | some c =>
      if !c.fetches || c.sp.atRpc then s
      else
        let pc := c.sp.pc.toNat
        match c.fetchCheck pc 8 with
        | some code => s.fetchTrap c code none none 0
        | none =>
          match s.fetchWords c (c.codeVa pc) 1 with
          | .error none => s
          | .error (some (code, va, pa)) => s.fetchTrap c code (some va) pa 0
          | .ok (s1, hw) =>
            let len := (headerOf (hw.getD 0 0)).len
            match c.fetchCheck pc (8 * (len + 1)) with
            | some code => s1.fetchTrap c code none none 0
            | none =>
              match s1.fetchWords c (c.codeVa pc + 8) len with
              | .error none => s1
              | .error (some (code, va, pa)) => s1.fetchTrap c code (some va) pa 0
              | .ok (s2, ws) => s2.modSplit g sid (fun sp => { sp with clause := hw ++ ws }))

/-- 06 R114: prefetch up to n lines from a virtual address, stopping where the rule says. -/
def State.prefetchLines (s : State) (c : Ctx) (va n : Nat) : State :=
  match n with
  | 0 => s
  | n + 1 =>
    let p := s.partOf c.w.part
    if va ≥ c.codeVa c.w.codeLen then s
    else
      match s.translate c.w.phys p va with
      | .fault _ _ _ => s
      | .ok pa f _ =>
        if f.ord || f.dev || !f.x || (f.refuse p s.pod fetchUse).isSome then s
        else
          let s := if ((s.core c.w.phys).line? p.num (va / 128)).isSome then s
            else s.fillLine c.w.phys p.num (va / 128) pa false
          s.prefetchLines c (va / 128 * 128 + 128) n

/-- CLAUSE_PREFETCH (06 R114): up to n lines ahead of a split that has fetched its clause. -/
def execClausePrefetch (g sid n : Nat) (s : State) : Host.Outcome State Fault Refusal :=
  .next (match s.ctx? g sid with
    | none => s
    | some c =>
      if !c.mayMove || c.sp.clause.isEmpty then s
      else s.prefetchLines c (c.codeVa c.sp.nextPc.toNat) n)

/-! ### Clause starts (06 R119, R131; 07 R145 to R149, R155; 22 R411) -/

/-- 07 R149: the splits that may fuse with one at a MERGE clause. -/
def Group.mergeable (g : Group) (sp : Split) : List Split :=
  g.splits.filter (fun x => x.id != sp.id && !x.spilled && x.parent == sp.parent && x.pc == sp.pc && x.rpc == sp.rpc &&
    x.state == .ready && x.word == 0 && x.half == sp.half && !x.skipRpc && x.hold == .none)

/-- 07 R149: fuse, as the scheduler chooses, with splits that stand at the same MERGE clause; the split that remains. -/
def Group.mergeWith (g : Group) (free : Nat) (sid : Nat) (l : List Split) : Group × Nat :=
  l.foldl (fun (acc : Group × Nat) x =>
    if Config.mixBool free x.id then
      match acc.1.split? acc.2 with
      | none => acc
      | some sp =>
        let lo := min sp.id x.id
        (((acc.1.join sp x).modSplit lo (fun y => { y with clause := sp.clause, word := 0 })), lo)
    else acc) (g, sid)

/-- 07 R149: the scheduler may put a lone live child in its divided parent's place (log entry 16). -/
def Group.replaceParent (g : Group) (free : Nat) (sid : Nat) : Group :=
  match g.split? sid with
  | none => g
  | some c =>
    match c.parent.bind g.split? with
    | none => g
    | some p =>
      if p.state == .divided && (g.children p.id).length == 1 && c.held == 0 && Config.mixBool (free + 1) p.id then
        (g.modSplit sid (fun x => { x with parent := p.parent, rpc := p.rpc, held := p.held })).free p.id
      else g

/-- Put a changed table, and what a freed entry takes in (07 R153), into the state. -/
def State.putTable (s : State) (c : Ctx) (g' : Group) : State :=
  match s.group? c.g.gid with
  | none => s
  | some g => s.putSplits c.w c.sp.id g (g'.refill 8)

/-- 06 R119, 22 R411: begin the clause at its first word, or at the word a trap returns to. -/
def Split.begin_ (sp : Split) : Split :=
  { sp with state := if sp.state == .waitingFlags then .ready else sp.state, word := max sp.word 1, skipRpc := false, passed := false,
            awaits := 0, hold := .none }

/-- The clause start once the split has been fetched for: 0x5002, fusion, WAIT, which is tested once (06 R119). -/
def State.startClause (s : State) (c : Ctx) : State :=
  match c.sp.clause with
  | [] => s
  | hw :: body =>
    let h := headerOf hw
    if !clauseLegal hw body then s.fetchTrap c 0x5002 none none hw
    else if c.sp.skipRpc && h.len < c.sp.word then
      s.modSplit c.g.gid c.sp.id (fun sp => { sp.goto sp.nextPc with skipRpc := false })
    else
      let m : Group × Nat := if h.merge && c.sp.state == .ready && !c.sp.skipRpc then
          c.g.mergeWith s.free c.sp.id (c.g.mergeable c.sp)
        else (c.g, c.sp.id)
      let set := fun (f : Split → Split) => s.putTable c (m.1.modSplit m.2 f)
      if c.sp.passed || m.1.waitHolds h then set Split.begin_
      else if c.sp.state == .inTrap then set (fun sp => { sp with hold := .clauseWait, awaits := h.wait })
      else set (fun sp => { sp with state := .waitingFlags, awaits := h.wait })

/-- CLAUSE_START (06 R119, R131; 07 R147): the RPC test, the legality of the clause, then its WAIT. -/
def execClauseStart (g sid : Nat) (s : State) : Host.Outcome State Fault Refusal :=
  .next (match s.ctx? g sid with
    | none => s
    | some c0 =>
      if !c0.runnable || !(c0.sp.word == 0 || c0.sp.skipRpc) then s
      else
        let s := s.modGroup g (fun x => x.replaceParent s.free sid)
        match s.ctx? g sid with
        | none => s
        | some c =>
          if c.sp.atRpc then s.putSplits c.w sid c.g (c.g.reachRpc s.serial sid)
          else s.startClause c)

/-- WAIT_RETEST_START (07 R155): a split that waits at a clause start begins it once every selected counter reads zero; a
clause fetched anew is looked at anew. -/
def execWaitRetestStart (g sid : Nat) (s : State) : Host.Outcome State Fault Refusal :=
  .next (match s.ctx? g sid with
    | none => s
    | some c =>
      match c.sp.clause with
      | [] => s
      | hw :: _ =>
        if c.mayMove && c.sp.waiting && (c.g.waitHolds (headerOf hw) || c.sp.awaits != (headerOf hw).wait) then s.startClause c
        else s)

/-! ### Spilled and waiting splits (07 R153, R156) -/

/-- The cycles for which a moment has passed are not counted in the model: the head of a group's queue may always have
waited long enough (log entry 4). -/
def Group.queueHead (g : Group) : Option Split :=
  leastBy (fun x => x.queuedAt.getD 0) (g.splits.filter (fun x => x.spilled && x.queuedAt.isSome))

/-- SPILL_ROTATION (07 R153): the head of the queue is exchanged, at a clause boundary, with the resident ready split that
issued most recently. -/
def execSpillRotation (g : Nat) (s : State) : Host.Outcome State Fault Refusal :=
  .next (match s.group? g with
    | none => s
    | some x =>
      match s.wg? x.wgKey, x.queueHead,
          leastBy (fun (y : Split) => 2 ^ 80 - y.issuedAt) (x.splits.filter (fun y => !y.spilled && y.state == .ready)) with
      | some w, some _, some r =>
        if r.word == 0 && w.status == .resident then s.putSplits w r.id x (x.giveWay s.serial r.id) else s
      | _, _, _ => s)

/-- 07 R153: a spilled split whose wait is over becomes ready. -/
def State.spilledReady (s : State) (w : Workgroup) (g : Group) (sp : Split) : Bool :=
  match sp.state with
  | .waitingFlags => (List.range 12).all (fun k => !sp.awaits.getLsbD k || assocGet 0 k g.flags == 0)
  | .waitingEvent => s.eventHolds w g sp.evKind sp.evReg sp.evVal
  | _ => false

/-- A split made ready again from waiting. -/
def Split.wake (sp : Split) : Split := { sp with state := .ready, evKind := 0, evReg := 0, evVal := 0 }

/-- 07 R145, R153: a spilled split whose condition holds is ready: one that waited on flags has passed its WAIT, and its clause
starts. -/
def Split.wakeSpilled (sp : Split) (n : Nat) : Split :=
  let sp := if sp.state != .waitingFlags then sp.wake
    else if sp.clause.isEmpty then { sp with state := .ready, passed := true, awaits := 0 }
    else sp.begin_
  { sp with queuedAt := some n }

/-- SPILL_CONDITION_TEST (07 R153): spilled waiting splits whose conditions hold join the queue. -/
def execSpillConditionTest (g : Nat) (s : State) : Host.Outcome State Fault Refusal :=
  .next (match s.group? g with
    | none => s
    | some x =>
      match s.wg? x.wgKey with
      | none => s
      | some w =>
        if w.status != .resident then s
        else
          let x' := { x with splits := x.splits.map (fun (sp : Split) =>
            if sp.spilled && s.spilledReady w x sp then sp.wakeSpilled s.serial else sp) }
          if x' == x then s else s.putSplits w x.lastSid x (x'.refill 8))

/-- EVENT_WAKE (07 R156, 08 R178): a waiting split becomes ready; an in-trap split held at its WAITEV moves past it. -/
def execEventWake (g sid : Nat) (s : State) : Host.Outcome State Fault Refusal :=
  .next (match s.ctx? g sid with
    | none => s
    | some c =>
      if !c.mayMove then s
      else if c.sp.state == .waitingEvent then
        (if s.eventHolds c.w c.g c.sp.evKind c.sp.evReg c.sp.evVal then s.modSplit g sid Split.wake else s)
      else
        match c.sp.hold, c.sp.waitOn with
        | .event, some (k, v) =>
          if s.eventHolds c.w c.g (k / 256) (k % 256) (BitVec.ofNat 64 v) then s.passWait c else s
        | _, _ => s)

/-! ### Choosing what issues (07 R159 to R162) -/

/-- 07 R161: the split is issue-ready. -/
def Ctx.issueReady (c : Ctx) : Bool := c.runnable && !c.sp.clause.isEmpty && c.sp.word != 0 && !c.sp.skipRpc

/-- STARVATION_GUARD (07 R160): an issue-ready split that has waited 2,048 cycles is chosen ahead of others. -/
def execStarvationGuard (g sid : Nat) (s : State) : Host.Outcome State Fault Refusal :=
  .next (match s.ctx? g sid with
    | none => s
    | some c =>
      if c.issueReady && c.sp.starved.isNone then (s.modSplit g sid (fun sp => { sp with starved := some s.serial })).bump else s)

/-- The groups resident on a core. -/
def State.groupsOn (s : State) (core : Nat) : List Group :=
  s.groups.filter (fun g => !g.ended && (match s.wg? g.wgKey with
    | some w => w.phys == core && w.onCore
    | none => false))

/-- CAP_RECOMPUTE (07 R162). -/
def execCapRecompute (core : Nat) (s : State) : Host.Outcome State Fault Refusal :=
  .next (s.modCore core (fun c =>
    { c with cap := min 16 (max 2 (16 - ((s.groupsOn core).map (·.score)).foldl (· + ·) 0 / 16)) }))

/-- SCORE_HALVING (07 R162). -/
def execScoreHalving (core : Nat) (s : State) : Host.Outcome State Fault Refusal :=
  .next ((s.groupsOn core).foldl (fun s g => s.modGroup g.gid (fun x => { x with score := x.score / 2 })) s)

/-- 06 R118: YHINT of the split's clause. -/
def Split.yhint (sp : Split) : Bool :=
  match sp.clause with
  | hw :: _ => (headerOf hw).yhint
  | [] => false

/-- 07 R159: a group has issue-ready splits, and each of them stands at a YHINT clause. -/
def State.spins (s : State) (g : Group) : Bool :=
  let l := (g.splits.filterMap (fun sp => s.ctx? g.gid sp.id)).filter (·.issueReady)
  !l.isEmpty && l.all (fun c => c.sp.yhint)

/-- 07 R159: a key that puts the groups of a scheduler in the order of its steps 1 and 2: higher PRIO, then older; a
group that yielded, or whose every issue-ready split spins, counts as the youngest. -/
def State.groupRank (s : State) (g : Group) : Nat :=
  let prio := ((s.wg? g.wgKey).map (·.prio)).getD 0
  (15 - min prio 15) * 2 ^ 65 + (if g.yielded || s.spins g then 2 ^ 64 else 0) + g.age

/-- 07 R159: the place of a split in its group's round robin. -/
def Group.splitRank (g : Group) (sp : Split) : Nat :=
  (if sp.yielded then 2 ^ 12 else 0) + (if sp.yhint then 2 ^ 10 else 0) + (sp.id + 127 - g.lastSid) % 128

/-- 07 R162: the memory instructions that the cap holds. -/
def capOps : List Op := [.ld, .ldVp, .st, .stVp, .ldp, .ldpQ, .stp, .stpQ, .ldres, .stcnd, .pref, .atom, .atomn, .cas]

/-- 07 R162: the split's next instruction is one that the cap may hold, through a SPACE 0 pointer. -/
def Ctx.cappedOp (c : Ctx) : Bool :=
  match decodeAt c.sp.clause c.sp.word with
  | .ok (i, _) =>
    (match i.opArgs? with
     | some (o, x) =>
       let vp := o == .ldVp || o == .stVp || ((o == .ldp || o == .ldpQ || o == .stp || o == .stpQ) && x.mod.toNat ≥ 16)
       capOps.contains o && (if vp then (c.active x).any (fun l => (Ptr.ofBits (c.quad x.a.toNat l)).space == 0)
         else (c.ptr x.a.toNat).space == 0)
     | none => false)
  | .error _ => false

/-- 07 R162: the cap holds the split. -/
def State.capHolds (s : State) (c : Ctx) : Bool :=
  c.sp.starved.isNone && c.cappedOp &&
    ((s.groupsOn c.w.phys).filter (fun g => s.groupRank g < s.groupRank c.g)).length ≥ (s.core c.w.phys).cap

/-- 07 R159, R160: the key of the order of choice: starved splits first, the longest starved before the others. -/
def State.issueRank (s : State) (c : Ctx) : Nat :=
  match c.sp.starved with
  | some n => n
  | none => 2 ^ 90 + s.groupRank c.g * 2 ^ 14 + c.g.splitRank c.sp

/-! ### The stall histogram (07 R166, R167) -/

/-- 07 R167: the stall reason of a hold that the memory path or an engine gives. -/
def Hold.reason (h : Hold) : Nat :=
  match h with
  | .flagLimit | .memory => 7
  | .scoreboard | .entry => 8
  | .sequencer | .rows => 9
  | .pipe => 10
  | _ => 2

/-- 07 R167: the stall reason of a split, the lowest number of those that hold it; the cycles of one that a stop has stopped count as
those of no group (23 R432). -/
def State.stallReason (s : State) (c : Ctx) : Nat :=
  if c.sp.stop == .stopped then 0
  else if c.sp.spilled then 3
  else
    match c.sp.state with
    | .waitingFlags => 1
    | .parked => 3
    | .divided => 3
    | .waitingEvent => 4
    | _ =>
      match c.sp.hold with
      | .clauseWait => 1
      | .flagBusy => 1
      | .event => 4
      | .bwait => 5
      | .tlwait => 5
      | h => if s.capHolds c then 6 else if h == .none && c.sp.clause.isEmpty then 11 else h.reason

/-- A counter of the histogram rises, saturating at 48 bits. -/
def countAt (l : List Nat) (k : Nat) : List Nat := l.modify k (fun n => sat48 (n + 1))

/-- STALL_HISTOGRAM_COUNT (07 R166): one cycle of a scheduler.  A group whose splits have all ended waits for its operations and
packets, which is charged to the memory path (chapter 19, R363). -/
def execStallHistogramCount (die cluster core sched : Nat) (s : State) : Host.Outcome State Fault Refusal :=
  let phys := (die * 7 + cluster) * 8 + core
  let gs := (s.groupsOn phys).filter (fun g => g.sched == sched)
  let ctxs := gs.flatMap (fun g => g.splits.filterMap (fun sp => s.ctx? g.gid sp.id))
  let n := (ctxs.filter (·.issueReady)).length
  let first := leastBy (fun (g : Group) => g.age) gs
  let reason := match first with
    | none => 0
    | some g =>
      match leastBy (fun sp => g.splitRank sp) g.splits with
      | none => 7
      | some sp => ((s.ctx? g.gid sp.id).map s.stallReason).getD 0
  .next (s.modCore phys (fun c => { c with hist := c.hist.modify sched (fun (h : Histogram) =>
    { h with h := countAt h.h (min n 16), z := if n = 0 then countAt h.z reason else h.z }) }))

/-! ### Page walks (11 R254) -/

/-- PAGE_WALK (11 R254, R264): a walk for an address that a core's TLB misses installs what it finds; a walk that faults,
or one whose predicted access is squashed, leaves nothing (R266). -/
def execPageWalk (core part va : Nat) (s : State) : Host.Outcome State Fault Refusal :=
  .next (match s.part? part with
    | none => s
    | some p => s.install core p va)

end Sys2Proof.Machine
end

