-- ==== Sys2Proof/Machine/Launch.lean ====
section
/-!
DEFINITION. Submission of launches (04 R80 to R93): reading and checking the launch block, its path and its image;
acceptance, readiness, FAILACK; LAUNCH (08 R184).
-/
namespace Sys2Proof.Machine

/-! ### Reading blocks (04 R81, R89) -/

/-- 04 R81: the bytes of a block that lies whole on pages mapped readable and writable in the partition's memory. -/
def State.readBlock (s : State) (p : Partition) (va n : Nat) : Option (List Byte) :=
  match s.vaKeys p va n true, s.vaKeys p va n false with
  | some _, some ks => some (s.bytesAt ks)
  | _, _ => none

/-- Bytes of a block that must be zero. -/
def zeroAt (bs : List Byte) (off n : Nat) : Bool := ((bs.drop off).take n).all (· == 0)

/-- 04 R81: OVR. -/
def ovrOf (bs : List Byte) : Nat := fieldOf bs 2 2

/-- 04 R81: the header's reserved fields are zero and its overridden fields in range. -/
def headerOk (bs : List Byte) : Bool :=
  let set := fun (k : Nat) => bitOf (ovrOf bs) k
  bits (ovrOf bs) 15 7 == 0 && zeroAt bs 0x14 4 && zeroAt bs 0x1B 5 && zeroAt bs 0x28 24 &&
    (!set 0 || fieldOf bs 0x10 1 ≤ 7) && (!set 1 || fieldOf bs 0x11 1 ≤ 3) && (!set 2 || fieldOf bs 0x12 2 != 0) &&
    (!set 3 || (1 ≤ fieldOf bs 0x18 2 && fieldOf bs 0x18 2 ≤ 24)) && (!set 4 || fieldOf bs 0x20 4 ≤ scratchSize) &&
    (!set 5 || (fieldOf bs 0x24 4 % 0x10000 == 0 && fieldOf bs 0x24 4 ≤ 0x4000000)) && (!set 6 || fieldOf bs 0x1A 1 ≤ 8)

/-- 04 R83, R89: the region blocks from an address up to the root, at most `fuel`; none where the path is invalid
(log entry 33). -/
def State.regionPath (s : State) (p : Partition) (fuel va : Nat) : Option (List (Nat × List Byte)) :=
  match fuel with
  | 0 => none
  | fuel + 1 =>
    if va % 128 != 0 then none
    else
      match s.readBlock p va 128 with
      | none => none
      | some bs =>
        if fieldOf bs 0 2 != 1 || !headerOk bs || !zeroAt bs 64 64 then none
        else if va = p.rbroot then
          if bits (ovrOf bs) 6 0 == 127 && fieldOf bs 8 8 == 0 then some [(va, bs)] else none
        else if fieldOf bs 8 8 = 0 then none
        else (s.regionPath p fuel (fieldOf bs 8 8)).map (fun l => (va, bs) :: l)

/-- 04 R82: the effective value of a header field along a path, nearest block first. -/
def effective (k off n : Nat) (path : List (Nat × List Byte)) : Nat :=
  match path with
  | [] => 0
  | (_, bs) :: rest => if bitOf (ovrOf bs) k then fieldOf bs off n else effective k off n rest

/-- 04 R82, R83: the effective budgets of each block of a path. -/
def pathBlocks (path : List (Nat × List Byte)) : List PathBlock :=
  match path with
  | [] => []
  | (va, bs) :: rest =>
    { va := va, clusters := effective 3 0x18 2 ((va, bs) :: rest), scratch := effective 4 0x20 4 ((va, bs) :: rest),
      firn := effective 5 0x24 4 ((va, bs) :: rest) } :: pathBlocks rest

/-! ### The launch block (04 R84 to R86) -/

/-- 04 R85: a role entry. -/
def roleOf (bs : List Byte) (i : Nat) : Role :=
  let o := 0x100 + 32 * i
  { entry := BitVec.ofNat 32 (fieldOf bs o 4), handler := BitVec.ofNat 32 (fieldOf bs (o + 4) 4), vregs := fieldOf bs (o + 8) 2,
    sregs := fieldOf bs (o + 10) 1, groups := fieldOf bs (o + 11) 1, str := bitOf (fieldOf bs (o + 12) 1) 0,
    acc := BitVec.ofNat 4 (fieldOf bs (o + 13) 1) }

/-- 04 R85: native groups of a role. -/
def Role.native (r : Role) (legacy : Bool) : Nat := if legacy then (r.groups + 1) / 2 else r.groups

/-- 04 R86: a mint entry's register and template. -/
def mintOf (bs : List Byte) (i : Nat) : Nat × PtrBits :=
  let o := 0x180 + 32 * i
  (fieldOf bs (o + 16) 1, BitVec.ofNat 128 (fieldOf bs o 16))

/-- 04 R84: the launch as the block describes it, before its path and its image are known. -/
def launchOf (bs : List Byte) (addr : Nat) : Launch :=
  { ticket := 0, block := addr, state := 1, queued := true, failed := false, image := fieldOf bs 0x40 8,
    countX := fieldOf bs 0x48 4, countY := fieldOf bs 0x4C 4, countZ := fieldOf bs 0x50 4, gang := fieldOf bs 0x54 1,
    barriers := fieldOf bs 0x56 1, tlallot := fieldOf bs 0x57 1, scratchOff := fieldOf bs 0x58 4,
    scratchLen := fieldOf bs 0x5C 4, firnLen := fieldOf bs 0x60 4, spill := fieldOf bs 0x64 4, privBase := fieldOf bs 0x68 8,
    notify := bitOf (fieldOf bs 0x7A 1) 0, pre := (List.range (fieldOf bs 0x79 1)).map (fun i => fieldOf bs (0x80 + 8 * i) 8),
    roles := (List.range (fieldOf bs 0x55 1)).map (roleOf bs), mints := (List.range (fieldOf bs 0x78 1)).map (mintOf bs),
    prio := 0, fdom := 0, quantum := 1, path := [], codeOff := 0, codeLen := 0, imageId := 0, legacy := false, carve := none,
    charged := [], nextWg := 0, retired := 0 }

/-- 04 R84: workgroups of a launch. -/
def Launch.total (l : Launch) : Nat := l.countX * l.countY * l.countZ
/-- 04 R85: native groups of a workgroup. -/
def Launch.groupCount (l : Launch) : Nat := (l.roles.map (fun r => r.native l.legacy)).foldl (· + ·) 0

/-- 04 R85: a role's own fields are in range; ENTRY and HANDLER against the image come with 0xB103. -/
def roleOk (bs : List Byte) (i : Nat) : Bool :=
  let o := 0x100 + 32 * i
  let r := roleOf bs i
  r.entry.toNat % 8 == 0 && (r.handler == noRpc || r.handler.toNat % 8 == 0) && r.vregs % 8 == 0 && 8 ≤ r.vregs &&
    r.vregs ≤ 256 && r.sregs % 8 == 0 && 8 ≤ r.sregs && r.sregs ≤ 128 && 1 ≤ r.groups && r.groups ≤ 16 &&
    fieldOf bs (o + 12) 1 < 2 && fieldOf bs (o + 13) 1 < 16 && zeroAt bs (o + 14) 18

/-- 04 R86: a mint entry's own fields are in range. -/
def mintOk (bs : List Byte) (i : Nat) : Bool := (mintOf bs i).1 ≤ 15 && zeroAt bs (0x180 + 32 * i + 17) 15

/-- 04 R84 to R86, R89: the launch block itself, of a family known by its image; `tl` is the effective TIMELINES where
the path is valid. -/
def launchBlockOk (bs : List Byte) (legacy : Bool) (tl : Option Nat) : Bool :=
  let l := { launchOf bs 0 with legacy := legacy }
  fieldOf bs 0 2 == 2 && headerOk bs && zeroAt bs 0x7B 5 && zeroAt bs 0xA0 96 && l.total < 2 ^ 32 && 1 ≤ l.gang &&
    l.gang ≤ 8 && 1 ≤ l.roles.length && l.roles.length ≤ 4 && l.barriers ≤ 64 && 16 * l.barriers ≤ l.scratchLen &&
    l.tlallot ≤ 8 && (match tl with
      | some t => decide (l.tlallot ≤ t)
      | none => true) &&
    l.scratchOff % 256 == 0 && l.scratchLen % 256 == 0 && l.scratchOff + l.scratchLen ≤ scratchSize &&
    l.firnLen % 0x10000 == 0 && l.spill % 128 == 0 && l.privBase % 128 == 0 && l.mints.length ≤ 16 && l.pre.length ≤ 4 &&
    fieldOf bs 0x7A 1 < 2 && (List.range l.roles.length).all (roleOk bs) && 1 ≤ l.groupCount && l.groupCount ≤ 16 &&
    (List.range l.mints.length).all (mintOk bs) && (uniq (l.mints.map (·.1))).length == l.mints.length &&
    l.privBase + l.total * l.groupCount * l.spill ≤ 2 ^ 57

/-! ### The image (04 R72, R75) -/

/-- 04 R75: an image of a revision is selectable on this part. -/
def revOk (family stepping : Nat) (fc : Bool) : Bool :=
  family == 5 || (family == 7 && (stepping == Config.stepping || (fc && stepping < Config.stepping)))

/-- 04 R72, R89: an image descriptor is valid. -/
def descriptorOk (bs : List Byte) : Bool :=
  fieldOf bs 0 4 == 0x37444D49 && revOk (fieldOf bs 5 1) (fieldOf bs 4 1) (bitOf (fieldOf bs 6 2) 0) &&
    fieldOf bs 6 2 < 2 && fieldOf bs 8 4 != 0 && fieldOf bs 12 4 != 0 && fieldOf bs 12 4 % 8 == 0 &&
    fieldOf bs 16 4 % 64 == 0 && 0x40 ≤ fieldOf bs 16 4 && zeroAt bs 0x14 44

/-- 04 R89: the image descriptor of a launch, where it is readable. -/
def State.descriptor (s : State) (p : Partition) (va : Nat) : Option (List Byte) :=
  if va % 64 != 0 then none else (s.vaKeys p va 64 false).map s.bytesAt

/-- 04 R85, R89: the roles' offsets lie in the image. -/
def rolesInside (roles : List Role) (codeLen : Nat) : Bool :=
  roles.all (fun r => r.entry.toNat < codeLen && (r.handler == noRpc || r.handler.toNat < codeLen))

/-! ### Units of a partition (01 R17, 05 R102) -/

/-- 05 R102: the non-defective cores of a physical cluster, ascending. -/
def State.presentCores (s : State) (phys : Nat) : List Nat :=
  (List.range 8).filter (fun i => !(s.share phys).defects.getLsbD i)

/-- 01 R17: the physical cluster (die × 7 + cluster) of a logical cluster. -/
def Partition.physCluster (p : Partition) (ldie lcluster : Nat) : Option Nat :=
  let c := p.clmap.getD (6 * ldie + lcluster) 0xFF
  if lcluster < 6 && ldie < p.ndie && c < 7 then some (p.pdie.getD ldie 0 * 7 + c) else none

/-- 01 R17: the logical clusters that are mapped: (ldie, lcluster, physical cluster). -/
def Partition.mappedClusters (p : Partition) : List (Nat × Nat × Nat) :=
  (List.range 24).filterMap (fun i => (p.physCluster (i / 6) (i % 6)).map (fun k => (i / 6, i % 6, k)))

/-- 05 R99: a gang of n can be made resident on cores that hold nothing: 16 groups of the largest allotments fit the
four schedulers of a core, so that only the number of present cores can fail. -/
def State.placeable (s : State) (p : Partition) (n : Nat) : Bool :=
  n == 0 || p.mappedClusters.any (fun k => n ≤ (s.presentCores k.2.2).length)

/-! ### Submission (04 R89) -/

/-- What Confluence decides of a submission. -/
inductive Verdict where
  | accepted (l : Launch)
  | full
  | rejected (code : Nat)
  deriving DecidableEq, Repr

/-- 04 R83: an accepted launch's effective values, from its path, and its image. -/
def Launch.along (l : Launch) (path : List (Nat × List Byte)) (img : List Byte) (ticket : Nat) : Launch :=
  let f := effective 1 0x11 1 path
  { l with ticket := ticket, prio := effective 0 0x10 1 path, fdom := if f = 0 && 1 < l.gang then 1 else f,
           quantum := effective 2 0x12 2 path, path := pathBlocks path, codeLen := fieldOf img 12 4,
           codeOff := fieldOf img 16 4, imageId := BitVec.ofNat 32 (fieldOf img 8 4), legacy := fieldOf img 5 1 == 5 }

/-- 04 R89: the outcome of a submission: the first check that fails (log entry 33). -/
def State.judge (s : State) (p : Partition) (addr : Nat) : Verdict :=
  if !p.runs then .rejected 0xB109
  else if addr % 128 != 0 then .rejected 0xB101
  else
    match s.readBlock p addr 896 with
    | none => .rejected 0xB104
    | some bs =>
      let regions := if fieldOf bs 8 8 = 0 then none else s.regionPath p 8 (fieldOf bs 8 8)
      let path := regions.map (fun r => (addr, bs) :: r)
      let img := s.descriptor p (fieldOf bs 0x40 8)
      let legacy := match img with
        | some d => fieldOf d 5 1 == 5
        | none => false
      let l := { launchOf bs addr with legacy := legacy }
      if !launchBlockOk bs legacy (path.map (effective 6 0x1A 1)) then .rejected 0xB101
      else if (l.roles.filter (·.str)).length != 1 then .rejected 0xB102
      else
        match img with
        | none => .rejected 0xB103
        | some d =>
          if !descriptorOk d || !rolesInside l.roles (fieldOf d 12 4) then .rejected 0xB103
          else
            match path with
            | none => .rejected 0xB104
            | some path =>
              let l := l.along path d p.ticketNext
              if l.path.any (fun b => b.scratch < l.scratchLen || b.firn < l.firnLen) then .rejected 0xB105
              else if !s.placeable p (min l.gang l.total) then .rejected 0xB106
              else if l.pre.any (fun t => t == 0 || p.ticketNext ≤ t) then .rejected 0xB107
              else if 256 ≤ (p.launches.filter (·.queued)).length then .full
              else .accepted l

/-- 04 R88: the STATUS word of a verdict. -/
def Verdict.status (v : Verdict) : DWord :=
  match v with
  | .accepted l => BitVec.ofNat 64 (1 * 2 ^ 62 + l.ticket % 2 ^ 48)
  | .full => BitVec.ofNat 64 (2 * 2 ^ 62)
  | .rejected code => BitVec.ofNat 64 (3 * 2 ^ 62 + code % 2 ^ 12 * 2 ^ 48)

/-- 04 R90: Confluence writes STATE of a launch's block, where its page is mapped writable. -/
def State.writeLaunchState (s : State) (p : Partition) (l : Launch) (v : Nat) : State :=
  s.vaStore p (l.block + 4) (bytesOfNat 4 v)

/-- Change STATE of a launch, in Confluence's copy and in its block. -/
def State.setLaunchState (s : State) (part ticket v : Nat) : State :=
  match s.part? part with
  | none => s
  | some p =>
    match p.launch? ticket with
    | none => s
    | some l => (s.modLaunch part ticket (fun l => { l with state := v })).writeLaunchState p l v

/-- 25 R464: a record of Confluence about a launch that has been submitted or accepted; with a ticket the context is
valid (log entry 37). -/
def State.launchRecord (s : State) (p : Partition) (code : Nat) (ticket : Option Nat) : ErrorRecord :=
  { s.plainRecord p.num (p.pdie.headD 0) code (actionOf (if ticket.isSome then 3 else 0) 3) with
    engine := 11 * 2 ^ 24, ctxv := ticket.isSome, ticket := ticket.getD 0 }

/-- 04 R89: what a verdict leaves: an acceptance writes TICKET, then STATE 1, and takes an entry; a rejection is
recorded. -/
def State.settleVerdict (s : State) (p : Partition) (v : Verdict) : State :=
  match v with
  | .accepted l =>
    let s := s.modPart p.num (fun p => { p with ticketNext := p.ticketNext + 1, launches := p.launches ++ [l] })
    (s.vaStore p (l.block + 0x70) (bytesOfNat 8 l.ticket)).writeLaunchState p l 1
  | .full => s
  | .rejected code => s.record (s.launchRecord p code none)

/-- SUBMIT (04 R88, R89): a write to a port's ADDR. -/
def execSubmit (part port : Nat) (addr : DWord) (s : State) : Host.Outcome State Fault Refusal :=
  .next (match s.part? part with
    | none => s
    | some p =>
      if port ≥ 16 then s
      else
        let v := s.judge p addr.toNat
        (s.settleVerdict p v).modPart part (fun p => { p with status := p.status.modify port (fun _ => v.status) }))

/-- SUBMIT_STATUS_READ (04 R88): the companion reads a port's STATUS; the outcome has been decided. -/
def execSubmitStatusRead (part port : Nat) (s : State) : Host.Outcome State Fault Refusal :=
  .next (match s.part? part with
    | none => s
    | some p => { s with bus := bytesOfNat 8 (p.status.getD port 0).toNat })

/-- FAILACK (04 R91). -/
def execFailack (part : Nat) (ticket : DWord) (s : State) : Host.Outcome State Fault Refusal :=
  .next (s.modPart part (fun p =>
    { p with launches := p.launches.filter (fun l => !(l.ticket == ticket.toNat && l.state == 5 && l.queued)) }))

/-- 22 R414, R92: a launch fails: STATE 5, and the interrupt of KIND 2 where it is wanted. -/
def State.failLaunch (s : State) (part ticket : Nat) : State :=
  match (s.part? part).bind (fun p => p.launch? ticket) with
  | none => s
  | some l =>
    let s := (s.setLaunchState part ticket 5).modPart part (fun p =>
      { p.modLaunch ticket (fun l => { l with failed := true, charged := [] }) with carves := p.carves.filter (fun c => c.1 != ticket) })
    if l.notify then s.notifyLaunch part 2 ticket else s

/-- 04 R92: a launch at STATE 1 becomes ready once no prerequisite holds an entry; it fails where one holds an entry as a failed
launch. -/
def State.readyLaunch (s : State) (part ticket : Nat) : State :=
  match s.part? part with
  | none => s
  | some p =>
    match p.launch? ticket with
    | none => s
    | some l =>
      if l.state != 1 then s
      else if l.pre.any (fun t => p.launches.any (fun x => x.ticket == t && x.queued && x.state == 5)) then
        (s.record (s.launchRecord p 0xB108 (some ticket))).failLaunch part ticket
      else if p.runs && l.pre.all (fun t => t < p.ticketNext && !p.launches.any (fun x => x.ticket == t && x.queued)) then
        s.setLaunchState part ticket 2
      else s

/-- LAUNCH_READY (04 R92). -/
def execLaunchReady (part ticket : Nat) (s : State) : Host.Outcome State Fault Refusal := .next (s.readyLaunch part ticket)

/-- LAUNCH (08 R184, 04 R93): the outcome is laid out as STATUS. -/
def execLaunch (x : Args) (s : State) : Host.Outcome State Fault Refusal :=
  issue .launch x s (fun c act =>
    let q := c.ptr x.a.toNat
    match q.check c.core c.w.gangSize 0 896 .launch true with
    | some code => .trap s (lanesTrap act code) 0
    | none =>
      let s := s.releaseCore c.w.phys 3
      let p := s.partOf c.w.part
      let v := if q.space != 0 || q.base % 128 != 0 then
          (if !p.runs then Verdict.rejected 0xB109 else .rejected 0xB101)
        else s.judge p q.base
      .done ((s.settleVerdict p v).writeS c (sPut true x.d.toNat v.status.toNat)))

end Sys2Proof.Machine
end

