-- ==== Sys2Proof/Machine/Place.lean ====
section
/-!
DEFINITION. From a ready launch to its end (04 R94 to R96; 05 R97 to R104; 24 R443 to R445): carve-outs, mints, placement,
the end of groups, retirement, completion and failure.
-/
namespace Sys2Proof.Machine

/-! ### Kernel boundaries (04 R94, R95) -/

/-- 04 R94: Confluence writes back and invalidates every L1 line of a partition. -/
def State.flushPart (s : State) (part : Nat) : State :=
  (s.cores.map (·.1)).foldl (fun s k =>
    s.evictWords k (((s.core k).l1.filter (fun w => w.part == part)).map (·.key))) s

/-- 04 R94: Confluence invalidates every instruction-cache line of a partition. -/
def State.flushCode (s : State) (part : Nat) : State :=
  { s with cores := s.cores.map (fun (k, c) => (k, { c with icache := c.icache.filter (fun l => l.part != part) })) }

/-! ### Mints (02 R33, R34) -/

/-- 02 R33: every page that meets a range is mapped by a leaf that passes a test; a walk of the tables of a level that
covers 512 pages of the level from `va`. -/
def State.rangeAll (s : State) (f : Leaf → Bool) (lo n : Nat) (l t va : Nat) : Bool :=
  match l with
  | 0 => false
  | l' + 1 =>
    let size := pageSize (l' + 1)
    (List.range 512).all (fun i =>
      let v := va + i * size
      !(v < lo + n && lo < v + size) ||
        (let e := s.num (t + 8 * i) 8
         if e % 2 = 0 then false
         else if bitOf e 1 then l' + 1 < 4 && !leafReserved e (l' + 1) && f (leafOf e (l' + 1) (t + 8 * i))
         else l' != 0 && bits e 63 52 == 0 && bits e 11 2 == 0 && s.rangeAll f lo n l' (bits e 51 12 * 4096) v))

/-- 02 R33: a template passes (log entry 35). -/
def State.mintPasses (s : State) (p : Partition) (l : Launch) (b : PtrBits) : Bool :=
  let q := Ptr.ofBits b
  q.wf && q.origin == 0 &&
    (if q.space = 3 then
       (match l.carve with
        | some o => o ≤ q.base && q.base + q.len ≤ o + l.firnLen
        | none => q.len == 0)
     else if q.space = 0 || q.space = 4 || q.space = 5 then
       q.len == 0 || s.rangeAll (fun f => (!q.r || f.r) && (!q.w || f.w) && (!q.x || f.x) &&
         (q.space != 5 || (f.dev && f.ord))) q.base q.len 5 p.ptroot 0
     else false)

/-- 02 R34: the first entry that fails. -/
def State.mintFault (s : State) (p : Partition) (l : Launch) : Option Nat :=
  (List.range l.mints.length).find? (fun i => !s.mintPasses p l (l.mints.getD i (0, 0)).2)

/-! ### Fitting on a core (05 R97, R103) -/

/-- 04 R85: the native groups of a workgroup in role order: the role's number and the group's number in the role. -/
def Launch.groupList (l : Launch) : List (Nat × Nat) :=
  (List.range l.roles.length).flatMap (fun r =>
    (List.range (((l.roles[r]?).map (fun x => x.native l.legacy)).getD 0)).map (fun k => (r, k)))

/-- What a scheduler holds: groups, vector registers, scalar registers. -/
abbrev Load := Nat × Nat × Nat

/-- 05 R97: what the schedulers of a core hold. -/
def State.schedLoad (s : State) (phys : Nat) (q : Nat) : Load :=
  let gs := (s.groupsOn phys).filter (fun g => g.sched == q)
  (gs.length, (gs.map (·.vregs)).foldl (· + ·) 0, (gs.map (·.sregs)).foldl (· + ·) 0)

/-- 05 R97: a scheduler takes one more group. -/
def Load.takes (x : Load) (v n : Nat) : Bool := x.1 + 1 ≤ 8 && x.2.1 + v ≤ 1024 && x.2.2 + n ≤ 1024

/-- A scheduler's load with one more group. -/
def Load.add (x : Load) (v n : Nat) : Load := (x.1 + 1, x.2.1 + v, x.2.2 + n)

/-- 05 R97: groups (their VREGS and SREGS) placed on given schedulers fit. -/
def schedsFit (loads : List Load) (gs : List (Nat × Nat)) (at_ : List Nat) : Bool :=
  match gs, at_ with
  | [], [] => true
  | (v, n) :: gs, q :: at_ =>
    (match loads[q]? with
     | some x => x.takes v n && schedsFit (loads.set q (x.add v n)) gs at_
     | none => false)
  | _, _ => false

/-- 05 R98: an assignment of groups to schedulers that fits, if there is one. -/
def findScheds (loads : List Load) (gs : List (Nat × Nat)) : Option (List Nat) :=
  match gs with
  | [] => some []
  | (v, n) :: gs =>
    (List.range 4).findSome? (fun q =>
      match loads[q]? with
      | some x => if x.takes v n then (findScheds (loads.set q (x.add v n)) gs).map (q :: ·) else none
      | none => none)

/-- VREGS and SREGS of the groups of a launch's workgroup. -/
def Launch.groupSizes (l : Launch) : List (Nat × Nat) :=
  l.groupList.map (fun x => ((l.roles[x.1]?).map (fun r => (r.vregs, r.sregs))).getD (0, 0))

/-- 14 R300: the tiles of a workgroup. -/
def Launch.tiles (l : Launch) : BitVec 4 := l.roles.foldl (fun m r => m ||| r.acc) 0

/-- The workgroups that hold a place on a physical core. -/
def State.wgsOn (s : State) (phys : Nat) : List Workgroup := s.wgs.filter (fun w => w.phys == phys && w.onCore)

/-- 05 R97: the limits of a core that are not the schedulers'. -/
def State.coreTakes (s : State) (phys : Nat) (l : Launch) : Bool :=
  let ws := s.wgsOn phys
  ws.length + 1 ≤ 4 && (ws.map (·.tlallot)).foldl (· + ·) 0 + l.tlallot ≤ 16 && ws.all (fun w => w.acc &&& l.tiles == 0) &&
    ws.all (fun w => l.scratchLen == 0 || w.scratchLen == 0 || w.scratchOff + w.scratchLen ≤ l.scratchOff ||
      l.scratchOff + l.scratchLen ≤ w.scratchOff)

/-- 05 R103: the launches of a partition beneath a block. -/
def Partition.beneath (p : Partition) (b : PathBlock) : List Launch :=
  p.launches.filter (fun l => l.path.any (fun x => x.va == b.va))

/-- 05 R103: the workgroups that stand beneath a block. -/
def State.wgsBeneath (s : State) (p : Partition) (b : PathBlock) : List Workgroup :=
  s.wgs.filter (fun w => w.part == p.num && (p.beneath b).any (fun l => l.ticket == w.ticket))

/-- 05 R103: a workgroup more on a logical core stays within the budgets of a launch's path. -/
def State.budgetTakes (s : State) (p : Partition) (l : Launch) (ldie lcluster lcore : Nat) : Bool :=
  l.path.all (fun b =>
    let ws := s.wgsBeneath p b
    let here := ws.filter (fun w => w.ldie == ldie && w.lcluster == lcluster && w.lcore == lcore)
    let firn := (((p.beneath b).filter (fun x => x.charged.contains ldie && x.ticket != l.ticket)).map (·.firnLen)).foldl (· + ·) 0
    (uniq ((ldie * 6 + lcluster) :: ws.map (fun w => w.ldie * 6 + w.lcluster))).length ≤ b.clusters &&
      (here.map (·.scratchLen)).foldl (· + ·) 0 + l.scratchLen ≤ b.scratch && firn + l.firnLen ≤ b.firn)

/-- 05 R100: members of the next gang of a launch. -/
def Launch.nextGang (l : Launch) : Nat := min l.gang (l.total - l.nextWg)

/-- 05 R102: the physical core of a logical core of a physical cluster. -/
def State.physCore (s : State) (phys lcore : Nat) : Option Nat := ((s.presentCores phys)[lcore]?).map (fun i => phys * 8 + i)

/-- 05 R105, R106: a partition may place on a physical cluster: its contexts are resident, or nobody's are. -/
def State.clusterOpen (s : State) (phys part : Nat) : Bool :=
  let c := s.share phys
  c.state == .enabled && !c.preempt && (c.resident == none || c.resident == some part)

/-- 05 R97, R103: one workgroup of a launch fits on a logical core, on given schedulers. -/
def State.fitsAt (s : State) (p : Partition) (l : Launch) (x : PlaceAt) : Bool :=
  match p.physCluster x.ldie x.lcluster with
  | none => false
  | some k =>
    match s.physCore k x.lcore with
    | none => false
    | some c =>
      s.clusterOpen k p.num && s.coreTakes c l && s.budgetTakes p l x.ldie x.lcluster x.lcore &&
        schedsFit ((List.range 4).map (s.schedLoad c)) l.groupSizes x.scheds

/-- 05 R100: a gang's places: distinct cores of one logical cluster, each taking a workgroup. -/
def State.gangFits (s : State) (p : Partition) (l : Launch) (xs : List PlaceAt) : Bool :=
  xs.length == l.nextGang && (uniq (xs.map (·.lcore))).length == xs.length &&
    (match xs with
     | [] => false
     | x :: _ => xs.all (fun y => y.ldie == x.ldie && y.lcluster == x.lcluster)) && xs.all (s.fitsAt p l)

/-- Places for the next gang of a launch in a logical cluster. -/
def State.findIn (s : State) (p : Partition) (l : Launch) (ldie lcluster phys : Nat) : Option (List PlaceAt) :=
  let xs := (List.range 8).filterMap (fun i =>
    match s.physCore phys i with
    | none => none
    | some c =>
      if s.clusterOpen phys p.num && s.coreTakes c l && s.budgetTakes p l ldie lcluster i then
        (findScheds ((List.range 4).map (s.schedLoad c)) l.groupSizes).map (fun q => (⟨ldie, lcluster, i, q⟩ : PlaceAt))
      else none)
  if l.nextGang ≤ xs.length then some (xs.take l.nextGang) else none

/-- 05 R103: places for the next gang of a launch anywhere in its partition. -/
def State.findPlaces (s : State) (p : Partition) (l : Launch) : Option (List PlaceAt) :=
  p.mappedClusters.findSome? (fun k => s.findIn p l k.1 k.2.1 k.2.2)

/-- 05 R104: the key that puts launches in the order in which they are considered. -/
def Launch.order (l : Launch) : Nat := (7 - min l.prio 7) * 2 ^ 64 + l.ticket

/-- A launch still has workgroups to place: ready or running, its carve-out fixed, not stopped by a halt of the launch. -/
def Launch.wantsPlace (l : Launch) : Bool :=
  (l.state == 2 || l.state == 3) && l.nextWg < l.total && (l.firnLen == 0 || l.carve.isSome) && !(l.failed && 2 ≤ l.fdom)

/-- 05 R104: the next gang of no launch earlier in the order fits anywhere. -/
def State.turnOf (s : State) (p : Partition) (l : Launch) : Bool :=
  (p.launches.filter (fun x => x.wantsPlace && x.order < l.order)).all (fun x => (s.findPlaces p x).isNone)

/-- 04 R94: the first gang of a launch could be made resident now, in the order of 05 R104. -/
def State.firstFits (s : State) (p : Partition) (l : Launch) : Bool :=
  l.total == 0 || ((s.findPlaces p l).isSome && s.turnOf p l)

/-! ### Carve-outs and the beginning of placement -/

/-- 01 R12: carve-out bytes reserved on a die, by every partition that has a logical die there. -/
def State.carvedOn (s : State) (die : Nat) : Nat :=
  ((s.parts.filter (fun q => q.pdie.contains die)).map (fun q => (q.carves.map (fun c => c.2.2)).foldl (· + ·) 0)).foldl (· + ·) 0

/-- CARVEOUT_OFFSET_FIX (05 R103): an offset free on every die, in multiples of 64 KiB (log entry 57), where the die's 64 MiB have
room (01 R12). -/
def execCarveoutOffsetFix (part ticket off : Nat) (s : State) : Host.Outcome State Fault Refusal :=
  .next (match s.part? part with
    | none => s
    | some p =>
      match p.launch? ticket with
      | none => s
      | some l =>
        if l.state == 2 && l.firnLen != 0 && l.carve.isNone && off % 0x10000 == 0 && off + l.firnLen ≤ 2 ^ 26 &&
            p.carves.all (fun c => c.2.1 + c.2.2 ≤ off || off + l.firnLen ≤ c.2.1) && p.pdie.all (fun d => s.carvedOn d + l.firnLen ≤ 2 ^ 26) &&
            p.runs then
          s.modPart part (fun p =>
            { p.modLaunch ticket (fun l => { l with carve := some off }) with carves := p.carves ++ [(ticket, off, l.firnLen)] })
        else s)

/-- PLACEMENT_BEGIN (04 R94, 02 R33, R34): STATE 3 and the acquire at PKG; a mint that fails ends the launch. -/
def execPlacementBegin (part ticket : Nat) (s : State) : Host.Outcome State Fault Refusal :=
  .next (match s.part? part with
    | none => s
    | some p =>
      match p.launch? ticket with
      | none => s
      | some l =>
        if l.state != 2 || !p.runs || !(l.firnLen == 0 || l.carve.isSome) then s
        else
          match s.mintFault p l with
          | some i =>
            ((s.record { s.launchRecord p 0x200A (some ticket) with paddr := i }).failLaunch part ticket)
          | none =>
            if s.firstFits p l then ((s.setLaunchState part ticket 3).flushPart part).flushCode part else s)

/-! ### Placing a workgroup (05 R97 to R101; 07 R140, R141) -/

/-- 02 R35: an architectural pointer: `b8`, SCOPE equal to CEIL. -/
def archPtr (space base len cls scope origin : Nat) (w x : Bool) : PtrBits :=
  Ptr.toBits { base := base, origin := origin, len := len, fmt := 0, space := space, cls := cls, scope := scope, ceil := scope,
               r := w, w := w, x := x, p := w, inv := false, top := 0 }

/-- 02 R33, R35: the pointer registers of a group. -/
def Launch.pointers (l : Launch) (core : Nat) : Assoc PtrBits :=
  let mint := fun (b : PtrBits) => Ptr.toBits { Ptr.ofBits b with origin := indexAt (Ptr.ofBits b).scope core }
  assocSets nullPtr
    (l.mints.map (fun m => (m.1, mint m.2)) ++
      [(28, archPtr 1 l.scratchOff l.scratchLen 0 0 core true false),
       (29, archPtr 2 l.scratchOff l.scratchLen 2 1 (indexAt 1 core) true false),
       (30, if l.firnLen = 0 then nullPtr else archPtr 3 (l.carve.getD 0) l.firnLen 2 2 (indexAt 2 core) true false),
       (31, archPtr 4 l.image (l.codeOff + l.codeLen) 1 3 0 false true)]) []

/-- 07 R140, R165; 04 R85: the root splits of a group of a role: the second half of the last group of an odd number of
legacy groups has none. -/
def rootsOf (l : Launch) (r : Role) (k : Nat) : List Split :=
  if l.legacy then
    Split.root 0 0x00000000FFFFFFFF#64 false r.entry ::
      (if 2 * k + 1 < r.groups then [Split.root 1 0xFFFFFFFF00000000#64 true r.entry] else [])
  else [Split.root 0 (BitVec.allOnes 64) false r.entry]

/-- 07 R140, R141: a group as placement leaves it. -/
def Group.placed (l : Launch) (r : Role) (gid wgKey roleNo groupId k sched core age : Nat) : Group :=
  let ps := l.pointers core
  { gid := gid, wgKey := wgKey, role := roleNo, groupId := groupId, sched := sched, vregs := r.vregs, sregs := r.sregs,
    handler := r.handler, acc := r.acc, streamRights := r.str && k == 0, v := [], vtags := [], s := [], p := ps, flags := [],
    fmode0 := 0, fmode1 := 0, fstat0 := 0, fstat1 := 0, fetchPtr := assocGet nullPtr 31 ps, splits := rootsOf l r k,
    frames := [], ops := [], resv := [], age := age, lastSid := 0, yielded := false, score := 0, victims := [],
    touched := [], ended := false, faulted := false }

/-- 01 R19, 05 R100, R101: a workgroup as placement leaves it. -/
def Workgroup.placed (l : Launch) (key part wg : Nat) (x : PlaceAt) (phys : Nat) (binding : List (Nat × Nat)) : Workgroup :=
  { key := key, part := part, ticket := l.ticket, wg := wg, x := wg % (max l.countX 1), y := wg / (max l.countX 1) % (max l.countY 1),
    z := wg / (max (l.countX * l.countY) 1), ldie := x.ldie, lcluster := x.lcluster, lcore := x.lcore, phys := phys,
    gangBase := wg / l.gang * l.gang, member := wg % l.gang, gangSize := binding.length, binding := binding,
    scratchOff := l.scratchOff, scratchLen := l.scratchLen, barriers := l.barriers, tlallot := l.tlallot, firnLen := l.firnLen,
    spill := l.spill, privBase := l.privBase, carveOff := l.carve.getD 0, countX := l.countX, countY := l.countY,
    countZ := l.countZ, codeOff := l.codeOff, codeLen := l.codeLen, imageId := l.imageId, legacy := l.legacy, prio := l.prio,
    fdom := l.fdom, acc := l.tiles, timelines := List.replicate l.tlallot Timeline.zero, status := .resident, retired := false, savedAt := 0,
    savedScratch := [], savedTags := [], savedPoison := [], savedTiles := [], savedOps := [] }

/-- 16 R346, 19 R364: the scratchpad allotment at placement: the barrier objects zero, every other byte what earlier work of
the partition left, or zero (log entry 34). -/
def State.freshScratch (s : State) (lo len barriers : Nat) : State :=
  let s := s.wipe lo (16 * barriers)
  let gone := fun (k : Nat) => lo ≤ k && k < lo + len && Config.mixBool s.free k
  { s with mem := s.mem.filter (fun kv => !gone kv.1),
           tags := s.tags.filter (fun g => (List.range 16).all (fun i => !gone (16 * g + i))), free := s.free + 1 }

/-- 14 R300: the tiles of a workgroup are cleared at placement. -/
def Core.clearTiles (c : Core) (acc : BitVec 4) : Core :=
  { c with tiles := (List.range 4).map (fun i => if acc.getLsbD i then Tile.reset else c.tiles.getD i Tile.reset) }

/-- Place one workgroup of a launch. -/
def State.placeWg (s : State) (part : Nat) (l : Launch) (wg : Nat) (x : PlaceAt) (phys : Nat) (binding : List (Nat × Nat)) : State :=
  let key := s.serial
  let w := Workgroup.placed l key part wg x phys binding
  let gl := l.groupList
  let gs := (List.range gl.length).filterMap (fun i =>
    match gl[i]? with
    | none => none
    | some (r, k) => (l.roles[r]?).map (fun role =>
        Group.placed l role (key + 1 + i) key r i k (x.scheds.getD i 0) w.coreIndex (key + 1 + i)))
  let s := { s with serial := key + 1 + gl.length, wgs := s.wgs ++ [w], groups := s.groups ++ gs }
  (s.freshScratch (scratchKey phys l.scratchOff) l.scratchLen l.barriers).modCore phys (fun c => c.clearTiles l.tiles)

/-- 05 R105: a partition's slice of a physical cluster starts: what another partition left in the scratchpads goes
(19 R364). -/
def State.startSlice (s : State) (k part quantum : Nat) : State :=
  let s := if (s.share k).lastPart = some part then s else s.wipe (scratchKey (k * 8) 0) (8 * 2 ^ 21)
  let prio := (s.partOf part).prio
  s.modShare k (fun c =>
    { c with resident := some part, sliceStart := (s.die (k / 7)).cycle, quantum := quantum, lastPart := some part, preempt := false,
             turns := assocSet 0 prio (part + 1) c.turns, incoming := none })

/-- 05 R102, 25 R485: core masks set before take effect, as at every swap-in. -/
def State.adoptDefects (s : State) (k : Nat) : State := s.modShare k (fun c => { c with defects := c.newDefects })

/-! ### The end of groups, workgroups and launches (24 R443 to R445) -/

/-- 19 R363, 24 R443: a group that holds no split has nothing outstanding. -/
def State.groupOver (s : State) (g : Group) : Bool :=
  g.splits.isEmpty && g.ops.isEmpty && g.flags.isEmpty && !s.outstanding g.gid

/-- GROUP_END (24 R443). -/
def execGroupEnd (g : Nat) (s : State) : Host.Outcome State Fault Refusal :=
  .next (match s.group? g with
    | none => s
    | some x => if !x.ended && s.groupOver x then s.modGroup g (fun x => { x with ended := true, resv := [] }) else s)

/-- 24 R444: nothing keeps a workgroup from retiring. -/
def State.mayRetire (s : State) (w : Workgroup) : Bool :=
  (w.status == .resident || w.status == .stopping) && !w.retired && (s.groupsOf w.key).all (·.ended) &&
    w.timelines.all (fun t => t.reached == t.issued) && (s.core w.phys).ops.all (fun o => o.wgKey != w.key)

/-- The members of a workgroup's gang that hold a place. -/
def State.gangOf (s : State) (w : Workgroup) : List Workgroup :=
  s.wgs.filter (fun x => x.part == w.part && x.ticket == w.ticket && x.gangBase == w.gangBase)

/-- Take workgroups and their groups off the machine. -/
def State.dropWgs (s : State) (ks : List Nat) : State :=
  { s with wgs := s.wgs.filter (fun w => !ks.contains w.key), groups := s.groups.filter (fun g => !ks.contains g.wgKey) }

/-- WORKGROUP_RETIRE (24 R444): its allotments are freed once every member of its gang has retired. -/
def execWorkgroupRetire (w : Nat) (s : State) : Host.Outcome State Fault Refusal :=
  .next (match s.wg? w with
    | none => s
    | some x =>
      if s.mayRetire x then
        let s := (s.modWg w (fun x => { x with retired := true })).modLaunch x.part x.ticket
          (fun l => { l with retired := l.retired + 1 })
        let gang := s.gangOf x
        if gang.all (·.retired) then s.dropWgs (gang.map (·.key)) else s
      else s)

/-- 24 R445: every workgroup of a launch has been placed and has retired or been dumped. -/
def State.launchOver (s : State) (part : Nat) (l : Launch) : Bool :=
  l.state == 3 && !s.wgs.any (fun w => w.part == part && w.ticket == l.ticket) &&
    ((l.nextWg == l.total && l.retired == l.total) ||
      (l.failed && (2 ≤ l.fdom || !(s.partOf part).runs)))

/-- LAUNCH_COMPLETE (04 R94, 24 R445): the release at PKG, STATE 4, the entry freed, the dependants readied, the interrupt of KIND 1. -/
def execLaunchComplete (part ticket : Nat) (s : State) : Host.Outcome State Fault Refusal :=
  .next (match (s.part? part).bind (fun p => p.launch? ticket) with
    | none => s
    | some l =>
      if !l.failed && s.launchOver part l then
        let s := ((s.flushPart part).setLaunchState part ticket 4).modPart part (fun p =>
          { p with launches := p.launches.filter (fun x => x.ticket != ticket), carves := p.carves.filter (fun c => c.1 != ticket) })
        let s := ((s.partOf part).launches.map (·.ticket)).foldl (fun s t => s.readyLaunch part t) s
        if l.notify then s.notifyLaunch part 1 ticket else s
      else s)

/-- LAUNCH_FAIL (22 R414): a launch of which a fault domain was halted ends: the write-back, STATE 5, the entry kept, the
interrupt of KIND 2. -/
def execLaunchFail (part ticket : Nat) (s : State) : Host.Outcome State Fault Refusal :=
  .next (match (s.part? part).bind (fun p => p.launch? ticket) with
    | none => s
    | some l => if l.failed && s.launchOver part l then (s.flushPart part).failLaunch part ticket else s)

/-! ### One instruction placed by itself (log entry 40) -/

/-- The launch that stands for the loading of one instruction: one workgroup, one group of the largest allotments. -/
def probeLaunch : Launch :=
  { launchOf [] 0 with
      state := 3, countX := 1, countY := 1, countZ := 1, gang := 1, barriers := 64, tlallot := 8, scratchLen := 0x10000,
      roles := [{ entry := 0, handler := noRpc, vregs := 256, sregs := 128, groups := 1, str := true, acc := 15#4 }],
      codeOff := 0x40, codeLen := 24, imageId := 1, nextWg := 1 }

/-- The clause of one instruction: SETA and SETB enabled, word 1 a safe point. -/
def probeClause (w imm : DWord) : List DWord :=
  let h : Header := { len := if longBit w then 2 else 1, wait := 0, setaEn := true, seta := 0, setbEn := true, setb := 1, stop := 1,
                      merge := false, yhint := false }
  if longBit w then [h.word, w, imm] else [h.word, w]

/-- `s` with one instruction at word 1 of a clause that a placed split has begun; that split issues next. -/
def State.placeProbe (s : State) (w imm : DWord) : State :=
  let key := s.serial
  let x : PlaceAt := ⟨0, 0, 0, [0]⟩
  let wg := Workgroup.placed probeLaunch key 0 0 x 0 [(0, 0)]
  let g := match probeLaunch.roles with
    | r :: _ => Group.placed probeLaunch r (key + 1) key 0 0 0 0 0 (key + 1)
    | [] => Group.placed probeLaunch (roleOf [] 0) (key + 1) key 0 0 0 0 0 (key + 1)
  let clause := probeClause w imm
  { s with cur := some (key + 1, 0), serial := key + 2,
           parts := if s.parts.any (fun p => p.num == 0) then s.parts else { Partition.blank 0 with ndie := 1, pdie := [0], clmap := 0 :: List.replicate 23 0xFF } :: s.parts,
           wgs := wg :: s.wgs,
           groups := { g with splits := [{ Split.root 0 (BitVec.allOnes 64) false 0 with word := 1, clause := clause }] } :: s.groups }

end Sys2Proof.Machine
end

