-- ==== Sys2Proof/Machine/Halt.lean ====
section
/-!
DEFINITION. Halting a fault domain (22 R414 to R417), draining it, the dump (24 R446 to R463), the delivery of held interrupt
messages (21 R402).
-/
namespace Sys2Proof.Machine

/-! ### The halt (22 R415) -/

/-- 22 R415: holds under which an instruction has not issued. -/
def Hold.unissued (h : Hold) : Bool :=
  [Hold.flagBusy, .flagLimit, .event, .bwait, .tlwait, .scoreboard, .entry, .sequencer, .rows, .pipe, .memory].contains h

/-- 22 R415, R418: a split held at issue abandons the held instruction. -/
def Split.abandon (sp : Split) : Split :=
  if sp.hold.unissued then { sp with hold := .abandoned, waitOn := none, awaitAcks := [] } else sp

/-- Abandon the held instructions of a group. -/
def Group.abandon (g : Group) : Group := { g with splits := g.splits.map Split.abandon }

/-- The workgroups of a halt that stand on a core. -/
def State.haltedWgs (s : State) (h : Halt) : List Workgroup := s.wgs.filter (fun w => h.wgs.contains w.key)

/-- 22 R414: what a halt does to the launches of its domain: the faulting launch fails, and with the partition every
running one (log entry 45). -/
def Partition.failLaunches (p : Partition) (h : Halt) : Partition :=
  { p with state := if h.fdom = 3 then .halted else p.state,
           launches := p.launches.map (fun l =>
             if (h.fdom = 3 && l.state == 3) || l.ticket == h.ticket then { l with failed := true } else l) }

/-- 24 R460: dumps that wait, or are being written. -/
def State.dumpsWaiting (s : State) : Nat := (s.halts.filter (fun h => h.stage == .halted && !h.dropped)).length

/-- 22 R415: the workgroups of a halt's domain: those that have been placed since the fault was raised are of it too. -/
def State.haltSet (s : State) (h : Halt) : List Nat :=
  h.wgs ++ (s.wgs.filter (fun w => w.part == h.part && (h.fdom == 3 || (h.fdom == 2 && w.ticket == h.ticket)) &&
    !s.halts.any (fun x => x.wgs.contains w.key))).map (·.key)

/-- FAULT_DOMAIN_HALT (22 R415, stages 1 and 2): the oldest fatal fault raised halts its domain. -/
def execFaultDomainHalt (s : State) : Host.Outcome State Fault Refusal :=
  .next (match s.halts.find? (fun h => h.stage == .raised) with
    | none => s
    | some h =>
      let h := { h with wgs := s.haltSet h }
      let wgs := (s.haltedWgs h).filter (fun w => w.status != .saved)
      let ks := wgs.map (·.key)
      let full := 17 ≤ s.dumpsWaiting
      let s := { s with
        wgs := s.wgs.map (fun (w : Workgroup) => if ks.contains w.key then { w with status := WgStatus.halted } else w),
        groups := s.groups.map (fun (g : Group) => if ks.contains g.wgKey then g.abandon else g),
        halts := replaceBy (fun x => x.stage == HaltStage.raised) (fun x =>
          { x with wgs := h.wgs, stage := .halted, haltCyc := (s.die x.die).cycle, dropped := full }) s.halts }
      s.modPart h.part (fun p => p.failLaunches h))

/-! ### The drain (22 R415, stages 3 and 4) -/

/-- An engine operation stands behind one that has met a fault, on the same tile. -/
def State.behindFault (s : State) (core : Nat) (o : EngineOp) : Bool :=
  (s.core core).ops.any (fun y => !y.kind.isStream && y.tile == o.tile && y.id ≤ o.id && y.fault.isSome)

/-- A pending operation can still complete: not an AREAD behind a matrix operation that met a fault (log entry 32). -/
def State.stillWrites (s : State) (core : Nat) (p : PendingOp) : Bool :=
  !(p.waitsEngine && (s.core core).ops.any (fun o => o.kind == .aread && o.pending == p.id && s.behindFault core o))

/-- 22 R415, R419: the flag-counted instructions, remote accesses and stream operations of a workgroup are done. -/
def State.drained (s : State) (w : Workgroup) : Bool :=
  let gs := s.groupsOf w.key
  gs.all (fun g => g.ops.all (fun p => !s.stillWrites w.phys p)) && s.sent.all (fun q => !gs.any (fun g => g.gid == q.gid)) &&
    (s.core w.phys).pipe.all (fun x => !gs.any (fun g => g.gid == x.1)) &&
    (s.core w.phys).ops.all (fun o => !(o.wgKey == w.key && o.kind.isStream && !(o.fault.isSome && o.reported)))

/-- 22 R415, stage 4; 13 R297: the matrix operations that must still step for draining stream operations, or for an AREAD,
have done so: none of them is left to be served. -/
def State.drainedAll (s : State) (h : Halt) : Bool :=
  (s.haltedWgs h).all (fun w => w.status == .saved || s.drained w)

/-! ### The dump (24 R446 to R458) -/

/-- 24 R449: pad a section's contents with zeros to a multiple of 32. -/
def padTo (n : Nat) (bs : List Byte) : List Byte := bs ++ List.replicate ((n - bs.length % n) % n) 0

/-- 24 R449: a section: its header, its contents, its padding. -/
def dumpSection (kind group : Nat) (w : Workgroup) (bs : List Byte) : List Byte :=
  bytesOfNat 4 kind ++ bytesOfNat 1 w.coreIndex ++ bytesOfNat 3 group ++ bytesOfNat 4 w.wg ++ bytesOfNat 1 (coreDie w.phys) ++
    bytesOfNat 1 (coreCluster w.phys % 7) ++ bytesOfNat 2 (w.phys % 8) ++ bytesOfNat 8 bs.length ++ bytesOfNat 8 0 ++ padTo 32 bs

/-- 24 R451: a GROUP section. -/
def Group.dumpBytes (g : Group) : List Byte :=
  let head := bytesOfNat 1 g.role ++ bytesOfNat 1 g.groupId ++ bytesOfNat 2 g.vregs ++ bytesOfNat 1 g.sregs ++
    bytesOfNat 3 (if g.ended then 2 else if g.faulted then 0 else 1) ++ bytesOfNat 4 g.fmode0.toNat ++ bytesOfNat 4 g.fstat0.toNat ++
    bytesOfNat 4 g.fmode1.toNat ++ bytesOfNat 4 g.fstat1.toNat ++
    (List.range 12).map (fun k => BitVec.ofNat 8 (assocGet 0 k g.flags)) ++ bytesOfNat 12 0 ++ bytesOfNat 16 g.fetchPtr.toNat
  if g.ended then head
  else
    head ++ (List.range 32).flatMap (fun k => bytesOfNat 16 (assocGet nullPtr k g.p).toNat) ++
      (List.range g.sregs).flatMap (fun k => bytesOfNat 4 (assocGet 0 k g.s).toNat) ++
      (List.range (64 * g.vregs)).flatMap (fun k => bytesOfNat 4 (assocGet 0 k g.v).toNat) ++
      (List.range (g.vregs / 4)).flatMap (fun q =>
        bytesOfNat 8 (maskOf ((List.range 64).filter (fun l => g.vtags.contains (q * 64 + l)))).toNat)

/-- 24 R452: HOLD of a split. -/
def Split.dumpHold (sp : Split) : Nat :=
  match sp.hold with
  | .abandoned => 1
  | .faulted => 2
  | _ => 0

/-- 24 R452: a split's entry: its record and the annex. -/
def Split.dumpBytes (sp : Split) : List Byte :=
  sp.recordBytes ++ bytesOfNat 1 sp.word ++ bytesOfNat 1 sp.dumpHold ++ bytesOfNat 2 (if sp.spilled then 0xFF else sp.slot) ++
    bytesOfNat 4 ((sp.site.map (·.2.toNat)).getD 0xFFFFFFFF) ++ bytesOfNat 4 ((sp.site.map (·.1.toNat)).getD 0) ++ bytesOfNat 4 0

/-- 24 R452: a trap frame in a dump. -/
def Group.dumpFrame (g : Group) (k : Nat) : List Byte :=
  match g.frames.find? (fun f => f.num == k) with
  | none => bytesOfNat 64 0
  | some f =>
    let held := ((g.splits.filter (fun x => x.frame == some k)).map (fun x => 2 ^ x.id)).foldl (· + ·) 0
    bytesOfNat 16 1 ++ bytesOfNat 16 held ++ (List.range 8).flatMap (fun i => bytesOfNat 4 (f.info i))

/-- 24 R452: a SPLITS section. -/
def Group.dumpSplits (g : Group) : List Byte :=
  (List.range 8).flatMap g.dumpFrame ++ (sortBy (·.id) g.splits).flatMap Split.dumpBytes

/-- 24 R453: the bytes of a workgroup's allotment, on its core or in shadow storage. -/
def State.scratchOf (s : State) (w : Workgroup) (off n : Nat) : List Byte :=
  if w.status == .saved then (List.range n).map (fun i => assocGet resetByte (off + i) w.savedScratch)
  else s.bytes (scratchKey w.phys off) n

/-- 24 R453: a SCRATCH section: the bytes, then a bit for each granule's tag. -/
def State.dumpScratch (s : State) (w : Workgroup) : List Byte :=
  let tag := fun (i : Nat) =>
    if w.status == .saved then w.savedTags.contains ((w.scratchOff + 16 * i) / 16)
    else s.tagAt (scratchKey w.phys (w.scratchOff + 16 * i))
  s.scratchOf w w.scratchOff w.scratchLen ++
    (List.range (w.scratchLen / 128)).map (fun j =>
      BitVec.ofNat 8 (((List.range 8).filter (fun i => tag (8 * j + i))).map (fun i => 2 ^ i)).sum)

/-- The engine operations of a workgroup, on its core or saved. -/
def State.opsOf (s : State) (w : Workgroup) : List EngineOp :=
  if w.status == .saved then w.savedOps else (s.core w.phys).ops.filter (fun o => o.wgKey == w.key)

/-- 24 R454: the groups with a split waiting on a barrier. -/
def State.waitersOn (s : State) (w : Workgroup) (off : Nat) : Nat :=
  (((s.groupsOf w.key).filter (fun g => g.splits.any (fun x =>
    x.state == .waitingEvent && x.evKind == 2 && x.evVal.toNat % 2 ^ 32 == off))).map (fun g => 2 ^ g.groupId)).sum

/-- 24 R454: a SYNCOBJ section. -/
def State.dumpSync (s : State) (w : Workgroup) : List Byte :=
  w.timelines.flatMap (fun t => bytesOfNat 8 t.issued ++ bytesOfNat 8 t.reached) ++
    (List.range w.barriers).flatMap (fun b =>
      let off := w.scratchOff + 16 * b
      s.scratchOf w off 16 ++ bytesOfNat 2 (s.waitersOn w off) ++
        bytesOfNat 14 ((s.opsOf w).filter (fun o => o.barrier == some (scratchKey w.phys off))).length)

/-- 24 R455: OP of an operation; 24 R456 gives none for AZERO, ASWAP and AREAD, whose number is open (log entry 3). -/
def EngKind.dumpOp (k : EngKind) : Nat :=
  match k with
  | .stream => 0
  | .sgath => 1
  | .sdec => 2
  | .mloop => 3
  | .mstep => 4
  | .astore => 5
  | .azero => (Config.freeByte 0).toNat
  | .aswap => (Config.freeByte 1).toNat
  | .aread => (Config.freeByte 2).toNat

/-- 24 R455: two intervals of a kind as lo, hi; an absent one is zero. -/
def intervalBytes (l : List Interval) : List Byte :=
  (List.range 2).flatMap (fun i => match l[i]? with
    | some x => bytesOfNat 4 x.lo ++ bytesOfNat 4 x.hi
    | none => bytesOfNat 8 0)

/-- Whether interval i of a list is complete, as a bit. -/
def completeBit (l : List Interval) (i k : Nat) : Nat := ((l[i]?).map (fun x => x.complete.toNat * 2 ^ k)).getD 0

/-- 24 R455: a scoreboard entry in a dump. -/
def EngineOp.scoreBytes (o : EngineOp) (groupId : Nat) : List Byte :=
  let rs := o.intervals.filter (fun i => !i.write)
  let ws := o.intervals.filter (fun i => i.write)
  let stream := o.kind.isStream
  bytesOfNat 1 o.kind.dumpOp ++ bytesOfNat 1 groupId ++ bytesOfNat 1 (if stream then o.timeline else 0xFF) ++
    bytesOfNat 5 (completeBit rs 0 0 + completeBit rs 1 1 + completeBit ws 0 2 + completeBit ws 1 3) ++ intervalBytes rs ++
    intervalBytes ws ++ bytesOfNat 8 (if stream then o.ticket else 0) ++ bytesOfNat 8 o.regCycle ++ bytesOfNat 8 0

/-- GROUPID of an operation's issuer. -/
def State.issuerId (s : State) (o : EngineOp) : Nat := ((s.group? o.gid).map (·.groupId)).getD 0

/-- 24 R455: a SCORE section. -/
def State.dumpScore (s : State) (w : Workgroup) : List Byte :=
  ((s.opsOf w).filter (fun o => o.entry && !o.kind.isStream)).flatMap (fun o => o.scoreBytes (s.issuerId o))

/-- 24 R456: a bank in row order. -/
def bankBytes (b : Assoc Word) : List Byte := (List.range 4096).flatMap (fun k => bytesOfNat 4 (assocGet 0 k b).toNat)

/-- 24 R456: the record of a matrix operation. -/
def EngineOp.tileBytes (o : EngineOp) (groupId : Nat) : List Byte :=
  bytesOfNat 1 o.kind.dumpOp ++ bytesOfNat 1 groupId ++ bytesOfNat 2 o.steps ++ bytesOfNat 4 (o.count % 2 ^ 16) ++
    (List.range 6).flatMap (fun i => bytesOfNat 4 (o.sops.getD i 0).toNat) ++ (o.fmtBlock ++ List.replicate 32 0).take 32

/-- 24 R456: a TILES section. -/
def State.dumpTile (s : State) (w : Workgroup) (k : Nat) : List Byte :=
  let t := if w.status == .saved then assocGet Tile.reset k w.savedTiles else s.tile w.phys k
  let qs := (s.opsOf w).filter (fun o => !o.kind.isStream && o.tile == k)
  bytesOfNat 1 k ++ bytesOfNat 1 t.watermark ++ bytesOfNat 30 qs.length ++ bankBytes t.working ++ bankBytes t.visible ++
    qs.flatMap (fun o => o.tileBytes (s.issuerId o))

/-- 05 R101: the eight bytes of a binding table: VALID and PCORE. -/
def Workgroup.bindingBytes (w : Workgroup) : List Byte :=
  (List.range 8).map (fun m => match lastOf m w.binding with
    | some c => BitVec.ofNat 8 (0x80 + c % 8)
    | none => 0)

/-- 24 R457, 05 R101: a GANG section: the binding table, then the logical core of each member. -/
def State.dumpGang (s : State) (w : Workgroup) : List Byte :=
  w.bindingBytes ++
  (List.range 8).map (fun m => match (s.gangOf w).find? (fun x => x.member == m) with
    | some x => BitVec.ofNat 8 x.lcore
    | none => 0xFF)

/-- GANG of the launch of a workgroup. -/
def State.gangField (s : State) (w : Workgroup) : Nat :=
  (((s.part? w.part).bind (fun p => p.launch? w.ticket)).map (·.gang)).getD w.gangSize

/-- 24 R450: the sections of a workgroup, in order. -/
def State.dumpWg (s : State) (w : Workgroup) : List (List Byte) :=
  (if 1 < s.gangField w then [dumpSection 8 0xFF w (s.dumpGang w)] else []) ++
    (sortBy (·.groupId) (s.groupsOf w.key)).flatMap (fun g =>
      dumpSection 1 g.groupId w g.dumpBytes :: (if g.ended then [] else [dumpSection 2 g.groupId w g.dumpSplits])) ++
    (if w.scratchLen = 0 then [] else [dumpSection 3 0xFF w (s.dumpScratch w)]) ++
    [dumpSection 4 0xFF w (s.dumpSync w), dumpSection 5 0xFF w (s.dumpScore w)] ++
    ((List.range 4).filter (fun k => w.acc.getLsbD k)).map (fun k => dumpSection 6 0xFF w (s.dumpTile w k))

/-- A workgroup of the fields that a RECORDS section carries where the domain holds none. -/
def noWorkgroup (h : Halt) : Workgroup :=
  Workgroup.placed (launchOf [] 0) 0 h.part h.wg ⟨0, 0, 0, []⟩ (h.die * 56) []

/-- 24 R450, R458, R463: every section of a domain's dump. -/
def State.dumpSections (s : State) (h : Halt) : List (List Byte) :=
  let ws := sortBy (·.wg) (s.haltedWgs h)
  let own := ((ws.find? (fun w => w.wg == h.wg && w.ticket == h.ticket)).orElse (fun _ => ws.head?)).getD (noWorkgroup h)
  (if h.ctxLost then [] else ws.flatMap s.dumpWg) ++
    [dumpSection 7 0xFF own ((h.records.take 256).flatMap ErrorRecord.toBytes)]

/-- 24 R461: the sections that fit whole in a number of bytes, in order. -/
def fitting (room : Nat) (l : List (List Byte)) : List (List Byte) :=
  match l with
  | [] => []
  | x :: rest => if x.length ≤ room then x :: fitting (room - x.length) rest else []

/-- 24 R448: a dump's header. -/
def Halt.header (h : Halt) (complete trunc : Bool) (length seq nsect queued done : Nat) : List Byte :=
  bytesOfNat 4 0x504D5544 ++ bytesOfNat 2 1 ++ bytesOfNat 2 (complete.toNat + 2 * trunc.toNat + 4 * h.ctxLost.toNat) ++
    bytesOfNat 8 length ++ bytesOfNat 4 seq ++ bytesOfNat 2 h.part ++ bytesOfNat 2 h.fdom ++ bytesOfNat 4 nsect ++
    bytesOfNat 4 (min h.nsecond (2 ^ 32 - 1)) ++ bytesOfNat 8 h.ticket ++ bytesOfNat 4 h.wg ++ bytesOfNat 4 h.die ++
    bytesOfNat 8 h.haltCyc ++ bytesOfNat 8 done ++ h.cause.toBytes ++
    (match h.second with
     | some r => r.toBytes
     | none => bytesOfNat 64 0) ++ bytesOfNat 4 queued ++ bytesOfNat 60 0

/-- 24 R462: a halted domain's resources are freed as if its workgroups had retired. -/
def State.freeDomain (s : State) (h : Halt) : State :=
  let ws := s.haltedWgs h
  let ks := ws.map (·.key)
  let s := { s with
    cores := s.cores.map (fun (kc : Nat × Core) => (kc.1, { kc.2 with ops := kc.2.ops.filter (fun o => !ks.contains o.wgKey) })),
    halts := s.halts.filter (fun x => !(x.wgs == h.wgs && x.stage == h.stage && x.haltCyc == h.haltCyc && x.cause == h.cause)) }
  let s := (ws.filter (fun w => !w.retired)).foldl (fun s w =>
    s.modLaunch w.part w.ticket (fun l => { l with retired := l.retired + 1 })) s
  s.dropWgs ks

/-- 24 R447, R461, R463: a record of the dump writer. -/
def State.dumpRecord (s : State) (h : Halt) (code action off : Nat) : State :=
  s.record { s.plainRecord h.part h.die code action with engine := 12 * 2 ^ 24, addr := off }

/-- 24 R461: a dump is dropped. -/
def State.dropDump (s : State) (h : Halt) (area : Ring) : State :=
  let s := if area.size = 0 then s.modPart h.part (fun p => { p with dumpDropped := p.dumpDropped + 1 })
    else s.outerNum (area.addr + 0x1C) 4 (s.num (area.addr + 0x1C) 4 + 1)
  (s.dumpRecord h 0xB304 (actionOf (h.fdom + 1) 12) 0).freeDomain h

/-- 24 R447: write a dump at NEXT. -/
def State.putDump (s : State) (h : Halt) (area : Ring) : State :=
  let next := s.num (area.addr + 0x10) 8
  let seq := s.num (area.addr + 0x18) 4
  let all := s.dumpSections h
  let parts := fitting (area.size - next - 256) all
  let trunc := parts.length < all.length
  let len := 256 + parts.flatten.length
  let queued := s.dumpsWaiting - 1
  let s := s.outerBytes (area.addr + next) (h.header true trunc len seq parts.length queued (s.die h.die).cycle ++ parts.flatten)
  let s := s.outerNum (area.addr + 0x10) 8 (next + (len + 63) / 64 * 64)
  let s := s.outerNum (area.addr + 0x18) 4 (seq + 1)
  let s := if trunc then s.dumpRecord h 0xB303 (actionOf (h.fdom + 1) 12) next else s
  (s.dumpRecord h 0x0004 0 next).freeDomain h

/-- DUMP_WRITE (24 R447, R460, R461): the writer takes the halted domain of the lowest HALTCYC, once it has drained; a dump
that is to be dropped is dropped once its domain has drained. -/
def execDumpWrite (s : State) : Host.Outcome State Fault Refusal :=
  .next (
    let hs := s.halts.filter (fun h => h.stage == .halted)
    match hs.find? (fun h => h.dropped && s.drainedAll h) with
    | some h => s.dropDump h (s.partOf h.part).dumpArea
    | none =>
      match leastBy (fun (h : Halt) => h.haltCyc) (hs.filter (fun h => !h.dropped)) with
      | none => s
      | some h =>
        if !s.drainedAll h then s
        else
          let area := (s.partOf h.part).dumpArea
          if area.size = 0 || area.size < s.num (area.addr + 0x10) 8 + 256 then s.dropDump h area else s.putDump h area)

/-! ### Interrupt messages (21 R402) -/

/-- IRQ_MESSAGE_DELIVER (21 R402): the next held message of KIND 1 or 2 is written once there is room; then the count of
records. -/
def execIrqMessageDeliver (part : Nat) (s : State) : Host.Outcome State Fault Refusal :=
  .next (match s.part? part with
    | none => s
    | some p =>
      if p.irqJ = 0 || s.irqFull p then s
      else
        match p.held with
        | m :: rest => (s.irqPut p m.kind m.value m.ticket).modPart part (fun p => { p with held := rest })
        | [] => s.signalRecords part)

end Sys2Proof.Machine
end

