-- ==== Sys2Proof/Machine/Loader.lean ====
section
/-!
DEFINITION. `drload` (04 R71 to R79): checking a code object, selecting its image, relocating, patching, placing.
-/
namespace Sys2Proof.Machine

/-- 04 R71: the section types of the part, and the other sections that `drload` places. -/
def shImage : Nat := 0x700000D1
def shSafe : Nat := 0x700000D2
def shReloc : Nat := 0x700000D3
def shPatch : Nat := 0x700000D4
def shRoles : Nat := 0x700000D5
def shTensor : Nat := 0x700000D6

/-- The sections of a type, with their indexes. -/
def sectionsOf (o : CodeObject) (ty : Nat) : List (Nat × ObjSection) :=
  ((List.range o.sections.length).zip o.sections).filter (fun x => x.2.shType == ty)

/-- 04 R72: REV of an image. -/
def revOf (x : ObjSection) : Nat := fieldOf x.bytes 4 2
/-- 04 R72: FC of an image. -/
def fcOf (x : ObjSection) : Bool := bitOf (fieldOf x.bytes 6 2) 0

/-- 04 R71, R75: the object is a valid code object: ELF identification, no reserved section type, the counts of each
type, no REV twice. -/
def objectValid (o : CodeObject) : Bool :=
  let images := sectionsOf o shImage
  o.elfClass64 && o.data2Lsb && o.eMachine == 0xC7D7 && o.eType == 3 &&
    o.sections.all (fun x => x.shType < 0x70000000 || 0x80000000 ≤ x.shType || (shImage ≤ x.shType && x.shType ≤ shTensor)) &&
    !images.isEmpty && images.all (fun x => ((sectionsOf o shSafe).filter (fun y => y.2.link == x.1)).length == 1) &&
    (sectionsOf o shSafe).all (fun y => images.any (fun x => x.1 == y.2.link)) && (sectionsOf o shReloc).length ≤ 1 &&
    images.all (fun x => ((sectionsOf o shPatch).filter (fun y => y.2.link == x.1)).length ≤ 1) &&
    (sectionsOf o shPatch).all (fun y => images.any (fun x => x.1 == y.2.link)) && (sectionsOf o shRoles).length ≤ 1 &&
    (sectionsOf o shTensor).length ≤ 1 && (uniq (images.map (fun x => revOf x.2))).length == images.length

/-- The image of the highest stepping. -/
def highestOf (l : List (Nat × ObjSection)) : Option (Nat × ObjSection) := leastBy (fun x => 256 - revOf x.2 % 256) l

/-- 04 R75: the image selected on this part. -/
def selectImage (o : CodeObject) : Option (Nat × ObjSection) :=
  let images := sectionsOf o shImage
  let seven := images.filter (fun x => revOf x.2 / 256 == 7)
  (seven.find? (fun x => revOf x.2 % 256 == Config.stepping)).orElse (fun _ =>
    (highestOf (seven.filter (fun x => fcOf x.2 && revOf x.2 % 256 < Config.stepping))).orElse (fun _ =>
      highestOf (images.filter (fun x => revOf x.2 / 256 == 5))))

/-- A word of an image's clauses: its image offset, the first word before it when it is the second word of a long form,
and its STOP bit. -/
structure CodeWord where
  off : Nat
  second : Option DWord
  stop : Bool
  deriving DecidableEq, Repr

/-- 06 R118, R123: the words of a clause's body. -/
def bodyWords (h : Header) (k off : Nat) (prev : Option DWord) (l : List DWord) : List CodeWord :=
  match l with
  | [] => []
  | w :: rest =>
    { off := off, second := prev, stop := h.stop.getLsbD k } ::
      bodyWords h (k + 1) (off + 8) (if prev.isNone && longBit w then some w else none) rest

/-- 06 R111: the instruction words of an image, clause by clause. -/
def codeWords (fuel off : Nat) (l : List DWord) : List CodeWord :=
  match fuel, l with
  | fuel + 1, h :: rest =>
    let len := (headerOf h).len
    bodyWords (headerOf h) 0 (off + 8) none (rest.take len) ++ codeWords fuel (off + 8 + 8 * len) (rest.drop len)
  | _, _ => []

/-- The doublewords of a list of bytes. -/
def dwordsOf (n : Nat) (bs : List Byte) : List DWord := (List.range n).map (fun i => dwordOfBytes ((bs.drop (8 * i)).take 8))

/-- 04 R72: the instruction words of an image section. -/
def codeOf (x : ObjSection) : List CodeWord :=
  let n := fieldOf x.bytes 12 4 / 8
  codeWords n 0 (dwordsOf n (x.bytes.drop (fieldOf x.bytes 16 4)))

/-- 04 R74, 23 R428: a safe-point section lists exactly the instructions whose STOP bit is set, each with a map of its own section
behind the list; what is neither list nor map holds no other entry (log entry 58). -/
def safePoints (safe : List Byte) (code : List CodeWord) : Option (List (Nat × Nat)) :=
  let want := (code.filter (fun w => w.stop && w.second.isNone)).map (·.off)
  let n := want.length
  let have_ := (List.range n).map (fun i => (fieldOf safe (16 * i) 4, fieldOf safe (16 * i + 4) 4))
  let maps := (List.range n).map (fun i => fieldOf safe (16 * i + 8) 4)
  let rest := ((List.range safe.length).zip safe).filter (fun b => 16 * n ≤ b.1 && maps.all (fun m => b.1 < m || m + 64 ≤ b.1))
  if have_ == want.zip (List.range n) && 16 * n ≤ safe.length && (List.range n).all (fun i => zeroAt safe (16 * i + 12) 4) &&
      maps.all (fun m => m % 16 == 0 && 16 * n ≤ m && m + 64 ≤ safe.length) && rest.all (fun b => b.2 == 0) then some have_ else none

/-- 04 R71, R74: the safe points of an image, as the section that names it lists them. -/
def safeTableOf (o : CodeObject) (k : Nat) (img : ObjSection) : Option (List (Nat × Nat)) :=
  ((sectionsOf o shSafe).find? (fun y => y.2.link == k)).bind (fun y => safePoints y.2.bytes (codeOf img))

/-- Put a little-endian field into a list of bytes. -/
def putField (bs : List Byte) (off n v : Nat) : List Byte := bs.take off ++ bytesOfNat n v ++ bs.drop (off + n)

/-- 04 R77: V of an entry at a place in its section, modulo 2^64; none for a symbol that does not exist. -/
def entryValue (o : CodeObject) (es : List Byte) (i : Nat) : Option Int :=
  (o.symbols[fieldOf es (24 * i + 12) 4]?).map (fun v => (v : Int) + (BitVec.ofNat 64 (fieldOf es (24 * i + 16) 8)).toInt)

/-- 04 R71, R77: the data section in which k bytes at an address lie: none of the code, nor of what is not placed. -/
def dataAt (xs : List ObjSection) (at_ k : Nat) : Option Nat :=
  (List.range xs.length).find? (fun i => match xs[i]? with
    | some x => x.shType != shImage && x.shType != shReloc && x.shType != shPatch && x.addr ≤ at_ && at_ + k ≤ x.addr + x.bytes.length
    | none => false)

/-- 04 R77: apply relocation entries to the sections; an entry's OFFSET, from the object's own address 0, names the section that
is relocated (log entry 58). -/
def relocate (o : CodeObject) (es : List Byte) (n i : Nat) (xs : List ObjSection) : Option (List ObjSection) :=
  match n with
  | 0 => some xs
  | n + 1 =>
    let at_ := o.base + fieldOf es (24 * i) 8
    match entryValue o es i with
    | none => none
    | some v =>
      let low := (v % 2 ^ 64).toNat
      let next := fun (k : Nat) (x : List Byte → Nat → Nat) =>
        match dataAt xs at_ k with
        | some j => relocate o es n (i + 1) (xs.modify j (fun y =>
            { y with bytes := putField y.bytes (at_ - y.addr) k (x y.bytes (at_ - y.addr)) }))
        | none => none
      match fieldOf es (24 * i + 8) 4 with
      | 1 => next 8 (fun _ _ => low)
      | 2 => if 0 ≤ v && v < 2 ^ 32 then next 4 (fun _ _ => low) else none
      | 3 => if 0 ≤ v && v < 2 ^ 57 then next 16 (fun bs off => fieldOf bs off 16 / 2 ^ 57 * 2 ^ 57 + low) else none
      | _ => none

/-- 04 R78, 09 R199: an instruction word takes a 64-bit immediate: SMOVI of a 64-bit type. -/
def takesImm64 (w : DWord) : Bool :=
  match Op.ofCode (opField w).toNat with
  | some .smovi => sWide (w.extractLsb' 0 5).toNat
  | _ => false

/-- 04 R78: apply patch entries to an image's bytes; IMAGEID uses no symbol (log entry 58). -/
def patch (o : CodeObject) (code : List CodeWord) (codeOff id' : Nat) (es : List Byte) (n i : Nat) (bs : List Byte) :
    Option (List Byte) :=
  match n with
  | 0 => some bs
  | n + 1 =>
    let off := fieldOf es (24 * i) 8
    match (code.find? (fun w => w.off == off)).bind (·.second) with
    | none => none
    | some first =>
      let next := fun (k x : Nat) => patch o code codeOff id' es n (i + 1) (putField bs (codeOff + off) k x)
      let valued := fun (k : Nat) (f : Nat → Nat) => (entryValue o es i).bind (fun v => next k (f (v % 2 ^ 64).toNat))
      match fieldOf es (24 * i + 8) 4 with
      | 1 => valued 4 (fun low => low % 2 ^ 32)
      | 2 => valued 4 (fun low => bits low 56 32)
      | 3 => if takesImm64 first then valued 8 (fun low => low) else none
      | 4 => next 4 id'
      | _ => none

/-- 04 R76: the bytes of memory that a section is placed in: mapped, in the partition's memory, and for code with X. -/
def State.loadKeys (s : State) (p : Partition) (va n : Nat) (x : Bool) : Option (List Nat) :=
  (List.range n).mapM (fun i =>
    match s.walkFrom p (va + i) 5 p.ptroot with
    | .leaf f =>
      let pa := f.pa + (va + i) % pageSize f.level
      if f.fwd || f.dev || !p.holds false f.pa (pageSize f.level) || (x && !f.x) then none else some pa
    | .fault _ _ _ => none)

/-- 04 R72, R76: the bytes of a section at the keys it is placed at; none where it cannot be, or where an image's descriptor would not be
64-byte aligned. -/
def State.loadSection (s : State) (p : Partition) (x : ObjSection) : Option (List (Nat × Byte)) :=
  if x.shType == shImage && x.addr % 64 != 0 then none
  else (s.loadKeys p x.addr x.bytes.length (x.shType == shImage)).map (fun ks => ks.zip x.bytes)

/-- What a load gives: an error, or the sections as they are placed with the image loaded. -/
inductive Loaded where
  | failed (code : Nat)
  | ready (sections : List ObjSection) (image : Image)

/-- 04 R71 to R79: check, select, relocate and patch a code object; the entries of `.drreloc` name their section by the object's own
addresses (log entry 58). -/
def loadObject (o : CodeObject) (id : Nat) : Loaded :=
  if !objectValid o then .failed 0xB201
  else
    match selectImage o with
    | none => .failed 0xB202
    | some (k, img) =>
      let code := codeOf img
      let codeOff := fieldOf img.bytes 16 4
      let reloc := ((sectionsOf o shReloc)[0]?).map (·.2)
      let es := (reloc.map (·.bytes)).getD []
      let ps := (((sectionsOf o shPatch).find? (fun y => y.2.link == k)).map (·.2.bytes)).getD []
      match relocate o es (es.length / 24) 0 o.sections, patch o code codeOff id ps (ps.length / 24) 0 (putField img.bytes 8 4 id) with
      | some xs, some image =>
        (match safeTableOf o k img, (sectionsOf o shImage).all (fun x => (safeTableOf o x.1 x.2).isSome) with
         | some pts, true =>
           .ready ((xs.modify k (fun x => { x with bytes := image })).filter (fun x => x.shType != shReloc && x.shType != shPatch))
             { id := BitVec.ofNat 32 id, va := img.addr, codeOff := codeOff, codeLen := fieldOf img.bytes 12 4, points := pts }
         | _, _ => .failed 0xB204)
      | _, _ => .failed 0xB203

/-- CODE_OBJECT_LOAD (04 R76, R79): the load completes in full, or changes no memory and writes a record; where some
section is not mapped for it, or an image would not be aligned (R72), nothing happens (log entry 41). -/
def execCodeObjectLoad (part : Nat) (obj : CodeObject) (s : State) : Host.Outcome State Fault Refusal :=
  .next (match s.part? part with
    | none => s
    | some p =>
      match loadObject obj p.imageNext with
      | .failed code => s.record { s.plainRecord part (p.pdie.headD 0) code 0 with engine := 13 * 2 ^ 24 }
      | .ready xs img =>
        match xs.mapM (s.loadSection p) with
        | none => s
        | some ws =>
          (s.outerWrite ws.flatten).modPart part (fun p => { p with images := p.images ++ [img], imageNext := p.imageNext + 1 }))

end Sys2Proof.Machine
end

