-- ==== Sys2Proof/Machine/Summary.lean ====
section
/-!
DEFINITION. What SUMMARY reports (25 R481 to R483) and what a block of the package latches for a snapshot (23 R437).
-/
namespace Sys2Proof.Machine

/-! ### The numbers that an entry reports -/

/-- 25 R482: the state of a physical cluster as a number. -/
def ClusterState.code (c : ClusterState) : Nat :=
  match c with
  | .enabled => 0
  | .spare => 1
  | .retired => 2
  | .inService => 3

/-- 25 R482: the state of a partition as a number. -/
def PartState.code (p : PartState) : Nat :=
  match p with
  | .running => 0
  | .halted => 1
  | .resetting => 2
  | .reconfiguring => 3

/-- 21 R400: the state of a path as a number. -/
def LinkState.code (l : LinkState) : Nat :=
  match l with
  | .up => 0
  | .congested => 1
  | .down => 2
  | .retraining => 3

/-- 20 R366: the state of a word of an L1 as a number, as R366 lists them. -/
def L1State.code (w : L1State) : Nat :=
  match w with
  | .valid => 1
  | .dirty => 2
  | .registered => 3

/-- 20 R383: the state of a directory node as a number. -/
def NodeState.code (n : NodeState) : Nat :=
  match n with
  | .u => 0
  | .s => 1
  | .o => 2

/-- 20 R382: the coherence counters in the rule's order. -/
def CohCounters.numbers (c : CohCounters) : List Nat :=
  [c.regs, c.fwds, c.recallOut, c.recallIn, c.splits, c.merges, c.dirEvict, c.epoch]

/-- 25 R482, DIES: a die; its temperature and power are open (log entry 5). -/
def State.dieNumbers (s : State) (d : Nat) : List Nat :=
  let x := s.die d
  [x.rstcause.toNat, x.fwA, x.fwB, x.fwActiveB.toNat] ++ x.clusters.map (fun c => c.state.code) ++
    x.clusters.map (fun c => c.defects.toNat) ++ [x.cohctl.toNat, Config.freeNat (8 * s.free + 2 * d), Config.freeNat (8 * s.free + 2 * d + 1)]

/-- 23 R435, 25 R482: DROPS of a ring of a partition. -/
def State.ringDrops (s : State) (p : Partition) (r : Ring) : Nat := if r.size = 0 then 0 else s.vaNum p (r.addr + 16) 8

/-- 25 R482, PARTS: a partition; an unmapped logical cluster shows as 0xFE of its map (05 R109). -/
def State.partNumbers (s : State) (p : Partition) : List Nat :=
  [p.num, p.state.code, p.prio] ++ p.pdie ++ p.clmap ++ [p.controlWord 0, p.controlWord 8, p.controlWord 16] ++
    ((p.launches.filter (fun l => l.state == 3)).map (·.ticket)).take 16 ++ p.classes ++
    [p.obs.tbuf, p.obs.sbuf, p.errRing, p.accRing].map (s.ringDrops p) ++ [p.dumpDropped, p.mismatches]

/-- 25 R482, GANGS: the gang of a workgroup, with its binding table (05 R101). -/
def State.gangNumbers (s : State) (w : Workgroup) : List Nat :=
  [w.part, w.ticket, w.gangBase / max 1 (s.gangField w)] ++ w.bindingBytes.map (·.toNat)

/-- 25 R482, COHERENCE: the counters of a partition on a die. -/
def State.cohNumbers (s : State) (part d : Nat) : List Nat := [part, d] ++ (assocGet CohCounters.zero part (s.die d).coh).numbers

/-- 25 R482, LINKS: a Mbatil lane, or 256 + a Braid port: its state, its width (open, log entry 5), its retrains. -/
def State.linkNumbers (s : State) (unit : Nat) : List Nat :=
  let st := if unit < 256 then (if s.linkDown then 2 else (s.badLanes.contains unit).toNat)
    else ((s.allPaths.filter (fun x => s.portOf x.1 x.2 == unit - 256)).map (fun x => (s.linkState x.1 x.2).code)).foldl max 0
  [unit, st, Config.freeNat (256 * s.free + unit), assocGet 0 unit s.retrains]

/-- 21 R400: what SUMMARY and the snapshot registers report of a path. -/
def State.pathNumbers (s : State) (dest path : Nat) : List Nat :=
  [dest, path, s.portOf dest path, (s.linkState dest path).code] ++
    (s.counts.filter (fun b => b.dest == dest && b.path == path)).flatMap (fun b => [b.part, b.sent, b.acked]) ++
    (s.perfs.filter (fun b => b.source == dest && b.path == path)).flatMap (fun b => [b.part, b.perf]) ++ [s.replaysOf dest path]

/-! ### The output of SUMMARY -/

/-- Links of the package: the Mbatil lanes and the 32 Braid ports; the number of lanes is open (log entry 5). -/
def mbatilLanes : Nat := Config.freeNat 1 % 256

/-- 25 R482: the entries of the sections of KIND 1 to 6. -/
def State.summaryEntries (s : State) (kind : Nat) : List (List Nat) :=
  match kind with
  | 1 => (List.range 4).map s.dieNumbers
  | 2 => s.parts.map s.partNumbers
  | 3 => (s.wgs.filter (fun w => w.onCore && (s.gangOf w).all (fun x => w.member ≤ x.member))).map s.gangNumbers
  | 4 => s.parts.flatMap (fun p => (List.range 4).map (s.cohNumbers p.num))
  | 5 => (List.range mbatilLanes ++ (List.range 32).map (· + 256)).map s.linkNumbers
  | 6 => s.allPaths.map (fun x => s.pathNumbers x.1 x.2)
  | _ => []

/-- 25 R481: a section: its header, and its entries. -/
def summarySection (kind count size : Nat) (bs : List Byte) : List Byte :=
  bytesOfNat 2 kind ++ bytesOfNat 2 count ++ bytesOfNat 4 size ++ bytesOfNat 8 (16 + count * size) ++ bs

/-- 25 R482: the section of a KIND; the places of the numbers in an entry of KIND 1 to 6 are open (log entry 5). -/
def State.summaryPart (s : State) (kind : Nat) : List Byte :=
  if kind = 7 then
    let rs := s.records.drop (s.records.length - 16)
    summarySection 7 rs.length 64 (rs.flatMap ErrorRecord.toBytes)
  else
    let es := s.summaryEntries kind
    let n := Config.summaryEntryBytes kind
    summarySection kind es.length n (es.flatMap (fun e => (List.range n).map (Config.summaryByte kind e)))

/-- 25 R481: the header and the sections. -/
def State.summaryBytes (s : State) : List Byte :=
  let body := ((List.range 7).map (· + 1)).flatMap s.summaryPart
  bytesOfNat 4 0x4D4D5553 ++ bytesOfNat 2 1 ++ bytesOfNat 2 (0x0700 + Config.stepping) ++ bytesOfNat 8 (64 + body.length) ++
    bytesOfNat 2 s.pod ++ bytesOfNat 1 s.master ++ bytesOfNat 1 7 ++ bytesOfNat 4 0 ++
    (List.range 4).flatMap (fun d => bytesOfNat 8 (s.die d).cycle) ++ bytesOfNat 8 Config.tier2 ++ body

/-! ### What a die's blocks latch (23 R437) -/

/-- 20 R383: the 16 bytes of a directory node at a cycle: BASE, HOLD, STATE, SIZE, AGE. -/
def Node.snapBytes (n : Node) (cycle : Nat) : List Byte :=
  bytesOfNat 16 (n.base % 2 ^ 45 * 2 ^ 7 + n.hold.toNat * 2 ^ 61 + n.st.code * 2 ^ 66 + n.size % 16 * 2 ^ 68 +
    min (2 ^ 32 - 1) (cycle - n.changed) * 2 ^ 72)

/-- The split-table entries of a group: the issuer's names, then each entry's record (07 R142). -/
def State.snapSplits (s : State) (w : Workgroup) : List SnapBlock :=
  (s.groupsOf w.key).map (fun g =>
    { kind := 1, image := [],
      values := [w.part, w.ticket, w.wg, g.groupId] ++ (sortBy (·.id) g.splits).flatMap (fun x => x.recordBytes.map (·.toNat)) })

/-- The scoreboard entries, L1 word states, engine queues and stall counters of a physical core. -/
def State.snapCore (s : State) (phys : Nat) : List SnapBlock :=
  let c := s.core phys
  [{ kind := 2, image := [],
     values := phys :: (c.ops.filter (·.entry)).flatMap (fun o => (o.scoreBytes (s.issuerId o)).map (·.toNat)) },
   { kind := 3, image := [], values := phys :: c.l1.flatMap (fun x => [x.key, x.st.code, x.dirty.toNat]) },
   { kind := 6, image := [],
     values := phys :: c.ops.flatMap (fun o => [o.kind.dumpOp, s.issuerId o, o.tile, o.count, o.steps, o.landed.length]) },
   { kind := 7, image := [], values := phys :: c.hist.flatMap (fun h => h.h ++ h.z) }]

/-- The blocks of a die; a cluster in the middle of a swap reports that alone; the path counters of the package are latched with die
0 (log entry 49). -/
def State.snapDie (s : State) (d : Nat) (inSwap : Nat → Bool) : List SnapBlock :=
  ((List.range 7).map (· + d * 7)).flatMap (fun k =>
    (if inSwap k then [{ kind := 8, values := [k], image := [] }]
     else (s.wgs.filter (fun w => w.onCore && coreCluster w.phys == k)).flatMap s.snapSplits) ++
      ((List.range 8).map (· + k * 8)).flatMap s.snapCore) ++
  [{ kind := 4, values := [d], image := (s.die d).nodes.flatMap (fun n => n.snapBytes (s.die d).cycle) }] ++
  (if d = 0 then s.allPaths.map (fun x => { kind := 5, values := s.pathNumbers x.1 x.2, image := [] }) else [])

/-- 23 R437: the image: a header with each die's latch cycle, then a section per block; but for the nodes (20 R383) the places of
the numbers in it are open, and what the buffer does not hold is left out (log entry 49). -/
def Snapshot.bytes (x : Snapshot) : List Byte :=
  (Config.snapshotBytes 0 (x.latched.flatMap (fun l => [l.1, l.2])) ++
    x.blocks.flatMap (fun b => Config.snapshotBytes b.kind b.values ++ b.image)).take x.size

end Sys2Proof.Machine
end

