-- ==== Sys2Proof/Machine/Swap.lean ====
section
/-!
DEFINITION. Slices, pre-emption, and the save and restore of contexts (05 R105 to R110; 22 R418 to R426; 20 R384).
-/
namespace Sys2Proof.Machine

/-! ### Who waits for a cluster (05 R106, R107) -/

/-- The logical cluster that a partition maps onto a physical cluster. -/
def Partition.logicalOf (p : Partition) (k : Nat) : Option (Nat × Nat) :=
  (p.mappedClusters.find? (fun x => x.2.2 == k)).map (fun x => (x.1, x.2.1))

/-- The saved workgroups of a partition's logical cluster that can be restored: no halt is over them. -/
def State.savedWgs (s : State) (part ldie lcluster : Nat) : List Workgroup :=
  s.wgs.filter (fun w => w.part == part && w.ldie == ldie && w.lcluster == lcluster && w.status == .saved &&
    !s.halts.any (fun h => h.wgs.contains w.key))

/-- The state with a physical cluster empty of other partitions' workgroups, in which a waiting partition is judged. -/
def State.vacated (s : State) (k part : Nat) : State :=
  { (s.modShare k (fun c => { c with resident := none, preempt := false, defects := c.newDefects })) with
    wgs := s.wgs.filter (fun w => !(coreCluster w.phys == k && w.onCore && w.part != part)) }

/-- 05 R106: a partition has saved contexts for a physical cluster, or a workgroup that could be placed there; a context whose
logical core is absent there holds the others back (log entry 57). -/
def State.wantsCluster (s : State) (k : Nat) (p : Partition) : Bool :=
  p.runs &&
    (match p.logicalOf k with
     | none => false
     | some (d, c) =>
       let v := s.vacated k p.num
       let ws := s.savedWgs p.num d c
       ws.all (fun w => (v.physCore k w.lcore).isSome) &&
         (!ws.isEmpty || p.launches.any (fun l => l.wantsPlace && (v.findIn p l d c k).isSome)))

/-- The partitions that wait for a physical cluster, the resident one apart. -/
def State.waiters (s : State) (k : Nat) : List Partition :=
  s.parts.filter (fun p => (s.share k).resident != some p.num && s.wantsCluster k p)

/-- 05 R106, R107: the partition whose slice is next: the highest priority, then round robin from the last of that priority. -/
def State.nextPart (s : State) (k : Nat) : Option Nat :=
  let ws := s.waiters k
  let top := (ws.map (·.prio)).foldl max 0
  let next := assocGet 0 top (s.share k).turns
  (leastBy (fun p => if next ≤ p.num then p.num else p.num + 2 ^ 32) (ws.filter (fun p => p.prio == top))).map (·.num)

/-- 05 R110: the swap in progress on a physical cluster is still to restore contexts of a partition. -/
def State.swapping (s : State) (k : Nat) : Option Nat :=
  ((s.share k).incoming.bind s.part?).bind (fun p =>
    match p.logicalOf k with
    | some (d, c) => if s.wantsCluster k p && !(s.savedWgs p.num d c).isEmpty then some p.num else none
    | none => none)

/-- 05 R107, R110: the partition whose slice may start: the one that the swap in progress brings in, else the next. -/
def State.turnAt (s : State) (k : Nat) : Option Nat := (s.swapping k).orElse (fun _ => s.nextPart k)

/-- 05 R105: the quantum of a partition's slice: the largest among its launches with workgroups on the cluster; 1 with none (log
entry 57). -/
def State.quantumOf (s : State) (k : Nat) (p : Partition) : Nat :=
  let ts := (s.wgs.filter (fun w => w.part == p.num && coreCluster w.phys == k)).map (·.ticket)
  ((p.launches.filter (fun l => ts.contains l.ticket)).map (·.quantum)).foldl max 1

/-! ### The signal (22 R418) -/

/-- The workgroups of a physical cluster's resident partition. -/
def State.residentWgs (s : State) (k : Nat) : List Workgroup :=
  s.wgs.filter (fun w => coreCluster w.phys == k && w.onCore && (s.share k).resident == some w.part)

/-- 22 R418: a split held at a wait that has not passed stops at that instruction. -/
def Split.stopWait (sp : Split) : Split :=
  if sp.hold == .bwait || sp.hold == .tlwait || sp.hold == .event then sp.abandon else sp

/-- 22 R418: pre-emption of a physical cluster is signalled. -/
def State.signal (s : State) (k : Nat) : State :=
  let ks := ((s.residentWgs k).filter (fun w => w.status == .resident)).map (·.key)
  { (s.modShare k (fun c => { c with preempt := true })) with
    wgs := s.wgs.map (fun (w : Workgroup) => if ks.contains w.key then { w with status := WgStatus.stopping } else w),
    groups := s.groups.map (fun (g : Group) =>
      if ks.contains g.wgKey then { g with splits := g.splits.map Split.stopWait } else g) }

/-- 05 R106, R109, R110: a partition is to leave a physical cluster at once. -/
def State.mustLeave (s : State) (k : Nat) (p : Partition) : Bool :=
  (s.share k).retiring || (s.waiters k).any (fun q => p.prio < q.prio) ||
    ((s.residentWgs k).isEmpty && !s.wantsCluster k p && !(s.waiters k).isEmpty)

/-- QUANTUM_EXPIRY (05 R106): the slice ends where a partition of equal priority waits, else it is renewed; a retirement or a
higher priority comes first (R110). -/
def execQuantumExpiry (die cluster : Nat) (s : State) : Host.Outcome State Fault Refusal :=
  let k := die * 7 + cluster
  .next (match (s.share k).resident.bind s.part? with
    | none => s
    | some p =>
      if (s.share k).preempt || s.mustLeave k p then s
      else if (s.waiters k).any (fun q => q.prio == p.prio) then s.signal k
      else s.modShare k (fun c => { c with sliceStart := (s.die die).cycle, quantum := s.quantumOf k p }))

/-! ### Where the partitions of a retired cluster go (05 R109) -/

/-- 05 R108: partitions with a logical cluster on a physical cluster, but for one. -/
def State.assigned (s : State) (k but : Nat) : Nat :=
  (s.parts.filter (fun p => p.num != but && (p.logicalOf k).isSome)).length

/-- The clusters of the die of a physical cluster. -/
def dieClusters (k : Nat) : List Nat := (List.range 7).map (fun c => k / 7 * 7 + c)

/-- 05 R109: the enabled cluster that takes over a partition's logical cluster where its die has no spare: one of the die that holds
none of the partition's, within the limit of R108; of several the lowest (log entry 57). -/
def State.takeover (s : State) (k : Nat) (p : Partition) : Option Nat :=
  (dieClusters k).find? (fun c => c != k && (s.share c).state == .enabled && (p.logicalOf c).isNone && s.assigned c p.num < 8)

/-- Map a partition's logical cluster onto a physical cluster of its die, or 0xFE for none. -/
def Partition.remap (p : Partition) (d c dst : Nat) : Partition := { p with clmap := p.clmap.modify (6 * d + c) (fun _ => dst) }

/-- 05 R109: every partition assigned to a retired cluster is mapped onto the die's spare, which becomes enabled; where there is
none, onto another cluster, or unmapped. -/
def State.moveAll (s : State) (k : Nat) : State :=
  let spare := (dieClusters k).find? (fun c => (s.share c).state == .spare)
  let s := match spare with
    | some t => s.modShare t (fun x => { x with state := .enabled })
    | none => s
  s.parts.foldl (fun s p =>
    match p.logicalOf k with
    | none => s
    | some (d, c) =>
      match spare.orElse (fun _ => s.takeover k p) with
      | some t => s.modPart p.num (fun p => p.remap d c (t % 7))
      | none => s.modPart p.num (fun p => p.remap d c 0xFE)) s

/-- 05 R109: a partition's logical cluster left unmapped (its place in CLMAP) is mapped where a cluster of its die qualifies. -/
def State.mapOne (s : State) (part i : Nat) : State :=
  match s.part? part with
  | none => s
  | some p =>
    if p.clmap.getD i 0xFF == 0xFE && i / 6 < p.ndie then
      match (dieClusters (p.pdie.getD (i / 6) 0 * 7)).find? (fun c =>
          (s.share c).state == .enabled && (p.logicalOf c).isNone && s.assigned c part < 8) with
      | some t => s.modPart part (fun p => p.remap (i / 6) (i % 6) (t % 7))
      | none => s
    else s

/-- 05 R109: logical clusters left unmapped are mapped as soon as a cluster of their die qualifies: after RETURN, PRECFG, and where
a partition has given up its place. -/
def State.mapUnmapped (s : State) : State :=
  (s.parts.flatMap (fun p => (List.range 24).map (fun i => (p.num, i)))).foldl (fun s x => s.mapOne x.1 x.2) s

/-- 05 R109, R110: the retirement of a cluster goes on: once no swap is in progress, nothing is resident there and no dump of it is
outstanding, its partitions move. -/
def State.goOnRetiring (s : State) (k : Nat) : State :=
  if (s.share k).retiring && (s.share k).resident.isNone && (s.swapping k).isNone && !s.wgs.any (fun w => coreCluster w.phys == k && w.onCore) then
    (s.moveAll k).modShare k (fun c => { c with state := .retired, retiring := false, checked := false })
  else s

/-- PREEMPTION (05 R106, R109; 22 R418): the resident partition is pre-empted for a higher priority, for a retirement, or
because it has nothing more to run; a retirement whose cluster is empty goes on. -/
def execPreemption (die cluster : Nat) (s : State) : Host.Outcome State Fault Refusal :=
  let k := die * 7 + cluster
  .next (match (s.share k).resident.bind s.part? with
    | none => s.goOnRetiring k
    | some p => if !(s.share k).preempt && s.mustLeave k p then s.signal k else s)

/-! ### The save (22 R418 to R423) -/

/-- 22 R418: a split has stopped: it is spilled or does not issue, stands between clauses, or is held at a wait or at a stop
site. -/
def Split.atRest (sp : Split) : Bool :=
  sp.spilled || (sp.state != .ready && sp.state != .inTrap) || sp.word == 0 || sp.skipRpc || sp.stop == .stopped ||
    sp.hold == .bwait || sp.hold == .tlwait || sp.hold == .event || sp.hold == .abandoned

/-- 22 R418, R419: a workgroup's context can be saved. -/
def State.canSave (s : State) (w : Workgroup) : Bool :=
  w.status == .stopping && s.drained w &&
    (s.groupsOf w.key).all (fun g => g.ops.isEmpty && g.flags.isEmpty && g.splits.all Split.atRest) &&
    s.counts.all (fun b => b.part != w.part || b.sent == b.acked) && !s.halts.any (fun h => h.wgs.contains w.key)

/-- 22 R423: a workgroup's part of its context, from its core. -/
def State.saveWg (s : State) (k : Nat) (w : Workgroup) : Workgroup :=
  let lo := scratchKey w.phys w.scratchOff
  let mine := fun (key : Nat) => lo ≤ key && key < lo + w.scratchLen
  let base := scratchKey w.phys 0
  { w with
    status := .saved, savedAt := k,
    savedScratch := (s.mem.filter (fun kv => mine kv.1)).map (fun kv => (kv.1 - base, kv.2)),
    savedTags := (s.tags.filter (fun g => mine (16 * g))).map (fun g => g - base / 16),
    savedPoison := (s.poison.filter (fun g => mine (16 * g))).map (fun g => g - base / 16),
    savedTiles := ((List.range 4).filter (fun i => w.acc.getLsbD i && s.tile w.phys i != Tile.reset)).map (fun i => (i, s.tile w.phys i)),
    savedOps := (s.core w.phys).ops.filter (fun o => o.wgKey == w.key) }

/-- 22 R422, 20 R384: a group's reservations are cancelled. -/
def Group.cancelAll (g : Group) : Group := g.dropResv (BitVec.allOnes 64) 4

/-- 20 R384, 22 R423: save the contexts of a physical cluster's resident partition; the swap goes on with those of the next (05
R110), unless the cluster is to be retired. -/
def State.saveCluster (s : State) (k part : Nat) : State :=
  let ws := s.residentWgs k
  let ks := ws.map (·.key)
  let s := ((List.range 8).map (k * 8 + ·)).foldl (fun s c => s.evictWords c (((s.core c).l1.filter (fun x => x.part == part)).map (·.key))) s
  let saved := ws.map (s.saveWg k)
  let s := { s with
    wgs := s.wgs.map (fun (w : Workgroup) => ((saved.find? (fun (x : Workgroup) => x.key == w.key)).getD w)),
    groups := s.groups.map (fun (g : Group) => if ks.contains g.wgKey then g.cancelAll else g),
    cores := s.cores.map (fun (kc : Nat × Core) =>
      if coreCluster kc.1 == k then
        (kc.1, { kc.2 with icache := kc.2.icache.filter (fun l => l.part != part), l1 := kc.2.l1.filter (fun w => w.part != part),
                           ops := kc.2.ops.filter (fun o => !ks.contains o.wgKey) })
      else kc) }
  let s := s.modShare k (fun c => { c with resident := none, preempt := false })
  s.modShare k (fun c => { c with incoming := if c.retiring then none else s.nextPart k })

/-- CONTEXT_SAVE (22 R419, R423). -/
def execContextSave (die cluster : Nat) (s : State) : Host.Outcome State Fault Refusal :=
  let k := die * 7 + cluster
  .next (match (s.share k).resident with
    | none => s
    | some part =>
      if (s.share k).preempt && (s.residentWgs k).all s.canSave then s.saveCluster k part else s)

/-! ### The restore (22 R421 to R426) -/

/-- 22 R418, R426: a split as it resumes: at a clause start, fetched again, or at the word of its wait with the clause's
WAIT tested again; one that waited at a clause start still does, once it has fetched the clause again. -/
def Split.resumed (sp : Split) : Split :=
  { sp with clause := [], waitOn := none, hold := if sp.hold == .clauseWait then .clauseWait else .none,
            skipRpc := sp.skipRpc || (sp.word != 0 && (sp.state == .ready || sp.state == .inTrap)) }

/-- 22 R426, 05 R98: the scheduler of a restored group. -/
def Group.resumed (g : Group) (scheds : List (Nat × Nat)) : Group :=
  { g with splits := g.splits.map Split.resumed, sched := (lastOf g.gid scheds).getD g.sched }

/-- 22 R421: put a workgroup's context back, on a physical core. -/
def State.restoreWg (s : State) (w : Workgroup) (phys : Nat) : State :=
  let lo := scratchKey phys w.scratchOff
  let base := scratchKey phys 0
  let s := s.wipe lo w.scratchLen
  let s := { s with
    mem := assocSets resetByte (w.savedScratch.map (fun (kv : Nat × Byte) => (base + kv.1, kv.2))) s.mem,
    tags := (w.savedTags.map (· + base / 16)).foldl (fun l g => setAdd g l) s.tags,
    poison := (w.savedPoison.map (· + base / 16)).foldl (fun l g => setAdd g l) s.poison }
  let s := s.modCore phys (fun c => { c with
    tiles := (List.range 4).map (fun i => if w.acc.getLsbD i then assocGet Tile.reset i w.savedTiles else c.tiles.getD i Tile.reset),
    ops := sortBy (·.id) (c.ops ++ w.savedOps) })
  s.modWg w.key (fun w => { w with
    phys := phys, status := .resident, savedScratch := [], savedTags := [], savedPoison := [], savedTiles := [], savedOps := [] })

/-- 05 R101: the binding tables of restored workgroups. -/
def State.rebind (s : State) (ks : List Nat) : State :=
  { s with wgs := s.wgs.map (fun (w : Workgroup) =>
      if ks.contains w.key then { w with binding := (s.gangOf w).map (fun x => (x.member, x.phys)) } else w) }

/-- 05 R97: the schedulers given take the restored groups of a core. -/
def State.schedsTake (s : State) (ws : List Workgroup) (phys : Nat → Nat) (scheds : List (Nat × Nat)) : Bool :=
  (uniq (ws.map (fun w => phys w.key))).all (fun c =>
    let gs := (s.groups.filter (fun g => !g.ended && ws.any (fun w => w.key == g.wgKey && phys w.key == c))).map (fun g => g.resumed scheds)
    schedsFit (List.replicate 4 (0, 0, 0)) (gs.map (fun g => (g.vregs, g.sregs))) (gs.map (·.sched)))

/-- 22 R425: a context lost in shadow storage is fatal to its partition, and is not resumed. -/
def State.loseContext (s : State) (die k : Nat) (p : Partition) : State :=
  let r := { s.plainRecord p.num die 0x6301 (actionOf 4 2) with engine := 12 * 2 ^ 24, paddr := k % 7 }
  let s := s.record r
  { s with halts := s.halts ++
      [{ stage := .raised, part := p.num, fdom := 3, ticket := 0, wg := 0, die := die,
         wgs := (s.wgs.filter (fun w => w.part == p.num)).map (·.key), cause := r, haltCyc := 0, nsecond := 0, second := none,
         records := [r], dropped := false, ctxLost := true }] }

/-- CONTEXT_RESTORE (05 R105, R107, R110; 22 R421 to R426): the slice of the partition whose turn it is starts, with the core masks
then in force (05 R102): its contexts of the cluster are restored, on the schedulers given.  A logical die stays on its physical
die, which 01 R17 allows (log entry 57). -/
def execContextRestore (die cluster part : Nat) (scheds : List (Nat × Nat)) (lost : Bool) (s : State) :
    Host.Outcome State Fault Refusal :=
  let k := die * 7 + cluster
  .next (match s.part? part with
    | none => s
    | some p =>
      match p.logicalOf k with
      | none => s
      | some (d, c) =>
        let ws := s.savedWgs part d c
        let s' := s.adoptDefects k
        let phys := fun (key : Nat) => (((ws.find? (fun w => w.key == key)).bind (fun w => s'.physCore k w.lcore))).getD 0
        if (s.share k).resident.isSome || !((s.share k).state == .enabled || s.swapping k == some part) || s.turnAt k != some part ||
            !s'.schedsTake ws phys scheds then s
        else if lost && !ws.isEmpty then s.loseContext die k p
        else
          let ks := ws.map (·.key)
          let s := s'.startSlice k part 1
          let s := ws.foldl (fun s w => s.restoreWg w (phys w.key)) s
          let s := s.rebind ks
          let s := { s with
            groups := s.groups.map (fun (g : Group) => if ks.contains g.wgKey then g.resumed scheds else g),
            cores := s.cores.map (fun (kc : Nat × Core) =>
              if coreCluster kc.1 == k then
                (kc.1, { kc.2 with icache := kc.2.icache.filter (fun l => l.part != part), l1 := kc.2.l1.filter (fun w => w.part != part) })
              else kc) }
          s.modShare k (fun c => { c with quantum := s.quantumOf k p }))

/-! ### Placing (05 R97 to R104) -/

/-- WORKGROUP_PLACE (05 R97 to R105): the next workgroup, or gang, of a launch, on the cores and schedulers given; it may start the
partition's slice of the cluster where no context of it waits to be restored there. -/
def execWorkgroupPlace (part ticket : Nat) (places : List PlaceAt) (s : State) : Host.Outcome State Fault Refusal :=
  .next (match s.part? part with
    | none => s
    | some p =>
      match p.launch? ticket, places with
      | some l, x :: _ =>
        (match p.physCluster x.ldie x.lcluster with
         | none => s
         | some k =>
           let starts := (s.share k).resident.isNone
           let s' := if starts then s.adoptDefects k else s
           if l.state == 3 && l.wantsPlace && p.runs && s'.gangFits p l places &&
               (!starts || (s.turnAt k == some part && (s.savedWgs part x.ldie x.lcluster).isEmpty)) && s.turnOf p l then
             let phys := places.map (fun y => (s'.physCore k y.lcore).getD 0)
             let binding := (List.range phys.length).zip phys
             let s := if starts then s'.startSlice k part l.quantum else s
             let s := ((List.range places.length).zip (places.zip phys)).foldl (fun s y =>
               s.placeWg part l (l.nextWg + y.1) y.2.1 y.2.2 binding) s
             s.modLaunch part ticket (fun l =>
               { l with nextWg := l.nextWg + places.length, charged := if l.firnLen = 0 then l.charged else setAdd x.ldie l.charged })
           else s)
      | _, _ => s)

end Sys2Proof.Machine
end

