-- ==== Sys2Proof/Machine/Observe.lean ====
section
/-!
DEFINITION. Samples (23 R434), snapshots (R437), checkpoints (R438, R439).
-/
namespace Sys2Proof.Machine

/-! ### Samples -/

/-- The groups of a scheduler. -/
def State.schedGroups (s : State) (phys sched : Nat) : List Group := (s.groupsOn phys).filter (fun g => g.sched == sched)

/-- 23 R434: the split that the scheduler would issue, with 0xFF, or the highest-ranked of its oldest group, with the reason it
stalls. -/
def State.sampleSplit (s : State) (phys sched : Nat) : Option (Ctx × Nat) :=
  let gs := s.schedGroups phys sched
  let cs := gs.flatMap (fun g => g.splits.filterMap (fun sp => s.ctx? g.gid sp.id))
  match leastBy s.issueRank (cs.filter (fun c => c.issueReady && !s.capHolds c)) with
  | some c => some (c, 0xFF)
  | none =>
    match leastBy (fun (g : Group) => g.age) gs with
    | none => none
    | some g =>
      match leastBy (fun sp => g.splitRank sp) g.splits with
      | none => none
      | some sp => (s.ctx? g.gid sp.id).map (fun c => (c, s.stallReason c))

/-- SAMPLE_TIMER (23 R434). -/
def execSampleTimer (die cluster core sched : Nat) (s : State) : Host.Outcome State Fault Refusal :=
  let phys := (die * 7 + cluster) * 8 + core
  .next (match s.sampleSplit phys sched with
    | none => s
    | some (c, stall) =>
      if (s.partOf c.w.part).obs.smpl = 0 then s
      else { s with samples := s.samples ++
        [{ gid := c.g.gid, sid := c.sp.id, part := c.w.part, die := die, cycle := (s.die die).cycle, stall := stall }] })

/-- 23 R434: the 32 bytes of a sample. -/
def State.sampleBytes (s : State) (c : Ctx) (p : PendingSample) (site : Word × Word) : List Byte :=
  bytesOfNat 4 site.1.toNat ++ bytesOfNat 4 site.2.toNat ++ bytesOfNat 8 p.cycle ++ bytesOfNat 8 c.w.ticket ++ bytesOfNat 1 p.die ++
    bytesOfNat 1 c.w.coreIndex ++ bytesOfNat 1 c.g.groupId ++ bytesOfNat 1 p.stall ++
    bytesOfNat 2 (min 65535 ((s.die p.die).cycle - p.cycle)) ++ bytesOfNat 2 0

/-- 23 R434: a firing that writes nothing adds one to DROPS. -/
def State.dropSample (s : State) (part : Nat) : State :=
  let p := s.partOf part
  let r := p.obs.sbuf
  if r.size = 0 then s else s.vaStore p (r.addr + 16) (bytesOfNat 8 (s.vaNum p (r.addr + 16) 8 + 1))

/-- 23 R434: what becomes of a sample now: none while its split is still on its way. -/
def State.settleSample (s : State) (x : PendingSample) : Option State :=
  let late := (s.die x.die).cycle - x.cycle > 65536
  match s.ctx? x.gid x.sid with
  | none => some (s.dropSample x.part)
  | some c =>
    match s.siteOf c.w c.sp with
    | some site =>
      if c.mayMove && (c.sp.state == .ready || c.sp.state == .inTrap) && !late then
        some (s.ringPut (s.partOf x.part) (s.partOf x.part).obs.sbuf (s.sampleBytes c x site))
      else if late then some (s.dropSample x.part) else none
    | none => if late then some (s.dropSample x.part) else none

/-- SAMPLE_WRITE (23 R434): the oldest sample of a split is written at its stop site, or dropped. -/
def execSampleWrite (g sid : Nat) (s : State) : Host.Outcome State Fault Refusal :=
  .next (match s.samples.find? (fun x => x.gid == g && x.sid == sid) with
    | none => s
    | some x =>
      match s.settleSample x with
      | none => s
      | some s => { s with samples := s.samples.erase x })

/-! ### Snapshots -/

/-- 21 R403: end the mailbox's command with a status, its code, and its results. -/
def Mailbox.finish (m : Mailbox) (status code : Nat) (res : List Nat) : Mailbox :=
  { m with mstat := BitVec.ofNat 64 (status * 2 ^ 62 + bits m.cmd.toNat 63 48 * 2 ^ 32 + code % 2 ^ 16),
           res := (List.range 6).map (fun i => match res[i]? with
             | some x => BitVec.ofNat 64 x
             | none => m.res.getD i 0) }

/-- 21 R403: a command is in progress. -/
def Mailbox.busy (m : Mailbox) : Bool := bits m.mstat.toNat 63 62 == 1

/-- 23 R437: the latched image is written into the companion's buffer, and the command SNAP that waits for it is done. -/
def State.writeSnapshot (s : State) : State :=
  let bs := s.snap.bytes
  let s' := s.outerBytes s.snap.buffer bs
  let s' := { s' with snap := { s'.snap with active := false, latched := [], blocks := [] } }
  if s'.mailbox.busy && bits s'.mailbox.cmd.toNat 15 0 == 0x25 then { s' with mailbox := s'.mailbox.finish 2 0 [bs.length] } else s'

/-- SNAPSHOT_LATCH (23 R437): the trigger reaches a die, and its blocks latch; once all have, the image is written. -/
def execSnapshotLatch (die : Nat) (s : State) : Host.Outcome State Fault Refusal :=
  .next (if !s.snap.active || die ≥ 4 || s.snap.latched.any (fun x => x.1 == die) then s
    else
      let blocks := s.snapDie die (fun k => (s.swapping k).isSome)
      let s := { s with snap := { s.snap with latched := s.snap.latched ++ [(die, (s.die die).cycle)],
                                              blocks := s.snap.blocks ++ blocks } }
      if s.snap.latched.length = 4 then s.writeSnapshot else s)

/-! ### Checkpoints -/

/-- The leaves of a partition's tables, with the virtual addresses they map, from a table of a level down. -/
def State.leavesFrom (s : State) (p : Partition) (l t va : Nat) : List (Nat × Leaf) :=
  match l with
  | 0 => []
  | l' + 1 =>
    (List.range 512).flatMap (fun i =>
      let a := t + 8 * i
      let e := s.num a 8
      let v := va + i * pageSize (l' + 1)
      if e % 2 = 0 then []
      else if bitOf e 1 then (if l' + 1 ≥ 4 || leafReserved e (l' + 1) then [] else [(v, leafOf e (l' + 1) a)])
      else if l' = 0 || !p.holds false (bits e 51 12 * 4096) 4096 then []
      else s.leavesFrom p l' (bits e 51 12 * 4096) v)

/-- The memory pages that a partition maps here. -/
def State.mappedLeaves (s : State) (p : Partition) : List (Nat × Leaf) :=
  (s.leavesFrom p 5 p.ptroot 0).filter (fun x => !x.2.fwd && !x.2.dev)

/-- 23 R438: the pieces of a page by 64 KiB region: (region, first address, bytes). -/
def piecesOf (x : Nat × Leaf) : List (Nat × Nat × Nat) :=
  let size := pageSize x.2.level
  if size ≤ 65536 then [(x.1 / 65536 * 65536, x.2.pa, size)]
  else (List.range (size / 65536)).map (fun i => (x.1 + 65536 * i, x.2.pa + 65536 * i, 65536))

/-- 23 R438: what a checkpoint is to copy: every mapped page the first time, then the regions of the leaves with DCK set. -/
def checkpointPieces (first : Bool) (ls : List (Nat × Leaf)) : List (Nat × Nat × Nat) :=
  let all := ls.flatMap piecesOf
  if first then all
  else
    let hot := (ls.filter (fun x => x.2.dck)).flatMap piecesOf |>.map (·.1)
    all.filter (fun r => hot.contains r.1)

/-- 23 R438: clear DCK in leaves. -/
def State.clearDck (s : State) (ls : List (Nat × Leaf)) : State :=
  (ls.filter (fun x => x.2.dck)).foldl (fun s x => s.store [(x.2.entry, s.byte x.2.entry &&& 0xBF#8)] none) s

/-- 11 R267: invalidate a partition's translations on every core. -/
def State.tlbiAll (s : State) (part : Nat) (range : Option (Nat × Nat)) : State :=
  { s with cores := s.cores.map (fun (kc : Nat × Core) => (kc.1, kc.2.tlbi part range)) }

/-- 23 R438: the workgroups of a partition that a checkpoint has stopped. -/
def State.checkpointWgs (s : State) (part : Nat) : List Workgroup :=
  s.wgs.filter (fun w => w.part == part && (w.status == .stopping || w.status == .resident))

/-- 23 R438: stop every group of a partition, as for a pre-emption. -/
def State.signalPart (s : State) (part : Nat) : State :=
  let ks := ((s.checkpointWgs part).filter (fun w => w.status == .resident)).map (·.key)
  { s with
    wgs := s.wgs.map (fun (w : Workgroup) => if ks.contains w.key then { w with status := WgStatus.stopping } else w),
    groups := s.groups.map (fun (g : Group) =>
      if ks.contains g.wgKey then { g with splits := g.splits.map Split.stopWait } else g) }

/-- 23 R438: the groups of a partition resume on their cores, but for those of a cluster whose pre-emption is signalled. -/
def State.resumePart (s : State) (part : Nat) : State :=
  let ks := ((s.checkpointWgs part).filter (fun w => !(s.share (coreCluster w.phys)).preempt)).map (·.key)
  { s with
    wgs := s.wgs.map (fun (w : Workgroup) => if ks.contains w.key then { w with status := WgStatus.resident } else w),
    groups := s.groups.map (fun (g : Group) =>
      if ks.contains g.wgKey then { g with splits := g.splits.map Split.resumed } else g) }

/-- 22 R419, 20 R384: the partition's words leave the L1s of its cores, and its groups' reservations go. -/
def State.settlePart (s : State) (part : Nat) : State :=
  let ws := s.checkpointWgs part
  let s := s.flushPart part
  { s with groups := s.groups.map (fun (g : Group) => if ws.any (fun w => w.key == g.wgKey) then g.cancelAll else g) }

/-- 23 R438: the checkpoint of a partition whose groups have stopped, with nothing copied yet. -/
def State.takeCheckpoint (s : State) (p : Partition) (ls : List (Nat × Leaf)) : Checkpoint :=
  let live := s.checkpointWgs p.num
  let ws := live.map (fun w => s.saveWg (coreCluster w.phys) w) ++ s.wgs.filter (fun w => w.part == p.num && w.status == .saved)
  { num := p.ckptNext, groups := s.groups.filter (fun g => ws.any (fun w => w.key == g.wgKey)), workgroups := ws,
    launches := p.launches, ticketNext := p.ticketNext, carves := p.carves, pages := [], bytes := [], tags := [],
    pending := checkpointPieces (p.ckptNext == 0) ls, log := [] }

/-- Bytes of the pieces of a checkpoint. -/
def Checkpoint.size (k : Checkpoint) : Nat := (k.pages.map (·.2)).sum + (k.pending.map (·.2.2)).sum

/-- 23 R439: the area can hold one more checkpoint; what contexts and logs take there is open (log entry 50). -/
def Partition.checkpointFits (p : Partition) (k : Checkpoint) (free : Nat) : Bool :=
  ((p.ckpts ++ [k]).map Checkpoint.size).sum + Config.freeNat free ≤ p.obs.ckarea.size

/-- 23 R438, R439: the stopped groups' checkpoint is taken, or not. -/
def State.closeCheckpoint (s : State) (p : Partition) : State :=
  let s := s.settlePart p.num
  let ls := s.mappedLeaves p
  let k := s.takeCheckpoint p ls
  let s := if p.checkpointFits k s.free then
      ((s.clearDck ls).tlbiAll p.num none).modPart p.num (fun p =>
        { p with ckpts := p.ckpts ++ [k], ckptNext := p.ckptNext + 1, logOff := false, ckptBusy := false })
    else
      (s.record { s.plainRecord p.num (p.pdie.headD 0) 0xB302 0 with engine := 12 * 2 ^ 24 }).modPart p.num (fun p =>
        { p with ckpts := p.ckpts.map (fun k => if k.num + 1 == p.ckptNext then { k with log := [] } else k), logOff := true,
                 ckptBusy := false })
  s.resumePart p.num

/-- 23 R438: a checkpoint of the partition may be taken. -/
def State.mayCheckpoint (s : State) (p : Partition) : Bool :=
  p.obs.ckt != 0 && p.replay.isNone && p.runs && !s.halts.any (fun h => h.part == p.num)

/-- CHECKPOINT (23 R438, R439): the groups of the partition are stopped; once all have, the checkpoint is taken. -/
def execCheckpoint (part : Nat) (s : State) : Host.Outcome State Fault Refusal :=
  .next (match s.part? part with
    | none => s
    | some p =>
      if !s.mayCheckpoint p then s.modPart part (fun p => { p with ckptBusy := false })
      else
        let s := (s.signalPart part).modPart part (fun p => { p with ckptBusy := true })
        if (s.checkpointWgs part).all s.canSave then s.closeCheckpoint p else s)

/-- CHECKPOINT_REGION_COPY (23 R438). -/
def execCheckpointRegionCopy (part va : Nat) (s : State) : Host.Outcome State Fault Refusal :=
  .next (s.copyWhere (fun n r => n == part && r.1 == va))

end Sys2Proof.Machine
end

