-- ==== Sys2Proof/Machine/Manage.lean ====
section
/-!
DEFINITION. The management mailbox (21 R403) and the commands that configure, observe and stop (25 R477 to R483, R488; 23 R429
to R442; 24 R446).
-/
namespace Sys2Proof.Machine

/-! ### The mailbox (21 R403; 25 R477, R480) -/

/-- 25 R477: the command of a code. -/
def commandOf (code : Nat) (x : MgmtArgs) : Option Instr :=
  match code with
  | 0x01 => some (.summary x)
  | 0x02 => some (.pcreate x)
  | 0x03 => some (.pdestroy x)
  | 0x04 => some (.precfg x)
  | 0x05 => some (.preset x)
  | 0x10 => some (.tlbi x)
  | 0x11 => some (.cohcfg x)
  | 0x12 => some (.cntclr x)
  | 0x13 => some (.irqcfg x)
  | 0x14 => some (.errcfg x)
  | 0x15 => some (.errread x)
  | 0x16 => some (.accfg x)
  | 0x20 => some (.obscfg x)
  | 0x21 => some (.stop x)
  | 0x22 => some (.resume x)
  | 0x23 => some (.step x)
  | 0x24 => some (.histrd x)
  | 0x25 => some (.snap x)
  | 0x26 => some (.ckfree x)
  | 0x27 => some (.replay x)
  | 0x28 => some (.dumpcfg x)
  | 0x30 => some (.fwload x)
  | 0x31 => some (.fwswitch x)
  | 0x32 => some (.retire x)
  | 0x33 => some (.returnUnit x)
  | 0x34 => some (.drcal x)
  | 0x35 => some (.ltrain x)
  | 0x36 => some (.reset x)
  | 0x37 => some (.memchk x)
  | _ => none

/-- The operands in the ARG registers. -/
def Mailbox.operands (m : Mailbox) : MgmtArgs :=
  ⟨m.args.getD 0 0, m.args.getD 1 0, m.args.getD 2 0, m.args.getD 3 0, m.args.getD 4 0, m.args.getD 5 0⟩

/-- 21 R403: the command held in CMD and ARG; its reserved bits are zero (log entry 38). -/
def Mailbox.command (m : Mailbox) : Option Instr :=
  if bits m.cmd.toNat 47 16 = 0 then commandOf (bits m.cmd.toNat 15 0) m.operands else none

/-- The mailbox takes a status. -/
def State.finishCmd (s : State) (status code : Nat) (res : List Nat) : State := { s with mailbox := s.mailbox.finish status code res }

/-- A command is done. -/
def State.doneCmd (s : State) (res : List Nat) : State := s.finishCmd 2 0 res

/-- 25 R477: a command fails: MSTAT reads error with the code, and the record is written. -/
def State.failCmd (s : State) (code : Nat) : State :=
  (s.record { s.plainRecord 0xFFFF s.master code 0 with engine := 12 * 2 ^ 24 }).finishCmd 3 code []

/-- 25 R471: a service operation has completed: its record, and done (log entry 51). -/
def State.doneService (s : State) (code : Nat) : State :=
  (s.record { s.plainRecord 0xFFFF s.master 0x0006 0 with engine := 12 * 2 ^ 24, paddr := code }).doneCmd []

/-- 21 R403: a write to DOORBELL. -/
def State.ringDoorbell (s : State) : State :=
  if s.mailbox.busy then s
  else
    match s.mailbox.command with
    | none => s.failCmd 0xB401
    | some i => ({ s with agenda := i :: s.agenda } : State).finishCmd 1 0 []

/-- DOORBELL (21 R403): any value starts the command held in CMD and ARG; ignored while one is in progress. -/
def execDoorbell (_value : DWord) (s : State) : Host.Outcome State Fault Refusal := .next s.ringDoorbell

/-- MSTAT_READ (21 R403): the value is returned when the command has left the busy state, or after 10 µs. -/
def execMstatRead (s : State) : Host.Outcome State Fault Refusal :=
  .next { s with bus := bytesOfNat 8 s.mailbox.mstat.toNat }

/-- 21 R403: a write to a register of the mailbox. -/
def Mailbox.write (m : Mailbox) (off : Nat) (v : DWord) : Mailbox :=
  if m.busy then m
  else if off = 0 then { m with cmd := v }
  else if 8 ≤ off && off < 0x38 then { m with args := m.args.modify ((off - 8) / 8) (fun _ => v) }
  else m

/-- REGISTER_WRITE (21 R403; 04 R87): CMD and ARG of the mailbox; other registers of the pages that the manual describes
ignore it (log entry 24), and what a window does with it is nothing of the package's (log entry 53). -/
def execRegisterWrite (pa : Nat) (value : DWord) (s : State) : Host.Outcome State Fault Refusal :=
  if Config.mailboxPage ≤ pa && pa < Config.mailboxPage + 4096 then
    .next (if pa - Config.mailboxPage = 0x38 then s.ringDoorbell
      else { s with mailbox := s.mailbox.write ((pa - Config.mailboxPage) / 8 * 8) value })
  else if (s.controlAt pa).isSome || isDevice pa then .next s
  else .fault (.notPopulated pa)

/-! ### Commands in general (25 R479) -/

/-- The operands as numbers. -/
def operandsOf (x : MgmtArgs) : List Nat := [x.a0.toNat, x.a1.toNat, x.a2.toNat, x.a3.toNat, x.a4.toNat, x.a5.toNat]

/-- 25 R479: the ARG registers from n up are blank and zero. -/
def blankFrom (n : Nat) (x : MgmtArgs) : Bool := ((operandsOf x).drop n).all (· == 0)

/-- 25 R479: a command of n operands; where a blank one is not zero, or a check fails, it fails with 0xB402. -/
def State.command (s : State) (x : MgmtArgs) (n : Nat) (ok : Bool) (effect : State) : Host.Outcome State Fault Refusal :=
  .next (if blankFrom n x && ok then effect else s.failCmd 0xB402)

/-- 25 R479: a command whose first operand names a partition. -/
def State.partCommand (s : State) (x : MgmtArgs) (n : Nat) (f : Partition → Option State) : Host.Outcome State Fault Refusal :=
  .next (match if blankFrom n x then (s.part? x.a0.toNat).bind f else none with
    | some s' => s'
    | none => s.failCmd 0xB402)

/-- 01 R490, 25 R479: a buffer, a descriptor or a ring of n bytes lies in memory of the package. -/
def bufferOk (pa n : Nat) : Bool := if n = 0 then isTier1 pa || isTier2 pa else memoryRange pa n

/-- 23 R430: a virtual range is mapped writable in the partition's own memory; each page of it is looked up once. -/
def State.vaWritable (s : State) (p : Partition) (va n : Nat) : Bool :=
  va + n ≤ 2 ^ 57 &&
    (List.range ((va % 4096 + n + 4095) / 4096)).all (fun i => (s.vaKeys p (va / 4096 * 4096 + 4096 * i) 1 true).isSome &&
      (s.vaKeys p (va / 4096 * 4096 + 4096 * i) 1 false).isSome)

/-! ### SUMMARY (25 R481 to R483) -/

/-- SUMMARY (25 R481 to R483): what the buffer holds of it. -/
def execSummary (x : MgmtArgs) (s : State) : Host.Outcome State Fault Refusal :=
  let bs := s.summaryBytes.take x.a1.toNat
  s.command x 2 (bufferOk x.a0.toNat x.a1.toNat) ((s.outerBytes x.a0.toNat bs).doneCmd [bs.length])

/-! ### Partitions (25 R478, R488; 05 R108) -/

/-- 25 R478: the extents of a descriptor. -/
def extentsOf (bs : List Byte) : List Extent :=
  (List.range (fieldOf bs 0x34 1)).map (fun i =>
    let b := fieldOf bs (0x40 + 16 * i) 8
    { device := b % 4 == 1, base := b / 4096 * 4096, size := fieldOf bs (0x48 + 16 * i) 8 })

/-- Two ranges of addresses meet. -/
def Extent.meets (a b : Extent) : Bool := a.base < b.base + b.size && b.base < a.base + a.size

/-- 25 R478: an extent is in range, and no memory extent overlaps one of another partition. -/
def extentOk (others : List Extent) (e : Extent) : Bool :=
  e.size != 0 && e.size % 4096 == 0 &&
    (if e.device then isDevice e.base && isDevice (e.base + e.size - 1)
     else memoryRange e.base e.size && others.all (fun o => o.device || !e.meets o))

/-- 25 R478: a partition as a descriptor gives it. -/
def partitionOf (n : Nat) (bs : List Byte) : Partition :=
  let ndie := fieldOf bs 7 1
  { Partition.blank n with
    prio := fieldOf bs 6 1, ptroot := fieldOf bs 8 8, rbroot := fieldOf bs 0x10 8, ndie := ndie,
    pdie := (List.range ndie).map (fun d => fieldOf bs (0x18 + d) 1), clmap := (List.range 24).map (fun i => fieldOf bs (0x1C + i) 1),
    extents := extentsOf bs }

/-- 25 R478, 01 R17: the logical clusters are numbered without a gap, on distinct enabled clusters of their die. -/
def State.clmapOk (s : State) (p : Partition) : Bool :=
  (List.range 4).all (fun d =>
    let row := (p.clmap.drop (6 * d)).take 6
    let used := row.takeWhile (· != 0xFF)
    (row.drop used.length).all (· == 0xFF) && (d < p.ndie || used.isEmpty) &&
      used.all (fun c => c < 7 && (s.share (p.pdie.getD d 0 * 7 + c)).state == .enabled &&
        s.assigned (p.pdie.getD d 0 * 7 + c) p.num < 8) && (uniq used).length == used.length)

/-- 25 R478: every field of a descriptor is in range. -/
def State.descriptorValid (s : State) (p : Partition) (bs : List Byte) : Bool :=
  let others := (s.parts.filter (fun q => q.num != p.num)).flatMap (·.extents)
  fieldOf bs 0 4 == 0x43534450 && fieldOf bs 4 2 == 1 && p.prio ≤ 7 && 1 ≤ p.ndie && p.ndie ≤ 4 && zeroAt bs 0x35 11 &&
    zeroAt bs 0xC0 64 && p.pdie.all (· < 4) && (uniq p.pdie).length == p.pdie.length &&
    (List.range 4).all (fun d => d < p.ndie || fieldOf bs (0x18 + d) 1 == 0xFF) && 1 ≤ p.extents.length && p.extents.length ≤ 8 &&
    (List.range p.extents.length).all (fun i => fieldOf bs (0x40 + 16 * i) 8 % 4096 < 2) && p.extents.all (extentOk others) &&
    p.ptroot % 4096 == 0 && p.holds false p.ptroot 4096 && p.rbroot % 128 == 0 && p.rbroot < 2 ^ 57 && s.clmapOk p

/-- The bytes of a descriptor of 256 bytes, 64-byte aligned. -/
def State.readDescriptor (s : State) (pa : Nat) : Option (List Byte) :=
  if pa % 64 = 0 && memoryRange pa 256 then some (s.bytes pa 256) else none

/-- The number that a new partition takes (log entry 39). -/
def State.freshPart (s : State) : Nat := ((List.range (s.parts.length + 1)).find? (fun n => (s.part? n).isNone)).getD 0

/-- PCREATE (25 R478; 04 R80). -/
def execPcreate (x : MgmtArgs) (s : State) : Host.Outcome State Fault Refusal :=
  let n := s.freshPart
  .next (match if blankFrom 1 x then s.readDescriptor x.a0.toNat else none with
    | none => s.failCmd 0xB402
    | some bs =>
      let p := { partitionOf n bs with domain := s.pod :: Config.braidDomain n }
      if s.descriptorValid p bs then
        ({ s with parts := s.parts ++ [p] } : State).doneCmd [n, Config.controlPage n, 1]
      else s.failCmd 0xB402)

/-- 25 R488: a workgroup of the partition is resident on a cluster that its map no longer names. -/
def State.onRemoved (s : State) (p : Partition) : Bool :=
  s.wgs.any (fun w => w.part == p.num && w.onCore && (p.logicalOf (coreCluster w.phys)).isNone)

/-- 25 R488: a reconfiguration is complete once no workgroup is resident on a removed cluster. -/
def State.settleConfig (s : State) (part : Nat) : State :=
  match s.part? part with
  | none => s
  | some p =>
    if s.onRemoved p then s
    else
      (s.modPart part (fun p => { p with state := if p.state == .reconfiguring then .running else p.state })).doneCmd []

/-- PRECFG (25 R478, R488): under way, it only waits for the removed clusters. -/
def execPrecfg (x : MgmtArgs) (s : State) : Host.Outcome State Fault Refusal :=
  s.partCommand x 2 (fun p =>
    if p.state == .reconfiguring then some (s.settleConfig p.num)
    else
      (s.readDescriptor x.a1.toNat).bind (fun bs =>
        let q := partitionOf p.num bs
        if s.descriptorValid q bs && q.ptroot == p.ptroot && q.rbroot == p.rbroot && q.ndie == p.ndie && q.pdie == p.pdie then
          some ((s.modPart p.num (fun p =>
            { p with prio := q.prio, clmap := q.clmap, extents := q.extents,
                     state := if p.state == .running then .reconfiguring else p.state })).mapUnmapped.settleConfig p.num)
        else none))

/-! ### Translations, counters, rings (11 R262, R267; 20 R377; 21 R402; 25 R468, R469) -/

/-- 11 R267: packets of a partition, some of which may have been translated with an entry that is dropped, have not been performed. -/
def State.packetsOut (s : State) (part : Nat) : Bool := s.sent.any (fun q => q.pkt.part == part)

/-- 11 R267: every store of a partition's cores is visible at PKG. -/
def State.releasePart (s : State) (part : Nat) : State :=
  (s.cores.map (·.1)).foldl (fun s k => s.releaseWhere k (fun w => w.part == part)) s

/-- TLBI (11 R267): done once every access translated with an entry that it drops has been performed. -/
def execTlbi (x : MgmtArgs) (s : State) : Host.Outcome State Fault Refusal :=
  s.partCommand x 3 (fun p =>
    let lo := x.a1.toNat / 4096 * 4096
    let n := x.a2.toNat * 4096
    if lo + n > 2 ^ 57 then none
    else
      let s := (s.releasePart p.num).tlbiAll p.num (if n = 0 then none else some (lo, n))
      some (if s.packetsOut p.num then s else s.doneCmd []))

/-- COHCFG (20 R377) (log entry 38). -/
def execCohcfg (x : MgmtArgs) (s : State) : Host.Outcome State Fault Refusal :=
  let v := x.a1.toNat
  s.command x 2 (x.a0.toNat < 4 && bits v 63 40 == 0 && bits v 7 1 == 0)
    ((s.modDie x.a0.toNat (fun d => { d with cohctl := x.a1 })).doneCmd [])

/-- CNTCLR (25 R469; 20 R382). -/
def execCntclr (x : MgmtArgs) (s : State) : Host.Outcome State Fault Refusal :=
  if x.a0.toNat = 0xFFFF then
    s.command x 2 (x.a1.toNat < 16) (({ s with classes := List.replicate 16 0 } : State).doneCmd [])
  else
    s.partCommand x 2 (fun p =>
      if x.a1.toNat ≥ 16 then none
      else
        let s := s.modPart p.num (fun p => { p with classes := List.replicate 16 0 })
        some (((List.range 4).foldl (fun s d =>
          if bitOf x.a1.toNat d then s.modDie d (fun d => { d with coh := assocSet CohCounters.zero p.num CohCounters.zero d.coh })
          else s) s).doneCmd []))

/-- IRQCFG (21 R402): the ring starts empty (log entry 38). -/
def execIrqcfg (x : MgmtArgs) (s : State) : Host.Outcome State Fault Refusal :=
  let pa := x.a1.toNat
  let j := x.a2.toNat
  s.partCommand x 3 (fun p =>
    if 4 ≤ j && j ≤ 12 && pa % 64 == 0 && memoryRange pa (64 + 32 * 2 ^ j) then
      some (((s.outerBytes pa (bytesOfNat 64 0)).modPart p.num (fun p =>
        { p with irqRing := pa, irqJ := j, kind4 := none, unsignalled := 0 })).doneCmd [])
    else none)

/-- A ring of a partition's memory: aligned, mapped writable, of a least and a multiple size (log entry 38). -/
def State.ringOk (s : State) (p : Partition) (va n step least : Nat) : Bool :=
  va % 64 == 0 && n % step == 0 && least ≤ n && s.vaWritable p va n

/-- ERRCFG (25 R468). -/
def execErrcfg (x : MgmtArgs) (s : State) : Host.Outcome State Fault Refusal :=
  s.partCommand x 3 (fun p =>
    if s.ringOk p x.a1.toNat x.a2.toNat 64 128 then
      some (((s.ringClear p x.a1.toNat).modPart p.num (fun p => { p with errRing := ⟨x.a1.toNat, x.a2.toNat⟩ })).doneCmd [])
    else none)

/-- ERRREAD (25 R468): records of Cirque's copy from an index on (log entry 36). -/
def execErrread (x : MgmtArgs) (s : State) : Host.Outcome State Fault Refusal :=
  let rs := (s.records.drop (x.a1.toNat - s.recordBase)).take x.a2.toNat
  s.command x 3 (bufferOk x.a0.toNat (64 * rs.length))
    ((s.outerBytes x.a0.toNat (rs.flatMap ErrorRecord.toBytes)).doneCmd [rs.length])

/-- ACCFG (11 R262): the counts held for the partition are discarded. -/
def execAccfg (x : MgmtArgs) (s : State) : Host.Outcome State Fault Refusal :=
  s.partCommand x 4 (fun p =>
    if s.ringOk p x.a1.toNat x.a2.toNat 16 80 && x.a3.toNat < 65536 then
      let s := { s with dies := s.dies.map (fun (d : Die) =>
        { d with access := d.access.filter (fun kv => kv.1 / 2 ^ 41 != p.num),
                 accessKind := d.accessKind.filter (fun kv => kv.1 / 2 ^ 41 != p.num) }) }
      some (((s.ringClear p x.a1.toNat).modPart p.num (fun p =>
        { p with accRing := ⟨x.a1.toNat, x.a2.toNat⟩, threshold := if x.a3.toNat = 0 then 256 else x.a3.toNat })).doneCmd [])
    else none)

/-- DUMPCFG (24 R446). -/
def execDumpcfg (x : MgmtArgs) (s : State) : Host.Outcome State Fault Refusal :=
  let pa := x.a1.toNat
  let n := x.a2.toNat
  s.partCommand x 3 (fun p =>
    if pa % 64 == 0 && 4096 ≤ n && p.holds false pa n && memoryRange pa n then
      let head := bytesOfNat 4 0x41504D44 ++ bytesOfNat 4 0 ++ bytesOfNat 8 n ++ bytesOfNat 8 0x40 ++ bytesOfNat 40 0
      some (((s.outerBytes pa head).modPart p.num (fun p => { p with dumpArea := ⟨pa, n⟩ })).doneCmd [])
    else none)

/-! ### Observation (23 R429 to R442) -/

/-- 23 R430: the control set that a descriptor gives. -/
def obsOf (bs : List Byte) : ObsControl :=
  { bken := fieldOf bs 0 1 == 1, stopdom := fieldOf bs 1 1, smpl := fieldOf bs 2 1, trace := BitVec.ofNat 2 (fieldOf bs 3 1),
    ckt := fieldOf bs 4 2, tbuf := ⟨fieldOf bs 8 8, fieldOf bs 0x10 8⟩, sbuf := ⟨fieldOf bs 0x18 8, fieldOf bs 0x20 8⟩,
    ckarea := ⟨fieldOf bs 0x28 8, fieldOf bs 0x30 8⟩,
    bps := (List.range 8).map (fun i =>
      (BitVec.ofNat 64 (fieldOf bs (0x40 + 16 * i) 8), BitVec.ofNat 32 (fieldOf bs (0x48 + 16 * i) 4))) }

/-- 23 R430: a trace or sample buffer. -/
def State.bufferRingOk (s : State) (p : Partition) (r : Ring) (step least : Nat) : Bool :=
  r.size == 0 || s.ringOk p r.addr r.size step least

/-- 23 R429, R430: every field of an observation descriptor is in range. -/
def State.obsOk (s : State) (p : Partition) (bs : List Byte) : Bool :=
  let o := obsOf bs
  fieldOf bs 0 1 < 2 && o.stopdom < 3 && (o.smpl == 0 || (10 ≤ o.smpl && o.smpl ≤ 24)) && fieldOf bs 3 1 < 4 && o.ckt ≤ 1000 &&
    zeroAt bs 6 2 && zeroAt bs 0x38 8 && zeroAt bs 0xC0 64 && s.bufferRingOk p o.tbuf 64 128 && s.bufferRingOk p o.sbuf 32 96 &&
    o.ckarea.addr % 4096 == 0 && o.ckarea.size % 4096 == 0 &&
    (if o.ckarea.size = 0 then o.ckt == 0 else isTier2 o.ckarea.addr && memoryRange o.ckarea.addr o.ckarea.size) &&
    (List.range 8).all (fun i => bits (fieldOf bs (0x40 + 16 * i) 8) 62 48 == 0 && zeroAt bs (0x4C + 16 * i) 4)

/-- OBSCFG (23 R430): the whole control set at once; another checkpoint area holds no checkpoints (log entry 50). -/
def execObscfg (x : MgmtArgs) (s : State) : Host.Outcome State Fault Refusal :=
  s.partCommand x 2 (fun p =>
    (s.readDescriptor x.a1.toNat).bind (fun bs =>
      if s.obsOk p bs then
        let o := obsOf bs
        some ((s.modPart p.num (fun p =>
          if o.ckarea == p.obs.ckarea then { p with obs := o } else { p with obs := o, ckpts := [], ckptNext := 0 })).doneCmd [])
      else none))

/-- 25 R479: the groups of a partition, or of one launch of it. -/
def State.launchSet (s : State) (part ticket : Nat) : List Nat := s.stopSet part (if ticket = 0 then 2 else 1) ticket 0

/-- A ticket names a launch of the partition, or is 0. -/
def Partition.ticketOk (p : Partition) (t : Nat) : Bool := t == 0 || (p.launch? t).isSome

/-- 23 R438: a checkpoint of the partition is not yet complete. -/
def Partition.checkpointing (p : Partition) : Bool := p.ckptBusy || p.ckpts.any (fun k => !k.pending.isEmpty)

/-- STOP (23 R431); a checkpoint in progress completes first (R433). -/
def execStop (x : MgmtArgs) (s : State) : Host.Outcome State Fault Refusal :=
  s.partCommand x 2 (fun p =>
    if p.ticketOk x.a1.toNat then
      let r := { s.plainRecord p.num (p.pdie.headD 0) 0x0003 0 with engine := 12 * 2 ^ 24 }
      some (if p.checkpointing then s else (s.beginStop p.num (s.launchSet p.num x.a1.toNat) r).doneCmd [])
    else none)

/-- Restart the splits of some groups. -/
def State.restart (s : State) (gids : List Nat) (f : Workgroup → Split → Split) : State :=
  { s with groups := s.groups.map (fun (g : Group) =>
      match s.wg? g.wgKey with
      | some w => if gids.contains g.gid then { g with splits := g.splits.map (f w) } else g
      | none => g) }

/-- RESUME (23 R432). -/
def execResume (x : MgmtArgs) (s : State) : Host.Outcome State Fault Refusal :=
  s.partCommand x 2 (fun p =>
    if p.ticketOk x.a1.toNat then some ((s.restart (s.launchSet p.num x.a1.toNat) s.resumeSplit).doneCmd []) else none)

/-- STEP (23 R432). -/
def execStep (x : MgmtArgs) (s : State) : Host.Outcome State Fault Refusal :=
  s.partCommand x 4 (fun p =>
    match s.wgs.find? (fun w => w.part == p.num && w.ticket == x.a1.toNat && w.wg == x.a2.toNat) with
    | none => none
    | some w =>
      match (s.groupsOf w.key).find? (fun g => g.groupId == x.a3.toNat) with
      | none => none
      | some g => some ((s.restart [g.gid] s.stepSplit).doneCmd []))

/-- HISTRD (23 R436). -/
def execHistrd (x : MgmtArgs) (s : State) : Host.Outcome State Fault Refusal :=
  let phys := (x.a0.toNat * 7 + x.a1.toNat) * 8 + x.a2.toNat
  let h := (s.core phys).hist.getD x.a3.toNat Histogram.reset
  let s' := s.outerBytes x.a4.toNat ((h.h ++ h.z).flatMap (bytesOfNat 8))
  s.command x 6 (x.a0.toNat < 4 && x.a1.toNat < 7 && x.a2.toNat < 8 && x.a3.toNat < 4 && bufferOk x.a4.toNat 232 && x.a5.toNat < 2)
    ((if x.a5.toNat = 1 then
        s'.modCore phys (fun c => { c with hist := c.hist.modify x.a3.toNat (fun _ => Histogram.reset) })
      else s').doneCmd [])

/-- SNAP (23 R437): the control is set and a trigger broadcast; done once the image has been written. -/
def execSnap (x : MgmtArgs) (s : State) : Host.Outcome State Fault Refusal :=
  let c := x.a2.toNat
  s.command x 3 (bufferOk x.a0.toNat x.a1.toNat && bits c 15 1 == 0 && c < 2 ^ 32)
    (if s.snap.active then s.snapTrigger.doneCmd [0]
     else
      let snap := { s.snap with buffer := x.a0.toNat, size := x.a1.toNat, onStop := bitOf c 0, classes := BitVec.ofNat 16 (bits c 31 16) }
      ({ s with snap := snap } : State).snapTrigger)

/-- 23 R439: checkpoint m goes into m + 1: what the later one copied prevails. -/
def Checkpoint.mergeInto (m n : Checkpoint) : Checkpoint :=
  let later := fun (pa : Nat) => n.pages.any (fun r => r.1 ≤ pa && pa < r.1 + r.2)
  { n with pages := m.pages ++ n.pages, bytes := assocSets resetByte (m.bytes.filter (fun kv => !later kv.1)) n.bytes,
           tags := (m.tags.filter (fun g => !later (16 * g))).foldl (fun l g => setAdd g l) n.tags }

/-- CKFREE (23 R439): pending regions of the two are copied first. -/
def execCkfree (x : MgmtArgs) (s : State) : Host.Outcome State Fault Refusal :=
  s.partCommand x 2 (fun p =>
    let s := s.copyWhere (fun n _ => n == p.num)
    let ks := (s.partOf p.num).ckpts
    match ks.find? (fun k => k.num == x.a1.toNat), ks.find? (fun k => k.num == x.a1.toNat + 1) with
    | some m, some n =>
      some ((s.modPart p.num (fun p =>
        { p with ckpts := (ks.filter (fun k => k.num != m.num)).map (fun k => if k.num == n.num then m.mergeInto n else k) })).doneCmd [])
    | _, _ => none)

/-- The workgroups and groups of a partition leave the machine, with what the cores hold for them. -/
def State.dropPart (s : State) (part : Nat) : State :=
  let ws := s.wgs.filter (fun w => w.part == part)
  let ks := ws.map (·.key)
  let gs := (s.groups.filter (fun g => ks.contains g.wgKey)).map (·.gid)
  let s := { s with
    cores := s.cores.map (fun (kc : Nat × Core) => (kc.1, { kc.2 with
      l1 := kc.2.l1.filter (fun w => w.part != part), icache := kc.2.icache.filter (fun l => l.part != part),
      ops := kc.2.ops.filter (fun o => !ks.contains o.wgKey), pipe := kc.2.pipe.filter (fun x => !gs.contains x.1) })),
    samples := s.samples.filter (fun x => x.part != part), halts := s.halts.filter (fun h => h.part != part),
    dies := s.dies.map (fun (d : Die) => { d with clusters := d.clusters.map (fun (c : ClusterShare) =>
      if c.resident == some part then { c with resident := none, preempt := false } else c) }) }
  s.dropWgs ks

/-- 23 R441: memory as the checkpoints up to one hold it. -/
def State.rebuild (s : State) (ks : List Checkpoint) : State :=
  ks.foldl (fun s k =>
    let s := k.pages.foldl (fun s r => s.wipe r.1 r.2) s
    { s with mem := assocSets resetByte k.bytes s.mem, tags := k.tags.foldl (fun l g => setAdd g l) s.tags }) s

/-- REPLAY (23 R441): memory and contexts as checkpoint n holds them; its groups resume from shadow storage.  Regions that wait to be
copied are copied first. -/
def execReplay (x : MgmtArgs) (s : State) : Host.Outcome State Fault Refusal :=
  s.partCommand x 3 (fun p =>
    let s := s.copyWhere (fun n _ => n == p.num)
    let ks := (s.partOf p.num).ckpts
    if x.a2.toNat ≥ 2 then none
    else
      match ks.find? (fun k => k.num == x.a1.toNat) with
      | none => none
      | some k =>
        let s := (s.dropPart p.num).tlbiAll p.num none
        let s := s.rebuild (ks.filter (fun c => c.num ≤ k.num))
        let s := { s with wgs := s.wgs ++ k.workgroups, groups := s.groups ++ k.groups }
        let r : Replay := { ckpt := k.num, freeRun := x.a2.toNat == 1, log := k.log }
        let s := s.modPart p.num (fun p =>
          { p with launches := k.launches, ticketNext := k.ticketNext, carves := k.carves, ckptBusy := false,
                   replay := if k.log.isEmpty then none else some r, state := .running })
        some ((if k.log.isEmpty then s.replayDone p.num r else s).doneCmd []))

end Sys2Proof.Machine
end

