-- ==== Sys2Proof/Machine/Scalar.lean ====
section
/-!
DEFINITION. The scalar integer block (09 R191, R196 to R199).
-/
namespace Sys2Proof.Machine

/-- 09 R199: the type of MOD[4:3]: signed, and 64 bits wide. -/
def scalarSigned (x : Args) : Bool := x.mod.toNat / 8 % 2 == 0

/-- 09 R192, R199: the B operand, a register, a pair or the immediate. -/
def scalarB (c : Ctx) (x : Args) (wide : Bool) : Nat :=
  match immOf x with
  | some n => if wide then extendImm (scalarSigned x) 64 n else n
  | none => c.sw wide x.b.toNat

/-- The result of a scalar instruction: `countB` for a B that stays one register. -/
def scalarValue (f : IntFn) (countB : Bool) (c : Ctx) (x : Args) : Nat :=
  let wide := sWide x.mod.toNat
  let b := if countB then (match immOf x with
    | some n => n
    | none => (c.s x.b.toNat).toNat) else scalarB c x wide
  let cc := match f with
    | .sel => (c.s x.c.toNat).toNat
    | .bfi => c.sw wide x.c.toNat
    | _ => 0
  intLane f false (scalarSigned x) (if wide then 64 else 32) (c.sw wide x.a.toNat) b cc

/-- 09 R191, R199: a scalar instruction writes its destination once. -/
def scalarExec (o : Op) (f : IntFn) (countB narrow : Bool) (x : Args) (s : State) : Host.Outcome State Fault Refusal :=
  issueDone o x s (fun c _ =>
    s.writeS c (sPut (sWide x.mod.toNat && !narrow) x.d.toNat (scalarValue f countB c x)))

/-- SADD (09 R197, R199). -/
def execSadd (x : Args) (s : State) : Host.Outcome State Fault Refusal := scalarExec .sadd .add false false x s
/-- SSUB (09 R197, R199). -/
def execSsub (x : Args) (s : State) : Host.Outcome State Fault Refusal := scalarExec .ssub .sub false false x s
/-- SMUL (09 R197, R199). -/
def execSmul (x : Args) (s : State) : Host.Outcome State Fault Refusal := scalarExec .smul .mul false false x s
/-- SMULH (09 R197, R199). -/
def execSmulh (x : Args) (s : State) : Host.Outcome State Fault Refusal := scalarExec .smulh .mulh false false x s
/-- SAND (09 R197, R199). -/
def execSand (x : Args) (s : State) : Host.Outcome State Fault Refusal := scalarExec .sand .and false false x s
/-- SOR (09 R197, R199). -/
def execSor (x : Args) (s : State) : Host.Outcome State Fault Refusal := scalarExec .sor .or false false x s
/-- SXOR (09 R197, R199). -/
def execSxor (x : Args) (s : State) : Host.Outcome State Fault Refusal := scalarExec .sxor .xor false false x s
/-- SSHL (09 R197, R199): B is a count, one register. -/
def execSshl (x : Args) (s : State) : Host.Outcome State Fault Refusal := scalarExec .sshl .shl true false x s
/-- SSHR (09 R197, R199). -/
def execSshr (x : Args) (s : State) : Host.Outcome State Fault Refusal := scalarExec .sshr .shr true false x s
/-- SSRA (09 R197, R199). -/
def execSsra (x : Args) (s : State) : Host.Outcome State Fault Refusal := scalarExec .ssra .sra true false x s
/-- SMIN (09 R197, R199). -/
def execSmin (x : Args) (s : State) : Host.Outcome State Fault Refusal := scalarExec .smin .min false false x s
/-- SMAX (09 R197, R199). -/
def execSmax (x : Args) (s : State) : Host.Outcome State Fault Refusal := scalarExec .smax .max false false x s
/-- SCMP (09 R196, R199): one register, all ones or zero. -/
def execScmp (x : Args) (s : State) : Host.Outcome State Fault Refusal :=
  scalarExec .scmp (.cmp (x.mod.toNat % 8)) false true x s
/-- SSEL (09 R197, R199): selects on bit 0 of `s`C. -/
def execSsel (x : Args) (s : State) : Host.Outcome State Fault Refusal := scalarExec .ssel .sel false false x s
/-- SMOV (09 R197, R199). -/
def execSmov (x : Args) (s : State) : Host.Outcome State Fault Refusal := scalarExec .smov .mov false false x s
/-- SMOVI (09 R199): the immediate, all 64 bits of it for the 64-bit types. -/
def execSmovi (x : Args) (s : State) : Host.Outcome State Fault Refusal :=
  issueDone .smovi x s (fun c _ =>
    s.writeS c (sPut (sWide x.mod.toNat) x.d.toNat ((x.long.getD 0).toNat)))
/-- SBFE (09 R197, R199). -/
def execSbfe (x : Args) (s : State) : Host.Outcome State Fault Refusal := scalarExec .sbfe .bfe true false x s
/-- SBFI (09 R197, R199). -/
def execSbfi (x : Args) (s : State) : Host.Outcome State Fault Refusal := scalarExec .sbfi .bfi true false x s
/-- SPOPC (09 R197, R199). -/
def execSpopc (x : Args) (s : State) : Host.Outcome State Fault Refusal := scalarExec .spopc .popc false true x s
/-- SCLZ (09 R197, R199). -/
def execSclz (x : Args) (s : State) : Host.Outcome State Fault Refusal := scalarExec .sclz .clz false true x s

end Sys2Proof.Machine
end

