-- ==== Sys2Proof/Machine/Service.lean ====
section
/-!
DEFINITION. Service and resets: RETIRE, RETURN, MEMCHK, DRCAL, LTRAIN, FWLOAD, FWSWITCH (25 R484 to R487; 05 R109, R110), resets
(25 R474 to R476), hardware errors (25 R471 to R473; 20 R382).
-/
namespace Sys2Proof.Machine

/-! ### Reset causes (25 R474, R475) -/

/-- 25 R474: RECOV of record 0xB407 by cause. -/
def recovOfCause (cause : Nat) : Nat :=
  match cause with
  | 5 => 0
  | 6 => 3
  | 7 => 9
  | 8 => 8
  | 9 => 7
  | 10 => 9
  | _ => 4

/-- 25 R466, R475: DOM of a reset's action by its SCOPE (log entry 42). -/
def domOfScope (scope : Nat) : Nat :=
  match scope with
  | 0 => 6
  | 3 => 4
  | 5 => 6
  | _ => 5

/-- 25 R475: a reset reaches a die: RSTCAUSE, and record 0xB407. -/
def State.noteReset (s : State) (die part cause scope code : Nat) : State :=
  let n := (bits (s.die die).rstcause.toNat 63 32 + 1) % 2 ^ 32
  let v := n * 2 ^ 32 + code % 2 ^ 16 * 2 ^ 16 + scope * 256 + cause
  let s := s.modDie die (fun d => { d with rstcause := BitVec.ofNat 64 v })
  s.record { s.plainRecord part die 0xB407 (actionOf (domOfScope scope) 9) with
    recov := recovOfCause cause, engine := 12 * 2 ^ 24, paddr := v }

/-- 25 R476: a reset that meets a service operation makes it fail. -/
def State.failService (s : State) : State := if s.mailbox.busy then s.failCmd 0xB403 else s

/-- 25 R474: a new master. -/
def State.elect (s : State) (die master : Nat) : State := if s.master = die then { s with master := master } else s

/-! ### Partition reset (25 R474, R477, R488) -/

/-- 25 R474: a partition loses its contexts, its queue entries and its launches, which fail; 22 R414: with the write-back
(log entry 44). -/
def State.resetPart (s : State) (p : Partition) : State :=
  let s := (s.flushPart p.num).dropPart p.num
  let s := (p.launches.filter (fun l => l.state < 4)).foldl (fun s l => s.failLaunch p.num l.ticket) s
  { (s.modPart p.num (fun p => { p with launches := [], carves := [], state := .running, replay := none, ckptBusy := false })) with
    counts := s.counts.filter (fun b => b.part != p.num), sent := s.sent.filter (fun q => q.pkt.part != p.num),
    answers := s.answers.filter (fun a => a.1.pkt.part != p.num) }

/-- The reset of a partition is noted on each of its dies. -/
def State.notePartReset (s : State) (p : Partition) : State := p.pdie.foldl (fun s d => s.noteReset d p.num 6 3 0) s

/-- PRESET (25 R474). -/
def execPreset (x : MgmtArgs) (s : State) : Host.Outcome State Fault Refusal :=
  s.partCommand x 1 (fun p => some (((s.resetPart p).notePartReset p).doneCmd []))

/-- PDESTROY (25 R488): as PRESET, then the number and the resources are free. -/
def execPdestroy (x : MgmtArgs) (s : State) : Host.Outcome State Fault Refusal :=
  s.partCommand x 1 (fun p =>
    let s := (s.resetPart p).notePartReset p
    let s := s.wipe (carveKey p.num 0 0) (4 * 2 ^ 26)
    some ((({ s with
      parts := s.parts.filter (fun q => q.num != p.num),
      dies := s.dies.map (fun (d : Die) =>
        { d with access := d.access.filter (fun kv => kv.1 / 2 ^ 41 != p.num), accessKind := d.accessKind.filter (fun kv => kv.1 / 2 ^ 41 != p.num),
                 remote := d.remote.filter (fun r => r.part != p.num), coh := d.coh.filter (fun kv => kv.1 != p.num),
                 epochs := d.epochs.filter (fun kv => kv.1 != p.num),
                 clusters := d.clusters.map (fun (c : ClusterShare) =>
                   { c with lastPart := if c.lastPart = some p.num then none else c.lastPart,
                            incoming := if c.incoming = some p.num then none else c.incoming }) }) } : State).tlbiAll p.num none).mapUnmapped.doneCmd []))

/-! ### Retiring a cluster (05 R109, R110; 25 R485) -/

/-- 05 R109: saved contexts of a cluster wait to be restored where their logical clusters now are. -/
def State.contextsLeft (s : State) (k : Nat) : Bool :=
  s.wgs.any (fun w => w.status == .saved && w.savedAt == k &&
    ((s.partOf w.part).physCluster w.ldie w.lcluster).isSome)

/-- 25 R485: the retirement of a cluster begins. -/
def State.startRetiring (s : State) (k : Nat) : State :=
  if (s.share k).state == .enabled then s.modShare k (fun c => { c with state := .inService, retiring := true })
  else s.modShare k (fun c => { c with state := .retired, checked := false })

/-- Operands that name a physical cluster and a core mask. -/
def unitOk (x : MgmtArgs) : Bool := x.a0.toNat < 4 && x.a1.toNat < 7 && x.a2.toNat < 256

/-- RETIRE (25 R485; 05 R109): done once every context has been restored elsewhere; with a mask, cores become defective at the
next swap-in. -/
def execRetire (x : MgmtArgs) (s : State) : Host.Outcome State Fault Refusal :=
  let k := x.a0.toNat * 7 + x.a1.toNat
  let c := s.share k
  s.command x 3 (unitOk x && (x.a2.toNat != 0 || c.state != .retired || s.mailbox.busy))
    (if x.a2.toNat ≠ 0 then
      (s.modShare k (fun c => { c with newDefects := c.newDefects ||| BitVec.ofNat 8 x.a2.toNat })).doneService 0x32
     else
      let s := (if c.state == .enabled || c.state == .spare then s.startRetiring k else s).goOnRetiring k
      if (s.share k).state == .retired && !s.contextsLeft k then s.doneService 0x32 else s)

/-- RETURN (25 R485): after MEMCHK has passed, a retired cluster is enabled where the die has fewer than six, else the spare. -/
def execReturnUnit (x : MgmtArgs) (s : State) : Host.Outcome State Fault Refusal :=
  let k := x.a0.toNat * 7 + x.a1.toNat
  let c := s.share k
  let n := (((s.die x.a0.toNat).clusters).filter (fun c => c.state == .enabled)).length
  s.command x 3 (unitOk x && c.checked && (x.a2.toNat != 0 || c.state == .retired))
    (if x.a2.toNat ≠ 0 then
      (s.modShare k (fun c => { c with newDefects := c.newDefects &&& ~~~(BitVec.ofNat 8 x.a2.toNat), checked := false })).doneService 0x33
     else
      ((s.modShare k (fun c => { c with state := if n < 6 then .enabled else .spare, checked := false })).mapUnmapped).doneService 0x33)

/-- MEMCHK (25 R477): refused while the cluster is under another service operation (R480), or unmapped contexts are kept there; it waits until no context is; whether the test passes is
open (log entry 43). -/
def execMemchk (x : MgmtArgs) (s : State) : Host.Outcome State Fault Refusal :=
  let k := x.a0.toNat * 7 + x.a1.toNat
  let kept := s.wgs.filter (fun w => w.status == .saved && w.savedAt == k)
  s.command x 2 (x.a0.toNat < 4 && x.a1.toNat < 7)
    (if (s.share k).state == .inService then s.failCmd 0xB403
     else if kept.any (fun w => ((s.partOf w.part).physCluster w.ldie w.lcluster).isNone) then s.failCmd 0xB403
     else if !kept.isEmpty then s
     else (s.modShare k (fun c => { c with checked := Config.freeBool s.free })).doneService 0x37)

/-! ### Memory, links, firmware (25 R484, R486, R487) -/

/-- 25 R486: the granules of a DRAM channel of a die; which addresses a channel holds is open (log entry 43). -/
def channelGranules (die channel : Nat) : List Nat :=
  ((List.range (0x18_0000_0000 / 16)).map (fun i => die * (0x20_0000_0000 / 16) + i)).filter (fun g => Config.channelOf g = channel)

/-- 25 R472: poison granules: their tags go. -/
def State.poisonGranules (s : State) (gs : List Nat) : State :=
  { s with poison := gs.foldl (fun l g => setAdd g l) s.poison, tags := s.tags.filter (fun g => !gs.contains g) }

/-- 25 R486: a channel that fails calibration is mapped out under 0x6103, and its pages are poisoned. -/
def State.loseChannel (s : State) (die channel : Nat) : State :=
  let s := s.modDie die (fun d => { d with mappedOut := setAdd channel d.mappedOut })
  let s := s.record { s.plainRecord 0xFFFF die 0x6103 (actionOf 0 6) with engine := 10 * 2 ^ 24 + channel }
  s.poisonGranules (channelGranules die channel)

/-- DRCAL (25 R486): whether the calibration succeeds is open (log entry 43). -/
def execDrcal (x : MgmtArgs) (s : State) : Host.Outcome State Fault Refusal :=
  s.command x 2 (x.a0.toNat < 4 && x.a1.toNat < Config.channels)
    ((if Config.freeBool s.free then s else s.loseChannel x.a0.toNat x.a1.toNat).doneService 0x34)

/-- 21 R387: the paths that leave through a port. -/
def State.pathsOf (s : State) (port : Nat) : List (Nat × Nat) :=
  s.allPaths.filter (fun x => s.portOf x.1 x.2 == port)

/-- 21 R397: a path has no packet unacknowledged, for any context. -/
def State.pathQuiet (s : State) (dest path : Nat) : Bool :=
  s.counts.all (fun b => b.dest != dest || b.path != path || b.sent == b.acked)

/-- 25 R487: LTRAIN on a Braid port: its paths go down, their packets are replayed, and it is restored once they are quiet;
whether the retrain succeeds is open (log entry 43). -/
def State.trainPort (s : State) (port : Nat) : State :=
  let ps := s.pathsOf port
  let s := (ps.filter (fun x => (s.linkState x.1 x.2).takes)).foldl (fun s x => (s.downPath x.1 x.2).setPath x.1 x.2 .retraining 0) s
  if Config.freeBool s.free then
    if ps.all (fun x => s.pathQuiet x.1 x.2) then
      (ps.foldl (fun s x => s.setPath x.1 x.2 .up 0) (s.countRetrain (256 + port))).doneService 0x35
    else s
  else (ps.foldl (fun s x => s.downPath x.1 x.2) (s.countRetrain (256 + port))).doneService 0x35

/-- 21 R404, 25 R487: record 0x9002 of a Mbatil lane. -/
def State.laneRecord (s : State) (lane : Nat) : State :=
  s.record { s.plainRecord 0xFFFF s.master 0x9002 (actionOf 0 6) with engine := 9 * 2 ^ 24 + lane }

/-- 25 R487: LTRAIN on Mbatil lanes: 0x9002 once; a retrain that fails leaves the lanes out and raises it again. -/
def State.trainLanes (s : State) (mask : Nat) : State :=
  let ls := (List.range 64).filter (bitOf mask)
  let s := ls.foldl (fun s l => s.countRetrain l) (s.laneRecord (ls.headD 0))
  if Config.freeBool s.free then
    ({ s with badLanes := s.badLanes.filter (fun l => !ls.contains l), linkDown := false } : State).doneService 0x35
  else
    (({ s with badLanes := ls.foldl (fun l k => setAdd k l) s.badLanes } : State).laneRecord (ls.headD 0)).doneService 0x35

/-- LTRAIN (25 R487). -/
def execLtrain (x : MgmtArgs) (s : State) : Host.Outcome State Fault Refusal :=
  s.command x 3 (x.a0.toNat < 2 && (x.a0.toNat == 0 || x.a1.toNat < 32))
    (if x.a0.toNat = 0 then s.trainLanes x.a2.toNat else s.trainPort x.a1.toNat)

/-- FWLOAD (25 R477): the image goes into the inactive slot of every Cirque; its version and whether it is valid are open, for
the manual gives no image format (log entry 43). -/
def execFwload (x : MgmtArgs) (s : State) : Host.Outcome State Fault Refusal :=
  let v := Config.freeNat s.free
  let ok := Config.freeBool s.free
  s.command x 2 (x.a1.toNat != 0 && bufferOk x.a0.toNat x.a1.toNat)
    (({ s with dies := s.dies.map (fun (d : Die) =>
        if d.fwActiveB then { d with fwA := v, fwValidA := ok } else { d with fwB := v, fwValidB := ok }) } : State).doneService 0x30)

/-- 25 R484: the inactive image of a die is valid. -/
def Die.spareImage (d : Die) : Bool := if d.fwActiveB then d.fwValidA else d.fwValidB

/-- FWSWITCH (25 R484): refused with 0xB404 before anything changes where an inactive image is invalid. -/
def execFwswitch (x : MgmtArgs) (s : State) : Host.Outcome State Fault Refusal :=
  .next (if !blankFrom 0 x then s.failCmd 0xB402
    else if !s.dies.all Die.spareImage then s.failCmd 0xB404
    else ({ s with dies := s.dies.map (fun (d : Die) => { d with fwActiveB := !d.fwActiveB }) } : State).doneService 0x31)

/-! ### Resets of dies and of the package (25 R474) -/

/-- A cluster after a reset of its die: its state and its core masks stay. -/
def ClusterShare.cleared (c : ClusterShare) : ClusterShare :=
  { ClusterShare.reset 0 with state := if c.state == .inService then .retired else c.state, defects := c.newDefects, newDefects := c.newDefects }

/-- 25 R474: what a die loses with its clusters and its Firn: directory, counters, remote lines. -/
def Die.cleared (d : Die) : Die :=
  { d with clusters := d.clusters.map ClusterShare.cleared, cohctl := Die.reset.cohctl, nodes := [], coh := [], epochs := [], remote := [],
           access := [], accessKind := [], ecc := [], throttled := false }

/-- A workgroup stands on a die, or its context is in a shadow bank there. -/
def Workgroup.atDie (w : Workgroup) (die : Nat) : Bool := if w.onCore then coreDie w.phys == die else w.savedAt / 7 == die

/-- 25 R474: the contexts, scratchpads, carve-outs, caches and DRAM of a die are lost. -/
def State.wipeDie (s : State) (die : Nat) : State :=
  let ks := (s.wgs.filter (fun w => w.atDie die)).map (·.key)
  let carves := s.parts.flatMap (fun p => ((List.range 4).filter (fun d => d < p.ndie && p.pdie.getD d 4 == die)).map (fun d => carveKey p.num d 0))
  let s := (s.wgs.filter (fun w => w.atDie die && !w.retired)).foldl (fun s w =>
    s.modLaunch w.part w.ticket (fun l => { l with retired := l.retired + 1, failed := true })) s
  let s := s.dropWgs ks
  let s := carves.foldl (fun s k => s.wipe k (2 ^ 26)) s
  let s := (s.wipe (scratchKey (die * 56) 0) (56 * 2 ^ 21)).wipe (die * 0x20_0000_0000) 0x18_0000_0000
  { (s.modDie die Die.cleared) with cores := s.cores.filter (fun kc => coreDie kc.1 != die) }

/-- 25 R474: a reset of a die: every partition with a logical die there is halted, DOM 4. -/
def State.resetDie (s : State) (die cause code : Nat) : State :=
  let hit := s.parts.filter (fun p => p.pdie.contains die)
  let s := (s.wipeDie die).noteReset die 0xFFFF cause 1 code
  let s := hit.foldl (fun s p =>
    let r := { s.plainRecord p.num die (if code = 0 then 0xB407 else code) (actionOf 4 2) with engine := 12 * 2 ^ 24 }
    { s with halts := if s.halts.any (fun h => h.part == p.num && h.fdom == 3) then s.halts else s.halts ++
        [{ stage := .raised, part := p.num, fdom := 3, ticket := 0, wg := 0, die := die,
           wgs := (s.wgs.filter (fun w => w.part == p.num)).map (·.key), cause := r, haltCyc := 0, nsecond := 0, second := none,
           records := [r], dropped := false, ctxLost := (s.wgs.filter (fun w => w.part == p.num)).isEmpty }] }) s
  s.failService

/-- 25 R474: a reset of the package: every partition, context and cache is lost, and with `dram` clear the DRAM contents and all
other state. -/
def State.resetPackage (s : State) (cause code : Nat) (keep : Bool) : State :=
  let s' := { State.reset with
    free := s.free, serial := s.serial, agenda := s.agenda, master := s.master, pod := s.pod, linkDown := s.linkDown,
    badLanes := s.badLanes, retrains := s.retrains, powerCap := s.powerCap, paths := if keep then s.paths else [],
    mem := if keep then s.mem.filter (fun kv => isGlobal kv.1) else [],
    tags := if keep then s.tags.filter (fun g => isGlobal (16 * g)) else [],
    poison := if keep then s.poison.filter (fun g => isGlobal (16 * g)) else [],
    records := if keep then s.records else [], recordBase := if keep then s.recordBase else 0,
    classes := if keep then s.classes else State.reset.classes, dies := s.dies.map Die.cleared }
  let s' := if s.mailbox.busy then s'.record { s'.plainRecord 0xFFFF s'.master 0xB403 0 with engine := 12 * 2 ^ 24 } else s'
  (List.range 4).foldl (fun s d => s.noteReset d 0xFFFF cause 0 code) s'

/-- 25 R474: a reset of a physical cluster: the contexts resident there are halted as fatal, those in shadow storage kept, and
its partitions continue elsewhere (05 R109) (log entry 51). -/
def State.resetCluster (s : State) (k : Nat) : State :=
  let ws := s.wgs.filter (fun w => coreCluster w.phys == k && w.onCore)
  let s := s.noteReset (k / 7) 0xFFFF 5 2 0
  let s := ws.foldl (fun s w =>
    s.fatal w { s.plainRecord w.part (k / 7) 0xB407 0 with
      recov := 0, ctxv := true, ticket := w.ticket, wg := w.wg, engine := engineOf 1 w.phys }) s
  let s := { s with cores := s.cores.filter (fun kc => coreCluster kc.1 != k) }
  let s := s.wipe (scratchKey (k * 8) 0) (8 * 2 ^ 21)
  s.startRetiring k

/-- RESET (25 R474, R477). -/
def execReset (x : MgmtArgs) (s : State) : Host.Outcome State Fault Refusal :=
  let t := x.a1.toNat
  let idle := { s with mailbox := s.mailbox.finish 2 0 [] }
  .next (
    if !blankFrom 3 x || x.a2.toNat ≥ 2 then s.failCmd 0xB402
    else
      match x.a0.toNat with
      | 0 => if t = 0 then idle.resetPackage (if x.a2.toNat = 1 then 2 else 3) 0 (x.a2.toNat == 1) else s.failCmd 0xB402
      | 1 => if t < 4 && x.a2.toNat = 0 then (idle.resetDie t 4 0) else s.failCmd 0xB402
      | 2 => if t / 8 < 4 && t % 8 < 7 && x.a2.toNat = 0 then idle.resetCluster (t / 8 * 7 + t % 8) else s.failCmd 0xB402
      | _ => s.failCmd 0xB402)

/-- 01 R10: a die after cold reset: its spare, the clusters that passed enabled, the others retired (log entry 51). -/
def coldDie (pass : BitVec 7) (spare : Nat) : Die :=
  { Die.reset with clusters := (List.range 7).map (fun (c : Nat) =>
      ({ ClusterShare.reset 0 with
          state := (if c == spare then ClusterState.spare else if pass.getLsbD c then .enabled else .retired) } : ClusterShare)) }

/-- COLD_RESET (01 R10; 25 R474, R475): each Cirque chooses a spare among the clusters that pass its tests, and a master is
elected. -/
def execColdReset (pass : List (BitVec 7)) (spares : List Nat) (master : Nat) (s : State) : Host.Outcome State Fault Refusal :=
  let ok := pass.length == 4 && spares.length == 4 && master < 4 &&
    (List.range 4).all (fun d => spares.getD d 7 < 7 && (pass.getD d 0).getLsbD (spares.getD d 7))
  let dies := (List.range 4).map (fun d => coldDie (pass.getD d 0) (spares.getD d 7))
  let s' := { State.reset with free := s.free, agenda := s.agenda, master := master, dies := dies }
  .next (if ok then
      (List.range 4).foldl (fun s d =>
        s.record { s.plainRecord 0xFFFF d 0xB407 (actionOf 6 9) with recov := 4, engine := 12 * 2 ^ 24, paddr := 1 }) s'
    else s)

/-- 25 R474: one Cirque is reset: the command in progress is lost if it is the master's, and a new master is elected. -/
def State.resetCirque (s : State) (die master cause code : Nat) : State :=
  let s := if s.master = die && s.mailbox.busy then s.failCmd 0xB403 else s
  (s.record { s.plainRecord 0xFFFF die code (actionOf 0 9) with engine := 12 * 2 ^ 24 }).noteReset die 0xFFFF cause 4 code |>.elect die master

/-- CIRQUE_WATCHDOG_RESET (25 R474). -/
def execCirqueWatchdogReset (die master : Nat) (s : State) : Host.Outcome State Fault Refusal :=
  .next (if die < 4 && master < 4 then s.resetCirque die master 7 0xB405 else s)

/-- FIRMWARE_FAULT (25 R474): as the watchdog; the other image is taken. -/
def execFirmwareFault (die master : Nat) (s : State) : Host.Outcome State Fault Refusal :=
  .next (if die < 4 && master < 4 then
      (s.modDie die (fun d => { d with fwActiveB := !d.fwActiveB })).resetCirque die master 10 0xB406
    else s)

/-- THERMAL_TRIP (25 R474): 0xA003, as a reset of the die. -/
def execThermalTrip (die : Nat) (s : State) : Host.Outcome State Fault Refusal :=
  .next (if die < 4 then (s.record { s.plainRecord 0xFFFF die 0xA003 (actionOf 5 9) with engine := 12 * 2 ^ 24 }).resetDie die 8 0xA003 else s)

/-- LINK_LOSS_RESET (25 R474): the link is retrained. -/
def execLinkLossReset (s : State) : Host.Outcome State Fault Refusal :=
  .next (if s.linkDown then ({ s with linkDown := false, badLanes := [] } : State).noteReset s.master 0xFFFF 9 5 0x9001 else s)

/-- PACKAGE_INTERCONNECT_FAILURE (25 R474): a package reset; all state and DRAM contents are lost. -/
def execPackageInterconnectFailure (s : State) : Host.Outcome State Fault Refusal := .next (s.resetPackage 3 0 false)

/-! ### Hardware errors (25 R471 to R473; 20 R382) -/

/-- DIE_THROTTLE (25 R471). -/
def execDieThrottle (die : Nat) (s : State) : Host.Outcome State Fault Refusal :=
  .next (if die < 4 then
      (s.modDie die (fun d => { d with throttled := true })).record { s.plainRecord 0xFFFF die 0xA001 (actionOf 5 7) with engine := 12 * 2 ^ 24 }
    else s)

/-- POWER_CAP_REACHED (25 R471). -/
def execPowerCapReached (s : State) : Host.Outcome State Fault Refusal :=
  .next (({ s with powerCap := true } : State).record { s.plainRecord 0xFFFF s.master 0xA002 (actionOf 6 7) with engine := 12 * 2 ^ 24 })

/-- The code and the engine of an uncorrectable error at a key (25 R465, R471); which channel or slice holds it is open (log
entry 43, 20 R365). -/
def errorAt (key : Nat) : Nat × Nat :=
  if isGlobal key then (0x6002, 10 * 2 ^ 24 + Config.channelOf (key / 16) % 2 ^ 24)
  else (0x6102, if isScratch key then engineOf 6 (keyCore key) else 5 * 2 ^ 24 + (Config.homeSlice (key / 128)).val)

/-- 25 R472: a granule is poisoned. -/
def State.poisonKey (s : State) (key : Nat) : State := s.poisonGranules [key / 16]

/-- UNCORRECTABLE_ERROR (25 R472): the granule is poisoned; where a group was reading it the fault is fatal to the group's
nearest fault domain. -/
def execUncorrectableError (key : Nat) (reader : Option Nat) (s : State) : Host.Outcome State Fault Refusal :=
  let s := s.poisonKey key
  .next (match reader.bind s.group? with
    | none => s
    | some g =>
      match s.wg? g.wgKey, g.splits.head? with
      | some w, some sp =>
        s.fatal w { s.groupRecord w g sp (errorAt key).1 0 sp.mask with
          engine := (errorAt key).2, pav := isGlobal key, paddr := if isGlobal key then key / 16 * 16 else 0 }
      | _, _ => s)

/-- 25 R465: an array of a die, as ENGINE names it. -/
def arrayOf (n : Nat) : Nat := ([1, 5, 6, 7, 10][n % 5]?.getD 10) * 2 ^ 24 + n / 5 % 2 ^ 16

/-- 25 R473: a number of soft errors, both open, is corrected in an array of a die; the count that passes 16 within an hour is
recorded; whether an hour has begun since the last is open. -/
def State.correctErrors (s : State) (die : Nat) : State :=
  let a := arrayOf (Config.freeNat s.free)
  let old := if Config.freeBool s.free then 0 else assocGet 0 a (s.die die).ecc
  let now := old + Config.freeNat (s.free + 1)
  let s := ({ s with free := s.free + 2 } : State).modDie die (fun d => { d with ecc := assocSet 0 a now d.ecc })
  if old ≤ 16 && 16 < now then
    s.record { s.plainRecord 0xFFFF die (if a / 2 ^ 24 = 10 then 0x6001 else 0x6101) (actionOf 0 4) with engine := a }
  else s

/-- PATROL_SCRUB (25 R473): what the scrubber corrects is counted; what it cannot correct is poisoned, with its record at once. -/
def execPatrolScrub (die : Nat) (bad : List Nat) (s : State) : Host.Outcome State Fault Refusal :=
  .next (if die < 4 then
      (bad.foldl (fun s key =>
        (s.poisonKey key).record { s.plainRecord 0xFFFF die (errorAt key).1 0 with
          engine := (errorAt key).2, pav := isGlobal key, paddr := if isGlobal key then key / 16 * 16 else 0 }) s).correctErrors die
    else s)

/-- RECALL_BOUND_EXCEEDED (25 R471; 20 R382): 0x7001 halts each partition that holds the node. -/
def execRecallBoundExceeded (die base : Nat) (s : State) : Host.Outcome State Fault Refusal :=
  let home := homeDie (128 * base)
  .next (match (s.die home).nodes.find? (fun n => n.base == base) with
    | none => s
    | some n =>
      let lo := 128 * n.base
      let hit := s.parts.filter (fun p => p.extents.any (fun e => !e.device && e.base < lo + 128 * 2 ^ n.size && lo < e.base + e.size))
      hit.foldl (fun s p =>
        s.fatalPartition p.num home { s.plainRecord p.num home 0x7001 (actionOf 4 2) with engine := 7 * 2 ^ 24, addr := lo, paddr := die }) s)

/-- DIRECTORY_ARRAY_UNCORRECTABLE (25 R474): 0x7002 takes a reset of the die. -/
def execDirectoryArrayUncorrectable (die : Nat) (s : State) : Host.Outcome State Fault Refusal :=
  .next (if die < 4 then
      (s.record { s.plainRecord 0xFFFF die 0x7002 (actionOf 5 9) with engine := 7 * 2 ^ 24 }).resetDie die 4 0x7002
    else s)

end Sys2Proof.Machine
end

