-- ==== Sys2Proof/Machine/Dispatch.lean ====
section
/-!
DEFINITION. What each row of the opcode table does: one arm per constructor.
-/
namespace Sys2Proof.Machine

def exec (i : Instr) (s : State) : Host.Outcome State Fault Refusal :=
  match i with
  | .nop x => Sys2Proof.Machine.execNop x s
  | .bra x => Sys2Proof.Machine.execBra x s
  | .brd x => Sys2Proof.Machine.execBrd x s
  | .bri x => Sys2Proof.Machine.execBri x s
  | .call x => Sys2Proof.Machine.execCall x s
  | .calli x => Sys2Proof.Machine.execCalli x s
  | .ret x => Sys2Proof.Machine.execRet x s
  | .maskLanes x => Sys2Proof.Machine.execMaskLanes x s
  | .splitq x => Sys2Proof.Machine.execSplitq x s
  | .yield x => Sys2Proof.Machine.execYield x s
  | .waitevTl x => Sys2Proof.Machine.execWaitevTl x s
  | .waitevBar x => Sys2Proof.Machine.execWaitevBar x s
  | .waitevFlag x => Sys2Proof.Machine.execWaitevFlag x s
  | .endLanes x => Sys2Proof.Machine.execEndLanes x s
  | .trap x => Sys2Proof.Machine.execTrap x s
  | .tret x => Sys2Proof.Machine.execTret x s
  | .sysRecord x => Sys2Proof.Machine.execSysRecord x s
  | .sysNotify x => Sys2Proof.Machine.execSysNotify x s
  | .sysStop x => Sys2Proof.Machine.execSysStop x s
  | .bkpt x => Sys2Proof.Machine.execBkpt x s
  | .rds x => Sys2Proof.Machine.execRds x s
  | .wrs x => Sys2Proof.Machine.execWrs x s
  | .launch x => Sys2Proof.Machine.execLaunch x s
  | .sadd x => Sys2Proof.Machine.execSadd x s
  | .ssub x => Sys2Proof.Machine.execSsub x s
  | .smul x => Sys2Proof.Machine.execSmul x s
  | .smulh x => Sys2Proof.Machine.execSmulh x s
  | .sand x => Sys2Proof.Machine.execSand x s
  | .sor x => Sys2Proof.Machine.execSor x s
  | .sxor x => Sys2Proof.Machine.execSxor x s
  | .sshl x => Sys2Proof.Machine.execSshl x s
  | .sshr x => Sys2Proof.Machine.execSshr x s
  | .ssra x => Sys2Proof.Machine.execSsra x s
  | .smin x => Sys2Proof.Machine.execSmin x s
  | .smax x => Sys2Proof.Machine.execSmax x s
  | .scmp x => Sys2Proof.Machine.execScmp x s
  | .ssel x => Sys2Proof.Machine.execSsel x s
  | .smov x => Sys2Proof.Machine.execSmov x s
  | .smovi x => Sys2Proof.Machine.execSmovi x s
  | .sbfe x => Sys2Proof.Machine.execSbfe x s
  | .sbfi x => Sys2Proof.Machine.execSbfi x s
  | .spopc x => Sys2Proof.Machine.execSpopc x s
  | .sclz x => Sys2Proof.Machine.execSclz x s
  | .vadd x => Sys2Proof.Machine.execVadd x s
  | .vsub x => Sys2Proof.Machine.execVsub x s
  | .vmul x => Sys2Proof.Machine.execVmul x s
  | .vmulh x => Sys2Proof.Machine.execVmulh x s
  | .vmad x => Sys2Proof.Machine.execVmad x s
  | .vand x => Sys2Proof.Machine.execVand x s
  | .vor x => Sys2Proof.Machine.execVor x s
  | .vxor x => Sys2Proof.Machine.execVxor x s
  | .vshl x => Sys2Proof.Machine.execVshl x s
  | .vshr x => Sys2Proof.Machine.execVshr x s
  | .vsra x => Sys2Proof.Machine.execVsra x s
  | .vmin x => Sys2Proof.Machine.execVmin x s
  | .vmax x => Sys2Proof.Machine.execVmax x s
  | .vabs x => Sys2Proof.Machine.execVabs x s
  | .vcmp x => Sys2Proof.Machine.execVcmp x s
  | .vsel x => Sys2Proof.Machine.execVsel x s
  | .vmov x => Sys2Proof.Machine.execVmov x s
  | .vbfe x => Sys2Proof.Machine.execVbfe x s
  | .vbfi x => Sys2Proof.Machine.execVbfi x s
  | .vpopc x => Sys2Proof.Machine.execVpopc x s
  | .vclz x => Sys2Proof.Machine.execVclz x s
  | .vdot4 x => Sys2Proof.Machine.execVdot4 x s
  | .fadd x => Sys2Proof.Machine.execFadd x s
  | .fsub x => Sys2Proof.Machine.execFsub x s
  | .fmul x => Sys2Proof.Machine.execFmul x s
  | .ffma x => Sys2Proof.Machine.execFfma x s
  | .fmin x => Sys2Proof.Machine.execFmin x s
  | .fmax x => Sys2Proof.Machine.execFmax x s
  | .fcmp x => Sys2Proof.Machine.execFcmp x s
  | .fclass x => Sys2Proof.Machine.execFclass x s
  | .frcp x => Sys2Proof.Machine.execFrcp x s
  | .frsq x => Sys2Proof.Machine.execFrsq x s
  | .fsqrt x => Sys2Proof.Machine.execFsqrt x s
  | .fexp2 x => Sys2Proof.Machine.execFexp2 x s
  | .flog2 x => Sys2Proof.Machine.execFlog2 x s
  | .fsin x => Sys2Proof.Machine.execFsin x s
  | .fcos x => Sys2Proof.Machine.execFcos x s
  | .fround x => Sys2Proof.Machine.execFround x s
  | .cvt x => Sys2Proof.Machine.execCvt x s
  | .cvtpk x => Sys2Proof.Machine.execCvtpk x s
  | .cbexp x => Sys2Proof.Machine.execCbexp x s
  | .scalex x => Sys2Proof.Machine.execScalex x s
  | .matchLanes x => Sys2Proof.Machine.execMatchLanes x s
  | .ballot x => Sys2Proof.Machine.execBallot x s
  | .shfl x => Sys2Proof.Machine.execShfl x s
  | .lred x => Sys2Proof.Machine.execLred x s
  | .lscan x => Sys2Proof.Machine.execLscan x s
  | .rdlane x => Sys2Proof.Machine.execRdlane x s
  | .bcast x => Sys2Proof.Machine.execBcast x s
  | .v2s x => Sys2Proof.Machine.execV2s x s
  | .s2v x => Sys2Proof.Machine.execS2v x s
  | .pder x => Sys2Proof.Machine.execPder x s
  | .padd x => Sys2Proof.Machine.execPadd x s
  | .pfmt x => Sys2Proof.Machine.execPfmt x s
  | .pright x => Sys2Proof.Machine.execPright x s
  | .pget x => Sys2Proof.Machine.execPget x s
  | .pgetQuad x => Sys2Proof.Machine.execPgetQuad x s
  | .pnull x => Sys2Proof.Machine.execPnull x s
  | .peq x => Sys2Proof.Machine.execPeq x s
  | .widen x => Sys2Proof.Machine.execWiden x s
  | .narrow x => Sys2Proof.Machine.execNarrow x s
  | .ld x => Sys2Proof.Machine.execLd x s
  | .ldVp x => Sys2Proof.Machine.execLdVp x s
  | .st x => Sys2Proof.Machine.execSt x s
  | .stVp x => Sys2Proof.Machine.execStVp x s
  | .ldp x => Sys2Proof.Machine.execLdp x s
  | .ldpQ x => Sys2Proof.Machine.execLdpQ x s
  | .stp x => Sys2Proof.Machine.execStp x s
  | .stpQ x => Sys2Proof.Machine.execStpQ x s
  | .ldres x => Sys2Proof.Machine.execLdres x s
  | .stcnd x => Sys2Proof.Machine.execStcnd x s
  | .pref x => Sys2Proof.Machine.execPref x s
  | .icinv x => Sys2Proof.Machine.execIcinv x s
  | .atom x => Sys2Proof.Machine.execAtom x s
  | .atomn x => Sys2Proof.Machine.execAtomn x s
  | .cas x => Sys2Proof.Machine.execCas x s
  | .binit x => Sys2Proof.Machine.execBinit x s
  | .barv x => Sys2Proof.Machine.execBarv x s
  | .bexp x => Sys2Proof.Machine.execBexp x s
  | .bwait x => Sys2Proof.Machine.execBwait x s
  | .btest x => Sys2Proof.Machine.execBtest x s
  | .binval x => Sys2Proof.Machine.execBinval x s
  | .tlwait x => Sys2Proof.Machine.execTlwait x s
  | .tltest x => Sys2Proof.Machine.execTltest x s
  | .tlreadIss x => Sys2Proof.Machine.execTlreadIss x s
  | .tlreadDone x => Sys2Proof.Machine.execTlreadDone x s
  | .stream x => Sys2Proof.Machine.execStream x s
  | .sgath x => Sys2Proof.Machine.execSgath x s
  | .sdec x => Sys2Proof.Machine.execSdec x s
  | .mloop x => Sys2Proof.Machine.execMloop x s
  | .mstep x => Sys2Proof.Machine.execMstep x s
  | .mstepV x => Sys2Proof.Machine.execMstepV x s
  | .aswap x => Sys2Proof.Machine.execAswap x s
  | .azero x => Sys2Proof.Machine.execAzero x s
  | .aread x => Sys2Proof.Machine.execAread x s
  | .astore x => Sys2Proof.Machine.execAstore x s
  | .amark x => Sys2Proof.Machine.execAmark x s
  | .xtopk x => Sys2Proof.Machine.execXtopk x s
  | .xqnt x => Sys2Proof.Machine.execXqnt x s
  | .xdqnt x => Sys2Proof.Machine.execXdqnt x s
  | .clauseFetch g sid => Sys2Proof.Machine.execClauseFetch g sid s
  | .clausePrefetch g sid n => Sys2Proof.Machine.execClausePrefetch g sid n s
  | .clauseStart g sid => Sys2Proof.Machine.execClauseStart g sid s
  | .waitRetestStart g sid => Sys2Proof.Machine.execWaitRetestStart g sid s
  | .spillRotation g => Sys2Proof.Machine.execSpillRotation g s
  | .spillConditionTest g => Sys2Proof.Machine.execSpillConditionTest g s
  | .eventWake g sid => Sys2Proof.Machine.execEventWake g sid s
  | .starvationGuard g sid => Sys2Proof.Machine.execStarvationGuard g sid s
  | .capRecompute core => Sys2Proof.Machine.execCapRecompute core s
  | .flagCountedCompletion g op => Sys2Proof.Machine.execFlagCountedCompletion g op s
  | .bwaitPass g sid => Sys2Proof.Machine.execBwaitPass g sid s
  | .tlwaitPass g sid => Sys2Proof.Machine.execTlwaitPass g sid s
  | .pageWalk core part va => Sys2Proof.Machine.execPageWalk core part va s
  | .scoreboardEntryGrant g sid => Sys2Proof.Machine.execScoreboardEntryGrant g sid s
  | .scoreboardAdmit g sid => Sys2Proof.Machine.execScoreboardAdmit g sid s
  | .streamLanding op elems => Sys2Proof.Machine.execStreamLanding op elems s
  | .sdecDecode op n => Sys2Proof.Machine.execSdecDecode op n s
  | .engineOpComplete op => Sys2Proof.Machine.execEngineOpComplete op s
  | .engineOpFault op => Sys2Proof.Machine.execEngineOpFault op s
  | .matrixQueueGrant g sid => Sys2Proof.Machine.execMatrixQueueGrant g sid s
  | .matrixStep core => Sys2Proof.Machine.execMatrixStep core s
  | .tileAzeroEffect op => Sys2Proof.Machine.execTileAzeroEffect op s
  | .tileAswapEffect op => Sys2Proof.Machine.execTileAswapEffect op s
  | .tileAreadEffect op => Sys2Proof.Machine.execTileAreadEffect op s
  | .tileAstoreEffect op => Sys2Proof.Machine.execTileAstoreEffect op s
  | .transformReply g op => Sys2Proof.Machine.execTransformReply g op s
  | .groupEnd g => Sys2Proof.Machine.execGroupEnd g s
  | .submit part port addr => Sys2Proof.Machine.execSubmit part port addr s
  | .submitStatusRead part port => Sys2Proof.Machine.execSubmitStatusRead part port s
  | .failack part ticket => Sys2Proof.Machine.execFailack part ticket s
  | .launchReady part ticket => Sys2Proof.Machine.execLaunchReady part ticket s
  | .carveoutOffsetFix part ticket off => Sys2Proof.Machine.execCarveoutOffsetFix part ticket off s
  | .placementBegin part ticket => Sys2Proof.Machine.execPlacementBegin part ticket s
  | .workgroupPlace part ticket places => Sys2Proof.Machine.execWorkgroupPlace part ticket places s
  | .workgroupRetire w => Sys2Proof.Machine.execWorkgroupRetire w s
  | .launchComplete part ticket => Sys2Proof.Machine.execLaunchComplete part ticket s
  | .launchFail part ticket => Sys2Proof.Machine.execLaunchFail part ticket s
  | .quantumExpiry die cluster => Sys2Proof.Machine.execQuantumExpiry die cluster s
  | .preemption die cluster => Sys2Proof.Machine.execPreemption die cluster s
  | .contextSave die cluster => Sys2Proof.Machine.execContextSave die cluster s
  | .contextRestore die cluster part scheds lost => Sys2Proof.Machine.execContextRestore die cluster part scheds lost s
  | .faultDomainHalt => Sys2Proof.Machine.execFaultDomainHalt s
  | .dumpWrite => Sys2Proof.Machine.execDumpWrite s
  | .irqMessageDeliver part => Sys2Proof.Machine.execIrqMessageDeliver part s
  | .sliceRegistration core key => Sys2Proof.Machine.execSliceRegistration core key s
  | .l1Eviction core line => Sys2Proof.Machine.execL1Eviction core line s
  | .forwardedRead core key => Sys2Proof.Machine.execForwardedRead core key s
  | .directoryRequest holder own line => Sys2Proof.Machine.execDirectoryRequest holder own line s
  | .nodeMerge die base => Sys2Proof.Machine.execNodeMerge die base s
  | .directoryEviction die base => Sys2Proof.Machine.execDirectoryEviction die base s
  | .recall die base sharing => Sys2Proof.Machine.execRecall die base sharing s
  | .companionWrite pa bytes => Sys2Proof.Machine.execCompanionWrite pa bytes s
  | .companionRead pa n => Sys2Proof.Machine.execCompanionRead pa n s
  | .packetReceive p => Sys2Proof.Machine.execPacketReceive p s
  | .orderedPacketRelease source part path seq => Sys2Proof.Machine.execOrderedPacketRelease source part path seq s
  | .packetAck dest part path seq bytes tags faultCode => Sys2Proof.Machine.execPacketAck dest part path seq bytes tags faultCode s
  | .packetRefusal dest part path seq => Sys2Proof.Machine.execPacketRefusal dest part path seq s
  | .pathDown dest path => Sys2Proof.Machine.execPathDown dest path s
  | .pathRestore dest path => Sys2Proof.Machine.execPathRestore dest path s
  | .doorbell value => Sys2Proof.Machine.execDoorbell value s
  | .mstatRead => Sys2Proof.Machine.execMstatRead s
  | .registerWrite pa value => Sys2Proof.Machine.execRegisterWrite pa value s
  | .summary x => Sys2Proof.Machine.execSummary x s
  | .pcreate x => Sys2Proof.Machine.execPcreate x s
  | .pdestroy x => Sys2Proof.Machine.execPdestroy x s
  | .precfg x => Sys2Proof.Machine.execPrecfg x s
  | .preset x => Sys2Proof.Machine.execPreset x s
  | .tlbi x => Sys2Proof.Machine.execTlbi x s
  | .cohcfg x => Sys2Proof.Machine.execCohcfg x s
  | .cntclr x => Sys2Proof.Machine.execCntclr x s
  | .irqcfg x => Sys2Proof.Machine.execIrqcfg x s
  | .errcfg x => Sys2Proof.Machine.execErrcfg x s
  | .errread x => Sys2Proof.Machine.execErrread x s
  | .accfg x => Sys2Proof.Machine.execAccfg x s
  | .obscfg x => Sys2Proof.Machine.execObscfg x s
  | .stop x => Sys2Proof.Machine.execStop x s
  | .resume x => Sys2Proof.Machine.execResume x s
  | .step x => Sys2Proof.Machine.execStep x s
  | .histrd x => Sys2Proof.Machine.execHistrd x s
  | .snap x => Sys2Proof.Machine.execSnap x s
  | .ckfree x => Sys2Proof.Machine.execCkfree x s
  | .replay x => Sys2Proof.Machine.execReplay x s
  | .dumpcfg x => Sys2Proof.Machine.execDumpcfg x s
  | .fwload x => Sys2Proof.Machine.execFwload x s
  | .fwswitch x => Sys2Proof.Machine.execFwswitch x s
  | .retire x => Sys2Proof.Machine.execRetire x s
  | .returnUnit x => Sys2Proof.Machine.execReturnUnit x s
  | .drcal x => Sys2Proof.Machine.execDrcal x s
  | .ltrain x => Sys2Proof.Machine.execLtrain x s
  | .reset x => Sys2Proof.Machine.execReset x s
  | .memchk x => Sys2Proof.Machine.execMemchk x s
  | .coldReset pass spares master => Sys2Proof.Machine.execColdReset pass spares master s
  | .sampleTimer die cluster core sched => Sys2Proof.Machine.execSampleTimer die cluster core sched s
  | .sampleWrite g sid => Sys2Proof.Machine.execSampleWrite g sid s
  | .stopAtSite g sid => Sys2Proof.Machine.execStopAtSite g sid s
  | .snapshotLatch die => Sys2Proof.Machine.execSnapshotLatch die s
  | .checkpoint part => Sys2Proof.Machine.execCheckpoint part s
  | .checkpointRegionCopy part va => Sys2Proof.Machine.execCheckpointRegionCopy part va s
  | .replayEvent part home kind ticket wg group lane addr value => Sys2Proof.Machine.execReplayEvent part home kind ticket wg group lane addr value s
  | .codeObjectLoad part obj => Sys2Proof.Machine.execCodeObjectLoad part obj s
  | .transformPipeAccept core => Sys2Proof.Machine.execTransformPipeAccept core s
  | .cirqueWatchdogReset die master => Sys2Proof.Machine.execCirqueWatchdogReset die master s
  | .firmwareFault die master => Sys2Proof.Machine.execFirmwareFault die master s
  | .thermalTrip die => Sys2Proof.Machine.execThermalTrip die s
  | .dieThrottle die => Sys2Proof.Machine.execDieThrottle die s
  | .powerCapReached => Sys2Proof.Machine.execPowerCapReached s
  | .uncorrectableError key reader => Sys2Proof.Machine.execUncorrectableError key reader s
  | .patrolScrub die bad => Sys2Proof.Machine.execPatrolScrub die bad s
  | .recallBoundExceeded die base => Sys2Proof.Machine.execRecallBoundExceeded die base s
  | .directoryArrayUncorrectable die => Sys2Proof.Machine.execDirectoryArrayUncorrectable die s
  | .packageInterconnectFailure => Sys2Proof.Machine.execPackageInterconnectFailure s
  | .linkLossReset => Sys2Proof.Machine.execLinkLossReset s
  | .mbatilLinkDown => Sys2Proof.Machine.execMbatilLinkDown s
  | .mbatilLaneDegraded lane => Sys2Proof.Machine.execMbatilLaneDegraded lane s
  | .destinationUnreachable dest => Sys2Proof.Machine.execDestinationUnreachable dest s
  | .stallHistogramCount die cluster core sched => Sys2Proof.Machine.execStallHistogramCount die cluster core sched s
  | .replayHoldTimeout part home => Sys2Proof.Machine.execReplayHoldTimeout part home s
  | .scoreHalving core => Sys2Proof.Machine.execScoreHalving core s

end Sys2Proof.Machine
end

