-- ==== Sys2Proof/Machine/Schedule.lean ====
section
/-!
DEFINITION. Who moves next (log entry 2): a split already chosen, the events that the agenda lists, then what the
hardware does by itself; and the passing of time (log entry 4).
-/
namespace Sys2Proof.Machine

/-- What moves in a step. -/
inductive Move where
  /-- The split that `cur` names issues an instruction. -/
  | issue (i : Instr) (s : State)
  /-- Another agent moves. -/
  | event (i : Instr) (s : State)
  /-- Nothing moves, but the state given may differ. -/
  | stay (s : State)

/-- A split may issue: the word it stands at is an instruction of a clause that has begun. -/
def Ctx.atWord (c : Ctx) : Bool :=
  c.mayMove && (c.sp.state == .ready || c.sp.state == .inTrap) && !c.sp.clause.isEmpty && c.sp.word != 0 && !c.sp.skipRpc &&
    c.sp.hold != .faulted

/-- 07 R159, 08 R177: a scheduler has made its next choice: what YIELD left for it is spent. -/
def State.spendYields (s : State) (c : Ctx) : State :=
  { s with groups := s.groups.map (fun (g : Group) =>
      if g.sched == c.g.sched && ((s.wg? g.wgKey).map (·.phys)) == some c.w.phys && (g.yielded || g.splits.any (·.yielded)) then
        { g with yielded := false, splits := g.splits.map (fun (x : Split) => { x with yielded := false }) }
      else g) }

/-- 06 R130, R131: a split issues the instruction at its word; a word that is none traps on every lane.  What the split meets
at a stop site comes first: a sample that waits for it (23 R434), a stop that is due (R431).  Of a word that earns both 0x5001 and
0x5003 the first is raised (log entry 56). -/
def State.issueOf (s : State) (g sid : Nat) : Move :=
  match s.ctx? g sid with
  | none => .stay { s with cur := none }
  | some c =>
    if c.atWord then
      if (s.siteOf c.w c.sp).isSome && s.samples.any (fun x => x.gid == g && x.sid == sid) then
        .event (.sampleWrite g sid) { s with cur := none }
      else if s.stopDue c then .event (.stopAtSite g sid) { s with cur := none }
      else
        let s := (if c.sp.stop == .running && c.sp.hold == .none then s.bpCount c else s).spendYields c
        match decodeAt c.sp.clause c.sp.word with
        | .ok (i, _) => .issue i { s with cur := some (g, sid) }
        | .error _ =>
          .stay (({ s with cur := none } : State).takeTrap (s.passSite c) (c.allLanes 0x5001 none none) (c.sp.trapWord 0) |>.noteIssue c)
    else .stay { s with cur := none }

/-! ### What the hardware does by itself -/

/-- Every split of every group, as it sees the machine. -/
def State.ctxs (s : State) : List Ctx := s.groups.flatMap (fun g => g.splits.filterMap (fun sp => s.ctx? g.gid sp.id))

/-- A hold that ends, or begins, without the split's own doing (07 R155, R161). -/
def Hold.passing (h : Hold) : Bool := h == .none || h == .flagBusy || h == .flagLimit || h == .memory || h == .rows

/-- 07 R161: a hold that an instruction meets at issue and that keeps its split from being issue-ready. -/
def Hold.blocks (h : Hold) : Bool :=
  h == .flagBusy || h == .flagLimit || h == .memory || h == .scoreboard || h == .entry || h == .sequencer || h == .rows || h == .pipe

/-- What stands where a split's instruction is tried and held: the state with the split held; none where it would issue. -/
def State.tried (s : State) (c : Ctx) : Option State :=
  match decodeAt c.sp.clause c.sp.word with
  | .ok (i, _) =>
    (match exec i { s with cur := some (c.g.gid, c.sp.id) } with
     | .next t =>
       match (t.group? c.g.gid).bind (fun g => g.split? c.sp.id) with
       | some sp => if sp.pc == c.sp.pc && sp.word == c.sp.word && sp.hold.blocks then some { t with cur := s.cur } else none
       | none => none
     | _ => none)
  | .error _ => none

/-- 07 R161: whether what holds a split at its word still does, and whether anything does: it is tried, unless a stop or a sample
comes first. -/
def State.retry (s : State) (gid sid : Nat) : State :=
  match s.ctx? gid sid with
  | none => s
  | some c =>
    if c.atWord && c.sp.hold.passing && !s.stopDue c && !s.samples.any (fun x => x.gid == gid && x.sid == sid) then
      match s.tried c with
      | some t => t
      | none => if c.sp.hold == .none then s else s.modSplit gid sid (fun sp => { sp with hold := .none })
    else s

/-- 07 R161: the holds of every split, as they stand. -/
def State.refreshHolds (s : State) : State :=
  (s.ctxs.map (fun c => (c.g.gid, c.sp.id))).foldl (fun s k => s.retry k.1 k.2) s

/-- 07 R159, R160: the issue-ready splits in the order of choice. -/
def State.issuers (s : State) : List Ctx := sortBy s.issueRank (s.ctxs.filter (fun c => c.issueReady && !s.capHolds c))

/-- 07 R159: the split that each scheduler chooses. -/
def firstOfSched (l : List Ctx) (seen : List (Nat × Nat)) : List Ctx :=
  match l with
  | [] => []
  | c :: rest =>
    if seen.contains (c.w.phys, c.g.sched) then firstOfSched rest seen
    else c :: firstOfSched rest ((c.w.phys, c.g.sched) :: seen)

/-- The splits that may issue now. -/
def State.issueMoves (s : State) : List Move :=
  (firstOfSched s.issuers []).map (fun c => s.issueOf c.g.gid c.sp.id)

/-- What a split's fetch, starts and waits may do next (chapters 06, 07, 13, 14, 16, 23). -/
def splitMoves (c : Ctx) : List Instr :=
  let g := c.g.gid
  let n := c.sp.id
  if c.sp.stop == .boundary && c.sp.word == 0 then [.stopAtSite g n]
  else
    (if c.sp.stop == .asked && c.sp.word == 0 then [.stopAtSite g n] else []) ++
    (if c.fetches && !c.sp.atRpc then [.clauseFetch g n] else []) ++
    (if c.runnable && (c.sp.atRpc || (!c.sp.clause.isEmpty && (c.sp.word == 0 || c.sp.skipRpc))) then [.clauseStart g n] else []) ++
    (if c.sp.waiting then [.waitRetestStart g n] else []) ++
    (if c.sp.state == .waitingEvent || c.sp.hold == .event then [.eventWake g n] else []) ++
    (match c.sp.hold with
     | .bwait => [.bwaitPass g n]
     | .tlwait => [.tlwaitPass g n]
     | .scoreboard => [.scoreboardAdmit g n]
     | .entry => [.scoreboardEntryGrant g n]
     | .sequencer => [.matrixQueueGrant g n]
     | _ => [])

/-- What a group may do next. -/
def groupMoves (g : Group) : List Instr :=
  (g.ops.filter PendingOp.ready).map (fun o => .flagCountedCompletion g.gid o.id) ++
    (if g.splits.any (fun x => x.spilled) then [.spillConditionTest g.gid, .spillRotation g.gid] else []) ++
    (if g.splits.isEmpty && !g.ended then [.groupEnd g.gid] else [])

/-- 13 R282: elements that may land next: the first not yet landed, or any other (log entry 27). -/
def landingsOf (free : Nat) (o : EngineOp) : List (List Nat) :=
  let n := productOf o.dims
  let i := Config.freeNat free % max n 1
  (((List.range n).find? (fun k => !o.landed.contains k)).map (fun k => [k])).toList ++
    (if i < n && !o.landed.contains i then [[i]] else [])

/-- What an engine operation may do next (chapters 13, 14). -/
def opMoves (free : Nat) (o : EngineOp) : List Instr :=
  if o.fault.isSome then [.engineOpFault o.id]
  else
    match o.kind with
    | .stream | .sgath => .engineOpComplete o.id :: (landingsOf free o).map (fun l => .streamLanding o.id l)
    | .sdec => [.engineOpComplete o.id, .sdecDecode o.id 1]
    | .mloop | .mstep => [.engineOpComplete o.id]
    | .azero => [.tileAzeroEffect o.id]
    | .aswap => [.tileAswapEffect o.id]
    | .aread => [.tileAreadEffect o.id]
    | .astore => [.tileAstoreEffect o.id]

/-- What the engines of a core may do next. -/
def coreMoves (free k : Nat) (c : Core) : List Instr :=
  c.ops.flatMap (opMoves free) ++ (if c.ops.isEmpty then [] else [.matrixStep k]) ++
    (match c.pipe with
     | (g, op) :: _ => [.transformReply g op]
     | [] => []) ++ [.transformPipeAccept k]

/-- 05 R103: the carve-out offset that the hardware fixes: the lowest free one (log entry 57). -/
def Partition.freeCarve (p : Partition) (n : Nat) : Option Nat :=
  (List.range 1024).map (· * 0x10000) |>.find? (fun off => off + n ≤ 2 ^ 26 &&
    p.carves.all (fun c => c.2.1 + c.2.2 ≤ off || off + n ≤ c.2.1))

/-- What Confluence may do next for a launch (chapters 04, 05, 22, 24). -/
def State.launchMoves (s : State) (p : Partition) (l : Launch) : List Instr :=
  let t := l.ticket
  [.launchReady p.num t, .placementBegin p.num t, .launchComplete p.num t, .launchFail p.num t] ++
    (if l.state == 2 && l.firnLen != 0 && l.carve.isNone then
       (p.freeCarve l.firnLen).toList.map (fun off => .carveoutOffsetFix p.num t off) else []) ++
    (if l.state == 3 && l.wantsPlace then (s.findPlaces p l).toList.map (fun xs => .workgroupPlace p.num t xs) else [])

/-- What the hardware may do next for a partition (21 R402, 23 R438). -/
def State.partMoves (s : State) (p : Partition) : List Instr :=
  p.launches.flatMap (s.launchMoves p) ++
    (if p.held.isEmpty && p.unsignalled = 0 then [] else [.irqMessageDeliver p.num]) ++
    (if p.ckptBusy || (p.obs.ckt != 0 && p.ckptNext = 0 && s.wgs.any (fun w => w.part == p.num)) then [.checkpoint p.num] else []) ++
    (p.ckpts.flatMap (fun k => (k.pending.head?).toList.map (fun r => .checkpointRegionCopy p.num r.1)))

/-- What Confluence may do next for a physical cluster (05 R105 to R110; chapter 22). -/
def State.clusterMoves (s : State) (k : Nat) : List Instr :=
  let d := k / 7
  let c := k % 7
  let x := s.share k
  (match x.resident with
   | some _ =>
     if x.preempt then [.contextSave d c]
     else .preemption d c :: (if (s.waiters k).isEmpty then [] else [.quantumExpiry d c])
   | none =>
     (if x.retiring then [.preemption d c] else []) ++
       (s.turnAt k).toList.map (fun p => .contextRestore d c p [] false))

/-- What the rest of the package may do next (chapters 21, 22, 23, 24). -/
def State.otherMoves (s : State) : List Instr :=
  (if s.halts.isEmpty then [] else [.dumpWrite]) ++
    s.heldPkts.map (fun p => .orderedPacketRelease p.source p.part p.path p.seq) ++
    (s.paths.filter (fun p => p.state != .up)).map (fun p => .pathRestore p.dest p.path) ++
    (if s.snap.active then (List.range 4).map Instr.snapshotLatch else []) ++
    s.samples.map (fun x => .sampleWrite x.gid x.sid) ++
    (if s.mailbox.busy then s.mailbox.command.toList else [])

/-- Every event that the hardware may raise by itself. -/
def State.events (s : State) : List Instr :=
  s.ctxs.flatMap splitMoves ++ s.groups.flatMap groupMoves ++ s.cores.flatMap (fun kc => coreMoves s.free kc.1 kc.2) ++
    s.wgs.map (fun w => .workgroupRetire w.key) ++ s.parts.flatMap s.partMoves ++
    (List.range 28).flatMap s.clusterMoves ++ s.otherMoves

/-- An event that would change something. -/
def State.wouldMove (s : State) (i : Instr) : Bool :=
  match exec i s with
  | .next t => t != s
  | _ => true

/-- Log entry 2: one of several moves, the choice open. -/
def pickMove (free : Nat) (s : State) (l : List Move) : Move :=
  match l with
  | [] => .stay s
  | [m] => m
  | m :: rest => (m :: rest).getD (Config.freeNat free % (rest.length + 1)) m

/-- The next move where nothing is listed: a halt that has been raised is broadcast first (22 R415); else, the splits' holds being
as they stand, one of the moves that are open. -/
def State.selfMove (s : State) : Move :=
  if s.halts.any (fun h => h.stage == .raised) then .event .faultDomainHalt s
  else
    let s := s.refreshHolds
    let es := s.events
    pickMove s.free s (s.issueMoves ++ (es.filter s.wouldMove).map (fun i => .event i s))

/-- The next move. -/
def State.choose (s : State) : Move :=
  match s.cur, s.agenda with
  | some (g, sid), _ => s.issueOf g sid
  | none, i :: rest => .event i { s with agenda := rest }
  | none, [] => s.selfMove

/-- Time passes on every die (08 R185; log entry 4). -/
def State.tick (s : State) : State :=
  let n := Config.stepCycles s.free
  { s with free := s.free + 1, dies := s.dies.map (fun d => { d with cycle := (d.cycle + n) % 2 ^ 64 }) }

end Sys2Proof.Machine
end

