-- ==== Sys2Proof/Machine/Step.lean ====
section
/-!
DEFINITION. One step of the machine, and the placing of one instruction where the next step runs it.
-/
namespace Sys2Proof.Machine

/-- One step: the agent that moves next moves, and time passes. -/
def step (s : State) : Host.Outcome State Fault Refusal :=
  match s.choose with
  | .issue i s' =>
    match exec i s' with
    | .next t => .next ({ t with cur := none } : State).tick
    | .fault r => .fault r
    | .refused r => .refused r
  | .event i s' =>
    match exec i s' with
    | .next t => .next t.tick
    | .fault r => .fault r
    | .refused r => .refused r
  | .stay s' => .next s'.tick

/-- `s` with an instruction placed where the next step fetches it: at the first word of a clause of a group placed for it,
whose split is the one chosen to issue. -/
def State.withFetchWord (s : State) (nbits w : Nat) : State :=
  s.placeProbe (BitVec.ofNat 64 (w % 2 ^ nbits)) (BitVec.ofNat 64 (w % 2 ^ nbits / 2 ^ 64))

end Sys2Proof.Machine
end

