-- ==== Sys2Proof/Safety.lean ====
section
/-!
DEFINITION. The terms in which claims speak: the canonical form of the state, what a split that issues sees, what an
instruction that has passed leaves alone, registers and memory as they read.
-/
namespace Sys2Proof.Machine

/-! ### What every step keeps -/

/-- Memory is in its canonical form. -/
def State.memWf (s : State) : Prop := Memory.wf s.mem = true

/-- 01 R9: the package has four dies, each of seven clusters. -/
def State.wholePackage (s : State) : Prop := s.dies.length = 4 ∧ ∀ d ∈ s.dies, d.clusters.length = 7

/-- 08 R185: CYCLE of every die is a 64-bit number. -/
def State.cyclesFit (s : State) : Prop := ∀ d ∈ s.dies, d.cycle < 2 ^ 64

/-- The invariant of the machine. -/
def State.Inv (s : State) : Prop := s.memWf ∧ s.wholePackage ∧ s.cyclesFit

/-! ### Registers as they read -/

/-- `v`r of a group in a lane. -/
def Group.vReg (g : Group) (r l : Nat) : Word := assocGet 0 (r * 64 + l) g.v
/-- `s`n of a group, by physical number. -/
def Group.sReg (g : Group) (n : Nat) : Word := assocGet 0 n g.s
/-- `p`n of a group. -/
def Group.pReg (g : Group) (n : Nat) : PtrBits := assocGet nullPtr n g.p
/-- The counter of `f`k of a group. -/
def Group.flag (g : Group) (k : Nat) : Nat := assocGet 0 k g.flags

/-! ### Issue -/

/-- A split that `cur` names may issue, and `c` is what it sees. -/
def State.sees (s : State) (c : Ctx) : Prop :=
  ∃ g sid c0, s.cur = some (g, sid) ∧ s.ctx? g sid = some c0 ∧ c0.atWord = true ∧ c = s.passSite c0

/-- The split that issues passes the checks of the encoding, has a lane in Active(S), and no flag holds it. -/
def State.issues (s : State) (o : Op) (x : Args) (c : Ctx) : Prop :=
  s.sees c ∧ c.encodingFault o x = none ∧ c.active x ≠ [] ∧ c.flagHold o x = none

/-- Nothing of the machine differs but one group. -/
def State.sameBut (s t : State) (gid : Nat) : Prop :=
  t = { s with groups := t.groups } ∧ t.groups.map (·.gid) = s.groups.map (·.gid) ∧ ∀ k, k ≠ gid → t.group? k = s.group? k

/-- 06 R111: the issuing split has moved past the instruction, and no other split of its group has changed. -/
def Group.passed (g : Group) (c : Ctx) (x : Args) : Prop :=
  (∀ k, k ≠ c.sp.id → g.split? k = c.g.split? k) ∧
  ∃ sp, g.split? c.sp.id = some sp ∧
    sp = { c.sp.advance (nextWord c.sp x) with
             site := sp.site, stop := sp.stop, hold := .none, issuedAt := sp.issuedAt, starved := none, yielded := sp.yielded,
             awaitAcks := [], waitOn := none }

/-- 06 R115, R116: a split as it was, or without the clause that it had fetched and not started. -/
def Split.discarded (sp sp' : Split) : Prop := sp' = sp ∨ (sp.started = false ∧ sp' = { sp with clause := [] })

/-- The instruction has passed, and has changed nothing but registers of its group (with what outstanding instructions
may still write there, 06 R129), FMODE and FSTAT. -/
structure State.Wrote (s t : State) (c : Ctx) (x : Args) (g : Group) : Prop where
  outside : s.sameBut t c.g.gid
  group : t.group? c.g.gid = some g
  passed : g.passed c x
  inside : g = { c.g with v := g.v, vtags := g.vtags, s := g.s, p := g.p, ops := g.ops, fmode0 := g.fmode0, fmode1 := g.fmode1,
                          fstat0 := g.fstat0, fstat1 := g.fstat1, splits := g.splits, lastSid := c.sp.id, yielded := g.yielded }

/-- Beside that: FMODE and FSTAT stand. -/
def Group.sameModes (g h : Group) : Prop :=
  h.fmode0 = g.fmode0 ∧ h.fmode1 = g.fmode1 ∧ h.fstat0 = g.fstat0 ∧ h.fstat1 = g.fstat1

/-- 06 R111: the instruction has passed: the split that issued it stands past it, and its group notes the issue. -/
def State.finish (u : State) (c : Ctx) (x : Args) : State := (u.advance c x).noteIssue c

/-- 22 R406: lanes of the split have taken a trap at the instruction; what it did for the others stands. -/
def State.trapped (u : State) (c : Ctx) (x : Args) (ts : List LaneTrap) (aux : Byte) : State :=
  (u.takeTrap c ts (c.sp.trapWord aux)).finish c x

/-- A control instruction has acted on the splits of its group, and has changed nothing else but an `s` register that it
writes and the count of events. -/
structure State.Steered (s t : State) (c : Ctx) (g : Group) : Prop where
  outside : t = { s with groups := t.groups, serial := t.serial }
  others : t.groups.map (·.gid) = s.groups.map (·.gid) ∧ ∀ k, k ≠ c.g.gid → t.group? k = s.group? k
  group : t.group? c.g.gid = some g
  inside : g = { c.g with s := g.s, ops := g.ops, splits := g.splits, frames := g.frames, lastSid := g.lastSid, yielded := g.yielded }

/-- 07 R152: no split of the group is in a spill record. -/
def Group.unspilled (g : Group) : Prop := ∀ sp ∈ g.splits, sp.spilled = false

/-- 08 R172, R173: the branches, each with its target, its reconvergence offset, and whether it leaves the return offset in
`s`D. -/
def branchBlock : List (Op × (Ctx → Args → Word) × (Ctx → Args → Word) × Bool) :=
  [(.bra, fun _ x => tgtOf x, fun _ x => rwOf x, false), (.brd, fun _ x => tgtOf x, fun _ x => rwOf x, false),
   (.bri, fun c x => c.s x.a.toNat, fun _ x => rwOf x, false), (.call, fun _ x => tgtOf x, fun c _ => c.sp.nextPc, true),
   (.calli, fun c x => c.s x.a.toNat, fun c _ => c.sp.nextPc, true), (.ret, fun c x => c.s x.a.toNat, fun c _ => c.sp.rpc, false)]

/-! ### Register writes -/

/-- 09 R190, 02 R32: in each lane listed, `v`d, or the pair from it, has taken a value, and the quads written are no valid
pointers there; every other register and lane is as it was. -/
def Group.wroteLanes (g h : Group) (act : List Nat) (wide : Bool) (d : Nat) (val : Nat → Nat) : Prop :=
  (∀ r l, l < 64 → h.vReg r l =
    if l ∈ act ∧ r = d then loWord (val l) else if l ∈ act ∧ wide = true ∧ r = d + 1 then hiWord (val l) else g.vReg r l) ∧
  (∀ q l, l < 64 → (q * 64 + l ∈ h.vtags ↔
    q * 64 + l ∈ g.vtags ∧ ¬(l ∈ act ∧ (q = d / 4 ∨ wide = true ∧ q = (d + 1) / 4))))

/-- 09 R191: one `s` register, or the pair from it, has taken a value; every other is as it was. -/
def Group.wroteScalar (g h : Group) (i : Nat) (wide : Bool) (n : Nat) : Prop :=
  ∀ k, h.sReg k = if k = i then loWord n else if wide = true ∧ k = i + 1 then hiWord n else g.sReg k

/-- One `p` register has taken a value; every other is as it was. -/
def Group.wrotePointer (g h : Group) (d : Nat) (q : PtrBits) : Prop :=
  ∀ k, h.pReg k = if k = d then q else g.pReg k

/-- 06 R129: what outstanding instructions may still write stands but for the destinations written. -/
def Ctx.outstanding (c : Ctx) (ks : List Nat) : List PendingOp := (c.g.dropPending c.free ks).ops

/-! ### Instructions that memory serves (chapters 10, 16) -/

/-- A group but for its lanes' reservations, which a write by any agent may cancel (10 R244), and its record of the lines that its
core's L1 holds and has lost, which any fill of that L1 may change (07 R162). -/
def Group.bare (g : Group) : Group := { g with resv := [], touched := [], victims := [] }

/-- The instruction has passed, memory serving it: of the groups nothing differs but reservations and the record of
L1 lines, and in the group that issued it what its registers, counters, outstanding instructions and score are. -/
structure State.Served (s t : State) (c : Ctx) (x : Args) (g : Group) : Prop where
  workgroups : t.wgs = s.wgs
  others : t.groups.map (·.gid) = s.groups.map (·.gid) ∧
    ∀ k, k ≠ c.g.gid → (t.group? k).map Group.bare = (s.group? k).map Group.bare
  group : t.group? c.g.gid = some g
  passed : g.passed c x
  inside : g = { c.g with v := g.v, vtags := g.vtags, s := g.s, p := g.p, flags := g.flags, ops := g.ops, fstat0 := g.fstat0,
                          fstat1 := g.fstat1, resv := g.resv, touched := g.touched, victims := g.victims, score := g.score, splits := g.splits,
                          lastSid := c.sp.id, yielded := false }

/-- 13 R275, 14 R315: the instruction has passed, and the last operation of its core's engines is its own; of the groups nothing
differs but what its own registers, counters and outstanding instructions are. -/
structure State.Queued (s t : State) (c : Ctx) (x : Args) (g : Group) (o : EngineOp) : Prop where
  ops : (t.core c.w.phys).ops = (s.core c.w.phys).ops ++ [o]
  issuer : o.gid = c.g.gid ∧ o.wgKey = c.w.key ∧ o.half = c.sp.half ∧ o.fmode = c.fmode
  others : t.groups.map (·.gid) = s.groups.map (·.gid) ∧ ∀ k, k ≠ c.g.gid → t.group? k = s.group? k
  group : t.group? c.g.gid = some g
  passed : g.passed c x
  inside : g = { c.g with s := g.s, flags := g.flags, ops := g.ops, splits := g.splits, lastSid := c.sp.id, yielded := false }

/-- The registers of a group stand. -/
def Group.sameRegs (g h : Group) : Prop := h.v = g.v ∧ h.vtags = g.vtags ∧ h.s = g.s ∧ h.p = g.p

/-- 06 R120: one flag counter has risen by one, and every other stands. -/
def Group.counted (g h : Group) (k : Nat) : Prop := ∀ j, h.flag j = if j = k then g.flag j + 1 else g.flag j

/-- Every byte of the access lies in a scratchpad or a carve-out. -/
def LaneAcc.inBank (a : LaneAcc) : Prop := ∀ p ∈ a.places, ∃ k, p = .fixed k

/-- Every byte of the access is reached through the core's L1 (10 R238), at a page whose accesses are not counted. -/
def LaneAcc.inL1 (a : LaneAcc) : Prop := ∀ p ∈ a.places, ∃ pa va, p = .home pa va false false ∧ a.q.way false = .l1

/-- 01 R12: a core's L1 has room for lines beside those that it holds. -/
def Core.roomy (c : Core) (lines : List Nat) : Prop := (uniq (c.linesHeld ++ lines)).length ≤ l1Lines

/-- 10 R239: no lane of the access releases or acquires: none is SYNC beyond CORE. -/
def unsynced (l : List LaneAcc) : Prop := (widestSync l).getD 0 = 0

/-- 10 R231, R232: the elements of LD or ST, each with its lane's access, its number and its place there. -/
def Ctx.elements (c : Ctx) (x : Args) (l : List LaneAcc) : List (LaneAcc × Nat × Span) :=
  l.flatMap (fun a => ((List.range (countOf (x.mod.toNat % 4))).zip
    (spansOf a.q.fmt x.c.toNat (c.offset x a.lane) (countOf (x.mod.toNat % 4)))).map (fun k => (a, k.1, k.2)))

/-- 10 R233: what an element of a load gives its register, with its flags. -/
def State.loaded (s : State) (c : Ctx) (x : Args) (e : LaneAcc × Nat × Span) : Flagged :=
  loadValue c.fmode e.1.q.fmt x.c.toNat ((s.spanRead c e.1 e.2.2).getD 0)

/-- 10 R233: what an element of a store writes, and its flags. -/
def Ctx.stored (c : Ctx) (x : Args) (e : LaneAcc × Nat × Span) : StoreElem × FlagBits :=
  let v := storeValue c.fmode e.1.q.fmt x.c.toNat
    (c.vw (fmtWide x.c.toNat) (x.d.toNat + e.2.1 * regsOf x.c.toNat) e.1.lane)
  ({ a := e.1, sp := e.2.2, val := v.1 }, v.2)

/-- The number in n bytes from a key up, of memory read by a function. -/
def numIn (m : Nat → Byte) (k n : Nat) : Nat := natOfBytes ((List.range n).map (fun i => m (k + i)))

/-- Memory, read by a function, after a write of bytes. -/
def writeIn (m : Nat → Byte) (ws : List (Nat × Byte)) : Nat → Byte :=
  ws.foldl (fun m w k => if k = w.1 then w.2 else m k) m

/-- 10 R232, R236: memory after an element's store: its bytes, or its nibble of a byte. -/
def StoreElem.writeIn (m : Nat → Byte) (e : StoreElem) : Nat → Byte :=
  if e.sp.nib < 2 then
    match (e.a.places.drop e.sp.first).head? with
    | some p => Machine.writeIn m [(p.key, setNibble (m p.key) (e.sp.nib == 1) e.val)]
    | none => m
  else Machine.writeIn m (e.writes.map (fun w => (w.1.key, w.2)))

/-- 16 R357: memory after an atomic of each lane in turn, with the lanes' old values. -/
def atomIn (op fmt : Nat) (operand compare : Nat → Nat) (m : Nat → Byte) (l : List LaneAcc) : (Nat → Byte) × List (Nat × Nat) :=
  l.foldl (fun acc a =>
    let ks := a.places.map Place.key
    let z := ks.length
    let old := natOfBytes (ks.map acc.1)
    let new := if op = 9 then (if old = compare a.lane then operand a.lane else old) else atomNew op z fmt old (operand a.lane)
    (writeIn acc.1 (ks.zip (bytesOfNat z new)), acc.2 ++ [(a.lane, old)])) (m, [])

/-! ### The integer blocks (09 R196 to R200) -/

/-- 09 R197, R199: the scalar rows, each with its operation, whether B stays one register at the 64-bit types, and whether
the result does; SMOVI apart. -/
def scalarBlock : List (Op × (Args → IntFn) × Bool × Bool) :=
  [(.sadd, fun _ => .add, false, false), (.ssub, fun _ => .sub, false, false), (.smul, fun _ => .mul, false, false),
   (.smulh, fun _ => .mulh, false, false), (.sand, fun _ => .and, false, false), (.sor, fun _ => .or, false, false),
   (.sxor, fun _ => .xor, false, false), (.sshl, fun _ => .shl, true, false), (.sshr, fun _ => .shr, true, false),
   (.ssra, fun _ => .sra, true, false), (.smin, fun _ => .min, false, false), (.smax, fun _ => .max, false, false),
   (.ssel, fun _ => .sel, false, false), (.smov, fun _ => .mov, false, false), (.sbfe, fun _ => .bfe, true, false),
   (.sbfi, fun _ => .bfi, true, false), (.spopc, fun _ => .popc, false, true), (.sclz, fun _ => .clz, false, true),
   (.scmp, fun x => .cmp (x.mod.toNat % 8), false, true)]

/-- 09 R197, R200: the vector rows, likewise; VDOT4 apart. -/
def vectorBlock : List (Op × (Args → IntFn) × Bool × Bool) :=
  [(.vadd, fun _ => .add, false, false), (.vsub, fun _ => .sub, false, false), (.vmul, fun _ => .mul, false, false),
   (.vmulh, fun _ => .mulh, false, false), (.vmad, fun _ => .mad, false, false),
   (.vand, fun _ => .and, false, false), (.vor, fun _ => .or, false, false), (.vxor, fun _ => .xor, false, false),
   (.vshl, fun _ => .shl, true, false), (.vshr, fun _ => .shr, true, false), (.vsra, fun _ => .sra, true, false),
   (.vmin, fun _ => .min, false, false), (.vmax, fun _ => .max, false, false), (.vabs, fun _ => .abs, false, false),
   (.vsel, fun _ => .sel, false, false), (.vmov, fun _ => .mov, false, false), (.vbfe, fun _ => .bfe, true, false),
   (.vbfi, fun _ => .bfi, true, false), (.vpopc, fun _ => .popc, false, true), (.vclz, fun _ => .clz, false, true),
   (.vcmp, fun x => .cmp x.c.toNat, false, true)]

/-! ### The floating-point and lane blocks (09 R202 to R220) -/

/-- 09 R203 to R208: the floating-point rows, each with its function on the patterns of one element: of FMODE.FTZ, the
format, the rounding mode, and the condition of FCMP. -/
def floatBlock : List (Op × (Nat → Bool → Nat → RMode → Nat → Nat → Nat → Flagged)) :=
  [(.fadd, fun _ ftz f m a b _ => addElem ftz f m (inFmt ftz f a) (inFmt ftz f b)),
   (.fsub, fun _ ftz f m a b _ => addElem ftz f m (inFmt ftz f a) (inFmt ftz f b).negate),
   (.fmul, fun _ ftz f m a b _ => mulElem ftz f m (inFmt ftz f a) (inFmt ftz f b)),
   (.ffma, fun _ ftz f m a b c => fmaElem ftz f m (inFmt ftz f a) (inFmt ftz f b) (inFmt ftz f c)),
   (.fmin, fun _ ftz f _ a b _ => minMaxElem false ftz f a b), (.fmax, fun _ ftz f _ a b _ => minMaxElem true ftz f a b),
   (.fcmp, fun cc ftz f _ a b _ => fcmpElem cc (fmtWidth f) (inFmt ftz f a) (inFmt ftz f b)),
   (.fclass, fun _ ftz f _ a _ _ => (2 ^ classBit f (inFmt ftz f a), 0)),
   (.frcp, fun _ ftz f m a _ _ => fn1Elem .rcp ftz f m (inFmt ftz f a)),
   (.frsq, fun _ ftz f m a _ _ => fn1Elem .rsq ftz f m (inFmt ftz f a)),
   (.fsqrt, fun _ ftz f m a _ _ => fn1Elem .sqrt ftz f m (inFmt ftz f a)),
   (.fexp2, fun _ ftz f m a _ _ => fn1Elem .exp2 ftz f m (inFmt ftz f a)),
   (.flog2, fun _ ftz f m a _ _ => fn1Elem .log2 ftz f m (inFmt ftz f a)),
   (.fsin, fun _ ftz f m a _ _ => fn1Elem .sin ftz f m (inFmt ftz f a)),
   (.fcos, fun _ ftz f m a _ _ => fn1Elem .cos ftz f m (inFmt ftz f a)),
   (.fround, fun _ ftz f m a _ _ => froundElem ftz f m (inFmt ftz f a))]

/-- 03 R54: FSTAT of the issuing half has taken the flags by OR; FMODE and the other half's FSTAT stand. -/
def Group.tookFlags (g h : Group) (half : Bool) (f : FlagBits) : Prop :=
  h.fmode0 = g.fmode0 ∧ h.fmode1 = g.fmode1 ∧
    h.fstat0 = (if half then g.fstat0 else g.fstat0 ||| f.setWidth 32) ∧
    h.fstat1 = (if half then g.fstat1 ||| f.setWidth 32 else g.fstat1)

/-- 06 R120, R129, 03 R57: a flag-counted instruction of a group has completed: its destinations hold what it brings, but for those
written since; its flags are contributed, its counter is one lower, and it is outstanding no more. -/
def Group.finished (g h : Group) (o : PendingOp) : Prop :=
  let es := o.elems.map o.arrive
  (∀ k, assocGet 0 k h.v =
    (lastOf k (o.vWrites ++ (es.flatMap (·.v)).filter (fun kv => !o.lost.contains kv.1))).getD (assocGet 0 k g.v)) ∧
  (∀ k, h.sReg k = (lastOf k o.sWrites).getD (g.sReg k)) ∧
  (∀ k, h.pReg k = (lastOf k (o.pWrites ++ (es.flatMap (·.p)).filter (fun kv => !o.lost.contains (2 ^ 21 + kv.1)))).getD (g.pReg k)) ∧
  g.tookFlags h o.half (o.fstat ||| orFlags (es.map (·.f))) ∧
  (∀ j, h.flag j = if j = o.flag ∧ o.flag < 12 then g.flag j - 1 else g.flag j) ∧
  h.ops = g.ops.filter (fun x => x.id != o.id) ∧ h.splits = g.splits

/-- The lane rows that write `v` registers and no flag, each with its width and the value of a lane (09 R215, R217, R220). -/
def laneBlock : List (Op × (Args → Bool) × (Ctx → Args → Nat → Nat)) :=
  [(.matchLanes, fun _ => true, fun c x l =>
      c.laneMaskOf ((c.active x).filter (fun k => c.vw (laneWide x) x.a.toNat k == c.vw (laneWide x) x.a.toNat l))),
   (.shfl, fun _ => false, fun c x l =>
      (c.v x.a.toNat (match shflSource (x.mod.toNat / 8) (c.laneNo l) (c.fb x l) (if c.w.legacy then 32 else 64) with
        | some n => if (c.active x).contains (c.laneAt n) then c.laneAt n else l
        | none => l)).toNat),
   (.bcast, laneWide, fun c x _ => c.vw (laneWide x) x.a.toNat (c.namedLane x)),
   (.s2v, laneWide, fun c x _ => c.sw (laneWide x) x.a.toNat)]

/-- The instructions that write one `s` register or a pair, once (09 R191), each with its width and value: the lane rows of
09 R216 and R220, PGET (10 R226), PEQ (10 R228), SPLITQ (08 R176). -/
def toScalarBlock : List (Op × (Args → Bool) × (Ctx → Args → Nat)) :=
  [(.ballot, fun _ => true, fun c x =>
      c.laneMaskOf ((c.active x).filter (fun l => (c.v x.a.toNat l).getLsbD x.c.toNat))),
   (.rdlane, laneWide, fun c x => c.vw (laneWide x) x.a.toNat (c.namedLane x)),
   (.v2s, laneWide, fun c x => c.vw (laneWide x) x.a.toNat ((c.active x).headD 0)),
   (.pget, fun _ => false, fun c x => (pgetField (c.p x.a.toNat) (x.mod.toNat % 8)).toNat),
   (.peq, fun _ => false, fun c x =>
      if (if x.mod.toNat % 2 = 1 then (c.ptr x.a.toNat).contains (c.ptr x.b.toNat) else c.p x.a.toNat == c.p x.b.toNat)
      then 0xFFFFFFFF else 0),
   (.splitq, fun _ => false, fun c x => c.splitItem (x.mod.toNat % 8))]

end Sys2Proof.Machine
end

