-- ==== Sys2Proof/Certificates/Slice0/Obligations.lean ====
section
/-!
DEFINITION. What is claimed of the model, rule by rule.  `s.issues o x c` says that a split may issue the instruction `o`
with operands `x`, that its encoding passes 06 R130, that Active(S) is not empty and that no flag holds it; `c` is what it
sees.
-/
open Sys2Proof Sys2Proof.Machine

/-! ### Encoding -/

/-- 06 R122 to R126: the bytes of every legal instruction, whatever bytes follow them, decode to that instruction. -/
def Obligations.EncodedInstructionsDecode : Prop :=
  ∀ (i : Instr) (rest : List Byte), i.opArgs?.isSome = true → i.wf = true →
    decodeBytes (encodeBytes i ++ rest) = .ok (i, rest)

/-- 06 R122, R130: bytes that decode are the encoding of a legal instruction and nothing else: no two words stand for one
instruction. -/
def Obligations.DecodedInstructionsEncode : Prop :=
  ∀ (l rest : List Byte) (i : Instr), decodeBytes l = .ok (i, rest) →
    i.wf = true ∧ l = encodeBytes i ++ rest

/-- 06 R122 to R126: doublewords that the worked programs of the spec print decode to the instructions they print them for: a
STREAM, MSTEP.v, AZERO, TRET, TRAP, MATCH, VPOPC, ATOMN, ST, LD, LRED, CALL and RET. -/
def Obligations.SpecWordsDecode : Prop :=
  ∀ y ∈ ([
      (0xE0000002010E0509, .stream ⟨Guard.always, 4, 2, 28, 10, none, false, 9⟩),
      (0xE2000000100A0C10, .mstepV ⟨Guard.always, 0, 32, 20, 24, none, false, 16⟩),
      (0xE300000000000000, .azero ⟨Guard.always, 0, 0, 0, 0, none, false, 0⟩),
      (0x0680000000000000, .tret ⟨Guard.always, 0, 0, 0, 0, none, false, 0⟩),
      (0x0640700010800000, .trap ⟨⟨true, false, false, 7, 0⟩, 0, 33, 0, 0, none, false, 0⟩),
      (0x8200000605000000, .matchLanes ⟨Guard.always, 12, 10, 0, 0, none, false, 0⟩),
      (0x498000098600000C, .vpopc ⟨Guard.always, 19, 12, 0, 0, none, false, 12⟩),
      (0xC0C1100005058980, .atomn ⟨⟨true, false, false, 0x11, 0⟩, 0, 10, 11, 19, none, false, 0⟩),
      (0xA500000200010302, .st ⟨Guard.always, 4, 0, 2, 6, none, false, 2⟩),
      (0xA480000280810304, .ld ⟨Guard.always, 5, 1, 2, 6, none, false, 4⟩),
      (0x8380000502000800, .lred ⟨Guard.always, 10, 4, 0, 16, none, false, 0⟩),
      (0x0240700500004000, .call ⟨⟨true, false, false, 7, 0⟩, 10, 0, 0, 128, none, false, 0⟩),
      (0x0300000005000000, .ret ⟨Guard.always, 0, 10, 0, 0, none, false, 0⟩)] : List (Nat × Instr)),
    decodeTableWord 64 y.1 = some y.2

/-! ### Steps and issue (06 R120, R130, R131; 07 R155) -/

/-- Where the word at which a chosen split stands decodes, and nothing stops the split there, a step is the instruction's exec,
then time passes; a safe point first counts down the debug registers that match it (23 R431), and what YIELD left for this choice of
the split's scheduler is spent (08 R177). -/
def Obligations.StepRunsDecodedInstruction : Prop :=
  ∀ (s : State) (gid sid n : Nat) (c : Ctx) (i : Instr), s.cur = some (gid, sid) → s.ctx? gid sid = some c →
    c.atWord = true → decodeAt c.sp.clause c.sp.word = .ok (i, n) →
    ((s.siteOf c.w c.sp).isSome = true → s.samples.any (fun x => x.gid == gid && x.sid == sid) = false) →
    s.stopDue c = false →
    step s = match exec i ((if c.sp.stop = .running ∧ c.sp.hold = .none then s.bpCount c else s).spendYields c) with
      | .next t => .next ({ t with cur := none } : State).tick
      | .fault r => .fault r
      | .refused r => .refused r

/-- With no split chosen, a step is the exec of the first event that the agenda lists, then time passes; which agent moves is
the model's choice (log entry 2). -/
def Obligations.StepRunsListedEvent : Prop :=
  ∀ (s : State) (i : Instr) (rest : List Instr), s.cur = none → s.agenda = i :: rest →
    step s = match exec i { s with agenda := rest } with
      | .next t => .next t.tick
      | .fault r => .fault r
      | .refused r => .refused r

/-- 06 R120, R130, R131, 07 R155, 08 R170, 09 R190, R191: before an instruction acts, three checks in turn.  An encoding that faults
in the split's group traps on every lane, whatever its guard; with an empty Active(S) the instruction passes and does nothing else;
a flag-counted instruction whose flag another split waits on, or whose counter would pass 63, is held at issue.  (YIELD has no
operand that could fault and takes no guard.) -/
def Obligations.IssueChecks : Prop :=
  (∀ (o : Op) (s : State) (c : Ctx) (x : Args) (code : Nat), o ≠ .yield → s.sees c → c.encodingFault o x = some code →
      exec (o.instr x) s = .next (s.trapped c x (c.allLanes code none none) 0) ∧
        (code = 0x5001 ∨ code = 0x5003)) ∧
  (∀ (o : Op) (s : State) (c : Ctx) (x : Args), o ≠ .yield → s.sees c → c.encodingFault o x = none → c.active x = [] →
      exec (o.instr x) s = .next (s.finish c x)) ∧
  (∀ (o : Op) (s : State) (c : Ctx) (x : Args), s.sees c → c.encodingFault o x = none → c.active x ≠ [] → o.flagCounted = true →
      let k := c.flag x
      (c.g.flagAwaited c.sp.id k = true →
        exec (o.instr x) s = .next (s.modSplit c.g.gid c.sp.id (fun sp => { sp with hold := .flagBusy }))) ∧
      (c.g.flagAwaited c.sp.id k = false → 63 ≤ c.g.flag k →
        exec (o.instr x) s = .next (s.modSplit c.g.gid c.sp.id (fun sp => { sp with hold := .flagLimit }))))

/-! ### Invariants -/

/-- 01 R9, R10, 08 R185, 25 R474, R477: the machine after reset meets the invariant: memory in its canonical form, four dies of
seven clusters, cycle counters of 64 bits; and nothing has been created and nothing runs: no partition, workgroup, group or packet,
an idle mailbox, no record, no byte written, no tag, no split chosen and no event listed.  What a byte nothing has written reads as is
the model's choice (log entry 8). -/
def Obligations.ResetMeetsInvariant : Prop :=
  let s := State.reset
  s.Inv ∧ s.parts = [] ∧ s.wgs = [] ∧ s.groups = [] ∧ s.cores = [] ∧ s.halts = [] ∧ s.sent = [] ∧ s.records = [] ∧
    s.mailbox.busy = false ∧ s.mem = [] ∧ s.tags = [] ∧ s.poison = [] ∧ s.cur = none ∧ s.agenda = [] ∧
    (∀ k, s.byte k = resetByte) ∧ ∀ d < 4, (s.die d).cycle = 0 ∧ (s.die d).nodes = []

/-- 01 R9, 08 R185: every step keeps the invariant: memory stays in its canonical form, no die or cluster comes or goes, and
every cycle counter stays a 64-bit number. -/
def Obligations.StepKeepsInvariant : Prop :=
  ∀ s t : State, s.Inv → step s = .next t → t.Inv

/-! ### The integer blocks -/

/-- 09 R191, R197 to R199: the scalar instructions write the operation of their sources, as their type reads them, to
their `s` destination, one register or a pair, and change nothing else. -/
def Obligations.ScalarIntegerResults : Prop :=
  (∀ row ∈ scalarBlock, ∀ (s : State) (c : Ctx) (x : Args), s.issues row.1 x c →
    ∃ t g, exec (row.1.instr x) s = .next t ∧ s.Wrote t c x g ∧
      c.g.wroteScalar g (c.sIndex x.d.toNat) (sWide x.mod.toNat && !row.2.2.2) (scalarValue (row.2.1 x) row.2.2.1 c x) ∧
      g.v = c.g.v ∧ g.vtags = c.g.vtags ∧ g.p = c.g.p ∧ c.g.sameModes g ∧ g.yielded = false) ∧
  ∀ (s : State) (c : Ctx) (x : Args) (imm : DWord), x.long = some imm → s.issues .smovi x c →
    ∃ t g, exec (.smovi x) s = .next t ∧ s.Wrote t c x g ∧
      c.g.wroteScalar g (c.sIndex x.d.toNat) (sWide x.mod.toNat) imm.toNat ∧
      g.v = c.g.v ∧ g.vtags = c.g.vtags ∧ g.p = c.g.p ∧ c.g.sameModes g ∧ g.yielded = false

/-- 09 R190, R197, R198, R200, R201: the vector integer instructions write, in each lane of Active(S) and in no other, the
operation of that lane's sources, to one `v` register or a pair, and change nothing else. -/
def Obligations.VectorIntegerResults : Prop :=
  (∀ row ∈ vectorBlock, ∀ (s : State) (c : Ctx) (x : Args), s.issues row.1 x c →
    ∃ t g, exec (row.1.instr x) s = .next t ∧ s.Wrote t c x g ∧
      c.g.wroteLanes g (c.active x) (vWide x.mod.toNat && !row.2.2.2) x.d.toNat (vectorValue (row.2.1 x) row.2.2.1 c x) ∧
      g.s = c.g.s ∧ g.p = c.g.p ∧ c.g.sameModes g ∧ g.yielded = false) ∧
  ∀ (s : State) (c : Ctx) (x : Args), s.issues .vdot4 x c →
    ∃ t g, exec (.vdot4 x) s = .next t ∧ s.Wrote t c x g ∧
      c.g.wroteLanes g (c.active x) false x.d.toNat (fun l =>
        dot4 (vecSat x) (vecSigned x) (c.v x.a.toNat l).toNat
          ((immOf x).getD (if vecUs x then (c.s x.b.toNat).toNat else (c.v x.b.toNat l).toNat)) (c.v x.c.toNat l).toNat) ∧
      g.s = c.g.s ∧ g.p = c.g.p ∧ c.g.sameModes g ∧ g.yielded = false

/-- 09 R203 to R208, 03 R54: the floating-point instructions write, in each lane of Active(S) and in no other, their function of
each element of that lane's sources, contribute the flags of those lanes to FSTAT, and change nothing else. -/
def Obligations.FloatingPointResults : Prop :=
  ∀ row ∈ floatBlock, ∀ (s : State) (c : Ctx) (x : Args), s.issues row.1 x c →
    let f := floatLane c x (row.2 x.c.toNat (ftzOf c.fmode) (floatFmt x) (c.rounding x))
    ∃ t g, exec (row.1.instr x) s = .next t ∧ s.Wrote t c x g ∧
      c.g.wroteLanes g (c.active x) false x.d.toNat (fun l => (f l).1) ∧
      c.g.tookFlags g c.sp.half (orFlags ((c.active x).map (fun l => (f l).2))) ∧
      g.s = c.g.s ∧ g.p = c.g.p ∧ g.yielded = false

/-- 09 R209 to R212: CVT converts the element that MOD names; CVTPK puts two converted values side by side and keeps the other
bits; SCALEX multiplies by a block scale.  Each contributes the flags of its lanes, and changes nothing else. -/
def Obligations.ConversionResults : Prop :=
  ∀ (s : State) (c : Ctx) (x : Args),
    let done := fun (i : Instr) (wide : Bool) (f : Nat → Flagged) (e : Nat → Nat) =>
      ∃ t g, exec i s = .next t ∧ s.Wrote t c x g ∧ c.g.wroteLanes g (c.active x) wide x.d.toNat (fun l => e (f l).1) ∧
        c.g.tookFlags g c.sp.half (orFlags ((c.active x).map (fun l => (f l).2))) ∧ g.s = c.g.s ∧ g.p = c.g.p ∧
        g.yielded = false
    let ftz := ftzOf c.fmode
    (s.issues .cvt x c → done (.cvt x) (fmtWide x.b.toNat) (fun l =>
      convertFmt ftz (c.rounding x) x.b.toNat x.c.toNat
        (elemAt (fmtWidth x.c.toNat) (x.mod.toNat / 8) (c.vw (fmtWide x.c.toNat) x.a.toNat l))) (extendElem x.b.toNat)) ∧
    (s.issues .cvtpk x c → done (.cvtpk x) false (fun l =>
      let lo := convertFmt ftz (c.rounding x) x.c.toNat 0x10 (c.v x.a.toNat l).toNat
      let hi := convertFmt ftz (c.rounding x) x.c.toNat 0x10 (c.v x.b.toNat l).toNat
      (insertPair (fmtWidth x.c.toNat) (x.mod.toNat / 8) (c.v x.d.toNat l).toNat lo.1 hi.1, lo.2 ||| hi.2)) id) ∧
    (s.issues .scalex x c → done (.scalex x) false (fun l =>
      let k := scaleOfWord (c.v x.b.toNat l).toNat (x.mod.toNat / 8)
      if k.isNan then (0x7FC00000, flagNV)
      else mulElem ftz 0x10 (c.rounding x) (inFmt ftz 0x10 (c.v x.a.toNat l).toNat) k) id)

/-- 09 R215, R217, R220: MATCH, SHFL, BCAST and S2V write each lane of Active(S), from values read before any is written, and
change nothing else. -/
def Obligations.LaneInstructionResults : Prop :=
  ∀ row ∈ laneBlock, ∀ (s : State) (c : Ctx) (x : Args), s.issues row.1 x c →
    ∃ t g, exec (row.1.instr x) s = .next t ∧ s.Wrote t c x g ∧
      c.g.wroteLanes g (c.active x) (row.2.1 x) x.d.toNat (row.2.2 c x) ∧
      g.s = c.g.s ∧ g.p = c.g.p ∧ c.g.sameModes g ∧ g.yielded = false

/-- 09 R191, R216, R220, 10 R226, R228, 08 R176: BALLOT, RDLANE, V2S, PGET, PEQ and SPLITQ write their `s` destination once, and
change nothing else. -/
def Obligations.ScalarDestinationResults : Prop :=
  ∀ row ∈ toScalarBlock, ∀ (s : State) (c : Ctx) (x : Args), s.issues row.1 x c →
    ∃ t g, exec (row.1.instr x) s = .next t ∧ s.Wrote t c x g ∧
      c.g.wroteScalar g (c.sIndex x.d.toNat) (row.2.1 x) (row.2.2 c x) ∧
      g.v = c.g.v ∧ g.vtags = c.g.vtags ∧ g.p = c.g.p ∧ c.g.sameModes g ∧ g.yielded = false

/-- 09 R218, R219: LRED writes the value of its tree in every lane of Active(S); LSCAN writes the running combination at each
lane, or before it; both contribute the flags of every combination made, and change nothing else. -/
def Obligations.ReductionResults : Prop :=
  ∀ (s : State) (c : Ctx) (x : Args),
    let wide := fmtWide x.c.toNat
    let val := fun l => c.vw wide x.a.toNat l
    let act := c.active x
    let done := fun (i : Instr) (f : Nat → Nat) (flags : FlagBits) =>
      ∃ t g, exec i s = .next t ∧ s.Wrote t c x g ∧ c.g.wroteLanes g act wide x.d.toNat f ∧
        c.g.tookFlags g c.sp.half flags ∧ g.s = c.g.s ∧ g.p = c.g.p ∧ g.yielded = false
    (s.issues .lred x c → let r := reduceTree (c.redOp x) val act; done (.lred x) (fun _ => r.1) r.2) ∧
    (s.issues .lscan x c → let r := scanLanes (c.redOp x) val act (none, 0)
      done (.lscan x) (fun l => match lastOf l r.1 with
        | some (prev, now) => if x.b.toNat % 2 = 0 then now else prev.getD (redIdentity (x.mod.toNat / 8) x.c.toNat)
        | none => 0) r.2)

/-! ### Control (08 R168 to R187) -/

/-- 06 R111, R159: an instruction that passes moves its own split to the next word, or past the last to the next clause, and
notes the issue in its group; registers, flags, frames, reservations, other splits, other groups and all else stand. -/
def Obligations.PassedInstructionFrame : Prop :=
  ∀ (u : State) (c : Ctx) (x : Args) (g : Group), u.group? c.g.gid = some g →
    let t := u.finish c x
    ∃ h, t.group? c.g.gid = some h ∧ u.sameBut t c.g.gid ∧
      h = { g with splits := h.splits, lastSid := c.sp.id, yielded := false } ∧
      (∀ k, k ≠ c.sp.id → h.split? k = g.split? k) ∧
      ∀ sp, g.split? c.sp.id = some sp → sp.pc = c.sp.pc → sp.word = c.sp.word → sp.state = c.sp.state → sp.hold ≠ .faulted →
        ∃ sp', h.split? c.sp.id = some sp' ∧ sp'.hold = .none ∧
          (sp'.pc, sp'.word) = (if nextWord c.sp x < sp.clause.length then (sp.pc, nextWord c.sp x) else (sp.nextPc, 0)) ∧
          sp'.mask = sp.mask ∧ sp'.held = sp.held ∧ sp'.rpc = sp.rpc ∧ sp'.parent = sp.parent ∧ sp'.state = sp.state ∧
          sp'.frame = sp.frame

/-- 08 R171 to R173: a branch whose every lane is active leaves its split, with all its lanes, at the target; CALL and CALLI
write the return offset; nothing else changes. -/
def Obligations.UniformBranchesGoToTarget : Prop :=
  ∀ row ∈ branchBlock, ∀ (s : State) (c : Ctx) (x : Args), s.issues row.1 x c → c.g.unspilled →
    c.sp.mask &&& ~~~maskOf (c.active x) = 0 → (row.2.1 c x).toNat % 8 = 0 →
    ∃ t g sp, exec (row.1.instr x) s = .next t ∧ s.Steered t c g ∧ g.split? c.sp.id = some sp ∧
      sp.pc = row.2.1 c x ∧ sp.word = 0 ∧ sp.clause = [] ∧ sp.hold = .none ∧
      sp.mask = c.sp.mask ∧ sp.held = c.sp.held ∧ sp.rpc = c.sp.rpc ∧ sp.parent = c.sp.parent ∧ sp.state = c.sp.state ∧
      (∀ k, k ≠ c.sp.id → g.split? k = c.g.split? k) ∧ g.frames = c.g.frames ∧
      (if row.2.2.2 then c.g.wroteScalar g (c.sIndex x.d.toNat) false c.sp.nextPc.toNat else g.s = c.g.s ∧ g.ops = c.g.ops)

/-- 07 R146, 08 R171: a branch that some lanes of its split take, with two entries free, divides the split: flat where the
reconvergence offset is the split's own RPC or the split is in a trap, else under a divided parent. -/
def Obligations.DivergentBranchesDivide : Prop :=
  ∀ row ∈ branchBlock, ∀ (s : State) (c : Ctx) (x : Args), s.issues row.1 x c → c.g.unspilled → c.g.splits.length ≤ 6 →
    let m := maskOf (c.active x)
    let r := if row.2.2.1 c x = noRpc then c.sp.rpc else row.2.2.1 c x
    c.sp.mask &&& ~~~m ≠ 0 → (row.2.1 c x).toNat % 8 = 0 →
    ∃ t g, exec (row.1.instr x) s = .next t ∧ s.Steered t c g ∧ g.unspilled ∧
      if c.sp.state = .inTrap ∨ r = c.sp.rpc then
        g.splits.length = c.g.splits.length + 1 ∧
        (∃ a, g.split? c.sp.id = some a ∧ a.mask = c.sp.mask &&& ~~~m ∧ a.pc = c.sp.nextPc ∧ a.word = 0 ∧ a.rpc = c.sp.rpc ∧
          a.held = 0) ∧
        ∃ b ∈ g.splits, b.mask = m ∧ b.pc = row.2.1 c x ∧ b.word = 0 ∧ b.rpc = c.sp.rpc ∧ b.parent = c.sp.parent ∧
          b.held = 0 ∧ b.half = c.sp.half
      else
        g.splits.length = c.g.splits.length + 2 ∧
        (∃ p, g.split? c.sp.id = some p ∧ p.state = .divided ∧ p.pc = r ∧ p.rpc = c.sp.rpc ∧ p.nchild = 2) ∧
        (∃ a ∈ g.splits, a.parent = some c.sp.id ∧ a.mask = c.sp.mask &&& ~~~m ∧ a.pc = c.sp.nextPc ∧ a.rpc = r ∧ a.held = 0) ∧
        ∃ b ∈ g.splits, b.parent = some c.sp.id ∧ b.mask = m ∧ b.pc = row.2.1 c x ∧ b.rpc = r ∧ b.held = 0

/-- 08 R171: a branch to a target that is not a multiple of 8 raises 0x5005 for its active lanes. -/
def Obligations.MisalignedBranchTraps : Prop :=
  ∀ row ∈ branchBlock, ∀ (s : State) (c : Ctx) (x : Args), s.issues row.1 x c → (row.2.1 c x).toNat % 8 ≠ 0 →
    exec (row.1.instr x) s = .next
      ((if row.2.2.2 then s.writeS c [(x.d.toNat, c.sp.nextPc)] else s).trapped c x (lanesTrap (c.active x) 0x5005) 0)

/-- 08 R174, R175: MASK and END take lanes out of their split, held for its RPC or ended; the last lane of a split with no
parent and no RPC takes the split away. -/
def Obligations.MaskAndEndRemoveLanes : Prop :=
  ∀ (s : State) (c : Ctx) (x : Args),
    let hold := c.sp.parent.isSome || c.sp.rpc != noRpc
    let removes := fun (i : Instr) (m : LaneMask) (keep : Bool) =>
      (∃ t, exec i s = .next t) ∧ (c.sp.mask &&& ~~~m ≠ 0 ∨ c.g.unspilled → ∃ t g, exec i s = .next t ∧ s.Steered t c g ∧ g.s = c.g.s ∧
        if c.sp.mask &&& ~~~m ≠ 0 then
          ∃ sp, g.split? c.sp.id = some sp ∧ sp.mask = c.sp.mask &&& ~~~m ∧
            sp.held = (if keep then c.sp.held ||| m else c.sp.held) ∧
            (sp.pc, sp.word) = (if nextWord c.sp x < c.sp.clause.length then (c.sp.pc, nextWord c.sp x) else (c.sp.nextPc, 0)) ∧
            sp.rpc = c.sp.rpc ∧ sp.parent = c.sp.parent ∧ sp.state = c.sp.state ∧
            ∀ k, k ≠ c.sp.id → g.split? k = c.g.split? k
        else c.sp.parent = none → c.sp.rpc = noRpc → g.split? c.sp.id = none)
    (s.issues .maskLanes x c →
      removes (.maskLanes x) (maskOf (c.active x) &&&
        if x.mod.toNat % 2 = 1 then BitVec.ofNat 64 (c.s2 x.a.toNat) else BitVec.allOnes 64) hold) ∧
    (s.issues .endLanes x c → removes (.endLanes x) (maskOf (c.active x)) false)

/-- 08 R177 to R179: NOP has no effect but to pass; YIELD passes, and counts the split and the group as the youngest.  WAITEV parks a
ready split at the next clause with the condition of its kind; an in-trap split is held until the condition holds, or passes; a bad
barrier offset raises 0x500A. -/
def Obligations.NopYieldAndWaitev : Prop :=
  (∀ (s : State) (c : Ctx) (x : Args),
      (s.issues .nop x c → exec (.nop x) s = .next (s.finish c x)) ∧
      (s.issues .yield x c → exec (.yield x) s = .next ((s.finish c x).modGroup c.g.gid (fun g =>
        { (g.modSplit c.sp.id (fun sp => { sp with yielded := true })) with yielded := true })))) ∧
  (∀ (s : State) (c : Ctx) (x : Args),
      let waits := fun (i : Instr) (kind reg : Nat) (val : DWord) =>
        ∃ t g sp, exec i s = .next t ∧ s.Steered t c g ∧ g.s = c.g.s ∧ g.split? c.sp.id = some sp ∧
          (∀ k, k ≠ c.sp.id → g.split? k = c.g.split? k) ∧ sp.mask = c.sp.mask ∧
          if c.sp.state = .inTrap then
            sp.state = .inTrap ∧
            if s.eventHolds c.w c.g kind reg val then
              sp.hold = .none ∧
              (sp.pc, sp.word) = (if nextWord c.sp x < c.sp.clause.length then (c.sp.pc, nextWord c.sp x) else (c.sp.nextPc, 0))
            else sp.hold = .event ∧ sp.pc = c.sp.pc ∧ sp.word = c.sp.word ∧ sp.waitOn = some (256 * kind + reg, val.toNat) ∧
              sp.evKind = c.sp.evKind ∧ sp.evReg = c.sp.evReg ∧ sp.evVal = c.sp.evVal
          else sp.state = .waitingEvent ∧ sp.pc = c.sp.nextPc ∧ sp.word = 0 ∧ sp.evKind = kind ∧ sp.evReg = reg ∧ sp.evVal = val
      (s.issues .waitevTl x c → waits (.waitevTl x) 1 x.a.toNat (BitVec.ofNat 64 (c.s2 x.b.toNat))) ∧
      (s.issues .waitevFlag x c → waits (.waitevFlag x) 3 x.a.toNat 0) ∧
      (s.issues .waitevBar x c →
        let off := (c.s x.a.toNat).toNat
        if c.w.barrierOffset off then
          waits (.waitevBar x) 2 0 (BitVec.ofNat 64 (off + 2 ^ 32 * ((c.s x.b.toNat).toNat % 2)))
        else exec (.waitevBar x) s = .next (s.trapped c x (c.allLanes 0x500A none none) 0)))

/-- 08 R180, R181: TRAP raises 0x5006 for its active lanes, its code in the trap information; TRET outside a handler raises
0x5008; within one it frees the frame and returns to the faulting clause, ready, at the word that RETRY gives. -/
def Obligations.TrapAndTret : Prop :=
  ∀ (s : State) (c : Ctx) (x : Args),
    (s.issues .trap x c → exec (.trap x) s = .next (s.trapped c x (lanesTrap (c.active x) 0x5006) x.a)) ∧
    (s.issues .tret x c → c.sp.state ≠ .inTrap → exec (.tret x) s = .next (s.trapped c x (c.allLanes 0x5008 none none) 0)) ∧
    ∀ (k : Nat) (f : TrapFrame), s.issues .tret x c → c.sp.state = .inTrap → c.sp.frame = some k →
      c.g.frames.find? (fun f => f.num == k) = some f → (c.g.splits.filter (fun sp => sp.frame == some k)).length = 1 →
      ∃ t g sp, exec (.tret x) s = .next t ∧ s.Steered t c g ∧ g.s = c.g.s ∧ g.split? c.sp.id = some sp ∧
        sp.state = .ready ∧ sp.pc = c.sp.resume ∧ sp.word = (if f.retry then f.word else f.word + 1) ∧ sp.clause = [] ∧
        sp.frame = none ∧ sp.mask = c.sp.mask ∧ sp.hold = .none ∧ (∀ f ∈ g.frames, f.num ≠ k) ∧
        ∀ j, j ≠ c.sp.id → g.split? j = c.g.split? j

/-- 22 R405 to R408, 07 R151: a trap that every lane of its split takes, with one code, sends the split to its role's handler
in a fresh frame that keeps the clause, the word, the lanes and the code; the registers, the flags and the other splits stand. -/
def Obligations.TrapEntersHandler : Prop :=
  ∀ (s : State) (c : Ctx) (ts : List LaneTrap) (tw : TrapWord) (code k : Nat), s.sees c → codesOf ts = [code] →
    alwaysFatal code = false → c.sp.state ≠ .inTrap → c.g.handler ≠ noRpc → c.g.freeFrame = some k → c.g.unspilled →
    c.sp.mask &&& ~~~lanesOfCode ts code = 0 →
    ∃ g sp f, (s.takeTrap c ts tw).group? c.g.gid = some g ∧ g.split? c.sp.id = some sp ∧ f ∈ g.frames ∧
      sp.state = .inTrap ∧ sp.pc = c.g.handler ∧ sp.word = 0 ∧ sp.clause = [] ∧ sp.resume = c.sp.pc ∧ sp.frame = some k ∧
      sp.mask = c.sp.mask ∧ sp.held = c.sp.held ∧ sp.rpc = c.sp.rpc ∧ sp.parent = c.sp.parent ∧
      f.num = k ∧ f.code.toNat = code % 2 ^ 16 ∧ f.resume = c.sp.pc ∧ f.word = tw.word ∧ f.iword = tw.iword ∧
      (f.retry = true ↔ code ≠ 0x5006) ∧ f.aux = (if code = 0x5006 then tw.aux else 0) ∧
      f.lanes = (if c.w.legacy && c.sp.half then lanesOfCode ts code >>> 32 else lanesOfCode ts code) ∧
      g.frames = c.g.frames ++ [f] ∧ g.v = c.g.v ∧ g.vtags = c.g.vtags ∧ g.s = c.g.s ∧ g.p = c.g.p ∧ g.flags = c.g.flags ∧
      c.g.sameModes g ∧ g.ops = c.g.ops ∧ ∀ j, j ≠ c.sp.id → g.split? j = c.g.split? j

/-- 22 R405, R406, 07 R151: lanes that take a trap leave the others behind: with an entry free they form a split of their own
at the handler, and the split they leave keeps the other lanes where it stands. -/
def Obligations.TrapDividesLanes : Prop :=
  ∀ (s : State) (c : Ctx) (ts : List LaneTrap) (tw : TrapWord) (code k : Nat), s.sees c → codesOf ts = [code] →
    alwaysFatal code = false → c.sp.state ≠ .inTrap → c.g.handler ≠ noRpc → c.g.freeFrame = some k → c.g.unspilled →
    c.g.splits.length ≤ 7 → c.sp.mask &&& ~~~lanesOfCode ts code ≠ 0 →
    ∃ g a b, (s.takeTrap c ts tw).group? c.g.gid = some g ∧ g.split? c.sp.id = some a ∧ b ∈ g.splits ∧
      g.splits.length = c.g.splits.length + 1 ∧
      a.mask = c.sp.mask &&& ~~~lanesOfCode ts code ∧ a.pc = c.sp.pc ∧ a.word = c.sp.word ∧ a.state = c.sp.state ∧
      a.clause = c.sp.clause ∧ a.held = c.sp.held ∧ a.rpc = c.sp.rpc ∧ a.frame = c.sp.frame ∧
      b.mask = lanesOfCode ts code ∧ b.state = .inTrap ∧ b.pc = c.g.handler ∧ b.word = 0 ∧ b.resume = c.sp.pc ∧
      b.frame = some k ∧ b.held = 0 ∧ b.rpc = c.sp.rpc ∧ b.parent = c.sp.parent ∧
      g.v = c.g.v ∧ g.vtags = c.g.vtags ∧ g.s = c.g.s ∧ g.p = c.g.p ∧ g.flags = c.g.flags ∧ c.g.sameModes g

/-- 22 R405, R414: a trap of a split that is in a trap already, or whose role has no handler, or of a code that is always
fatal, halts the nearest fault domain: the halt lists its workgroups, and the split that faulted stops there. -/
def Obligations.TrapWithoutHandlerIsFatal : Prop :=
  ∀ (s : State) (c : Ctx) (ts : List LaneTrap) (tw : TrapWord) (code : Nat), s.sees c → codesOf ts = [code] →
    (alwaysFatal code = true ∨ c.sp.state = .inTrap ∨ c.g.handler = noRpc) →
    (∀ h ∈ s.halts, h.wgs.contains c.w.key = false) →
    let t := s.takeTrap c ts tw
    ∃ g sp h, t.group? c.g.gid = some g ∧ g.faulted = true ∧ g.split? c.sp.id = some sp ∧ sp.hold = .faulted ∧
      sp.pc = c.sp.pc ∧ sp.word = c.sp.word ∧ sp.mask = c.sp.mask ∧
      h ∈ t.halts ∧ h.stage = .raised ∧ h.part = c.w.part ∧ h.fdom = c.w.fdom ∧ h.wgs = s.domain c.w ∧
      h.cause.code = code ∧ g.v = c.g.v ∧ g.s = c.g.s ∧ g.p = c.g.p ∧ g.flags = c.g.flags ∧ g.frames = c.g.frames

/-- 08 R183: SYS RECORD releases at PKG, records its payload as 0x0001 and gives 0; another service of its form raises 0x500B;
NOTIFY gives 1 where its ring takes no message, else puts one and gives 0; STOP records 0x0002 as fatal to the domain. -/
def Obligations.ServicesAct : Prop :=
  ∀ (s : State) (c : Ctx) (x : Args),
    let act := c.active x
    let r := s.releaseCore c.w.phys 3
    let p := r.partOf c.w.part
    (s.issues .sysRecord x c → exec (.sysRecord x) s = .next (if x.a = 0 then
        ((r.record (r.sysRecordOf c x act 0x0001)).writeS c [(x.d.toNat, 0)]).finish c x
      else s.trapped c x (lanesTrap act 0x500B) 0)) ∧
    (s.issues .sysNotify x c → exec (.sysNotify x) s = .next (if p.irqJ = 0 ∨ r.irqFull p = true then
        (r.writeS c [(x.d.toNat, 1)]).finish c x
      else ((r.irqPut p 3 (c.s2 x.b.toNat) c.w.ticket).writeS c [(x.d.toNat, 0)]).finish c x)) ∧
    (s.issues .sysStop x c → exec (.sysStop x) s =
      .next (((r.fatal c.w (r.sysRecordOf c x act 0x0002)).markFaulted c.g.gid c.sp.id).noteIssue c))

/-- 08 R182: with breakpoints enabled a BKPT stops its domain at its safe point, unless the split was restarted there; else it
has no effect but to pass. -/
def Obligations.BreakpointStopsOrPasses : Prop :=
  ∀ (s : State) (c : Ctx) (x : Args), s.issues .bkpt x c →
    let stops := (s.partOf c.w.part).obs.bken && !c.sp.stop.restarted
    (stops = false → exec (.bkpt x) s = .next (s.finish c x)) ∧
    (stops = true → exec (.bkpt x) s =
      .next ((s.triggerStop c x.a.toNat).modSplit c.g.gid c.sp.id (fun sp => { sp with hold := .none })))

/-- 08 R185 to R187, 03 R53: RDS writes a special register to its `s` destination, or in each active lane to its `v` destination, 64
bits wide for LANES and CYCLE; TRAPINFO outside a handler raises 0x5008.  WRS writes the bits that FMODE or FSTAT of the split's
half has, and changes nothing else. -/
def Obligations.SpecialRegisters : Prop :=
  (∀ (s : State) (c : Ctx) (x : Args), s.issues .rds x c →
      let sr := x.a.toNat
      let cycle := (s.die (coreDie c.w.phys)).cycle % 2 ^ 64
      (0x18 ≤ sr → c.sp.frame = none → exec (.rds x) s = .next (s.trapped c x (lanesTrap (c.active x) 0x5008) 0)) ∧
      (sr < 0x18 ∨ c.sp.frame.isSome = true →
        ∃ t g, exec (.rds x) s = .next t ∧ s.Wrote t c x g ∧ g.p = c.g.p ∧ c.g.sameModes g ∧
          if x.mod.toNat % 2 = 1 then
            c.g.wroteLanes g (c.active x) (Sys2Proof.Machine.srWide sr) x.d.toNat (c.special cycle sr) ∧ g.s = c.g.s
          else
            c.g.wroteScalar g (c.sIndex x.d.toNat) (Sys2Proof.Machine.srWide sr) (c.special cycle sr 0) ∧ g.v = c.g.v ∧ g.vtags = c.g.vtags)) ∧
  (∀ (s : State) (c : Ctx) (x : Args), s.issues .wrs x c →
      ∃ t g, exec (.wrs x) s = .next t ∧ s.Wrote t c x g ∧ g.v = c.g.v ∧ g.vtags = c.g.vtags ∧ g.s = c.g.s ∧ g.p = c.g.p ∧
        g.ops = c.g.ops ∧
        if x.d = 0x10 then
          g.fmode c.sp.half = c.s x.a.toNat &&& 7 ∧ g.fmode (!c.sp.half) = c.g.fmode (!c.sp.half) ∧
            g.fstat0 = c.g.fstat0 ∧ g.fstat1 = c.g.fstat1
        else
          g.fstat c.sp.half = c.s x.a.toNat &&& 0x1F ∧ g.fstat (!c.sp.half) = c.g.fstat (!c.sp.half) ∧
            g.fmode0 = c.g.fmode0 ∧ g.fmode1 = c.g.fmode1)

/-! ### Pointers (10 R222 to R228; 02 R36) -/

/-- 10 R222 to R225: PDER, PADD, PFMT and PRIGHT write the pointer that they derive to `p`D and change nothing else; where the
source is not well-formed, or the sub-range or ceiling lies beyond it, they raise 0x2007 or 0x2008 and write nothing. -/
def Obligations.PointerDerivation : Prop :=
  ∀ (s : State) (c : Ctx) (x : Args),
    let q := c.ptr x.a.toNat
    let derives := fun (i : Instr) (r : Except Nat Ptr) =>
      match r with
      | .ok q' => ∃ t g, exec i s = .next t ∧ s.Wrote t c x g ∧ c.g.wrotePointer g x.d.toNat q'.toBits ∧
          g.v = c.g.v ∧ g.vtags = c.g.vtags ∧ g.s = c.g.s ∧ c.g.sameModes g
      | .error code => (code = 0x2007 ∨ code = 0x2008) ∧ exec i s = .next (s.trapped c x (lanesTrap (c.active x) code) 0)
    (s.issues .pder x c →
      derives (.pder x) (q.derive (c.s2 x.b.toNat) (some ((immOf x).getD (c.s2 x.c.toNat))))) ∧
    (s.issues .padd x c → derives (.padd x) (q.derive ((immOf x).getD (c.s2 x.b.toNat)) none)) ∧
    (s.issues .pfmt x c → derives (.pfmt x) (if q.wf then .ok { q with fmt := x.c.toNat } else .error 0x2007)) ∧
    (s.issues .pright x c → derives (.pright x) (q.restrict x.b.toNat x.c.toNat))

/-- 02 R36: no derivation widens what a pointer reaches: rights, ceiling, home and bytes of the pointer derived are among those
of its source.
02 R26, R36: what is derived from a well-formed pointer is well-formed. -/
def Obligations.DerivationNeverWidens : Prop :=
  (∀ (q q' : Ptr) (off b m : Nat) (len : Option Nat), q.derive off len = .ok q' ∨ q.restrict b m = .ok q' →
      (q'.r = true → q.r = true) ∧ (q'.w = true → q.w = true) ∧ (q'.x = true → q.x = true) ∧ (q'.p = true → q.p = true) ∧
      q'.ceil ≤ q.ceil ∧ q'.space = q.space ∧ q'.scope = q.scope ∧ q'.origin = q.origin ∧
      q'.len ≤ q.len ∧
      (q.space ≠ 2 → q.base ≤ q'.base ∧ q'.base + q'.len ≤ q.base + q.len) ∧
      (q.space = 2 → q.base / 2 ^ 21 ≤ q'.base / 2 ^ 21 ∧ q.base % 2 ^ 21 ≤ q'.base % 2 ^ 21 ∧
        q'.base % 2 ^ 21 + q'.len ≤ q.base % 2 ^ 21 + q.len)) ∧
  (∀ (q q' : Ptr) (off b m : Nat) (len : Option Nat), q.derive off len = .ok q' ∨ q.restrict b m = .ok q' → q'.wf = true)

/-- 10 R227, 02 R27: PNULL writes the null pointer; 10 R226: PGET of a quad writes the pointer's four words in each active
lane, and the quad is a valid pointer there just where the pointer is well-formed. -/
def Obligations.PointerMoves : Prop :=
  ∀ (s : State) (c : Ctx) (x : Args),
    (s.issues .pnull x c → ∃ t g, exec (.pnull x) s = .next t ∧ s.Wrote t c x g ∧ c.g.wrotePointer g x.d.toNat 0 ∧
      g.v = c.g.v ∧ g.vtags = c.g.vtags ∧ g.s = c.g.s ∧ c.g.sameModes g) ∧
    (s.issues .pgetQuad x c → x.d.toNat % 4 = 0 → ∃ t g, exec (.pgetQuad x) s = .next t ∧ s.Wrote t c x g ∧
      (∀ r l, l < 64 → g.vReg r l = if l ∈ c.active x ∧ r / 4 = x.d.toNat / 4 then
        (c.p x.a.toNat).extractLsb' (32 * (r % 4)) 32 else c.g.vReg r l) ∧
      (∀ q l, l < 64 → (q * 64 + l ∈ g.vtags ↔ if l ∈ c.active x ∧ q = x.d.toNat / 4 then
        (Ptr.ofBits (c.p x.a.toNat)).wf = true else q * 64 + l ∈ c.g.vtags)) ∧
      g.s = c.g.s ∧ g.p = c.g.p ∧ c.g.sameModes g)

/-! ### Memory (chapter 10; 09 R213; 16 R356, R357) -/

/-- 10 R231 to R234, 06 R120: a LD whose lanes all pass its checks, with nothing that holds it, is outstanding on its flag, and
writes no register until it completes.  Of lanes in banks it has every element that their bytes make, as the pointer's format and t
convert it, and memory stands.  Of lanes through an L1 with room for their lines (01 R12) it has the elements that the core sees once
the lines have come: of each byte what the core saw before or what the slices hold; memory stands, and no core sees anything else. -/
def Obligations.LoadsBringElements : Prop :=
  ∀ row ∈ [(Op.ld, false), (.ldVp, true)], ∀ (s : State) (c : Ctx) (x : Args), s.issues row.1 x c → s.replayOf c.w.part = none →
    let r := c.ldstLanes s x row.2 (c.active x) .load
    let es := c.elements x r.2
    r.1 = [] → s.holdOf c r.2 false 1 (es.map (fun e => (e.1, e.2.2.first))) = none → s.poisonTraps r.2 = [] →
    ∃ t g op, exec (row.1.instr x) s = .next t ∧ s.Served t c x g ∧ c.g.sameRegs g ∧ c.g.sameModes g ∧
      c.g.counted g (c.flag x) ∧ g.ops = c.g.ops ++ [op] ∧ op.flag = c.flag x ∧ op.half = c.sp.half ∧
      ((∀ a ∈ r.2, a.inBank) →
        op.ready = true ∧ op.elems = [] ∧
        op.vWrites = es.flatMap (fun e => elemWrites x.c.toNat (x.d.toNat + e.2.1 * regsOf x.c.toNat) e.1.lane (s.loaded c x e).1) ∧
        op.fstat = orFlags (es.map (fun e => (s.loaded c x e).2)) ∧ t.mem = s.mem ∧ t.tags = s.tags) ∧
      ((∀ a ∈ r.2, a.inBank ∨ a.inL1) → (s.core c.w.phys).roomy ((wordsOf r.2 .l1).map (· / 32)) →
        ∃ u : State, u.mem = s.mem ∧ u.tags = s.tags ∧ (∀ k pa, u.seeByte k pa = s.seeByte k pa ∨ u.seeByte k pa = s.byte pa) ∧
          op.ready = true ∧ op.elems = [] ∧
          op.vWrites = es.flatMap (fun e => elemWrites x.c.toNat (x.d.toNat + e.2.1 * regsOf x.c.toNat) e.1.lane (u.loaded c x e).1) ∧
          op.fstat = orFlags (es.map (fun e => (u.loaded c x e).2)) ∧ t.mem = s.mem ∧ t.tags = s.tags ∧
          (unsynced r.2 → ∀ k pa, t.seeByte k pa = u.seeByte k pa))

/-- 10 R234, R236, 03 R54: a ST whose lanes all pass its checks, with nothing that holds it, passes, and changes no register and
no counter.  Elements in banks stand there as stored, in the order of lanes and elements, and nothing else has changed; of
elements through an L1 with room for their lines, the core sees them so, over what it saw or what the slices hold, and the slices
hold what they held.  Whatever the stores to a control page do is listed to happen next (04 R87). -/
def Obligations.StoresWriteElements : Prop :=
  ∀ row ∈ [(Op.st, false), (.stVp, true)], ∀ (s u : State) (c : Ctx) (x : Args), s.issues row.1 x c →
    s.replayOf c.w.part = none →
    let r := c.ldstLanes s x row.2 (c.active x) .store
    let es := (c.elements x r.2).map (c.stored x)
    r.1 = [] → s.holdOf c r.2 true 2 (es.map (fun e => (e.1.a, e.1.sp.first))) = none →
    s.releaseLanes c r.2 = .ok u →
    ∃ t g, exec (row.1.instr x) s = .next t ∧ s.Served t c x g ∧ c.g.sameRegs g ∧ g.flags = c.g.flags ∧ g.ops = c.g.ops ∧
      c.g.tookFlags g c.sp.half (orFlags (es.map (·.2))) ∧ t.agenda = s.deviceEvents (es.map (·.1)) ++ s.agenda ∧
      ((∀ a ∈ r.2, a.inBank) → unsynced r.2 → ∀ k, t.byte k = (es.map (·.1)).foldl StoreElem.writeIn s.byte k) ∧
      ((∀ a ∈ r.2, a.inL1) → unsynced r.2 → (s.partOf c.w.part).obs.ckt = 0 →
        (s.core c.w.phys).roomy ((wordsOf r.2 .l1).map (· / 32)) →
        t.mem = s.mem ∧ ∃ m : Nat → Byte, (∀ pa, m pa = s.seeByte c.w.phys pa ∨ m pa = s.byte pa) ∧
          ∀ pa, t.seeByte c.w.phys pa = (es.map (·.1)).foldl StoreElem.writeIn m pa)

/-- 10 R241, 02 R28 to R31: an LDP whose granules carry their tags is outstanding on its flag, and brings the pointers: to `p`D,
or with their pointer-valid bits to the quads from `v`D; of granules in banks these are their bytes, and memory stands. -/
def Obligations.PointerLoadsBringGranules : Prop :=
  ∀ row ∈ [(Op.ldp, false), (.ldpQ, true)], ∀ (s : State) (c : Ctx) (x : Args), s.issues row.1 x c → s.replayOf c.w.part = none →
    let r := c.pairLanes s x row.2 (c.active x) .ldp (fun _ => none)
    let u := (wordsOf r.2 .l1).foldl (fun s k => s.fillGranule c.w.phys c.w.part k) (s.prepRead c r.2)
    let val := fun (a : LaneAcc) => BitVec.ofNat 128 (natOfBytes (a.places.map (fun p => s.byte p.key)))
    r.1 = [] → s.holdOf c r.2 false 1 (r.2.map (fun a => (a, 0))) = none → s.poisonTraps r.2 = [] →
    (∀ a ∈ r.2, u.tagSeen c a = true) →
    ∃ t g op, exec (row.1.instr x) s = .next t ∧ s.Served t c x g ∧ c.g.sameRegs g ∧ c.g.sameModes g ∧
      c.g.counted g (c.flag x) ∧ g.ops = c.g.ops ++ [op] ∧ op.flag = c.flag x ∧ op.fstat = 0 ∧
      ((∀ a ∈ r.2, a.inBank) →
        op.ready = true ∧ op.elems = [] ∧ t.mem = s.mem ∧ t.tags = s.tags ∧
        op.pWrites = (if row.2 then [] else r.2.map (fun a => (x.d.toNat, val a))) ∧
        op.vWrites = (if row.2 then r.2.flatMap (fun a => quadPut x.d.toNat a.lane (val a)) else []) ∧
        op.vTags = (if row.2 then (r.2.filter (fun a => (Ptr.ofBits (val a)).wf)).map (fun a => x.d.toNat / 4 * 64 + a.lane) else []))

/-- 10 R241, 02 R30: an STP writes each pointer's 16 bytes and sets its granule's tag, and changes no register; in banks it
changes no other byte and no other tag. -/
def Obligations.PointerStoresWriteGranules : Prop :=
  ∀ row ∈ [(Op.stp, false), (.stpQ, true)], ∀ (s u : State) (c : Ctx) (x : Args), s.issues row.1 x c → s.replayOf c.w.part = none →
    let d := fun (l : Nat) => if row.2 then c.quad x.d.toNat l else c.p x.d.toNat
    let r := c.pairLanes s x row.2 (c.active x) .stp (fun l =>
      if row.2 && !c.quadTag x.d.toNat l then some 0x2006 else if !(Ptr.ofBits (d l)).wf then some 0x2007 else none)
    let key := fun (a : LaneAcc) => (a.places.headD (.fixed 0)).key
    r.1 = [] → s.holdOf c r.2 true 2 (r.2.map (fun a => (a, 0))) = none → s.releaseLanes c r.2 = .ok u →
    ∃ t g, exec (row.1.instr x) s = .next t ∧ s.Served t c x g ∧ c.g.sameRegs g ∧ c.g.sameModes g ∧ g.flags = c.g.flags ∧
      g.ops = c.g.ops ∧
      ((∀ a ∈ r.2, a.inBank) → unsynced r.2 →
        (∀ k, t.byte k = writeIn s.byte (r.2.flatMap (fun a => ((List.range 16).zip (bytesOfNat 16 (d a.lane).toNat)).map
          (fun b => (key a + b.1, b.2)))) k) ∧
        ∀ n, n ∈ t.tags ↔ n ∈ s.tags ∨ ∃ a ∈ r.2, n = key a / 16)

/-- 10 R243, R244: LDRES leaves each of its lanes a reservation on its element, and is outstanding on its flag; a STCND is
outstanding on its flag too, clears the reservations of lanes in banks and in L1, and stores where the lane's own reservation
holds uncancelled: its status is 0 just then. -/
def Obligations.ReservationsGuardStores : Prop :=
  ∀ (s : State) (c : Ctx) (x : Args), s.replayOf c.w.part = none →
    let r := c.resvLanes s x (c.active x)
    let pending := fun (i : Instr) (Q : State → Group → PendingOp → Prop) =>
      ∃ t g op, exec i s = .next t ∧ s.Served t c x g ∧ c.g.sameRegs g ∧ c.g.sameModes g ∧ c.g.counted g (c.flag x) ∧
        g.ops = c.g.ops ++ [op] ∧ op.flag = c.flag x ∧ Q t g op
    r.1 = [] →
    (s.issues .ldres x c → s.holdOf c r.2 false 5 (r.2.map (fun a => (a, 0))) = none → s.poisonTraps r.2 = [] →
      pending (.ldres x) (fun t g op =>
        (∀ a ∈ r.2, (g.resv.find? (fun kv => kv.1 == a.lane)).map (·.2) = some a.resv) ∧
        ((∀ a ∈ r.2, a.inBank) → t.mem = s.mem ∧ t.tags = s.tags ∧ op.ready = true ∧ op.elems = [] ∧
          op.vWrites = r.2.flatMap (fun a => elemWrites x.c.toNat x.d.toNat a.lane
            (extendElem x.c.toNat (natOfBytes (a.places.map (fun p => s.byte p.key)))))))) ∧
    (s.issues .stcnd x c → s.holdOf c r.2 true 6 (r.2.map (fun a => (a, 0))) = none →
      (∃ u, s.releaseLanes c (r.2.filter (fun a => c.g.resvStatus a == 0)) = .ok u) →
      pending (.stcnd x) (fun t g op =>
        ((∀ a ∈ r.2, a.inBank ∨ a.inL1) → ∀ a ∈ r.2, ∀ kv ∈ g.resv, kv.1 ≠ a.lane) ∧
        ∀ a, r.2 = [a] → a.inBank → unsynced r.2 →
          op.ready = true ∧ op.elems = [] ∧ op.vWrites = vPut (fmtWide x.c.toNat) x.d.toNat a.lane (c.g.resvStatus a) ∧
          ∀ k, t.byte k = if c.g.resvStatus a = 0 then
            writeIn s.byte ((a.places.map Place.key).zip (bytesOfNat a.places.length (c.vw (fmtWide x.c.toNat) x.d.toNat a.lane))) k
          else s.byte k))

/-- 16 R356, R357: ATOM and CAS are outstanding on their flag with the old values, ATOMN returns nothing; in banks the lanes act
in turn, each on what the lanes before it left, and no other byte changes. -/
def Obligations.AtomicsActOnMemory : Prop :=
  ∀ row ∈ [(Op.atom, true), (.atomn, false), (.cas, true)], ∀ (s u : State) (c : Ctx) (x : Args), s.issues row.1 x c →
    s.replayOf c.w.part = none →
    let op := if row.1 = .cas then 9 else x.mod.toNat / 2
    let wide := x.mod.toNat % 2 == 1
    let z := if wide then 8 else 4
    let operand := fun (l : Nat) => if op = 9 then c.vw wide x.d.toNat l else c.vw wide x.c.toNat l
    let compare := fun (l : Nat) => if op = 9 then c.vw wide x.c.toNat l else 0
    let r := splitLanes ((c.active x).map (fun l =>
      s.checkLane c .atomic (fun q => q.space != 4 && atomFmt op z q.fmt) (atomMore z)
        { lane := l, q := c.ptr x.a.toNat, valid := true, off := (c.v x.b.toNat l).toNat + immOffset x, n := z }))
    r.1 = [] → s.holdOf c r.2 true (if op = 9 then 4 else 3) (r.2.map (fun a => (a, 0))) = none → s.poisonTraps r.2 = [] →
    s.releaseLanes c r.2 = .ok u →
    ∃ t g, exec (row.1.instr x) s = .next t ∧ s.Served t c x g ∧ c.g.sameRegs g ∧ c.g.sameModes g ∧
      (if row.2 then c.g.counted g (c.flag x) ∧ ∃ o, g.ops = c.g.ops ++ [o] ∧ o.flag = c.flag x ∧
          ((∀ a ∈ r.2, a.inBank) → unsynced r.2 → o.ready = true ∧ o.elems = [] ∧
            o.vWrites = (atomIn op (c.ptr x.a.toNat).fmt operand compare s.byte r.2).2.flatMap
              (fun k => vPut wide x.d.toNat k.1 k.2))
        else g.flags = c.g.flags ∧ ((∀ a ∈ r.2, a.isFar = false) → g.ops = c.g.ops)) ∧
      ((∀ a ∈ r.2, a.inBank) → unsynced r.2 → ∀ k, t.byte k = (atomIn op (c.ptr x.a.toNat).fmt operand compare s.byte r.2).1 k)

/-- 10 R229, R230, R245, R246: WIDEN and NARROW write the pointer at its new scope to `p`D, with the issuing core's index there, WIDEN
once the group's stores of the range sent to another package are acknowledged; ICINV, waiting likewise, drops the lines of code that
the pointer reaches from the instruction caches of its scope, and none other, and of clauses fetched and not started some (06 R115);
all three leave every other register alone.  PREF changes no register, whatever its pointer, and never traps; into the Firn, or into
an L1 with room for its lines, it changes no byte of memory. -/
def Obligations.ScopesAndCodeLines : Prop :=
  ∀ (s : State) (c : Ctx) (x : Args),
    let q := c.ptr x.a.toNat
    let n := x.b.toNat
    let moves := fun (i : Instr) (cls : Nat) =>
      ∃ t g, exec i s = .next t ∧ s.Served t c x g ∧
        c.g.wrotePointer g x.d.toNat ({ q with cls := cls, scope := n, origin := indexAt n c.core, inv := false } : Ptr).toBits ∧
        g.v = c.g.v ∧ g.vtags = c.g.vtags ∧ g.s = c.g.s ∧ c.g.sameModes g ∧ g.flags = c.g.flags
    (s.issues .widen x c → q.wf = true → covers q.scope q.origin c.core = true → q.scope ≤ n → n ≤ q.ceil →
      (n < 4 ∨ s.podWait c none = none) → s.rangeUnacked c q = false → moves (.widen x) 2) ∧
    (s.issues .narrow x c → q.wf = true → covers q.scope q.origin c.core = true → n ≤ q.scope → moves (.narrow x) 0) ∧
    (s.issues .icinv x c → q.wf = true → q.space = 4 → q.w = true → covers q.scope q.origin c.core = true →
      s.rangeUnacked c q = false →
      let u := s.releaseRange c.w.phys (s.partOf c.w.part) q (max n 1)
      ∃ t g sp, exec (.icinv x) s = .next t ∧ t.group? c.g.gid = some g ∧ c.g.sameRegs g ∧ c.g.sameModes g ∧ g.flags = c.g.flags ∧
        g.ops = c.g.ops ∧ g.split? c.sp.id = some sp ∧ sp.mask = c.sp.mask ∧
        (sp.pc, sp.word) = (if nextWord c.sp x < c.sp.clause.length then (c.sp.pc, nextWord c.sp x) else (c.sp.nextPc, 0)) ∧
        t.wgs = s.wgs ∧ t.groups.map (·.gid) = s.groups.map (·.gid) ∧
        (∀ k, k ≠ c.g.gid → ∀ y, s.group? k = some y → ∃ h f, t.group? k = some h ∧ (∀ sp : Split, sp.discarded (f sp)) ∧
          h.bare = { y.bare with splits := y.splits.map f }) ∧
        (∀ j, j ≠ c.sp.id → ∀ y, c.g.split? j = some y → ∃ y', g.split? j = some y' ∧ y.discarded y') ∧
        ∀ k, (t.core k).icache = if k ∈ coresWithin n c.w.phys then
          (s.core k).icache.filter (fun l => !u.codeOverlaps (s.partOf c.w.part) q l) else (s.core k).icache) ∧
    (s.issues .pref x c →
      let as := (splitLanes ((c.active x).map (fun l =>
        s.checkLane c .load (fun q => fmtPlain q.fmt) (fun _ _ => none) (c.laneAsk x false l (c.offset x l) 1)))).2
      ∃ t g, exec (.pref x) s = .next t ∧ s.Served t c x g ∧ c.g.sameRegs g ∧ c.g.sameModes g ∧ g.flags = c.g.flags ∧
        g.ops = c.g.ops ∧
        (x.mod.toNat % 2 = 1 ∨ (s.core c.w.phys).roomy (as.flatMap (fun a => a.places.map (fun p => p.key / 128))) →
          t.mem = s.mem ∧ t.tags = s.tags ∧ t.poison = s.poison))

/-- 09 R213: CBEXP writes, in each lane, the eight weights of its index over the row of the codebook, and changes nothing else. -/
def Obligations.CodebookWeights : Prop :=
  ∀ (s : State) (c : Ctx) (x : Args), s.issues .cbexp x c →
    let index := fun (l : Nat) => elemAt 16 (x.mod.toNat / 8 % 2) (c.v x.a.toNat l).toNat
    let r := splitLanes ((c.active x).map (fun l =>
      s.checkLane c .codebook (fun q => (q.fmt == 0x16 || q.fmt == 0) && (q.space == 1 || q.space == 2)) (fun _ _ => none)
        { lane := l, q := c.ptr x.b.toNat, valid := true, off := 4 * (index l / 256), n := 4 }))
    r.1 = [] → s.accessHold c r.2 false = none → s.poisonTraps r.2 = [] →
    ∃ t g, exec (.cbexp x) s = .next t ∧ s.Wrote t c x g ∧ g.s = c.g.s ∧ g.p = c.g.p ∧ c.g.sameModes g ∧
      (∀ k ∈ g.vtags, k ∈ c.g.vtags) ∧ ∀ n l, l < 64 → g.vReg n l = match r.2.find? (fun a => a.lane == l) with
        | some a => ((cbWeights (cbFmt x) (index l) (natOfBytes (a.places.map (fun p => s.byte p.key))))[n - x.d.toNat]?).elim
            (c.g.vReg n l) (fun w => if x.d.toNat ≤ n then w else c.g.vReg n l)
        | none => c.g.vReg n l

/-! ### Barriers, timelines, launches and the engines (08 R184; chapters 13, 14, 16) -/

/-- 16 R347, R348, R350, R353: the barrier instructions on the object that their operand names: what each makes of its fields,
where it may act at all; BWAIT passes when the phase has moved on, and waits until then; BTEST tells.  No other byte of memory
changes, but for what BARV releases.
17 R361: an action on an object that the scoreboard has busy, or for which an earlier action is still held, is held in turn. -/
def Obligations.BarrierActions : Prop :=
  ∀ (s : State) (c : Ctx) (x : Args) (k : Nat), s.replayOf c.w.part = none →
    let b := s.barrierAt k
    let named := fun (own write : Bool) => c.w.barrierKey own (c.s x.a.toNat) = some k ∧
      s.scratchBusy (keyCore k) (k % 2 ^ 21) (k % 2 ^ 21 + 16) write = false ∧ s.barrierAhead c k = false
    let makes := fun (i : Instr) (u : State) (b' : Barrier) => ∃ t g, exec i s = .next t ∧ s.Served t c x g ∧ c.g.sameRegs g ∧
      c.g.sameModes g ∧ g.flags = c.g.flags ∧ t.barrierAt k = b' ∧ ∀ j, j < k ∨ k + 16 ≤ j → t.byte j = u.byte j
    let parity := (c.s x.b.toNat).toNat % 2
    (s.issues .binit x c → named true true → s.barrierBusy k = false → ∀ n, n = (c.s x.b.toNat).toNat → 1 ≤ n → n ≤ 65535 →
      makes (.binit x) s { expect := n, pendArr := n, phase := 0, pendTx := 0, valid := true, rest := 0 }) ∧
    (s.issues .barv x c → named false true → b.valid = true → b.pendArr ≠ 0 →
      ∀ n, n = (if x.mod.toNat % 2 = 1 then c.s2 x.b.toNat else 0) → n < 2 ^ 47 → txFits (b.pendTx + n) = true →
      makes (.barv x) (s.releaseCore c.w.phys 1) { b with pendTx := b.pendTx + n, pendArr := b.pendArr - 1 }.evaluate) ∧
    (s.issues .bexp x c → named false true → b.valid = true → ∀ n, n = c.s2 x.b.toNat → n < 2 ^ 47 →
      txFits (b.pendTx + n) = true → makes (.bexp x) s { b with pendTx := b.pendTx + n }.evaluate) ∧
    (s.issues .binval x c → named true true → s.barrierBusy k = false → makes (.binval x) s (if b.valid then Barrier.ofNat 0 else b)) ∧
    (s.issues .bwait x c → named false false → b.valid = true → b.phase % 2 ≠ parity → makes (.bwait x) s b) ∧
    (s.issues .bwait x c → named false false → b.valid = true → b.phase % 2 = parity →
      exec (.bwait x) s = .next (s.modSplit c.g.gid c.sp.id (fun sp => { sp with waitOn := some (k, parity), hold := .bwait }))) ∧
    (s.issues .btest x c → named false false → b.valid = true →
      ∃ t g, exec (.btest x) s = .next t ∧ s.Served t c x g ∧ c.g.wroteScalar g (c.sIndex x.d.toNat) false
        (if b.phase % 2 ≠ parity then 0xFFFFFFFF else 0) ∧ g.v = c.g.v ∧ g.p = c.g.p ∧ t.mem = s.mem) ∧
    ∀ row ∈ [(Op.binit, true, true), (.barv, false, true), (.bexp, false, true), (.bwait, false, false), (.btest, false, false),
        (.binval, true, true)],
      s.issues row.1 x c → c.w.barrierKey row.2.1 (c.s x.a.toNat) = some k →
      s.scratchBusy (keyCore k) (k % 2 ^ 21) (k % 2 ^ 21 + 16) row.2.2 = true ∨ s.barrierAhead c k = true →
      exec (row.1.instr x) s = .next ((s.modSplit c.g.gid c.sp.id (fun sp =>
        { sp with waitOn := some (c.sp.askedAt .scoreboard s.serial, k), hold := .scoreboard })).bump)

/-- 16 R347, R350: what turns a barrier instruction away: an operand that names no barrier, one that is busy or not valid, a
count of 0 or above 65535, no arrival left, and a byte count out of range, each for every active lane. -/
def Obligations.BarrierFaults : Prop :=
  ∀ (s : State) (c : Ctx) (x : Args), s.replayOf c.w.part = none →
    let traps := fun (i : Instr) (code : Nat) => exec i s = .next (s.trapped c x (lanesTrap (c.active x) code) 0)
    (∀ row ∈ [(Op.binit, true), (.barv, false), (.bexp, false), (.bwait, false), (.btest, false), (.binval, true)],
      s.issues row.1 x c → c.w.barrierKey row.2 (c.s x.a.toNat) = none → traps (row.1.instr x) 0x4002) ∧
    ∀ k, s.scratchBusy (keyCore k) (k % 2 ^ 21) (k % 2 ^ 21 + 16) true = false → s.barrierAhead c k = false →
      let b := s.barrierAt k
      (s.issues .binit x c → c.w.barrierKey true (c.s x.a.toNat) = some k →
        (s.barrierBusy k = true → traps (.binit x) 0x4001) ∧
        (s.barrierBusy k = false → (c.s x.b.toNat).toNat = 0 ∨ (c.s x.b.toNat).toNat > 65535 → traps (.binit x) 0x4006)) ∧
      (s.issues .binval x c → c.w.barrierKey true (c.s x.a.toNat) = some k → b.valid = true → s.barrierBusy k = true →
        traps (.binval x) 0x4001) ∧
      (∀ o ∈ [Op.barv, .bexp], s.issues o x c → c.w.barrierKey false (c.s x.a.toNat) = some k →
        let n := if o = .barv ∧ x.mod.toNat % 2 = 0 then 0 else c.s2 x.b.toNat
        (b.valid = false → traps (o.instr x) 0x4003) ∧
        (b.valid = true → o = .barv → b.pendArr = 0 → traps (o.instr x) 0x4004) ∧
        (b.valid = true → (o = .barv → b.pendArr ≠ 0) → n ≥ 2 ^ 47 ∨ txFits (b.pendTx + n) = false → traps (o.instr x) 0x4005))

/-- 16 R354, R355: TLWAIT passes when its timeline has reached n, and waits until then; TLTEST tells, TLREAD reads the tickets
issued and reached. -/
def Obligations.TimelineInstructions : Prop :=
  ∀ (s : State) (c : Ctx) (x : Args),
    let tl := c.w.timeline x.a.toNat
    let n := c.tlValue x
    let writes := fun (i : Instr) (wide : Bool) (m : Nat) => ∃ t g, exec i s = .next t ∧ s.Served t c x g ∧
      c.g.wroteScalar g (c.sIndex x.d.toNat) wide m ∧ g.v = c.g.v ∧ g.vtags = c.g.vtags ∧ g.p = c.g.p ∧ c.g.sameModes g ∧ t.mem = s.mem
    (s.issues .tlwait x c → n ≤ tl.reached →
      ∃ t g, exec (.tlwait x) s = .next t ∧ s.Served t c x g ∧ c.g.sameRegs g ∧ c.g.sameModes g ∧ t.mem = s.mem) ∧
    (s.issues .tlwait x c → tl.reached < n →
      exec (.tlwait x) s = .next (s.modSplit c.g.gid c.sp.id (fun sp => { sp with waitOn := some (x.a.toNat, n), hold := .tlwait }))) ∧
    (s.issues .tltest x c → writes (.tltest x) false (if n ≤ tl.reached then 0xFFFFFFFF else 0)) ∧
    (s.issues .tlreadIss x c → writes (.tlreadIss x) true tl.issued) ∧
    (s.issues .tlreadDone x c → writes (.tlreadDone x) true tl.reached)

/-- 08 R184, 04 R88, R93: LAUNCH releases at PART and submits the block; `s`D takes the STATUS word: 1 with the ticket, 2 when the
queue is full, or 3 with the code of the first check that failed.  What the pointer itself fails is a trap. -/
def Obligations.LaunchRegistersWork : Prop :=
  ∀ (s : State) (c : Ctx) (x : Args), s.issues .launch x c →
    let q := c.ptr x.a.toNat
    let u := s.releaseCore c.w.phys 3
    let p := u.partOf c.w.part
    let v := if q.space ≠ 0 ∨ q.base % 128 ≠ 0 then (if p.runs then Verdict.rejected 0xB101 else .rejected 0xB109) else u.judge p q.base
    match q.check c.core c.w.gangSize 0 896 .launch true with
    | some code => exec (.launch x) s = .next (s.trapped c x (lanesTrap (c.active x) code) 0)
    | none =>
      ∃ t g, exec (.launch x) s = .next t ∧ s.Served t c x g ∧
        c.g.wroteScalar g (c.sIndex x.d.toNat) true (match v with
          | .accepted l => 2 ^ 62 + l.ticket % 2 ^ 48
          | .full => 2 * 2 ^ 62
          | .rejected code => 3 * 2 ^ 62 + code % 2 ^ 12 * 2 ^ 48) ∧
        g.v = c.g.v ∧ g.vtags = c.g.vtags ∧ g.p = c.g.p ∧ c.g.sameModes g ∧ g.flags = c.g.flags

/-- 13 R273 to R276, R282 to R284, R287: a stream instruction that its checks let pass is given the next ticket of its timeline,
which `s`D takes, and an operation of the engine with the pointers as they were at issue, which keeps its intervals until it
completes; a copy of no elements leaves none. -/
def Obligations.StreamsEnterScoreboard : Prop :=
  ∀ row ∈ [(Op.stream, false, false), (.sgath, true, false), (.sdec, false, true)], ∀ (s : State) (c : Ctx) (x : Args) (sh : Shape),
    s.issues row.1 x c →
    let a := c.ptr x.a.toNat
    let b := c.ptr x.b.toNat
    let off := (c.s x.c.toNat).toNat
    let lo := c.w.scratchOff
    let hi := lo + c.w.scratchLen
    let tl := x.mod.toNat % 8
    let o0 := { (c.newEngineOp s (if row.2.1 then .sgath else .stream)) with src := c.p x.a.toNat, dst := c.p x.b.toNat, dims := sh.dims }
    let onto := o0.destHull
    let from_ := o0.srcHull
    let empty := row.2.2 = false ∧ productOf sh.dims = 0
    c.mayStream = true → c.streamPtrs a b = none →
    (if row.2.2 then a.fmt = 0 else
      off % 16 = 0 ∧ lo ≤ off ∧ off + 160 ≤ hi ∧ s.scratchBusy c.w.phys off (off + 160) false = false ∧ s.poison = [] ∧
      shapeOf (s.bytes (scratchKey c.w.phys off) 160) row.2.1 lo hi = some sh ∧ formatPairOk a.fmt b.fmt = true ∧
      (productOf sh.dims ≠ 0 →
        0 ≤ onto.1 ∧ b.boundsOk c.w.gangSize onto.1.toNat (onto.2 - onto.1).toNat = true ∧
        (a.space = 1 → b.space = 1 → from_.2 ≤ from_.1 ∨ (b.base : Int) + onto.2 ≤ ((a.base + from_.1 : Nat) : Int) ∨
          ((a.base + from_.2 : Nat) : Int) ≤ (b.base : Int) + onto.1))) →
    sidesOk row.2.2 a b = true →
    (x.mod.toNat / 8 % 2 = 1 →
      (s.barrierOperand c.w (c.s (if row.2.2 then x.c.toNat else x.c.toNat + 1)).toNat).isSome = true) →
    (¬empty → s.entriesHeld c.w.phys < 32 ∧ s.askedBefore c .entry = false) → s.op? s.serial = none →
    (s.partOf c.w.part).obs.trace.getLsbD 0 = false →
    ∃ t g, exec (row.1.instr x) s = .next t ∧ t.group? c.g.gid = some g ∧ g.passed c x ∧ t.mem = s.mem ∧ t.tags = s.tags ∧
      c.g.wroteScalar g (c.sIndex x.d.toNat) true ((c.w.timeline tl).issued + 1) ∧ g.v = c.g.v ∧ g.vtags = c.g.vtags ∧ g.p = c.g.p ∧
      c.g.sameModes g ∧ g.flags = c.g.flags ∧
      (∃ w, t.wg? c.w.key = some w ∧ (tl < c.w.timelines.length → (w.timeline tl).issued = (c.w.timeline tl).issued + 1)) ∧
      (empty → ∀ o ∈ (t.core c.w.phys).ops, o ∈ (s.core c.w.phys).ops) ∧
      (¬empty → ∃ o, s.Queued t c x g o ∧ o.src = c.p x.a.toNat ∧ o.dst = c.p x.b.toNat ∧ o.timeline = tl ∧
        o.ticket = (c.w.timeline tl).issued + 1 ∧ (o.barrier.isSome = true ↔ x.mod.toNat / 8 % 2 = 1) ∧
        (row.2.2 = false → o.dims = sh.dims ∧ o.size = sizeOf_ (productOf sh.dims) (sideWidth b.fmt a.fmt)) ∧
        (∀ i ∈ o.intervals, i.lo < i.hi) ∧ (o.entry = true ↔ o.intervals ≠ []))

/-- 14 R309 to R316, R318, R319: a matrix instruction that its checks let pass, with room in the sequencer and the scoreboard,
leaves its operation to the sequencer, after those that came before it, with its operands as they were at issue; a MLOOP of no
steps leaves none.  In a legacy image AREAD and ASTORE wait for rows at or above the tile's watermark.  AMARK reads what is ready of
a tile. -/
def Obligations.MatrixOperations : Prop :=
  ∀ (s : State) (c : Ctx) (x : Args),
    let lo := c.w.scratchOff
    let hi := lo + c.w.scratchLen
    let off := (c.s x.c.toNat).toNat
    let blk := s.bytes (scratchKey c.w.phys off) 32
    let f := formatBlockOf blk
    let queued := fun (i : Instr) (Q : Group → EngineOp → Prop) => ∃ t g o, exec i s = .next t ∧ s.Queued t c x g o ∧ t.mem = s.mem ∧
      t.tags = s.tags ∧ c.g.sameRegs g ∧ c.g.sameModes g ∧ Q g o
    let plain := fun (g : Group) => g.flags = c.g.flags ∧ g.ops = c.g.ops
    let rowsHeld := fun (i : Instr) => exec i s = .next (s.modSplit c.g.gid c.sp.id (fun sp => { sp with hold := .rows }))
    (∀ row ∈ [(Op.mloop, EngKind.mloop, false), (.mstep, .mstep, false), (.mstepV, .mstep, true)], ∀ a b : MatOperand,
      s.issues row.1 x c →
      let n := if row.1 = .mloop then (c.s (x.c.toNat + 1)).toNat else 1
      let words := (if row.2.2 then [0, 0] else [c.s x.a.toNat, c.s (x.a.toNat + 1)]) ++ [c.s x.b.toNat, c.s (x.b.toNat + 1)]
      off % 32 = 0 → lo ≤ off → off + 32 ≤ hi → s.scratchBusy c.w.phys off (off + 32) false = false → s.poison = [] →
      formatBlockOk blk row.2.2 lo hi = true → matOperand (words.getD 0 0) (words.getD 1 0) = some a →
      matOperand (words.getD 2 0) (words.getD 3 0) = some b → n < 2 ^ 16 →
      (∀ h ∈ (if row.2.2 then [] else [a.hull f.afmt f.mrows n]) ++ (if f.ascl then [scaleHull f.ascale f.astep f.mrows n] else []) ++
        b.hull f.bfmt f.ncols n :: (if f.bscl then [scaleHull f.bscale f.bstep f.ncols n] else []), hullIn h lo hi = true) →
      (f.bfmt = 0x16 → s.scratchBusy c.w.phys (f.cbtab / 1024 * 1024) (f.cbtab / 1024 * 1024 + 1024) false = false) →
      (n = 0 → exec (row.1.instr x) s = .next (s.finish c x)) ∧
      (n ≠ 0 → (s.stepQueue c.w.phys).length < 8 → s.askedBefore c .sequencer = false → s.entriesHeld c.w.phys < 32 →
        s.askedBefore c .entry = false →
        queued (row.1.instr x) (fun g o => plain g ∧ o.kind = row.2.1 ∧ o.tile = x.d.toNat ∧ o.count = n ∧ o.steps = 0 ∧ o.sops = words ∧
          o.fmtBlock = blk ∧ o.aFromRegs = row.2.2 ∧ (o.entry = true ↔ o.intervals ≠ [])))) ∧
    (∀ row ∈ [(Op.aswap, EngKind.aswap), (.azero, .azero)], s.issues row.1 x c →
      queued (row.1.instr x) (fun g o => plain g ∧ o.kind = row.2 ∧ o.tile = x.d.toNat ∧ o.entry = false)) ∧
    (s.issues .aread x c → ∀ r, r = (immOf x).getD (c.s x.b.toNat).toNat → r + countOf (x.mod.toNat % 4) ≤ 64 →
      if s.rowsWait c x.a.toNat (r + countOf (x.mod.toNat % 4)) then rowsHeld (.aread x) else
      queued (.aread x) (fun g o => o.kind = .aread ∧ o.tile = x.a.toNat ∧ o.row = r ∧ o.rows = countOf (x.mod.toNat % 4) ∧
        o.lanes = maskOf (c.active x) ∧ c.g.counted g (c.flag x) ∧
        ∃ op, g.ops = c.g.ops ++ [op] ∧ op.id = o.pending ∧ op.flag = c.flag x ∧ op.waitsEngine = true)) ∧
    (s.issues .astore x c →
      let q := c.ptr x.a.toNat
      let rb := (c.s x.b.toNat).toNat
      let cnt := rb / 256 % 256
      let pitch := (c.s x.c.toNat).toNat
      let last := (cnt - 1) * pitch + 63
      let n := if fmtWidth q.fmt = 4 then last / 2 + 1 else (last + 1) * (fmtWidth q.fmt / 8)
      rb < 2 ^ 16 → cnt ≠ 0 → rb % 256 + cnt ≤ 64 → pitch < 2 ^ 24 → q.space = 1 →
      q.check c.core c.w.gangSize 0 n .tileStore (storeFmt q.fmt) = none → s.entriesHeld c.w.phys < 32 → s.askedBefore c .entry = false →
      if s.rowsWait c x.d.toNat (rb % 256 + cnt) then rowsHeld (.astore x) else
      queued (.astore x) (fun g o => plain g ∧ o.kind = .astore ∧ o.tile = x.d.toNat ∧ o.dst = c.p x.a.toNat ∧ o.row = rb % 256 ∧
        o.rows = cnt ∧ o.pitch = pitch ∧ o.entry = true ∧ o.intervals = [⟨q.base, q.base + n, true, false⟩])) ∧
    (s.issues .amark x c →
      ∃ t g, exec (.amark x) s = .next t ∧ s.Wrote t c x g ∧ c.g.wroteScalar g (c.sIndex x.d.toNat) false
        (if c.w.legacy then (s.tile c.w.phys x.a.toNat).watermark
         else if (s.core c.w.phys).ops.any (fun o => o.tile == x.a.toNat && (o.kind.isStep || o.kind == .azero)) then 0 else 64) ∧
        g.v = c.g.v ∧ g.vtags = c.g.vtags ∧ g.p = c.g.p ∧ c.g.sameModes g)

/-- 14 R320 to R324: XTOPK, XQNT and XDQNT go to the transform pipe, which replies in order, and are outstanding on their flag with
what the reply will write: the positions kept, the elements quantised with their block's scale, or the elements restored.  XTOPK
leaves in scratchpad the sums of the positions not kept, and 0 at those kept. -/
def Obligations.TransformOperations : Prop :=
  ∀ (s : State) (c : Ctx) (x : Args),
    let ftz := ftzOf c.fmode
    let fmt := x.c.toNat
    let pos := presentOf (c.active x)
    let sent := fun (i : Instr) (Q : State → PendingOp → Prop) => ∃ t g op, exec i s = .next t ∧ t.group? c.g.gid = some g ∧
      g.passed c x ∧ c.g.sameRegs g ∧ c.g.sameModes g ∧ c.g.counted g (c.flag x) ∧ g.ops = c.g.ops ++ [op] ∧ op.flag = c.flag x ∧
      op.waitsEngine = true ∧ op.id = s.serial ∧ (t.core c.w.phys).pipe = (s.core c.w.phys).pipe ++ [(c.g.gid, op.id)] ∧ Q t op
    s.pipeBusy c.w.phys = false → s.askedBefore c .pipe = false →
    (s.issues .xtopk x c →
      let q := c.ptr x.b.toNat
      let off := (c.s x.c.toNat).toNat
      let k := scratchKey c.w.phys (q.base + off)
      let sum := fun (e : Nat) =>
        addElem ftz 0x10 (rmOf c.fmode) (inFmt ftz 0x10 (c.blockWord x.a.toNat e)) (inFmt ftz 0x10 (s.num (k + 4 * e) 4))
      let kept := topK (x.mod.toNat + 1) (pos.map (fun e => (e, (sum e).1)))
      q.check c.core c.w.gangSize off 512 .topk (q.fmt == 0x10 || q.fmt == 0) = none → q.space = 1 → off % 4 = 0 →
      s.scratchBusy c.w.phys (q.base + off) (q.base + off + 512) true = false → s.poison = [] →
      sent (.xtopk x) (fun t op =>
        (∀ j < 64, lastOf (x.d.toNat * 64 + j) op.vWrites = some (BitVec.ofNat 32 ((kept[j]?).getD (0xFFFFFFFF, 0)).2) ∧
          lastOf ((x.d.toNat + 1) * 64 + j) op.vWrites = some (BitVec.ofNat 32 ((kept[j]?).getD (0xFFFFFFFF, 0)).1)) ∧
        op.fstat = orFlags ((pos.filter (fun e => kept.any (fun z => z.1 == e))).map (fun e => (sum e).2)) ∧
        (∀ e < 128, t.num (k + 4 * e) 4 = if e ∈ pos then (if kept.any (fun z => z.1 == e) then 0 else (sum e).1 % 2 ^ 32) else s.num (k + 4 * e) 4) ∧
        ∀ j, j < k ∨ k + 512 ≤ j → t.byte j = s.byte j)) ∧
    (s.issues .xqnt x c →
      let val := fun (e : Nat) => inFmt ftz 0x10 (c.blockWord x.a.toNat e)
      let sc := leastScale fmt (amaxOf (pos.map val))
      let q := fun (e : Nat) => encodeFmt ftz fmt (c.rounding x) (divScale (val e) sc)
      sent (.xqnt x) (fun t op =>
        op.vWrites = pos.map (fun e => (blockKey x.d.toNat e, BitVec.ofNat 32 (extendElem fmt (q e).1))) ∧
        op.sWrites = [(c.sIndex x.b.toNat, BitVec.ofNat 32 sc)] ∧ op.fstat = orFlags (pos.map (fun e => (q e).2 ||| snanFlag (val e))) ∧
        t.mem = s.mem)) ∧
    (s.issues .xdqnt x c →
      let r := fun (e : Nat) => dequant ftz fmt ((c.s x.b.toNat).toNat % 1024) (c.rounding x) (c.blockWord x.a.toNat e)
      sent (.xdqnt x) (fun t op =>
        op.vWrites = pos.map (fun e => (blockKey x.d.toNat e, BitVec.ofNat 32 (r e).1)) ∧ op.fstat = orFlags (pos.map (fun e => (r e).2)) ∧
        t.mem = s.mem))

/-! ### Events: clauses, the scheduler, what arrives -/

/-- 06 R112 to R114, R119, R131, 07 R147, R149, R155: how a split comes to a clause.  Its header is fetched, then the words that LEN
counts, each under the checks of its pointer, and a check that fails is a trap at word 0; prefetch changes nothing but what the core's
caches hold; at a clause start the split parks at its RPC, traps where the clause is illegal, begins the clause where its WAIT holds or
has been passed, and waits where it does not, until every counter selected reads zero or the clause fetched anew asks for others. -/
def Obligations.ClauseEvents : Prop :=
  ∀ (s : State) (g sid : Nat) (c : Ctx), s.ctx? g sid = some c →
    let pc := c.sp.pc.toNat
    let starts := fun (h : DWord) (sp : Split) =>
      if c.sp.passed = true ∨ c.g.waitHolds (headerOf h) = true then sp.begin_
      else if c.sp.state = .inTrap then { sp with hold := .clauseWait, awaits := (headerOf h).wait }
      else { sp with state := .waitingFlags, awaits := (headerOf h).wait }
    (c.fetches = true → c.sp.atRpc = false →
      (∀ code, c.fetchCheck pc 8 = some code → exec (.clauseFetch g sid) s = .next (s.fetchTrap c code none none 0)) ∧
      (c.fetchCheck pc 8 = none →
        (∀ code va pa, s.fetchWords c (c.codeVa pc) 1 = .error (some (code, va, pa)) →
          exec (.clauseFetch g sid) s = .next (s.fetchTrap c code (some va) pa 0)) ∧
        (s.fetchWords c (c.codeVa pc) 1 = .error none → exec (.clauseFetch g sid) s = .next s) ∧
        ∀ s1 h, s.fetchWords c (c.codeVa pc) 1 = .ok (s1, [h]) →
          (∀ code, c.fetchCheck pc (8 * ((headerOf h).len + 1)) = some code →
            exec (.clauseFetch g sid) s = .next (s1.fetchTrap c code none none 0)) ∧
          (c.fetchCheck pc (8 * ((headerOf h).len + 1)) = none →
            let rest := s1.fetchWords c (c.codeVa pc + 8) (headerOf h).len
            (∀ code va pa, rest = .error (some (code, va, pa)) →
              exec (.clauseFetch g sid) s = .next (s1.fetchTrap c code (some va) pa 0)) ∧
            (rest = .error none → exec (.clauseFetch g sid) s = .next s1) ∧
            ∀ s2 ws, rest = .ok (s2, ws) → ws.length = (headerOf h).len ∧
              exec (.clauseFetch g sid) s = .next (s2.modSplit g sid (fun sp => { sp with clause := h :: ws }))))) ∧
    (∀ n, c.mayMove = true → c.sp.clause ≠ [] →
      ∃ t, exec (.clausePrefetch g sid n) s = .next t ∧ t.groups.map Group.bare = s.groups.map Group.bare ∧ t.wgs = s.wgs ∧ t.mem = s.mem ∧
        ∀ pa f d, n = 1 → c.codeVa c.sp.nextPc.toNat < c.codeVa c.w.codeLen →
          s.translate c.w.phys (s.partOf c.w.part) (c.codeVa c.sp.nextPc.toNat) = .ok pa f d → f.ord = false → f.dev = false →
          f.x = true → f.refuse (s.partOf c.w.part) s.pod fetchUse = none →
          ((t.core c.w.phys).line? (s.partOf c.w.part).num (c.codeVa c.sp.nextPc.toNat / 128)).isSome = true) ∧
    (c.runnable = true → c.sp.word = 0 ∨ c.sp.skipRpc = true → c.g.replaceParent s.free sid = c.g →
      (c.sp.atRpc = true → c.g.unspilled → exec (.clauseStart g sid) s = .next (s.modGroup g (fun x => x.reachRpc s.serial sid)).bump) ∧
      ∀ h body, c.sp.clause = h :: body → c.sp.atRpc = false →
        (clauseLegal h body = false → exec (.clauseStart g sid) s = .next (s.fetchTrap c 0x5002 none none h)) ∧
        (clauseLegal h body = true → (headerOf h).merge = false → c.g.unspilled → ¬(c.sp.skipRpc = true ∧ (headerOf h).len < c.sp.word) →
          exec (.clauseStart g sid) s = .next (s.modSplit g sid (starts h)).bump)) ∧
    (∀ h body, c.sp.clause = h :: body → c.mayMove = true → c.sp.state = .waitingFlags ∨ c.sp.state = .inTrap ∧ c.sp.hold = .clauseWait →
      (c.g.waitHolds (headerOf h) = false → c.sp.awaits = (headerOf h).wait → exec (.waitRetestStart g sid) s = .next s) ∧
      (c.g.waitHolds (headerOf h) = true ∨ c.sp.awaits ≠ (headerOf h).wait →
        (clauseLegal h body = false → exec (.waitRetestStart g sid) s = .next (s.fetchTrap c 0x5002 none none h)) ∧
        (clauseLegal h body = true → c.g.unspilled → ¬(c.sp.skipRpc = true ∧ (headerOf h).len < c.sp.word) →
          exec (.waitRetestStart g sid) s = .next (s.modSplit g sid (starts h)).bump)))

/-- 07 R153, R156, R160, R162, R166, R167: the scheduler's own steps.  A waiting split whose event holds becomes ready, or, in a trap,
moves past its WAITEV; the head of the queue of spilled splits takes the place of the resident split that issued last; spilled splits
whose conditions hold join the queue, where the spill records that this reads and writes meet no fault; the guard marks an issue-ready
split; the cap and the scores follow their sums; the histogram counts the issue-ready splits, and the reason of the split that comes
first where there is none. -/
def Obligations.SchedulingEvents : Prop :=
  ∀ s : State,
    let puts := fun (x : Group) (w : Workgroup) (y : Group) => (s.modGroup x.gid (fun _ => y)).bump.spillAll w x.gid (s.spillBase w x)
      ((recordsTaken x y).map (fun r => (r.slot, none)) ++ (recordsChanged x y).map (fun r => (r.slot, some r.recordBytes)))
    (∀ g sid c, s.ctx? g sid = some c →
      (c.mayMove = true → c.sp.state = .waitingEvent → exec (.eventWake g sid) s =
        .next (if s.eventHolds c.w c.g c.sp.evKind c.sp.evReg c.sp.evVal then s.modSplit g sid Split.wake else s)) ∧
      (∀ k v i n, c.mayMove = true → c.sp.state = .inTrap → c.sp.hold = .event → c.sp.waitOn = some (k, v) →
        decodeAt c.sp.clause c.sp.word = .ok (i, n) →
        let b := s.eventHolds c.w c.g (k / 256) (k % 256) (BitVec.ofNat 64 v)
        (b = false → exec (.eventWake g sid) s = .next s) ∧
        (b = true →
          ∃ t g' sp, exec (.eventWake g sid) s = .next t ∧ t.group? g = some g' ∧ g'.split? sid = some sp ∧ sp.hold = .none ∧
            sp.state = .inTrap ∧ (sp.pc, sp.word) = (if n < c.sp.clause.length then (c.sp.pc, n) else (c.sp.nextPc, 0)) ∧
            c.g.sameRegs g' ∧ g'.flags = c.g.flags ∧ t.mem = s.mem)) ∧
      exec (.starvationGuard g sid) s = .next (if c.issueReady = true ∧ c.sp.starved = none then
        (s.modSplit g sid (fun sp => { sp with starved := some s.serial })).bump else s)) ∧
    (∀ g x w h r, s.group? g = some x → s.wg? x.wgKey = some w → w.status = .resident → x.queueHead = some h → x.split? h.id = some h →
      leastBy (fun (y : Split) => 2 ^ 80 - y.issuedAt) (x.splits.filter (fun y => !y.spilled && y.state == .ready)) = some r →
      x.split? r.id = some r → r.word = 0 →
      let y := x.giveWay s.serial r.id
      (puts x w y).2 = none →
      ∃ t f, exec (.spillRotation g) s = .next t ∧ t.group? g = some f ∧
        f.split? h.id = some { h with spilled := false, slot := r.slot, queuedAt := none } ∧
        f.split? r.id = some { r with spilled := true, slot := h.slot, queuedAt := some s.serial } ∧
        (∀ k, k ≠ h.id → k ≠ r.id → f.split? k = x.split? k) ∧ x.sameRegs f ∧ f.flags = x.flags ∧ t.wgs = s.wgs) ∧
    (∀ g x w, s.group? g = some x → s.wg? x.wgKey = some w → w.status = .resident →
      let y := { x with splits := x.splits.map (fun (sp : Split) =>
        if sp.spilled && s.spilledReady w x sp then sp.wakeSpilled s.serial else sp) }
      (y = x → exec (.spillConditionTest g) s = .next s) ∧
      (y ≠ x → (puts x w (y.refill 8)).2 = none →
        ∃ t f, exec (.spillConditionTest g) s = .next t ∧ t.group? g = some f ∧ f.splits = (y.refill 8).splits ∧ x.sameRegs f ∧
          f.flags = x.flags ∧ t.wgs = s.wgs) ∧
      (8 ≤ x.resident.length → y.refill 8 = y)) ∧
    (∀ core, ∃ t, exec (.capRecompute core) s = .next t ∧ t = { s with cores := t.cores } ∧
      (t.core core) = { (s.core core) with cap := (t.core core).cap } ∧
      (t.core core).cap = min 16 (max 2 (16 - ((s.groupsOn core).map (·.score)).foldl (· + ·) 0 / 16))) ∧
    (∀ core, ∃ t, exec (.scoreHalving core) s = .next t ∧ t = { s with groups := t.groups } ∧
      ∀ k, (((s.groupsOn core).map (·.gid)).count k = 1 → t.group? k = (s.group? k).map (fun g => { g with score := g.score / 2 })) ∧
        (((s.groupsOn core).map (·.gid)).count k = 0 → t.group? k = s.group? k)) ∧
    ∀ die cluster core sched,
      let phys := (die * 7 + cluster) * 8 + core
      let gs := (s.groupsOn phys).filter (fun g => g.sched == sched)
      let n := ((gs.flatMap (fun g => g.splits.filterMap (fun sp => s.ctx? g.gid sp.id))).filter (·.issueReady)).length
      ∃ t reason, exec (.stallHistogramCount die cluster core sched) s = .next t ∧ t = { s with cores := t.cores } ∧
        (t.core phys).hist = (s.core phys).hist.modify sched (fun h =>
          { h with h := countAt h.h (min n 16), z := if n = 0 then countAt h.z reason else h.z }) ∧
        (gs = [] → reason = 0) ∧ (∀ g, leastBy (·.age) gs = some g → g.splits = [] → reason = 7) ∧
        ∀ g sp c, leastBy (·.age) gs = some g → leastBy (fun sp => g.splitRank sp) g.splits = some sp →
          s.ctx? g.gid sp.id = some c → reason = s.stallReason c

/-- 06 R120, 11 R254, R266, 13 R294, R296, 14 R317, R320, 16 R353, R355: what was waited for arrives.  A flag-counted instruction
completes once all it writes is known, one of the transform pipe once the pipe replies to it in its order; a BWAIT passes once its
phase has changed, a TLWAIT once its timeline has reached its ticket, and a split held for an interval, an entry, a place in the
sequencer's queue or the transform pipe is the next to issue, the first that asked before the others; a page walk leaves its
translation in the core's TLB, one that faults nothing. -/
def Obligations.CompletionEvents : Prop :=
  ∀ s : State,
    (∀ g op x w o, s.group? g = some x → s.wg? x.wgKey = some w → x.ops.find? (fun y => y.id == op) = some o → o.ready = true →
      ∃ t h, exec (.flagCountedCompletion g op) s = .next t ∧ t.group? g = some h ∧ x.finished h o ∧ t.mem = s.mem) ∧
    (∀ g op x w o, s.group? g = some x → s.wg? x.wgKey = some w → x.ops.find? (fun y => y.id == op) = some o → o.awaits = [] →
      ((s.core w.phys).pipe.head? = some (g, op) →
        ∃ t h, exec (.transformReply g op) s = .next t ∧ t.group? g = some h ∧ x.finished h o ∧ t.mem = s.mem ∧
          (o.acq = 0 → (t.core w.phys).pipe = (s.core w.phys).pipe.drop 1)) ∧
      ((s.core w.phys).pipe.head? ≠ some (g, op) → exec (.transformReply g op) s = .next s)) ∧
    (∀ g sid c, s.ctx? g sid = some c → c.mayMove = true →
      let passes := fun (e : Instr) (n : Nat) => ∃ t h sp, exec e s = .next t ∧ t.group? g = some h ∧ h.split? sid = some sp ∧
        sp.hold = .none ∧ sp.state = c.sp.state ∧ sp.waitOn = none ∧
        (sp.pc, sp.word) = (if n < c.sp.clause.length then (c.sp.pc, n) else (c.sp.nextPc, 0)) ∧ c.g.sameRegs h ∧
        h.flags = c.g.flags ∧ t.mem = s.mem
      let issues := fun (e : Instr) => exec e s = .next { s with cur := some (g, sid) }
      (∀ i n, decodeAt c.sp.clause c.sp.word = .ok (i, n) →
        (∀ k parity, c.sp.hold = .bwait → c.sp.waitOn = some (k, parity) → s.replayOf c.w.part = none →
          ((s.barrierAt k).passed parity = true → passes (.bwaitPass g sid) n) ∧
          ((s.barrierAt k).passed parity = false → exec (.bwaitPass g sid) s = .next s)) ∧
        ∀ k m, c.sp.hold = .tlwait → c.sp.waitOn = some (k, m) →
          (m ≤ (c.w.timeline k).reached → passes (.tlwaitPass g sid) n) ∧
          ((c.w.timeline k).reached < m → exec (.tlwaitPass g sid) s = .next s)) ∧
      (c.sp.hold = .scoreboard → issues (.scoreboardAdmit g sid)) ∧
      (c.sp.hold = .entry → s.entriesHeld c.w.phys < 32 → s.askedBefore c .entry = false → issues (.scoreboardEntryGrant g sid)) ∧
      (c.sp.hold = .sequencer → (s.stepQueue c.w.phys).length < 8 → s.askedBefore c .sequencer = false →
        issues (.matrixQueueGrant g sid)) ∧
      (c.sp.hold = .pipe → s.pipeBusy c.w.phys = false →
        leastBy (fun (p : Nat × Split) => p.2.askedAt .pipe 0) (s.groups.flatMap (fun y =>
          if (s.wg? y.wgKey).map (·.phys) = some c.w.phys then (y.splits.filter (fun z => z.hold == .pipe)).map (fun z => (y.gid, z))
          else [])) = some (g, c.sp) → issues (.transformPipeAccept c.w.phys))) ∧
    ∀ core part va p, s.part? part = some p →
      match s.miss core p va with
      | .inr _ => exec (.pageWalk core part va) s = .next s
      | .inl (e, _, _) => ∃ t, exec (.pageWalk core part va) s = .next t ∧ t.groups = s.groups ∧ t.mem = s.mem ∧
          (e.part = p.num → e.va ≤ va → va < e.va + e.size → t.translate core p va = e.trans va)

/-! ### Events: the engines -/

/-- 13 R279, R280, R282 to R284, R286 to R288, R291, R292, 03 R57, R67 to R70: the stream engine's steps, of an operation that has met
no fault and whose intervals are clear, no barrier counting its bytes and copy tracing off.  An element between scratchpads and
carve-outs is read and lands at its position unless one of a higher index stands there or is on its way; the decoder, the oldest of
its core, reads and checks its header, then each step lands a symbol, with a word read from the stream when there is none ahead, and
faults where the stream has none left; an operation that has landed all leaves its core, its flags contributed and its ticket complete;
one that has met a fault halts the nearest fault domain. -/
def Obligations.StreamEngineEvents : Prop :=
  ∀ (s : State) (op core : Nat) (o : EngineOp) (w : Workgroup), s.op? op = some (core, o) →
    (s.core core).ops.find? (fun y => y.id == op) = some o → s.wg? o.wgKey = some w →
    let q := Ptr.ofBits o.src
    let d := Ptr.ofBits o.dst
    (o.fault = none → s.partClear core o false = true → s.partClear core o true = true → o.barrier = none →
      (s.partOf w.part).obs.trace.getLsbD 0 = false →
      (∀ i v f qs ps, o.kind = .stream ∨ o.kind = .sgath →
        let u := if o.landed = [] then s.untagHull w o else s
        let got := fun (y : EngineOp) => { y with fetched := y.fetched ++ [(i, v)], fstat := y.fstat ||| f }
        let sp := elemSpan (sideWidth d.fmt q.fmt) (o.destPos i).toNat
        s.elemRead o i = false → i < productOf o.dims → u.bringElem core w o i = .value v f qs → (∀ p ∈ qs, ∃ k, p = .fixed k) →
        (u.modOp core op got).placesFrom w d sp.1 sp.2.1 (engineUse true) = .ok ps → (∀ p ∈ ps, ∃ k, p = .fixed k) →
        (d.space = 2 → ps.any (fun p => (u.modOp core op got).peerBusy (got o) p.key true) = false) →
        ∃ t o', exec (.streamLanding op [i]) s = .next t ∧ t.op? op = some (core, o') ∧ o'.landed = setAdd i o.landed ∧
          o'.fstat = o.fstat ||| f ∧ t.groups.map Group.bare = s.groups.map Group.bare ∧ t.wgs = s.wgs ∧
          (o'.landed.length = productOf o.dims → o'.entry = false ∧ ∀ z ∈ o'.intervals, z.complete = true) ∧
          ∀ k, t.byte k =
            if (o.landed ++ s.underWay op).any (fun j => i < j && o.destPos j == o.destPos i) then s.byte k
            else match sp.2.2 with
              | none => writeIn s.byte ((ps.map Place.key).zip (bytesOfNat sp.2.1 v)) k
              | some hi => writeIn s.byte ((ps.map Place.key).zip (ps.map (fun p => setNibble (s.byte p.key) hi (v % 256)))) k) ∧
      (o.kind = .sdec → (∀ y ∈ (s.core core).ops, y.decoding = true → op ≤ y.id) → o.id = op →
        (∀ k y, y ∈ (s.core k).ops → y.id = op → k = core) → (s.partOf w.part).accRing.size = 0 →
        (∀ h ps, o.outlen = none → o.steps = 0 → 928 ≤ q.len → s.fetchBytes w o q 0 928 = .bytes h ps →
          (q.base % 16 = 0 → headerValid h = true → fieldOf h 0xC 4 + fieldOf h 8 4 ≤ q.len → fieldOf h 4 4 ≤ d.len → fieldOf h 4 4 ≠ 0 →
            ∃ t o', exec (.sdecDecode op 0) s = .next t ∧ t.op? op = some (core, o') ∧ o'.header = h ∧
              o'.outlen = some (fieldOf h 4 4) ∧ o'.rans = (List.range 32).map (fun j => fieldOf h (0x20 + 4 * j) 4) ∧
              o'.fault = none ∧ t.mem = s.mem) ∧
          (q.base % 16 ≠ 0 ∨ headerValid h = false → ∃ t o' e, exec (.sdecDecode op 0) s = .next t ∧ t.op? op = some (core, o') ∧
            o'.fault = some e ∧ e.code = 0x5301 ∧ t.mem = s.mem)) ∧
        ∀ n ahead, o.outlen = some n → o.steps + 1 < n →
          (o.fetched ≠ [] ∧ ahead = o.fetched ∨
            o.fetched = [] ∧ fieldOf o.header 8 4 ≤ 2 * o.consumed ∧ ahead = [] ∨
            o.fetched = [] ∧ 2 * o.consumed < fieldOf o.header 8 4 ∧
              ∃ bs ps, s.fetchBytes w o q (fieldOf o.header 0xC 4 + 2 * o.consumed) 2 = .bytes bs ps ∧ ahead = [(o.consumed, natOfBytes bs)]) →
          let x := o.rans.getD (o.steps % 32) 0
          let sy := symbolAt (freqsOf o.header) 0 0 (x % 4096)
          let x' := sy.2.2 * (x / 4096) + x % 4096 - sy.2.1
          (∀ next used, (2 ^ 16 ≤ x' ∧ next = x' ∧ used = 0 ∨
              x' < 2 ^ 16 ∧ ∃ e r, ahead = e :: r ∧ next = x' * 2 ^ 16 + e.2 ∧ used = 1) →
            ∃ t o', exec (.sdecDecode op 1) s = .next t ∧ t.op? op = some (core, o') ∧ o'.steps = o.steps + 1 ∧
              o'.rans = o.rans.modify (o.steps % 32) (fun _ => next) ∧ o'.consumed = o.consumed + used ∧ o'.fetched = ahead.drop used ∧
              o'.fault = none ∧
              ∀ k, t.byte k = if k = scratchKey w.phys (d.base + o.steps) then BitVec.ofNat 8 (fieldOf o.header (0xA0 + sy.1) 1)
                else s.byte k) ∧
          (x' < 2 ^ 16 → o.fetched = [] → ahead = [] → ∃ t o' e, exec (.sdecDecode op 1) s = .next t ∧ t.op? op = some (core, o') ∧
            o'.fault = some e ∧ e.code = 0x5302 ∧ t.mem = s.mem)) ∧
      (s.streamDone o = true → o.id = op → ∀ x, s.group? o.gid = some x →
        ∃ t h v, exec (.engineOpComplete op) s = .next t ∧ t.group? o.gid = some h ∧ x.tookFlags h o.half o.fstat ∧ x.sameRegs h ∧
          t.wg? w.key = some v ∧ v.timelines = w.timelines.modify o.timeline (·.complete o.ticket) ∧ t.mem = s.mem ∧
          (t.core core).ops = (s.core core).ops.filter (fun y => y.id != op))) ∧
    (s.streamDone o = false → o.stepsDone = true →
      exec (.engineOpComplete op) s = .next ((s.modGroup o.gid (fun g => g.addFlags o.half o.fstat)).dropOp core op)) ∧
    ∀ f x, o.fault = some f → o.reported = false → o.id = op → s.group? o.gid = some x → (∀ h ∈ s.halts, h.wgs.contains w.key = false) →
      ∃ t h g, exec (.engineOpFault op) s = .next t ∧ h ∈ t.halts ∧ h.stage = .raised ∧ h.part = w.part ∧ h.wgs = s.domain w ∧
        h.cause.code = f.code ∧ h.cause.addr = f.addr ∧ t.group? o.gid = some g ∧ g.bare = { x.bare with faulted := true } ∧
        t.wgs = s.wgs

/-- 14 R307, R311, R313 to R315, R317 to R319: the sequencer makes one step of the operation at its head, in its tile's working bank,
of all rows or, at the end of a legacy tile's operation, of eight; AZERO clears the working bank and ASWAP exchanges the banks in
their turn; AREAD brings its rows to the registers, ASTORE to the scratchpad. -/
def Obligations.MatrixEngineEvents : Prop :=
  ∀ s : State,
    (∀ core o w, s.sequencerHead core = some o → s.wg? o.wgKey = some w → s.tileTurn core w.legacy o = true → s.opClear core o = true →
      (s.stepPoison w.phys o = true → exec (.matrixStep core) s = .next (s.failOp core o.id ⟨0x6102, 0, false, 0, false⟩)) ∧
      (s.stepPoison w.phys o = false →
        let last := !((s.stepQueue core).any (fun y => y.tile == o.tile && y.id > o.id))
        let hi := if w.legacy && o.steps + 1 = o.count && (last || 0 < o.row) then o.row + 8 else 64
        let r := s.matRowsStep w.phys o (s.tile core o.tile).working o.row hi
        o.tile < (s.core core).tiles.length →
        ∃ t, exec (.matrixStep core) s = .next t ∧ (t.tile core o.tile).working = r.1 ∧
          (t.tile core o.tile).visible = (s.tile core o.tile).visible ∧ t.mem = s.mem ∧
          if (if 64 ≤ hi then o.steps + 1 else o.steps) = o.count then
            (t.core core).ops = (s.core core).ops.filter (fun y => y.id != o.id) ∧
              ∀ x, s.group? o.gid = some x → ∃ h, t.group? o.gid = some h ∧ x.tookFlags h o.half (o.fstat ||| r.2)
          else
            t.groups = s.groups ∧
              (t.core core).ops = replaceBy (fun y => y.id == o.id)
                (fun _ => { o with fstat := o.fstat ||| r.2, steps := if 64 ≤ hi then o.steps + 1 else o.steps,
                                   row := if 64 ≤ hi then 0 else hi }) (s.core core).ops)) ∧
    ∀ op core w o,
      let bank := (s.tile core o.tile).readBank w.legacy
      let acts := fun (e : Instr) (f : Tile → Tile) =>
        exec e s = .next ((s.modTile core o.tile f).dropOp core op)
      (s.tileOp op .azero = some (core, w, o) → acts (.tileAzeroEffect op) (fun b => { b with working := [] })) ∧
      (s.tileOp op .aswap = some (core, w, o) →
        acts (.tileAswapEffect op) (fun b => { b with working := b.visible, visible := b.working })) ∧
      (s.tileOp op .aread = some (core, w, o) → s.rowsReady core w.legacy o = true →
        ∀ x v p, s.group? o.gid = some x → s.wg? x.wgKey = some v → x.ops.find? (fun y => y.id == o.pending) = some p →
          p.awaits = [] →
          let es := areadElems o bank
          ∃ t h, exec (.tileAreadEffect op) s = .next t ∧ t.group? o.gid = some h ∧ t.mem = s.mem ∧
            x.finished h { p with fstat := orFlags (es.map (·.2.2)), vWrites :=
              (es.map (fun e => (e.1, BitVec.ofNat 32 e.2.1))).filter (fun kv => !p.lost.contains kv.1) }) ∧
      (s.tileOp op .astore = some (core, w, o) → s.rowsReady core w.legacy o = true → s.opClear core o = true →
        ∀ x, s.group? o.gid = some x →
          let es := astoreElems o bank
          let u := es.foldl (fun s e => s.storeElemAt (scratchKey w.phys (Ptr.ofBits o.dst).base) o.fmt e.1 e.2.1) s
          ∃ t h, exec (.tileAstoreEffect op) s = .next t ∧ t.mem = u.mem ∧ t.group? o.gid = some h ∧
            x.tookFlags h o.half (orFlags (es.map (·.2.2))) ∧ x.sameRegs h ∧
            (t.core core).ops = (s.core core).ops.filter (fun y => y.id != op))

/-! ### Events: launches, slices, halts, observation -/

/-- 04 R88 to R95, 02 R33, R34, 05 R97 to R104, 24 R443 to R445, 22 R414: from a submission to the end of a launch.  A port takes the
outcome of what is written to it: a ticket, STATE 1 and an entry of the queue, or the code of the first check that failed, which is
recorded; a launch whose prerequisites have ended is ready, and one of which a prerequisite failed fails; a carve-out is fixed where
no other meets it; placement begins, or a mint that fails ends the launch; a gang is placed on the cores given; a group ends when
nothing of it is outstanding, a workgroup retires when its groups have ended, and a launch whose workgroups have all retired
completes, or fails where a domain of it was halted. -/
def Obligations.LaunchEvents : Prop :=
  ∀ (s : State),
    (∀ part p, s.part? part = some p →
      (∀ (port : Nat) (addr : DWord), port < 16 →
        let v := s.judge p addr.toNat
        let answers := fun (u : State) =>
          exec (.submit part port addr) s = .next (u.modPart part (fun p => { p with status := p.status.modify port (fun _ => v.status) }))
        (∀ l, v = .accepted l → answers
          ((((s.modPart p.num (fun p => { p with ticketNext := p.ticketNext + 1, launches := p.launches ++ [l] })).vaStore p (l.block + 0x70)
            (bytesOfNat 8 l.ticket)).vaStore p (l.block + 4) (bytesOfNat 4 1))) ∧ l.ticket = p.ticketNext ∧
            (p.launches.filter (·.queued)).length < 256) ∧
        (v = .full → answers s) ∧
        ∀ code, v = .rejected code → answers (s.record (s.launchRecord p code none))) ∧
      (∀ port, exec (.submitStatusRead part port) s = .next { s with bus := bytesOfNat 8 (p.status.getD port 0).toNat }) ∧
      (∀ (ticket : DWord), ∃ t q, exec (.failack part ticket) s = .next t ∧ t.part? part = some q ∧ t.mem = s.mem ∧
        ∀ l, l ∈ q.launches ↔ l ∈ p.launches ∧ ¬(l.ticket = ticket.toNat ∧ l.state = 5 ∧ l.queued = true)) ∧
      ∀ ticket l, p.launch? ticket = some l →
        (l.state = 1 →
          let failed := l.pre.any (fun t => p.launches.any (fun x => x.ticket == t && x.queued && x.state == 5))
          (failed = true → exec (.launchReady part ticket) s =
            .next ((s.record (s.launchRecord p 0xB108 (some ticket))).failLaunch part ticket)) ∧
          (failed = false → p.runs = true → (∀ t ∈ l.pre, t < p.ticketNext ∧ ∀ x ∈ p.launches, x.queued = true → x.ticket ≠ t) →
            exec (.launchReady part ticket) s = .next (s.setLaunchState part ticket 2)) ∧
          (failed = false → (∃ t ∈ l.pre, ∃ x ∈ p.launches, x.queued = true ∧ x.ticket = t) →
            exec (.launchReady part ticket) s = .next s)) ∧
        (∀ off, l.state = 2 → p.runs = true → l.firnLen ≠ 0 → l.carve = none → off % 0x10000 = 0 → off + l.firnLen ≤ 2 ^ 26 →
          (∀ k ∈ p.carves, k.2.1 + k.2.2 ≤ off ∨ off + l.firnLen ≤ k.2.1) → (∀ d ∈ p.pdie, s.carvedOn d + l.firnLen ≤ 2 ^ 26) →
          ∃ t q, exec (.carveoutOffsetFix part ticket off) s = .next t ∧ t.part? part = some q ∧
            q.launch? ticket = some { l with carve := some off } ∧ q.carves = p.carves ++ [(ticket, off, l.firnLen)] ∧ t.mem = s.mem) ∧
        (l.state = 2 → p.runs = true → l.firnLen = 0 ∨ l.carve.isSome = true →
          (∀ i, s.mintFault p l = some i → exec (.placementBegin part ticket) s =
            .next ((s.record { s.launchRecord p 0x200A (some ticket) with paddr := i }).failLaunch part ticket)) ∧
          (s.mintFault p l = none → s.firstFits p l = true → exec (.placementBegin part ticket) s =
            .next (((s.setLaunchState part ticket 3).flushPart part).flushCode part))) ∧
        (∀ x rest k, l.state = 3 → l.wantsPlace = true → p.runs = true → s.turnOf p l = true → p.physCluster x.ldie x.lcluster = some k →
          ((s.share k).resident = some part ∧ s.gangFits p l (x :: rest) = true) ∨
            ((s.share k).resident = none ∧ (s.adoptDefects k).gangFits p l (x :: rest) = true ∧ s.turnAt k = some part ∧
              s.savedWgs part x.ldie x.lcluster = []) →
          ∃ t q, exec (.workgroupPlace part ticket (x :: rest)) s = .next t ∧ t.part? part = some q ∧
            (q.launch? ticket).map (·.nextWg) = some (l.nextWg + (rest.length + 1)) ∧
            (t.wgs.map (fun w => (w.part, w.ticket, w.wg)) = s.wgs.map (fun w => (w.part, w.ticket, w.wg)) ++
              (List.range (rest.length + 1)).map (fun i => (part, l.ticket, l.nextWg + i))) ∧
            (∀ w ∈ t.wgs, w ∈ s.wgs ∨ (w.status = .resident ∧ w.gangSize = rest.length + 1 ∧ w.timelines = List.replicate l.tlallot Timeline.zero))) ∧
        (l.failed = false → s.launchOver part l = true → exec (.launchComplete part ticket) s = .next (
          let u := ((s.flushPart part).setLaunchState part ticket 4).modPart part (fun p =>
            { p with launches := p.launches.filter (fun x => x.ticket != ticket), carves := p.carves.filter (fun c => c.1 != ticket) })
          let v := ((u.partOf part).launches.map (·.ticket)).foldl (fun s t => s.readyLaunch part t) u
          if l.notify then v.notifyLaunch part 1 ticket else v)) ∧
        (l.failed = true → s.launchOver part l = true →
          exec (.launchFail part ticket) s = .next ((s.flushPart part).failLaunch part ticket))) ∧
    (∀ g x, s.group? g = some x → x.ended = false → s.groupOver x = true →
      exec (.groupEnd g) s = .next (s.modGroup g (fun x => { x with ended := true, resv := [] }))) ∧
    ∀ k w, s.wg? k = some w → s.mayRetire w = true →
      let u := (s.modWg k (fun x => { x with retired := true })).modLaunch w.part w.ticket (fun l => { l with retired := l.retired + 1 })
      ((u.gangOf w).all (·.retired) = false → exec (.workgroupRetire k) s = .next u) ∧
      ((u.gangOf w).all (·.retired) = true → ∃ t, exec (.workgroupRetire k) s = .next t ∧ t.mem = s.mem ∧
        (∀ y, y ∈ t.wgs ↔ y ∈ u.wgs ∧ ∀ z ∈ u.gangOf w, z.key ≠ y.key) ∧
        ∀ h, h ∈ t.groups ↔ h ∈ s.groups ∧ ∀ z ∈ u.gangOf w, z.key ≠ h.wgKey)

/-- 05 R105 to R110, 22 R414, R415, R418 to R426, 24 R447, R460 to R462, 21 R402: slices, pre-emption, halts and dumps.  A quantum that
expires, a higher priority or a retirement stops the resident partition's workgroups, their waits abandoned; once every context can be
saved they are, and the cluster has no resident partition and none of its code; the partition whose turn it is has its saved
workgroups restored on the cores they belong to; a cluster that retires empty is retired; a fatal fault halts the workgroups of its
domain and fails its launches; the writer takes the drained domain that halted first, writes its dump where it fits, and frees it; a
held message is put into the ring once there is room. -/
def Obligations.PreemptionAndHaltEvents : Prop :=
  ∀ s : State, s.Inv →
    (∀ die cluster, die < 4 → cluster < 7 →
      let k := die * 7 + cluster
      let stops := fun (e : Instr) => ∃ t, exec e s = .next t ∧ t.mem = s.mem ∧ (t.share k).preempt = true ∧
        (∀ w ∈ t.wgs, w ∈ s.wgs ∨ ∃ v ∈ s.wgs, w = { v with status := .stopping }) ∧
        ∀ w ∈ s.residentWgs k, w.status = .resident → (∀ v ∈ t.wgs, v.key = w.key → v.status = .stopping) ∧
          ∀ g ∈ t.groups, g.wgKey = w.key → ∀ sp ∈ g.splits, sp.hold ≠ .bwait ∧ sp.hold ≠ .tlwait ∧ sp.hold ≠ .event
      (∀ n p, (s.share k).resident = some n → s.part? n = some p →
        ((s.share k).preempt = true → exec (.quantumExpiry die cluster) s = .next s ∧ exec (.preemption die cluster) s = .next s) ∧
        ((s.share k).preempt = false →
          let leaves := (s.share k).retiring = true ∨ (∃ q ∈ s.waiters k, p.prio < q.prio) ∨
            (s.residentWgs k = [] ∧ s.wantsCluster k p = false ∧ s.waiters k ≠ [])
          (leaves → stops (.preemption die cluster) ∧ exec (.quantumExpiry die cluster) s = .next s) ∧
          (¬leaves → exec (.preemption die cluster) s = .next s ∧
            ((∃ q ∈ s.waiters k, q.prio = p.prio) → stops (.quantumExpiry die cluster)) ∧
            ((∀ q ∈ s.waiters k, q.prio ≠ p.prio) → exec (.quantumExpiry die cluster) s =
              .next (s.modShare k (fun c => { c with sliceStart := (s.die die).cycle, quantum := s.quantumOf k p })))))) ∧
      ((s.share k).resident = none → (s.share k).retiring = true → s.swapping k = none → (∀ w ∈ s.wgs, w.onCore = true → coreCluster w.phys ≠ k) →
        ∃ t, exec (.preemption die cluster) s = .next t ∧ t.wgs = s.wgs ∧ (t.share k).state = .retired ∧ (t.share k).retiring = false) ∧
      (∀ part, (s.share k).resident = some part → (s.share k).preempt = true →
        ((s.residentWgs k).all s.canSave = false → exec (.contextSave die cluster) s = .next s) ∧
        ((s.residentWgs k).all s.canSave = true → ∃ t, exec (.contextSave die cluster) s = .next t ∧
          (t.share k).resident = none ∧ (t.share k).preempt = false ∧
          (∀ v ∈ s.residentWgs k, ∀ w ∈ t.wgs, w.key = v.key → w.status = .saved ∧ w.savedAt = k) ∧
          (∀ w ∈ t.wgs, (∀ v ∈ s.residentWgs k, v.key ≠ w.key) → w ∈ s.wgs) ∧
          ∀ c x, (c, x) ∈ t.cores → coreCluster c = k → (∀ l ∈ x.icache, l.part ≠ part) ∧ ∀ l ∈ x.l1, l.part ≠ part)) ∧
      ∀ part p d c scheds, s.part? part = some p → p.logicalOf k = some (d, c) → (s.share k).resident = none →
        (s.share k).state = .enabled ∨ s.swapping k = some part → s.turnAt k = some part →
        let ws := s.savedWgs part d c
        let u := s.adoptDefects k
        let phys := fun (key : Nat) => (((ws.find? (fun w => w.key == key)).bind (fun w => u.physCore k w.lcore))).getD 0
        u.schedsTake ws phys scheds = true →
        (ws ≠ [] → exec (.contextRestore die cluster part scheds true) s = .next (s.loseContext die k p)) ∧
        ∃ t, exec (.contextRestore die cluster part scheds false) s = .next t ∧ (t.share k).resident = some part ∧
          (t.share k).preempt = false ∧
          ∀ w ∈ ws, ∃ v, t.wg? w.key = some v ∧ v.status = .resident ∧ v.phys = phys w.key ∧ v.savedScratch = []) ∧
    (∀ h, s.halts.find? (fun h => h.stage == .raised) = some h →
      let ks := s.haltSet h
      ∃ t, exec .faultDomainHalt s = .next t ∧ t.mem = s.mem ∧
        (∀ w ∈ t.wgs, ks.contains w.key = true → w.status = .halted ∨ w.status = .saved) ∧
        (∀ w ∈ t.wgs, ks.contains w.key = false → w ∈ s.wgs) ∧
        t.groups = s.groups.map (fun g =>
          if s.wgs.any (fun w => ks.contains w.key && w.status != .saved && w.key == g.wgKey) then g.abandon else g) ∧
        (∀ p, s.part? h.part = some p → t.part? h.part = some (p.failLaunches h)) ∧
        { h with wgs := ks, stage := .halted, haltCyc := (s.die h.die).cycle, dropped := 17 ≤ s.dumpsWaiting } ∈ t.halts) ∧
    ((∀ h ∈ s.halts, h.stage ≠ .raised) → exec .faultDomainHalt s = .next s) ∧
    (let hs := s.halts.filter (fun h => h.stage == .halted)
      ∀ h,
        let area := (s.partOf h.part).dumpArea
        let gone := fun (t : State) => ∀ w ∈ t.wgs, h.wgs.contains w.key = false
        (hs.find? (fun h => h.dropped && s.drainedAll h) = some h → exec .dumpWrite s = .next (s.dropDump h area) ∧ gone (s.dropDump h area)) ∧
        (hs.find? (fun h => h.dropped && s.drainedAll h) = none → leastBy (fun (h : Halt) => h.haltCyc) (hs.filter (fun h => !h.dropped)) = some h →
          (s.drainedAll h = false → exec .dumpWrite s = .next s) ∧
          (s.drainedAll h = true → area.size = 0 ∨ area.size < s.num (area.addr + 0x10) 8 + 256 →
            exec .dumpWrite s = .next (s.dropDump h area) ∧ gone (s.dropDump h area)) ∧
          (s.drainedAll h = true → area.size ≠ 0 → s.num (area.addr + 0x10) 8 + 256 ≤ area.size →
            exec .dumpWrite s = .next (s.putDump h area) ∧ gone (s.putDump h area)))) ∧
    ∀ part p, s.part? part = some p → p.irqJ ≠ 0 →
      (s.irqFull p = true → exec (.irqMessageDeliver part) s = .next s) ∧
      (s.irqFull p = false →
        (∀ m rest, p.held = m :: rest → ∃ t q, exec (.irqMessageDeliver part) s = .next t ∧ t.part? part = some q ∧ q.held = rest ∧
          t.mem = (s.irqPut p m.kind m.value m.ticket).mem) ∧
        (p.held = [] → exec (.irqMessageDeliver part) s = .next (s.signalRecords part)))

/-- 23 R431, R434, R437 to R442, 04 R71 to R79: observation, replay and the loading of code.  A split asked to stop stops at its next
stop site or clause boundary, and one that meets an enabled breakpoint, or a BKPT, there triggers the stop; a firing of the sample
timer names the split that comes first, and its sample is written at that split's next stop site or dropped; the trigger of a snapshot
latches one die after another, and the image is written when all have latched; a checkpoint is taken once every context can be saved,
and its pending regions are copied; an event that a replay presents is performed in the order of its home's log, held where its entry
comes later, and a divergence elsewhere, which ends the replay; a code object is loaded in full, or only recorded. -/
def Obligations.ObservationEvents : Prop :=
  ∀ s : State,
    (∀ g sid c, s.ctx? g sid = some c →
      (c.sp.stop.due = true → c.sp.word = 0 ∨ (s.siteOf c.w c.sp).isSome = true →
        exec (.stopAtSite g sid) s = .next (s.modSplit g sid (fun x => { x with stop := .stopped }))) ∧
      (c.sp.stop = .running → c.mayMove = true →
        (c.sp.state = .ready ∨ c.sp.state = .inTrap → s.bpHits c = true →
          exec (.stopAtSite g sid) s = .next (s.triggerStop c (c.sp.bkptTag.getD 0))) ∧
        (s.bpHits c = false → ∀ tag, c.sp.bkptTag = some tag → (s.partOf c.w.part).obs.bken = true →
          exec (.stopAtSite g sid) s = .next (s.triggerStop c tag)) ∧
        (s.bpHits c = false → c.sp.bkptTag = none → exec (.stopAtSite g sid) s = .next s))) ∧
    (∀ die cluster core sched,
      let phys := (die * 7 + cluster) * 8 + core
      (s.sampleSplit phys sched = none → exec (.sampleTimer die cluster core sched) s = .next s) ∧
      ∀ c stall, s.sampleSplit phys sched = some (c, stall) →
        ((s.partOf c.w.part).obs.smpl = 0 → exec (.sampleTimer die cluster core sched) s = .next s) ∧
        ((s.partOf c.w.part).obs.smpl ≠ 0 → exec (.sampleTimer die cluster core sched) s = .next { s with samples := s.samples ++
          [{ gid := c.g.gid, sid := c.sp.id, part := c.w.part, die := die, cycle := (s.die die).cycle, stall := stall }] })) ∧
    (∀ g sid x, s.samples.find? (fun x => x.gid == g && x.sid == sid) = some x →
      let done := fun (u : State) => exec (.sampleWrite g sid) s = .next { u with samples := u.samples.erase x }
      let late := 65536 < (s.die x.die).cycle - x.cycle
      (s.ctx? x.gid x.sid = none → done (s.dropSample x.part)) ∧
      ∀ c, s.ctx? x.gid x.sid = some c →
        (late → done (s.dropSample x.part)) ∧
        (¬ late → s.siteOf c.w c.sp = none → exec (.sampleWrite g sid) s = .next s) ∧
        ∀ site, ¬ late → s.siteOf c.w c.sp = some site → c.mayMove = true → c.sp.state = .ready ∨ c.sp.state = .inTrap →
          done (s.ringPut (s.partOf x.part) (s.partOf x.part).obs.sbuf (s.sampleBytes c x site))) ∧
    (∀ die, die < 4 →
      (s.snap.active = false → exec (.snapshotLatch die) s = .next s) ∧
      (s.snap.active = true → s.snap.latched.any (fun x => x.1 == die) = true → exec (.snapshotLatch die) s = .next s) ∧
      (s.snap.active = true → s.snap.latched.any (fun x => x.1 == die) = false → ∃ t, exec (.snapshotLatch die) s = .next t ∧
        (s.snap.latched.length ≠ 3 → t = { s with snap := { s.snap with
          latched := s.snap.latched ++ [(die, (s.die die).cycle)], blocks := s.snap.blocks ++ s.snapDie die (fun k => (s.swapping k).isSome) } }) ∧
        (s.snap.latched.length = 3 → t.snap.active = false ∧ t.snap.latched = []))) ∧
    (∀ part p, s.part? part = some p →
      (s.mayCheckpoint p = false → exec (.checkpoint part) s = .next (s.modPart part (fun p => { p with ckptBusy := false }))) ∧
      (s.mayCheckpoint p = true →
        let u := (s.signalPart part).modPart part (fun p => { p with ckptBusy := true })
        ((u.checkpointWgs part).all u.canSave = false → exec (.checkpoint part) s = .next u) ∧
        ((u.checkpointWgs part).all u.canSave = true → ∃ t, exec (.checkpoint part) s = .next t ∧
          ∀ q, t.part? part = some q → q.ckptBusy = false ∧ (q.logOff = true ∨ q.logOff = false ∧ q.ckpts ≠ []))) ∧
      (∀ va, ∃ t q, exec (.checkpointRegionCopy part va) s = .next t ∧ t.part? part = some q ∧ t.mem = s.mem ∧
        q.ckpts.map (·.num) = p.ckpts.map (·.num) ∧ ∀ k ∈ q.ckpts, ∀ r ∈ k.pending, r.1 ≠ va) ∧
      ∀ obj,
        (∀ code, loadObject obj p.imageNext = .failed code → exec (.codeObjectLoad part obj) s =
          .next (s.record { s.plainRecord part (p.pdie.headD 0) code 0 with engine := 13 * 2 ^ 24 })) ∧
        ∀ xs img, loadObject obj p.imageNext = .ready xs img →
          let keys := xs.mapM (s.loadSection p)
          (keys = none → exec (.codeObjectLoad part obj) s = .next s) ∧
          ∀ ws, keys = some ws → ∃ t q, exec (.codeObjectLoad part obj) s = .next t ∧
            (s.outerWrite ws.flatten).part? part = some q ∧ t.mem = (s.outerWrite ws.flatten).mem ∧
            t.part? part = some { q with images := q.images ++ [img], imageNext := q.imageNext + 1 }) ∧
    ∀ part home r, s.replayOf part = some r →
      (∀ kind ticket wg group lane addr value,
        let e : Event := { kind := kind, lane := lane, group := group, wg := wg, ticket := ticket, home := home, addr := addr, value := value }
        let i := Instr.replayEvent part home kind ticket wg group lane addr value
        let diverges := fun (seq : Nat) => ∃ t, exec i s = .next t ∧ t = s.diverge part home seq ticket wg group lane addr ∧ t.replayOf part = none
        (logOf home r.log = [] → diverges 0) ∧
        ∀ x rest, logOf home r.log = x :: rest →
          (e.hits x = true → x.value ≠ value → diverges x.seq) ∧
          (e.hits x = true → x.value = value →
            let u := s.modPart part (fun p => { p with replay := some { r with log := setLog home rest r.log } })
            (setLog home rest r.log ≠ [] → exec i s = .next u) ∧
            (setLog home rest r.log = [] → exec i s = .next (u.replayDone part { r with log := [] }))) ∧
          (e.hits x = false → (rest.take 63).any e.hits = true → exec i s = .next s) ∧
          (e.hits x = false → (rest.take 63).any e.hits = false → diverges x.seq)) ∧
      (logOf home r.log = [] → exec (.replayHoldTimeout part home) s = .next s) ∧
      ∀ x rest, logOf home r.log = x :: rest → ∃ t, exec (.replayHoldTimeout part home) s = .next t ∧
        t = s.diverge part home x.seq x.ticket x.wg x.group x.lane x.addr ∧ t.replayOf part = none

/-! ### Events: coherence and Braid -/

/-- 20 R366 to R381, 15 R334, 25 R471, 07 R162: coherence as the machine makes it happen.  A D word that is registered keeps its bytes,
which now stand at the slices, where no other core holds it registered; a line that leaves an L1 leaves no word there; a forwarded read
brings the slices' word; the home directory answers a request with the state and the holders that the manual gives, memory and, for a
shared copy, what every core sees unchanged; quiet siblings merge; a node that is evicted leaves the directory; a recall for ownership
leaves no word of the node registered on the die; the companion writes and reads memory at the slices, a device register by its own
event, and an address that is nothing is a fault. -/
def Obligations.CoherenceEvents : Prop :=
  ∀ s : State, s.Inv →
    (∀ core key,
      ((∀ w, (s.core core).word? key = some w → w.st ≠ .dirty) → exec (.sliceRegistration core key) s = .next s) ∧
      ∀ w, (s.core core).word? key = some w → w.st = .dirty →
        let unit := (s.core core).unitOf w
        ∃ t, exec (.sliceRegistration core key) s = .next t ∧ (∀ x ∈ unit, (t.core core).word? x.key = some { x with st := .registered }) ∧
          (∀ k, t.byte k = writeIn s.byte
            (unit.flatMap (fun x => maskedBytes x.key (mergeNibbles (s.sliceWord x.key) x.data x.nibs) x.dirty)) k) ∧
          ∀ c x, c ≠ core → (t.core c).word? key = some x → x.st ≠ .registered) ∧
    (∀ core line,
      ((∀ w ∈ (s.core core).l1, w.key / 32 ≠ line) → exec (.l1Eviction core line) s = .next s) ∧
      ∃ t, exec (.l1Eviction core line) s = .next t ∧ (∀ w ∈ (t.core core).l1, w.key / 32 ≠ line) ∧
        ∀ k, k / 128 ≠ line → t.byte k = s.byte k) ∧
    (∀ core key,
      ((s.core core).word? key = none → (s.core core).roomy [key / 32] → s.poisonAt (4 * key) = false → (s.registrants key (some core)).any (fun c => coreDie c == coreDie core) = true →
        ∃ t w, exec (.forwardedRead core key) s = .next t ∧ t.mem = s.mem ∧ (t.core core).word? key = some w ∧
          w.st = .valid ∧ w.data = s.sliceWord key ∧ w.have_ = 15 ∧ ∀ c pa, t.seeByte c pa = s.seeByte c pa ∨ t.seeByte c pa = s.byte pa) ∧
      ((s.registrants key (some core)).any (fun c => coreDie c == coreDie core) = false → exec (.forwardedRead core key) s = .next s)) ∧
    (∀ holder own line, holder ≤ 4 → memoryRange (128 * line) 128 = true →
      ∃ t, exec (.directoryRequest holder own line) s = .next t ∧ t.mem = s.mem ∧
        (own = false → ∀ c pa, t.seeByte c pa = s.seeByte c pa) ∧
        let home := homeDie (line * 128)
        let d := s.die home
        ∀ n, d.nodes.find? (fun n => n.covers line) = some n → (∀ x ∈ d.nodes, x.covers line = true → x.base = n.base) →
          n.st = .u ∨ n.hold = holderBit holder ∨ d.splitEn = false ∨ n.size = 0 →
          ∃ m, (t.die home).node? line = some m ∧ m.base = n.base ∧ m.size = n.size ∧
            m.st = (if own = true ∨ n.st = .o ∧ n.hold = holderBit holder then .o else .s) ∧
            m.hold = if own = true ∨ n.st = .u then holderBit holder else n.hold ||| holderBit holder) ∧
    (∀ die base a, die < 4 → (s.die die).nodes.find? (fun n => n.base == base) = some a → a.size < 9 →
      let lo := base / 2 ^ (a.size + 1) * 2 ^ (a.size + 1)
      let sib := if base = lo then base + 2 ^ a.size else lo
      ∀ b, (s.die die).nodes.find? (fun n => n.base == sib && n.size == a.size) = some b →
        ((s.die die).isQuiet a = false ∨ (s.die die).isQuiet b = false → exec (.nodeMerge die base) s = .next s) ∧
        ∀ st hold, (s.die die).isQuiet a = true → (s.die die).isQuiet b = true → mergedState s.free a b = some (st, hold) →
          ∃ t n, exec (.nodeMerge die base) s = .next t ∧ n ∈ (t.die die).nodes ∧ n.base = lo ∧ n.size = a.size + 1 ∧ n.st = st ∧
            n.hold = hold ∧ t.mem = s.mem ∧ t.cores = s.cores) ∧
    (∀ die base, die < 4 → ∃ t, exec (.directoryEviction die base) s = .next t ∧ t.mem = s.mem ∧
      ∀ n ∈ (t.die die).nodes, n.base ≠ base) ∧
    (∀ die base n sharing, die < 4 → (s.die (homeDie (128 * base))).nodes.find? (fun n => n.base == base) = some n → n.st = .o →
      n.hold.getLsbD die = true → ∃ t, exec (.recall die base sharing) s = .next t ∧ t.mem = s.mem ∧
        ∀ c w, coreDie c = die → w ∈ (t.core c).l1 → n.base ≤ w.key / 32 → w.key / 32 < n.base + 2 ^ n.size → w.st ≠ .registered) ∧
    (∀ die base,
      ((s.die (homeDie (128 * base))).nodes.find? (fun n => n.base == base) = none → exec (.recallBoundExceeded die base) s = .next s) ∧
      ∀ n, (s.die (homeDie (128 * base))).nodes.find? (fun n => n.base == base) = some n →
        let meets := fun (p : Partition) =>
          ∃ e ∈ p.extents, e.device = false ∧ 128 * n.base < e.base + e.size ∧ e.base < 128 * (n.base + 2 ^ n.size)
        ((∀ p ∈ s.parts, ¬ meets p) → exec (.recallBoundExceeded die base) s = .next s) ∧
        ∃ t, exec (.recallBoundExceeded die base) s = .next t ∧ t.wgs = s.wgs ∧
          ∀ p ∈ s.parts, meets p → ∃ h ∈ t.halts, h.part = p.num ∧ h.fdom = 3 ∧
            ((∃ x ∈ s.halts, x.part = p.num ∧ x.fdom = 3) ∨ (h.cause.code = 0x7001 ∧ h.cause.addr = 128 * n.base ∧ h.cause.paddr = die))) ∧
    (∀ pa bytes, s.linkDown = false → bytes ≠ [] →
      (memoryRange pa bytes.length = true → ∃ t, exec (.companionWrite pa bytes) s = .next t ∧
        ∀ k, t.byte k = writeIn s.byte ((List.range bytes.length).zip bytes |>.map (fun x => (pa + x.1, x.2))) k) ∧
      (memoryRange pa bytes.length = false → isDevice pa = true →
        exec (.companionWrite pa bytes) s =
          .next { s with agenda := (s.deviceStore pa bytes.length (natOfBytes bytes)).toList ++ s.agenda }) ∧
      (memoryRange pa bytes.length = false → isDevice pa = false → exec (.companionWrite pa bytes) s = .fault (.notPopulated pa))) ∧
    ∀ pa n, s.linkDown = false → n ≠ 0 →
      (memoryRange pa n = true → ∃ t, exec (.companionRead pa n) s = .next t ∧ t.mem = s.mem ∧
        ((∀ i < n, s.poisonAt (pa + i) = false) → t.bus = s.bytes pa n) ∧ ((∃ i < n, s.poisonAt (pa + i) = true) → t.bus = []) ∧
        ∀ c k, t.seeByte c k = s.seeByte c k) ∧
      (memoryRange pa n = false → isDevice pa = true →
        exec (.companionRead pa n) s = .next { s with bus := bytesOfNat n (s.deviceLoad 0 pa n) }) ∧
      (memoryRange pa n = false → isDevice pa = false → exec (.companionRead pa n) s = .fault (.notPopulated pa))

/-- 21 R388 to R393, R397, R398, 11 R263, 20 R379: Braid.  A packet is refused where this package does not hold its partition, dropped
where it has been performed, held while it is ordered and its snapshot is not covered, and else performed at the line's home: a fault
of the translation or poison is answered, a load's answer carries the bytes, a store's bytes stand in memory, an atomic's old value is
returned and its new one stored; a held packet is performed once its snapshot is covered; an acknowledgement raises ACKED and serves
the operation that the packet was sent for, and the fault that it carries is raised; a refused packet, and a destination that no path
reaches, are fatal to the partition; a path that goes down has its packets sent again as replays; a path comes up again once nothing
on it is unacknowledged. -/
def Obligations.FabricEvents : Prop :=
  ∀ s : State,
    let fatalTo := fun (t : State) (part : Nat) => ∃ h ∈ t.halts, h.part = part ∧ h.fdom = 3
    (∀ p,
      (s.part? p.part = none → exec (.packetReceive p) s = .next { s with reply := some (packetAnswer p true 0 [] []) }) ∧
      ∀ pt, s.part? p.part = some pt →
        (s.performed p = true → exec (.packetReceive p) s = .next s) ∧
        (s.performed p = false → (∀ q ∈ s.heldPkts, ¬(q.source = p.source ∧ q.part = p.part ∧ q.path = p.path ∧ q.seq = p.seq)) →
          (p.ordered = true → s.covered p = false → exec (.packetReceive p) s = .next { s with heldPkts := s.heldPkts ++ [p] }) ∧
          (p.ordered = false ∨ s.covered p = true → pt.replay = none → s.observes p.part = false →
            let at_ := s.ownerByte pt (128 * p.line + (packetOffsets p).headD 0) (packetUse p)
            (∀ code, at_ = .error code → ∃ t, exec (.packetReceive p) s = .next t ∧ t.mem = s.mem ∧
              t.reply = some (packetAnswer p false code [] [])) ∧
            ∀ pa f, at_ = .ok (pa, f) →
              let line := pa / 128 * 128
              let clean := ∀ o ∈ packetOffsets p, s.poisonAt (line + o) = false
              (packetReads p = true → ¬ clean → ∃ t, exec (.packetReceive p) s = .next t ∧ t.mem = s.mem ∧
                t.reply = some (packetAnswer p false 0x6002 [] [])) ∧
              (p.kind = 0 → clean → ∃ t tags, exec (.packetReceive p) s = .next t ∧ t.mem = s.mem ∧
                t.reply = some (packetAnswer p false 0 (p.bytes.map (fun b => (b.1, s.byte (line + b.1)))) tags)) ∧
              (p.kind = 1 → pt.obs.ckt = 0 → ∃ t, exec (.packetReceive p) s = .next t ∧
                t.reply = some (packetAnswer p false 0 [] []) ∧ ∀ k, t.byte k = writeIn s.byte (s.packetBytes p line) k) ∧
              ∀ l, p.kind = 2 → pt.obs.ckt = 0 → p.lanes = [l] → p.op < 9 → clean →
                let old := s.num (line + l.off) p.width
                ∃ t, exec (.packetReceive p) s = .next t ∧
                  t.reply = some (packetAnswer p false 0 (((List.range p.width).map (fun i => 8 * l.lane + i)).zip (bytesOfNat p.width old)) []) ∧
                  ∀ k, t.byte k = writeIn s.byte (((List.range p.width).map (fun i => line + l.off + i)).zip
                    (bytesOfNat p.width (atomNew p.op p.width p.fmt old (l.operand.toNat % 2 ^ (8 * p.width))))) k))) ∧
    (∀ source part path seq p pt,
      s.heldPkts.find? (fun q => q.source == source && q.part == part && q.path == path && q.seq == seq) = some p →
      s.part? part = some pt → pt.replay = none →
        (p.ordered = true → s.covered p = false → exec (.orderedPacketRelease source part path seq) s = .next s) ∧
        (p.ordered = false ∨ s.covered p = true → exec (.orderedPacketRelease source part path seq) s =
          .next (({ s with heldPkts := s.heldPkts.filter (fun q =>
            !(q.source == source && q.part == part && q.path == path && q.seq == seq)) } : State).performPacket pt p))) ∧
    (∀ dest part path seq q, s.sentPacket dest part path seq = some q →
      (∀ bytes tags g o, s.answers = [] → q.engine = false → q.keep = none → s.group? q.gid = some g → g.ops.find? (fun o => o.id == q.opId) = some o →
        q.pkt.kind ≠ 0 ∨ o.untagged q tags = 0 →
        ∃ t g', exec (.packetAck dest part path seq bytes tags 0) s = .next t ∧ t.mem = s.mem ∧ t.group? q.gid = some g' ∧
          g'.ops.find? (fun o => o.id == q.opId) = some (o.take q (q.gotBytes bytes) false) ∧ t.sent = (s.dropSent q).sent ∧
          t.counts = (s.countAck q).counts ∧ (t.braid q.pkt.part q.dest q.pkt.path).acked = ((s.braid q.pkt.part q.dest q.pkt.path).acked + 1) % 2 ^ 32) ∧
      (∀ bytes tags code, code ≠ 0 → q.engine = false →
        let u := ((s.dropSent q).countAck q).serveAnswer q [] true
        exec (.packetAck dest part path seq bytes tags code) s =
          .next (({ u with answers := s.answers ++ [(q, code)] } : State).raiseAnswers q.gid q.opId)) ∧
      (∀ bytes tags g o, q.engine = false → q.pkt.kind = 0 → s.group? q.gid = some g → g.ops.find? (fun o => o.id == q.opId) = some o →
        o.untagged q tags ≠ 0 →
        let u := (((s.dropSent q).countAck q).serveAnswer q [] true).modGroup q.gid (fun g =>
          { g with ops := replaceBy (fun o => o.id == q.opId) PendingOp.stopAll g.ops })
        exec (.packetAck dest part path seq bytes tags 0) s =
          .next (({ u with answers := s.answers ++ [({ q with lanes := o.untagged q tags }, 0x2006)] } : State).raiseAnswers q.gid q.opId)) ∧
      ∃ t, exec (.packetRefusal dest part path seq) s = .next t ∧ fatalTo t part) ∧
    (∀ dest path, path < Config.pathsPerRoute → dest ≠ s.pod → (s.linkState dest path).takes = true →
      ∃ (u : State) (r : ErrorRecord), exec (.pathDown dest path) s = .next (u.record r) ∧ u.linkState dest path = .down ∧ r.code = 0x8001 ∧ r.paddr = dest ∧
        u.sent.length = s.sent.length ∧ (∀ q ∈ u.sent, q.dest = dest → q.pkt.path = path → q.pkt.replay = true ∧ q.pinnedDown = true) ∧
        (∀ q ∈ u.sent, ¬(q.dest = dest ∧ q.pkt.path = path) → q ∈ s.sent) ∧ u.mem = s.mem) ∧
    (∀ dest path, (s.linkState dest path).takes = false →
      ((∀ b ∈ s.counts, b.dest = dest → b.path = path → b.sent = b.acked) → ∃ t, exec (.pathRestore dest path) s = .next t ∧
        t.linkState dest path = .up ∧ t.mem = s.mem ∧ t.sent = s.sent) ∧
      ((∃ b ∈ s.counts, b.dest = dest ∧ b.path = path ∧ b.sent ≠ b.acked) → exec (.pathRestore dest path) s = .next s)) ∧
    ∀ dest,
      (s.livePaths dest ≠ [] → exec (.destinationUnreachable dest) s = .next s) ∧
      (s.livePaths dest = [] → (∀ q ∈ s.sent, q.dest ≠ dest) → exec (.destinationUnreachable dest) s = .next s) ∧
      ∀ part, s.livePaths dest = [] → (∃ q ∈ s.sent, q.dest = dest) → (∀ q ∈ s.sent, q.dest = dest → q.pkt.part = part) →
        ∃ t, exec (.destinationUnreachable dest) s = .next t ∧ fatalTo t part

/-! ### The mailbox, its commands, resets and errors -/

/-- 21 R403, 25 R468, R469, R477 to R483, 20 R377, 23 R436, R437: the mailbox, and the commands that name no partition.  A write to
DOORBELL starts the command of the code in CMD, unless one is in progress; a blank operand that is not zero, and a partition that does
not exist, fail with 0xB402; a command that is done leaves STATUS 2, its TAG and its results, one that fails STATUS 3 and its code. -/
def Obligations.MailboxAndCommands : Prop :=
  ∀ (s : State) (x : MgmtArgs),
    let bad := Host.Outcome.next (φ := Fault) (s.failCmd 0xB402)
    (∀ (u : State) res, (u.doneCmd res).mem = u.mem ∧ (u.doneCmd res).parts = u.parts ∧
      bits (u.doneCmd res).mailbox.mstat.toNat 63 62 = 2 ∧ bits (u.doneCmd res).mailbox.mstat.toNat 15 0 = 0 ∧
      bits (u.doneCmd res).mailbox.mstat.toNat 47 32 = bits u.mailbox.cmd.toNat 63 48 ∧
      ∀ i r, i < 6 → res[i]? = some r → (u.doneCmd res).mailbox.res.getD i 0 = BitVec.ofNat 64 r) ∧
    (∀ code, code < 2 ^ 16 → bits (s.failCmd code).mailbox.mstat.toNat 63 62 = 3 ∧ bits (s.failCmd code).mailbox.mstat.toNat 15 0 = code) ∧
    (∀ y ∈ [(0x01, Instr.summary x), (0x02, .pcreate x), (0x03, .pdestroy x), (0x04, .precfg x), (0x05, .preset x), (0x10, .tlbi x),
        (0x11, .cohcfg x), (0x12, .cntclr x), (0x13, .irqcfg x), (0x14, .errcfg x), (0x15, .errread x), (0x16, .accfg x), (0x20, .obscfg x),
        (0x21, .stop x), (0x22, .resume x), (0x23, .step x), (0x24, .histrd x), (0x25, .snap x), (0x26, .ckfree x), (0x27, .replay x),
        (0x28, .dumpcfg x), (0x30, .fwload x), (0x31, .fwswitch x), (0x32, .retire x), (0x33, .returnUnit x), (0x34, .drcal x),
        (0x35, .ltrain x), (0x36, .reset x), (0x37, .memchk x)], commandOf y.1 x = some y.2) ∧
    (∀ v, (s.mailbox.busy = true → exec (.doorbell v) s = .next s) ∧
      (s.mailbox.busy = false → s.mailbox.command = none → exec (.doorbell v) s = .next (s.failCmd 0xB401)) ∧
      ∀ i, s.mailbox.busy = false → s.mailbox.command = some i →
        ∃ t, exec (.doorbell v) s = .next t ∧ t.agenda = i :: s.agenda ∧ t.mailbox.busy = true ∧ t.mem = s.mem) ∧
    exec .mstatRead s = .next { s with bus := bytesOfNat 8 s.mailbox.mstat.toNat } ∧
    (∀ off v, off < 4096 →
      (off = 0x38 → exec (.registerWrite (Config.mailboxPage + off) v) s = .next s.ringDoorbell) ∧
      (off ≠ 0x38 → s.mailbox.busy = true → exec (.registerWrite (Config.mailboxPage + off) v) s = .next s) ∧
      (s.mailbox.busy = false → off = 0 → exec (.registerWrite (Config.mailboxPage + off) v) s =
        .next { s with mailbox := { s.mailbox with cmd := v } }) ∧
      ∀ i, s.mailbox.busy = false → i < 6 → off = 8 + 8 * i → exec (.registerWrite (Config.mailboxPage + off) v) s =
        .next { s with mailbox := { s.mailbox with args := s.mailbox.args.modify i (fun _ => v) } }) ∧
    (∀ y ∈ [(Instr.summary x, 2), (.pcreate x, 1), (.pdestroy x, 1), (.precfg x, 2), (.preset x, 1), (.tlbi x, 3), (.irqcfg x, 3),
        (.errcfg x, 3), (.errread x, 3), (.accfg x, 4), (.obscfg x, 2), (.stop x, 2), (.resume x, 2), (.step x, 4), (.histrd x, 6),
        (.snap x, 3), (.ckfree x, 2), (.replay x, 3), (.dumpcfg x, 3), (.cohcfg x, 2), (.cntclr x, 2), (.fwload x, 2), (.fwswitch x, 0),
        (.retire x, 3), (.returnUnit x, 3), (.drcal x, 2), (.ltrain x, 3), (.memchk x, 2), (.reset x, 3)],
      blankFrom y.2 x = false → exec y.1 s = bad) ∧
    (∀ i ∈ [Instr.pdestroy x, .precfg x, .preset x, .tlbi x, .irqcfg x, .errcfg x, .accfg x, .obscfg x, .stop x, .resume x, .step x,
        .ckfree x, .replay x, .dumpcfg x], s.part? x.a0.toNat = none → exec i s = bad) ∧
    (blankFrom 2 x = true → bufferOk x.a0.toNat x.a1.toNat = true →
      let bs := s.summaryBytes.take x.a1.toNat
      ∃ u : State, exec (.summary x) s = .next (u.doneCmd [bs.length]) ∧
        ∀ k, u.byte k = writeIn s.byte ((List.range bs.length).zip bs |>.map (fun y => (x.a0.toNat + y.1, y.2))) k) ∧
    (∀ bs, blankFrom 1 x = true → s.readDescriptor x.a0.toNat = some bs →
      let n := s.freshPart
      let p := { partitionOf n bs with domain := s.pod :: Config.braidDomain n }
      (s.descriptorValid p bs = true → exec (.pcreate x) s = .next (({ s with parts := s.parts ++ [p] } : State).doneCmd [n, Config.controlPage n, 1])) ∧
      (s.descriptorValid p bs = false → exec (.pcreate x) s = bad)) ∧
    (blankFrom 2 x = true → x.a0.toNat < 4 → bits x.a1.toNat 63 40 = 0 → bits x.a1.toNat 7 1 = 0 →
      exec (.cohcfg x) s = .next ((s.modDie x.a0.toNat (fun d => { d with cohctl := x.a1 })).doneCmd [])) ∧
    (blankFrom 2 x = true → x.a0.toNat = 0xFFFF → x.a1.toNat < 16 →
      exec (.cntclr x) s = .next (({ s with classes := List.replicate 16 0 } : State).doneCmd [])) ∧
    (blankFrom 3 x = true →
      let rs := (s.records.drop (x.a1.toNat - s.recordBase)).take x.a2.toNat
      let bs := rs.flatMap ErrorRecord.toBytes
      bufferOk x.a0.toNat (64 * rs.length) = true → ∃ u : State, exec (.errread x) s = .next (u.doneCmd [rs.length]) ∧
        ∀ k, u.byte k = writeIn s.byte ((List.range bs.length).zip bs |>.map (fun y => (x.a0.toNat + y.1, y.2))) k) ∧
    (blankFrom 6 x = true → x.a0.toNat < 4 → x.a1.toNat < 7 → x.a2.toNat < 8 → x.a3.toNat < 4 → bufferOk x.a4.toNat 232 = true → x.a5.toNat < 2 →
      let phys := (x.a0.toNat * 7 + x.a1.toNat) * 8 + x.a2.toNat
      let h := (s.core phys).hist.getD x.a3.toNat Histogram.reset
      let bs := (h.h ++ h.z).flatMap (bytesOfNat 8)
      ∃ u : State, exec (.histrd x) s = .next (u.doneCmd []) ∧
        (∀ k, u.byte k = writeIn s.byte ((List.range bs.length).zip bs |>.map (fun y => (x.a4.toNat + y.1, y.2))) k) ∧
        (x.a5.toNat = 1 → x.a3.toNat < (u.core phys).hist.length → (u.core phys).hist.getD x.a3.toNat Histogram.reset = Histogram.reset)) ∧
    (blankFrom 3 x = true → bufferOk x.a0.toNat x.a1.toNat = true → bits x.a2.toNat 15 1 = 0 → x.a2.toNat < 2 ^ 32 →
      (s.snap.active = true → ∃ u : State, exec (.snap x) s = .next (u.doneCmd [0]) ∧ u.snap = { s.snap with ignored := s.snap.ignored + 1 }) ∧
      (s.snap.active = false → ∃ t, exec (.snap x) s = .next t ∧ t.snap.active = true ∧ t.snap.latched = [] ∧ t.snap.buffer = x.a0.toNat ∧
        t.snap.size = x.a1.toNat ∧ t.snap.onStop = bitOf x.a2.toNat 0 ∧ t.mailbox = s.mailbox))

/-- 25 R468, R469, R474, R478, R488, 11 R262, R267, 21 R402, 23 R430 to R432, R439, R441, 24 R446: the commands on a partition that
exists, with their operands in range.  PRESET and PDESTROY take its contexts, its queue and its launches; PRECFG puts its new map in
place and is done once no removed cluster holds a workgroup of it; TLBI drops its translations in the range and waits for its packets;
the rings, the dump area and the observation control are set; STOP, once no checkpoint
is in progress, RESUME and STEP reach the groups named; CKFREE joins two
checkpoints; REPLAY puts the contexts and the launches of a checkpoint back. -/
def Obligations.PartitionCommands : Prop :=
  ∀ (s : State) (x : MgmtArgs),
    ∀ p, s.part? x.a0.toNat = some p →
      (blankFrom 1 x = true → exec (.preset x) s = .next (((s.resetPart p).notePartReset p).doneCmd []) ∧
        (∀ q, (s.resetPart p).part? p.num = some q → q.launches = [] ∧ q.carves = [] ∧ q.state = .running ∧ q.replay = none) ∧
        (∀ w ∈ (s.resetPart p).wgs, w.part ≠ p.num) ∧ (∀ q ∈ (s.resetPart p).sent, q.pkt.part ≠ p.num) ∧
        ∃ u : State, exec (.pdestroy x) s = .next (u.doneCmd []) ∧ u.part? p.num = none) ∧
      (blankFrom 2 x = true →
        (∀ bs, p.state ≠ .reconfiguring → s.readDescriptor x.a1.toNat = some bs →
          let q := partitionOf p.num bs
          s.descriptorValid q bs = true → q.ptroot = p.ptroot → q.rbroot = p.rbroot → q.ndie = p.ndie → q.pdie = p.pdie →
          let p' := { p with prio := q.prio, clmap := q.clmap, extents := q.extents, state := if p.state == .running then .reconfiguring else p.state }
          ∃ u : State, u.part? p.num = some p' ∧ u.mem = s.mem ∧ (u.onRemoved p' = true → exec (.precfg x) s = .next u) ∧
            (u.onRemoved p' = false → exec (.precfg x) s = .next ((u.modPart p.num (fun p =>
              { p with state := if p.state == .reconfiguring then .running else p.state })).doneCmd []))) ∧
        (∀ bs, s.readDescriptor x.a1.toNat = some bs → s.obsOk p bs = true →
          ∃ (u : State) (q : Partition), exec (.obscfg x) s = .next (u.doneCmd []) ∧ u.part? p.num = some q ∧ q.obs = obsOf bs ∧ u.mem = s.mem) ∧
        (x.a0.toNat ≠ 0xFFFF → x.a1.toNat < 16 → ∃ (u : State) (q : Partition), exec (.cntclr x) s = .next (u.doneCmd []) ∧
          u.part? p.num = some q ∧ q.classes = List.replicate 16 0 ∧ u.mem = s.mem) ∧
        (p.ticketOk x.a1.toNat = true →
          (p.checkpointing = true → exec (.stop x) s = .next s) ∧
          (p.checkpointing = false → exec (.stop x) s = .next ((s.beginStop p.num (s.launchSet p.num x.a1.toNat)
            { s.plainRecord p.num (p.pdie.headD 0) 0x0003 0 with engine := 12 * 2 ^ 24 }).doneCmd [])) ∧
          exec (.resume x) s = .next ((s.restart (s.launchSet p.num x.a1.toNat) s.resumeSplit).doneCmd [])) ∧
        ∀ m n, ((s.copyWhere (fun n _ => n == p.num)).partOf p.num).ckpts.find? (fun k => k.num == x.a1.toNat) = some m →
          ((s.copyWhere (fun n _ => n == p.num)).partOf p.num).ckpts.find? (fun k => k.num == x.a1.toNat + 1) = some n →
          ∃ (u : State) (q : Partition), exec (.ckfree x) s = .next (u.doneCmd []) ∧ u.part? p.num = some q ∧ u.mem = s.mem ∧
            (∀ k ∈ q.ckpts, k.num ≠ x.a1.toNat) ∧ m.mergeInto n ∈ q.ckpts) ∧
      (blankFrom 3 x = true →
        (x.a1.toNat / 4096 * 4096 + x.a2.toNat * 4096 ≤ 2 ^ 57 →
          let lo := x.a1.toNat / 4096 * 4096
          let n := x.a2.toNat * 4096
          ∃ u : State, (exec (.tlbi x) s = if u.packetsOut p.num then .next u else .next (u.doneCmd [])) ∧
            ∀ c ∈ u.cores, ∀ t ∈ c.2.tlb, t.part = p.num → n ≠ 0 ∧ ¬(t.va < lo + n ∧ lo < t.va + t.size)) ∧
        (4 ≤ x.a2.toNat → x.a2.toNat ≤ 12 → x.a1.toNat % 64 = 0 → memoryRange x.a1.toNat (64 + 32 * 2 ^ x.a2.toNat) = true →
          ∃ (u : State) (q : Partition), exec (.irqcfg x) s = .next (u.doneCmd []) ∧ u.part? p.num = some q ∧ q.irqRing = x.a1.toNat ∧
            q.irqJ = x.a2.toNat ∧ q.kind4 = none ∧ q.unsignalled = 0 ∧ ∀ i < 64, u.byte (x.a1.toNat + i) = 0) ∧
        (s.ringOk p x.a1.toNat x.a2.toNat 64 128 = true → ∃ (u : State) (q : Partition), exec (.errcfg x) s = .next (u.doneCmd []) ∧
          u.part? p.num = some q ∧ q.errRing = ⟨x.a1.toNat, x.a2.toNat⟩ ∧ u.mem = (s.ringClear p x.a1.toNat).mem) ∧
        (x.a1.toNat % 64 = 0 → 4096 ≤ x.a2.toNat → p.holds false x.a1.toNat x.a2.toNat = true → memoryRange x.a1.toNat x.a2.toNat = true →
          ∃ (u : State) (q : Partition), exec (.dumpcfg x) s = .next (u.doneCmd []) ∧ u.part? p.num = some q ∧
            q.dumpArea = ⟨x.a1.toNat, x.a2.toNat⟩ ∧
            let head := bytesOfNat 4 0x41504D44 ++ bytesOfNat 4 0 ++ bytesOfNat 8 x.a2.toNat ++ bytesOfNat 8 0x40 ++ bytesOfNat 40 0
            ∀ k, u.byte k = writeIn s.byte ((List.range head.length).zip head |>.map (fun y => (x.a1.toNat + y.1, y.2))) k) ∧
        ∀ k, x.a2.toNat < 2 → ((s.copyWhere (fun n _ => n == p.num)).partOf p.num).ckpts.find? (fun k => k.num == x.a1.toNat) = some k →
          k.log ≠ [] →
          ∃ (u : State) (q : Partition), exec (.replay x) s = .next (u.doneCmd []) ∧ u.part? p.num = some q ∧ q.launches = k.launches ∧
            q.ticketNext = k.ticketNext ∧ q.replay = some { ckpt := k.num, freeRun := x.a2.toNat == 1, log := k.log } ∧
            (∀ w ∈ u.wgs, w.part = p.num → w ∈ k.workgroups) ∧ (∀ w ∈ k.workgroups, w ∈ u.wgs) ∧ ∀ g ∈ k.groups, g ∈ u.groups) ∧
      (blankFrom 4 x = true →
        (s.ringOk p x.a1.toNat x.a2.toNat 16 80 = true → x.a3.toNat < 65536 →
          ∃ (u : State) (q : Partition), exec (.accfg x) s = .next (u.doneCmd []) ∧ u.part? p.num = some q ∧
            q.accRing = ⟨x.a1.toNat, x.a2.toNat⟩ ∧ q.threshold = if x.a3.toNat = 0 then 256 else x.a3.toNat) ∧
        ∀ w g, s.wgs.find? (fun w => w.part == p.num && w.ticket == x.a1.toNat && w.wg == x.a2.toNat) = some w →
          (s.groupsOf w.key).find? (fun g => g.groupId == x.a3.toNat) = some g →
          exec (.step x) s = .next ((s.restart [g.gid] s.stepSplit).doneCmd []))

/-- 25 R471, R477, R484 to R487, 05 R109: the service commands.  FWLOAD fills the inactive slot of every Cirque; FWSWITCH takes the other
image of every die, or changes nothing; RETIRE waits for the contexts of its cluster, and marks cores; RETURN asks for a test that has
passed; MEMCHK is refused while unmapped contexts are kept; a channel that fails calibration is poisoned; Mbatil lanes are retrained or
left out.  Each that completes writes record 0x0006. -/
def Obligations.ServiceCommands : Prop :=
  ∀ (s : State) (x : MgmtArgs), s.Inv → s.part? 0xFFFF = none →
    let k := x.a0.toNat * 7 + x.a1.toNat
    let mask := BitVec.ofNat 8 x.a2.toNat
    (∀ (u : State) code, u.part? 0xFFFF = none → code < 2 ^ 16 → ∃ r ∈ (u.doneService code).records, r.code = 0x0006 ∧ r.paddr = code ∧
      bits (u.doneService code).mailbox.mstat.toNat 63 62 = 2 ∧ (u.doneService code).mem = u.mem ∧ (u.doneService code).dies = u.dies ∧
      (u.doneService code).parts = u.parts ∧ (u.doneService code).wgs = u.wgs ∧ (u.doneService code).groups = u.groups) ∧
    (blankFrom 2 x = true → x.a1.toNat ≠ 0 → bufferOk x.a0.toNat x.a1.toNat = true → ∃ v ok, exec (.fwload x) s =
      .next (({ s with dies := s.dies.map (fun (d : Die) =>
        if d.fwActiveB then { d with fwA := v, fwValidA := ok } else { d with fwB := v, fwValidB := ok }) } : State).doneService 0x30)) ∧
    (blankFrom 0 x = true →
      ((∃ d ∈ s.dies, d.spareImage = false) → exec (.fwswitch x) s = .next (s.failCmd 0xB404)) ∧
      ((∀ d ∈ s.dies, d.spareImage = true) → exec (.fwswitch x) s =
        .next (({ s with dies := s.dies.map (fun (d : Die) => { d with fwActiveB := !d.fwActiveB }) } : State).doneService 0x31))) ∧
    (blankFrom 3 x = true → unitOk x = true →
      (x.a2.toNat ≠ 0 →
        (∃ u : State, exec (.retire x) s = .next (u.doneService 0x32) ∧ (u.share k).newDefects = (s.share k).newDefects ||| mask ∧ u.wgs = s.wgs) ∧
        ((s.share k).checked = true → ∃ u : State, exec (.returnUnit x) s = .next (u.doneService 0x33) ∧
          (u.share k).newDefects = (s.share k).newDefects &&& ~~~mask ∧ (u.share k).checked = false ∧ u.wgs = s.wgs)) ∧
      ((s.share k).checked = false → exec (.returnUnit x) s = .next (s.failCmd 0xB402)) ∧
      (x.a2.toNat = 0 →
        ((s.share k).state = .retired → s.mailbox.busy = false → exec (.retire x) s = .next (s.failCmd 0xB402)) ∧
        ((s.share k).state = .enabled →
          (∀ w ∈ s.wgs, coreCluster w.phys = k → w.onCore = true → ∃ u, exec (.retire x) s = .next u ∧
            (u.share k).state = .inService ∧ (u.share k).retiring = true ∧ u.wgs = s.wgs ∧ u.mailbox = s.mailbox) ∧
          ((s.share k).resident = none → s.swapping k = none → (∀ w ∈ s.wgs, coreCluster w.phys = k → w.onCore = false) → ∃ u : State,
            (u.share k).state = .retired ∧ (u.share k).retiring = false ∧ u.wgs = s.wgs ∧
            (u.contextsLeft k = false → exec (.retire x) s = .next (u.doneService 0x32)) ∧
            (u.contextsLeft k = true → exec (.retire x) s = .next u))) ∧
        ((s.share k).state ≠ .retired → exec (.returnUnit x) s = .next (s.failCmd 0xB402)) ∧
        ((s.share k).state = .retired → (s.share k).checked = true →
          let n := (((s.die x.a0.toNat).clusters).filter (fun c => c.state == .enabled)).length
          ∃ u : State, exec (.returnUnit x) s = .next (u.doneService 0x33) ∧ (u.share k).state = (if n < 6 then .enabled else .spare) ∧
            (u.share k).checked = false ∧ u.wgs = s.wgs))) ∧
    (blankFrom 2 x = true →
      (x.a0.toNat < 4 → x.a1.toNat < 7 →
        ((s.share k).state = .inService → exec (.memchk x) s = .next (s.failCmd 0xB403)) ∧
        ((∃ w ∈ s.wgs, w.status = .saved ∧ w.savedAt = k ∧ (s.partOf w.part).physCluster w.ldie w.lcluster = none) →
          exec (.memchk x) s = .next (s.failCmd 0xB403)) ∧
        ((s.share k).state ≠ .inService → (∀ w ∈ s.wgs, w.status = .saved → w.savedAt = k → (s.partOf w.part).physCluster w.ldie w.lcluster ≠ none) →
          (∃ w ∈ s.wgs, w.status = .saved ∧ w.savedAt = k) → exec (.memchk x) s = .next s) ∧
        ((s.share k).state ≠ .inService → (∀ w ∈ s.wgs, w.status = .saved → w.savedAt ≠ k) → ∃ u : State, exec (.memchk x) s = .next (u.doneService 0x37) ∧
          ∃ ok, u.share k = { s.share k with checked := ok })) ∧
      (x.a0.toNat < 4 → x.a1.toNat < Config.channels →
        (exec (.drcal x) s = .next (s.doneService 0x34) ∨ ∃ u : State, exec (.drcal x) s = .next (u.doneService 0x34) ∧
          (∀ g ∈ channelGranules x.a0.toNat x.a1.toNat, g ∈ u.poison ∧ g ∉ u.tags) ∧ u.mem = s.mem ∧
          ∃ r ∈ u.records, r.code = 0x6103))) ∧
    (blankFrom 3 x = true →
      (x.a0.toNat = 0 → ∃ u : State, exec (.ltrain x) s = .next (u.doneService 0x35) ∧ u.mem = s.mem ∧ (∃ r ∈ u.records, r.code = 0x9002) ∧
        ((u.linkDown = false ∧ ∀ l < 64, bitOf x.a2.toNat l = true → l ∉ u.badLanes) ∨ ∀ l < 64, bitOf x.a2.toNat l = true → l ∈ u.badLanes)) ∧
      (x.a0.toNat = 1 → x.a1.toNat < 32 → exec (.ltrain x) s = .next (s.trainPort x.a1.toNat)))

/-- 25 R471 to R476, 21 R404, 20 R382, 01 R10: resets and hardware errors.  A reset of the package loses its partitions, its contexts and its
caches, and keeps the DRAM contents where it is warm; a reset of a die, of any cause, loses what is on the die and halts its partitions;
a reset of a cluster halts what is resident there; a watchdog or a firmware fault leaves running work alone.  An uncorrectable error
poisons its granule, clears its tag, and is fatal to a reader. -/
def Obligations.ResetAndErrorEvents : Prop :=
  ∀ s : State, s.Inv → s.part? 0xFFFF = none →
    let same := fun (u : State) => u.mem = s.mem ∧ u.tags = s.tags ∧ u.poison = s.poison ∧ u.cores = s.cores ∧ u.parts = s.parts ∧
      u.wgs = s.wgs ∧ u.groups = s.groups
    let took := fun (u : State) (die cause scope code : Nat) => bits (u.die die).rstcause.toNat 7 0 = cause ∧
      bits (u.die die).rstcause.toNat 15 8 = scope ∧ bits (u.die die).rstcause.toNat 31 16 = code
    let lost := fun (i : Instr) (die cause code : Nat) => ∃ u : State, exec i s = .next u ∧ took u die cause 1 code ∧
      (∀ w ∈ u.wgs, w ∈ s.wgs ∧ w.atDie die = false) ∧ (∀ kc ∈ u.cores, coreDie kc.1 ≠ die) ∧
      ∀ p ∈ s.parts, die ∈ p.pdie → ∃ h ∈ u.halts, h.part = p.num ∧ h.fdom = 3
    let gone := fun (u : State) => u.parts = [] ∧ u.wgs = [] ∧ u.groups = [] ∧ u.cores = [] ∧ u.halts = []
    (∀ x : MgmtArgs, blankFrom 3 x = true →
      (x.a0.toNat = 0 → x.a1.toNat = 0 →
        (x.a2.toNat = 1 → ∃ u, exec (.reset x) s = .next u ∧ gone u ∧ (∀ d < 4, took u d 2 0 0) ∧ ∀ k, isGlobal k = true → u.byte k = s.byte k) ∧
        (x.a2.toNat = 0 → ∃ u, exec (.reset x) s = .next u ∧ gone u ∧ (∀ d < 4, took u d 3 0 0) ∧ u.mem = [] ∧ u.tags = [])) ∧
      (x.a0.toNat = 1 → x.a1.toNat < 4 → x.a2.toNat = 0 → lost (.reset x) x.a1.toNat 4 0) ∧
      (x.a0.toNat = 2 → x.a1.toNat / 8 < 4 → x.a1.toNat % 8 < 7 → x.a2.toNat = 0 →
        let k := x.a1.toNat / 8 * 7 + x.a1.toNat % 8
        ∃ u : State, exec (.reset x) s = .next u ∧ (u.share k).state ≠ .enabled ∧ (u.share k).state ≠ .spare ∧
          (∀ w ∈ s.wgs, coreCluster w.phys = k → w.onCore = true → ∃ h ∈ u.halts, w.key ∈ h.wgs) ∧ u.wgs = s.wgs) ∧
      (3 ≤ x.a0.toNat ∨ 2 ≤ x.a2.toNat → exec (.reset x) s = .next (s.failCmd 0xB402))) ∧
    (∃ u, exec .packageInterconnectFailure s = .next u ∧ gone u ∧ (∀ d < 4, took u d 3 0 0) ∧ u.mem = []) ∧
    (∀ pass spares master, pass.length = 4 → spares.length = 4 → master < 4 →
      (∀ d < 4, spares.getD d 7 < 7 ∧ (pass.getD d 0).getLsbD (spares.getD d 7) = true) →
      ∃ u, exec (.coldReset pass spares master) s = .next u ∧ gone u ∧ u.mem = [] ∧ u.master = master ∧
        ∀ d < 4, ∀ c < 7, (u.share (d * 7 + c)).state =
          if c = spares.getD d 7 then .spare else if (pass.getD d 0).getLsbD c then .enabled else .retired) ∧
    (∀ die, die < 4 →
      (∀ m, m < 4 →
        (∃ u, exec (.cirqueWatchdogReset die m) s = .next u ∧ same u ∧ took u die 7 4 0xB405 ∧
          u.master = (if s.master = die then m else s.master)) ∧
        ∃ u, exec (.firmwareFault die m) s = .next u ∧ same u ∧ took u die 10 4 0xB406 ∧
          u.master = (if s.master = die then m else s.master) ∧ (u.die die).fwActiveB = !(s.die die).fwActiveB) ∧
      lost (.thermalTrip die) die 8 0xA003 ∧ lost (.directoryArrayUncorrectable die) die 4 0x7002 ∧
      (∃ u, exec (.dieThrottle die) s = .next u ∧ same u ∧ (u.die die).throttled = true ∧ ∃ r ∈ u.records, r.code = 0xA001) ∧
      ∀ bad, ∃ u, exec (.patrolScrub die bad) s = .next u ∧ u.mem = s.mem ∧ u.wgs = s.wgs ∧ ∀ key ∈ bad, key / 16 ∈ u.poison ∧ key / 16 ∉ u.tags) ∧
    (∃ u, exec .powerCapReached s = .next u ∧ same u ∧ u.powerCap = true ∧ ∃ r ∈ u.records, r.code = 0xA002) ∧
    (s.linkDown = true → ∃ u, exec .linkLossReset s = .next u ∧ same u ∧ u.linkDown = false ∧ u.badLanes = [] ∧ (s.master < 4 → took u s.master 9 5 0x9001)) ∧
    (s.linkDown = true → exec .mbatilLinkDown s = .next s) ∧
    (s.linkDown = false → ∃ u, exec .mbatilLinkDown s = .next u ∧ u.wgs = s.wgs ∧
      ((∀ g ∈ s.groups, ∀ o ∈ g.ops, o.tier2 = false) → u.linkDown = true ∧ u.halts = s.halts) ∧
      ∀ g ∈ s.groups, ∀ o ∈ g.ops, o.tier2 = true → g.splits ≠ [] → ∀ w, s.wg? g.wgKey = some w → ∃ h ∈ u.halts, w.key ∈ h.wgs) ∧
    (∀ lane, ∃ u, exec (.mbatilLaneDegraded lane) s = .next u ∧ same u ∧ lane ∈ u.badLanes ∧ ∃ r ∈ u.records, r.code = 0x9002) ∧
    ∀ key reader, ∃ u, exec (.uncorrectableError key reader) s = .next u ∧ u.wgs = s.wgs ∧
      (reader.bind s.group? = none → key / 16 ∈ u.poison ∧ key / 16 ∉ u.tags ∧ u.mem = s.mem) ∧
      ∀ g w, reader.bind s.group? = some g → s.wg? g.wgKey = some w → g.splits ≠ [] → ∃ h ∈ u.halts, w.key ∈ h.wgs
end

