-- ==== Sys2Proof/Laws/Store.lean ====
section
/-!
SUPPORT. Sparse data: reading after writing, and the canonical form.
-/
namespace Sys2Proof.Machine

section Assoc
variable {α : Type}

theorem assocGet_del (d : α) (k j : Nat) (l : Assoc α) :
    assocGet d j (assocDel k l) = if j = k then d else assocGet d j l := by
  induction l with
  | nil => simp [assocDel, assocGet]
  | cons h t ih =>
    obtain ⟨a, v⟩ := h
    simp only [assocDel, List.filter_cons] at ih ⊢
    by_cases hk : a = k
    · subst hk
      by_cases hj : a = j
      · subst hj; simpa using ih
      · simp [ih, hj, Ne.symm hj, assocGet]
    · by_cases hj : a = j
      · simp [hj ▸ hk, assocGet, hj]
      · simp [hk, assocGet, hj, ih]

theorem assocGet_put (d : α) (k j : Nat) (v : α) (l : Assoc α) :
    assocGet d j (assocPut k v l) = if j = k then v else assocGet d j l := by
  induction l with
  | nil => by_cases h : j = k <;> simp [assocPut, assocGet, h, Ne.symm]
  | cons h t ih =>
    obtain ⟨a, w⟩ := h
    by_cases hj : j = k
    · subst hj
      simp only [assocPut, ↓reduceIte] at ih ⊢
      split
      · simp [assocGet]
      · split
        · simp [assocGet]
        · rename_i h1 h2; simp [assocGet, Ne.symm h2, ih]
    · simp only [assocPut, hj, ↓reduceIte] at ih ⊢
      split
      · simp [assocGet, Ne.symm hj]
      · split
        · rename_i h1 h2; simp [assocGet, Ne.symm hj, ← h2]
        · simp [assocGet, ih]

variable [DecidableEq α]

/-- A read after a write gives the value written, and leaves every other key alone. -/
theorem assocGet_set (d : α) (k j : Nat) (v : α) (l : Assoc α) :
    assocGet d j (assocSet d k v l) = if j = k then v else assocGet d j l := by
  unfold assocSet
  split
  · rename_i h; rw [assocGet_del]; split <;> simp_all
  · exact assocGet_put d k j v l

@[simp] theorem assocGet_set_self (d : α) (k : Nat) (v : α) (l : Assoc α) :
    assocGet d k (assocSet d k v l) = v := by simp [assocGet_set]

theorem assocGet_set_ne (d : α) {k j : Nat} (v : α) (l : Assoc α) (h : j ≠ k) :
    assocGet d j (assocSet d k v l) = assocGet d j l := by simp [assocGet_set, h]

/-- After several writes a key reads as the last of them to name it, else as before. -/
theorem assocGet_sets (d : α) (ws : List (Nat × α)) (j : Nat) (l : Assoc α) :
    assocGet d j (assocSets d ws l) = ((ws.reverse.find? (fun kv => kv.1 == j)).map (·.2)).getD (assocGet d j l) := by
  induction ws generalizing l with
  | nil => simp [assocSets]
  | cons w ws ih =>
    have := ih (assocSet d w.1 w.2 l)
    simp only [assocSets, List.foldl_cons, List.reverse_cons, List.find?_append, assocGet_set] at this ⊢
    rw [this]
    cases ws.reverse.find? (fun kv => kv.1 == j) with
    | some p => simp
    | none => by_cases h : w.1 = j <;> simp [h, Ne.symm]

theorem assocGet_sets_ne (d : α) (ws : List (Nat × α)) (j : Nat) (l : Assoc α) (h : ∀ kv ∈ ws, kv.1 ≠ j) :
    assocGet d j (assocSets d ws l) = assocGet d j l := by
  rw [assocGet_sets, List.find?_eq_none.2]
  · rfl
  · intro kv hkv; simpa using h kv (List.mem_reverse.1 hkv)

/-! ### The canonical form -/

omit [DecidableEq α] in
theorem keysAbove_trans {i k : Nat} {l : Assoc α} (hik : i < k) (h : keysAbove k l = true) : keysAbove i l = true := by
  cases l with
  | nil => rfl
  | cons a t => simp only [keysAbove, decide_eq_true_eq] at h ⊢; omega

theorem assocWf_cons {d : α} {k : Nat} {v : α} {l : Assoc α} :
    assocWf d ((k, v) :: l) = true ↔ keysAbove k l = true ∧ v ≠ d ∧ assocWf d l = true := by
  simp [assocWf, and_assoc]

omit [DecidableEq α] in
theorem keysAbove_put {i k : Nat} {v : α} {l : Assoc α} (hik : i < k) (h : keysAbove i l = true) :
    keysAbove i (assocPut k v l) = true := by
  cases l with
  | nil => simpa [assocPut, keysAbove] using hik
  | cons a t =>
    simp only [assocPut]
    split
    · simpa [keysAbove] using hik
    · split <;> simp_all [keysAbove]

theorem assocWf_put {d : α} {k : Nat} {v : α} {l : Assoc α} (hv : v ≠ d) (h : assocWf d l = true) :
    assocWf d (assocPut k v l) = true := by
  induction l with
  | nil => simp [assocPut, assocWf, keysAbove, hv]
  | cons a t ih =>
    obtain ⟨j, w⟩ := a
    rw [assocWf_cons] at h
    simp only [assocPut]
    split
    · simp_all [assocWf, keysAbove]
    · split
      · simp_all [assocWf]
      · rw [assocWf_cons]; exact ⟨keysAbove_put (by omega) h.1, h.2.1, ih h.2.2⟩

theorem keysAbove_filter {k : Nat} {p : Nat × α → Bool} {d : α} {l : Assoc α} (h : keysAbove k l = true)
    (hw : assocWf d l = true) : keysAbove k (l.filter p) = true := by
  induction l generalizing k with
  | nil => rfl
  | cons a t ih =>
    obtain ⟨j, w⟩ := a
    rw [assocWf_cons] at hw
    simp only [keysAbove, decide_eq_true_eq] at h
    rw [List.filter_cons]
    split
    · simpa [keysAbove] using h
    · exact ih (keysAbove_trans h hw.1) hw.2.2

/-- Dropping entries keeps the canonical form. -/
theorem assocWf_filter {d : α} {p : Nat × α → Bool} {l : Assoc α} (h : assocWf d l = true) :
    assocWf d (l.filter p) = true := by
  induction l with
  | nil => rfl
  | cons a t ih =>
    obtain ⟨j, w⟩ := a
    rw [assocWf_cons] at h
    rw [List.filter_cons]
    split
    · rw [assocWf_cons]; exact ⟨keysAbove_filter h.1 h.2.2, h.2.1, ih h.2.2⟩
    · exact ih h.2.2

/-- A write keeps the canonical form. -/
theorem assocWf_set {d : α} (k : Nat) (v : α) {l : Assoc α} (h : assocWf d l = true) :
    assocWf d (assocSet d k v l) = true := by
  unfold assocSet
  split
  · exact assocWf_filter h
  · exact assocWf_put ‹_› h

theorem assocWf_sets {d : α} (ws : List (Nat × α)) {l : Assoc α} (h : assocWf d l = true) :
    assocWf d (assocSets d ws l) = true := by
  unfold assocSets
  induction ws generalizing l with
  | nil => exact h
  | cons w ws ih => exact ih (assocWf_set _ _ h)

end Assoc

section Lists
variable {α : Type}

theorem find?_replaceBy_self (p : α → Bool) (f : α → α) (l : List α) (hf : ∀ a, p a = true → p (f a) = true) :
    (replaceBy p f l).find? p = (l.find? p).map f := by
  induction l with
  | nil => rfl
  | cons a t ih =>
    simp only [replaceBy]
    split
    · rename_i h; simp [h, hf a h]
    · rename_i h; simp [h, ih]

/-- Replacing an element that fails a test, by one that fails it, changes nothing of what the test finds. -/
theorem find?_replaceBy_other (p q : α → Bool) (f : α → α) (l : List α)
    (h : ∀ a, p a = true → q a = false ∧ q (f a) = false) : (replaceBy p f l).find? q = l.find? q := by
  induction l with
  | nil => rfl
  | cons a t ih =>
    simp only [replaceBy]
    split
    · rename_i hp; simp [h a hp]
    · simp [List.find?_cons, ih]

theorem length_replaceBy (p : α → Bool) (f : α → α) (l : List α) : (replaceBy p f l).length = l.length := by
  induction l with
  | nil => rfl
  | cons a t ih => simp only [replaceBy]; split <;> simp [ih]

theorem replaceBy_replaceBy (p : α → Bool) (f g : α → α) (l : List α) (hf : ∀ a, p a = true → p (f a) = true) :
    replaceBy p g (replaceBy p f l) = replaceBy p (fun a => g (f a)) l := by
  induction l with
  | nil => rfl
  | cons a t ih =>
    simp only [replaceBy]
    split
    · rename_i h; simp [replaceBy, hf a h]
    · rename_i h; simp [replaceBy, h, ih]

end Lists

end Sys2Proof.Machine
end

