-- ==== Sys2Proof/Laws/Groups.lean ====
section
/-!
SUPPORT. Groups and splits after a change of one of them.
-/
namespace Sys2Proof.Machine

theorem State.group?_modGroup (s : State) (k j : Nat) (f : Group → Group) (hf : ∀ g, (f g).gid = g.gid) :
    (s.modGroup k f).group? j = if j = k then (s.group? k).map f else s.group? j := by
  unfold State.group? State.modGroup
  by_cases h : j = k
  · subst h
    simp only [↓reduceIte]
    exact find?_replaceBy_self _ _ _ (fun a ha => by simpa [hf a] using ha)
  · simp only [h, ↓reduceIte]
    refine find?_replaceBy_other _ _ _ _ (fun a ha => ?_)
    simp only [beq_iff_eq] at ha
    simp [hf a, ha, Ne.symm h]

theorem Group.split?_modSplit (g : Group) (k j : Nat) (f : Split → Split) (hf : ∀ x, (f x).id = x.id) :
    (g.modSplit k f).split? j = if j = k then (g.split? k).map f else g.split? j := by
  unfold Group.split? Group.modSplit
  by_cases h : j = k
  · subst h
    simp only [↓reduceIte]
    exact find?_replaceBy_self _ _ _ (fun a ha => by simpa [hf a] using ha)
  · simp only [h, ↓reduceIte]
    refine find?_replaceBy_other _ _ _ _ (fun a ha => ?_)
    simp only [beq_iff_eq] at ha
    simp [hf a, ha, Ne.symm h]

theorem State.modGroup_modGroup (s : State) (k : Nat) (f h : Group → Group) (hf : ∀ g, (f g).gid = g.gid) :
    (s.modGroup k f).modGroup k h = s.modGroup k (fun g => h (f g)) := by
  unfold State.modGroup
  simp only [replaceBy_replaceBy (fun x : Group => x.gid == k) f h s.groups (fun a ha => by simpa [hf a] using ha)]

theorem map_gid_replaceBy (p : Group → Bool) (f : Group → Group) (l : List Group) (hf : ∀ g, (f g).gid = g.gid) :
    (replaceBy p f l).map (·.gid) = l.map (·.gid) := by
  induction l with
  | nil => rfl
  | cons a t ih => simp only [replaceBy]; split <;> simp [hf, ih]

/-- A change of one group touches nothing else. -/
theorem State.sameBut_modGroup (s : State) (k : Nat) (f : Group → Group) (hf : ∀ g, (f g).gid = g.gid) :
    s.sameBut (s.modGroup k f) k :=
  ⟨rfl, map_gid_replaceBy _ _ _ hf, fun j hj => by simp [State.group?_modGroup s k j f hf, hj]⟩

theorem State.ctx?_eq {s : State} {gid sid : Nat} {c : Ctx} (h : s.ctx? gid sid = some c) :
    s.group? gid = some c.g ∧ s.wg? c.g.wgKey = some c.w ∧ c.g.split? sid = some c.sp ∧ c.free = s.free := by
  unfold State.ctx? at h
  split at h
  · cases h
  · split at h
    · cases h; simp_all
    · cases h

theorem State.group?_gid {s : State} {k : Nat} {g : Group} (h : s.group? k = some g) : g.gid = k := by
  have := List.find?_some h; simpa using this

theorem Group.split?_id {g : Group} {k : Nat} {x : Split} (h : g.split? k = some x) : x.id = k := by
  have := List.find?_some h; simpa using this

/-- What a split that issues sees is there. -/
theorem State.sees_eq {s : State} {c : Ctx} (h : s.sees c) :
    s.group? c.g.gid = some c.g ∧ s.wg? c.g.wgKey = some c.w ∧ c.free = s.free ∧ s.cur = some (c.g.gid, c.sp.id) ∧
      ∃ c0, s.ctx? c.g.gid c.sp.id = some c0 ∧ c0.atWord = true ∧ c = s.passSite c0 ∧ c.g.split? c.sp.id = some c0.sp := by
  obtain ⟨g, sid, c0, hcur, hctx, hw, rfl⟩ := h
  obtain ⟨h1, h2, h3, h4⟩ := State.ctx?_eq hctx
  have e1 := State.group?_gid h1
  have e2 := Group.split?_id h3
  subst e1 e2
  exact ⟨h1, h2, h4, hcur, c0, hctx, hw, rfl, h3⟩

theorem replaceBy_congr {α : Type} {p : α → Bool} {f g : α → α} {l : List α} (h : ∀ a, l.find? p = some a → f a = g a) :
    replaceBy p f l = replaceBy p g l := by
  induction l with
  | nil => rfl
  | cons a t ih =>
    simp only [replaceBy]
    cases e : p a with
    | true => simp [h a (by simp [e])]
    | false => simp [ih (fun b hb => h b (by simp [e, hb]))]

/-- A change of a group is what it makes of that group. -/
theorem State.modGroup_congr {s : State} {k : Nat} {g : Group} (hg : s.group? k = some g) {f f' : Group → Group}
    (h : f g = f' g) : s.modGroup k f = s.modGroup k f' := by
  unfold State.modGroup
  rw [replaceBy_congr (g := f')]
  intro a ha
  unfold State.group? at hg
  rw [hg] at ha; cases ha; exact h

theorem State.sees_hold {s : State} {c : Ctx} (h : s.sees c) : c.sp.hold ≠ .faulted := by
  obtain ⟨-, -, -, -, c0, -, hw, rfl, -⟩ := State.sees_eq h
  have : c0.sp.hold ≠ .faulted := by
    simp only [Ctx.atWord, Bool.and_eq_true, bne_iff_ne, ne_eq] at hw; exact hw.2
  exact this

end Sys2Proof.Machine
end

