-- ==== Sys2Proof/Laws/Issue.lean ====
section
/-!
SUPPORT. What issuing an instruction comes to (06 R120, R130): the effect of its body, then the issuing split moved on.
-/
namespace Sys2Proof.Machine

theorem issue_eq {s : State} {o : Op} {x : Args} {c : Ctx} (h : s.issues o x c) (body : Ctx → List Nat → Eff) :
    issue o x s body = settleEff c x s (body c (c.active x)) := by
  obtain ⟨hs, he, ha, hf⟩ := h
  obtain ⟨-, -, -, hcur, c0, hctx, -, rfl, -⟩ := State.sees_eq hs
  have hcur' : s.cur = some (c0.g.gid, c0.sp.id) := hcur
  have hctx' : s.ctx? c0.g.gid c0.sp.id = some c0 := hctx
  unfold issue
  simp only [hcur', hctx', he, hf]
  cases h : Ctx.active (s.passSite c0) x with
  | nil => exact absurd h ha
  | cons a t => simp

theorem issueDone_eq {s : State} {o : Op} {x : Args} {c : Ctx} (h : s.issues o x c) (body : Ctx → List Nat → State) :
    issueDone o x s body = .next (((body c (c.active x)).advance c x).noteIssue c) := by
  unfold issueDone; rw [issue_eq h]; rfl

/-- The marks an issue leaves on its split. -/
def Ctx.marked (s : State) (c : Ctx) (x : Split) : Split :=
  { x with site := (s.siteOf c.w c.sp).orElse (fun _ => x.site), stop := x.stop.afterIssue,
           hold := if x.hold == .faulted then .faulted else .none, issuedAt := s.serial, starved := none, yielded := false,
           awaitAcks := [], waitOn := none }

/-- The issuing split moved past an instruction, if it is still where it was. -/
def Ctx.moved (c : Ctx) (x : Args) (sp : Split) : Split :=
  if sp.pc == c.sp.pc && sp.word == c.sp.word && sp.state == c.sp.state && sp.hold != .faulted then
    sp.advance (nextWord c.sp x)
  else sp

/-- A group after an instruction of one of its splits has passed. -/
def Ctx.after (s : State) (c : Ctx) (x : Args) (g : Group) : Group :=
  { (g.modSplit c.sp.id (fun sp => c.marked s (c.moved x sp))) with lastSid := c.sp.id, yielded := false }

theorem Ctx.moved_id (c : Ctx) (x : Args) (sp : Split) : (c.moved x sp).id = sp.id := by
  unfold Ctx.moved Split.advance
  split
  · split <;> rfl
  · rfl

theorem Ctx.marked_id (s : State) (c : Ctx) (sp : Split) : (c.marked s sp).id = sp.id := rfl

theorem Group.modSplit_modSplit (g : Group) (k : Nat) (f h : Split → Split) (hf : ∀ x, (f x).id = x.id) :
    (g.modSplit k f).modSplit k h = g.modSplit k (fun x => h (f x)) := by
  unfold Group.modSplit
  simp only [replaceBy_replaceBy (fun x : Split => x.id == k) f h g.splits (fun a ha => by simpa [hf a] using ha)]

/-- The end of an instruction whose effect is on its own group. -/
theorem passed_modGroup (s : State) (c : Ctx) (x : Args) (f : Group → Group) (hf : ∀ g, (f g).gid = g.gid) :
    ((s.modGroup c.g.gid f).advance c x).noteIssue c = s.modGroup c.g.gid (fun g => c.after s x (f g)) := by
  have e1 : (s.modGroup c.g.gid f).advance c x =
      s.modGroup c.g.gid (fun g => (f g).modSplit c.sp.id (c.moved x)) := by
    unfold State.advance State.modSplit
    rw [State.modGroup_modGroup s c.g.gid f _ hf]; rfl
  rw [e1]
  unfold State.noteIssue
  rw [State.modGroup_modGroup]
  · simp only [Group.modSplit_modSplit _ _ _ _ (Ctx.moved_id c x)]; rfl
  · exact hf

theorem Ctx.after_gid (s : State) (c : Ctx) (x : Args) (g : Group) : (c.after s x g).gid = g.gid := rfl

/-- The split that has passed, and the others. -/
theorem Ctx.after_passed {s u : State} {c : Ctx} (h : s.sees c) (x : Args) (g : Group) (hg : g.splits = c.g.splits) :
    (c.after u x g).passed c x := by
  obtain ⟨-, -, -, -, c0, -, hw, hc, hsp⟩ := State.sees_eq h
  have hid : ∀ y, (c.marked u (c.moved x y)).id = y.id := fun y => by rw [Ctx.marked_id, Ctx.moved_id]
  have hsplit : ∀ k, (c.after u x g).split? k = (c.g.modSplit c.sp.id (fun sp => c.marked u (c.moved x sp))).split? k := by
    intro k; simp [Ctx.after, Group.split?, Group.modSplit, hg]
  constructor
  · intro k hk
    rw [hsplit, Group.split?_modSplit _ _ _ _ hid]; simp [hk]
  · refine ⟨c.marked u (c.moved x c0.sp), ?_, ?_⟩
    · rw [hsplit, Group.split?_modSplit _ _ _ _ hid]; simp [hsp]
    · have hf : c0.sp.hold ≠ .faulted := by
        simp only [Ctx.atWord, Bool.and_eq_true, bne_iff_ne, ne_eq] at hw; exact hw.2
      subst hc
      simp only [Ctx.moved, State.passSite, beq_self_eq_true, Bool.true_and, bne_iff_ne, ne_eq, hf, not_false_eq_true,
        ↓reduceIte, Ctx.marked]
      unfold Split.advance
      have hn : nextWord { c0.sp with site := (s.siteOf c0.w c0.sp).orElse (fun _ => c0.sp.site) } x = nextWord c0.sp x := rfl
      split <;> simp_all [Split.goto, Split.nextPc]

theorem replaceBy_id {α : Type} (p : α → Bool) (l : List α) : replaceBy p id l = l := by
  induction l with
  | nil => rfl
  | cons a t ih => simp only [replaceBy]; split <;> simp [ih]

theorem State.modGroup_id (u : State) (k : Nat) : u.modGroup k id = u := by
  unfold State.modGroup; rw [replaceBy_id]

/-- Passing is a change of the issuing group. -/
theorem State.finish_eq (u : State) (c : Ctx) (x : Args) : u.finish c x = u.modGroup c.g.gid (fun g => c.after u x g) := by
  have := passed_modGroup u c x id (fun _ => rfl)
  rw [State.modGroup_id] at this
  exact this

/-- A group whose split has issued an instruction that moved it. -/
def Ctx.noted (s : State) (c : Ctx) (g : Group) : Group :=
  { (g.modSplit c.sp.id (c.marked s)) with lastSid := c.sp.id, yielded := false }

theorem noteIssue_modGroup (s : State) (c : Ctx) (f : Group → Group) (hf : ∀ g, (f g).gid = g.gid) :
    (s.modGroup c.g.gid f).noteIssue c = s.modGroup c.g.gid (fun g => c.noted s (f g)) := by
  unfold State.noteIssue
  rw [State.modGroup_modGroup _ _ _ _ hf]; rfl

theorem noteIssue_bump (s : State) (c : Ctx) (f : Group → Group) (hf : ∀ g, (f g).gid = g.gid) :
    (s.modGroup c.g.gid f).bump.noteIssue c = (s.modGroup c.g.gid (fun g => c.noted s.bump (f g))).bump :=
  noteIssue_modGroup s.bump c f hf

/-- A changed split table that writes no spill record and takes none. -/
theorem State.putSplits_eq (s : State) (w : Workgroup) (sid : Nat) (old new : Group)
    (h : recordsTaken old new = [] ∧ recordsChanged old new = []) :
    s.putSplits w sid old new = (s.modGroup old.gid (fun _ => new)).bump := by
  unfold State.putSplits; simp [h]

/-- A group whose splits, frames or `s` registers alone may differ. -/
def Group.steers (g h : Group) : Prop :=
  h = { g with s := h.s, ops := h.ops, splits := h.splits, frames := h.frames, lastSid := h.lastSid, yielded := h.yielded }

/-- A group put in the place of the issuing one. -/
theorem steered_put {s : State} {c : Ctx} (h : s.sees c) (K : Group) (hK : c.g.steers K) :
    s.Steered (s.modGroup c.g.gid (fun _ => K)) c K ∧ s.Steered (s.modGroup c.g.gid (fun _ => K)).bump c K := by
  let F : Group → Group := fun g => { g with s := K.s, ops := K.ops, splits := K.splits, frames := K.frames,
                                             lastSid := K.lastSid, yielded := K.yielded }
  have hg := (State.sees_eq h).1
  have hF : ∀ g, (F g).gid = g.gid := fun _ => rfl
  have hFc : F c.g = K := hK.symm
  have e : s.modGroup c.g.gid (fun _ => K) = s.modGroup c.g.gid F := State.modGroup_congr hg hFc.symm
  rw [e]
  have hb := State.sameBut_modGroup s c.g.gid F hF
  have hk : (s.modGroup c.g.gid F).group? c.g.gid = some K := by
    rw [State.group?_modGroup _ _ _ F hF]; simp [hg, hFc]
  exact ⟨⟨rfl, ⟨hb.2.1, hb.2.2⟩, hk, hK⟩, ⟨rfl, ⟨hb.2.1, hb.2.2⟩, hk, hK⟩⟩

theorem noted_put {s : State} {c : Ctx} (h : s.sees c) (K : Group) (hK : K.gid = c.g.gid) :
    (s.modGroup c.g.gid (fun _ => K)).noteIssue c = s.modGroup c.g.gid (fun _ => c.noted s K) ∧
    (s.modGroup c.g.gid (fun _ => K)).bump.noteIssue c = (s.modGroup c.g.gid (fun _ => c.noted s.bump K)).bump := by
  let F : Group → Group := fun g => { K with gid := g.gid }
  have hg := (State.sees_eq h).1
  have hF : ∀ g, (F g).gid = g.gid := fun _ => rfl
  have hFc : F c.g = K := by simp only [F, ← hK]
  have e : s.modGroup c.g.gid (fun _ => K) = s.modGroup c.g.gid F := State.modGroup_congr hg hFc.symm
  rw [e]
  constructor
  · rw [noteIssue_modGroup _ _ _ hF]
    exact State.modGroup_congr hg (by simp only [hFc])
  · rw [noteIssue_bump _ _ _ hF]
    exact congrArg State.bump (State.modGroup_congr hg (by simp only [hFc]))

theorem Group.steers_noted {g K : Group} (h : g.steers K) (s : State) (c : Ctx) : g.steers (c.noted s K) := by
  unfold Group.steers at *; unfold Ctx.noted Group.modSplit
  have e := congrArg (fun g : Group => g) h
  cases K; simp only [Group.mk.injEq] at e ⊢; simp [e]

/-- A control instruction that has moved its split itself. -/
theorem moved_steered {s : State} {c : Ctx} (h : s.sees c) (K : Group) (hK : c.g.steers K) :
    s.Steered ((s.modGroup c.g.gid (fun _ => K)).noteIssue c) c (c.noted s K) ∧
    s.Steered ((s.modGroup c.g.gid (fun _ => K)).bump.noteIssue c) c (c.noted s.bump K) := by
  have hid : K.gid = c.g.gid := by rw [hK]
  rw [(noted_put h K hid).1, (noted_put h K hid).2]
  exact ⟨(steered_put h _ (Group.steers_noted hK s c)).1, (steered_put h _ (Group.steers_noted hK s.bump c)).2⟩

theorem Ctx.split?_noted (s : State) (c : Ctx) (g : Group) (k : Nat) :
    (c.noted s g).split? k = if k = c.sp.id then (g.split? c.sp.id).map (c.marked s) else g.split? k := by
  show (g.modSplit _ _).split? k = _
  exact Group.split?_modSplit _ _ _ _ (fun y => Ctx.marked_id s c y)

theorem records_nil {old new : Group} (ho : old.unspilled) (hn : new.unspilled) :
    recordsTaken old new = [] ∧ recordsChanged old new = [] := by
  unfold recordsTaken recordsChanged
  simp only [List.filter_eq_nil_iff]
  exact ⟨fun sp hsp => by simp [ho sp hsp], fun sp hsp => by simp [hn sp hsp]⟩

theorem mem_replaceBy {α : Type} {p : α → Bool} {f : α → α} {l : List α} {b : α} (h : b ∈ replaceBy p f l) :
    b ∈ l ∨ ∃ a ∈ l, b = f a := by
  induction l with
  | nil => simp [replaceBy] at h
  | cons a t ih =>
    simp only [replaceBy] at h
    split at h
    · rcases List.mem_cons.1 h with rfl | hm
      · exact .inr ⟨a, by simp, rfl⟩
      · exact .inl (by simp [hm])
    · rcases List.mem_cons.1 h with rfl | hm
      · exact .inl (by simp)
      · rcases ih hm with h1 | ⟨a', h1, h2⟩
        · exact .inl (by simp [h1])
        · exact .inr ⟨a', by simp [h1], h2⟩

theorem Group.unspilled_modSplit {g : Group} (h : g.unspilled) (k : Nat) (f : Split → Split)
    (hf : ∀ x, (f x).spilled = x.spilled) : (g.modSplit k f).unspilled := by
  intro sp hsp
  rcases mem_replaceBy hsp with h1 | ⟨a, h1, rfl⟩
  · exact h sp h1
  · rw [hf]; exact h a h1

/-- An instruction whose effect changes only registers of its group, FMODE or FSTAT. -/
theorem wrote_of {s : State} {c : Ctx} (h : s.sees c) (x : Args) (f : Group → Group)
    (hf : ∀ g, f g = { g with v := (f g).v, vtags := (f g).vtags, s := (f g).s, p := (f g).p, ops := (f g).ops,
                              fmode0 := (f g).fmode0, fmode1 := (f g).fmode1, fstat0 := (f g).fstat0, fstat1 := (f g).fstat1 }) :
    ∃ t, ((s.modGroup c.g.gid f).advance c x).noteIssue c = t ∧ s.Wrote t c x (c.after s x (f c.g)) := by
  have hgid : ∀ g, (f g).gid = g.gid := fun g => by rw [hf g]
  have hafter : ∀ g, (c.after s x (f g)).gid = g.gid := fun g => hgid g
  refine ⟨_, passed_modGroup s c x f hgid, State.sameBut_modGroup s _ _ hafter, ?_, ?_, ?_⟩
  · rw [State.group?_modGroup s _ _ _ hafter]; simp [(State.sees_eq h).1]
  · exact Ctx.after_passed h x _ (by rw [hf])
  · simp only [Ctx.after, Group.modSplit]
    have e := hf c.g
    generalize f c.g = y at e
    cases y
    simp only [Group.mk.injEq] at e
    simp [e]

end Sys2Proof.Machine
end

