-- ==== Sys2Proof/Laws/Registers.lean ====
section
/-!
SUPPORT. Registers after the writes of an instruction.
-/
namespace Sys2Proof.Machine

theorem dropPending_ops (g : Group) (free : Nat) (ks : List Nat) :
    g.dropPending free ks = { g with ops := (g.dropPending free ks).ops } := by
  unfold Group.dropPending; split <;> rfl

@[simp] theorem dropPending_gid (g : Group) (n : Nat) (ks : List Nat) : (g.dropPending n ks).gid = g.gid := by
  rw [dropPending_ops]
@[simp] theorem dropPending_wgKey (g : Group) (n : Nat) (ks : List Nat) : (g.dropPending n ks).wgKey = g.wgKey := by
  rw [dropPending_ops]
@[simp] theorem dropPending_role (g : Group) (n : Nat) (ks : List Nat) : (g.dropPending n ks).role = g.role := by
  rw [dropPending_ops]
@[simp] theorem dropPending_groupId (g : Group) (n : Nat) (ks : List Nat) : (g.dropPending n ks).groupId = g.groupId := by
  rw [dropPending_ops]
@[simp] theorem dropPending_sched (g : Group) (n : Nat) (ks : List Nat) : (g.dropPending n ks).sched = g.sched := by
  rw [dropPending_ops]
@[simp] theorem dropPending_vregs (g : Group) (n : Nat) (ks : List Nat) : (g.dropPending n ks).vregs = g.vregs := by
  rw [dropPending_ops]
@[simp] theorem dropPending_sregs (g : Group) (n : Nat) (ks : List Nat) : (g.dropPending n ks).sregs = g.sregs := by
  rw [dropPending_ops]
@[simp] theorem dropPending_handler (g : Group) (n : Nat) (ks : List Nat) : (g.dropPending n ks).handler = g.handler := by
  rw [dropPending_ops]
@[simp] theorem dropPending_acc (g : Group) (n : Nat) (ks : List Nat) : (g.dropPending n ks).acc = g.acc := by
  rw [dropPending_ops]
@[simp] theorem dropPending_streamRights (g : Group) (n : Nat) (ks : List Nat) : (g.dropPending n ks).streamRights = g.streamRights := by
  rw [dropPending_ops]
@[simp] theorem dropPending_v (g : Group) (n : Nat) (ks : List Nat) : (g.dropPending n ks).v = g.v := by
  rw [dropPending_ops]
@[simp] theorem dropPending_vtags (g : Group) (n : Nat) (ks : List Nat) : (g.dropPending n ks).vtags = g.vtags := by
  rw [dropPending_ops]
@[simp] theorem dropPending_s (g : Group) (n : Nat) (ks : List Nat) : (g.dropPending n ks).s = g.s := by
  rw [dropPending_ops]
@[simp] theorem dropPending_p (g : Group) (n : Nat) (ks : List Nat) : (g.dropPending n ks).p = g.p := by
  rw [dropPending_ops]
@[simp] theorem dropPending_flags (g : Group) (n : Nat) (ks : List Nat) : (g.dropPending n ks).flags = g.flags := by
  rw [dropPending_ops]
@[simp] theorem dropPending_fmode0 (g : Group) (n : Nat) (ks : List Nat) : (g.dropPending n ks).fmode0 = g.fmode0 := by
  rw [dropPending_ops]
@[simp] theorem dropPending_fmode1 (g : Group) (n : Nat) (ks : List Nat) : (g.dropPending n ks).fmode1 = g.fmode1 := by
  rw [dropPending_ops]
@[simp] theorem dropPending_fstat0 (g : Group) (n : Nat) (ks : List Nat) : (g.dropPending n ks).fstat0 = g.fstat0 := by
  rw [dropPending_ops]
@[simp] theorem dropPending_fstat1 (g : Group) (n : Nat) (ks : List Nat) : (g.dropPending n ks).fstat1 = g.fstat1 := by
  rw [dropPending_ops]
@[simp] theorem dropPending_fetchPtr (g : Group) (n : Nat) (ks : List Nat) : (g.dropPending n ks).fetchPtr = g.fetchPtr := by
  rw [dropPending_ops]
@[simp] theorem dropPending_splits (g : Group) (n : Nat) (ks : List Nat) : (g.dropPending n ks).splits = g.splits := by
  rw [dropPending_ops]
@[simp] theorem dropPending_frames (g : Group) (n : Nat) (ks : List Nat) : (g.dropPending n ks).frames = g.frames := by
  rw [dropPending_ops]
@[simp] theorem dropPending_resv (g : Group) (n : Nat) (ks : List Nat) : (g.dropPending n ks).resv = g.resv := by
  rw [dropPending_ops]
@[simp] theorem dropPending_age (g : Group) (n : Nat) (ks : List Nat) : (g.dropPending n ks).age = g.age := by
  rw [dropPending_ops]
@[simp] theorem dropPending_lastSid (g : Group) (n : Nat) (ks : List Nat) : (g.dropPending n ks).lastSid = g.lastSid := by
  rw [dropPending_ops]
@[simp] theorem dropPending_yielded (g : Group) (n : Nat) (ks : List Nat) : (g.dropPending n ks).yielded = g.yielded := by
  rw [dropPending_ops]
@[simp] theorem dropPending_score (g : Group) (n : Nat) (ks : List Nat) : (g.dropPending n ks).score = g.score := by
  rw [dropPending_ops]
@[simp] theorem dropPending_victims (g : Group) (n : Nat) (ks : List Nat) : (g.dropPending n ks).victims = g.victims := by
  rw [dropPending_ops]
@[simp] theorem dropPending_touched (g : Group) (n : Nat) (ks : List Nat) : (g.dropPending n ks).touched = g.touched := by
  rw [dropPending_ops]
@[simp] theorem dropPending_ended (g : Group) (n : Nat) (ks : List Nat) : (g.dropPending n ks).ended = g.ended := by
  rw [dropPending_ops]
@[simp] theorem dropPending_faulted (g : Group) (n : Nat) (ks : List Nat) : (g.dropPending n ks).faulted = g.faulted := by
  rw [dropPending_ops]

theorem setV_frame (g : Group) (ws : List (Nat × Word)) :
    g.setV ws = { g with v := (g.setV ws).v, vtags := (g.setV ws).vtags } := rfl

theorem setS_frame (g : Group) (ws : List (Nat × Word)) : g.setS ws = { g with s := (g.setS ws).s } := rfl

theorem setP_frame (g : Group) (ws : List (Nat × PtrBits)) : g.setP ws = { g with p := (g.setP ws).p } := rfl

theorem assocGet_sets_mem {α : Type} [DecidableEq α] (d : α) (ws : List (Nat × α)) (j : Nat) (v : α) (l : Assoc α)
    (hm : (j, v) ∈ ws) (hu : ∀ kv ∈ ws, kv.1 = j → kv.2 = v) : assocGet d j (assocSets d ws l) = v := by
  rw [assocGet_sets]
  cases h : ws.reverse.find? (fun kv => kv.1 == j) with
  | none =>
    rw [List.find?_eq_none] at h
    exact absurd (h (j, v) (List.mem_reverse.2 hm)) (by simp)
  | some p =>
    have h1 := List.mem_of_find?_eq_some h
    have h2 := List.find?_some h
    simpa using hu p (List.mem_reverse.1 h1) (by simpa using h2)

/-- The writes of one value in each of some lanes. -/
abbrev laneWrites (act : List Nat) (wide : Bool) (d : Nat) (val : Nat → Nat) : List (Nat × Word) :=
  act.flatMap (fun l => vPut wide d l (val l))

theorem mem_laneWrites {act : List Nat} {wide : Bool} {d : Nat} {val : Nat → Nat} {kv : Nat × Word} :
    kv ∈ laneWrites act wide d val ↔
      ∃ l ∈ act, kv = (d * 64 + l, loWord (val l)) ∨ (wide = true ∧ kv = ((d + 1) * 64 + l, hiWord (val l))) := by
  unfold laneWrites vPut
  simp only [List.mem_flatMap]
  constructor <;> rintro ⟨l, hl, h⟩ <;> refine ⟨l, hl, ?_⟩ <;> cases wide <;> simpa using h

/-- 09 R190: the `v` registers after a value is written in each of some lanes. -/
theorem wroteLanes_of (g h : Group) (act : List Nat) (wide : Bool) (d : Nat) (val : Nat → Nat)
    (hact : ∀ l ∈ act, l < 64) (hv : h.v = assocSets 0 (laneWrites act wide d val) g.v)
    (ht : h.vtags = (g.setV (laneWrites act wide d val)).vtags) : g.wroteLanes h act wide d val := by
  constructor
  · intro r l hl
    have key : ∀ r' l', l' < 64 → r' * 64 + l' = r * 64 + l → r' = r ∧ l' = l := by omega
    unfold Group.vReg
    rw [hv]
    by_cases h1 : l ∈ act ∧ r = d
    · rw [if_pos h1]
      obtain ⟨hm, rfl⟩ := h1
      refine assocGet_sets_mem _ _ _ _ _ (mem_laneWrites.2 ⟨l, hm, .inl rfl⟩) ?_
      intro kv hkv hk
      obtain ⟨l', hl', e | ⟨-, e⟩⟩ := mem_laneWrites.1 hkv <;> subst e
      · obtain ⟨-, rfl⟩ := key _ _ (hact l' hl') hk; rfl
      · have := key _ _ (hact l' hl') hk; omega
    · rw [if_neg h1]
      by_cases h2 : l ∈ act ∧ wide = true ∧ r = d + 1
      · rw [if_pos h2]
        obtain ⟨hm, hw, rfl⟩ := h2
        refine assocGet_sets_mem _ _ _ _ _ (mem_laneWrites.2 ⟨l, hm, .inr ⟨hw, rfl⟩⟩) ?_
        intro kv hkv hk
        obtain ⟨l', hl', e | ⟨-, e⟩⟩ := mem_laneWrites.1 hkv <;> subst e
        · have := key _ _ (hact l' hl') hk; omega
        · obtain ⟨-, rfl⟩ := key _ _ (hact l' hl') hk; rfl
      · rw [if_neg h2]
        refine assocGet_sets_ne _ _ _ _ ?_
        intro kv hkv hk
        obtain ⟨l', hl', e | ⟨hw, e⟩⟩ := mem_laneWrites.1 hkv <;> subst e
        · obtain ⟨rfl, rfl⟩ := key _ _ (hact l' hl') hk; exact h1 ⟨hl', rfl⟩
        · obtain ⟨rfl, rfl⟩ := key _ _ (hact l' hl') hk; exact h2 ⟨hl', hw, rfl⟩
  · intro q l hl
    rw [ht]
    have any_iff : (laneWrites act wide d val).any (fun kv => kv.1 / 256 * 64 + kv.1 % 64 == q * 64 + l) = true ↔
        l ∈ act ∧ (q = d / 4 ∨ wide = true ∧ q = (d + 1) / 4) := by
      rw [List.any_eq_true]
      constructor
      · rintro ⟨kv, hkv, hk⟩
        simp only [beq_iff_eq] at hk
        obtain ⟨l', hl', e | ⟨hw, e⟩⟩ := mem_laneWrites.1 hkv <;> subst e <;> have := hact l' hl' <;> simp only at hk
        · have : l' = l ∧ q = d / 4 := by omega
          exact ⟨this.1 ▸ hl', .inl this.2⟩
        · have : l' = l ∧ q = (d + 1) / 4 := by omega
          exact ⟨this.1 ▸ hl', .inr ⟨hw, this.2⟩⟩
      · rintro ⟨hm, e | ⟨hw, e⟩⟩
        · exact ⟨_, mem_laneWrites.2 ⟨l, hm, .inl rfl⟩, by simp only [beq_iff_eq]; omega⟩
        · exact ⟨_, mem_laneWrites.2 ⟨l, hm, .inr ⟨hw, rfl⟩⟩, by simp only [beq_iff_eq]; omega⟩
    simp only [Group.setV]
    split
    · rename_i he; simp only [List.isEmpty_iff] at he; simp [he]
    · rw [List.mem_filter, Bool.not_eq_true', ← Bool.not_eq_true, any_iff]

theorem active_lt (c : Ctx) (x : Args) : ∀ l ∈ c.active x, l < 64 := by
  intro l hl
  unfold Ctx.active lanesOf at hl
  simp only [List.mem_filter, List.mem_range] at hl
  exact hl.1.1

theorem sIndex_succ (c : Ctx) (n : Nat) : c.sIndex (n + 1) = c.sIndex n + 1 := by
  unfold Ctx.sIndex; split <;> omega

/-- The `s` registers after one, or a pair, is written. -/
theorem wroteScalar_of (c : Ctx) (g h : Group) (wide : Bool) (d n : Nat)
    (hs : h.s = assocSets 0 ((sPut wide d n).map (fun kv => (c.sIndex kv.1, kv.2))) g.s) :
    g.wroteScalar h (c.sIndex d) wide n := by
  intro k
  unfold Group.sReg
  rw [hs]
  cases wide
  · simp [sPut, assocSets, assocGet_set]
  · simp only [sPut, ↓reduceIte, List.map_cons, List.map_nil, assocSets, List.foldl_cons, List.foldl_nil, assocGet_set,
      sIndex_succ, true_and]
    split <;> split <;> first | rfl | omega

/-- The `p` registers after one is written. -/
theorem wrotePointer_of (g h : Group) (d : Nat) (q : PtrBits) (hp : h.p = assocSets nullPtr [(d, q)] g.p) :
    g.wrotePointer h d q := by
  intro k
  unfold Group.pReg
  rw [hp]; simp [assocSets, assocGet_set]

/-- What an instruction leaves that writes `v` registers of its group. -/
theorem writeLanes_wrote {s : State} {c : Ctx} (h : s.sees c) (x : Args) (act : List Nat) (wide : Bool) (d : Nat)
    (val : Nat → Nat) (hact : ∀ l ∈ act, l < 64) :
    ∃ t g, ((writeLanes s c act wide d val).advance c x).noteIssue c = t ∧ s.Wrote t c x g ∧
      c.g.wroteLanes g act wide d val ∧ g.s = c.g.s ∧ g.p = c.g.p ∧ c.g.sameModes g ∧ g.yielded = false ∧
      g.ops = c.outstanding ((laneWrites act wide d val).map (·.1)) := by
  obtain ⟨t, ht, hw⟩ := wrote_of h x
    (fun g => (g.dropPending c.free ((laneWrites act wide d val).map (·.1))).setV (laneWrites act wide d val))
    (fun g => by rw [setV_frame, dropPending_ops])
  refine ⟨t, _, ht, hw, wroteLanes_of _ _ _ _ _ _ hact ?_ ?_, ?_, ?_, ⟨?_, ?_, ?_, ?_⟩, rfl, rfl⟩ <;>
    simp only [Ctx.after, Group.modSplit, Group.setV] <;> rw [dropPending_ops]

/-- What an instruction leaves that writes `s` registers of its group. -/
theorem writeS_wrote {s : State} {c : Ctx} (h : s.sees c) (x : Args) (wide : Bool) (d n : Nat) :
    ∃ t g, ((s.writeS c (sPut wide d n)).advance c x).noteIssue c = t ∧ s.Wrote t c x g ∧
      c.g.wroteScalar g (c.sIndex d) wide n ∧ g.v = c.g.v ∧ g.vtags = c.g.vtags ∧ g.p = c.g.p ∧ c.g.sameModes g ∧
      g.yielded = false ∧ g.ops = c.outstanding ((sPut wide d n).map (fun kv => 2 ^ 20 + c.sIndex kv.1)) := by
  obtain ⟨t, ht, hw⟩ := wrote_of h x
    (fun g => (g.dropPending c.free ((sPut wide d n).map (fun kv => 2 ^ 20 + c.sIndex kv.1))).setS
      ((sPut wide d n).map (fun kv => (c.sIndex kv.1, kv.2))))
    (fun g => by rw [setS_frame, dropPending_ops])
  refine ⟨t, _, ht, hw, wroteScalar_of c _ _ _ _ _ ?_, ?_, ?_, ?_, ⟨?_, ?_, ?_, ?_⟩, rfl, rfl⟩ <;>
    simp only [Ctx.after, Group.modSplit, Group.setS] <;> rw [dropPending_ops]

/-- What an instruction leaves that writes one `p` register of its group. -/
theorem writeP_wrote {s : State} {c : Ctx} (h : s.sees c) (x : Args) (d : Nat) (q : PtrBits) :
    ∃ t g, ((s.writeP c [(d, q)]).advance c x).noteIssue c = t ∧ s.Wrote t c x g ∧
      c.g.wrotePointer g d q ∧ g.v = c.g.v ∧ g.vtags = c.g.vtags ∧ g.s = c.g.s ∧ c.g.sameModes g ∧ g.yielded = false ∧
      g.ops = c.outstanding [2 ^ 21 + d] := by
  obtain ⟨t, ht, hw⟩ := wrote_of h x (fun g => (g.dropPending c.free [2 ^ 21 + d]).setP [(d, q)])
    (fun g => by rw [setP_frame, dropPending_ops])
  refine ⟨t, _, ht, hw, wrotePointer_of _ _ _ _ ?_, ?_, ?_, ?_, ⟨?_, ?_, ?_, ?_⟩, rfl, rfl⟩ <;>
    simp only [Ctx.after, Group.modSplit, Group.setP] <;> rw [dropPending_ops]

end Sys2Proof.Machine
end

