-- ==== Sys2Proof/Laws/Blocks.lean ====
section
/-!
SUPPORT. What the shared operations of the arithmetic blocks leave: a result in one `s` register or pair, in the lanes of
Active(S), or in those lanes with flags.
-/
namespace Sys2Proof.Machine

theorem scalarExec_next {o : Op} (f : IntFn) (cb nr : Bool) {x : Args} {s : State} {c : Ctx} (h : s.issues o x c) :
    ∃ t g, scalarExec o f cb nr x s = .next t ∧ s.Wrote t c x g ∧
      c.g.wroteScalar g (c.sIndex x.d.toNat) (sWide x.mod.toNat && !nr) (scalarValue f cb c x) ∧
      g.v = c.g.v ∧ g.vtags = c.g.vtags ∧ g.p = c.g.p ∧ c.g.sameModes g ∧ g.yielded = false := by
  obtain ⟨t, g, ht, hw, h1, h2, h3, h4, h5, h6, -⟩ :=
    writeS_wrote h.1 x (sWide x.mod.toNat && !nr) x.d.toNat (scalarValue f cb c x)
  refine ⟨t, g, ?_, hw, h1, h2, h3, h4, h5, h6⟩
  unfold scalarExec; rw [issueDone_eq h, ← ht]

theorem vectorExec_next {o : Op} (f : IntFn) (cb nr : Bool) {x : Args} {s : State} {c : Ctx} (h : s.issues o x c) :
    ∃ t g, vectorExec o f cb nr x s = .next t ∧ s.Wrote t c x g ∧
      c.g.wroteLanes g (c.active x) (vWide x.mod.toNat && !nr) x.d.toNat (vectorValue f cb c x) ∧
      g.s = c.g.s ∧ g.p = c.g.p ∧ c.g.sameModes g ∧ g.yielded = false := by
  obtain ⟨t, g, ht, hw, h1, h2, h3, h4, h5, -⟩ := writeLanes_wrote h.1 x (c.active x)
    (vWide x.mod.toNat && !nr) x.d.toNat (vectorValue f cb c x) (active_lt c x)
  refine ⟨t, g, ?_, hw, h1, h2, h3, h4, h5⟩
  unfold vectorExec; rw [issueDone_eq h, ← ht]

/-- An instruction that writes its lanes. -/
theorem lanes_next {o : Op} {x : Args} {s : State} {c : Ctx} (h : s.issues o x c) (wide : Bool) (val : Nat → Nat)
    (body : Ctx → List Nat → State) (hb : body c (c.active x) = writeLanes s c (c.active x) wide x.d.toNat val) :
    ∃ t g, issueDone o x s body = .next t ∧ s.Wrote t c x g ∧ c.g.wroteLanes g (c.active x) wide x.d.toNat val ∧
      g.s = c.g.s ∧ g.p = c.g.p ∧ c.g.sameModes g ∧ g.yielded = false := by
  obtain ⟨t, g, ht, hw, h1, h2, h3, h4, h5, -⟩ := writeLanes_wrote h.1 x (c.active x) wide x.d.toNat val (active_lt c x)
  exact ⟨t, g, by rw [issueDone_eq h, hb, ← ht], hw, h1, h2, h3, h4, h5⟩

/-- An instruction that writes one `s` register, or a pair. -/
theorem scalar_next {o : Op} {x : Args} {s : State} {c : Ctx} (h : s.issues o x c) (wide : Bool) (n : Nat)
    (body : Ctx → List Nat → State) (hb : body c (c.active x) = s.writeS c (sPut wide x.d.toNat n)) :
    ∃ t g, issueDone o x s body = .next t ∧ s.Wrote t c x g ∧ c.g.wroteScalar g (c.sIndex x.d.toNat) wide n ∧
      g.v = c.g.v ∧ g.vtags = c.g.vtags ∧ g.p = c.g.p ∧ c.g.sameModes g ∧ g.yielded = false := by
  obtain ⟨t, g, ht, hw, h1, h2, h3, h4, h5, h6, -⟩ := writeS_wrote h.1 x wide x.d.toNat n
  exact ⟨t, g, by rw [issueDone_eq h, hb, ← ht], hw, h1, h2, h3, h4, h5, h6⟩

/-- An instruction that writes its lanes and contributes flags. -/
theorem flagged_next {o : Op} {x : Args} {s : State} {c : Ctx} (h : s.issues o x c) (wide : Bool) (val : Nat → Nat)
    (fl : FlagBits) (body : Ctx → List Nat → State)
    (hb : body c (c.active x) = (writeLanes s c (c.active x) wide x.d.toNat val).addFlags c fl) :
    ∃ t g, issueDone o x s body = .next t ∧ s.Wrote t c x g ∧ c.g.wroteLanes g (c.active x) wide x.d.toNat val ∧
      c.g.tookFlags g c.sp.half fl ∧ g.s = c.g.s ∧ g.p = c.g.p ∧ g.yielded = false := by
  let ws := laneWrites (c.active x) wide x.d.toNat val
  obtain ⟨t, ht, hw⟩ := wrote_of h.1 x
    (fun g => ((g.dropPending c.free (ws.map (·.1))).setV ws).addFlags c.sp.half fl)
    (fun g => by unfold Group.addFlags; split <;> rw [setV_frame, dropPending_ops])
  have hs : (writeLanes s c (c.active x) wide x.d.toNat val).addFlags c fl =
      s.modGroup c.g.gid (fun g => ((g.dropPending c.free (ws.map (·.1))).setV ws).addFlags c.sp.half fl) := by
    unfold writeLanes State.writeV State.addFlags
    rw [State.modGroup_modGroup]
    intro g; rw [setV_frame, dropPending_ops]
  refine ⟨t, _, by rw [issueDone_eq h, hb, hs, ht], hw, wroteLanes_of _ _ _ _ _ _ (active_lt c x) ?_ ?_, ⟨?_, ?_, ?_, ?_⟩,
    ?_, ?_, rfl⟩ <;>
  · simp only [Ctx.after, Group.modSplit, Group.addFlags, Group.setV]
    cases c.sp.half <;> simp [ws]

/-- The value listed for a lane. -/
theorem lastOf_map {α : Type} (f : Nat → α) (ls : List Nat) {l : Nat} (h : l ∈ ls) :
    lastOf l (ls.map (fun l => (l, f l))) = some (f l) := by
  unfold lastOf
  cases e : (ls.map (fun l => (l, f l))).reverse.find? (fun kv => kv.1 == l) with
  | none =>
    rw [List.find?_eq_none] at e
    exact absurd (e (l, f l) (by simp only [List.mem_reverse, List.mem_map]; exact ⟨l, h, rfl⟩)) (by simp)
  | some p =>
    have h1 := List.mem_of_find?_eq_some e
    have h2 := List.find?_some e
    simp only [List.mem_reverse, List.mem_map, beq_iff_eq] at h1 h2
    obtain ⟨k, -, rfl⟩ := h1
    simp only at h2; subst h2; rfl

theorem flatMap_congr_mem {α β : Type} {l : List α} {f g : α → List β} (h : ∀ a ∈ l, f a = g a) :
    l.flatMap f = l.flatMap g := by
  induction l with
  | nil => rfl
  | cons a t ih => simp only [List.flatMap_cons]; rw [h a (by simp), ih (fun b hb => h b (by simp [hb]))]

theorem writeLanes_congr {s : State} {c : Ctx} {act : List Nat} {wide : Bool} {d : Nat} {f g : Nat → Nat}
    (h : ∀ l ∈ act, f l = g l) : writeLanes s c act wide d f = writeLanes s c act wide d g := by
  unfold writeLanes; rw [flatMap_congr_mem (fun a ha => by rw [h a ha])]

theorem writeFlagged_eq (s : State) (c : Ctx) (act : List Nat) (d : Nat) (f : Nat → Flagged) :
    writeFlagged s c act d f =
      (writeLanes s c act false d (fun l => (f l).1)).addFlags c (orFlags (act.map (fun l => (f l).2))) := by
  unfold writeFlagged
  simp only [List.map_map]
  rw [writeLanes_congr (g := fun l => (f l).1) (fun l hl => by rw [lastOf_map f act hl]; rfl)]
  rfl

theorem writeElems_eq (s : State) (c : Ctx) (act : List Nat) (fmt d : Nat) (f : Nat → Flagged) :
    writeElems s c act fmt d f =
      (writeLanes s c act (fmtWide fmt) d (fun l => extendElem fmt (f l).1)).addFlags c
        (orFlags (act.map (fun l => (f l).2))) := by
  unfold writeElems
  simp only [List.map_map]
  rw [writeLanes_congr (g := fun l => extendElem fmt (f l).1) (fun l hl => by rw [lastOf_map f act hl]; rfl)]
  rfl

theorem floatExec_next {o : Op} (f : Bool → Nat → RMode → Nat → Nat → Nat → Flagged) {x : Args} {s : State} {c : Ctx}
    (h : s.issues o x c) :
    ∃ t g, floatExec o x s f = .next t ∧ s.Wrote t c x g ∧
      c.g.wroteLanes g (c.active x) false x.d.toNat
        (fun l => (floatLane c x (f (ftzOf c.fmode) (floatFmt x) (c.rounding x)) l).1) ∧
      c.g.tookFlags g c.sp.half
        (orFlags ((c.active x).map (fun l => (floatLane c x (f (ftzOf c.fmode) (floatFmt x) (c.rounding x)) l).2))) ∧
      g.s = c.g.s ∧ g.p = c.g.p ∧ g.yielded = false :=
  flagged_next h false _ _
    (fun c act => writeFlagged s c act x.d.toNat (floatLane c x (f (ftzOf c.fmode) (floatFmt x) (c.rounding x))))
    (writeFlagged_eq _ _ _ _ _)

end Sys2Proof.Machine
end

