-- ==== Sys2Proof/Laws/Calm.lean ====
section
/-!
SUPPORT. Operations that leave the groups but for their reservations and L1 lines, the workgroups, and the sets that halts list:
base lemmas.
-/
namespace Sys2Proof.Machine

/-- The groups without their reservations and L1 lines, the workgroups, the workgroups of each halt, the replay of each partition,
the events listed. -/
abbrev Placed := List Group × List Workgroup × List (List Nat) × List (Nat × Option Replay) × List Instr

variable {G : Placed}

/-- What is placed in a state. -/
def State.placed (s : State) : Placed :=
  (s.groups.map Group.bare, s.wgs, s.halts.map (·.wgs), s.parts.map (fun p => (p.num, p.replay)), s.agenda)

/-- What is placed in a state is what is listed. -/
def State.Calm (G : Placed) (s : State) : Prop := s.placed = G

/-- What is placed, of its parts. -/
def calmOf (G : Placed) (gs : List Group) (ws : List Workgroup) (hs : List Halt) (ps : List Partition)
    (ag : List Instr) : Prop :=
  (gs.map Group.bare, ws, hs.map (·.wgs), ps.map (fun p => (p.num, p.replay)), ag) = G

theorem calmOf_of {s : State} (h : s.Calm G) : calmOf G s.groups s.wgs s.halts s.parts s.agenda := h

theorem calmOf_halts {s : State} (f : Halt → Halt) (hf : ∀ x, (f x).wgs = x.wgs) (h : s.Calm G) :
    calmOf G s.groups s.wgs (s.halts.map f) s.parts s.agenda := by
  unfold calmOf
  rw [List.map_map, show ((fun x : Halt => x.wgs) ∘ f) = (fun x : Halt => x.wgs) from funext hf]
  exact h

theorem map_replaceBy_same {α β : Type} (p : α → Bool) (f : α → α) (v : α → β) (hf : ∀ a, v (f a) = v a) (l : List α) :
    (replaceBy p f l).map v = l.map v := by
  induction l with
  | nil => rfl
  | cons a t ih => simp only [replaceBy]; split <;> simp [hf, ih]

theorem calmOf_parts {s : State} {ps : List Partition}
    (hp : ps.map (fun p => (p.num, p.replay)) = s.parts.map (fun p => (p.num, p.replay))) (h : s.Calm G) :
    calmOf G s.groups s.wgs s.halts ps s.agenda := by
  unfold calmOf; rw [hp]; exact h

theorem Group.cancelResv_bare (g : Group) (ks : List Nat) (status : Nat) (but : Option (Nat × Nat)) :
    (g.cancelResv ks status but).bare = g.bare := by
  unfold Group.cancelResv; split <;> rfl

theorem Group.loseLine_bare (g : Group) (line : Nat) : (g.loseLine line).bare = g.bare := by
  unfold Group.loseLine; split <;> rfl

/-- The groups of a state written out. -/
theorem calm_mk (cur_ : Option (Nat × Nat)) (agenda_ : List Instr) (free_ : Nat) (serial_ : Nat) (bus_ : List Byte) (mem_ : List Host.Cell) (tags_ : List Nat) (poison_ : List Nat) (dies_ : List Die) (cores_ : Assoc Core) (parts_ : List Partition) (wgs_ : List Workgroup) (groups_ : List Group) (records_ : List ErrorRecord) (recordBase_ : Nat) (classes_ : List Nat) (halts_ : List Halt) (mailbox_ : Mailbox) (master_ : Nat) (pod_ : Nat) (paths_ : List BraidPath) (counts_ : List BraidCount) (perfs_ : List BraidPerf) (sent_ : List SentPacket) (answers_ : List (SentPacket × Nat)) (reply_ : Option Reply) (heldPkts_ : List Packet) (farResv_ : List FarResv) (linkDown_ : Bool) (badLanes_ : List Nat) (retrains_ : Assoc Nat) (powerCap_ : Bool) (snap_ : Snapshot) (samples_ : List PendingSample) :
    State.Calm G (State.mk cur_ agenda_ free_ serial_ bus_ mem_ tags_ poison_ dies_ cores_ parts_ wgs_ groups_ records_ recordBase_ classes_ halts_ mailbox_ master_ pod_ paths_ counts_ perfs_ sent_ answers_ reply_ heldPkts_ farResv_ linkDown_ badLanes_ retrains_ powerCap_ snap_ samples_) ↔ calmOf G groups_ wgs_ halts_ parts_ agenda_ := Iff.rfl

theorem calm_ite {p : Prop} [Decidable p] {s t : State} (hs : s.Calm G) (ht : t.Calm G) : (if p then s else t).Calm G := by
  split <;> assumption

theorem calm_foldl {α : Type} {f : State → α → State} (hf : ∀ s a, s.Calm G → (f s a).Calm G) (l : List α) {s : State}
    (h : s.Calm G) : (l.foldl f s).Calm G := by
  induction l generalizing s with
  | nil => exact h
  | cons a t ih => exact ih (hf s a h)

theorem calm_foldl_fst {α β : Type} {f : State × β → α → State × β} (hf : ∀ p a, p.1.Calm G → (f p a).1.Calm G) (l : List α)
    {p : State × β} (h : p.1.Calm G) : (l.foldl f p).1.Calm G := by
  induction l generalizing p with
  | nil => exact h
  | cons a t ih => exact ih (hf p a h)

theorem calm_of_fst {α : Type} {p : State × α} {s : State} {a : α} (h : p.1.Calm G) (e : p = (s, a)) : s.Calm G := by
  subst e; exact h

theorem calm_of_snd {α : Type} {p : α × State} {s : State} {a : α} (h : p.2.Calm G) (e : p = (a, s)) : s.Calm G := by
  subst e; exact h

end Sys2Proof.Machine
end

