-- ==== Sys2Proof/Laws/CalmMemory.lean ====
section
/-!
SUPPORT. What happens in memory, in the caches, in the directory and in the records changes no group but in its reservations and its record of L1 lines.
-/
namespace Sys2Proof.Machine
variable {G : Placed}

/-! ### View -/

theorem State.modPart_calm (s : State) (n : Nat) (f : Partition → Partition)
    (hf : ∀ p, (f p).num = p.num ∧ (f p).replay = p.replay) (h_s : s.Calm G) : (State.modPart s n f).Calm G := by
  unfold State.modPart
  simp only [calm_mk]
  exact calmOf_parts (map_replaceBy_same _ _ _ (fun p => by simp [hf p]) _) h_s

theorem State.modLaunch_calm (s : State) (n t : Nat) (f : Launch → Launch) (h_s : s.Calm G) :
    (State.modLaunch s n t f).Calm G := by
  unfold State.modLaunch
  try dsimp only
  repeat' (first
    | with_reducible assumption | (intro p; first | exact ⟨rfl, rfl⟩ | (dsimp only; split <;> exact ⟨rfl, rfl⟩))
    | with_reducible apply State.modPart_calm)

theorem State.modDie_calm (s : State) (d : Nat) (f : Die → Die) (h_s : s.Calm G) :
    (State.modDie s d f).Calm G := by
  unfold State.modDie
  try dsimp only
  repeat' (first
    | with_reducible assumption | simp only [calm_mk] | with_reducible apply calmOf_of)

theorem State.modShare_calm (s : State) (c : Nat) (f : ClusterShare → ClusterShare) (h_s : s.Calm G) :
    (State.modShare s c f).Calm G := by
  unfold State.modShare
  try dsimp only
  repeat' (first
    | with_reducible assumption | with_reducible apply State.modDie_calm)

theorem State.modCore_calm (s : State) (c : Nat) (f : Core → Core) (h_s : s.Calm G) :
    (State.modCore s c f).Calm G := by
  unfold State.modCore
  try dsimp only
  repeat' (first
    | with_reducible assumption | simp only [calm_mk] | with_reducible apply calmOf_of)

theorem State.bump_calm (s : State) (h_s : s.Calm G) :
    (State.bump s).Calm G := by
  unfold State.bump
  try dsimp only
  repeat' (first
    | with_reducible assumption | simp only [calm_mk] | with_reducible apply calmOf_of)

theorem State.drawBool_calm (s : State) (h_s : s.Calm G) :
    (State.drawBool s).2.Calm G := by
  unfold State.drawBool
  try dsimp only
  repeat' (first
    | with_reducible assumption | simp only [calm_mk] | with_reducible apply calmOf_of)

theorem State.drawNat_calm (s : State) (h_s : s.Calm G) :
    (State.drawNat s).2.Calm G := by
  unfold State.drawNat
  try dsimp only
  repeat' (first
    | with_reducible assumption | simp only [calm_mk] | with_reducible apply calmOf_of)

theorem State.drawDWord_calm (s : State) (h_s : s.Calm G) :
    (State.drawDWord s).2.Calm G := by
  unfold State.drawDWord
  try dsimp only
  repeat' (first
    | with_reducible assumption | simp only [calm_mk] | with_reducible apply calmOf_of)

theorem State.modOp_calm (s : State) (core n : Nat) (f : EngineOp → EngineOp) (h_s : s.Calm G) :
    (State.modOp s core n f).Calm G := by
  unfold State.modOp
  try dsimp only
  repeat' (first
    | with_reducible assumption | with_reducible apply State.modCore_calm)

theorem State.dropOp_calm (s : State) (core n : Nat) (h_s : s.Calm G) :
    (State.dropOp s core n).Calm G := by
  unfold State.dropOp
  try dsimp only
  repeat' (first
    | with_reducible assumption | with_reducible apply State.modCore_calm)

/-! ### Memory -/

theorem State.cancelResv_calm (s : State) (ks : List Nat) (status : Nat) (but : Option (Nat × Nat)) (h_s : s.Calm G) : (State.cancelResv s ks status but).Calm G := by
  have key : ∀ f : Group → Group, (∀ g, (f g).bare = g.bare) → ∀ t : State, t.groups = s.groups.map f → t.wgs = s.wgs → t.halts = s.halts → t.parts = s.parts → t.agenda = s.agenda → t.Calm G := by
    intro f hf t ht hw hh hp ha
    unfold State.Calm State.placed at *
    rw [ht, hw, hh, hp, ha, List.map_map, ← h_s, List.map_congr_left (f := Group.bare ∘ f) (g := Group.bare) fun g _ => hf g]
  unfold State.cancelResv
  refine key _ (fun g => ?_) _ rfl rfl rfl rfl rfl
  exact Group.cancelResv_bare ..

theorem State.putBytes_calm (s : State) (ws : List (Nat × Byte)) (h_s : s.Calm G) :
    (State.putBytes s ws).Calm G := by
  unfold State.putBytes
  try dsimp only
  repeat' (first
    | with_reducible assumption | simp only [calm_mk] | with_reducible apply calmOf_of)

theorem State.store_calm (s : State) (ws : List (Nat × Byte)) (but : Option (Nat × Nat)) (h_s : s.Calm G) :
    (State.store s ws but).Calm G := by
  unfold State.store
  try dsimp only
  repeat' (first
    | with_reducible assumption | with_reducible apply State.cancelResv_calm
    | with_reducible apply State.putBytes_calm | with_reducible apply calm_ite)

theorem State.tagKeys_calm (s : State) (ks : List Nat) (h_s : s.Calm G) :
    (State.tagKeys s ks).Calm G := by
  unfold State.tagKeys
  try dsimp only
  repeat' (first
    | with_reducible assumption | simp only [calm_mk] | with_reducible apply calmOf_of)

theorem State.storeBytes_calm (s : State) (k : Nat) (bs : List Byte) (h_s : s.Calm G) :
    (State.storeBytes s k bs).Calm G := by
  unfold State.storeBytes
  try dsimp only
  repeat' (first
    | with_reducible assumption | with_reducible apply State.store_calm)

theorem State.storeNum_calm (s : State) (k n x : Nat) (h_s : s.Calm G) :
    (State.storeNum s k n x).Calm G := by
  unfold State.storeNum
  try dsimp only
  repeat' (first
    | with_reducible assumption | with_reducible apply State.storeBytes_calm)

theorem State.storePtr_calm (s : State) (k : Nat) (q : PtrBits) (h_s : s.Calm G) :
    (State.storePtr s k q).Calm G := by
  unfold State.storePtr
  try dsimp only
  repeat' (first
    | with_reducible assumption | with_reducible apply State.storeBytes_calm | simp only [calm_mk]
    | with_reducible apply calmOf_of)

theorem State.wipe_calm (s : State) (lo n : Nat) (h_s : s.Calm G) :
    (State.wipe s lo n).Calm G := by
  unfold State.wipe
  try dsimp only
  repeat' (first
    | with_reducible assumption | simp only [calm_mk] | with_reducible apply calmOf_of)

/-! ### Translate -/

theorem State.install_calm (s : State) (core : Nat) (p : Partition) (va : Nat) (h_s : s.Calm G) :
    (State.install s core p va).Calm G := by
  unfold State.install
  try dsimp only
  repeat' (first
    | with_reducible assumption | (intro p; first | exact ⟨rfl, rfl⟩ | (dsimp only; split <;> exact ⟨rfl, rfl⟩))
    | with_reducible apply State.modCore_calm | with_reducible apply State.modPart_calm
    | with_reducible apply calm_ite | split)

theorem State.touch_calm (s : State) (core : Nat) (p : Partition) (va : Nat) (h_s : s.Calm G) :
    (State.touch s core p va).Calm G := by
  unfold State.touch
  try dsimp only
  repeat' (first
    | with_reducible assumption | with_reducible apply State.install_calm | split)

theorem State.touches_calm (s : State) (core : Nat) (p : Partition) (vas : List Nat) (h_s : s.Calm G) :
    (State.touches s core p vas).Calm G := by
  unfold State.touches
  try dsimp only
  repeat' (first
    | with_reducible assumption | intro _ | with_reducible apply State.touch_calm | with_reducible apply calm_foldl)

/-! ### Coherence -/

theorem State.count_calm (s : State) (die part : Nat) (f : CohCounters → CohCounters) (h_s : s.Calm G) :
    (State.count s die part f).Calm G := by
  unfold State.count
  try dsimp only
  repeat' (first
    | with_reducible assumption | with_reducible apply State.modDie_calm)

theorem State.cancelSlice_calm (s : State) (die lo n : Nat) (home : Bool) (h_s : s.Calm G) : (State.cancelSlice s die lo n home).Calm G := by
  have key : ∀ f : Group → Group, (∀ g, (f g).bare = g.bare) → ∀ t : State, t.groups = s.groups.map f → t.wgs = s.wgs → t.halts = s.halts → t.parts = s.parts → t.agenda = s.agenda → t.Calm G := by
    intro f hf t ht hw hh hp ha
    unfold State.Calm State.placed at *
    rw [ht, hw, hh, hp, ha, List.map_map, ← h_s, List.map_congr_left (f := Group.bare ∘ f) (g := Group.bare) fun g _ => hf g]
  unfold State.cancelSlice
  refine key _ (fun g => ?_) _ rfl rfl rfl rfl rfl
  try dsimp only
  split <;> rfl

theorem State.dropLineResv_calm (s : State) (core : Nat) (lines : List Nat) (h_s : s.Calm G) : (State.dropLineResv s core lines).Calm G := by
  have key : ∀ f : Group → Group, (∀ g, (f g).bare = g.bare) → ∀ t : State, t.groups = s.groups.map f → t.wgs = s.wgs → t.halts = s.halts → t.parts = s.parts → t.agenda = s.agenda → t.Calm G := by
    intro f hf t ht hw hh hp ha
    unfold State.Calm State.placed at *
    rw [ht, hw, hh, hp, ha, List.map_map, ← h_s, List.map_congr_left (f := Group.bare ∘ f) (g := Group.bare) fun g _ => hf g]
  unfold State.dropLineResv
  split
  · exact h_s
  refine key _ (fun g => ?_) _ rfl rfl rfl rfl rfl
  try dsimp only
  split <;> rfl

theorem State.recallLines_calm (s : State) (holder lo n : Nat) (sharing home : Bool) (h_s : s.Calm G) :
    (State.recallLines s holder lo n sharing home).Calm G := by
  unfold State.recallLines
  try dsimp only
  repeat' (first
    | with_reducible assumption | intro _ | with_reducible apply State.cancelSlice_calm
    | with_reducible apply State.dropLineResv_calm | simp only [calm_mk] | with_reducible apply calmOf_of
    | with_reducible apply calm_foldl | with_reducible apply calm_ite)

theorem State.recallNode_calm (s : State) (homeD holder : Nat) (n : Node) (sharing : Bool) (h_s : s.Calm G) :
    (State.recallNode s homeD holder n sharing).Calm G := by
  unfold State.recallNode
  try dsimp only
  repeat' (first
    | with_reducible assumption | with_reducible apply State.count_calm
    | with_reducible apply State.recallLines_calm | with_reducible apply calm_ite)

theorem State.splitNode_calm (s : State) (homeD : Nat) (n : Node) (line : Nat) (h_s : s.Calm G) :
    (State.splitNode s homeD n line).1.Calm G := by
  unfold State.splitNode
  try dsimp only
  repeat' (first
    | with_reducible assumption | with_reducible apply State.count_calm | with_reducible apply State.modDie_calm)

theorem State.dirRequest_calm (s : State) (h : Nat) (own : Bool) (line : Nat) (h_s : s.Calm G) :
    (State.dirRequest s h own line).Calm G := by
  unfold State.dirRequest
  try dsimp only
  repeat' (first
    | with_reducible assumption | intro _ | with_reducible apply State.modDie_calm
    | with_reducible apply State.recallNode_calm | with_reducible apply State.splitNode_calm
    | with_reducible apply calm_foldl | with_reducible apply calm_ite | split)

theorem State.own_calm (s : State) (die line : Nat) (h_s : s.Calm G) :
    (State.own s die line).Calm G := by
  unfold State.own
  try dsimp only
  repeat' (first
    | with_reducible assumption | with_reducible apply State.dirRequest_calm | with_reducible apply calm_ite)

theorem State.share__calm (s : State) (die line : Nat) (h_s : s.Calm G) :
    (State.share_ s die line).Calm G := by
  unfold State.share_
  try dsimp only
  repeat' (first
    | with_reducible assumption | with_reducible apply State.dirRequest_calm | with_reducible apply calm_ite)

theorem State.cancelOthers_calm (s : State) (core : Nat) (ks : List Nat) (h_s : s.Calm G) : (State.cancelOthers s core ks).Calm G := by
  have key : ∀ f : Group → Group, (∀ g, (f g).bare = g.bare) → ∀ t : State, t.groups = s.groups.map f → t.wgs = s.wgs → t.halts = s.halts → t.parts = s.parts → t.agenda = s.agenda → t.Calm G := by
    intro f hf t ht hw hh hp ha
    unfold State.Calm State.placed at *
    rw [ht, hw, hh, hp, ha, List.map_map, ← h_s, List.map_congr_left (f := Group.bare ∘ f) (g := Group.bare) fun g _ => hf g]
  unfold State.cancelOthers
  refine key _ (fun g => ?_) _ rfl rfl rfl rfl rfl
  try dsimp only
  split
  · rfl
  · exact Group.cancelResv_bare ..

theorem State.collect_calm (s : State) (k : Nat) (but : Option Nat) (h_s : s.Calm G) :
    (State.collect s k but).Calm G := by
  unfold State.collect
  try dsimp only
  repeat' (first
    | with_reducible assumption | intro _ | with_reducible apply State.modCore_calm | with_reducible apply calm_foldl)

theorem State.registerWord_calm (s : State) (core k : Nat) (evict : Bool) (h_s : s.Calm G) :
    (State.registerWord s core k evict).Calm G := by
  unfold State.registerWord
  try dsimp only
  repeat' (first
    | with_reducible assumption | intro _ | with_reducible apply State.cancelOthers_calm
    | with_reducible apply State.collect_calm | with_reducible apply State.count_calm
    | with_reducible apply State.modCore_calm | with_reducible apply State.own_calm
    | with_reducible apply State.putBytes_calm | with_reducible apply State.tagKeys_calm
    | with_reducible apply calm_foldl | with_reducible apply calm_ite | split)

theorem State.evictWords_calm (s : State) (core : Nat) (ks : List Nat) (h_s : s.Calm G) :
    (State.evictWords s core ks).Calm G := by
  unfold State.evictWords
  try dsimp only
  repeat' (first
    | with_reducible assumption | intro _ | with_reducible apply State.dropLineResv_calm
    | with_reducible apply State.registerWord_calm | with_reducible apply calm_foldl)

theorem State.setDck_calm (s : State) (core : Nat) (p : Partition) (va : Nat) (h_s : s.Calm G) :
    (State.setDck s core p va).Calm G := by
  unfold State.setDck
  try dsimp only
  repeat' (first
    | with_reducible assumption | with_reducible apply State.collect_calm | with_reducible apply State.modCore_calm
    | with_reducible apply State.own_calm | with_reducible apply State.store_calm | split)

theorem State.releaseWhere_calm (s : State) (core : Nat) (p : L1Word → Bool) (h_s : s.Calm G) :
    (State.releaseWhere s core p).Calm G := by
  unfold State.releaseWhere
  try dsimp only
  repeat' (first
    | with_reducible assumption | intro _ | with_reducible apply State.registerWord_calm
    | with_reducible apply calm_foldl)

theorem State.releaseCore_calm (s : State) (core scope : Nat) (h_s : s.Calm G) :
    (State.releaseCore s core scope).Calm G := by
  unfold State.releaseCore
  try dsimp only
  repeat' (first
    | with_reducible assumption | with_reducible apply State.releaseWhere_calm | with_reducible apply calm_ite)

theorem State.advanceEpoch_calm (s : State) (die part : Nat) (h_s : s.Calm G) :
    (State.advanceEpoch s die part).Calm G := by
  unfold State.advanceEpoch
  try dsimp only
  repeat' (first
    | with_reducible assumption | with_reducible apply State.count_calm | with_reducible apply State.modDie_calm)

theorem State.acquireCore_calm (s : State) (core part scope : Nat) (h_s : s.Calm G) :
    (State.acquireCore s core part scope).Calm G := by
  unfold State.acquireCore
  try dsimp only
  repeat' (first
    | with_reducible assumption | with_reducible apply State.advanceEpoch_calm
    | with_reducible apply State.modCore_calm | with_reducible apply calm_ite)

theorem State.releaseRange_calm (s : State) (core : Nat) (p : Partition) (q : Ptr) (scope : Nat) (h_s : s.Calm G) :
    (State.releaseRange s core p q scope).Calm G := by
  unfold State.releaseRange
  try dsimp only
  repeat' (first
    | with_reducible assumption | with_reducible apply State.releaseWhere_calm | with_reducible apply calm_ite)

theorem State.acquireRange_calm (s : State) (core : Nat) (p : Partition) (q : Ptr) (scope : Nat) (h_s : s.Calm G) :
    (State.acquireRange s core p q scope).Calm G := by
  unfold State.acquireRange
  try dsimp only
  repeat' (first
    | with_reducible assumption | with_reducible apply State.advanceEpoch_calm
    | with_reducible apply State.modCore_calm | with_reducible apply calm_ite)

theorem State.noteForward_calm (s : State) (core part k : Nat) (h_s : s.Calm G) :
    (State.noteForward s core part k).Calm G := by
  unfold State.noteForward
  try dsimp only
  repeat' (first
    | with_reducible assumption | with_reducible apply State.count_calm | with_reducible apply calm_ite)

theorem State.serveAway_calm (s : State) (die part k : Nat) (h_s : s.Calm G) :
    (State.serveAway s die part k).Calm G := by
  unfold State.serveAway
  try dsimp only
  repeat' (first
    | with_reducible assumption | intro _ | with_reducible apply State.count_calm
    | with_reducible apply State.modCore_calm | with_reducible apply calm_foldl | split)

theorem State.evictLine_calm (s : State) (core line : Nat) (h_s : s.Calm G) : (State.evictLine s core line).Calm G := by
  unfold State.evictLine
  dsimp only
  split
  · exact h_s
  · have h := State.evictWords_calm s core (((s.core core).l1.filter (fun w => w.key / 32 == line)).map (·.key)) h_s
    revert h
    generalize State.evictWords s core _ = t
    intro h
    unfold State.Calm State.placed at *
    rw [← h]
    simp only [List.map_map]
    congr 1
    refine List.map_congr_left fun g _ => ?_
    dsimp only [Function.comp_apply]
    split
    · exact Group.loseLine_bare ..
    · rfl

theorem State.roomFor_calm {s t : State} {core line : Nat} {keep : List Nat} (e : s.roomFor core line keep = some t)
    (h : s.Calm G) : t.Calm G := by
  unfold State.roomFor at e
  dsimp only at e
  split at e
  · cases e; exact h
  · split at e
    · cases e; exact h
    · obtain ⟨l, _, rfl⟩ := Option.map_eq_some_iff.1 e
      exact State.evictLine_calm _ _ _ h

theorem State.l1Room_calm (s : State) (core line : Nat) (h_s : s.Calm G) : (State.l1Room s core line).Calm G := by
  unfold State.l1Room
  cases e : s.roomFor core line [] with
  | none => exact h_s
  | some t => exact State.roomFor_calm e h_s

theorem State.fillFrom_calm (s : State) (core part : Nat) (inv : Bool) (line : Nat) (h_s : s.Calm G) :
    (State.fillFrom s core part inv line).Calm G := by
  unfold State.fillFrom
  try dsimp only
  repeat' (first
    | with_reducible assumption | intro _ | with_reducible apply State.modCore_calm
    | with_reducible apply State.noteForward_calm | with_reducible apply State.share__calm
    | with_reducible apply calm_foldl)

theorem State.fillMiss_calm (s : State) (core part : Nat) (inv : Bool) (line : Nat) (h_s : s.Calm G) :
    (State.fillMiss s core part inv line).Calm G := by
  unfold State.fillMiss
  try dsimp only
  repeat' (first
    | with_reducible assumption | with_reducible apply State.fillFrom_calm | with_reducible apply State.l1Room_calm)

theorem State.fillWord_calm (s : State) (core part : Nat) (inv : Bool) (k : Nat) (h_s : s.Calm G) :
    (State.fillWord s core part inv k).Calm G := by
  unfold State.fillWord
  try dsimp only
  repeat' (first
    | with_reducible assumption | with_reducible apply State.fillMiss_calm | with_reducible apply State.modCore_calm
    | with_reducible apply State.noteForward_calm | with_reducible apply State.share__calm
    | with_reducible apply calm_ite | split)

theorem State.dirtyByte_calm (s : State) (core part : Nat) (pa : Nat) (b : Byte) (h_s : s.Calm G) :
    (State.dirtyByte s core part pa b).Calm G := by
  unfold State.dirtyByte
  try dsimp only
  repeat' (first
    | with_reducible assumption | with_reducible apply State.l1Room_calm | with_reducible apply State.modCore_calm)

theorem State.dirtyNibble_calm (s : State) (core part : Nat) (pa : Nat) (hi : Bool) (n : Nat) (h_s : s.Calm G) :
    (State.dirtyNibble s core part pa hi n).Calm G := by
  unfold State.dirtyNibble
  try dsimp only
  repeat' (first
    | with_reducible assumption | with_reducible apply State.cancelResv_calm
    | with_reducible apply State.l1Room_calm | with_reducible apply State.modCore_calm)

theorem State.dirtyBytes_calm (s : State) (core part : Nat) (ws : List (Nat × Byte)) (but : Option (Nat × Nat)) (h_s : s.Calm G) :
    (State.dirtyBytes s core part ws but).Calm G := by
  unfold State.dirtyBytes
  try dsimp only
  repeat' (first
    | with_reducible assumption | intro _ | with_reducible apply State.cancelResv_calm
    | with_reducible apply State.dirtyByte_calm | with_reducible apply calm_foldl)

theorem State.dirtyPtr_calm (s : State) (core part : Nat) (pa : Nat) (q : PtrBits) (h_s : s.Calm G) :
    (State.dirtyPtr s core part pa q).Calm G := by
  unfold State.dirtyPtr
  try dsimp only
  repeat' (first
    | with_reducible assumption | with_reducible apply State.dirtyBytes_calm
    | with_reducible apply State.modCore_calm)

theorem State.readAtSlice_calm (s : State) (core part k : Nat) (h_s : s.Calm G) :
    (State.readAtSlice s core part k).Calm G := by
  unfold State.readAtSlice
  try dsimp only
  repeat' (first
    | with_reducible assumption | with_reducible apply State.modCore_calm
    | with_reducible apply State.noteForward_calm | with_reducible apply State.serveAway_calm
    | with_reducible apply State.share__calm | with_reducible apply calm_ite)

theorem State.sliceRead_calm (s : State) (core part : Nat) (ks : List Nat) (h_s : s.Calm G) :
    (State.sliceRead s core part ks).Calm G := by
  unfold State.sliceRead
  try dsimp only
  repeat' (first
    | with_reducible assumption | intro _ | with_reducible apply State.readAtSlice_calm
    | with_reducible apply State.registerWord_calm | with_reducible apply calm_foldl | split)

theorem State.readAtHome_calm (s : State) (core part k : Nat) (h_s : s.Calm G) :
    (State.readAtHome s core part k).Calm G := by
  unfold State.readAtHome
  try dsimp only
  repeat' (first
    | with_reducible assumption | with_reducible apply State.noteForward_calm
    | with_reducible apply State.registerWord_calm | with_reducible apply State.serveAway_calm
    | with_reducible apply State.share__calm | with_reducible apply calm_ite)

theorem State.sliceWrite_calm (s : State) (core die : Nat) (ks : List Nat) (h_s : s.Calm G) :
    (State.sliceWrite s core die ks).Calm G := by
  unfold State.sliceWrite
  try dsimp only
  repeat' (first
    | with_reducible assumption | intro _ | with_reducible apply State.collect_calm
    | with_reducible apply State.own_calm | with_reducible apply State.registerWord_calm
    | with_reducible apply calm_foldl)

theorem State.copyWhere_calm (s : State) (f : Nat → Nat × Nat × Nat → Bool) (h_s : s.Calm G) :
    (State.copyWhere s f).Calm G := by
  unfold State.copyWhere
  simp only [calm_mk]
  refine calmOf_parts ?_ h_s
  rw [List.map_map]
  refine List.map_congr_left (fun p _ => ?_)
  dsimp only [Function.comp_apply]
  split <;> rfl

theorem State.copyBefore_calm (s : State) (ks : List Nat) (h_s : s.Calm G) :
    (State.copyBefore s ks).Calm G := by
  unfold State.copyBefore
  try dsimp only
  repeat' (first
    | with_reducible assumption | with_reducible apply State.copyWhere_calm)

theorem State.outerWrite_calm (s : State) (ws : List (Nat × Byte)) (h_s : s.Calm G) :
    (State.outerWrite s ws).Calm G := by
  unfold State.outerWrite
  try dsimp only
  repeat' (first
    | with_reducible assumption | intro _ | with_reducible apply State.collect_calm
    | with_reducible apply State.copyBefore_calm | with_reducible apply State.own_calm
    | with_reducible apply State.store_calm | with_reducible apply calm_foldl)

theorem State.outerBytes_calm (s : State) (k : Nat) (bs : List Byte) (h_s : s.Calm G) :
    (State.outerBytes s k bs).Calm G := by
  unfold State.outerBytes
  try dsimp only
  repeat' (first
    | with_reducible assumption | with_reducible apply State.outerWrite_calm)

theorem State.outerNum_calm (s : State) (k n x : Nat) (h_s : s.Calm G) :
    (State.outerNum s k n x).Calm G := by
  unfold State.outerNum
  try dsimp only
  repeat' (first
    | with_reducible assumption | with_reducible apply State.outerBytes_calm)

/-! ### Records -/

theorem State.vaStore_calm (s : State) (p : Partition) (va : Nat) (bs : List Byte) (h_s : s.Calm G) :
    (State.vaStore s p va bs).Calm G := by
  unfold State.vaStore
  try dsimp only
  repeat' (first
    | with_reducible assumption | with_reducible apply State.outerWrite_calm | split)

theorem State.ringPut_calm (s : State) (p : Partition) (r : Ring) (bs : List Byte) (h_s : s.Calm G) :
    (State.ringPut s p r bs).Calm G := by
  unfold State.ringPut
  try dsimp only
  repeat' (first
    | with_reducible assumption | with_reducible apply State.vaStore_calm | with_reducible apply calm_ite)

theorem State.ringClear_calm (s : State) (p : Partition) (addr : Nat) (h_s : s.Calm G) :
    (State.ringClear s p addr).Calm G := by
  unfold State.ringClear
  try dsimp only
  repeat' (first
    | with_reducible assumption | with_reducible apply State.vaStore_calm)

theorem State.irqPut_calm (s : State) (p : Partition) (kind value ticket : Nat) (h_s : s.Calm G) :
    (State.irqPut s p kind value ticket).Calm G := by
  unfold State.irqPut
  try dsimp only
  repeat' (first
    | with_reducible assumption | with_reducible apply State.outerBytes_calm
    | with_reducible apply State.outerNum_calm)

theorem State.signalRecords_calm (s : State) (part : Nat) (h_s : s.Calm G) :
    (State.signalRecords s part).Calm G := by
  unfold State.signalRecords
  try dsimp only
  repeat' (first
    | with_reducible assumption | (intro p; first | exact ⟨rfl, rfl⟩ | (dsimp only; split <;> exact ⟨rfl, rfl⟩))
    | with_reducible apply State.irqPut_calm | with_reducible apply State.modPart_calm
    | with_reducible apply State.outerNum_calm | with_reducible apply calm_ite | split)

theorem State.countRecord_calm (s : State) (part : Nat) (h_s : s.Calm G) :
    (State.countRecord s part).Calm G := by
  unfold State.countRecord
  try dsimp only
  repeat' (first
    | with_reducible assumption | (intro p; first | exact ⟨rfl, rfl⟩ | (dsimp only; split <;> exact ⟨rfl, rfl⟩))
    | with_reducible apply State.modPart_calm | with_reducible apply State.signalRecords_calm
    | with_reducible apply calm_ite | split)

theorem State.notifyLaunch_calm (s : State) (part kind ticket : Nat) (h_s : s.Calm G) :
    (State.notifyLaunch s part kind ticket).Calm G := by
  unfold State.notifyLaunch
  try dsimp only
  repeat' (first
    | with_reducible assumption | (intro p; first | exact ⟨rfl, rfl⟩ | (dsimp only; split <;> exact ⟨rfl, rfl⟩))
    | with_reducible apply State.irqPut_calm | with_reducible apply State.modPart_calm
    | with_reducible apply calm_ite | split)

theorem State.emitAccess_calm (s : State) (die part key kind : Nat) (h_s : s.Calm G) :
    (State.emitAccess s die part key kind).Calm G := by
  unfold State.emitAccess
  try dsimp only
  repeat' (first
    | with_reducible assumption | with_reducible apply State.modDie_calm | with_reducible apply State.ringPut_calm)

theorem State.evictAccess_calm (s : State) (die but : Nat) (h_s : s.Calm G) :
    (State.evictAccess s die but).Calm G := by
  unfold State.evictAccess
  try dsimp only
  repeat' (first
    | with_reducible assumption | with_reducible apply State.emitAccess_calm | with_reducible apply calm_ite | split)

theorem State.countAccess_calm (s : State) (die : Nat) (p : Partition) (va kind : Nat) (h_s : s.Calm G) :
    (State.countAccess s die p va kind).Calm G := by
  unfold State.countAccess
  try dsimp only
  repeat' (first
    | with_reducible assumption | with_reducible apply State.emitAccess_calm
    | with_reducible apply State.evictAccess_calm | with_reducible apply State.modDie_calm
    | with_reducible apply calm_ite)

theorem State.snapTrigger_calm (s : State) (h_s : s.Calm G) :
    (State.snapTrigger s).Calm G := by
  unfold State.snapTrigger
  try dsimp only
  repeat' (first
    | with_reducible assumption | simp only [calm_mk] | with_reducible apply calmOf_of | with_reducible apply calm_ite)

theorem State.record_calm (s : State) (r : ErrorRecord) (h_s : s.Calm G) :
    (State.record s r).Calm G := by
  unfold State.record
  try dsimp only
  repeat' (first
    | with_reducible assumption | (with_reducible refine calmOf_halts _ (fun x => by split <;> rfl) ?_)
    | (intro p; first | exact ⟨rfl, rfl⟩ | (dsimp only; split <;> exact ⟨rfl, rfl⟩))
    | with_reducible apply State.countRecord_calm | with_reducible apply State.modPart_calm
    | with_reducible apply State.ringPut_calm | with_reducible apply State.snapTrigger_calm | simp only [calm_mk]
    | with_reducible apply calm_ite | split)

/-! ### Links -/

theorem State.setBraid_calm (s : State) (b : BraidCount) (h_s : s.Calm G) :
    (State.setBraid s b).Calm G := by
  unfold State.setBraid
  try dsimp only
  repeat' (first
    | with_reducible assumption | simp only [calm_mk] | with_reducible apply calmOf_of)

theorem State.send_calm (s : State) (x : SentPacket) (h_s : s.Calm G) :
    (State.send s x).1.Calm G := by
  unfold State.send
  try dsimp only
  repeat' (first
    | with_reducible assumption | with_reducible apply State.bump_calm | with_reducible apply State.setBraid_calm
    | simp only [calm_mk] | with_reducible apply calmOf_of)

theorem State.dropFar_calm (s : State) (die part line : Nat) (h_s : s.Calm G) :
    (State.dropFar s die part line).Calm G := by
  unfold State.dropFar
  try dsimp only
  repeat' (first
    | with_reducible assumption | simp only [calm_mk] | with_reducible apply calmOf_of)

theorem State.sendWrite_calm (s : State) (die : Nat) (x : SentPacket) (h_s : s.Calm G) :
    (State.sendWrite s die x).1.Calm G := by
  unfold State.sendWrite
  try dsimp only
  repeat' (first
    | with_reducible assumption | with_reducible apply State.dropFar_calm | with_reducible apply State.send_calm)

/-! ### What follows for a group -/

/-- A group after operations that leave groups alone. -/
theorem calm_group? {s t : State} (h : t.Calm s.placed) (k : Nat) {g : Group} (hg : s.group? k = some g) :
    ∃ h, t.group? k = some h ∧ h = { g with resv := h.resv, touched := h.touched, victims := h.victims } := by
  replace h : t.groups.map Group.bare = s.groups.map Group.bare := congrArg (·.1) h
  unfold State.group? at *
  revert h
  generalize t.groups = lt
  generalize s.groups = ls at hg
  intro h
  induction ls generalizing lt with
  | nil => simp at hg
  | cons a as ih =>
    cases lt with
    | nil => simp at h
    | cons b bs =>
      simp only [List.map_cons, List.cons.injEq] at h
      have hb : b = { a with resv := b.resv, touched := b.touched, victims := b.victims } := by
        have := h.1; unfold Group.bare at this; cases a; cases b; simp_all
      simp only [List.find?_cons] at hg ⊢
      have hid : b.gid = a.gid := by rw [hb]
      rw [hid]
      split at hg
      · next e => cases hg; exact ⟨b, rfl, hb⟩
      · exact ih _ hg h.2

theorem calm_wgs {s t : State} (h : t.Calm s.placed) : t.wgs = s.wgs := congrArg (·.2.1) h
/-- The replays of a state after them. -/

theorem calm_replayOf {s t : State} (h : t.Calm s.placed) (n : Nat) : t.replayOf n = s.replayOf n := by
  have key : ∀ l : List Partition, (l.find? (fun p => p.num == n)).bind (·.replay) =
      ((l.map (fun p => (p.num, p.replay))).find? (fun x => x.1 == n)).bind (·.2) := by
    intro l
    induction l with
    | nil => rfl
    | cons a t ih => simp only [List.find?_cons, List.map_cons]; cases a.num == n <;> simp [ih]
  unfold State.replayOf State.part?
  rw [key, key, show t.parts.map (fun p => (p.num, p.replay)) = s.parts.map (fun p => (p.num, p.replay)) from congrArg (·.2.2.2.1) h]

theorem calm_halts {s t : State} (h : t.Calm s.placed) : t.halts.map (·.wgs) = s.halts.map (·.wgs) := congrArg (·.2.2.1) h

theorem calm_agenda {s t : State} (h : t.Calm s.placed) : t.agenda = s.agenda := congrArg (·.2.2.2.2) h

end Sys2Proof.Machine
end

