-- ==== Sys2Proof/Laws/Reads.lean ====
section
/-!
SUPPORT. Reading: what fetching words into an L1, translating and asking a directory leave of memory and of what the cores
see of it.
-/
namespace Sys2Proof.Machine

/-! ### Bytes of words -/

theorem nibbleMask_upto (m : BitVec 8) (n : Nat) (hn : n < 32) (k : Nat) (hk : k ≤ 8) :
    ((List.range k).foldl (fun (a : Word) i => if m.getLsbD i then a ||| (0xF#32 <<< (4 * i)) else a) 0).getLsbD n =
      (decide (n / 4 < k) && m.getLsbD (n / 4)) := by
  induction k with
  | zero => simp
  | succ k ih =>
    have hF : (0xF#32 <<< (4 * k)).getLsbD n = decide (n / 4 = k) := by
      have : ∀ j, (0xF#32).getLsbD j = decide (j < 4) := by
        intro j
        by_cases hj : j < 32
        · have : ∀ j : Fin 32, (0xF#32).getLsbD j = decide (j.val < 4) := by decide
          exact this ⟨j, hj⟩
        · rw [BitVec.getLsbD_of_ge _ _ (by omega)]; simp; omega
      rw [BitVec.getLsbD_shiftLeft, this]
      simp only [hn, decide_true, Bool.true_and]
      by_cases h : n < 4 * k <;> simp [h] <;> omega
    rw [List.range_succ, List.foldl_append]
    simp only [List.foldl_cons, List.foldl_nil]
    have ih := ih (by omega)
    by_cases hm : m.getLsbD k = true
    · rw [if_pos hm, BitVec.getLsbD_or, ih, hF]
      by_cases he : n / 4 = k
      · simp [he, hm]
      · have : decide (n / 4 < k + 1) = decide (n / 4 < k) := by simp; omega
        rw [this]; simp [he]
    · rw [if_neg hm, ih]
      by_cases he : n / 4 = k
      · simp [he, hm]
      · have : decide (n / 4 < k + 1) = decide (n / 4 < k) := by simp; omega
        rw [this]

theorem nibbleMask_bits (m : BitVec 8) (n : Fin 32) :
    ((List.range 8).foldl (fun (a : Word) i => if m.getLsbD i then a ||| (0xF#32 <<< (4 * i)) else a) 0).getLsbD n =
      m.getLsbD (n / 4) := by
  rw [nibbleMask_upto m n n.2 8 (Nat.le_refl _)]
  simp; omega

/-- A bit of a word with nibbles taken from another. -/
theorem mergeNibbles_bit (old new : Word) (m : BitVec 8) (n : Nat) (hn : n < 32) :
    (mergeNibbles old new m).getLsbD n = if m.getLsbD (n / 4) then new.getLsbD n else old.getLsbD n := by
  have hb := nibbleMask_bits m ⟨n, hn⟩
  unfold mergeNibbles
  simp only [BitVec.getLsbD_or, BitVec.getLsbD_and, BitVec.getLsbD_not, hn, decide_true, Bool.true_and]
  simp only at hb
  rw [hb]
  cases m.getLsbD (n / 4) <;> simp

theorem nibMask_bit : ∀ (b : BitVec 4) (n : Fin 8), (nibMask b).getLsbD n = b.getLsbD (n / 2) := by decide

/-- A byte of what a word of an L1 gives: its own where it has it whole, the slices' where it has nothing of it. -/
theorem over_byte (w : L1Word) (slice : Word) (i : Nat) (hi : i < 4) :
    (w.have_.getLsbD i = true → (w.over slice).extractLsb' (8 * i) 8 = w.data.extractLsb' (8 * i) 8) ∧
    (w.have_.getLsbD i = false → w.nibs.getLsbD (2 * i) = false → w.nibs.getLsbD (2 * i + 1) = false →
      (w.over slice).extractLsb' (8 * i) 8 = slice.extractLsb' (8 * i) 8) := by
  have hn : ∀ j, j < 8 → (nibMask w.have_ ||| w.nibs).getLsbD ((8 * i + j) / 4) =
      (w.have_.getLsbD i || w.nibs.getLsbD ((8 * i + j) / 4)) := by
    intro j hj
    have := nibMask_bit w.have_ ⟨(8 * i + j) / 4, by omega⟩
    simp only at this
    rw [BitVec.getLsbD_or, this, show (8 * i + j) / 4 / 2 = i by omega]
  constructor
  · intro h
    apply BitVec.eq_of_getLsbD_eq
    intro j hj
    simp only [BitVec.getLsbD_extractLsb', hj, decide_true, Bool.true_and, L1Word.over]
    rw [mergeNibbles_bit _ _ _ _ (by omega), hn j hj, h]; simp
  · intro h h0 h1
    apply BitVec.eq_of_getLsbD_eq
    intro j hj
    simp only [BitVec.getLsbD_extractLsb', hj, decide_true, Bool.true_and, L1Word.over]
    rw [mergeNibbles_bit _ _ _ _ (by omega), hn j hj, h]
    rcases (by omega : (8 * i + j) / 4 = 2 * i ∨ (8 * i + j) / 4 = 2 * i + 1) with e | e <;> simp [e, h0, h1]

/-- A word of which an L1 holds every byte gives its own. -/
theorem over_whole (w : L1Word) (slice : Word) (h : w.have_ = 15) : w.over slice = w.data := by
  apply BitVec.eq_of_getLsbD_eq
  intro n hn
  have := nibMask_bit w.have_ ⟨n / 4, by omega⟩
  simp only at this
  unfold L1Word.over
  rw [mergeNibbles_bit _ _ _ _ hn, BitVec.getLsbD_or, this, h]
  have h15 : ∀ k : Fin 4, BitVec.getLsbD (15 : BitVec 4) k = true := by decide
  have h15 := h15 ⟨n / 4 / 2, by omega⟩
  simp only at h15
  rw [h15]; simp

theorem natOfBytes_cons (b : Byte) (l : List Byte) : natOfBytes (b :: l) = natOfBytes l * 256 + b.toNat := rfl

/-- A byte of a number made of bytes. -/
theorem natOfBytes_byte (l : List Byte) (i : Nat) : BitVec.ofNat 8 (natOfBytes l / 2 ^ (8 * i)) = l.getD i 0 := by
  induction l generalizing i with
  | nil => simp [natOfBytes]
  | cons b t ih =>
    rw [natOfBytes_cons]
    cases i with
    | zero => apply BitVec.eq_of_toNat_eq; simp; omega
    | succ k =>
      have : (natOfBytes t * 256 + b.toNat) / 2 ^ (8 * (k + 1)) = natOfBytes t / 2 ^ (8 * k) := by
        rw [show 8 * (k + 1) = 8 + 8 * k by omega, Nat.pow_add, ← Nat.div_div_eq_div_mul]
        have : (natOfBytes t * 256 + b.toNat) / 2 ^ 8 = natOfBytes t := by have := b.isLt; omega
        rw [this]
      rw [this, ih]; rfl

theorem getD_bytes (s : State) (k n i : Nat) (h : i < n) : (s.bytes k n).getD i 0 = s.byte (k + i) := by
  simp [State.bytes, List.getD, h]

/-- A byte of a word as the slices hold it. -/
theorem sliceWord_byte (s : State) (k i : Nat) (hi : i < 4) : (s.sliceWord k).extractLsb' (8 * i) 8 = s.byte (4 * k + i) := by
  rw [← getD_bytes s (4 * k) 4 i hi, ← natOfBytes_byte]
  apply BitVec.eq_of_toNat_eq
  simp only [State.sliceWord, State.num, BitVec.extractLsb'_toNat, BitVec.toNat_ofNat, Nat.shiftRight_eq_div_pow]
  rcases (by omega : i = 0 ∨ i = 1 ∨ i = 2 ∨ i = 3) with h | h | h | h <;> subst h <;> omega

/-! ### Words of an L1 -/

theorem find?_insertBy {α : Type} (key : α → Nat) (x : α) (p : α → Bool) (l : List α) (h : ∀ y ∈ l, p y = true → key y ≠ key x → p x = false)
    (hl : ∀ y ∈ l, key y ≠ key x) : (insertBy key x l).find? p = if p x then some x else l.find? p := by
  induction l with
  | nil => simp [insertBy, List.find?_cons]; cases p x <;> simp
  | cons y t ih =>
    simp only [insertBy]
    split
    · simp only [List.find?_cons]; cases p x <;> simp
    · rw [List.find?_cons]
      cases e : p y with
      | true => simp [h y (by simp) e (hl y (by simp)), e]
      | false => simp [e, ih (fun z hz => h z (by simp [hz])) (fun z hz => hl z (by simp [hz]))]

theorem Core.word?_putWord (c : Core) (w : L1Word) (k : Nat) : (c.putWord w).word? k = if k = w.key then some w else c.word? k := by
  unfold Core.word? Core.putWord
  rw [find?_insertBy]
  · by_cases h : k = w.key
    · simp [h]
    · simp only [beq_iff_eq, Ne.symm h, h, if_false, List.find?_filter]
      congr 1; funext x
      by_cases hx : x.key = k <;> simp [hx, h]
  · intro y _ hp hne; simp only [beq_iff_eq] at hp; simpa [← hp] using Ne.symm hne
  · intro y hy; simpa using (List.mem_filter.1 hy).2

theorem Core.word?_dropWord (c : Core) (k j : Nat) : (c.dropWord k).word? j = if j = k then none else c.word? j := by
  unfold Core.word? Core.dropWord
  by_cases h : j = k
  · simp [h]
  · simp only [h, if_false, List.find?_filter]
    congr 1; funext x
    by_cases hx : x.key = j <;> simp [hx, h]

theorem State.core_modCore (s : State) (c k : Nat) (f : Core → Core) :
    (s.modCore c f).core k = if k = c then f (s.core c) else s.core k := by
  simp [State.core, State.modCore, assocGet_set]

theorem State.sliceWord_of {s t : State} {k : Nat} (hm : t.mem = s.mem) : t.sliceWord k = s.sliceWord k := by
  unfold State.sliceWord State.num State.bytes State.byte; rw [hm]

theorem State.byte_of {s t : State} (hm : t.mem = s.mem) (k : Nat) : t.byte k = s.byte k := by unfold State.byte; rw [hm]

/-- What a core sees of an address, from the words of its L1. -/
theorem State.seeByte_of {s t : State} {k pa : Nat} (hm : t.mem = s.mem) (hc : (t.core k).word? (pa / 4) = (s.core k).word? (pa / 4)) :
    t.seeByte k pa = s.seeByte k pa := by
  unfold State.seeByte State.byte; rw [hc, State.sliceWord_of hm, hm]

/-- What a core sees, from the words that its L1 gives. -/
theorem State.seeByte_word {s t : State} (hm : t.mem = s.mem) (k pa : Nat) :
    t.seeByte k pa = ((((t.core k).word? (pa / 4)).map (fun w => w.over (s.sliceWord (pa / 4)))).map
      (fun d => d.extractLsb' (8 * (pa % 4)) 8)).getD (s.byte pa) := by
  unfold State.seeByte
  rw [State.sliceWord_of hm, State.byte_of hm]
  cases (t.core k).word? (pa / 4) <;> rfl

theorem State.seeByte_over {s t : State} {k pa : Nat} (hm : t.mem = s.mem)
    (h : ((t.core k).word? (pa / 4)).map (fun w => w.over (s.sliceWord (pa / 4))) =
      ((s.core k).word? (pa / 4)).map (fun w => w.over (s.sliceWord (pa / 4)))) : t.seeByte k pa = s.seeByte k pa := by
  rw [State.seeByte_word hm, State.seeByte_word (s := s) rfl, h]

/-! ### The same memory, seen the same -/

/-- Memory stands, and every core sees what it saw. -/
structure State.SameView (s t : State) : Prop where
  mem : t.mem = s.mem
  tags : t.tags = s.tags
  poison : t.poison = s.poison
  sees : ∀ k pa, t.seeByte k pa = s.seeByte k pa

theorem State.SameView.refl (s : State) : s.SameView s := ⟨rfl, rfl, rfl, fun _ _ => rfl⟩

theorem State.SameView.trans {s t u : State} (h : s.SameView t) (h' : t.SameView u) : s.SameView u :=
  ⟨h'.mem.trans h.mem, h'.tags.trans h.tags, h'.poison.trans h.poison, fun k pa => (h'.sees k pa).trans (h.sees k pa)⟩

/-- A change of neither memory nor the L1s. -/
theorem sameView_of {s t : State} (hm : t.mem = s.mem) (ht : t.tags = s.tags) (hp : t.poison = s.poison)
    (hc : ∀ k, (t.core k).l1 = (s.core k).l1) : s.SameView t :=
  ⟨hm, ht, hp, fun k pa => State.seeByte_of hm (by unfold Core.word?; rw [hc k])⟩

theorem sameView_modCore {s : State} (c : Nat) (f : Core → Core) (hf : ∀ x, (f x).l1 = x.l1) : s.SameView (s.modCore c f) :=
  sameView_of rfl rfl rfl (fun k => by rw [State.core_modCore]; split <;> simp_all)

theorem sameView_foldl {α : Type} {f : State → α → State} (hf : ∀ (s : State) (a : α), s.SameView (f s a)) (l : List α) (s : State) :
    s.SameView (l.foldl f s) := by
  induction l generalizing s with
  | nil => exact .refl s
  | cons a t ih => exact (hf s a).trans (ih _)

theorem install_sameView (s : State) (core : Nat) (p : Partition) (va : Nat) : s.SameView (s.install core p va) := by
  unfold State.install
  split
  · have h := fun (f : Core → Core) hf => sameView_modCore (s := s) core f hf
    have hp : ∀ (u : State) f, u.SameView (u.modPart p.num f) := fun u f => sameView_of rfl rfl rfl (fun _ => rfl)
    dsimp only
    split
    · refine State.SameView.trans ?_ (hp _ _)
      exact h _ (fun _ => rfl)
    · exact h _ (fun _ => rfl)
  · exact .refl s

theorem touch_sameView (s : State) (core : Nat) (p : Partition) (va : Nat) : s.SameView (s.touch core p va) := by
  unfold State.touch; split
  · exact .refl s
  · exact install_sameView ..

theorem touches_sameView (s : State) (core : Nat) (p : Partition) (vas : List Nat) : s.SameView (s.touches core p vas) :=
  sameView_foldl (fun _ _ => touch_sameView ..) _ _

theorem modDie_sameView (s : State) (d : Nat) (f : Die → Die) : s.SameView (s.modDie d f) := sameView_of rfl rfl rfl (fun _ => rfl)

theorem count_sameView (s : State) (die part : Nat) (f : CohCounters → CohCounters) : s.SameView (s.count die part f) :=
  modDie_sameView ..

theorem find?_filterMap_word (p : L1Word → Bool) (f : L1Word → Option L1Word) (l : List L1Word) (k : Nat)
    (hf : ∀ w, (f w).map (·.key) = some w.key) (h : p = fun w => w.key == k) :
    (l.filterMap f).find? p = (l.find? p).bind f := by
  subst h
  induction l with
  | nil => rfl
  | cons a t ih =>
    have := hf a
    cases e : f a with
    | none => simp [e] at this
    | some b =>
      simp only [e, Option.map_some, Option.some.injEq] at this
      simp only [List.filterMap_cons, e, List.find?_cons, this]
      cases a.key == k <;> simp [ih, e]

theorem assocGet_map {α : Type} (d : α) (f : Nat → α → α) (hd : ∀ k, f k d = d) (k : Nat) (l : Assoc α) :
    assocGet d k (l.map (fun kv => (kv.1, f kv.1 kv.2))) = f k (assocGet d k l) := by
  induction l with
  | nil => simp [assocGet, hd]
  | cons a t ih => simp only [List.map_cons, assocGet]; split <;> simp_all

/-- 20 R381: a recall for sharing leaves every byte as it is seen. -/
theorem recallLines_sameView (s : State) (holder lo n : Nat) (home : Bool) : s.SameView (s.recallLines holder lo n true home) := by
  unfold State.recallLines
  split
  · exact .refl s
  · dsimp only
    refine ⟨rfl, rfl, rfl, fun k pa => State.seeByte_over rfl ?_⟩
    simp only [if_true, State.core, State.cancelSlice]
    let inRun := fun (w : L1Word) => decide (lo ≤ w.key / 32) && decide (w.key / 32 < lo + n)
    let fw : L1Word → Option L1Word := fun w => if inRun w && w.st == .registered then some { w with st := .valid, dirty := 0 } else some w
    let f : Nat → Core → Core := fun k c => if coreDie k == holder && c.l1.any inRun then { c with l1 := c.l1.filterMap fw } else c
    have e : (s.cores.map fun x => match x with
        | (k, c) => if (coreDie k == holder && c.l1.any inRun) = true then (k, { c with l1 := c.l1.filterMap fw }) else (k, c)) =
        s.cores.map (fun kv => (kv.1, f kv.1 kv.2)) := by
      refine List.map_congr_left (fun a _ => ?_)
      dsimp only [f]; split <;> rfl
    have hg := assocGet_map Core.reset f (fun k => by simp [f, Core.reset]) k s.cores
    rw [show assocGet Core.reset k _ = f k (assocGet Core.reset k s.cores) from (congrArg _ e).trans hg]
    have hw : (f k (assocGet Core.reset k s.cores)).word? (pa / 4) = ((assocGet Core.reset k s.cores).word? (pa / 4)) ∨
        (f k (assocGet Core.reset k s.cores)).word? (pa / 4) = ((assocGet Core.reset k s.cores).word? (pa / 4)).bind fw := by
      simp only [f]
      split
      · right
        exact find?_filterMap_word _ fw _ _ (fun w => by simp only [fw]; split <;> rfl) rfl
      · exact .inl rfl
    rcases hw with hw | hw <;> rw [hw]
    cases (assocGet Core.reset k s.cores).word? (pa / 4) with
    | none => rfl
    | some w =>
      simp only [Option.bind_some, fw]
      by_cases hb : (inRun w && w.st == L1State.registered) = true <;> simp [hb, L1Word.over]

theorem recallNode_sameView (s : State) (homeD holder : Nat) (n : Node) : s.SameView (s.recallNode homeD holder n true) := by
  unfold State.recallNode
  dsimp only
  split
  · exact ((recallLines_sameView ..).trans (count_sameView ..)).trans (count_sameView ..)
  · exact (recallLines_sameView ..).trans (count_sameView ..)

theorem splitNode_sameView (s : State) (homeD : Nat) (n : Node) (line : Nat) : s.SameView (s.splitNode homeD n line).1 := by
  unfold State.splitNode
  dsimp only
  refine State.SameView.trans ?_ (count_sameView ..)
  exact modDie_sameView ..

theorem dirRequest_sameView (s : State) (h line : Nat) : s.SameView (s.dirRequest h false line) := by
  unfold State.dirRequest
  dsimp only
  generalize ((s.die (homeDie (line * 128))).node? line).getD ((s.die (homeDie (line * 128))).freshNode line) = n0
  generalize hsn : (if (n0.st != NodeState.u && n0.hold != holderBit h && (s.die (homeDie (line * 128))).splitEn &&
    decide (n0.size > 0)) = true then s.splitNode (homeDie (line * 128)) n0 line else (s, n0)) = sn
  have hs : s.SameView sn.1 := by
    rw [← hsn]; split
    · exact splitNode_sameView ..
    · exact .refl s
  refine hs.trans ?_
  have put : ∀ (u : State) (p : Prop) [Decidable p] (f g : Die → Die), u.SameView (if p then u.modDie (homeDie (line * 128)) f else u.modDie (homeDie (line * 128)) g) := by
    intro u p _ f g; split <;> exact modDie_sameView ..
  split
  · exact put ..
  · rename_i h2; cases h2
  · exact put ..
  · rename_i h2; cases h2
  · split
    · exact .refl _
    · exact (sameView_foldl (fun _ _ => recallNode_sameView ..) _ _).trans (put ..)
  · rename_i h2; cases h2

theorem share_sameView (s : State) (die line : Nat) : s.SameView (s.share_ die line) := by
  unfold State.share_; split
  · exact .refl s
  · exact dirRequest_sameView ..

theorem noteForward_sameView (s : State) (core part k : Nat) : s.SameView (s.noteForward core part k) := by
  unfold State.noteForward; split
  · exact .refl s
  · exact count_sameView ..

/-! ### What is filled -/

/-- Memory stands, and every core sees what it saw, or what the slices hold. -/
structure State.Refreshed (s t : State) : Prop where
  mem : t.mem = s.mem
  tags : t.tags = s.tags
  poison : t.poison = s.poison
  sees : ∀ k pa, t.seeByte k pa = s.seeByte k pa ∨ t.seeByte k pa = s.byte pa

theorem State.SameView.refreshed {s t : State} (h : s.SameView t) : s.Refreshed t :=
  ⟨h.mem, h.tags, h.poison, fun k pa => .inl (h.sees k pa)⟩

theorem State.Refreshed.trans {s t u : State} (h : s.Refreshed t) (h' : t.Refreshed u) : s.Refreshed u :=
  ⟨h'.mem.trans h.mem, h'.tags.trans h.tags, h'.poison.trans h.poison, fun k pa =>
    match h'.sees k pa with
    | .inl e => by rw [e]; exact h.sees k pa
    | .inr e => .inr (e.trans (State.byte_of h.mem pa))⟩

theorem refreshed_foldl {α : Type} {f : State → α → State} (hf : ∀ (s : State) (a : α), s.Refreshed (f s a)) (l : List α) (s : State) :
    s.Refreshed (l.foldl f s) := by
  induction l generalizing s with
  | nil => exact (State.SameView.refl s).refreshed
  | cons a t ih => exact (hf s a).trans (ih _)

/-- A core of which each word gives what it gave, or what the slices hold. -/
theorem refreshed_modCore {s : State} {core : Nat} {f : Core → Core}
    (h : ∀ k, (f (s.core core)).word? k = (s.core core).word? k ∨
      match (f (s.core core)).word? k with
      | none => True
      | some w => w.over (s.sliceWord k) = s.sliceWord k ∨
        ∃ x, (s.core core).word? k = some x ∧ w.over (s.sliceWord k) = x.over (s.sliceWord k)) :
    s.Refreshed (s.modCore core f) := by
  refine ⟨rfl, rfl, rfl, fun j pa => ?_⟩
  by_cases hj : j = core
  · subst hj
    have hc : (s.modCore j f).core j = f (s.core j) := by rw [State.core_modCore, if_pos rfl]
    rcases h (pa / 4) with h | h
    · exact .inl (State.seeByte_of rfl (by rw [hc]; exact h))
    · have hs : (s.modCore j f).seeByte j pa = match (f (s.core j)).word? (pa / 4) with
          | some w => (w.over (s.sliceWord (pa / 4))).extractLsb' (8 * (pa % 4)) 8
          | none => s.byte pa := by
        show (match ((s.modCore j f).core j).word? (pa / 4) with
          | some w => (w.over ((s.modCore j f).sliceWord (pa / 4))).extractLsb' (8 * (pa % 4)) 8
          | none => (s.modCore j f).byte pa) = _
        rw [hc]; rfl
      rw [hs]
      have hb : (s.sliceWord (pa / 4)).extractLsb' (8 * (pa % 4)) 8 = s.byte pa := by
        rw [sliceWord_byte _ _ _ (by omega)]; congr 1; omega
      cases e : (f (s.core j)).word? (pa / 4) with
      | none => exact .inr rfl
      | some w =>
        rw [e] at h
        rcases h with h | ⟨x, hx, h⟩
        · right; dsimp only; rw [h, hb]
        · left; dsimp only; rw [h]; unfold State.seeByte; rw [hx]
  · refine .inl (State.seeByte_of rfl ?_)
    rw [State.core_modCore, if_neg hj]

/-- A word as the slices hold it gives what they hold. -/
theorem over_freshWord (s : State) (part : Nat) (inv : Bool) (k : Nat) (slice : Word) :
    (s.freshWord part inv k).over slice = s.sliceWord k := over_whole _ _ rfl

theorem find?_filterMap_range (n : Nat) (key : Nat → Nat) (h : Nat → Option L1Word) (k : Nat) (hk : ∀ i w, h i = some w → w.key = key i)
    (hi : ∀ i j, key i = key j → i = j) :
    ((List.range n).filterMap h).find? (fun w => w.key == k) =
      ((List.range n).find? (fun i => key i == k)).bind h := by
  induction n with
  | zero => rfl
  | succ n ih =>
    rw [List.range_succ, List.filterMap_append, List.find?_append, ih, List.find?_append]
    cases e : (List.range n).find? (fun i => key i == k) with
    | some i =>
      have hik : key i = k := by have := List.find?_some e; simpa using this
      simp only [Option.bind_some, Option.some_or]
      cases e2 : h i with
      | some w => rfl
      | none =>
        simp only [Option.none_or]
        cases e3 : h n with
        | none => simp [e3]
        | some w =>
          have hlt : i < n := by have := List.mem_of_find?_eq_some e; simpa using this
          have : key n ≠ k := fun e => by have := hi i n (hik.trans e.symm); omega
          simp [e3, hk n w e3, this]
    | none =>
      simp only [Option.bind_none, Option.none_or]
      cases e3 : h n with
      | none => cases e4 : ([n].find? (fun i => key i == k)) with
        | none => simp [e3]
        | some i => have : i = n := by have := List.mem_of_find?_eq_some e4; simpa using this
                    subst this; simp [e3]
      | some w =>
        by_cases hn : key n = k <;> simp [e3, hk n w e3, hn]

/-- A word of an L1 with a line filled: as it was, or brought in. -/
theorem Core.word?_fillLine (c : Core) (line : Nat) (fresh : Nat → Option L1Word) (hf : ∀ k w, fresh k = some w → w.key = k) (k : Nat) :
    (c.fillLine line fresh).word? k = c.word? k ∨
      (k / 32 = line ∧ ((c.fillLine line fresh).word? k = fresh k)) := by
  have hmem : ∀ p : L1Word → Bool, (∀ w : L1Word, w.key = k → p w = true) → (c.l1.filter p).find? (fun w => w.key == k) = c.word? k := by
    intro p hp
    rw [List.find?_filter]
    unfold Core.word?
    congr 1; funext w
    by_cases h : w.key = k
    · simp [h, hp w h]
    · simp [h]
  have hno : ∀ p : L1Word → Bool, (∀ w : L1Word, w.key = k → p w = false) → (c.l1.filter p).find? (fun w => w.key == k) = none := by
    intro p hp
    rw [List.find?_eq_none]
    intro w hw
    simp only [beq_iff_eq]
    intro h
    have := (List.mem_filter.1 hw).2
    rw [hp w h] at this; cases this
  unfold Core.fillLine
  dsimp only
  unfold Core.word?
  dsimp only
  rw [List.find?_append, List.find?_append]
  rw [find?_filterMap_range 32 (fun i => line * 32 + i) _ k ?_ ?_]
  · by_cases hl : k / 32 = line
    · rw [hno (fun w => decide (w.key / 32 < line)) (fun w h => by simp [h]; omega),
        hno (fun w => decide (line < w.key / 32)) (fun w h => by simp [h]; omega)]
      have hr : (List.range 32).find? (fun i => line * 32 + i == k) = some (k % 32) := by
        have : ∀ m, m ≤ 32 → k % 32 < m → (List.range m).find? (fun i => line * 32 + i == k) = some (k % 32) := by
          intro m
          induction m with
          | zero => intro _ h; omega
          | succ m ih =>
            intro hm h
            rw [List.range_succ, List.find?_append]
            by_cases h' : k % 32 < m
            · rw [ih (by omega) h']; rfl
            · have e : m = k % 32 := by omega
              have hn : (List.range m).find? (fun i => line * 32 + i == k) = none := by
                rw [List.find?_eq_none]; intro i hi; simp at hi ⊢; omega
              rw [hn]; simp [show line * 32 + m = k by omega, e]; omega
        exact this 32 (Nat.le_refl _) (by omega)
      rw [hr]
      simp only [Option.none_or, Option.bind_some, Option.or_none]
      rw [show line * 32 + k % 32 = k by omega]
      cases e : c.l1.find? (fun w => w.key == k) with
      | none => simp [hl]
      | some w =>
        dsimp only
        split
        · cases e2 : fresh k with
          | none => simp
          | some x => right; exact ⟨hl, rfl⟩
        · left; rfl
    · have hr : (List.range 32).find? (fun i => line * 32 + i == k) = none := by
        rw [List.find?_eq_none]; intro i hi; simp at hi ⊢; omega
      rw [hr]
      simp only [Option.bind_none, Option.or_none]
      left
      by_cases h : k / 32 < line
      · rw [hmem (fun w => decide (w.key / 32 < line)) (fun w e => by simp [e]; omega),
          hno (fun w => decide (line < w.key / 32)) (fun w e => by simp [e]; omega)]
        simp [Core.word?]
      · rw [hno (fun w => decide (w.key / 32 < line)) (fun w e => by simp [e]; omega),
          hmem (fun w => decide (line < w.key / 32)) (fun w e => by simp [e]; omega)]
        simp [Core.word?]
  · intro i w e
    split at e
    · rename_i x hx
      have hxk : x.key = line * 32 + i := by have := List.find?_some hx; simpa using this
      split at e
      · cases e2 : fresh (line * 32 + i) with
        | none => rw [e2] at e; cases e; exact hxk
        | some y => rw [e2] at e; cases e; exact hf _ _ e2
      · cases e; exact hxk
    · exact hf _ _ e
  · intro i j h; omega

theorem noteForwards_sameView (s : State) (core part : Nat) (ks : List Nat) : s.SameView (ks.foldl (fun s k => s.noteForward core part k) s) :=
  sameView_foldl (fun _ _ => noteForward_sameView ..) _ _

/-- 20 R366, R369, R373: filling a line leaves memory, and each core sees what it saw or what the slices hold. -/
theorem fillFrom_refreshed (s : State) (core part : Nat) (inv : Bool) (line : Nat) : s.Refreshed (s.fillFrom core part inv line) := by
  unfold State.fillFrom
  dsimp only
  generalize hks : List.filter _ (List.map _ _) = ks
  have h1 := (share_sameView s (coreDie core) line).trans (noteForwards_sameView (s.share_ (coreDie core) line) core part ks)
  refine h1.refreshed.trans ?_
  generalize List.foldl _ _ ks = u
  refine refreshed_modCore (fun k => ?_)
  have hf : ∀ k w, (if u.poisonAt (4 * k) = true then none else some (u.freshWord part inv k)) = some w → w.key = k := by
    intro k w e; split at e
    · cases e
    · cases e; rfl
  rcases Core.word?_fillLine (u.core core) line (fun k => if u.poisonAt (4 * k) = true then none else some (u.freshWord part inv k)) hf k with h | ⟨-, h⟩
  · exact .inl h
  · right
    rw [h]
    split
    · trivial
    · rename_i w e
      split at e
      · cases e
      · cases e; exact .inl (over_freshWord ..)

theorem putWord_refreshed {s : State} {core : Nat} {w : L1Word}
    (h : ∀ pa, pa / 4 = w.key → (w.over (s.sliceWord w.key)).extractLsb' (8 * (pa % 4)) 8 = s.seeByte core pa ∨
      (w.over (s.sliceWord w.key)).extractLsb' (8 * (pa % 4)) 8 = s.byte pa) :
    s.Refreshed (s.modCore core (fun c => c.putWord w)) := by
  refine ⟨rfl, rfl, rfl, fun j pa => ?_⟩
  by_cases hj : j = core ∧ pa / 4 = w.key
  · obtain ⟨rfl, hp⟩ := hj
    have e : (s.modCore j fun c => c.putWord w).seeByte j pa = (w.over (s.sliceWord w.key)).extractLsb' (8 * (pa % 4)) 8 := by
      rw [State.seeByte_word (s := s) (t := s.modCore j _) rfl, State.core_modCore, if_pos rfl, Core.word?_putWord, if_pos hp, hp]; rfl
    rw [e]; exact h pa hp
  · refine .inl (State.seeByte_of rfl ?_)
    rw [State.core_modCore]
    split
    · rename_i e
      rw [Core.word?_putWord, if_neg (fun e' => hj ⟨e, e'⟩), e]
    · rfl

theorem sliceWord_at (s : State) (pa : Nat) : (s.sliceWord (pa / 4)).extractLsb' (8 * (pa % 4)) 8 = s.byte pa := by
  rw [sliceWord_byte _ _ _ (by omega)]; congr 1; omega

theorem over_refilled (w : L1Word) (d slice : Word) : ({ w with data := d, have_ := 15 } : L1Word).over slice = d := over_whole _ _ rfl

/-- 20 R366, R369: an L1 in which there is room for the line fills a word: memory stands, and each core sees what it saw or what
the slices hold. -/
theorem fillWord_refreshed (s : State) (core part : Nat) (inv : Bool) (k : Nat) (hr : s.l1Room core (k / 32) = s) :
    s.Refreshed (s.fillWord core part inv k) := by
  unfold State.fillWord
  have h1 : s.SameView ((s.share_ (coreDie core) (k / 32)).noteForward core part k) :=
    (share_sameView s (coreDie core) (k / 32)).trans (noteForward_sameView _ core part k)
  split
  · rename_i w hw
    have hk : w.key = k := by have := List.find?_some hw; simpa using this
    split
    · refine h1.refreshed.trans (putWord_refreshed (fun pa hp => .inr ?_))
      rw [over_freshWord]
      have hp : pa / 4 = k := hp
      subst hp; exact sliceWord_at _ _
    · split
      · exact (State.SameView.refl s).refreshed
      · refine h1.refreshed.trans (putWord_refreshed (fun pa hp => .inl ?_))
        have hp : pa / 4 = k := hp.trans hk
        rw [over_refilled, h1.sees, State.sliceWord_of h1.mem, State.seeByte_word (s := s) rfl, hp, hw]; rfl
  · unfold State.fillMiss
    rw [hr]; exact fillFrom_refreshed ..

/-! ### Room in an L1 (01 R12) -/

theorem mem_uniq_aux (l acc : List Nat) (x : Nat) :
    x ∈ l.foldl (fun acc k => if acc.contains k then acc else acc ++ [k]) acc ↔ x ∈ acc ∨ x ∈ l := by
  induction l generalizing acc with
  | nil => simp
  | cons a t ih =>
    simp only [List.foldl_cons, ih, List.mem_cons]
    split
    · rename_i h; simp at h; constructor
      · rintro (h' | h')
        · exact .inl h'
        · exact .inr (.inr h')
      · rintro (h' | rfl | h')
        · exact .inl h'
        · exact .inl h
        · exact .inr h'
    · simp [or_assoc]

theorem mem_uniq {l : List Nat} {x : Nat} : x ∈ uniq l ↔ x ∈ l := by unfold uniq; rw [mem_uniq_aux]; simp

theorem nodup_uniq (l : List Nat) : (uniq l).Nodup := by
  have : ∀ (l acc : List Nat), acc.Nodup → (l.foldl (fun acc k => if acc.contains k then acc else acc ++ [k]) acc).Nodup := by
    intro l
    induction l with
    | nil => intro acc h; exact h
    | cons a t ih =>
      intro acc h
      simp only [List.foldl_cons]
      apply ih
      split
      · exact h
      · rename_i hc
        simp at hc
        rw [List.nodup_append]
        refine ⟨h, by simp, ?_⟩
        intro x hx y hy e
        simp at hy; subst hy; subst e; exact hc hx
  exact this l [] List.nodup_nil

/-- Every line of which an L1 holds words is one of a list that fits it. -/
structure Core.fits (c : Core) (S : List Nat) : Prop where
  size : S.length ≤ l1Lines
  held : ∀ w ∈ c.l1, w.key / 32 ∈ S

theorem Core.roomy_fits {c : Core} {ls : List Nat} (h : c.roomy ls) :
    c.fits (uniq (c.linesHeld ++ ls)) ∧ ∀ l ∈ ls, l ∈ uniq (c.linesHeld ++ ls) :=
  ⟨⟨h, fun w hw => mem_uniq.2 (List.mem_append.2 (.inl (mem_uniq.2 (List.mem_map.2 ⟨w, hw, rfl⟩))))⟩,
   fun _ hl => mem_uniq.2 (List.mem_append.2 (.inr hl))⟩

theorem nodup_length {l S : List Nat} (hn : l.Nodup) (hs : ∀ x ∈ l, x ∈ S) : l.length ≤ S.length := by
  induction l generalizing S with
  | nil => simp
  | cons a t ih =>
    obtain ⟨ha, ht⟩ := List.nodup_cons.1 hn
    have := ih (S := S.erase a) ht (fun x hx => (List.mem_erase_of_ne (fun e : x = a => ha (by rw [← e]; exact hx))).2 (hs x (by simp [hx])))
    have hp := List.length_pos_of_mem (hs a (by simp))
    rw [List.length_erase_of_mem (hs a (by simp))] at this
    simp only [List.length_cons]; omega

theorem l1Room_fits {s : State} {core line : Nat} {S : List Nat} (h : (s.core core).fits S) (hl : line ∈ S) :
    s.l1Room core line = s := by
  unfold State.l1Room State.roomFor
  dsimp only
  split
  · rfl
  · by_cases hc : (s.core core).linesHeld.contains line = true
    · rw [if_pos (by rw [hc]; simp)]; rfl
    · have hn : line ∉ (s.core core).linesHeld := by simpa using hc
      have hsub : ∀ x ∈ line :: (s.core core).linesHeld, x ∈ S := by
        intro x hx
        rcases List.mem_cons.1 hx with rfl | hx
        · exact hl
        · obtain ⟨w, hw, rfl⟩ := List.mem_map.1 (mem_uniq.1 hx)
          exact h.held w hw
      have hnd : (line :: (s.core core).linesHeld).Nodup := List.nodup_cons.2 ⟨hn, nodup_uniq _⟩
      have hlen := nodup_length hnd hsub
      have : (s.core core).linesHeld.length < l1Lines := by
        have := h.size; simp only [List.length_cons] at hlen; omega
      simp [this]

/-- No L1 holds a word under a key that it did not hold. -/
structure State.keepsKeys (s t : State) : Prop where
  old : ∀ k, ∀ w ∈ (t.core k).l1, ∃ x ∈ (s.core k).l1, x.key = w.key

theorem keepsKeys_of {s t : State} (h : ∀ k, (t.core k).l1 = (s.core k).l1) : s.keepsKeys t :=
  ⟨fun k w hw => ⟨w, by rw [← h k]; exact hw, rfl⟩⟩

theorem keepsKeys_trans {s t u : State} (h : s.keepsKeys t) (h' : t.keepsKeys u) : s.keepsKeys u := by
  constructor
  intro k w hw
  obtain ⟨x, hx, e⟩ := h'.old k w hw
  obtain ⟨y, hy, e'⟩ := h.old k x hx
  exact ⟨y, hy, e'.trans e⟩

theorem keepsKeys_foldl {α : Type} {f : State → α → State} (hf : ∀ (s : State) (a : α), s.keepsKeys (f s a)) (l : List α) (s : State) :
    s.keepsKeys (l.foldl f s) := by
  induction l generalizing s with
  | nil => exact keepsKeys_of (fun _ => rfl)
  | cons a t ih => exact keepsKeys_trans (hf s a) (ih _)

theorem dropLineResv_cores (s : State) (core : Nat) (ls : List Nat) : (s.dropLineResv core ls).cores = s.cores := by
  unfold State.dropLineResv; split <;> rfl

theorem recallLines_keepsKeys (s : State) (holder lo n : Nat) (sharing home : Bool) : s.keepsKeys (s.recallLines holder lo n sharing home) := by
  unfold State.recallLines
  split
  · exact keepsKeys_of (fun _ => rfl)
  · dsimp only
    generalize hu : (if sharing = true then s.cancelSlice holder lo n home else _) = u
    have hc : u.cores = s.cores := by
      rw [← hu]; split
      · rfl
      · have : ∀ (l : List (Nat × Core)) (v : State), v.cores = s.cores → (l.foldl (fun (s : State) (kc : Nat × Core) =>
          if (coreDie kc.1 == holder) = true then s.dropLineResv kc.1 (uniq ((kc.2.l1.filter (fun w =>
            (decide (lo ≤ w.key / 32) && decide (w.key / 32 < lo + n)) && w.st == .registered)).map (·.key / 32))) else s) v).cores = s.cores := by
          intro l
          induction l with
          | nil => intro v h; exact h
          | cons a t ih =>
            intro v h; simp only [List.foldl_cons]; apply ih; split
            · rw [dropLineResv_cores, h]
            · exact h
        exact this _ _ rfl
    constructor
    intro k w hw
    let inRun := fun (w : L1Word) => decide (lo ≤ w.key / 32) && decide (w.key / 32 < lo + n)
    let fw : L1Word → Option L1Word := fun w => if inRun w && w.st == .registered then
      (if sharing then some { w with st := .valid, dirty := 0 } else none) else some w
    let f : Nat → Core → Core := fun k c => if coreDie k == holder && c.l1.any inRun then { c with l1 := c.l1.filterMap fw } else c
    have hg := assocGet_map Core.reset f (fun k => by simp [f, Core.reset]) k u.cores
    have e : ({ u with cores := u.cores.map (fun (k, c) => if (coreDie k == holder && c.l1.any inRun) = true then
        (k, { c with l1 := c.l1.filterMap fw }) else (k, c)) } : State).core k = f k (s.core k) := by
      unfold State.core
      rw [← hc, ← hg]
      dsimp only
      congr 1
      refine List.map_congr_left (fun a _ => ?_)
      dsimp only [f]; split <;> rfl
    have hw' : w ∈ (f k (s.core k)).l1 := by rw [← e]; exact hw
    simp only [f] at hw'
    split at hw'
    · obtain ⟨x, hx, ex⟩ := List.mem_filterMap.1 hw'
      refine ⟨x, hx, ?_⟩
      simp only [fw] at ex
      split at ex
      · split at ex
        · cases ex; rfl
        · cases ex
      · cases ex; rfl
    · exact ⟨w, hw', rfl⟩

theorem recallNode_keepsKeys (s : State) (homeD holder : Nat) (n : Node) (sharing : Bool) : s.keepsKeys (s.recallNode homeD holder n sharing) := by
  unfold State.recallNode
  dsimp only
  have h := recallLines_keepsKeys s holder n.base (2 ^ n.size) sharing (holder == homeD)
  split
  · exact keepsKeys_trans (keepsKeys_trans h (keepsKeys_of (fun _ => rfl))) (keepsKeys_of (fun _ => rfl))
  · exact keepsKeys_trans h (keepsKeys_of (fun _ => rfl))

theorem dirRequest_keepsKeys (s : State) (h : Nat) (own : Bool) (line : Nat) : s.keepsKeys (s.dirRequest h own line) := by
  unfold State.dirRequest
  dsimp only
  generalize ((s.die (homeDie (line * 128))).node? line).getD ((s.die (homeDie (line * 128))).freshNode line) = n0
  generalize hsn : (if (n0.st != NodeState.u && n0.hold != holderBit h && (s.die (homeDie (line * 128))).splitEn &&
    decide (n0.size > 0)) = true then s.splitNode (homeDie (line * 128)) n0 line else (s, n0)) = sn
  have hs : s.keepsKeys sn.1 := by
    rw [← hsn]; split
    · exact keepsKeys_of (fun _ => rfl)
    · exact keepsKeys_of (fun _ => rfl)
  refine keepsKeys_trans hs ?_
  have put : ∀ (u : State) (p : Prop) [Decidable p] (f g : Die → Die), u.keepsKeys (if p then u.modDie (homeDie (line * 128)) f else u.modDie (homeDie (line * 128)) g) := by
    intro u p _ f g; split <;> exact keepsKeys_of (fun _ => rfl)
  have recalls : ∀ (l : List Nat) (b : Bool), sn.1.keepsKeys (l.foldl (fun s g => s.recallNode (homeDie (line * 128)) g sn.2 b) sn.1) :=
    fun l b => keepsKeys_foldl (fun _ _ => recallNode_keepsKeys ..) _ _
  split
  · exact put ..
  · exact put ..
  · exact put ..
  · exact put ..
  · split
    · exact keepsKeys_of (fun _ => rfl)
    · exact keepsKeys_trans (recalls _ _) (put ..)
  · split
    · exact keepsKeys_of (fun _ => rfl)
    · exact keepsKeys_trans (recalls _ _) (put ..)

theorem share_keepsKeys (s : State) (die line : Nat) : s.keepsKeys (s.share_ die line) := by
  unfold State.share_; split
  · exact keepsKeys_of (fun _ => rfl)
  · exact dirRequest_keepsKeys ..

theorem noteForward_keepsKeys (s : State) (core part k : Nat) : s.keepsKeys (s.noteForward core part k) := by
  unfold State.noteForward; split <;> exact keepsKeys_of (fun _ => rfl)

theorem fits_keepsKeys {s t : State} (h : s.keepsKeys t) {core : Nat} {S : List Nat} (hf : (s.core core).fits S) : (t.core core).fits S :=
  ⟨hf.size, fun w hw => by obtain ⟨x, hx, e⟩ := h.old core w hw; rw [← e]; exact hf.held x hx⟩

theorem mem_insertBy {α : Type} (key : α → Nat) (x y : α) (l : List α) : y ∈ insertBy key x l ↔ y = x ∨ y ∈ l := by
  induction l with
  | nil => simp [insertBy]
  | cons a t ih =>
    simp only [insertBy]
    split
    · simp
    · simp only [List.mem_cons, ih]; constructor
      · rintro (h | h | h) <;> simp [h]
      · rintro (h | h | h) <;> simp [h]

theorem fits_putWord {c : Core} {S : List Nat} (h : c.fits S) {w : L1Word} (hw : w.key / 32 ∈ S) : (c.putWord w).fits S := by
  refine ⟨h.size, fun y hy => ?_⟩
  rcases (mem_insertBy _ _ _ _).1 hy with rfl | hy
  · exact hw
  · exact h.held y (List.mem_filter.1 hy).1

theorem fits_fillLine {c : Core} {S : List Nat} (h : c.fits S) {line : Nat} (hl : line ∈ S) (fresh : Nat → Option L1Word)
    (hf : ∀ k w, fresh k = some w → w.key = k) : (c.fillLine line fresh).fits S := by
  refine ⟨h.size, fun y hy => ?_⟩
  unfold Core.fillLine at hy
  dsimp only at hy
  rcases List.mem_append.1 hy with hy | hy
  · rcases List.mem_append.1 hy with hy | hy
    · exact h.held y (List.mem_filter.1 hy).1
    · obtain ⟨i, hi, e⟩ := List.mem_filterMap.1 hy
      have hi : i < 32 := List.mem_range.1 hi
      have hfr : ∀ z, fresh (line * 32 + i) = some z → z.key / 32 ∈ S := by
        intro z ez; rw [hf _ _ ez, show (line * 32 + i) / 32 = line by omega]; exact hl
      split at e
      · rename_i x hx
        have hx' := h.held x (List.mem_of_find?_eq_some hx)
        split at e
        · cases e2 : fresh (line * 32 + i) with
          | none => rw [e2] at e; cases e; exact hx'
          | some z => rw [e2] at e; cases e; exact hfr _ e2
        · cases e; exact hx'
      · exact hfr _ e
  · exact h.held y (List.mem_filter.1 hy).1

theorem core_modCore_self (s : State) (c : Nat) (f : Core → Core) : (s.modCore c f).core c = f (s.core c) := by
  rw [State.core_modCore, if_pos rfl]

theorem fillWord_fits {s : State} {core : Nat} {S : List Nat} (h : (s.core core).fits S) (part : Nat) (inv : Bool) (k : Nat) (hk : k / 32 ∈ S) :
    ((s.fillWord core part inv k).core core).fits S := by
  have h1 : (((s.share_ (coreDie core) (k / 32)).noteForward core part k).core core).fits S :=
    fits_keepsKeys (keepsKeys_trans (share_keepsKeys s _ _) (noteForward_keepsKeys _ core part k)) h
  unfold State.fillWord
  split
  · rename_i w hw
    have hwk : w.key = k := by have := List.find?_some hw; simpa using this
    split
    · dsimp only; rw [core_modCore_self]; exact fits_putWord h1 hk
    · split
      · exact h
      · dsimp only; rw [core_modCore_self]; exact fits_putWord h1 (by rw [hwk]; exact hk)
  · unfold State.fillMiss
    rw [l1Room_fits h hk]
    unfold State.fillFrom
    dsimp only
    rw [core_modCore_self]
    refine fits_fillLine (fits_keepsKeys (keepsKeys_trans (share_keepsKeys s _ _) (keepsKeys_foldl (fun _ _ => noteForward_keepsKeys ..) _ _)) h) hk _ ?_
    intro k w e; split at e
    · cases e
    · cases e; rfl

/-- 20 R366: an L1 in which there is room for their lines fills words. -/
theorem fillWords_refreshed {S : List Nat} {core : Nat} (part : Nat) (inv : Nat → Bool) (ks : List Nat) (s : State) (h : (s.core core).fits S)
    (hk : ∀ k ∈ ks, k / 32 ∈ S) : s.Refreshed (ks.foldl (fun s k => s.fillWord core part (inv k) k) s) := by
  induction ks generalizing s with
  | nil => exact (State.SameView.refl s).refreshed
  | cons a t ih =>
    refine (fillWord_refreshed s core part (inv a) a (l1Room_fits h (hk a (by simp)))).trans ?_
    exact ih _ (fillWord_fits h part (inv a) a (hk a (by simp))) (fun k hk' => hk k (by simp [hk']))

end Sys2Proof.Machine
end

