-- ==== Sys2Proof/Laws/Serve.lean ====
section
/-!
SUPPORT. Instructions that memory serves: what their group is when they have passed, and what reading and writing through
banks and L1s leave.
-/
namespace Sys2Proof.Machine

/-! ### The group that issued -/

/-- The state is as another with its issuing group changed, but for what memory has done. -/
def State.Carried (s : State) (k : Nat) (F : Group → Group) (t : State) : Prop := t.Calm (s.modGroup k F).placed

/-- A change of a group that does not look at its reservations. -/
def unlooking (F : Group → Group) : Prop := ∀ g, (F g).bare = (F g.bare).bare

theorem carried_refl (s : State) (k : Nat) : s.Carried k id s := by
  unfold State.Carried; rw [State.modGroup_id]; rfl

theorem bare_gid (g : Group) : g.bare.gid = g.gid := rfl

theorem map_bare_replaceBy (p : Group → Bool) (H : Group → Group) (hp : ∀ g, p g.bare = p g) (hH : unlooking H) (l : List Group) :
    (replaceBy p H l).map Group.bare = replaceBy p (fun g => (H g).bare) (l.map Group.bare) := by
  induction l with
  | nil => rfl
  | cons a t ih =>
    simp only [replaceBy, List.map_cons, hp]
    split
    · simp only [List.map_cons]; rw [hH a]
    · simp [ih]

theorem carried_modGroup {s t : State} {k : Nat} {F : Group → Group} (h : s.Carried k F t) (H : Group → Group)
    (hF : ∀ g, (F g).gid = g.gid) (hH : unlooking H) : s.Carried k (fun g => H (F g)) (t.modGroup k H) := by
  have e := State.modGroup_modGroup s k F H hF
  unfold State.Carried at *
  rw [← e]
  unfold State.Calm State.placed at *
  simp only [Prod.mk.injEq] at h ⊢
  refine ⟨?_, h.2.1, h.2.2.1, h.2.2.2.1, h.2.2.2.2⟩
  show (replaceBy _ H t.groups).map Group.bare = (replaceBy _ H (s.modGroup k F).groups).map Group.bare
  rw [map_bare_replaceBy _ H (fun _ => rfl) hH, map_bare_replaceBy _ H (fun _ => rfl) hH, h.1]

theorem carried_calm {s t u : State} {k : Nat} {F : Group → Group} (h : s.Carried k F t)
    (hu : ∀ G : Placed, t.Calm G → u.Calm G) : s.Carried k F u := hu _ h

/-- What a carried state holds of its issuing group. -/
theorem carried_group {s t : State} {c : Ctx} {F : Group → Group} (hs : s.sees c) (h : s.Carried c.g.gid F t)
    (hF : ∀ g, (F g).gid = g.gid) : ∃ g, t.group? c.g.gid = some g ∧ g = { F c.g with resv := g.resv, touched := g.touched, victims := g.victims } := by
  refine calm_group? h c.g.gid (g := F c.g) ?_
  rw [State.group?_modGroup s _ _ F hF]; simp [(State.sees_eq hs).1]

theorem calm_group?_bare {s t : State} (h : t.Calm s.placed) (k : Nat) : (t.group? k).map Group.bare = (s.group? k).map Group.bare := by
  replace h : t.groups.map Group.bare = s.groups.map Group.bare := congrArg (·.1) h
  unfold State.group?
  revert h
  generalize t.groups = lt
  generalize s.groups = ls
  intro h
  induction ls generalizing lt with
  | nil => have : lt = [] := by simpa using h
           subst this; rfl
  | cons a as ih =>
    cases lt with
    | nil => simp at h
    | cons b bs =>
      simp only [List.map_cons, List.cons.injEq] at h
      have hid : b.gid = a.gid := by have := congrArg Group.gid h.1; exact this
      simp only [List.find?_cons, hid]
      split
      · exact congrArg some h.1
      · exact ih _ h.2

theorem calm_gids {s t : State} (h : t.Calm s.placed) : t.groups.map (·.gid) = s.groups.map (·.gid) := by
  have e : t.groups.map Group.bare = s.groups.map Group.bare := congrArg (·.1) h
  have := congrArg (List.map Group.gid) e
  rw [List.map_map, List.map_map] at this; exact this

theorem Ctx.after_bare (t : State) (c : Ctx) (x : Args) (g : Group) : (c.after t x g).bare = (c.after t x g.bare).bare := rfl

/-- An instruction that memory has served passes. -/
theorem served_of {s t : State} {c : Ctx} (hs : s.sees c) (x : Args) {F : Group → Group} (h : s.Carried c.g.gid F t)
    (hF : ∀ g, (F g).gid = g.gid)
    (hf : F c.g = { c.g with v := (F c.g).v, vtags := (F c.g).vtags, s := (F c.g).s, p := (F c.g).p, flags := (F c.g).flags,
                             ops := (F c.g).ops, fstat0 := (F c.g).fstat0, fstat1 := (F c.g).fstat1, resv := (F c.g).resv,
                             touched := (F c.g).touched, victims := (F c.g).victims, score := (F c.g).score }) :
    ∃ g0, t.group? c.g.gid = some g0 ∧ g0 = { F c.g with resv := g0.resv, touched := g0.touched, victims := g0.victims } ∧
      s.Served (t.finish c x) c x (c.after t x g0) := by
  obtain ⟨g0, hg0, he⟩ := carried_group hs h hF
  refine ⟨g0, hg0, he, ?_⟩
  rw [State.finish_eq]
  have hw : t.wgs = s.wgs := (calm_wgs h).trans rfl
  have hb := State.sameBut_modGroup t c.g.gid (fun g => c.after t x g) (fun _ => rfl)
  have hbs := State.sameBut_modGroup s c.g.gid F hF
  have hi : g0 = { c.g with v := g0.v, vtags := g0.vtags, s := g0.s, p := g0.p, flags := g0.flags, ops := g0.ops,
                            fstat0 := g0.fstat0, fstat1 := g0.fstat1, resv := g0.resv, touched := g0.touched, victims := g0.victims,
                            score := g0.score } := by
    generalize F c.g = y at he hf
    rw [hf] at he; rw [he]
  refine ⟨hw, ⟨hb.2.1.trans ((calm_gids h).trans hbs.2.1), fun k hk => ?_⟩, ?_, ?_, ?_⟩
  · rw [hb.2.2 k hk, calm_group?_bare h, hbs.2.2 k hk]
  · rw [State.group?_modGroup t _ _ (fun g => c.after t x g) (fun _ => rfl)]; simp [hg0]
  · exact Ctx.after_passed hs x _ (by rw [hi])
  · simp only [Ctx.after, Group.modSplit]
    generalize hy : g0 = y at hi
    cases y
    simp only [Group.mk.injEq] at hi
    simp [hi]

/-! ### The operations of an access -/

/-- The score of a group may have changed. -/
def touches (F : Group → Group) : Prop := ∃ b : Nat → Nat, F = fun g => { g with score := b g.score }

theorem replaceBy_none {α : Type} {p : α → Bool} {f : α → α} {l : List α} (h : l.find? p = none) : replaceBy p f l = l := by
  induction l with
  | nil => rfl
  | cons a t ih =>
    rw [List.find?_cons] at h
    cases e : p a with
    | true => rw [e] at h; cases h
    | false => rw [e] at h; simp [replaceBy, e, ih h]

theorem State.modGroup_none {s : State} {k : Nat} {f : Group → Group} (h : s.group? k = none) : s.modGroup k f = s := by
  unfold State.modGroup; rw [replaceBy_none h]

theorem carried_noteLines {s t : State} {c : Ctx} {F : Group → Group} (h : s.Carried c.g.gid F t) (hF : ∀ g, (F g).gid = g.gid) (ks : List Nat) :
    ∃ H, touches H ∧ s.Carried c.g.gid (fun g => H (F g)) (t.noteLines c ks) := by
  unfold State.noteLines
  split
  · exact ⟨id, ⟨id, rfl⟩, h⟩
  · dsimp only
    generalize uniq (ks.map (· / 32)) = ls
    generalize uniq ((ks.filter _).map (· / 32)) = ms
    cases e : t.group? c.g.gid with
    | none =>
      refine ⟨id, ⟨id, rfl⟩, ?_⟩
      rw [State.modGroup_none e]; exact h
    | some g0 =>
      let n := min 255 (g0.score + (ms.filter (fun k => g0.victims.contains k)).length)
      refine ⟨fun g => { g with score := n }, ⟨fun _ => n, rfl⟩, ?_⟩
      have h2 := carried_modGroup h (fun g => { g with score := n }) hF (fun _ => rfl)
      refine carried_calm h2 (fun G hG => ?_)
      have e2 : t.modGroup c.g.gid (fun g => g.touchLines ls ms) = t.modGroup c.g.gid (fun _ => g0.touchLines ls ms) :=
        State.modGroup_congr e rfl
      have e3 : t.modGroup c.g.gid (fun g => { g with score := n }) = t.modGroup c.g.gid (fun _ => { g0 with score := n }) :=
        State.modGroup_congr e rfl
      rw [e2]; rw [e3] at hG
      unfold State.Calm State.placed at *
      rw [← hG]
      simp only [Prod.mk.injEq, and_true]
      refine ⟨?_, rfl, rfl, rfl, rfl⟩
      show (replaceBy _ _ t.groups).map Group.bare = (replaceBy _ _ t.groups).map Group.bare
      rw [map_bare_replaceBy _ _ (fun _ => rfl) (fun _ => rfl), map_bare_replaceBy _ _ (fun _ => rfl) (fun _ => rfl)]
      rfl

theorem walkAll_calm {G : Placed} (s : State) (c : Ctx) (l : List LaneAcc) (write : Bool) (h : s.Calm G) :
    (s.walkAll c l write).Calm G :=
  calm_foldl (fun s _ h => State.countAccess_calm s _ _ _ _ h) _ (State.touches_calm s _ _ _ h)

theorem fillFar_calm {G : Placed} (s : State) (core part : Nat) (inv : Bool) (owner va : Nat) (h : s.Calm G) :
    (s.fillFar core part inv owner va).Calm G := by
  unfold State.fillFar
  split
  · exact h
  · exact State.modCore_calm _ _ _ (State.l1Room_calm _ _ _ h)

theorem prepRead_carried (s : State) (c : Ctx) (l : List LaneAcc) : ∃ F, touches F ∧ s.Carried c.g.gid F (s.prepRead c l) := by
  have h1 : s.Carried c.g.gid id (s.walkAll c l false) := carried_calm (carried_refl ..) (fun G h => walkAll_calm s c l false h)
  obtain ⟨F, hF, h2⟩ := carried_noteLines h1 (fun _ => rfl) (wordsOf l .l1)
  refine ⟨F, hF, carried_calm h2 (fun G h => ?_)⟩
  unfold State.prepRead
  dsimp only
  refine calm_foldl (fun _ _ h => State.readAtHome_calm _ _ _ _ h) _ ?_
  refine State.sliceRead_calm _ _ _ _ ?_
  refine calm_foldl (fun _ _ h => fillFar_calm _ _ _ _ _ _ h) _ ?_
  exact calm_foldl (fun _ _ h => State.fillWord_calm _ _ _ _ _ h) _ h

theorem markDirty_calm {G : Placed} (s : State) (c : Ctx) (vas : List Nat) (h : s.Calm G) : (s.markDirty c vas).Calm G := by
  unfold State.markDirty
  dsimp only
  split
  · exact h
  · exact calm_foldl (fun _ _ h => State.setDck_calm _ _ _ _ h) _ h

theorem prepWrite_carried (s : State) (c : Ctx) (l : List LaneAcc) : ∃ F, touches F ∧ s.Carried c.g.gid F (s.prepWrite c l) := by
  have h1 : s.Carried c.g.gid id (s.walkAll c l true) := carried_calm (carried_refl ..) (fun G h => walkAll_calm s c l true h)
  obtain ⟨F, hF, h2⟩ := carried_noteLines h1 (fun _ => rfl) (wordsOf l .l1)
  exact ⟨F, hF, carried_calm h2 (fun G h => markDirty_calm _ _ _ h)⟩

/-- Without a replay, logging changes only the checkpoints of partitions. -/
theorem logAll_parts {s : State} {part : Nat} (h : s.replayOf part = none) (es : List Event) :
    ∃ ps, s.logAll part es = { s with parts := ps } ∧
      ps.map (fun p => (p.num, p.replay)) = s.parts.map (fun p => (p.num, p.replay)) := by
  induction es generalizing s with
  | nil => exact ⟨s.parts, rfl, rfl⟩
  | cons e t ih =>
    have h1 : ∃ ps, s.logEvent part e = { s with parts := ps } ∧
        ps.map (fun p => (p.num, p.replay)) = s.parts.map (fun p => (p.num, p.replay)) := by
      have hr : (s.partOf part).replay.isSome = false := by
        unfold State.replayOf at h
        unfold State.partOf
        cases e : s.part? part with
        | none => rfl
        | some p => rw [e] at h; simpa using h
      unfold State.logEvent
      dsimp only
      rw [hr]
      split
      · rename_i h; cases h
      · split
        · exact ⟨s.parts, rfl, rfl⟩
        · unfold State.appendLog State.modPart
          exact ⟨_, rfl, map_replaceBy_same _ _ _ (fun p => by dsimp only; split <;> rfl) _⟩
    obtain ⟨ps, he, hp⟩ := h1
    have hc : ({ s with parts := ps } : State).Calm s.placed := by
      unfold State.Calm State.placed; simp only [hp]
    obtain ⟨ps', he', hp'⟩ := ih (s := { s with parts := ps }) (by rw [calm_replayOf hc]; exact h)
    refine ⟨ps', ?_, hp'.trans hp⟩
    show (s.logEvent part e).logAll part t = _
    rw [he, he']

theorem logElems_parts {s : State} {c : Ctx} (h : s.replayOf c.w.part = none) (kind : Nat) (l : List (LaneAcc × Nat × Nat)) :
    ∃ ps, s.logElems c kind l = { s with parts := ps } ∧
      ps.map (fun p => (p.num, p.replay)) = s.parts.map (fun p => (p.num, p.replay)) := by
  unfold State.logElems
  split
  · exact logAll_parts h _
  · exact ⟨s.parts, rfl, rfl⟩

theorem parts_calm {G : Placed} {s : State} {ps : List Partition}
    (hp : ps.map (fun p => (p.num, p.replay)) = s.parts.map (fun p => (p.num, p.replay))) (h : s.Calm G) :
    ({ s with parts := ps } : State).Calm G := by
  unfold State.Calm State.placed at *; simp only [hp]; exact h

theorem parts_sameView (s : State) (ps : List Partition) : s.SameView { s with parts := ps } := sameView_of rfl rfl rfl (fun _ => rfl)

/-- The replay of a carried state. -/
theorem carried_replayOf {s t : State} {k : Nat} {F : Group → Group} (h : s.Carried k F t) (n : Nat) : t.replayOf n = s.replayOf n :=
  (calm_replayOf h n).trans rfl

theorem logElems_carried {s t : State} {c : Ctx} {k : Nat} {F : Group → Group} (h : s.Carried k F t) (hr : s.replayOf c.w.part = none)
    (kind : Nat) (l : List (LaneAcc × Nat × Nat)) : s.Carried k F (t.logElems c kind l) := by
  obtain ⟨ps, e, hp⟩ := logElems_parts (s := t) (c := c) ((carried_replayOf h _).trans hr) kind l
  rw [e]; exact parts_calm hp h

theorem logElems_sameView {s : State} {c : Ctx} (h : s.replayOf c.w.part = none) (kind : Nat) (l : List (LaneAcc × Nat × Nat)) :
    s.SameView (s.logElems c kind l) := by
  obtain ⟨ps, e, -⟩ := logElems_parts h kind l
  rw [e]; exact parts_sameView s ps

theorem sendLines_calm {G : Placed} (s : State) (c : Ctx) (opId : Nat) (l : List LaneAcc) (mk : Nat → List LaneAcc → Packet → Packet)
    (h : s.Calm G) : (s.sendLines c opId l mk).1.Calm G := by
  unfold State.sendLines
  refine calm_foldl_fst (fun p a hp => ?_) _ h
  dsimp only
  split
  · exact State.sendWrite_calm _ _ _ hp
  · exact State.send_calm _ _ hp

theorem acquireLanes_calm {G : Placed} (s : State) (c : Ctx) (l : List LaneAcc) (h : s.Calm G) : (s.acquireLanes c l).Calm G := by
  unfold State.acquireLanes
  split
  · exact State.acquireCore_calm _ _ _ _ h
  · exact h

theorem releaseLanes_calm {G : Placed} {s u : State} {c : Ctx} {l : List LaneAcc} (e : s.releaseLanes c l = .ok u) (h : s.Calm G) :
    u.Calm G := by
  unfold State.releaseLanes at e
  split at e
  · cases e; exact h
  · split at e
    · split at e
      · cases e
      · cases e; exact State.releaseCore_calm _ _ _ h
    · cases e; exact State.releaseCore_calm _ _ _ h

theorem writePlace_calm {G : Placed} (s : State) (c : Ctx) (q : Ptr) (but : Option (Nat × Nat)) (p : Place) (b : Byte) (h : s.Calm G) :
    (s.writePlace c q but p b).Calm G := by
  unfold State.writePlace
  split
  · exact State.store_calm _ _ _ h
  · split
    · exact State.dirtyBytes_calm _ _ _ _ _ h
    · exact State.store_calm _ _ _ (State.sliceWrite_calm _ _ _ _ h)
    · exact State.store_calm _ _ _ (State.sliceWrite_calm _ _ _ _ h)
  · exact h

theorem writePlaces_calm {G : Placed} (s : State) (c : Ctx) (q : Ptr) (but : Option (Nat × Nat)) (l : List (Place × Byte)) (h : s.Calm G) :
    (s.writePlaces c q but l).Calm G := calm_foldl (fun _ _ h => writePlace_calm _ _ _ _ _ _ h) _ h

theorem writeNibble_calm {G : Placed} (s : State) (c : Ctx) (q : Ptr) (p : Place) (hi : Bool) (n : Nat) (h : s.Calm G) :
    (s.writeNibble c q p hi n).Calm G := by
  unfold State.writeNibble
  split
  · exact State.store_calm _ _ _ h
  · split
    · exact State.dirtyNibble_calm _ _ _ _ _ _ h
    · exact State.store_calm _ _ _ (State.sliceWrite_calm _ _ _ _ h)
  · exact h

theorem storeElem_calm {G : Placed} (s : State) (c : Ctx) (e : StoreElem) (h : s.Calm G) : (s.storeElem c e).Calm G := by
  unfold State.storeElem
  split
  · split
    · exact writeNibble_calm _ _ _ _ _ _ h
    · exact h
  · exact writePlaces_calm _ _ _ _ _ h

theorem pend_carried {s t : State} {c : Ctx} {F : Group → Group} (h : s.Carried c.g.gid F t) (hF : ∀ g, (F g).gid = g.gid) (op : PendingOp) :
    s.Carried c.g.gid (fun g => { ((F g).countUp op.flag) with ops := (F g).ops ++ [op] }) (t.pend c op) :=
  carried_calm (carried_modGroup h (fun g => { (g.countUp op.flag) with ops := g.ops ++ [op] }) hF (fun _ => rfl))
    (fun _ h => State.bump_calm _ h)

theorem pend_sameView (s : State) (c : Ctx) (op : PendingOp) : s.SameView (s.pend c op) := sameView_of rfl rfl rfl (fun _ => rfl)

theorem finish_sameView (s : State) (c : Ctx) (x : Args) : s.SameView (s.finish c x) := sameView_of rfl rfl rfl (fun _ => rfl)

/-! ### Register writes after memory has served -/

theorem dropPending_bare (g : Group) (free : Nat) (ks : List Nat) : (g.dropPending free ks).bare = (g.bare.dropPending free ks).bare := by
  have : (g.bare.dropPending free ks).ops = (g.dropPending free ks).ops := by
    unfold Group.dropPending Group.bare; dsimp only; split <;> rfl
  rw [dropPending_ops g, dropPending_ops g.bare, this]; rfl

/-- What an instruction leaves that memory serves and that writes one `p` register. -/
theorem writeP_served {s u : State} {c : Ctx} (h : s.sees c) (x : Args) (d : Nat) (q : PtrBits) (hu : ∀ G : Placed, s.Calm G → u.Calm G) :
    ∃ g, s.Served ((u.writeP c [(d, q)]).finish c x) c x g ∧ c.g.wrotePointer g d q ∧ g.v = c.g.v ∧ g.vtags = c.g.vtags ∧
      g.s = c.g.s ∧ c.g.sameModes g ∧ g.flags = c.g.flags := by
  have hc : s.Carried c.g.gid id u := carried_calm (carried_refl ..) hu
  let H : Group → Group := fun g => (g.dropPending c.free [2 ^ 21 + d]).setP [(d, q)]
  have hH : ∀ g, H g = { g with ops := (g.dropPending c.free [2 ^ 21 + d]).ops, p := assocSets nullPtr [(d, q)] g.p } := by
    intro g; simp only [H, Group.setP]; rw [dropPending_ops]
  have h2 := carried_modGroup hc H (fun _ => rfl) (fun g => by
    show ((g.dropPending c.free [2 ^ 21 + d]).bare.setP [(d, q)]) = ((g.bare.dropPending c.free [2 ^ 21 + d]).bare.setP [(d, q)])
    rw [dropPending_bare])
  obtain ⟨g0, hg0, he, hS⟩ := served_of h x h2 (fun g => by rw [hH]; rfl) (by simp only [id, hH])
  refine ⟨_, hS, wrotePointer_of _ _ _ _ ?_, ?_⟩ <;> rw [he] <;> simp only [id, hH]
  · rfl
  · exact ⟨rfl, rfl, rfl, ⟨rfl, rfl, rfl, rfl⟩, rfl⟩

/-- What an instruction leaves that memory serves and that writes one `s` register or a pair. -/
theorem writeS_served {s u : State} {c : Ctx} (h : s.sees c) (x : Args) (wide : Bool) (d n : Nat) (hu : ∀ G : Placed, s.Calm G → u.Calm G) :
    ∃ g, s.Served ((u.writeS c (sPut wide d n)).finish c x) c x g ∧ c.g.wroteScalar g (c.sIndex d) wide n ∧ g.v = c.g.v ∧
      g.vtags = c.g.vtags ∧ g.p = c.g.p ∧ c.g.sameModes g ∧ g.flags = c.g.flags := by
  have hc : s.Carried c.g.gid id u := carried_calm (carried_refl ..) hu
  let ks := (sPut wide d n).map (fun kv => 2 ^ 20 + c.sIndex kv.1)
  let ws := (sPut wide d n).map (fun kv => (c.sIndex kv.1, kv.2))
  let H : Group → Group := fun g => (g.dropPending c.free ks).setS ws
  have hH : ∀ g, H g = { g with ops := (g.dropPending c.free ks).ops, s := assocSets 0 ws g.s } := by
    intro g; simp only [H, Group.setS]; rw [dropPending_ops]
  have h2 := carried_modGroup hc H (fun _ => rfl) (fun g => by
    show ((g.dropPending c.free ks).bare.setS ws) = ((g.bare.dropPending c.free ks).bare.setS ws)
    rw [dropPending_bare])
  obtain ⟨g0, hg0, he, hS⟩ := served_of h x h2 (fun g => by rw [hH]; rfl) (by simp only [id, hH])
  refine ⟨_, hS, wroteScalar_of c _ _ _ _ _ ?_, ?_⟩ <;> rw [he] <;> simp only [id, hH]
  · rfl
  · exact ⟨rfl, rfl, rfl, ⟨rfl, rfl, rfl, rfl⟩, rfl⟩

/-! ### Banks and L1s -/

/-- Every byte of every lane lies in a bank, or is reached through L1. -/
def allHere (l : List LaneAcc) : Prop := ∀ a ∈ l, a.inBank ∨ a.inL1

theorem places_here {l : List LaneAcc} (h : allHere l) {a : LaneAcc} (ha : a ∈ l) {p : Place} (hp : p ∈ a.places) :
    (∃ k, p = .fixed k) ∨ ∃ pa va, p = .home pa va false false ∧ a.q.way false = .l1 := by
  rcases h a ha with h | h
  · exact .inl (h p hp)
  · exact .inr (h p hp)

theorem uniq_nil : uniq [] = [] := rfl

theorem wordsOf_away {l : List LaneAcc} (h : allHere l) (w : Way) (hw : w ≠ .l1) : wordsOf l w = [] := by
  unfold wordsOf
  refine (congrArg uniq (List.flatMap_eq_nil_iff.2 fun a ha => List.filterMap_eq_nil_iff.2 fun p hp => ?_)).trans rfl
  rcases places_here h ha hp with ⟨k, rfl⟩ | ⟨pa, va, rfl, e⟩
  · rfl
  · simp [e, Ne.symm hw]

theorem farLines_here {l : List LaneAcc} (h : allHere l) : farLines l = [] := by
  unfold farLines
  refine (congrArg List.eraseDups (List.filterMap_eq_nil_iff.2 fun p hp => ?_)).trans rfl
  obtain ⟨a, ha, hp⟩ := List.mem_flatMap.1 hp
  rcases places_here h ha hp with ⟨k, rfl⟩ | ⟨pa, va, rfl, e⟩ <;> rfl

theorem sendLines_here {l : List LaneAcc} (h : allHere l) (s : State) (c : Ctx) (opId : Nat) (mk : Nat → List LaneAcc → Packet → Packet) :
    s.sendLines c opId l mk = (s, []) := by
  unfold State.sendLines; rw [farLines_here h]; rfl

theorem isFar_here {l : List LaneAcc} (h : allHere l) {a : LaneAcc} (ha : a ∈ l) : a.isFar = false := by
  unfold LaneAcc.isFar
  rw [List.any_eq_false]
  intro p hp
  rcases places_here h ha hp with ⟨k, rfl⟩ | ⟨pa, va, rfl, e⟩ <;> simp

theorem noteLines_sameView (s : State) (c : Ctx) (ks : List Nat) : s.SameView (s.noteLines c ks) := by
  unfold State.noteLines; split
  · exact .refl s
  · exact sameView_of rfl rfl rfl (fun _ => rfl)

theorem walkAll_here {l : List LaneAcc} (h : allHere l) (s : State) (c : Ctx) (write : Bool) :
    s.walkAll c l write = s.touches c.w.phys (s.partOf c.w.part) (vasOf l) := by
  unfold State.walkAll
  dsimp only
  rw [List.flatMap_eq_nil_iff.2 (fun a ha => ?_)]
  · rfl
  · rw [List.filterMap_eq_nil_iff.2 (fun p hp => ?_)]
    · rfl
    · rcases places_here h ha hp with ⟨k, rfl⟩ | ⟨pa, va, rfl, e⟩
      · rfl
      · simp [State.servedKind]

theorem walkAll_sameView {l : List LaneAcc} (h : allHere l) (s : State) (c : Ctx) (write : Bool) : s.SameView (s.walkAll c l write) := by
  rw [walkAll_here h]; exact touches_sameView ..

theorem farWordsOf_here {l : List LaneAcc} (h : allHere l) (s : State) (c : Ctx) : s.farWordsOf c l = [] := by
  unfold State.farWordsOf
  rw [List.flatMap_eq_nil_iff.2 (fun a ha => List.filterMap_eq_nil_iff.2 fun p hp => ?_)]
  · rfl
  · rcases places_here h ha hp with ⟨k, rfl⟩ | ⟨pa, va, rfl, e⟩ <;> rfl

theorem install_l1 (s : State) (core : Nat) (p : Partition) (va k : Nat) : ((s.install core p va).core k).l1 = (s.core k).l1 := by
  have h1 : ∀ (u : State) (f : Core → Core), (∀ x, (f x).l1 = x.l1) → ((u.modCore core f).core k).l1 = (u.core k).l1 := by
    intro u f hf; rw [State.core_modCore]; split
    · rename_i e; rw [hf, e]
    · rfl
  unfold State.install
  split
  · dsimp only
    split
    · rw [show ∀ (u : State) n f, (u.modPart n f).core k = u.core k from fun _ _ _ => rfl]
      exact h1 s _ (fun x => by unfold Core.addWalks; rfl)
    · exact h1 s _ (fun x => by unfold Core.addWalks; rfl)
  · rfl

theorem touches_keepsKeys (s : State) (core : Nat) (p : Partition) (vas : List Nat) : s.keepsKeys (s.touches core p vas) := by
  refine keepsKeys_foldl (fun s a => ?_) _ _
  unfold State.touch; split
  · exact keepsKeys_of (fun _ => rfl)
  · exact keepsKeys_of (fun k => install_l1 ..)

theorem noteLines_keepsKeys (s : State) (c : Ctx) (ks : List Nat) : s.keepsKeys (s.noteLines c ks) := by
  unfold State.noteLines; split <;> exact keepsKeys_of (fun _ => rfl)

theorem prepRead_here {l : List LaneAcc} (h : allHere l) (s : State) (c : Ctx) :
    s.prepRead c l = (wordsOf l .l1).foldl (fun s k => s.fillWord c.w.phys c.w.part
      (l.all (fun a => a.q.inv || !a.places.any (fun p => p.key / 4 == k))) k) ((s.walkAll c l false).noteLines c (wordsOf l .l1)) := by
  unfold State.prepRead
  dsimp only
  rw [wordsOf_away h .slice (by decide), wordsOf_away h .home (by decide), farWordsOf_here h]
  rfl

/-- Reading through banks and L1s in which there is room for what they miss leaves memory; each core sees what it saw or what the
slices hold. -/
theorem prepRead_refreshed {l : List LaneAcc} (h : allHere l) (s : State) (c : Ctx)
    (hr : (s.core c.w.phys).roomy ((wordsOf l .l1).map (· / 32))) : s.Refreshed (s.prepRead c l) := by
  rw [prepRead_here h]
  refine ((walkAll_sameView h s c false).trans (noteLines_sameView _ c (wordsOf l .l1))).refreshed.trans ?_
  obtain ⟨h1, h2⟩ := Core.roomy_fits hr
  refine fillWords_refreshed c.w.part _ _ _ (fits_keepsKeys ?_ h1) (fun k hk => h2 _ (List.mem_map.2 ⟨k, hk, rfl⟩))
  rw [walkAll_here h]
  exact keepsKeys_trans (touches_keepsKeys ..) (noteLines_keepsKeys ..)

theorem readPlace_here {l : List LaneAcc} (hl : allHere l) {a : LaneAcc} (ha : a ∈ l) (s : State) (c : Ctx)
    {p : Place} (hp : p ∈ a.places) : (s.readPlace c a.q p).isSome = true := by
  rcases places_here hl ha hp with ⟨k, rfl⟩ | ⟨pa, va, rfl, e⟩ <;> simp [State.readPlace]

theorem mapM_congr_some {α β : Type} {f g : α → Option β} {l : List α} (h : ∀ a ∈ l, f a = g a ∧ (g a).isSome = true) :
    l.mapM f = l.mapM g ∧ (l.mapM g).isSome = true := by
  induction l with
  | nil => exact ⟨rfl, rfl⟩
  | cons a t ih =>
    obtain ⟨h1, h2⟩ := h a (by simp)
    obtain ⟨i1, i2⟩ := ih (fun b hb => h b (by simp [hb]))
    obtain ⟨v, hv⟩ := Option.isSome_iff_exists.1 h2
    obtain ⟨w, hw⟩ := Option.isSome_iff_exists.1 i2
    simp only [List.mapM_cons]
    rw [h1, i1, hv, hw]; simp

theorem readPlaces_here {l : List LaneAcc} (hl : allHere l) {a : LaneAcc} (ha : a ∈ l) (s : State) (c : Ctx)
    {ps : List Place} (hp : ∀ p ∈ ps, p ∈ a.places) : (s.readPlaces c a.q ps).isSome = true :=
  (mapM_congr_some (f := s.readPlace c a.q) (fun _ hq => ⟨rfl, readPlace_here hl ha s c (hp _ hq)⟩)).2

theorem spanRead_eq {l : List LaneAcc} (hl : allHere l) {a : LaneAcc} (ha : a ∈ l) (s : State) (c : Ctx) (sp : Span) :
    s.spanRead c a sp = (s.readPlaces c a.q ((a.places.drop sp.first).take sp.count)).map (spanBits sp) := by
  unfold State.spanRead
  split
  · rename_i pa ps e
    have hp : Place.device pa ∈ a.places := by rw [e]; simp
    rcases places_here hl ha hp with ⟨k, hk⟩ | ⟨pa, va, hk, -⟩ <;> cases hk
  · rfl

theorem spanRead_here {l : List LaneAcc} (hl : allHere l) {a : LaneAcc} (ha : a ∈ l) (s : State) (c : Ctx) (sp : Span) :
    (s.spanRead c a sp).isSome = true := by
  rw [spanRead_eq hl ha, Option.isSome_map]
  exact readPlaces_here hl ha s c (fun p hp => List.mem_of_mem_drop (List.mem_of_mem_take hp))

/-- What a load reads in a bank is what memory holds. -/
theorem spanRead_bank {l : List LaneAcc} (hl : ∀ a ∈ l, a.inBank) {a : LaneAcc} (ha : a ∈ l) {s t : State} (hm : t.mem = s.mem) (c : Ctx)
    (sp : Span) : t.spanRead c a sp = s.spanRead c a sp := by
  have hh : allHere l := fun a ha => .inl (hl a ha)
  rw [spanRead_eq hh ha, spanRead_eq hh ha]
  congr 1
  refine (mapM_congr_some (fun p hp => ?_)).1
  obtain ⟨k, rfl⟩ := hl a ha p (List.mem_of_mem_drop (List.mem_of_mem_take hp))
  simp [State.readPlace, State.byte_of hm]

/-- The bytes of an access in a bank. -/
theorem readPlaces_bank {a : LaneAcc} (h : a.inBank) (s : State) (c : Ctx) :
    s.readPlaces c a.q a.places = some (a.places.map (fun p => s.byte p.key)) := by
  have key : ∀ l : List Place, (∀ p ∈ l, ∃ k, p = .fixed k) → s.readPlaces c a.q l = some (l.map (fun p => s.byte p.key)) := by
    intro l
    induction l with
    | nil => intro _; rfl
    | cons p t ih =>
      intro hl
      obtain ⟨k, rfl⟩ := hl p (by simp)
      have := ih (fun q hq => hl q (by simp [hq]))
      unfold State.readPlaces at *
      simp [List.mapM_cons, State.readPlace, this, Place.key]
  exact key _ h

end Sys2Proof.Machine
end

