-- ==== Sys2Proof/Laws/Pointers.lean ====
section
/-!
SUPPORT. Lemmas: what a pointer derivation leaves (02 R29 to R34), sets of numbers.
-/
namespace Sys2Proof.Laws
open Sys2Proof.Machine

theorem derive_ok {q q' : Ptr} {off : Nat} {len : Option Nat} (h : q.derive off len = .ok q') :
    q.wf = true ∧ ∃ n, (q.space ≠ 2 → off + n ≤ q.len ∧ q' = { q with base := q.base + off, len := n }) ∧
      (q.space = 2 → off % 2 ^ 21 + n ≤ q.len ∧ off < 2 ^ 24 ∧ q.base / 2 ^ 21 % 8 + off / 2 ^ 21 % 8 ≤ 7 ∧
        q' = { q with base := (q.base / 2 ^ 21 % 8 + off / 2 ^ 21 % 8) * 2 ^ 21 + (q.base % 2 ^ 21 + off % 2 ^ 21), len := n }) := by
  unfold Ptr.derive at h
  cases hw : q.wf with
  | false => simp [hw] at h
  | true =>
    simp only [hw, Bool.not_true, Bool.false_eq_true, if_false] at h
    refine ⟨rfl, ?_⟩
    by_cases h2 : q.space = 2
    · simp only [h2, if_true] at h
      cases len with
      | none =>
        simp only [Option.getD_none] at h
        split at h
        · cases h
        · next hb =>
          have e := Except.ok.inj h
          simp [bits] at hb
          refine ⟨_, fun h => absurd h2 h, fun _ => ⟨?_, ?_, ?_, by rw [h2]; exact e.symm⟩⟩ <;> omega
      | some n =>
        simp only [Option.getD_some] at h
        split at h
        · cases h
        · next hb =>
          have e := Except.ok.inj h
          simp [bits] at hb
          refine ⟨_, fun h => absurd h2 h, fun _ => ⟨?_, ?_, ?_, by rw [h2]; exact e.symm⟩⟩ <;> omega
    · simp only [h2, if_false] at h
      cases len with
      | none =>
        simp only [Option.getD_none] at h
        split at h
        · cases h
        · next hb =>
          have e := Except.ok.inj h
          simp at hb
          exact ⟨_, fun _ => ⟨by omega, e.symm⟩, fun h => absurd h h2⟩
      | some n =>
        simp only [Option.getD_some] at h
        split at h
        · cases h
        · next hb =>
          have e := Except.ok.inj h
          simp at hb
          exact ⟨_, fun _ => ⟨by omega, e.symm⟩, fun h => absurd h h2⟩

theorem restrict_ok {q q' : Ptr} {b m : Nat} (h : q.restrict b m = .ok q') :
    q.wf = true ∧ ∃ ceil, q.scope ≤ ceil ∧ ceil ≤ q.ceil ∧ q' = { q with
      r := q.r && !bitOf m 0, w := q.w && !bitOf m 1, x := q.x && !bitOf m 2, p := q.p && !bitOf m 3,
                       inv := q.inv && !bitOf m 4, ceil := ceil } := by
  unfold Ptr.restrict at h
  cases hw : q.wf with
  | false => simp [hw] at h
  | true =>
    have hs : q.scope ≤ q.ceil := by unfold Ptr.wf at hw; simp at hw; omega
    simp only [hw, Bool.not_true, Bool.false_eq_true, if_false] at h
    refine ⟨rfl, ?_⟩
    split at h
    · split at h
      · cases h
      · next hb =>
        have e := Except.ok.inj h
        simp at hb
        exact ⟨_, by omega, by omega, e.symm⟩
    · exact ⟨_, hs, Nat.le_refl _, (Except.ok.inj h).symm⟩

theorem mem_setAdd (k j : Nat) (l : List Nat) : j ∈ setAdd k l ↔ j = k ∨ j ∈ l := by
  induction l with
  | nil => simp [setAdd]
  | cons a t ih =>
    unfold setAdd
    split
    · simp
    · split
      · next h => subst h; simp
      · simp only [List.mem_cons, ih]; grind

end Sys2Proof.Laws
end

