-- ==== Sys2Proof/Laws/Splits.lean ====
section
/-!
SUPPORT. What the split table's operations leave alone: all of a group but its splits and frames; and the SPLITIDs live.
-/
namespace Sys2Proof.Machine

/-- A group that differs in its splits and frames at most. -/
def Group.tables (g h : Group) : Prop := h = { g with splits := h.splits, frames := h.frames }

theorem Group.tables_refl (g : Group) : g.tables g := rfl
theorem Group.tables_trans {a b d : Group} (h1 : a.tables b) (h2 : b.tables d) : a.tables d := by
  unfold Group.tables at *; rw [h2, h1]

theorem Group.tables_modSplit (g : Group) (k : Nat) (f : Split → Split) : g.tables (g.modSplit k f) := rfl
theorem Group.tables_free (g : Group) (k : Nat) : g.tables (g.free k) := rfl
theorem Group.tables_dropFrames (g : Group) : g.tables g.dropFrames := rfl
theorem Group.tables_spill (g : Group) (k r n : Nat) : g.tables (g.spill k r n) := rfl
theorem Group.tables_addSplit (g : Group) (sp : Split) : g.tables (g.addSplit sp) := rfl

theorem Group.tables_countChild (g : Group) (p : Option Nat) (f : Nat → Nat) : g.tables (g.countChild p f) := by
  cases p <;> rfl

theorem Group.tables_join (g : Group) (a b : Split) : g.tables (g.join a b) := by
  unfold Group.join
  refine Group.tables_trans ?_ (Group.tables_countChild ..)
  rfl

theorem Group.tables_park (g : Group) (k : Nat) : g.tables (g.park k) := by
  unfold Group.park
  split
  · rfl
  · dsimp only
    split
    · rfl
    · exact Group.tables_trans (Group.tables_modSplit ..) (Group.tables_join ..)

theorem Group.tables_dissolve (g : Group) (k : Nat) : g.tables (g.dissolve k) := by
  unfold Group.dissolve
  split
  · rfl
  · split
    · exact Group.tables_trans (Group.tables_modSplit ..) (Group.tables_park ..)
    · exact Group.tables_trans (Group.tables_free ..) (Group.tables_countChild ..)

theorem Group.tables_settle (fuel n : Nat) (g : Group) (p : Option Nat) : g.tables (g.settle fuel n p) := by
  induction fuel generalizing g p with
  | zero => exact Group.tables_refl g
  | succ fuel ih =>
    cases p with
    | none => exact Group.tables_refl g
    | some p =>
      simp only [Group.settle]
      split
      · exact Group.tables_refl g
      · split
        · split
          · rfl
          · refine Group.tables_trans ?_ (ih ..)
            refine Group.tables_trans ?_ (Group.tables_dissolve ..)
            rfl
        · exact Group.tables_refl g

theorem Group.tables_refill (fuel : Nat) (g : Group) : g.tables (g.refill fuel) := by
  induction fuel generalizing g with
  | zero => exact Group.tables_refl g
  | succ fuel ih =>
    simp only [Group.refill]
    split
    · split
      · exact Group.tables_refl g
      · exact Group.tables_trans (Group.tables_modSplit ..) (ih _)
    · exact Group.tables_refl g

theorem Group.tables_tidy (g : Group) (n : Nat) (p : Option Nat) : g.tables (g.tidy n p) :=
  Group.tables_trans (Group.tables_trans (Group.tables_settle ..) (Group.tables_dropFrames _)) (Group.tables_refill ..)

theorem Group.tables_vanish (g : Group) (n k : Nat) : g.tables (g.vanish n k) := by
  unfold Group.vanish
  split
  · rfl
  · exact Group.tables_trans (Group.tables_dissolve ..) (Group.tables_tidy ..)

theorem Group.tables_reachRpc (g : Group) (n k : Nat) : g.tables (g.reachRpc n k) := by
  unfold Group.reachRpc
  split
  · rfl
  · exact Group.tables_trans (Group.tables_park ..) (Group.tables_tidy ..)

theorem Group.tables_room {g g' : Group} {cap n : Nat} {busy : List Nat} (h : g.room cap n busy = .ok g') : g.tables g' := by
  unfold Group.room at h
  split at h
  · cases h; rfl
  · split at h
    · cases h
    · split at h
      · cases h
      · cases h; rfl

theorem Group.tables_divide {g g' : Group} {cap n sid : Nat} {t : LaneMask} {tgt r : Word}
    (h : g.divide cap n sid t tgt r = .ok g') : g.tables g' := by
  unfold Group.divide at h
  split at h
  · cases h; rfl
  · dsimp only at h
    split at h
    · split at h
      · next hr =>
        cases h
        exact Group.tables_trans (Group.tables_trans (Group.tables_trans (Group.tables_modSplit ..) (Group.tables_room hr))
          (Group.tables_addSplit ..)) (Group.tables_countChild ..)
      · next hr => exact absurd h (hr g')
    · split at h
      · next hr =>
        split at h
        · next hr2 =>
          cases h
          exact Group.tables_trans (Group.tables_trans (Group.tables_trans (Group.tables_trans (Group.tables_modSplit ..)
            (Group.tables_room hr)) (Group.tables_addSplit ..)) (Group.tables_room hr2)) (Group.tables_addSplit ..)
        · next hr2 => exact absurd h (hr2 g')
      · next hr => exact absurd h (hr g')

theorem Group.tables_giveWay (g : Group) (n k : Nat) : g.tables (g.giveWay n k) := by
  unfold Group.giveWay
  split
  · split <;> rfl
  · rfl

theorem Group.tables_steers {g h : Group} (e : g.tables h) : g.steers h := by
  unfold Group.tables at e; unfold Group.steers; rw [e]

/-! ### SPLITIDs -/

theorem split?_none_iff (g : Group) (k : Nat) : g.split? k = none ↔ k ∉ g.splits.map (·.id) := by
  unfold Group.split?
  rw [List.find?_eq_none]
  simp

theorem ids_replaceBy (p : Split → Bool) (f : Split → Split) (l : List Split) (hf : ∀ x, (f x).id = x.id) :
    (replaceBy p f l).map (·.id) = l.map (·.id) := by
  induction l with
  | nil => rfl
  | cons a t ih => simp only [replaceBy]; split <;> simp [hf, ih]

theorem Group.ids_modSplit (g : Group) (k : Nat) (f : Split → Split) (hf : ∀ x, (f x).id = x.id) :
    (g.modSplit k f).splits.map (·.id) = g.splits.map (·.id) := ids_replaceBy _ _ _ hf

theorem Group.ids_refill (fuel : Nat) (g : Group) : (g.refill fuel).splits.map (·.id) = g.splits.map (·.id) := by
  induction fuel generalizing g with
  | zero => rfl
  | succ fuel ih =>
    simp only [Group.refill]
    split
    · split
      · rfl
      · rw [ih]; exact Group.ids_modSplit _ _ _ (fun _ => rfl)
    · rfl

/-- 07 R150: a split with no parent that holds no lane for an RPC leaves its group. -/
theorem Group.vanish_frees {g : Group} {n k : Nat} {sp : Split} (h : g.split? k = some sp) (hr : sp.rpc = noRpc)
    (hp : sp.parent = none) : (g.vanish n k).split? k = none := by
  unfold Group.vanish
  simp only [h, hp]
  have e : g.dissolve k = g.free k := by
    unfold Group.dissolve; simp [h, hr, hp, Group.countChild]
  rw [e]
  unfold Group.tidy
  rw [split?_none_iff, Group.ids_refill]
  have : (g.free k).settle 256 n none = g.free k := rfl
  rw [this]
  simp [Group.dropFrames, Group.free]

/-! ### A split table with no spilled split keeps none -/

theorem Group.unspilled_of {g h : Group} (hg : g.unspilled) (hs : ∀ sp ∈ h.splits, sp ∈ g.splits) : h.unspilled :=
  fun sp hsp => hg sp (hs sp hsp)

theorem Group.unspilled_free {g : Group} (h : g.unspilled) (k : Nat) : (g.free k).unspilled :=
  Group.unspilled_of h (fun _ hsp => (List.mem_filter.1 hsp).1)

theorem Group.unspilled_countChild {g : Group} (h : g.unspilled) (p : Option Nat) (f : Nat → Nat) : (g.countChild p f).unspilled := by
  cases p with
  | none => exact h
  | some p => exact Group.unspilled_modSplit h _ _ (fun _ => rfl)

theorem Group.unspilled_join {g : Group} (h : g.unspilled) (a b : Split) : (g.join a b).unspilled := by
  unfold Group.join
  refine Group.unspilled_countChild (Group.unspilled_free ?_ _) _ _
  exact Group.unspilled_modSplit h _ _ (fun _ => rfl)

theorem Group.unspilled_put {g : Group} (h : g.unspilled) (k : Nat) (sp : Split) (hs : sp.spilled = false) :
    (g.modSplit k (fun _ => sp)).unspilled := by
  intro x hx
  rcases mem_replaceBy hx with h1 | ⟨a, -, rfl⟩
  · exact h x h1
  · exact hs

theorem Group.unspilled_park {g : Group} (h : g.unspilled) (k : Nat) : (g.park k).unspilled := by
  unfold Group.park
  split
  · exact h
  · next sp hsp =>
    have hu : sp.spilled = false := h sp (List.mem_of_find?_eq_some hsp)
    dsimp only
    split
    · exact Group.unspilled_put h _ _ hu
    · refine Group.unspilled_join ?_ _ _
      exact Group.unspilled_put h _ _ hu

theorem Group.unspilled_dissolve {g : Group} (h : g.unspilled) (k : Nat) : (g.dissolve k).unspilled := by
  unfold Group.dissolve
  split
  · exact h
  · split
    · refine Group.unspilled_park ?_ _
      exact Group.unspilled_modSplit h _ _ (fun _ => rfl)
    · exact Group.unspilled_countChild (Group.unspilled_free h _) _ _

theorem Group.unspilled_settle (fuel n : Nat) {g : Group} (h : g.unspilled) (p : Option Nat) : (g.settle fuel n p).unspilled := by
  induction fuel generalizing g p with
  | zero => exact h
  | succ fuel ih =>
    cases p with
    | none => exact h
    | some p =>
      simp only [Group.settle]
      have hf : ({ g with splits := g.splits.filter (fun x => x.parent != some p) } : Group).unspilled :=
        Group.unspilled_of h (fun _ hsp => (List.mem_filter.1 hsp).1)
      split
      · exact h
      · split
        · split
          · exact Group.unspilled_modSplit hf _ _ (fun _ => rfl)
          · refine ih (Group.unspilled_dissolve ?_ _) _
            exact Group.unspilled_modSplit hf _ _ (fun _ => rfl)
        · exact h

theorem Group.unspilled_refill (fuel : Nat) {g : Group} (h : g.unspilled) : g.refill fuel = g := by
  cases fuel with
  | zero => rfl
  | succ fuel =>
    have : g.splits.filter (fun x => x.spilled && x.queuedAt.isSome) = [] := by
      rw [List.filter_eq_nil_iff]; intro sp hsp; simp [h sp hsp]
    simp only [Group.refill, this]
    split <;> rfl

theorem Group.unspilled_tidy {g : Group} (h : g.unspilled) (n : Nat) (p : Option Nat) : (g.tidy n p).unspilled := by
  unfold Group.tidy
  have : ((g.settle 256 n p).dropFrames).unspilled := Group.unspilled_settle 256 n h p
  rw [Group.unspilled_refill 8 this]; exact this

theorem Group.unspilled_vanish {g : Group} (h : g.unspilled) (n k : Nat) : (g.vanish n k).unspilled := by
  unfold Group.vanish
  split
  · exact h
  · exact Group.unspilled_tidy (Group.unspilled_dissolve h _) _ _

theorem Group.unspilled_reachRpc {g : Group} (h : g.unspilled) (n k : Nat) : (g.reachRpc n k).unspilled := by
  unfold Group.reachRpc
  split
  · exact h
  · exact Group.unspilled_tidy (Group.unspilled_park h _) _ _

end Sys2Proof.Machine
end

