-- ==== Sys2Proof/Laws/Branches.lean ====
section
/-!
SUPPORT. Lemmas: what a branch does to a group before and when it divides (07 R143 to R154; 08 R170 to R172).
-/
namespace Sys2Proof.Laws
open Sys2Proof.Machine

theorem leastBy_nil' {α : Type} (f : α → Nat) : leastBy f ([] : List α) = none := rfl

theorem giveWay_unspilled {g : Group} (h : g.unspilled) (n sid : Nat) : g.giveWay n sid = g := by
  unfold Group.giveWay
  have : g.splits.filter (fun x => x.spilled && x.queuedAt.isSome) = [] := by
    rw [List.filter_eq_nil_iff]; intro sp hsp; simp [h sp hsp]
  rw [this, leastBy_nil']
  cases g.split? sid <;> rfl

/-- The effect a branch has on its group before it branches. -/
def preF (s : State) (c : Ctx) (x : Args) (call : Bool) (g : Group) : Group :=
  if call then (g.dropPending c.free [2 ^ 20 + c.sIndex x.d.toNat]).setS [(c.sIndex x.d.toNat, c.sp.nextPc)] else g

def preS (s : State) (c : Ctx) (x : Args) (call : Bool) : State :=
  if call then s.writeS c [(x.d.toNat, c.sp.nextPc)] else s

theorem preS_eq (s : State) (c : Ctx) (x : Args) (call : Bool) : preS s c x call = s.modGroup c.g.gid (preF s c x call) := by
  unfold preS preF
  cases call
  · exact (State.modGroup_id s _).symm
  · rfl

theorem preF_frame (s : State) (c : Ctx) (x : Args) (call : Bool) (g : Group) :
    preF s c x call g = { g with s := (preF s c x call g).s, ops := (preF s c x call g).ops } := by
  unfold preF; split
  · rw [setS_frame, dropPending_ops]
  · rfl

theorem branch_rows (row) (hrow : row ∈ branchBlock) (s : State) (c : Ctx) (x : Args) (h : s.issues row.1 x c) :
    exec (row.1.instr x) s = settleEff c x s ((preS s c x row.2.2.2).branch c (c.active x) (row.2.1 c x) (row.2.2.1 c x)) := by
  simp only [branchBlock, List.mem_cons, List.not_mem_nil, or_false] at hrow
  rcases hrow with rfl | rfl | rfl | rfl | rfl | rfl <;> simp only [exec, Op.instr, execBra, execBrd, execBri, execCall, execCalli, execRet, branchExec] <;> rw [issue_eq h] <;> rfl

theorem sees_sp {s : State} {c : Ctx} (h : s.sees c) : ∃ sp0 site, c.g.split? c.sp.id = some sp0 ∧
    c.sp = { sp0 with site := site } ∧ sp0.hold ≠ .faulted := by
  obtain ⟨-, -, -, -, c0, -, hw, hc, hsp⟩ := State.sees_eq h
  refine ⟨c0.sp, c.sp.site, hsp, by rw [hc]; rfl, ?_⟩
  simp only [Ctx.atWord, Bool.and_eq_true, bne_iff_ne, ne_eq] at hw; exact hw.2

theorem preG (s : State) (c : Ctx) (x : Args) (h : s.sees c) (call : Bool) :
    (preS s c x call).group? c.g.gid = some (preF s c x call c.g) ∧
    ∀ K, (preS s c x call).modGroup c.g.gid (fun _ => K) = s.modGroup c.g.gid (fun _ => K) := by
  have hid : ∀ g, (preF s c x call g).gid = g.gid := fun g => by rw [preF_frame]
  rw [preS_eq, State.group?_modGroup _ _ _ _ hid]
  refine ⟨by simp [(State.sees_eq h).1], fun K => ?_⟩
  rw [State.modGroup_modGroup _ _ _ _ hid]

theorem preF_regs {s : State} {c : Ctx} {x : Args} (h : s.sees c) (call : Bool) (g : Group) (hs : g.s = (preF s c x call c.g).s)
    (ho : g.ops = (preF s c x call c.g).ops) :
    if call then c.g.wroteScalar g (c.sIndex x.d.toNat) false c.sp.nextPc.toNat else g.s = c.g.s ∧ g.ops = c.g.ops := by
  cases call
  · exact ⟨hs, ho⟩
  · intro k
    simp only [Group.sReg, hs, preF, if_true, Group.setS, dropPending_s, assocSets, List.foldl, loWord, assocGet_set]
    simp [BitVec.ofNat_toNat]

theorem exists_modSplit {g : Group} {k : Nat} {f : Split → Split} {Q : Split → Prop} (hQ : ∀ x, Q x → Q (f x))
    (h : ∃ b ∈ g.splits, Q b) : ∃ b ∈ (g.modSplit k f).splits, Q b := by
  obtain ⟨b, hb, hq⟩ := h
  show ∃ b ∈ replaceBy _ f g.splits, Q b
  generalize g.splits = l at hb
  induction l with
  | nil => simp at hb
  | cons a t ih =>
    simp only [replaceBy]
    split
    · rcases List.mem_cons.1 hb with rfl | hm
      · exact ⟨_, by simp, hQ _ hq⟩
      · exact ⟨b, by simp [hm], hq⟩
    · rcases List.mem_cons.1 hb with rfl | hm
      · exact ⟨_, by simp, hq⟩
      · obtain ⟨d, h1, h2⟩ := ih hm; exact ⟨d, by simp [h1], h2⟩

theorem room_ok {g : Group} (h : g.splits.length ≤ 7) (cap n : Nat) (busy : List Nat) : g.room cap n busy = .ok g := by
  unfold Group.room
  have : g.resident.length ≤ g.splits.length := List.length_filter_le _ _
  rw [if_pos (by omega)]

theorem length_modSplit (g : Group) (k : Nat) (f : Split → Split) : (g.modSplit k f).splits.length = g.splits.length :=
  length_replaceBy _ _ _

theorem split?_addSplit {g : Group} {k : Nat} {a : Split} (sp : Split) (h : g.split? k = some a) : (g.addSplit sp).split? k = some a := by
  unfold Group.split? Group.addSplit at *
  rw [List.find?_append, h]; rfl

theorem unspilled_addSplit {g : Group} (h : g.unspilled) (sp : Split) : (g.addSplit sp).unspilled := by
  intro x hx
  rcases List.mem_append.1 hx with h1 | h1
  · exact h x h1
  · simp at h1; rw [h1]

theorem countChild_split? (g : Group) (p : Option Nat) (k : Nat) {a : Split} (h : g.split? k = some a) :
    ∃ n, (g.countChild p (· + 1)).split? k = some { a with nchild := n } := by
  cases p with
  | none => exact ⟨a.nchild, h⟩
  | some p =>
    show ∃ n, (g.modSplit p _).split? k = _
    rw [Group.split?_modSplit g p k (fun x => { x with nchild := x.nchild + 1 }) (fun _ => rfl)]
    split
    · next e => subst e; exact ⟨a.nchild + 1, by rw [h]; rfl⟩
    · exact ⟨a.nchild, h⟩

theorem divide_flat {P : Group} {sp0 : Split} {cap n sid : Nat} {m : LaneMask} {tgt r : Word} (hsp : P.split? sid = some sp0)
    (hun : P.unspilled) (hlen : P.splits.length ≤ 6) (hfl : sp0.state = .inTrap ∨ r = sp0.rpc) :
    ∃ K, P.divide cap n sid m tgt r = .ok K ∧ K.unspilled ∧ K.splits.length = P.splits.length + 1 ∧
      (∃ a, K.split? sid = some a ∧ a.mask = sp0.mask &&& ~~~m ∧ a.pc = sp0.nextPc ∧ a.word = 0 ∧ a.rpc = sp0.rpc ∧
          a.held = 0) ∧
        ∃ b ∈ K.splits, b.mask = m ∧ b.pc = tgt ∧ b.word = 0 ∧ b.rpc = sp0.rpc ∧ b.parent = sp0.parent ∧
          b.held = 0 ∧ b.half = sp0.half := by
  unfold Group.divide
  have : (sp0.state == .inTrap || r == sp0.rpc) = true := by simpa using hfl
  simp only [hsp, this, if_true]
  rw [room_ok (by rw [length_modSplit]; omega)]
  let f : Split → Split := fun x =>
    { (x.goto sp0.nextPc) with mask := sp0.mask &&& ~~~m, held := 0, evKind := 0, evReg := 0, evVal := 0, nchild := 0, issuedAt := n }
  have h1 : (P.modSplit sid f).split? sid = some (f sp0) := by
    rw [Group.split?_modSplit P sid _ f (fun _ => rfl), if_pos rfl, hsp]; rfl
  have hu : (P.modSplit sid f).unspilled := Group.unspilled_modSplit hun _ _ (fun _ => rfl)
  refine ⟨_, rfl, ?_, ?_, ?_, ?_⟩
  · cases sp0.parent
    · exact unspilled_addSplit hu _
    · exact Group.unspilled_modSplit (unspilled_addSplit hu _) _ _ (fun _ => rfl)
  · cases sp0.parent <;> simp [Group.countChild, length_modSplit, Group.addSplit]
  · obtain ⟨k, hk⟩ := countChild_split? _ sp0.parent _ (split?_addSplit ({ (sp0.goto tgt) with mask := m, held := 0, evKind := 0, evReg := 0, evVal := 0, nchild := 0, issuedAt := n }) h1)
    exact ⟨_, hk, rfl, rfl, rfl, rfl, by
      have := List.find?_some hsp
      rfl⟩
  · have : ∃ b ∈ ((P.modSplit sid f).addSplit { (sp0.goto tgt) with mask := m, held := 0, evKind := 0, evReg := 0, evVal := 0, nchild := 0, issuedAt := n }).splits, b.mask = m ∧ b.pc = tgt ∧ b.word = 0 ∧ b.rpc = sp0.rpc ∧ b.parent = sp0.parent ∧
          b.held = 0 ∧ b.half = sp0.half :=
      ⟨_, List.mem_append_right _ (List.mem_singleton.2 rfl), rfl, rfl, rfl, rfl, rfl, rfl, rfl⟩
    cases e : sp0.parent with
    | none => rw [e] at this; exact this
    | some p => rw [e] at this; exact exists_modSplit (fun _ h => h) this

theorem divide_tree {P : Group} {sp0 : Split} {cap n sid : Nat} {m : LaneMask} {tgt r : Word} (hsp : P.split? sid = some sp0)
    (hun : P.unspilled) (hlen : P.splits.length ≤ 6) (hfl : ¬(sp0.state = .inTrap ∨ r = sp0.rpc)) :
    ∃ K, P.divide cap n sid m tgt r = .ok K ∧ K.unspilled ∧ K.splits.length = P.splits.length + 2 ∧
        (∃ p, K.split? sid = some p ∧ p.state = .divided ∧ p.pc = r ∧ p.rpc = sp0.rpc ∧ p.nchild = 2) ∧
        (∃ a ∈ K.splits, a.parent = some sid ∧ a.mask = sp0.mask &&& ~~~m ∧ a.pc = sp0.nextPc ∧ a.rpc = r ∧ a.held = 0) ∧
        ∃ b ∈ K.splits, b.parent = some sid ∧ b.mask = m ∧ b.pc = tgt ∧ b.rpc = r ∧ b.held = 0 := by
  unfold Group.divide
  have : (sp0.state == .inTrap || r == sp0.rpc) = false := by simpa using hfl
  simp only [hsp, this, Bool.false_eq_true, if_false]
  rw [room_ok (by rw [length_modSplit]; omega)]
  let f : Split → Split := fun x => { (x.goto r) with state := .divided, nchild := 2 }
  have h1 : (P.modSplit sid f).split? sid = some (f sp0) := by
    rw [Group.split?_modSplit P sid _ f (fun _ => rfl), if_pos rfl, hsp]; rfl
  have hu : (P.modSplit sid f).unspilled := Group.unspilled_modSplit hun _ _ (fun _ => rfl)
  dsimp only
  rw [room_ok (by simp only [Group.addSplit, List.length_append, length_modSplit, List.length_singleton]; omega)]
  refine ⟨_, rfl, unspilled_addSplit (unspilled_addSplit hu _) _, ?_, ?_, ?_, ?_⟩
  · simp [Group.addSplit, length_modSplit]
  · exact ⟨_, split?_addSplit _ (split?_addSplit _ h1), rfl, rfl, rfl, rfl⟩
  · exact ⟨_, List.mem_append_left _ (List.mem_append_right _ (List.mem_singleton.2 rfl)), rfl, rfl, rfl, rfl, rfl⟩
  · exact ⟨_, List.mem_append_right _ (List.mem_singleton.2 rfl), rfl, rfl, rfl, rfl, rfl⟩

theorem filter_replaceBy {α : Type} {p q : α → Bool} {f : α → α} {l : List α} {a : α} (h : l.find? p = some a) (h1 : q a = true)
    (h2 : q (f a) = false) : ((replaceBy p f l).filter q).length + 1 = (l.filter q).length := by
  induction l with
  | nil => simp at h
  | cons b t ih =>
    simp only [replaceBy]
    cases e : p b with
    | true =>
      simp [e] at h; subst h
      simp [h1, h2]
    | false =>
      simp [e] at h
      simp only [Bool.false_eq_true, if_false, List.filter_cons]
      split
      · simp [ih h]
      · exact ih h

end Sys2Proof.Laws
end

