-- ==== Sys2Proof/Laws/Traps.lean ====
section
/-!
SUPPORT. Lemmas: records and groups; the taking of a trap (22 R405 to R412).
-/
namespace Sys2Proof.Laws
open Sys2Proof.Machine

theorem record_group {s : State} (r : ErrorRecord) {k : Nat} {g : Group} (hg : s.group? k = some g) :
    ∃ h, (s.record r).group? k = some h ∧ h = { g with resv := h.resv, touched := h.touched, victims := h.victims } :=
  calm_group? (State.record_calm s r rfl) k hg

theorem touch_eq (s : State) (core : Nat) (p : Partition) (va : Nat) :
    ∃ cs ps, s.touch core p va = { s with cores := cs, parts := ps } ∧
      ps.map (fun p => (p.num, p.replay)) = s.parts.map (fun p => (p.num, p.replay)) := by
  unfold State.touch
  split
  · exact ⟨s.cores, s.parts, rfl, rfl⟩
  · unfold State.install
    split
    · dsimp only
      split
      · refine ⟨_, _, rfl, ?_⟩
        exact map_replaceBy_same _ (fun p => { p with mismatches := p.mismatches + 1 }) (fun p : Partition => (p.num, p.replay)) (fun _ => rfl) s.parts
      · exact ⟨_, s.parts, rfl, rfl⟩
    · exact ⟨s.cores, s.parts, rfl, rfl⟩

theorem foldl_eq {α : Type} {f : State → α → State}
    (hf : ∀ s a, ∃ cs ps, f s a = { s with cores := cs, parts := ps } ∧
      ps.map (fun p => (p.num, p.replay)) = s.parts.map (fun p => (p.num, p.replay))) (l : List α) (s : State) :
    ∃ cs ps, l.foldl f s = { s with cores := cs, parts := ps } ∧
      ps.map (fun p => (p.num, p.replay)) = s.parts.map (fun p => (p.num, p.replay)) := by
  induction l generalizing s with
  | nil => exact ⟨s.cores, s.parts, rfl, rfl⟩
  | cons a t ih =>
    obtain ⟨cs, ps, e, h⟩ := hf s a
    obtain ⟨cs', ps', e', h'⟩ := ih (f s a)
    rw [List.foldl_cons, e']
    refine ⟨cs', ps', by rw [e], h'.trans ?_⟩
    rw [e]; exact h

theorem touches_eq (s : State) (core : Nat) (p : Partition) (vas : List Nat) :
    ∃ cs ps, s.touches core p vas = { s with cores := cs, parts := ps } ∧
      ps.map (fun p => (p.num, p.replay)) = s.parts.map (fun p => (p.num, p.replay)) :=
  foldl_eq (fun s _ => touch_eq s core p _) _ s

/-- The walks of refused accesses change only what the cores hold of translations, and counts. -/
theorem touchTraps_eq (s : State) (c : Ctx) (ts : List LaneTrap) :
    ∃ cs ps, s.touchTraps c ts = { s with cores := cs, parts := ps } ∧
      ps.map (fun p => (p.num, p.replay)) = s.parts.map (fun p => (p.num, p.replay)) := by
  unfold State.touchTraps
  refine foldl_eq (fun s a => ?_) _ s
  split
  · split
    · exact touch_eq ..
    · exact ⟨s.cores, s.parts, rfl, rfl⟩
  · exact ⟨s.cores, s.parts, rfl, rfl⟩

/-- A trap that is not fatal. -/
theorem takeTrap_ok {s : State} {c : Ctx} {ts : List LaneTrap} {tw : TrapWord} {code : Nat} (h : s.sees c) (h1 : codesOf ts = [code])
    (h2 : alwaysFatal code = false) (h3 : c.sp.state ≠ .inTrap) (h4 : c.g.handler ≠ noRpc) {K : Group}
    (hK : (c.g.modSplit c.sp.id (fun x => { x with site := c.sp.site })).formTrap (c.w.spill / 64) s.serial c.sp.id (lanesOfCode ts code)
      (fun k => trapFrame k code ts c.w.legacy c.sp.half c.sp.pc tw) = .ok K) (hu : K.unspilled) (hid : K.gid = c.g.gid)
    (hu0 : c.g.unspilled) :
    ∃ h, (s.takeTrap c ts tw).group? c.g.gid = some h ∧ h = { K with resv := h.resv, touched := h.touched, victims := h.victims } := by
  obtain ⟨cs, ps, et, -⟩ := touchTraps_eq s c ts
  have hg : (s.touchTraps c ts).group? c.g.gid = some c.g := by rw [et]; exact (State.sees_eq h).1
  have hser : (s.touchTraps c ts).serial = s.serial := by rw [et]
  rw [← hser] at hK
  unfold State.takeTrap
  dsimp only
  generalize s.touchTraps c ts = s at *
  have hf : fatalCodes c ts = [] := by
    unfold fatalCodes
    simp [h1, h2, h3, h4]
  simp only [hf, hg, h1, Group.formTraps, hK, List.foldl]
  have hu1 : (c.g.modSplit c.sp.id (fun x => { x with site := c.sp.site })).unspilled := Group.unspilled_modSplit hu0 _ _ (fun _ => rfl)
  rw [State.putSplits_eq _ _ _ _ _ (records_nil hu1 hu)]
  refine record_group _ ?_
  show (s.modGroup c.g.gid (fun _ => K)).group? c.g.gid = some K
  let F : Group → Group := fun g => { K with gid := g.gid }
  have e : s.modGroup c.g.gid (fun _ => K) = s.modGroup c.g.gid F := State.modGroup_congr hg (by simp only [F, ← hid])
  rw [e, State.group?_modGroup _ _ _ F (fun _ => rfl)]
  rw [if_pos rfl, hg]
  show some (F c.g) = some K
  simp only [F, ← hid]

end Sys2Proof.Laws
end

