-- ==== Sys2Proof/Laws/Writes.lean ====
section
/-!
SUPPORT. Writing: what stores to banks and through an L1 leave of memory and of what the core sees of it.
-/
namespace Sys2Proof.Machine

theorem writeIn_append (m : Nat → Byte) (a b : List (Nat × Byte)) : writeIn m (a ++ b) = writeIn (writeIn m a) b :=
  List.foldl_append ..

/-- Memory after a write, read as a function. -/
theorem assocGet_sets_writeIn (ws : List (Nat × Byte)) (l : Assoc Byte) (j : Nat) :
    assocGet resetByte j (assocSets resetByte ws l) = writeIn (fun k => assocGet resetByte k l) ws j := by
  induction ws generalizing l with
  | nil => rfl
  | cons w t ih =>
    show assocGet resetByte j (assocSets resetByte t (assocSet resetByte w.1 w.2 l)) = _
    rw [ih]
    show writeIn _ t j = writeIn _ t j
    congr 1
    funext k
    rw [assocGet_set]

theorem putBytes_byte (s : State) (ws : List (Nat × Byte)) (k : Nat) : (s.putBytes ws).byte k = writeIn s.byte ws k :=
  assocGet_sets_writeIn ws s.mem k

/-- A store to memory: its bytes, and every other byte as it was. -/
theorem store_byte (s : State) (ws : List (Nat × Byte)) (but : Option (Nat × Nat)) (k : Nat) : (s.store ws but).byte k = writeIn s.byte ws k := by
  unfold State.store
  split
  · rename_i h
    have : ws = [] := by simpa using h
    subst this; rfl
  · exact putBytes_byte s ws k

theorem writeIn_congr {m m' : Nat → Byte} (h : ∀ k, m k = m' k) (ws : List (Nat × Byte)) (k : Nat) : writeIn m ws k = writeIn m' ws k := by
  rw [show m = m' from funext h]

theorem writeIn_ne (m : Nat → Byte) (ws : List (Nat × Byte)) (k : Nat) (h : ∀ w ∈ ws, w.1 ≠ k) : writeIn m ws k = m k := by
  unfold writeIn
  induction ws generalizing m with
  | nil => rfl
  | cons w t ih =>
    rw [List.foldl_cons, ih _ (fun v hv => h v (by simp [hv]))]
    simp [Ne.symm (h w (by simp))]

/-! ### Banks -/

theorem writePlaces_bank {ps : List Place} (h : ∀ p ∈ ps, ∃ k, p = .fixed k) (s : State) (c : Ctx) (q : Ptr) (but : Option (Nat × Nat))
    (bs : List Byte) (k : Nat) :
    (s.writePlaces c q but (ps.zip bs)).byte k = writeIn s.byte ((ps.zip bs).map (fun w => (w.1.key, w.2))) k := by
  induction ps generalizing s bs with
  | nil => rfl
  | cons p t ih =>
    cases bs with
    | nil => rfl
    | cons b bs =>
      obtain ⟨j, rfl⟩ := h p (by simp)
      show ((s.writePlace c q but (.fixed j) b).writePlaces c q but (t.zip bs)).byte k = _
      rw [ih (fun p hp => h p (by simp [hp]))]
      show writeIn _ _ k = writeIn _ _ k
      exact writeIn_congr (fun i => store_byte s [(j, b)] but i) _ k

theorem storeElem_bank {e : StoreElem} (h : e.a.inBank) (s : State) (c : Ctx) (k : Nat) : (s.storeElem c e).byte k = e.writeIn s.byte k := by
  unfold State.storeElem StoreElem.writeIn
  split
  · cases hp : (e.a.places.drop e.sp.first).head? with
    | none => rfl
    | some p =>
      obtain ⟨j, rfl⟩ := h p (List.mem_of_mem_drop (List.mem_of_mem_head? hp))
      exact store_byte ..
  · refine writePlaces_bank (fun p hp => h p (List.mem_of_mem_drop (List.mem_of_mem_take hp))) ..

theorem StoreElem.writeIn_congr {m m' : Nat → Byte} (h : ∀ k, m k = m' k) (e : StoreElem) : e.writeIn m = e.writeIn m' := by
  rw [show m = m' from funext h]

theorem foldl_writeIn_congr (es : List StoreElem) {m m' : Nat → Byte} (h : ∀ k, m k = m' k) (k : Nat) :
    es.foldl StoreElem.writeIn m k = es.foldl StoreElem.writeIn m' k := by
  rw [show m = m' from funext h]

theorem storeElems_bank (c : Ctx) (es : List StoreElem) (h : ∀ e ∈ es, e.a.inBank) (s : State) (k : Nat) :
    (es.foldl (fun s e => s.storeElem c e) s).byte k = es.foldl StoreElem.writeIn s.byte k := by
  induction es generalizing s with
  | nil => rfl
  | cons e t ih =>
    rw [List.foldl_cons, ih (fun e he => h e (by simp [he])), List.foldl_cons]
    exact foldl_writeIn_congr t (storeElem_bank (h e (by simp)) s c) k

/-! ### L1 -/

theorem word?_map_tag (l : List L1Word) (g : Nat) (b : Bool) (k : Nat) :
    (l.map (fun (w : L1Word) => if w.key / 4 == g then { w with tag := b } else w)).find? (fun w => w.key == k) =
      (l.find? (fun w => w.key == k)).map (fun w => if w.key / 4 == g then { w with tag := b } else w) := by
  induction l with
  | nil => rfl
  | cons a t ih =>
    simp only [List.map_cons, List.find?_cons]
    have : (if a.key / 4 == g then { a with tag := b } else a).key = a.key := by split <;> rfl
    rw [this]
    cases a.key == k
    · exact ih
    · rfl

theorem word?_tagGranule (c : Core) (g : Nat) (b : Bool) (k : Nat) :
    (c.tagGranule g b).word? k = (c.word? k).map (fun w => if w.key / 4 == g then { w with tag := b } else w) :=
  word?_map_tag ..

/-- What a core sees, from a word of its L1 or none. -/
def seen (w : Option L1Word) (slice : Word) (i : Nat) : Byte := ((w.map (fun w => w.over slice)).getD slice).extractLsb' (8 * i) 8

theorem seeByte_seen {s t : State} (hm : t.mem = s.mem) (core pa : Nat) :
    t.seeByte core pa = seen ((t.core core).word? (pa / 4)) (s.sliceWord (pa / 4)) (pa % 4) := by
  rw [State.seeByte_word hm]
  unfold seen
  cases (t.core core).word? (pa / 4) with
  | none => exact (sliceWord_at s pa).symm
  | some w => rfl

theorem seen_tag (w : Option L1Word) (m : Word) (i g : Nat) (b : Bool) :
    seen (w.map (fun w => if w.key / 4 == g then { w with tag := b } else w)) m i = seen w m i := by
  cases w with
  | none => rfl
  | some w => simp only [Option.map_some, seen]; split <;> rfl

/-- A word of which a byte is about to be written: what a clean word has of half a byte goes. -/
def L1Word.settle (w : L1Word) : L1Word := if w.st = .dirty then w else { w with nibs := 0 }

theorem settle_key (w : L1Word) : w.settle.key = w.key := by unfold L1Word.settle; split <;> rfl

theorem settle_settle (w : L1Word) (h : w.st = .dirty) : w.settle = w := by unfold L1Word.settle; rw [if_pos h]

/-- A word that is settled gives what it gave, or what the slices hold. -/
theorem seen_settle (w : Option L1Word) (sl : Word) (i : Nat) (hi : i < 4) :
    seen (w.map L1Word.settle) sl i = seen w sl i ∨ seen (w.map L1Word.settle) sl i = sl.extractLsb' (8 * i) 8 := by
  cases w with
  | none => exact .inl rfl
  | some w =>
    simp only [Option.map_some, seen, Option.getD_some]
    by_cases hd : w.st = .dirty
    · rw [settle_settle w hd]; exact .inl rfl
    · have e : w.settle = { w with nibs := 0 } := by unfold L1Word.settle; rw [if_neg hd]
      rw [e]
      cases hh : w.have_.getLsbD i with
      | true => left; rw [(over_byte w sl i hi).1 hh]; exact (over_byte { w with nibs := 0 } sl i hi).1 hh
      | false => right; exact (over_byte { w with nibs := 0 } sl i hi).2 hh (by simp) (by simp)

set_option maxRecDepth 10000 in
theorem bit_getLsbD : ∀ i j : Fin 4, (1#4 <<< i.val).getLsbD j.val = decide (i = j) := by decide

theorem shifted_byte (b : Byte) (i : Nat) (hi : i < 4) : (b.setWidth 32 <<< (8 * i)).extractLsb' (8 * i) 8 = b := by
  apply BitVec.eq_of_getLsbD_eq
  intro j hj
  simp only [BitVec.getLsbD_extractLsb', hj, decide_true, Bool.true_and, BitVec.getLsbD_shiftLeft, BitVec.getLsbD_setWidth]
  have : 8 * i + j < 32 := by omega
  have h2 : ¬ (8 * i + j < 8 * i) := by omega
  simp [this, h2, show j < 32 by omega]

theorem shifted_bit (b : Byte) (p n : Nat) (hn : n < 32) :
    ((b.setWidth 32 : Word) <<< (8 * p)).getLsbD n = (decide (8 * p ≤ n) && b.getLsbD (n - 8 * p)) := by
  simp only [BitVec.getLsbD_shiftLeft, BitVec.getLsbD_setWidth, hn, decide_true, Bool.true_and]
  by_cases h : n < 8 * p
  · simp [h, show ¬ 8 * p ≤ n by omega]
  · simp [h, show 8 * p ≤ n by omega, show n - 8 * p < 32 by omega]

theorem settle_tag (w : Option L1Word) (m : Word) (i g : Nat) (b : Bool) :
    seen ((w.map (fun w => if w.key / 4 == g then { w with tag := b } else w)).map L1Word.settle) m i = seen (w.map L1Word.settle) m i := by
  cases w with
  | none => rfl
  | some w =>
    simp only [Option.map_some, seen, L1Word.settle]
    by_cases h : (w.key / 4 == g) = true
    · simp only [h, if_true]; split <;> rfl
    · simp [h]

/-- A byte of which some nibbles are written. -/
def partByte (old b : Byte) (nibs : BitVec 2) : Byte :=
  if nibs = 3#2 then b else if nibs = 2#2 then (old &&& 0x0F#8) ||| (b &&& 0xF0#8) else if nibs = 1#2 then (old &&& 0xF0#8) ||| (b &&& 0x0F#8) else old

theorem partByte_bit (old b : Byte) (nibs : BitVec 2) (j : Nat) (hj : j < 8) :
    (partByte old b nibs).getLsbD j = if nibs.getLsbD (j / 4) then b.getLsbD j else old.getLsbD j := by
  have h1 : ∀ j : Fin 8, (0x0F#8).getLsbD j.val = decide (j.val < 4) := by decide
  have h2 : ∀ j : Fin 8, (0xF0#8).getLsbD j.val = decide (4 ≤ j.val) := by decide
  have h1 := h1 ⟨j, hj⟩
  have h2 := h2 ⟨j, hj⟩
  simp only at h1 h2
  have hd : ∀ d : Fin 2, (3#2).getLsbD d.val = true ∧ (2#2).getLsbD d.val = decide (d.val = 1) ∧ (1#2).getLsbD d.val = decide (d.val = 0) ∧ (0#2).getLsbD d.val = false := by decide
  obtain ⟨d3, d2, d1, d0⟩ := hd ⟨j / 4, by omega⟩
  simp only at d3 d2 d1 d0
  have hn : ∀ n : BitVec 2, n = 0#2 ∨ n = 1#2 ∨ n = 2#2 ∨ n = 3#2 := by decide
  unfold partByte
  rcases hn nibs with rfl | rfl | rfl | rfl
  · simp
  · rw [if_neg (by decide), if_neg (by decide), if_pos rfl, d1]
    simp only [BitVec.getLsbD_or, BitVec.getLsbD_and, h1, h2]
    by_cases h : j < 4
    · simp [h, show j / 4 = 0 by omega, show ¬ 4 ≤ j by omega]
    · simp [h, show ¬ j / 4 = 0 by omega, show 4 ≤ j by omega]
  · rw [if_neg (by decide), if_pos rfl, d2]
    simp only [BitVec.getLsbD_or, BitVec.getLsbD_and, h1, h2]
    by_cases h : j < 4
    · simp [h, show ¬ j / 4 = 1 by omega, show ¬ 4 ≤ j by omega]
    · simp [h, show j / 4 = 1 by omega, show 4 ≤ j by omega]
  · rw [if_pos rfl, d3]; rfl

theorem setNibble_part (old : Byte) (hi : Bool) (n : Nat) :
    setNibble old hi n = partByte old (BitVec.ofNat 8 (n % 16 * 17)) (if hi then 2#2 else 1#2) := by
  have h : ∀ k : Fin 16, BitVec.ofNat 8 (k.val * 17) &&& 0xF0#8 = BitVec.ofNat 8 (k.val * 16) ∧ BitVec.ofNat 8 (k.val * 17) &&& 0x0F#8 = BitVec.ofNat 8 k.val := by
    decide
  obtain ⟨h1, h2⟩ := h ⟨n % 16, Nat.mod_lt _ (by decide)⟩
  simp only at h1 h2
  unfold setNibble partByte
  cases hi
  · simp only [Bool.false_eq_true, if_false]
    rw [if_neg (by decide), if_neg (by decide), if_pos trivial, h2]
  · simp only [if_true]
    rw [if_neg (by decide), h1]

/-- A byte of a word with nibbles of one byte written. -/
theorem over_written (w w' : L1Word) (b : Byte) (nibs : BitVec 2) (p i : Nat) (hp : p < 4) (hi : i < 4) (sl : Word)
    (hh : w'.have_ = w.have_ ||| (if nibs = 3#2 then 1#4 <<< p else 0)) (hN : w'.nibs = w.nibs ||| (nibs.setWidth 8 <<< (2 * p)))
    (hd : ∀ n, n < 32 → w'.data.getLsbD n = if n / 8 = p ∧ nibs.getLsbD (n % 8 / 4) = true then b.getLsbD (n - 8 * p) else w.data.getLsbD n) :
    (w'.over sl).extractLsb' (8 * i) 8 = if i = p then partByte ((w.over sl).extractLsb' (8 * i) 8) b nibs else (w.over sl).extractLsb' (8 * i) 8 := by
  have hbit : ∀ (n : BitVec 2) (p i : Fin 4), (if n = 3#2 then 1#4 <<< p.val else 0).getLsbD i.val = (decide (n = 3#2) && decide (i = p)) := by decide
  have hbit := hbit nibs ⟨p, hp⟩ ⟨i, hi⟩
  have hnib : ∀ (n : BitVec 2) (p i : Fin 4) (h : Fin 2), ((n.setWidth 8 : BitVec 8) <<< (2 * p.val)).getLsbD (2 * i.val + h.val) = (decide (i = p) && n.getLsbD h.val) := by decide
  have h3 : ∀ (n : BitVec 2) (h : Fin 2), n = 3#2 → n.getLsbD h.val = true := by decide
  have key : ∀ j, j < 8 → ((w'.over sl).extractLsb' (8 * i) 8).getLsbD j =
      if i = p ∧ nibs.getLsbD (j / 4) = true then b.getLsbD j else ((w.over sl).extractLsb' (8 * i) 8).getLsbD j := by
    intro j hj
    simp only [BitVec.getLsbD_extractLsb', hj, decide_true, Bool.true_and]
    have hn : (8 * i + j) / 4 = 2 * i + j / 4 := by omega
    have hm := hnib nibs ⟨p, hp⟩ ⟨i, hi⟩ ⟨j / 4, by omega⟩
    have h3 := h3 nibs ⟨j / 4, by omega⟩
    simp only [Fin.mk.injEq] at hm hbit h3
    have hb : ∀ m : BitVec 4, (nibMask m).getLsbD ((8 * i + j) / 4) = m.getLsbD i := by
      intro m
      have := nibMask_bit m ⟨(8 * i + j) / 4, by omega⟩
      simp only at this
      rw [this, show (8 * i + j) / 4 / 2 = i by omega]
    unfold L1Word.over
    rw [mergeNibbles_bit _ _ _ _ (by omega), mergeNibbles_bit _ _ _ _ (by omega)]
    simp only [BitVec.getLsbD_or, hb]
    rw [hh, hN, hd _ (by omega), show (8 * i + j) / 8 = i by omega, show (8 * i + j) % 8 / 4 = j / 4 by omega]
    simp only [BitVec.getLsbD_or]
    rw [hbit]
    rw [← hn] at hm
    rw [hm]
    by_cases e : i = p
    · subst e
      rw [show 8 * i + j - 8 * i = j by omega]
      by_cases hs : nibs.getLsbD (j / 4) = true
      · simp [hs]
      · have : nibs ≠ 3#2 := fun h => hs (h3 h)
        simp [hs, this]
    · simp [e]
  apply BitVec.eq_of_getLsbD_eq
  intro j hj
  rw [key j hj]
  by_cases e : i = p
  · rw [if_pos e, partByte_bit _ _ _ _ hj]; simp [e]
  · simp [e]

theorem writePart_word? (c : Core) (part pa : Nat) (b : Byte) (nibs : BitVec 2) (j : Nat) :
    (j ≠ pa / 4 → (c.writePart part pa b nibs).word? j = c.word? j) ∧
    ∃ w, (c.writePart part pa b nibs).word? (pa / 4) = some w ∧ w.key = pa / 4 ∧ w.st = .dirty ∧
      ∀ sl, ∀ i < 4, seen (some w) sl i =
        if i = pa % 4 then partByte (seen ((c.word? (pa / 4)).map L1Word.settle) sl i) b nibs else seen ((c.word? (pa / 4)).map L1Word.settle) sl i := by
  unfold Core.writePart
  dsimp only
  have hnb : ∀ (p n : Nat), p < 4 → n < 32 → ((nibs.setWidth 8 : BitVec 8) <<< (2 * p)).getLsbD (n / 4) = (decide (n / 8 = p) && nibs.getLsbD (n % 8 / 4)) := by
    have : ∀ (m : BitVec 2) (p : Fin 4) (n : Fin 8), ((m.setWidth 8 : BitVec 8) <<< (2 * p.val)).getLsbD n.val = (decide (n.val / 2 = p) && m.getLsbD (n.val % 2)) := by decide
    intro p n hp hn
    have := this nibs ⟨p, hp⟩ ⟨n / 4, by omega⟩
    simp only at this
    rw [this, show n / 4 / 2 = n / 8 by omega, show n / 4 % 2 = n % 8 / 4 by omega]
  cases hw : c.word? (pa / 4) with
  | some w =>
    have hwk : w.key = pa / 4 := by have := List.find?_some hw; simpa using this
    simp only
    constructor
    · intro h; rw [Core.word?_putWord]; simp [hwk, h]
    · rw [Core.word?_putWord]
      dsimp only
      rw [if_pos hwk.symm]
      refine ⟨_, rfl, hwk, rfl, fun sl i hi => ?_⟩
      simp only [seen, Option.map_some, Option.getD_some]
      refine over_written w.settle _ b nibs (pa % 4) i (by omega) hi sl ?_ ?_ ?_
      · have : w.settle.have_ = w.have_ := by unfold L1Word.settle; split <;> rfl
        rw [this]
      · have : w.settle.nibs = if w.st = .dirty then w.nibs else 0 := by unfold L1Word.settle; split <;> rfl
        rw [this]
      · intro n hn
        have hdat : w.settle.data = w.data := by unfold L1Word.settle; split <;> rfl
        dsimp only
        rw [mergeNibbles_bit _ _ _ _ hn, hnb _ _ (by omega) hn, hdat, shifted_bit _ _ _ hn]
        by_cases e : n / 8 = pa % 4
        · simp [e, show 8 * (pa % 4) ≤ n by omega]
        · simp [e]
  | none =>
    simp only
    constructor
    · intro h; rw [Core.word?_putWord]; simp [h]
    · rw [Core.word?_putWord]
      dsimp only
      rw [if_pos rfl]
      refine ⟨_, rfl, rfl, rfl, fun sl i hi => ?_⟩
      simp only [seen, Option.map_none, Option.map_some, Option.getD_some, Option.getD_none]
      let z : L1Word := { key := pa / 4, part := part, st := .valid, data := b.setWidth 32 <<< (8 * (pa % 4)), have_ := 0, dirty := 0, nibs := 0, tag := false, inv := false }
      have hz : z.over sl = sl := by
        apply BitVec.eq_of_getLsbD_eq
        intro n hn
        unfold L1Word.over
        rw [mergeNibbles_bit _ _ _ _ hn, BitVec.getLsbD_or]
        have := nibMask_bit 0 ⟨n / 4, by omega⟩
        simp only at this
        rw [this]; simp [z]
      have := over_written z ⟨pa / 4, part, .dirty, b.setWidth 32 <<< (8 * (pa % 4)), (if nibs = 3#2 then 1#4 <<< (pa % 4) else 0), 1#4 <<< (pa % 4),
        nibs.setWidth 8 <<< (2 * (pa % 4)), false, false⟩ b nibs (pa % 4) i (by omega) hi sl (by simp [z]) (by simp [z]) (by
          intro n hn
          dsimp only [z]
          split
          · rename_i h
            rw [shifted_bit _ _ _ hn]
            simp [show 8 * (pa % 4) ≤ n by omega]
          · rfl)
      rw [hz] at this
      exact this

/-- What a core sees of an address once its word is settled. -/
def State.settled (s : State) (core pa : Nat) : Byte := seen (((s.core core).word? (pa / 4)).map L1Word.settle) (s.sliceWord (pa / 4)) (pa % 4)

theorem settled_or (s : State) (core pa : Nat) : s.settled core pa = s.seeByte core pa ∨ s.settled core pa = s.byte pa := by
  rw [seeByte_seen (s := s) rfl, ← sliceWord_at s pa]
  exact seen_settle _ _ _ (by omega)

/-- What a write makes of memory, read by a function: some bytes, each from what it was. -/
structure Local (F : (Nat → Byte) → Nat → Byte) (ks : List Nat) : Prop where
  same : ∀ m m' j, m j = m' j → F m j = F m' j
  keep : ∀ m j, j ∉ ks → F m j = m j

/-- Bytes, or nibbles of bytes, have been written into an L1, in turn. -/
structure State.L1Wrote (s t : State) (core : Nat) (ks : List Nat) (F : (Nat → Byte) → Nat → Byte) : Prop where
  loc : Local F ks
  mem : t.mem = s.mem
  settled : ∀ j, t.settled core j = F (s.settled core) j
  sees : ∀ j, t.seeByte core j = if ks.any (fun k => k / 4 == j / 4) then t.settled core j else s.seeByte core j

theorem State.L1Wrote.nil (s : State) (core : Nat) : s.L1Wrote s core [] id :=
  ⟨⟨fun _ _ _ h => h, fun _ _ _ => rfl⟩, rfl, fun _ => rfl, fun _ => rfl⟩

theorem State.L1Wrote.append {s t u : State} {core : Nat} {a b : List Nat} {F G : (Nat → Byte) → Nat → Byte} (h : s.L1Wrote t core a F)
    (h' : t.L1Wrote u core b G) : s.L1Wrote u core (a ++ b) (fun m => G (F m)) := by
  refine ⟨⟨fun m m' j e => h'.loc.same _ _ _ (h.loc.same _ _ _ e), fun m j hj => ?_⟩, h'.mem.trans h.mem, fun j => ?_, fun j => ?_⟩
  · rw [List.mem_append] at hj
    rw [h'.loc.keep _ _ (fun e => hj (.inr e)), h.loc.keep _ _ (fun e => hj (.inl e))]
  · rw [h'.settled]; exact h'.loc.same _ _ _ (h.settled j)
  · rw [h'.sees, h.sees, List.any_append]
    cases hb : b.any (fun k => k / 4 == j / 4) with
    | true => simp
    | false =>
      have e : u.settled core j = t.settled core j := by
        rw [h'.settled]
        refine h'.loc.keep _ _ (fun e => ?_)
        rw [List.any_eq_false] at hb
        exact hb j e (by simp)
      cases a.any (fun k => k / 4 == j / 4) <;> simp [e]

theorem State.L1Wrote.of_eq {s t : State} {core : Nat} {ks : List Nat} {F G : (Nat → Byte) → Nat → Byte} (h : s.L1Wrote t core ks F)
    (e : ∀ m j, G m j = F m j) : s.L1Wrote t core ks G := by
  rw [show G = F from funext fun m => funext fun j => e m j]; exact h

/-- 20 R366: what is written into an L1 leaves to be seen. -/
theorem State.L1Wrote.seen {s t : State} {core : Nat} {ks : List Nat} {F : (Nat → Byte) → Nat → Byte} (h : s.L1Wrote t core ks F) :
    ∃ m : Nat → Byte, (∀ pa, m pa = s.seeByte core pa ∨ m pa = s.byte pa) ∧ ∀ pa, t.seeByte core pa = F m pa := by
  refine ⟨fun pa => if ks.any (fun k => k / 4 == pa / 4) then s.settled core pa else s.seeByte core pa, fun pa => ?_, fun pa => ?_⟩
  · dsimp only; split
    · exact settled_or ..
    · exact .inl rfl
  · rw [h.sees]
    cases hb : ks.any (fun k => k / 4 == pa / 4) with
    | true =>
      simp only [if_true]
      rw [h.settled]
      exact h.loc.same _ _ _ (by simp [hb])
    | false =>
      rw [h.loc.keep _ _ (fun e => by
        rw [List.any_eq_false] at hb
        exact hb pa e (by simp))]
      simp [hb]

theorem writeIn_local (ws : List (Nat × Byte)) : Local (fun m => writeIn m ws) (ws.map (·.1)) := by
  refine ⟨?_, fun m j hj => writeIn_ne m ws j (fun w hw e => hj (List.mem_map.2 ⟨w, hw, e⟩))⟩
  induction ws with
  | nil => exact fun m m' j h => h
  | cons w t ih => exact fun m m' j h => ih _ _ _ (by dsimp only; rw [h])

theorem tagGranule_fits {c : Core} {S : List Nat} (h : c.fits S) (g : Nat) (b : Bool) : (c.tagGranule g b).fits S := by
  refine ⟨h.size, fun w hw => ?_⟩
  obtain ⟨x, hx, e⟩ := List.mem_map.1 hw
  have : w.key = x.key := by rw [← e]; split <;> rfl
  rw [this]; exact h.held x hx

theorem writePart_fits {c : Core} {S : List Nat} (h : c.fits S) (part pa : Nat) (b : Byte) (nibs : BitVec 2) (hp : pa / 128 ∈ S) :
    (c.writePart part pa b nibs).fits S := by
  have hk : pa / 4 / 32 ∈ S := by rw [show pa / 4 / 32 = pa / 128 by omega]; exact hp
  unfold Core.writePart
  dsimp only
  split
  · rename_i w hw
    have hwk : w.key = pa / 4 := by have := List.find?_some hw; simpa using this
    exact fits_putWord h (by rw [hwk]; exact hk)
  · exact fits_putWord h hk

/-- 20 R366: a store of nibbles of a byte into an L1 with room for its line. -/
theorem part_wrote {s t : State} {core : Nat} {S : List Nat} (h : (s.core core).fits S) (part pa : Nat) (b : Byte) (nibs : BitVec 2) (hp : pa / 128 ∈ S)
    (hm : t.mem = s.mem) (hc : t.core core = ((s.core core).tagGranule (pa / 16) false).writePart part pa b nibs) :
    s.L1Wrote t core [pa] (fun m => writeIn m [(pa, partByte (m pa) b nibs)]) ∧ (t.core core).fits S := by
  refine ⟨⟨⟨fun m m' j e => ?_, fun m j hj => ?_⟩, hm, fun j => ?_, fun j => ?_⟩, by rw [hc]; exact writePart_fits (tagGranule_fits h _ _) _ _ _ _ hp⟩
  · show (if j = pa then _ else _) = (if j = pa then _ else _)
    by_cases hj : j = pa
    · subst hj; simp [e]
    · simp [hj, e]
  · show (if j = pa then _ else _) = _
    rw [if_neg (by simpa using hj)]
  · unfold State.settled
    rw [hc, State.sliceWord_of hm]
    obtain ⟨h1, w, hw, hk, hd, hs⟩ := writePart_word? ((s.core core).tagGranule (pa / 16) false) part pa b nibs (j / 4)
    show _ = (if j = pa then _ else _)
    by_cases hj : j / 4 = pa / 4
    · rw [hj, hw]
      simp only [Option.map_some, settle_settle w hd]
      rw [hs _ _ (by omega)]
      by_cases e : j = pa
      · subst e; simp only [if_true, word?_tagGranule, settle_tag]
      · have : ¬ j % 4 = pa % 4 := by omega
        rw [if_neg this, if_neg e, word?_tagGranule, settle_tag, ← hj]
    · have e : j ≠ pa := fun h => hj (by rw [h])
      rw [h1 hj, if_neg e, word?_tagGranule, settle_tag]
  · obtain ⟨h1, w, hw, hk, hd, hs⟩ := writePart_word? ((s.core core).tagGranule (pa / 16) false) part pa b nibs (j / 4)
    simp only [List.any_cons, List.any_nil, Bool.or_false, beq_iff_eq]
    by_cases hj : j / 4 = pa / 4
    · rw [if_pos hj.symm, seeByte_seen (s := s) hm]
      unfold State.settled
      rw [hc, State.sliceWord_of hm, hj, hw, Option.map_some, settle_settle w hd]
    · rw [if_neg (Ne.symm hj), seeByte_seen (s := s) hm, seeByte_seen (s := s) (t := s) rfl, hc, h1 hj, word?_tagGranule, seen_tag]

/-- 20 R366: a store of a byte into an L1 with room for its line. -/
theorem dirtyByte_wrote {s : State} {core : Nat} {S : List Nat} (h : (s.core core).fits S) (part pa : Nat) (b : Byte) (hp : pa / 128 ∈ S) :
    s.L1Wrote (s.dirtyByte core part pa b) core [pa] (fun m => writeIn m [(pa, b)]) ∧ ((s.dirtyByte core part pa b).core core).fits S := by
  unfold State.dirtyByte
  rw [l1Room_fits h hp]
  obtain ⟨h1, h2⟩ := part_wrote (t := s.modCore core fun c => (c.tagGranule (pa / 16) false).writeByte part pa b) h part pa b 3#2 hp rfl (core_modCore_self ..)
  exact ⟨h1.of_eq (fun m j => rfl), h2⟩

/-- 10 R236: a store of a nibble into an L1 with room for its line. -/
theorem dirtyNibble_wrote {s : State} {core : Nat} {S : List Nat} (h : (s.core core).fits S) (part pa : Nat) (hi : Bool) (n : Nat) (hp : pa / 128 ∈ S) :
    s.L1Wrote (s.dirtyNibble core part pa hi n) core [pa] (fun m => writeIn m [(pa, setNibble (m pa) hi n)]) ∧
      ((s.dirtyNibble core part pa hi n).core core).fits S := by
  unfold State.dirtyNibble
  rw [l1Room_fits h hp]
  obtain ⟨h1, h2⟩ := part_wrote (t := (s.modCore core fun c => (c.tagGranule (pa / 16) false).writePart part pa (BitVec.ofNat 8 (n % 16 * 17))
    (if hi then 2#2 else 1#2)).cancelResv [pa] 2 none) h part pa (BitVec.ofNat 8 (n % 16 * 17)) (if hi then 2#2 else 1#2) hp rfl
    (core_modCore_self s core fun c => (c.tagGranule (pa / 16) false).writePart part pa (BitVec.ofNat 8 (n % 16 * 17)) (if hi then 2#2 else 1#2))
  exact ⟨h1.of_eq (fun m j => by rw [setNibble_part]), h2⟩

theorem dirtyBytes_wrote {S : List Nat} {core : Nat} (part : Nat) (ws : List (Nat × Byte)) (but : Option (Nat × Nat)) (s : State)
    (h : (s.core core).fits S) (hp : ∀ w ∈ ws, w.1 / 128 ∈ S) :
    s.L1Wrote (s.dirtyBytes core part ws but) core (ws.map (·.1)) (fun m => writeIn m ws) ∧ ((s.dirtyBytes core part ws but).core core).fits S := by
  have key : ∀ (ws : List (Nat × Byte)) (s : State), (s.core core).fits S → (∀ w ∈ ws, w.1 / 128 ∈ S) →
      s.L1Wrote (ws.foldl (fun s w => s.dirtyByte core part w.1 w.2) s) core (ws.map (·.1)) (fun m => writeIn m ws) ∧
        ((ws.foldl (fun s w => s.dirtyByte core part w.1 w.2) s).core core).fits S := by
    intro ws
    induction ws with
    | nil => intro s h _; exact ⟨State.L1Wrote.nil s core, h⟩
    | cons w t ih =>
      intro s h hp
      obtain ⟨h1, h2⟩ := dirtyByte_wrote h part w.1 w.2 (hp w (by simp))
      obtain ⟨h3, h4⟩ := ih _ h2 (fun w hw => hp w (by simp [hw]))
      exact ⟨h1.append h3, h4⟩
  obtain ⟨h1, h2⟩ := key ws s h hp
  exact ⟨⟨h1.loc, h1.mem, fun j => h1.settled j, fun j => h1.sees j⟩, h2⟩

theorem writePlaces_l1 {S : List Nat} {ps : List Place} {q : Ptr} (h : ∀ p ∈ ps, ∃ pa va, p = .home pa va false false ∧ q.way false = .l1)
    (s : State) (c : Ctx) (but : Option (Nat × Nat)) (bs : List Byte) (hf : (s.core c.w.phys).fits S) (hS : ∀ p ∈ ps, p.key / 128 ∈ S) :
    (∃ ks, s.L1Wrote (s.writePlaces c q but (ps.zip bs)) c.w.phys ks (fun m => writeIn m ((ps.zip bs).map (fun w => (w.1.key, w.2))))) ∧
      ((s.writePlaces c q but (ps.zip bs)).core c.w.phys).fits S := by
  induction ps generalizing s bs with
  | nil => exact ⟨⟨_, State.L1Wrote.nil ..⟩, hf⟩
  | cons p t ih =>
    cases bs with
    | nil => exact ⟨⟨_, State.L1Wrote.nil ..⟩, hf⟩
    | cons b bs =>
      obtain ⟨pa, va, rfl, hq⟩ := h p (by simp)
      have e : s.writePlace c q but (.home pa va false false) b = s.dirtyBytes c.w.phys c.w.part [(pa, b)] but := by
        simp [State.writePlace, hq]
      obtain ⟨h1, h2⟩ := dirtyBytes_wrote c.w.part [(pa, b)] but s hf (fun w hw => by
        simp at hw; subst hw; exact hS _ (List.mem_cons_self))
      rw [← e] at h1 h2
      obtain ⟨⟨ks, h3⟩, h4⟩ := ih (fun p hp => h p (by simp [hp])) (s.writePlace c q but (.home pa va false false) b) bs h2
        (fun p hp => hS p (by simp [hp]))
      exact ⟨⟨_, h1.append h3⟩, h4⟩

theorem storeElem_l1 {S : List Nat} (c : Ctx) (e : StoreElem) (h1 : e.a.inL1) (s : State) (hf : (s.core c.w.phys).fits S)
    (hS : ∀ p ∈ e.a.places, p.key / 128 ∈ S) :
    (∃ ks, s.L1Wrote (s.storeElem c e) c.w.phys ks (fun m => e.writeIn m)) ∧ ((s.storeElem c e).core c.w.phys).fits S := by
  unfold State.storeElem StoreElem.writeIn
  by_cases hn : e.sp.nib < 2
  · simp only [if_pos hn]
    cases hp : (e.a.places.drop e.sp.first).head? with
    | none => exact ⟨⟨_, State.L1Wrote.nil ..⟩, hf⟩
    | some p =>
      have hm : p ∈ e.a.places := List.mem_of_mem_drop (List.mem_of_mem_head? hp)
      obtain ⟨pa, va, rfl, hq⟩ := h1 p hm
      obtain ⟨g1, g2⟩ := dirtyNibble_wrote hf c.w.part pa (e.sp.nib == 1) e.val (hS _ hm)
      have e' : s.writeNibble c e.a.q (.home pa va false false) (e.sp.nib == 1) e.val = s.dirtyNibble c.w.phys c.w.part pa (e.sp.nib == 1) e.val := by
        simp [State.writeNibble, hq]
      rw [← e'] at g1 g2
      exact ⟨⟨_, g1⟩, g2⟩
  · simp only [if_neg hn]
    exact writePlaces_l1 (q := e.a.q) (ps := (e.a.places.drop e.sp.first).take e.sp.count)
      (fun p hp => h1 p (List.mem_of_mem_drop (List.mem_of_mem_take hp))) s c none (bytesOfNat e.sp.count e.val) hf
      (fun p hp => hS p (List.mem_of_mem_drop (List.mem_of_mem_take hp)))

/-- 20 R366: the elements of a store, written into an L1 with room for their lines. -/
theorem storeElems_l1 {S : List Nat} (c : Ctx) (es : List StoreElem) (h : ∀ e ∈ es, e.a.inL1) (s : State)
    (hf : (s.core c.w.phys).fits S) (hS : ∀ e ∈ es, ∀ p ∈ e.a.places, p.key / 128 ∈ S) :
    ∃ ks, s.L1Wrote (es.foldl (fun s e => s.storeElem c e) s) c.w.phys ks (fun m => es.foldl StoreElem.writeIn m) := by
  induction es generalizing s with
  | nil => exact ⟨_, State.L1Wrote.nil ..⟩
  | cons e t ih =>
    obtain ⟨⟨ks, h1⟩, h2⟩ := storeElem_l1 c e (h e (by simp)) s hf (hS e (by simp))
    obtain ⟨ks', h3⟩ := ih (fun e he => h e (by simp [he])) (s.storeElem c e) h2 (fun e he => hS e (by simp [he]))
    exact ⟨_, h1.append h3⟩

end Sys2Proof.Machine
end

