-- ==== Sys2Proof/Laws/LaneAccess.lean ====
section
/-!
SUPPORT. Lemmas: lanes that load and store: pending loads, accesses of the scratchpad banks, served accesses (chapter 10).
-/
namespace Sys2Proof.Laws
open Sys2Proof.Machine

theorem splitLanes_nonempty {l : List (Except LaneTrap LaneAcc)} (h : l ≠ []) (h1 : (splitLanes l).1 = []) : (splitLanes l).2 ≠ [] := by
  cases l with
  | nil => exact absurd rfl h
  | cons a t =>
    unfold splitLanes at *
    simp only [List.foldr_cons] at *
    split at h1
    · simp at h1
    · simp

theorem acquireLanes_mem (s : State) (c : Ctx) (l : List LaneAcc) :
    (s.acquireLanes c l).mem = s.mem ∧ (s.acquireLanes c l).tags = s.tags ∧ (unsynced l → s.acquireLanes c l = s) := by
  unfold State.acquireLanes unsynced
  cases h : widestSync l with
  | none => simp
  | some n =>
    simp only [Option.getD_some]
    unfold State.acquireCore
    split
    · rename_i e; simp [e]
    · rename_i e
      dsimp only
      split <;> exact ⟨rfl, rfl, fun h => absurd h e⟩

theorem countUp_counted (g : Group) (k : Nat) (ops : List PendingOp) (rs : Assoc Reservation) : g.counted ({ (g.countUp k) with ops := ops, resv := rs } : Group) k := by
  intro j
  simp only [Group.flag, Group.countUp, assocGet_set]
  split <;> simp_all

def mkOp (c : Ctx) (x : Args) (t : State) (as : List LaneAcc) (es : List LoadElem) (ty : Nat) (mk : Nat → List LaneAcc → Packet → Packet) : PendingOp :=
  let far := es.filter (fun e => e.raw.isNone)
  let farLanes := as.filter (fun a => far.any (fun e => e.lane == a.lane))
  let r := t.sendLines c t.serial farLanes mk
  let vals := es.filterMap (fun e => e.raw.map (fun n => (e, loadValue c.fmode e.far.mfmt ty n)))
  let sc := match widestSync as with
    | some n => n + 1
    | none => 0
  { c.newOp x t.serial with
    vWrites := vals.flatMap (fun v => elemWrites ty v.1.reg v.1.lane v.2.1),
    fstat := orFlags (vals.map (·.2.2)), awaits := r.2, got := es.flatMap (·.here), elems := far.map (·.far),
    acq := if far.isEmpty then 0 else sc, tier2 := as.any (·.overLink) }

theorem pendLoad_eq (c : Ctx) (x : Args) (t : State) (as : List LaneAcc) (es : List LoadElem) (ty : Nat) (mk : Nat → List LaneAcc → Packet → Packet) :
    t.pendLoad c x as es ty mk =
      let far := es.filter (fun e => e.raw.isNone)
      let farLanes := as.filter (fun a => far.any (fun e => e.lane == a.lane))
      let s := (t.sendLines c t.serial farLanes mk).1.pend c (mkOp c x t as es ty mk)
      if far.isEmpty then s.acquireLanes c as else s := rfl

theorem pendLoad_carried {s t : State} {c : Ctx} (x : Args) (as : List LaneAcc) (es : List LoadElem) (ty : Nat)
    (mk : Nat → List LaneAcc → Packet → Packet) {F : Group → Group} (h : s.Carried c.g.gid F t) (hF : ∀ g, (F g).gid = g.gid) :
    let op := mkOp c x t as es ty mk
    s.Carried c.g.gid (fun g => { ((F g).countUp op.flag) with ops := (F g).ops ++ [op] }) (t.pendLoad c x as es ty mk) ∧
      (allHere as → (∀ e ∈ es, e.raw.isSome = true) → op.awaits = [] ∧ op.waitsEngine = false ∧ op.elems = [] ∧
        (t.pendLoad c x as es ty mk) = (t.pend c op).acquireLanes c as) := by
  intro op
  rw [pendLoad_eq]
  dsimp only
  constructor
  · have h1 := carried_calm h (fun G hG => sendLines_calm t c t.serial (as.filter (fun a => (es.filter (fun e => e.raw.isNone)).any (fun e => e.lane == a.lane))) mk hG)
    have h2 := pend_carried h1 hF op
    exact calm_ite (acquireLanes_calm _ _ _ h2) h2
  · intro ha he
    have hfar : es.filter (fun e => e.raw.isNone) = [] := by
      rw [List.filter_eq_nil_iff]; intro e hm; have := he e hm; cases hr : e.raw <;> simp_all
    have hn : (as.filter fun _ => false) = [] := by simp
    have hl : t.sendLines c t.serial [] mk = (t, []) := rfl
    refine ⟨?_, rfl, ?_, ?_⟩
    · show (t.sendLines _ _ _ _).2 = _
      rw [hfar]; simp only [List.any_nil]; rw [hn, hl]
    · show (es.filter (fun e => e.raw.isNone)).map _ = _
      rw [hfar]; rfl
    · rw [hfar]; simp only [List.any_nil]; rw [hn, hl]; rfl

theorem replay_prep {s t : State} {k : Nat} {F : Group → Group} (h : s.Carried k F t) {n : Nat} (hr : s.replayOf n = none) : t.replayOf n = none :=
  (carried_replayOf h n).trans hr

/-- a `touches` function followed by counting: the served group -/
theorem served_pending {s t : State} {c : Ctx} (hs : s.sees c) (x : Args) {F : Group → Group} (hT : touches F) (op : PendingOp)
    (hop : op.flag = c.flag x)
    (h : s.Carried c.g.gid (fun g => { ((F g).countUp op.flag) with ops := (F g).ops ++ [op] }) t) :
    ∃ g, s.Served (t.finish c x) c x g ∧ c.g.sameRegs g ∧ c.g.sameModes g ∧ c.g.counted g (c.flag x) ∧ g.ops = c.g.ops ++ [op] ∧
     ∃ g0, t.group? c.g.gid = some g0 ∧ g.resv = g0.resv := by
  obtain ⟨b, rfl⟩ := hT
  obtain ⟨g0, hg0, he, hS⟩ := served_of hs x h (fun _ => rfl) rfl
  refine ⟨_, hS, ?_⟩
  rw [he]
  refine ⟨⟨rfl, rfl, rfl, rfl⟩, ⟨rfl, rfl, rfl, rfl⟩, ?_, rfl, g0, hg0, rfl⟩
  rw [hop]
  intro j
  show assocGet 0 j (assocSet 0 (c.flag x) (assocGet 0 (c.flag x) c.g.flags + 1) c.g.flags) = _
  rw [assocGet_set]; unfold Group.flag
  split
  · rename_i e; rw [e]
  · rfl

theorem touches_gid {F : Group → Group} (h : touches F) : ∀ g, (F g).gid = g.gid := by
  obtain ⟨a, b, -, rfl⟩ := h; intro _; rfl

theorem filterMap_all {α β : Type} (l : List α) (f : α → Option β) (g : α → β) (h : ∀ a ∈ l, f a = some (g a)) : l.filterMap f = l.map g := by
  induction l with
  | nil => rfl
  | cons a t ih => simp [h a (by simp), ih (fun b hb => h b (by simp [hb]))]

theorem release_unsynced {s u : State} {c : Ctx} {l : List LaneAcc} (e : s.releaseLanes c l = .ok u) (h : unsynced l) : u = s := by
  unfold State.releaseLanes at e
  unfold unsynced at h
  split at e
  · cases e; rfl
  · rename_i sc hw
    rw [hw] at h
    simp only [Option.getD_some] at h
    subst h
    simp at e
    exact e.symm

theorem markDirty_parts {s : State} {c : Ctx} {vas : List Nat} (h : (s.partOf c.w.part).obs.ckt = 0) : s.markDirty c vas = s := by
  unfold State.markDirty; simp [h]

theorem vasOf_bank {l : List LaneAcc} (h : ∀ a ∈ l, a.inBank) : vasOf l = [] := by
  refine List.flatMap_eq_nil_iff.2 fun a ha => List.filterMap_eq_nil_iff.2 fun p hp => ?_
  obtain ⟨k, rfl⟩ := h a ha p hp
  rfl

theorem wordsOf_bank {l : List LaneAcc} (h : ∀ a ∈ l, a.inBank) (w : Way) : wordsOf l w = [] := by
  refine (congrArg uniq (List.flatMap_eq_nil_iff.2 fun a ha => List.filterMap_eq_nil_iff.2 fun p hp => ?_)).trans rfl
  obtain ⟨k, rfl⟩ := h a ha p hp
  rfl

theorem walkAll_bank {l : List LaneAcc} (h : ∀ a ∈ l, a.inBank) (s : State) (c : Ctx) (w : Bool) : s.walkAll c l w = s := by
  rw [walkAll_here (fun a ha => .inl (h a ha)), vasOf_bank h]; rfl

theorem prepWrite_bank {l : List LaneAcc} (h : ∀ a ∈ l, a.inBank) (s : State) (c : Ctx) : s.prepWrite c l = s := by
  unfold State.prepWrite
  rw [walkAll_bank h, wordsOf_bank h, vasOf_bank h]
  unfold State.noteLines State.markDirty
  simp only [List.isEmpty_nil, if_true]
  split <;> rfl

theorem allHere_bank {l : List LaneAcc} (h : ∀ a ∈ l, a.inBank) : allHere l := fun a ha => .inl (h a ha)

theorem partOf_ckt_walk {l : List LaneAcc} (h : allHere l) (s : State) (c : Ctx) :
    ∃ ps : List Partition, (s.walkAll c l true).parts = ps ∧ True := ⟨_, rfl, trivial⟩

theorem ckt_touches (s : State) (core : Nat) (p : Partition) (n : Nat) (vas : List Nat) :
    ((s.touches core p vas).partOf n).obs = (s.partOf n).obs := by
  have h1 : ∀ (s : State) f k, (∀ p : Partition, (f p).num = p.num ∧ (f p).obs = p.obs) → ((s.modPart k f).partOf n).obs = (s.partOf n).obs := by
    intro s f k hf
    unfold State.partOf State.part? State.modPart
    simp only
    generalize s.parts = l
    induction l with
    | nil => rfl
    | cons a t ih =>
      simp only [replaceBy]
      split
      · simp only [List.find?_cons, (hf a).1]
        split
        · exact (hf a).2
        · rfl
      · simp only [List.find?_cons]
        split
        · rfl
        · exact ih
  have h2 : ∀ (s : State) va, ((s.touch core p va).partOf n).obs = (s.partOf n).obs := by
    intro s va
    unfold State.touch
    split
    · rfl
    · unfold State.install
      split
      · dsimp only
        split
        · refine Eq.trans (h1 _ _ _ ?_) ?_
          · exact fun _ => ⟨rfl, rfl⟩
          · rfl
        · rfl
      · rfl
  unfold State.touches
  generalize uniq _ = l
  induction l generalizing s with
  | nil => rfl
  | cons a t ih => rw [List.foldl_cons, ih, h2]

theorem prepWrite_here {l : List LaneAcc} (h : allHere l) (s : State) (c : Ctx) (hk : (s.partOf c.w.part).obs.ckt = 0) :
    s.prepWrite c l = (s.walkAll c l true).noteLines c (wordsOf l .l1) := by
  unfold State.prepWrite
  refine markDirty_parts ?_
  have : ((s.walkAll c l true).noteLines c (wordsOf l .l1)).partOf c.w.part = (s.walkAll c l true).partOf c.w.part := by
    unfold State.noteLines; split <;> rfl
  rw [this, walkAll_here h, ckt_touches, hk]

theorem prepWrite_l1 {l : List LaneAcc} (h : allHere l) (s : State) (c : Ctx) (hk : (s.partOf c.w.part).obs.ckt = 0) :
    s.SameView (s.prepWrite c l) ∧ s.keepsKeys (s.prepWrite c l) := by
  rw [prepWrite_here h s c hk]
  refine ⟨(walkAll_sameView h s c true).trans (noteLines_sameView ..), ?_⟩
  rw [walkAll_here h]
  exact keepsKeys_trans (touches_keepsKeys ..) (noteLines_keepsKeys ..)

theorem served_plain {s t : State} {c : Ctx} (hs : s.sees c) (x : Args) {F : Group → Group} (hT : touches F) (f : FlagBits)
    (h : s.Carried c.g.gid (fun g => (F g).addFlags c.sp.half f) t) :
    ∃ g, s.Served (t.finish c x) c x g ∧ c.g.sameRegs g ∧ g.flags = c.g.flags ∧ g.ops = c.g.ops ∧ c.g.tookFlags g c.sp.half f := by
  obtain ⟨b, rfl⟩ := hT
  obtain ⟨g0, hg0, he, hS⟩ := served_of hs x h (fun _ => by unfold Group.addFlags; split <;> rfl) (by unfold Group.addFlags; split <;> rfl)
  refine ⟨_, hS, ?_⟩
  rw [he]
  refine ⟨⟨?_, ?_, ?_, ?_⟩, ?_, ?_, ?_⟩
  all_goals unfold Group.addFlags
  iterate 6 (split <;> rfl)
  unfold Group.tookFlags Ctx.after Group.modSplit
  cases c.sp.half <;> simp

theorem served_agenda {s t : State} {c : Ctx} {x : Args} {g : Group} (h : s.Served (t.finish c x) c x g) (ag : List Instr) :
    s.Served (({ t with agenda := ag } : State).finish c x) c x g := ⟨h.workgroups, h.others, h.group, h.passed, h.inside⟩

end Sys2Proof.Laws
end

