-- ==== Sys2Proof/Laws/CodeLines.lean ====
section
/-!
SUPPORT. Lemmas: instruction caches through releases (10 R246); lanes that pass their checks.
-/
namespace Sys2Proof.Laws
open Sys2Proof.Machine

structure SameCode (s t : State) : Prop where
  eq : ∀ k, (t.core k).icache = (s.core k).icache

theorem sc_refl (s : State) : SameCode s s := ⟨fun _ => rfl⟩

theorem sc_trans {s t u : State} (h : SameCode s t) (h' : SameCode t u) : SameCode s u := ⟨fun k => (h'.eq k).trans (h.eq k)⟩

theorem sc_fold {α : Type} {f : State → α → State} (hf : ∀ (s : State) (a : α), SameCode s (f s a)) (l : List α) (s : State) : SameCode s (l.foldl f s) := by
  induction l generalizing s with
  | nil => exact sc_refl s
  | cons a t ih => exact sc_trans (hf s a) (ih _)

theorem sc_modCore (s : State) (c : Nat) (f : Core → Core) (hf : ∀ x, (f x).icache = x.icache) : SameCode s (s.modCore c f) := by
  constructor; intro k; rw [State.core_modCore]; split <;> simp_all

theorem sc_same {s t : State} (h : t.cores = s.cores) : SameCode s t := by constructor; intro k; unfold State.core; rw [h]

theorem sc_dropLine (s : State) (core : Nat) (l : List Nat) : SameCode s (s.dropLineResv core l) := by
  unfold State.dropLineResv; split <;> exact sc_same rfl

theorem sc_recallLines (s : State) (holder lo n : Nat) (a b : Bool) : SameCode s (s.recallLines holder lo n a b) := by
  unfold State.recallLines
  split
  · exact sc_refl s
  · dsimp only
    refine sc_trans (t := s.cancelSlice holder lo n b) (sc_same rfl) ?_
    generalize hu : (if a = true then s.cancelSlice holder lo n b else _) = u
    have h1 : SameCode (s.cancelSlice holder lo n b) u := by
      rw [← hu]; split
      · exact sc_refl _
      · refine sc_fold (fun s kc => ?_) _ _
        split
        · exact sc_dropLine ..
        · exact sc_refl _
    refine sc_trans h1 ⟨fun k => ?_⟩
    simp only [State.core]
    induction u.cores with
    | nil => rfl
    | cons x t ih =>
      simp only [List.map_cons]
      split <;> simp only [assocGet] <;> split <;> first | rfl | exact ih

theorem sc_count (s : State) (d p : Nat) f : SameCode s (s.count d p f) := sc_same rfl

theorem sc_recallNode (s : State) (homeD holder : Nat) (n : Node) (b : Bool) : SameCode s (s.recallNode homeD holder n b) := by
  unfold State.recallNode; dsimp only
  split
  · exact sc_trans (sc_trans (sc_recallLines ..) (sc_count ..)) (sc_count ..)
  · exact sc_trans (sc_recallLines ..) (sc_count ..)

theorem sc_dir (s : State) (h : Nat) (own : Bool) (line : Nat) : SameCode s (s.dirRequest h own line) := by
  unfold State.dirRequest
  dsimp only
  generalize ((s.die (homeDie (line * 128))).node? line).getD ((s.die (homeDie (line * 128))).freshNode line) = n0
  generalize hsn : (if (n0.st != NodeState.u && n0.hold != holderBit h && (s.die (homeDie (line * 128))).splitEn &&
    decide (n0.size > 0)) = true then s.splitNode (homeDie (line * 128)) n0 line else (s, n0)) = sn
  have hs : SameCode s sn.1 := by
    rw [← hsn]; split
    · exact sc_same rfl
    · exact sc_refl s
  refine sc_trans hs ?_
  have put : ∀ (u : State) (p : Prop) [Decidable p] (f g : Die → Die), SameCode u (if p then u.modDie (homeDie (line * 128)) f else u.modDie (homeDie (line * 128)) g) := by
    intro u p _ f g; split <;> exact sc_same rfl
  split
  · exact put ..
  · exact put ..
  · exact put ..
  · exact put ..
  · split
    · exact sc_refl _
    · exact sc_trans (sc_fold (fun _ _ => sc_recallNode ..) _ _) (put ..)
  · split
    · exact sc_refl _
    · exact sc_trans (sc_fold (fun _ _ => sc_recallNode ..) _ _) (put ..)

theorem sc_own (s : State) (die line : Nat) : SameCode s (s.own die line) := by
  unfold State.own; split
  · exact sc_refl s
  · exact sc_dir ..

theorem sc_collect (s : State) (k : Nat) b : SameCode s (s.collect k b) := by
  unfold State.collect
  refine sc_fold (fun s a => sc_modCore s a _ ?_) _ _
  intro _; rfl

theorem foldl_icache {α : Type} {f : Core → α → Core} (hf : ∀ c a, (f c a).icache = c.icache) (l : List α) (c : Core) :
    (l.foldl f c).icache = c.icache := by
  induction l generalizing c with
  | nil => rfl
  | cons a t ih => rw [List.foldl_cons, ih, hf]

theorem sc_register (s : State) (core k : Nat) (e : Bool) : SameCode s (s.registerWord core k e) := by
  unfold State.registerWord
  split
  · exact sc_refl s
  · split
    · dsimp only
      rename_i w _ _
      generalize (s.core core).unitOf w = ws
      have h1 := sc_trans (sc_own s (coreDie core) (k / 32))
        (sc_fold (f := fun s (x : L1Word) => s.collect x.key (some core)) (fun _ _ => sc_collect ..) ws _)
      generalize List.foldl (fun (s : State) (x : L1Word) => s.collect x.key (some core)) _ ws = u at h1
      generalize List.flatMap _ ws = bs
      have h2 : SameCode s ((u.putBytes bs).cancelOthers core (bs.map (·.1))) := sc_trans h1 (sc_same rfl)
      generalize (u.putBytes bs).cancelOthers core (bs.map (·.1)) = u2 at h2
      have h3 : SameCode s (if w.tag = true then u2.tagKeys [4 * k] else u2) := by
        split
        · exact sc_trans h2 (sc_same rfl)
        · exact h2
      generalize (if w.tag = true then u2.tagKeys [4 * k] else u2) = u3 at h3
      split
      · exact sc_trans h3 (sc_modCore _ _ _ (fun c => foldl_icache (f := fun (c : Core) (x : L1Word) => c.dropWord x.key) (fun _ _ => rfl) ws c))
      · refine sc_trans (t := u3.modCore core _) (sc_trans h3 (sc_modCore _ core _ ?_)) (sc_count ..)
        intro c
        exact foldl_icache (f := fun (c : Core) (x : L1Word) => c.putWord { x with st := .registered }) (fun _ _ => rfl) ws c
    · split
      · exact sc_modCore _ _ _ (fun _ => rfl)
      · exact sc_refl s

theorem sc_releaseRange (s : State) (core : Nat) (p : Partition) (q : Ptr) (n : Nat) : SameCode s (s.releaseRange core p q n) := by
  unfold State.releaseRange
  split
  · exact sc_refl s
  · unfold State.releaseWhere; exact sc_fold (fun _ _ => sc_register ..) _ _

theorem finish_cores (s : State) (c : Ctx) (x : Args) : (s.finish c x).cores = s.cores := rfl

theorem coresWithin_nodup (n core : Nat) : (coresWithin n core).Nodup := by
  unfold coresWithin allCores
  exact List.filter_sublist.nodup List.nodup_range

theorem codeOverlaps_modCore (s : State) (k : Nat) (f : Core → Core) (p : Partition) (q : Ptr) (l : ILine) :
   (s.modCore k f).codeOverlaps p q l = s.codeOverlaps p q l := by
  have hw : ∀ (n va t : Nat), (s.modCore k f).walkFrom p va n t = s.walkFrom p va n t := by
    intro n
    induction n with
    | zero => intro va t; rfl
    | succ n ih => intro va t; simp only [State.walkFrom, show ∀ a b, (s.modCore k f).num a b = s.num a b from fun _ _ => rfl, ih]
  have hr : ∀ (n lo m pa t va : Nat), (s.modCore k f).rangeMaps p lo m pa n t va = s.rangeMaps p lo m pa n t va := by
    intro n
    induction n with
    | zero => intros; rfl
    | succ n ih => intros; simp only [State.rangeMaps, show ∀ a b, (s.modCore k f).num a b = s.num a b from fun _ _ => rfl, ih]
  have hi : ∀ k', (s.modCore k f).inRange p q k' = s.inRange p q k' := by
    intro k'; unfold State.inRange; simp only [hr]
  unfold State.codeOverlaps
  simp only [hw, hi]

theorem codeOverlaps_groups (s : State) (gs : List Group) (p : Partition) (q : Ptr) (l : ILine) :
   ({ s with groups := gs } : State).codeOverlaps p q l = s.codeOverlaps p q l := by
  have hw : ∀ (n va t : Nat), ({ s with groups := gs } : State).walkFrom p va n t = s.walkFrom p va n t := by
    intro n
    induction n with
    | zero => intro va t; rfl
    | succ n ih => intro va t; simp only [State.walkFrom, show ∀ a b, ({ s with groups := gs } : State).num a b = s.num a b from fun _ _ => rfl, ih]
  have hr : ∀ (n lo m pa t va : Nat), ({ s with groups := gs } : State).rangeMaps p lo m pa n t va = s.rangeMaps p lo m pa n t va := by
    intro n
    induction n with
    | zero => intros; rfl
    | succ n ih => intros; simp only [State.rangeMaps, show ∀ a b, ({ s with groups := gs } : State).num a b = s.num a b from fun _ _ => rfl, ih]
  have hi : ∀ k', ({ s with groups := gs } : State).inRange p q k' = s.inRange p q k' := by
    intro k'; unfold State.inRange; simp only [hr]
  unfold State.codeOverlaps
  simp only [hw, hi]

theorem discard_overlaps (s : State) (p : Partition) (q : Ptr) (k : Nat) (p' : Partition) (q' : Ptr) (l : ILine) :
    (s.discardCode p q k).codeOverlaps p' q' l = s.codeOverlaps p' q' l := by
  unfold State.discardCode
  dsimp only
  rw [codeOverlaps_groups]
  split
  · rfl
  · exact codeOverlaps_modCore ..

theorem discard_icache (s : State) (p : Partition) (q : Ptr) (k j : Nat) :
    ((s.discardCode p q k).core j).icache = if j = k then (s.core k).icache.filter (fun l => !s.codeOverlaps p q l) else (s.core j).icache := by
  have e : (s.discardCode p q k).core j = (if (s.core k).icache.isEmpty then s
      else s.modCore k (fun core => { core with icache := core.icache.filter (fun l => !s.codeOverlaps p q l) })).core j := rfl
  rw [e]
  split
  · rename_i he
    have : (s.core k).icache = [] := by simpa using he
    by_cases hj : j = k
    · subst hj; simp [this]
    · simp [hj]
  · rw [State.core_modCore]; split <;> rfl

/-- 10 R246: the instruction caches after the code of some cores has been discarded. -/
theorem discards_icache (p : Partition) (q : Ptr) (ks : List Nat) (hn : ks.Nodup) (s : State) (k : Nat) :
    ((ks.foldl (fun (s : State) k => s.discardCode p q k) s).core k).icache =
      if k ∈ ks then (s.core k).icache.filter (fun l => !s.codeOverlaps p q l) else (s.core k).icache := by
  induction ks generalizing s with
  | nil => simp
  | cons a t ih =>
    rw [List.foldl_cons, ih (List.nodup_cons.1 hn).2]
    have ha := (List.nodup_cons.1 hn).1
    simp only [discard_overlaps, discard_icache]
    by_cases hk : k = a
    · subst hk; simp [ha]
    · simp [hk]

/-- 06 R115: of the groups nothing has gone but clauses fetched and not started. -/
def Trimmed (s t : State) : Prop :=
  ∃ f : Group → Split → Split, (∀ g (sp : Split), sp.discarded (f g sp)) ∧
    t.groups = s.groups.map (fun g => { g with splits := g.splits.map (f g) })

theorem map_splits_id (g : Group) : ({ g with splits := g.splits.map (fun sp => sp) } : Group) = g := by simp

theorem trimmed_refl {s t : State} (h : t.groups = s.groups) : Trimmed s t :=
  ⟨fun _ sp => sp, fun _ sp => .inl rfl, by rw [h]; exact (List.map_id'' (fun g => map_splits_id g) _).symm⟩

theorem discarded_trans {a b c : Split} (h : a.discarded b) (h' : b.discarded c) : a.discarded c := by
  rcases h with rfl | ⟨h1, rfl⟩
  · exact h'
  · rcases h' with rfl | ⟨-, rfl⟩ <;> exact .inr ⟨h1, rfl⟩

theorem trimmed_trans {s t u : State} (h : Trimmed s t) (h' : Trimmed t u) : Trimmed s u := by
  obtain ⟨f, hf, e⟩ := h
  obtain ⟨f', hf', e'⟩ := h'
  refine ⟨fun g sp => f' { g with splits := g.splits.map (f g) } (f g sp), fun g sp => discarded_trans (hf g sp) (hf' _ _), ?_⟩
  rw [e', e, List.map_map]
  refine List.map_congr_left (fun g _ => ?_)
  simp [Function.comp_def]

theorem discard_trimmed (s : State) (p : Partition) (q : Ptr) (k : Nat) :
    Trimmed s (s.discardCode p q k) ∧ (s.discardCode p q k).wgs = s.wgs ∧ (s.discardCode p q k).parts = s.parts := by
  unfold State.discardCode
  dsimp only
  generalize hu : (if (s.core k).icache.isEmpty = true then s else _) = u
  have hg : u.groups = s.groups ∧ u.wgs = s.wgs ∧ u.parts = s.parts := by rw [← hu]; split <;> exact ⟨rfl, rfl, rfl⟩
  refine ⟨trimmed_trans (trimmed_refl hg.1) ⟨fun g sp => match u.wg? g.wgKey with
    | some w => if w.part == p.num && w.phys == k && w.onCore && g.splits.any (u.clauseOverlaps p w g q) then
        (if u.clauseOverlaps p w g q sp then { sp with clause := [] } else sp) else sp
    | none => sp, fun g sp => ?_, List.map_congr_left (fun g _ => ?_)⟩, hg.2⟩
  · dsimp only
    split
    · split
      · split
        · rename_i h
          refine .inr ⟨?_, rfl⟩
          unfold State.clauseOverlaps at h
          simp only [Bool.and_eq_true] at h
          simpa using h.1.2
        · exact .inl rfl
      · exact .inl rfl
    · exact .inl rfl
  · dsimp only
    cases hw : u.wg? g.wgKey with
    | none => dsimp only; exact (map_splits_id g).symm
    | some w =>
      dsimp only
      by_cases hc : (w.part == p.num && w.phys == k && w.onCore && g.splits.any (u.clauseOverlaps p w g q)) = true
      · simp only [hc, if_true]
      · simp only [hc, Bool.false_eq_true, if_false]; exact (map_splits_id g).symm

theorem discards_trimmed (p : Partition) (q : Ptr) (ks : List Nat) (s : State) :
    Trimmed s (ks.foldl (fun (s : State) k => s.discardCode p q k) s) ∧
      (ks.foldl (fun (s : State) k => s.discardCode p q k) s).wgs = s.wgs := by
  induction ks generalizing s with
  | nil => exact ⟨trimmed_refl rfl, rfl⟩
  | cons a t ih =>
    obtain ⟨h1, h2, -⟩ := discard_trimmed s p q a
    obtain ⟨h3, h4⟩ := ih (s.discardCode p q a)
    exact ⟨trimmed_trans h1 h3, h4.trans h2⟩

theorem splitLanes_all {l : List (Except LaneTrap LaneAcc)} (h : (splitLanes l).1 = []) : l = (splitLanes l).2.map .ok := by
  induction l with
  | nil => rfl
  | cons a t ih =>
    cases a with
    | error t' => exact absurd (show t' :: (splitLanes t).1 = [] from h) (by simp)
    | ok a =>
      show _ = List.map Except.ok (a :: (splitLanes t).2)
      rw [List.map_cons, ← ih h]

theorem checkLane_ok {s : State} {c : Ctx} {a : Access} {f : Ptr → Bool} {m : Ptr → Nat → Option Nat} {k : Ask} {r : LaneAcc}
    (h : s.checkLane c a f m k = .ok r) : r.lane = k.lane ∧ r.q = k.q ∧ r.off = k.off ∧ k.q.check c.core c.w.gangSize k.off k.n a (f k.q) = none ∧
      m k.q (k.q.addrOf k.off).addr = none ∧ s.placesFrom c.w k.q k.off k.n (useOf k.q a) = .ok r.places := by
  unfold State.checkLane at h
  split at h
  · cases h
  · split at h
    · cases h
    · dsimp only at h
      split at h
      · cases h
      · split at h
        · cases h
        · cases h; exact ⟨rfl, rfl, rfl, by assumption, by assumption, by assumption⟩

theorem lanes_of_split {act : List Nat} {f : Nat → Except LaneTrap LaneAcc} (hf : ∀ l a, f l = .ok a → a.lane = l)
    (h : (splitLanes (act.map f)).1 = []) : (splitLanes (act.map f)).2.map (·.lane) = act ∧
      ∀ a ∈ (splitLanes (act.map f)).2, a.lane ∈ act ∧ f a.lane = .ok a := by
  have e := splitLanes_all h
  generalize (splitLanes (act.map f)).2 = r at e
  induction act generalizing r with
  | nil => cases r with
    | nil => simp
    | cons a t => simp at e
  | cons l t ih =>
    cases r with
    | nil => simp at e
    | cons a r =>
      simp only [List.map_cons, List.cons.injEq] at e
      have hl := hf l a e.1
      have hft : (splitLanes (t.map f)).1 = [] := by
        rw [e.2]
        have : ∀ r : List LaneAcc, (splitLanes (r.map .ok)).1 = [] := by
          intro r
          induction r with
          | nil => rfl
          | cons a t ih => exact ih
        exact this r
      obtain ⟨i1, i2⟩ := ih hft r e.2
      refine ⟨by rw [List.map_cons, hl, i1], ?_⟩
      intro b hb
      rcases List.mem_cons.1 hb with rfl | hb
      · rw [hl]; exact ⟨by simp, e.1⟩
      · obtain ⟨j1, j2⟩ := i2 b hb
        exact ⟨by simp [j1], j2⟩

theorem placesFrom_bank {s : State} {w : Workgroup} {q : Ptr} {u : Use} (hq : q.space = 1 ∨ q.space = 2 ∨ q.space = 3) :
    ∀ (n off : Nat) (l : List Place), s.placesFrom w q off n u = .ok l → ∀ p ∈ l, ∃ k, p = .fixed k := by
  intro n
  induction n with
  | zero => intro off l h; simp [State.placesFrom] at h; subst h; simp
  | succ n ih =>
    intro off l h
    unfold State.placesFrom at h
    split at h
    · cases h
    · rename_i p hp
      split at h
      · cases h
      · rename_i l' hl
        cases h
        intro p' hp'
        rcases List.mem_cons.1 hp' with rfl | hp'
        · unfold State.placeAt at hp
          rcases hq with e | e | e <;> simp [e] at hp <;> exact ⟨_, hp.symm⟩
        · exact ih _ _ hl p' hp'

theorem check_fmt {q : Ptr} {core gs off n : Nat} {a : Access} {b : Bool} (h : q.check core gs off n a b = none) : b = true := by
  cases b with
  | true => rfl
  | false =>
    unfold Ptr.check at h
    split at h <;> simp at h

end Sys2Proof.Laws
end

