-- ==== Sys2Proof/Laws/Granules.lean ====
section
/-!
SUPPORT. Lemmas: pointer granules and tags (10 R237, R238; 02 R28).
-/
namespace Sys2Proof.Laws
open Sys2Proof.Machine

theorem prepRead_bank {l : List LaneAcc} (h : ∀ a ∈ l, a.inBank) (s : State) (c : Ctx) : s.prepRead c l = s := by
  unfold State.prepRead
  rw [walkAll_bank h, wordsOf_bank h, wordsOf_bank h, wordsOf_bank h]
  unfold State.noteLines State.sliceRead
  simp only [List.isEmpty_nil, if_true, List.foldl_nil, farWordsOf_here (allHere_bank h)]

theorem fillGranule_calm {G : Placed} (s : State) (core part k : Nat) (h : s.Calm G) : (s.fillGranule core part k).Calm G := by
  unfold State.fillGranule
  refine calm_foldl (fun s k h => ?_) _ h
  split
  · exact State.fillWord_calm _ _ _ _ _ h
  · split
    · exact State.fillWord_calm _ _ _ _ _ h
    · exact State.modCore_calm _ _ _ h

theorem pairLanes_ne {s : State} {c : Ctx} {x : Args} {q : Bool} {act : List Nat} {a : Access} {m : Nat → Option Nat} (h : act ≠ [])
   (h1 : (c.pairLanes s x q act a m).1 = []) : (c.pairLanes s x q act a m).2 ≠ [] := by
  unfold Ctx.pairLanes at *
  dsimp only at *
  cases q
  · simp only [Bool.false_eq_true, if_false] at *
    refine splitLanes_nonempty ?_ ?_
    · cases act <;> simp_all
    · rw [List.flatMap_eq_nil_iff] at h1
      rw [List.eq_nil_iff_forall_not_mem]
      intro t ht
      have := h1 t ht
      rw [List.map_eq_nil_iff] at this; exact h this
  · simp only [if_true] at *
    exact splitLanes_nonempty (by simpa using h) h1

theorem storeBytes_byte (s : State) (k : Nat) (bs : List Byte) (j : Nat) :
    (s.storeBytes k bs).byte j = writeIn s.byte (((List.range bs.length).zip bs).map (fun b => (k + b.1, b.2))) j := store_byte ..

theorem store_tags (s : State) (ws : List (Nat × Byte)) (but : Option (Nat × Nat)) (n : Nat) :
    n ∈ (s.store ws but).tags ↔ n ∈ s.tags ∧ ∀ w ∈ ws, w.1 / 16 ≠ n := by
  unfold State.store
  split
  · rename_i h
    have : ws = [] := by simpa using h
    subst this; simp
  · show n ∈ tagsAfter (ws.map (·.1)) s.tags ↔ _
    unfold tagsAfter
    split
    · rename_i h
      have : s.tags = [] := by simpa using h
      rw [this]; simp
    · rw [List.mem_filter]
      simp only [Bool.not_eq_true', List.any_eq_false, beq_iff_eq, List.mem_map]
      constructor
      · rintro ⟨h1, h2⟩; exact ⟨h1, fun w hw => h2 _ ⟨w, hw, rfl⟩⟩
      · rintro ⟨h1, h2⟩; refine ⟨h1, ?_⟩; rintro x ⟨w, hw, rfl⟩; exact h2 w hw

theorem bytesOfNat_length (n x : Nat) : (bytesOfNat n x).length = n := by
  induction n generalizing x with
  | zero => rfl
  | succ n ih => simp [bytesOfNat, ih]

theorem storePtr_tags (s : State) (k : Nat) (q : PtrBits) (hk : k % 16 = 0) (n : Nat) : n ∈ (s.storePtr k q).tags ↔ n ∈ s.tags ∨ n = k / 16 := by
  unfold State.storePtr
  dsimp only
  rw [mem_setAdd]
  unfold State.storeBytes
  rw [store_tags]
  by_cases hn : n = k / 16
  · simp [hn]
  · simp only [hn, false_or, or_false, and_iff_left_iff_imp]
    intro _ w hw
    simp only [List.mem_map] at hw
    obtain ⟨b, hb, rfl⟩ := hw
    have := (List.of_mem_zip hb).1
    rw [bytesOfNat_length] at this
    have := List.mem_range.1 this
    show (k + b.1) / 16 ≠ n
    omega

theorem place_key {s : State} {w : Workgroup} {q : Ptr} {off : Nat} {u : Use} {k : Nat} (h : s.placeAt w q off u = .ok (.fixed k)) :
    k % 16 = (q.addrOf off).addr % 16 := by
  unfold State.placeAt at h
  dsimp only at h
  split at h
  · cases h; unfold scratchKey; omega
  · cases h; unfold scratchKey; omega
  · cases h; unfold carveKey; omega
  · unfold State.placeVa at h
    dsimp only at h
    split at h
    · cases h
    · split at h
      · cases h
      · split at h
        · cases h
        · split at h <;> cases h

theorem check_align {q : Ptr} {core gs off n : Nat} {a : Access} {b : Bool} (ha : a = .ldp ∨ a = .stp) (h : q.check core gs off n a b = none) :
    (q.addrOf off).addr % 16 = 0 := by
  have hA : (a == .ldp || a == .stp) = true := by rcases ha with rfl | rfl <;> rfl
  unfold Ptr.check at h
  simp only [hA, Bool.true_and] at h
  iterate 6
    split at h
    · cases h
  split at h
  · cases h
  · rename_i e; simpa using e

theorem pairLanes_mem {s : State} {c : Ctx} {x : Args} {q : Bool} {act : List Nat} {a : Access} {m : Nat → Option Nat} {r : LaneAcc}
    (h1 : (c.pairLanes s x q act a m).1 = []) (hact : act ≠ []) (h : r ∈ (c.pairLanes s x q act a m).2) :
    ∃ l, s.checkLane c a (fun p => p.fmt == 0x20) (fun p addr => (noDevice p addr).orElse (fun _ => m l))
      (c.laneAsk x (decide (x.mod.toNat ≥ 16)) l (c.offset x l) 16) = .ok r := by
  unfold Ctx.pairLanes at h h1
  dsimp only at h h1
  have key : ∀ act : List Nat, (splitLanes (act.map (fun l => s.checkLane c a (fun p => p.fmt == 0x20) (fun p addr => (noDevice p addr).orElse (fun _ => m l))
      (c.laneAsk x (decide (x.mod.toNat ≥ 16)) l (c.offset x l) 16)))).1 = [] →
      r ∈ (splitLanes (act.map (fun l => s.checkLane c a (fun p => p.fmt == 0x20) (fun p addr => (noDevice p addr).orElse (fun _ => m l))
      (c.laneAsk x (decide (x.mod.toNat ≥ 16)) l (c.offset x l) 16)))).2 → ∃ l, s.checkLane c a (fun p => p.fmt == 0x20) (fun p addr => (noDevice p addr).orElse (fun _ => m l))
      (c.laneAsk x (decide (x.mod.toNat ≥ 16)) l (c.offset x l) 16) = .ok r := by
    intro act h1 h
    have := splitLanes_all h1
    have hm : Except.ok r ∈ (act.map (fun l => s.checkLane c a (fun p => p.fmt == 0x20) (fun p addr => (noDevice p addr).orElse (fun _ => m l))
      (c.laneAsk x (decide (x.mod.toNat ≥ 16)) l (c.offset x l) 16))) := by
      rw [this]; exact List.mem_map_of_mem h
    obtain ⟨l, -, hl⟩ := List.mem_map.1 hm
    exact ⟨l, hl⟩
  cases q
  · simp only [Bool.false_eq_true, if_false] at h h1
    refine key _ ?_ h
    rw [List.flatMap_eq_nil_iff] at h1
    rw [List.eq_nil_iff_forall_not_mem]
    intro t ht
    have := h1 t ht
    rw [List.map_eq_nil_iff] at this; exact hact this
  · simp only [if_true] at h h1
    exact key _ h1 h

end Sys2Proof.Laws
end

