-- ==== Sys2Proof/Laws/Reservations.lean ====
section
/-!
SUPPORT. Lemmas: reservations of lanes (10 R241 to R243).
-/
namespace Sys2Proof.Machine

/-- The groups, each with the lanes that hold a reservation in it. -/
def State.resvLists (s : State) : List (Nat × List Nat) := s.groups.map (fun g => (g.gid, g.resv.map (·.1)))

end Sys2Proof.Machine

namespace Sys2Proof.Laws
open Sys2Proof.Machine

theorem putResv_find (g : Group) (l : Nat) (r : Option Reservation) (k : Nat) :
    ((g.putResv l r).resv.find? (fun kv => kv.1 == k)).map (·.2) = if k = l then r else (g.resv.find? (fun kv => kv.1 == k)).map (·.2) := by
  unfold Group.putResv
  dsimp only
  have hrest : (g.resv.filter (fun kv => kv.1 != l)).find? (fun kv => kv.1 == k) = if k = l then none else g.resv.find? (fun kv => kv.1 == k) := by
    rw [List.find?_filter]
    by_cases h : k = l
    · subst h; simp
    · simp only [h, if_false]
      congr 1; funext x
      by_cases hx : x.1 = k <;> simp [hx, h]
  cases r with
  | none => dsimp only; rw [hrest]; split <;> rfl
  | some r =>
    dsimp only
    rw [find?_insertBy]
    · by_cases h : k = l
      · simp [h]
      · simp only [beq_iff_eq, Ne.symm h, if_false, hrest, h]
    · intro y hy hp hne; simp only [beq_iff_eq] at hp; simpa [← hp] using Ne.symm hne
    · intro y hy; simpa using (List.mem_filter.1 hy).2

theorem putResv_none (g : Group) (l : Nat) : ∀ kv ∈ (g.putResv l none).resv, kv ∈ g.resv ∧ kv.1 ≠ l := by
  intro kv h
  have := List.mem_filter.1 h
  exact ⟨this.1, by simpa using this.2⟩

theorem putResv_frame (g : Group) (l : Nat) (r : Option Reservation) : g.putResv l r = { g with resv := (g.putResv l r).resv } := rfl

theorem putResvs_frame (l : List LaneAcc) (g : Group) :
    l.foldl (fun g a => g.putResv a.lane (some a.resv)) g = { g with resv := (l.foldl (fun g a => g.putResv a.lane (some a.resv)) g).resv } := by
  induction l generalizing g with
  | nil => rfl
  | cons a t ih => rw [List.foldl_cons, ih]; rfl

theorem putResvs_find (l : List LaneAcc) (hn : (l.map (·.lane)).Nodup) (g : Group) : ∀ a ∈ l,
    ((l.foldl (fun g a => g.putResv a.lane (some a.resv)) g).resv.find? (fun kv => kv.1 == a.lane)).map (·.2) = some a.resv := by
  have out : ∀ (l : List LaneAcc) (g : Group) (k : Nat), (∀ a ∈ l, a.lane ≠ k) →
      ((l.foldl (fun g a => g.putResv a.lane (some a.resv)) g).resv.find? (fun kv => kv.1 == k)).map (·.2) = (g.resv.find? (fun kv => kv.1 == k)).map (·.2) := by
    intro l
    induction l with
    | nil => intros; rfl
    | cons a t ih =>
      intro g k h
      rw [List.foldl_cons, ih _ _ (fun b hb => h b (by simp [hb])), putResv_find, if_neg (Ne.symm (h a (by simp)))]
  induction l generalizing g with
  | nil => simp
  | cons a t ih =>
    intro b hb
    rw [List.foldl_cons]
    simp only [List.map_cons, List.nodup_cons] at hn
    rcases List.mem_cons.1 hb with rfl | hb
    · rw [out]
      · rw [putResv_find]; simp
      · intro c hc e; exact hn.1 (by rw [← e]; exact List.mem_map_of_mem hc)
    · exact ih hn.2 _ b hb

theorem lanesOf_nodup (m : LaneMask) : (lanesOf m).Nodup := by
  unfold lanesOf; exact List.filter_sublist.nodup List.nodup_range

theorem active_nodup (c : Ctx) (x : Args) : (c.active x).Nodup := by
  unfold Ctx.active; exact List.filter_sublist.nodup (lanesOf_nodup _)

theorem foldl_fst_groups {α β : Type} {f : State × β → α → State × β} (hf : ∀ p a, (f p a).1.groups = p.1.groups) (l : List α) (p : State × β) :
    (l.foldl f p).1.groups = p.1.groups := by
  induction l generalizing p with
  | nil => rfl
  | cons a t ih => rw [List.foldl_cons, ih, hf]

theorem sendLines_groups (s : State) (c : Ctx) (n : Nat) (l : List LaneAcc) mk : (s.sendLines c n l mk).1.groups = s.groups := by
  unfold State.sendLines
  refine foldl_fst_groups (fun p a => ?_) _ _
  dsimp only; unfold State.sendWrite State.send State.dropFar; split <;> rfl

theorem acquireLanes_groups (s : State) (c : Ctx) (l : List LaneAcc) : (s.acquireLanes c l).groups = s.groups := by
  unfold State.acquireLanes
  split
  · unfold State.acquireCore
    split
    · rfl
    · dsimp only; split <;> rfl
  · rfl

theorem logElems_groups {s : State} {c : Ctx} (h : s.replayOf c.w.part = none) (kind : Nat) (l : List (LaneAcc × Nat × Nat)) :
    (s.logElems c kind l).groups = s.groups := by
  obtain ⟨ps, e, -⟩ := logElems_parts h kind l
  rw [e]

theorem placesFrom_length {s : State} {w : Workgroup} {q : Ptr} {u : Use} :
    ∀ (n off : Nat) (l : List Place), s.placesFrom w q off n u = .ok l → l.length = n := by
  intro n
  induction n with
  | zero => intro off l h; simp [State.placesFrom] at h; subst h; rfl
  | succ n ih =>
    intro off l h
    unfold State.placesFrom at h
    split at h
    · cases h
    · split at h
      · cases h
      · rename_i l' hl
        injection h with h
        subst h
        simp [ih _ _ hl]

theorem resvLanes_mem {s : State} {c : Ctx} {x : Args} {act : List Nat} (h1 : (c.resvLanes s x act).1 = []) :
    (c.resvLanes s x act).2.map (·.lane) = act ∧ ∀ a ∈ (c.resvLanes s x act).2, a.places.length = fmtWidth x.c.toNat / 8 := by
  unfold Ctx.resvLanes at *
  dsimp only at *
  have hl : ∀ l, (c.laneAsk x false l (c.offset x l) (fmtWidth x.c.toNat / 8)).lane = l ∧ (c.laneAsk x false l (c.offset x l) (fmtWidth x.c.toNat / 8)).n = fmtWidth x.c.toNat / 8 := by
    intro l; unfold Ctx.laneAsk; split <;> exact ⟨rfl, rfl⟩
  obtain ⟨e1, e2⟩ := lanes_of_split (fun l a h => by have := (checkLane_ok h).1; rw [this, (hl l).1]) h1
  refine ⟨e1, fun a ha => ?_⟩
  obtain ⟨-, -, -, -, -, k6⟩ := checkLane_ok (e2 a ha).2
  rw [placesFrom_length _ _ _ k6, (hl _).2]

def resvsOf (l : List LaneAcc) (g : Group) : Assoc Reservation := (l.foldl (fun g a => g.putResv a.lane (some a.resv)) g).resv

theorem putResvs_eq (l : List LaneAcc) (g : Group) : l.foldl (fun g a => g.putResv a.lane (some a.resv)) g = { g with resv := resvsOf l g } := putResvs_frame l g

theorem putResvs_unlooking (l : List LaneAcc) : unlooking (fun g => l.foldl (fun g a => g.putResv a.lane (some a.resv)) g) := by
  intro g
  dsimp only
  rw [putResvs_eq, putResvs_eq l g.bare]
  rfl

theorem spanBits_plain (z : Nat) (bs : List Byte) : spanBits ⟨0, z, 2⟩ bs = natOfBytes bs := rfl

def resvKeys (s : State) (k : Nat) : Option (List Nat) := (s.group? k).map (fun g => g.resv.map (·.1))

theorem cancelResv_keys (g : Group) (ks : List Nat) (st : Nat) (but : Option (Nat × Nat)) : (g.cancelResv ks st but).resv.map (·.1) = g.resv.map (·.1) := by
  unfold Group.cancelResv
  split
  · rfl
  · show (g.resv.map _).map _ = _
    rw [List.map_map]
    refine List.map_congr_left (fun kv _ => ?_)
    simp only [Function.comp]; split <;> rfl

theorem cancelResv_gid (g : Group) (ks : List Nat) (st : Nat) (but : Option (Nat × Nat)) : (g.cancelResv ks st but).gid = g.gid := by
  unfold Group.cancelResv; split <;> rfl

theorem group?_map (s : State) (f : Group → Group) (hf : ∀ g, (f g).gid = g.gid) (k : Nat) :
    ({ s with groups := s.groups.map f } : State).group? k = (s.group? k).map f := by
  unfold State.group?
  dsimp only
  rw [List.find?_map]
  congr 1
  congr 1; funext g; simp [hf]

theorem resvKeys_cancel (s : State) ks st but (k : Nat) : resvKeys (s.cancelResv ks st but) k = resvKeys s k := by
  have := group?_map s (fun g => g.cancelResv ks st but) (fun g => cancelResv_gid ..) k
  have e : (s.cancelResv ks st but).group? k = (s.group? k).map (fun g => g.cancelResv ks st but) := this
  unfold resvKeys
  rw [e, Option.map_map]
  congr 1; funext g; exact cancelResv_keys ..

theorem resvKeys_lists {s t : State} (h : t.resvLists = s.resvLists) (k : Nat) : resvKeys t k = resvKeys s k := by
  have key : ∀ l : List Group, ((l : List Group).find? (fun g => g.gid == k)).map (fun g => g.resv.map (·.1)) =
      ((l.map (fun g : Group => (g.gid, g.resv.map (·.1)))).find? (fun x => x.1 == k)).map (·.2) := by
    intro l
    rw [List.find?_map, Option.map_map]; rfl
  unfold resvKeys State.group?
  rw [key, key]
  exact congrArg (fun l => (l.find? (fun x : Nat × List Nat => x.1 == k)).map (·.2)) h

/-! What moves lines in and out of an L1 changes what reservations say, not which lanes hold one. -/

theorem lists_map (s : State) (f : Group → Group) (hf : ∀ g, (f g).gid = g.gid ∧ (f g).resv.map (·.1) = g.resv.map (·.1)) {t : State}
    (e : t.groups = s.groups.map f) : t.resvLists = s.resvLists := by
  unfold State.resvLists
  rw [e, List.map_map]
  exact List.map_congr_left fun g _ => by simp only [Function.comp]; rw [(hf g).1, (hf g).2]

theorem lists_groups {s t : State} (h : t.groups = s.groups) : t.resvLists = s.resvLists := by unfold State.resvLists; rw [h]

theorem lists_foldl {α : Type} {f : State → α → State} (hf : ∀ s a, (f s a).resvLists = s.resvLists) (l : List α) (s : State) :
    (l.foldl f s).resvLists = s.resvLists := by
  induction l generalizing s with
  | nil => rfl
  | cons a t ih => rw [List.foldl_cons, ih, hf]

theorem lists_ite {c : Prop} [Decidable c] {a b s : State} (ha : a.resvLists = s.resvLists) (hb : b.resvLists = s.resvLists) :
    (if c then a else b).resvLists = s.resvLists := by split <;> assumption

theorem cancelSlice_lists (s : State) (die lo n : Nat) (home : Bool) : (s.cancelSlice die lo n home).resvLists = s.resvLists := by
  refine lists_map s _ (fun g => ?_) rfl
  dsimp only
  split
  · exact ⟨rfl, rfl⟩
  · refine ⟨rfl, ?_⟩
    rw [List.map_map]
    exact List.map_congr_left fun kv _ => by simp only [Function.comp]; split <;> rfl

theorem dropLineResv_lists (s : State) (core : Nat) (lines : List Nat) : (s.dropLineResv core lines).resvLists = s.resvLists := by
  unfold State.dropLineResv
  split
  · rfl
  · refine lists_map s _ (fun g => ?_) rfl
    dsimp only
    split
    · exact ⟨rfl, rfl⟩
    · refine ⟨rfl, ?_⟩
      rw [List.map_map]
      exact List.map_congr_left fun kv _ => by simp only [Function.comp]; split <;> rfl

theorem recallNode_lists (s : State) (homeD holder : Nat) (n : Node) (sharing : Bool) :
    (s.recallNode homeD holder n sharing).resvLists = s.resvLists := by
  have h : (s.recallLines holder n.base (2 ^ n.size) sharing (holder == homeD)).resvLists = s.resvLists := by
    unfold State.recallLines
    split
    · rfl
    · refine Eq.trans (lists_groups rfl) ?_
      refine lists_ite (cancelSlice_lists ..) ?_
      refine (lists_foldl (fun s kc => lists_ite (dropLineResv_lists ..) rfl) _ _).trans (cancelSlice_lists ..)
  refine Eq.trans ?_ h
  unfold State.recallNode
  exact lists_ite (lists_groups rfl) (lists_groups rfl)

theorem own_lists (s : State) (die line : Nat) : (s.own die line).resvLists = s.resvLists := by
  unfold State.own
  refine lists_ite rfl ?_
  unfold State.dirRequest
  dsimp only
  have hn : ∀ n : Node, (s.splitNode (homeDie (line * 128)) n line).1.resvLists = s.resvLists := fun n => lists_groups rfl
  have hp : ∀ {c : Prop} [Decidable c] {n : Node} {sn : State × Node},
      (if c then s.splitNode (homeDie (line * 128)) n line else (s, n)) = sn → sn.1.resvLists = s.resvLists := by
    intro c _ n sn e; subst e; split
    · exact hn n
    · rfl
  have hr : ∀ (sh : Bool) (n : Node) (l : List Nat) (t : State), (l.foldl (fun s g => s.recallNode (homeDie (line * 128)) g n sh) t).resvLists = t.resvLists :=
    fun sh n l t => lists_foldl (fun s g => recallNode_lists ..) l t
  have put : ∀ (c : Prop) [Decidable c] (t : State) (f g : Die → Die), (if c then t.modDie (homeDie (line * 128)) f else t.modDie (homeDie (line * 128)) g).resvLists = t.resvLists := by
    intro c _ t f g; split <;> rfl
  generalize hsn : @ite (State × Node) _ (instDecidableEqBool _ _) _ _ = sn
  have h := hp hsn
  clear hsn
  split
  · rw [put]; exact h
  · rw [put]; exact h
  · rw [put]; exact h
  · rw [put]; exact h
  · refine lists_ite h ?_; rw [put, hr]; exact h
  · refine lists_ite h ?_; rw [put, hr]; exact h

theorem cancelOthers_lists (s : State) (core : Nat) (ks : List Nat) : (s.cancelOthers core ks).resvLists = s.resvLists := by
  refine lists_map s (fun g => if ((s.wg? g.wgKey).map (·.phys)) == some core then g else g.cancelResv ks 2 none) (fun g => ?_) rfl
  split
  · exact ⟨rfl, rfl⟩
  · exact ⟨cancelResv_gid .., cancelResv_keys ..⟩

theorem registerWord_lists (s : State) (core k : Nat) (evict : Bool) : (s.registerWord core k evict).resvLists = s.resvLists := by
  unfold State.registerWord
  split
  · rfl
  · refine lists_ite ?_ (lists_ite (lists_groups rfl) rfl)
    have hc : ∀ (l : List L1Word) (t : State), (l.foldl (fun s x => s.collect x.key (some core)) t).resvLists = t.resvLists :=
      lists_foldl (fun s x => by unfold State.collect; exact lists_foldl (fun s c => lists_groups (t := s.modCore c _) rfl) _ _)
    have h1 := (hc ((s.core core).unitOf ‹_›) _).trans (own_lists s (coreDie core) (k / 32))
    dsimp only
    revert h1
    generalize List.foldl _ (s.own (coreDie core) (k / 32)) _ = t
    intro h1
    have h2 : ∀ bs ks, ((t.putBytes bs).cancelOthers core ks).resvLists = s.resvLists :=
      fun bs ks => (cancelOthers_lists ..).trans (Eq.trans (lists_groups rfl) h1)
    refine lists_ite (Eq.trans (lists_groups rfl) ?_) (Eq.trans (lists_groups rfl) ?_) <;>
      exact lists_ite (Eq.trans (lists_groups rfl) (h2 _ _)) (h2 _ _)

theorem l1Room_lists (s : State) (core line : Nat) : (s.l1Room core line).resvLists = s.resvLists := by
  unfold State.l1Room
  cases e : s.roomFor core line [] with
  | none => rfl
  | some t =>
    unfold State.roomFor at e
    dsimp only at e
    split at e
    · cases e; rfl
    · split at e
      · cases e; rfl
      · obtain ⟨l, _, rfl⟩ := Option.map_eq_some_iff.1 e
        show (s.evictLine core l).resvLists = _
        unfold State.evictLine
        try dsimp only
        split
        · rfl
        · refine Eq.trans (lists_map (s.evictWords core _) _ (fun g => ?_) rfl) ?_
          · split
            · unfold Group.loseLine; split <;> exact ⟨rfl, rfl⟩
            · exact ⟨rfl, rfl⟩
          · unfold State.evictWords
            rw [dropLineResv_lists]
            exact lists_foldl (fun s k => registerWord_lists ..) _ _

theorem dirtyBytes_lists (l : List (Nat × Byte)) (core part : Nat) (s : State) :
    (l.foldl (fun s w => s.dirtyByte core part w.1 w.2) s).resvLists = s.resvLists :=
  lists_foldl (fun s w => by
    unfold State.dirtyByte
    exact Eq.trans (lists_groups (s := s.l1Room core (w.1 / 128)) rfl) (l1Room_lists s core (w.1 / 128))) l s

theorem writePlaces_keys (c : Ctx) (q : Ptr) (but) (k : Nat) (l : List (Place × Byte))
    (h : ∀ w ∈ l, (∃ k, w.1 = .fixed k) ∨ ∃ pa va, w.1 = .home pa va false false ∧ q.way false = .l1) (s : State) :
    resvKeys (s.writePlaces c q but l) k = resvKeys s k := by
  unfold State.writePlaces
  induction l generalizing s with
  | nil => rfl
  | cons a t ih =>
    rw [List.foldl_cons, ih (fun w hw => h w (by simp [hw]))]
    rcases h a (by simp) with ⟨j, e⟩ | ⟨pa, va, e, hw⟩
    · rw [e]; simp only [State.writePlace, State.store, List.isEmpty_cons, Bool.false_eq_true, if_false]
      rw [resvKeys_cancel]; rfl
    · rw [e]; simp only [State.writePlace, hw, State.dirtyBytes]
      rw [resvKeys_cancel]
      exact resvKeys_lists (dirtyBytes_lists ..) k

theorem condLane_keys {l : List LaneAcc} (hh : allHere l) {a : LaneAcc} (ha : a ∈ l) (s : State) (c : Ctx) (v : Nat) :
    resvKeys (s.condLane c a v).1 c.g.gid = (resvKeys s c.g.gid).map (fun ks => ks.filter (fun k => k != a.lane)) := by
  unfold State.condLane
  dsimp only
  generalize (Option.map (fun g => g.resvStatus a) (s.group? c.g.gid)).getD 1 = st
  have h1 : ∀ t : State, resvKeys (t.modGroup c.g.gid (fun g => g.putResv a.lane none)) c.g.gid = (resvKeys t c.g.gid).map (fun ks => ks.filter (fun k => k != a.lane)) := by
    intro t
    unfold resvKeys
    have := State.group?_modGroup t c.g.gid c.g.gid (fun g => g.putResv a.lane none) (fun _ => rfl)
    rw [this, if_pos rfl, Option.map_map, Option.map_map]
    congr 1; funext g
    simp only [Function.comp, Group.putResv]
    rw [List.filter_map]; rfl
  rw [h1]
  congr 1
  split
  · refine writePlaces_keys c a.q _ _ _ (fun w hw => places_here hh ha (List.of_mem_zip hw).1) s
  · rfl

theorem condLanes_keys {r : List LaneAcc} (hh : allHere r) (c : Ctx) (val : Nat → Nat) (l : List LaneAcc) (hl : ∀ a ∈ l, a ∈ r) (s : State) (out : List (LaneAcc × Nat)) (ks : List Nat)
    (hk : resvKeys s c.g.gid = some ks) :
    ∃ ks', resvKeys (l.foldl (fun (acc : State × List (LaneAcc × Nat)) a => ((acc.1.condLane c a (val a.lane)).1, acc.2 ++ [(a, (acc.1.condLane c a (val a.lane)).2)])) (s, out)).1 c.g.gid = some ks' ∧
      (∀ k ∈ ks', k ∈ ks) ∧ ∀ a ∈ l, a.lane ∉ ks' := by
  induction l generalizing s out ks with
  | nil => exact ⟨ks, hk, fun _ h => h, by simp⟩
  | cons a t ih =>
    rw [List.foldl_cons]
    have h1 := condLane_keys hh (hl a (by simp)) s c (val a.lane)
    rw [hk] at h1
    obtain ⟨ks', e, s1, s2⟩ := ih (fun b hb => hl b (by simp [hb])) _ (out ++ [(a, (s.condLane c a (val a.lane)).2)]) _ h1
    refine ⟨ks', e, fun k h => (List.mem_filter.1 (s1 k h)).1, ?_⟩
    intro b hb
    rcases List.mem_cons.1 hb with rfl | hb
    · intro h; simpa using (List.mem_filter.1 (s1 _ h)).2
    · exact s2 b hb

theorem condLane_carried {s t : State} {c : Ctx} {F : Group → Group} (h : s.Carried c.g.gid F t) (hF : ∀ g, (F g).gid = g.gid) (a : LaneAcc) (v : Nat) :
    s.Carried c.g.gid (fun g => (F g).putResv a.lane none) (t.condLane c a v).1 := by
  unfold State.condLane
  dsimp only
  refine carried_modGroup ?_ _ hF (fun _ => rfl)
  exact calm_ite (writePlaces_calm _ _ _ _ _ h) h

theorem condLanes_carried (c : Ctx) (val : Nat → Nat) (l : List LaneAcc) {s t : State} {F : Group → Group} (h : s.Carried c.g.gid F t) (hF : ∀ g, (F g).gid = g.gid) (out : List (LaneAcc × Nat)) :
    s.Carried c.g.gid (fun g => { F g with resv := (l.foldl (fun g a => g.putResv a.lane none) (F g)).resv })
      (l.foldl (fun (acc : State × List (LaneAcc × Nat)) a => ((acc.1.condLane c a (val a.lane)).1, acc.2 ++ [(a, (acc.1.condLane c a (val a.lane)).2)])) (t, out)).1 := by
  induction l generalizing t F out with
  | nil => exact h
  | cons a l ih => rw [List.foldl_cons]; exact ih (condLane_carried h hF a _) hF _

/-- the counted pending op of a served instruction, whatever the group function did -/
theorem served_counted {s t : State} {c : Ctx} (hs : s.sees c) (x : Args) {F : Group → Group} (hT : touches F) (R : Group → Assoc Reservation) (op : PendingOp)
    (hop : op.flag = c.flag x)
    (h : s.Carried c.g.gid (fun g => { (({ F g with resv := R g } : Group).countUp op.flag) with ops := (F g).ops ++ [op] }) t) :
    ∃ g, s.Served (t.finish c x) c x g ∧ c.g.sameRegs g ∧ c.g.sameModes g ∧ c.g.counted g (c.flag x) ∧ g.ops = c.g.ops ++ [op] ∧
     ∃ g0, t.group? c.g.gid = some g0 ∧ g.resv = g0.resv := by
  obtain ⟨b, rfl⟩ := hT
  obtain ⟨g0, hg0, he, hS⟩ := served_of hs x h (fun _ => rfl) rfl
  refine ⟨_, hS, ?_⟩
  rw [he]
  refine ⟨⟨rfl, rfl, rfl, rfl⟩, ⟨rfl, rfl, rfl, rfl⟩, ?_, rfl, g0, hg0, rfl⟩
  rw [hop]
  intro j
  show assocGet 0 j (assocSet 0 (c.flag x) (assocGet 0 (c.flag x) c.g.flags + 1) c.g.flags) = _
  rw [assocGet_set]; unfold Group.flag
  split
  · rename_i e; rw [e]
  · rfl

end Sys2Proof.Laws
end

