-- ==== Sys2Proof/Laws/Atomics.lean ====
section
/-!
SUPPORT. Lemmas: atomics in the banks (16 R356 to R361).
-/
namespace Sys2Proof.Laws
open Sys2Proof.Machine

theorem bytesOfNat_natOfBytes (bs : List Byte) : bytesOfNat bs.length (natOfBytes bs) = bs := by
  induction bs with
  | nil => rfl
  | cons b t ih =>
    have h : natOfBytes (b :: t) = b.toNat + 256 * natOfBytes t := by
      show natOfBytes t * 256 + b.toNat = _; omega
    rw [List.length_cons, bytesOfNat, h]
    have hb : b.toNat < 256 := b.isLt
    congr 1
    · apply BitVec.eq_of_toNat_eq; simp; omega
    · have : (b.toNat + 256 * natOfBytes t) / 256 = natOfBytes t := by omega
      rw [this]; exact ih

theorem writeIn_self (m : Nat → Byte) (ks : List Nat) (k : Nat) : writeIn m (ks.zip (ks.map m)) k = m k := by
  have : ∀ (ks : List Nat) (m' : Nat → Byte), (∀ j, m' j = m j) → ∀ k, writeIn m' (ks.zip (ks.map m)) k = m k := by
    intro ks
    induction ks with
    | nil => intro m' h k; exact h k
    | cons a t ih =>
      intro m' h k
      simp only [List.map_cons, List.zip_cons_cons, writeIn, List.foldl_cons]
      refine ih _ (fun j => ?_) k
      split
      · rename_i e; simp_all
      · exact h j
  exact this ks m (fun _ => rfl) k

theorem atomPrep_bank {a : LaneAcc} (h : a.inBank) (s : State) (c : Ctx) : s.atomPrep c a = s := by
  unfold State.atomPrep
  split
  · rename_i e
    obtain ⟨k, hk⟩ := h _ (by rw [e]; exact List.mem_cons_self ..)
    cases hk
  · rfl

theorem atomWrite_bank {a : LaneAcc} (h : a.inBank) (s : State) (c : Ctx) (v : Nat) :
    s.atomWrite c a v = s.store ((a.places.map Place.key).zip (bytesOfNat a.places.length v)) none := by
  unfold State.atomWrite
  dsimp only
  split
  · rename_i e
    obtain ⟨k, hk⟩ := h _ (by rw [e]; exact List.mem_cons_self ..)
    cases hk
  · rfl

theorem markDirty_bank {a : LaneAcc} (h : a.inBank) (s : State) (c : Ctx) : s.markDirty c (vasOf [a]) = s := by
  have e : vasOf [a] = [] := by
    refine List.flatMap_eq_nil_iff.2 fun b hb => ?_
    rw [List.mem_singleton.1 hb]
    refine List.filterMap_eq_nil_iff.2 fun p hp => ?_
    obtain ⟨k, rfl⟩ := h p hp
    rfl
  rw [e]
  unfold State.markDirty
  simp [uniq]

def atomStep (op fmt : Nat) (operand compare : Nat → Nat) (m : Nat → Byte) (a : LaneAcc) : (Nat → Byte) × Nat :=
  let ks := a.places.map Place.key
  let z := ks.length
  let old := natOfBytes (ks.map m)
  let new := if op = 9 then (if old = compare a.lane then operand a.lane else old) else atomNew op z fmt old (operand a.lane)
  (writeIn m (ks.zip (bytesOfNat z new)), old)

theorem atomLane_bank {a : LaneAcc} (h : a.inBank) (s : State) (c : Ctx) (op : Nat) (operand compare : Nat → Nat) :
    (s.atomLane c a op (operand a.lane) (compare a.lane)).2 = (atomStep op a.q.fmt operand compare s.byte a).2 ∧
    ∀ k, (s.atomLane c a op (operand a.lane) (compare a.lane)).1.byte k = (atomStep op a.q.fmt operand compare s.byte a).1 k := by
  have hold : natOfBytes ((s.readPlaces c a.q a.places).getD []) = natOfBytes ((a.places.map Place.key).map s.byte) := by
    rw [readPlaces_bank h, List.map_map]; rfl
  unfold State.atomLane atomStep
  dsimp only
  rw [atomPrep_bank h, hold]
  simp only [List.length_map]
  by_cases h9 : op = 9
  · simp only [h9, if_true]
    split
    · refine ⟨rfl, fun k => ?_⟩
      rw [markDirty_bank h, atomWrite_bank h]; exact store_byte ..
    · refine ⟨rfl, fun k => ?_⟩
      have := bytesOfNat_natOfBytes ((a.places.map Place.key).map s.byte)
      simp only [List.length_map] at this
      rw [this]; exact (writeIn_self _ _ _).symm
  · simp only [h9, if_false]
    refine ⟨trivial, fun k => ?_⟩
    rw [markDirty_bank h, atomWrite_bank h]; exact store_byte ..

theorem atomStep_congr {m m' : Nat → Byte} (h : ∀ k, m k = m' k) (op fmt : Nat) (o cm : Nat → Nat) (a : LaneAcc) :
    atomStep op fmt o cm m a = atomStep op fmt o cm m' a := by rw [show m = m' from funext h]

theorem atomIn_eq (op fmt : Nat) (o cm : Nat → Nat) (m : Nat → Byte) (l : List LaneAcc) :
    atomIn op fmt o cm m l = l.foldl (fun acc a => ((atomStep op fmt o cm acc.1 a).1, acc.2 ++ [(a.lane, (atomStep op fmt o cm acc.1 a).2)])) (m, []) := rfl

theorem atomLanes_bank (c : Ctx) (op fmt : Nat) (operand compare : Nat → Nat) (l : List LaneAcc) (h : ∀ a ∈ l, a.inBank ∧ a.q.fmt = fmt) (s : State)
    (out : List (LaneAcc × Nat × Nat)) (m : Nat → Byte) (outm : List (Nat × Nat)) (hm : ∀ k, s.byte k = m k) (ho : out.map (fun k => (k.1.lane, k.2.2)) = outm) :
    let d := l.foldl (fun (acc : State × List (LaneAcc × Nat × Nat)) a => ((acc.1.atomLane c a op (operand a.lane) (compare a.lane)).1, acc.2 ++ [(a, 0, (acc.1.atomLane c a op (operand a.lane) (compare a.lane)).2)])) (s, out)
    let e := l.foldl (fun acc a => ((atomStep op fmt operand compare acc.1 a).1, acc.2 ++ [(a.lane, (atomStep op fmt operand compare acc.1 a).2)])) (m, outm)
    d.2.map (fun k => (k.1.lane, k.2.2)) = e.2 ∧ ∀ k, d.1.byte k = e.1 k := by
  induction l generalizing s out m outm with
  | nil => exact ⟨ho, hm⟩
  | cons a t ih =>
    dsimp only
    rw [List.foldl_cons, List.foldl_cons]
    obtain ⟨h1, h2⟩ := atomLane_bank (h a (by simp)).1 s c op operand compare
    rw [(h a (by simp)).2] at h1 h2
    refine ih (fun b hb => h b (by simp [hb])) _ _ _ _ (fun k => ?_) ?_
    · rw [h2, atomStep_congr hm]
    · rw [List.map_append, ho, List.map_cons, List.map_nil, h1, atomStep_congr hm]

theorem atomPrep_calm {G : Placed} (s : State) (c : Ctx) (a : LaneAcc) (h : s.Calm G) : (s.atomPrep c a).Calm G := by
  unfold State.atomPrep
  split
  · dsimp only
    split
    · exact calm_foldl (fun _ _ h => State.fillWord_calm _ _ _ _ _ h) _ h
    · exact State.sliceWrite_calm _ _ _ _ (calm_foldl (fun _ _ h => State.registerWord_calm _ _ _ _ h) _ h)
    · exact State.sliceWrite_calm _ _ _ _ h
  · exact h

theorem atomWrite_calm {G : Placed} (s : State) (c : Ctx) (a : LaneAcc) (v : Nat) (h : s.Calm G) : (s.atomWrite c a v).Calm G := by
  unfold State.atomWrite
  dsimp only
  split
  · split
    · exact State.dirtyBytes_calm _ _ _ _ _ h
    · exact State.store_calm _ _ _ h
  · exact State.store_calm _ _ _ h

theorem atomLane_calm {G : Placed} (s : State) (c : Ctx) (a : LaneAcc) (op o cm : Nat) (h : s.Calm G) : (s.atomLane c a op o cm).1.Calm G := by
  unfold State.atomLane
  dsimp only
  split
  · split
    · exact atomWrite_calm _ _ _ _ (markDirty_calm _ _ _ (atomPrep_calm _ _ _ h))
    · exact atomPrep_calm _ _ _ h
  · exact atomWrite_calm _ _ _ _ (markDirty_calm _ _ _ (atomPrep_calm _ _ _ h))

theorem atomLanes_calm {G : Placed} (s : State) (c : Ctx) (op : Nat) (operand compare : Nat → Nat) (l : List LaneAcc) (out) (h : s.Calm G) :
   (l.foldl (fun (acc : State × List (LaneAcc × Nat × Nat)) a => ((acc.1.atomLane c a op (operand a.lane) (compare a.lane)).1, acc.2 ++ [(a, 0, (acc.1.atomLane c a op (operand a.lane) (compare a.lane)).2)])) (s, out)).1.Calm G :=
  by refine calm_foldl_fst (fun p a hp => ?_) l h; exact atomLane_calm _ _ _ _ _ _ hp

end Sys2Proof.Laws
end

