-- ==== Sys2Proof/Laws/Barriers.lean ====
section
/-!
SUPPORT. Lemmas: barrier objects and timelines (16 R346 to R355).
-/
namespace Sys2Proof.Laws
open Sys2Proof.Machine

theorem heldByReplay_none {s : State} {c : Ctx} (h : s.replayOf c.w.part = none) (es : List Event) : s.heldByReplay c es = false := by
  unfold State.heldByReplay; simp [h]

theorem logBarrier_parts {s : State} {c : Ctx} (h : s.replayOf c.w.part = none) (act : List Nat) (k : Nat) :
    ∃ ps, s.logBarrier c act k = { s with parts := ps } ∧ ps.map (fun p => (p.num, p.replay)) = s.parts.map (fun p => (p.num, p.replay)) := by
  unfold State.logBarrier
  split
  · exact logAll_parts (es := [_]) h
  · exact ⟨s.parts, rfl, rfl⟩

/-- served without any change of the group -/
theorem served_bare {s u : State} {c : Ctx} (hs : s.sees c) (x : Args) (h : s.Carried c.g.gid id u) :
    ∃ g, s.Served (u.finish c x) c x g ∧ c.g.sameRegs g ∧ c.g.sameModes g ∧ g.flags = c.g.flags ∧ g.ops = c.g.ops := by
  obtain ⟨g0, hg0, he, hS⟩ := served_of hs x h (fun _ => rfl) rfl
  refine ⟨_, hS, ?_⟩
  rw [he]
  exact ⟨⟨rfl, rfl, rfl, rfl⟩, ⟨rfl, rfl, rfl, rfl⟩, rfl, rfl⟩

theorem barrier_toNat_lt (b : Barrier) : b.toNat < 2 ^ 128 := by
  unfold Barrier.toNat
  have h1 : patOf 48 b.pendTx < 2 ^ 48 := by unfold patOf; omega
  have h2 : b.valid.toNat ≤ 1 := Bool.toNat_le _
  omega

structure barOk (b : Barrier) : Prop where
  e : b.expect < 2 ^ 16
  a : b.pendArr < 2 ^ 16
  p : b.phase < 2 ^ 32
  t : txFits b.pendTx = true
  r : b.rest < 2 ^ 15

theorem barrier_roundtrip {b : Barrier} (h : barOk b) : Barrier.ofNat b.toNat = b := by
  obtain ⟨h1, h2, h3, h4, h5⟩ := h
  simp only [txFits, Bool.and_eq_true, decide_eq_true_eq] at h4
  have hp : patOf 48 b.pendTx < 2 ^ 48 := by unfold patOf; omega
  have hs : signedOf 48 (patOf 48 b.pendTx) = b.pendTx := by
    unfold signedOf patOf; dsimp only; split <;> omega
  have hv : b.valid.toNat ≤ 1 := Bool.toNat_le _
  cases b with
  | mk ex pa ph pt va re =>
  simp only at *
  unfold Barrier.ofNat Barrier.toNat bits bitOf
  simp only [Barrier.mk.injEq]
  generalize patOf 48 pt = P at *
  refine ⟨?_, ?_, ?_, ?_, ?_, ?_⟩
  · omega
  · omega
  · omega
  · rw [← hs]; congr 1; omega
  · cases va
    · simp; omega
    · simp; omega
  · omega

theorem natOfBytes_bytesOfNat (n x : Nat) : natOfBytes (bytesOfNat n x) = x % 256 ^ n := by
  induction n generalizing x with
  | zero => simp [bytesOfNat, natOfBytes, Nat.mod_one]
  | succ n ih =>
    show natOfBytes (bytesOfNat n (x / 256)) * 256 + (BitVec.ofNat 8 x).toNat = _
    rw [ih, BitVec.toNat_ofNat, show 256 ^ (n + 1) = 256 * 256 ^ n from Nat.pow_succ', Nat.mod_mul (a := 256) (b := 256 ^ n)]; omega

theorem bytesOfNat_get (n x i : Nat) (h : i < n) : (bytesOfNat n x)[i]? = some (BitVec.ofNat 8 (x / 256 ^ i)) := by
  induction n generalizing x i with
  | zero => omega
  | succ n ih =>
    cases i with
    | zero => simp [bytesOfNat]
    | succ i =>
      simp only [bytesOfNat, List.getElem?_cons_succ]
      rw [ih _ _ (by omega), Nat.pow_succ', Nat.div_div_eq_div_mul]

/-- memory, read by a function, after consecutive bytes -/
theorem writeIn_run (m : Nat → Byte) (k : Nat) (bs : List Byte) (j : Nat) :
    writeIn m (((List.range bs.length).zip bs).map (fun b => (k + b.1, b.2))) j =
      if k ≤ j ∧ j < k + bs.length then bs.getD (j - k) 0 else m j := by
  have h : ∀ (bs : List Byte) (o : Nat) (m : Nat → Byte), writeIn m (((List.range' o bs.length).zip bs).map (fun b => (k + b.1, b.2))) j =
      if k + o ≤ j ∧ j < k + o + bs.length then bs.getD (j - k - o) 0 else m j := by
    intro bs
    induction bs with
    | nil => intro o m; simp [writeIn] <;> (intro _ h; omega)
    | cons b t ih =>
      intro o m
      rw [List.length_cons, List.range'_succ, List.zip_cons_cons, List.map_cons]
      show writeIn (fun i => if i = k + o then b else m i) _ j = _
      rw [ih]
      by_cases h1 : j = k + o
      · subst h1
        rw [if_neg (by omega), if_pos (by omega)]
        simp
      · by_cases h2 : k + (o + 1) ≤ j ∧ j < k + (o + 1) + t.length
        · rw [if_pos h2, if_pos (by omega), show j - k - o = (j - k - (o + 1)) + 1 from by omega]; simp
        · rw [if_neg h2, if_neg (show ¬(k + o ≤ j ∧ j < k + o + (t.length + 1)) from by omega)]; simp only [h1, if_false]
  have := h bs 0 m
  rw [← List.range_eq_range'] at this
  simpa using this

theorem storeNum_byte (s : State) (k n x j : Nat) : (s.storeNum k n x).byte j =
    if k ≤ j ∧ j < k + n then (bytesOfNat n x).getD (j - k) 0 else s.byte j := by
  have := writeIn_run s.byte k (bytesOfNat n x) j
  rw [bytesOfNat_length] at this
  unfold State.storeNum
  rw [storeBytes_byte, bytesOfNat_length]; exact this

theorem storeNum_num (s : State) (k n x : Nat) (h : x < 256 ^ n) : (s.storeNum k n x).num k n = x := by
  unfold State.num State.bytes
  have : (List.range n).map (fun i => (s.storeNum k n x).byte (k + i)) = bytesOfNat n x := by
    apply List.ext_getElem?
    intro i
    by_cases hi : i < n
    · rw [List.getElem?_map, List.getElem?_range hi, Option.map_some, storeNum_byte, if_pos (by omega), bytesOfNat_get n x i hi,
        show k + i - k = i from by omega]
      simp [List.getD, bytesOfNat_get n x i hi]
    · rw [List.getElem?_eq_none (by simpa using hi), List.getElem?_eq_none (by rw [bytesOfNat_length]; omega)]
  rw [this, natOfBytes_bytesOfNat, Nat.mod_eq_of_lt h]

theorem setBarrier_at (s : State) (k : Nat) {b : Barrier} (h : barOk b) : (s.setBarrier k b).barrierAt k = b ∧
    ∀ j, j < k ∨ k + 16 ≤ j → (s.setBarrier k b).byte j = s.byte j := by
  unfold State.setBarrier State.barrierAt
  split
  · rename_i e
    rw [← e]; exact ⟨barrier_roundtrip h, fun _ _ => rfl⟩
  · rw [storeNum_num _ _ _ _ (barrier_toNat_lt b)]
    refine ⟨barrier_roundtrip h, fun j hj => ?_⟩
    rw [storeNum_byte, if_neg (by omega)]

theorem bits_lt (n hi lo : Nat) : bits n hi lo < 2 ^ (hi + 1 - lo) := Nat.mod_lt _ (Nat.two_pow_pos _)

theorem barOk_ofNat (n : Nat) : barOk (Barrier.ofNat n) := by
  refine ⟨bits_lt .., bits_lt .., bits_lt .., ?_, bits_lt ..⟩
  show txFits (signedOf 48 (bits n 111 64)) = true
  unfold txFits signedOf
  simp only [Bool.and_eq_true, decide_eq_true_eq]
  split <;> omega

theorem barOk_evaluate {b : Barrier} (h : barOk b) : barOk b.evaluate := by
  unfold Barrier.evaluate
  split
  · exact ⟨h.e, h.e, Nat.mod_lt _ (by decide), h.t, h.r⟩
  · exact h

theorem setBarrier_calm {G : Placed} (s : State) (k : Nat) (b : Barrier) (h : s.Calm G) : (s.setBarrier k b).Calm G := by
  unfold State.setBarrier
  split
  · exact h
  · exact State.store_calm _ _ _ h

theorem sees_bytes {s t : State} (h : t.mem = s.mem) (k n : Nat) : t.num k n = s.num k n := by
  unfold State.num State.bytes State.byte; rw [h]

/-- a barrier instruction that passes -/
theorem bar_pass {s u : State} {c : Ctx} {x : Args} (hs : s.sees c) (hr : s.replayOf c.w.part = none) (hu : ∀ G : Placed, s.Calm G → u.Calm G) (act : List Nat) (k : Nat) :
    ∃ t g, settleEff c x s ((Eff.done u).logBarrier c act k) = .next t ∧ s.Served t c x g ∧ c.g.sameRegs g ∧ c.g.sameModes g ∧ g.flags = c.g.flags ∧ 
      g.ops = c.g.ops ∧ t.mem = u.mem ∧ t.barrierAt k = u.barrierAt k ∧ ∀ j, t.byte j = u.byte j := by
  have hru : u.replayOf c.w.part = none := replay_prep (carried_calm (carried_refl s c.g.gid) hu) hr
  obtain ⟨ps, e, hp⟩ := logBarrier_parts hru act k
  have hc : s.Carried c.g.gid id (u.logBarrier c act k) := by
    rw [e]; exact parts_calm hp (carried_calm (carried_refl s c.g.gid) hu)
  obtain ⟨g, h1, h2, h3, h4, h5⟩ := served_bare hs x hc
  have hm : ((u.logBarrier c act k).finish c x).mem = u.mem := by
    rw [(finish_sameView _ c x).mem, e]
  have hm' : (((u.logBarrier c act k).advance c x).noteIssue c).mem = u.mem := hm
  refine ⟨_, g, rfl, h1, h2, h3, h4, h5, hm', ?_, fun j => ?_⟩
  · unfold State.barrierAt; rw [sees_bytes hm']
  · exact congrArg (assocGet resetByte j) hm'

theorem bar_exec {o : Op} {own write : Bool} {x : Args} {s : State} {c : Ctx} {k : Nat} {body : Ctx → List Nat → Nat → Barrier → Eff}
    (h : s.issues o x c) (hr : s.replayOf c.w.part = none) (hn : c.w.barrierKey own (c.s x.a.toNat) = some k ∧
      s.scratchBusy (keyCore k) (k % 2 ^ 21) (k % 2 ^ 21 + 16) write = false) (ha : s.barrierAhead c k = false) :
    barrierExec o own write x s body = settleEff c x s ((body c (c.active x) k (s.barrierAt k)).logBarrier c (c.active x) k) := by
  unfold barrierExec
  rw [issue_eq h]
  simp only [hn.1, hn.2, ha, Bool.or_self, heldByReplay_none hr, Bool.false_eq_true, if_false]

theorem modSplit_two (s : State) (g k : Nat) (f h : Split → Split) (hf : ∀ x, (f x).id = x.id) :
    (s.modSplit g k f).modSplit g k h = s.modSplit g k (fun x => h (f x)) := by
  unfold State.modSplit
  rw [State.modGroup_modGroup s g (fun x => x.modSplit k f) _ (fun _ => rfl)]
  congr 1; funext y
  exact Group.modSplit_modSplit y k f h hf

theorem acquireCore_mem (s : State) (core part n : Nat) : (s.acquireCore core part n).mem = s.mem := by
  unfold State.acquireCore
  split
  · rfl
  · dsimp only; split <;> rfl

theorem acquireTl_calm {G : Placed} (s : State) (w : Workgroup) (k n : Nat) (h : s.Calm G) : (s.acquireTl w k n).Calm G := by
  unfold State.acquireTl; split
  · exact h
  · exact State.acquireCore_calm _ _ _ _ h

theorem acquireTl_mem (s : State) (w : Workgroup) (k n : Nat) : (s.acquireTl w k n).mem = s.mem := by
  unfold State.acquireTl; split
  · rfl
  · exact acquireCore_mem ..

end Sys2Proof.Laws
end

