-- ==== Sys2Proof/Laws/Engines.lean ====
section
/-!
SUPPORT. Lemmas: operations as they join an engine's queue; what the transform unit is sent (chapters 13, 14).
-/
namespace Sys2Proof.Laws
open Sys2Proof.Machine

theorem queued_done {s u : State} {c : Ctx} {x : Args} {o : EngineOp} (hs : s.sees c) (F : Group → Group)
    (hF : ∀ g, F g = { g with s := (F g).s, flags := (F g).flags, ops := (F g).ops })
    (hu : u.groups = (s.modGroup c.g.gid F).groups)
    (hc : (u.core c.w.phys).ops = (s.core c.w.phys).ops ++ [o])
    (ho : o.gid = c.g.gid ∧ o.wgKey = c.w.key ∧ o.half = c.sp.half ∧ o.fmode = c.fmode) :
    s.Queued (u.finish c x) c x (c.after u x (F c.g)) o := by
  have hgid : ∀ g, (F g).gid = g.gid := fun g => by rw [hF]
  have hg : u.group? c.g.gid = some (F c.g) := by
    have := State.group?_modGroup s c.g.gid c.g.gid F hgid
    rw [if_pos rfl, (State.sees_eq hs).1] at this
    unfold State.group? at *; rw [hu]; exact this
  have hb := State.sameBut_modGroup u c.g.gid (fun g => c.after u x g) (fun _ => rfl)
  have hbs := State.sameBut_modGroup s c.g.gid F hgid
  rw [State.finish_eq]
  refine ⟨?_, ho, ⟨?_, fun k hk => ?_⟩, ?_, ?_, ?_⟩
  · exact hc
  · rw [hb.2.1, hu]; exact hbs.2.1
  · rw [hb.2.2 k hk, ← hbs.2.2 k hk]; unfold State.group?; rw [hu]
  · have := State.group?_modGroup u c.g.gid c.g.gid (fun g => c.after u x g) (fun _ => rfl)
    rw [if_pos rfl, hg] at this; exact this
  · exact Ctx.after_passed hs x _ (by rw [hF])
  · simp only [Ctx.after, Group.modSplit]
    have := hF c.g
    generalize F c.g = y at this
    rw [this]

theorem queueOp_core (s : State) (c : Ctx) (o : EngineOp) : ((s.queueOp c o).core c.w.phys).ops = (s.core c.w.phys).ops ++ [o] := by
  unfold State.queueOp
  dsimp only
  have h1 : ∀ t : State, t.cores = (s.modCore c.w.phys (fun k => { k with ops := k.ops ++ [o] })).cores → (t.core c.w.phys).ops = (s.core c.w.phys).ops ++ [o] := by
    intro t ht
    have : t.core c.w.phys = (s.modCore c.w.phys (fun k => { k with ops := k.ops ++ [o] })).core c.w.phys := by unfold State.core; rw [ht]
    rw [this, State.core_modCore, if_pos rfl]
  split
  · unfold State.modTile
    rw [State.core_modCore, if_pos rfl]
    exact h1 _ rfl
  · exact h1 _ rfl

theorem queueOp_frame (s : State) (c : Ctx) (o : EngineOp) : (s.queueOp c o).groups = s.groups ∧ (s.queueOp c o).mem = s.mem ∧ (s.queueOp c o).tags = s.tags ∧ (s.queueOp c o).serial = s.serial + 1 := by
  unfold State.queueOp
  dsimp only
  split <;> exact ⟨rfl, rfl, rfl, rfl⟩

theorem queued_plain {s : State} {c : Ctx} {x : Args} {o : EngineOp} (hs : s.sees c)
    (ho : o.gid = c.g.gid ∧ o.wgKey = c.w.key ∧ o.half = c.sp.half ∧ o.fmode = c.fmode) :
    ∃ t g, settleEff c x s (.done (s.queueOp c o)) = .next t ∧ s.Queued t c x g o ∧ t.mem = s.mem ∧ t.tags = s.tags ∧ c.g.sameRegs g ∧ c.g.sameModes g ∧
      g.flags = c.g.flags ∧ g.ops = c.g.ops := by
  obtain ⟨f1, f2, f3, -⟩ := queueOp_frame s c o
  have hq := queued_done (u := s.queueOp c o) (x := x) hs id (fun _ => rfl) (by rw [f1, State.modGroup_id]) (queueOp_core s c o) ho
  exact ⟨_, _, rfl, hq, f2, f3, ⟨rfl, rfl, rfl, rfl⟩, ⟨rfl, rfl, rfl, rfl⟩, rfl, rfl⟩

theorem scratchPoison_nil {s : State} (h : s.poison = []) (a b n : Nat) : s.scratchPoison a b n = false := by
  unfold State.scratchPoison; simp [h]

theorem entryWait_no {s : State} {c : Ctx} (h1 : s.entriesHeld c.w.phys < 32) (h2 : s.askedBefore c .entry = false) (o : EngineOp) : s.entryWait c o = false := by
  unfold State.entryWait; simp [h2]; intro _; omega

theorem finish_self (s : State) (c : Ctx) (x : Args) : settleEff c x s (.done s) = .next (s.finish c x) := rfl

theorem mat_rows {s : State} {c : Ctx} {x : Args} {op : Op} {kind : EngKind} {av : Bool} {count : Ctx → Option Nat} {a b : MatOperand} {n : Nat}
    (h : s.issues op x c) (hcount : count c = some n) :
    ∀ (lo hi off : Nat) (blk : List Byte) (f : FormatBlock) (words : List Word), lo = c.w.scratchOff → hi = lo + c.w.scratchLen →
    off = (c.s x.c.toNat).toNat → blk = s.bytes (scratchKey c.w.phys off) 32 → f = formatBlockOf blk →
    words = (if av then [0, 0] else [c.s x.a.toNat, c.s (x.a.toNat + 1)]) ++ [c.s x.b.toNat, c.s (x.b.toNat + 1)] →
    off % 32 = 0 → lo ≤ off → off + 32 ≤ hi → s.scratchBusy c.w.phys off (off + 32) false = false → s.poison = [] →
    formatBlockOk blk av lo hi = true → matOperand (words.getD 0 0) (words.getD 1 0) = some a →
    matOperand (words.getD 2 0) (words.getD 3 0) = some b →
    (∀ h ∈ (if av then [] else [a.hull f.afmt f.mrows n]) ++ (if f.ascl then [scaleHull f.ascale f.astep f.mrows n] else []) ++
        b.hull f.bfmt f.ncols n :: (if f.bscl then [scaleHull f.bscale f.bstep f.ncols n] else []), hullIn h lo hi = true) →
    (f.bfmt = 0x16 → s.scratchBusy c.w.phys (f.cbtab / 1024 * 1024) (f.cbtab / 1024 * 1024 + 1024) false = false) →
      (n = 0 → matExec op kind av x s count = .next (s.finish c x)) ∧
      (n ≠ 0 → (s.stepQueue c.w.phys).length < 8 → s.askedBefore c .sequencer = false → s.entriesHeld c.w.phys < 32 →
        s.askedBefore c .entry = false → ∃ o : EngineOp, matExec op kind av x s count = settleEff c x s (.done (s.queueOp c o)) ∧
         (o.gid = c.g.gid ∧ o.wgKey = c.w.key ∧ o.half = c.sp.half ∧ o.fmode = c.fmode) ∧
         o.kind = kind ∧ o.tile = x.d.toNat ∧ o.count = n ∧ o.steps = 0 ∧ o.sops = words ∧
          o.fmtBlock = blk ∧ o.aFromRegs = av ∧ (o.entry = true ↔ o.intervals ≠ [])) := by
  intro lo hi off blk f words elo ehi eoff eblk ef ewords h1 h2 h3 h4 h5 h6 h7 h8 h9 h10
  unfold matExec
  rw [issue_eq h]
  have hcond : (off % 32 != 0 || decide (off < lo) || decide (hi < off + 32)) = false := by simp [h1]; omega
  have hall : ((if av then [] else [a.hull f.afmt f.mrows n]) ++ (if f.ascl then [scaleHull f.ascale f.astep f.mrows n] else []) ++
        b.hull f.bfmt f.ncols n :: (if f.bscl then [scaleHull f.bscale f.bstep f.ncols n] else [])).all (fun h => hullIn h lo hi) = true := by
    rw [List.all_eq_true]; exact h9
  have hcb1 : ((f.bfmt == 0x16) && s.scratchBusy c.w.phys (f.cbtab / 1024 * 1024) (f.cbtab / 1024 * 1024 + 1024) false) = false := by
    by_cases hb : f.bfmt = 0x16
    · simp [h10 hb]
    · simp [hb]
  have hcb2 : ((f.bfmt == 0x16) && s.scratchPoison c.w.phys (f.cbtab / 1024 * 1024) 1024) = false := by
    rw [scratchPoison_nil h5]; simp
  dsimp only
  rw [← ewords, ← eoff, ← elo, ← ehi]
  simp only [hcond, h4, Bool.false_eq_true, if_false, scratchPoison_nil h5]
  rw [← eblk, ← ef]
  simp only [h6, Bool.not_true, Bool.false_eq_true, if_false]
  rw [h7, h8, hcount]
  dsimp only
  rw [hall, hcb1]
  simp only [Bool.not_true, Bool.false_eq_true, if_false, Bool.and_false]
  constructor
  · rintro rfl
    rfl
  · intro hn q1 q2 q3 q4
    have hq : (decide ((s.stepQueue c.w.phys).length ≥ 8) || s.askedBefore c Hold.sequencer) = false := by simp [q2]; omega
    rw [if_neg hn, hq]
    simp only [Bool.false_eq_true, if_false, entryWait_no q3 q4]
    refine ⟨_, rfl, ⟨rfl, rfl, rfl, rfl⟩, rfl, rfl, rfl, rfl, rfl, rfl, rfl, ?_⟩
    simp

theorem sent_done {s u : State} {c : Ctx} {x : Args} (hs : s.sees c) {g0 : Group} (hg0 : u.group? c.g.gid = some g0) (hb : g0 = { c.g with resv := g0.resv, touched := g0.touched, victims := g0.victims })
    (hp : u.cores = s.cores) (op : PendingOp) (hop : op.flag = c.flag x) (hid : op.id = s.serial) :
    ∃ t g, settleEff c x s (.done (u.sendPipe c op)) = .next t ∧ t.group? c.g.gid = some g ∧
      g.passed c x ∧ c.g.sameRegs g ∧ c.g.sameModes g ∧ c.g.counted g (c.flag x) ∧ g.ops = c.g.ops ++ [{ op with waitsEngine := true }] ∧
      (t.core c.w.phys).pipe = (s.core c.w.phys).pipe ++ [(c.g.gid, s.serial)] ∧ t.mem = u.mem := by
  let F : Group → Group := fun g => { (g.countUp op.flag) with ops := g.ops ++ [{ op with waitsEngine := true }] }
  have h1 : (u.sendPipe c op).group? c.g.gid = some (F g0) := by
    have := State.group?_modGroup u c.g.gid c.g.gid F (fun _ => rfl)
    rw [if_pos rfl, hg0] at this; exact this
  refine ⟨_, c.after (u.sendPipe c op) x (F g0), rfl, ?_, ?_, ?_, ?_, ?_, ?_, ?_, rfl⟩
  · show ((u.sendPipe c op).finish c x).group? _ = _
    rw [State.finish_eq]
    have := State.group?_modGroup (u.sendPipe c op) c.g.gid c.g.gid (fun g => c.after (u.sendPipe c op) x g) (fun _ => rfl)
    rw [if_pos rfl, h1] at this; exact this
  · exact Ctx.after_passed hs x _ (by show g0.splits = _; rw [hb])
  · show (g0.v = _ ∧ g0.vtags = _ ∧ g0.s = _ ∧ g0.p = _); rw [hb]; exact ⟨rfl, rfl, rfl, rfl⟩
  · show (g0.fmode0 = _ ∧ g0.fmode1 = _ ∧ g0.fstat0 = _ ∧ g0.fstat1 = _); rw [hb]; exact ⟨rfl, rfl, rfl, rfl⟩
  · rw [← hop, hb]; exact countUp_counted c.g op.flag (c.g.ops ++ [{ op with waitsEngine := true }]) g0.resv
  · show g0.ops ++ _ = _; rw [hb]
  · show ((u.sendPipe c op).core c.w.phys).pipe = _
    unfold State.sendPipe
    rw [State.core_modCore, if_pos rfl, ← hid]
    have : (u.pend c { op with waitsEngine := true }).core c.w.phys = s.core c.w.phys := by unfold State.core; show assocGet _ _ u.cores = _; rw [hp]
    rw [this]

theorem lastOf_append_pair {α : Type} (k : Nat) (a b : List (Nat × α)) : lastOf k (a ++ b) = (lastOf k b).or (lastOf k a) := by
  unfold lastOf
  rw [List.reverse_append, List.find?_append]
  cases b.reverse.find? (fun kv => kv.1 == k) <;> simp

theorem lastOf_flatMap {α : Type} (k : Nat) (f : Nat → List (Nat × α)) (n j : Nat) (v : α) (hj : j < n) (h1 : lastOf k (f j) = some v)
    (h2 : ∀ i, i < n → i ≠ j → lastOf k (f i) = none) : lastOf k ((List.range n).flatMap f) = some v := by
  induction n with
  | zero => omega
  | succ n ih =>
    rw [List.range_succ, List.flatMap_append, lastOf_append_pair]
    simp only [List.flatMap_cons, List.flatMap_nil, List.append_nil]
    by_cases e : j = n
    · subst e; rw [h1]; rfl
    · rw [h2 n (by omega) (Ne.symm e), ih (by omega) (fun i hi => h2 i (by omega))]; rfl

theorem lastOf_two {α : Type} (k a b : Nat) (u v : α) : lastOf k [(a, u), (b, v)] = if b = k then some v else if a = k then some u else none := by
  unfold lastOf
  simp only [List.reverse_cons, List.reverse_nil, List.nil_append, List.cons_append, List.find?_cons, List.find?_nil]
  by_cases h1 : b = k
  · simp [h1]
  · by_cases h2 : a = k
    · rw [beq_eq_false_iff_ne.2 h1, beq_iff_eq.2 h2, if_neg h1, if_pos h2]; rfl
    · rw [beq_eq_false_iff_ne.2 h1, beq_eq_false_iff_ne.2 h2, if_neg h1, if_neg h2]; rfl

theorem storeNum_num' (s : State) (k n x : Nat) : (s.storeNum k n x).num k n = x % 256 ^ n := by
  unfold State.num State.bytes
  have : (List.range n).map (fun i => (s.storeNum k n x).byte (k + i)) = bytesOfNat n x := by
    apply List.ext_getElem?
    intro i
    by_cases hi : i < n
    · rw [List.getElem?_map, List.getElem?_range hi, Option.map_some, storeNum_byte, if_pos (by omega), bytesOfNat_get n x i hi,
        show k + i - k = i from by omega]
      simp [List.getD, bytesOfNat_get n x i hi]
    · rw [List.getElem?_eq_none (by simpa using hi), List.getElem?_eq_none (by rw [bytesOfNat_length]; omega)]
  rw [this, natOfBytes_bytesOfNat]

theorem storeNum_frame (s : State) (k n v : Nat) : (s.storeNum k n v).cores = s.cores ∧ (s.storeNum k n v).serial = s.serial := by
  unfold State.storeNum State.storeBytes State.store
  split <;> exact ⟨rfl, rfl⟩

/-- words stored one after the other at distinct places -/
theorem storeNums (k : Nat) (v : Nat → Nat) (l : List Nat) (hl : ∀ e ∈ l, e < 128) (s : State) :
    (∀ e < 128, (l.foldl (fun s e => s.storeNum (k + 4 * e) 4 (v e)) s).num (k + 4 * e) 4 = if e ∈ l then v e % 2 ^ 32 else s.num (k + 4 * e) 4) ∧
    (∀ j, j < k ∨ k + 512 ≤ j → (l.foldl (fun s e => s.storeNum (k + 4 * e) 4 (v e)) s).byte j = s.byte j) ∧
    (∀ G : Placed, s.Calm G → (l.foldl (fun s e => s.storeNum (k + 4 * e) 4 (v e)) s).Calm G) ∧
      (l.foldl (fun s e => s.storeNum (k + 4 * e) 4 (v e)) s).cores = s.cores ∧ (l.foldl (fun s e => s.storeNum (k + 4 * e) 4 (v e)) s).serial = s.serial := by
  induction l generalizing s with
  | nil => exact ⟨fun e _ => by simp, fun _ _ => rfl, fun _ h => h, rfl, rfl⟩
  | cons a t ih =>
    obtain ⟨i1, i2, i3, i4, i5⟩ := ih (fun e he => hl e (by simp [he])) (s.storeNum (k + 4 * a) 4 (v a))
    rw [List.foldl_cons]
    have ha := hl a (by simp)
    refine ⟨fun e he => ?_, fun j hj => ?_, fun G h => i3 G (State.store_calm _ _ _ h), i4.trans (storeNum_frame ..).1, i5.trans (storeNum_frame ..).2⟩
    · rw [i1 e he]
      by_cases h1 : e ∈ t
      · simp [h1]
      · simp only [h1, if_false, List.mem_cons, or_false]
        by_cases h2 : e = a
        · subst h2; rw [if_pos rfl]; unfold State.storeNum; exact storeNum_num' s (k + 4 * e) 4 (v e)
        · rw [if_neg h2]
          unfold State.num State.bytes
          congr 1
          refine List.map_congr_left (fun i hi => ?_)
          have := List.mem_range.1 hi
          rw [storeNum_byte, if_neg (by omega)]
    · rw [i2 j hj, storeNum_byte, if_neg (by omega)]

theorem lanesOf_lt {m : LaneMask} {l : Nat} (h : l ∈ lanesOf m) : l < 64 := by
  unfold lanesOf at h; have := (List.mem_filter.1 h).1; simpa using this

theorem active_lt {c : Ctx} {x : Args} {l : Nat} (h : l ∈ c.active x) : l < 64 := by
  unfold Ctx.active at h; exact lanesOf_lt (List.mem_filter.1 h).1

theorem presentOf_lt {c : Ctx} {x : Args} {e : Nat} (h : e ∈ presentOf (c.active x)) : e < 128 := by
  unfold presentOf at h
  rcases List.mem_append.1 h with h | h
  · have := active_lt h; omega
  · obtain ⟨l, hl, rfl⟩ := List.mem_map.1 h; have := active_lt hl; omega

end Sys2Proof.Laws
end

