-- ==== Sys2Proof/Laws/Streams.lean ====
section
/-!
SUPPORT. Lemmas: stream operations as they enter the scoreboard (13 R286 to R291).
-/
namespace Sys2Proof.Laws
open Sys2Proof.Machine

theorem writeLaunchState_calm {G : Placed} (s : State) (p : Partition) (l : Launch) (v : Nat) (h : s.Calm G) : (s.writeLaunchState p l v).Calm G :=
  State.vaStore_calm _ _ _ _ h

theorem settleVerdict_calm {G : Placed} (s : State) (p : Partition) (v : Verdict) (h : s.Calm G) : (s.settleVerdict p v).Calm G := by
  unfold State.settleVerdict
  split
  · exact writeLaunchState_calm _ _ _ _ (State.vaStore_calm _ _ _ _ (State.modPart_calm _ _ _ (fun _ => ⟨rfl, rfl⟩) h))
  · exact h
  · exact State.record_calm _ _ h

theorem modWg_get (s : State) (k : Nat) (f : Workgroup → Workgroup) (hf : ∀ w, (f w).key = w.key) :
    (s.modWg k f).wg? k = (s.wg? k).map f := by
  unfold State.wg? State.modWg
  dsimp only
  generalize s.wgs = l
  induction l with
  | nil => rfl
  | cons a t ih =>
    simp only [replaceBy, List.find?_cons]
    by_cases h : a.key = k
    · simp [h, hf]
    · have : (a.key == k) = false := by simpa using h
      simp only [this, Bool.false_eq_true, if_false, List.find?_cons]; exact ih

theorem modTimeline_get (s : State) (k tl : Nat) (f : Timeline → Timeline) : (s.modTimeline k tl f).wg? k = (s.wg? k).map (fun w => { w with timelines := w.timelines.modify tl f }) :=
  modWg_get s k (fun w => { w with timelines := w.timelines.modify tl f }) (fun _ => rfl)

theorem modWg_groups (s : State) (k : Nat) (f) : (s.modWg k f).groups = s.groups := rfl

/-- The group function of a scalar write. -/
def sF (c : Ctx) (d n : Nat) (g : Group) : Group :=
  (g.dropPending c.free ((sPut true d n).map (fun kv => 2 ^ 20 + c.sIndex kv.1))).setS ((sPut true d n).map (fun kv => (c.sIndex kv.1, kv.2)))

theorem sF_frame (c : Ctx) (d n : Nat) (g : Group) : sF c d n g = { g with s := (sF c d n g).s, ops := (sF c d n g).ops } := by
  unfold sF; rw [setS_frame, dropPending_ops]

theorem sF_scalar (s : State) (c : Ctx) (x : Args) (d n : Nat) : c.g.wroteScalar (c.after s x (sF c d n c.g)) (c.sIndex d) true n := by
  refine wroteScalar_of c _ _ _ _ _ ?_
  simp only [Ctx.after, Group.modSplit, sF, Group.setS]; rw [dropPending_ops]

/-- A stream instruction's last steps with something to move. -/
theorem stream_some {s : State} {c : Ctx} {x : Args} {o : EngineOp} {barOff : Nat} (hs : s.sees c)
    (ho : o.gid = c.g.gid ∧ o.wgKey = c.w.key ∧ o.half = c.sp.half ∧ o.fmode = c.fmode)
    (hbar : x.mod.toNat / 8 % 2 = 1 → (s.barrierOperand c.w barOff).isSome = true)
    (h1 : s.entriesHeld c.w.phys < 32) (h2 : s.askedBefore c .entry = false) (htr : (s.partOf c.w.part).obs.trace.getLsbD 0 = false) :
    ∃ t g o', settleEff c x s (streamIssue c x (c.active x) s o barOff true) = .next t ∧ s.Queued t c x g o' ∧ t.mem = s.mem ∧ t.tags = s.tags ∧
      c.g.wroteScalar g (c.sIndex x.d.toNat) true ((c.w.timeline (x.mod.toNat % 8)).issued + 1) ∧ g.v = c.g.v ∧ g.vtags = c.g.vtags ∧ g.p = c.g.p ∧
      c.g.sameModes g ∧ g.flags = c.g.flags ∧
      (∃ w, t.wg? c.w.key = some w ∧ (x.mod.toNat % 8 < c.w.timelines.length → (w.timeline (x.mod.toNat % 8)).issued = (c.w.timeline (x.mod.toNat % 8)).issued + 1)) ∧
      o' = { o with barrier := (if x.mod.toNat / 8 % 2 == 1 then s.barrierOperand c.w barOff else none), timeline := x.mod.toNat % 8, ticket := (c.w.timeline (x.mod.toNat % 8)).issued + 1, intervals := realIntervals o.intervals, entry := !(realIntervals o.intervals).isEmpty } := by
  unfold streamIssue
  have hb : ((x.mod.toNat / 8 % 2 == 1) && (s.barrierOperand c.w barOff).isNone) = false := by
    by_cases hm : x.mod.toNat / 8 % 2 = 1
    · have := hbar hm; cases hx : s.barrierOperand c.w barOff <;> simp_all
    · simp [hm]
  simp only [hb, Bool.false_eq_true, if_false, entryWait_no h1 h2, if_true]
  generalize ho' : ({ o with barrier := (if x.mod.toNat / 8 % 2 == 1 then s.barrierOperand c.w barOff else none), timeline := x.mod.toNat % 8, ticket := (c.w.timeline (x.mod.toNat % 8)).issued + 1, intervals := realIntervals o.intervals, entry := !(realIntervals o.intervals).isEmpty } : EngineOp) = o'
  have htk : o'.ticket = (c.w.timeline (x.mod.toNat % 8)).issued + 1 := by rw [← ho']
  generalize hu : ((s.modCore c.w.phys (fun k => { k with ops := k.ops ++ [o'] })).bump).modTimeline c.w.key (x.mod.toNat % 8) (fun x => x.issue o'.effScope) = u
  have hgr : u.groups = s.groups := by rw [← hu]; rfl
  have hpt : u.parts = s.parts := by rw [← hu]; rfl
  have htrace : u.traceCopy c.w o' 1 = u := by
    unfold State.traceCopy
    have : u.partOf c.w.part = s.partOf c.w.part := by unfold State.partOf State.part?; rw [hpt]
    rw [this]; exact if_neg (by rw [htr]; decide)
  rw [htrace]
  have hcore : (u.core c.w.phys).ops = (s.core c.w.phys).ops ++ [o'] := by
    rw [← hu]
    show ((s.modCore c.w.phys (fun k => { k with ops := k.ops ++ [o'] })).core c.w.phys).ops = _
    rw [State.core_modCore, if_pos rfl]
  have hw : u.groups = (s.modGroup c.g.gid id).groups := by rw [hgr, State.modGroup_id]
  have hwr : u.writeS c (sPut true x.d.toNat ((c.w.timeline (x.mod.toNat % 8)).issued + 1)) = u.modGroup c.g.gid (sF c x.d.toNat ((c.w.timeline (x.mod.toNat % 8)).issued + 1)) := rfl
  have hq := queued_done (u := u.writeS c (sPut true x.d.toNat ((c.w.timeline (x.mod.toNat % 8)).issued + 1))) (x := x) hs (sF c x.d.toNat ((c.w.timeline (x.mod.toNat % 8)).issued + 1))
    (fun g => by rw [sF_frame]) (by rw [hwr]; unfold State.modGroup; simp only [hgr]) hcore (by rw [← ho']; exact ho)
  have hf := sF_frame c x.d.toNat ((c.w.timeline (x.mod.toNat % 8)).issued + 1) c.g
  have hsc := sF_scalar (u.writeS c (sPut true x.d.toNat ((c.w.timeline (x.mod.toNat % 8)).issued + 1))) c x x.d.toNat ((c.w.timeline (x.mod.toNat % 8)).issued + 1)
  generalize sF c x.d.toNat ((c.w.timeline (x.mod.toNat % 8)).issued + 1) c.g = G at *
  refine ⟨_, _, o', rfl, hq, ?_, ?_, hsc, ?_, ?_, ?_, ?_, ?_, ?_, rfl⟩
  · rw [← hu]; rfl
  · rw [← hu]; rfl
  · show G.v = _; rw [hf]
  · show G.vtags = _; rw [hf]
  · show G.p = _; rw [hf]
  · show (G.fmode0 = _ ∧ G.fmode1 = _ ∧ G.fstat0 = _ ∧ G.fstat1 = _); rw [hf]; exact ⟨rfl, rfl, rfl, rfl⟩
  · show G.flags = _; rw [hf]
  · have hwg : s.wg? c.w.key = some c.w := by
      have h := (State.sees_eq hs).2.1
      unfold State.wg? at *
      have := List.find?_some h
      have e : c.w.key = c.g.wgKey := by simpa using this
      rw [e]; exact h
    refine ⟨{ c.w with timelines := c.w.timelines.modify (x.mod.toNat % 8) (fun y => y.issue o'.effScope) }, ?_, ?_⟩
    · show u.wg? c.w.key = _
      rw [← hu]
      show (s.modTimeline c.w.key _ _).wg? c.w.key = _
      rw [modTimeline_get, hwg]; rfl
    · intro hl
      simp only [Workgroup.timeline, List.getD, List.getElem?_modify, if_true, List.getElem?_eq_getElem hl]
      rfl

theorem mem_assocPut {α : Type} (k : Nat) (v : α) (l : Assoc α) : (k, v) ∈ assocPut k v l ∧ ∀ e ∈ assocPut k v l, e ∈ l ∨ e = (k, v) := by
  induction l with
  | nil => simp [assocPut]
  | cons a t ih =>
    obtain ⟨k', v'⟩ := a
    unfold assocPut
    split
    · refine ⟨by simp, fun e he => ?_⟩
      rcases List.mem_cons.1 he with h | h
      · exact .inr h
      · exact .inl h
    · split
      · refine ⟨by simp, fun e he => ?_⟩
        rcases List.mem_cons.1 he with h | h
        · exact .inr h
        · exact .inl (by simp [h])
      · refine ⟨by simp [ih.1], fun e he => ?_⟩
        rcases List.mem_cons.1 he with h | h
        · exact .inl (by simp [h])
        · rcases ih.2 e h with h | h
          · exact .inl (by simp [h])
          · exact .inr h

theorem assocGet_mem {α : Type} (d : α) (k : Nat) (l : Assoc α) : assocGet d k l = d ∨ (k, assocGet d k l) ∈ l := by
  induction l with
  | nil => exact .inl rfl
  | cons a t ih =>
    obtain ⟨k', v'⟩ := a
    unfold assocGet
    split
    · rename_i h; subst h; exact .inr (by simp)
    · rcases ih with h | h
      · exact .inl h
      · exact .inr (by simp [h])

theorem op?_of_append {s t : State} {k : Nat} {o : EngineOp} (hn : s.op? o.id = none) (ht : t.cores = (s.modCore k (fun c => { c with ops := c.ops ++ [o] })).cores) :
    ∃ k', t.op? o.id = some (k', o) := by
  have hno : ∀ e ∈ s.cores, ∀ p ∈ e.2.ops, p.id ≠ o.id := by
    intro e he p hp hid
    unfold State.op? at hn
    cases hf : s.cores.find? (fun c => c.2.ops.any (fun q => q.id == o.id)) with
    | none =>
      have := List.find?_eq_none.1 hf e he
      exact this (List.any_eq_true.2 ⟨p, hp, by simp [hid]⟩)
    | some kc =>
      have h1 := List.find?_some hf
      rw [hf] at hn
      simp only [Option.map_eq_none_iff, List.find?_eq_none] at hn
      obtain ⟨q, hq, hqi⟩ := List.any_eq_true.1 h1
      exact hn q hq hqi
  have hcur : ∀ p ∈ (s.core k).ops, p.id ≠ o.id := by
    unfold State.core
    rcases assocGet_mem Core.reset k s.cores with h | h
    · rw [h]; intro p hp; cases hp
    · exact hno _ h
  have hne : ({ s.core k with ops := (s.core k).ops ++ [o] } : Core) ≠ Core.reset := by
    intro h; have := congrArg Core.ops h; simp [Core.reset] at this
  have hc : t.cores = assocPut k ({ s.core k with ops := (s.core k).ops ++ [o] } : Core) s.cores := by
    rw [ht]; unfold State.modCore assocSet; simp only [hne, if_false]
  obtain ⟨m1, m2⟩ := mem_assocPut k ({ s.core k with ops := (s.core k).ops ++ [o] } : Core) s.cores
  rw [← hc] at m1 m2
  unfold State.op?
  cases hf : t.cores.find? (fun c => c.2.ops.any (fun q => q.id == o.id)) with
  | none =>
    have := List.find?_eq_none.1 hf _ m1
    exact absurd (List.any_eq_true.2 ⟨o, by simp, by simp⟩) this
  | some kc =>
    have h1 := List.find?_some hf
    have h2 := List.mem_of_find?_eq_some hf
    obtain ⟨q, hq, hqi⟩ := List.any_eq_true.1 h1
    rcases m2 _ h2 with h | h
    · exact absurd (by simpa using hqi) (hno _ h q hq)
    · obtain ⟨k1, c1⟩ := kc
      simp only [Prod.mk.injEq] at h
      obtain ⟨rfl, rfl⟩ := h
      refine ⟨k1, ?_⟩
      dsimp only
      have : ((s.core k1).ops ++ [o]).find? (fun p => p.id == o.id) = some o := by
        rw [List.find?_append, List.find?_eq_none.2 (fun p hp => by simpa using hcur p hp)]; simp
      rw [this]; rfl

/-- A copy of no elements. -/
theorem stream_none {s : State} {c : Ctx} {x : Args} {o : EngineOp} {barOff : Nat} (hs : s.sees c)
    (ho : o.gid = c.g.gid ∧ o.wgKey = c.w.key ∧ o.half = c.sp.half ∧ o.fmode = c.fmode) (hsz : o.size = 0) (hcn : o.counted = 0) (hfs : o.fstat = 0) (hft : o.fault = none)
    (hid : o.id = s.serial) (hop : s.op? s.serial = none)
    (hbar : x.mod.toNat / 8 % 2 = 1 → (s.barrierOperand c.w barOff).isSome = true)
    (htr : (s.partOf c.w.part).obs.trace.getLsbD 0 = false) :
    ∃ t g, settleEff c x s (streamIssue c x (c.active x) s o barOff false) = .next t ∧ t.group? c.g.gid = some g ∧ g.passed c x ∧ t.mem = s.mem ∧ t.tags = s.tags ∧
      c.g.wroteScalar g (c.sIndex x.d.toNat) true ((c.w.timeline (x.mod.toNat % 8)).issued + 1) ∧ g.v = c.g.v ∧ g.vtags = c.g.vtags ∧ g.p = c.g.p ∧
      c.g.sameModes g ∧ g.flags = c.g.flags ∧
      (∃ w, t.wg? c.w.key = some w ∧ (x.mod.toNat % 8 < c.w.timelines.length → (w.timeline (x.mod.toNat % 8)).issued = (c.w.timeline (x.mod.toNat % 8)).issued + 1)) ∧
      ∀ o ∈ (t.core c.w.phys).ops, o ∈ (s.core c.w.phys).ops := by
  unfold streamIssue
  have hb : ((x.mod.toNat / 8 % 2 == 1) && (s.barrierOperand c.w barOff).isNone) = false := by
    by_cases hm : x.mod.toNat / 8 % 2 = 1
    · have := hbar hm; cases hx : s.barrierOperand c.w barOff <;> simp_all
    · simp [hm]
  have hwait : ∀ o : EngineOp, o.entry = false → s.entryWait c o = false := by intro o h; unfold State.entryWait; simp [h]
  simp only [hb, Bool.false_eq_true, if_false]
  rw [hwait _ rfl]
  simp only [Bool.false_eq_true, if_false, List.isEmpty_nil, Bool.not_true]
  generalize ho' : ({ o with barrier := (if x.mod.toNat / 8 % 2 == 1 then s.barrierOperand c.w barOff else none), timeline := x.mod.toNat % 8, ticket := (c.w.timeline (x.mod.toNat % 8)).issued + 1, intervals := [], entry := false } : EngineOp) = o'
  have hk : o'.ticket = (c.w.timeline (x.mod.toNat % 8)).issued + 1 ∧ o'.gid = c.g.gid ∧ o'.half = c.sp.half ∧ o'.size = 0 ∧ o'.counted = 0 ∧ o'.fstat = 0 ∧ o'.fault = none ∧ o'.id = s.serial ∧ o'.timeline = x.mod.toNat % 8 := by
    subst ho'; exact ⟨rfl, ho.1, ho.2.2.1, hsz, hcn, hfs, hft, hid, rfl⟩
  generalize hu : ((s.modCore c.w.phys (fun k => { k with ops := k.ops ++ [o'] })).bump).modTimeline c.w.key (x.mod.toNat % 8) (fun x => x.issue o'.effScope) = u
  have hgr : u.groups = s.groups := by rw [← hu]; rfl
  have hpt : u.parts = s.parts := by rw [← hu]; rfl
  have htrace : ∀ (v : State) k, v.parts = s.parts → v.traceCopy c.w o' k = v := by
    intro v k hv
    unfold State.traceCopy
    have : v.partOf c.w.part = s.partOf c.w.part := by unfold State.partOf State.part?; rw [hv]
    rw [this]; exact if_neg (by rw [htr]; decide)
  rw [htrace u 1 hpt]
  generalize hn : (c.w.timeline (x.mod.toNat % 8)).issued + 1 = n at *
  -- completion
  have hcount : ∀ v : State, v.countBytes c.w.phys o' o'.size = v := by
    intro v; unfold State.countBytes
    cases o'.barrier with
    | none => rfl
    | some k => simp [hk.2.2.2.1]
  obtain ⟨k', hfind⟩ := op?_of_append (s := s) (t := u.writeS c (sPut true x.d.toNat n)) (k := c.w.phys) (o := o') (by rw [hk.2.2.2.2.2.2.2.1]; exact hop) (by rw [← hu]; rfl)
  have hcomp : (u.writeS c (sPut true x.d.toNat n)).completeStream c.w.phys c.w o' =
      (((u.writeS c (sPut true x.d.toNat n)).modGroup c.g.gid (fun g => g.addFlags o'.half 0)).modTimeline c.w.key (x.mod.toNat % 8) (fun y => y.complete n)).dropOp c.w.phys o'.id := by
    unfold State.completeStream
    rw [hcount]
    dsimp only
    rw [hfind]
    simp only [hk.2.2.2.2.2.2.1, Option.isSome_none, Bool.false_eq_true, if_false, hk.2.1, hk.2.2.2.2.2.1, hk.2.2.2.2.2.2.2.2, hk.1]
    rw [htrace _ 3 (by exact hpt)]
  rw [hcomp]
  have hwg : s.wg? c.w.key = some c.w := by
    have h := (State.sees_eq hs).2.1
    unfold State.wg? at *
    have := List.find?_some h
    have e : c.w.key = c.g.wgKey := by simpa using this
    rw [e]; exact h
  generalize hv : (((u.writeS c (sPut true x.d.toNat n)).modGroup c.g.gid (fun g => g.addFlags o'.half 0)).modTimeline c.w.key (x.mod.toNat % 8) (fun y => y.complete n)).dropOp c.w.phys o'.id = v
  have haf : ∀ g : Group, g.addFlags o'.half 0 = { g with fstat0 := (g.addFlags o'.half 0).fstat0, fstat1 := (g.addFlags o'.half 0).fstat1 } := by
    intro g; unfold Group.addFlags; split <;> rfl
  have haf0 : ∀ g : Group, (g.addFlags o'.half 0).fstat0 = g.fstat0 ∧ (g.addFlags o'.half 0).fstat1 = g.fstat1 := by
    intro g; unfold Group.addFlags; split <;> simp
  have hgv : v.groups = (s.modGroup c.g.gid (fun g => (sF c x.d.toNat n g).addFlags o'.half 0)).groups := by
    rw [← State.modGroup_modGroup s c.g.gid (sF c x.d.toNat n) (fun g => g.addFlags o'.half 0) (fun g => by rw [sF_frame]), ← hv]
    show ((u.modGroup c.g.gid (sF c x.d.toNat n)).modGroup c.g.gid _).groups = _
    unfold State.modGroup; simp only [hgr]
  have hg0 : v.group? c.g.gid = some ((sF c x.d.toNat n c.g).addFlags o'.half 0) := by
    have := State.group?_modGroup s c.g.gid c.g.gid (fun g => (sF c x.d.toNat n g).addFlags o'.half 0) (fun g => by rw [haf, sF_frame])
    rw [if_pos rfl, (State.sees_eq hs).1] at this
    unfold State.group? at *; rw [hgv]; exact this
  have hf := sF_frame c x.d.toNat n c.g
  have hsc := sF_scalar v c x x.d.toNat n
  have ha := haf (sF c x.d.toNat n c.g)
  have ha0 := haf0 (sF c x.d.toNat n c.g)
  generalize (sF c x.d.toNat n c.g).addFlags o'.half 0 = H at *
  generalize sF c x.d.toNat n c.g = G at *
  refine ⟨_, c.after v x H, rfl, ?_, ?_, ?_, ?_, ?_, ?_, ?_, ?_, ?_, ?_, ?_, ?_⟩
  · show (v.finish c x).group? c.g.gid = _
    rw [State.finish_eq]
    have := State.group?_modGroup v c.g.gid c.g.gid (fun g => c.after v x g) (fun _ => rfl)
    rw [if_pos rfl, hg0] at this; exact this
  · exact Ctx.after_passed hs x _ (by rw [ha, hf])
  · show v.mem = _; rw [← hv, ← hu]; rfl
  · show v.tags = _; rw [← hv, ← hu]; rfl
  · intro k; have := hsc k; simp only [Group.sReg, Ctx.after, Group.modSplit] at this ⊢; rw [ha]; exact this
  · show H.v = _; rw [ha, hf]
  · show H.vtags = _; rw [ha, hf]
  · show H.p = _; rw [ha, hf]
  · show (H.fmode0 = _ ∧ H.fmode1 = _ ∧ H.fstat0 = _ ∧ H.fstat1 = _)
    rw [ha0.1, ha0.2, ha, hf]; exact ⟨rfl, rfl, rfl, rfl⟩
  · show H.flags = _; rw [ha, hf]
  · refine ⟨{ c.w with timelines := (c.w.timelines.modify (x.mod.toNat % 8) (fun y => y.issue o'.effScope)).modify (x.mod.toNat % 8) (fun y => y.complete n) }, ?_, ?_⟩
    · show v.wg? c.w.key = _
      have w1 : u.wgs = (s.modTimeline c.w.key (x.mod.toNat % 8) (fun y => y.issue o'.effScope)).wgs := by rw [← hu]; rfl
      have w2 : v.wgs = (u.modTimeline c.w.key (x.mod.toNat % 8) (fun y => y.complete n)).wgs := by rw [← hv]; rfl
      have w3 : u.wg? c.w.key = (s.wg? c.w.key).map (fun w => { w with timelines := w.timelines.modify (x.mod.toNat % 8) (fun y => y.issue o'.effScope) }) := by
        rw [← modTimeline_get]; unfold State.wg?; rw [w1]
      have w4 : v.wg? c.w.key = (u.wg? c.w.key).map (fun w => { w with timelines := w.timelines.modify (x.mod.toNat % 8) (fun y => y.complete n) }) := by
        rw [← modTimeline_get]; unfold State.wg?; rw [w2]
      rw [w4, w3, hwg]; rfl
    · intro hl
      simp only [Workgroup.timeline, List.getD, List.getElem?_modify, if_true, List.getElem?_eq_getElem hl, List.length_modify]
      rw [← hn]
      simp [Timeline.complete, Timeline.issue, Workgroup.timeline, List.getElem?_eq_getElem hl]
  · intro q hq
    have : q ∈ (v.core c.w.phys).ops := hq
    rw [← hv] at this
    unfold State.dropOp at this
    rw [State.core_modCore, if_pos rfl] at this
    obtain ⟨h1, h2⟩ := List.mem_filter.1 this
    have h3 : q ∈ (u.core c.w.phys).ops := h1
    rw [← hu] at h3
    have h4 : q ∈ ((s.modCore c.w.phys (fun k => { k with ops := k.ops ++ [o'] })).core c.w.phys).ops := h3
    rw [State.core_modCore, if_pos rfl] at h4
    rcases List.mem_append.1 h4 with h | h
    · exact h
    · rw [List.mem_singleton] at h; subst h; simp at h2

theorem bar_iff {s : State} {c : Ctx} {x : Args} {off : Nat} (h : x.mod.toNat / 8 % 2 = 1 → (s.barrierOperand c.w off).isSome = true) :
    ((if x.mod.toNat / 8 % 2 == 1 then s.barrierOperand c.w off else none).isSome = true ↔ x.mod.toNat / 8 % 2 = 1) := by
  by_cases hm : x.mod.toNat / 8 % 2 = 1
  · simp [hm, h hm]
  · simp [hm]

theorem real_lt {l : List Interval} {i : Interval} (h : i ∈ realIntervals l) : i.lo < i.hi := by
  unfold realIntervals at h; simpa using (List.mem_filter.1 h).2

end Sys2Proof.Laws
end

