-- ==== Sys2Proof/Laws/Clauses.lean ====
section
/-!
SUPPORT. Lemmas: the fetch of a clause (06 R112 to R119).
-/
namespace Sys2Proof.Laws
open Sys2Proof.Machine

theorem fetchWords_len {s : State} {c : Ctx} {va n : Nat} {t : State} {ws : List DWord} (h : s.fetchWords c va n = .ok (t, ws)) : ws.length = n := by
  induction n generalizing s va ws t with
  | zero => simp only [State.fetchWords, Except.ok.injEq, Prod.mk.injEq] at h; obtain ⟨-, rfl⟩ := h; rfl
  | succ n ih =>
    simp only [State.fetchWords] at h
    split at h
    · cases h
    · cases h
    · split at h
      · cases h
      · rename_i e
        simp only [Except.ok.injEq, Prod.mk.injEq] at h
        obtain ⟨-, rfl⟩ := h
        simp [ih e]

theorem modSplit_const {s : State} {g sid : Nat} {G : Group} {f : Split → Split} (hg : s.group? g = some G) :
    s.modGroup g (fun _ => G.modSplit sid f) = s.modSplit g sid f := State.modGroup_congr hg rfl

theorem fillLine_frame (s : State) (core part line pa : Nat) (ord : Bool) : s.SameView (s.fillLine core part line pa ord) ∧ (∀ G : Placed, s.Calm G → (s.fillLine core part line pa ord).Calm G) ∧
   ((s.fillLine core part line pa ord).core core).line? part line ≠ none := by
  unfold State.fillLine
  dsimp only
  refine ⟨(share_sameView s _ _).trans (sameView_modCore _ _ (fun _ => rfl)), fun G h => State.modCore_calm _ _ _ (State.share__calm _ _ _ h), ?_⟩
  rw [State.core_modCore, if_pos rfl]
  simp [Core.line?, List.take_succ_cons]

theorem prefetch_frame (n : Nat) (s : State) (c : Ctx) (va : Nat) : s.SameView (s.prefetchLines c va n) ∧ (∀ G : Placed, s.Calm G → (s.prefetchLines c va n).Calm G) := by
  induction n generalizing s va with
  | zero => exact ⟨.refl s, fun _ h => h⟩
  | succ n ih =>
    unfold State.prefetchLines
    dsimp only
    split
    · exact ⟨.refl s, fun _ h => h⟩
    · split
      · exact ⟨.refl s, fun _ h => h⟩
      · split
        · exact ⟨.refl s, fun _ h => h⟩
        · split
          · exact ih _ _
          · obtain ⟨a, b, -⟩ := fillLine_frame s c.w.phys (s.partOf c.w.part).num (va / 128) (by assumption) false
            obtain ⟨a', b'⟩ := ih (s.fillLine c.w.phys (s.partOf c.w.part).num (va / 128) (by assumption) false) (va / 128 * 128 + 128)
            exact ⟨a.trans a', fun G h => b' G (b G h)⟩

end Sys2Proof.Laws
end

