-- ==== Sys2Proof/Laws/Keep.lean ====
section
/-!
SUPPORT. What keeps the invariant of the machine (canonical memory, four dies of seven clusters, 64-bit cycles): the
updates of a state from which every step is made.
-/
namespace Sys2Proof.Machine

/-- The dies of a package: their number, their clusters and their cycle counters. -/
def diesOk (ds : List Die) : Prop := ds.length = 4 ∧ ∀ d ∈ ds, d.clusters.length = 7 ∧ d.cycle < 2 ^ 64

theorem State.inv_iff (s : State) : s.Inv ↔ Memory.wf s.mem = true ∧ diesOk s.dies := by
  unfold State.Inv State.memWf State.wholePackage State.cyclesFit diesOk
  constructor
  · rintro ⟨h1, ⟨h2, h3⟩, h4⟩; exact ⟨h1, h2, fun d hd => ⟨h3 d hd, h4 d hd⟩⟩
  · rintro ⟨h1, h2, h3⟩; exact ⟨h1, ⟨h2, fun d hd => (h3 d hd).1⟩, fun d hd => (h3 d hd).2⟩

/-- An update that leaves memory and the dies alone. -/
theorem State.Inv.same {s t : State} (hm : t.mem = s.mem) (hd : t.dies = s.dies) (h : s.Inv) : t.Inv := by
  rw [State.inv_iff] at *; rw [hm, hd]; exact h

theorem State.Inv.withMem {s t : State} (hm : Memory.wf t.mem = true) (hd : t.dies = s.dies) (h : s.Inv) : t.Inv := by
  rw [State.inv_iff] at *; rw [hd]; exact ⟨hm, h.2⟩

theorem State.Inv.withDies {s t : State} (hm : t.mem = s.mem) (hd : diesOk t.dies) (h : s.Inv) : t.Inv := by
  rw [State.inv_iff] at *; rw [hm]; exact ⟨h.1, hd⟩

theorem State.Inv.mem {s : State} (h : s.Inv) : Memory.wf s.mem = true := (s.inv_iff.1 h).1
theorem State.Inv.dies {s : State} (h : s.Inv) : diesOk s.dies := (s.inv_iff.1 h).2

theorem diesOk_map {ds : List Die} (h : diesOk ds) (f : Die → Die)
    (hf : ∀ d : Die, d.clusters.length = 7 ∧ d.cycle < 2 ^ 64 → (f d).clusters.length = 7 ∧ (f d).cycle < 2 ^ 64) :
    diesOk (ds.map f) := by
  refine ⟨by simpa using h.1, fun d hd => ?_⟩
  obtain ⟨d', hd', rfl⟩ := List.mem_map.1 hd
  exact hf d' (h.2 d' hd')

theorem diesOk_modify {ds : List Die} (h : diesOk ds) (n : Nat) (f : Die → Die)
    (hf : ∀ d : Die, d.clusters.length = 7 ∧ d.cycle < 2 ^ 64 → (f d).clusters.length = 7 ∧ (f d).cycle < 2 ^ 64) :
    diesOk (ds.modify n f) := by
  refine ⟨by simpa using h.1, fun d hd => ?_⟩
  obtain ⟨i, hi, rfl⟩ := List.mem_iff_getElem.1 hd
  rw [List.getElem_modify]
  split
  · exact hf _ (h.2 _ (List.getElem_mem _))
  · exact h.2 _ (List.getElem_mem _)

theorem State.modDie_inv {s : State} (h : s.Inv) (n : Nat) (f : Die → Die)
    (hf : ∀ d : Die, d.clusters.length = 7 ∧ d.cycle < 2 ^ 64 → (f d).clusters.length = 7 ∧ (f d).cycle < 2 ^ 64) :
    (s.modDie n f).Inv :=
  State.Inv.withDies (s := s) rfl (diesOk_modify h.dies n f hf) h

theorem State.modShare_inv {s : State} (h : s.Inv) (n : Nat) (f : ClusterShare → ClusterShare) : (s.modShare n f).Inv :=
  s.modDie_inv h _ _ (fun d hd => by simpa using hd)

theorem State.putBytes_inv {s : State} (h : s.Inv) (ws : List (Nat × Byte)) : (s.putBytes ws).Inv :=
  State.Inv.withMem (s := s) (assocWf_sets ws h.mem) rfl h

/-- A fold of updates each of which keeps it. -/
theorem inv_foldl {α : Type} {f : State → α → State} (hf : ∀ s a, s.Inv → (f s a).Inv) (l : List α) {s : State} (h : s.Inv) :
    (l.foldl f s).Inv := by
  induction l generalizing s with
  | nil => exact h
  | cons a t ih => exact ih (hf s a h)

theorem inv_foldl_fst {α β : Type} {f : State × β → α → State × β} (hf : ∀ p a, p.1.Inv → (f p a).1.Inv) (l : List α)
    {p : State × β} (h : p.1.Inv) : (l.foldl f p).1.Inv := by
  induction l generalizing p with
  | nil => exact h
  | cons a t ih => exact ih (hf p a h)

theorem inv_of_fst {α : Type} {p : State × α} {s : State} {a : α} (h : p.1.Inv) (e : p = (s, a)) : s.Inv := by
  subst e; exact h

theorem inv_of_snd {α : Type} {p : α × State} {s : State} {a : α} (h : p.2.Inv) (e : p = (a, s)) : s.Inv := by
  subst e; exact h

/-- What an issue does keeps the invariant. -/
def Eff.Inv (e : Eff) : Prop :=
  match e with
  | .done s => s.Inv
  | .trap s _ _ => s.Inv
  | .wait s _ => s.Inv
  | .moved s => s.Inv
  | .held _ => True

/-- An outcome whose next state, if it has one, meets the invariant. -/
def outInv (o : Host.Outcome State Fault Refusal) : Prop :=
  match o with
  | .next s => s.Inv
  | _ => True

theorem outInv_next {s : State} (h : s.Inv) : outInv (.next s) := h

/-- The invariant, of memory and the dies. -/
def invOf (m : List Host.Cell) (ds : List Die) : Prop := Memory.wf m = true ∧ diesOk ds

theorem invOf_of {s : State} (h : s.Inv) : invOf s.mem s.dies := s.inv_iff.1 h

theorem invOf_sets {s : State} (ws : List (Nat × Byte)) (h : s.Inv) : invOf (assocSets resetByte ws s.mem) s.dies :=
  ⟨assocWf_sets ws h.mem, h.dies⟩

theorem invOf_filter {s : State} (p : Host.Cell → Bool) (h : s.Inv) : invOf (s.mem.filter p) s.dies :=
  ⟨assocWf_filter h.mem, h.dies⟩

theorem invOf_dies {s : State} (f : Die → Die) (h : s.Inv)
    (hf : ∀ d : Die, d.clusters.length = 7 ∧ d.cycle < 2 ^ 64 → (f d).clusters.length = 7 ∧ (f d).cycle < 2 ^ 64) :
    invOf s.mem (s.dies.map f) := ⟨h.mem, diesOk_map h.dies f hf⟩

theorem invOf_modify {s : State} (n : Nat) (f : Die → Die) (h : s.Inv)
    (hf : ∀ d : Die, d.clusters.length = 7 ∧ d.cycle < 2 ^ 64 → (f d).clusters.length = 7 ∧ (f d).cycle < 2 ^ 64) :
    invOf s.mem (s.dies.modify n f) := ⟨h.mem, diesOk_modify h.dies n f hf⟩

/-- The invariant of a state written out. -/
theorem inv_mk (cur_ : Option (Nat × Nat)) (agenda_ : List Instr) (free_ : Nat) (serial_ : Nat) (bus_ : List Byte) (mem_ : List Host.Cell) (tags_ : List Nat) (poison_ : List Nat) (dies_ : List Die) (cores_ : Assoc Core) (parts_ : List Partition) (wgs_ : List Workgroup) (groups_ : List Group) (records_ : List ErrorRecord) (recordBase_ : Nat) (classes_ : List Nat) (halts_ : List Halt) (mailbox_ : Mailbox) (master_ : Nat) (pod_ : Nat) (paths_ : List BraidPath) (counts_ : List BraidCount) (perfs_ : List BraidPerf) (sent_ : List SentPacket) (answers_ : List (SentPacket × Nat)) (reply_ : Option Reply) (heldPkts_ : List Packet) (farResv_ : List FarResv) (linkDown_ : Bool) (badLanes_ : List Nat) (retrains_ : Assoc Nat) (powerCap_ : Bool) (snap_ : Snapshot) (samples_ : List PendingSample) :
    State.Inv (State.mk cur_ agenda_ free_ serial_ bus_ mem_ tags_ poison_ dies_ cores_ parts_ wgs_ groups_ records_ recordBase_ classes_ halts_ mailbox_ master_ pod_ paths_ counts_ perfs_ sent_ answers_ reply_ heldPkts_ farResv_ linkDown_ badLanes_ retrains_ powerCap_ snap_ samples_) ↔ invOf mem_ dies_ := State.inv_iff _

theorem outInv_fault (r : Fault) : outInv (.fault r) := trivial
theorem outInv_refused (r : Refusal) : outInv (.refused r) := trivial
theorem eff_held (k : Hold) : (Eff.held k).Inv := trivial
theorem inv_ite {p : Prop} [Decidable p] {s t : State} (hs : s.Inv) (ht : t.Inv) : (if p then s else t).Inv := by
  split <;> assumption

theorem eff_ite {p : Prop} [Decidable p] {a b : Eff} (ha : a.Inv) (hb : b.Inv) : (if p then a else b).Inv := by
  split <;> assumption

/-- A state that may be there meets the invariant. -/
def optInv (o : Option State) : Prop :=
  match o with
  | some s => s.Inv
  | none => True

theorem optInv_some {s : State} (h : s.Inv) : optInv (some s) := h
theorem optInv_none : optInv none := trivial
theorem optInv_ite {p : Prop} [Decidable p] {a b : Option State} (ha : optInv a) (hb : optInv b) :
    optInv (if p then a else b) := by split <;> assumption

theorem optInv_bind {α : Type} {o : Option α} {f : α → Option State} (h : ∀ a, optInv (f a)) : optInv (o.bind f) := by
  cases o with
  | none => trivial
  | some a => exact h a

theorem eff_done {s : State} (h : s.Inv) : (Eff.done s).Inv := h
theorem eff_trap {s : State} (h : s.Inv) (ts : List LaneTrap) (aux : Byte) : (Eff.trap s ts aux).Inv := h
theorem eff_wait {s : State} (h : s.Inv) (k : Hold) : (Eff.wait s k).Inv := h
theorem eff_moved {s : State} (h : s.Inv) : (Eff.moved s).Inv := h

end Sys2Proof.Machine
end

