-- ==== Sys2Proof/Laws/KeepMemory.lean ====
section
/-!
SUPPORT. Each operation keeps the invariant of the machine: the memories, the directory, the records and the interrupt registers.
-/
namespace Sys2Proof.Machine

/-! ### View -/

theorem State.modGroup_inv (s : State) (g : Nat) (f : Group → Group) (h_s : s.Inv) :
    (State.modGroup s g f).Inv := by
  unfold State.modGroup
  try dsimp only
  repeat' (first
    | with_reducible assumption | simp only [inv_mk] | with_reducible apply invOf_of)

theorem State.modSplit_inv (s : State) (g sid : Nat) (f : Split → Split) (h_s : s.Inv) :
    (State.modSplit s g sid f).Inv := by
  unfold State.modSplit
  try dsimp only
  repeat' (first
    | with_reducible assumption | with_reducible apply State.modGroup_inv)

theorem State.modWg_inv (s : State) (k : Nat) (f : Workgroup → Workgroup) (h_s : s.Inv) :
    (State.modWg s k f).Inv := by
  unfold State.modWg
  try dsimp only
  repeat' (first
    | with_reducible assumption | simp only [inv_mk] | with_reducible apply invOf_of)

theorem State.modPart_inv (s : State) (n : Nat) (f : Partition → Partition) (h_s : s.Inv) :
    (State.modPart s n f).Inv := by
  unfold State.modPart
  try dsimp only
  repeat' (first
    | with_reducible assumption | simp only [inv_mk] | with_reducible apply invOf_of)

theorem State.modLaunch_inv (s : State) (n t : Nat) (f : Launch → Launch) (h_s : s.Inv) :
    (State.modLaunch s n t f).Inv := by
  unfold State.modLaunch
  try dsimp only
  repeat' (first
    | with_reducible assumption | with_reducible apply State.modPart_inv)

theorem State.modCore_inv (s : State) (c : Nat) (f : Core → Core) (h_s : s.Inv) :
    (State.modCore s c f).Inv := by
  unfold State.modCore
  try dsimp only
  repeat' (first
    | with_reducible assumption | simp only [inv_mk] | with_reducible apply invOf_of)

theorem State.bump_inv (s : State) (h_s : s.Inv) :
    (State.bump s).Inv := by
  unfold State.bump
  try dsimp only
  repeat' (first
    | with_reducible assumption | simp only [inv_mk] | with_reducible apply invOf_of)

theorem State.drawBool_inv (s : State) (h_s : s.Inv) :
    (State.drawBool s).2.Inv := by
  unfold State.drawBool
  try dsimp only
  repeat' (first
    | with_reducible assumption | simp only [inv_mk] | with_reducible apply invOf_of)

theorem State.drawNat_inv (s : State) (h_s : s.Inv) :
    (State.drawNat s).2.Inv := by
  unfold State.drawNat
  try dsimp only
  repeat' (first
    | with_reducible assumption | simp only [inv_mk] | with_reducible apply invOf_of)

theorem State.drawDWord_inv (s : State) (h_s : s.Inv) :
    (State.drawDWord s).2.Inv := by
  unfold State.drawDWord
  try dsimp only
  repeat' (first
    | with_reducible assumption | simp only [inv_mk] | with_reducible apply invOf_of)

theorem State.modOp_inv (s : State) (core n : Nat) (f : EngineOp → EngineOp) (h_s : s.Inv) :
    (State.modOp s core n f).Inv := by
  unfold State.modOp
  try dsimp only
  repeat' (first
    | with_reducible assumption | with_reducible apply State.modCore_inv)

theorem State.dropOp_inv (s : State) (core n : Nat) (h_s : s.Inv) :
    (State.dropOp s core n).Inv := by
  unfold State.dropOp
  try dsimp only
  repeat' (first
    | with_reducible assumption | with_reducible apply State.modCore_inv)

/-! ### Memory -/

theorem State.cancelResv_inv (s : State) (ks : List Nat) (status : Nat) (but : Option (Nat × Nat)) (h_s : s.Inv) :
    (State.cancelResv s ks status but).Inv := by
  unfold State.cancelResv
  try dsimp only
  repeat' (first
    | with_reducible assumption | simp only [inv_mk] | with_reducible apply invOf_of)

theorem State.store_inv (s : State) (ws : List (Nat × Byte)) (but : Option (Nat × Nat)) (h_s : s.Inv) :
    (State.store s ws but).Inv := by
  unfold State.store
  try dsimp only
  repeat' (first
    | with_reducible assumption | with_reducible apply State.cancelResv_inv
    | with_reducible apply State.putBytes_inv | with_reducible apply inv_ite)

theorem State.tagKeys_inv (s : State) (ks : List Nat) (h_s : s.Inv) :
    (State.tagKeys s ks).Inv := by
  unfold State.tagKeys
  try dsimp only
  repeat' (first
    | with_reducible assumption | simp only [inv_mk] | with_reducible apply invOf_of)

theorem State.storeBytes_inv (s : State) (k : Nat) (bs : List Byte) (h_s : s.Inv) :
    (State.storeBytes s k bs).Inv := by
  unfold State.storeBytes
  try dsimp only
  repeat' (first
    | with_reducible assumption | with_reducible apply State.store_inv)

theorem State.storeNum_inv (s : State) (k n x : Nat) (h_s : s.Inv) :
    (State.storeNum s k n x).Inv := by
  unfold State.storeNum
  try dsimp only
  repeat' (first
    | with_reducible assumption | with_reducible apply State.storeBytes_inv)

theorem State.storePtr_inv (s : State) (k : Nat) (q : PtrBits) (h_s : s.Inv) :
    (State.storePtr s k q).Inv := by
  unfold State.storePtr
  try dsimp only
  repeat' (first
    | with_reducible assumption | with_reducible apply State.storeBytes_inv | simp only [inv_mk]
    | with_reducible apply invOf_of)

theorem State.wipe_inv (s : State) (lo n : Nat) (h_s : s.Inv) :
    (State.wipe s lo n).Inv := by
  unfold State.wipe
  try dsimp only
  repeat' (first
    | with_reducible assumption | simp only [inv_mk] | with_reducible apply invOf_filter)

/-! ### Translate -/

theorem State.install_inv (s : State) (core : Nat) (p : Partition) (va : Nat) (h_s : s.Inv) :
    (State.install s core p va).Inv := by
  unfold State.install
  try dsimp only
  repeat' (first
    | with_reducible assumption | with_reducible apply State.modCore_inv | with_reducible apply State.modPart_inv
    | with_reducible apply inv_ite | split)

theorem State.touch_inv (s : State) (core : Nat) (p : Partition) (va : Nat) (h_s : s.Inv) :
    (State.touch s core p va).Inv := by
  unfold State.touch
  try dsimp only
  repeat' (first
    | with_reducible assumption | with_reducible apply State.install_inv | split)

theorem State.touches_inv (s : State) (core : Nat) (p : Partition) (vas : List Nat) (h_s : s.Inv) :
    (State.touches s core p vas).Inv := by
  unfold State.touches
  try dsimp only
  repeat' (first
    | with_reducible assumption | intro _ | with_reducible apply State.touch_inv | with_reducible apply inv_foldl)

/-! ### Coherence -/

theorem State.count_inv (s : State) (die part : Nat) (f : CohCounters → CohCounters) (h_s : s.Inv) :
    (State.count s die part f).Inv := by
  unfold State.count
  try dsimp only
  repeat' (first
    | with_reducible assumption | (intro d hd; exact hd) | with_reducible apply State.modDie_inv)

theorem State.cancelSlice_inv (s : State) (die lo n : Nat) (home : Bool) (h_s : s.Inv) :
    (State.cancelSlice s die lo n home).Inv := by
  unfold State.cancelSlice
  try dsimp only
  repeat' (first
    | with_reducible assumption | simp only [inv_mk] | with_reducible apply invOf_of)

theorem State.dropLineResv_inv (s : State) (core : Nat) (lines : List Nat) (h_s : s.Inv) :
    (State.dropLineResv s core lines).Inv := by
  unfold State.dropLineResv
  try dsimp only
  repeat' (first
    | with_reducible assumption | simp only [inv_mk] | with_reducible apply invOf_of | with_reducible apply inv_ite)

theorem State.recallLines_inv (s : State) (holder lo n : Nat) (sharing home : Bool) (h_s : s.Inv) :
    (State.recallLines s holder lo n sharing home).Inv := by
  unfold State.recallLines
  try dsimp only
  repeat' (first
    | with_reducible assumption | intro _ | with_reducible apply State.cancelSlice_inv
    | with_reducible apply State.dropLineResv_inv | simp only [inv_mk] | with_reducible apply invOf_of
    | with_reducible apply inv_foldl | with_reducible apply inv_ite)

theorem State.recallNode_inv (s : State) (homeD holder : Nat) (n : Node) (sharing : Bool) (h_s : s.Inv) :
    (State.recallNode s homeD holder n sharing).Inv := by
  unfold State.recallNode
  try dsimp only
  repeat' (first
    | with_reducible assumption | with_reducible apply State.count_inv | with_reducible apply State.recallLines_inv
    | with_reducible apply inv_ite)

theorem State.splitNode_inv (s : State) (homeD : Nat) (n : Node) (line : Nat) (h_s : s.Inv) :
    (State.splitNode s homeD n line).1.Inv := by
  unfold State.splitNode
  try dsimp only
  repeat' (first
    | with_reducible assumption | (intro d hd; exact hd) | with_reducible apply State.count_inv
    | with_reducible apply State.modDie_inv)

theorem State.dirRequest_inv (s : State) (h : Nat) (own : Bool) (line : Nat) (h_s : s.Inv) :
    (State.dirRequest s h own line).Inv := by
  unfold State.dirRequest
  try dsimp only
  repeat' (first
    | with_reducible assumption | (intro d hd; exact hd) | intro _ | with_reducible apply State.modDie_inv
    | with_reducible apply State.recallNode_inv | with_reducible apply State.splitNode_inv
    | with_reducible apply inv_foldl | with_reducible apply inv_ite | split)

theorem State.own_inv (s : State) (die line : Nat) (h_s : s.Inv) :
    (State.own s die line).Inv := by
  unfold State.own
  try dsimp only
  repeat' (first
    | with_reducible assumption | with_reducible apply State.dirRequest_inv | with_reducible apply inv_ite)

theorem State.share__inv (s : State) (die line : Nat) (h_s : s.Inv) :
    (State.share_ s die line).Inv := by
  unfold State.share_
  try dsimp only
  repeat' (first
    | with_reducible assumption | with_reducible apply State.dirRequest_inv | with_reducible apply inv_ite)

theorem State.cancelOthers_inv (s : State) (core : Nat) (ks : List Nat) (h_s : s.Inv) :
    (State.cancelOthers s core ks).Inv := by
  unfold State.cancelOthers
  try dsimp only
  repeat' (first
    | with_reducible assumption | simp only [inv_mk] | with_reducible apply invOf_of)

theorem State.collect_inv (s : State) (k : Nat) (but : Option Nat) (h_s : s.Inv) :
    (State.collect s k but).Inv := by
  unfold State.collect
  try dsimp only
  repeat' (first
    | with_reducible assumption | intro _ | with_reducible apply State.modCore_inv | with_reducible apply inv_foldl)

theorem State.registerWord_inv (s : State) (core k : Nat) (evict : Bool) (h_s : s.Inv) :
    (State.registerWord s core k evict).Inv := by
  unfold State.registerWord
  try dsimp only
  repeat' (first
    | with_reducible assumption | intro _ | with_reducible apply State.cancelOthers_inv
    | with_reducible apply State.collect_inv | with_reducible apply State.count_inv
    | with_reducible apply State.modCore_inv | with_reducible apply State.own_inv
    | with_reducible apply State.putBytes_inv | with_reducible apply State.tagKeys_inv
    | with_reducible apply inv_foldl | with_reducible apply inv_ite | split)

theorem State.evictWords_inv (s : State) (core : Nat) (ks : List Nat) (h_s : s.Inv) :
    (State.evictWords s core ks).Inv := by
  unfold State.evictWords
  try dsimp only
  repeat' (first
    | with_reducible assumption | intro _ | with_reducible apply State.dropLineResv_inv
    | with_reducible apply State.registerWord_inv | with_reducible apply inv_foldl)

theorem State.setDck_inv (s : State) (core : Nat) (p : Partition) (va : Nat) (h_s : s.Inv) :
    (State.setDck s core p va).Inv := by
  unfold State.setDck
  try dsimp only
  repeat' (first
    | with_reducible assumption | with_reducible apply State.collect_inv | with_reducible apply State.modCore_inv
    | with_reducible apply State.own_inv | with_reducible apply State.store_inv | split)

theorem State.releaseWhere_inv (s : State) (core : Nat) (p : L1Word → Bool) (h_s : s.Inv) :
    (State.releaseWhere s core p).Inv := by
  unfold State.releaseWhere
  try dsimp only
  repeat' (first
    | with_reducible assumption | intro _ | with_reducible apply State.registerWord_inv
    | with_reducible apply inv_foldl)

theorem State.releaseCore_inv (s : State) (core scope : Nat) (h_s : s.Inv) :
    (State.releaseCore s core scope).Inv := by
  unfold State.releaseCore
  try dsimp only
  repeat' (first
    | with_reducible assumption | with_reducible apply State.releaseWhere_inv | with_reducible apply inv_ite)

theorem State.advanceEpoch_inv (s : State) (die part : Nat) (h_s : s.Inv) :
    (State.advanceEpoch s die part).Inv := by
  unfold State.advanceEpoch
  try dsimp only
  repeat' (first
    | with_reducible assumption | (intro d hd; exact hd) | with_reducible apply State.count_inv
    | with_reducible apply State.modDie_inv)

theorem State.acquireCore_inv (s : State) (core part scope : Nat) (h_s : s.Inv) :
    (State.acquireCore s core part scope).Inv := by
  unfold State.acquireCore
  try dsimp only
  repeat' (first
    | with_reducible assumption | with_reducible apply State.advanceEpoch_inv
    | with_reducible apply State.modCore_inv | with_reducible apply inv_ite)

theorem State.releaseRange_inv (s : State) (core : Nat) (p : Partition) (q : Ptr) (scope : Nat) (h_s : s.Inv) :
    (State.releaseRange s core p q scope).Inv := by
  unfold State.releaseRange
  try dsimp only
  repeat' (first
    | with_reducible assumption | with_reducible apply State.releaseWhere_inv | with_reducible apply inv_ite)

theorem State.acquireRange_inv (s : State) (core : Nat) (p : Partition) (q : Ptr) (scope : Nat) (h_s : s.Inv) :
    (State.acquireRange s core p q scope).Inv := by
  unfold State.acquireRange
  try dsimp only
  repeat' (first
    | with_reducible assumption | with_reducible apply State.advanceEpoch_inv
    | with_reducible apply State.modCore_inv | with_reducible apply inv_ite)

theorem State.noteForward_inv (s : State) (core part k : Nat) (h_s : s.Inv) :
    (State.noteForward s core part k).Inv := by
  unfold State.noteForward
  try dsimp only
  repeat' (first
    | with_reducible assumption | with_reducible apply State.count_inv | with_reducible apply inv_ite)

theorem State.serveAway_inv (s : State) (die part k : Nat) (h_s : s.Inv) :
    (State.serveAway s die part k).Inv := by
  unfold State.serveAway
  try dsimp only
  repeat' (first
    | with_reducible assumption | intro _ | with_reducible apply State.count_inv
    | with_reducible apply State.modCore_inv | with_reducible apply inv_foldl | split)

theorem State.evictLine_inv (s : State) (core line : Nat) (h_s : s.Inv) :
    (State.evictLine s core line).Inv := by
  unfold State.evictLine
  try dsimp only
  repeat' (first
    | with_reducible assumption | with_reducible apply State.evictWords_inv | simp only [inv_mk]
    | with_reducible apply invOf_of | with_reducible apply inv_ite)

theorem State.roomFor_inv {s t : State} {core line : Nat} {keep : List Nat} (e : s.roomFor core line keep = some t) (h : s.Inv) :
    t.Inv := by
  unfold State.roomFor at e
  dsimp only at e
  split at e
  · cases e; exact h
  · split at e
    · cases e; exact h
    · obtain ⟨l, _, rfl⟩ := Option.map_eq_some_iff.1 e
      exact State.evictLine_inv _ _ _ h

theorem State.l1Room_inv (s : State) (core line : Nat) (h_s : s.Inv) : (State.l1Room s core line).Inv := by
  unfold State.l1Room
  cases e : s.roomFor core line [] with
  | none => exact h_s
  | some t => exact State.roomFor_inv e h_s

theorem State.fillFrom_inv (s : State) (core part : Nat) (inv : Bool) (line : Nat) (h_s : s.Inv) :
    (State.fillFrom s core part inv line).Inv := by
  unfold State.fillFrom
  try dsimp only
  repeat' (first
    | with_reducible assumption | intro _ | with_reducible apply State.modCore_inv
    | with_reducible apply State.noteForward_inv | with_reducible apply State.share__inv
    | with_reducible apply inv_foldl)

theorem State.fillMiss_inv (s : State) (core part : Nat) (inv : Bool) (line : Nat) (h_s : s.Inv) :
    (State.fillMiss s core part inv line).Inv := by
  unfold State.fillMiss
  try dsimp only
  repeat' (first
    | with_reducible assumption | with_reducible apply State.fillFrom_inv | with_reducible apply State.l1Room_inv)

theorem State.fillWord_inv (s : State) (core part : Nat) (inv : Bool) (k : Nat) (h_s : s.Inv) :
    (State.fillWord s core part inv k).Inv := by
  unfold State.fillWord
  try dsimp only
  repeat' (first
    | with_reducible assumption | with_reducible apply State.fillMiss_inv | with_reducible apply State.modCore_inv
    | with_reducible apply State.noteForward_inv | with_reducible apply State.share__inv
    | with_reducible apply inv_ite | split)

theorem State.dirtyByte_inv (s : State) (core part : Nat) (pa : Nat) (b : Byte) (h_s : s.Inv) :
    (State.dirtyByte s core part pa b).Inv := by
  unfold State.dirtyByte
  try dsimp only
  repeat' (first
    | with_reducible assumption | with_reducible apply State.l1Room_inv | with_reducible apply State.modCore_inv)

theorem State.dirtyNibble_inv (s : State) (core part : Nat) (pa : Nat) (hi : Bool) (n : Nat) (h_s : s.Inv) :
    (State.dirtyNibble s core part pa hi n).Inv := by
  unfold State.dirtyNibble
  try dsimp only
  repeat' (first
    | with_reducible assumption | with_reducible apply State.cancelResv_inv | with_reducible apply State.l1Room_inv
    | with_reducible apply State.modCore_inv)

theorem State.dirtyBytes_inv (s : State) (core part : Nat) (ws : List (Nat × Byte)) (but : Option (Nat × Nat)) (h_s : s.Inv) :
    (State.dirtyBytes s core part ws but).Inv := by
  unfold State.dirtyBytes
  try dsimp only
  repeat' (first
    | with_reducible assumption | intro _ | with_reducible apply State.cancelResv_inv
    | with_reducible apply State.dirtyByte_inv | with_reducible apply inv_foldl)

theorem State.dirtyPtr_inv (s : State) (core part : Nat) (pa : Nat) (q : PtrBits) (h_s : s.Inv) :
    (State.dirtyPtr s core part pa q).Inv := by
  unfold State.dirtyPtr
  try dsimp only
  repeat' (first
    | with_reducible assumption | with_reducible apply State.dirtyBytes_inv | with_reducible apply State.modCore_inv)

theorem State.readAtSlice_inv (s : State) (core part k : Nat) (h_s : s.Inv) :
    (State.readAtSlice s core part k).Inv := by
  unfold State.readAtSlice
  try dsimp only
  repeat' (first
    | with_reducible assumption | with_reducible apply State.modCore_inv
    | with_reducible apply State.noteForward_inv | with_reducible apply State.serveAway_inv
    | with_reducible apply State.share__inv | with_reducible apply inv_ite)

theorem State.sliceRead_inv (s : State) (core part : Nat) (ks : List Nat) (h_s : s.Inv) :
    (State.sliceRead s core part ks).Inv := by
  unfold State.sliceRead
  try dsimp only
  repeat' (first
    | with_reducible assumption | intro _ | with_reducible apply State.readAtSlice_inv
    | with_reducible apply State.registerWord_inv | with_reducible apply inv_foldl | split)

theorem State.readAtHome_inv (s : State) (core part k : Nat) (h_s : s.Inv) :
    (State.readAtHome s core part k).Inv := by
  unfold State.readAtHome
  try dsimp only
  repeat' (first
    | with_reducible assumption | with_reducible apply State.noteForward_inv
    | with_reducible apply State.registerWord_inv | with_reducible apply State.serveAway_inv
    | with_reducible apply State.share__inv | with_reducible apply inv_ite)

theorem State.sliceWrite_inv (s : State) (core die : Nat) (ks : List Nat) (h_s : s.Inv) :
    (State.sliceWrite s core die ks).Inv := by
  unfold State.sliceWrite
  try dsimp only
  repeat' (first
    | with_reducible assumption | intro _ | with_reducible apply State.collect_inv
    | with_reducible apply State.own_inv | with_reducible apply State.registerWord_inv
    | with_reducible apply inv_foldl)

theorem State.copyWhere_inv (s : State) (f : Nat → Nat × Nat × Nat → Bool) (h_s : s.Inv) :
    (State.copyWhere s f).Inv := by
  unfold State.copyWhere
  try dsimp only
  repeat' (first
    | with_reducible assumption | simp only [inv_mk] | with_reducible apply invOf_of)

theorem State.copyBefore_inv (s : State) (ks : List Nat) (h_s : s.Inv) :
    (State.copyBefore s ks).Inv := by
  unfold State.copyBefore
  try dsimp only
  repeat' (first
    | with_reducible assumption | with_reducible apply State.copyWhere_inv)

theorem State.outerWrite_inv (s : State) (ws : List (Nat × Byte)) (h_s : s.Inv) :
    (State.outerWrite s ws).Inv := by
  unfold State.outerWrite
  try dsimp only
  repeat' (first
    | with_reducible assumption | intro _ | with_reducible apply State.collect_inv
    | with_reducible apply State.copyBefore_inv | with_reducible apply State.own_inv
    | with_reducible apply State.store_inv | with_reducible apply inv_foldl)

theorem State.outerBytes_inv (s : State) (k : Nat) (bs : List Byte) (h_s : s.Inv) :
    (State.outerBytes s k bs).Inv := by
  unfold State.outerBytes
  try dsimp only
  repeat' (first
    | with_reducible assumption | with_reducible apply State.outerWrite_inv)

theorem State.outerNum_inv (s : State) (k n x : Nat) (h_s : s.Inv) :
    (State.outerNum s k n x).Inv := by
  unfold State.outerNum
  try dsimp only
  repeat' (first
    | with_reducible assumption | with_reducible apply State.outerBytes_inv)

/-! ### Records -/

theorem State.vaStore_inv (s : State) (p : Partition) (va : Nat) (bs : List Byte) (h_s : s.Inv) :
    (State.vaStore s p va bs).Inv := by
  unfold State.vaStore
  try dsimp only
  repeat' (first
    | with_reducible assumption | with_reducible apply State.outerWrite_inv | split)

theorem State.ringPut_inv (s : State) (p : Partition) (r : Ring) (bs : List Byte) (h_s : s.Inv) :
    (State.ringPut s p r bs).Inv := by
  unfold State.ringPut
  try dsimp only
  repeat' (first
    | with_reducible assumption | with_reducible apply State.vaStore_inv | with_reducible apply inv_ite)

theorem State.ringClear_inv (s : State) (p : Partition) (addr : Nat) (h_s : s.Inv) :
    (State.ringClear s p addr).Inv := by
  unfold State.ringClear
  try dsimp only
  repeat' (first
    | with_reducible assumption | with_reducible apply State.vaStore_inv)

theorem State.irqPut_inv (s : State) (p : Partition) (kind value ticket : Nat) (h_s : s.Inv) :
    (State.irqPut s p kind value ticket).Inv := by
  unfold State.irqPut
  try dsimp only
  repeat' (first
    | with_reducible assumption | with_reducible apply State.outerBytes_inv
    | with_reducible apply State.outerNum_inv)

theorem State.signalRecords_inv (s : State) (part : Nat) (h_s : s.Inv) :
    (State.signalRecords s part).Inv := by
  unfold State.signalRecords
  try dsimp only
  repeat' (first
    | with_reducible assumption | with_reducible apply State.irqPut_inv | with_reducible apply State.modPart_inv
    | with_reducible apply State.outerNum_inv | with_reducible apply inv_ite | split)

theorem State.countRecord_inv (s : State) (part : Nat) (h_s : s.Inv) :
    (State.countRecord s part).Inv := by
  unfold State.countRecord
  try dsimp only
  repeat' (first
    | with_reducible assumption | with_reducible apply State.modPart_inv
    | with_reducible apply State.signalRecords_inv | with_reducible apply inv_ite | split)

theorem State.notifyLaunch_inv (s : State) (part kind ticket : Nat) (h_s : s.Inv) :
    (State.notifyLaunch s part kind ticket).Inv := by
  unfold State.notifyLaunch
  try dsimp only
  repeat' (first
    | with_reducible assumption | with_reducible apply State.irqPut_inv | with_reducible apply State.modPart_inv
    | with_reducible apply inv_ite | split)

theorem State.emitAccess_inv (s : State) (die part key kind : Nat) (h_s : s.Inv) :
    (State.emitAccess s die part key kind).Inv := by
  unfold State.emitAccess
  try dsimp only
  repeat' (first
    | with_reducible assumption | (intro d hd; exact hd) | with_reducible apply State.modDie_inv
    | with_reducible apply State.ringPut_inv)

theorem State.evictAccess_inv (s : State) (die but : Nat) (h_s : s.Inv) :
    (State.evictAccess s die but).Inv := by
  unfold State.evictAccess
  try dsimp only
  repeat' (first
    | with_reducible assumption | with_reducible apply State.emitAccess_inv | with_reducible apply inv_ite | split)

theorem State.countAccess_inv (s : State) (die : Nat) (p : Partition) (va kind : Nat) (h_s : s.Inv) :
    (State.countAccess s die p va kind).Inv := by
  unfold State.countAccess
  try dsimp only
  repeat' (first
    | with_reducible assumption | (intro d hd; exact hd) | with_reducible apply State.emitAccess_inv
    | with_reducible apply State.evictAccess_inv | with_reducible apply State.modDie_inv
    | with_reducible apply inv_ite)

theorem State.snapTrigger_inv (s : State) (h_s : s.Inv) :
    (State.snapTrigger s).Inv := by
  unfold State.snapTrigger
  try dsimp only
  repeat' (first
    | with_reducible assumption | simp only [inv_mk] | with_reducible apply invOf_of | with_reducible apply inv_ite)

theorem State.record_inv (s : State) (r : ErrorRecord) (h_s : s.Inv) :
    (State.record s r).Inv := by
  unfold State.record
  try dsimp only
  repeat' (first
    | with_reducible assumption | with_reducible apply State.countRecord_inv
    | with_reducible apply State.modPart_inv | with_reducible apply State.ringPut_inv
    | with_reducible apply State.snapTrigger_inv | simp only [inv_mk] | with_reducible apply invOf_of
    | with_reducible apply inv_ite | split)

/-! ### Links -/

theorem State.setBraid_inv (s : State) (b : BraidCount) (h_s : s.Inv) :
    (State.setBraid s b).Inv := by
  unfold State.setBraid
  try dsimp only
  repeat' (first
    | with_reducible assumption | simp only [inv_mk] | with_reducible apply invOf_of)

theorem State.send_inv (s : State) (x : SentPacket) (h_s : s.Inv) :
    (State.send s x).1.Inv := by
  unfold State.send
  try dsimp only
  repeat' (first
    | with_reducible assumption | with_reducible apply State.bump_inv | with_reducible apply State.setBraid_inv
    | simp only [inv_mk] | with_reducible apply invOf_of)

theorem State.dropFar_inv (s : State) (die part line : Nat) (h_s : s.Inv) :
    (State.dropFar s die part line).Inv := by
  unfold State.dropFar
  try dsimp only
  repeat' (first
    | exact invOf_modify _ _ h_s (fun d hd => hd) | simp only [inv_mk])

theorem State.sendWrite_inv (s : State) (die : Nat) (x : SentPacket) (h_s : s.Inv) :
    (State.sendWrite s die x).1.Inv := by
  unfold State.sendWrite
  try dsimp only
  repeat' (first
    | with_reducible assumption | with_reducible apply State.dropFar_inv | with_reducible apply State.send_inv)

/-! ### Operands -/

theorem State.writeV_inv (s : State) (c : Ctx) (ws : List (Nat × Word)) (h_s : s.Inv) :
    (State.writeV s c ws).Inv := by
  unfold State.writeV
  try dsimp only
  repeat' (first
    | with_reducible assumption | with_reducible apply State.modGroup_inv)

theorem State.writeS_inv (s : State) (c : Ctx) (ws : List (Nat × Word)) (h_s : s.Inv) :
    (State.writeS s c ws).Inv := by
  unfold State.writeS
  try dsimp only
  repeat' (first
    | with_reducible assumption | with_reducible apply State.modGroup_inv)

theorem State.writeP_inv (s : State) (c : Ctx) (ws : List (Nat × PtrBits)) (h_s : s.Inv) :
    (State.writeP s c ws).Inv := by
  unfold State.writeP
  try dsimp only
  repeat' (first
    | with_reducible assumption | with_reducible apply State.modGroup_inv)

/-! ### Flags -/

theorem State.addFlags_inv (s : State) (c : Ctx) (f : FlagBits) (h_s : s.Inv) :
    (State.addFlags s c f).Inv := by
  unfold State.addFlags
  try dsimp only
  repeat' (first
    | with_reducible assumption | with_reducible apply State.modGroup_inv)

/-! ### Ops -/

theorem State.fatal_inv (s : State) (w : Workgroup) (r : ErrorRecord) (h_s : s.Inv) :
    (State.fatal s w r).Inv := by
  unfold State.fatal
  try dsimp only
  repeat' (first
    | with_reducible assumption | with_reducible apply State.record_inv | simp only [inv_mk]
    | with_reducible apply invOf_of | with_reducible apply inv_ite)

theorem State.markFaulted_inv (s : State) (gid sid : Nat) (h_s : s.Inv) :
    (State.markFaulted s gid sid).Inv := by
  unfold State.markFaulted
  try dsimp only
  repeat' (first
    | with_reducible assumption | with_reducible apply State.modGroup_inv)

theorem State.spillSend_inv (s : State) (w : Workgroup) (gid owner va : Nat) (data : Option (List Byte)) (h_s : s.Inv) :
    (State.spillSend s w gid owner va data).Inv := by
  unfold State.spillSend
  try dsimp only
  repeat' (first
    | with_reducible assumption | with_reducible apply State.sendWrite_inv | with_reducible apply State.send_inv
    | split)

theorem State.spillHome_inv (s : State) (w : Workgroup) (p : Partition) (va pa : Nat) (f : Leaf) (data : Option (List Byte)) (h_s : s.Inv) :
    (State.spillHome s w p va pa f data).Inv := by
  unfold State.spillHome
  try dsimp only
  repeat' (first
    | with_reducible assumption | intro _ | with_reducible apply State.collect_inv
    | with_reducible apply State.countAccess_inv | with_reducible apply State.own_inv
    | with_reducible apply State.setDck_inv | with_reducible apply State.share__inv
    | with_reducible apply State.storeBytes_inv | with_reducible apply inv_foldl | with_reducible apply inv_ite
    | split)

theorem State.spillAccess_inv (s : State) (w : Workgroup) (gid va : Nat) (data : Option (List Byte)) (h_s : s.Inv) :
    (State.spillAccess s w gid va data).1.Inv := by
  unfold State.spillAccess
  try dsimp only
  repeat' (first
    | with_reducible assumption | with_reducible apply State.countAccess_inv
    | with_reducible apply State.spillHome_inv | with_reducible apply State.spillSend_inv
    | with_reducible apply State.touch_inv | with_reducible apply inv_ite | split)

theorem State.spillAll_inv (s : State) (w : Workgroup) (gid base : Nat) (l : List (Nat × Option (List Byte))) (h_s : s.Inv) :
    (State.spillAll s w gid base l).1.Inv := by
  unfold State.spillAll
  try dsimp only
  repeat' (first
    | with_reducible assumption | intro _ | with_reducible apply State.spillAccess_inv
    | with_reducible apply inv_foldl_fst | split)

theorem State.putSplits_inv (s : State) (w : Workgroup) (sid : Nat) (old new : Group) (h_s : s.Inv) :
    (State.putSplits s w sid old new).Inv := by
  unfold State.putSplits
  try dsimp only
  repeat' (first
    | with_reducible assumption | with_reducible apply State.bump_inv | with_reducible apply State.fatal_inv
    | with_reducible apply State.markFaulted_inv | with_reducible apply State.modGroup_inv
    | with_reducible apply State.spillAll_inv | with_reducible apply inv_ite | split
    | (with_reducible refine inv_of_fst ?_ (by with_reducible assumption)))

theorem State.touchTraps_inv (s : State) (c : Ctx) (ts : List LaneTrap) (h_s : s.Inv) :
    (State.touchTraps s c ts).Inv := by
  unfold State.touchTraps
  try dsimp only
  repeat' (first
    | with_reducible assumption | intro _ | with_reducible apply State.touch_inv | with_reducible apply inv_foldl
    | with_reducible apply inv_ite | split)

theorem State.takeTrap_inv (s0 : State) (c : Ctx) (ts : List LaneTrap) (tw : TrapWord) (h_s0 : s0.Inv) :
    (State.takeTrap s0 c ts tw).Inv := by
  unfold State.takeTrap
  try dsimp only
  repeat' (first
    | with_reducible assumption | intro _ | with_reducible apply State.fatal_inv
    | with_reducible apply State.markFaulted_inv | with_reducible apply State.putSplits_inv
    | with_reducible apply State.record_inv | with_reducible apply State.touchTraps_inv
    | with_reducible apply inv_foldl | split)

theorem State.noteIssue_inv (s : State) (c : Ctx) (h_s : s.Inv) :
    (State.noteIssue s c).Inv := by
  unfold State.noteIssue
  try dsimp only
  repeat' (first
    | with_reducible assumption | with_reducible apply State.modGroup_inv)

theorem State.advance_inv (s : State) (c : Ctx) (x : Args) (h_s : s.Inv) :
    (State.advance s c x).Inv := by
  unfold State.advance
  try dsimp only
  repeat' (first
    | with_reducible assumption | with_reducible apply State.modSplit_inv)

theorem State.pend_inv (s : State) (c : Ctx) (op : PendingOp) (h_s : s.Inv) :
    (State.pend s c op).Inv := by
  unfold State.pend
  try dsimp only
  repeat' (first
    | with_reducible assumption | with_reducible apply State.bump_inv | with_reducible apply State.modGroup_inv)

theorem settleEff_inv (c : Ctx) (x : Args) (s : State) (e : Eff) (h_s : s.Inv) (he : e.Inv) :
    outInv (settleEff c x s e) := by
  cases e with
  | done t => exact State.noteIssue_inv _ _ (State.advance_inv _ _ _ he)
  | trap t ts aux => exact State.noteIssue_inv _ _ (State.advance_inv _ _ _ (State.takeTrap_inv _ _ _ _ he))
  | held k => exact State.modSplit_inv _ _ _ _ h_s
  | wait t k => exact State.modSplit_inv _ _ _ _ he
  | moved t => exact State.noteIssue_inv _ _ he

theorem issue_inv {o : Op} {x : Args} {s : State} {body : Ctx → List Nat → Eff} (h_s : s.Inv)
    (hb : ∀ c act, (body c act).Inv) : outInv (issue o x s body) := by
  unfold issue
  split
  · trivial
  · split
    · trivial
    · dsimp only
      split
      · exact settleEff_inv _ _ _ _ h_s h_s
      · split
        · exact settleEff_inv _ _ _ _ h_s h_s
        · split
          · exact settleEff_inv _ _ _ _ h_s trivial
          · exact settleEff_inv _ _ _ _ h_s (hb _ _)

theorem issueDone_inv {o : Op} {x : Args} {s : State} {body : Ctx → List Nat → State} (h_s : s.Inv)
    (hb : ∀ c act, (body c act).Inv) : outInv (issueDone o x s body) :=
  issue_inv h_s (fun c act => hb c act)

/-! ### Fabric -/

theorem State.holdAcks_inv (s : State) (c : Ctx) (l : List (Nat × Nat)) (h_s : s.Inv) :
    (State.holdAcks s c l).Inv := by
  unfold State.holdAcks
  try dsimp only
  repeat' (first
    | with_reducible assumption | with_reducible apply State.modSplit_inv | with_reducible apply eff_wait)

end Sys2Proof.Machine
end

