-- ==== Sys2Proof/Laws/KeepLanes.lean ====
section
/-!
SUPPORT. Each operation keeps the invariant of the machine: vector, floating-point and lane instructions.
-/
namespace Sys2Proof.Machine

/-! ### Vector -/

theorem writeLanes_inv (s : State) (c : Ctx) (act : List Nat) (wide : Bool) (d : Nat) (val : Nat → Nat) (h_s : s.Inv) :
    (writeLanes s c act wide d val).Inv := by
  unfold writeLanes
  try dsimp only
  repeat' (first
    | with_reducible assumption | with_reducible apply State.writeV_inv)

theorem vectorExec_inv (o : Op) (f : IntFn) (countB narrow : Bool) (x : Args) (s : State) (h_s : s.Inv) :
    outInv (vectorExec o f countB narrow x s) := by
  unfold vectorExec
  try dsimp only
  repeat' (first
    | with_reducible assumption | intro _ | with_reducible apply issueDone_inv | with_reducible apply writeLanes_inv)

theorem execVadd_inv (x : Args) (s : State) (h_s : s.Inv) :
    outInv (execVadd x s) := by
  unfold execVadd
  try dsimp only
  repeat' (first
    | with_reducible assumption | with_reducible apply vectorExec_inv)

theorem execVsub_inv (x : Args) (s : State) (h_s : s.Inv) :
    outInv (execVsub x s) := by
  unfold execVsub
  try dsimp only
  repeat' (first
    | with_reducible assumption | with_reducible apply vectorExec_inv)

theorem execVmul_inv (x : Args) (s : State) (h_s : s.Inv) :
    outInv (execVmul x s) := by
  unfold execVmul
  try dsimp only
  repeat' (first
    | with_reducible assumption | with_reducible apply vectorExec_inv)

theorem execVmulh_inv (x : Args) (s : State) (h_s : s.Inv) :
    outInv (execVmulh x s) := by
  unfold execVmulh
  try dsimp only
  repeat' (first
    | with_reducible assumption | with_reducible apply vectorExec_inv)

theorem execVmad_inv (x : Args) (s : State) (h_s : s.Inv) :
    outInv (execVmad x s) := by
  unfold execVmad
  try dsimp only
  repeat' (first
    | with_reducible assumption | with_reducible apply vectorExec_inv)

theorem execVand_inv (x : Args) (s : State) (h_s : s.Inv) :
    outInv (execVand x s) := by
  unfold execVand
  try dsimp only
  repeat' (first
    | with_reducible assumption | with_reducible apply vectorExec_inv)

theorem execVor_inv (x : Args) (s : State) (h_s : s.Inv) :
    outInv (execVor x s) := by
  unfold execVor
  try dsimp only
  repeat' (first
    | with_reducible assumption | with_reducible apply vectorExec_inv)

theorem execVxor_inv (x : Args) (s : State) (h_s : s.Inv) :
    outInv (execVxor x s) := by
  unfold execVxor
  try dsimp only
  repeat' (first
    | with_reducible assumption | with_reducible apply vectorExec_inv)

theorem execVshl_inv (x : Args) (s : State) (h_s : s.Inv) :
    outInv (execVshl x s) := by
  unfold execVshl
  try dsimp only
  repeat' (first
    | with_reducible assumption | with_reducible apply vectorExec_inv)

theorem execVshr_inv (x : Args) (s : State) (h_s : s.Inv) :
    outInv (execVshr x s) := by
  unfold execVshr
  try dsimp only
  repeat' (first
    | with_reducible assumption | with_reducible apply vectorExec_inv)

theorem execVsra_inv (x : Args) (s : State) (h_s : s.Inv) :
    outInv (execVsra x s) := by
  unfold execVsra
  try dsimp only
  repeat' (first
    | with_reducible assumption | with_reducible apply vectorExec_inv)

theorem execVmin_inv (x : Args) (s : State) (h_s : s.Inv) :
    outInv (execVmin x s) := by
  unfold execVmin
  try dsimp only
  repeat' (first
    | with_reducible assumption | with_reducible apply vectorExec_inv)

theorem execVmax_inv (x : Args) (s : State) (h_s : s.Inv) :
    outInv (execVmax x s) := by
  unfold execVmax
  try dsimp only
  repeat' (first
    | with_reducible assumption | with_reducible apply vectorExec_inv)

theorem execVabs_inv (x : Args) (s : State) (h_s : s.Inv) :
    outInv (execVabs x s) := by
  unfold execVabs
  try dsimp only
  repeat' (first
    | with_reducible assumption | with_reducible apply vectorExec_inv)

theorem execVcmp_inv (x : Args) (s : State) (h_s : s.Inv) :
    outInv (execVcmp x s) := by
  unfold execVcmp
  try dsimp only
  repeat' (first
    | with_reducible assumption | with_reducible apply vectorExec_inv)

theorem execVsel_inv (x : Args) (s : State) (h_s : s.Inv) :
    outInv (execVsel x s) := by
  unfold execVsel
  try dsimp only
  repeat' (first
    | with_reducible assumption | with_reducible apply vectorExec_inv)

theorem execVmov_inv (x : Args) (s : State) (h_s : s.Inv) :
    outInv (execVmov x s) := by
  unfold execVmov
  try dsimp only
  repeat' (first
    | with_reducible assumption | with_reducible apply vectorExec_inv)

theorem execVbfe_inv (x : Args) (s : State) (h_s : s.Inv) :
    outInv (execVbfe x s) := by
  unfold execVbfe
  try dsimp only
  repeat' (first
    | with_reducible assumption | with_reducible apply vectorExec_inv)

theorem execVbfi_inv (x : Args) (s : State) (h_s : s.Inv) :
    outInv (execVbfi x s) := by
  unfold execVbfi
  try dsimp only
  repeat' (first
    | with_reducible assumption | with_reducible apply vectorExec_inv)

theorem execVpopc_inv (x : Args) (s : State) (h_s : s.Inv) :
    outInv (execVpopc x s) := by
  unfold execVpopc
  try dsimp only
  repeat' (first
    | with_reducible assumption | with_reducible apply vectorExec_inv)

theorem execVclz_inv (x : Args) (s : State) (h_s : s.Inv) :
    outInv (execVclz x s) := by
  unfold execVclz
  try dsimp only
  repeat' (first
    | with_reducible assumption | with_reducible apply vectorExec_inv)

theorem execVdot4_inv (x : Args) (s : State) (h_s : s.Inv) :
    outInv (execVdot4 x s) := by
  unfold execVdot4
  try dsimp only
  repeat' (first
    | with_reducible assumption | intro _ | with_reducible apply issueDone_inv | with_reducible apply writeLanes_inv)

/-! ### Float -/

theorem writeFlagged_inv (s : State) (c : Ctx) (act : List Nat) (d : Nat) (f : Nat → Flagged) (h_s : s.Inv) :
    (writeFlagged s c act d f).Inv := by
  unfold writeFlagged
  try dsimp only
  repeat' (first
    | with_reducible assumption | with_reducible apply State.addFlags_inv | with_reducible apply writeLanes_inv)

theorem floatExec_inv (o : Op) (x : Args) (s : State) (f : Bool → Nat → RMode → Nat → Nat → Nat → Flagged) (h_s : s.Inv) :
    outInv (floatExec o x s f) := by
  unfold floatExec
  try dsimp only
  repeat' (first
    | with_reducible assumption | intro _ | with_reducible apply issueDone_inv
    | with_reducible apply writeFlagged_inv)

theorem fn1Exec_inv (o : Op) (f : Fn1) (x : Args) (s : State) (h_s : s.Inv) :
    outInv (fn1Exec o f x s) := by
  unfold fn1Exec
  try dsimp only
  repeat' (first
    | with_reducible assumption | with_reducible apply floatExec_inv)

theorem execFadd_inv (x : Args) (s : State) (h_s : s.Inv) :
    outInv (execFadd x s) := by
  unfold execFadd
  try dsimp only
  repeat' (first
    | with_reducible assumption | with_reducible apply floatExec_inv)

theorem execFsub_inv (x : Args) (s : State) (h_s : s.Inv) :
    outInv (execFsub x s) := by
  unfold execFsub
  try dsimp only
  repeat' (first
    | with_reducible assumption | with_reducible apply floatExec_inv)

theorem execFmul_inv (x : Args) (s : State) (h_s : s.Inv) :
    outInv (execFmul x s) := by
  unfold execFmul
  try dsimp only
  repeat' (first
    | with_reducible assumption | with_reducible apply floatExec_inv)

theorem execFfma_inv (x : Args) (s : State) (h_s : s.Inv) :
    outInv (execFfma x s) := by
  unfold execFfma
  try dsimp only
  repeat' (first
    | with_reducible assumption | with_reducible apply floatExec_inv)

theorem execFmin_inv (x : Args) (s : State) (h_s : s.Inv) :
    outInv (execFmin x s) := by
  unfold execFmin
  try dsimp only
  repeat' (first
    | with_reducible assumption | with_reducible apply floatExec_inv)

theorem execFmax_inv (x : Args) (s : State) (h_s : s.Inv) :
    outInv (execFmax x s) := by
  unfold execFmax
  try dsimp only
  repeat' (first
    | with_reducible assumption | with_reducible apply floatExec_inv)

theorem execFcmp_inv (x : Args) (s : State) (h_s : s.Inv) :
    outInv (execFcmp x s) := by
  unfold execFcmp
  try dsimp only
  repeat' (first
    | with_reducible assumption | with_reducible apply floatExec_inv)

theorem execFclass_inv (x : Args) (s : State) (h_s : s.Inv) :
    outInv (execFclass x s) := by
  unfold execFclass
  try dsimp only
  repeat' (first
    | with_reducible assumption | with_reducible apply floatExec_inv)

theorem execFrcp_inv (x : Args) (s : State) (h_s : s.Inv) :
    outInv (execFrcp x s) := by
  unfold execFrcp
  try dsimp only
  repeat' (first
    | with_reducible assumption | with_reducible apply fn1Exec_inv)

theorem execFrsq_inv (x : Args) (s : State) (h_s : s.Inv) :
    outInv (execFrsq x s) := by
  unfold execFrsq
  try dsimp only
  repeat' (first
    | with_reducible assumption | with_reducible apply fn1Exec_inv)

theorem execFsqrt_inv (x : Args) (s : State) (h_s : s.Inv) :
    outInv (execFsqrt x s) := by
  unfold execFsqrt
  try dsimp only
  repeat' (first
    | with_reducible assumption | with_reducible apply fn1Exec_inv)

theorem execFexp2_inv (x : Args) (s : State) (h_s : s.Inv) :
    outInv (execFexp2 x s) := by
  unfold execFexp2
  try dsimp only
  repeat' (first
    | with_reducible assumption | with_reducible apply fn1Exec_inv)

theorem execFlog2_inv (x : Args) (s : State) (h_s : s.Inv) :
    outInv (execFlog2 x s) := by
  unfold execFlog2
  try dsimp only
  repeat' (first
    | with_reducible assumption | with_reducible apply fn1Exec_inv)

theorem execFsin_inv (x : Args) (s : State) (h_s : s.Inv) :
    outInv (execFsin x s) := by
  unfold execFsin
  try dsimp only
  repeat' (first
    | with_reducible assumption | with_reducible apply fn1Exec_inv)

theorem execFcos_inv (x : Args) (s : State) (h_s : s.Inv) :
    outInv (execFcos x s) := by
  unfold execFcos
  try dsimp only
  repeat' (first
    | with_reducible assumption | with_reducible apply fn1Exec_inv)

theorem execFround_inv (x : Args) (s : State) (h_s : s.Inv) :
    outInv (execFround x s) := by
  unfold execFround
  try dsimp only
  repeat' (first
    | with_reducible assumption | with_reducible apply floatExec_inv)

/-! ### Lane -/

theorem writeElems_inv (s : State) (c : Ctx) (act : List Nat) (fmt d : Nat) (f : Nat → Flagged) (h_s : s.Inv) :
    (writeElems s c act fmt d f).Inv := by
  unfold writeElems
  try dsimp only
  repeat' (first
    | with_reducible assumption | with_reducible apply State.addFlags_inv | with_reducible apply writeLanes_inv)

theorem execCvt_inv (x : Args) (s : State) (h_s : s.Inv) :
    outInv (execCvt x s) := by
  unfold execCvt
  try dsimp only
  repeat' (first
    | with_reducible assumption | intro _ | with_reducible apply issueDone_inv | with_reducible apply writeElems_inv)

theorem execCvtpk_inv (x : Args) (s : State) (h_s : s.Inv) :
    outInv (execCvtpk x s) := by
  unfold execCvtpk
  try dsimp only
  repeat' (first
    | with_reducible assumption | intro _ | with_reducible apply issueDone_inv
    | with_reducible apply writeFlagged_inv)

theorem execScalex_inv (x : Args) (s : State) (h_s : s.Inv) :
    outInv (execScalex x s) := by
  unfold execScalex
  try dsimp only
  repeat' (first
    | with_reducible assumption | intro _ | with_reducible apply issueDone_inv
    | with_reducible apply writeFlagged_inv)

theorem execMatchLanes_inv (x : Args) (s : State) (h_s : s.Inv) :
    outInv (execMatchLanes x s) := by
  unfold execMatchLanes
  try dsimp only
  repeat' (first
    | with_reducible assumption | intro _ | with_reducible apply issueDone_inv | with_reducible apply writeLanes_inv)

theorem execBallot_inv (x : Args) (s : State) (h_s : s.Inv) :
    outInv (execBallot x s) := by
  unfold execBallot
  try dsimp only
  repeat' (first
    | with_reducible assumption | intro _ | with_reducible apply State.writeS_inv
    | with_reducible apply issueDone_inv)

theorem execShfl_inv (x : Args) (s : State) (h_s : s.Inv) :
    outInv (execShfl x s) := by
  unfold execShfl
  try dsimp only
  repeat' (first
    | with_reducible assumption | intro _ | with_reducible apply issueDone_inv | with_reducible apply writeLanes_inv)

theorem execLred_inv (x : Args) (s : State) (h_s : s.Inv) :
    outInv (execLred x s) := by
  unfold execLred
  try dsimp only
  repeat' (first
    | with_reducible assumption | intro _ | with_reducible apply State.addFlags_inv
    | with_reducible apply issueDone_inv | with_reducible apply writeLanes_inv)

theorem execLscan_inv (x : Args) (s : State) (h_s : s.Inv) :
    outInv (execLscan x s) := by
  unfold execLscan
  try dsimp only
  repeat' (first
    | with_reducible assumption | intro _ | with_reducible apply State.addFlags_inv
    | with_reducible apply issueDone_inv | with_reducible apply writeLanes_inv)

theorem execRdlane_inv (x : Args) (s : State) (h_s : s.Inv) :
    outInv (execRdlane x s) := by
  unfold execRdlane
  try dsimp only
  repeat' (first
    | with_reducible assumption | intro _ | with_reducible apply State.writeS_inv
    | with_reducible apply issueDone_inv)

theorem execBcast_inv (x : Args) (s : State) (h_s : s.Inv) :
    outInv (execBcast x s) := by
  unfold execBcast
  try dsimp only
  repeat' (first
    | with_reducible assumption | intro _ | with_reducible apply issueDone_inv | with_reducible apply writeLanes_inv)

theorem execV2s_inv (x : Args) (s : State) (h_s : s.Inv) :
    outInv (execV2s x s) := by
  unfold execV2s
  try dsimp only
  repeat' (first
    | with_reducible assumption | intro _ | with_reducible apply State.writeS_inv
    | with_reducible apply issueDone_inv)

theorem execS2v_inv (x : Args) (s : State) (h_s : s.Inv) :
    outInv (execS2v x s) := by
  unfold execS2v
  try dsimp only
  repeat' (first
    | with_reducible assumption | intro _ | with_reducible apply issueDone_inv | with_reducible apply writeLanes_inv)

end Sys2Proof.Machine
end

