-- ==== Sys2Proof/Laws/KeepAccess.lean ====
section
/-!
SUPPORT. Each operation keeps the invariant of the machine: accesses to memory, loads and stores, synchronisation.
-/
namespace Sys2Proof.Machine

/-! ### Access -/

theorem State.queueOn_inv (s : State) (c : Ctx) (h : Hold) (k : Nat) (h_s : s.Inv) :
    (State.queueOn s c h k).Inv := by
  unfold State.queueOn
  try dsimp only
  repeat' (first
    | with_reducible assumption | with_reducible apply State.bump_inv | with_reducible apply State.modSplit_inv
    | with_reducible apply eff_wait)

theorem State.walkAll_inv (s : State) (c : Ctx) (l : List LaneAcc) (write : Bool) (h_s : s.Inv) :
    (State.walkAll s c l write).Inv := by
  unfold State.walkAll
  try dsimp only
  repeat' (first
    | with_reducible assumption | intro _ | with_reducible apply State.countAccess_inv
    | with_reducible apply State.touches_inv | with_reducible apply inv_foldl)

theorem State.noteLines_inv (s : State) (c : Ctx) (ks : List Nat) (h_s : s.Inv) :
    (State.noteLines s c ks).Inv := by
  unfold State.noteLines
  try dsimp only
  repeat' (first
    | with_reducible assumption | with_reducible apply State.modGroup_inv | with_reducible apply inv_ite)

theorem State.fillFar_inv (s : State) (core part : Nat) (inv : Bool) (owner va : Nat) (h_s : s.Inv) :
    (State.fillFar s core part inv owner va).Inv := by
  unfold State.fillFar
  try dsimp only
  repeat' (first
    | with_reducible assumption | with_reducible apply State.l1Room_inv | with_reducible apply State.modCore_inv
    | split)

theorem State.prepRead_inv (s : State) (c : Ctx) (l : List LaneAcc) (h_s : s.Inv) :
    (State.prepRead s c l).Inv := by
  unfold State.prepRead
  try dsimp only
  repeat' (first
    | with_reducible assumption | intro _ | with_reducible apply State.fillFar_inv
    | with_reducible apply State.fillWord_inv | with_reducible apply State.noteLines_inv
    | with_reducible apply State.readAtHome_inv | with_reducible apply State.sliceRead_inv
    | with_reducible apply State.walkAll_inv | with_reducible apply inv_foldl)

theorem State.markDirty_inv (s : State) (c : Ctx) (vas : List Nat) (h_s : s.Inv) :
    (State.markDirty s c vas).Inv := by
  unfold State.markDirty
  try dsimp only
  repeat' (first
    | with_reducible assumption | intro _ | with_reducible apply State.setDck_inv | with_reducible apply inv_foldl
    | with_reducible apply inv_ite)

theorem State.prepWrite_inv (s : State) (c : Ctx) (l : List LaneAcc) (h_s : s.Inv) :
    (State.prepWrite s c l).Inv := by
  unfold State.prepWrite
  try dsimp only
  repeat' (first
    | with_reducible assumption | with_reducible apply State.markDirty_inv
    | with_reducible apply State.noteLines_inv | with_reducible apply State.walkAll_inv)

theorem State.writePlace_inv (s : State) (c : Ctx) (q : Ptr) (but : Option (Nat × Nat)) (p : Place) (b : Byte) (h_s : s.Inv) :
    (State.writePlace s c q but p b).Inv := by
  unfold State.writePlace
  try dsimp only
  repeat' (first
    | with_reducible assumption | with_reducible apply State.dirtyBytes_inv
    | with_reducible apply State.sliceWrite_inv | with_reducible apply State.store_inv | split)

theorem State.writePlaces_inv (s : State) (c : Ctx) (q : Ptr) (but : Option (Nat × Nat)) (l : List (Place × Byte)) (h_s : s.Inv) :
    (State.writePlaces s c q but l).Inv := by
  unfold State.writePlaces
  try dsimp only
  repeat' (first
    | with_reducible assumption | intro _ | with_reducible apply State.writePlace_inv
    | with_reducible apply inv_foldl)

theorem State.writeNibble_inv (s : State) (c : Ctx) (q : Ptr) (p : Place) (hi : Bool) (n : Nat) (h_s : s.Inv) :
    (State.writeNibble s c q p hi n).Inv := by
  unfold State.writeNibble
  try dsimp only
  repeat' (first
    | with_reducible assumption | with_reducible apply State.dirtyNibble_inv
    | with_reducible apply State.sliceWrite_inv | with_reducible apply State.store_inv
    | with_reducible apply inv_ite | split)

theorem State.acquireLanes_inv (s : State) (c : Ctx) (l : List LaneAcc) (h_s : s.Inv) :
    (State.acquireLanes s c l).Inv := by
  unfold State.acquireLanes
  try dsimp only
  repeat' (first
    | with_reducible assumption | with_reducible apply State.acquireCore_inv | split)

theorem State.releaseLanes_inv {s t : State} {c : Ctx} {l : List LaneAcc} (e : s.releaseLanes c l = .ok t) (h : s.Inv) :
    t.Inv := by
  unfold State.releaseLanes at e
  repeat' split at e
  all_goals first
    | (cases e <;> first | exact h | exact State.releaseCore_inv _ _ _ h)

theorem State.sendLines_inv (s : State) (c : Ctx) (opId : Nat) (l : List LaneAcc) (mk : Nat → List LaneAcc → Packet → Packet) (h_s : s.Inv) :
    (State.sendLines s c opId l mk).1.Inv := by
  unfold State.sendLines
  try dsimp only
  repeat' (first
    | with_reducible assumption | intro _ | with_reducible apply State.sendWrite_inv
    | with_reducible apply State.send_inv | simp only [inv_mk] | with_reducible apply inv_foldl_fst | split)

/-! ### Firn -/

theorem execSliceRegistration_inv (core key : Nat) (s : State) (h_s : s.Inv) :
    outInv (execSliceRegistration core key s) := by
  unfold execSliceRegistration
  try dsimp only
  repeat' (first
    | with_reducible assumption | with_reducible apply State.registerWord_inv | with_reducible apply outInv_next)

theorem execL1Eviction_inv (core line : Nat) (s : State) (h_s : s.Inv) :
    outInv (execL1Eviction core line s) := by
  unfold execL1Eviction
  try dsimp only
  repeat' (first
    | with_reducible assumption | with_reducible apply State.evictLine_inv | with_reducible apply outInv_next)

theorem execForwardedRead_inv (core key : Nat) (s : State) (h_s : s.Inv) :
    outInv (execForwardedRead core key s) := by
  unfold execForwardedRead
  try dsimp only
  repeat' (first
    | with_reducible assumption | with_reducible apply State.fillWord_inv | with_reducible apply outInv_next
    | with_reducible apply inv_ite)

theorem execDirectoryRequest_inv (holder : Nat) (own : Bool) (line : Nat) (s : State) (h_s : s.Inv) :
    outInv (execDirectoryRequest holder own line s) := by
  unfold execDirectoryRequest
  try dsimp only
  repeat' (first
    | with_reducible assumption | with_reducible apply State.dirRequest_inv | with_reducible apply outInv_next
    | with_reducible apply inv_ite)

theorem execNodeMerge_inv (die base : Nat) (s : State) (h_s : s.Inv) :
    outInv (execNodeMerge die base s) := by
  unfold execNodeMerge
  try dsimp only
  repeat' (first
    | with_reducible assumption | (intro d hd; exact hd) | with_reducible apply State.count_inv
    | with_reducible apply State.modDie_inv | with_reducible apply outInv_next | with_reducible apply inv_ite
    | split)

theorem execDirectoryEviction_inv (die base : Nat) (s : State) (h_s : s.Inv) :
    outInv (execDirectoryEviction die base s) := by
  unfold execDirectoryEviction
  try dsimp only
  repeat' (first
    | with_reducible assumption | (intro d hd; exact hd) | intro _ | with_reducible apply State.count_inv
    | with_reducible apply State.modDie_inv | with_reducible apply State.recallLines_inv
    | with_reducible apply State.recallNode_inv | with_reducible apply outInv_next | with_reducible apply inv_foldl
    | with_reducible apply inv_ite | split)

theorem execRecall_inv (die base : Nat) (sharing : Bool) (s : State) (h_s : s.Inv) :
    outInv (execRecall die base sharing s) := by
  unfold execRecall
  try dsimp only
  repeat' (first
    | with_reducible assumption | with_reducible apply State.recallNode_inv | with_reducible apply outInv_next
    | with_reducible apply inv_ite | split)

theorem State.outerRead_inv (s : State) (pa n : Nat) (h_s : s.Inv) :
    (State.outerRead s pa n).Inv := by
  unfold State.outerRead
  try dsimp only
  repeat' (first
    | with_reducible assumption | intro _ | with_reducible apply State.share__inv | with_reducible apply inv_foldl)

theorem execCompanionWrite_inv (pa : Nat) (bytes : List Byte) (s : State) (h_s : s.Inv) :
    outInv (execCompanionWrite pa bytes s) := by
  unfold execCompanionWrite
  try dsimp only
  repeat' (first
    | with_reducible assumption | with_reducible apply State.outerBytes_inv | simp only [inv_mk]
    | with_reducible apply invOf_of | with_reducible apply outInv_next | with_reducible apply outInv_fault | split)

theorem execCompanionRead_inv (pa n : Nat) (s : State) (h_s : s.Inv) :
    outInv (execCompanionRead pa n s) := by
  unfold execCompanionRead
  try dsimp only
  repeat' (first
    | with_reducible assumption | with_reducible apply State.outerRead_inv | simp only [inv_mk]
    | with_reducible apply invOf_of | with_reducible apply outInv_next | with_reducible apply outInv_fault | split)

/-! ### Stops -/

theorem State.askStop_inv (s : State) (gids : List Nat) (h_s : s.Inv) :
    (State.askStop s gids).Inv := by
  unfold State.askStop
  try dsimp only
  repeat' (first
    | with_reducible assumption | simp only [inv_mk] | with_reducible apply invOf_of)

theorem State.reportStop_inv (s : State) (part : Nat) (r : ErrorRecord) (h_s : s.Inv) :
    (State.reportStop s part r).Inv := by
  unfold State.reportStop
  try dsimp only
  repeat' (first
    | with_reducible assumption | with_reducible apply State.record_inv | with_reducible apply State.ringPut_inv
    | with_reducible apply State.snapTrigger_inv | with_reducible apply inv_ite)

theorem State.beginStop_inv (s : State) (part : Nat) (gids : List Nat) (r : ErrorRecord) (h_s : s.Inv) :
    (State.beginStop s part gids r).Inv := by
  unfold State.beginStop
  try dsimp only
  repeat' (first
    | with_reducible assumption | with_reducible apply State.askStop_inv | with_reducible apply State.reportStop_inv
    | with_reducible apply inv_ite)

theorem State.bpCount_inv (s : State) (c : Ctx) (h_s : s.Inv) :
    (State.bpCount s c).Inv := by
  unfold State.bpCount
  try dsimp only
  repeat' (first
    | with_reducible assumption | with_reducible apply State.modPart_inv | with_reducible apply inv_ite | split)

theorem State.triggerStop_inv (s : State) (c : Ctx) (tag : Nat) (h_s : s.Inv) :
    (State.triggerStop s c tag).Inv := by
  unfold State.triggerStop
  try dsimp only
  repeat' (first
    | with_reducible assumption | with_reducible apply State.beginStop_inv | with_reducible apply State.modSplit_inv)

theorem execBkpt_inv (x : Args) (s : State) (h_s : s.Inv) :
    outInv (execBkpt x s) := by
  unfold execBkpt
  try dsimp only
  repeat' (first
    | with_reducible assumption | intro _ | with_reducible apply State.triggerStop_inv
    | with_reducible apply issue_inv | with_reducible apply eff_done | with_reducible apply eff_wait
    | with_reducible apply eff_ite)

theorem execStopAtSite_inv (g sid : Nat) (s : State) (h_s : s.Inv) :
    outInv (execStopAtSite g sid s) := by
  unfold execStopAtSite
  try dsimp only
  repeat' (first
    | with_reducible assumption | with_reducible apply State.modSplit_inv
    | with_reducible apply State.triggerStop_inv | with_reducible apply outInv_next | with_reducible apply inv_ite
    | split)

/-! ### Moraine -/

theorem State.stopPart_inv (s : State) (part : Nat) (site : Option (Word × Word)) (h_s : s.Inv) :
    (State.stopPart s part site).Inv := by
  unfold State.stopPart
  try dsimp only
  repeat' (first
    | with_reducible assumption | with_reducible apply State.beginStop_inv)

theorem State.diverge_inv (s : State) (part home seq ticket wg group lane : Nat) (addr : DWord) (h_s : s.Inv) :
    (State.diverge s part home seq ticket wg group lane addr).Inv := by
  unfold State.diverge
  try dsimp only
  repeat' (first
    | with_reducible assumption | with_reducible apply State.modPart_inv | with_reducible apply State.record_inv
    | with_reducible apply State.stopPart_inv | with_reducible apply inv_ite | split)

theorem State.replayDone_inv (s : State) (part : Nat) (r : Replay) (h_s : s.Inv) :
    (State.replayDone s part r).Inv := by
  unfold State.replayDone
  try dsimp only
  repeat' (first
    | with_reducible assumption | with_reducible apply State.modPart_inv | with_reducible apply State.record_inv
    | with_reducible apply State.stopPart_inv | with_reducible apply inv_ite)

theorem State.matchEvent_inv (s : State) (part : Nat) (e : Event) (h_s : s.Inv) :
    (State.matchEvent s part e).Inv := by
  unfold State.matchEvent
  try dsimp only
  repeat' (first
    | with_reducible assumption | with_reducible apply State.diverge_inv | with_reducible apply State.modPart_inv
    | with_reducible apply State.replayDone_inv | with_reducible apply inv_ite | split)

theorem State.appendLog_inv (s : State) (part : Nat) (e : Event) (h_s : s.Inv) :
    (State.appendLog s part e).Inv := by
  unfold State.appendLog
  try dsimp only
  repeat' (first
    | with_reducible assumption | with_reducible apply State.modPart_inv)

theorem State.logEvent_inv (s : State) (part : Nat) (e : Event) (h_s : s.Inv) :
    (State.logEvent s part e).Inv := by
  unfold State.logEvent
  try dsimp only
  repeat' (first
    | with_reducible assumption | with_reducible apply State.appendLog_inv
    | with_reducible apply State.matchEvent_inv | with_reducible apply inv_ite)

theorem State.logAll_inv (s : State) (part : Nat) (es : List Event) (h_s : s.Inv) :
    (State.logAll s part es).Inv := by
  unfold State.logAll
  try dsimp only
  repeat' (first
    | with_reducible assumption | intro _ | with_reducible apply State.logEvent_inv | with_reducible apply inv_foldl)

theorem State.logElems_inv (s : State) (c : Ctx) (kind : Nat) (l : List (LaneAcc × Nat × Nat)) (h_s : s.Inv) :
    (State.logElems s c kind l).Inv := by
  unfold State.logElems
  try dsimp only
  repeat' (first
    | with_reducible assumption | with_reducible apply State.logAll_inv | with_reducible apply inv_ite)

theorem execReplayEvent_inv (part home : Nat) (kind ticket wg group lane : Nat) (addr value : DWord) (s : State) (h_s : s.Inv) :
    outInv (execReplayEvent part home kind ticket wg group lane addr value s) := by
  unfold execReplayEvent
  try dsimp only
  repeat' (first
    | with_reducible assumption | with_reducible apply State.matchEvent_inv | with_reducible apply outInv_next)

theorem execReplayHoldTimeout_inv (part home : Nat) (s : State) (h_s : s.Inv) :
    outInv (execReplayHoldTimeout part home s) := by
  unfold execReplayHoldTimeout
  try dsimp only
  repeat' (first
    | with_reducible assumption | with_reducible apply State.diverge_inv | with_reducible apply outInv_next | split)

/-! ### Loads -/

theorem State.pendLoad_inv (s : State) (c : Ctx) (x : Args) (as : List LaneAcc) (es : List LoadElem) (t : Nat) (mk : Nat → List LaneAcc → Packet → Packet) (h_s : s.Inv) :
    (State.pendLoad s c x as es t mk).Inv := by
  unfold State.pendLoad
  try dsimp only
  repeat' (first
    | with_reducible assumption | with_reducible apply State.acquireLanes_inv | with_reducible apply State.pend_inv
    | with_reducible apply State.sendLines_inv | with_reducible apply inv_ite)

theorem afterLanes_inv (s : State) (ts : List LaneTrap) (h_s : s.Inv) :
    (afterLanes s ts).Inv := by
  unfold afterLanes
  try dsimp only
  repeat' (first
    | with_reducible assumption | with_reducible apply eff_done | with_reducible apply eff_trap
    | with_reducible apply eff_ite)

theorem loadExec_inv (o : Op) (vp : Bool) (x : Args) (s : State) (h_s : s.Inv) :
    outInv (loadExec o vp x s) := by
  unfold loadExec
  try dsimp only
  repeat' (first
    | with_reducible assumption | intro _ | with_reducible apply State.logElems_inv
    | with_reducible apply State.pendLoad_inv | with_reducible apply State.prepRead_inv
    | with_reducible apply afterLanes_inv | with_reducible apply issue_inv | with_reducible apply eff_trap
    | with_reducible apply eff_held | with_reducible apply eff_ite | split)

theorem execLd_inv (x : Args) (s : State) (h_s : s.Inv) :
    outInv (execLd x s) := by
  unfold execLd
  try dsimp only
  repeat' (first
    | with_reducible assumption | with_reducible apply loadExec_inv)

theorem execLdVp_inv (x : Args) (s : State) (h_s : s.Inv) :
    outInv (execLdVp x s) := by
  unfold execLdVp
  try dsimp only
  repeat' (first
    | with_reducible assumption | with_reducible apply loadExec_inv)

theorem State.storeElem_inv (s : State) (c : Ctx) (e : StoreElem) (h_s : s.Inv) :
    (State.storeElem s c e).Inv := by
  unfold State.storeElem
  try dsimp only
  repeat' (first
    | with_reducible assumption | with_reducible apply State.writeNibble_inv
    | with_reducible apply State.writePlaces_inv | with_reducible apply inv_ite | split)

theorem storeExec_inv (o : Op) (vp : Bool) (x : Args) (s : State) (h_s : s.Inv) :
    outInv (storeExec o vp x s) := by
  unfold storeExec
  try dsimp only
  repeat' (first
    | with_reducible assumption | intro _ | with_reducible apply State.addFlags_inv
    | with_reducible apply State.holdAcks_inv | with_reducible apply State.logElems_inv
    | with_reducible apply State.prepWrite_inv
    | (with_reducible refine State.releaseLanes_inv (by with_reducible assumption) ?_)
    | with_reducible apply State.sendLines_inv | with_reducible apply State.storeElem_inv
    | with_reducible apply afterLanes_inv | with_reducible apply issue_inv | simp only [inv_mk]
    | with_reducible apply invOf_of | with_reducible apply eff_trap | with_reducible apply eff_held
    | with_reducible apply inv_foldl | with_reducible apply eff_ite | split)

theorem execSt_inv (x : Args) (s : State) (h_s : s.Inv) :
    outInv (execSt x s) := by
  unfold execSt
  try dsimp only
  repeat' (first
    | with_reducible assumption | with_reducible apply storeExec_inv)

theorem execStVp_inv (x : Args) (s : State) (h_s : s.Inv) :
    outInv (execStVp x s) := by
  unfold execStVp
  try dsimp only
  repeat' (first
    | with_reducible assumption | with_reducible apply storeExec_inv)

theorem State.fillGranule_inv (s : State) (core part : Nat) (k : Nat) (h_s : s.Inv) :
    (State.fillGranule s core part k).Inv := by
  unfold State.fillGranule
  try dsimp only
  repeat' (first
    | with_reducible assumption | intro _ | with_reducible apply State.fillWord_inv
    | with_reducible apply State.modCore_inv | with_reducible apply inv_foldl | with_reducible apply inv_ite | split)

theorem loadPtrExec_inv (o : Op) (q : Bool) (x : Args) (s0 : State) (h_s0 : s0.Inv) :
    outInv (loadPtrExec o q x s0) := by
  unfold loadPtrExec
  try dsimp only
  repeat' (first
    | with_reducible assumption | intro _ | with_reducible apply State.acquireLanes_inv
    | with_reducible apply State.fillGranule_inv | with_reducible apply State.logElems_inv
    | with_reducible apply State.pend_inv | with_reducible apply State.prepRead_inv
    | with_reducible apply State.sendLines_inv | with_reducible apply afterLanes_inv
    | with_reducible apply issue_inv | with_reducible apply eff_trap | with_reducible apply eff_held
    | with_reducible apply inv_foldl | with_reducible apply inv_ite | with_reducible apply eff_ite | split)

theorem execLdp_inv (x : Args) (s : State) (h_s : s.Inv) :
    outInv (execLdp x s) := by
  unfold execLdp
  try dsimp only
  repeat' (first
    | with_reducible assumption | with_reducible apply loadPtrExec_inv)

theorem execLdpQ_inv (x : Args) (s : State) (h_s : s.Inv) :
    outInv (execLdpQ x s) := by
  unfold execLdpQ
  try dsimp only
  repeat' (first
    | with_reducible assumption | with_reducible apply loadPtrExec_inv)

theorem State.writePtr_inv (s : State) (c : Ctx) (a : LaneAcc) (d : PtrBits) (h_s : s.Inv) :
    (State.writePtr s c a d).Inv := by
  unfold State.writePtr
  try dsimp only
  repeat' (first
    | with_reducible assumption | with_reducible apply State.dirtyPtr_inv
    | with_reducible apply State.sliceWrite_inv | with_reducible apply State.storePtr_inv | split)

theorem storePtrExec_inv (o : Op) (q : Bool) (x : Args) (s : State) (h_s : s.Inv) :
    outInv (storePtrExec o q x s) := by
  unfold storePtrExec
  try dsimp only
  repeat' (first
    | with_reducible assumption | intro _ | with_reducible apply State.holdAcks_inv
    | with_reducible apply State.logElems_inv | with_reducible apply State.prepWrite_inv
    | (with_reducible refine State.releaseLanes_inv (by with_reducible assumption) ?_)
    | with_reducible apply State.sendLines_inv | with_reducible apply State.writePtr_inv
    | with_reducible apply afterLanes_inv | with_reducible apply issue_inv | with_reducible apply eff_trap
    | with_reducible apply eff_held | with_reducible apply inv_foldl | with_reducible apply eff_ite | split)

theorem execStp_inv (x : Args) (s : State) (h_s : s.Inv) :
    outInv (execStp x s) := by
  unfold execStp
  try dsimp only
  repeat' (first
    | with_reducible assumption | with_reducible apply storePtrExec_inv)

theorem execStpQ_inv (x : Args) (s : State) (h_s : s.Inv) :
    outInv (execStpQ x s) := by
  unfold execStpQ
  try dsimp only
  repeat' (first
    | with_reducible assumption | with_reducible apply storePtrExec_inv)

theorem State.dropClean_inv (s : State) (core : Nat) (ks : List Nat) (h_s : s.Inv) :
    (State.dropClean s core ks).Inv := by
  unfold State.dropClean
  try dsimp only
  repeat' (first
    | with_reducible assumption | with_reducible apply State.modCore_inv | with_reducible apply inv_ite)

theorem execLdres_inv (x : Args) (s : State) (h_s : s.Inv) :
    outInv (execLdres x s) := by
  unfold execLdres
  try dsimp only
  repeat' (first
    | with_reducible assumption | intro _ | with_reducible apply State.dropClean_inv
    | with_reducible apply State.logElems_inv | with_reducible apply State.modGroup_inv
    | with_reducible apply State.pendLoad_inv | with_reducible apply State.prepRead_inv
    | with_reducible apply afterLanes_inv | with_reducible apply issue_inv | with_reducible apply eff_trap
    | with_reducible apply eff_held | with_reducible apply eff_ite | split)

theorem State.condLane_inv (s : State) (c : Ctx) (a : LaneAcc) (val : Nat) (h_s : s.Inv) :
    (State.condLane s c a val).1.Inv := by
  unfold State.condLane
  try dsimp only
  repeat' (first
    | with_reducible assumption | with_reducible apply State.modGroup_inv
    | with_reducible apply State.writePlaces_inv | with_reducible apply inv_ite)

theorem execStcnd_inv (x : Args) (s : State) (h_s : s.Inv) :
    outInv (execStcnd x s) := by
  unfold execStcnd
  try dsimp only
  repeat' (first
    | with_reducible assumption | intro _ | with_reducible apply State.condLane_inv
    | with_reducible apply State.holdAcks_inv | with_reducible apply State.logElems_inv
    | with_reducible apply State.pend_inv | with_reducible apply State.prepWrite_inv
    | (with_reducible refine State.releaseLanes_inv (by with_reducible assumption) ?_)
    | with_reducible apply State.sendLines_inv | with_reducible apply afterLanes_inv
    | with_reducible apply issue_inv | with_reducible apply eff_trap | with_reducible apply eff_held
    | with_reducible apply inv_foldl_fst | with_reducible apply eff_ite | split)

theorem State.prefLine_inv (s : State) (c : Ctx) (firn inv : Bool) (pa : Nat) (h_s : s.Inv) :
    (State.prefLine s c firn inv pa).Inv := by
  unfold State.prefLine
  try dsimp only
  repeat' (first
    | with_reducible assumption | (with_reducible refine State.roomFor_inv (by with_reducible assumption) ?_)
    | with_reducible apply State.fillFrom_inv | with_reducible apply State.share__inv | with_reducible apply inv_ite
    | split)

theorem State.prefFar_inv (s : State) (c : Ctx) (q : Ptr) (p : Place) (h_s : s.Inv) :
    (State.prefFar s c q p).Inv := by
  unfold State.prefFar
  try dsimp only
  repeat' (first
    | with_reducible assumption | with_reducible apply State.send_inv | with_reducible apply inv_ite | split)

theorem execPref_inv (x : Args) (s : State) (h_s : s.Inv) :
    outInv (execPref x s) := by
  unfold execPref
  try dsimp only
  repeat' (first
    | with_reducible assumption | intro _ | with_reducible apply State.prefFar_inv
    | with_reducible apply State.prefLine_inv | with_reducible apply State.touches_inv
    | with_reducible apply issue_inv | with_reducible apply eff_done | with_reducible apply inv_foldl
    | with_reducible apply inv_ite | split)

theorem execCbexp_inv (x : Args) (s : State) (h_s : s.Inv) :
    outInv (execCbexp x s) := by
  unfold execCbexp
  try dsimp only
  repeat' (first
    | with_reducible assumption | intro _ | with_reducible apply State.writeV_inv
    | with_reducible apply afterLanes_inv | with_reducible apply issue_inv | with_reducible apply eff_trap
    | with_reducible apply eff_held | with_reducible apply eff_ite | split)

/-! ### Scope -/

theorem execWiden_inv (x : Args) (s : State) (h_s : s.Inv) :
    outInv (execWiden x s) := by
  unfold execWiden
  try dsimp only
  repeat' (first
    | with_reducible assumption | intro _ | with_reducible apply State.holdAcks_inv
    | with_reducible apply State.releaseRange_inv | with_reducible apply State.writeP_inv
    | with_reducible apply issue_inv | with_reducible apply eff_done | with_reducible apply eff_trap
    | with_reducible apply eff_held | with_reducible apply eff_ite | split)

theorem execNarrow_inv (x : Args) (s : State) (h_s : s.Inv) :
    outInv (execNarrow x s) := by
  unfold execNarrow
  try dsimp only
  repeat' (first
    | with_reducible assumption | intro _ | with_reducible apply State.acquireRange_inv
    | with_reducible apply State.writeP_inv | with_reducible apply issue_inv | with_reducible apply eff_done
    | with_reducible apply eff_trap | split)

theorem State.discardCode_inv (s : State) (p : Partition) (q : Ptr) (k : Nat) (h_s : s.Inv) :
    (State.discardCode s p q k).Inv := by
  unfold State.discardCode
  try dsimp only
  repeat' (first
    | with_reducible assumption | with_reducible apply State.modCore_inv | simp only [inv_mk]
    | with_reducible apply invOf_of | with_reducible apply inv_ite)

theorem execIcinv_inv (x : Args) (s : State) (h_s : s.Inv) :
    outInv (execIcinv x s) := by
  unfold execIcinv
  try dsimp only
  repeat' (first
    | with_reducible assumption | intro _ | with_reducible apply State.discardCode_inv
    | with_reducible apply State.releaseRange_inv | with_reducible apply issue_inv | with_reducible apply eff_done
    | with_reducible apply eff_trap | with_reducible apply eff_held | with_reducible apply inv_foldl
    | with_reducible apply eff_ite)

/-! ### Sync -/

theorem State.atomPrep_inv (s : State) (c : Ctx) (a : LaneAcc) (h_s : s.Inv) :
    (State.atomPrep s c a).Inv := by
  unfold State.atomPrep
  try dsimp only
  repeat' (first
    | with_reducible assumption | intro _ | with_reducible apply State.fillWord_inv
    | with_reducible apply State.registerWord_inv | with_reducible apply State.sliceWrite_inv
    | with_reducible apply inv_foldl | split)

theorem State.atomWrite_inv (s : State) (c : Ctx) (a : LaneAcc) (val : Nat) (h_s : s.Inv) :
    (State.atomWrite s c a val).Inv := by
  unfold State.atomWrite
  try dsimp only
  repeat' (first
    | with_reducible assumption | with_reducible apply State.dirtyBytes_inv | with_reducible apply State.store_inv
    | with_reducible apply inv_ite | split)

theorem State.atomLane_inv (s : State) (c : Ctx) (a : LaneAcc) (op operand compare : Nat) (h_s : s.Inv) :
    (State.atomLane s c a op operand compare).1.Inv := by
  unfold State.atomLane
  try dsimp only
  repeat' (first
    | with_reducible assumption | with_reducible apply State.atomPrep_inv | with_reducible apply State.atomWrite_inv
    | with_reducible apply State.markDirty_inv | split)

theorem atomExec_inv (o : Op) (ret : Bool) (x : Args) (s : State) (h_s : s.Inv) :
    outInv (atomExec o ret x s) := by
  unfold atomExec
  try dsimp only
  repeat' (first
    | with_reducible assumption | intro _ | with_reducible apply State.acquireLanes_inv
    | with_reducible apply State.atomLane_inv | with_reducible apply State.bump_inv
    | with_reducible apply State.holdAcks_inv | with_reducible apply State.logElems_inv
    | with_reducible apply State.modGroup_inv | with_reducible apply State.noteLines_inv
    | with_reducible apply State.pend_inv
    | (with_reducible refine State.releaseLanes_inv (by with_reducible assumption) ?_)
    | with_reducible apply State.sendLines_inv | with_reducible apply State.walkAll_inv
    | with_reducible apply afterLanes_inv | with_reducible apply issue_inv | with_reducible apply eff_trap
    | with_reducible apply eff_held | with_reducible apply inv_foldl_fst | with_reducible apply inv_ite
    | with_reducible apply eff_ite | split)

theorem execAtom_inv (x : Args) (s : State) (h_s : s.Inv) :
    outInv (execAtom x s) := by
  unfold execAtom
  try dsimp only
  repeat' (first
    | with_reducible assumption | with_reducible apply atomExec_inv)

theorem execAtomn_inv (x : Args) (s : State) (h_s : s.Inv) :
    outInv (execAtomn x s) := by
  unfold execAtomn
  try dsimp only
  repeat' (first
    | with_reducible assumption | with_reducible apply atomExec_inv)

theorem execCas_inv (x : Args) (s : State) (h_s : s.Inv) :
    outInv (execCas x s) := by
  unfold execCas
  try dsimp only
  repeat' (first
    | with_reducible assumption | with_reducible apply atomExec_inv)

theorem State.setBarrier_inv (s : State) (k : Nat) (b : Barrier) (h_s : s.Inv) :
    (State.setBarrier s k b).Inv := by
  unfold State.setBarrier
  try dsimp only
  repeat' (first
    | with_reducible assumption | with_reducible apply State.storeNum_inv | with_reducible apply inv_ite)

theorem State.logBarrier_inv (s : State) (c : Ctx) (act : List Nat) (k : Nat) (h_s : s.Inv) :
    (State.logBarrier s c act k).Inv := by
  unfold State.logBarrier
  try dsimp only
  repeat' (first
    | with_reducible assumption | with_reducible apply State.logEvent_inv | with_reducible apply inv_ite)

theorem Eff.logBarrier_inv (e : Eff) (c : Ctx) (act : List Nat) (k : Nat) (h_e : e.Inv) :
    (Eff.logBarrier e c act k).Inv := by
  unfold Eff.logBarrier
  try dsimp only
  repeat' (first
    | with_reducible assumption | exact h_e | with_reducible apply State.logBarrier_inv
    | with_reducible apply eff_done | split)

theorem barrierExec_inv (o : Op) (own write : Bool) (x : Args) (s : State) (body : Ctx → List Nat → Nat → Barrier → Eff) (h_s : s.Inv) (h_body : ∀ y0 y1 y2 y3, (body y0 y1 y2 y3).Inv) :
    outInv (barrierExec o own write x s body) := by
  unfold barrierExec
  try dsimp only
  repeat' (first
    | with_reducible assumption | with_reducible apply h_body | intro _ | with_reducible apply Eff.logBarrier_inv
    | with_reducible apply State.queueOn_inv | with_reducible apply issue_inv | with_reducible apply eff_trap
    | with_reducible apply eff_held | with_reducible apply eff_ite | split)

theorem execBinit_inv (x : Args) (s : State) (h_s : s.Inv) :
    outInv (execBinit x s) := by
  unfold execBinit
  try dsimp only
  repeat' (first
    | with_reducible assumption | intro _ | with_reducible apply State.setBarrier_inv
    | with_reducible apply barrierExec_inv | with_reducible apply eff_done | with_reducible apply eff_trap
    | with_reducible apply eff_ite)

theorem execBarv_inv (x : Args) (s : State) (h_s : s.Inv) :
    outInv (execBarv x s) := by
  unfold execBarv
  try dsimp only
  repeat' (first
    | with_reducible assumption | intro _ | with_reducible apply State.releaseCore_inv
    | with_reducible apply State.setBarrier_inv | with_reducible apply barrierExec_inv
    | with_reducible apply eff_done | with_reducible apply eff_trap | with_reducible apply eff_ite)

theorem execBexp_inv (x : Args) (s : State) (h_s : s.Inv) :
    outInv (execBexp x s) := by
  unfold execBexp
  try dsimp only
  repeat' (first
    | with_reducible assumption | intro _ | with_reducible apply State.setBarrier_inv
    | with_reducible apply barrierExec_inv | with_reducible apply eff_done | with_reducible apply eff_trap
    | with_reducible apply eff_ite)

theorem execBwait_inv (x : Args) (s : State) (h_s : s.Inv) :
    outInv (execBwait x s) := by
  unfold execBwait
  try dsimp only
  repeat' (first
    | with_reducible assumption | intro _ | with_reducible apply State.acquireCore_inv
    | with_reducible apply State.modSplit_inv | with_reducible apply barrierExec_inv | with_reducible apply eff_done
    | with_reducible apply eff_trap | with_reducible apply eff_wait | with_reducible apply eff_ite)

theorem execBtest_inv (x : Args) (s : State) (h_s : s.Inv) :
    outInv (execBtest x s) := by
  unfold execBtest
  try dsimp only
  repeat' (first
    | with_reducible assumption | intro _ | with_reducible apply State.acquireCore_inv
    | with_reducible apply State.writeS_inv | with_reducible apply barrierExec_inv | with_reducible apply eff_done
    | with_reducible apply eff_trap | with_reducible apply eff_ite)

theorem execBinval_inv (x : Args) (s : State) (h_s : s.Inv) :
    outInv (execBinval x s) := by
  unfold execBinval
  try dsimp only
  repeat' (first
    | with_reducible assumption | intro _ | with_reducible apply State.storeNum_inv
    | with_reducible apply barrierExec_inv | with_reducible apply eff_done | with_reducible apply eff_trap
    | with_reducible apply eff_ite)

theorem State.acquireTl_inv (s : State) (w : Workgroup) (k n : Nat) (h_s : s.Inv) :
    (State.acquireTl s w k n).Inv := by
  unfold State.acquireTl
  try dsimp only
  repeat' (first
    | with_reducible assumption | with_reducible apply State.acquireCore_inv | with_reducible apply inv_ite)

theorem execTlwait_inv (x : Args) (s : State) (h_s : s.Inv) :
    outInv (execTlwait x s) := by
  unfold execTlwait
  try dsimp only
  repeat' (first
    | with_reducible assumption | intro _ | with_reducible apply State.acquireTl_inv
    | with_reducible apply State.modSplit_inv | with_reducible apply issue_inv | with_reducible apply eff_done
    | with_reducible apply eff_wait | with_reducible apply eff_ite)

theorem execTltest_inv (x : Args) (s : State) (h_s : s.Inv) :
    outInv (execTltest x s) := by
  unfold execTltest
  try dsimp only
  repeat' (first
    | with_reducible assumption | intro _ | with_reducible apply State.acquireTl_inv
    | with_reducible apply State.writeS_inv | with_reducible apply issueDone_inv | with_reducible apply inv_ite)

theorem execTlreadIss_inv (x : Args) (s : State) (h_s : s.Inv) :
    outInv (execTlreadIss x s) := by
  unfold execTlreadIss
  try dsimp only
  repeat' (first
    | with_reducible assumption | intro _ | with_reducible apply State.writeS_inv
    | with_reducible apply issueDone_inv)

theorem execTlreadDone_inv (x : Args) (s : State) (h_s : s.Inv) :
    outInv (execTlreadDone x s) := by
  unfold execTlreadDone
  try dsimp only
  repeat' (first
    | with_reducible assumption | intro _ | with_reducible apply State.writeS_inv
    | with_reducible apply issueDone_inv)

end Sys2Proof.Machine
end

