-- ==== Sys2Proof/Laws/KeepEngines.lean ====
section
/-!
SUPPORT. Each operation keeps the invariant of the machine: the stream and matrix engines, and the Braid.
-/
namespace Sys2Proof.Machine

/-! ### Stream -/

theorem State.queueFor_inv (s : State) (c : Ctx) (h : Hold) (h_s : s.Inv) :
    (State.queueFor s c h).Inv := by
  unfold State.queueFor
  try dsimp only
  repeat' (first
    | with_reducible assumption | with_reducible apply State.queueOn_inv)

theorem State.traceCopy_inv (s : State) (w : Workgroup) (o : EngineOp) (kind : Nat) (h_s : s.Inv) :
    (State.traceCopy s w o kind).Inv := by
  unfold State.traceCopy
  try dsimp only
  repeat' (first
    | with_reducible assumption | with_reducible apply State.ringPut_inv | with_reducible apply inv_ite)

theorem State.modTimeline_inv (s : State) (wg k : Nat) (f : Timeline → Timeline) (h_s : s.Inv) :
    (State.modTimeline s wg k f).Inv := by
  unfold State.modTimeline
  try dsimp only
  repeat' (first
    | with_reducible assumption | with_reducible apply State.modWg_inv)

theorem State.logCount_inv (s : State) (o : EngineOp) (k : Nat) (h_s : s.Inv) :
    (State.logCount s o k).Inv := by
  unfold State.logCount
  try dsimp only
  repeat' (first
    | with_reducible assumption | with_reducible apply State.logEvent_inv | with_reducible apply inv_ite | split)

theorem State.countBytes_inv (s : State) (core : Nat) (o : EngineOp) (upto : Nat) (h_s : s.Inv) :
    (State.countBytes s core o upto).Inv := by
  unfold State.countBytes
  try dsimp only
  repeat' (first
    | with_reducible assumption | with_reducible apply State.logCount_inv | with_reducible apply State.modOp_inv
    | with_reducible apply State.setBarrier_inv | with_reducible apply inv_ite | split)

theorem State.completeStream_inv (s : State) (core : Nat) (w : Workgroup) (o : EngineOp) (h_s : s.Inv) :
    (State.completeStream s core w o).Inv := by
  unfold State.completeStream
  try dsimp only
  repeat' (first
    | with_reducible assumption | with_reducible apply State.countBytes_inv | with_reducible apply State.dropOp_inv
    | with_reducible apply State.modGroup_inv | with_reducible apply State.modTimeline_inv
    | with_reducible apply State.traceCopy_inv | with_reducible apply inv_ite | split)

theorem streamIssue_inv (c : Ctx) (x : Args) (act : List Nat) (s : State) (o : EngineOp) (barOff : Nat) (bytes : Bool) (h_s : s.Inv) :
    (streamIssue c x act s o barOff bytes).Inv := by
  unfold streamIssue
  try dsimp only
  repeat' (first
    | with_reducible assumption | with_reducible apply State.bump_inv
    | with_reducible apply State.completeStream_inv | with_reducible apply State.modCore_inv
    | with_reducible apply State.modTimeline_inv | with_reducible apply State.queueFor_inv
    | with_reducible apply State.traceCopy_inv | with_reducible apply State.writeS_inv
    | with_reducible apply eff_done | with_reducible apply eff_trap | with_reducible apply inv_ite
    | with_reducible apply eff_ite)

theorem streamExec_inv (op : Op) (gather : Bool) (x : Args) (s : State) (h_s : s.Inv) :
    outInv (streamExec op gather x s) := by
  unfold streamExec
  try dsimp only
  repeat' (first
    | with_reducible assumption | intro _ | with_reducible apply issue_inv | with_reducible apply streamIssue_inv
    | with_reducible apply eff_trap | with_reducible apply eff_held | with_reducible apply eff_ite | split)

theorem execStream_inv (x : Args) (s : State) (h_s : s.Inv) :
    outInv (execStream x s) := by
  unfold execStream
  try dsimp only
  repeat' (first
    | with_reducible assumption | with_reducible apply streamExec_inv)

theorem execSgath_inv (x : Args) (s : State) (h_s : s.Inv) :
    outInv (execSgath x s) := by
  unfold execSgath
  try dsimp only
  repeat' (first
    | with_reducible assumption | with_reducible apply streamExec_inv)

theorem execSdec_inv (x : Args) (s : State) (h_s : s.Inv) :
    outInv (execSdec x s) := by
  unfold execSdec
  try dsimp only
  repeat' (first
    | with_reducible assumption | intro _ | with_reducible apply issue_inv | with_reducible apply streamIssue_inv
    | with_reducible apply eff_trap | with_reducible apply eff_ite | split)

theorem State.engineRead_inv (s : State) (core part k : Nat) (ord : Bool) (h_s : s.Inv) :
    (State.engineRead s core part k ord).Inv := by
  unfold State.engineRead
  try dsimp only
  repeat' (first
    | with_reducible assumption | with_reducible apply State.noteForward_inv
    | with_reducible apply State.serveAway_inv | with_reducible apply State.share__inv
    | with_reducible apply inv_ite)

theorem State.engineWrite_inv (s : State) (core k : Nat) (ord : Bool) (h_s : s.Inv) :
    (State.engineWrite s core k ord).Inv := by
  unfold State.engineWrite
  try dsimp only
  repeat' (first
    | with_reducible assumption | with_reducible apply State.collect_inv | with_reducible apply State.own_inv)

theorem State.engineReach_inv (s : State) (core part : Nat) (ps : List Place) (write : Bool) (h_s : s.Inv) :
    (State.engineReach s core part ps write).Inv := by
  unfold State.engineReach
  try dsimp only
  repeat' (first
    | with_reducible assumption | intro _ | with_reducible apply State.countAccess_inv
    | with_reducible apply State.engineRead_inv | with_reducible apply State.engineWrite_inv
    | with_reducible apply State.setDck_inv | with_reducible apply State.touches_inv
    | with_reducible apply inv_foldl | with_reducible apply inv_ite)

theorem State.failOp_inv (s : State) (core id : Nat) (f : FaultInfo) (h_s : s.Inv) :
    (State.failOp s core id f).Inv := by
  unfold State.failOp
  try dsimp only
  repeat' (first
    | with_reducible assumption | with_reducible apply State.modOp_inv)

theorem State.failReach_inv (s : State) (core part id : Nat) (f : FaultInfo) (h_s : s.Inv) :
    (State.failReach s core part id f).Inv := by
  unfold State.failReach
  try dsimp only
  repeat' (first
    | with_reducible assumption | with_reducible apply State.failOp_inv | with_reducible apply State.touch_inv
    | with_reducible apply inv_ite)

theorem State.engineAsk_inv (s : State) (w : Workgroup) (o : EngineOp) (need : List (Nat × Nat)) (h_s : s.Inv) :
    (State.engineAsk s w o need).Inv := by
  unfold State.engineAsk
  try dsimp only
  repeat' (first
    | with_reducible assumption | intro _ | with_reducible apply State.send_inv | with_reducible apply inv_foldl
    | with_reducible apply inv_ite)

theorem State.fetchElem_inv (s : State) (phys : Nat) (w : Workgroup) (id i : Nat) (h_s : s.Inv) :
    (State.fetchElem s phys w id i).Inv := by
  unfold State.fetchElem
  try dsimp only
  repeat' (first
    | with_reducible assumption | with_reducible apply State.engineAsk_inv
    | with_reducible apply State.engineReach_inv | with_reducible apply State.failReach_inv
    | with_reducible apply State.modOp_inv | with_reducible apply inv_ite | split)

theorem State.landElem_inv (s : State) (phys : Nat) (w : Workgroup) (id i : Nat) (far : List FarPart) (h_s : s.Inv) :
    (State.landElem s phys w id i far).1.Inv := by
  unfold State.landElem
  try dsimp only
  repeat' (first
    | with_reducible assumption | intro _ | with_reducible apply State.engineReach_inv
    | with_reducible apply State.failReach_inv | with_reducible apply State.modOp_inv
    | with_reducible apply State.store_inv | simp only [inv_mk] | with_reducible apply inv_foldl | split)

theorem State.sendParts_inv (s : State) (phys : Nat) (w : Workgroup) (id gid : Nat) (far : List FarPart) (h_s : s.Inv) :
    (State.sendParts s phys w id gid far).Inv := by
  unfold State.sendParts
  try dsimp only
  repeat' (first
    | with_reducible assumption | intro _ | with_reducible apply State.modOp_inv
    | with_reducible apply State.sendWrite_inv | with_reducible apply inv_foldl | with_reducible apply inv_ite)

theorem State.untagHull_inv (s : State) (w : Workgroup) (o : EngineOp) (h_s : s.Inv) :
    (State.untagHull s w o).Inv := by
  unfold State.untagHull
  try dsimp only
  repeat' (first
    | with_reducible assumption | simp only [inv_mk] | with_reducible apply invOf_of | with_reducible apply inv_ite)

theorem State.closeReads_inv (s : State) (core id : Nat) (h_s : s.Inv) :
    (State.closeReads s core id).Inv := by
  unfold State.closeReads
  try dsimp only
  repeat' (first
    | with_reducible assumption | with_reducible apply State.modOp_inv | with_reducible apply inv_ite | split)

theorem State.afterLanding_inv (s : State) (core : Nat) (w : Workgroup) (id before now total : Nat) (h_s : s.Inv) :
    (State.afterLanding s core w id before now total).Inv := by
  unfold State.afterLanding
  try dsimp only
  repeat' (first
    | with_reducible assumption | with_reducible apply State.countBytes_inv | with_reducible apply State.modOp_inv
    | with_reducible apply State.traceCopy_inv | with_reducible apply inv_ite | split)

theorem execStreamLanding_inv (op : Nat) (elems : List Nat) (s : State) (h_s : s.Inv) :
    outInv (execStreamLanding op elems s) := by
  unfold execStreamLanding
  try dsimp only
  repeat' (first
    | with_reducible assumption | intro _ | with_reducible apply State.afterLanding_inv
    | with_reducible apply State.closeReads_inv | with_reducible apply State.fetchElem_inv
    | with_reducible apply State.landElem_inv | with_reducible apply State.sendParts_inv
    | with_reducible apply State.untagHull_inv | simp only [inv_mk] | with_reducible apply outInv_next
    | with_reducible apply inv_foldl_fst | with_reducible apply inv_ite | split)

theorem State.landAcked_inv (s : State) (q : SentPacket) (h_s : s.Inv) :
    (State.landAcked s q).Inv := by
  unfold State.landAcked
  try dsimp only
  repeat' (first
    | with_reducible assumption | with_reducible apply State.afterLanding_inv | with_reducible apply State.modOp_inv
    | with_reducible apply inv_ite | split)

theorem State.decodeHeader_inv (s : State) (core : Nat) (w : Workgroup) (o : EngineOp) (h_s : s.Inv) :
    (State.decodeHeader s core w o).Inv := by
  unfold State.decodeHeader
  try dsimp only
  repeat' (first
    | with_reducible assumption | with_reducible apply State.engineAsk_inv
    | with_reducible apply State.engineReach_inv | with_reducible apply State.failOp_inv
    | with_reducible apply State.failReach_inv | with_reducible apply State.modOp_inv | with_reducible apply inv_ite
    | split)

theorem State.readAhead_inv (s : State) (core : Nat) (w : Workgroup) (id : Nat) (h_s : s.Inv) :
    (State.readAhead s core w id).Inv := by
  unfold State.readAhead
  try dsimp only
  repeat' (first
    | with_reducible assumption | with_reducible apply State.engineAsk_inv
    | with_reducible apply State.engineReach_inv | with_reducible apply State.failReach_inv
    | with_reducible apply State.modOp_inv | with_reducible apply inv_ite | split)

theorem State.decodeStep_inv (s : State) (core : Nat) (w : Workgroup) (id : Nat) (h_s : s.Inv) :
    (State.decodeStep s core w id).Inv := by
  unfold State.decodeStep
  try dsimp only
  repeat' (first
    | with_reducible assumption | with_reducible apply State.failOp_inv | with_reducible apply State.modOp_inv
    | with_reducible apply State.store_inv | with_reducible apply inv_ite | split)

theorem State.decodeOn_inv (s : State) (core : Nat) (w : Workgroup) (id : Nat) (h_s : s.Inv) :
    (State.decodeOn s core w id).Inv := by
  unfold State.decodeOn
  try dsimp only
  repeat' (first
    | with_reducible assumption | with_reducible apply State.decodeStep_inv
    | with_reducible apply State.readAhead_inv | with_reducible apply inv_ite | split)

theorem execSdecDecode_inv (op n : Nat) (s : State) (h_s : s.Inv) :
    outInv (execSdecDecode op n s) := by
  unfold execSdecDecode
  try dsimp only
  repeat' (first
    | with_reducible assumption | intro _ | with_reducible apply State.afterLanding_inv
    | with_reducible apply State.closeReads_inv | with_reducible apply State.decodeHeader_inv
    | with_reducible apply State.decodeOn_inv | with_reducible apply State.failOp_inv
    | with_reducible apply outInv_next | with_reducible apply inv_foldl | with_reducible apply inv_ite | split)

theorem execEngineOpComplete_inv (op : Nat) (s : State) (h_s : s.Inv) :
    outInv (execEngineOpComplete op s) := by
  unfold execEngineOpComplete
  try dsimp only
  repeat' (first
    | with_reducible assumption | with_reducible apply State.completeStream_inv
    | with_reducible apply State.dropOp_inv | with_reducible apply State.modGroup_inv
    | with_reducible apply outInv_next | with_reducible apply inv_ite | split)

theorem execEngineOpFault_inv (op : Nat) (s : State) (h_s : s.Inv) :
    outInv (execEngineOpFault op s) := by
  unfold execEngineOpFault
  try dsimp only
  repeat' (first
    | with_reducible assumption | with_reducible apply State.fatal_inv | with_reducible apply State.modGroup_inv
    | with_reducible apply State.modOp_inv | with_reducible apply outInv_next | with_reducible apply inv_ite | split)

theorem State.reissue_inv (s : State) (g sid : Nat) (h : Hold) (ready : Ctx → Bool) (h_s : s.Inv) :
    (State.reissue s g sid h ready).Inv := by
  unfold State.reissue
  try dsimp only
  repeat' (first
    | with_reducible assumption | simp only [inv_mk] | with_reducible apply invOf_of | with_reducible apply inv_ite
    | split)

theorem execScoreboardEntryGrant_inv (g sid : Nat) (s : State) (h_s : s.Inv) :
    outInv (execScoreboardEntryGrant g sid s) := by
  unfold execScoreboardEntryGrant
  try dsimp only
  repeat' (first
    | with_reducible assumption | with_reducible apply State.reissue_inv | with_reducible apply outInv_next)

theorem execScoreboardAdmit_inv (g sid : Nat) (s : State) (h_s : s.Inv) :
    outInv (execScoreboardAdmit g sid s) := by
  unfold execScoreboardAdmit
  try dsimp only
  repeat' (first
    | with_reducible assumption | with_reducible apply State.reissue_inv | with_reducible apply outInv_next)

/-! ### Complete -/

theorem State.finishOp_inv (s : State) (gid op : Nat) (h_s : s.Inv) :
    (State.finishOp s gid op).Inv := by
  unfold State.finishOp
  try dsimp only
  repeat' (first
    | with_reducible assumption | with_reducible apply State.acquireCore_inv
    | with_reducible apply State.modGroup_inv | with_reducible apply inv_ite | split)

theorem execFlagCountedCompletion_inv (g op : Nat) (s : State) (h_s : s.Inv) :
    outInv (execFlagCountedCompletion g op s) := by
  unfold execFlagCountedCompletion
  try dsimp only
  repeat' (first
    | with_reducible assumption | with_reducible apply State.finishOp_inv | with_reducible apply outInv_next)

theorem State.passWait_inv (s : State) (c : Ctx) (h_s : s.Inv) :
    (State.passWait s c).Inv := by
  unfold State.passWait
  try dsimp only
  repeat' (first
    | with_reducible assumption | with_reducible apply State.modSplit_inv | with_reducible apply State.noteIssue_inv
    | split)

theorem execBwaitPass_inv (g sid : Nat) (s : State) (h_s : s.Inv) :
    outInv (execBwaitPass g sid s) := by
  unfold execBwaitPass
  try dsimp only
  repeat' (first
    | with_reducible assumption | with_reducible apply State.acquireCore_inv
    | with_reducible apply State.logBarrier_inv | with_reducible apply State.passWait_inv
    | with_reducible apply outInv_next | with_reducible apply inv_ite | split)

theorem execTlwaitPass_inv (g sid : Nat) (s : State) (h_s : s.Inv) :
    outInv (execTlwaitPass g sid s) := by
  unfold execTlwaitPass
  try dsimp only
  repeat' (first
    | with_reducible assumption | with_reducible apply State.acquireTl_inv | with_reducible apply State.passWait_inv
    | with_reducible apply outInv_next | with_reducible apply inv_ite | split)

/-! ### Matrix -/

theorem State.modTile_inv (s : State) (core k : Nat) (f : Tile → Tile) (h_s : s.Inv) :
    (State.modTile s core k f).Inv := by
  unfold State.modTile
  try dsimp only
  repeat' (first
    | with_reducible assumption | with_reducible apply State.modCore_inv)

theorem State.finishSteps_inv (s : State) (core : Nat) (o : EngineOp) (h_s : s.Inv) :
    (State.finishSteps s core o).Inv := by
  unfold State.finishSteps
  try dsimp only
  repeat' (first
    | with_reducible assumption | with_reducible apply State.dropOp_inv | with_reducible apply State.modGroup_inv
    | with_reducible apply State.modTile_inv | with_reducible apply inv_ite)

theorem State.serveStep_inv (s : State) (core : Nat) (w : Workgroup) (o : EngineOp) (h_s : s.Inv) :
    (State.serveStep s core w o).Inv := by
  unfold State.serveStep
  try dsimp only
  repeat' (first
    | with_reducible assumption | with_reducible apply State.failOp_inv | with_reducible apply State.finishSteps_inv
    | with_reducible apply State.modOp_inv | with_reducible apply State.modTile_inv | with_reducible apply inv_ite)

theorem execMatrixStep_inv (core : Nat) (s : State) (h_s : s.Inv) :
    outInv (execMatrixStep core s) := by
  unfold execMatrixStep
  try dsimp only
  repeat' (first
    | with_reducible assumption | with_reducible apply State.serveStep_inv | with_reducible apply outInv_next
    | with_reducible apply inv_ite | split)

theorem State.queueOp_inv (s : State) (c : Ctx) (o : EngineOp) (h_s : s.Inv) :
    (State.queueOp s c o).Inv := by
  unfold State.queueOp
  try dsimp only
  repeat' (first
    | with_reducible assumption | with_reducible apply State.bump_inv | with_reducible apply State.modCore_inv
    | with_reducible apply State.modTile_inv | with_reducible apply inv_ite)

theorem matExec_inv (op : Op) (kind : EngKind) (av : Bool) (x : Args) (s : State) (count : Ctx → Option Nat) (h_s : s.Inv) :
    outInv (matExec op kind av x s count) := by
  unfold matExec
  try dsimp only
  repeat' (first
    | with_reducible assumption | intro _ | with_reducible apply State.queueFor_inv
    | with_reducible apply State.queueOp_inv | with_reducible apply issue_inv | with_reducible apply eff_done
    | with_reducible apply eff_trap | with_reducible apply eff_held | with_reducible apply eff_ite | split)

theorem execMloop_inv (x : Args) (s : State) (h_s : s.Inv) :
    outInv (execMloop x s) := by
  unfold execMloop
  try dsimp only
  repeat' (first
    | with_reducible assumption | with_reducible apply matExec_inv)

theorem execMstep_inv (x : Args) (s : State) (h_s : s.Inv) :
    outInv (execMstep x s) := by
  unfold execMstep
  try dsimp only
  repeat' (first
    | with_reducible assumption | with_reducible apply matExec_inv)

theorem execMstepV_inv (x : Args) (s : State) (h_s : s.Inv) :
    outInv (execMstepV x s) := by
  unfold execMstepV
  try dsimp only
  repeat' (first
    | with_reducible assumption | with_reducible apply matExec_inv)

theorem execAswap_inv (x : Args) (s : State) (h_s : s.Inv) :
    outInv (execAswap x s) := by
  unfold execAswap
  try dsimp only
  repeat' (first
    | with_reducible assumption | intro _ | with_reducible apply State.queueOp_inv
    | with_reducible apply issueDone_inv)

theorem execAzero_inv (x : Args) (s : State) (h_s : s.Inv) :
    outInv (execAzero x s) := by
  unfold execAzero
  try dsimp only
  repeat' (first
    | with_reducible assumption | intro _ | with_reducible apply State.queueOp_inv
    | with_reducible apply issueDone_inv)

theorem execAread_inv (x : Args) (s : State) (h_s : s.Inv) :
    outInv (execAread x s) := by
  unfold execAread
  try dsimp only
  repeat' (first
    | with_reducible assumption | intro _ | with_reducible apply State.pend_inv
    | with_reducible apply State.queueOp_inv | with_reducible apply issue_inv | with_reducible apply eff_done
    | with_reducible apply eff_trap | with_reducible apply eff_held | with_reducible apply eff_ite)

theorem execAstore_inv (x : Args) (s : State) (h_s : s.Inv) :
    outInv (execAstore x s) := by
  unfold execAstore
  try dsimp only
  repeat' (first
    | with_reducible assumption | intro _ | with_reducible apply State.queueFor_inv
    | with_reducible apply State.queueOp_inv | with_reducible apply issue_inv | with_reducible apply eff_done
    | with_reducible apply eff_trap | with_reducible apply eff_held | with_reducible apply eff_ite | split)

theorem execAmark_inv (x : Args) (s : State) (h_s : s.Inv) :
    outInv (execAmark x s) := by
  unfold execAmark
  try dsimp only
  repeat' (first
    | with_reducible assumption | intro _ | with_reducible apply State.writeS_inv
    | with_reducible apply issueDone_inv)

theorem execTileAzeroEffect_inv (op : Nat) (s : State) (h_s : s.Inv) :
    outInv (execTileAzeroEffect op s) := by
  unfold execTileAzeroEffect
  try dsimp only
  repeat' (first
    | with_reducible assumption | with_reducible apply State.dropOp_inv | with_reducible apply State.modTile_inv
    | with_reducible apply outInv_next | split)

theorem execTileAswapEffect_inv (op : Nat) (s : State) (h_s : s.Inv) :
    outInv (execTileAswapEffect op s) := by
  unfold execTileAswapEffect
  try dsimp only
  repeat' (first
    | with_reducible assumption | with_reducible apply State.dropOp_inv | with_reducible apply State.modTile_inv
    | with_reducible apply outInv_next | split)

theorem execTileAreadEffect_inv (op : Nat) (s : State) (h_s : s.Inv) :
    outInv (execTileAreadEffect op s) := by
  unfold execTileAreadEffect
  try dsimp only
  repeat' (first
    | with_reducible assumption | with_reducible apply State.dropOp_inv | with_reducible apply State.finishOp_inv
    | with_reducible apply State.modGroup_inv | with_reducible apply outInv_next | with_reducible apply inv_ite
    | split)

theorem State.storeElemAt_inv (s : State) (base fmt pos x : Nat) (h_s : s.Inv) :
    (State.storeElemAt s base fmt pos x).Inv := by
  unfold State.storeElemAt
  try dsimp only
  repeat' (first
    | with_reducible assumption | with_reducible apply State.storeBytes_inv | with_reducible apply State.store_inv
    | split)

theorem execTileAstoreEffect_inv (op : Nat) (s : State) (h_s : s.Inv) :
    outInv (execTileAstoreEffect op s) := by
  unfold execTileAstoreEffect
  try dsimp only
  repeat' (first
    | with_reducible assumption | intro _ | with_reducible apply State.dropOp_inv
    | with_reducible apply State.modGroup_inv | with_reducible apply State.storeElemAt_inv
    | with_reducible apply outInv_next | with_reducible apply inv_foldl | with_reducible apply inv_ite | split)

theorem execMatrixQueueGrant_inv (g sid : Nat) (s : State) (h_s : s.Inv) :
    outInv (execMatrixQueueGrant g sid s) := by
  unfold execMatrixQueueGrant
  try dsimp only
  repeat' (first
    | with_reducible assumption | with_reducible apply State.reissue_inv | with_reducible apply outInv_next)

/-! ### Braid -/

theorem State.notePerf_inv (s : State) (source part path seq : Nat) (h_s : s.Inv) :
    (State.notePerf s source part path seq).Inv := by
  unfold State.notePerf
  try dsimp only
  repeat' (first
    | with_reducible assumption | simp only [inv_mk] | with_reducible apply invOf_of)

theorem State.ownerTake_inv (s : State) (write : Bool) (pa : Nat) (h_s : s.Inv) :
    (State.ownerTake s write pa).Inv := by
  unfold State.ownerTake
  try dsimp only
  repeat' (first
    | with_reducible assumption | with_reducible apply State.copyBefore_inv | with_reducible apply State.own_inv
    | with_reducible apply State.share__inv | with_reducible apply inv_ite)

theorem State.ownerDirty_inv (s : State) (p : Partition) (f : Leaf) (h_s : s.Inv) :
    (State.ownerDirty s p f).Inv := by
  unfold State.ownerDirty
  try dsimp only
  repeat' (first
    | with_reducible assumption | with_reducible apply State.collect_inv | with_reducible apply State.own_inv
    | with_reducible apply State.store_inv | with_reducible apply inv_ite)

theorem State.collectAll_inv (s : State) (ks : List Nat) (h_s : s.Inv) :
    (State.collectAll s ks).Inv := by
  unfold State.collectAll
  try dsimp only
  repeat' (first
    | with_reducible assumption | intro _ | with_reducible apply State.collect_inv | with_reducible apply inv_foldl)

theorem State.setFarLane_inv (s : State) (p : Packet) (lane : Nat) (r : Option FarResv) (h_s : s.Inv) :
    (State.setFarLane s p lane r).Inv := by
  unfold State.setFarLane
  try dsimp only
  repeat' (first
    | with_reducible assumption | simp only [inv_mk] | with_reducible apply invOf_of)

theorem State.packetLane_inv (s : State) (p : Packet) (l : PacketLane) (key : Nat) (h_s : s.Inv) :
    (State.packetLane s p l key).1.Inv := by
  unfold State.packetLane
  try dsimp only
  repeat' (first
    | with_reducible assumption | with_reducible apply State.setFarLane_inv | with_reducible apply State.store_inv
    | simp only [inv_mk] | with_reducible apply inv_ite | split)

theorem State.doPacket_inv (s : State) (p : Packet) (line : Nat) (h_s : s.Inv) : (s.doPacket p line).state.Inv := by
  unfold State.doPacket
  split
  · exact h_s
  · dsimp only
    split
    · exact State.tagKeys_inv _ _ (State.store_inv _ _ _ h_s)
    · exact State.store_inv _ _ _ h_s
  · dsimp only
    with_reducible apply inv_foldl_fst
    · intro q l h; exact State.packetLane_inv _ _ _ _ h
    · exact h_s

theorem State.performPacket_inv (s : State) (pt : Partition) (p : Packet) (h_s : s.Inv) :
    (State.performPacket s pt p).Inv := by
  unfold State.performPacket
  try dsimp only
  repeat' (first
    | with_reducible assumption | with_reducible apply State.collectAll_inv
    | with_reducible apply State.doPacket_inv | with_reducible apply State.logEvent_inv
    | with_reducible apply State.notePerf_inv | with_reducible apply State.ownerDirty_inv
    | with_reducible apply State.ownerTake_inv | simp only [inv_mk] | with_reducible apply invOf_of
    | with_reducible apply inv_ite | split)

theorem execPacketReceive_inv (p : Packet) (s : State) (h_s : s.Inv) :
    outInv (execPacketReceive p s) := by
  unfold execPacketReceive
  try dsimp only
  repeat' (first
    | with_reducible assumption | with_reducible apply State.performPacket_inv | simp only [inv_mk]
    | with_reducible apply invOf_of | with_reducible apply outInv_next | with_reducible apply inv_ite | split)

theorem execOrderedPacketRelease_inv (source part path seq : Nat) (s : State) (h_s : s.Inv) :
    outInv (execOrderedPacketRelease source part path seq s) := by
  unfold execOrderedPacketRelease
  try dsimp only
  repeat' (first
    | with_reducible assumption | with_reducible apply State.performPacket_inv | simp only [inv_mk]
    | with_reducible apply invOf_of | with_reducible apply outInv_next | with_reducible apply inv_ite | split)

theorem State.fatalPartition_inv (s : State) (part die : Nat) (r : ErrorRecord) (h_s : s.Inv) :
    (State.fatalPartition s part die r).Inv := by
  unfold State.fatalPartition
  try dsimp only
  repeat' (first
    | with_reducible assumption | with_reducible apply State.record_inv | simp only [inv_mk]
    | with_reducible apply invOf_of | with_reducible apply inv_ite)

theorem State.ownerFault_inv (s : State) (q : SentPacket) (code : Nat) (h_s : s.Inv) :
    (State.ownerFault s q code).Inv := by
  unfold State.ownerFault
  try dsimp only
  repeat' (first
    | with_reducible assumption | with_reducible apply State.fatal_inv | split)

theorem State.raiseAnswers_inv (s : State) (gid opId : Nat) (h_s : s.Inv) :
    (State.raiseAnswers s gid opId).Inv := by
  unfold State.raiseAnswers
  try dsimp only
  repeat' (first
    | with_reducible assumption | intro _ | with_reducible apply State.ownerFault_inv | simp only [inv_mk]
    | with_reducible apply invOf_of | with_reducible apply inv_foldl | with_reducible apply inv_ite)

theorem State.keepLine_inv (s : State) (q : SentPacket) (bytes : List (Nat × Byte)) (tags : List Nat) (h_s : s.Inv) :
    (State.keepLine s q bytes tags).Inv := by
  unfold State.keepLine
  try dsimp only
  repeat' (first
    | with_reducible assumption | (intro d hd; exact hd) | with_reducible apply State.modDie_inv | split)

theorem State.keepInL1_inv (s : State) (q : SentPacket) (bytes : List (Nat × Byte)) (h_s : s.Inv) :
    (State.keepInL1 s q bytes).Inv := by
  unfold State.keepInL1
  try dsimp only
  repeat' (first
    | with_reducible assumption | intro _ | with_reducible apply State.fillFar_inv | with_reducible apply inv_foldl
    | with_reducible apply inv_ite | split)

theorem State.countAck_inv (s : State) (q : SentPacket) (h_s : s.Inv) :
    (State.countAck s q).Inv := by
  unfold State.countAck
  try dsimp only
  repeat' (first
    | with_reducible assumption | with_reducible apply State.setBraid_inv)

theorem State.dropSent_inv (s : State) (q : SentPacket) (h_s : s.Inv) :
    (State.dropSent s q).Inv := by
  unfold State.dropSent
  try dsimp only
  repeat' (first
    | with_reducible assumption | simp only [inv_mk] | with_reducible apply invOf_of)

theorem State.serveAnswer_inv (s : State) (q : SentPacket) (bytes : List (Nat × Byte)) (failed : Bool) (h_s : s.Inv) :
    (State.serveAnswer s q bytes failed).Inv := by
  unfold State.serveAnswer
  try dsimp only
  repeat' (first
    | with_reducible assumption | with_reducible apply State.landAcked_inv | with_reducible apply State.modGroup_inv
    | with_reducible apply State.modOp_inv | with_reducible apply inv_ite | split)

theorem execPacketAck_inv (dest part path seq : Nat) (bytes : List (Nat × Byte)) (tags : List Nat) (faultCode : Nat) (s : State) (h_s : s.Inv) :
    outInv (execPacketAck dest part path seq bytes tags faultCode s) := by
  unfold execPacketAck
  try dsimp only
  repeat' (first
    | with_reducible assumption | with_reducible apply State.countAck_inv | with_reducible apply State.dropSent_inv
    | with_reducible apply State.keepInL1_inv | with_reducible apply State.keepLine_inv
    | with_reducible apply State.modGroup_inv | with_reducible apply State.modOp_inv
    | with_reducible apply State.raiseAnswers_inv | with_reducible apply State.serveAnswer_inv | simp only [inv_mk]
    | with_reducible apply invOf_of | with_reducible apply outInv_next | with_reducible apply inv_ite | split)

theorem State.abandonPacket_inv (s : State) (q : SentPacket) (code : Nat) (h_s : s.Inv) :
    (State.abandonPacket s q code).Inv := by
  unfold State.abandonPacket
  try dsimp only
  repeat' (first
    | with_reducible assumption | with_reducible apply State.dropSent_inv | with_reducible apply State.modOp_inv
    | with_reducible apply State.serveAnswer_inv | with_reducible apply inv_ite | split)

theorem execPacketRefusal_inv (dest part path seq : Nat) (s : State) (h_s : s.Inv) :
    outInv (execPacketRefusal dest part path seq s) := by
  unfold execPacketRefusal
  try dsimp only
  repeat' (first
    | with_reducible assumption | with_reducible apply State.abandonPacket_inv
    | with_reducible apply State.fatalPartition_inv | with_reducible apply outInv_next | split)

theorem State.setPath_inv (s : State) (dest path : Nat) (st : LinkState) (more : Nat) (h_s : s.Inv) :
    (State.setPath s dest path st more).Inv := by
  unfold State.setPath
  try dsimp only
  repeat' (first
    | with_reducible assumption | simp only [inv_mk] | with_reducible apply invOf_of)

theorem State.downPath_inv (s : State) (dest path : Nat) (h_s : s.Inv) :
    (State.downPath s dest path).Inv := by
  unfold State.downPath
  try dsimp only
  repeat' (first
    | with_reducible assumption | with_reducible apply State.record_inv | with_reducible apply State.setPath_inv
    | simp only [inv_mk] | with_reducible apply invOf_of)

theorem execPathDown_inv (dest path : Nat) (s : State) (h_s : s.Inv) :
    outInv (execPathDown dest path s) := by
  unfold execPathDown
  try dsimp only
  repeat' (first
    | with_reducible assumption | with_reducible apply State.downPath_inv | with_reducible apply outInv_next
    | with_reducible apply inv_ite)

theorem execPathRestore_inv (dest path : Nat) (s : State) (h_s : s.Inv) :
    outInv (execPathRestore dest path s) := by
  unfold execPathRestore
  try dsimp only
  repeat' (first
    | with_reducible assumption | with_reducible apply State.setPath_inv | with_reducible apply outInv_next
    | with_reducible apply inv_ite)

theorem execDestinationUnreachable_inv (dest : Nat) (s : State) (h_s : s.Inv) :
    outInv (execDestinationUnreachable dest s) := by
  unfold execDestinationUnreachable
  try dsimp only
  repeat' (first
    | with_reducible assumption | intro _ | with_reducible apply State.abandonPacket_inv
    | with_reducible apply State.fatalPartition_inv | with_reducible apply outInv_next
    | with_reducible apply inv_foldl | with_reducible apply inv_ite)

theorem State.failAccess_inv (s : State) (g : Group) (o : PendingOp) (h_s : s.Inv) :
    (State.failAccess s g o).Inv := by
  unfold State.failAccess
  try dsimp only
  repeat' (first
    | with_reducible assumption | with_reducible apply State.fatal_inv | with_reducible apply State.modGroup_inv
    | split)

theorem State.failEngines_inv (s : State) (h_s : s.Inv) :
    (State.failEngines s).Inv := by
  unfold State.failEngines
  try dsimp only
  repeat' (first
    | with_reducible assumption | intro _ | with_reducible apply State.modOp_inv | with_reducible apply inv_foldl
    | with_reducible apply inv_ite | split)

theorem execMbatilLinkDown_inv (s : State) (h_s : s.Inv) :
    outInv (execMbatilLinkDown s) := by
  unfold execMbatilLinkDown
  try dsimp only
  repeat' (first
    | with_reducible assumption | intro _ | with_reducible apply State.failAccess_inv
    | with_reducible apply State.failEngines_inv | simp only [inv_mk] | with_reducible apply invOf_of
    | with_reducible apply outInv_next | with_reducible apply inv_foldl | with_reducible apply inv_ite)

theorem State.countRetrain_inv (s : State) (unit : Nat) (h_s : s.Inv) :
    (State.countRetrain s unit).Inv := by
  unfold State.countRetrain
  try dsimp only
  repeat' (first
    | with_reducible assumption | simp only [inv_mk] | with_reducible apply invOf_of)

theorem execMbatilLaneDegraded_inv (lane : Nat) (s : State) (h_s : s.Inv) :
    outInv (execMbatilLaneDegraded lane s) := by
  unfold execMbatilLaneDegraded
  try dsimp only
  repeat' (first
    | with_reducible assumption | with_reducible apply State.countRetrain_inv
    | with_reducible apply State.record_inv | simp only [inv_mk] | with_reducible apply invOf_of
    | with_reducible apply outInv_next)

end Sys2Proof.Machine
end

