-- ==== Sys2Proof/Laws/KeepIssue.lean ====
section
/-!
SUPPORT. Each operation keeps the invariant of the machine: control, derivation, the transform pipe, launches, the issue of an instruction.
-/
namespace Sys2Proof.Machine

/-! ### Control -/

theorem State.branch_inv (s : State) (c : Ctx) (act : List Nat) (tgt r : Word) (h_s : s.Inv) :
    (State.branch s c act tgt r).Inv := by
  unfold State.branch
  try dsimp only
  repeat' (first
    | with_reducible assumption | with_reducible apply State.putSplits_inv | with_reducible apply eff_trap
    | with_reducible apply eff_moved | with_reducible apply eff_ite | split)

theorem branchExec_inv (o : Op) (x : Args) (s : State) (pre : State → Ctx → State) (tgt r : Ctx → Word) (h_s : s.Inv) (h_pre : ∀ y0 y1, y0.Inv → (pre y0 y1).Inv) :
    outInv (branchExec o x s pre tgt r) := by
  unfold branchExec
  try dsimp only
  repeat' (first
    | with_reducible assumption | with_reducible apply h_pre | intro _ | with_reducible apply State.branch_inv
    | with_reducible apply issue_inv)

theorem execBra_inv (x : Args) (s : State) (h_s : s.Inv) :
    outInv (execBra x s) := by
  unfold execBra
  try dsimp only
  repeat' (first
    | with_reducible assumption | intro _ | with_reducible apply branchExec_inv)

theorem execBrd_inv (x : Args) (s : State) (h_s : s.Inv) :
    outInv (execBrd x s) := by
  unfold execBrd
  try dsimp only
  repeat' (first
    | with_reducible assumption | intro _ | with_reducible apply branchExec_inv)

theorem execBri_inv (x : Args) (s : State) (h_s : s.Inv) :
    outInv (execBri x s) := by
  unfold execBri
  try dsimp only
  repeat' (first
    | with_reducible assumption | intro _ | with_reducible apply branchExec_inv)

theorem execCall_inv (x : Args) (s : State) (h_s : s.Inv) :
    outInv (execCall x s) := by
  unfold execCall
  try dsimp only
  repeat' (first
    | with_reducible assumption | intro _ | with_reducible apply State.writeS_inv
    | with_reducible apply branchExec_inv)

theorem execCalli_inv (x : Args) (s : State) (h_s : s.Inv) :
    outInv (execCalli x s) := by
  unfold execCalli
  try dsimp only
  repeat' (first
    | with_reducible assumption | intro _ | with_reducible apply State.writeS_inv
    | with_reducible apply branchExec_inv)

theorem execRet_inv (x : Args) (s : State) (h_s : s.Inv) :
    outInv (execRet x s) := by
  unfold execRet
  try dsimp only
  repeat' (first
    | with_reducible assumption | intro _ | with_reducible apply branchExec_inv)

theorem State.vanishSplit_inv (s : State) (c : Ctx) (h_s : s.Inv) :
    (State.vanishSplit s c).Inv := by
  unfold State.vanishSplit
  try dsimp only
  repeat' (first
    | with_reducible assumption | with_reducible apply State.putSplits_inv | split)

theorem State.removeLanes_inv (s : State) (c : Ctx) (m : LaneMask) (hold : Bool) (h_s : s.Inv) :
    (State.removeLanes s c m hold).Inv := by
  unfold State.removeLanes
  try dsimp only
  repeat' (first
    | with_reducible assumption | with_reducible apply State.modSplit_inv
    | with_reducible apply State.vanishSplit_inv | with_reducible apply eff_done | with_reducible apply eff_moved
    | with_reducible apply eff_ite)

theorem execMaskLanes_inv (x : Args) (s : State) (h_s : s.Inv) :
    outInv (execMaskLanes x s) := by
  unfold execMaskLanes
  try dsimp only
  repeat' (first
    | with_reducible assumption | intro _ | with_reducible apply State.removeLanes_inv
    | with_reducible apply issue_inv)

theorem execEndLanes_inv (x : Args) (s : State) (h_s : s.Inv) :
    outInv (execEndLanes x s) := by
  unfold execEndLanes
  try dsimp only
  repeat' (first
    | with_reducible assumption | intro _ | with_reducible apply State.removeLanes_inv
    | with_reducible apply issue_inv)

theorem execSplitq_inv (x : Args) (s : State) (h_s : s.Inv) :
    outInv (execSplitq x s) := by
  unfold execSplitq
  try dsimp only
  repeat' (first
    | with_reducible assumption | intro _ | with_reducible apply State.writeS_inv
    | with_reducible apply issueDone_inv)

theorem execYield_inv (x : Args) (s : State) (h_s : s.Inv) : outInv (execYield x s) := by
  have key : outInv (issue .yield x s (fun _ _ => .done s)) := issue_inv h_s (fun _ _ => h_s)
  unfold execYield
  split
  · rename_i e _
    rw [e] at key
    exact State.modGroup_inv _ _ _ key
  · exact key

theorem State.waitEvent_inv (s : State) (c : Ctx) (kind reg : Nat) (val : DWord) (h_s : s.Inv) :
    (State.waitEvent s c kind reg val).Inv := by
  unfold State.waitEvent
  try dsimp only
  repeat' (first
    | with_reducible assumption | with_reducible apply State.modSplit_inv | with_reducible apply eff_done
    | with_reducible apply eff_wait | with_reducible apply eff_moved | with_reducible apply eff_ite)

theorem execWaitevTl_inv (x : Args) (s : State) (h_s : s.Inv) :
    outInv (execWaitevTl x s) := by
  unfold execWaitevTl
  try dsimp only
  repeat' (first
    | with_reducible assumption | intro _ | with_reducible apply State.waitEvent_inv
    | with_reducible apply issue_inv)

theorem execWaitevBar_inv (x : Args) (s : State) (h_s : s.Inv) :
    outInv (execWaitevBar x s) := by
  unfold execWaitevBar
  try dsimp only
  repeat' (first
    | with_reducible assumption | intro _ | with_reducible apply State.waitEvent_inv
    | with_reducible apply issue_inv | with_reducible apply eff_trap | with_reducible apply eff_ite)

theorem execWaitevFlag_inv (x : Args) (s : State) (h_s : s.Inv) :
    outInv (execWaitevFlag x s) := by
  unfold execWaitevFlag
  try dsimp only
  repeat' (first
    | with_reducible assumption | intro _ | with_reducible apply State.waitEvent_inv
    | with_reducible apply issue_inv)

theorem execNop_inv (x : Args) (s : State) (h_s : s.Inv) :
    outInv (execNop x s) := by
  unfold execNop
  try dsimp only
  repeat' (first
    | with_reducible assumption | intro _ | with_reducible apply issueDone_inv)

theorem execTrap_inv (x : Args) (s : State) (h_s : s.Inv) :
    outInv (execTrap x s) := by
  unfold execTrap
  try dsimp only
  repeat' (first
    | with_reducible assumption | intro _ | with_reducible apply issue_inv | with_reducible apply eff_trap)

theorem execTret_inv (x : Args) (s : State) (h_s : s.Inv) :
    outInv (execTret x s) := by
  unfold execTret
  try dsimp only
  repeat' (first
    | with_reducible assumption | intro _ | with_reducible apply State.modGroup_inv | with_reducible apply issue_inv
    | with_reducible apply eff_trap | with_reducible apply eff_moved | with_reducible apply eff_ite)

theorem execSysRecord_inv (x : Args) (s : State) (h_s : s.Inv) :
    outInv (execSysRecord x s) := by
  unfold execSysRecord
  try dsimp only
  repeat' (first
    | with_reducible assumption | intro _ | with_reducible apply State.record_inv
    | with_reducible apply State.releaseCore_inv | with_reducible apply State.writeS_inv
    | with_reducible apply issue_inv | with_reducible apply eff_done | with_reducible apply eff_trap
    | with_reducible apply eff_ite)

theorem execSysNotify_inv (x : Args) (s : State) (h_s : s.Inv) :
    outInv (execSysNotify x s) := by
  unfold execSysNotify
  try dsimp only
  repeat' (first
    | with_reducible assumption | intro _ | with_reducible apply State.irqPut_inv
    | with_reducible apply State.releaseCore_inv | with_reducible apply State.writeS_inv
    | with_reducible apply issueDone_inv | with_reducible apply inv_ite)

theorem execSysStop_inv (x : Args) (s : State) (h_s : s.Inv) :
    outInv (execSysStop x s) := by
  unfold execSysStop
  try dsimp only
  repeat' (first
    | with_reducible assumption | intro _ | with_reducible apply State.fatal_inv
    | with_reducible apply State.markFaulted_inv | with_reducible apply State.releaseCore_inv
    | with_reducible apply issue_inv | with_reducible apply eff_moved)

theorem execRds_inv (x : Args) (s : State) (h_s : s.Inv) :
    outInv (execRds x s) := by
  unfold execRds
  try dsimp only
  repeat' (first
    | with_reducible assumption | intro _ | with_reducible apply State.writeS_inv | with_reducible apply issue_inv
    | with_reducible apply writeLanes_inv | with_reducible apply eff_done | with_reducible apply eff_trap
    | with_reducible apply eff_ite)

theorem execWrs_inv (x : Args) (s : State) (h_s : s.Inv) :
    outInv (execWrs x s) := by
  unfold execWrs
  try dsimp only
  repeat' (first
    | with_reducible assumption | intro _ | with_reducible apply State.modGroup_inv
    | with_reducible apply issueDone_inv)

/-! ### Derive -/

theorem deriveExec_inv (o : Op) (x : Args) (s : State) (f : Ctx → Except Nat Ptr) (h_s : s.Inv) :
    outInv (deriveExec o x s f) := by
  unfold deriveExec
  try dsimp only
  repeat' (first
    | with_reducible assumption | intro _ | with_reducible apply State.writeP_inv | with_reducible apply issue_inv
    | with_reducible apply eff_done | with_reducible apply eff_trap | split)

theorem execPder_inv (x : Args) (s : State) (h_s : s.Inv) :
    outInv (execPder x s) := by
  unfold execPder
  try dsimp only
  repeat' (first
    | with_reducible assumption | with_reducible apply deriveExec_inv)

theorem execPadd_inv (x : Args) (s : State) (h_s : s.Inv) :
    outInv (execPadd x s) := by
  unfold execPadd
  try dsimp only
  repeat' (first
    | with_reducible assumption | with_reducible apply deriveExec_inv)

theorem execPfmt_inv (x : Args) (s : State) (h_s : s.Inv) :
    outInv (execPfmt x s) := by
  unfold execPfmt
  try dsimp only
  repeat' (first
    | with_reducible assumption | with_reducible apply deriveExec_inv)

theorem execPright_inv (x : Args) (s : State) (h_s : s.Inv) :
    outInv (execPright x s) := by
  unfold execPright
  try dsimp only
  repeat' (first
    | with_reducible assumption | with_reducible apply deriveExec_inv)

theorem execPget_inv (x : Args) (s : State) (h_s : s.Inv) :
    outInv (execPget x s) := by
  unfold execPget
  try dsimp only
  repeat' (first
    | with_reducible assumption | intro _ | with_reducible apply State.writeS_inv
    | with_reducible apply issueDone_inv)

theorem execPgetQuad_inv (x : Args) (s : State) (h_s : s.Inv) :
    outInv (execPgetQuad x s) := by
  unfold execPgetQuad
  try dsimp only
  repeat' (first
    | with_reducible assumption | intro _ | with_reducible apply State.modGroup_inv
    | with_reducible apply State.writeV_inv | with_reducible apply issueDone_inv | with_reducible apply inv_ite)

theorem execPnull_inv (x : Args) (s : State) (h_s : s.Inv) :
    outInv (execPnull x s) := by
  unfold execPnull
  try dsimp only
  repeat' (first
    | with_reducible assumption | intro _ | with_reducible apply State.writeP_inv
    | with_reducible apply issueDone_inv)

theorem execPeq_inv (x : Args) (s : State) (h_s : s.Inv) :
    outInv (execPeq x s) := by
  unfold execPeq
  try dsimp only
  repeat' (first
    | with_reducible assumption | intro _ | with_reducible apply State.writeS_inv
    | with_reducible apply issueDone_inv)

/-! ### Launch -/

theorem State.writeLaunchState_inv (s : State) (p : Partition) (l : Launch) (v : Nat) (h_s : s.Inv) :
    (State.writeLaunchState s p l v).Inv := by
  unfold State.writeLaunchState
  try dsimp only
  repeat' (first
    | with_reducible assumption | with_reducible apply State.vaStore_inv)

theorem State.setLaunchState_inv (s : State) (part ticket v : Nat) (h_s : s.Inv) :
    (State.setLaunchState s part ticket v).Inv := by
  unfold State.setLaunchState
  try dsimp only
  repeat' (first
    | with_reducible assumption | with_reducible apply State.modLaunch_inv
    | with_reducible apply State.writeLaunchState_inv | split)

theorem State.settleVerdict_inv (s : State) (p : Partition) (v : Verdict) (h_s : s.Inv) :
    (State.settleVerdict s p v).Inv := by
  unfold State.settleVerdict
  try dsimp only
  repeat' (first
    | with_reducible assumption | with_reducible apply State.modPart_inv | with_reducible apply State.record_inv
    | with_reducible apply State.vaStore_inv | with_reducible apply State.writeLaunchState_inv | split)

theorem execSubmit_inv (part port : Nat) (addr : DWord) (s : State) (h_s : s.Inv) :
    outInv (execSubmit part port addr s) := by
  unfold execSubmit
  try dsimp only
  repeat' (first
    | with_reducible assumption | with_reducible apply State.modPart_inv
    | with_reducible apply State.settleVerdict_inv | with_reducible apply outInv_next | with_reducible apply inv_ite
    | split)

theorem execSubmitStatusRead_inv (part port : Nat) (s : State) (h_s : s.Inv) :
    outInv (execSubmitStatusRead part port s) := by
  unfold execSubmitStatusRead
  try dsimp only
  repeat' (first
    | with_reducible assumption | simp only [inv_mk] | with_reducible apply invOf_of
    | with_reducible apply outInv_next | split)

theorem execFailack_inv (part : Nat) (ticket : DWord) (s : State) (h_s : s.Inv) :
    outInv (execFailack part ticket s) := by
  unfold execFailack
  try dsimp only
  repeat' (first
    | with_reducible assumption | with_reducible apply State.modPart_inv | with_reducible apply outInv_next)

theorem State.failLaunch_inv (s : State) (part ticket : Nat) (h_s : s.Inv) :
    (State.failLaunch s part ticket).Inv := by
  unfold State.failLaunch
  try dsimp only
  repeat' (first
    | with_reducible assumption | with_reducible apply State.modPart_inv
    | with_reducible apply State.notifyLaunch_inv | with_reducible apply State.setLaunchState_inv
    | with_reducible apply inv_ite | split)

theorem State.readyLaunch_inv (s : State) (part ticket : Nat) (h_s : s.Inv) :
    (State.readyLaunch s part ticket).Inv := by
  unfold State.readyLaunch
  try dsimp only
  repeat' (first
    | with_reducible assumption | with_reducible apply State.failLaunch_inv | with_reducible apply State.record_inv
    | with_reducible apply State.setLaunchState_inv | with_reducible apply inv_ite | split)

theorem execLaunchReady_inv (part ticket : Nat) (s : State) (h_s : s.Inv) :
    outInv (execLaunchReady part ticket s) := by
  unfold execLaunchReady
  try dsimp only
  repeat' (first
    | with_reducible assumption | with_reducible apply State.readyLaunch_inv | with_reducible apply outInv_next)

theorem execLaunch_inv (x : Args) (s : State) (h_s : s.Inv) :
    outInv (execLaunch x s) := by
  unfold execLaunch
  try dsimp only
  repeat' (first
    | with_reducible assumption | intro _ | with_reducible apply State.releaseCore_inv
    | with_reducible apply State.settleVerdict_inv | with_reducible apply State.writeS_inv
    | with_reducible apply issue_inv | with_reducible apply eff_done | with_reducible apply eff_trap | split)

/-! ### Transform -/

theorem State.sendPipe_inv (s : State) (c : Ctx) (op : PendingOp) (h_s : s.Inv) :
    (State.sendPipe s c op).Inv := by
  unfold State.sendPipe
  try dsimp only
  repeat' (first
    | with_reducible assumption | with_reducible apply State.modCore_inv | with_reducible apply State.pend_inv)

theorem pipeExec_inv (o : Op) (x : Args) (s : State) (body : Ctx → List Nat → Eff) (h_s : s.Inv) (h_body : ∀ y0 y1, (body y0 y1).Inv) :
    outInv (pipeExec o x s body) := by
  unfold pipeExec
  try dsimp only
  repeat' (first
    | with_reducible assumption | with_reducible apply h_body | intro _ | with_reducible apply State.queueFor_inv
    | with_reducible apply issue_inv | with_reducible apply eff_ite)

theorem execXtopk_inv (x : Args) (s : State) (h_s : s.Inv) :
    outInv (execXtopk x s) := by
  unfold execXtopk
  try dsimp only
  repeat' (first
    | with_reducible assumption | intro _ | with_reducible apply State.queueFor_inv
    | with_reducible apply State.sendPipe_inv | with_reducible apply State.storeNum_inv
    | with_reducible apply issue_inv | with_reducible apply eff_done | with_reducible apply eff_trap
    | with_reducible apply eff_held | with_reducible apply inv_foldl | with_reducible apply eff_ite | split)

theorem execXqnt_inv (x : Args) (s : State) (h_s : s.Inv) :
    outInv (execXqnt x s) := by
  unfold execXqnt
  try dsimp only
  repeat' (first
    | with_reducible assumption | intro _ | with_reducible apply State.sendPipe_inv
    | with_reducible apply pipeExec_inv | with_reducible apply eff_done)

theorem execXdqnt_inv (x : Args) (s : State) (h_s : s.Inv) :
    outInv (execXdqnt x s) := by
  unfold execXdqnt
  try dsimp only
  repeat' (first
    | with_reducible assumption | intro _ | with_reducible apply State.sendPipe_inv
    | with_reducible apply pipeExec_inv | with_reducible apply eff_done)

theorem execTransformReply_inv (g op : Nat) (s : State) (h_s : s.Inv) :
    outInv (execTransformReply g op s) := by
  unfold execTransformReply
  try dsimp only
  repeat' (first
    | with_reducible assumption | with_reducible apply State.finishOp_inv | with_reducible apply State.modCore_inv
    | with_reducible apply State.modGroup_inv | with_reducible apply outInv_next | with_reducible apply inv_ite
    | split)

theorem execTransformPipeAccept_inv (core : Nat) (s : State) (h_s : s.Inv) :
    outInv (execTransformPipeAccept core s) := by
  unfold execTransformPipeAccept
  try dsimp only
  repeat' (first
    | with_reducible assumption | with_reducible apply State.reissue_inv | with_reducible apply outInv_next
    | with_reducible apply inv_ite | split)

/-! ### Issue -/

theorem State.fillLine_inv (s : State) (core part line pa : Nat) (ord : Bool) (h_s : s.Inv) :
    (State.fillLine s core part line pa ord).Inv := by
  unfold State.fillLine
  try dsimp only
  repeat' (first
    | with_reducible assumption | with_reducible apply State.modCore_inv | with_reducible apply State.share__inv)

theorem State.fetchWord_inv {s t : State} {c : Ctx} {va : Nat} {w : DWord} (e : s.fetchWord c va = .ok t w) (h : s.Inv) :
    t.Inv := by
  unfold State.fetchWord at e
  dsimp only at e
  repeat' split at e
  all_goals first
    | (cases e; repeat' (first
        | exact h
        | with_reducible apply State.fillLine_inv
        | with_reducible apply State.countAccess_inv
        | with_reducible apply State.touch_inv))

theorem State.fetchWords_inv {n : Nat} {s t : State} {c : Ctx} {va : Nat} {ws : List DWord}
    (e : s.fetchWords c va n = .ok (t, ws)) (h : s.Inv) : t.Inv := by
  induction n generalizing s va ws with
  | zero => cases e; exact h
  | succ n ih =>
    unfold State.fetchWords at e
    split at e
    · cases e
    · cases e
    · rename_i e1
      split at e
      · cases e
      · rename_i e2; cases e; exact ih e2 (State.fetchWord_inv e1 h)

theorem State.fetchTrap_inv (s : State) (c : Ctx) (code : Nat) (va : Option Nat) (pa : Option Nat) (iword : DWord) (h_s : s.Inv) :
    (State.fetchTrap s c code va pa iword).Inv := by
  unfold State.fetchTrap
  try dsimp only
  repeat' (first
    | with_reducible assumption | with_reducible apply State.takeTrap_inv)

theorem execClauseFetch_inv (g sid : Nat) (s : State) (h_s : s.Inv) :
    outInv (execClauseFetch g sid s) := by
  unfold execClauseFetch
  try dsimp only
  repeat' (first
    | with_reducible assumption | with_reducible apply State.fetchTrap_inv
    | (with_reducible refine State.fetchWords_inv (by with_reducible assumption) ?_)
    | with_reducible apply State.modSplit_inv | with_reducible apply outInv_next | with_reducible apply inv_ite
    | split)

theorem State.prefetchLines_inv (s : State) (c : Ctx) (va n : Nat) (h_s : s.Inv) : (State.prefetchLines s c va n).Inv := by
  induction n generalizing s va with
  | zero => exact h_s
  | succ n ih =>
    unfold State.prefetchLines
    dsimp only
    repeat' (first
      | with_reducible assumption
      | with_reducible apply ih
      | with_reducible apply State.fillLine_inv
      | with_reducible apply inv_ite
      | split)

theorem execClausePrefetch_inv (g sid n : Nat) (s : State) (h_s : s.Inv) :
    outInv (execClausePrefetch g sid n s) := by
  unfold execClausePrefetch
  try dsimp only
  repeat' (first
    | with_reducible assumption | with_reducible apply State.prefetchLines_inv | with_reducible apply outInv_next
    | with_reducible apply inv_ite | split)

theorem State.putTable_inv (s : State) (c : Ctx) (g' : Group) (h_s : s.Inv) :
    (State.putTable s c g').Inv := by
  unfold State.putTable
  try dsimp only
  repeat' (first
    | with_reducible assumption | with_reducible apply State.putSplits_inv | split)

theorem State.startClause_inv (s : State) (c : Ctx) (h_s : s.Inv) :
    (State.startClause s c).Inv := by
  unfold State.startClause
  try dsimp only
  repeat' (first
    | with_reducible assumption | with_reducible apply State.fetchTrap_inv | with_reducible apply State.modSplit_inv
    | with_reducible apply State.putTable_inv | with_reducible apply inv_ite | split)

theorem execClauseStart_inv (g sid : Nat) (s : State) (h_s : s.Inv) :
    outInv (execClauseStart g sid s) := by
  unfold execClauseStart
  try dsimp only
  repeat' (first
    | with_reducible assumption | with_reducible apply State.modGroup_inv | with_reducible apply State.putSplits_inv
    | with_reducible apply State.startClause_inv | with_reducible apply outInv_next | with_reducible apply inv_ite
    | split)

theorem execWaitRetestStart_inv (g sid : Nat) (s : State) (h_s : s.Inv) :
    outInv (execWaitRetestStart g sid s) := by
  unfold execWaitRetestStart
  try dsimp only
  repeat' (first
    | with_reducible assumption | with_reducible apply State.startClause_inv | with_reducible apply outInv_next
    | with_reducible apply inv_ite | split)

theorem execSpillRotation_inv (g : Nat) (s : State) (h_s : s.Inv) :
    outInv (execSpillRotation g s) := by
  unfold execSpillRotation
  try dsimp only
  repeat' (first
    | with_reducible assumption | with_reducible apply State.putSplits_inv | with_reducible apply outInv_next
    | with_reducible apply inv_ite | split)

theorem execSpillConditionTest_inv (g : Nat) (s : State) (h_s : s.Inv) :
    outInv (execSpillConditionTest g s) := by
  unfold execSpillConditionTest
  try dsimp only
  repeat' (first
    | with_reducible assumption | with_reducible apply State.putSplits_inv | with_reducible apply outInv_next
    | with_reducible apply inv_ite | split)

theorem execEventWake_inv (g sid : Nat) (s : State) (h_s : s.Inv) :
    outInv (execEventWake g sid s) := by
  unfold execEventWake
  try dsimp only
  repeat' (first
    | with_reducible assumption | with_reducible apply State.modSplit_inv | with_reducible apply State.passWait_inv
    | with_reducible apply outInv_next | with_reducible apply inv_ite | split)

theorem execStarvationGuard_inv (g sid : Nat) (s : State) (h_s : s.Inv) :
    outInv (execStarvationGuard g sid s) := by
  unfold execStarvationGuard
  try dsimp only
  repeat' (first
    | with_reducible assumption | with_reducible apply State.bump_inv | with_reducible apply State.modSplit_inv
    | with_reducible apply outInv_next | with_reducible apply inv_ite | split)

theorem execCapRecompute_inv (core : Nat) (s : State) (h_s : s.Inv) :
    outInv (execCapRecompute core s) := by
  unfold execCapRecompute
  try dsimp only
  repeat' (first
    | with_reducible assumption | with_reducible apply State.modCore_inv | with_reducible apply outInv_next)

theorem execScoreHalving_inv (core : Nat) (s : State) (h_s : s.Inv) :
    outInv (execScoreHalving core s) := by
  unfold execScoreHalving
  try dsimp only
  repeat' (first
    | with_reducible assumption | intro _ | with_reducible apply State.modGroup_inv
    | with_reducible apply outInv_next | with_reducible apply inv_foldl)

theorem execStallHistogramCount_inv (die cluster core sched : Nat) (s : State) (h_s : s.Inv) :
    outInv (execStallHistogramCount die cluster core sched s) := by
  unfold execStallHistogramCount
  try dsimp only
  repeat' (first
    | with_reducible assumption | with_reducible apply State.modCore_inv | with_reducible apply outInv_next)

theorem execPageWalk_inv (core part va : Nat) (s : State) (h_s : s.Inv) :
    outInv (execPageWalk core part va s) := by
  unfold execPageWalk
  try dsimp only
  repeat' (first
    | with_reducible assumption | with_reducible apply State.install_inv | with_reducible apply outInv_next | split)

/-! ### Place -/

theorem State.flushPart_inv (s : State) (part : Nat) (h_s : s.Inv) :
    (State.flushPart s part).Inv := by
  unfold State.flushPart
  try dsimp only
  repeat' (first
    | with_reducible assumption | intro _ | with_reducible apply State.evictWords_inv
    | with_reducible apply inv_foldl)

theorem State.flushCode_inv (s : State) (part : Nat) (h_s : s.Inv) :
    (State.flushCode s part).Inv := by
  unfold State.flushCode
  try dsimp only
  repeat' (first
    | with_reducible assumption | simp only [inv_mk] | with_reducible apply invOf_of)

theorem execCarveoutOffsetFix_inv (part ticket off : Nat) (s : State) (h_s : s.Inv) :
    outInv (execCarveoutOffsetFix part ticket off s) := by
  unfold execCarveoutOffsetFix
  try dsimp only
  repeat' (first
    | with_reducible assumption | with_reducible apply State.modPart_inv | with_reducible apply outInv_next
    | with_reducible apply inv_ite | split)

theorem execPlacementBegin_inv (part ticket : Nat) (s : State) (h_s : s.Inv) :
    outInv (execPlacementBegin part ticket s) := by
  unfold execPlacementBegin
  try dsimp only
  repeat' (first
    | with_reducible assumption | with_reducible apply State.failLaunch_inv
    | with_reducible apply State.flushCode_inv | with_reducible apply State.flushPart_inv
    | with_reducible apply State.record_inv | with_reducible apply State.setLaunchState_inv
    | with_reducible apply outInv_next | with_reducible apply inv_ite | split)

theorem State.freshScratch_inv (s : State) (lo len barriers : Nat) (h_s : s.Inv) :
    (State.freshScratch s lo len barriers).Inv := by
  unfold State.freshScratch
  try dsimp only
  repeat' (first
    | with_reducible assumption | with_reducible apply State.wipe_inv | simp only [inv_mk]
    | with_reducible apply invOf_filter)

theorem State.placeWg_inv (s : State) (part : Nat) (l : Launch) (wg : Nat) (x : PlaceAt) (phys : Nat) (binding : List (Nat × Nat)) (h_s : s.Inv) :
    (State.placeWg s part l wg x phys binding).Inv := by
  unfold State.placeWg
  try dsimp only
  repeat' (first
    | with_reducible assumption | with_reducible apply State.freshScratch_inv
    | with_reducible apply State.modCore_inv | simp only [inv_mk] | with_reducible apply invOf_of)

theorem State.startSlice_inv (s : State) (k part quantum : Nat) (h_s : s.Inv) :
    (State.startSlice s k part quantum).Inv := by
  unfold State.startSlice
  try dsimp only
  repeat' (first
    | with_reducible assumption | with_reducible apply State.modShare_inv | with_reducible apply State.wipe_inv
    | with_reducible apply inv_ite)

theorem State.adoptDefects_inv (s : State) (k : Nat) (h_s : s.Inv) :
    (State.adoptDefects s k).Inv := by
  unfold State.adoptDefects
  try dsimp only
  repeat' (first
    | with_reducible assumption | with_reducible apply State.modShare_inv)

theorem execGroupEnd_inv (g : Nat) (s : State) (h_s : s.Inv) :
    outInv (execGroupEnd g s) := by
  unfold execGroupEnd
  try dsimp only
  repeat' (first
    | with_reducible assumption | with_reducible apply State.modGroup_inv | with_reducible apply outInv_next
    | with_reducible apply inv_ite | split)

theorem State.dropWgs_inv (s : State) (ks : List Nat) (h_s : s.Inv) :
    (State.dropWgs s ks).Inv := by
  unfold State.dropWgs
  try dsimp only
  repeat' (first
    | with_reducible assumption | simp only [inv_mk] | with_reducible apply invOf_of)

theorem execWorkgroupRetire_inv (w : Nat) (s : State) (h_s : s.Inv) :
    outInv (execWorkgroupRetire w s) := by
  unfold execWorkgroupRetire
  try dsimp only
  repeat' (first
    | with_reducible assumption | with_reducible apply State.dropWgs_inv | with_reducible apply State.modLaunch_inv
    | with_reducible apply State.modWg_inv | with_reducible apply outInv_next | with_reducible apply inv_ite | split)

theorem execLaunchComplete_inv (part ticket : Nat) (s : State) (h_s : s.Inv) :
    outInv (execLaunchComplete part ticket s) := by
  unfold execLaunchComplete
  try dsimp only
  repeat' (first
    | with_reducible assumption | intro _ | with_reducible apply State.flushPart_inv
    | with_reducible apply State.modPart_inv | with_reducible apply State.notifyLaunch_inv
    | with_reducible apply State.readyLaunch_inv | with_reducible apply State.setLaunchState_inv
    | with_reducible apply outInv_next | with_reducible apply inv_foldl | with_reducible apply inv_ite | split)

theorem execLaunchFail_inv (part ticket : Nat) (s : State) (h_s : s.Inv) :
    outInv (execLaunchFail part ticket s) := by
  unfold execLaunchFail
  try dsimp only
  repeat' (first
    | with_reducible assumption | with_reducible apply State.failLaunch_inv
    | with_reducible apply State.flushPart_inv | with_reducible apply outInv_next | with_reducible apply inv_ite
    | split)

theorem State.placeProbe_inv (s : State) (w imm : DWord) (h_s : s.Inv) :
    (State.placeProbe s w imm).Inv := by
  unfold State.placeProbe
  try dsimp only
  repeat' (first
    | with_reducible assumption | simp only [inv_mk] | with_reducible apply invOf_of)

end Sys2Proof.Machine
end

