-- ==== Sys2Proof/Laws/KeepManage.lean ====
section
/-!
SUPPORT. Each operation keeps the invariant of the machine: halts, swaps, observation and the management commands.
-/
namespace Sys2Proof.Machine

/-! ### Halt -/

theorem execFaultDomainHalt_inv (s : State) (h_s : s.Inv) :
    outInv (execFaultDomainHalt s) := by
  unfold execFaultDomainHalt
  try dsimp only
  repeat' (first
    | with_reducible assumption | with_reducible apply State.modPart_inv | simp only [inv_mk]
    | with_reducible apply invOf_of | with_reducible apply outInv_next | split)

theorem State.freeDomain_inv (s : State) (h : Halt) (h_s : s.Inv) :
    (State.freeDomain s h).Inv := by
  unfold State.freeDomain
  try dsimp only
  repeat' (first
    | with_reducible assumption | intro _ | with_reducible apply State.dropWgs_inv
    | with_reducible apply State.modLaunch_inv | simp only [inv_mk] | with_reducible apply invOf_of
    | with_reducible apply inv_foldl)

theorem State.dumpRecord_inv (s : State) (h : Halt) (code action off : Nat) (h_s : s.Inv) :
    (State.dumpRecord s h code action off).Inv := by
  unfold State.dumpRecord
  try dsimp only
  repeat' (first
    | with_reducible assumption | with_reducible apply State.record_inv)

theorem State.dropDump_inv (s : State) (h : Halt) (area : Ring) (h_s : s.Inv) :
    (State.dropDump s h area).Inv := by
  unfold State.dropDump
  try dsimp only
  repeat' (first
    | with_reducible assumption | with_reducible apply State.dumpRecord_inv
    | with_reducible apply State.freeDomain_inv | with_reducible apply State.modPart_inv
    | with_reducible apply State.outerNum_inv | with_reducible apply inv_ite)

theorem State.putDump_inv (s : State) (h : Halt) (area : Ring) (h_s : s.Inv) :
    (State.putDump s h area).Inv := by
  unfold State.putDump
  try dsimp only
  repeat' (first
    | with_reducible assumption | with_reducible apply State.dumpRecord_inv
    | with_reducible apply State.freeDomain_inv | with_reducible apply State.outerBytes_inv
    | with_reducible apply State.outerNum_inv | with_reducible apply inv_ite)

theorem execDumpWrite_inv (s : State) (h_s : s.Inv) :
    outInv (execDumpWrite s) := by
  unfold execDumpWrite
  try dsimp only
  repeat' (first
    | with_reducible assumption | with_reducible apply State.dropDump_inv | with_reducible apply State.putDump_inv
    | with_reducible apply outInv_next | with_reducible apply inv_ite | split)

theorem execIrqMessageDeliver_inv (part : Nat) (s : State) (h_s : s.Inv) :
    outInv (execIrqMessageDeliver part s) := by
  unfold execIrqMessageDeliver
  try dsimp only
  repeat' (first
    | with_reducible assumption | with_reducible apply State.irqPut_inv | with_reducible apply State.modPart_inv
    | with_reducible apply State.signalRecords_inv | with_reducible apply outInv_next | with_reducible apply inv_ite
    | split)

/-! ### Loader -/

theorem execCodeObjectLoad_inv (part : Nat) (obj : CodeObject) (s : State) (h_s : s.Inv) :
    outInv (execCodeObjectLoad part obj s) := by
  unfold execCodeObjectLoad
  try dsimp only
  repeat' (first
    | with_reducible assumption | with_reducible apply State.modPart_inv | with_reducible apply State.outerWrite_inv
    | with_reducible apply State.record_inv | with_reducible apply outInv_next | split)

/-! ### Swap -/

theorem State.vacated_inv (s : State) (k part : Nat) (h_s : s.Inv) :
    (State.vacated s k part).Inv := by
  unfold State.vacated
  try dsimp only
  repeat' (first
    | with_reducible assumption | with_reducible apply State.modShare_inv | simp only [inv_mk]
    | with_reducible apply invOf_of)

theorem State.signal_inv (s : State) (k : Nat) (h_s : s.Inv) :
    (State.signal s k).Inv := by
  unfold State.signal
  try dsimp only
  repeat' (first
    | with_reducible assumption | with_reducible apply State.modShare_inv | simp only [inv_mk]
    | with_reducible apply invOf_of)

theorem execQuantumExpiry_inv (die cluster : Nat) (s : State) (h_s : s.Inv) :
    outInv (execQuantumExpiry die cluster s) := by
  unfold execQuantumExpiry
  try dsimp only
  repeat' (first
    | with_reducible assumption | with_reducible apply State.modShare_inv | with_reducible apply State.signal_inv
    | with_reducible apply outInv_next | with_reducible apply inv_ite | split)

theorem State.moveAll_inv (s : State) (k : Nat) (h_s : s.Inv) :
    (State.moveAll s k).Inv := by
  unfold State.moveAll
  try dsimp only
  repeat' (first
    | with_reducible assumption | intro _ | with_reducible apply State.modPart_inv
    | with_reducible apply State.modShare_inv | with_reducible apply inv_foldl | split)

theorem State.mapOne_inv (s : State) (part i : Nat) (h_s : s.Inv) :
    (State.mapOne s part i).Inv := by
  unfold State.mapOne
  try dsimp only
  repeat' (first
    | with_reducible assumption | with_reducible apply State.modPart_inv | with_reducible apply inv_ite | split)

theorem State.mapUnmapped_inv (s : State) (h_s : s.Inv) :
    (State.mapUnmapped s).Inv := by
  unfold State.mapUnmapped
  try dsimp only
  repeat' (first
    | with_reducible assumption | intro _ | with_reducible apply State.mapOne_inv | with_reducible apply inv_foldl)

theorem State.goOnRetiring_inv (s : State) (k : Nat) (h_s : s.Inv) :
    (State.goOnRetiring s k).Inv := by
  unfold State.goOnRetiring
  try dsimp only
  repeat' (first
    | with_reducible assumption | with_reducible apply State.modShare_inv | with_reducible apply State.moveAll_inv
    | with_reducible apply inv_ite)

theorem execPreemption_inv (die cluster : Nat) (s : State) (h_s : s.Inv) :
    outInv (execPreemption die cluster s) := by
  unfold execPreemption
  try dsimp only
  repeat' (first
    | with_reducible assumption | with_reducible apply State.goOnRetiring_inv
    | with_reducible apply State.signal_inv | with_reducible apply outInv_next | with_reducible apply inv_ite
    | split)

theorem State.saveCluster_inv (s : State) (k part : Nat) (h_s : s.Inv) :
    (State.saveCluster s k part).Inv := by
  unfold State.saveCluster
  try dsimp only
  repeat' (first
    | with_reducible assumption | intro _ | with_reducible apply State.evictWords_inv
    | with_reducible apply State.modShare_inv | simp only [inv_mk] | with_reducible apply invOf_of
    | with_reducible apply inv_foldl)

theorem execContextSave_inv (die cluster : Nat) (s : State) (h_s : s.Inv) :
    outInv (execContextSave die cluster s) := by
  unfold execContextSave
  try dsimp only
  repeat' (first
    | with_reducible assumption | with_reducible apply State.saveCluster_inv | with_reducible apply outInv_next
    | with_reducible apply inv_ite | split)

theorem State.restoreWg_inv (s : State) (w : Workgroup) (phys : Nat) (h_s : s.Inv) :
    (State.restoreWg s w phys).Inv := by
  unfold State.restoreWg
  try dsimp only
  repeat' (first
    | with_reducible assumption | with_reducible apply State.modCore_inv | with_reducible apply State.modWg_inv
    | with_reducible apply State.wipe_inv | simp only [inv_mk] | with_reducible apply invOf_sets)

theorem State.rebind_inv (s : State) (ks : List Nat) (h_s : s.Inv) :
    (State.rebind s ks).Inv := by
  unfold State.rebind
  try dsimp only
  repeat' (first
    | with_reducible assumption | simp only [inv_mk] | with_reducible apply invOf_of)

theorem State.loseContext_inv (s : State) (die k : Nat) (p : Partition) (h_s : s.Inv) :
    (State.loseContext s die k p).Inv := by
  unfold State.loseContext
  try dsimp only
  repeat' (first
    | with_reducible assumption | with_reducible apply State.record_inv | simp only [inv_mk]
    | with_reducible apply invOf_of)

theorem execContextRestore_inv (die cluster part : Nat) (scheds : List (Nat × Nat)) (lost : Bool) (s : State) (h_s : s.Inv) :
    outInv (execContextRestore die cluster part scheds lost s) := by
  unfold execContextRestore
  try dsimp only
  repeat' (first
    | with_reducible assumption | intro _ | with_reducible apply State.adoptDefects_inv
    | with_reducible apply State.loseContext_inv | with_reducible apply State.modShare_inv
    | with_reducible apply State.rebind_inv | with_reducible apply State.restoreWg_inv
    | with_reducible apply State.startSlice_inv | simp only [inv_mk] | with_reducible apply invOf_of
    | with_reducible apply outInv_next | with_reducible apply inv_foldl | with_reducible apply inv_ite | split)

theorem execWorkgroupPlace_inv (part ticket : Nat) (places : List PlaceAt) (s : State) (h_s : s.Inv) :
    outInv (execWorkgroupPlace part ticket places s) := by
  unfold execWorkgroupPlace
  try dsimp only
  repeat' (first
    | with_reducible assumption | intro _ | with_reducible apply State.adoptDefects_inv
    | with_reducible apply State.modLaunch_inv | with_reducible apply State.placeWg_inv
    | with_reducible apply State.startSlice_inv | with_reducible apply outInv_next | with_reducible apply inv_foldl
    | with_reducible apply inv_ite | split)

/-! ### Observe -/

theorem execSampleTimer_inv (die cluster core sched : Nat) (s : State) (h_s : s.Inv) :
    outInv (execSampleTimer die cluster core sched s) := by
  unfold execSampleTimer
  try dsimp only
  repeat' (first
    | with_reducible assumption | simp only [inv_mk] | with_reducible apply invOf_of
    | with_reducible apply outInv_next | with_reducible apply inv_ite | split)

theorem State.dropSample_inv (s : State) (part : Nat) (h_s : s.Inv) :
    (State.dropSample s part).Inv := by
  unfold State.dropSample
  try dsimp only
  repeat' (first
    | with_reducible assumption | with_reducible apply State.vaStore_inv | with_reducible apply inv_ite)

theorem State.settleSample_inv {s t : State} {x : PendingSample} (e : s.settleSample x = some t) (h : s.Inv) : t.Inv := by
  unfold State.settleSample at e
  dsimp only at e
  repeat' split at e
  all_goals first
    | (cases e <;> first | exact State.dropSample_inv _ _ h | exact State.ringPut_inv _ _ _ _ h)

theorem execSampleWrite_inv (g sid : Nat) (s : State) (h_s : s.Inv) :
    outInv (execSampleWrite g sid s) := by
  unfold execSampleWrite
  try dsimp only
  repeat' (first
    | with_reducible assumption | (with_reducible refine State.settleSample_inv (by with_reducible assumption) ?_)
    | simp only [inv_mk] | with_reducible apply invOf_of | with_reducible apply outInv_next | split)

theorem State.writeSnapshot_inv (s : State) (h_s : s.Inv) :
    (State.writeSnapshot s).Inv := by
  unfold State.writeSnapshot
  try dsimp only
  repeat' (first
    | with_reducible assumption | with_reducible apply State.outerBytes_inv | simp only [inv_mk]
    | with_reducible apply invOf_of | with_reducible apply inv_ite)

theorem execSnapshotLatch_inv (die : Nat) (s : State) (h_s : s.Inv) :
    outInv (execSnapshotLatch die s) := by
  unfold execSnapshotLatch
  try dsimp only
  repeat' (first
    | with_reducible assumption | with_reducible apply State.writeSnapshot_inv | simp only [inv_mk]
    | with_reducible apply invOf_of | with_reducible apply outInv_next | with_reducible apply inv_ite)

theorem State.clearDck_inv (s : State) (ls : List (Nat × Leaf)) (h_s : s.Inv) :
    (State.clearDck s ls).Inv := by
  unfold State.clearDck
  try dsimp only
  repeat' (first
    | with_reducible assumption | intro _ | with_reducible apply State.store_inv | with_reducible apply inv_foldl)

theorem State.tlbiAll_inv (s : State) (part : Nat) (range : Option (Nat × Nat)) (h_s : s.Inv) :
    (State.tlbiAll s part range).Inv := by
  unfold State.tlbiAll
  try dsimp only
  repeat' (first
    | with_reducible assumption | simp only [inv_mk] | with_reducible apply invOf_of)

theorem State.signalPart_inv (s : State) (part : Nat) (h_s : s.Inv) :
    (State.signalPart s part).Inv := by
  unfold State.signalPart
  try dsimp only
  repeat' (first
    | with_reducible assumption | simp only [inv_mk] | with_reducible apply invOf_of)

theorem State.resumePart_inv (s : State) (part : Nat) (h_s : s.Inv) :
    (State.resumePart s part).Inv := by
  unfold State.resumePart
  try dsimp only
  repeat' (first
    | with_reducible assumption | simp only [inv_mk] | with_reducible apply invOf_of)

theorem State.settlePart_inv (s : State) (part : Nat) (h_s : s.Inv) :
    (State.settlePart s part).Inv := by
  unfold State.settlePart
  try dsimp only
  repeat' (first
    | with_reducible assumption | with_reducible apply State.flushPart_inv | simp only [inv_mk]
    | with_reducible apply invOf_of)

theorem State.closeCheckpoint_inv (s : State) (p : Partition) (h_s : s.Inv) :
    (State.closeCheckpoint s p).Inv := by
  unfold State.closeCheckpoint
  try dsimp only
  repeat' (first
    | with_reducible assumption | with_reducible apply State.clearDck_inv | with_reducible apply State.modPart_inv
    | with_reducible apply State.record_inv | with_reducible apply State.resumePart_inv
    | with_reducible apply State.settlePart_inv | with_reducible apply State.tlbiAll_inv
    | with_reducible apply inv_ite)

theorem execCheckpoint_inv (part : Nat) (s : State) (h_s : s.Inv) :
    outInv (execCheckpoint part s) := by
  unfold execCheckpoint
  try dsimp only
  repeat' (first
    | with_reducible assumption | with_reducible apply State.closeCheckpoint_inv
    | with_reducible apply State.modPart_inv | with_reducible apply State.signalPart_inv
    | with_reducible apply outInv_next | with_reducible apply inv_ite | split)

theorem execCheckpointRegionCopy_inv (part va : Nat) (s : State) (h_s : s.Inv) :
    outInv (execCheckpointRegionCopy part va s) := by
  unfold execCheckpointRegionCopy
  try dsimp only
  repeat' (first
    | with_reducible assumption | with_reducible apply State.copyWhere_inv | with_reducible apply outInv_next)

/-! ### Manage -/

theorem State.finishCmd_inv (s : State) (status code : Nat) (res : List Nat) (h_s : s.Inv) :
    (State.finishCmd s status code res).Inv := by
  unfold State.finishCmd
  try dsimp only
  repeat' (first
    | with_reducible assumption | simp only [inv_mk] | with_reducible apply invOf_of)

theorem State.doneCmd_inv (s : State) (res : List Nat) (h_s : s.Inv) :
    (State.doneCmd s res).Inv := by
  unfold State.doneCmd
  try dsimp only
  repeat' (first
    | with_reducible assumption | with_reducible apply State.finishCmd_inv)

theorem State.failCmd_inv (s : State) (code : Nat) (h_s : s.Inv) :
    (State.failCmd s code).Inv := by
  unfold State.failCmd
  try dsimp only
  repeat' (first
    | with_reducible assumption | with_reducible apply State.finishCmd_inv | with_reducible apply State.record_inv)

theorem State.doneService_inv (s : State) (code : Nat) (h_s : s.Inv) :
    (State.doneService s code).Inv := by
  unfold State.doneService
  try dsimp only
  repeat' (first
    | with_reducible assumption | with_reducible apply State.doneCmd_inv | with_reducible apply State.record_inv)

theorem State.ringDoorbell_inv (s : State) (h_s : s.Inv) :
    (State.ringDoorbell s).Inv := by
  unfold State.ringDoorbell
  try dsimp only
  repeat' (first
    | with_reducible assumption | with_reducible apply State.failCmd_inv | with_reducible apply State.finishCmd_inv
    | simp only [inv_mk] | with_reducible apply invOf_of | with_reducible apply inv_ite | split)

theorem execDoorbell_inv (_value : DWord) (s : State) (h_s : s.Inv) :
    outInv (execDoorbell _value s) := by
  unfold execDoorbell
  try dsimp only
  repeat' (first
    | with_reducible assumption | with_reducible apply State.ringDoorbell_inv | with_reducible apply outInv_next)

theorem execMstatRead_inv (s : State) (h_s : s.Inv) :
    outInv (execMstatRead s) := by
  unfold execMstatRead
  try dsimp only
  repeat' (first
    | with_reducible assumption | simp only [inv_mk] | with_reducible apply invOf_of
    | with_reducible apply outInv_next)

theorem execRegisterWrite_inv (pa : Nat) (value : DWord) (s : State) (h_s : s.Inv) :
    outInv (execRegisterWrite pa value s) := by
  unfold execRegisterWrite
  try dsimp only
  repeat' (first
    | with_reducible assumption | with_reducible apply State.ringDoorbell_inv | simp only [inv_mk]
    | with_reducible apply invOf_of | with_reducible apply outInv_next | with_reducible apply outInv_fault
    | with_reducible apply inv_ite | split)

theorem State.command_inv (s : State) (x : MgmtArgs) (n : Nat) (ok : Bool) (effect : State) (h_s : s.Inv) (h_effect : effect.Inv) :
    outInv (State.command s x n ok effect) := by
  unfold State.command
  try dsimp only
  repeat' (first
    | with_reducible assumption | with_reducible apply State.failCmd_inv | with_reducible apply outInv_next
    | with_reducible apply inv_ite)

theorem State.partCommand_inv (s : State) (x : MgmtArgs) (n : Nat) (f : Partition → Option State) (h_s : s.Inv)
    (h_f : ∀ p, optInv (f p)) : outInv (State.partCommand s x n f) := by
  unfold State.partCommand
  apply outInv_next
  split
  · rename_i e
    split at e
    · cases hp : s.part? x.a0.toNat with
      | none => rw [hp] at e; cases e
      | some p => rw [hp] at e; have := h_f p; simp only [Option.bind_some] at e; rw [e] at this; exact this
    · cases e
  · exact State.failCmd_inv _ _ h_s

theorem execSummary_inv (x : MgmtArgs) (s : State) (h_s : s.Inv) :
    outInv (execSummary x s) := by
  unfold execSummary
  try dsimp only
  repeat' (first
    | with_reducible assumption | with_reducible apply State.command_inv | with_reducible apply State.doneCmd_inv
    | with_reducible apply State.outerBytes_inv)

theorem execPcreate_inv (x : MgmtArgs) (s : State) (h_s : s.Inv) :
    outInv (execPcreate x s) := by
  unfold execPcreate
  try dsimp only
  repeat' (first
    | with_reducible assumption | with_reducible apply State.doneCmd_inv | with_reducible apply State.failCmd_inv
    | simp only [inv_mk] | with_reducible apply invOf_of | with_reducible apply outInv_next
    | with_reducible apply inv_ite | split)

theorem State.settleConfig_inv (s : State) (part : Nat) (h_s : s.Inv) :
    (State.settleConfig s part).Inv := by
  unfold State.settleConfig
  try dsimp only
  repeat' (first
    | with_reducible assumption | with_reducible apply State.doneCmd_inv | with_reducible apply State.modPart_inv
    | with_reducible apply inv_ite | split)

theorem execPrecfg_inv (x : MgmtArgs) (s : State) (h_s : s.Inv) :
    outInv (execPrecfg x s) := by
  unfold execPrecfg
  try dsimp only
  repeat' (first
    | with_reducible assumption | intro _ | with_reducible apply State.mapUnmapped_inv
    | with_reducible apply State.modPart_inv | with_reducible apply State.partCommand_inv
    | with_reducible apply State.settleConfig_inv | split | with_reducible apply optInv_some
    | with_reducible exact optInv_none | with_reducible apply optInv_bind)

theorem State.releasePart_inv (s : State) (part : Nat) (h_s : s.Inv) :
    (State.releasePart s part).Inv := by
  unfold State.releasePart
  try dsimp only
  repeat' (first
    | with_reducible assumption | intro _ | with_reducible apply State.releaseWhere_inv
    | with_reducible apply inv_foldl)

theorem execTlbi_inv (x : MgmtArgs) (s : State) (h_s : s.Inv) :
    outInv (execTlbi x s) := by
  unfold execTlbi
  try dsimp only
  repeat' (first
    | with_reducible assumption | intro _ | with_reducible apply State.doneCmd_inv
    | with_reducible apply State.partCommand_inv | with_reducible apply State.releasePart_inv
    | with_reducible apply State.tlbiAll_inv | split | with_reducible apply optInv_some
    | with_reducible exact optInv_none)

theorem execCohcfg_inv (x : MgmtArgs) (s : State) (h_s : s.Inv) :
    outInv (execCohcfg x s) := by
  unfold execCohcfg
  try dsimp only
  repeat' (first
    | with_reducible assumption | (intro d hd; exact hd) | with_reducible apply State.command_inv
    | with_reducible apply State.doneCmd_inv | with_reducible apply State.modDie_inv)

theorem execCntclr_inv (x : MgmtArgs) (s : State) (h_s : s.Inv) :
    outInv (execCntclr x s) := by
  unfold execCntclr
  try dsimp only
  repeat' (first
    | with_reducible assumption | (intro d hd; exact hd) | intro _ | with_reducible apply State.command_inv
    | with_reducible apply State.doneCmd_inv | with_reducible apply State.modDie_inv
    | with_reducible apply State.modPart_inv | with_reducible apply State.partCommand_inv | simp only [inv_mk]
    | with_reducible apply invOf_of | with_reducible apply inv_foldl | with_reducible apply inv_ite | split
    | with_reducible apply optInv_some | with_reducible exact optInv_none)

theorem execIrqcfg_inv (x : MgmtArgs) (s : State) (h_s : s.Inv) :
    outInv (execIrqcfg x s) := by
  unfold execIrqcfg
  try dsimp only
  repeat' (first
    | with_reducible assumption | intro _ | with_reducible apply State.doneCmd_inv
    | with_reducible apply State.modPart_inv | with_reducible apply State.outerBytes_inv
    | with_reducible apply State.partCommand_inv | split | with_reducible apply optInv_some
    | with_reducible exact optInv_none)

theorem execErrcfg_inv (x : MgmtArgs) (s : State) (h_s : s.Inv) :
    outInv (execErrcfg x s) := by
  unfold execErrcfg
  try dsimp only
  repeat' (first
    | with_reducible assumption | intro _ | with_reducible apply State.doneCmd_inv
    | with_reducible apply State.modPart_inv | with_reducible apply State.partCommand_inv
    | with_reducible apply State.ringClear_inv | split | with_reducible apply optInv_some
    | with_reducible exact optInv_none)

theorem execErrread_inv (x : MgmtArgs) (s : State) (h_s : s.Inv) :
    outInv (execErrread x s) := by
  unfold execErrread
  try dsimp only
  repeat' (first
    | with_reducible assumption | with_reducible apply State.command_inv | with_reducible apply State.doneCmd_inv
    | with_reducible apply State.outerBytes_inv)

theorem execAccfg_inv (x : MgmtArgs) (s : State) (h_s : s.Inv) :
    outInv (execAccfg x s) := by
  unfold execAccfg
  try dsimp only
  repeat' (first
    | with_reducible assumption | (intro d hd; exact hd) | intro _ | with_reducible apply State.doneCmd_inv
    | with_reducible apply State.modPart_inv | with_reducible apply State.partCommand_inv
    | with_reducible apply State.ringClear_inv | simp only [inv_mk] | with_reducible apply invOf_dies | split
    | with_reducible apply optInv_some | with_reducible exact optInv_none)

theorem execDumpcfg_inv (x : MgmtArgs) (s : State) (h_s : s.Inv) :
    outInv (execDumpcfg x s) := by
  unfold execDumpcfg
  try dsimp only
  repeat' (first
    | with_reducible assumption | intro _ | with_reducible apply State.doneCmd_inv
    | with_reducible apply State.modPart_inv | with_reducible apply State.outerBytes_inv
    | with_reducible apply State.partCommand_inv | split | with_reducible apply optInv_some
    | with_reducible exact optInv_none)

theorem execObscfg_inv (x : MgmtArgs) (s : State) (h_s : s.Inv) :
    outInv (execObscfg x s) := by
  unfold execObscfg
  try dsimp only
  repeat' (first
    | with_reducible assumption | intro _ | with_reducible apply State.doneCmd_inv
    | with_reducible apply State.modPart_inv | with_reducible apply State.partCommand_inv | split
    | with_reducible apply optInv_some | with_reducible exact optInv_none | with_reducible apply optInv_bind)

theorem execStop_inv (x : MgmtArgs) (s : State) (h_s : s.Inv) :
    outInv (execStop x s) := by
  unfold execStop
  try dsimp only
  repeat' (first
    | with_reducible assumption | intro _ | with_reducible apply State.beginStop_inv
    | with_reducible apply State.doneCmd_inv | with_reducible apply State.partCommand_inv | split
    | with_reducible apply optInv_some | with_reducible exact optInv_none)

theorem State.restart_inv (s : State) (gids : List Nat) (f : Workgroup → Split → Split) (h_s : s.Inv) :
    (State.restart s gids f).Inv := by
  unfold State.restart
  try dsimp only
  repeat' (first
    | with_reducible assumption | simp only [inv_mk] | with_reducible apply invOf_of)

theorem execResume_inv (x : MgmtArgs) (s : State) (h_s : s.Inv) :
    outInv (execResume x s) := by
  unfold execResume
  try dsimp only
  repeat' (first
    | with_reducible assumption | intro _ | with_reducible apply State.doneCmd_inv
    | with_reducible apply State.partCommand_inv | with_reducible apply State.restart_inv | split
    | with_reducible apply optInv_some | with_reducible exact optInv_none)

theorem execStep_inv (x : MgmtArgs) (s : State) (h_s : s.Inv) :
    outInv (execStep x s) := by
  unfold execStep
  try dsimp only
  repeat' (first
    | with_reducible assumption | intro _ | with_reducible apply State.doneCmd_inv
    | with_reducible apply State.partCommand_inv | with_reducible apply State.restart_inv | split
    | with_reducible apply optInv_some | with_reducible exact optInv_none)

theorem execHistrd_inv (x : MgmtArgs) (s : State) (h_s : s.Inv) :
    outInv (execHistrd x s) := by
  unfold execHistrd
  try dsimp only
  repeat' (first
    | with_reducible assumption | with_reducible apply State.command_inv | with_reducible apply State.doneCmd_inv
    | with_reducible apply State.modCore_inv | with_reducible apply State.outerBytes_inv
    | with_reducible apply inv_ite)

theorem execSnap_inv (x : MgmtArgs) (s : State) (h_s : s.Inv) :
    outInv (execSnap x s) := by
  unfold execSnap
  try dsimp only
  repeat' (first
    | with_reducible assumption | with_reducible apply State.command_inv | with_reducible apply State.doneCmd_inv
    | with_reducible apply State.snapTrigger_inv | simp only [inv_mk] | with_reducible apply invOf_of
    | with_reducible apply inv_ite)

theorem execCkfree_inv (x : MgmtArgs) (s : State) (h_s : s.Inv) :
    outInv (execCkfree x s) := by
  unfold execCkfree
  try dsimp only
  repeat' (first
    | with_reducible assumption | intro _ | with_reducible apply State.copyWhere_inv
    | with_reducible apply State.doneCmd_inv | with_reducible apply State.modPart_inv
    | with_reducible apply State.partCommand_inv | split | with_reducible apply optInv_some
    | with_reducible exact optInv_none)

theorem State.dropPart_inv (s : State) (part : Nat) (h_s : s.Inv) :
    (State.dropPart s part).Inv := by
  unfold State.dropPart
  try dsimp only
  repeat' (first
    | with_reducible assumption | (intro d hd; exact (by simpa using hd)) | with_reducible apply State.dropWgs_inv
    | simp only [inv_mk] | with_reducible apply invOf_dies)

theorem State.rebuild_inv (s : State) (ks : List Checkpoint) (h_s : s.Inv) :
    (State.rebuild s ks).Inv := by
  unfold State.rebuild
  try dsimp only
  repeat' (first
    | with_reducible assumption | intro _ | with_reducible apply State.wipe_inv | simp only [inv_mk]
    | with_reducible apply invOf_sets | with_reducible apply inv_foldl)

theorem execReplay_inv (x : MgmtArgs) (s : State) (h_s : s.Inv) :
    outInv (execReplay x s) := by
  unfold execReplay
  try dsimp only
  repeat' (first
    | with_reducible assumption | intro _ | with_reducible apply State.doneCmd_inv
    | with_reducible apply State.dropPart_inv | with_reducible apply State.modPart_inv
    | with_reducible apply State.partCommand_inv | with_reducible apply State.rebuild_inv
    | with_reducible apply State.replayDone_inv | with_reducible apply State.tlbiAll_inv | with_reducible apply State.copyWhere_inv
    | simp only [inv_mk]
    | with_reducible apply invOf_of | split | with_reducible apply optInv_some | with_reducible exact optInv_none)

end Sys2Proof.Machine
end

