-- ==== Sys2Proof/Laws/KeepService.lean ====
section
/-!
SUPPORT. Each operation keeps the invariant of the machine: scalar instructions, service, resets and the passing of time.
-/
namespace Sys2Proof.Machine

/-! ### Scalar -/

theorem scalarExec_inv (o : Op) (f : IntFn) (countB narrow : Bool) (x : Args) (s : State) (h_s : s.Inv) :
    outInv (scalarExec o f countB narrow x s) := by
  unfold scalarExec
  try dsimp only
  repeat' (first
    | with_reducible assumption | intro _ | with_reducible apply State.writeS_inv
    | with_reducible apply issueDone_inv)

theorem execSadd_inv (x : Args) (s : State) (h_s : s.Inv) :
    outInv (execSadd x s) := by
  unfold execSadd
  try dsimp only
  repeat' (first
    | with_reducible assumption | with_reducible apply scalarExec_inv)

theorem execSsub_inv (x : Args) (s : State) (h_s : s.Inv) :
    outInv (execSsub x s) := by
  unfold execSsub
  try dsimp only
  repeat' (first
    | with_reducible assumption | with_reducible apply scalarExec_inv)

theorem execSmul_inv (x : Args) (s : State) (h_s : s.Inv) :
    outInv (execSmul x s) := by
  unfold execSmul
  try dsimp only
  repeat' (first
    | with_reducible assumption | with_reducible apply scalarExec_inv)

theorem execSmulh_inv (x : Args) (s : State) (h_s : s.Inv) :
    outInv (execSmulh x s) := by
  unfold execSmulh
  try dsimp only
  repeat' (first
    | with_reducible assumption | with_reducible apply scalarExec_inv)

theorem execSand_inv (x : Args) (s : State) (h_s : s.Inv) :
    outInv (execSand x s) := by
  unfold execSand
  try dsimp only
  repeat' (first
    | with_reducible assumption | with_reducible apply scalarExec_inv)

theorem execSor_inv (x : Args) (s : State) (h_s : s.Inv) :
    outInv (execSor x s) := by
  unfold execSor
  try dsimp only
  repeat' (first
    | with_reducible assumption | with_reducible apply scalarExec_inv)

theorem execSxor_inv (x : Args) (s : State) (h_s : s.Inv) :
    outInv (execSxor x s) := by
  unfold execSxor
  try dsimp only
  repeat' (first
    | with_reducible assumption | with_reducible apply scalarExec_inv)

theorem execSshl_inv (x : Args) (s : State) (h_s : s.Inv) :
    outInv (execSshl x s) := by
  unfold execSshl
  try dsimp only
  repeat' (first
    | with_reducible assumption | with_reducible apply scalarExec_inv)

theorem execSshr_inv (x : Args) (s : State) (h_s : s.Inv) :
    outInv (execSshr x s) := by
  unfold execSshr
  try dsimp only
  repeat' (first
    | with_reducible assumption | with_reducible apply scalarExec_inv)

theorem execSsra_inv (x : Args) (s : State) (h_s : s.Inv) :
    outInv (execSsra x s) := by
  unfold execSsra
  try dsimp only
  repeat' (first
    | with_reducible assumption | with_reducible apply scalarExec_inv)

theorem execSmin_inv (x : Args) (s : State) (h_s : s.Inv) :
    outInv (execSmin x s) := by
  unfold execSmin
  try dsimp only
  repeat' (first
    | with_reducible assumption | with_reducible apply scalarExec_inv)

theorem execSmax_inv (x : Args) (s : State) (h_s : s.Inv) :
    outInv (execSmax x s) := by
  unfold execSmax
  try dsimp only
  repeat' (first
    | with_reducible assumption | with_reducible apply scalarExec_inv)

theorem execScmp_inv (x : Args) (s : State) (h_s : s.Inv) :
    outInv (execScmp x s) := by
  unfold execScmp
  try dsimp only
  repeat' (first
    | with_reducible assumption | with_reducible apply scalarExec_inv)

theorem execSsel_inv (x : Args) (s : State) (h_s : s.Inv) :
    outInv (execSsel x s) := by
  unfold execSsel
  try dsimp only
  repeat' (first
    | with_reducible assumption | with_reducible apply scalarExec_inv)

theorem execSmov_inv (x : Args) (s : State) (h_s : s.Inv) :
    outInv (execSmov x s) := by
  unfold execSmov
  try dsimp only
  repeat' (first
    | with_reducible assumption | with_reducible apply scalarExec_inv)

theorem execSmovi_inv (x : Args) (s : State) (h_s : s.Inv) :
    outInv (execSmovi x s) := by
  unfold execSmovi
  try dsimp only
  repeat' (first
    | with_reducible assumption | intro _ | with_reducible apply State.writeS_inv
    | with_reducible apply issueDone_inv)

theorem execSbfe_inv (x : Args) (s : State) (h_s : s.Inv) :
    outInv (execSbfe x s) := by
  unfold execSbfe
  try dsimp only
  repeat' (first
    | with_reducible assumption | with_reducible apply scalarExec_inv)

theorem execSbfi_inv (x : Args) (s : State) (h_s : s.Inv) :
    outInv (execSbfi x s) := by
  unfold execSbfi
  try dsimp only
  repeat' (first
    | with_reducible assumption | with_reducible apply scalarExec_inv)

theorem execSpopc_inv (x : Args) (s : State) (h_s : s.Inv) :
    outInv (execSpopc x s) := by
  unfold execSpopc
  try dsimp only
  repeat' (first
    | with_reducible assumption | with_reducible apply scalarExec_inv)

theorem execSclz_inv (x : Args) (s : State) (h_s : s.Inv) :
    outInv (execSclz x s) := by
  unfold execSclz
  try dsimp only
  repeat' (first
    | with_reducible assumption | with_reducible apply scalarExec_inv)

/-! ### Service -/

theorem Die.cleared_ok {d : Die} (h : d.clusters.length = 7 ∧ d.cycle < 2 ^ 64) :
    d.cleared.clusters.length = 7 ∧ d.cleared.cycle < 2 ^ 64 := ⟨(List.length_map ..).trans h.1, h.2⟩

theorem invOf_cleared {s : State} (b : Bool) (p : Host.Cell → Bool) (h : s.Inv) :
    invOf (if b = true then s.mem.filter p else []) (s.dies.map Die.cleared) := by
  refine ⟨?_, diesOk_map h.dies _ fun d hd => Die.cleared_ok hd⟩
  split
  · exact assocWf_filter h.mem
  · decide

theorem invOf_cold (f : Nat → BitVec 7) (g : Nat → Nat) :
    invOf State.reset.mem ((List.range 4).map fun d => coldDie (f d) (g d)) := by
  refine ⟨by decide, by simp, fun d hd => ?_⟩
  obtain ⟨i, _, rfl⟩ := List.mem_map.1 hd
  exact ⟨by simp [coldDie], by simp [coldDie, Die.reset]⟩

theorem State.noteReset_inv (s : State) (die part cause scope code : Nat) (h_s : s.Inv) :
    (State.noteReset s die part cause scope code).Inv := by
  unfold State.noteReset
  try dsimp only
  repeat' (first
    | with_reducible assumption | (intro d hd; exact hd) | with_reducible apply State.modDie_inv
    | with_reducible apply State.record_inv)

theorem State.failService_inv (s : State) (h_s : s.Inv) :
    (State.failService s).Inv := by
  unfold State.failService
  try dsimp only
  repeat' (first
    | with_reducible assumption | with_reducible apply State.failCmd_inv | with_reducible apply inv_ite)

theorem State.elect_inv (s : State) (die master : Nat) (h_s : s.Inv) :
    (State.elect s die master).Inv := by
  unfold State.elect
  try dsimp only
  repeat' (first
    | with_reducible assumption | simp only [inv_mk] | with_reducible apply invOf_of | with_reducible apply inv_ite)

theorem State.resetPart_inv (s : State) (p : Partition) (h_s : s.Inv) :
    (State.resetPart s p).Inv := by
  unfold State.resetPart
  try dsimp only
  repeat' (first
    | with_reducible assumption | intro _ | with_reducible apply State.dropPart_inv
    | with_reducible apply State.failLaunch_inv | with_reducible apply State.flushPart_inv
    | with_reducible apply State.modPart_inv | simp only [inv_mk] | with_reducible apply invOf_of
    | with_reducible apply inv_foldl)

theorem State.notePartReset_inv (s : State) (p : Partition) (h_s : s.Inv) :
    (State.notePartReset s p).Inv := by
  unfold State.notePartReset
  try dsimp only
  repeat' (first
    | with_reducible assumption | intro _ | with_reducible apply State.noteReset_inv
    | with_reducible apply inv_foldl)

theorem execPreset_inv (x : MgmtArgs) (s : State) (h_s : s.Inv) :
    outInv (execPreset x s) := by
  unfold execPreset
  try dsimp only
  repeat' (first
    | with_reducible assumption | intro _ | with_reducible apply State.doneCmd_inv
    | with_reducible apply State.notePartReset_inv | with_reducible apply State.partCommand_inv
    | with_reducible apply State.resetPart_inv | with_reducible apply optInv_some)

theorem execPdestroy_inv (x : MgmtArgs) (s : State) (h_s : s.Inv) :
    outInv (execPdestroy x s) := by
  unfold execPdestroy
  try dsimp only
  repeat' (first
    | with_reducible assumption | (intro d hd; exact (by simpa using hd)) | intro _
    | with_reducible apply State.doneCmd_inv | with_reducible apply State.mapUnmapped_inv
    | with_reducible apply State.notePartReset_inv | with_reducible apply State.partCommand_inv
    | with_reducible apply State.resetPart_inv | with_reducible apply State.tlbiAll_inv
    | with_reducible apply State.wipe_inv | simp only [inv_mk] | with_reducible apply invOf_dies
    | with_reducible apply optInv_some)

theorem State.startRetiring_inv (s : State) (k : Nat) (h_s : s.Inv) :
    (State.startRetiring s k).Inv := by
  unfold State.startRetiring
  try dsimp only
  repeat' (first
    | with_reducible assumption | with_reducible apply State.modShare_inv | with_reducible apply inv_ite)

theorem execRetire_inv (x : MgmtArgs) (s : State) (h_s : s.Inv) :
    outInv (execRetire x s) := by
  unfold execRetire
  try dsimp only
  repeat' (first
    | with_reducible assumption | with_reducible apply State.command_inv
    | with_reducible apply State.doneService_inv | with_reducible apply State.goOnRetiring_inv
    | with_reducible apply State.modShare_inv | with_reducible apply State.startRetiring_inv
    | with_reducible apply inv_ite)

theorem execReturnUnit_inv (x : MgmtArgs) (s : State) (h_s : s.Inv) :
    outInv (execReturnUnit x s) := by
  unfold execReturnUnit
  try dsimp only
  repeat' (first
    | with_reducible assumption | with_reducible apply State.command_inv
    | with_reducible apply State.doneService_inv | with_reducible apply State.mapUnmapped_inv
    | with_reducible apply State.modShare_inv | with_reducible apply inv_ite)

theorem execMemchk_inv (x : MgmtArgs) (s : State) (h_s : s.Inv) :
    outInv (execMemchk x s) := by
  unfold execMemchk
  try dsimp only
  repeat' (first
    | with_reducible assumption | with_reducible apply State.command_inv
    | with_reducible apply State.doneService_inv | with_reducible apply State.failCmd_inv
    | with_reducible apply State.modShare_inv | with_reducible apply inv_ite)

theorem State.poisonGranules_inv (s : State) (gs : List Nat) (h_s : s.Inv) :
    (State.poisonGranules s gs).Inv := by
  unfold State.poisonGranules
  try dsimp only
  repeat' (first
    | with_reducible assumption | simp only [inv_mk] | with_reducible apply invOf_of)

theorem State.loseChannel_inv (s : State) (die channel : Nat) (h_s : s.Inv) :
    (State.loseChannel s die channel).Inv := by
  unfold State.loseChannel
  try dsimp only
  repeat' (first
    | with_reducible assumption | (intro d hd; exact hd) | with_reducible apply State.modDie_inv
    | with_reducible apply State.poisonGranules_inv | with_reducible apply State.record_inv)

theorem execDrcal_inv (x : MgmtArgs) (s : State) (h_s : s.Inv) :
    outInv (execDrcal x s) := by
  unfold execDrcal
  try dsimp only
  repeat' (first
    | with_reducible assumption | with_reducible apply State.command_inv
    | with_reducible apply State.doneService_inv | with_reducible apply State.loseChannel_inv
    | with_reducible apply inv_ite)

theorem State.trainPort_inv (s : State) (port : Nat) (h_s : s.Inv) :
    (State.trainPort s port).Inv := by
  unfold State.trainPort
  try dsimp only
  repeat' (first
    | with_reducible assumption | intro _ | with_reducible apply State.countRetrain_inv
    | with_reducible apply State.doneService_inv | with_reducible apply State.downPath_inv
    | with_reducible apply State.setPath_inv | with_reducible apply inv_foldl | with_reducible apply inv_ite)

theorem State.laneRecord_inv (s : State) (lane : Nat) (h_s : s.Inv) :
    (State.laneRecord s lane).Inv := by
  unfold State.laneRecord
  try dsimp only
  repeat' (first
    | with_reducible assumption | with_reducible apply State.record_inv)

theorem State.trainLanes_inv (s : State) (mask : Nat) (h_s : s.Inv) :
    (State.trainLanes s mask).Inv := by
  unfold State.trainLanes
  try dsimp only
  repeat' (first
    | with_reducible assumption | intro _ | with_reducible apply State.countRetrain_inv
    | with_reducible apply State.doneService_inv | with_reducible apply State.laneRecord_inv | simp only [inv_mk]
    | with_reducible apply invOf_of | with_reducible apply inv_foldl | with_reducible apply inv_ite)

theorem execLtrain_inv (x : MgmtArgs) (s : State) (h_s : s.Inv) :
    outInv (execLtrain x s) := by
  unfold execLtrain
  try dsimp only
  repeat' (first
    | with_reducible assumption | with_reducible apply State.command_inv | with_reducible apply State.trainLanes_inv
    | with_reducible apply State.trainPort_inv | with_reducible apply inv_ite)

theorem execFwload_inv (x : MgmtArgs) (s : State) (h_s : s.Inv) :
    outInv (execFwload x s) := by
  unfold execFwload
  try dsimp only
  repeat' (first
    | with_reducible assumption | intro _ | with_reducible apply State.command_inv
    | with_reducible apply State.doneService_inv | simp only [inv_mk] | with_reducible apply invOf_dies | split)

theorem execFwswitch_inv (x : MgmtArgs) (s : State) (h_s : s.Inv) :
    outInv (execFwswitch x s) := by
  unfold execFwswitch
  try dsimp only
  repeat' (first
    | with_reducible assumption | (intro d hd; exact hd) | with_reducible apply State.doneService_inv
    | with_reducible apply State.failCmd_inv | simp only [inv_mk] | with_reducible apply invOf_dies
    | with_reducible apply outInv_next | with_reducible apply inv_ite)

theorem State.wipeDie_inv (s : State) (die : Nat) (h_s : s.Inv) :
    (State.wipeDie s die).Inv := by
  unfold State.wipeDie
  try dsimp only
  repeat' (first
    | with_reducible assumption | with_reducible exact Die.cleared_ok (by assumption) | (intro d hd; exact hd)
    | intro _ | with_reducible apply State.dropWgs_inv | with_reducible apply State.modDie_inv
    | with_reducible apply State.wipe_inv | simp only [inv_mk] | with_reducible apply invOf_of
    | with_reducible apply inv_foldl)

theorem State.resetDie_inv (s : State) (die cause code : Nat) (h_s : s.Inv) :
    (State.resetDie s die cause code).Inv := by
  unfold State.resetDie
  try dsimp only
  repeat' (first
    | with_reducible assumption | intro _ | with_reducible apply State.failService_inv
    | with_reducible apply State.noteReset_inv | with_reducible apply State.wipeDie_inv | simp only [inv_mk]
    | with_reducible apply invOf_of | with_reducible apply inv_foldl)

theorem State.resetPackage_inv (s : State) (cause code : Nat) (keep : Bool) (h_s : s.Inv) :
    (State.resetPackage s cause code keep).Inv := by
  unfold State.resetPackage
  try dsimp only
  repeat' (first
    | with_reducible assumption | with_reducible exact invOf_cleared _ _ h_s | intro _
    | with_reducible apply State.noteReset_inv | with_reducible apply State.record_inv | simp only [inv_mk]
    | with_reducible apply inv_foldl | with_reducible apply inv_ite)

theorem State.resetCluster_inv (s : State) (k : Nat) (h_s : s.Inv) :
    (State.resetCluster s k).Inv := by
  unfold State.resetCluster
  try dsimp only
  repeat' (first
    | with_reducible assumption | intro _ | with_reducible apply State.fatal_inv
    | with_reducible apply State.noteReset_inv | with_reducible apply State.startRetiring_inv
    | with_reducible apply State.wipe_inv | simp only [inv_mk] | with_reducible apply invOf_of
    | with_reducible apply inv_foldl)

theorem execReset_inv (x : MgmtArgs) (s : State) (h_s : s.Inv) :
    outInv (execReset x s) := by
  unfold execReset
  try dsimp only
  repeat' (first
    | with_reducible assumption | with_reducible apply State.failCmd_inv
    | with_reducible apply State.resetCluster_inv | with_reducible apply State.resetDie_inv
    | with_reducible apply State.resetPackage_inv | simp only [inv_mk] | with_reducible apply invOf_of
    | with_reducible apply outInv_next | with_reducible apply inv_ite | split)

theorem execColdReset_inv (pass : List (BitVec 7)) (spares : List Nat) (master : Nat) (s : State) (h_s : s.Inv) :
    outInv (execColdReset pass spares master s) := by
  unfold execColdReset
  try dsimp only
  repeat' (first
    | with_reducible assumption | with_reducible exact invOf_cold _ _ | intro _
    | with_reducible apply State.record_inv | simp only [inv_mk] | with_reducible apply outInv_next
    | with_reducible apply inv_foldl | with_reducible apply inv_ite)

theorem State.resetCirque_inv (s : State) (die master cause code : Nat) (h_s : s.Inv) :
    (State.resetCirque s die master cause code).Inv := by
  unfold State.resetCirque
  try dsimp only
  repeat' (first
    | with_reducible assumption | with_reducible apply State.elect_inv | with_reducible apply State.failCmd_inv
    | with_reducible apply State.noteReset_inv | with_reducible apply State.record_inv
    | with_reducible apply inv_ite)

theorem execCirqueWatchdogReset_inv (die master : Nat) (s : State) (h_s : s.Inv) :
    outInv (execCirqueWatchdogReset die master s) := by
  unfold execCirqueWatchdogReset
  try dsimp only
  repeat' (first
    | with_reducible assumption | with_reducible apply State.resetCirque_inv | with_reducible apply outInv_next
    | with_reducible apply inv_ite)

theorem execFirmwareFault_inv (die master : Nat) (s : State) (h_s : s.Inv) :
    outInv (execFirmwareFault die master s) := by
  unfold execFirmwareFault
  try dsimp only
  repeat' (first
    | with_reducible assumption | (intro d hd; exact hd) | with_reducible apply State.modDie_inv
    | with_reducible apply State.resetCirque_inv | with_reducible apply outInv_next | with_reducible apply inv_ite)

theorem execThermalTrip_inv (die : Nat) (s : State) (h_s : s.Inv) :
    outInv (execThermalTrip die s) := by
  unfold execThermalTrip
  try dsimp only
  repeat' (first
    | with_reducible assumption | with_reducible apply State.record_inv | with_reducible apply State.resetDie_inv
    | with_reducible apply outInv_next | with_reducible apply inv_ite)

theorem execLinkLossReset_inv (s : State) (h_s : s.Inv) :
    outInv (execLinkLossReset s) := by
  unfold execLinkLossReset
  try dsimp only
  repeat' (first
    | with_reducible assumption | with_reducible apply State.noteReset_inv | simp only [inv_mk]
    | with_reducible apply invOf_of | with_reducible apply outInv_next | with_reducible apply inv_ite)

theorem execPackageInterconnectFailure_inv (s : State) (h_s : s.Inv) :
    outInv (execPackageInterconnectFailure s) := by
  unfold execPackageInterconnectFailure
  try dsimp only
  repeat' (first
    | with_reducible assumption | with_reducible apply State.resetPackage_inv | with_reducible apply outInv_next)

theorem execDieThrottle_inv (die : Nat) (s : State) (h_s : s.Inv) :
    outInv (execDieThrottle die s) := by
  unfold execDieThrottle
  try dsimp only
  repeat' (first
    | with_reducible assumption | (intro d hd; exact hd) | with_reducible apply State.modDie_inv
    | with_reducible apply State.record_inv | with_reducible apply outInv_next | with_reducible apply inv_ite)

theorem execPowerCapReached_inv (s : State) (h_s : s.Inv) :
    outInv (execPowerCapReached s) := by
  unfold execPowerCapReached
  try dsimp only
  repeat' (first
    | with_reducible assumption | with_reducible apply State.record_inv | simp only [inv_mk]
    | with_reducible apply invOf_of | with_reducible apply outInv_next)

theorem State.poisonKey_inv (s : State) (key : Nat) (h_s : s.Inv) :
    (State.poisonKey s key).Inv := by
  unfold State.poisonKey
  try dsimp only
  repeat' (first
    | with_reducible assumption | with_reducible apply State.poisonGranules_inv)

theorem execUncorrectableError_inv (key : Nat) (reader : Option Nat) (s : State) (h_s : s.Inv) :
    outInv (execUncorrectableError key reader s) := by
  unfold execUncorrectableError
  try dsimp only
  repeat' (first
    | with_reducible assumption | with_reducible apply State.fatal_inv | with_reducible apply State.poisonKey_inv
    | with_reducible apply outInv_next | split)

theorem State.correctErrors_inv (s : State) (die : Nat) (h_s : s.Inv) :
    (State.correctErrors s die).Inv := by
  unfold State.correctErrors
  try dsimp only
  repeat' (first
    | with_reducible assumption | (intro d hd; exact hd) | with_reducible apply State.modDie_inv
    | with_reducible apply State.record_inv | simp only [inv_mk] | with_reducible apply invOf_of
    | with_reducible apply inv_ite)

theorem execPatrolScrub_inv (die : Nat) (bad : List Nat) (s : State) (h_s : s.Inv) :
    outInv (execPatrolScrub die bad s) := by
  unfold execPatrolScrub
  try dsimp only
  repeat' (first
    | with_reducible assumption | intro _ | with_reducible apply State.correctErrors_inv
    | with_reducible apply State.poisonKey_inv | with_reducible apply State.record_inv
    | with_reducible apply outInv_next | with_reducible apply inv_foldl | with_reducible apply inv_ite)

theorem execRecallBoundExceeded_inv (die base : Nat) (s : State) (h_s : s.Inv) :
    outInv (execRecallBoundExceeded die base s) := by
  unfold execRecallBoundExceeded
  try dsimp only
  repeat' (first
    | with_reducible assumption | intro _ | with_reducible apply State.fatalPartition_inv
    | with_reducible apply outInv_next | with_reducible apply inv_foldl | split)

theorem execDirectoryArrayUncorrectable_inv (die : Nat) (s : State) (h_s : s.Inv) :
    outInv (execDirectoryArrayUncorrectable die s) := by
  unfold execDirectoryArrayUncorrectable
  try dsimp only
  repeat' (first
    | with_reducible assumption | with_reducible apply State.record_inv | with_reducible apply State.resetDie_inv
    | with_reducible apply outInv_next | with_reducible apply inv_ite)

/-! ### Schedule -/

theorem State.spendYields_inv (s : State) (c : Ctx) (h_s : s.Inv) :
    (State.spendYields s c).Inv := by
  unfold State.spendYields
  try dsimp only
  repeat' (first
    | with_reducible assumption | simp only [inv_mk] | with_reducible apply invOf_of)

theorem State.tick_inv (s : State) (h_s : s.Inv) :
    (State.tick s).Inv := by
  unfold State.tick
  try dsimp only
  repeat' (first
    | with_reducible assumption | with_reducible exact ⟨(‹_ ∧ _› : _ ∧ _).1, Nat.mod_lt _ (by decide)⟩ | intro _
    | simp only [inv_mk] | with_reducible apply invOf_dies)

end Sys2Proof.Machine
end

