-- ==== Sys2Proof/Laws/Scheduling.lean ====
section
/-!
SUPPORT. Lemmas: waits, spills and groups as they change (chapter 07).
-/
namespace Sys2Proof.Laws
open Sys2Proof.Machine

theorem group?_set {s : State} {k : Nat} {G : Group} (f : Group → Group) (hf : ∀ g, (f g).gid = g.gid) (hg : s.group? k = some G) :
    (s.modGroup k f).group? k = some (f G) := by
  rw [State.group?_modGroup s k k f hf, if_pos rfl, hg]; rfl

theorem split?_set {g : Group} {k : Nat} {y : Split} (f : Split → Split) (hf : ∀ x, (f x).id = x.id) (hg : g.split? k = some y) :
    (g.modSplit k f).split? k = some (f y) := by
  rw [Group.split?_modSplit g k k f hf, if_pos rfl, hg]; rfl

theorem passWait_group {u : State} {c : Ctx} {i : Instr} {n : Nat} {G : Group} {sp0 : Split} (hd : decodeAt c.sp.clause c.sp.word = .ok (i, n))
    (hu : u.group? c.g.gid = some G) (hsp : G.split? c.sp.id = some sp0) (h0 : sp0.hold ≠ .faulted) :
    ∃ g sp, (u.passWait c).group? c.g.gid = some g ∧ g.split? c.sp.id = some sp ∧ sp.hold = .none ∧ sp.state = sp0.state ∧
      (sp.pc, sp.word) = (if n < sp0.clause.length then (sp0.pc, n) else (sp0.nextPc, 0)) ∧ G.sameRegs g ∧ g.flags = G.flags ∧ sp.waitOn = none ∧
      (∀ k, k ≠ c.sp.id → g.split? k = G.split? k) ∧ (u.passWait c).mem = u.mem := by
  have hid : ∀ y : Split, (y.advance n).id = y.id := fun y => by unfold Split.advance; split <;> rfl
  simp only [State.passWait, hd]
  have e4 : u.modSplit c.g.gid c.sp.id (fun sp => sp.advance n) = u.modGroup c.g.gid (fun g => g.modSplit c.sp.id (fun sp => sp.advance n)) := rfl
  rw [e4, noteIssue_modGroup u c (fun g => g.modSplit c.sp.id (fun sp => sp.advance n)) (fun _ => rfl)]
  refine ⟨Ctx.noted u c (G.modSplit c.sp.id (fun sp => sp.advance n)), Ctx.marked u c (sp0.advance n), ?_, ?_, ?_, ?_, ?_, ?_, rfl, rfl, ?_, rfl⟩
  · exact group?_set _ (fun _ => rfl) hu
  · rw [Ctx.split?_noted, if_pos rfl, Group.split?_modSplit _ _ _ _ hid, if_pos rfl, hsp]; rfl
  · have : (sp0.advance n).hold = sp0.hold := by unfold Split.advance; split <;> rfl
    simp [Ctx.marked, this, h0]
  · simp only [Ctx.marked, Split.advance]; split <;> rfl
  · simp only [Ctx.marked, Split.advance]; split <;> rfl
  · exact ⟨rfl, rfl, rfl, rfl⟩
  · intro k hk
    rw [Ctx.split?_noted, if_neg hk, Group.split?_modSplit _ _ _ _ hid, if_neg hk]

theorem leastBy_mem {α : Type} {key : α → Nat} {l : List α} {y : α} (h : leastBy key l = some y) : y ∈ l := by
  induction l generalizing y with
  | nil => cases h
  | cons a t ih =>
    unfold leastBy at h
    split at h
    · cases h; exact List.mem_cons_self ..
    · split at h
      · cases h; exact List.mem_cons_of_mem _ (ih (by assumption))
      · cases h; exact List.mem_cons_self ..

theorem spillSend_calm {G : Placed} (s : State) (w : Workgroup) (gid owner va : Nat) (data : Option (List Byte)) (h : s.Calm G) :
    (s.spillSend w gid owner va data).Calm G := by
  unfold State.spillSend
  dsimp only
  split
  · exact State.sendWrite_calm _ _ _ h
  · exact State.send_calm _ _ h

theorem spillHome_calm {G : Placed} (s : State) (w : Workgroup) (p : Partition) (va pa : Nat) (f : Leaf) (data : Option (List Byte)) (h : s.Calm G) :
    (s.spillHome w p va pa f data).Calm G := by
  unfold State.spillHome
  have h1 : ∀ (b : Prop) [Decidable b], (if b then s.countAccess (coreDie w.phys) p va 1 else s).Calm G := fun b _ =>
    calm_ite (State.countAccess_calm _ _ _ _ _ h) h
  dsimp only
  split
  · exact State.storeBytes_calm _ _ _ (calm_foldl (fun _ _ h => State.collect_calm _ _ _ (State.own_calm _ _ _ h)) _
      (calm_ite (h1 _) (State.setDck_calm _ _ _ _ (h1 _))))
  · exact State.share__calm _ _ _ (h1 _)

theorem spillAccess_calm {G : Placed} (s : State) (w : Workgroup) (gid va : Nat) (data : Option (List Byte)) (h : s.Calm G) :
    (s.spillAccess w gid va data).1.Calm G := by
  have ht : ∀ p, (s.touch w.phys p va).Calm G := fun p => State.touch_calm _ _ _ _ h
  unfold State.spillAccess
  dsimp only
  split
  · exact h
  · split
    · exact ht _
    · split
      · exact spillSend_calm _ _ _ _ _ _ (calm_ite (State.countAccess_calm _ _ _ _ _ (ht _)) (ht _))
      · split
        · exact ht _
        · exact spillHome_calm _ _ _ _ _ _ _ (ht _)

theorem spillAll_calm {G : Placed} (s : State) (w : Workgroup) (gid base : Nat) (l : List (Nat × Option (List Byte))) (h : s.Calm G) :
    (s.spillAll w gid base l).1.Calm G := by
  unfold State.spillAll
  refine calm_foldl_fst (fun p a hp => ?_) l h
  split
  · exact hp
  · exact spillAccess_calm _ _ _ _ _ hp

theorem find?_bare (l : List Group) (k : Nat) : (l.find? (fun x => x.gid == k)).map Group.bare = (l.map Group.bare).find? (fun x => x.gid == k) := by
  induction l with
  | nil => rfl
  | cons a t ih =>
    rw [List.map_cons, List.find?_cons, List.find?_cons]
    by_cases h : a.gid = k
    · have h1 : (a.gid == k) = true := by simpa using h
      have h2 : (a.bare.gid == k) = true := h1
      rw [h1, h2]; rfl
    · have h1 : (a.gid == k) = false := by simpa using h
      have h2 : (a.bare.gid == k) = false := h1
      rw [h1, h2]; exact ih

theorem group?_bare {s t : State} (h : t.groups.map Group.bare = s.groups.map Group.bare) (k : Nat) :
    (t.group? k).map Group.bare = (s.group? k).map Group.bare := by
  unfold State.group?
  rw [find?_bare, find?_bare, h]

end Sys2Proof.Laws
end

