-- ==== Sys2Proof/Laws/Completions.lean ====
section
/-!
SUPPORT. Lemmas: what a completed operation leaves of its group (06 R120).
-/
namespace Sys2Proof.Laws
open Sys2Proof.Machine

theorem regs_aux (g : Group) (V S P T) : ((((g.setV V).setS S).setP P).tagV T) =
    { g with v := assocSets 0 V g.v, vtags := ((((g.setV V).setS S).setP P).tagV T).vtags, s := assocSets 0 S g.s, p := assocSets nullPtr P g.p } := rfl

theorem finishOp_finished (x : Group) (o : PendingOp) : x.finished (x.finishOp o) o := by
  have hcd : ∀ (g : Group), (if o.flag < 12 then g.countDown o.flag else g) = { g with flags := (if o.flag < 12 then (g.countDown o.flag).flags else g.flags) } := by
    intro g; split <;> rfl
  have haf : ∀ (g : Group) (f : FlagBits), g.addFlags o.half f = { g with fstat0 := (g.addFlags o.half f).fstat0, fstat1 := (g.addFlags o.half f).fstat1 } := by
    intro g f; unfold Group.addFlags; split <;> rfl
  have e : ∀ (V S P T) (f : FlagBits), ∃ T', ((((({ x with ops := x.ops.filter (fun y => y.id != o.id) } : Group).setV V).setS S).setP P).tagV T).addFlags o.half f =
      ({ x with ops := x.ops.filter (fun y => y.id != o.id), v := assocSets 0 V x.v, s := assocSets 0 S x.s, p := assocSets nullPtr P x.p, vtags := T' } : Group).addFlags o.half f := by
    intro V S P T f; exact ⟨_, by rw [regs_aux]⟩
  unfold Group.finished Group.finishOp
  dsimp only
  generalize (o.vWrites ++ ((o.elems.map o.arrive).flatMap (·.v)).filter (fun kv => !o.lost.contains kv.1)) = V
  generalize (o.pWrites ++ ((o.elems.map o.arrive).flatMap (·.p)).filter (fun kv => !o.lost.contains (2 ^ 21 + kv.1))) = P
  generalize (o.fstat ||| orFlags ((o.elems.map o.arrive).map (·.f))) = f
  generalize ((o.vTags ++ (o.elems.map o.arrive).flatMap (·.tags)).filter _) = T
  obtain ⟨T', hT⟩ := e V o.sWrites P T f
  rw [hT, hcd]
  refine ⟨fun k => ?_, fun k => ?_, fun k => ?_, ?_, fun j => ?_, ?_, ?_⟩
  · rw [haf]; exact assocGet_sets 0 V k x.v
  · rw [haf]; exact assocGet_sets 0 o.sWrites k x.s
  · rw [haf]; exact assocGet_sets nullPtr P k x.p
  · unfold Group.tookFlags Group.addFlags
    cases o.half <;> exact ⟨rfl, rfl, rfl, rfl⟩
  · rw [haf]
    show assocGet 0 j (if o.flag < 12 then _ else _) = _
    by_cases h : o.flag < 12
    · rw [if_pos h]
      simp only [Group.countDown, assocGet_set, h, and_true, Group.flag]
      by_cases hj : j = o.flag
      · subst hj; rfl
      · rw [if_neg hj, if_neg hj]
    · rw [if_neg h, if_neg (fun e => h e.2)]; rfl
  · rw [haf]
  · rw [haf]

theorem acquireCore_groups (s : State) (core part n : Nat) : (s.acquireCore core part n).groups = s.groups := by
  unfold State.acquireCore
  split
  · rfl
  · split <;> rfl

theorem finishOp_next {s : State} {g op : Nat} {x : Group} {w : Workgroup} {o : PendingOp} (hx : s.group? g = some x) (hw : s.wg? x.wgKey = some w)
    (ho : x.ops.find? (fun y => y.id == op) = some o) (hr : o.ready = true) :
    (s.finishOp g op).group? g = some (x.finishOp o) ∧ (s.finishOp g op).mem = s.mem ∧ (o.acq = 0 → (s.finishOp g op).cores = s.cores) := by
  have hgid : ∀ y : Group, (y.finishOp o).gid = y.gid := by
    intro y
    have hcd : ∀ (g : Group), (if o.flag < 12 then g.countDown o.flag else g).gid = g.gid := by intro g; split <;> rfl
    have haf : ∀ (g : Group) (f : FlagBits), (g.addFlags o.half f).gid = g.gid := by intro g f; unfold Group.addFlags; split <;> rfl
    unfold Group.finishOp; dsimp only; rw [hcd, haf]; rfl
  have h1 : (s.modGroup g (fun y => y.finishOp o)).group? g = some (x.finishOp o) := group?_set _ hgid hx
  simp only [State.finishOp, hx, ho, hw, hr, Bool.not_true, Bool.false_eq_true, if_false]
  split
  · exact ⟨h1, rfl, fun _ => rfl⟩
  · rename_i hne
    refine ⟨?_, acquireCore_mem .., fun h => absurd h hne⟩
    unfold State.group? at *; rw [acquireCore_groups]; exact h1

end Sys2Proof.Laws
end

