-- ==== Sys2Proof/Laws/EngineSteps.lean ====
section
/-!
SUPPORT. Lemmas: one step of an engine (chapters 13, 14).
-/
namespace Sys2Proof.Laws
open Sys2Proof.Machine

theorem find?_modOp (l : List EngineOp) (n : Nat) (f : EngineOp → EngineOp) (hf : ∀ y, (f y).id = y.id) :
    (replaceBy (fun o => o.id == n) f l).find? (fun y => y.id == n) = (l.find? (fun y => y.id == n)).map f := by
  induction l with
  | nil => rfl
  | cons a t ih =>
    by_cases h : (a.id == n) = true
    · have h2 : ((f a).id == n) = true := by rw [hf]; exact h
      simp only [replaceBy, h, if_true, List.find?_cons, h2]; rfl
    · have h' : (a.id == n) = false := by simpa using h
      simp only [replaceBy, h', Bool.false_eq_true, if_false, List.find?_cons]; exact ih

theorem find?_put (n k : Nat) (v : Core) (o : EngineOp) (hv : v.ops.find? (fun y => y.id == n) = some o) (l : Assoc Core)
    (hk : ∀ e, l.find? (fun c => c.2.ops.any (fun o => o.id == n)) = some e → e.1 = k) :
    (assocPut k v l).find? (fun c => c.2.ops.any (fun o => o.id == n)) = some (k, v) := by
  have hva : v.ops.any (fun o => o.id == n) = true := by
    have := List.find?_some hv
    exact List.any_eq_true.2 ⟨o, List.mem_of_find?_eq_some hv, this⟩
  induction l with
  | nil => simp only [assocPut, List.find?_cons, hva]
  | cons a t ih =>
    obtain ⟨k', v'⟩ := a
    unfold assocPut
    split
    · simp only [List.find?_cons, hva]
    · split
      · simp only [List.find?_cons, hva]
      · rename_i h1 h2
        rw [List.find?_cons]
        cases h : v'.ops.any (fun o => o.id == n) with
        | true =>
          have := hk (k', v') (by rw [List.find?_cons]; simp only [h])
          exact absurd this.symm h2
        | false =>
          simp only [h]
          exact ih (fun e he => hk e (by rw [List.find?_cons]; simp only [h]; exact he))

theorem op?_modOp {s : State} {n k : Nat} {o : EngineOp} (h : s.op? n = some (k, o)) (hc : (s.core k).ops.find? (fun y => y.id == n) = some o)
    (f : EngineOp → EngineOp) (hf : ∀ y, (f y).id = y.id) :
    (s.modOp k n f).op? n = some (k, f o) ∧ ((s.modOp k n f).core k).ops.find? (fun y => y.id == n) = some (f o) := by
  have hfind : (replaceBy (fun o => o.id == n) f (s.core k).ops).find? (fun y => y.id == n) = some (f o) := by rw [find?_modOp _ _ _ hf, hc]; rfl
  have hcore : ((s.modOp k n f).core k).ops = replaceBy (fun o => o.id == n) f (s.core k).ops := by
    unfold State.modOp; rw [State.core_modCore, if_pos rfl]
  refine ⟨?_, by rw [hcore]; exact hfind⟩
  have hne : ({ s.core k with ops := replaceBy (fun o => o.id == n) f (s.core k).ops } : Core) ≠ Core.reset := by
    intro e; have := congrArg Core.ops e; simp only at this; rw [this] at hfind; simp [Core.reset] at hfind
  have hcs : (s.modOp k n f).cores = assocPut k ({ s.core k with ops := replaceBy (fun o => o.id == n) f (s.core k).ops } : Core) s.cores := by
    unfold State.modOp State.modCore assocSet; simp only [hne, if_false]
  have hk : ∀ e, s.cores.find? (fun c => c.2.ops.any (fun o => o.id == n)) = some e → e.1 = k := by
    intro e he
    unfold State.op? at h
    rw [he] at h
    obtain ⟨k1, c1⟩ := e
    simp only [Option.map_eq_some_iff, Prod.mk.injEq] at h
    obtain ⟨_, -, h1, -⟩ := h
    exact h1
  unfold State.op?
  rw [hcs, find?_put n k _ (f o) hfind s.cores hk]
  dsimp only
  rw [hfind]; rfl

theorem untag_frame (s : State) (w : Workgroup) (o : EngineOp) : ∃ ts, s.untagHull w o = { s with tags := ts } := by
  unfold State.untagHull
  dsimp only
  split
  · exact ⟨s.tags, rfl⟩
  · exact ⟨_, rfl⟩

theorem store_frame (s : State) (ws : List (Nat × Byte)) : (s.store ws none).cores = s.cores ∧ (s.store ws none).parts = s.parts ∧
    (s.store ws none).wgs = s.wgs ∧ ∀ G : Placed, s.Calm G → (s.store ws none).Calm G := by
  refine ⟨?_, ?_, ?_, fun G h => State.store_calm _ _ _ h⟩ <;> (unfold State.store; split <;> rfl)

/-- What a store leaves of a byte. -/
def nibPut (nib : Option Bool) (old b : Byte) : Byte :=
  match nib with
  | some hi => setNibble old hi b.toNat
  | none => b

theorem storeFold_byte (nib : Option Bool) (F : State → Place × Byte → State)
    (hF : ∀ s k b, F s (.fixed k, b) = s.store [(k, nibPut nib (s.byte k) b)] none)
    (l : List (Place × Byte)) (hl : ∀ e ∈ l, ∃ k, e.1 = .fixed k) (hone : nib.isSome = true → l.length ≤ 1) (s : State) :
    (∀ k, (l.foldl F s).byte k = writeIn s.byte (l.map (fun e => (e.1.key, nibPut nib (s.byte e.1.key) e.2))) k) ∧
    (l.foldl F s).cores = s.cores ∧ (l.foldl F s).parts = s.parts ∧ (l.foldl F s).wgs = s.wgs ∧ ∀ G : Placed, s.Calm G → (l.foldl F s).Calm G := by
  induction l generalizing s with
  | nil => exact ⟨fun k => rfl, rfl, rfl, rfl, fun _ h => h⟩
  | cons a t ih =>
    obtain ⟨k0, hk0⟩ := hl a (List.mem_cons_self ..)
    obtain ⟨pl, b⟩ := a
    simp only at hk0
    subst hk0
    rw [List.foldl_cons, hF]
    obtain ⟨h1, h2, h3, h4⟩ := store_frame s [(k0, nibPut nib (s.byte k0) b)]
    obtain ⟨i1, i2, i3, i4, i5⟩ := ih (fun e he => hl e (List.mem_cons_of_mem _ he)) (fun h => by have := hone h; simp only [List.length_cons] at this; omega) (s.store [(k0, nibPut nib (s.byte k0) b)] none)
    refine ⟨fun k => ?_, i2.trans h1, i3.trans h2, i4.trans h3, fun G h => i5 G (h4 G h)⟩
    rw [i1 k]
    have hb : (s.store [(k0, nibPut nib (s.byte k0) b)] none).byte = writeIn s.byte [(k0, nibPut nib (s.byte k0) b)] :=
      funext fun j => store_byte ..
    cases nib with
    | none => rw [hb]; rfl
    | some hi =>
      have ht : t = [] := by have := hone rfl; simp only [List.length_cons] at this; exact List.length_eq_zero_iff.1 (by omega)
      subst ht
      rw [hb]; rfl

theorem setAdd_length {i : Nat} {l : List Nat} (h : i ∉ l) : (setAdd i l).length = l.length + 1 := by
  induction l with
  | nil => rfl
  | cons a t ih =>
    unfold setAdd
    split
    · rfl
    · split
      · rename_i e; exact absurd (by simp [e]) h
      · simp only [List.length_cons, ih (fun e => h (List.mem_cons_of_mem _ e))]

/-! ### What an access of the engine leaves -/

/-- An operation of a core's engines, and the core on which alone it is found. -/
structure Runs (s : State) (n k : Nat) (o : EngineOp) : Prop where
  here : s.op? n = some (k, o)
  in_ : (s.core k).ops.find? (fun y => y.id == n) = some o
  only : ∀ j, j ≠ k → ∀ y ∈ (s.core j).ops, y.id ≠ n

theorem Runs.first {s : State} {n k : Nat} {o : EngineOp} (h : Runs s n k o) :
    ∃ c, s.cores.find? (fun c => c.2.ops.any (fun o => o.id == n)) = some (k, c) := by
  have := h.here
  unfold State.op? at this
  split at this
  · rename_i e; simp only [Option.map_eq_some_iff, Prod.mk.injEq] at this; obtain ⟨_, -, rfl, -⟩ := this; exact ⟨_, e⟩
  · cases this

/-- Memory stands, the operations of the engines are as they were, and a partition's controls. -/
structure Kept (s t : State) : Prop where
  runs : ∀ n k o, Runs s n k o → Runs t n k o
  mem : t.mem = s.mem
  obs : ∀ n, (t.partOf n).obs = (s.partOf n).obs
  ring : ∀ n, (t.partOf n).accRing = (s.partOf n).accRing

theorem Kept.refl (s : State) : Kept s s := ⟨fun _ _ _ h => h, rfl, fun _ => rfl, fun _ => rfl⟩
theorem Kept.trans {s t u : State} (h : Kept s t) (h' : Kept t u) : Kept s u :=
  ⟨fun n k o hr => h'.runs n k o (h.runs n k o hr), h'.mem.trans h.mem, fun n => (h'.obs n).trans (h.obs n), fun n => (h'.ring n).trans (h.ring n)⟩

theorem kept_same {s t : State} (hc : t.cores = s.cores) (hm : t.mem = s.mem) (hp : t.parts = s.parts) : Kept s t := by
  refine ⟨fun n k o h => ⟨?_, ?_, ?_⟩, hm, fun n => ?_, fun n => ?_⟩
  · unfold State.op?; rw [hc]; exact h.here
  · unfold State.core; rw [hc]; exact h.in_
  · unfold State.core; rw [hc]; exact h.only
  · unfold State.partOf State.part?; rw [hp]
  · unfold State.partOf State.part?; rw [hp]

theorem kept_foldl {α : Type} {f : State → α → State} (hf : ∀ (s : State) (a : α), Kept s (f s a)) (l : List α) (s : State) : Kept s (l.foldl f s) := by
  induction l generalizing s with
  | nil => exact .refl s
  | cons a t ih => exact (hf s a).trans (ih _)

theorem find?_putOther (n j : Nat) (v : Core) (hv : v.ops.any (fun o => o.id == n) = false) (l : Assoc Core) {e : Nat × Core} (hj : j ≠ e.1)
    (h : l.find? (fun c => c.2.ops.any (fun o => o.id == n)) = some e) : (assocPut j v l).find? (fun c => c.2.ops.any (fun o => o.id == n)) = some e := by
  induction l with
  | nil => cases h
  | cons a t ih =>
    obtain ⟨k', v'⟩ := a
    rw [List.find?_cons] at h
    unfold assocPut
    split
    · simp only [List.find?_cons, hv]; exact h
    · split
      · rename_i _ he
        simp only [List.find?_cons, hv]
        split at h
        · cases h; exact absurd he hj
        · exact h
      · rw [List.find?_cons]
        split
        · rename_i e1; simp only [e1] at h; exact h
        · rename_i e1; simp only [e1] at h; exact ih h

theorem find?_del (n j : Nat) (l : Assoc Core) {e : Nat × Core} (hj : j ≠ e.1)
    (h : l.find? (fun c => c.2.ops.any (fun o => o.id == n)) = some e) : (assocDel j l).find? (fun c => c.2.ops.any (fun o => o.id == n)) = some e := by
  unfold assocDel
  induction l with
  | nil => cases h
  | cons a t ih =>
    rw [List.find?_cons] at h
    rw [List.filter_cons]
    cases e1 : a.2.ops.any (fun o => o.id == n) with
    | true =>
      simp only [e1, Option.some.injEq] at h
      subst h
      have : (a.1 != j) = true := by simpa using Ne.symm hj
      rw [if_pos this, List.find?_cons, e1]
    | false =>
      simp only [e1] at h
      split
      · rw [List.find?_cons, e1]; exact ih h
      · exact ih h

theorem kept_modCore {s : State} (j : Nat) (f : Core → Core) (hf : ∀ c, (f c).ops = c.ops) : Kept s (s.modCore j f) := by
  refine ⟨fun n k o h => ?_, rfl, fun _ => rfl, fun _ => rfl⟩
  have hops : ∀ i, ((s.modCore j f).core i).ops = (s.core i).ops := by intro i; rw [State.core_modCore]; split <;> simp_all
  obtain ⟨c, hc⟩ := h.first
  have hin : ((s.modCore j f).core k).ops.find? (fun y => y.id == n) = some o := by rw [hops]; exact h.in_
  refine ⟨?_, hin, fun i hi y hy => h.only i hi y (by rw [hops] at hy; exact hy)⟩
  by_cases hj : j = k
  · subst hj
    have hv : (f (s.core j)).ops.find? (fun y => y.id == n) = some o := by rw [hf]; exact h.in_
    have hne : f (s.core j) ≠ Core.reset := by intro e; rw [e] at hv; simp [Core.reset] at hv
    have hcs : (s.modCore j f).cores = assocPut j (f (s.core j)) s.cores := by unfold State.modCore assocSet; simp only [hne, if_false]
    have := find?_put n j _ o hv s.cores (fun e he => by rw [hc] at he; cases he; rfl)
    unfold State.op?
    rw [hcs, this]
    simp only [hv]; rfl
  · have hv : (f (s.core j)).ops.any (fun o => o.id == n) = false := by
      rw [hf, List.any_eq_false]; intro y hy; simpa using h.only j hj y hy
    have : (s.modCore j f).cores.find? (fun c => c.2.ops.any (fun o => o.id == n)) = some (k, c) := by
      unfold State.modCore assocSet
      dsimp only
      split
      · exact find?_del n j _ hj hc
      · exact find?_putOther n j _ hv _ hj hc
    have h0 := h.here
    unfold State.op? at h0 ⊢
    rw [hc] at h0
    rw [this]
    exact h0

theorem kept_mapCores {s t : State} (F : Nat → Core → Core) (hF : ∀ k c, (F k c).ops = c.ops) (hr : ∀ k, F k Core.reset = Core.reset)
    (e : t.cores = s.cores.map (fun kv => (kv.1, F kv.1 kv.2))) (hm : t.mem = s.mem) (hp : t.parts = s.parts) : Kept s t := by
  have hcore : ∀ k, t.core k = F k (s.core k) := by intro k; unfold State.core; rw [e, assocGet_map _ _ hr]
  refine ⟨fun n k o h => ⟨?_, by rw [hcore, hF]; exact h.in_, fun j hj y hy => h.only j hj y (by rw [hcore, hF] at hy; exact hy)⟩, hm, fun n => ?_, fun n => ?_⟩
  · have h0 := h.here
    unfold State.op? at h0 ⊢
    rw [e, List.find?_map]
    have : (fun c : Nat × Core => c.2.ops.any (fun o => o.id == n)) ∘ (fun kv : Nat × Core => (kv.1, F kv.1 kv.2)) = fun c => c.2.ops.any (fun o => o.id == n) := by
      funext c; simp [hF]
    rw [this]
    cases hx : s.cores.find? (fun c => c.2.ops.any (fun o => o.id == n)) with
    | none => rw [hx] at h0; exact h0
    | some x => rw [hx] at h0; simpa [hF] using h0
  · unfold State.partOf State.part?; rw [hp]
  · unfold State.partOf State.part?; rw [hp]

theorem kept_modPart {s : State} (k : Nat) (f : Partition → Partition) (hf : ∀ p : Partition, (f p).num = p.num ∧ (f p).obs = p.obs ∧ (f p).accRing = p.accRing) :
    Kept s (s.modPart k f) := by
  have key : ∀ (n : Nat) (l : List Partition), ((replaceBy (fun p => p.num == k) f l).find? (fun p => p.num == n)).map (fun p => (p.obs, p.accRing)) =
      (l.find? (fun p => p.num == n)).map (fun p => (p.obs, p.accRing)) := by
    intro n l
    induction l with
    | nil => rfl
    | cons a t ih =>
      simp only [replaceBy]
      split
      · simp only [List.find?_cons, (hf a).1]
        split
        · simp [(hf a).2.1, (hf a).2.2]
        · rfl
      · simp only [List.find?_cons]
        split
        · rfl
        · exact ih
  have h2 : ∀ n, ((s.modPart k f).partOf n).obs = (s.partOf n).obs ∧ ((s.modPart k f).partOf n).accRing = (s.partOf n).accRing := by
    intro n
    have := key n s.parts
    unfold State.partOf State.part? State.modPart
    dsimp only
    revert this
    cases List.find? (fun p => p.num == n) (replaceBy (fun p => p.num == k) f s.parts) <;> cases List.find? (fun p => p.num == n) s.parts <;>
      simp <;> intros <;> simp_all
  exact ⟨fun n k o h => ⟨h.here, h.in_, h.only⟩, rfl, fun n => (h2 n).1, fun n => (h2 n).2⟩

theorem kept_modDie (s : State) (d : Nat) (f : Die → Die) : Kept s (s.modDie d f) := kept_same rfl rfl rfl
theorem kept_count (s : State) (die part : Nat) (f : CohCounters → CohCounters) : Kept s (s.count die part f) := kept_same rfl rfl rfl

theorem kept_ite {c : Prop} [Decidable c] {s t u : State} (ht : Kept s t) (hu : Kept s u) : Kept s (if c then t else u) := by split <;> assumption

theorem kept_recallLines (s : State) (holder lo n : Nat) (sharing home : Bool) : Kept s (s.recallLines holder lo n sharing home) := by
  unfold State.recallLines
  split
  · exact .refl s
  · have h0 : Kept s (s.cancelSlice holder lo n home) := kept_same rfl rfl rfl
    have hd : ∀ (u : State) core lines, Kept u (u.dropLineResv core lines) := by
      intro u core lines; unfold State.dropLineResv; split
      · exact .refl u
      · exact kept_same rfl rfl rfl
    have h1 : ∀ l : List (Nat × Core), Kept s (if sharing = true then s.cancelSlice holder lo n home else l.foldl (fun s (kc : Nat × Core) =>
        if coreDie kc.1 == holder then
          s.dropLineResv kc.1 (uniq ((kc.2.l1.filter (fun w => (decide (lo ≤ w.key / 32) && decide (w.key / 32 < lo + n)) && w.st == .registered)).map (·.key / 32)))
        else s) (s.cancelSlice holder lo n home)) := by
      intro l
      refine kept_ite h0 (h0.trans (kept_foldl (fun u kc => ?_) _ _))
      split
      · exact hd ..
      · exact .refl u
    refine Kept.trans (h1 (s.cancelSlice holder lo n home).cores) ?_
    let inRun := fun (w : L1Word) => decide (lo ≤ w.key / 32) && decide (w.key / 32 < lo + n)
    refine kept_mapCores (fun k c => if coreDie k == holder && c.l1.any inRun then { c with l1 := c.l1.filterMap (fun w =>
            if inRun w && w.st == .registered then (if sharing then some { w with st := .valid, dirty := 0 } else none)
            else some w) } else c) (fun k c => by split <;> rfl) (fun k => by simp [Core.reset]) ?_ rfl rfl
    refine List.map_congr_left (fun a _ => ?_)
    dsimp only
    split <;> rfl

theorem kept_share (s : State) (die line : Nat) : Kept s (s.share_ die line) := by
  have hn : ∀ (u : State) homeD holder nd sh, Kept u (u.recallNode homeD holder nd sh) := by
    intro u homeD holder nd sh
    unfold State.recallNode
    refine kept_ite ?_ ?_
    · exact ((kept_recallLines ..).trans (kept_count ..)).trans (kept_count ..)
    · exact (kept_recallLines ..).trans (kept_count ..)
  unfold State.share_
  refine kept_ite (.refl s) ?_
  unfold State.dirRequest
  dsimp only
  generalize hsn : @ite (State × Node) _ (instDecidableEqBool _ _) _ _ = sn
  have hs : Kept s sn.1 := by
    rw [← hsn]; split
    · exact kept_same rfl rfl rfl
    · exact .refl s
  clear hsn
  have put : ∀ (u : State) (p : Prop) [Decidable p] (f g : Die → Die), Kept u (if p then u.modDie (homeDie (line * 128)) f else u.modDie (homeDie (line * 128)) g) := by
    intro u p _ f g; split <;> exact kept_modDie ..
  refine hs.trans ?_
  split
  · exact put ..
  · rename_i h2; cases h2
  · exact put ..
  · rename_i h2; cases h2
  · exact kept_ite (.refl _) ((kept_foldl (fun u x => hn ..) _ _).trans (put ..))
  · rename_i h2; cases h2

theorem kept_engineRead (s : State) (core part k : Nat) (ord : Bool) : Kept s (s.engineRead core part k ord) := by
  have hf : ∀ u : State, Kept u (u.noteForward core part k) := fun u => by
    unfold State.noteForward; exact kept_ite (.refl u) (kept_count ..)
  have ha : ∀ (u : State) d, Kept u (u.serveAway d part k) := fun u d => by
    unfold State.serveAway
    split
    · exact .refl u
    · exact (kept_foldl (fun v c => kept_modCore c (fun x => x.dropWord k) (fun _ => rfl)) _ _).trans (kept_count ..)
  unfold State.engineRead
  refine kept_ite ?_ ?_
  · exact kept_ite ((kept_share ..).trans (hf _)) ((kept_share ..).trans (ha _ _))
  · exact (kept_share ..).trans (hf _)

theorem kept_touch (s : State) (core : Nat) (p : Partition) (va : Nat) : Kept s (s.touch core p va) := by
  unfold State.touch
  split
  · exact .refl s
  · unfold State.install
    split
    · refine kept_ite ((kept_modCore core _ ?_).trans (kept_modPart _ _ fun _ => ⟨rfl, rfl, rfl⟩)) (kept_modCore core _ ?_) <;> exact fun _ => rfl
    · exact .refl s

/-- 13 R285: an access of the engine that reads, of a partition that counts no accesses, leaves memory and every engine operation as
they were. -/
theorem kept_reach (s : State) (core part : Nat) (ps : List Place) (hr : (s.partOf part).accRing.size = 0) :
    Kept s (s.engineReach core part ps false) := by
  unfold State.engineReach
  have h1 : Kept s (s.touches core (s.partOf part) (placeVas ps)) := kept_foldl (fun _ _ => kept_touch ..) _ _
  have h2 : ∀ (l : List (Nat × Nat)) (u : State), (u.partOf part).accRing.size = 0 →
      l.foldl (fun s k => s.countAccess (coreDie core) (s.partOf part) k.1 k.2) u = u := by
    intro l
    induction l with
    | nil => intros; rfl
    | cons a t ih =>
      intro u hu
      rw [List.foldl_cons]
      have : u.countAccess (coreDie core) (u.partOf part) a.1 a.2 = u := by unfold State.countAccess; rw [if_pos hu]
      rw [this]; exact ih u hu
  simp only [Bool.false_and, Bool.false_eq_true, if_false]
  rw [h2 _ _ (by rw [h1.ring]; exact hr)]
  exact h1.trans (kept_foldl (fun _ _ => kept_engineRead ..) _ _)

theorem reach_calm {G : Placed} (s : State) (core part : Nat) (ps : List Place) (b : Bool) (h : s.Calm G) : (s.engineReach core part ps b).Calm G := by
  have hr : ∀ (u : State) k ord, u.Calm G → (u.engineRead core part k ord).Calm G := by
    intro u k ord hu
    unfold State.engineRead
    exact calm_ite (calm_ite (State.noteForward_calm _ _ _ _ (State.share__calm _ _ _ hu)) (State.serveAway_calm _ _ _ _ (State.share__calm _ _ _ hu)))
      (State.noteForward_calm _ _ _ _ (State.share__calm _ _ _ hu))
  have hw : ∀ (u : State) k ord, u.Calm G → (u.engineWrite core k ord).Calm G := fun u k ord hu =>
    State.collect_calm _ _ _ (State.own_calm _ _ _ hu)
  unfold State.engineReach
  refine calm_foldl (fun u k hu => calm_ite (hw _ _ _ hu) (hr _ _ _ hu)) _ ?_
  have h1 := calm_foldl (f := fun s (k : Nat × Nat) => s.countAccess (coreDie core) (s.partOf part) k.1 k.2)
    (fun u k hu => State.countAccess_calm _ _ _ _ _ hu) ((ps.filterMap (s.engineServed (coreDie core) b)).eraseDups) (State.touches_calm s core (s.partOf part) (placeVas ps) h)
  exact calm_ite (calm_foldl (fun u v hu => State.setDck_calm _ _ _ _ hu) _ h1) h1

theorem engineReach_fixed {ps : List Place} (h : ∀ p ∈ ps, ∃ k, p = .fixed k) (s : State) (core part : Nat) (b : Bool) : s.engineReach core part ps b = s := by
  have e1 : ps.filterMap (s.engineServed (coreDie core) b) = [] := List.filterMap_eq_nil_iff.2 fun p hp => by obtain ⟨k, rfl⟩ := h p hp; rfl
  have e2 : placeVas ps = [] := List.filterMap_eq_nil_iff.2 fun p hp => by obtain ⟨k, rfl⟩ := h p hp; rfl
  unfold State.engineReach
  simp only [e1, e2, List.map_nil]
  have e3 : ∀ f : Place → Option (Nat × Bool), (∀ k, f (.fixed k) = none) → ps.filterMap f = [] := fun f hf =>
    List.filterMap_eq_nil_iff.2 fun p hp => by obtain ⟨k, rfl⟩ := h p hp; exact hf k
  rw [e3 _ (fun _ => rfl)]
  show (if _ then s else s) = s
  split <;> rfl

theorem fetchElem_here {u : State} {core op i v : Nat} {w : Workgroup} {o : EngineOp} {f : FlagBits} {ps : List Place} (hop : u.op? op = some (core, o)) (hf : o.fault = none)
    (hi : u.elemRead o i = false) (hlt : i < productOf o.dims) (hcl : u.partClear core o false = true) (hbr : u.bringElem core w o i = .value v f ps)
    (hfix : ∀ p ∈ ps, ∃ k, p = .fixed k) :
    u.fetchElem core w op i = u.modOp core op (fun o => { o with fetched := o.fetched ++ [(i, v)], fstat := o.fstat ||| f }) := by
  unfold State.fetchElem
  have hc : (o.fault.isSome || u.elemRead o i || decide (productOf o.dims ≤ i) || !u.partClear core o false) = false := by
    rw [hf, hi, hcl]; simp; omega
  simp only [hop, hc, Bool.false_eq_true, if_false, hbr, engineReach_fixed hfix]

theorem landElem_here {u : State} {core op i x : Nat} {w : Workgroup} {o : EngineOp} {ps : List Place} (hop : u.op? op = some (core, o)) (hf : o.fault = none)
    (hx : o.fetched.find? (fun e => e.1 == i) = some (i, x)) (hcl : u.partClear core o true = true)
    (hps : u.placesFrom w (Ptr.ofBits o.dst) (elemSpan (sideWidth (Ptr.ofBits o.dst).fmt (Ptr.ofBits o.src).fmt) (o.destPos i).toNat).1
      (elemSpan (sideWidth (Ptr.ofBits o.dst).fmt (Ptr.ofBits o.src).fmt) (o.destPos i).toNat).2.1 (engineUse true) = .ok ps)
    (hfix : ∀ p ∈ ps, ∃ k, p = .fixed k) (hbusy : (Ptr.ofBits o.dst).space = 2 → ps.any (fun p => u.peerBusy o p.key true) = false) :
    ∃ u2 : State, u.landElem core w op i [] = (u2.modOp core op (·.land i), []) ∧ u2.cores = u.cores ∧
      u2.parts = u.parts ∧ u2.wgs = u.wgs ∧ u2.sent = u.sent ∧ (∀ G : Placed, u.Calm G → u2.Calm G) ∧
      ∀ k, u2.byte k = if (o.landed ++ u.underWay op).any (fun j => i < j && o.destPos j == o.destPos i) then u.byte k
            else match (elemSpan (sideWidth (Ptr.ofBits o.dst).fmt (Ptr.ofBits o.src).fmt) (o.destPos i).toNat).2.2 with
              | none => writeIn u.byte ((ps.map Place.key).zip (bytesOfNat (elemSpan (sideWidth (Ptr.ofBits o.dst).fmt (Ptr.ofBits o.src).fmt) (o.destPos i).toNat).2.1 x)) k
              | some hi => writeIn u.byte ((ps.map Place.key).zip (ps.map (fun p => setNibble (u.byte p.key) hi (x % 256)))) k := by
  unfold State.landElem
  have hc : (o.fault.isSome || !u.partClear core o true) = false := by rw [hf, hcl]; rfl
  simp only [hop, hx, hc, Bool.false_eq_true, if_false, hps]
  have hlen := placesFrom_length _ _ _ hps
  have hnib : (elemSpan (sideWidth (Ptr.ofBits o.dst).fmt (Ptr.ofBits o.src).fmt) (o.destPos i).toNat).2.2.isSome = true →
      (elemSpan (sideWidth (Ptr.ofBits o.dst).fmt (Ptr.ofBits o.src).fmt) (o.destPos i).toNat).2.1 = 1 := by
    unfold elemSpan; split
    · intro _; rfl
    · intro h; cases h
  generalize hsp : (elemSpan (sideWidth (Ptr.ofBits o.dst).fmt (Ptr.ofBits o.src).fmt) (o.destPos i).toNat) = sp at hlen hnib ⊢
  have hb1 : ((Ptr.ofBits o.dst).space == 2 && ps.any (fun p => match p with | .fixed k => u.peerBusy o k true | _ => false)) = false := by
    by_cases h2 : (Ptr.ofBits o.dst).space = 2
    · have := hbusy h2
      have e : ps.any (fun p => match p with | .fixed k => u.peerBusy o k true | _ => false) = ps.any (fun p => u.peerBusy o p.key true) := by
        clear hps hlen this hnib
        induction ps with
        | nil => rfl
        | cons a t ih =>
          obtain ⟨k, rfl⟩ := hfix a (List.mem_cons_self ..)
          rw [List.any_cons, List.any_cons, ih (fun p hp => hfix p (List.mem_cons_of_mem _ hp)) (fun h => by have := hbusy h; rw [List.any_cons, Bool.or_eq_false_iff] at this; exact this.2)]
          rfl
      rw [e, this, Bool.and_false]
    · have : ((Ptr.ofBits o.dst).space == 2) = false := by simpa using h2
      rw [this, Bool.false_and]
  have hb2 : ps.any (u.pendingAt w.part) = false := by
    rw [List.any_eq_false]; intro p hp; obtain ⟨k, rfl⟩ := hfix p hp; exact Bool.false_ne_true
  have hmine : ∀ F : Place × Byte → Option FarPart, (∀ k b, F (.fixed k, b) = none) → (ps.zip (bytesOfNat sp.2.1 x)).filterMap F = [] := fun F hF =>
    List.filterMap_eq_nil_iff.2 fun e he => by
      obtain ⟨p, b⟩ := e
      obtain ⟨k, hk⟩ := hfix p (List.of_mem_zip he).1
      rw [hk]; exact hF k b
  split
  · rename_i hbad; rw [hb2, Bool.or_false] at hbad; exact absurd (hb1.symm.trans hbad) Bool.false_ne_true
  · by_cases hj : ((o.landed ++ u.underWay op).any (fun j => i < j && o.destPos j == o.destPos i)) = true
    · refine ⟨u, ?_, rfl, rfl, rfl, rfl, fun _ h => h, fun k => by rw [if_pos hj]⟩
      rw [if_pos (by simpa using hj)]
    · rw [if_neg (by simpa using hj)]
      obtain ⟨a1, a2, a3, a4, a5⟩ := storeFold_byte sp.2.2 (fun s e => match e.1 with
              | .far _ _ _ _ => s
              | p => s.store [(p.key, match sp.2.2 with
                  | some hi => setNibble (s.byte p.key) hi e.2.toNat
                  | none => e.2)] none) (fun s k b => by cases sp.2.2 <;> rfl) (ps.zip (bytesOfNat sp.2.1 x))
        (fun e he => hfix e.1 (List.of_mem_zip he).1) (fun h => by rw [List.length_zip, hlen, hnib h]; exact Nat.min_le_left ..) u
      have a6 : ∀ (l : List (Place × Byte)) (s : State), (l.foldl (fun s e => match e.1 with
              | .far _ _ _ _ => s
              | p => s.store [(p.key, match sp.2.2 with
                  | some hi => setNibble (s.byte p.key) hi e.2.toNat
                  | none => e.2)] none) s).sent = s.sent := by
        intro l
        induction l with
        | nil => intro s; rfl
        | cons a t ih =>
          intro s
          rw [List.foldl_cons, ih]
          split
          · rfl
          · unfold State.store; split <;> rfl
      refine ⟨_, ?_, a2, a3, a4, a6 _ _, a5, fun k => ?_⟩
      · rw [hmine _ (fun _ _ => rfl), engineReach_fixed hfix]; rfl
      · rw [if_neg hj]
        refine (a1 k).trans ?_
        cases hn : sp.2.2 with
        | none =>
          dsimp only
          rw [List.zip_map_left]; rfl
        | some hi =>
          dsimp only
          have h1 := hnib (by rw [hn]; rfl)
          rw [h1] at hlen ⊢
          obtain ⟨p, rfl⟩ := List.length_eq_one_iff.1 hlen
          show writeIn u.byte [(p.key, nibPut (some hi) (u.byte p.key) (BitVec.ofNat 8 x))] k = writeIn u.byte [(p.key, setNibble (u.byte p.key) hi (x % 256))] k
          unfold nibPut
          rw [BitVec.toNat_ofNat]

theorem fatal_shape {s : State} (w : Workgroup) (r : ErrorRecord) (h3 : ∀ h ∈ s.halts, h.wgs.contains w.key = false) :
    ∃ r' : ErrorRecord, (r'.code = r.code ∧ r'.addr = r.addr) ∧ s.fatal w r = { s.record r' with halts := (s.record r').halts ++
      [{ stage := .raised, part := w.part, fdom := w.fdom, ticket := w.ticket, wg := w.wg, die := coreDie w.phys,
           wgs := s.domain w, cause := r', haltCyc := 0, nsecond := 0, second := none, records := [r'],
           dropped := false, ctxLost := false }] } := by
  have key : ∀ r', (s.record r').halts.any (fun h => h.wgs.contains w.key) = false := by
    intro r'
    have := calm_halts (State.record_calm s r' rfl)
    rw [List.any_eq_false]
    intro x hx
    have hm : x.wgs ∈ (s.record r').halts.map (·.wgs) := List.mem_map_of_mem hx
    rw [this] at hm
    obtain ⟨y, hy, e⟩ := List.mem_map.1 hm
    rw [← e, h3 y hy]; simp
  refine ⟨if r.action = 0 then { r with action := actionOf (w.fdom + 1) 2 } else r, ?_, ?_⟩
  · split <;> exact ⟨rfl, rfl⟩
  · unfold State.fatal
    dsimp only
    rw [key]
    have hd : ∀ r', (s.record r').domain w = s.domain w := by
      intro r'; unfold State.domain; rw [calm_wgs (State.record_calm s r' rfl)]
    rw [hd]; rfl

theorem tile_modTile (s : State) (core k : Nat) (f : Tile → Tile) (h : k < (s.core core).tiles.length) : (s.modTile core k f).tile core k = f (s.tile core k) := by
  unfold State.tile State.modTile
  rw [State.core_modCore, if_pos rfl]
  simp [List.getD, List.getElem?_modify, List.getElem?_eq_getElem h]

theorem addFlags_took (g : Group) (b : Bool) (f : FlagBits) : g.tookFlags (g.addFlags b f) b f ∧ g.sameRegs (g.addFlags b f) ∧ (g.addFlags b f).gid = g.gid := by
  unfold Group.tookFlags Group.addFlags Group.sameRegs; cases b <;> exact ⟨⟨rfl, rfl, rfl, rfl⟩, ⟨rfl, rfl, rfl, rfl⟩, rfl⟩

theorem storeElemAt_frame (s : State) (b f p x : Nat) : (∀ G : Placed, s.Calm G → (s.storeElemAt b f p x).Calm G) ∧ (s.storeElemAt b f p x).cores = s.cores := by
  unfold State.storeElemAt
  dsimp only
  split
  · exact ⟨fun G h => (store_frame s _).2.2.2 G h, (store_frame s _).1⟩
  · exact ⟨fun G h => State.storeBytes_calm _ _ _ h, (store_frame s _).1⟩

theorem find?_mapIf (F : PendingOp → PendingOp) (hF : ∀ p, (F p).id = p.id) (n : Nat) (o : PendingOp) (l : List PendingOp) (h : l.find? (fun y => y.id == n) = some o) :
    (l.map (fun p => if p.id == n then F p else p)).find? (fun y => y.id == n) = some (F o) := by
  induction l with
  | nil => cases h
  | cons a t ih =>
    rw [List.find?_cons] at h
    rw [List.map_cons, List.find?_cons]
    by_cases he : (a.id == n) = true
    · rw [he] at h; cases h
      simp only [he, if_true, hF]
    · have he' : (a.id == n) = false := by simpa using he
      rw [he'] at h
      simp only [he', Bool.false_eq_true, if_false]
      exact ih h

theorem filter_mapIf (F : PendingOp → PendingOp) (hF : ∀ p, (F p).id = p.id) (n : Nat) (l : List PendingOp) :
    (l.map (fun p => if p.id == n then F p else p)).filter (fun y => y.id != n) = l.filter (fun y => y.id != n) := by
  induction l with
  | nil => rfl
  | cons a t ih =>
    rw [List.map_cons, List.filter_cons, List.filter_cons, ih]
    by_cases he : a.id = n
    · have e1 : (a.id == n) = true := by simpa using he
      have e2 : (a.id != n) = false := by simpa using he
      have e3 : ((F a).id != n) = false := by rw [hF]; exact e2
      simp only [e1, if_true, e2, e3, Bool.false_eq_true, if_false]
    · have e1 : (a.id == n) = false := by simpa using he
      simp only [e1, Bool.false_eq_true, if_false]

end Sys2Proof.Laws
end

