-- ==== Sys2Proof/Laws/Launches.lean ====
section
/-!
SUPPORT. Lemmas: submissions judged and workgroups placed (04 R88 to R95; 05 R97 to R104).
-/
namespace Sys2Proof.Laws
open Sys2Proof.Machine

theorem part?_set {s : State} {k : Nat} {P : Partition} (f : Partition → Partition) (hf : ∀ g, (f g).num = g.num) (hg : s.part? k = some P) :
    (s.modPart k f).part? k = some (f P) := by
  unfold State.part? State.modPart at *
  dsimp only
  rw [find?_replaceBy_self (fun p : Partition => p.num == k) f s.parts (fun a ha => by rw [hf]; exact ha), hg]; rfl

theorem launch?_set {p : Partition} {k : Nat} {l : Launch} (f : Launch → Launch) (hf : ∀ g, (f g).ticket = g.ticket) (hg : p.launch? k = some l) :
    (p.modLaunch k f).launch? k = some (f l) := by
  unfold Partition.launch? Partition.modLaunch at *
  dsimp only
  rw [find?_replaceBy_self (fun p : Launch => p.ticket == k) f p.launches (fun a ha => by rw [hf]; exact ha), hg]; rfl

theorem ite_rejected {c : Prop} [Decidable c] {k : Nat} {v : Verdict} {l : Launch} (h : (if c then Verdict.rejected k else v) = .accepted l) :
    v = .accepted l := by
  split at h
  · exact nomatch h
  · exact h

theorem judge_accepted {s : State} {p : Partition} {a : Nat} {l : Launch} (h : s.judge p a = .accepted l) :
    l.ticket = p.ticketNext ∧ (p.launches.filter (·.queued)).length < 256 := by
  unfold State.judge at h
  have h := ite_rejected h
  have h := ite_rejected h
  cases hb : s.readBlock p a 896 with
  | none => rw [hb] at h; exact nomatch h
  | some bs =>
    rw [hb] at h
    have h := ite_rejected h
    have h := ite_rejected h
    cases hd : s.descriptor p (fieldOf bs 0x40 8) with
    | none => simp only [hd] at h; exact nomatch h
    | some d =>
      simp only [hd] at h
      have h := ite_rejected h
      generalize Option.map _ _ = path at h
      cases path with
      | none => exact nomatch h
      | some path =>
        have h := ite_rejected h
        have h := ite_rejected h
        have h := ite_rejected h
        split at h
        · exact nomatch h
        · cases h; exact ⟨rfl, by omega⟩

theorem placeFold (part : Nat) (l : Launch) (n0 : Nat) (binding : List (Nat × Nat)) (L : List (Nat × PlaceAt × Nat)) (s : State) :
    let t := L.foldl (fun s y => s.placeWg part l (n0 + y.1) y.2.1 y.2.2 binding) s
    t.parts = s.parts ∧ t.wgs.map (fun w => (w.part, w.ticket, w.wg)) = s.wgs.map (fun w => (w.part, w.ticket, w.wg)) ++ L.map (fun y => (part, l.ticket, n0 + y.1)) ∧
    ∀ w ∈ t.wgs, w ∈ s.wgs ∨ (w.status = .resident ∧ w.gangSize = binding.length ∧ w.timelines = List.replicate l.tlallot Timeline.zero) := by
  induction L generalizing s with
  | nil => exact ⟨rfl, by simp, fun w h => .inl h⟩
  | cons a t ih =>
    obtain ⟨h1, h2, h3⟩ := ih (s.placeWg part l (n0 + a.1) a.2.1 a.2.2 binding)
    have hw : (s.placeWg part l (n0 + a.1) a.2.1 a.2.2 binding).wgs = s.wgs ++ [Workgroup.placed l s.serial part (n0 + a.1) a.2.1 a.2.2 binding] := by
      unfold State.placeWg State.freshScratch State.wipe
      dsimp only
      rfl
    have hp : (s.placeWg part l (n0 + a.1) a.2.1 a.2.2 binding).parts = s.parts := by
      unfold State.placeWg State.freshScratch State.wipe
      dsimp only
      rfl
    refine ⟨h1.trans hp, h2.trans ?_, fun w hm => ?_⟩
    · rw [hw]; simp [Workgroup.placed]
    · rcases h3 w hm with h | h
      · rw [hw] at h
        rcases List.mem_append.1 h with h | h
        · exact .inl h
        · rw [List.mem_singleton] at h; subst h; exact .inr ⟨rfl, rfl, rfl⟩
      · exact .inr h

end Sys2Proof.Laws
end

