-- ==== Sys2Proof/Laws/Slices.lean ====
section
/-!
SUPPORT. Lemmas: clusters, slices and restored contexts (05 R105 to R110; chapter 22).
-/
namespace Sys2Proof.Laws
open Sys2Proof.Machine

theorem share_modShare {s : State} (h : s.Inv) {k : Nat} (hk : k < 28) (f : ClusterShare → ClusterShare) :
    (s.modShare k f).share k = f (s.share k) := by
  obtain ⟨h1, h2⟩ := h.dies
  have hd : k / 7 < s.dies.length := by omega
  unfold State.share State.modShare State.modDie State.die
  simp only [List.getD_eq_getElem?_getD, List.getElem?_modify, if_true, List.getElem?_eq_getElem hd, Option.map_eq_map, Option.map_some, Option.getD_some]
  have hc := (h2 _ (List.getElem_mem hd)).1
  have hm : k % 7 < (s.dies[k / 7]).clusters.length := by omega
  simp only [List.getElem?_modify, if_true, List.getElem?_eq_getElem hm, Option.map_eq_map, Option.map_some, Option.getD_some]

theorem mem_replaceBy {α : Type} (p : α → Bool) (f : α → α) {l : List α} {a : α} (h : l.find? p = some a) : f a ∈ replaceBy p f l := by
  induction l with
  | nil => exact nomatch h
  | cons x t ih =>
    rw [List.find?_cons] at h
    unfold replaceBy
    cases hx : p x with
    | true => rw [hx] at h; cases h; simp
    | false => rw [hx] at h; simp; exact .inr (ih h)

theorem find?_mapSame {α : Type} (q : α → Bool) (F : α → α) (l : List α) (h : ∀ a, q (F a) = q a) : (l.map F).find? q = (l.find? q).map F := by
  rw [List.find?_map]; congr 2; funext a; exact h a

theorem signal_stops {s : State} (hI : s.Inv) {k : Nat} (hk : k < 28) :
    (s.signal k).mem = s.mem ∧ ((s.signal k).share k).preempt = true ∧
        (∀ w ∈ (s.signal k).wgs, w ∈ s.wgs ∨ ∃ v ∈ s.wgs, w = { v with status := .stopping }) ∧
        ∀ w ∈ s.residentWgs k, w.status = .resident → (∀ v ∈ (s.signal k).wgs, v.key = w.key → v.status = .stopping) ∧
          ∀ g ∈ (s.signal k).groups, g.wgKey = w.key → ∀ sp ∈ g.splits, sp.hold ≠ .bwait ∧ sp.hold ≠ .tlwait ∧ sp.hold ≠ .event := by
  have hkey : ∀ w ∈ s.residentWgs k, w.status = .resident →
      (((s.residentWgs k).filter (fun w => w.status == .resident)).map (·.key)).contains w.key = true := by
    intro w hw hs
    rw [List.contains_eq_mem, decide_eq_true_eq]
    exact List.mem_map.2 ⟨w, List.mem_filter.2 ⟨hw, by simp [hs]⟩, rfl⟩
  refine ⟨rfl, ?_, fun w hw => ?_, fun w hw hs => ⟨fun v hv he => ?_, fun g hg he sp hsp => ?_⟩⟩
  · exact congrArg ClusterShare.preempt (share_modShare hI hk (fun c => { c with preempt := true }))
  · obtain ⟨v, hv, rfl⟩ := List.mem_map.1 hw
    split
    · exact .inr ⟨v, hv, rfl⟩
    · exact .inl hv
  · obtain ⟨u, hu, rfl⟩ := List.mem_map.1 hv
    split
    · rfl
    · next hn =>
      rw [if_neg hn] at he
      rw [he] at hn
      exact absurd (hkey w hw hs) hn
  · obtain ⟨u, hu, rfl⟩ := List.mem_map.1 hg
    split at hsp
    · obtain ⟨z, hz, rfl⟩ := List.mem_map.1 hsp
      unfold Split.stopWait Split.abandon Hold.unissued
      cases hh : z.hold <;> simp [hh]
    · next hn =>
      rw [if_neg hn] at he
      rw [he] at hn
      exact absurd (hkey w hw hs) hn

theorem dropDomain_gone (s : State) (h : Halt) : ∀ w ∈ (s.freeDomain h).wgs, h.wgs.contains w.key = false := by
  intro w hw
  have key : ∀ (L : List Workgroup) (t : State), (L.foldl (fun s w => s.modLaunch w.part w.ticket (fun l => { l with retired := l.retired + 1 })) t).wgs = t.wgs := by
    intro L
    induction L with
    | nil => intro t; rfl
    | cons a r ih => intro t; rw [List.foldl_cons, ih]; rfl
  unfold State.freeDomain State.dropWgs at hw
  dsimp only at hw
  rw [key] at hw
  obtain ⟨h1, h2⟩ := List.mem_filter.1 hw
  dsimp only at h1 h2
  cases hc : h.wgs.contains w.key with
  | false => rfl
  | true =>
    exfalso
    have : ((s.haltedWgs h).map (·.key)).contains w.key = true := by
      rw [List.contains_eq_mem, decide_eq_true_eq]
      exact List.mem_map.2 ⟨w, List.mem_filter.2 ⟨h1, hc⟩, rfl⟩
    simp [this] at h2
    exact h2 w (List.mem_filter.2 ⟨h1, hc⟩) rfl

theorem wg?_setWg {s : State} {k : Nat} {w : Workgroup} (f : Workgroup → Workgroup) (hf : ∀ g, (f g).key = g.key) (hg : s.wg? k = some w) :
    (s.modWg k f).wg? k = some (f w) := by
  unfold State.wg? State.modWg at *
  dsimp only
  rw [find?_replaceBy_self (fun w : Workgroup => w.key == k) f s.wgs (fun a ha => by rw [hf]; exact ha), hg]; rfl

theorem restore_fold (phys : Nat → Nat) (L : List Workgroup) : ∀ s : State,
    let t := L.foldl (fun s w => s.restoreWg w (phys w.key)) s
    t.dies = s.dies ∧ (∀ j, j ∉ L.map (·.key) → t.wg? j = s.wg? j) ∧
    ∀ j ∈ L.map (·.key), (s.wg? j).isSome = true → ∃ v, t.wg? j = some v ∧ v.status = .resident ∧ v.phys = phys j ∧ v.savedScratch = [] := by
  induction L with
  | nil => intro s; exact ⟨rfl, fun _ _ => rfl, fun j hj => nomatch hj⟩
  | cons a r ih =>
    intro s
    obtain ⟨h1, h2, h3⟩ := ih (s.restoreWg a (phys a.key))
    have hd : (s.restoreWg a (phys a.key)).dies = s.dies := rfl
    let f : Workgroup → Workgroup := fun w => { w with
      phys := phys a.key, status := .resident, savedScratch := [], savedTags := [], savedPoison := [], savedTiles := [], savedOps := [] }
    have hw : (s.restoreWg a (phys a.key)).wgs = replaceBy (fun w => w.key == a.key) f s.wgs := rfl
    have hself : ∀ v, s.wg? a.key = some v → (s.restoreWg a (phys a.key)).wg? a.key = some (f v) := by
      intro v hv
      have := wg?_setWg f (fun _ => rfl) hv
      unfold State.wg? at this ⊢
      rw [hw]; exact this
    have hother : ∀ j, j ≠ a.key → (s.restoreWg a (phys a.key)).wg? j = s.wg? j := by
      intro j hj
      unfold State.wg?
      rw [hw]
      exact find?_replaceBy_other _ _ f s.wgs (fun x hx => by
        have : x.key = a.key := by simpa using hx
        have : (x.key == j) = false := by simp; omega
        exact ⟨this, this⟩)
    refine ⟨h1.trans hd, fun j hj => ?_, fun j hj hs => ?_⟩
    · simp only [List.map_cons, List.mem_cons, not_or] at hj
      exact (h2 j hj.2).trans (hother j hj.1)
    · by_cases hr : j ∈ r.map (·.key)
      · refine h3 j hr ?_
        by_cases e : j = a.key
        · subst e
          obtain ⟨v, hv⟩ := Option.isSome_iff_exists.1 hs
          rw [hself v hv]; rfl
        · rw [hother j e]; exact hs
      · have e : j = a.key := by simpa [hr] using hj
        subst e
        obtain ⟨v, hv⟩ := Option.isSome_iff_exists.1 hs
        exact ⟨f v, (h2 _ hr).trans (hself v hv), rfl, rfl, rfl⟩

end Sys2Proof.Laws
end

