-- ==== Sys2Proof/Laws/Observing.lean ====
section
/-!
SUPPORT. Lemmas: partitions through calm operations; the end of a replay (chapter 23).
-/
namespace Sys2Proof.Laws
open Sys2Proof.Machine

theorem part?_modSelf {s : State} {k : Nat} (f : Partition → Partition) (hf : ∀ g, (f g).num = g.num) :
    (s.modPart k f).part? k = (s.part? k).map f := by
  unfold State.part? State.modPart at *
  exact find?_replaceBy_self (fun p : Partition => p.num == k) f s.parts (fun a ha => by rw [hf]; exact ha)

theorem part?_calm {s u : State} (hcalm : u.Calm s.placed) {part : Nat} {p : Partition} (hp : s.part? part = some p) : ∃ q, u.part? part = some q := by
  have hps := congrArg (fun G : Placed => G.2.2.2.1.map (·.1)) hcalm
  simp only [State.placed, List.map_map] at hps
  rw [← Option.isSome_iff_exists]
  have h0 : (s.part? part).isSome = true := by rw [hp]; rfl
  unfold State.part? at h0 ⊢
  rw [List.find?_isSome] at h0 ⊢
  obtain ⟨x, hx, he⟩ := h0
  have hmx : part ∈ s.parts.map (fun x => x.num) := List.mem_map.2 ⟨x, hx, by simpa using he⟩
  have hps' : u.parts.map (fun x => x.num) = s.parts.map (fun x => x.num) := hps
  rw [← hps'] at hmx
  obtain ⟨y, hy, hye⟩ := List.mem_map.1 hmx
  exact ⟨y, hy, by simpa using hye⟩

theorem resume_part? (s : State) (n m : Nat) : (s.resumePart n).part? m = s.part? m := rfl

theorem reportStop_calm {G : Placed} (s : State) (part : Nat) (r : ErrorRecord) (h : s.Calm G) : (s.reportStop part r).Calm G := by
  have h1 := State.record_calm s r h
  unfold State.reportStop
  dsimp only
  have h2 : ∀ (c : Prop) [Decidable c] p x y, (if c then (s.record r).ringPut p x y else s.record r).Calm G := fun c _ p x y =>
    calm_ite (State.ringPut_calm _ _ _ _ h1) h1
  exact calm_ite (State.snapTrigger_calm _ (h2 _ _ _ _)) (h2 _ _ _ _)

theorem stopPart_replay (s : State) (part : Nat) (site : Option (Word × Word)) (n : Nat) : (s.stopPart part site).replayOf n = s.replayOf n := by
  unfold State.stopPart State.beginStop
  split
  · rfl
  · exact calm_replayOf (s := s) (t := s.reportStop part _) (reportStop_calm s part _ rfl) n

theorem diverge_ends (s : State) (part home seq ticket wg group lane : Nat) (addr : DWord) (r : Replay) (h : s.replayOf part = some r) :
    (s.diverge part home seq ticket wg group lane addr).replayOf part = none := by
  unfold State.diverge
  rw [h]
  dsimp only
  have key : ∀ (u : State) (b : Bool), ((u.modPart part (fun p => { p with replay := none, logOff := p.logOff || b })).part? part).bind (·.replay) = none := by
    intro u b
    rw [part?_modSelf (fun p : Partition => { p with replay := none, logOff := p.logOff || b }) (fun _ => rfl)]
    cases u.part? part <;> rfl
  split
  · exact key _ _
  · rw [stopPart_replay]; exact key _ _

end Sys2Proof.Laws
end

