-- ==== Sys2Proof/Laws/Recalls.lean ====
section
/-!
SUPPORT. Lemmas: requests, recalls and evictions (20 R366 to R381).
-/
namespace Sys2Proof.Laws
open Sys2Proof.Machine

/-- What a request or a recall leaves: the bytes, the tags, and the words that are not registered. -/
structure Recalled (s t : State) : Prop where
  mem : t.mem = s.mem
  tags : t.tags = s.tags
  poison : t.poison = s.poison
  wgs : t.wgs = s.wgs
  parts : t.parts = s.parts
  l1 : ∀ c, ∀ w ∈ (t.core c).l1, ∃ v ∈ (s.core c).l1, v.key = w.key ∧ (v.st ≠ .registered → w = v)

theorem rc_refl (s : State) : Recalled s s := ⟨rfl, rfl, rfl, rfl, rfl, fun _ w h => ⟨w, h, rfl, fun _ => rfl⟩⟩

theorem rc_same {s t : State} (h1 : t.mem = s.mem) (h2 : t.tags = s.tags) (h3 : t.poison = s.poison) (h4 : t.wgs = s.wgs) (h5 : t.parts = s.parts) (h : t.cores = s.cores) :
    Recalled s t := ⟨h1, h2, h3, h4, h5, fun c w hw => ⟨w, by unfold State.core at hw ⊢; rw [← h]; exact hw, rfl, fun _ => rfl⟩⟩

theorem rc_trans {s t u : State} (h : Recalled s t) (h' : Recalled t u) : Recalled s u := by
  refine ⟨h'.mem.trans h.mem, h'.tags.trans h.tags, h'.poison.trans h.poison, h'.wgs.trans h.wgs, h'.parts.trans h.parts, fun c w hw => ?_⟩
  obtain ⟨v, v1, v2, v3⟩ := h'.l1 c w hw
  obtain ⟨z, z1, z2, z3⟩ := h.l1 c v v1
  refine ⟨z, z1, z2.trans v2, fun hz => ?_⟩
  have e := z3 hz
  subst e; exact v3 hz

theorem rc_fold {α : Type} {f : State → α → State} (hf : ∀ (s : State) (a : α), Recalled s (f s a)) (l : List α) (s : State) : Recalled s (l.foldl f s) := by
  induction l generalizing s with
  | nil => exact rc_refl s
  | cons a t ih => exact rc_trans (hf s a) (ih _)

theorem rc_dropLine (s : State) (core : Nat) (l : List Nat) : Recalled s (s.dropLineResv core l) := by
  unfold State.dropLineResv; split <;> exact rc_same rfl rfl rfl rfl rfl rfl

theorem assocGet_mapped {f : Nat → Core → Core} (hf : ∀ k, (f k Core.reset).l1 = []) (k : Nat) (l : Assoc Core) :
    ∀ w ∈ (assocGet Core.reset k (l.map (fun x => (x.1, f x.1 x.2)))).l1, w ∈ (f k (assocGet Core.reset k l)).l1 := by
  induction l with
  | nil => intro w hw; exact nomatch hw
  | cons x t ih =>
    intro w hw
    simp only [List.map_cons, assocGet] at hw ⊢
    split at hw
    · next h => subst h; rw [if_pos rfl]; exact hw
    · next h => rw [if_neg h]; exact ih w hw

theorem rc_recallLines (s : State) (holder lo n : Nat) (a b : Bool) : Recalled s (s.recallLines holder lo n a b) ∧
    (holder < 4 → ∀ c w, coreDie c = holder → w ∈ ((s.recallLines holder lo n a b).core c).l1 → lo ≤ w.key / 32 → w.key / 32 < lo + n → w.st ≠ .registered) := by
  unfold State.recallLines
  split
  · exact ⟨rc_refl s, fun h => absurd h (by omega)⟩
  · dsimp only
    generalize hu : (if a = true then s.cancelSlice holder lo n b else _) = u
    have h0 : Recalled s (s.cancelSlice holder lo n b) := rc_same rfl rfl rfl rfl rfl rfl
    have h1 : Recalled s u := by
      rw [← hu]; split
      · exact h0
      · refine rc_trans h0 (rc_fold (fun s kc => ?_) _ _)
        split
        · exact rc_dropLine ..
        · exact rc_refl _
    let inRun := fun (w : L1Word) => decide (lo ≤ w.key / 32) && decide (w.key / 32 < lo + n)
    let f : Nat → Core → Core := fun k c => if coreDie k == holder && c.l1.any inRun then
          { c with l1 := c.l1.filterMap (fun w =>
            if inRun w && w.st == .registered then (if a then some { w with st := .valid, dirty := 0 } else none) else some w) } else c
    have hcore : ∀ k, ∀ w ∈ (State.core { u with cores := u.cores.map (fun x => (x.1, f x.1 x.2)) } k).l1, w ∈ (f k (u.core k)).l1 := by
      intro k
      exact assocGet_mapped (f := f) (fun k => by dsimp only [f]; split <;> rfl) k u.cores
    have hin : ∀ k w, w ∈ (f k (u.core k)).l1 → (∃ v ∈ (u.core k).l1, v.key = w.key ∧ (v.st ≠ .registered → w = v)) ∧
        (coreDie k = holder → inRun w = true → w.st ≠ .registered) := by
      intro k w hw
      dsimp only [f] at hw
      split at hw
      · rw [List.mem_filterMap] at hw
        obtain ⟨v, hv, he⟩ := hw
        split at he
        · next hc =>
          rw [Bool.and_eq_true] at hc
          split at he
          · cases he; exact ⟨⟨v, hv, rfl, fun h => absurd (by simpa using hc.2) h⟩, fun _ _ => by simp⟩
          · exact nomatch he
        · next hc =>
          cases he
          refine ⟨⟨_, hv, rfl, fun _ => rfl⟩, fun _ hr hs => hc ?_⟩
          simp [hr, hs]
      · next hc =>
        refine ⟨⟨w, hw, rfl, fun _ => rfl⟩, fun hd hr hs => hc ?_⟩
        rw [Bool.and_eq_true]
        exact ⟨by simpa using hd, List.any_eq_true.2 ⟨w, hw, hr⟩⟩
    have e : (u.cores.map (fun (k, c) =>
        if coreDie k == holder && c.l1.any inRun then
          (k, { c with l1 := c.l1.filterMap (fun w =>
            if inRun w && w.st == .registered then (if a then some { w with st := .valid, dirty := 0 } else none)
            else some w) })
        else (k, c))) = u.cores.map (fun x => (x.1, f x.1 x.2)) := by
      refine List.map_congr_left fun x _ => ?_
      dsimp only [f]
      split <;> rfl
    refine ⟨rc_trans h1 ⟨rfl, rfl, rfl, rfl, rfl, fun c w hw => ?_⟩, fun _ c w hd hw h1 h2 => ?_⟩
    · have hw' : w ∈ (State.core { u with cores := u.cores.map (fun x => (x.1, f x.1 x.2)) } c).l1 := by rw [← e]; exact hw
      exact (hin c w (hcore c w hw')).1
    · have hw' : w ∈ (State.core { u with cores := u.cores.map (fun x => (x.1, f x.1 x.2)) } c).l1 := by rw [← e]; exact hw
      exact (hin c w (hcore c w hw')).2 hd (by simp [inRun, h1, h2])

theorem rc_count (s : State) (d p : Nat) f : Recalled s (s.count d p f) := rc_same rfl rfl rfl rfl rfl rfl

theorem rc_recallNode (s : State) (homeD holder : Nat) (n : Node) (b : Bool) : Recalled s (s.recallNode homeD holder n b) := by
  unfold State.recallNode; dsimp only
  split
  · exact rc_trans (rc_trans (rc_recallLines ..).1 (rc_count ..)) (rc_count ..)
  · exact rc_trans (rc_recallLines ..).1 (rc_count ..)

theorem rc_dir (s : State) (h : Nat) (own : Bool) (line : Nat) : Recalled s (s.dirRequest h own line) := by
  unfold State.dirRequest
  dsimp only
  generalize ((s.die (homeDie (line * 128))).node? line).getD ((s.die (homeDie (line * 128))).freshNode line) = n0
  generalize hsn : (if (n0.st != NodeState.u && n0.hold != holderBit h && (s.die (homeDie (line * 128))).splitEn &&
    decide (n0.size > 0)) = true then s.splitNode (homeDie (line * 128)) n0 line else (s, n0)) = sn
  have hs : Recalled s sn.1 := by
    rw [← hsn]; split
    · exact rc_same rfl rfl rfl rfl rfl rfl
    · exact rc_refl s
  refine rc_trans hs ?_
  have put : ∀ (u : State) (p : Prop) [Decidable p] (f g : Die → Die), Recalled u (if p then u.modDie (homeDie (line * 128)) f else u.modDie (homeDie (line * 128)) g) := by
    intro u p _ f g; split <;> exact rc_same rfl rfl rfl rfl rfl rfl
  split
  · exact put ..
  · exact put ..
  · exact put ..
  · exact put ..
  · split
    · exact rc_refl _
    · exact rc_trans (rc_fold (fun _ _ => rc_recallNode ..) _ _) (put ..)
  · split
    · exact rc_refl _
    · exact rc_trans (rc_fold (fun _ _ => rc_recallNode ..) _ _) (put ..)

theorem rc_own (s : State) (die line : Nat) : Recalled s (s.own die line) := by
  unfold State.own; split
  · exact rc_refl s
  · exact rc_dir ..

theorem rc_collect (s : State) (k : Nat) b : Recalled s (s.collect k b) := by
  have one : ∀ (s : State) (a : Nat), Recalled s (s.modCore a (fun x => x.dropWord k)) := by
    intro s a
    refine ⟨rfl, rfl, rfl, rfl, rfl, fun c w hw => ?_⟩
    rw [State.core_modCore] at hw
    split at hw
    · next h => subst h; exact ⟨w, (List.mem_filter.1 hw).1, rfl, fun _ => rfl⟩
    · exact ⟨w, hw, rfl, fun _ => rfl⟩
  unfold State.collect
  exact rc_fold one _ _

theorem collect_word (s : State) (k : Nat) (core c : Nat) (x : L1Word) (hc : c ≠ core)
    (h : ((s.collect k (some core)).core c).word? k = some x) : x.st ≠ .registered := by
  have fold : ∀ (L : List Nat) (u : State) (j : Nat), ((L.foldl (fun s c => s.modCore c (fun x => x.dropWord k)) u).core j).word? k =
      if j ∈ L then none else (u.core j).word? k := by
    intro L
    induction L with
    | nil => intro u j; rfl
    | cons a r ih =>
      intro u j
      rw [List.foldl_cons, ih, State.core_modCore]
      by_cases hj : j ∈ r
      · simp [hj]
      · by_cases ha : j = a
        · subst ha; simp [hj, Core.word?_dropWord]
        · simp [hj, ha]
  unfold State.collect at h
  rw [fold] at h
  split at h
  · exact nomatch h
  · next hn =>
    intro hs
    apply hn
    have hm := List.mem_of_find?_eq_some h
    have hk : x.key = k := by have := List.find?_some (p := fun (w : L1Word) => w.key == k) h; simpa using this
    rcases assocGet_mem Core.reset c s.cores with he | he
    · have : s.core c = Core.reset := he
      rw [this] at hm; exact nomatch hm
    · refine List.mem_map.2 ⟨(c, s.core c), List.mem_filter.2 ⟨he, ?_⟩, rfl⟩
      have h1 : (s.core c).l1.any (fun w => w.key == k && w.st == .registered) = true := List.any_eq_true.2 ⟨x, hm, by simp [hk, hs]⟩
      rw [show ((c, s.core c) : Nat × Core).2 = s.core c from rfl, h1]
      simpa using hc

/-- The bytes that words registered or evicted together put at the slices. -/
def regBytes (s : State) (ws : List L1Word) : List (Nat × Byte) :=
  ws.flatMap (fun x => maskedBytes x.key (mergeNibbles (s.sliceWord x.key) x.data x.nibs) x.dirty)

theorem regBytes_congr {s t : State} (h : t.mem = s.mem) (ws : List L1Word) : regBytes t ws = regBytes s ws := by
  unfold regBytes State.sliceWord State.num State.bytes State.byte; rw [h]

/-- The state of words that are registered, before the L1 changes. -/
def regBase (u : State) (core k : Nat) (tag : Bool) (ws : List L1Word) : State :=
  let bs := regBytes u ws
  let v := (u.putBytes bs).cancelOthers core (bs.map (·.1))
  if tag then v.tagKeys [4 * k] else v

theorem regBase_cores (u : State) (core k : Nat) (tag : Bool) (ws : List L1Word) : (regBase u core k tag ws).cores = u.cores := by
  unfold regBase; dsimp only; split <;> rfl

theorem regBase_byte (u : State) (core k : Nat) (tag : Bool) (ws : List L1Word) (j : Nat) :
    (regBase u core k tag ws).byte j = writeIn u.byte (regBytes u ws) j := by
  rw [← putBytes_byte]
  unfold regBase; dsimp only; split <;> rfl

theorem unit_mem {c : Core} {w x : L1Word} (h : x ∈ c.unitOf w) : x.key / 4 = w.key / 4 ∧ c.word? x.key = some x ∧ x.st = .dirty := by
  unfold Core.unitOf at h
  obtain ⟨k, hk, he⟩ := List.mem_filterMap.1 h
  unfold granuleWords at hk
  obtain ⟨i, hi, rfl⟩ := List.mem_map.1 hk
  have := List.mem_range.1 hi
  generalize hj : w.key / 4 * 4 + i = j at he
  cases hy : c.word? j with
  | none => rw [hy] at he; exact nomatch he
  | some y =>
    rw [hy] at he
    have hc := Option.ite_none_right_eq_some.1 he
    obtain ⟨hc, rfl⟩ := (⟨hc.1, Option.some.inj hc.2⟩ : _ ∧ y = x)
    have hkey : y.key = j := by have := List.find?_some (p := fun (v : L1Word) => v.key == j) hy; simpa using this
    refine ⟨by omega, by rw [hkey]; exact hy, ?_⟩
    cases hs : y.st <;> simp [hs] at hc ⊢ 

theorem unit_self {c : Core} {k : Nat} {w : L1Word} (hw : c.word? k = some w) (hd : w.st = .dirty) : w ∈ c.unitOf w := by
  have hkey : w.key = k := by have := List.find?_some (p := fun (v : L1Word) => v.key == k) hw; simpa using this
  unfold Core.unitOf
  refine List.mem_filterMap.2 ⟨k, ?_, ?_⟩
  · unfold granuleWords; exact List.mem_map.2 ⟨k % 4, List.mem_range.2 (by omega), by rw [hkey]; omega⟩
  · rw [hw]
    dsimp only
    rw [if_pos]
    simp only [hd, beq_self_eq_true, Bool.true_and]
    cases w.tag <;> simp

theorem register_eq {s : State} {core k : Nat} {w : L1Word} (hw : (s.core core).word? k = some w) (hd : w.st = .dirty) (e : Bool) :
    let u := (s.core core).unitOf w
    let v := regBase (u.foldl (fun s x => s.collect x.key (some core)) (s.own (coreDie core) (k / 32))) core k w.tag u
    s.registerWord core k e = if e then v.modCore core (fun c => u.foldl (fun c x => c.dropWord x.key) c)
      else (v.modCore core (fun c => u.foldl (fun c x => c.putWord { x with st := .registered }) c)).count
        (coreDie core) w.part (fun c => { c with regs := sat48 (c.regs + u.length) }) := by
  unfold State.registerWord
  rw [hw]
  dsimp only
  rw [if_pos hd]
  rfl

theorem rc_collects (core : Nat) (l : List L1Word) (s : State) : Recalled s (l.foldl (fun s x => s.collect x.key (some core)) s) :=
  rc_fold (fun s x => rc_collect s x.key (some core)) l s

theorem collects_word (core c : Nat) (hc : c ≠ core) (l : List L1Word) : ∀ (s : State), ∀ y ∈ l, ∀ x : L1Word,
    ((l.foldl (fun s x => s.collect x.key (some core)) s).core c).word? y.key = some x → x.st ≠ .registered := by
  have later : ∀ (l : List L1Word) (s : State) (k : Nat), (∀ x ∈ (s.core c).l1, x.key = k → x.st ≠ .registered) →
      ∀ x ∈ ((l.foldl (fun s x => s.collect x.key (some core)) s).core c).l1, x.key = k → x.st ≠ .registered := by
    intro l s k h x hx hk
    obtain ⟨v, hv, he, h3⟩ := (rc_collects core l s).l1 c x hx
    have hv' := h v hv (he.trans hk)
    rw [h3 hv']; exact hv'
  induction l with
  | nil => intro s y hy; exact nomatch hy
  | cons a t ih =>
    intro s y hy x hx
    rw [List.foldl_cons] at hx
    rcases List.mem_cons.1 hy with rfl | hy
    · have hm := List.mem_of_find?_eq_some hx
      have hk : x.key = y.key := by have := List.find?_some (p := fun (w : L1Word) => w.key == y.key) hx; simpa using this
      refine later t _ y.key (fun z hz hzk => ?_) x hm hk
      intro hreg
      -- every word of that key is dropped where it is registered
      have fold : ∀ (L : List Nat) (u : State), ∀ z ∈ ((L.foldl (fun s c => s.modCore c (fun x => x.dropWord y.key)) u).core c).l1,
          z ∈ (u.core c).l1 ∧ (c ∈ L → z.key ≠ y.key) := by
        intro L
        induction L with
        | nil => intro u z hz; exact ⟨hz, nofun⟩
        | cons b r ihr =>
          intro u z hz
          obtain ⟨h1, h2⟩ := ihr _ z hz
          rw [State.core_modCore] at h1
          split at h1
          · next hb => subst hb; obtain ⟨p, q⟩ := List.mem_filter.1 h1; exact ⟨p, fun _ => by simpa using q⟩
          · next hb => exact ⟨h1, fun hm => by rcases List.mem_cons.1 hm with e | e; exact absurd e hb; exact h2 e⟩
      unfold State.collect at hz
      obtain ⟨h1, h2⟩ := fold _ _ z hz
      refine h2 ?_ hzk
      rcases assocGet_mem Core.reset c s.cores with he | he
      · have : s.core c = Core.reset := he
        rw [this] at h1; exact nomatch h1
      · refine List.mem_map.2 ⟨(c, s.core c), List.mem_filter.2 ⟨he, ?_⟩, rfl⟩
        have h3 : (s.core c).l1.any (fun w => w.key == y.key && w.st == .registered) = true := List.any_eq_true.2 ⟨z, h1, by simp [hzk, hreg]⟩
        rw [show ((c, s.core c) : Nat × Core).2 = s.core c from rfl, h3]
        simpa using hc
    · exact ih _ y hy x hx

theorem register_dirty {s : State} {core k : Nat} {w : L1Word} (hw : (s.core core).word? k = some w) (hd : w.st = .dirty) (e : Bool) :
    ∃ v : State, (∀ j, v.byte j = writeIn s.byte (regBytes s ((s.core core).unitOf w)) j) ∧
      (∀ c, ∀ x ∈ (v.core c).l1, ∃ z ∈ (s.core c).l1, z.key = x.key) ∧
      (∀ c x, c ≠ core → ∀ y ∈ (s.core core).unitOf w, (v.core c).word? y.key = some x → x.st ≠ .registered) ∧
      s.registerWord core k e = if e then v.modCore core (fun c => ((s.core core).unitOf w).foldl (fun c x => c.dropWord x.key) c)
      else (v.modCore core (fun c => ((s.core core).unitOf w).foldl (fun c x => c.putWord { x with st := .registered }) c)).count (coreDie core) w.part
        (fun c => { c with regs := sat48 (c.regs + ((s.core core).unitOf w).length) }) := by
  have h1 := rc_trans (rc_own s (coreDie core) (k / 32)) (rc_collects core ((s.core core).unitOf w) (s.own (coreDie core) (k / 32)))
  have h2 := fun c hc => collects_word core c hc ((s.core core).unitOf w) (s.own (coreDie core) (k / 32))
  have hr := register_eq hw hd e
  dsimp only at hr
  generalize ((s.core core).unitOf w).foldl (fun s x => s.collect x.key (some core)) (s.own (coreDie core) (k / 32)) = u at h1 h2 hr
  have hcore : ∀ c, (regBase u core k w.tag ((s.core core).unitOf w)).core c = u.core c := by
    intro c; unfold State.core; rw [regBase_cores]
  refine ⟨regBase u core k w.tag ((s.core core).unitOf w), ?_, ?_, ?_, hr⟩
  · intro j
    have : ∀ j, u.byte j = s.byte j := fun j => by unfold State.byte; rw [h1.mem]
    refine (regBase_byte u core k w.tag _ j).trans ?_
    rw [regBytes_congr h1.mem]
    exact writeIn_congr this _ j
  · intro c x hx
    rw [hcore] at hx
    obtain ⟨z, hz, he, _⟩ := h1.l1 c x hx
    exact ⟨z, hz, he⟩
  · intro c x hc y hy hx
    rw [hcore] at hx
    exact h2 c hc y hy x hx

theorem mem_dropWords {ks : List L1Word} {c : Core} {x : L1Word} (h : x ∈ (ks.foldl (fun c y => c.dropWord y.key) c).l1) :
    x ∈ c.l1 ∧ ∀ y ∈ ks, x.key ≠ y.key := by
  induction ks generalizing c with
  | nil => exact ⟨h, nofun⟩
  | cons a t ih =>
    obtain ⟨h1, h2⟩ := ih h
    obtain ⟨h3, h4⟩ := List.mem_filter.1 h1
    refine ⟨h3, fun y hy => ?_⟩
    rcases List.mem_cons.1 hy with rfl | hy
    · simpa using h4
    · exact h2 y hy

theorem register_evict (s : State) (core k : Nat) :
    (∀ x ∈ ((s.registerWord core k true).core core).l1, x.key ≠ k ∧ ∃ z ∈ (s.core core).l1, z.key = x.key) ∧
    ∀ j, j / 16 ≠ k / 4 → (s.registerWord core k true).byte j = s.byte j := by
  cases hw : (s.core core).word? k with
  | none =>
    have : s.registerWord core k true = s := by unfold State.registerWord; rw [hw]
    rw [this]
    refine ⟨fun x hx => ⟨fun h => ?_, x, hx, rfl⟩, fun _ _ => rfl⟩
    have := List.find?_eq_none.1 hw x hx
    simp [h] at this
  | some w =>
    have hkey : w.key = k := by have := List.find?_some (p := fun (v : L1Word) => v.key == k) hw; simpa using this
    by_cases hd : w.st = .dirty
    · obtain ⟨v, v1, v2, v3, v4⟩ := register_dirty hw hd true
      rw [v4, if_pos rfl]
      refine ⟨fun x hx => ?_, fun j hj => ?_⟩
      · rw [State.core_modCore, if_pos rfl] at hx
        obtain ⟨a, b⟩ := mem_dropWords hx
        exact ⟨by rw [← hkey]; exact b w (unit_self hw hd), v2 core x a⟩
      · refine (v1 j).trans (writeIn_ne _ _ _ fun y hy => ?_)
        unfold regBytes maskedBytes at hy
        obtain ⟨x, hx, hy⟩ := List.mem_flatMap.1 hy
        obtain ⟨i, hi, rfl⟩ := List.mem_map.1 hy
        have := List.mem_range.1 (List.mem_filter.1 hi).1
        have := (unit_mem hx).1
        dsimp only; omega
    · have : s.registerWord core k true = s.modCore core (fun c => c.dropWord k) := by
        unfold State.registerWord; rw [hw]; dsimp only; rw [if_neg hd, if_pos rfl]
      rw [this]
      refine ⟨fun x hx => ?_, fun _ _ => rfl⟩
      rw [State.core_modCore, if_pos rfl] at hx
      obtain ⟨a, b⟩ := List.mem_filter.1 hx
      exact ⟨by simpa using b, x, a, rfl⟩

theorem evict_line (core line : Nat) (ks : List Nat) (hk : ∀ k ∈ ks, k / 32 = line) : ∀ s : State,
    let t := ks.foldl (fun s k => s.registerWord core k true) s
    (∀ x ∈ (t.core core).l1, x.key ∉ ks ∧ ∃ z ∈ (s.core core).l1, z.key = x.key) ∧ ∀ j, j / 128 ≠ line → t.byte j = s.byte j := by
  induction ks with
  | nil => intro s; exact ⟨fun x hx => ⟨by simp, x, hx, rfl⟩, fun _ _ => rfl⟩
  | cons a r ih =>
    intro s
    obtain ⟨i1, i2⟩ := ih (fun k h => hk k (List.mem_cons_of_mem _ h)) (s.registerWord core a true)
    obtain ⟨r1, r2⟩ := register_evict s core a
    refine ⟨fun x hx => ?_, fun j hj => ?_⟩
    · obtain ⟨h1, z, hz, he⟩ := i1 x hx
      obtain ⟨h2, y, hy, hye⟩ := r1 z hz
      refine ⟨?_, y, hy, hye.trans he⟩
      rw [List.mem_cons, not_or]; exact ⟨he ▸ h2, h1⟩
    · refine (i2 j hj).trans (r2 j ?_)
      have := hk a (List.mem_cons_self ..)
      omega

theorem die_modDie (s : State) (d e : Nat) (f : Die → Die) :
    (s.modDie d f).die e = if d = e ∧ e < s.dies.length then f (s.die e) else s.die e := by
  unfold State.die State.modDie
  simp only [List.getD_eq_getElem?_getD, List.getElem?_modify, Option.map_eq_map]
  by_cases h : e < s.dies.length
  · rw [List.getElem?_eq_getElem h]
    by_cases hd : d = e <;> simp [hd, h]
  · rw [List.getElem?_eq_none (by omega)]
    simp [h]

theorem modDie_nodes (s : State) (d e : Nat) (f : Die → Die) (hf : ∀ x, (f x).nodes = x.nodes) : ((s.modDie d f).die e).nodes = (s.die e).nodes := by
  rw [die_modDie]; split
  · exact hf _
  · rfl

theorem recallLines_dies (u : State) (lo' : Nat) (lo k : Nat) (a b : Bool) : (u.recallLines lo' lo k a b).dies = u.dies := by
  unfold State.recallLines
  split
  · rfl
  · dsimp only
    split
    · rfl
    · have : ∀ (L : List (Nat × Core)) (v : State), (L.foldl (fun s (kc : Nat × Core) =>
          if coreDie kc.1 == lo' then
            s.dropLineResv kc.1 (uniq ((kc.2.l1.filter (fun w => decide (lo ≤ w.key / 32) && decide (w.key / 32 < lo + k) && w.st == .registered)).map (·.key / 32)))
          else s) v).dies = v.dies := by
        intro L
        induction L with
        | nil => intro v; rfl
        | cons x r ih =>
          intro v
          rw [List.foldl_cons, ih]
          split
          · unfold State.dropLineResv; split <;> rfl
          · rfl
      exact this _ _

theorem count_nodes (s : State) (d p e : Nat) (f : CohCounters → CohCounters) : ((s.count d p f).die e).nodes = (s.die e).nodes :=
  modDie_nodes s d e _ fun _ => rfl

theorem recallNode_dies (s : State) (homeD holder : Nat) (n : Node) (b : Bool) :
    (∀ e, ((s.recallNode homeD holder n b).die e).nodes = (s.die e).nodes) ∧ (s.recallNode homeD holder n b).dies.length = s.dies.length := by
  have hl := recallLines_dies
  have hc : ∀ (u : State) d p f, (∀ e, ((u.count d p f).die e).nodes = (u.die e).nodes) ∧ (u.count d p f).dies.length = u.dies.length := by
    intro u d p f
    refine ⟨fun e => modDie_nodes u d e _ fun x => rfl, ?_⟩
    unfold State.count State.modDie; simp
  have h0 : ∀ e, ((s.recallLines holder n.base (2 ^ n.size) b (holder == homeD)).die e).nodes = (s.die e).nodes := by
    intro e; unfold State.die; rw [hl]
  unfold State.recallNode
  dsimp only
  split
  · refine ⟨fun e => ((hc _ _ _ _).1 e).trans (((hc _ _ _ _).1 e).trans (h0 e)), ?_⟩
    rw [(hc _ _ _ _).2, (hc _ _ _ _).2, hl]
  · refine ⟨fun e => ((hc _ _ _ _).1 e).trans (h0 e), ?_⟩
    rw [(hc _ _ _ _).2, hl]

theorem recalls_dies (home : Nat) (n : Node) (b : Bool) (L : List Nat) : ∀ s : State,
    (∀ e, ((L.foldl (fun s g => s.recallNode home g n b) s).die e).nodes = (s.die e).nodes) ∧ (L.foldl (fun s g => s.recallNode home g n b) s).dies.length = s.dies.length := by
  induction L with
  | nil => intro s; exact ⟨fun _ => rfl, rfl⟩
  | cons a r ih =>
    intro s
    obtain ⟨h1, h2⟩ := ih (s.recallNode home a n b)
    obtain ⟨g1, g2⟩ := recallNode_dies s home a n b
    exact ⟨fun e => (h1 e).trans (g1 e), h2.trans g2⟩

theorem mem_insertBy_self {α : Type} (key : α → Nat) (x : α) (l : List α) : x ∈ insertBy key x l := by
  induction l with
  | nil => simp [insertBy]
  | cons y t ih => unfold insertBy; split <;> simp [ih]

theorem put_node {s : State} {home line : Nat} (hl : home < s.dies.length) (m : Node) (f : Die → Die) (hf : (f (s.die home)).nodes = ((s.die home).putNode m).nodes)
    (hm : m.covers line = true) (hu : ∀ x ∈ (s.die home).nodes, x.covers line = true → x.base = m.base) :
    ((s.modDie home f).die home).node? line = some m := by
  rw [die_modDie, if_pos ⟨rfl, hl⟩]
  unfold Die.node?
  rw [hf]
  unfold Die.putNode
  dsimp only
  have hz : ∀ y ∈ (s.die home).nodes.filter (fun x => !(m.base ≤ x.base && x.base < m.base + 2 ^ m.size)), y.covers line = true → False := by
    intro y hy hc
    obtain ⟨a, b⟩ := List.mem_filter.1 hy
    rw [hu y a hc] at b
    have : 0 < 2 ^ m.size := Nat.two_pow_pos _
    simp at b
  rw [find?_insertBy (·.base) m (fun n => n.covers line) _ (fun y hy hc => absurd (hz y hy hc) (by simp)) (fun y hy he => ?_), if_pos hm]
  obtain ⟨a, b⟩ := List.mem_filter.1 hy
  have : 0 < 2 ^ m.size := Nat.two_pow_pos _
  simp [he] at b

theorem dir_put {s : State} {home line : Nat} (hl : home < s.dies.length) (n : Node) (st : NodeState) (hold : BitVec 5)
    (hm : n.covers line = true) (hu : ∀ x ∈ (s.die home).nodes, x.covers line = true → x.base = n.base) :
    ∃ m, ((if n.st = st && n.hold = hold then s.modDie home (fun d => d.putNode n)
      else s.modDie home (fun d => d.putNode { n with st := st, hold := hold, changed := d.cycle })).die home).node? line = some m ∧
      m.base = n.base ∧ m.size = n.size ∧ m.st = st ∧ m.hold = hold := by
  split
  · next h =>
    simp only [Bool.and_eq_true, decide_eq_true_eq] at h
    exact ⟨n, put_node hl n _ rfl hm hu, rfl, rfl, h.1, h.2⟩
  · exact ⟨{ n with st := st, hold := hold, changed := (s.die home).cycle }, put_node hl _ _ rfl hm hu, rfl, rfl, rfl, rfl⟩

theorem dir_answer {s : State} (hI : s.Inv) (holder line : Nat) (own : Bool) (n : Node)
    (hn : (s.die (homeDie (line * 128))).nodes.find? (fun n => n.covers line) = some n)
    (hu : ∀ x ∈ (s.die (homeDie (line * 128))).nodes, x.covers line = true → x.base = n.base)
    (hc : n.st = .u ∨ n.hold = holderBit holder ∨ (s.die (homeDie (line * 128))).splitEn = false ∨ n.size = 0) :
    ∃ m, ((s.dirRequest holder own line).die (homeDie (line * 128))).node? line = some m ∧ m.base = n.base ∧ m.size = n.size ∧
      m.st = (if own = true ∨ n.st = .o ∧ n.hold = holderBit holder then .o else .s) ∧
      m.hold = if own = true ∨ n.st = .u then holderBit holder else n.hold ||| holderBit holder := by
  have hlt : homeDie (line * 128) < s.dies.length := by
    rw [hI.dies.1]; unfold homeDie; split <;> omega
  generalize hhome : homeDie (line * 128) = home at *
  have hm : n.covers line = true := List.find?_some (p := fun (n : Node) => n.covers line) hn
  have hconf : (n.st != .u && n.hold != holderBit holder && (s.die home).splitEn && decide (n.size > 0)) = false := by
    rcases hc with h | h | h | h <;> simp [h]
  have hnode : (s.die home).node? line = some n := hn
  unfold State.dirRequest
  simp only [hhome, hnode, Option.getD_some, hconf, Bool.false_eq_true, if_false]
  have later : ∀ (b : Bool) (L : List Nat), home < (L.foldl (fun s g => s.recallNode home g n b) s).dies.length ∧
      ∀ x ∈ ((L.foldl (fun s g => s.recallNode home g n b) s).die home).nodes, x.covers line = true → x.base = n.base := by
    intro b L
    obtain ⟨h1, h2⟩ := recalls_dies home n b L s
    exact ⟨by rw [h2]; exact hlt, by rw [h1]; exact hu⟩
  cases hst : n.st <;> cases own <;> dsimp only
  · obtain ⟨m, e, a, b, c, d⟩ := dir_put hlt n .s (holderBit holder) hm hu
    rw [hst] at e; exact ⟨m, e, a, b, by rw [c]; simp, by rw [d]; simp⟩
  · obtain ⟨m, e, a, b, c, d⟩ := dir_put hlt n .o (holderBit holder) hm hu
    rw [hst] at e; exact ⟨m, e, a, b, by rw [c]; simp, by rw [d]; simp⟩
  · obtain ⟨m, e, a, b, c, d⟩ := dir_put hlt n .s (n.hold ||| holderBit holder) hm hu
    rw [hst] at e; exact ⟨m, e, a, b, by rw [c]; simp, by rw [d]; simp⟩
  · obtain ⟨m, e, a, b, c, d⟩ := dir_put hlt n .o (holderBit holder) hm hu
    rw [hst] at e; exact ⟨m, e, a, b, by rw [c]; simp, by rw [d]; simp⟩
  · by_cases hh : n.hold = holderBit holder
    · rw [if_pos hh]
      exact ⟨n, hnode, rfl, rfl, by simp [hst, hh], by simp [hst, hh]⟩
    · rw [if_neg hh]
      obtain ⟨q1, q2⟩ := later true (n.others holder)
      obtain ⟨m, e, a, b, c, d⟩ := dir_put q1 n .s (n.hold ||| holderBit holder) hm q2
      rw [hst] at e; exact ⟨m, e, a, b, by rw [c]; simp [hh], by rw [d]; simp⟩
  · by_cases hh : n.hold = holderBit holder
    · rw [if_pos hh]
      exact ⟨n, hnode, rfl, rfl, by simp [hst], by simp [hh]⟩
    · rw [if_neg hh]
      obtain ⟨q1, q2⟩ := later false (n.others holder)
      obtain ⟨m, e, a, b, c, d⟩ := dir_put q1 n .o (holderBit holder) hm q2
      rw [hst] at e; exact ⟨m, e, a, b, by rw [c]; simp, by rw [d]; simp⟩

theorem outerBytes_byte (s : State) (pa : Nat) (bs : List Byte) (k : Nat) :
    (s.outerBytes pa bs).byte k = writeIn s.byte ((List.range bs.length).zip bs |>.map (fun x => (pa + x.1, x.2))) k := by
  unfold State.outerBytes State.outerWrite
  dsimp only
  rw [store_byte]
  refine writeIn_congr (fun j => ?_) _ _
  unfold State.byte
  have : ∀ (L : List Nat) (u : State), (L.foldl (fun s k => (s.own 4 (k / 32)).collect k none) u).mem = u.mem := by
    intro L
    induction L with
    | nil => intro u; rfl
    | cons a r ih => intro u; rw [List.foldl_cons, ih]; exact ((rc_own u 4 (a / 32)).mem ▸ (rc_collect (u.own 4 (a / 32)) a none).mem)
  rw [this]; rfl

end Sys2Proof.Laws
end

