-- ==== Sys2Proof/Laws/Packets.lean ====
section
/-!
SUPPORT. Lemmas: packets and their acknowledgements (21 R388 to R398).
-/
namespace Sys2Proof.Laws
open Sys2Proof.Machine

theorem mem_replaceBy_some {α : Type} (p : α → Bool) (f : α → α) {l : List α} (h : l.any p = true) : ∃ a, p a = true ∧ f a ∈ replaceBy p f l := by
  induction l with
  | nil => exact nomatch h
  | cons x t ih =>
    unfold replaceBy
    cases hx : p x with
    | true => exact ⟨x, hx, by simp⟩
    | false =>
      rw [List.any_cons, hx, Bool.false_or] at h
      obtain ⟨a, h1, h2⟩ := ih h
      exact ⟨a, h1, by simp [h2]⟩

theorem fatalPartition_halts (s : State) (part die : Nat) (r : ErrorRecord) : ∃ h ∈ (s.fatalPartition part die r).halts, h.part = part ∧ h.fdom = 3 := by
  unfold State.fatalPartition
  dsimp only
  split
  · next h =>
    obtain ⟨a, h1, h2⟩ := mem_replaceBy_some _ (fun (h : Halt) =>
        { h with nsecond := h.nsecond + 1, second := if h.second.isNone then some r else h.second }) h
    exact ⟨_, h2, by simpa using h1⟩
  · exact ⟨_, List.mem_append_right _ (List.mem_singleton.2 rfl), rfl, rfl⟩

theorem find?_putLast {α : Type} (q : α → Bool) (a : α) (l : List α) (h : q a = true) : (l.filter (fun x => !q x) ++ [a]).find? q = some a := by
  rw [List.find?_append]
  have : (l.filter (fun x => !q x)).find? q = none := by
    rw [List.find?_eq_none]; intro x hx; simpa using (List.mem_filter.1 hx).2
  rw [this]; simp [h]

theorem setPath_link (s : State) (dest path : Nat) (st : LinkState) (more : Nat) : (s.setPath dest path st more).linkState dest path = st := by
  unfold State.setPath State.linkState
  dsimp only
  have := find?_putLast (fun (p : BraidPath) => p.dest == dest && p.path == path)
    { dest := dest, path := path, port := s.portOf dest path, state := st, replays := sat48 (s.replaysOf dest path + more) } s.paths (by simp)
  rw [this]; rfl

theorem braid_countAck (s : State) (q : SentPacket) : ((s.countAck q).braid q.pkt.part q.dest q.pkt.path).acked = ((s.braid q.pkt.part q.dest q.pkt.path).acked + 1) % 2 ^ 32 := by
  have hb : (s.braid q.pkt.part q.dest q.pkt.path).part = q.pkt.part ∧ (s.braid q.pkt.part q.dest q.pkt.path).dest = q.dest ∧ (s.braid q.pkt.part q.dest q.pkt.path).path = q.pkt.path := by
    unfold State.braid
    cases h : s.counts.find? (fun c => c.part == q.pkt.part && c.dest == q.dest && c.path == q.pkt.path) with
    | none => exact ⟨rfl, rfl, rfl⟩
    | some b =>
      have := List.find?_some h
      simp only [Bool.and_eq_true, beq_iff_eq] at this
      exact ⟨this.1.1, this.1.2, this.2⟩
  unfold State.countAck State.setBraid
  generalize hbb : s.braid q.pkt.part q.dest q.pkt.path = b at *
  obtain ⟨h1, h2, h3⟩ := hb
  unfold State.braid
  dsimp only
  rw [h1, h2, h3]
  have := find?_putLast (fun (c : BraidCount) => c.part == q.pkt.part && c.dest == q.dest && c.path == q.pkt.path) ⟨q.pkt.part, q.dest, q.pkt.path, b.sent, (b.acked + 1) % 2 ^ 32⟩ s.counts (by simp)
  rw [this]; rfl

theorem outside_copyBefore {s : State} {part : Nat} {pt : Partition} (hp : s.part? part = some pt) (hk : pt.ckpts = []) (ks : List Nat) :
    (s.copyBefore ks).part? part = some pt := by
  unfold State.copyBefore State.copyWhere State.part?
  have := find?_mapSame (fun p : Partition => p.num == part) (fun (p : Partition) =>
      if p.ckpts.any (fun k => k.pending.any ((fun _ (r : Nat × Nat × Nat) => ks.any (fun k => r.2.1 ≤ k && k < r.2.1 + r.2.2)) p.num)) then
        { p with ckpts := p.ckpts.map (fun k => k.copy s.mem s.tags (k.pending.filter ((fun _ r => ks.any (fun k => r.2.1 ≤ k && k < r.2.1 + r.2.2)) p.num))) }
      else p) s.parts (fun a => by split <;> rfl)
  refine this.trans ?_
  unfold State.part? at hp
  rw [hp]
  simp [hk]

theorem rc_copyBefore (s : State) (ks : List Nat) : (s.copyBefore ks).mem = s.mem ∧ (s.copyBefore ks).poison = s.poison := ⟨rfl, rfl⟩

theorem rc_collectAll (s : State) (ks : List Nat) : Recalled s (s.collectAll ks) := by
  unfold State.collectAll
  exact rc_fold (fun s k => rc_collect s k none) _ _

theorem observes_of {s t : State} {part : Nat} (h : t.part? part = s.part? part) : t.observes part = s.observes part := by
  unfold State.observes State.partOf; rw [h]

theorem store_parts (s : State) (ws : List (Nat × Byte)) (but : Option (Nat × Nat)) : (s.store ws but).parts = s.parts := by
  unfold State.store; split <;> rfl

/-- A packet that is performed, of its parts. -/
theorem perform_ok {s : State} {pt : Partition} {p : Packet} (hp : s.part? p.part = some pt) (ho : s.observes p.part = false) {pa : Nat} {f : Leaf}
    (ha : s.ownerByte pt (128 * p.line + (packetOffsets p).headD 0) (packetUse p) = .ok (pa, f))
    (hc : packetReads p = true → ∀ o ∈ packetOffsets p, s.poisonAt (pa / 128 * 128 + o) = false) (hk : packetMayWrite p = true → pt.obs.ckt = 0) :
    ∃ u : State, u.mem = s.mem ∧ u.part? p.part = some pt ∧
      (((u.doPacket p (pa / 128 * 128)).state.part? p.part = u.part? p.part) →
        s.performPacket pt p = { (u.doPacket p (pa / 128 * 128)).state with
          reply := some (packetAnswer p false 0 (u.doPacket p (pa / 128 * 128)).bytes (u.doPacket p (pa / 128 * 128)).tags) }) := by
  have hckpts : pt.ckpts = [] := by
    unfold State.observes State.partOf at ho
    rw [hp] at ho
    simp only [Option.getD_some, Bool.or_eq_false_iff, Bool.not_eq_false'] at ho
    exact List.isEmpty_iff.1 ho.2
  have hpo : (packetReads p && ((packetOffsets p).map (pa / 128 * 128 + ·)).any s.poisonAt) = false := by
    cases hr : packetReads p with
    | false => rfl
    | true =>
      rw [Bool.true_and, List.any_eq_false]
      intro k hk'
      obtain ⟨o, h1, rfl⟩ := List.mem_map.1 hk'
      rw [hc hr o h1]; simp
  unfold State.performPacket
  dsimp only
  rw [ha]
  dsimp only
  rw [hpo, if_neg (by simp)]
  have hn : (s.notePerf p.source p.part p.path p.seq).part? p.part = some pt := hp
  have hnm : (s.notePerf p.source p.part p.path p.seq).mem = s.mem := rfl
  generalize s.notePerf p.source p.part p.path p.seq = s' at hn hnm
  have htake : (s'.ownerTake (packetMayWrite p) pa).mem = s'.mem ∧ (s'.ownerTake (packetMayWrite p) pa).part? p.part = some pt := by
    unfold State.ownerTake
    split
    · have h1 := rc_own (s'.copyBefore [pa]) (homeDie pa) (pa / 128)
      refine ⟨h1.mem, ?_⟩
      unfold State.part?; rw [h1.parts]; exact outside_copyBefore hn hckpts [pa]
    · have h1 : Recalled s' (s'.share_ (homeDie pa) (pa / 128)) := by
        unfold State.share_; split
        · exact rc_refl _
        · exact rc_dir ..
      refine ⟨h1.mem, ?_⟩
      unfold State.part?; rw [h1.parts]; exact hn
  generalize s'.ownerTake (packetMayWrite p) pa = s2 at htake
  have hcol : ∀ b : Bool, (if b = true then s2.collectAll ((packetOffsets p).map (pa / 128 * 128 + ·)) else s2).mem = s2.mem ∧
      (if b = true then s2.collectAll ((packetOffsets p).map (pa / 128 * 128 + ·)) else s2).part? p.part = some pt := by
    intro b
    split
    · have h1 := rc_collectAll s2 ((packetOffsets p).map (pa / 128 * 128 + ·))
      refine ⟨h1.mem, ?_⟩
      unfold State.part?; rw [h1.parts]; exact htake.2
    · exact ⟨rfl, htake.2⟩
  have hdirty : ∀ (v : State) (b : Bool), (b = true → packetMayWrite p = true) → (if b = true then v.ownerDirty pt f else v) = v := by
    intro v b hb
    split
    · next h => unfold State.ownerDirty; rw [hk (hb h)]; rfl
    · rfl
  obtain ⟨hm, hpu⟩ := hcol (packetMayWrite p)
  generalize (if packetMayWrite p = true then s2.collectAll ((packetOffsets p).map (pa / 128 * 128 + ·)) else s2) = u at hm hpu
  have hww : u.packetWrites p (pa / 128 * 128) = true → packetMayWrite p = true := by
    unfold State.packetWrites packetMayWrite
    split
    · next h => simp only [Bool.and_eq_true, decide_eq_true_eq] at h; intro _; simp [h.1, h.2]
    · split
      · next h => simp only [Bool.and_eq_true, decide_eq_true_eq] at h; intro _; simp [h.1, h.2]
      · exact id
  rw [hdirty u _ hww]
  refine ⟨u, hm.trans (htake.1.trans hnm), hpu, fun hdo => ?_⟩
  rw [observes_of (s := s) (by rw [hdo, hpu, hp]), ho]
  simp only [Bool.false_eq_true, if_false]

theorem find?_filter_none {α : Type} (q : α → Bool) (l : List α) : (l.filter (fun x => !q x)).find? q = none := by
  rw [List.find?_eq_none]; intro x hx; simpa using (List.mem_filter.1 hx).2

theorem uniq_const (x : Nat) (l : List Nat) (hn : l ≠ []) (h : ∀ y ∈ l, y = x) : uniq l = [x] := by
  have key : ∀ l : List Nat, (∀ y ∈ l, y = x) → l.foldl (fun acc k => if acc.contains k then acc else acc ++ [k]) [x] = [x] := by
    intro l
    induction l with
    | nil => intro _; rfl
    | cons a t ih =>
      intro h
      rw [List.foldl_cons, h a (by simp), if_pos (by simp)]
      exact ih fun y hy => h y (by simp [hy])
  cases l with
  | nil => exact absurd rfl hn
  | cons a t =>
    unfold uniq
    rw [List.foldl_cons, h a (by simp)]
    exact key t fun y hy => h y (by simp [hy])

theorem raiseAnswers_nil {s : State} (gid opId : Nat) (h : s.answers = []) : (s.raiseAnswers gid opId) = s := by
  unfold State.raiseAnswers
  dsimp only
  split
  · rfl
  · rw [h]; simp only [List.filter_nil]
    show ({ s with answers := [] } : State) = s
    rw [← h]

end Sys2Proof.Laws
end

