-- ==== Sys2Proof/Laws/Commands.lean ====
section
/-!
SUPPORT. Lemmas: commands and their answers (25 R477 to R483).
-/
namespace Sys2Proof.Laws
open Sys2Proof.Machine

theorem partCommand_ok {s t : State} {x : MgmtArgs} {n : Nat} {f : Partition → Option State} {p : Partition} (hb : blankFrom n x = true)
    (hp : s.part? x.a0.toNat = some p) (hf : f p = some t) : s.partCommand x n f = .next t := by
  unfold State.partCommand; rw [if_pos hb, hp, Option.bind_some, hf]

theorem partCommand_bad {s : State} {x : MgmtArgs} {n : Nat} {f : Partition → Option State} (hb : blankFrom n x = false) :
    s.partCommand x n f = .next (s.failCmd 0xB402) := by
  unfold State.partCommand; rw [if_neg (by rw [hb]; simp)]

theorem partCommand_none {s : State} {x : MgmtArgs} {n : Nat} {f : Partition → Option State} (hp : s.part? x.a0.toNat = none) :
    s.partCommand x n f = .next (s.failCmd 0xB402) := by
  unfold State.partCommand
  split
  · rename_i e; split at e
    · rw [hp] at e; exact nomatch e
    · exact nomatch e
  · rfl

theorem command_ok {s t : State} {x : MgmtArgs} {n : Nat} {ok : Bool} (hb : blankFrom n x = true) (ho : ok = true) : s.command x n ok t = .next t := by
  unfold State.command; rw [hb, ho]; rfl

theorem command_bad {s t : State} {x : MgmtArgs} {n : Nat} {ok : Bool} (hb : blankFrom n x = false) : s.command x n ok t = .next (s.failCmd 0xB402) := by
  unfold State.command; rw [hb]; rfl

theorem finish_mstat (m : Mailbox) (status code : Nat) (res : List Nat) (hs : status < 4) :
    (m.finish status code res).mstat.toNat = status * 2 ^ 62 + bits m.cmd.toNat 63 48 * 2 ^ 32 + code % 2 ^ 16 := by
  unfold Mailbox.finish
  dsimp only
  rw [BitVec.toNat_ofNat, Nat.mod_eq_of_lt]
  have h1 : bits m.cmd.toNat 63 48 < 2 ^ 16 := by unfold bits; exact Nat.mod_lt _ (by decide)
  have h2 : code % 2 ^ 16 < 2 ^ 16 := Nat.mod_lt _ (by decide)
  omega

theorem finish_bits (m : Mailbox) (status code : Nat) (res : List Nat) (hs : status < 4) :
    bits (m.finish status code res).mstat.toNat 63 62 = status ∧ bits (m.finish status code res).mstat.toNat 15 0 = code % 2 ^ 16 ∧
      bits (m.finish status code res).mstat.toNat 47 32 = bits m.cmd.toNat 63 48 := by
  rw [finish_mstat m status code res hs]
  have h1 : bits m.cmd.toNat 63 48 < 2 ^ 16 := by unfold bits; exact Nat.mod_lt _ (by decide)
  have h2 : code % 2 ^ 16 < 2 ^ 16 := Nat.mod_lt _ (by decide)
  generalize bits m.cmd.toNat 63 48 = a at *
  generalize code % 2 ^ 16 = b at *
  unfold bits
  refine ⟨?_, ?_, ?_⟩ <;> omega

theorem outer_part? {s : State} {part : Nat} {p : Partition} (hp : s.part? part = some p) (k : Nat) (bs : List Byte) : ∃ q, (s.outerBytes k bs).part? part = some q :=
  part?_calm (State.outerBytes_calm s k bs rfl) hp

theorem part?_num {s : State} {n : Nat} {p : Partition} (hp : s.part? n = some p) : p.num = n := by
  have := List.find?_some (p := fun (p : Partition) => p.num == n) hp; simpa using this

theorem dropPart_wgs (s : State) (n : Nat) : ∀ w ∈ (s.dropPart n).wgs, w ∈ s.wgs ∧ w.part ≠ n := by
  intro w hw
  unfold State.dropPart State.dropWgs at hw
  obtain ⟨h1, h2⟩ := List.mem_filter.1 hw
  refine ⟨h1, fun e => ?_⟩
  simp only [Bool.not_eq_true', List.contains_eq_mem, decide_eq_false_iff_not] at h2
  exact h2 (List.mem_map_of_mem (List.mem_filter.2 ⟨h1, by simpa using e⟩))

theorem ringClear_calm {G : Placed} {s : State} (p : Partition) (a : Nat) (h : s.Calm G) : (s.ringClear p a).Calm G := by
  unfold State.ringClear; exact State.vaStore_calm _ _ _ _ h

theorem tlbiAll_tlb (s : State) (part : Nat) (range : Option (Nat × Nat)) :
    ∀ c ∈ (s.tlbiAll part range).cores, ∀ t ∈ c.2.tlb, t.part = part → ∃ lo n, range = some (lo, n) ∧ ¬(t.va < lo + n ∧ lo < t.va + t.size) := by
  intro c hc t ht he
  unfold State.tlbiAll at hc
  obtain ⟨y, hy, rfl⟩ := List.mem_map.1 hc
  obtain ⟨h1, h2⟩ := List.mem_filter.1 (show t ∈ List.filter _ _ from ht)
  cases range with
  | none => simp [he] at h2
  | some r =>
    refine ⟨r.1, r.2, rfl, ?_⟩
    simp [he] at h2
    omega

theorem failLaunch_calm {G : Placed} (s : State) (part t : Nat) (h : s.Calm G) : (s.failLaunch part t).Calm G := by
  have h1 : (s.setLaunchState part t 5).Calm G := by
    unfold State.setLaunchState State.writeLaunchState
    split
    · exact h
    · split
      · exact h
      · exact State.vaStore_calm _ _ _ _ (State.modLaunch_calm _ _ _ _ h)
  unfold State.failLaunch
  split
  · exact h
  · dsimp only
    have h2 : ∀ l : List (Nat × Nat × Nat) → List (Nat × Nat × Nat), ((s.setLaunchState part t 5).modPart part (fun p =>
      { p.modLaunch t (fun l => { l with failed := true, charged := [] }) with carves := l p.carves })).Calm G :=
      fun l => State.modPart_calm _ _ _ (fun _ => ⟨rfl, rfl⟩) h1
    split
    · exact State.notifyLaunch_calm _ _ _ _ (h2 _)
    · exact h2 _

theorem doneCmd_box (u : State) (res : List Nat) : (u.doneCmd res).mailbox = u.mailbox.finish 2 0 res := rfl

theorem doneCmd_status (u : State) (res : List Nat) : bits (u.doneCmd res).mailbox.mstat.toNat 63 62 = 2 := by
  rw [doneCmd_box]; exact (finish_bits u.mailbox 2 0 res (by decide)).1

theorem doneCmd_code (u : State) (res : List Nat) : bits (u.doneCmd res).mailbox.mstat.toNat 15 0 = 0 := by
  rw [doneCmd_box]; exact (finish_bits u.mailbox 2 0 res (by decide)).2.1

theorem doneCmd_tag (u : State) (res : List Nat) : bits (u.doneCmd res).mailbox.mstat.toNat 47 32 = bits u.mailbox.cmd.toNat 63 48 := by
  rw [doneCmd_box]; exact (finish_bits u.mailbox 2 0 res (by decide)).2.2

theorem doneCmd_res (u : State) (res : List Nat) : ∀ i r, i < 6 → res[i]? = some r → (u.doneCmd res).mailbox.res.getD i 0 = BitVec.ofNat 64 r := by
  intro i r hi hr
  rw [doneCmd_box]
  unfold Mailbox.finish
  dsimp only
  rw [List.getD_eq_getElem?_getD, List.getElem?_map, List.getElem?_range hi]
  simp [hr]

theorem doneCmd_mem (u : State) (res : List Nat) : (u.doneCmd res).mem = u.mem := by
  unfold State.doneCmd State.finishCmd; rfl

theorem doneCmd_parts (u : State) (res : List Nat) : (u.doneCmd res).parts = u.parts := by
  unfold State.doneCmd State.finishCmd; rfl

theorem writeIn_zeros (L : List (Nat × Byte)) : ∀ (m : Nat → Byte) (k : Nat), (∀ y ∈ L, y.2 = 0) → (∃ y ∈ L, y.1 = k) → writeIn m L k = 0 := by
  induction L with
  | nil => intro m k _ h; obtain ⟨y, hy, _⟩ := h; exact nomatch hy
  | cons a r ih =>
    intro m k hz hex
    by_cases hr : ∃ y ∈ r, y.1 = k
    · exact ih _ k (fun y hy => hz y (by simp [hy])) hr
    · have ha : a.1 = k := by
        obtain ⟨y, hy, he⟩ := hex
        rcases List.mem_cons.1 hy with rfl | h
        · exact he
        · exact absurd ⟨y, h, he⟩ hr
      have e1 : writeIn m (a :: r) k = writeIn (writeIn m [a]) r k := congrFun (writeIn_append m [a] r) k
      rw [e1, writeIn_ne _ _ _ (fun w hw he => hr ⟨w, hw, he⟩)]
      have := hz a (by simp)
      simp [writeIn, ha, this]

theorem bytesOfNat_zero (n : Nat) : ∀ b ∈ bytesOfNat n 0, b = 0 := by
  induction n with
  | zero => intro b hb; exact nomatch hb
  | succ n ih =>
    intro b hb
    unfold bytesOfNat at hb
    rcases List.mem_cons.1 hb with rfl | h
    · rfl
    · rw [Nat.zero_div] at h; exact ih b h

theorem zero_stored (s : State) (pa n i : Nat) (hi : i < n) : (s.outerBytes pa (bytesOfNat n 0)).byte (pa + i) = 0 := by
  refine (outerBytes_byte s pa (bytesOfNat n 0) (pa + i)).trans (writeIn_zeros _ _ _ (fun y hy => ?_) ?_)
  · obtain ⟨z, hz, rfl⟩ := List.mem_map.1 hy
    exact bytesOfNat_zero n _ (List.of_mem_zip hz).2
  · have hl2 : i < (bytesOfNat n 0).length := by rw [bytesOfNat_length]; exact hi
    have hl : i < ((List.range (bytesOfNat n 0).length).zip (bytesOfNat n 0)).length := by simp [hl2]
    refine ⟨(pa + i, (bytesOfNat n 0)[i]), List.mem_map.2 ⟨(i, (bytesOfNat n 0)[i]), ?_, rfl⟩, rfl⟩
    have := List.getElem_mem hl
    rw [List.getElem_zip, List.getElem_range] at this
    exact this

theorem modPart_byte (s : State) (n : Nat) (f : Partition → Partition) (k : Nat) : (s.modPart n f).byte k = s.byte k := rfl

theorem irqcfg_done {s : State} {x : MgmtArgs} {p : Partition} (hp : s.part? x.a0.toNat = some p) (hb : blankFrom 3 x = true) (h1 : 4 ≤ x.a2.toNat)
    (h2 : x.a2.toNat ≤ 12) (h3 : x.a1.toNat % 64 = 0) (h4 : memoryRange x.a1.toNat (64 + 32 * 2 ^ x.a2.toNat) = true) :
    ∃ (u : State) (q : Partition), exec (.irqcfg x) s = .next (u.doneCmd []) ∧ u.part? p.num = some q ∧ q.irqRing = x.a1.toNat ∧
            q.irqJ = x.a2.toNat ∧ q.kind4 = none ∧ q.unsignalled = 0 ∧ ∀ i < 64, u.byte (x.a1.toNat + i) = 0 := by
  have hn : p.num = x.a0.toNat := part?_num hp
  have hp' : s.part? p.num = some p := by rw [hn]; exact hp
  obtain ⟨q, hq⟩ := outer_part? hp' x.a1.toNat (bytesOfNat 64 0)
  have hc : (decide (4 ≤ x.a2.toNat) && decide (x.a2.toNat ≤ 12) && x.a1.toNat % 64 == 0 && memoryRange x.a1.toNat (64 + 32 * 2 ^ x.a2.toNat)) = true := by
    rw [h4, h3, decide_eq_true h1, decide_eq_true h2]; rfl
  let f : Partition → Partition := fun p => { p with irqRing := x.a1.toNat, irqJ := x.a2.toNat, kind4 := none, unsignalled := 0 }
  refine ⟨(s.outerBytes x.a1.toNat (bytesOfNat 64 0)).modPart p.num f, f q, partCommand_ok hb hp ?_, part?_set f (fun _ => rfl) hq, rfl, rfl, rfl, rfl, fun i hi => ?_⟩
  · exact if_pos hc
  · rw [modPart_byte]; exact zero_stored s x.a1.toNat 64 i hi

theorem dumpcfg_done {s : State} {x : MgmtArgs} {p : Partition} (hp : s.part? x.a0.toNat = some p) (hb : blankFrom 3 x = true)
    (h1 : x.a1.toNat % 64 = 0) (h2 : 4096 ≤ x.a2.toNat) (h3 : p.holds false x.a1.toNat x.a2.toNat = true) (h4 : memoryRange x.a1.toNat x.a2.toNat = true) :
          ∃ (u : State) (q : Partition), exec (.dumpcfg x) s = .next (u.doneCmd []) ∧ u.part? p.num = some q ∧
            q.dumpArea = ⟨x.a1.toNat, x.a2.toNat⟩ ∧
            let head := bytesOfNat 4 0x41504D44 ++ bytesOfNat 4 0 ++ bytesOfNat 8 x.a2.toNat ++ bytesOfNat 8 0x40 ++ bytesOfNat 40 0
            ∀ k, u.byte k = writeIn s.byte ((List.range head.length).zip head |>.map (fun y => (x.a1.toNat + y.1, y.2))) k := by
  have hn : p.num = x.a0.toNat := part?_num hp
  have hp' : s.part? p.num = some p := by rw [hn]; exact hp
  obtain ⟨head, hh⟩ : ∃ head, head = bytesOfNat 4 0x41504D44 ++ bytesOfNat 4 0 ++ bytesOfNat 8 x.a2.toNat ++ bytesOfNat 8 0x40 ++ bytesOfNat 40 0 := ⟨_, rfl⟩
  obtain ⟨q, hq⟩ := outer_part? hp' x.a1.toNat head
  have hc : (x.a1.toNat % 64 == 0 && decide (4096 ≤ x.a2.toNat) && p.holds false x.a1.toNat x.a2.toNat && memoryRange x.a1.toNat x.a2.toNat) = true := by
    rw [h4, h3, h1, decide_eq_true h2]; rfl
  let f : Partition → Partition := fun p => { p with dumpArea := ⟨x.a1.toNat, x.a2.toNat⟩ }
  refine ⟨(s.outerBytes x.a1.toNat head).modPart p.num f, f q, partCommand_ok hb hp ?_, part?_set f (fun _ => rfl) hq, rfl, ?_⟩
  · rw [hh]; exact if_pos hc
  · rw [← hh]; intro h k; rw [modPart_byte]; exact outerBytes_byte s x.a1.toNat head k

/-- Copying pending pieces leaves every partition there, under its number. -/
theorem copyWhere_part? {s : State} {n : Nat} {p : Partition} (hp : s.part? n = some p) (g : Nat → Nat × Nat × Nat → Bool) :
    ∃ q, (s.copyWhere g).part? n = some q ∧ q.num = p.num := by
  unfold State.copyWhere State.part? at *
  have := find?_mapSame (fun p : Partition => p.num == n) (fun (p : Partition) =>
      if p.ckpts.any (fun k => k.pending.any (g p.num)) then
        { p with ckpts := p.ckpts.map (fun k => k.copy s.mem s.tags (k.pending.filter (g p.num))) }
      else p) s.parts (fun a => by split <;> rfl)
  rw [hp] at this
  exact ⟨_, this, by dsimp only; split <;> rfl⟩

theorem replay_done {s : State} {x : MgmtArgs} {p : Partition} {k : Checkpoint} (hp : s.part? x.a0.toNat = some p) (hb : blankFrom 3 x = true)
    (h1 : x.a2.toNat < 2)
    (hk : ((s.copyWhere (fun n _ => n == p.num)).partOf p.num).ckpts.find? (fun k => k.num == x.a1.toNat) = some k) (hlo : k.log ≠ []) :
          ∃ (u : State) (q : Partition), exec (.replay x) s = .next (u.doneCmd []) ∧ u.part? p.num = some q ∧ q.launches = k.launches ∧
            q.ticketNext = k.ticketNext ∧ q.replay = some { ckpt := k.num, freeRun := x.a2.toNat == 1, log := k.log } ∧
            (∀ w ∈ u.wgs, w.part = p.num → w ∈ k.workgroups) ∧ (∀ w ∈ k.workgroups, w ∈ u.wgs) ∧ ∀ g ∈ k.groups, g ∈ u.groups := by
  have hn : p.num = x.a0.toNat := part?_num hp
  have hp' : s.part? p.num = some p := by rw [hn]; exact hp
  have hreb : ∀ (L : List Checkpoint) (v : State), (v.rebuild L).wgs = v.wgs ∧ (v.rebuild L).parts = v.parts := by
    intro L
    unfold State.rebuild
    induction L with
    | nil => intro v; exact ⟨rfl, rfl⟩
    | cons a r ih =>
      intro v
      rw [List.foldl_cons]
      have hw : ∀ (P : List (Nat × Nat)) (v : State), (P.foldl (fun s r => s.wipe r.1 r.2) v).wgs = v.wgs ∧ (P.foldl (fun s r => s.wipe r.1 r.2) v).parts = v.parts := by
        intro P
        induction P with
        | nil => intro v; exact ⟨rfl, rfl⟩
        | cons a r ih => intro v; rw [List.foldl_cons]; exact ih _
      exact ⟨(ih _).1.trans (hw _ v).1, (ih _).2.trans (hw _ v).2⟩
  obtain ⟨v, hv⟩ : ∃ v, v = s.copyWhere (fun n _ => n == p.num) := ⟨_, rfl⟩
  obtain ⟨q, hq, hqn⟩ := copyWhere_part? hp' (fun n _ => n == p.num)
  rw [← hv] at hk hq
  let u0 : State := ((v.dropPart p.num).tlbiAll p.num none).rebuild ((v.partOf p.num).ckpts.filter (fun c => c.num ≤ k.num))
  let u1 : State := { u0 with wgs := u0.wgs ++ k.workgroups, groups := u0.groups ++ k.groups }
  let r : Replay := { ckpt := k.num, freeRun := x.a2.toNat == 1, log := k.log }
  let f : Partition → Partition := fun p => { p with launches := k.launches, ticketNext := k.ticketNext, carves := k.carves, ckptBusy := false, replay := if k.log.isEmpty then none else some r, state := .running }
  have hle : k.log.isEmpty = false := by simpa using hlo
  have hu : u1.part? p.num = some q := by
    show u0.part? p.num = some q
    unfold State.part?
    show List.find? _ (State.rebuild _ _).parts = _
    rw [(hreb _ _).2]; exact hq
  refine ⟨u1.modPart p.num f, f q, partCommand_ok hb hp ?_, part?_set f (fun _ => rfl) hu, rfl, rfl, ?_, fun w hw he => ?_, fun w hw => List.mem_append_right _ hw, fun g hg => List.mem_append_right _ hg⟩
  · rw [← hv, if_neg (by omega), hk]
    exact congrArg some (congrArg (State.doneCmd · []) (if_neg (by rw [hle]; simp)))
  · show (if k.log.isEmpty then none else some r) = some r
    rw [hle]; rfl
  · rcases List.mem_append.1 (show w ∈ u0.wgs ++ k.workgroups from hw) with h | h
    · have h2 : w ∈ (State.rebuild _ _).wgs := h
      rw [(hreb _ _).1] at h2
      exact absurd he (dropPart_wgs v p.num w h2).2
    · exact h

end Sys2Proof.Laws
end

