-- ==== Sys2Proof/Laws/Encoding.lean ====
section
/-!
SUPPORT. The fields of an encoded word, and the opcode map read both ways (06 R122, R128).
-/
namespace Sys2Proof.Laws

theorem getLsbD_append_low {n m : Nat} (x : BitVec n) (y : BitVec m) {i : Nat} (h : i < m) :
    (x ++ y).getLsbD i = y.getLsbD i := by
  simp [BitVec.getLsbD_append, h]

theorem getLsbD_append_high {n m : Nat} (x : BitVec n) (y : BitVec m) {i : Nat} (h : m ≤ i) :
    (x ++ y).getLsbD i = x.getLsbD (i - m) := by
  simp [BitVec.getLsbD_append, Nat.not_lt.mpr h]

theorem getLsbD_ofBool_zero (b : Bool) {i : Nat} (h : i = 0) : (BitVec.ofBool b).getLsbD i = b := by
  simp [h]

theorem word_mod (o : Op) (x : Args) {i : Nat} (h : i < 5) : (o.word x).getLsbD i = x.mod.getLsbD i := by
  simp (disch := omega) only [Op.word, getLsbD_append_low]

theorem word_fs (o : Op) (x : Args) : (o.word x).getLsbD 5 = x.fs := by
  simp (disch := omega) only [Op.word, getLsbD_append_low, getLsbD_append_high, getLsbD_ofBool_zero]

theorem word_long (o : Op) (x : Args) : (o.word x).getLsbD 6 = x.long.isSome := by
  simp (disch := omega) only [Op.word, getLsbD_append_low, getLsbD_append_high, getLsbD_ofBool_zero]

theorem word_c (o : Op) (x : Args) {i : Nat} (h : i < 8) : (o.word x).getLsbD (7 + i) = x.c.getLsbD i := by
  simp (disch := omega) only [Op.word, getLsbD_append_low, getLsbD_append_high]
  congr 1; omega

theorem word_b (o : Op) (x : Args) {i : Nat} (h : i < 8) : (o.word x).getLsbD (15 + i) = x.b.getLsbD i := by
  simp (disch := omega) only [Op.word, getLsbD_append_low, getLsbD_append_high]
  congr 1; omega

theorem word_a (o : Op) (x : Args) {i : Nat} (h : i < 8) : (o.word x).getLsbD (23 + i) = x.a.getLsbD i := by
  simp (disch := omega) only [Op.word, getLsbD_append_low, getLsbD_append_high]
  congr 1; omega

theorem word_d (o : Op) (x : Args) {i : Nat} (h : i < 8) : (o.word x).getLsbD (31 + i) = x.d.getLsbD i := by
  simp (disch := omega) only [Op.word, getLsbD_append_low, getLsbD_append_high]
  congr 1; omega

theorem word_gbit (o : Op) (x : Args) {i : Nat} (h : i < 5) : (o.word x).getLsbD (39 + i) = x.guard.bit.getLsbD i := by
  simp (disch := omega) only [Op.word, getLsbD_append_low, getLsbD_append_high]
  congr 1; omega

theorem word_greg (o : Op) (x : Args) {i : Nat} (h : i < 8) : (o.word x).getLsbD (44 + i) = x.guard.reg.getLsbD i := by
  simp (disch := omega) only [Op.word, getLsbD_append_low, getLsbD_append_high]
  congr 1; omega

theorem word_gk (o : Op) (x : Args) : (o.word x).getLsbD 52 = x.guard.scalar := by
  simp (disch := omega) only [Op.word, getLsbD_append_low, getLsbD_append_high, getLsbD_ofBool_zero]

theorem word_gn (o : Op) (x : Args) : (o.word x).getLsbD 53 = x.guard.neg := by
  simp (disch := omega) only [Op.word, getLsbD_append_low, getLsbD_append_high, getLsbD_ofBool_zero]

theorem word_ge (o : Op) (x : Args) : (o.word x).getLsbD 54 = x.guard.en := by
  simp (disch := omega) only [Op.word, getLsbD_append_low, getLsbD_append_high, getLsbD_ofBool_zero]

theorem word_op (o : Op) (x : Args) {i : Nat} (h : i < 9) :
    (o.word x).getLsbD (55 + i) = (BitVec.ofNat 9 o.code).getLsbD i := by
  simp (disch := omega) only [Op.word, getLsbD_append_low, getLsbD_append_high]
  congr 1; omega

theorem extract_eq {n m : Nat} (w : BitVec n) (v : BitVec m) (k : Nat)
    (h : ∀ i, i < m → w.getLsbD (k + i) = v.getLsbD i) : w.extractLsb' k m = v := by
  ext i hi
  simp only [BitVec.getElem_extractLsb', h i hi, BitVec.getLsbD_eq_getElem hi]

theorem longBit_word (o : Op) (x : Args) : longBit (o.word x) = x.long.isSome := word_long o x

theorem opField_word (o : Op) (x : Args) : opField (o.word x) = BitVec.ofNat 9 o.code :=
  extract_eq _ _ _ (fun _ h => word_op o x h)

/-- 06 R122: the operand fields of an encoded word are the operands encoded. -/
theorem argsOf_word (o : Op) (x : Args) : argsOf (o.word x) x.long = x := by
  simp only [argsOf, word_ge, word_gn, word_gk, word_fs, extract_eq _ _ 44 (fun _ h => word_greg o x h),
    extract_eq _ _ 39 (fun _ h => word_gbit o x h), extract_eq _ _ 31 (fun _ h => word_d o x h),
    extract_eq _ _ 23 (fun _ h => word_a o x h), extract_eq _ _ 15 (fun _ h => word_b o x h),
    extract_eq _ _ 7 (fun _ h => word_c o x h),
    extract_eq (o.word x) x.mod 0 (fun _ h => by simpa using word_mod o x h)]

/-- 06 R128: the row at an opcode, before MOD or a service number tells rows of one opcode apart. -/
def rowOf (o : Op) : Op :=
  match o with
  | .waitevBar | .waitevFlag => .waitevTl
  | .sysNotify | .sysStop => .sysRecord
  | .pgetQuad => .pget
  | .ldVp => .ld
  | .stVp => .st
  | .ldpQ => .ldp
  | .stpQ => .stp
  | .tlreadDone => .tlreadIss
  | .mstepV => .mstep
  | o => o

theorem ofCode_code (o : Op) : Op.ofCode (BitVec.ofNat 9 o.code).toNat = some (rowOf o) := by
  cases o <;> decide

/-- 06 R126: a legal MOD names the row itself among those of its opcode. -/
theorem select_rowOf (o : Op) (x : Args) (h : o.modOk x = true) : (rowOf o).select x.mod x.a = o := by
  cases o <;> first
    | rfl
    | (simp [Op.modOk, Op.code, Op.controlModOk, Op.memoryModOk, Op.engineModOk] at h
       simp [rowOf, Op.select]
       omega)
    | (simp [Op.modOk, Op.code, Op.controlModOk, Op.memoryModOk, Op.engineModOk] at h
       simp [rowOf, Op.select, h])

theorem instr_opArgs (i : Instr) (o : Op) (x : Args) (h : i.opArgs? = some (o, x)) : o.instr x = i := by
  cases i <;> simp [Instr.opArgs?] at h <;> obtain ⟨rfl, rfl⟩ := h <;> rfl

theorem opArgs_instr (o : Op) (x : Args) : (o.instr x).opArgs? = some (o, x) := by
  cases o <;> rfl

end Sys2Proof.Laws
end

