-- ==== Sys2Proof/Laws/Exec.lean ====
section
/-!
SUPPORT. Every instruction but YIELD is an issue of its row: what the checks before its effect come to, for all of them at once.
-/
namespace Sys2Proof.Machine

/-- 06 R130, R131: an encoding fault. -/
theorem issue_enc {o : Op} {x : Args} {s : State} {c : Ctx} {code : Nat} (h : s.sees c) (he : c.encodingFault o x = some code)
    (body : Ctx → List Nat → Eff) : issue o x s body = .next (s.trapped c x (c.allLanes code none none) 0) := by
  obtain ⟨-, -, -, hcur, c0, hctx, -, rfl, -⟩ := State.sees_eq h
  have hcur' : s.cur = some (c0.g.gid, c0.sp.id) := hcur
  have hctx' : s.ctx? c0.g.gid c0.sp.id = some c0 := hctx
  unfold issue
  simp only [hcur', hctx', he]; rfl

/-- 06 R120: an empty Active(S). -/
theorem issue_empty {o : Op} {x : Args} {s : State} {c : Ctx} (h : s.sees c) (he : c.encodingFault o x = none) (ha : c.active x = [])
    (body : Ctx → List Nat → Eff) : issue o x s body = .next (s.finish c x) := by
  obtain ⟨-, -, -, hcur, c0, hctx, -, rfl, -⟩ := State.sees_eq h
  have hcur' : s.cur = some (c0.g.gid, c0.sp.id) := hcur
  have hctx' : s.ctx? c0.g.gid c0.sp.id = some c0 := hctx
  unfold issue
  simp only [hcur', hctx', he, ha]; rfl

/-- 07 R155: a flag holds the instruction. -/
theorem issue_hold {o : Op} {x : Args} {s : State} {c : Ctx} {k : Hold} (h : s.sees c) (he : c.encodingFault o x = none) (ha : c.active x ≠ [])
    (hk : c.flagHold o x = some k)
    (body : Ctx → List Nat → Eff) : issue o x s body = .next (s.modSplit c.g.gid c.sp.id (fun sp => { sp with hold := k })) := by
  obtain ⟨-, -, -, hcur, c0, hctx, -, rfl, -⟩ := State.sees_eq h
  have hcur' : s.cur = some (c0.g.gid, c0.sp.id) := hcur
  have hctx' : s.ctx? c0.g.gid c0.sp.id = some c0 := hctx
  unfold issue
  simp only [hcur', hctx', he, hk]
  cases h : Ctx.active (s.passSite c0) x with
  | nil => exact absurd h ha
  | cons a t => rfl

/-- What an instruction does is what issuing its row does. -/
theorem exec_issue (o : Op) (h : o ≠ .yield) (x : Args) (s : State) : ∃ body, exec (o.instr x) s = issue o x s body := by
  cases o
  all_goals first
    | exact absurd rfl h
    | (simp only [Op.instr, exec]
       simp only [
             execNop, execBra, execBrd, execBri, execCall, execCalli, execRet, execMaskLanes, execSplitq,
             execWaitevTl, execWaitevBar, execWaitevFlag, execEndLanes, execTrap, execTret, execSysRecord, execSysNotify,
             execSysStop, execBkpt, execRds, execWrs, execLaunch, execSadd, execSsub, execSmul, execSmulh, execSand,
             execSor, execSxor, execSshl, execSshr, execSsra, execSmin, execSmax, execScmp, execSsel, execSmov, execSmovi,
             execSbfe, execSbfi, execSpopc, execSclz, execVadd, execVsub, execVmul, execVmulh, execVmad, execVand, execVor,
             execVxor, execVshl, execVshr, execVsra, execVmin, execVmax, execVabs, execVcmp, execVsel, execVmov, execVbfe,
             execVbfi, execVpopc, execVclz, execVdot4, execFadd, execFsub, execFmul, execFfma, execFmin, execFmax,
             execFcmp, execFclass, execFrcp, execFrsq, execFsqrt, execFexp2, execFlog2, execFsin, execFcos, execFround,
             execCvt, execCvtpk, execCbexp, execScalex, execMatchLanes, execBallot, execShfl, execLred, execLscan,
             execRdlane, execBcast, execV2s, execS2v, execPder, execPadd, execPfmt, execPright, execPget, execPgetQuad,
             execPnull, execPeq, execWiden, execNarrow, execLd, execLdVp, execSt, execStVp, execLdp, execLdpQ, execStp,
             execStpQ, execLdres, execStcnd, execPref, execIcinv, execAtom, execAtomn, execCas, execBinit, execBarv,
             execBexp, execBwait, execBtest, execBinval, execTlwait, execTltest, execTlreadIss, execTlreadDone, execStream,
             execSgath, execSdec, execMloop, execMstep, execMstepV, execAswap, execAzero, execAread, execAstore, execAmark,
             execXtopk, execXqnt, execXdqnt, scalarExec, vectorExec, floatExec, fn1Exec, branchExec, deriveExec, loadExec,
             storeExec, loadPtrExec, storePtrExec, atomExec, barrierExec, matExec, pipeExec, streamExec, issueDone]
       exact ⟨_, rfl⟩)

end Sys2Proof.Machine
end

