-- ==== Sys2Proof/Laws/KeepExec.lean ====
section
/-!
SUPPORT. No instruction and no event breaks the invariant of the machine.
-/
namespace Sys2Proof.Machine

theorem exec_inv (i : Instr) (s : State) (h : s.Inv) : outInv (exec i s) :=
  match i with
  | .nop x => execNop_inv x s h
  | .bra x => execBra_inv x s h
  | .brd x => execBrd_inv x s h
  | .bri x => execBri_inv x s h
  | .call x => execCall_inv x s h
  | .calli x => execCalli_inv x s h
  | .ret x => execRet_inv x s h
  | .maskLanes x => execMaskLanes_inv x s h
  | .splitq x => execSplitq_inv x s h
  | .yield x => execYield_inv x s h
  | .waitevTl x => execWaitevTl_inv x s h
  | .waitevBar x => execWaitevBar_inv x s h
  | .waitevFlag x => execWaitevFlag_inv x s h
  | .endLanes x => execEndLanes_inv x s h
  | .trap x => execTrap_inv x s h
  | .tret x => execTret_inv x s h
  | .sysRecord x => execSysRecord_inv x s h
  | .sysNotify x => execSysNotify_inv x s h
  | .sysStop x => execSysStop_inv x s h
  | .bkpt x => execBkpt_inv x s h
  | .rds x => execRds_inv x s h
  | .wrs x => execWrs_inv x s h
  | .launch x => execLaunch_inv x s h
  | .sadd x => execSadd_inv x s h
  | .ssub x => execSsub_inv x s h
  | .smul x => execSmul_inv x s h
  | .smulh x => execSmulh_inv x s h
  | .sand x => execSand_inv x s h
  | .sor x => execSor_inv x s h
  | .sxor x => execSxor_inv x s h
  | .sshl x => execSshl_inv x s h
  | .sshr x => execSshr_inv x s h
  | .ssra x => execSsra_inv x s h
  | .smin x => execSmin_inv x s h
  | .smax x => execSmax_inv x s h
  | .scmp x => execScmp_inv x s h
  | .ssel x => execSsel_inv x s h
  | .smov x => execSmov_inv x s h
  | .smovi x => execSmovi_inv x s h
  | .sbfe x => execSbfe_inv x s h
  | .sbfi x => execSbfi_inv x s h
  | .spopc x => execSpopc_inv x s h
  | .sclz x => execSclz_inv x s h
  | .vadd x => execVadd_inv x s h
  | .vsub x => execVsub_inv x s h
  | .vmul x => execVmul_inv x s h
  | .vmulh x => execVmulh_inv x s h
  | .vmad x => execVmad_inv x s h
  | .vand x => execVand_inv x s h
  | .vor x => execVor_inv x s h
  | .vxor x => execVxor_inv x s h
  | .vshl x => execVshl_inv x s h
  | .vshr x => execVshr_inv x s h
  | .vsra x => execVsra_inv x s h
  | .vmin x => execVmin_inv x s h
  | .vmax x => execVmax_inv x s h
  | .vabs x => execVabs_inv x s h
  | .vcmp x => execVcmp_inv x s h
  | .vsel x => execVsel_inv x s h
  | .vmov x => execVmov_inv x s h
  | .vbfe x => execVbfe_inv x s h
  | .vbfi x => execVbfi_inv x s h
  | .vpopc x => execVpopc_inv x s h
  | .vclz x => execVclz_inv x s h
  | .vdot4 x => execVdot4_inv x s h
  | .fadd x => execFadd_inv x s h
  | .fsub x => execFsub_inv x s h
  | .fmul x => execFmul_inv x s h
  | .ffma x => execFfma_inv x s h
  | .fmin x => execFmin_inv x s h
  | .fmax x => execFmax_inv x s h
  | .fcmp x => execFcmp_inv x s h
  | .fclass x => execFclass_inv x s h
  | .frcp x => execFrcp_inv x s h
  | .frsq x => execFrsq_inv x s h
  | .fsqrt x => execFsqrt_inv x s h
  | .fexp2 x => execFexp2_inv x s h
  | .flog2 x => execFlog2_inv x s h
  | .fsin x => execFsin_inv x s h
  | .fcos x => execFcos_inv x s h
  | .fround x => execFround_inv x s h
  | .cvt x => execCvt_inv x s h
  | .cvtpk x => execCvtpk_inv x s h
  | .cbexp x => execCbexp_inv x s h
  | .scalex x => execScalex_inv x s h
  | .matchLanes x => execMatchLanes_inv x s h
  | .ballot x => execBallot_inv x s h
  | .shfl x => execShfl_inv x s h
  | .lred x => execLred_inv x s h
  | .lscan x => execLscan_inv x s h
  | .rdlane x => execRdlane_inv x s h
  | .bcast x => execBcast_inv x s h
  | .v2s x => execV2s_inv x s h
  | .s2v x => execS2v_inv x s h
  | .pder x => execPder_inv x s h
  | .padd x => execPadd_inv x s h
  | .pfmt x => execPfmt_inv x s h
  | .pright x => execPright_inv x s h
  | .pget x => execPget_inv x s h
  | .pgetQuad x => execPgetQuad_inv x s h
  | .pnull x => execPnull_inv x s h
  | .peq x => execPeq_inv x s h
  | .widen x => execWiden_inv x s h
  | .narrow x => execNarrow_inv x s h
  | .ld x => execLd_inv x s h
  | .ldVp x => execLdVp_inv x s h
  | .st x => execSt_inv x s h
  | .stVp x => execStVp_inv x s h
  | .ldp x => execLdp_inv x s h
  | .ldpQ x => execLdpQ_inv x s h
  | .stp x => execStp_inv x s h
  | .stpQ x => execStpQ_inv x s h
  | .ldres x => execLdres_inv x s h
  | .stcnd x => execStcnd_inv x s h
  | .pref x => execPref_inv x s h
  | .icinv x => execIcinv_inv x s h
  | .atom x => execAtom_inv x s h
  | .atomn x => execAtomn_inv x s h
  | .cas x => execCas_inv x s h
  | .binit x => execBinit_inv x s h
  | .barv x => execBarv_inv x s h
  | .bexp x => execBexp_inv x s h
  | .bwait x => execBwait_inv x s h
  | .btest x => execBtest_inv x s h
  | .binval x => execBinval_inv x s h
  | .tlwait x => execTlwait_inv x s h
  | .tltest x => execTltest_inv x s h
  | .tlreadIss x => execTlreadIss_inv x s h
  | .tlreadDone x => execTlreadDone_inv x s h
  | .stream x => execStream_inv x s h
  | .sgath x => execSgath_inv x s h
  | .sdec x => execSdec_inv x s h
  | .mloop x => execMloop_inv x s h
  | .mstep x => execMstep_inv x s h
  | .mstepV x => execMstepV_inv x s h
  | .aswap x => execAswap_inv x s h
  | .azero x => execAzero_inv x s h
  | .aread x => execAread_inv x s h
  | .astore x => execAstore_inv x s h
  | .amark x => execAmark_inv x s h
  | .xtopk x => execXtopk_inv x s h
  | .xqnt x => execXqnt_inv x s h
  | .xdqnt x => execXdqnt_inv x s h
  | .clauseFetch g sid => execClauseFetch_inv g sid s h
  | .clausePrefetch g sid n => execClausePrefetch_inv g sid n s h
  | .clauseStart g sid => execClauseStart_inv g sid s h
  | .waitRetestStart g sid => execWaitRetestStart_inv g sid s h
  | .spillRotation g => execSpillRotation_inv g s h
  | .spillConditionTest g => execSpillConditionTest_inv g s h
  | .eventWake g sid => execEventWake_inv g sid s h
  | .starvationGuard g sid => execStarvationGuard_inv g sid s h
  | .capRecompute core => execCapRecompute_inv core s h
  | .flagCountedCompletion g op => execFlagCountedCompletion_inv g op s h
  | .bwaitPass g sid => execBwaitPass_inv g sid s h
  | .tlwaitPass g sid => execTlwaitPass_inv g sid s h
  | .pageWalk core part va => execPageWalk_inv core part va s h
  | .scoreboardEntryGrant g sid => execScoreboardEntryGrant_inv g sid s h
  | .scoreboardAdmit g sid => execScoreboardAdmit_inv g sid s h
  | .streamLanding op elems => execStreamLanding_inv op elems s h
  | .sdecDecode op n => execSdecDecode_inv op n s h
  | .engineOpComplete op => execEngineOpComplete_inv op s h
  | .engineOpFault op => execEngineOpFault_inv op s h
  | .matrixQueueGrant g sid => execMatrixQueueGrant_inv g sid s h
  | .matrixStep core => execMatrixStep_inv core s h
  | .tileAzeroEffect op => execTileAzeroEffect_inv op s h
  | .tileAswapEffect op => execTileAswapEffect_inv op s h
  | .tileAreadEffect op => execTileAreadEffect_inv op s h
  | .tileAstoreEffect op => execTileAstoreEffect_inv op s h
  | .transformReply g op => execTransformReply_inv g op s h
  | .groupEnd g => execGroupEnd_inv g s h
  | .submit part port addr => execSubmit_inv part port addr s h
  | .submitStatusRead part port => execSubmitStatusRead_inv part port s h
  | .failack part ticket => execFailack_inv part ticket s h
  | .launchReady part ticket => execLaunchReady_inv part ticket s h
  | .carveoutOffsetFix part ticket off => execCarveoutOffsetFix_inv part ticket off s h
  | .placementBegin part ticket => execPlacementBegin_inv part ticket s h
  | .workgroupPlace part ticket places => execWorkgroupPlace_inv part ticket places s h
  | .workgroupRetire w => execWorkgroupRetire_inv w s h
  | .launchComplete part ticket => execLaunchComplete_inv part ticket s h
  | .launchFail part ticket => execLaunchFail_inv part ticket s h
  | .quantumExpiry die cluster => execQuantumExpiry_inv die cluster s h
  | .preemption die cluster => execPreemption_inv die cluster s h
  | .contextSave die cluster => execContextSave_inv die cluster s h
  | .contextRestore die cluster part scheds lost => execContextRestore_inv die cluster part scheds lost s h
  | .faultDomainHalt => execFaultDomainHalt_inv s h
  | .dumpWrite => execDumpWrite_inv s h
  | .irqMessageDeliver part => execIrqMessageDeliver_inv part s h
  | .sliceRegistration core key => execSliceRegistration_inv core key s h
  | .l1Eviction core line => execL1Eviction_inv core line s h
  | .forwardedRead core key => execForwardedRead_inv core key s h
  | .directoryRequest holder own line => execDirectoryRequest_inv holder own line s h
  | .nodeMerge die base => execNodeMerge_inv die base s h
  | .directoryEviction die base => execDirectoryEviction_inv die base s h
  | .recall die base sharing => execRecall_inv die base sharing s h
  | .companionWrite pa bytes => execCompanionWrite_inv pa bytes s h
  | .companionRead pa n => execCompanionRead_inv pa n s h
  | .packetReceive p => execPacketReceive_inv p s h
  | .orderedPacketRelease source part path seq => execOrderedPacketRelease_inv source part path seq s h
  | .packetAck dest part path seq bytes tags faultCode => execPacketAck_inv dest part path seq bytes tags faultCode s h
  | .packetRefusal dest part path seq => execPacketRefusal_inv dest part path seq s h
  | .pathDown dest path => execPathDown_inv dest path s h
  | .pathRestore dest path => execPathRestore_inv dest path s h
  | .doorbell value => execDoorbell_inv value s h
  | .mstatRead => execMstatRead_inv s h
  | .registerWrite pa value => execRegisterWrite_inv pa value s h
  | .summary x => execSummary_inv x s h
  | .pcreate x => execPcreate_inv x s h
  | .pdestroy x => execPdestroy_inv x s h
  | .precfg x => execPrecfg_inv x s h
  | .preset x => execPreset_inv x s h
  | .tlbi x => execTlbi_inv x s h
  | .cohcfg x => execCohcfg_inv x s h
  | .cntclr x => execCntclr_inv x s h
  | .irqcfg x => execIrqcfg_inv x s h
  | .errcfg x => execErrcfg_inv x s h
  | .errread x => execErrread_inv x s h
  | .accfg x => execAccfg_inv x s h
  | .obscfg x => execObscfg_inv x s h
  | .stop x => execStop_inv x s h
  | .resume x => execResume_inv x s h
  | .step x => execStep_inv x s h
  | .histrd x => execHistrd_inv x s h
  | .snap x => execSnap_inv x s h
  | .ckfree x => execCkfree_inv x s h
  | .replay x => execReplay_inv x s h
  | .dumpcfg x => execDumpcfg_inv x s h
  | .fwload x => execFwload_inv x s h
  | .fwswitch x => execFwswitch_inv x s h
  | .retire x => execRetire_inv x s h
  | .returnUnit x => execReturnUnit_inv x s h
  | .drcal x => execDrcal_inv x s h
  | .ltrain x => execLtrain_inv x s h
  | .reset x => execReset_inv x s h
  | .memchk x => execMemchk_inv x s h
  | .coldReset pass spares master => execColdReset_inv pass spares master s h
  | .sampleTimer die cluster core sched => execSampleTimer_inv die cluster core sched s h
  | .sampleWrite g sid => execSampleWrite_inv g sid s h
  | .stopAtSite g sid => execStopAtSite_inv g sid s h
  | .snapshotLatch die => execSnapshotLatch_inv die s h
  | .checkpoint part => execCheckpoint_inv part s h
  | .checkpointRegionCopy part va => execCheckpointRegionCopy_inv part va s h
  | .replayEvent part home kind ticket wg group lane addr value => execReplayEvent_inv part home kind ticket wg group lane addr value s h
  | .codeObjectLoad part obj => execCodeObjectLoad_inv part obj s h
  | .transformPipeAccept core => execTransformPipeAccept_inv core s h
  | .cirqueWatchdogReset die master => execCirqueWatchdogReset_inv die master s h
  | .firmwareFault die master => execFirmwareFault_inv die master s h
  | .thermalTrip die => execThermalTrip_inv die s h
  | .dieThrottle die => execDieThrottle_inv die s h
  | .powerCapReached => execPowerCapReached_inv s h
  | .uncorrectableError key reader => execUncorrectableError_inv key reader s h
  | .patrolScrub die bad => execPatrolScrub_inv die bad s h
  | .recallBoundExceeded die base => execRecallBoundExceeded_inv die base s h
  | .directoryArrayUncorrectable die => execDirectoryArrayUncorrectable_inv die s h
  | .packageInterconnectFailure => execPackageInterconnectFailure_inv s h
  | .linkLossReset => execLinkLossReset_inv s h
  | .mbatilLinkDown => execMbatilLinkDown_inv s h
  | .mbatilLaneDegraded lane => execMbatilLaneDegraded_inv lane s h
  | .destinationUnreachable dest => execDestinationUnreachable_inv dest s h
  | .stallHistogramCount die cluster core sched => execStallHistogramCount_inv die cluster core sched s h
  | .replayHoldTimeout part home => execReplayHoldTimeout_inv part home s h
  | .scoreHalving core => execScoreHalving_inv core s h

end Sys2Proof.Machine
end

