-- ==== Sys2Proof/Laws/Resets.lean ====
section
/-!
SUPPORT. Lemmas: records that name no partition, service commands, resets (25 R471 to R487).
-/
namespace Sys2Proof.Laws
open Sys2Proof.Machine

/-- What a record that names no partition leaves alone. -/
structure Quiet (s t : State) : Prop where
  mem : t.mem = s.mem
  tags : t.tags = s.tags
  poison : t.poison = s.poison
  cores : t.cores = s.cores
  parts : t.parts = s.parts
  wgs : t.wgs = s.wgs
  groups : t.groups = s.groups
  dies : t.dies = s.dies
  halts : t.halts.map (·.wgs) = s.halts.map (·.wgs)
  hparts : t.halts.map (fun h => (h.part, h.fdom)) = s.halts.map (fun h => (h.part, h.fdom))
  master : t.master = s.master
  link : t.linkDown = s.linkDown ∧ t.badLanes = s.badLanes

theorem Quiet.trans {s t u : State} (h : Quiet s t) (k : Quiet t u) : Quiet s u :=
  ⟨k.mem.trans h.mem, k.tags.trans h.tags, k.poison.trans h.poison, k.cores.trans h.cores, k.parts.trans h.parts, k.wgs.trans h.wgs,
   k.groups.trans h.groups, k.dies.trans h.dies, k.halts.trans h.halts, k.hparts.trans h.hparts, k.master.trans h.master,
   ⟨k.link.1.trans h.link.1, k.link.2.trans h.link.2⟩⟩

theorem mem_last {α : Type} (c : Bool) (l : List α) (r : α) : r ∈ (if c then l.drop 1 else l) ++ [r] := by simp

theorem snap_parts {s : State} (t : State) (c : Prop) [Decidable c] (h : t.parts = s.parts) : (if c then t.snapTrigger else t).parts = s.parts := by
  split
  · unfold State.snapTrigger; split <;> exact h
  · exact h

theorem record_quiet {s : State} {r : ErrorRecord} (h : s.part? r.part = none) : Quiet s (s.record r) ∧ r ∈ (s.record r).records := by
  let F : Halt → Halt := fun h => if h.stage == HaltStage.halted && h.covers r s.wgs && h.records.length < 256 then { h with records := h.records ++ [r] } else h
  let t : State := { s with records := (if s.records.length ≥ 4096 then s.records.drop 1 else s.records) ++ [r], recordBase := if s.records.length ≥ 4096 then s.recordBase + 1 else s.recordBase, classes := bumpClass s.classes r.code, halts := s.halts.map F }
  have e : s.record r = if t.snap.classes.getLsbD (r.code / 0x1000) then t.snapTrigger else t := by
    unfold State.record
    have : ∀ t : State, t.parts = s.parts → (match t.part? r.part with
        | none => t
        | some p => ((t.modPart r.part (fun p => { p with classes := bumpClass p.classes r.code })).ringPut p p.errRing r.toBytes).countRecord r.part) = t := by
      intro t ht
      have : t.part? r.part = none := by unfold State.part? at h ⊢; rw [ht]; exact h
      rw [this]
    exact this _ (snap_parts _ _ rfl)
  have hw : (s.halts.map F).map (·.wgs) = s.halts.map (·.wgs) := by
    rw [List.map_map]; congr 1; funext h; dsimp only [Function.comp, F]; split <;> rfl
  have hp : (s.halts.map F).map (fun h => (h.part, h.fdom)) = s.halts.map (fun h => (h.part, h.fdom)) := by
    rw [List.map_map]; congr 1; funext h; dsimp only [Function.comp, F]; split <;> rfl
  have hm : r ∈ (if s.records.length ≥ 4096 then s.records.drop 1 else s.records) ++ [r] := by simp
  rw [e]
  split
  · unfold State.snapTrigger
    split <;> exact ⟨⟨rfl, rfl, rfl, rfl, rfl, rfl, rfl, rfl, hw, hp, rfl, ⟨rfl, rfl⟩⟩, hm⟩
  · exact ⟨⟨rfl, rfl, rfl, rfl, rfl, rfl, rfl, rfl, hw, hp, rfl, ⟨rfl, rfl⟩⟩, hm⟩

theorem part?_of {s t : State} {n : Nat} (h : t.parts = s.parts) (h0 : s.part? n = none) : t.part? n = none := by
  unfold State.part? at h0 ⊢; rw [h]; exact h0

theorem doneCmd_dies (u : State) (res : List Nat) : (u.doneCmd res).dies = u.dies := by
  unfold State.doneCmd State.finishCmd; rfl

theorem doneCmd_wgs (u : State) (res : List Nat) : (u.doneCmd res).wgs = u.wgs := by
  unfold State.doneCmd State.finishCmd; rfl

theorem doneCmd_groups (u : State) (res : List Nat) : (u.doneCmd res).groups = u.groups := by
  unfold State.doneCmd State.finishCmd; rfl

theorem doneCmd_records (u : State) (res : List Nat) : (u.doneCmd res).records = u.records := by
  unfold State.doneCmd State.finishCmd; rfl

theorem doneService_facts (u : State) (code : Nat) (h0 : u.part? 0xFFFF = none) :
    (∃ r ∈ (u.doneService code).records, r.code = 0x0006 ∧ r.paddr = code) ∧ bits (u.doneService code).mailbox.mstat.toNat 63 62 = 2 ∧
      (u.doneService code).mem = u.mem ∧ (u.doneService code).dies = u.dies ∧ (u.doneService code).parts = u.parts ∧
      (u.doneService code).wgs = u.wgs ∧ (u.doneService code).groups = u.groups := by
  obtain ⟨q, hr⟩ := record_quiet (s := u) (r := { u.plainRecord 0xFFFF u.master 0x0006 0 with engine := 12 * 2 ^ 24, paddr := code }) h0
  unfold State.doneService
  rw [doneCmd_mem, doneCmd_parts, doneCmd_dies, doneCmd_wgs, doneCmd_groups, doneCmd_records]
  exact ⟨⟨_, hr, rfl, rfl⟩, doneCmd_status _ _, q.mem, q.dies, q.parts, q.wgs, q.groups⟩

theorem moveAll_wgs (s : State) (k : Nat) : (s.moveAll k).wgs = s.wgs ∧ (s.moveAll k).mailbox = s.mailbox := by
  unfold State.moveAll
  dsimp only
  generalize (dieClusters k).find? (fun c => (s.share c).state == .spare) = spare
  have h : ∀ (L : List Partition) (v : State), let w := L.foldl (fun s p =>
      match p.logicalOf k with
      | none => s
      | some (d, c) =>
        match spare.orElse (fun _ => s.takeover k p) with
        | some t => s.modPart p.num (fun p => p.remap d c (t % 7))
        | none => s.modPart p.num (fun p => p.remap d c 0xFE)) v
      w.wgs = v.wgs ∧ w.mailbox = v.mailbox := by
    intro L
    induction L with
    | nil => exact fun v => ⟨rfl, rfl⟩
    | cons a r ih =>
      intro v
      rw [List.foldl_cons]
      refine ⟨(ih _).1.trans ?_, (ih _).2.trans ?_⟩ <;> (split; rfl; split <;> rfl)
  refine ⟨(h _ _).1.trans ?_, (h _ _).2.trans ?_⟩ <;> cases spare <;> rfl

theorem goOn_wgs (s : State) (k : Nat) : (s.goOnRetiring k).wgs = s.wgs ∧ (s.goOnRetiring k).mailbox = s.mailbox := by
  unfold State.goOnRetiring
  split
  · exact moveAll_wgs s k
  · exact ⟨rfl, rfl⟩

theorem command_bad2 {s t : State} {x : MgmtArgs} {n : Nat} {ok : Bool} (h : ok = false) : s.command x n ok t = .next (s.failCmd 0xB402) := by
  unfold State.command; rw [h]; simp

theorem mapUnmapped_dies (s : State) : s.mapUnmapped.dies = s.dies ∧ s.mapUnmapped.wgs = s.wgs := by
  unfold State.mapUnmapped
  generalize s.parts.flatMap (fun p => (List.range 24).map (fun i => (p.num, i))) = L
  induction L generalizing s with
  | nil => exact ⟨rfl, rfl⟩
  | cons a r ih =>
    rw [List.foldl_cons]
    refine ⟨(ih _).1.trans ?_, (ih _).2.trans ?_⟩ <;> (unfold State.mapOne; split; rfl; split; split <;> rfl; rfl)

theorem share_of_dies {s t : State} (h : t.dies = s.dies) (k : Nat) : t.share k = s.share k := by
  unfold State.share State.die; rw [h]

theorem unit_lt {x : MgmtArgs} (h : unitOk x = true) : x.a0.toNat * 7 + x.a1.toNat < 28 := by
  unfold unitOk at h
  simp only [Bool.and_eq_true, decide_eq_true_eq] at h
  omega

/-- The swap in progress does not depend on the cluster's state. -/
theorem swapping_none {s : State} (hI : s.Inv) {k : Nat} (hk : k < 28) {f : ClusterShare → ClusterShare}
    (hf : ∀ c, (f c).incoming = c.incoming ∧ (f c).newDefects = c.newDefects) (h : s.swapping k = none) : (s.modShare k f).swapping k = none := by
  have h1 : ((s.modShare k f).share k).incoming = (s.share k).incoming := by rw [share_modShare hI hk, (hf _).1]
  have h2 : ∀ p l, ((s.modShare k f).vacated k p).physCore k l = (s.vacated k p).physCore k l := by
    intro p l
    have e : ∀ t : State, t.Inv → ((t.vacated k p).share k).defects = (t.share k).newDefects := fun t ht =>
      congrArg ClusterShare.defects (show (t.vacated k p).share k = _ from share_modShare ht hk (fun c => { c with resident := none, preempt := false, defects := c.newDefects }))
    unfold State.physCore State.presentCores
    rw [e _ (State.modShare_inv hI k f), e _ hI, share_modShare hI hk, (hf _).2]
  unfold State.swapping at h ⊢
  rw [h1]
  cases hp : (s.share k).incoming.bind s.part? with
  | none =>
    have : (s.share k).incoming.bind (s.modShare k f).part? = none := hp
    rw [this]; rfl
  | some p =>
    have e : (s.share k).incoming.bind (s.modShare k f).part? = some p := hp
    rw [e]
    rw [hp] at h
    simp only [Option.bind_some] at h ⊢
    split at h
    · rename_i d c hl
      rw [show (s.modShare k f).savedWgs p.num d c = s.savedWgs p.num d c from rfl]
      rw [show ((s.modShare k f).wantsCluster k p && !(s.savedWgs p.num d c).isEmpty) = (s.wantsCluster k p && !(s.savedWgs p.num d c).isEmpty) from ?_]
      · exact h
      unfold State.wantsCluster
      rw [hl]
      dsimp only
      rw [show (s.modShare k f).savedWgs p.num d c = s.savedWgs p.num d c from rfl]
      cases he : (s.savedWgs p.num d c).isEmpty with
      | true => simp
      | false =>
        rw [show (fun w : Workgroup => (((s.modShare k f).vacated k p.num).physCore k w.lcore).isSome) = fun w => ((s.vacated k p.num).physCore k w.lcore).isSome from
          funext fun w => by rw [h2]]
        simp
    · rfl

theorem retire_facts {s : State} {x : MgmtArgs} (hI : s.Inv) (hb : blankFrom 3 x = true) (hu : unitOk x = true) :
    let k := x.a0.toNat * 7 + x.a1.toNat
    let mask := BitVec.ofNat 8 x.a2.toNat
    (x.a2.toNat ≠ 0 →
      (∃ u : State, exec (.retire x) s = .next (u.doneService 0x32) ∧ (u.share k).newDefects = (s.share k).newDefects ||| mask ∧ u.wgs = s.wgs) ∧
      ((s.share k).checked = true → ∃ u : State, exec (.returnUnit x) s = .next (u.doneService 0x33) ∧
        (u.share k).newDefects = (s.share k).newDefects &&& ~~~mask ∧ (u.share k).checked = false ∧ u.wgs = s.wgs)) ∧
    ((s.share k).checked = false → exec (.returnUnit x) s = .next (s.failCmd 0xB402)) ∧
    (x.a2.toNat = 0 →
      ((s.share k).state = .retired → s.mailbox.busy = false → exec (.retire x) s = .next (s.failCmd 0xB402)) ∧
      ((s.share k).state = .enabled →
        (∀ w ∈ s.wgs, coreCluster w.phys = k → w.onCore = true → ∃ u, exec (.retire x) s = .next u ∧
          (u.share k).state = .inService ∧ (u.share k).retiring = true ∧ u.wgs = s.wgs ∧ u.mailbox = s.mailbox) ∧
        ((s.share k).resident = none → s.swapping k = none → (∀ w ∈ s.wgs, coreCluster w.phys = k → w.onCore = false) → ∃ u : State,
          (u.share k).state = .retired ∧ (u.share k).retiring = false ∧ u.wgs = s.wgs ∧
          (u.contextsLeft k = false → exec (.retire x) s = .next (u.doneService 0x32)) ∧
          (u.contextsLeft k = true → exec (.retire x) s = .next u))) ∧
      ((s.share k).state ≠ .retired → exec (.returnUnit x) s = .next (s.failCmd 0xB402)) ∧
      ((s.share k).state = .retired → (s.share k).checked = true →
        let n := (((s.die x.a0.toNat).clusters).filter (fun c => c.state == .enabled)).length
        ∃ u : State, exec (.returnUnit x) s = .next (u.doneService 0x33) ∧ (u.share k).state = (if n < 6 then .enabled else .spare) ∧
          (u.share k).checked = false ∧ u.wgs = s.wgs)) := by
  intro k mask
  have hk : k < 28 := unit_lt hu
  refine ⟨fun hm => ⟨?_, fun hc => ?_⟩, fun hc => ?_, fun hm => ⟨fun hst hby => ?_, fun hst => ⟨fun w hw hwk hwc => ?_, fun hr hsw hn => ?_⟩, fun hst => ?_, fun hst hc => ?_⟩⟩
  · refine ⟨s.modShare k (fun c => { c with newDefects := c.newDefects ||| mask }), ?_, by rw [share_modShare hI hk], rfl⟩
    refine (command_ok hb ?_).trans (congrArg _ (if_pos hm))
    rw [hu, show (x.a2.toNat != 0) = true by simpa using hm]; rfl
  · refine ⟨s.modShare k (fun c => { c with newDefects := c.newDefects &&& ~~~mask, checked := false }), ?_, by rw [share_modShare hI hk], by rw [share_modShare hI hk], rfl⟩
    refine (command_ok hb ?_).trans (congrArg _ (if_pos hm))
    rw [hu, show (x.a2.toNat != 0) = true by simpa using hm]
    show (true && (s.share k).checked && _) = true
    rw [hc]; rfl
  · refine command_bad2 ?_
    show (_ && (s.share k).checked && _) = false
    rw [hc]; simp
  · refine command_bad2 ?_
    show (_ && (x.a2.toNat != 0 || (s.share k).state != .retired || s.mailbox.busy)) = false
    rw [hst, hby, hm]; simp
  · have hok : (unitOk x && (x.a2.toNat != 0 || (s.share k).state != .retired || s.mailbox.busy)) = true := by rw [hu, hst]; simp
    have e1 : (if ((s.share k).state == .enabled || (s.share k).state == .spare) = true then s.startRetiring k else s) = s.modShare k (fun c => { c with state := .inService, retiring := true }) := by
      rw [hst]; unfold State.startRetiring; rw [hst]; rfl
    obtain ⟨u, hu0⟩ : ∃ u, u = s.modShare k (fun c => { c with state := .inService, retiring := true }) := ⟨_, rfl⟩
    have hsh : u.share k = { s.share k with state := .inService, retiring := true } := by rw [hu0, share_modShare hI hk]
    have hg : u.goOnRetiring k = u := by
      unfold State.goOnRetiring
      refine if_neg ?_
      have : u.wgs.any (fun w => coreCluster w.phys == k && w.onCore) = true := List.any_eq_true.2 ⟨w, by rw [hu0]; exact hw, by rw [hwk, hwc]; simp⟩
      rw [this]; simp
    refine ⟨u, ?_, by rw [hsh], by rw [hsh], by rw [hu0]; rfl, by rw [hu0]; rfl⟩
    refine (command_ok hb hok).trans (congrArg _ ?_)
    rw [if_neg (by simpa using hm)]
    show (if (((if ((s.share k).state == .enabled || (s.share k).state == .spare) = true then s.startRetiring k else s).goOnRetiring k).share k).state == .retired && !((if ((s.share k).state == .enabled || (s.share k).state == .spare) = true then s.startRetiring k else s).goOnRetiring k).contextsLeft k then ((if ((s.share k).state == .enabled || (s.share k).state == .spare) = true then s.startRetiring k else s).goOnRetiring k).doneService 0x32 else (if ((s.share k).state == .enabled || (s.share k).state == .spare) = true then s.startRetiring k else s).goOnRetiring k) = u
    rw [e1, ← hu0, hg]
    rw [hsh]; rfl
  · have hok : (unitOk x && (x.a2.toNat != 0 || (s.share k).state != .retired || s.mailbox.busy)) = true := by rw [hu, hst]; simp
    have e1 : (if ((s.share k).state == .enabled || (s.share k).state == .spare) = true then s.startRetiring k else s) = s.modShare k (fun c => { c with state := .inService, retiring := true }) := by
      rw [hst]; unfold State.startRetiring; rw [hst]; rfl
    obtain ⟨v, hv0⟩ : ∃ v, v = s.modShare k (fun c => { c with state := .inService, retiring := true }) := ⟨_, rfl⟩
    have hsh : v.share k = { s.share k with state := .inService, retiring := true } := by rw [hv0, share_modShare hI hk]
    have hvI : v.Inv := by rw [hv0]; exact State.modShare_inv hI _ _
    have hg : v.goOnRetiring k = (v.moveAll k).modShare k (fun c => { c with state := .retired, retiring := false, checked := false }) := by
      unfold State.goOnRetiring
      refine if_pos ?_
      have : v.wgs.any (fun w => coreCluster w.phys == k && w.onCore) = false := by
        rw [List.any_eq_false]
        intro w hw
        rw [hv0] at hw
        intro he
        simp only [Bool.and_eq_true, beq_iff_eq] at he
        rw [hn w hw he.1] at he
        exact nomatch he.2
      rw [this, hsh, hr, hv0,
        swapping_none hI hk (f := fun c => { c with state := .inService, retiring := true }) (fun c => ⟨rfl, rfl⟩) hsw]; rfl
    have hu1 : (v.goOnRetiring k).share k = { (v.moveAll k).share k with state := .retired, retiring := false, checked := false } := by
      rw [hg, share_modShare (State.moveAll_inv v k hvI) hk]
    have e2 : exec (.retire x) s = .next (if ((v.goOnRetiring k).share k).state == .retired && !(v.goOnRetiring k).contextsLeft k then (v.goOnRetiring k).doneService 0x32 else v.goOnRetiring k) := by
      refine (command_ok hb hok).trans (congrArg _ ?_)
      rw [if_neg (by simpa using hm)]
      show (if (((if ((s.share k).state == .enabled || (s.share k).state == .spare) = true then s.startRetiring k else s).goOnRetiring k).share k).state == .retired && !((if ((s.share k).state == .enabled || (s.share k).state == .spare) = true then s.startRetiring k else s).goOnRetiring k).contextsLeft k then ((if ((s.share k).state == .enabled || (s.share k).state == .spare) = true then s.startRetiring k else s).goOnRetiring k).doneService 0x32 else (if ((s.share k).state == .enabled || (s.share k).state == .spare) = true then s.startRetiring k else s).goOnRetiring k) = _
      rw [e1, ← hv0]
    refine ⟨v.goOnRetiring k, by rw [hu1], by rw [hu1], by rw [(goOn_wgs v k).1, hv0]; rfl, fun hc => ?_, fun hc => ?_⟩
    · rw [e2, hu1, hc]; rfl
    · rw [e2, hu1, hc]; rfl
  · refine command_bad2 ?_
    show (_ && (s.share k).checked && (x.a2.toNat != 0 || (s.share k).state == .retired)) = false
    rw [hm, show ((s.share k).state == ClusterState.retired) = false by simpa using hst]; simp
  · intro n
    obtain ⟨u, hu0⟩ : ∃ u, u = s.modShare k (fun c => { c with state := if n < 6 then .enabled else .spare, checked := false }) := ⟨_, rfl⟩
    have hsh : u.share k = { s.share k with state := if n < 6 then .enabled else .spare, checked := false } := by rw [hu0, share_modShare hI hk]
    obtain ⟨t1, t2⟩ := mapUnmapped_dies u
    refine ⟨u.mapUnmapped, ?_, by rw [share_of_dies t1, hsh], by rw [share_of_dies t1, hsh], by rw [t2, hu0]; rfl⟩
    refine (command_ok hb ?_).trans (congrArg _ ((if_neg (by simpa using hm)).trans (by rw [hu0])))
    show (unitOk x && (s.share k).checked && (x.a2.toNat != 0 || (s.share k).state == .retired)) = true
    rw [hu, hc, hst]; simp

theorem foldSet {l : List Nat} : ∀ (L : List Nat), (∀ a ∈ L, a ∈ l.foldl (fun l g => setAdd g l) L) ∧ ∀ a ∈ l, a ∈ l.foldl (fun l g => setAdd g l) L := by
  have hm : ∀ (g a : Nat) (L : List Nat), (a ∈ L → a ∈ setAdd g L) ∧ g ∈ setAdd g L := by
    exact fun g a L => ⟨fun h => (mem_setAdd g a L).2 (.inr h), (mem_setAdd g g L).2 (.inl rfl)⟩
  induction l with
  | nil => exact fun L => ⟨fun a h => h, fun a h => nomatch h⟩
  | cons x t ih =>
    intro L
    rw [List.foldl_cons]
    obtain ⟨i1, i2⟩ := ih (setAdd x L)
    exact ⟨fun a h => i1 a ((hm x a L).1 h), fun a h => by
      rcases List.mem_cons.1 h with rfl | h
      · exact i1 _ (hm _ 0 L).2
      · exact i2 a h⟩

theorem poisoned (s : State) (gs : List Nat) : ∀ g ∈ gs, g ∈ (s.poisonGranules gs).poison ∧ g ∉ (s.poisonGranules gs).tags := by
  intro g hg
  refine ⟨(foldSet (l := gs) s.poison).2 g hg, fun h => ?_⟩
  have := (List.mem_filter.1 (show g ∈ List.filter _ _ from h)).2
  simp [hg] at this

theorem countFold (ls : List Nat) : ∀ u : State, (ls.foldl (fun s l => s.countRetrain l) u).mem = u.mem ∧ (ls.foldl (fun s l => s.countRetrain l) u).parts = u.parts ∧
    (ls.foldl (fun s l => s.countRetrain l) u).records = u.records ∧ (ls.foldl (fun s l => s.countRetrain l) u).badLanes = u.badLanes := by
  induction ls with
  | nil => exact fun u => ⟨rfl, rfl, rfl, rfl⟩
  | cons a r ih => intro u; rw [List.foldl_cons]; exact ih _

/-- 25 R475: what RSTCAUSE of a die reads. -/
def Took (u : State) (die cause scope code : Nat) : Prop :=
  bits (u.die die).rstcause.toNat 7 0 = cause ∧ bits (u.die die).rstcause.toNat 15 8 = scope ∧ bits (u.die die).rstcause.toNat 31 16 = code

theorem Quiet.refl (s : State) : Quiet s s := ⟨rfl, rfl, rfl, rfl, rfl, rfl, rfl, rfl, rfl, rfl, rfl, ⟨rfl, rfl⟩⟩

theorem noteReset_facts {s : State} {part : Nat} (h : s.part? part = none) (die cause scope code : Nat) :
    ∃ f : Die → Die, (∀ d, (f d).rstcause = BitVec.ofNat 64 ((bits (s.die die).rstcause.toNat 63 32 + 1) % 2 ^ 32 * 2 ^ 32 + code % 2 ^ 16 * 2 ^ 16 + scope * 256 + cause)) ∧
      (∀ d, (f d).throttled = d.throttled ∧ (f d).fwActiveB = d.fwActiveB) ∧ Quiet (s.modDie die f) (s.noteReset die part cause scope code) := by
  refine ⟨fun d => { d with rstcause := BitVec.ofNat 64 ((bits (s.die die).rstcause.toNat 63 32 + 1) % 2 ^ 32 * 2 ^ 32 + code % 2 ^ 16 * 2 ^ 16 + scope * 256 + cause) }, fun _ => rfl, fun _ => ⟨rfl, rfl⟩, ?_⟩
  unfold State.noteReset
  exact (record_quiet h).1

theorem note_took {s : State} {part die cause scope code : Nat} (h : s.part? part = none) (hd : die < s.dies.length) (h1 : cause < 256) (h2 : scope < 256) (h3 : code < 2 ^ 16) :
    Took (s.noteReset die part cause scope code) die cause scope code := by
  obtain ⟨f, hf, -, q⟩ := noteReset_facts h die cause scope code
  have e : ((s.noteReset die part cause scope code).die die).rstcause = BitVec.ofNat 64 ((bits (s.die die).rstcause.toNat 63 32 + 1) % 2 ^ 32 * 2 ^ 32 + code % 2 ^ 16 * 2 ^ 16 + scope * 256 + cause) := by
    have : (s.noteReset die part cause scope code).die die = (s.modDie die f).die die := by unfold State.die; rw [q.dies]
    rw [this, die_modDie, if_pos ⟨rfl, hd⟩, hf]
  unfold Took
  rw [e, BitVec.toNat_ofNat]
  generalize (bits (s.die die).rstcause.toNat 63 32 + 1) = n
  unfold bits
  refine ⟨?_, ?_, ?_⟩ <;> omega

theorem took_of_dies {s t : State} {d a b c : Nat} (h : t.dies = s.dies) (k : Took s d a b c) : Took t d a b c := by
  unfold Took State.die at *; rw [h]; exact k

theorem note_other {s : State} {part die e cause scope code : Nat} (h : s.part? part = none) (hne : die ≠ e) : (s.noteReset die part cause scope code).die e = s.die e := by
  obtain ⟨f, -, -, q⟩ := noteReset_facts h die cause scope code
  have : (s.noteReset die part cause scope code).die e = (s.modDie die f).die e := by unfold State.die; rw [q.dies]
  rw [this, die_modDie, if_neg (fun hh => hne hh.1)]

theorem note_len {s : State} {part die cause scope code : Nat} (h : s.part? part = none) : (s.noteReset die part cause scope code).dies.length = s.dies.length := by
  obtain ⟨f, -, -, q⟩ := noteReset_facts h die cause scope code
  rw [q.dies]; simp [State.modDie]

/-- All of `Quiet` but for the dies. -/
structure Still (s t : State) : Prop where
  mem : t.mem = s.mem
  tags : t.tags = s.tags
  poison : t.poison = s.poison
  cores : t.cores = s.cores
  parts : t.parts = s.parts
  wgs : t.wgs = s.wgs
  groups : t.groups = s.groups
  halts : t.halts.map (·.wgs) = s.halts.map (·.wgs)
  hparts : t.halts.map (fun h => (h.part, h.fdom)) = s.halts.map (fun h => (h.part, h.fdom))
  master : t.master = s.master
  link : t.linkDown = s.linkDown ∧ t.badLanes = s.badLanes

theorem Still.trans {s t u : State} (h : Still s t) (k : Still t u) : Still s u :=
  ⟨k.mem.trans h.mem, k.tags.trans h.tags, k.poison.trans h.poison, k.cores.trans h.cores, k.parts.trans h.parts, k.wgs.trans h.wgs,
   k.groups.trans h.groups, k.halts.trans h.halts, k.hparts.trans h.hparts, k.master.trans h.master,
   ⟨k.link.1.trans h.link.1, k.link.2.trans h.link.2⟩⟩

theorem Quiet.still {s t : State} (h : Quiet s t) : Still s t :=
  ⟨h.mem, h.tags, h.poison, h.cores, h.parts, h.wgs, h.groups, h.halts, h.hparts, h.master, h.link⟩

theorem still_modDie (s : State) (d : Nat) (f : Die → Die) : Still s (s.modDie d f) :=
  ⟨rfl, rfl, rfl, rfl, rfl, rfl, rfl, rfl, rfl, rfl, ⟨rfl, rfl⟩⟩

theorem note_still {s : State} {part die cause scope code : Nat} (h : s.part? part = none) : Still s (s.noteReset die part cause scope code) := by
  obtain ⟨f, -, -, q⟩ := noteReset_facts h die cause scope code
  exact (still_modDie s die f).trans q.still

theorem finish_quiet (t : State) (a b : Nat) (c : List Nat) : Quiet t (t.finishCmd a b c) := by
  refine ⟨?_, ?_, ?_, ?_, ?_, ?_, ?_, ?_, ?_, ?_, ?_, ?_⟩
  all_goals unfold State.finishCmd
  all_goals first | rfl | exact ⟨rfl, rfl⟩

theorem failCmd_quiet {s : State} (h : s.part? 0xFFFF = none) (code : Nat) : Quiet s (s.failCmd code) := by
  have q := (record_quiet (s := s) (r := { s.plainRecord 0xFFFF s.master code 0 with engine := 12 * 2 ^ 24 }) h).1
  exact q.trans (finish_quiet _ _ _ _)

theorem failService_quiet {s : State} (h : s.part? 0xFFFF = none) : Quiet s s.failService := by
  unfold State.failService
  split
  · exact failCmd_quiet h _
  · exact Quiet.refl s

theorem modLaunch_parts (s : State) (part t : Nat) (f : Launch → Launch) : (s.modLaunch part t f).parts.map (fun p => (p.num, p.pdie)) = s.parts.map (fun p => (p.num, p.pdie)) := by
  unfold State.modLaunch State.modPart
  refine map_replaceBy_same _ _ (fun p : Partition => (p.num, p.pdie)) (fun a => ?_) s.parts
  rfl

theorem wipeDie_facts (s : State) (die : Nat) :
    (∀ w ∈ (s.wipeDie die).wgs, w ∈ s.wgs ∧ w.atDie die = false) ∧ (∀ kc ∈ (s.wipeDie die).cores, coreDie kc.1 ≠ die) ∧
      (s.wipeDie die).parts.map (fun p => (p.num, p.pdie)) = s.parts.map (fun p => (p.num, p.pdie)) ∧ (s.wipeDie die).dies.length = s.dies.length := by
  unfold State.wipeDie
  dsimp only
  obtain ⟨ks, hks⟩ : ∃ ks, ks = (s.wgs.filter (fun w => w.atDie die)).map (·.key) := ⟨_, rfl⟩
  have hfold : ∀ (L : List Workgroup) (v : State), (L.foldl (fun s w => s.modLaunch w.part w.ticket (fun l => { l with failed := true, retired := l.retired + 1 })) v).wgs = v.wgs ∧
      (L.foldl (fun s w => s.modLaunch w.part w.ticket (fun l => { l with failed := true, retired := l.retired + 1 })) v).dies = v.dies ∧
      (L.foldl (fun s w => s.modLaunch w.part w.ticket (fun l => { l with failed := true, retired := l.retired + 1 })) v).parts.map (fun p => (p.num, p.pdie)) = v.parts.map (fun p => (p.num, p.pdie)) := by
    intro L
    induction L with
    | nil => exact fun v => ⟨rfl, rfl, rfl⟩
    | cons a r ih =>
      intro v
      rw [List.foldl_cons]
      exact ⟨(ih _).1, (ih _).2.1, (ih _).2.2.trans (modLaunch_parts v _ _ _)⟩
  obtain ⟨f1, f2, f3⟩ := hfold (s.wgs.filter (fun w => w.atDie die && !w.retired)) s
  obtain ⟨v, hv⟩ : ∃ v, v = (s.wgs.filter (fun w => w.atDie die && !w.retired)).foldl (fun s w => s.modLaunch w.part w.ticket (fun l => { l with failed := true, retired := l.retired + 1 })) s := ⟨_, rfl⟩
  rw [← hv] at f1 f2 f3
  rw [← hks, ← hv]
  have hw : ∀ (C : List Nat) (t : State), (C.foldl (fun s k => s.wipe k (2 ^ 26)) t).wgs = t.wgs ∧ (C.foldl (fun s k => s.wipe k (2 ^ 26)) t).dies = t.dies ∧ (C.foldl (fun s k => s.wipe k (2 ^ 26)) t).parts = t.parts := by
    intro C
    induction C with
    | nil => exact fun t => ⟨rfl, rfl, rfl⟩
    | cons a r ih => intro t; rw [List.foldl_cons]; exact ih _
  obtain ⟨C, hC⟩ : ∃ C, C = s.parts.flatMap (fun p => ((List.range 4).filter (fun d => d < p.ndie && p.pdie.getD d 4 == die)).map (fun d => carveKey p.num d 0)) := ⟨_, rfl⟩
  rw [← hC]
  obtain ⟨w1, w2, w3⟩ := hw C (v.dropWgs ks)
  obtain ⟨t, ht⟩ : ∃ t, t = C.foldl (fun s k => s.wipe k (2 ^ 26)) (v.dropWgs ks) := ⟨_, rfl⟩
  rw [← ht] at w1 w2 w3
  rw [← ht]
  refine ⟨fun w hw => ?_, fun kc hkc => ?_, ?_, ?_⟩
  · have hw2 : w ∈ t.wgs := hw
    rw [w1] at hw2
    obtain ⟨h1, h2⟩ := List.mem_filter.1 (show w ∈ List.filter (fun w => !ks.contains w.key) v.wgs from hw2)
    rw [f1] at h1
    refine ⟨h1, ?_⟩
    cases hd : w.atDie die with
    | false => rfl
    | true =>
      have : w.key ∈ ks := by rw [hks]; exact List.mem_map.2 ⟨w, List.mem_filter.2 ⟨h1, hd⟩, rfl⟩
      simp [this] at h2
  · have := (List.mem_filter.1 (show kc ∈ List.filter _ _ from hkc)).2
    simpa using this
  · exact (congrArg (List.map (fun p : Partition => (p.num, p.pdie))) w3).trans f3
  · show (t.dies.modify die Die.cleared).length = _
    rw [List.length_modify, w2]
    exact congrArg List.length f2

theorem nums_none {s t : State} {n : Nat} (h : t.parts.map (fun p => (p.num, p.pdie)) = s.parts.map (fun p => (p.num, p.pdie))) (h0 : s.part? n = none) : t.part? n = none := by
  unfold State.part? at *
  rw [List.find?_eq_none] at *
  intro p hp he
  have : (p.num, p.pdie) ∈ s.parts.map (fun p => (p.num, p.pdie)) := by rw [← h]; exact List.mem_map.2 ⟨p, hp, rfl⟩
  obtain ⟨q, hq, heq⟩ := List.mem_map.1 this
  have e1 : q.num = p.num := congrArg Prod.fst heq
  exact h0 q hq (by rw [e1]; exact he)

/-- What a reset of a die loses. -/
def Lost (s u : State) (die cause code : Nat) : Prop :=
  Took u die cause 1 code ∧ (∀ w ∈ u.wgs, w ∈ s.wgs ∧ w.atDie die = false) ∧ (∀ kc ∈ u.cores, coreDie kc.1 ≠ die) ∧
    ∀ p ∈ s.parts, die ∈ p.pdie → ∃ h ∈ u.halts, h.part = p.num ∧ h.fdom = 3

theorem resetDie_lost {s : State} (h0 : s.part? 0xFFFF = none) {die cause code : Nat} (hd : die < s.dies.length) (h1 : cause < 256) (h3 : code < 2 ^ 16) :
    Lost s (s.resetDie die cause code) die cause code := by
  obtain ⟨a1, a2, a3, a4⟩ := wipeDie_facts s die
  unfold State.resetDie
  obtain ⟨hit, hhit⟩ : ∃ hit, hit = s.parts.filter (fun p => p.pdie.contains die) := ⟨_, rfl⟩
  obtain ⟨v, hv⟩ : ∃ v, v = s.wipeDie die := ⟨_, rfl⟩
  rw [← hv] at a1 a2 a3 a4
  have hv0 := nums_none a3 h0
  have hst := note_still (die := die) (cause := cause) (scope := 1) (code := code) hv0
  have htk := note_took (die := die) (cause := cause) (scope := 1) (code := code) hv0 (by omega) h1 (by decide) h3
  obtain ⟨u, hu⟩ : ∃ u, u = v.noteReset die 0xFFFF cause 1 code := ⟨_, rfl⟩
  rw [← hu] at hst htk
  dsimp only
  rw [← hhit, ← hv, ← hu]
  have hfold : ∀ (L : List Partition) (t : State),
      let F := fun (s : State) (p : Partition) =>
        let r := { s.plainRecord p.num die (if code = 0 then 0xB407 else code) (actionOf 4 2) with engine := 12 * 2 ^ 24 }
        ({ s with halts := if s.halts.any (fun h => h.part == p.num && h.fdom == 3) then s.halts else s.halts ++
          [{ stage := .raised, part := p.num, fdom := 3, ticket := 0, wg := 0, die := die, wgs := (s.wgs.filter (fun w => w.part == p.num)).map (·.key), cause := r, haltCyc := 0, nsecond := 0, second := none, records := [r], dropped := false, ctxLost := (s.wgs.filter (fun w => w.part == p.num)).isEmpty }] } : State)
      (L.foldl F t).wgs = t.wgs ∧ (L.foldl F t).cores = t.cores ∧ (L.foldl F t).dies = t.dies ∧ (L.foldl F t).parts = t.parts ∧
        (∀ h ∈ t.halts, h ∈ (L.foldl F t).halts) ∧ ∀ p ∈ L, ∃ h ∈ (L.foldl F t).halts, h.part = p.num ∧ h.fdom = 3 := by
    intro L
    induction L with
    | nil => exact fun t => ⟨rfl, rfl, rfl, rfl, fun h hh => hh, fun p hp => nomatch hp⟩
    | cons a r ih =>
      intro t F
      rw [List.foldl_cons]
      obtain ⟨i1, i2, i3, i4, i5, i6⟩ := ih (F t a)
      refine ⟨i1, i2, i3, i4, fun h hh => i5 h ?_, fun p hp => ?_⟩
      · dsimp only [F]; split
        · exact hh
        · exact List.mem_append_left _ hh
      · rcases List.mem_cons.1 hp with rfl | hp
        · by_cases hc : t.halts.any (fun h => h.part == p.num && h.fdom == 3) = true
          · obtain ⟨h, hm, he⟩ := List.any_eq_true.1 hc
            simp only [Bool.and_eq_true, beq_iff_eq] at he
            exact ⟨h, i5 h (by dsimp only [F]; rw [if_pos hc]; exact hm), he⟩
          · refine ⟨_, i5 _ (by dsimp only [F]; rw [if_neg hc]; exact List.mem_append_right _ (List.mem_singleton.2 rfl)), rfl, rfl⟩
        · exact i6 p hp
  obtain ⟨f1, f2, f3, f4, f5, f6⟩ := hfold hit u
  have hq := failService_quiet (part?_of (f4.trans hst.parts) hv0)
  refine ⟨took_of_dies (hq.dies.trans f3) htk, fun w hw => a1 w ?_, fun kc hkc => a2 kc ?_, fun p hp hpd => ?_⟩
  · rw [hq.wgs] at hw
    have hw2 := hw
    rw [f1, hst.wgs] at hw2
    exact hw2
  · rw [hq.cores] at hkc
    have h2 := hkc
    rw [f2, hst.cores] at h2
    exact h2
  · obtain ⟨h, hm, he1, he2⟩ := f6 p (by rw [hhit]; exact List.mem_filter.2 ⟨hp, by simpa using hpd⟩)
    have this := List.mem_map_of_mem (f := fun h : Halt => (h.part, h.fdom)) hm
    rw [← hq.hparts] at this
    obtain ⟨g, hg, heq⟩ := List.mem_map.1 this
    exact ⟨g, hg, (congrArg Prod.fst heq).trans he1, (congrArg Prod.snd heq).trans he2⟩

theorem Lost.of {s t u : State} {die cause code : Nat} (hw : t.wgs = s.wgs) (hp : t.parts = s.parts) (h : Lost t u die cause code) : Lost s u die cause code := by
  obtain ⟨a, b, c, d⟩ := h
  exact ⟨a, fun w hh => by rw [← hw]; exact b w hh, c, fun p hh => d p (by rw [hp]; exact hh)⟩

def Gone (u : State) : Prop := u.parts = [] ∧ u.wgs = [] ∧ u.groups = [] ∧ u.cores = [] ∧ u.halts = []

theorem gone_of {s t : State} (h : Still s t) (k : Gone s) : Gone t := by
  obtain ⟨a, b, c, d, e⟩ := k
  refine ⟨h.parts.trans a, h.wgs.trans b, h.groups.trans c, h.cores.trans d, ?_⟩
  have := h.halts
  rw [e] at this
  exact List.map_eq_nil_iff.1 this

theorem part?_gone {s : State} (h : s.parts = []) (n : Nat) : s.part? n = none := by unfold State.part?; rw [h]; rfl

theorem noteAll {s : State} (h : s.part? 0xFFFF = none) {cause : Nat} (hc : cause < 256) : ∀ L : List Nat, L.Nodup → (∀ d ∈ L, d < s.dies.length) →
    ∀ v : State, Still s v → v.dies.length = s.dies.length →
      let u := L.foldl (fun s d => s.noteReset d 0xFFFF cause 0 0) v
      Still s u ∧ (∀ d ∈ L, Took u d cause 0 0) ∧ ∀ d, d ∉ L → u.die d = v.die d := by
  intro L
  induction L with
  | nil => 
    intro _ _ v hv _
    exact ⟨hv, ⟨fun d hd => (List.not_mem_nil hd).elim, fun d _ => rfl⟩⟩
  | cons a r ih =>
    intro hn hlt v hv hl
    have hv0 : v.part? 0xFFFF = none := part?_of hv.parts h
    obtain ⟨h1, h2⟩ := List.nodup_cons.1 hn
    obtain ⟨i1, i2, i3⟩ := ih h2 (fun d hd => hlt d (List.mem_cons_of_mem _ hd)) (v.noteReset a 0xFFFF cause 0 0) (hv.trans (note_still hv0)) ((note_len hv0).trans hl)
    refine ⟨i1, fun d hd => ?_, fun d hd => ?_⟩
    · rcases List.mem_cons.1 hd with rfl | hd
      · have hk := note_took (die := d) (cause := cause) (scope := 0) (code := 0) hv0 (by rw [hl]; exact hlt _ (List.mem_cons_self ..)) hc (by decide) (by decide)
        unfold Took at hk ⊢
        rw [List.foldl_cons, i3 d h1]
        exact hk
      · exact i2 d hd
    · rw [List.foldl_cons, i3 d (fun hh => hd (List.mem_cons_of_mem _ hh)), note_other hv0 (fun hh => hd (by rw [hh]; exact List.mem_cons_self ..))]

theorem assocGet_filter (q : Nat → Bool) (l : List Host.Cell) (k : Nat) (hk : q k = true) : assocGet resetByte k (l.filter (fun kv => q kv.1)) = assocGet resetByte k l := by
  induction l with
  | nil => rfl
  | cons a t ih =>
    obtain ⟨j, v⟩ := a
    cases hq : q j with
    | true =>
      rw [List.filter_cons_of_pos (by exact hq)]
      show (if j = k then v else assocGet resetByte k (t.filter (fun kv => q kv.1))) = if j = k then v else assocGet resetByte k t
      rw [ih]
    | false =>
      rw [List.filter_cons_of_neg (by rw [hq]; simp), ih]
      show _ = if j = k then v else assocGet resetByte k t
      rw [if_neg (fun h => by subst h; rw [hk] at hq; exact nomatch hq)]

theorem resetPackage_facts (s : State) (hI : s.Inv) {cause : Nat} (hc : cause < 256) (keep : Bool) :
    Gone (s.resetPackage cause 0 keep) ∧ (∀ d < 4, Took (s.resetPackage cause 0 keep) d cause 0 0) ∧
      (s.resetPackage cause 0 keep).mem = (if keep then s.mem.filter (fun kv => isGlobal kv.1) else []) ∧
      (s.resetPackage cause 0 keep).tags = (if keep then s.tags.filter (fun g => isGlobal (16 * g)) else []) := by
  obtain ⟨v, hv⟩ : ∃ v : State, v = { State.reset with
    free := s.free, serial := s.serial, agenda := s.agenda, master := s.master, pod := s.pod, linkDown := s.linkDown,
    badLanes := s.badLanes, retrains := s.retrains, powerCap := s.powerCap, paths := if keep then s.paths else [],
    mem := if keep then s.mem.filter (fun kv => isGlobal kv.1) else [],
    tags := if keep then s.tags.filter (fun g => isGlobal (16 * g)) else [],
    poison := if keep then s.poison.filter (fun g => isGlobal (16 * g)) else [],
    records := if keep then s.records else [], recordBase := if keep then s.recordBase else 0,
    classes := if keep then s.classes else State.reset.classes, dies := s.dies.map Die.cleared } := ⟨_, rfl⟩
  have hg : Gone v := by rw [hv]; exact ⟨rfl, rfl, rfl, rfl, rfl⟩
  have hl : v.dies.length = 4 := by rw [hv]; exact (List.length_map ..).trans hI.dies.1
  have hm : v.mem = (if keep then s.mem.filter (fun kv => isGlobal kv.1) else []) ∧ v.tags = (if keep then s.tags.filter (fun g => isGlobal (16 * g)) else []) := by rw [hv]; exact ⟨rfl, rfl⟩
  have e : s.resetPackage cause 0 keep = (List.range 4).foldl (fun s d => s.noteReset d 0xFFFF cause 0 0)
      (if s.mailbox.busy then v.record { v.plainRecord 0xFFFF v.master 0xB403 0 with engine := 12 * 2 ^ 24 } else v) := by rw [hv]; rfl
  have hv0 := part?_gone hg.1 0xFFFF
  obtain ⟨t, ht, hst, hl2⟩ : ∃ t, t = (if s.mailbox.busy then v.record { v.plainRecord 0xFFFF v.master 0xB403 0 with engine := 12 * 2 ^ 24 } else v) ∧ Still v t ∧ t.dies.length = 4 := by
    refine ⟨_, rfl, ?_, ?_⟩ <;> split
    · exact (record_quiet hv0).1.still
    · exact (Quiet.refl v).still
    · rw [(record_quiet hv0).1.dies]; exact hl
    · exact hl
  obtain ⟨a, b, -⟩ := noteAll hv0 hc (List.range 4) List.nodup_range (fun d hd => by rw [hl]; exact List.mem_range.1 hd) t hst (hl2.trans hl.symm)
  rw [e, ← ht]
  exact ⟨gone_of a hg, fun d hd => b d (List.mem_range.2 hd), a.mem.trans hm.1, a.tags.trans hm.2⟩

theorem fatal_halts (s : State) (w : Workgroup) (r : ErrorRecord) (hw : w ∈ s.wgs) :
    (∃ h ∈ (s.fatal w r).halts, w.key ∈ h.wgs) ∧ (∀ L ∈ s.halts.map (·.wgs), L ∈ (s.fatal w r).halts.map (·.wgs)) ∧ (s.fatal w r).wgs = s.wgs := by
  unfold State.fatal
  dsimp only
  obtain ⟨q, hq⟩ : ∃ q, q = (if r.action = 0 then { r with action := actionOf (w.fdom + 1) 2 } else r) := ⟨_, rfl⟩
  rw [← hq]
  have hc : (s.record q).Calm s.placed := State.record_calm s q rfl
  have hh : (s.record q).halts.map (·.wgs) = s.halts.map (·.wgs) := congrArg (fun G : Placed => G.2.2.1) hc
  have hwg : (s.record q).wgs = s.wgs := calm_wgs hc
  obtain ⟨t, ht⟩ : ∃ t, t = s.record q := ⟨_, rfl⟩
  rw [← ht] at hh hwg ⊢
  split
  · next ha =>
    refine ⟨?_, fun L hL => ?_, hwg⟩
    · obtain ⟨h, h1, h2⟩ := mem_replaceBy_some _ (fun h => { h with nsecond := h.nsecond + 1, second := if h.second.isNone then some q else h.second }) ha
      exact ⟨_, h2, by simpa using h1⟩
    · rw [← hh] at hL
      show L ∈ List.map _ (replaceBy _ _ _)
      rw [map_replaceBy_same (fun h : Halt => h.wgs.contains w.key) (fun h : Halt => { h with nsecond := h.nsecond + 1, second := if h.second.isNone then some q else h.second }) (fun h : Halt => h.wgs) (fun a => rfl)]
      exact hL
  · refine ⟨⟨_, List.mem_append_right _ (List.mem_singleton.2 rfl), ?_⟩, fun L hL => ?_, hwg⟩
    · refine List.mem_map.2 ⟨w, List.mem_filter.2 ⟨by rw [hwg]; exact hw, ?_⟩, rfl⟩
      split <;> simp
    · rw [← hh] at hL
      show L ∈ List.map _ (_ ++ _)
      rw [List.map_append]
      exact List.mem_append_left _ hL

theorem wg?_mem {s : State} {k : Nat} {w : Workgroup} (h : s.wg? k = some w) : w ∈ s.wgs ∧ w.key = k := by
  unfold State.wg? at h
  exact ⟨List.mem_of_find?_eq_some h, by simpa using List.find?_some h⟩

theorem resetCluster_facts {s : State} (hI : s.Inv) (h0 : s.part? 0xFFFF = none) {k : Nat} (hk : k < 28) :
    ((s.resetCluster k).share k).state ≠ .enabled ∧ ((s.resetCluster k).share k).state ≠ .spare ∧
      (∀ w ∈ s.wgs, coreCluster w.phys = k → w.onCore = true → ∃ h ∈ (s.resetCluster k).halts, w.key ∈ h.wgs) ∧ (s.resetCluster k).wgs = s.wgs := by
  unfold State.resetCluster
  obtain ⟨ws, hws⟩ : ∃ ws, ws = s.wgs.filter (fun w => coreCluster w.phys == k && w.onCore) := ⟨_, rfl⟩
  have hst := note_still (die := k / 7) (cause := 5) (scope := 2) (code := 0) h0
  have hIn := State.noteReset_inv s (k / 7) 0xFFFF 5 2 0 hI
  obtain ⟨v, hv⟩ : ∃ v, v = s.noteReset (k / 7) 0xFFFF 5 2 0 := ⟨_, rfl⟩
  rw [← hv] at hst hIn
  dsimp only
  rw [← hws, ← hv]
  have hfold : ∀ (L : List Workgroup) (t : State), t.Inv → t.wgs = s.wgs → (∀ w ∈ L, w ∈ s.wgs) →
      let u := L.foldl (fun s w => s.fatal w { s.plainRecord w.part (k / 7) 0xB407 0 with
        recov := 0, ctxv := true, ticket := w.ticket, wg := w.wg, engine := engineOf 1 w.phys }) t
      u.Inv ∧ u.wgs = s.wgs ∧ (∀ L ∈ t.halts.map (·.wgs), L ∈ u.halts.map (·.wgs)) ∧ ∀ w ∈ L, ∃ h ∈ u.halts, w.key ∈ h.wgs := by
    intro L
    induction L with
    | nil => exact fun t a b _ => ⟨a, b, fun L h => h, fun w h => nomatch h⟩
    | cons a r ih =>
      intro t ht hw hL u
      obtain ⟨f1, f2, f3⟩ := fatal_halts t a { t.plainRecord a.part (k / 7) 0xB407 0 with recov := 0, ctxv := true, ticket := a.ticket, wg := a.wg, engine := engineOf 1 a.phys } (by rw [hw]; exact hL a (List.mem_cons_self ..))
      obtain ⟨i1, i2, i3, i4⟩ := ih _ (State.fatal_inv t a { t.plainRecord a.part (k / 7) 0xB407 0 with recov := 0, ctxv := true, ticket := a.ticket, wg := a.wg, engine := engineOf 1 a.phys } ht) (f3.trans hw) (fun w h => hL w (List.mem_cons_of_mem _ h))
      refine ⟨i1, i2, fun L h => i3 L (f2 L h), fun w hw => ?_⟩
      rcases List.mem_cons.1 hw with rfl | hw
      · obtain ⟨h, hm, hk⟩ := f1
        obtain ⟨g, hg, he⟩ := List.mem_map.1 (i3 h.wgs (List.mem_map.2 ⟨h, hm, rfl⟩))
        exact ⟨g, hg, by rw [he]; exact hk⟩
      · exact i4 w hw
  obtain ⟨f1, f2, f3, f4⟩ := hfold ws v hIn hst.wgs (fun w hw => by rw [hws] at hw; exact (List.mem_filter.1 hw).1)
  obtain ⟨t, ht⟩ : ∃ t, t = ws.foldl (fun s w => s.fatal w { s.plainRecord w.part (k / 7) 0xB407 0 with
        recov := 0, ctxv := true, ticket := w.ticket, wg := w.wg, engine := engineOf 1 w.phys }) v := ⟨_, rfl⟩
  rw [← ht] at f1 f2 f3 f4
  rw [← ht]
  obtain ⟨u, hu, hud, huw, huh⟩ : ∃ u : State, u = State.wipe ({ t with cores := t.cores.filter (fun kc => coreCluster kc.1 != k) } : State) (scratchKey (k * 8) 0) (8 * 2 ^ 21) ∧ u.dies = t.dies ∧ u.wgs = t.wgs ∧ u.halts = t.halts := ⟨State.wipe ({ t with cores := t.cores.filter (fun kc => coreCluster kc.1 != k) } : State) (scratchKey (k * 8) 0) (8 * 2 ^ 21), rfl, by unfold State.wipe; rfl, by unfold State.wipe; rfl, by unfold State.wipe; rfl⟩
  rw [← hu]
  have hsh : ∀ f : ClusterShare → ClusterShare, (u.modShare k f).share k = f (t.share k) := by
    intro f
    have e : (u.modShare k f).dies = (t.modShare k f).dies := by unfold State.modShare State.modDie; rw [hud]
    rw [share_of_dies e, share_modShare f1 hk]
  have hws2 : (u.startRetiring k).wgs = s.wgs := by
    unfold State.startRetiring; split <;> exact huw.trans f2
  have hhs2 : (u.startRetiring k).halts = t.halts := by
    unfold State.startRetiring; split <;> exact huh
  refine ⟨?_, ?_, fun w hw hwk hwc => ?_, hws2⟩
  · unfold State.startRetiring; split <;> (rw [hsh]; simp)
  · unfold State.startRetiring; split <;> (rw [hsh]; simp)
  · rw [hhs2]
    exact f4 w (by rw [hws]; exact List.mem_filter.2 ⟨hw, by rw [hwk, hwc]; simp⟩)

theorem resetCirque_facts {s : State} (h0 : s.part? 0xFFFF = none) {die master cause code : Nat} (hd : die < s.dies.length) (hc : cause < 256) (hcode : code < 2 ^ 16) :
    let u := s.resetCirque die master cause code
    (u.mem = s.mem ∧ u.tags = s.tags ∧ u.poison = s.poison ∧ u.cores = s.cores ∧ u.parts = s.parts ∧ u.wgs = s.wgs ∧ u.groups = s.groups) ∧
      Took u die cause 4 code ∧ u.master = (if s.master = die then master else s.master) ∧ (u.die die).fwActiveB = (s.die die).fwActiveB := by
  intro u
  obtain ⟨a, ha, qa⟩ : ∃ a, a = (if s.master = die && s.mailbox.busy then s.failCmd 0xB403 else s) ∧ Quiet s a := by
    refine ⟨_, rfl, ?_⟩
    split
    · exact failCmd_quiet h0 _
    · exact Quiet.refl s
  have ha0 := part?_of qa.parts h0
  obtain ⟨b, hb, qb⟩ : ∃ b, b = a.record { a.plainRecord 0xFFFF die code (actionOf 0 9) with engine := 12 * 2 ^ 24 } ∧ Quiet a b := ⟨_, rfl, (record_quiet ha0).1⟩
  have hb0 := part?_of qb.parts ha0
  have hbl : b.dies.length = s.dies.length := by rw [qb.dies, qa.dies]
  have hk := note_took (die := die) (cause := cause) (scope := 4) (code := code) hb0 (by rw [hbl]; exact hd) hc (by decide) hcode
  have hs := qa.still.trans (qb.still.trans (note_still (die := die) (cause := cause) (scope := 4) (code := code) hb0))
  obtain ⟨f, -, hf2, qf⟩ := noteReset_facts hb0 die cause 4 code
  obtain ⟨c, hc2⟩ : ∃ c, c = b.noteReset die 0xFFFF cause 4 code := ⟨_, rfl⟩
  rw [← hc2] at hk hs qf
  have hu : u = c.elect die master := by
    show s.resetCirque die master cause code = _
    unfold State.resetCirque
    dsimp only
    rw [← ha, ← hb, ← hc2]
  rw [hu]
  have hfw : (c.die die).fwActiveB = (s.die die).fwActiveB := by
    have e : c.die die = (b.modDie die f).die die := by unfold State.die; rw [qf.dies]
    rw [e, die_modDie, if_pos ⟨rfl, by rw [hbl]; exact hd⟩, (hf2 _).2]
    have : b.die die = s.die die := by unfold State.die; rw [qb.dies, qa.dies]
    rw [this]
  unfold State.elect
  by_cases hm : c.master = die
  · rw [if_pos hm]
    refine ⟨⟨hs.mem, hs.tags, hs.poison, hs.cores, hs.parts, hs.wgs, hs.groups⟩, hk, ?_, hfw⟩
    rw [if_pos (hs.master.symm.trans hm)]
  · rw [if_neg hm]
    refine ⟨⟨hs.mem, hs.tags, hs.poison, hs.cores, hs.parts, hs.wgs, hs.groups⟩, hk, ?_, hfw⟩
    rw [if_neg (fun h => hm (hs.master.trans h)), hs.master]

theorem bl_facts (g : Nat) (s : State) : ∀ a ∈ [g], a ∈ (s.poisonGranules [g]).poison ∧ a ∉ (s.poisonGranules [g]).tags := poisoned s [g]

theorem scrub_fold (die : Nat) : ∀ (bad : List Nat) (s : State), s.part? 0xFFFF = none →
    let u := bad.foldl (fun s key =>
        (s.poisonKey key).record { s.plainRecord 0xFFFF die (errorAt key).1 0 with
          engine := (errorAt key).2, pav := isGlobal key, paddr := if isGlobal key then key / 16 * 16 else 0 }) s
    u.mem = s.mem ∧ u.wgs = s.wgs ∧ u.parts = s.parts ∧ (∀ g ∈ s.poison, g ∈ u.poison) ∧ (∀ g, g ∉ s.tags → g ∉ u.tags) ∧
      ∀ key ∈ bad, key / 16 ∈ u.poison ∧ key / 16 ∉ u.tags := by
  intro bad
  induction bad with
  | nil => intro s _; exact ⟨rfl, rfl, rfl, fun g h => h, fun g h => h, fun k h => (List.not_mem_nil h).elim⟩
  | cons a r ih =>
    intro s h0 u
    have q := (record_quiet (s := s.poisonKey a) (r := { s.plainRecord 0xFFFF die (errorAt a).1 0 with engine := (errorAt a).2, pav := isGlobal a, paddr := if isGlobal a then a / 16 * 16 else 0 }) h0).1
    obtain ⟨i1, i2, i3, i4, i5, i6⟩ := ih _ (part?_of q.parts h0)
    have hp : ∀ g ∈ s.poison, g ∈ (s.poisonKey a).poison := (foldSet (l := [a / 16]) s.poison).1
    have ht : ∀ g, g ∉ s.tags → g ∉ (s.poisonKey a).tags := fun g h hh => h (List.mem_filter.1 hh).1
    refine ⟨i1.trans q.mem, i2.trans q.wgs, i3.trans q.parts, fun g h => i4 g (by rw [q.poison]; exact hp g h), fun g h => i5 g (by rw [q.tags]; exact ht g h), fun k hk => ?_⟩
    rcases List.mem_cons.1 hk with rfl | hk
    · obtain ⟨p1, p2⟩ := poisoned s [k / 16] (k / 16) (List.mem_singleton.2 rfl)
      exact ⟨i4 _ (by rw [q.poison]; exact p1), i5 _ (by rw [q.tags]; exact p2)⟩
    · exact i6 k hk

theorem correct_still {s : State} (h : s.part? 0xFFFF = none) (die : Nat) : Still s (s.correctErrors die) := by
  unfold State.correctErrors
  dsimp only
  obtain ⟨e, he⟩ : ∃ e, e = assocSet 0 (arrayOf (Config.freeNat s.free)) ((if Config.freeBool s.free then 0 else
    assocGet 0 (arrayOf (Config.freeNat s.free)) (s.die die).ecc) + Config.freeNat (s.free + 1)) := ⟨_, rfl⟩
  obtain ⟨u, hu⟩ : ∃ u, u = ({ s with free := s.free + 2 } : State).modDie die (fun d => { d with ecc := e d.ecc }) := ⟨_, rfl⟩
  have hs : Still s u := by rw [hu]; exact ⟨rfl, rfl, rfl, rfl, rfl, rfl, rfl, rfl, rfl, rfl, ⟨rfl, rfl⟩⟩
  rw [← he, ← hu]
  generalize (if Config.freeBool s.free = true then 0 else assocGet 0 (arrayOf (Config.freeNat s.free)) (s.die die).ecc) = old
  split
  · exact hs.trans (record_quiet (part?_of hs.parts h)).1.still
  · exact hs

theorem failAccess_halts (s : State) (g : Group) (o : PendingOp) :
    (s.failAccess g o).wgs = s.wgs ∧ (∀ L ∈ s.halts.map (·.wgs), L ∈ (s.failAccess g o).halts.map (·.wgs)) ∧
      ∀ w, s.wg? g.wgKey = some w → g.splits ≠ [] → ∃ L ∈ (s.failAccess g o).halts.map (·.wgs), w.key ∈ L := by
  unfold State.failAccess
  split
  · next w sp hw hsp =>
    obtain ⟨f1, f2, f3⟩ := fatal_halts s w (s.groupRecord w g sp 0x9001 0 o.lanes) (wg?_mem hw).1
    refine ⟨f3, f2, fun w' hw' _ => ?_⟩
    cases hw.symm.trans hw'
    obtain ⟨h, hm, hk⟩ := f1
    exact ⟨h.wgs, List.mem_map.2 ⟨h, hm, rfl⟩, hk⟩
  · next hno =>
    refine ⟨rfl, fun L h => h, fun w hw hs => ?_⟩
    exfalso
    have : ∃ sp, g.splitOf o.lanes = some sp := by
      unfold Group.splitOf
      cases g.splits.find? (fun x => x.mask &&& o.lanes != 0) with
      | some x => exact ⟨x, rfl⟩
      | none =>
        cases hq : g.splits with
        | nil => exact absurd hq hs
        | cons a r => exact ⟨a, rfl⟩
    obtain ⟨sp, hsp⟩ := this
    exact hno w sp hw hsp

theorem failEngines_halts (s : State) : s.failEngines.wgs = s.wgs ∧ s.failEngines.halts = s.halts ∧ s.failEngines.linkDown = s.linkDown := by
  unfold State.failEngines
  generalize s.cores = L
  induction L generalizing s with
  | nil => exact ⟨rfl, rfl, rfl⟩
  | cons a r ih =>
    rw [List.foldl_cons]
    have inner : ∀ (O : List EngineOp) (t : State), 
        let u := O.foldl (fun (s : State) o =>
          match s.wg? o.wgKey with
          | none => s
          | some w =>
            if o.kind.isStream && s.opOverLink w o && Config.mixBool s.free o.id then
              s.modOp a.1 o.id (fun o => { o with fault := o.fault.orElse (fun _ => some ⟨0x9001, 0, false, 0, false⟩) })
            else s) t
        u.wgs = t.wgs ∧ u.halts = t.halts ∧ u.linkDown = t.linkDown := by
      intro O
      induction O with
      | nil => exact fun t => ⟨rfl, rfl, rfl⟩
      | cons o q jh =>
        intro t u
        obtain ⟨j1, j2, j3⟩ := jh (match t.wg? o.wgKey with
          | none => t
          | some w =>
            if o.kind.isStream && t.opOverLink w o && Config.mixBool t.free o.id then
              t.modOp a.1 o.id (fun o => { o with fault := o.fault.orElse (fun _ => some ⟨0x9001, 0, false, 0, false⟩) })
            else t)
        refine ⟨j1.trans ?_, j2.trans ?_, j3.trans ?_⟩ <;> (split; rfl; split <;> rfl)
    obtain ⟨k1, k2, k3⟩ := inner a.2.ops s
    obtain ⟨i1, i2, i3⟩ := ih _
    exact ⟨i1.trans k1, i2.trans k2, i3.trans k3⟩

theorem flyFold : ∀ (L : List (Group × PendingOp)) (s : State),
    let u := L.foldl (fun (s : State) (x : Group × PendingOp) => s.failAccess x.1 x.2) s
    u.wgs = s.wgs ∧ (∀ W ∈ s.halts.map (·.wgs), W ∈ u.halts.map (·.wgs)) ∧
      ∀ x ∈ L, ∀ w, s.wg? x.1.wgKey = some w → x.1.splits ≠ [] → ∃ W ∈ u.halts.map (·.wgs), w.key ∈ W := by
  intro L
  induction L with
  | nil => intro s; exact ⟨rfl, fun W h => h, fun x h => (List.not_mem_nil h).elim⟩
  | cons a r ih =>
    intro s u
    obtain ⟨f1, f2, f3⟩ := failAccess_halts s a.1 a.2
    obtain ⟨i1, i2, i3⟩ := ih (s.failAccess a.1 a.2)
    refine ⟨i1.trans f1, fun W h => i2 W (f2 W h), fun x hx w hw hs => ?_⟩
    rcases List.mem_cons.1 hx with rfl | hx
    · obtain ⟨W, hW, hk⟩ := f3 w hw hs
      exact ⟨W, i2 W hW, hk⟩
    · refine i3 x hx w ?_ hs
      unfold State.wg? at hw ⊢; rw [f1]; exact hw

theorem packageReset {s : State} (hI : s.Inv) : ∃ u, exec .packageInterconnectFailure s = .next u ∧ Gone u ∧ (∀ d < 4, Took u d 3 0 0) ∧ u.mem = [] ∧ u.tags = [] := by
  obtain ⟨a, b, c, d⟩ := resetPackage_facts s hI (cause := 3) (by decide) false
  exact ⟨_, rfl, a, b, c, d⟩

theorem share_map (f : Nat → Die) (s : State) (hs : s.dies = (List.range 4).map f) (d c : Nat) (hd : d < 4) (hc : c < 7) : s.share (d * 7 + c) = (f d).clusters.getD c (ClusterShare.reset 0) := by
  have e1 : (d * 7 + c) / 7 = d := by omega
  have e2 : (d * 7 + c) % 7 = c := by omega
  unfold State.share State.die
  rw [e1, e2, hs]
  have : ((List.range 4).map f).getD d Die.reset = f d := by
    rw [List.getD_eq_getElem?_getD, List.getElem?_map, List.getElem?_range hd]; rfl
  rw [this]

theorem coldReset_facts (s : State) (pass : List (BitVec 7)) (spares : List Nat) (master : Nat) (h1 : pass.length = 4) (h2 : spares.length = 4) (h3 : master < 4)
      (h4 : ∀ d < 4, spares.getD d 7 < 7 ∧ (pass.getD d 0).getLsbD (spares.getD d 7) = true) :
      ∃ u, exec (.coldReset pass spares master) s = .next u ∧ Gone u ∧ u.mem = [] ∧ u.master = master ∧
        ∀ d < 4, ∀ c < 7, (u.share (d * 7 + c)).state =
          if c = spares.getD d 7 then .spare else if (pass.getD d 0).getLsbD c then .enabled else .retired := by
  have hok : (pass.length == 4 && spares.length == 4 && decide (master < 4) &&
    (List.range 4).all (fun d => decide (spares.getD d 7 < 7) && (pass.getD d 0).getLsbD (spares.getD d 7))) = true := by
    rw [h1, h2, decide_eq_true h3]
    simp only [beq_self_eq_true, Bool.true_and, List.all_eq_true, List.mem_range, Bool.and_eq_true, decide_eq_true_eq]
    exact h4
  obtain ⟨v, hv⟩ : ∃ v : State, v = { State.reset with free := s.free, agenda := s.agenda, master := master, dies := (List.range 4).map (fun d => coldDie (pass.getD d 0) (spares.getD d 7)) } := ⟨_, rfl⟩
  have hg : Gone v := by rw [hv]; exact ⟨rfl, rfl, rfl, rfl, rfl⟩
  have hd : v.dies = (List.range 4).map (fun d => coldDie (pass.getD d 0) (spares.getD d 7)) := by rw [hv]
  have hfold : ∀ (L : List Nat) (t : State), Quiet v t → Quiet v (L.foldl (fun s d =>
        s.record { s.plainRecord 0xFFFF d 0xB407 (actionOf 6 9) with recov := 4, engine := 12 * 2 ^ 24, paddr := 1 }) t) := by
    intro L
    induction L with
    | nil => exact fun t h => h
    | cons a r ih =>
      intro t h
      rw [List.foldl_cons]
      exact ih _ (h.trans (record_quiet (part?_gone (h.parts.trans hg.1) _)).1)
  have q := hfold (List.range 4) v (Quiet.refl v)
  refine ⟨_, ?_, gone_of q.still hg, q.mem.trans (by rw [hv]; rfl), q.master.trans (by rw [hv]), fun d hd4 c hc7 => ?_⟩
  · show Host.Outcome.next _ = _
    rw [if_pos hok, ← hv]
  · rw [share_of_dies q.dies, share_map _ v hd d c hd4 hc7]
    unfold coldDie
    dsimp only
    rw [List.getD_eq_getElem?_getD, List.getElem?_map, List.getElem?_range hc7]
    show (if (c == spares.getD d 7) = true then ClusterState.spare else if (pass.getD d 0).getLsbD c = true then ClusterState.enabled else ClusterState.retired) = _
    simp only [beq_iff_eq]

theorem snap_cap {s : State} (t : State) (c : Prop) [Decidable c] (h : t.powerCap = s.powerCap) : (if c then t.snapTrigger else t).powerCap = s.powerCap := by
  split
  · unfold State.snapTrigger; split <;> exact h
  · exact h

theorem record_cap (s : State) (r : ErrorRecord) (h : s.part? r.part = none) : (s.record r).powerCap = s.powerCap := by
  unfold State.record
  have : ∀ (t : State), t.parts = s.parts → t.powerCap = s.powerCap → (match t.part? r.part with
      | none => t
      | some p => ((t.modPart r.part (fun p => { p with classes := bumpClass p.classes r.code })).ringPut p p.errRing r.toBytes).countRecord r.part).powerCap = s.powerCap := by
    intro t ht hc
    have : t.part? r.part = none := by unfold State.part? at h ⊢; rw [ht]; exact h
    rw [this]; exact hc
  refine this _ (snap_parts _ _ rfl) ?_
  exact snap_cap _ _ rfl

theorem idle_facts (s : State) (hI : s.Inv) (h0 : s.part? 0xFFFF = none) : ∃ v : State, v = { s with mailbox := s.mailbox.finish 2 0 [] } ∧ v.Inv ∧ v.part? 0xFFFF = none ∧
    v.dies.length = 4 ∧ v.wgs = s.wgs ∧ v.parts = s.parts ∧ v.mem = s.mem := by
  refine ⟨s.finishCmd 2 0 [], by unfold State.finishCmd; rfl, ?_, ?_, ?_, ?_, ?_, ?_⟩
  · exact State.finishCmd_inv s 2 0 [] hI
  · exact part?_of (by unfold State.finishCmd; rfl) h0
  · exact (congrArg List.length (by unfold State.finishCmd; rfl)).trans hI.dies.1
  · unfold State.finishCmd; rfl
  · unfold State.finishCmd; rfl
  · unfold State.finishCmd; rfl

theorem exec_reset_eq (x : MgmtArgs) (s v : State) (hv : v = { s with mailbox := s.mailbox.finish 2 0 [] }) (hb : blankFrom 3 x = true) (hw : x.a2.toNat < 2) :
    exec (.reset x) s = .next (match x.a0.toNat with
      | 0 => if x.a1.toNat = 0 then v.resetPackage (if x.a2.toNat = 1 then 2 else 3) 0 (x.a2.toNat == 1) else s.failCmd 0xB402
      | 1 => if x.a1.toNat < 4 && x.a2.toNat = 0 then (v.resetDie x.a1.toNat 4 0) else s.failCmd 0xB402
      | 2 => if x.a1.toNat / 8 < 4 && x.a1.toNat % 8 < 7 && x.a2.toNat = 0 then v.resetCluster (x.a1.toNat / 8 * 7 + x.a1.toNat % 8) else s.failCmd 0xB402
      | _ => s.failCmd 0xB402) := by
  show execReset x s = _
  unfold execReset
  dsimp only
  rw [if_neg (by rw [hb]; simp; omega), ← hv] <;> rfl

end Sys2Proof.Laws
end

