-- ==== Sys2Proof/Laws/KeepStep.lean ====
section
/-!
SUPPORT. Lemmas: the invariant of a state that a move names.
-/
namespace Sys2Proof.Laws
open Sys2Proof.Machine

def Move.Ok (m : Move) : Prop := match m with | .issue _ s => s.Inv | .event _ s => s.Inv | .stay s => s.Inv

theorem issueOf_ok {s : State} (h : s.Inv) (g sid : Nat) : Move.Ok (s.issueOf g sid) := by
  unfold State.issueOf
  split
  · exact h
  · next c _ =>
    split
    · split
      · exact h
      · split
        · exact h
        · have hb : ((if c.sp.stop == .running && c.sp.hold == .none then s.bpCount c else s).spendYields c).Inv := by
            refine State.spendYields_inv _ _ ?_
            split
            · exact State.bpCount_inv _ _ h
            · exact h
          revert hb
          generalize (if c.sp.stop == .running && c.sp.hold == .none then s.bpCount c else s).spendYields c = u
          intro hb
          split
          · exact hb
          · exact State.noteIssue_inv _ _ (State.takeTrap_inv _ _ _ _ hb)
    · exact h

theorem tried_inv {s t : State} (h : s.Inv) {c : Ctx} (ht : s.tried c = some t) : t.Inv := by
  unfold State.tried at ht
  split at ht
  · next i _ _ =>
    have he := exec_inv i { s with cur := some (c.g.gid, c.sp.id) } h
    split at ht
    · next u hu =>
      rw [hu] at he
      split at ht
      · split at ht
        · cases ht; exact he
        · exact nomatch ht
      · exact nomatch ht
    · exact nomatch ht
  · exact nomatch ht

theorem retry_inv {s : State} (h : s.Inv) (gid sid : Nat) : (s.retry gid sid).Inv := by
  unfold State.retry
  split
  · exact h
  · split
    · split
      · next t ht => exact tried_inv h ht
      · split
        · exact h
        · exact State.modSplit_inv _ _ _ _ h
    · exact h

theorem refreshHolds_inv {s : State} (h : s.Inv) : s.refreshHolds.Inv := by
  unfold State.refreshHolds
  generalize s.ctxs.map (fun c => (c.g.gid, c.sp.id)) = l
  induction l generalizing s with
  | nil => exact h
  | cons a r ih => exact ih (retry_inv h a.1 a.2)

theorem pick_ok {s : State} (h : s.Inv) (f : Nat) (l : List Move) (hl : ∀ m ∈ l, Move.Ok m) : Move.Ok (pickMove f s l) := by
  unfold pickMove
  split
  · exact h
  · exact hl _ (by simp)
  · next m rest _ =>
    rw [List.getD_eq_getElem?_getD]
    cases hq : (m :: rest)[Config.freeNat f % (rest.length + 1)]? with
    | none => exact hl _ (by simp)
    | some x => exact hl x (List.mem_of_getElem? hq)

theorem choose_ok {s : State} (h : s.Inv) : Move.Ok s.choose := by
  unfold State.choose
  split
  · exact issueOf_ok h _ _
  · exact h
  · unfold State.selfMove
    split
    · exact h
    · have h := refreshHolds_inv h
      refine pick_ok h _ _ fun m hm => ?_
      rcases List.mem_append.1 hm with hm | hm
      · obtain ⟨c, -, rfl⟩ := List.mem_map.1 hm
        exact issueOf_ok h _ _
      · obtain ⟨i, -, rfl⟩ := List.mem_map.1 hm
        exact h

end Sys2Proof.Laws
end

