-- ==== Sys2Proof/Laws/Words.lean ====
section
/-!
SUPPORT. Lemmas: words as bytes, and the decoder read backwards (06 R122 to R128).
-/
namespace Sys2Proof.Laws
open Sys2Proof.Machine

theorem byte_of_dword (w : DWord) : bytesOfDWord w = [w.extractLsb' 0 8, w.extractLsb' 8 8, w.extractLsb' 16 8, w.extractLsb' 24 8, w.extractLsb' 32 8, w.extractLsb' 40 8, w.extractLsb' 48 8, w.extractLsb' 56 8] := rfl

theorem shl_or (b : Byte) (w : DWord) (i : Nat) (h : i < 64) : ((w <<< 8) ||| b.setWidth 64).getLsbD i = if i < 8 then b.getLsbD i else w.getLsbD (i - 8) := by
  simp only [BitVec.getLsbD_or, BitVec.getLsbD_shiftLeft, BitVec.getLsbD_setWidth, h, decide_true, Bool.true_and]
  by_cases h8 : i < 8
  · simp [h8]
  · simp [h8, BitVec.getLsbD_of_ge b i (by omega)]

theorem dword_bytes (w : DWord) : dwordOfBytes (bytesOfDWord w) = w := by
  rw [byte_of_dword]
  unfold dwordOfBytes
  simp only [List.foldr_cons, List.foldr_nil]
  apply BitVec.eq_of_getLsbD_eq
  intro i hi
  simp (disch := omega) only [shl_or, BitVec.getLsbD_extractLsb']
  have hz : ∀ j, (0 : DWord).getLsbD j = false := fun j => by simp
  simp only [hz]
  repeat' split
  all_goals first
    | (have : False := by omega); contradiction
    | (rename_i h; simp only [h, decide_true, Bool.true_and]; congr 1; omega)
    | skip

theorem bytes_len (w : DWord) : (bytesOfDWord w).length = 8 := rfl

theorem take_drop_bytes (w : DWord) (l : List Byte) : (bytesOfDWord w ++ l).take 8 = bytesOfDWord w ∧ (bytesOfDWord w ++ l).drop 8 = l := by
  constructor
  · exact List.take_left' (bytes_len w)
  · exact List.drop_left' (bytes_len w)

theorem check_legal (o : Op) (x : Args) (h : o.legal x = true) : checkWord o x = .ok (o.instr x) := by
  unfold Op.legal at h
  simp only [Bool.and_eq_true] at h
  obtain ⟨⟨⟨⟨h1, h2⟩, h3⟩, h4⟩, h5⟩ := h
  unfold checkWord
  rw [h1, h2, h3, h4]
  cases hf : x.fs <;> simp_all

theorem rows_spec (rows : List Op) (base : Nat) (h : (List.range rows.length).all (fun k => (rows[k]?.map (fun o => o.code == base + k)).getD true) = true) (k : Nat) (r : Op) (hr : rows[k]? = some r) : r.code = base + k := by
  obtain ⟨hk, -⟩ := List.getElem?_eq_some_iff.1 hr
  have := List.all_eq_true.1 h k (List.mem_range.2 hk)
  rw [hr] at this
  simpa using this

theorem ofCode_spec (n : Nat) (r : Op) (h : Op.ofCode n = some r) : r.code = n := by
  have hn : n = n / 64 * 64 + n % 64 := by omega
  unfold Op.ofCode at h
  dsimp only at h
  split at h
  · next e => have := rows_spec Op.controlRows 0 (by decide) _ _ h; omega
  · next e => have := rows_spec Op.scalarRows 64 (by decide) _ _ h; omega
  · next e => have := rows_spec Op.vectorRows 128 (by decide) _ _ h; omega
  · next e => have := rows_spec Op.floatRows 192 (by decide) _ _ h; omega
  · next e => have := rows_spec Op.laneRows 256 (by decide) _ _ h; omega
  · next e => have := rows_spec Op.memoryRows 320 (by decide) _ _ h; omega
  · next e => have := rows_spec Op.syncRows 384 (by decide) _ _ h; omega
  · next e => have := rows_spec Op.engineRows 448 (by decide) _ _ h; omega
  · exact nomatch h

theorem select_code (o : Op) (m : BitVec 5) (a : BitVec 8) : (o.select m a).code = o.code := by
  cases o <;> simp only [Op.select] <;> (repeat' split) <;> rfl

theorem bit_of_extract {w w' : DWord} {k m : Nat} (h : w.extractLsb' k m = w'.extractLsb' k m) (i : Nat) (h1 : k ≤ i) (h2 : i < k + m) : w.getLsbD i = w'.getLsbD i := by
  have := congrArg (fun v : BitVec m => v.getLsbD (i - k)) h
  simp only [BitVec.getLsbD_extractLsb', show i - k < m by omega, decide_true, Bool.true_and, show k + (i - k) = i by omega] at this
  exact this

theorem word_args (o : Op) (w : DWord) (imm : Option DWord) (hc : BitVec.ofNat 9 o.code = opField w) (hl : imm.isSome = longBit w) : o.word (argsOf w imm) = w := by
  have h1 : argsOf (o.word (argsOf w imm)) imm = argsOf w imm := argsOf_word o (argsOf w imm)
  have h2 : opField (o.word (argsOf w imm)) = opField w := (opField_word _ _).trans hc
  have h3 : longBit (o.word (argsOf w imm)) = longBit w := (longBit_word _ _).trans hl
  generalize o.word (argsOf w imm) = u at *
  unfold argsOf at h1
  simp only [Args.mk.injEq, Guard.mk.injEq] at h1
  obtain ⟨⟨a1, a2, a3, a4, a5⟩, a6, a7, a8, a9, -, a10, a11⟩ := h1
  unfold opField at h2
  unfold longBit at h3
  apply BitVec.eq_of_getLsbD_eq
  intro i hi
  by_cases c0 : i < 5
  · exact bit_of_extract a11 i (by omega) (by omega)
  by_cases c1 : i = 5
  · rw [c1]; exact a10
  by_cases c2 : i = 6
  · rw [c2]; exact h3
  by_cases c3 : i < 15
  · exact bit_of_extract a9 i (by omega) (by omega)
  by_cases c4 : i < 23
  · exact bit_of_extract a8 i (by omega) (by omega)
  by_cases c5 : i < 31
  · exact bit_of_extract a7 i (by omega) (by omega)
  by_cases c6 : i < 39
  · exact bit_of_extract a6 i (by omega) (by omega)
  by_cases c7 : i < 44
  · exact bit_of_extract a5 i (by omega) (by omega)
  by_cases c8 : i < 52
  · exact bit_of_extract a4 i (by omega) (by omega)
  by_cases c9 : i = 52
  · rw [c9]; exact a3
  by_cases c10 : i = 53
  · rw [c10]; exact a2
  by_cases c11 : i = 54
  · rw [c11]; exact a1
  · exact bit_of_extract h2 i (by omega) (by omega)

theorem dword_bit (l : List Byte) : ∀ i, i < 64 → (dwordOfBytes l).getLsbD i = (l.getD (i / 8) 0).getLsbD (i % 8) := by
  induction l with
  | nil => intro i _; simp [dwordOfBytes]
  | cons b t ih =>
    intro i hi
    show ((dwordOfBytes t <<< 8) ||| b.setWidth 64).getLsbD i = _
    rw [shl_or _ _ _ hi]
    by_cases h : i < 8
    · rw [if_pos h, show i / 8 = 0 by omega, show i % 8 = i by omega]; rfl
    · rw [if_neg h, ih _ (by omega), show i / 8 = (i - 8) / 8 + 1 by omega, show i % 8 = (i - 8) % 8 by omega]; rfl

theorem bytes_dword (l : List Byte) (h : l.length = 8) : bytesOfDWord (dwordOfBytes l) = l := by
  refine List.ext_getElem (by rw [bytes_len, h]) fun k h1 h2 => ?_
  have e : (bytesOfDWord (dwordOfBytes l))[k] = (dwordOfBytes l).extractLsb' (8 * k) 8 := by
    have : (bytesOfDWord (dwordOfBytes l))[k]? = some ((dwordOfBytes l).extractLsb' (8 * k) 8) := by
      unfold bytesOfDWord; rw [List.getElem?_map, List.getElem?_range (by rw [bytes_len] at h1; exact h1)]; rfl
    exact (List.getElem_eq_iff h1).2 this
  rw [e]
  apply BitVec.eq_of_getLsbD_eq
  intro i hi
  rw [BitVec.getLsbD_extractLsb', decide_eq_true hi, Bool.true_and, dword_bit l _ (by omega), show (8 * k + i) / 8 = k by omega, show (8 * k + i) % 8 = i by omega,
    List.getD_eq_getElem?_getD, List.getElem?_eq_getElem h2]
  rfl

theorem legal_of_check {o : Op} {x : Args} {i : Instr} (h : checkWord o x = .ok i) : o.legal x = true ∧ i = o.instr x := by
  unfold checkWord at h
  split at h
  · exact nomatch h
  split at h
  · exact nomatch h
  split at h
  · exact nomatch h
  split at h
  · exact nomatch h
  split at h
  · exact nomatch h
  cases h
  refine ⟨?_, rfl⟩
  unfold Op.legal
  simp_all
  cases hf : x.fs <;> simp_all

theorem word_decoded {w : DWord} {next : Option DWord} {i : Instr} (h : decodeWord w next = .ok i) :
    ∃ (o : Op) (x : Args), i = o.instr x ∧ o.legal x = true ∧ o.word x = w ∧ x.long = (if longBit w then next else none) ∧ (longBit w = true → next.isSome = true) := by
  unfold decodeWord at h
  split at h
  · exact nomatch h
  · next r hr =>
    have hcode : r.code = (opField w).toNat := ofCode_spec _ r hr
    have hof : ∀ m a, BitVec.ofNat 9 (r.select m a).code = opField w := by
      intro m a; rw [select_code, hcode]; simp
    split at h
    · next hb =>
      split at h
      · exact nomatch h
      · next imm =>
        obtain ⟨h1, rfl⟩ := legal_of_check h
        refine ⟨_, _, rfl, h1, word_args _ w (some imm) (hof _ _) hb.symm, ?_, fun _ => rfl⟩
        rw [if_pos hb]; rfl
    · next hb =>
      obtain ⟨h1, rfl⟩ := legal_of_check h
      refine ⟨_, _, rfl, h1, word_args _ w none (hof _ _) (by simpa using hb), ?_, fun hh => absurd hh hb⟩
      rw [if_neg hb]; rfl

end Sys2Proof.Laws
end

