-- ==== Sys2Proof/Laws/PerInstr.lean ====
section
/-!
SUPPORT. What is said of every instruction, constructor by constructor: the word that encodes a legal instruction decodes to it
(06 R122 to R128).
-/
namespace Sys2Proof.Laws

/-- 06 R122 to R128: the words that encode the instruction, where it is legal, decode to it; an event or a command has no words. -/
def Enc.Statement (i : Instr) : Prop :=
  match i.opArgs? with
  | none => encode i = []
  | some (o, x) => o.legal x = true → decodeWord (o.word x) x.long = .ok i

/-- A row of the opcode table with its operands decodes from its words. -/
theorem encoded_decodes (o : Op) (x : Args) (hl : o.legal x = true) : decodeWord (o.word x) x.long = .ok (o.instr x) := by
  have hm : o.modOk x = true := by
    unfold Op.legal at hl; simp only [Bool.and_eq_true] at hl; exact hl.1.1.2
  have ha := argsOf_word o x
  unfold decodeWord
  rw [opField_word, ofCode_code]
  dsimp only
  rw [longBit_word]
  cases hx : x.long with
  | none =>
    rw [hx] at ha
    rw [if_neg (by simp), ha, select_rowOf o x hm, check_legal o x hl]
  | some imm =>
    rw [hx] at ha
    rw [if_pos (show (some imm).isSome = true from rfl)]
    dsimp only
    rw [ha, select_rowOf o x hm, check_legal o x hl]

theorem Enc.nop (x : Args) : Enc.Statement (.nop x) := encoded_decodes .nop x
theorem Enc.bra (x : Args) : Enc.Statement (.bra x) := encoded_decodes .bra x
theorem Enc.brd (x : Args) : Enc.Statement (.brd x) := encoded_decodes .brd x
theorem Enc.bri (x : Args) : Enc.Statement (.bri x) := encoded_decodes .bri x
theorem Enc.call (x : Args) : Enc.Statement (.call x) := encoded_decodes .call x
theorem Enc.calli (x : Args) : Enc.Statement (.calli x) := encoded_decodes .calli x
theorem Enc.ret (x : Args) : Enc.Statement (.ret x) := encoded_decodes .ret x
theorem Enc.maskLanes (x : Args) : Enc.Statement (.maskLanes x) := encoded_decodes .maskLanes x
theorem Enc.splitq (x : Args) : Enc.Statement (.splitq x) := encoded_decodes .splitq x
theorem Enc.yield (x : Args) : Enc.Statement (.yield x) := encoded_decodes .yield x
theorem Enc.waitevTl (x : Args) : Enc.Statement (.waitevTl x) := encoded_decodes .waitevTl x
theorem Enc.waitevBar (x : Args) : Enc.Statement (.waitevBar x) := encoded_decodes .waitevBar x
theorem Enc.waitevFlag (x : Args) : Enc.Statement (.waitevFlag x) := encoded_decodes .waitevFlag x
theorem Enc.endLanes (x : Args) : Enc.Statement (.endLanes x) := encoded_decodes .endLanes x
theorem Enc.trap (x : Args) : Enc.Statement (.trap x) := encoded_decodes .trap x
theorem Enc.tret (x : Args) : Enc.Statement (.tret x) := encoded_decodes .tret x
theorem Enc.sysRecord (x : Args) : Enc.Statement (.sysRecord x) := encoded_decodes .sysRecord x
theorem Enc.sysNotify (x : Args) : Enc.Statement (.sysNotify x) := encoded_decodes .sysNotify x
theorem Enc.sysStop (x : Args) : Enc.Statement (.sysStop x) := encoded_decodes .sysStop x
theorem Enc.bkpt (x : Args) : Enc.Statement (.bkpt x) := encoded_decodes .bkpt x
theorem Enc.rds (x : Args) : Enc.Statement (.rds x) := encoded_decodes .rds x
theorem Enc.wrs (x : Args) : Enc.Statement (.wrs x) := encoded_decodes .wrs x
theorem Enc.launch (x : Args) : Enc.Statement (.launch x) := encoded_decodes .launch x
theorem Enc.sadd (x : Args) : Enc.Statement (.sadd x) := encoded_decodes .sadd x
theorem Enc.ssub (x : Args) : Enc.Statement (.ssub x) := encoded_decodes .ssub x
theorem Enc.smul (x : Args) : Enc.Statement (.smul x) := encoded_decodes .smul x
theorem Enc.smulh (x : Args) : Enc.Statement (.smulh x) := encoded_decodes .smulh x
theorem Enc.sand (x : Args) : Enc.Statement (.sand x) := encoded_decodes .sand x
theorem Enc.sor (x : Args) : Enc.Statement (.sor x) := encoded_decodes .sor x
theorem Enc.sxor (x : Args) : Enc.Statement (.sxor x) := encoded_decodes .sxor x
theorem Enc.sshl (x : Args) : Enc.Statement (.sshl x) := encoded_decodes .sshl x
theorem Enc.sshr (x : Args) : Enc.Statement (.sshr x) := encoded_decodes .sshr x
theorem Enc.ssra (x : Args) : Enc.Statement (.ssra x) := encoded_decodes .ssra x
theorem Enc.smin (x : Args) : Enc.Statement (.smin x) := encoded_decodes .smin x
theorem Enc.smax (x : Args) : Enc.Statement (.smax x) := encoded_decodes .smax x
theorem Enc.scmp (x : Args) : Enc.Statement (.scmp x) := encoded_decodes .scmp x
theorem Enc.ssel (x : Args) : Enc.Statement (.ssel x) := encoded_decodes .ssel x
theorem Enc.smov (x : Args) : Enc.Statement (.smov x) := encoded_decodes .smov x
theorem Enc.smovi (x : Args) : Enc.Statement (.smovi x) := encoded_decodes .smovi x
theorem Enc.sbfe (x : Args) : Enc.Statement (.sbfe x) := encoded_decodes .sbfe x
theorem Enc.sbfi (x : Args) : Enc.Statement (.sbfi x) := encoded_decodes .sbfi x
theorem Enc.spopc (x : Args) : Enc.Statement (.spopc x) := encoded_decodes .spopc x
theorem Enc.sclz (x : Args) : Enc.Statement (.sclz x) := encoded_decodes .sclz x
theorem Enc.vadd (x : Args) : Enc.Statement (.vadd x) := encoded_decodes .vadd x
theorem Enc.vsub (x : Args) : Enc.Statement (.vsub x) := encoded_decodes .vsub x
theorem Enc.vmul (x : Args) : Enc.Statement (.vmul x) := encoded_decodes .vmul x
theorem Enc.vmulh (x : Args) : Enc.Statement (.vmulh x) := encoded_decodes .vmulh x
theorem Enc.vmad (x : Args) : Enc.Statement (.vmad x) := encoded_decodes .vmad x
theorem Enc.vand (x : Args) : Enc.Statement (.vand x) := encoded_decodes .vand x
theorem Enc.vor (x : Args) : Enc.Statement (.vor x) := encoded_decodes .vor x
theorem Enc.vxor (x : Args) : Enc.Statement (.vxor x) := encoded_decodes .vxor x
theorem Enc.vshl (x : Args) : Enc.Statement (.vshl x) := encoded_decodes .vshl x
theorem Enc.vshr (x : Args) : Enc.Statement (.vshr x) := encoded_decodes .vshr x
theorem Enc.vsra (x : Args) : Enc.Statement (.vsra x) := encoded_decodes .vsra x
theorem Enc.vmin (x : Args) : Enc.Statement (.vmin x) := encoded_decodes .vmin x
theorem Enc.vmax (x : Args) : Enc.Statement (.vmax x) := encoded_decodes .vmax x
theorem Enc.vabs (x : Args) : Enc.Statement (.vabs x) := encoded_decodes .vabs x
theorem Enc.vcmp (x : Args) : Enc.Statement (.vcmp x) := encoded_decodes .vcmp x
theorem Enc.vsel (x : Args) : Enc.Statement (.vsel x) := encoded_decodes .vsel x
theorem Enc.vmov (x : Args) : Enc.Statement (.vmov x) := encoded_decodes .vmov x
theorem Enc.vbfe (x : Args) : Enc.Statement (.vbfe x) := encoded_decodes .vbfe x
theorem Enc.vbfi (x : Args) : Enc.Statement (.vbfi x) := encoded_decodes .vbfi x
theorem Enc.vpopc (x : Args) : Enc.Statement (.vpopc x) := encoded_decodes .vpopc x
theorem Enc.vclz (x : Args) : Enc.Statement (.vclz x) := encoded_decodes .vclz x
theorem Enc.vdot4 (x : Args) : Enc.Statement (.vdot4 x) := encoded_decodes .vdot4 x
theorem Enc.fadd (x : Args) : Enc.Statement (.fadd x) := encoded_decodes .fadd x
theorem Enc.fsub (x : Args) : Enc.Statement (.fsub x) := encoded_decodes .fsub x
theorem Enc.fmul (x : Args) : Enc.Statement (.fmul x) := encoded_decodes .fmul x
theorem Enc.ffma (x : Args) : Enc.Statement (.ffma x) := encoded_decodes .ffma x
theorem Enc.fmin (x : Args) : Enc.Statement (.fmin x) := encoded_decodes .fmin x
theorem Enc.fmax (x : Args) : Enc.Statement (.fmax x) := encoded_decodes .fmax x
theorem Enc.fcmp (x : Args) : Enc.Statement (.fcmp x) := encoded_decodes .fcmp x
theorem Enc.fclass (x : Args) : Enc.Statement (.fclass x) := encoded_decodes .fclass x
theorem Enc.frcp (x : Args) : Enc.Statement (.frcp x) := encoded_decodes .frcp x
theorem Enc.frsq (x : Args) : Enc.Statement (.frsq x) := encoded_decodes .frsq x
theorem Enc.fsqrt (x : Args) : Enc.Statement (.fsqrt x) := encoded_decodes .fsqrt x
theorem Enc.fexp2 (x : Args) : Enc.Statement (.fexp2 x) := encoded_decodes .fexp2 x
theorem Enc.flog2 (x : Args) : Enc.Statement (.flog2 x) := encoded_decodes .flog2 x
theorem Enc.fsin (x : Args) : Enc.Statement (.fsin x) := encoded_decodes .fsin x
theorem Enc.fcos (x : Args) : Enc.Statement (.fcos x) := encoded_decodes .fcos x
theorem Enc.fround (x : Args) : Enc.Statement (.fround x) := encoded_decodes .fround x
theorem Enc.cvt (x : Args) : Enc.Statement (.cvt x) := encoded_decodes .cvt x
theorem Enc.cvtpk (x : Args) : Enc.Statement (.cvtpk x) := encoded_decodes .cvtpk x
theorem Enc.cbexp (x : Args) : Enc.Statement (.cbexp x) := encoded_decodes .cbexp x
theorem Enc.scalex (x : Args) : Enc.Statement (.scalex x) := encoded_decodes .scalex x
theorem Enc.matchLanes (x : Args) : Enc.Statement (.matchLanes x) := encoded_decodes .matchLanes x
theorem Enc.ballot (x : Args) : Enc.Statement (.ballot x) := encoded_decodes .ballot x
theorem Enc.shfl (x : Args) : Enc.Statement (.shfl x) := encoded_decodes .shfl x
theorem Enc.lred (x : Args) : Enc.Statement (.lred x) := encoded_decodes .lred x
theorem Enc.lscan (x : Args) : Enc.Statement (.lscan x) := encoded_decodes .lscan x
theorem Enc.rdlane (x : Args) : Enc.Statement (.rdlane x) := encoded_decodes .rdlane x
theorem Enc.bcast (x : Args) : Enc.Statement (.bcast x) := encoded_decodes .bcast x
theorem Enc.v2s (x : Args) : Enc.Statement (.v2s x) := encoded_decodes .v2s x
theorem Enc.s2v (x : Args) : Enc.Statement (.s2v x) := encoded_decodes .s2v x
theorem Enc.pder (x : Args) : Enc.Statement (.pder x) := encoded_decodes .pder x
theorem Enc.padd (x : Args) : Enc.Statement (.padd x) := encoded_decodes .padd x
theorem Enc.pfmt (x : Args) : Enc.Statement (.pfmt x) := encoded_decodes .pfmt x
theorem Enc.pright (x : Args) : Enc.Statement (.pright x) := encoded_decodes .pright x
theorem Enc.pget (x : Args) : Enc.Statement (.pget x) := encoded_decodes .pget x
theorem Enc.pgetQuad (x : Args) : Enc.Statement (.pgetQuad x) := encoded_decodes .pgetQuad x
theorem Enc.pnull (x : Args) : Enc.Statement (.pnull x) := encoded_decodes .pnull x
theorem Enc.peq (x : Args) : Enc.Statement (.peq x) := encoded_decodes .peq x
theorem Enc.widen (x : Args) : Enc.Statement (.widen x) := encoded_decodes .widen x
theorem Enc.narrow (x : Args) : Enc.Statement (.narrow x) := encoded_decodes .narrow x
theorem Enc.ld (x : Args) : Enc.Statement (.ld x) := encoded_decodes .ld x
theorem Enc.ldVp (x : Args) : Enc.Statement (.ldVp x) := encoded_decodes .ldVp x
theorem Enc.st (x : Args) : Enc.Statement (.st x) := encoded_decodes .st x
theorem Enc.stVp (x : Args) : Enc.Statement (.stVp x) := encoded_decodes .stVp x
theorem Enc.ldp (x : Args) : Enc.Statement (.ldp x) := encoded_decodes .ldp x
theorem Enc.ldpQ (x : Args) : Enc.Statement (.ldpQ x) := encoded_decodes .ldpQ x
theorem Enc.stp (x : Args) : Enc.Statement (.stp x) := encoded_decodes .stp x
theorem Enc.stpQ (x : Args) : Enc.Statement (.stpQ x) := encoded_decodes .stpQ x
theorem Enc.ldres (x : Args) : Enc.Statement (.ldres x) := encoded_decodes .ldres x
theorem Enc.stcnd (x : Args) : Enc.Statement (.stcnd x) := encoded_decodes .stcnd x
theorem Enc.pref (x : Args) : Enc.Statement (.pref x) := encoded_decodes .pref x
theorem Enc.icinv (x : Args) : Enc.Statement (.icinv x) := encoded_decodes .icinv x
theorem Enc.atom (x : Args) : Enc.Statement (.atom x) := encoded_decodes .atom x
theorem Enc.atomn (x : Args) : Enc.Statement (.atomn x) := encoded_decodes .atomn x
theorem Enc.cas (x : Args) : Enc.Statement (.cas x) := encoded_decodes .cas x
theorem Enc.binit (x : Args) : Enc.Statement (.binit x) := encoded_decodes .binit x
theorem Enc.barv (x : Args) : Enc.Statement (.barv x) := encoded_decodes .barv x
theorem Enc.bexp (x : Args) : Enc.Statement (.bexp x) := encoded_decodes .bexp x
theorem Enc.bwait (x : Args) : Enc.Statement (.bwait x) := encoded_decodes .bwait x
theorem Enc.btest (x : Args) : Enc.Statement (.btest x) := encoded_decodes .btest x
theorem Enc.binval (x : Args) : Enc.Statement (.binval x) := encoded_decodes .binval x
theorem Enc.tlwait (x : Args) : Enc.Statement (.tlwait x) := encoded_decodes .tlwait x
theorem Enc.tltest (x : Args) : Enc.Statement (.tltest x) := encoded_decodes .tltest x
theorem Enc.tlreadIss (x : Args) : Enc.Statement (.tlreadIss x) := encoded_decodes .tlreadIss x
theorem Enc.tlreadDone (x : Args) : Enc.Statement (.tlreadDone x) := encoded_decodes .tlreadDone x
theorem Enc.stream (x : Args) : Enc.Statement (.stream x) := encoded_decodes .stream x
theorem Enc.sgath (x : Args) : Enc.Statement (.sgath x) := encoded_decodes .sgath x
theorem Enc.sdec (x : Args) : Enc.Statement (.sdec x) := encoded_decodes .sdec x
theorem Enc.mloop (x : Args) : Enc.Statement (.mloop x) := encoded_decodes .mloop x
theorem Enc.mstep (x : Args) : Enc.Statement (.mstep x) := encoded_decodes .mstep x
theorem Enc.mstepV (x : Args) : Enc.Statement (.mstepV x) := encoded_decodes .mstepV x
theorem Enc.aswap (x : Args) : Enc.Statement (.aswap x) := encoded_decodes .aswap x
theorem Enc.azero (x : Args) : Enc.Statement (.azero x) := encoded_decodes .azero x
theorem Enc.aread (x : Args) : Enc.Statement (.aread x) := encoded_decodes .aread x
theorem Enc.astore (x : Args) : Enc.Statement (.astore x) := encoded_decodes .astore x
theorem Enc.amark (x : Args) : Enc.Statement (.amark x) := encoded_decodes .amark x
theorem Enc.xtopk (x : Args) : Enc.Statement (.xtopk x) := encoded_decodes .xtopk x
theorem Enc.xqnt (x : Args) : Enc.Statement (.xqnt x) := encoded_decodes .xqnt x
theorem Enc.xdqnt (x : Args) : Enc.Statement (.xdqnt x) := encoded_decodes .xdqnt x
theorem Enc.clauseFetch (g sid : Nat) : Enc.Statement (.clauseFetch g sid) := rfl
theorem Enc.clausePrefetch (g sid n : Nat) : Enc.Statement (.clausePrefetch g sid n) := rfl
theorem Enc.clauseStart (g sid : Nat) : Enc.Statement (.clauseStart g sid) := rfl
theorem Enc.waitRetestStart (g sid : Nat) : Enc.Statement (.waitRetestStart g sid) := rfl
theorem Enc.spillRotation (g : Nat) : Enc.Statement (.spillRotation g) := rfl
theorem Enc.spillConditionTest (g : Nat) : Enc.Statement (.spillConditionTest g) := rfl
theorem Enc.eventWake (g sid : Nat) : Enc.Statement (.eventWake g sid) := rfl
theorem Enc.starvationGuard (g sid : Nat) : Enc.Statement (.starvationGuard g sid) := rfl
theorem Enc.capRecompute (core : Nat) : Enc.Statement (.capRecompute core) := rfl
theorem Enc.flagCountedCompletion (g op : Nat) : Enc.Statement (.flagCountedCompletion g op) := rfl
theorem Enc.bwaitPass (g sid : Nat) : Enc.Statement (.bwaitPass g sid) := rfl
theorem Enc.tlwaitPass (g sid : Nat) : Enc.Statement (.tlwaitPass g sid) := rfl
theorem Enc.pageWalk (core part va : Nat) : Enc.Statement (.pageWalk core part va) := rfl
theorem Enc.scoreboardEntryGrant (g sid : Nat) : Enc.Statement (.scoreboardEntryGrant g sid) := rfl
theorem Enc.scoreboardAdmit (g sid : Nat) : Enc.Statement (.scoreboardAdmit g sid) := rfl
theorem Enc.streamLanding (op : Nat) (elems : List Nat) : Enc.Statement (.streamLanding op elems) := rfl
theorem Enc.sdecDecode (op n : Nat) : Enc.Statement (.sdecDecode op n) := rfl
theorem Enc.engineOpComplete (op : Nat) : Enc.Statement (.engineOpComplete op) := rfl
theorem Enc.engineOpFault (op : Nat) : Enc.Statement (.engineOpFault op) := rfl
theorem Enc.matrixQueueGrant (g sid : Nat) : Enc.Statement (.matrixQueueGrant g sid) := rfl
theorem Enc.matrixStep (core : Nat) : Enc.Statement (.matrixStep core) := rfl
theorem Enc.tileAzeroEffect (op : Nat) : Enc.Statement (.tileAzeroEffect op) := rfl
theorem Enc.tileAswapEffect (op : Nat) : Enc.Statement (.tileAswapEffect op) := rfl
theorem Enc.tileAreadEffect (op : Nat) : Enc.Statement (.tileAreadEffect op) := rfl
theorem Enc.tileAstoreEffect (op : Nat) : Enc.Statement (.tileAstoreEffect op) := rfl
theorem Enc.transformReply (g op : Nat) : Enc.Statement (.transformReply g op) := rfl
theorem Enc.groupEnd (g : Nat) : Enc.Statement (.groupEnd g) := rfl
theorem Enc.submit (part port : Nat) (addr : DWord) : Enc.Statement (.submit part port addr) := rfl
theorem Enc.submitStatusRead (part port : Nat) : Enc.Statement (.submitStatusRead part port) := rfl
theorem Enc.failack (part : Nat) (ticket : DWord) : Enc.Statement (.failack part ticket) := rfl
theorem Enc.launchReady (part ticket : Nat) : Enc.Statement (.launchReady part ticket) := rfl
theorem Enc.carveoutOffsetFix (part ticket off : Nat) : Enc.Statement (.carveoutOffsetFix part ticket off) := rfl
theorem Enc.placementBegin (part ticket : Nat) : Enc.Statement (.placementBegin part ticket) := rfl
theorem Enc.workgroupPlace (part ticket : Nat) (places : List PlaceAt) : Enc.Statement (.workgroupPlace part ticket places) := rfl
theorem Enc.workgroupRetire (w : Nat) : Enc.Statement (.workgroupRetire w) := rfl
theorem Enc.launchComplete (part ticket : Nat) : Enc.Statement (.launchComplete part ticket) := rfl
theorem Enc.launchFail (part ticket : Nat) : Enc.Statement (.launchFail part ticket) := rfl
theorem Enc.quantumExpiry (die cluster : Nat) : Enc.Statement (.quantumExpiry die cluster) := rfl
theorem Enc.preemption (die cluster : Nat) : Enc.Statement (.preemption die cluster) := rfl
theorem Enc.contextSave (die cluster : Nat) : Enc.Statement (.contextSave die cluster) := rfl
theorem Enc.contextRestore (die cluster part : Nat) (scheds : List (Nat × Nat)) (lost : Bool) : Enc.Statement (.contextRestore die cluster part scheds lost) := rfl
theorem Enc.faultDomainHalt : Enc.Statement (.faultDomainHalt) := rfl
theorem Enc.dumpWrite : Enc.Statement (.dumpWrite) := rfl
theorem Enc.irqMessageDeliver (part : Nat) : Enc.Statement (.irqMessageDeliver part) := rfl
theorem Enc.sliceRegistration (core key : Nat) : Enc.Statement (.sliceRegistration core key) := rfl
theorem Enc.l1Eviction (core line : Nat) : Enc.Statement (.l1Eviction core line) := rfl
theorem Enc.forwardedRead (core key : Nat) : Enc.Statement (.forwardedRead core key) := rfl
theorem Enc.directoryRequest (holder : Nat) (own : Bool) (line : Nat) : Enc.Statement (.directoryRequest holder own line) := rfl
theorem Enc.nodeMerge (die base : Nat) : Enc.Statement (.nodeMerge die base) := rfl
theorem Enc.directoryEviction (die base : Nat) : Enc.Statement (.directoryEviction die base) := rfl
theorem Enc.recall (die base : Nat) (sharing : Bool) : Enc.Statement (.recall die base sharing) := rfl
theorem Enc.companionWrite (pa : Nat) (bytes : List Byte) : Enc.Statement (.companionWrite pa bytes) := rfl
theorem Enc.companionRead (pa n : Nat) : Enc.Statement (.companionRead pa n) := rfl
theorem Enc.packetReceive (p : Packet) : Enc.Statement (.packetReceive p) := rfl
theorem Enc.orderedPacketRelease (source part path seq : Nat) : Enc.Statement (.orderedPacketRelease source part path seq) := rfl
theorem Enc.packetAck (dest part path seq : Nat) (bytes : List (Nat × Byte)) (tags : List Nat) (faultCode : Nat) : Enc.Statement (.packetAck dest part path seq bytes tags faultCode) := rfl
theorem Enc.packetRefusal (dest part path seq : Nat) : Enc.Statement (.packetRefusal dest part path seq) := rfl
theorem Enc.pathDown (dest path : Nat) : Enc.Statement (.pathDown dest path) := rfl
theorem Enc.pathRestore (dest path : Nat) : Enc.Statement (.pathRestore dest path) := rfl
theorem Enc.doorbell (value : DWord) : Enc.Statement (.doorbell value) := rfl
theorem Enc.mstatRead : Enc.Statement (.mstatRead) := rfl
theorem Enc.registerWrite (pa : Nat) (value : DWord) : Enc.Statement (.registerWrite pa value) := rfl
theorem Enc.summary (x : MgmtArgs) : Enc.Statement (.summary x) := rfl
theorem Enc.pcreate (x : MgmtArgs) : Enc.Statement (.pcreate x) := rfl
theorem Enc.pdestroy (x : MgmtArgs) : Enc.Statement (.pdestroy x) := rfl
theorem Enc.precfg (x : MgmtArgs) : Enc.Statement (.precfg x) := rfl
theorem Enc.preset (x : MgmtArgs) : Enc.Statement (.preset x) := rfl
theorem Enc.tlbi (x : MgmtArgs) : Enc.Statement (.tlbi x) := rfl
theorem Enc.cohcfg (x : MgmtArgs) : Enc.Statement (.cohcfg x) := rfl
theorem Enc.cntclr (x : MgmtArgs) : Enc.Statement (.cntclr x) := rfl
theorem Enc.irqcfg (x : MgmtArgs) : Enc.Statement (.irqcfg x) := rfl
theorem Enc.errcfg (x : MgmtArgs) : Enc.Statement (.errcfg x) := rfl
theorem Enc.errread (x : MgmtArgs) : Enc.Statement (.errread x) := rfl
theorem Enc.accfg (x : MgmtArgs) : Enc.Statement (.accfg x) := rfl
theorem Enc.obscfg (x : MgmtArgs) : Enc.Statement (.obscfg x) := rfl
theorem Enc.stop (x : MgmtArgs) : Enc.Statement (.stop x) := rfl
theorem Enc.resume (x : MgmtArgs) : Enc.Statement (.resume x) := rfl
theorem Enc.step (x : MgmtArgs) : Enc.Statement (.step x) := rfl
theorem Enc.histrd (x : MgmtArgs) : Enc.Statement (.histrd x) := rfl
theorem Enc.snap (x : MgmtArgs) : Enc.Statement (.snap x) := rfl
theorem Enc.ckfree (x : MgmtArgs) : Enc.Statement (.ckfree x) := rfl
theorem Enc.replay (x : MgmtArgs) : Enc.Statement (.replay x) := rfl
theorem Enc.dumpcfg (x : MgmtArgs) : Enc.Statement (.dumpcfg x) := rfl
theorem Enc.fwload (x : MgmtArgs) : Enc.Statement (.fwload x) := rfl
theorem Enc.fwswitch (x : MgmtArgs) : Enc.Statement (.fwswitch x) := rfl
theorem Enc.retire (x : MgmtArgs) : Enc.Statement (.retire x) := rfl
theorem Enc.returnUnit (x : MgmtArgs) : Enc.Statement (.returnUnit x) := rfl
theorem Enc.drcal (x : MgmtArgs) : Enc.Statement (.drcal x) := rfl
theorem Enc.ltrain (x : MgmtArgs) : Enc.Statement (.ltrain x) := rfl
theorem Enc.reset (x : MgmtArgs) : Enc.Statement (.reset x) := rfl
theorem Enc.memchk (x : MgmtArgs) : Enc.Statement (.memchk x) := rfl
theorem Enc.coldReset (pass : List (BitVec 7)) (spares : List Nat) (master : Nat) : Enc.Statement (.coldReset pass spares master) := rfl
theorem Enc.sampleTimer (die cluster core sched : Nat) : Enc.Statement (.sampleTimer die cluster core sched) := rfl
theorem Enc.sampleWrite (g sid : Nat) : Enc.Statement (.sampleWrite g sid) := rfl
theorem Enc.stopAtSite (g sid : Nat) : Enc.Statement (.stopAtSite g sid) := rfl
theorem Enc.snapshotLatch (die : Nat) : Enc.Statement (.snapshotLatch die) := rfl
theorem Enc.checkpoint (part : Nat) : Enc.Statement (.checkpoint part) := rfl
theorem Enc.checkpointRegionCopy (part va : Nat) : Enc.Statement (.checkpointRegionCopy part va) := rfl
theorem Enc.replayEvent (part home : Nat) (kind ticket wg group lane : Nat) (addr value : DWord) : Enc.Statement (.replayEvent part home kind ticket wg group lane addr value) := rfl
theorem Enc.codeObjectLoad (part : Nat) (obj : CodeObject) : Enc.Statement (.codeObjectLoad part obj) := rfl
theorem Enc.transformPipeAccept (core : Nat) : Enc.Statement (.transformPipeAccept core) := rfl
theorem Enc.cirqueWatchdogReset (die master : Nat) : Enc.Statement (.cirqueWatchdogReset die master) := rfl
theorem Enc.firmwareFault (die master : Nat) : Enc.Statement (.firmwareFault die master) := rfl
theorem Enc.thermalTrip (die : Nat) : Enc.Statement (.thermalTrip die) := rfl
theorem Enc.dieThrottle (die : Nat) : Enc.Statement (.dieThrottle die) := rfl
theorem Enc.powerCapReached : Enc.Statement (.powerCapReached) := rfl
theorem Enc.uncorrectableError (key : Nat) (reader : Option Nat) : Enc.Statement (.uncorrectableError key reader) := rfl
theorem Enc.patrolScrub (die : Nat) (bad : List Nat) : Enc.Statement (.patrolScrub die bad) := rfl
theorem Enc.recallBoundExceeded (die base : Nat) : Enc.Statement (.recallBoundExceeded die base) := rfl
theorem Enc.directoryArrayUncorrectable (die : Nat) : Enc.Statement (.directoryArrayUncorrectable die) := rfl
theorem Enc.packageInterconnectFailure : Enc.Statement (.packageInterconnectFailure) := rfl
theorem Enc.linkLossReset : Enc.Statement (.linkLossReset) := rfl
theorem Enc.mbatilLinkDown : Enc.Statement (.mbatilLinkDown) := rfl
theorem Enc.mbatilLaneDegraded (lane : Nat) : Enc.Statement (.mbatilLaneDegraded lane) := rfl
theorem Enc.destinationUnreachable (dest : Nat) : Enc.Statement (.destinationUnreachable dest) := rfl
theorem Enc.stallHistogramCount (die cluster core sched : Nat) : Enc.Statement (.stallHistogramCount die cluster core sched) := rfl
theorem Enc.replayHoldTimeout (part home : Nat) : Enc.Statement (.replayHoldTimeout part home) := rfl
theorem Enc.scoreHalving (core : Nat) : Enc.Statement (.scoreHalving core) := rfl

end Sys2Proof.Laws
end

