-- ==== Sys2Proof/Laws/State.lean ====
section
/-!
SUPPORT. Each plain update of State, field by field: what it sets, and that it leaves every other field alone.
-/
namespace Sys2Proof.Machine

/-! modGroup -/
@[simp] theorem State.modGroup_cur (s : State) (n : Nat) (f : Group → Group) : (s.modGroup n f).cur = s.cur := rfl
@[simp] theorem State.modGroup_agenda (s : State) (n : Nat) (f : Group → Group) : (s.modGroup n f).agenda = s.agenda := rfl
@[simp] theorem State.modGroup_free (s : State) (n : Nat) (f : Group → Group) : (s.modGroup n f).free = s.free := rfl
@[simp] theorem State.modGroup_serial (s : State) (n : Nat) (f : Group → Group) : (s.modGroup n f).serial = s.serial := rfl
@[simp] theorem State.modGroup_bus (s : State) (n : Nat) (f : Group → Group) : (s.modGroup n f).bus = s.bus := rfl
@[simp] theorem State.modGroup_mem (s : State) (n : Nat) (f : Group → Group) : (s.modGroup n f).mem = s.mem := rfl
@[simp] theorem State.modGroup_tags (s : State) (n : Nat) (f : Group → Group) : (s.modGroup n f).tags = s.tags := rfl
@[simp] theorem State.modGroup_poison (s : State) (n : Nat) (f : Group → Group) : (s.modGroup n f).poison = s.poison := rfl
@[simp] theorem State.modGroup_dies (s : State) (n : Nat) (f : Group → Group) : (s.modGroup n f).dies = s.dies := rfl
@[simp] theorem State.modGroup_cores (s : State) (n : Nat) (f : Group → Group) : (s.modGroup n f).cores = s.cores := rfl
@[simp] theorem State.modGroup_parts (s : State) (n : Nat) (f : Group → Group) : (s.modGroup n f).parts = s.parts := rfl
@[simp] theorem State.modGroup_wgs (s : State) (n : Nat) (f : Group → Group) : (s.modGroup n f).wgs = s.wgs := rfl
@[simp] theorem State.modGroup_groups (s : State) (n : Nat) (f : Group → Group) : (s.modGroup n f).groups = replaceBy (fun x => x.gid == n) f s.groups := rfl
@[simp] theorem State.modGroup_records (s : State) (n : Nat) (f : Group → Group) : (s.modGroup n f).records = s.records := rfl
@[simp] theorem State.modGroup_recordBase (s : State) (n : Nat) (f : Group → Group) : (s.modGroup n f).recordBase = s.recordBase := rfl
@[simp] theorem State.modGroup_classes (s : State) (n : Nat) (f : Group → Group) : (s.modGroup n f).classes = s.classes := rfl
@[simp] theorem State.modGroup_halts (s : State) (n : Nat) (f : Group → Group) : (s.modGroup n f).halts = s.halts := rfl
@[simp] theorem State.modGroup_mailbox (s : State) (n : Nat) (f : Group → Group) : (s.modGroup n f).mailbox = s.mailbox := rfl
@[simp] theorem State.modGroup_master (s : State) (n : Nat) (f : Group → Group) : (s.modGroup n f).master = s.master := rfl
@[simp] theorem State.modGroup_pod (s : State) (n : Nat) (f : Group → Group) : (s.modGroup n f).pod = s.pod := rfl
@[simp] theorem State.modGroup_paths (s : State) (n : Nat) (f : Group → Group) : (s.modGroup n f).paths = s.paths := rfl
@[simp] theorem State.modGroup_counts (s : State) (n : Nat) (f : Group → Group) : (s.modGroup n f).counts = s.counts := rfl
@[simp] theorem State.modGroup_perfs (s : State) (n : Nat) (f : Group → Group) : (s.modGroup n f).perfs = s.perfs := rfl
@[simp] theorem State.modGroup_sent (s : State) (n : Nat) (f : Group → Group) : (s.modGroup n f).sent = s.sent := rfl
@[simp] theorem State.modGroup_answers (s : State) (n : Nat) (f : Group → Group) : (s.modGroup n f).answers = s.answers := rfl
@[simp] theorem State.modGroup_reply (s : State) (n : Nat) (f : Group → Group) : (s.modGroup n f).reply = s.reply := rfl
@[simp] theorem State.modGroup_heldPkts (s : State) (n : Nat) (f : Group → Group) : (s.modGroup n f).heldPkts = s.heldPkts := rfl
@[simp] theorem State.modGroup_farResv (s : State) (n : Nat) (f : Group → Group) : (s.modGroup n f).farResv = s.farResv := rfl
@[simp] theorem State.modGroup_linkDown (s : State) (n : Nat) (f : Group → Group) : (s.modGroup n f).linkDown = s.linkDown := rfl
@[simp] theorem State.modGroup_badLanes (s : State) (n : Nat) (f : Group → Group) : (s.modGroup n f).badLanes = s.badLanes := rfl
@[simp] theorem State.modGroup_retrains (s : State) (n : Nat) (f : Group → Group) : (s.modGroup n f).retrains = s.retrains := rfl
@[simp] theorem State.modGroup_powerCap (s : State) (n : Nat) (f : Group → Group) : (s.modGroup n f).powerCap = s.powerCap := rfl
@[simp] theorem State.modGroup_snap (s : State) (n : Nat) (f : Group → Group) : (s.modGroup n f).snap = s.snap := rfl
@[simp] theorem State.modGroup_samples (s : State) (n : Nat) (f : Group → Group) : (s.modGroup n f).samples = s.samples := rfl

/-! modSplit -/
@[simp] theorem State.modSplit_cur (s : State) (n k : Nat) (f : Split → Split) : (s.modSplit n k f).cur = s.cur := rfl
@[simp] theorem State.modSplit_agenda (s : State) (n k : Nat) (f : Split → Split) : (s.modSplit n k f).agenda = s.agenda := rfl
@[simp] theorem State.modSplit_free (s : State) (n k : Nat) (f : Split → Split) : (s.modSplit n k f).free = s.free := rfl
@[simp] theorem State.modSplit_serial (s : State) (n k : Nat) (f : Split → Split) : (s.modSplit n k f).serial = s.serial := rfl
@[simp] theorem State.modSplit_bus (s : State) (n k : Nat) (f : Split → Split) : (s.modSplit n k f).bus = s.bus := rfl
@[simp] theorem State.modSplit_mem (s : State) (n k : Nat) (f : Split → Split) : (s.modSplit n k f).mem = s.mem := rfl
@[simp] theorem State.modSplit_tags (s : State) (n k : Nat) (f : Split → Split) : (s.modSplit n k f).tags = s.tags := rfl
@[simp] theorem State.modSplit_poison (s : State) (n k : Nat) (f : Split → Split) : (s.modSplit n k f).poison = s.poison := rfl
@[simp] theorem State.modSplit_dies (s : State) (n k : Nat) (f : Split → Split) : (s.modSplit n k f).dies = s.dies := rfl
@[simp] theorem State.modSplit_cores (s : State) (n k : Nat) (f : Split → Split) : (s.modSplit n k f).cores = s.cores := rfl
@[simp] theorem State.modSplit_parts (s : State) (n k : Nat) (f : Split → Split) : (s.modSplit n k f).parts = s.parts := rfl
@[simp] theorem State.modSplit_wgs (s : State) (n k : Nat) (f : Split → Split) : (s.modSplit n k f).wgs = s.wgs := rfl
@[simp] theorem State.modSplit_groups (s : State) (n k : Nat) (f : Split → Split) : (s.modSplit n k f).groups = replaceBy (fun x => x.gid == n) (fun x => x.modSplit k f) s.groups := rfl
@[simp] theorem State.modSplit_records (s : State) (n k : Nat) (f : Split → Split) : (s.modSplit n k f).records = s.records := rfl
@[simp] theorem State.modSplit_recordBase (s : State) (n k : Nat) (f : Split → Split) : (s.modSplit n k f).recordBase = s.recordBase := rfl
@[simp] theorem State.modSplit_classes (s : State) (n k : Nat) (f : Split → Split) : (s.modSplit n k f).classes = s.classes := rfl
@[simp] theorem State.modSplit_halts (s : State) (n k : Nat) (f : Split → Split) : (s.modSplit n k f).halts = s.halts := rfl
@[simp] theorem State.modSplit_mailbox (s : State) (n k : Nat) (f : Split → Split) : (s.modSplit n k f).mailbox = s.mailbox := rfl
@[simp] theorem State.modSplit_master (s : State) (n k : Nat) (f : Split → Split) : (s.modSplit n k f).master = s.master := rfl
@[simp] theorem State.modSplit_pod (s : State) (n k : Nat) (f : Split → Split) : (s.modSplit n k f).pod = s.pod := rfl
@[simp] theorem State.modSplit_paths (s : State) (n k : Nat) (f : Split → Split) : (s.modSplit n k f).paths = s.paths := rfl
@[simp] theorem State.modSplit_counts (s : State) (n k : Nat) (f : Split → Split) : (s.modSplit n k f).counts = s.counts := rfl
@[simp] theorem State.modSplit_perfs (s : State) (n k : Nat) (f : Split → Split) : (s.modSplit n k f).perfs = s.perfs := rfl
@[simp] theorem State.modSplit_sent (s : State) (n k : Nat) (f : Split → Split) : (s.modSplit n k f).sent = s.sent := rfl
@[simp] theorem State.modSplit_answers (s : State) (n k : Nat) (f : Split → Split) : (s.modSplit n k f).answers = s.answers := rfl
@[simp] theorem State.modSplit_reply (s : State) (n k : Nat) (f : Split → Split) : (s.modSplit n k f).reply = s.reply := rfl
@[simp] theorem State.modSplit_heldPkts (s : State) (n k : Nat) (f : Split → Split) : (s.modSplit n k f).heldPkts = s.heldPkts := rfl
@[simp] theorem State.modSplit_farResv (s : State) (n k : Nat) (f : Split → Split) : (s.modSplit n k f).farResv = s.farResv := rfl
@[simp] theorem State.modSplit_linkDown (s : State) (n k : Nat) (f : Split → Split) : (s.modSplit n k f).linkDown = s.linkDown := rfl
@[simp] theorem State.modSplit_badLanes (s : State) (n k : Nat) (f : Split → Split) : (s.modSplit n k f).badLanes = s.badLanes := rfl
@[simp] theorem State.modSplit_retrains (s : State) (n k : Nat) (f : Split → Split) : (s.modSplit n k f).retrains = s.retrains := rfl
@[simp] theorem State.modSplit_powerCap (s : State) (n k : Nat) (f : Split → Split) : (s.modSplit n k f).powerCap = s.powerCap := rfl
@[simp] theorem State.modSplit_snap (s : State) (n k : Nat) (f : Split → Split) : (s.modSplit n k f).snap = s.snap := rfl
@[simp] theorem State.modSplit_samples (s : State) (n k : Nat) (f : Split → Split) : (s.modSplit n k f).samples = s.samples := rfl

/-! modWg -/
@[simp] theorem State.modWg_cur (s : State) (n : Nat) (f : Workgroup → Workgroup) : (s.modWg n f).cur = s.cur := rfl
@[simp] theorem State.modWg_agenda (s : State) (n : Nat) (f : Workgroup → Workgroup) : (s.modWg n f).agenda = s.agenda := rfl
@[simp] theorem State.modWg_free (s : State) (n : Nat) (f : Workgroup → Workgroup) : (s.modWg n f).free = s.free := rfl
@[simp] theorem State.modWg_serial (s : State) (n : Nat) (f : Workgroup → Workgroup) : (s.modWg n f).serial = s.serial := rfl
@[simp] theorem State.modWg_bus (s : State) (n : Nat) (f : Workgroup → Workgroup) : (s.modWg n f).bus = s.bus := rfl
@[simp] theorem State.modWg_mem (s : State) (n : Nat) (f : Workgroup → Workgroup) : (s.modWg n f).mem = s.mem := rfl
@[simp] theorem State.modWg_tags (s : State) (n : Nat) (f : Workgroup → Workgroup) : (s.modWg n f).tags = s.tags := rfl
@[simp] theorem State.modWg_poison (s : State) (n : Nat) (f : Workgroup → Workgroup) : (s.modWg n f).poison = s.poison := rfl
@[simp] theorem State.modWg_dies (s : State) (n : Nat) (f : Workgroup → Workgroup) : (s.modWg n f).dies = s.dies := rfl
@[simp] theorem State.modWg_cores (s : State) (n : Nat) (f : Workgroup → Workgroup) : (s.modWg n f).cores = s.cores := rfl
@[simp] theorem State.modWg_parts (s : State) (n : Nat) (f : Workgroup → Workgroup) : (s.modWg n f).parts = s.parts := rfl
@[simp] theorem State.modWg_wgs (s : State) (n : Nat) (f : Workgroup → Workgroup) : (s.modWg n f).wgs = replaceBy (fun w => w.key == n) f s.wgs := rfl
@[simp] theorem State.modWg_groups (s : State) (n : Nat) (f : Workgroup → Workgroup) : (s.modWg n f).groups = s.groups := rfl
@[simp] theorem State.modWg_records (s : State) (n : Nat) (f : Workgroup → Workgroup) : (s.modWg n f).records = s.records := rfl
@[simp] theorem State.modWg_recordBase (s : State) (n : Nat) (f : Workgroup → Workgroup) : (s.modWg n f).recordBase = s.recordBase := rfl
@[simp] theorem State.modWg_classes (s : State) (n : Nat) (f : Workgroup → Workgroup) : (s.modWg n f).classes = s.classes := rfl
@[simp] theorem State.modWg_halts (s : State) (n : Nat) (f : Workgroup → Workgroup) : (s.modWg n f).halts = s.halts := rfl
@[simp] theorem State.modWg_mailbox (s : State) (n : Nat) (f : Workgroup → Workgroup) : (s.modWg n f).mailbox = s.mailbox := rfl
@[simp] theorem State.modWg_master (s : State) (n : Nat) (f : Workgroup → Workgroup) : (s.modWg n f).master = s.master := rfl
@[simp] theorem State.modWg_pod (s : State) (n : Nat) (f : Workgroup → Workgroup) : (s.modWg n f).pod = s.pod := rfl
@[simp] theorem State.modWg_paths (s : State) (n : Nat) (f : Workgroup → Workgroup) : (s.modWg n f).paths = s.paths := rfl
@[simp] theorem State.modWg_counts (s : State) (n : Nat) (f : Workgroup → Workgroup) : (s.modWg n f).counts = s.counts := rfl
@[simp] theorem State.modWg_perfs (s : State) (n : Nat) (f : Workgroup → Workgroup) : (s.modWg n f).perfs = s.perfs := rfl
@[simp] theorem State.modWg_sent (s : State) (n : Nat) (f : Workgroup → Workgroup) : (s.modWg n f).sent = s.sent := rfl
@[simp] theorem State.modWg_answers (s : State) (n : Nat) (f : Workgroup → Workgroup) : (s.modWg n f).answers = s.answers := rfl
@[simp] theorem State.modWg_reply (s : State) (n : Nat) (f : Workgroup → Workgroup) : (s.modWg n f).reply = s.reply := rfl
@[simp] theorem State.modWg_heldPkts (s : State) (n : Nat) (f : Workgroup → Workgroup) : (s.modWg n f).heldPkts = s.heldPkts := rfl
@[simp] theorem State.modWg_farResv (s : State) (n : Nat) (f : Workgroup → Workgroup) : (s.modWg n f).farResv = s.farResv := rfl
@[simp] theorem State.modWg_linkDown (s : State) (n : Nat) (f : Workgroup → Workgroup) : (s.modWg n f).linkDown = s.linkDown := rfl
@[simp] theorem State.modWg_badLanes (s : State) (n : Nat) (f : Workgroup → Workgroup) : (s.modWg n f).badLanes = s.badLanes := rfl
@[simp] theorem State.modWg_retrains (s : State) (n : Nat) (f : Workgroup → Workgroup) : (s.modWg n f).retrains = s.retrains := rfl
@[simp] theorem State.modWg_powerCap (s : State) (n : Nat) (f : Workgroup → Workgroup) : (s.modWg n f).powerCap = s.powerCap := rfl
@[simp] theorem State.modWg_snap (s : State) (n : Nat) (f : Workgroup → Workgroup) : (s.modWg n f).snap = s.snap := rfl
@[simp] theorem State.modWg_samples (s : State) (n : Nat) (f : Workgroup → Workgroup) : (s.modWg n f).samples = s.samples := rfl

/-! modTimeline -/
@[simp] theorem State.modTimeline_cur (s : State) (n k : Nat) (f : Timeline → Timeline) : (s.modTimeline n k f).cur = s.cur := rfl
@[simp] theorem State.modTimeline_agenda (s : State) (n k : Nat) (f : Timeline → Timeline) : (s.modTimeline n k f).agenda = s.agenda := rfl
@[simp] theorem State.modTimeline_free (s : State) (n k : Nat) (f : Timeline → Timeline) : (s.modTimeline n k f).free = s.free := rfl
@[simp] theorem State.modTimeline_serial (s : State) (n k : Nat) (f : Timeline → Timeline) : (s.modTimeline n k f).serial = s.serial := rfl
@[simp] theorem State.modTimeline_bus (s : State) (n k : Nat) (f : Timeline → Timeline) : (s.modTimeline n k f).bus = s.bus := rfl
@[simp] theorem State.modTimeline_mem (s : State) (n k : Nat) (f : Timeline → Timeline) : (s.modTimeline n k f).mem = s.mem := rfl
@[simp] theorem State.modTimeline_tags (s : State) (n k : Nat) (f : Timeline → Timeline) : (s.modTimeline n k f).tags = s.tags := rfl
@[simp] theorem State.modTimeline_poison (s : State) (n k : Nat) (f : Timeline → Timeline) : (s.modTimeline n k f).poison = s.poison := rfl
@[simp] theorem State.modTimeline_dies (s : State) (n k : Nat) (f : Timeline → Timeline) : (s.modTimeline n k f).dies = s.dies := rfl
@[simp] theorem State.modTimeline_cores (s : State) (n k : Nat) (f : Timeline → Timeline) : (s.modTimeline n k f).cores = s.cores := rfl
@[simp] theorem State.modTimeline_parts (s : State) (n k : Nat) (f : Timeline → Timeline) : (s.modTimeline n k f).parts = s.parts := rfl
@[simp] theorem State.modTimeline_wgs (s : State) (n k : Nat) (f : Timeline → Timeline) : (s.modTimeline n k f).wgs = replaceBy (fun w => w.key == n) (fun w => { w with timelines := w.timelines.modify k f }) s.wgs := rfl
@[simp] theorem State.modTimeline_groups (s : State) (n k : Nat) (f : Timeline → Timeline) : (s.modTimeline n k f).groups = s.groups := rfl
@[simp] theorem State.modTimeline_records (s : State) (n k : Nat) (f : Timeline → Timeline) : (s.modTimeline n k f).records = s.records := rfl
@[simp] theorem State.modTimeline_recordBase (s : State) (n k : Nat) (f : Timeline → Timeline) : (s.modTimeline n k f).recordBase = s.recordBase := rfl
@[simp] theorem State.modTimeline_classes (s : State) (n k : Nat) (f : Timeline → Timeline) : (s.modTimeline n k f).classes = s.classes := rfl
@[simp] theorem State.modTimeline_halts (s : State) (n k : Nat) (f : Timeline → Timeline) : (s.modTimeline n k f).halts = s.halts := rfl
@[simp] theorem State.modTimeline_mailbox (s : State) (n k : Nat) (f : Timeline → Timeline) : (s.modTimeline n k f).mailbox = s.mailbox := rfl
@[simp] theorem State.modTimeline_master (s : State) (n k : Nat) (f : Timeline → Timeline) : (s.modTimeline n k f).master = s.master := rfl
@[simp] theorem State.modTimeline_pod (s : State) (n k : Nat) (f : Timeline → Timeline) : (s.modTimeline n k f).pod = s.pod := rfl
@[simp] theorem State.modTimeline_paths (s : State) (n k : Nat) (f : Timeline → Timeline) : (s.modTimeline n k f).paths = s.paths := rfl
@[simp] theorem State.modTimeline_counts (s : State) (n k : Nat) (f : Timeline → Timeline) : (s.modTimeline n k f).counts = s.counts := rfl
@[simp] theorem State.modTimeline_perfs (s : State) (n k : Nat) (f : Timeline → Timeline) : (s.modTimeline n k f).perfs = s.perfs := rfl
@[simp] theorem State.modTimeline_sent (s : State) (n k : Nat) (f : Timeline → Timeline) : (s.modTimeline n k f).sent = s.sent := rfl
@[simp] theorem State.modTimeline_answers (s : State) (n k : Nat) (f : Timeline → Timeline) : (s.modTimeline n k f).answers = s.answers := rfl
@[simp] theorem State.modTimeline_reply (s : State) (n k : Nat) (f : Timeline → Timeline) : (s.modTimeline n k f).reply = s.reply := rfl
@[simp] theorem State.modTimeline_heldPkts (s : State) (n k : Nat) (f : Timeline → Timeline) : (s.modTimeline n k f).heldPkts = s.heldPkts := rfl
@[simp] theorem State.modTimeline_farResv (s : State) (n k : Nat) (f : Timeline → Timeline) : (s.modTimeline n k f).farResv = s.farResv := rfl
@[simp] theorem State.modTimeline_linkDown (s : State) (n k : Nat) (f : Timeline → Timeline) : (s.modTimeline n k f).linkDown = s.linkDown := rfl
@[simp] theorem State.modTimeline_badLanes (s : State) (n k : Nat) (f : Timeline → Timeline) : (s.modTimeline n k f).badLanes = s.badLanes := rfl
@[simp] theorem State.modTimeline_retrains (s : State) (n k : Nat) (f : Timeline → Timeline) : (s.modTimeline n k f).retrains = s.retrains := rfl
@[simp] theorem State.modTimeline_powerCap (s : State) (n k : Nat) (f : Timeline → Timeline) : (s.modTimeline n k f).powerCap = s.powerCap := rfl
@[simp] theorem State.modTimeline_snap (s : State) (n k : Nat) (f : Timeline → Timeline) : (s.modTimeline n k f).snap = s.snap := rfl
@[simp] theorem State.modTimeline_samples (s : State) (n k : Nat) (f : Timeline → Timeline) : (s.modTimeline n k f).samples = s.samples := rfl

/-! modPart -/
@[simp] theorem State.modPart_cur (s : State) (n : Nat) (f : Partition → Partition) : (s.modPart n f).cur = s.cur := rfl
@[simp] theorem State.modPart_agenda (s : State) (n : Nat) (f : Partition → Partition) : (s.modPart n f).agenda = s.agenda := rfl
@[simp] theorem State.modPart_free (s : State) (n : Nat) (f : Partition → Partition) : (s.modPart n f).free = s.free := rfl
@[simp] theorem State.modPart_serial (s : State) (n : Nat) (f : Partition → Partition) : (s.modPart n f).serial = s.serial := rfl
@[simp] theorem State.modPart_bus (s : State) (n : Nat) (f : Partition → Partition) : (s.modPart n f).bus = s.bus := rfl
@[simp] theorem State.modPart_mem (s : State) (n : Nat) (f : Partition → Partition) : (s.modPart n f).mem = s.mem := rfl
@[simp] theorem State.modPart_tags (s : State) (n : Nat) (f : Partition → Partition) : (s.modPart n f).tags = s.tags := rfl
@[simp] theorem State.modPart_poison (s : State) (n : Nat) (f : Partition → Partition) : (s.modPart n f).poison = s.poison := rfl
@[simp] theorem State.modPart_dies (s : State) (n : Nat) (f : Partition → Partition) : (s.modPart n f).dies = s.dies := rfl
@[simp] theorem State.modPart_cores (s : State) (n : Nat) (f : Partition → Partition) : (s.modPart n f).cores = s.cores := rfl
@[simp] theorem State.modPart_parts (s : State) (n : Nat) (f : Partition → Partition) : (s.modPart n f).parts = replaceBy (fun p => p.num == n) f s.parts := rfl
@[simp] theorem State.modPart_wgs (s : State) (n : Nat) (f : Partition → Partition) : (s.modPart n f).wgs = s.wgs := rfl
@[simp] theorem State.modPart_groups (s : State) (n : Nat) (f : Partition → Partition) : (s.modPart n f).groups = s.groups := rfl
@[simp] theorem State.modPart_records (s : State) (n : Nat) (f : Partition → Partition) : (s.modPart n f).records = s.records := rfl
@[simp] theorem State.modPart_recordBase (s : State) (n : Nat) (f : Partition → Partition) : (s.modPart n f).recordBase = s.recordBase := rfl
@[simp] theorem State.modPart_classes (s : State) (n : Nat) (f : Partition → Partition) : (s.modPart n f).classes = s.classes := rfl
@[simp] theorem State.modPart_halts (s : State) (n : Nat) (f : Partition → Partition) : (s.modPart n f).halts = s.halts := rfl
@[simp] theorem State.modPart_mailbox (s : State) (n : Nat) (f : Partition → Partition) : (s.modPart n f).mailbox = s.mailbox := rfl
@[simp] theorem State.modPart_master (s : State) (n : Nat) (f : Partition → Partition) : (s.modPart n f).master = s.master := rfl
@[simp] theorem State.modPart_pod (s : State) (n : Nat) (f : Partition → Partition) : (s.modPart n f).pod = s.pod := rfl
@[simp] theorem State.modPart_paths (s : State) (n : Nat) (f : Partition → Partition) : (s.modPart n f).paths = s.paths := rfl
@[simp] theorem State.modPart_counts (s : State) (n : Nat) (f : Partition → Partition) : (s.modPart n f).counts = s.counts := rfl
@[simp] theorem State.modPart_perfs (s : State) (n : Nat) (f : Partition → Partition) : (s.modPart n f).perfs = s.perfs := rfl
@[simp] theorem State.modPart_sent (s : State) (n : Nat) (f : Partition → Partition) : (s.modPart n f).sent = s.sent := rfl
@[simp] theorem State.modPart_answers (s : State) (n : Nat) (f : Partition → Partition) : (s.modPart n f).answers = s.answers := rfl
@[simp] theorem State.modPart_reply (s : State) (n : Nat) (f : Partition → Partition) : (s.modPart n f).reply = s.reply := rfl
@[simp] theorem State.modPart_heldPkts (s : State) (n : Nat) (f : Partition → Partition) : (s.modPart n f).heldPkts = s.heldPkts := rfl
@[simp] theorem State.modPart_farResv (s : State) (n : Nat) (f : Partition → Partition) : (s.modPart n f).farResv = s.farResv := rfl
@[simp] theorem State.modPart_linkDown (s : State) (n : Nat) (f : Partition → Partition) : (s.modPart n f).linkDown = s.linkDown := rfl
@[simp] theorem State.modPart_badLanes (s : State) (n : Nat) (f : Partition → Partition) : (s.modPart n f).badLanes = s.badLanes := rfl
@[simp] theorem State.modPart_retrains (s : State) (n : Nat) (f : Partition → Partition) : (s.modPart n f).retrains = s.retrains := rfl
@[simp] theorem State.modPart_powerCap (s : State) (n : Nat) (f : Partition → Partition) : (s.modPart n f).powerCap = s.powerCap := rfl
@[simp] theorem State.modPart_snap (s : State) (n : Nat) (f : Partition → Partition) : (s.modPart n f).snap = s.snap := rfl
@[simp] theorem State.modPart_samples (s : State) (n : Nat) (f : Partition → Partition) : (s.modPart n f).samples = s.samples := rfl

/-! modLaunch -/
@[simp] theorem State.modLaunch_cur (s : State) (n k : Nat) (f : Launch → Launch) : (s.modLaunch n k f).cur = s.cur := rfl
@[simp] theorem State.modLaunch_agenda (s : State) (n k : Nat) (f : Launch → Launch) : (s.modLaunch n k f).agenda = s.agenda := rfl
@[simp] theorem State.modLaunch_free (s : State) (n k : Nat) (f : Launch → Launch) : (s.modLaunch n k f).free = s.free := rfl
@[simp] theorem State.modLaunch_serial (s : State) (n k : Nat) (f : Launch → Launch) : (s.modLaunch n k f).serial = s.serial := rfl
@[simp] theorem State.modLaunch_bus (s : State) (n k : Nat) (f : Launch → Launch) : (s.modLaunch n k f).bus = s.bus := rfl
@[simp] theorem State.modLaunch_mem (s : State) (n k : Nat) (f : Launch → Launch) : (s.modLaunch n k f).mem = s.mem := rfl
@[simp] theorem State.modLaunch_tags (s : State) (n k : Nat) (f : Launch → Launch) : (s.modLaunch n k f).tags = s.tags := rfl
@[simp] theorem State.modLaunch_poison (s : State) (n k : Nat) (f : Launch → Launch) : (s.modLaunch n k f).poison = s.poison := rfl
@[simp] theorem State.modLaunch_dies (s : State) (n k : Nat) (f : Launch → Launch) : (s.modLaunch n k f).dies = s.dies := rfl
@[simp] theorem State.modLaunch_cores (s : State) (n k : Nat) (f : Launch → Launch) : (s.modLaunch n k f).cores = s.cores := rfl
@[simp] theorem State.modLaunch_parts (s : State) (n k : Nat) (f : Launch → Launch) : (s.modLaunch n k f).parts = replaceBy (fun p => p.num == n) (fun p => p.modLaunch k f) s.parts := rfl
@[simp] theorem State.modLaunch_wgs (s : State) (n k : Nat) (f : Launch → Launch) : (s.modLaunch n k f).wgs = s.wgs := rfl
@[simp] theorem State.modLaunch_groups (s : State) (n k : Nat) (f : Launch → Launch) : (s.modLaunch n k f).groups = s.groups := rfl
@[simp] theorem State.modLaunch_records (s : State) (n k : Nat) (f : Launch → Launch) : (s.modLaunch n k f).records = s.records := rfl
@[simp] theorem State.modLaunch_recordBase (s : State) (n k : Nat) (f : Launch → Launch) : (s.modLaunch n k f).recordBase = s.recordBase := rfl
@[simp] theorem State.modLaunch_classes (s : State) (n k : Nat) (f : Launch → Launch) : (s.modLaunch n k f).classes = s.classes := rfl
@[simp] theorem State.modLaunch_halts (s : State) (n k : Nat) (f : Launch → Launch) : (s.modLaunch n k f).halts = s.halts := rfl
@[simp] theorem State.modLaunch_mailbox (s : State) (n k : Nat) (f : Launch → Launch) : (s.modLaunch n k f).mailbox = s.mailbox := rfl
@[simp] theorem State.modLaunch_master (s : State) (n k : Nat) (f : Launch → Launch) : (s.modLaunch n k f).master = s.master := rfl
@[simp] theorem State.modLaunch_pod (s : State) (n k : Nat) (f : Launch → Launch) : (s.modLaunch n k f).pod = s.pod := rfl
@[simp] theorem State.modLaunch_paths (s : State) (n k : Nat) (f : Launch → Launch) : (s.modLaunch n k f).paths = s.paths := rfl
@[simp] theorem State.modLaunch_counts (s : State) (n k : Nat) (f : Launch → Launch) : (s.modLaunch n k f).counts = s.counts := rfl
@[simp] theorem State.modLaunch_perfs (s : State) (n k : Nat) (f : Launch → Launch) : (s.modLaunch n k f).perfs = s.perfs := rfl
@[simp] theorem State.modLaunch_sent (s : State) (n k : Nat) (f : Launch → Launch) : (s.modLaunch n k f).sent = s.sent := rfl
@[simp] theorem State.modLaunch_answers (s : State) (n k : Nat) (f : Launch → Launch) : (s.modLaunch n k f).answers = s.answers := rfl
@[simp] theorem State.modLaunch_reply (s : State) (n k : Nat) (f : Launch → Launch) : (s.modLaunch n k f).reply = s.reply := rfl
@[simp] theorem State.modLaunch_heldPkts (s : State) (n k : Nat) (f : Launch → Launch) : (s.modLaunch n k f).heldPkts = s.heldPkts := rfl
@[simp] theorem State.modLaunch_farResv (s : State) (n k : Nat) (f : Launch → Launch) : (s.modLaunch n k f).farResv = s.farResv := rfl
@[simp] theorem State.modLaunch_linkDown (s : State) (n k : Nat) (f : Launch → Launch) : (s.modLaunch n k f).linkDown = s.linkDown := rfl
@[simp] theorem State.modLaunch_badLanes (s : State) (n k : Nat) (f : Launch → Launch) : (s.modLaunch n k f).badLanes = s.badLanes := rfl
@[simp] theorem State.modLaunch_retrains (s : State) (n k : Nat) (f : Launch → Launch) : (s.modLaunch n k f).retrains = s.retrains := rfl
@[simp] theorem State.modLaunch_powerCap (s : State) (n k : Nat) (f : Launch → Launch) : (s.modLaunch n k f).powerCap = s.powerCap := rfl
@[simp] theorem State.modLaunch_snap (s : State) (n k : Nat) (f : Launch → Launch) : (s.modLaunch n k f).snap = s.snap := rfl
@[simp] theorem State.modLaunch_samples (s : State) (n k : Nat) (f : Launch → Launch) : (s.modLaunch n k f).samples = s.samples := rfl

/-! modDie -/
@[simp] theorem State.modDie_cur (s : State) (n : Nat) (f : Die → Die) : (s.modDie n f).cur = s.cur := rfl
@[simp] theorem State.modDie_agenda (s : State) (n : Nat) (f : Die → Die) : (s.modDie n f).agenda = s.agenda := rfl
@[simp] theorem State.modDie_free (s : State) (n : Nat) (f : Die → Die) : (s.modDie n f).free = s.free := rfl
@[simp] theorem State.modDie_serial (s : State) (n : Nat) (f : Die → Die) : (s.modDie n f).serial = s.serial := rfl
@[simp] theorem State.modDie_bus (s : State) (n : Nat) (f : Die → Die) : (s.modDie n f).bus = s.bus := rfl
@[simp] theorem State.modDie_mem (s : State) (n : Nat) (f : Die → Die) : (s.modDie n f).mem = s.mem := rfl
@[simp] theorem State.modDie_tags (s : State) (n : Nat) (f : Die → Die) : (s.modDie n f).tags = s.tags := rfl
@[simp] theorem State.modDie_poison (s : State) (n : Nat) (f : Die → Die) : (s.modDie n f).poison = s.poison := rfl
@[simp] theorem State.modDie_dies (s : State) (n : Nat) (f : Die → Die) : (s.modDie n f).dies = s.dies.modify n f := rfl
@[simp] theorem State.modDie_cores (s : State) (n : Nat) (f : Die → Die) : (s.modDie n f).cores = s.cores := rfl
@[simp] theorem State.modDie_parts (s : State) (n : Nat) (f : Die → Die) : (s.modDie n f).parts = s.parts := rfl
@[simp] theorem State.modDie_wgs (s : State) (n : Nat) (f : Die → Die) : (s.modDie n f).wgs = s.wgs := rfl
@[simp] theorem State.modDie_groups (s : State) (n : Nat) (f : Die → Die) : (s.modDie n f).groups = s.groups := rfl
@[simp] theorem State.modDie_records (s : State) (n : Nat) (f : Die → Die) : (s.modDie n f).records = s.records := rfl
@[simp] theorem State.modDie_recordBase (s : State) (n : Nat) (f : Die → Die) : (s.modDie n f).recordBase = s.recordBase := rfl
@[simp] theorem State.modDie_classes (s : State) (n : Nat) (f : Die → Die) : (s.modDie n f).classes = s.classes := rfl
@[simp] theorem State.modDie_halts (s : State) (n : Nat) (f : Die → Die) : (s.modDie n f).halts = s.halts := rfl
@[simp] theorem State.modDie_mailbox (s : State) (n : Nat) (f : Die → Die) : (s.modDie n f).mailbox = s.mailbox := rfl
@[simp] theorem State.modDie_master (s : State) (n : Nat) (f : Die → Die) : (s.modDie n f).master = s.master := rfl
@[simp] theorem State.modDie_pod (s : State) (n : Nat) (f : Die → Die) : (s.modDie n f).pod = s.pod := rfl
@[simp] theorem State.modDie_paths (s : State) (n : Nat) (f : Die → Die) : (s.modDie n f).paths = s.paths := rfl
@[simp] theorem State.modDie_counts (s : State) (n : Nat) (f : Die → Die) : (s.modDie n f).counts = s.counts := rfl
@[simp] theorem State.modDie_perfs (s : State) (n : Nat) (f : Die → Die) : (s.modDie n f).perfs = s.perfs := rfl
@[simp] theorem State.modDie_sent (s : State) (n : Nat) (f : Die → Die) : (s.modDie n f).sent = s.sent := rfl
@[simp] theorem State.modDie_answers (s : State) (n : Nat) (f : Die → Die) : (s.modDie n f).answers = s.answers := rfl
@[simp] theorem State.modDie_reply (s : State) (n : Nat) (f : Die → Die) : (s.modDie n f).reply = s.reply := rfl
@[simp] theorem State.modDie_heldPkts (s : State) (n : Nat) (f : Die → Die) : (s.modDie n f).heldPkts = s.heldPkts := rfl
@[simp] theorem State.modDie_farResv (s : State) (n : Nat) (f : Die → Die) : (s.modDie n f).farResv = s.farResv := rfl
@[simp] theorem State.modDie_linkDown (s : State) (n : Nat) (f : Die → Die) : (s.modDie n f).linkDown = s.linkDown := rfl
@[simp] theorem State.modDie_badLanes (s : State) (n : Nat) (f : Die → Die) : (s.modDie n f).badLanes = s.badLanes := rfl
@[simp] theorem State.modDie_retrains (s : State) (n : Nat) (f : Die → Die) : (s.modDie n f).retrains = s.retrains := rfl
@[simp] theorem State.modDie_powerCap (s : State) (n : Nat) (f : Die → Die) : (s.modDie n f).powerCap = s.powerCap := rfl
@[simp] theorem State.modDie_snap (s : State) (n : Nat) (f : Die → Die) : (s.modDie n f).snap = s.snap := rfl
@[simp] theorem State.modDie_samples (s : State) (n : Nat) (f : Die → Die) : (s.modDie n f).samples = s.samples := rfl

/-! modShare -/
@[simp] theorem State.modShare_cur (s : State) (n : Nat) (f : ClusterShare → ClusterShare) : (s.modShare n f).cur = s.cur := rfl
@[simp] theorem State.modShare_agenda (s : State) (n : Nat) (f : ClusterShare → ClusterShare) : (s.modShare n f).agenda = s.agenda := rfl
@[simp] theorem State.modShare_free (s : State) (n : Nat) (f : ClusterShare → ClusterShare) : (s.modShare n f).free = s.free := rfl
@[simp] theorem State.modShare_serial (s : State) (n : Nat) (f : ClusterShare → ClusterShare) : (s.modShare n f).serial = s.serial := rfl
@[simp] theorem State.modShare_bus (s : State) (n : Nat) (f : ClusterShare → ClusterShare) : (s.modShare n f).bus = s.bus := rfl
@[simp] theorem State.modShare_mem (s : State) (n : Nat) (f : ClusterShare → ClusterShare) : (s.modShare n f).mem = s.mem := rfl
@[simp] theorem State.modShare_tags (s : State) (n : Nat) (f : ClusterShare → ClusterShare) : (s.modShare n f).tags = s.tags := rfl
@[simp] theorem State.modShare_poison (s : State) (n : Nat) (f : ClusterShare → ClusterShare) : (s.modShare n f).poison = s.poison := rfl
@[simp] theorem State.modShare_dies (s : State) (n : Nat) (f : ClusterShare → ClusterShare) : (s.modShare n f).dies = s.dies.modify (n / 7) (fun d => { d with clusters := d.clusters.modify (n % 7) f }) := rfl
@[simp] theorem State.modShare_cores (s : State) (n : Nat) (f : ClusterShare → ClusterShare) : (s.modShare n f).cores = s.cores := rfl
@[simp] theorem State.modShare_parts (s : State) (n : Nat) (f : ClusterShare → ClusterShare) : (s.modShare n f).parts = s.parts := rfl
@[simp] theorem State.modShare_wgs (s : State) (n : Nat) (f : ClusterShare → ClusterShare) : (s.modShare n f).wgs = s.wgs := rfl
@[simp] theorem State.modShare_groups (s : State) (n : Nat) (f : ClusterShare → ClusterShare) : (s.modShare n f).groups = s.groups := rfl
@[simp] theorem State.modShare_records (s : State) (n : Nat) (f : ClusterShare → ClusterShare) : (s.modShare n f).records = s.records := rfl
@[simp] theorem State.modShare_recordBase (s : State) (n : Nat) (f : ClusterShare → ClusterShare) : (s.modShare n f).recordBase = s.recordBase := rfl
@[simp] theorem State.modShare_classes (s : State) (n : Nat) (f : ClusterShare → ClusterShare) : (s.modShare n f).classes = s.classes := rfl
@[simp] theorem State.modShare_halts (s : State) (n : Nat) (f : ClusterShare → ClusterShare) : (s.modShare n f).halts = s.halts := rfl
@[simp] theorem State.modShare_mailbox (s : State) (n : Nat) (f : ClusterShare → ClusterShare) : (s.modShare n f).mailbox = s.mailbox := rfl
@[simp] theorem State.modShare_master (s : State) (n : Nat) (f : ClusterShare → ClusterShare) : (s.modShare n f).master = s.master := rfl
@[simp] theorem State.modShare_pod (s : State) (n : Nat) (f : ClusterShare → ClusterShare) : (s.modShare n f).pod = s.pod := rfl
@[simp] theorem State.modShare_paths (s : State) (n : Nat) (f : ClusterShare → ClusterShare) : (s.modShare n f).paths = s.paths := rfl
@[simp] theorem State.modShare_counts (s : State) (n : Nat) (f : ClusterShare → ClusterShare) : (s.modShare n f).counts = s.counts := rfl
@[simp] theorem State.modShare_perfs (s : State) (n : Nat) (f : ClusterShare → ClusterShare) : (s.modShare n f).perfs = s.perfs := rfl
@[simp] theorem State.modShare_sent (s : State) (n : Nat) (f : ClusterShare → ClusterShare) : (s.modShare n f).sent = s.sent := rfl
@[simp] theorem State.modShare_answers (s : State) (n : Nat) (f : ClusterShare → ClusterShare) : (s.modShare n f).answers = s.answers := rfl
@[simp] theorem State.modShare_reply (s : State) (n : Nat) (f : ClusterShare → ClusterShare) : (s.modShare n f).reply = s.reply := rfl
@[simp] theorem State.modShare_heldPkts (s : State) (n : Nat) (f : ClusterShare → ClusterShare) : (s.modShare n f).heldPkts = s.heldPkts := rfl
@[simp] theorem State.modShare_farResv (s : State) (n : Nat) (f : ClusterShare → ClusterShare) : (s.modShare n f).farResv = s.farResv := rfl
@[simp] theorem State.modShare_linkDown (s : State) (n : Nat) (f : ClusterShare → ClusterShare) : (s.modShare n f).linkDown = s.linkDown := rfl
@[simp] theorem State.modShare_badLanes (s : State) (n : Nat) (f : ClusterShare → ClusterShare) : (s.modShare n f).badLanes = s.badLanes := rfl
@[simp] theorem State.modShare_retrains (s : State) (n : Nat) (f : ClusterShare → ClusterShare) : (s.modShare n f).retrains = s.retrains := rfl
@[simp] theorem State.modShare_powerCap (s : State) (n : Nat) (f : ClusterShare → ClusterShare) : (s.modShare n f).powerCap = s.powerCap := rfl
@[simp] theorem State.modShare_snap (s : State) (n : Nat) (f : ClusterShare → ClusterShare) : (s.modShare n f).snap = s.snap := rfl
@[simp] theorem State.modShare_samples (s : State) (n : Nat) (f : ClusterShare → ClusterShare) : (s.modShare n f).samples = s.samples := rfl

/-! modCore -/
@[simp] theorem State.modCore_cur (s : State) (n : Nat) (f : Core → Core) : (s.modCore n f).cur = s.cur := rfl
@[simp] theorem State.modCore_agenda (s : State) (n : Nat) (f : Core → Core) : (s.modCore n f).agenda = s.agenda := rfl
@[simp] theorem State.modCore_free (s : State) (n : Nat) (f : Core → Core) : (s.modCore n f).free = s.free := rfl
@[simp] theorem State.modCore_serial (s : State) (n : Nat) (f : Core → Core) : (s.modCore n f).serial = s.serial := rfl
@[simp] theorem State.modCore_bus (s : State) (n : Nat) (f : Core → Core) : (s.modCore n f).bus = s.bus := rfl
@[simp] theorem State.modCore_mem (s : State) (n : Nat) (f : Core → Core) : (s.modCore n f).mem = s.mem := rfl
@[simp] theorem State.modCore_tags (s : State) (n : Nat) (f : Core → Core) : (s.modCore n f).tags = s.tags := rfl
@[simp] theorem State.modCore_poison (s : State) (n : Nat) (f : Core → Core) : (s.modCore n f).poison = s.poison := rfl
@[simp] theorem State.modCore_dies (s : State) (n : Nat) (f : Core → Core) : (s.modCore n f).dies = s.dies := rfl
@[simp] theorem State.modCore_cores (s : State) (n : Nat) (f : Core → Core) : (s.modCore n f).cores = assocSet Core.reset n (f (s.core n)) s.cores := rfl
@[simp] theorem State.modCore_parts (s : State) (n : Nat) (f : Core → Core) : (s.modCore n f).parts = s.parts := rfl
@[simp] theorem State.modCore_wgs (s : State) (n : Nat) (f : Core → Core) : (s.modCore n f).wgs = s.wgs := rfl
@[simp] theorem State.modCore_groups (s : State) (n : Nat) (f : Core → Core) : (s.modCore n f).groups = s.groups := rfl
@[simp] theorem State.modCore_records (s : State) (n : Nat) (f : Core → Core) : (s.modCore n f).records = s.records := rfl
@[simp] theorem State.modCore_recordBase (s : State) (n : Nat) (f : Core → Core) : (s.modCore n f).recordBase = s.recordBase := rfl
@[simp] theorem State.modCore_classes (s : State) (n : Nat) (f : Core → Core) : (s.modCore n f).classes = s.classes := rfl
@[simp] theorem State.modCore_halts (s : State) (n : Nat) (f : Core → Core) : (s.modCore n f).halts = s.halts := rfl
@[simp] theorem State.modCore_mailbox (s : State) (n : Nat) (f : Core → Core) : (s.modCore n f).mailbox = s.mailbox := rfl
@[simp] theorem State.modCore_master (s : State) (n : Nat) (f : Core → Core) : (s.modCore n f).master = s.master := rfl
@[simp] theorem State.modCore_pod (s : State) (n : Nat) (f : Core → Core) : (s.modCore n f).pod = s.pod := rfl
@[simp] theorem State.modCore_paths (s : State) (n : Nat) (f : Core → Core) : (s.modCore n f).paths = s.paths := rfl
@[simp] theorem State.modCore_counts (s : State) (n : Nat) (f : Core → Core) : (s.modCore n f).counts = s.counts := rfl
@[simp] theorem State.modCore_perfs (s : State) (n : Nat) (f : Core → Core) : (s.modCore n f).perfs = s.perfs := rfl
@[simp] theorem State.modCore_sent (s : State) (n : Nat) (f : Core → Core) : (s.modCore n f).sent = s.sent := rfl
@[simp] theorem State.modCore_answers (s : State) (n : Nat) (f : Core → Core) : (s.modCore n f).answers = s.answers := rfl
@[simp] theorem State.modCore_reply (s : State) (n : Nat) (f : Core → Core) : (s.modCore n f).reply = s.reply := rfl
@[simp] theorem State.modCore_heldPkts (s : State) (n : Nat) (f : Core → Core) : (s.modCore n f).heldPkts = s.heldPkts := rfl
@[simp] theorem State.modCore_farResv (s : State) (n : Nat) (f : Core → Core) : (s.modCore n f).farResv = s.farResv := rfl
@[simp] theorem State.modCore_linkDown (s : State) (n : Nat) (f : Core → Core) : (s.modCore n f).linkDown = s.linkDown := rfl
@[simp] theorem State.modCore_badLanes (s : State) (n : Nat) (f : Core → Core) : (s.modCore n f).badLanes = s.badLanes := rfl
@[simp] theorem State.modCore_retrains (s : State) (n : Nat) (f : Core → Core) : (s.modCore n f).retrains = s.retrains := rfl
@[simp] theorem State.modCore_powerCap (s : State) (n : Nat) (f : Core → Core) : (s.modCore n f).powerCap = s.powerCap := rfl
@[simp] theorem State.modCore_snap (s : State) (n : Nat) (f : Core → Core) : (s.modCore n f).snap = s.snap := rfl
@[simp] theorem State.modCore_samples (s : State) (n : Nat) (f : Core → Core) : (s.modCore n f).samples = s.samples := rfl

/-! modOp -/
@[simp] theorem State.modOp_cur (s : State) (n k : Nat) (f : EngineOp → EngineOp) : (s.modOp n k f).cur = s.cur := rfl
@[simp] theorem State.modOp_agenda (s : State) (n k : Nat) (f : EngineOp → EngineOp) : (s.modOp n k f).agenda = s.agenda := rfl
@[simp] theorem State.modOp_free (s : State) (n k : Nat) (f : EngineOp → EngineOp) : (s.modOp n k f).free = s.free := rfl
@[simp] theorem State.modOp_serial (s : State) (n k : Nat) (f : EngineOp → EngineOp) : (s.modOp n k f).serial = s.serial := rfl
@[simp] theorem State.modOp_bus (s : State) (n k : Nat) (f : EngineOp → EngineOp) : (s.modOp n k f).bus = s.bus := rfl
@[simp] theorem State.modOp_mem (s : State) (n k : Nat) (f : EngineOp → EngineOp) : (s.modOp n k f).mem = s.mem := rfl
@[simp] theorem State.modOp_tags (s : State) (n k : Nat) (f : EngineOp → EngineOp) : (s.modOp n k f).tags = s.tags := rfl
@[simp] theorem State.modOp_poison (s : State) (n k : Nat) (f : EngineOp → EngineOp) : (s.modOp n k f).poison = s.poison := rfl
@[simp] theorem State.modOp_dies (s : State) (n k : Nat) (f : EngineOp → EngineOp) : (s.modOp n k f).dies = s.dies := rfl
@[simp] theorem State.modOp_parts (s : State) (n k : Nat) (f : EngineOp → EngineOp) : (s.modOp n k f).parts = s.parts := rfl
@[simp] theorem State.modOp_wgs (s : State) (n k : Nat) (f : EngineOp → EngineOp) : (s.modOp n k f).wgs = s.wgs := rfl
@[simp] theorem State.modOp_groups (s : State) (n k : Nat) (f : EngineOp → EngineOp) : (s.modOp n k f).groups = s.groups := rfl
@[simp] theorem State.modOp_records (s : State) (n k : Nat) (f : EngineOp → EngineOp) : (s.modOp n k f).records = s.records := rfl
@[simp] theorem State.modOp_recordBase (s : State) (n k : Nat) (f : EngineOp → EngineOp) : (s.modOp n k f).recordBase = s.recordBase := rfl
@[simp] theorem State.modOp_classes (s : State) (n k : Nat) (f : EngineOp → EngineOp) : (s.modOp n k f).classes = s.classes := rfl
@[simp] theorem State.modOp_halts (s : State) (n k : Nat) (f : EngineOp → EngineOp) : (s.modOp n k f).halts = s.halts := rfl
@[simp] theorem State.modOp_mailbox (s : State) (n k : Nat) (f : EngineOp → EngineOp) : (s.modOp n k f).mailbox = s.mailbox := rfl
@[simp] theorem State.modOp_master (s : State) (n k : Nat) (f : EngineOp → EngineOp) : (s.modOp n k f).master = s.master := rfl
@[simp] theorem State.modOp_pod (s : State) (n k : Nat) (f : EngineOp → EngineOp) : (s.modOp n k f).pod = s.pod := rfl
@[simp] theorem State.modOp_paths (s : State) (n k : Nat) (f : EngineOp → EngineOp) : (s.modOp n k f).paths = s.paths := rfl
@[simp] theorem State.modOp_counts (s : State) (n k : Nat) (f : EngineOp → EngineOp) : (s.modOp n k f).counts = s.counts := rfl
@[simp] theorem State.modOp_perfs (s : State) (n k : Nat) (f : EngineOp → EngineOp) : (s.modOp n k f).perfs = s.perfs := rfl
@[simp] theorem State.modOp_sent (s : State) (n k : Nat) (f : EngineOp → EngineOp) : (s.modOp n k f).sent = s.sent := rfl
@[simp] theorem State.modOp_answers (s : State) (n k : Nat) (f : EngineOp → EngineOp) : (s.modOp n k f).answers = s.answers := rfl
@[simp] theorem State.modOp_reply (s : State) (n k : Nat) (f : EngineOp → EngineOp) : (s.modOp n k f).reply = s.reply := rfl
@[simp] theorem State.modOp_heldPkts (s : State) (n k : Nat) (f : EngineOp → EngineOp) : (s.modOp n k f).heldPkts = s.heldPkts := rfl
@[simp] theorem State.modOp_farResv (s : State) (n k : Nat) (f : EngineOp → EngineOp) : (s.modOp n k f).farResv = s.farResv := rfl
@[simp] theorem State.modOp_linkDown (s : State) (n k : Nat) (f : EngineOp → EngineOp) : (s.modOp n k f).linkDown = s.linkDown := rfl
@[simp] theorem State.modOp_badLanes (s : State) (n k : Nat) (f : EngineOp → EngineOp) : (s.modOp n k f).badLanes = s.badLanes := rfl
@[simp] theorem State.modOp_retrains (s : State) (n k : Nat) (f : EngineOp → EngineOp) : (s.modOp n k f).retrains = s.retrains := rfl
@[simp] theorem State.modOp_powerCap (s : State) (n k : Nat) (f : EngineOp → EngineOp) : (s.modOp n k f).powerCap = s.powerCap := rfl
@[simp] theorem State.modOp_snap (s : State) (n k : Nat) (f : EngineOp → EngineOp) : (s.modOp n k f).snap = s.snap := rfl
@[simp] theorem State.modOp_samples (s : State) (n k : Nat) (f : EngineOp → EngineOp) : (s.modOp n k f).samples = s.samples := rfl

/-! modTile -/
@[simp] theorem State.modTile_cur (s : State) (n k : Nat) (f : Tile → Tile) : (s.modTile n k f).cur = s.cur := rfl
@[simp] theorem State.modTile_agenda (s : State) (n k : Nat) (f : Tile → Tile) : (s.modTile n k f).agenda = s.agenda := rfl
@[simp] theorem State.modTile_free (s : State) (n k : Nat) (f : Tile → Tile) : (s.modTile n k f).free = s.free := rfl
@[simp] theorem State.modTile_serial (s : State) (n k : Nat) (f : Tile → Tile) : (s.modTile n k f).serial = s.serial := rfl
@[simp] theorem State.modTile_bus (s : State) (n k : Nat) (f : Tile → Tile) : (s.modTile n k f).bus = s.bus := rfl
@[simp] theorem State.modTile_mem (s : State) (n k : Nat) (f : Tile → Tile) : (s.modTile n k f).mem = s.mem := rfl
@[simp] theorem State.modTile_tags (s : State) (n k : Nat) (f : Tile → Tile) : (s.modTile n k f).tags = s.tags := rfl
@[simp] theorem State.modTile_poison (s : State) (n k : Nat) (f : Tile → Tile) : (s.modTile n k f).poison = s.poison := rfl
@[simp] theorem State.modTile_dies (s : State) (n k : Nat) (f : Tile → Tile) : (s.modTile n k f).dies = s.dies := rfl
@[simp] theorem State.modTile_parts (s : State) (n k : Nat) (f : Tile → Tile) : (s.modTile n k f).parts = s.parts := rfl
@[simp] theorem State.modTile_wgs (s : State) (n k : Nat) (f : Tile → Tile) : (s.modTile n k f).wgs = s.wgs := rfl
@[simp] theorem State.modTile_groups (s : State) (n k : Nat) (f : Tile → Tile) : (s.modTile n k f).groups = s.groups := rfl
@[simp] theorem State.modTile_records (s : State) (n k : Nat) (f : Tile → Tile) : (s.modTile n k f).records = s.records := rfl
@[simp] theorem State.modTile_recordBase (s : State) (n k : Nat) (f : Tile → Tile) : (s.modTile n k f).recordBase = s.recordBase := rfl
@[simp] theorem State.modTile_classes (s : State) (n k : Nat) (f : Tile → Tile) : (s.modTile n k f).classes = s.classes := rfl
@[simp] theorem State.modTile_halts (s : State) (n k : Nat) (f : Tile → Tile) : (s.modTile n k f).halts = s.halts := rfl
@[simp] theorem State.modTile_mailbox (s : State) (n k : Nat) (f : Tile → Tile) : (s.modTile n k f).mailbox = s.mailbox := rfl
@[simp] theorem State.modTile_master (s : State) (n k : Nat) (f : Tile → Tile) : (s.modTile n k f).master = s.master := rfl
@[simp] theorem State.modTile_pod (s : State) (n k : Nat) (f : Tile → Tile) : (s.modTile n k f).pod = s.pod := rfl
@[simp] theorem State.modTile_paths (s : State) (n k : Nat) (f : Tile → Tile) : (s.modTile n k f).paths = s.paths := rfl
@[simp] theorem State.modTile_counts (s : State) (n k : Nat) (f : Tile → Tile) : (s.modTile n k f).counts = s.counts := rfl
@[simp] theorem State.modTile_perfs (s : State) (n k : Nat) (f : Tile → Tile) : (s.modTile n k f).perfs = s.perfs := rfl
@[simp] theorem State.modTile_sent (s : State) (n k : Nat) (f : Tile → Tile) : (s.modTile n k f).sent = s.sent := rfl
@[simp] theorem State.modTile_answers (s : State) (n k : Nat) (f : Tile → Tile) : (s.modTile n k f).answers = s.answers := rfl
@[simp] theorem State.modTile_reply (s : State) (n k : Nat) (f : Tile → Tile) : (s.modTile n k f).reply = s.reply := rfl
@[simp] theorem State.modTile_heldPkts (s : State) (n k : Nat) (f : Tile → Tile) : (s.modTile n k f).heldPkts = s.heldPkts := rfl
@[simp] theorem State.modTile_farResv (s : State) (n k : Nat) (f : Tile → Tile) : (s.modTile n k f).farResv = s.farResv := rfl
@[simp] theorem State.modTile_linkDown (s : State) (n k : Nat) (f : Tile → Tile) : (s.modTile n k f).linkDown = s.linkDown := rfl
@[simp] theorem State.modTile_badLanes (s : State) (n k : Nat) (f : Tile → Tile) : (s.modTile n k f).badLanes = s.badLanes := rfl
@[simp] theorem State.modTile_retrains (s : State) (n k : Nat) (f : Tile → Tile) : (s.modTile n k f).retrains = s.retrains := rfl
@[simp] theorem State.modTile_powerCap (s : State) (n k : Nat) (f : Tile → Tile) : (s.modTile n k f).powerCap = s.powerCap := rfl
@[simp] theorem State.modTile_snap (s : State) (n k : Nat) (f : Tile → Tile) : (s.modTile n k f).snap = s.snap := rfl
@[simp] theorem State.modTile_samples (s : State) (n k : Nat) (f : Tile → Tile) : (s.modTile n k f).samples = s.samples := rfl

/-! dropOp -/
@[simp] theorem State.dropOp_cur (s : State) (n k : Nat) : (s.dropOp n k).cur = s.cur := rfl
@[simp] theorem State.dropOp_agenda (s : State) (n k : Nat) : (s.dropOp n k).agenda = s.agenda := rfl
@[simp] theorem State.dropOp_free (s : State) (n k : Nat) : (s.dropOp n k).free = s.free := rfl
@[simp] theorem State.dropOp_serial (s : State) (n k : Nat) : (s.dropOp n k).serial = s.serial := rfl
@[simp] theorem State.dropOp_bus (s : State) (n k : Nat) : (s.dropOp n k).bus = s.bus := rfl
@[simp] theorem State.dropOp_mem (s : State) (n k : Nat) : (s.dropOp n k).mem = s.mem := rfl
@[simp] theorem State.dropOp_tags (s : State) (n k : Nat) : (s.dropOp n k).tags = s.tags := rfl
@[simp] theorem State.dropOp_poison (s : State) (n k : Nat) : (s.dropOp n k).poison = s.poison := rfl
@[simp] theorem State.dropOp_dies (s : State) (n k : Nat) : (s.dropOp n k).dies = s.dies := rfl
@[simp] theorem State.dropOp_parts (s : State) (n k : Nat) : (s.dropOp n k).parts = s.parts := rfl
@[simp] theorem State.dropOp_wgs (s : State) (n k : Nat) : (s.dropOp n k).wgs = s.wgs := rfl
@[simp] theorem State.dropOp_groups (s : State) (n k : Nat) : (s.dropOp n k).groups = s.groups := rfl
@[simp] theorem State.dropOp_records (s : State) (n k : Nat) : (s.dropOp n k).records = s.records := rfl
@[simp] theorem State.dropOp_recordBase (s : State) (n k : Nat) : (s.dropOp n k).recordBase = s.recordBase := rfl
@[simp] theorem State.dropOp_classes (s : State) (n k : Nat) : (s.dropOp n k).classes = s.classes := rfl
@[simp] theorem State.dropOp_halts (s : State) (n k : Nat) : (s.dropOp n k).halts = s.halts := rfl
@[simp] theorem State.dropOp_mailbox (s : State) (n k : Nat) : (s.dropOp n k).mailbox = s.mailbox := rfl
@[simp] theorem State.dropOp_master (s : State) (n k : Nat) : (s.dropOp n k).master = s.master := rfl
@[simp] theorem State.dropOp_pod (s : State) (n k : Nat) : (s.dropOp n k).pod = s.pod := rfl
@[simp] theorem State.dropOp_paths (s : State) (n k : Nat) : (s.dropOp n k).paths = s.paths := rfl
@[simp] theorem State.dropOp_counts (s : State) (n k : Nat) : (s.dropOp n k).counts = s.counts := rfl
@[simp] theorem State.dropOp_perfs (s : State) (n k : Nat) : (s.dropOp n k).perfs = s.perfs := rfl
@[simp] theorem State.dropOp_sent (s : State) (n k : Nat) : (s.dropOp n k).sent = s.sent := rfl
@[simp] theorem State.dropOp_answers (s : State) (n k : Nat) : (s.dropOp n k).answers = s.answers := rfl
@[simp] theorem State.dropOp_reply (s : State) (n k : Nat) : (s.dropOp n k).reply = s.reply := rfl
@[simp] theorem State.dropOp_heldPkts (s : State) (n k : Nat) : (s.dropOp n k).heldPkts = s.heldPkts := rfl
@[simp] theorem State.dropOp_farResv (s : State) (n k : Nat) : (s.dropOp n k).farResv = s.farResv := rfl
@[simp] theorem State.dropOp_linkDown (s : State) (n k : Nat) : (s.dropOp n k).linkDown = s.linkDown := rfl
@[simp] theorem State.dropOp_badLanes (s : State) (n k : Nat) : (s.dropOp n k).badLanes = s.badLanes := rfl
@[simp] theorem State.dropOp_retrains (s : State) (n k : Nat) : (s.dropOp n k).retrains = s.retrains := rfl
@[simp] theorem State.dropOp_powerCap (s : State) (n k : Nat) : (s.dropOp n k).powerCap = s.powerCap := rfl
@[simp] theorem State.dropOp_snap (s : State) (n k : Nat) : (s.dropOp n k).snap = s.snap := rfl
@[simp] theorem State.dropOp_samples (s : State) (n k : Nat) : (s.dropOp n k).samples = s.samples := rfl

/-! bump -/
@[simp] theorem State.bump_cur (s : State) : (s.bump).cur = s.cur := rfl
@[simp] theorem State.bump_agenda (s : State) : (s.bump).agenda = s.agenda := rfl
@[simp] theorem State.bump_free (s : State) : (s.bump).free = s.free := rfl
@[simp] theorem State.bump_serial (s : State) : (s.bump).serial = s.serial + 1 := rfl
@[simp] theorem State.bump_bus (s : State) : (s.bump).bus = s.bus := rfl
@[simp] theorem State.bump_mem (s : State) : (s.bump).mem = s.mem := rfl
@[simp] theorem State.bump_tags (s : State) : (s.bump).tags = s.tags := rfl
@[simp] theorem State.bump_poison (s : State) : (s.bump).poison = s.poison := rfl
@[simp] theorem State.bump_dies (s : State) : (s.bump).dies = s.dies := rfl
@[simp] theorem State.bump_cores (s : State) : (s.bump).cores = s.cores := rfl
@[simp] theorem State.bump_parts (s : State) : (s.bump).parts = s.parts := rfl
@[simp] theorem State.bump_wgs (s : State) : (s.bump).wgs = s.wgs := rfl
@[simp] theorem State.bump_groups (s : State) : (s.bump).groups = s.groups := rfl
@[simp] theorem State.bump_records (s : State) : (s.bump).records = s.records := rfl
@[simp] theorem State.bump_recordBase (s : State) : (s.bump).recordBase = s.recordBase := rfl
@[simp] theorem State.bump_classes (s : State) : (s.bump).classes = s.classes := rfl
@[simp] theorem State.bump_halts (s : State) : (s.bump).halts = s.halts := rfl
@[simp] theorem State.bump_mailbox (s : State) : (s.bump).mailbox = s.mailbox := rfl
@[simp] theorem State.bump_master (s : State) : (s.bump).master = s.master := rfl
@[simp] theorem State.bump_pod (s : State) : (s.bump).pod = s.pod := rfl
@[simp] theorem State.bump_paths (s : State) : (s.bump).paths = s.paths := rfl
@[simp] theorem State.bump_counts (s : State) : (s.bump).counts = s.counts := rfl
@[simp] theorem State.bump_perfs (s : State) : (s.bump).perfs = s.perfs := rfl
@[simp] theorem State.bump_sent (s : State) : (s.bump).sent = s.sent := rfl
@[simp] theorem State.bump_answers (s : State) : (s.bump).answers = s.answers := rfl
@[simp] theorem State.bump_reply (s : State) : (s.bump).reply = s.reply := rfl
@[simp] theorem State.bump_heldPkts (s : State) : (s.bump).heldPkts = s.heldPkts := rfl
@[simp] theorem State.bump_farResv (s : State) : (s.bump).farResv = s.farResv := rfl
@[simp] theorem State.bump_linkDown (s : State) : (s.bump).linkDown = s.linkDown := rfl
@[simp] theorem State.bump_badLanes (s : State) : (s.bump).badLanes = s.badLanes := rfl
@[simp] theorem State.bump_retrains (s : State) : (s.bump).retrains = s.retrains := rfl
@[simp] theorem State.bump_powerCap (s : State) : (s.bump).powerCap = s.powerCap := rfl
@[simp] theorem State.bump_snap (s : State) : (s.bump).snap = s.snap := rfl
@[simp] theorem State.bump_samples (s : State) : (s.bump).samples = s.samples := rfl

/-! tick -/
@[simp] theorem State.tick_cur (s : State) : (s.tick).cur = s.cur := rfl
@[simp] theorem State.tick_agenda (s : State) : (s.tick).agenda = s.agenda := rfl
@[simp] theorem State.tick_free (s : State) : (s.tick).free = s.free + 1 := rfl
@[simp] theorem State.tick_serial (s : State) : (s.tick).serial = s.serial := rfl
@[simp] theorem State.tick_bus (s : State) : (s.tick).bus = s.bus := rfl
@[simp] theorem State.tick_mem (s : State) : (s.tick).mem = s.mem := rfl
@[simp] theorem State.tick_tags (s : State) : (s.tick).tags = s.tags := rfl
@[simp] theorem State.tick_poison (s : State) : (s.tick).poison = s.poison := rfl
@[simp] theorem State.tick_cores (s : State) : (s.tick).cores = s.cores := rfl
@[simp] theorem State.tick_parts (s : State) : (s.tick).parts = s.parts := rfl
@[simp] theorem State.tick_wgs (s : State) : (s.tick).wgs = s.wgs := rfl
@[simp] theorem State.tick_groups (s : State) : (s.tick).groups = s.groups := rfl
@[simp] theorem State.tick_records (s : State) : (s.tick).records = s.records := rfl
@[simp] theorem State.tick_recordBase (s : State) : (s.tick).recordBase = s.recordBase := rfl
@[simp] theorem State.tick_classes (s : State) : (s.tick).classes = s.classes := rfl
@[simp] theorem State.tick_halts (s : State) : (s.tick).halts = s.halts := rfl
@[simp] theorem State.tick_mailbox (s : State) : (s.tick).mailbox = s.mailbox := rfl
@[simp] theorem State.tick_master (s : State) : (s.tick).master = s.master := rfl
@[simp] theorem State.tick_pod (s : State) : (s.tick).pod = s.pod := rfl
@[simp] theorem State.tick_paths (s : State) : (s.tick).paths = s.paths := rfl
@[simp] theorem State.tick_counts (s : State) : (s.tick).counts = s.counts := rfl
@[simp] theorem State.tick_perfs (s : State) : (s.tick).perfs = s.perfs := rfl
@[simp] theorem State.tick_sent (s : State) : (s.tick).sent = s.sent := rfl
@[simp] theorem State.tick_answers (s : State) : (s.tick).answers = s.answers := rfl
@[simp] theorem State.tick_reply (s : State) : (s.tick).reply = s.reply := rfl
@[simp] theorem State.tick_heldPkts (s : State) : (s.tick).heldPkts = s.heldPkts := rfl
@[simp] theorem State.tick_farResv (s : State) : (s.tick).farResv = s.farResv := rfl
@[simp] theorem State.tick_linkDown (s : State) : (s.tick).linkDown = s.linkDown := rfl
@[simp] theorem State.tick_badLanes (s : State) : (s.tick).badLanes = s.badLanes := rfl
@[simp] theorem State.tick_retrains (s : State) : (s.tick).retrains = s.retrains := rfl
@[simp] theorem State.tick_powerCap (s : State) : (s.tick).powerCap = s.powerCap := rfl
@[simp] theorem State.tick_snap (s : State) : (s.tick).snap = s.snap := rfl
@[simp] theorem State.tick_samples (s : State) : (s.tick).samples = s.samples := rfl

/-! putBytes -/
@[simp] theorem State.putBytes_cur (s : State) (ws : List (Nat × Byte)) : (s.putBytes ws).cur = s.cur := rfl
@[simp] theorem State.putBytes_agenda (s : State) (ws : List (Nat × Byte)) : (s.putBytes ws).agenda = s.agenda := rfl
@[simp] theorem State.putBytes_free (s : State) (ws : List (Nat × Byte)) : (s.putBytes ws).free = s.free := rfl
@[simp] theorem State.putBytes_serial (s : State) (ws : List (Nat × Byte)) : (s.putBytes ws).serial = s.serial := rfl
@[simp] theorem State.putBytes_bus (s : State) (ws : List (Nat × Byte)) : (s.putBytes ws).bus = s.bus := rfl
@[simp] theorem State.putBytes_mem (s : State) (ws : List (Nat × Byte)) : (s.putBytes ws).mem = assocSets resetByte ws s.mem := rfl
@[simp] theorem State.putBytes_dies (s : State) (ws : List (Nat × Byte)) : (s.putBytes ws).dies = s.dies := rfl
@[simp] theorem State.putBytes_cores (s : State) (ws : List (Nat × Byte)) : (s.putBytes ws).cores = s.cores := rfl
@[simp] theorem State.putBytes_parts (s : State) (ws : List (Nat × Byte)) : (s.putBytes ws).parts = s.parts := rfl
@[simp] theorem State.putBytes_wgs (s : State) (ws : List (Nat × Byte)) : (s.putBytes ws).wgs = s.wgs := rfl
@[simp] theorem State.putBytes_groups (s : State) (ws : List (Nat × Byte)) : (s.putBytes ws).groups = s.groups := rfl
@[simp] theorem State.putBytes_records (s : State) (ws : List (Nat × Byte)) : (s.putBytes ws).records = s.records := rfl
@[simp] theorem State.putBytes_recordBase (s : State) (ws : List (Nat × Byte)) : (s.putBytes ws).recordBase = s.recordBase := rfl
@[simp] theorem State.putBytes_classes (s : State) (ws : List (Nat × Byte)) : (s.putBytes ws).classes = s.classes := rfl
@[simp] theorem State.putBytes_halts (s : State) (ws : List (Nat × Byte)) : (s.putBytes ws).halts = s.halts := rfl
@[simp] theorem State.putBytes_mailbox (s : State) (ws : List (Nat × Byte)) : (s.putBytes ws).mailbox = s.mailbox := rfl
@[simp] theorem State.putBytes_master (s : State) (ws : List (Nat × Byte)) : (s.putBytes ws).master = s.master := rfl
@[simp] theorem State.putBytes_pod (s : State) (ws : List (Nat × Byte)) : (s.putBytes ws).pod = s.pod := rfl
@[simp] theorem State.putBytes_paths (s : State) (ws : List (Nat × Byte)) : (s.putBytes ws).paths = s.paths := rfl
@[simp] theorem State.putBytes_counts (s : State) (ws : List (Nat × Byte)) : (s.putBytes ws).counts = s.counts := rfl
@[simp] theorem State.putBytes_perfs (s : State) (ws : List (Nat × Byte)) : (s.putBytes ws).perfs = s.perfs := rfl
@[simp] theorem State.putBytes_sent (s : State) (ws : List (Nat × Byte)) : (s.putBytes ws).sent = s.sent := rfl
@[simp] theorem State.putBytes_answers (s : State) (ws : List (Nat × Byte)) : (s.putBytes ws).answers = s.answers := rfl
@[simp] theorem State.putBytes_reply (s : State) (ws : List (Nat × Byte)) : (s.putBytes ws).reply = s.reply := rfl
@[simp] theorem State.putBytes_heldPkts (s : State) (ws : List (Nat × Byte)) : (s.putBytes ws).heldPkts = s.heldPkts := rfl
@[simp] theorem State.putBytes_farResv (s : State) (ws : List (Nat × Byte)) : (s.putBytes ws).farResv = s.farResv := rfl
@[simp] theorem State.putBytes_linkDown (s : State) (ws : List (Nat × Byte)) : (s.putBytes ws).linkDown = s.linkDown := rfl
@[simp] theorem State.putBytes_badLanes (s : State) (ws : List (Nat × Byte)) : (s.putBytes ws).badLanes = s.badLanes := rfl
@[simp] theorem State.putBytes_retrains (s : State) (ws : List (Nat × Byte)) : (s.putBytes ws).retrains = s.retrains := rfl
@[simp] theorem State.putBytes_powerCap (s : State) (ws : List (Nat × Byte)) : (s.putBytes ws).powerCap = s.powerCap := rfl
@[simp] theorem State.putBytes_snap (s : State) (ws : List (Nat × Byte)) : (s.putBytes ws).snap = s.snap := rfl
@[simp] theorem State.putBytes_samples (s : State) (ws : List (Nat × Byte)) : (s.putBytes ws).samples = s.samples := rfl

/-! wipe -/
@[simp] theorem State.wipe_cur (s : State) (lo n : Nat) : (s.wipe lo n).cur = s.cur := rfl
@[simp] theorem State.wipe_agenda (s : State) (lo n : Nat) : (s.wipe lo n).agenda = s.agenda := rfl
@[simp] theorem State.wipe_free (s : State) (lo n : Nat) : (s.wipe lo n).free = s.free := rfl
@[simp] theorem State.wipe_serial (s : State) (lo n : Nat) : (s.wipe lo n).serial = s.serial := rfl
@[simp] theorem State.wipe_bus (s : State) (lo n : Nat) : (s.wipe lo n).bus = s.bus := rfl
@[simp] theorem State.wipe_dies (s : State) (lo n : Nat) : (s.wipe lo n).dies = s.dies := rfl
@[simp] theorem State.wipe_cores (s : State) (lo n : Nat) : (s.wipe lo n).cores = s.cores := rfl
@[simp] theorem State.wipe_parts (s : State) (lo n : Nat) : (s.wipe lo n).parts = s.parts := rfl
@[simp] theorem State.wipe_wgs (s : State) (lo n : Nat) : (s.wipe lo n).wgs = s.wgs := rfl
@[simp] theorem State.wipe_groups (s : State) (lo n : Nat) : (s.wipe lo n).groups = s.groups := rfl
@[simp] theorem State.wipe_records (s : State) (lo n : Nat) : (s.wipe lo n).records = s.records := rfl
@[simp] theorem State.wipe_recordBase (s : State) (lo n : Nat) : (s.wipe lo n).recordBase = s.recordBase := rfl
@[simp] theorem State.wipe_classes (s : State) (lo n : Nat) : (s.wipe lo n).classes = s.classes := rfl
@[simp] theorem State.wipe_halts (s : State) (lo n : Nat) : (s.wipe lo n).halts = s.halts := rfl
@[simp] theorem State.wipe_mailbox (s : State) (lo n : Nat) : (s.wipe lo n).mailbox = s.mailbox := rfl
@[simp] theorem State.wipe_master (s : State) (lo n : Nat) : (s.wipe lo n).master = s.master := rfl
@[simp] theorem State.wipe_pod (s : State) (lo n : Nat) : (s.wipe lo n).pod = s.pod := rfl
@[simp] theorem State.wipe_paths (s : State) (lo n : Nat) : (s.wipe lo n).paths = s.paths := rfl
@[simp] theorem State.wipe_counts (s : State) (lo n : Nat) : (s.wipe lo n).counts = s.counts := rfl
@[simp] theorem State.wipe_perfs (s : State) (lo n : Nat) : (s.wipe lo n).perfs = s.perfs := rfl
@[simp] theorem State.wipe_sent (s : State) (lo n : Nat) : (s.wipe lo n).sent = s.sent := rfl
@[simp] theorem State.wipe_answers (s : State) (lo n : Nat) : (s.wipe lo n).answers = s.answers := rfl
@[simp] theorem State.wipe_reply (s : State) (lo n : Nat) : (s.wipe lo n).reply = s.reply := rfl
@[simp] theorem State.wipe_heldPkts (s : State) (lo n : Nat) : (s.wipe lo n).heldPkts = s.heldPkts := rfl
@[simp] theorem State.wipe_farResv (s : State) (lo n : Nat) : (s.wipe lo n).farResv = s.farResv := rfl
@[simp] theorem State.wipe_linkDown (s : State) (lo n : Nat) : (s.wipe lo n).linkDown = s.linkDown := rfl
@[simp] theorem State.wipe_badLanes (s : State) (lo n : Nat) : (s.wipe lo n).badLanes = s.badLanes := rfl
@[simp] theorem State.wipe_retrains (s : State) (lo n : Nat) : (s.wipe lo n).retrains = s.retrains := rfl
@[simp] theorem State.wipe_powerCap (s : State) (lo n : Nat) : (s.wipe lo n).powerCap = s.powerCap := rfl
@[simp] theorem State.wipe_snap (s : State) (lo n : Nat) : (s.wipe lo n).snap = s.snap := rfl
@[simp] theorem State.wipe_samples (s : State) (lo n : Nat) : (s.wipe lo n).samples = s.samples := rfl

/-! finishCmd -/
@[simp] theorem State.finishCmd_cur (s : State) (a b : Nat) (r : List Nat) : (s.finishCmd a b r).cur = s.cur := by unfold State.finishCmd; rfl
@[simp] theorem State.finishCmd_agenda (s : State) (a b : Nat) (r : List Nat) : (s.finishCmd a b r).agenda = s.agenda := by unfold State.finishCmd; rfl
@[simp] theorem State.finishCmd_free (s : State) (a b : Nat) (r : List Nat) : (s.finishCmd a b r).free = s.free := by unfold State.finishCmd; rfl
@[simp] theorem State.finishCmd_serial (s : State) (a b : Nat) (r : List Nat) : (s.finishCmd a b r).serial = s.serial := by unfold State.finishCmd; rfl
@[simp] theorem State.finishCmd_bus (s : State) (a b : Nat) (r : List Nat) : (s.finishCmd a b r).bus = s.bus := by unfold State.finishCmd; rfl
@[simp] theorem State.finishCmd_mem (s : State) (a b : Nat) (r : List Nat) : (s.finishCmd a b r).mem = s.mem := by unfold State.finishCmd; rfl
@[simp] theorem State.finishCmd_tags (s : State) (a b : Nat) (r : List Nat) : (s.finishCmd a b r).tags = s.tags := by unfold State.finishCmd; rfl
@[simp] theorem State.finishCmd_poison (s : State) (a b : Nat) (r : List Nat) : (s.finishCmd a b r).poison = s.poison := by unfold State.finishCmd; rfl
@[simp] theorem State.finishCmd_dies (s : State) (a b : Nat) (r : List Nat) : (s.finishCmd a b r).dies = s.dies := by unfold State.finishCmd; rfl
@[simp] theorem State.finishCmd_cores (s : State) (a b : Nat) (r : List Nat) : (s.finishCmd a b r).cores = s.cores := by unfold State.finishCmd; rfl
@[simp] theorem State.finishCmd_parts (s : State) (a b : Nat) (r : List Nat) : (s.finishCmd a b r).parts = s.parts := by unfold State.finishCmd; rfl
@[simp] theorem State.finishCmd_wgs (s : State) (a b : Nat) (r : List Nat) : (s.finishCmd a b r).wgs = s.wgs := by unfold State.finishCmd; rfl
@[simp] theorem State.finishCmd_groups (s : State) (a b : Nat) (r : List Nat) : (s.finishCmd a b r).groups = s.groups := by unfold State.finishCmd; rfl
@[simp] theorem State.finishCmd_records (s : State) (a b : Nat) (r : List Nat) : (s.finishCmd a b r).records = s.records := by unfold State.finishCmd; rfl
@[simp] theorem State.finishCmd_recordBase (s : State) (a b : Nat) (r : List Nat) : (s.finishCmd a b r).recordBase = s.recordBase := by unfold State.finishCmd; rfl
@[simp] theorem State.finishCmd_classes (s : State) (a b : Nat) (r : List Nat) : (s.finishCmd a b r).classes = s.classes := by unfold State.finishCmd; rfl
@[simp] theorem State.finishCmd_halts (s : State) (a b : Nat) (r : List Nat) : (s.finishCmd a b r).halts = s.halts := by unfold State.finishCmd; rfl
@[simp] theorem State.finishCmd_mailbox (s : State) (a b : Nat) (r : List Nat) : (s.finishCmd a b r).mailbox = s.mailbox.finish a b r := by unfold State.finishCmd; rfl
@[simp] theorem State.finishCmd_master (s : State) (a b : Nat) (r : List Nat) : (s.finishCmd a b r).master = s.master := by unfold State.finishCmd; rfl
@[simp] theorem State.finishCmd_pod (s : State) (a b : Nat) (r : List Nat) : (s.finishCmd a b r).pod = s.pod := by unfold State.finishCmd; rfl
@[simp] theorem State.finishCmd_paths (s : State) (a b : Nat) (r : List Nat) : (s.finishCmd a b r).paths = s.paths := by unfold State.finishCmd; rfl
@[simp] theorem State.finishCmd_counts (s : State) (a b : Nat) (r : List Nat) : (s.finishCmd a b r).counts = s.counts := by unfold State.finishCmd; rfl
@[simp] theorem State.finishCmd_perfs (s : State) (a b : Nat) (r : List Nat) : (s.finishCmd a b r).perfs = s.perfs := by unfold State.finishCmd; rfl
@[simp] theorem State.finishCmd_sent (s : State) (a b : Nat) (r : List Nat) : (s.finishCmd a b r).sent = s.sent := by unfold State.finishCmd; rfl
@[simp] theorem State.finishCmd_answers (s : State) (a b : Nat) (r : List Nat) : (s.finishCmd a b r).answers = s.answers := by unfold State.finishCmd; rfl
@[simp] theorem State.finishCmd_reply (s : State) (a b : Nat) (r : List Nat) : (s.finishCmd a b r).reply = s.reply := by unfold State.finishCmd; rfl
@[simp] theorem State.finishCmd_heldPkts (s : State) (a b : Nat) (r : List Nat) : (s.finishCmd a b r).heldPkts = s.heldPkts := by unfold State.finishCmd; rfl
@[simp] theorem State.finishCmd_farResv (s : State) (a b : Nat) (r : List Nat) : (s.finishCmd a b r).farResv = s.farResv := by unfold State.finishCmd; rfl
@[simp] theorem State.finishCmd_linkDown (s : State) (a b : Nat) (r : List Nat) : (s.finishCmd a b r).linkDown = s.linkDown := by unfold State.finishCmd; rfl
@[simp] theorem State.finishCmd_badLanes (s : State) (a b : Nat) (r : List Nat) : (s.finishCmd a b r).badLanes = s.badLanes := by unfold State.finishCmd; rfl
@[simp] theorem State.finishCmd_retrains (s : State) (a b : Nat) (r : List Nat) : (s.finishCmd a b r).retrains = s.retrains := by unfold State.finishCmd; rfl
@[simp] theorem State.finishCmd_powerCap (s : State) (a b : Nat) (r : List Nat) : (s.finishCmd a b r).powerCap = s.powerCap := by unfold State.finishCmd; rfl
@[simp] theorem State.finishCmd_snap (s : State) (a b : Nat) (r : List Nat) : (s.finishCmd a b r).snap = s.snap := by unfold State.finishCmd; rfl
@[simp] theorem State.finishCmd_samples (s : State) (a b : Nat) (r : List Nat) : (s.finishCmd a b r).samples = s.samples := by unfold State.finishCmd; rfl

/-! doneCmd -/
@[simp] theorem State.doneCmd_cur (s : State) (r : List Nat) : (s.doneCmd r).cur = s.cur := by unfold State.doneCmd State.finishCmd; rfl
@[simp] theorem State.doneCmd_agenda (s : State) (r : List Nat) : (s.doneCmd r).agenda = s.agenda := by unfold State.doneCmd State.finishCmd; rfl
@[simp] theorem State.doneCmd_free (s : State) (r : List Nat) : (s.doneCmd r).free = s.free := by unfold State.doneCmd State.finishCmd; rfl
@[simp] theorem State.doneCmd_serial (s : State) (r : List Nat) : (s.doneCmd r).serial = s.serial := by unfold State.doneCmd State.finishCmd; rfl
@[simp] theorem State.doneCmd_bus (s : State) (r : List Nat) : (s.doneCmd r).bus = s.bus := by unfold State.doneCmd State.finishCmd; rfl
@[simp] theorem State.doneCmd_mem (s : State) (r : List Nat) : (s.doneCmd r).mem = s.mem := by unfold State.doneCmd State.finishCmd; rfl
@[simp] theorem State.doneCmd_tags (s : State) (r : List Nat) : (s.doneCmd r).tags = s.tags := by unfold State.doneCmd State.finishCmd; rfl
@[simp] theorem State.doneCmd_poison (s : State) (r : List Nat) : (s.doneCmd r).poison = s.poison := by unfold State.doneCmd State.finishCmd; rfl
@[simp] theorem State.doneCmd_dies (s : State) (r : List Nat) : (s.doneCmd r).dies = s.dies := by unfold State.doneCmd State.finishCmd; rfl
@[simp] theorem State.doneCmd_cores (s : State) (r : List Nat) : (s.doneCmd r).cores = s.cores := by unfold State.doneCmd State.finishCmd; rfl
@[simp] theorem State.doneCmd_parts (s : State) (r : List Nat) : (s.doneCmd r).parts = s.parts := by unfold State.doneCmd State.finishCmd; rfl
@[simp] theorem State.doneCmd_wgs (s : State) (r : List Nat) : (s.doneCmd r).wgs = s.wgs := by unfold State.doneCmd State.finishCmd; rfl
@[simp] theorem State.doneCmd_groups (s : State) (r : List Nat) : (s.doneCmd r).groups = s.groups := by unfold State.doneCmd State.finishCmd; rfl
@[simp] theorem State.doneCmd_records (s : State) (r : List Nat) : (s.doneCmd r).records = s.records := by unfold State.doneCmd State.finishCmd; rfl
@[simp] theorem State.doneCmd_recordBase (s : State) (r : List Nat) : (s.doneCmd r).recordBase = s.recordBase := by unfold State.doneCmd State.finishCmd; rfl
@[simp] theorem State.doneCmd_classes (s : State) (r : List Nat) : (s.doneCmd r).classes = s.classes := by unfold State.doneCmd State.finishCmd; rfl
@[simp] theorem State.doneCmd_halts (s : State) (r : List Nat) : (s.doneCmd r).halts = s.halts := by unfold State.doneCmd State.finishCmd; rfl
@[simp] theorem State.doneCmd_mailbox (s : State) (r : List Nat) : (s.doneCmd r).mailbox = s.mailbox.finish 2 0 r := by unfold State.doneCmd State.finishCmd; rfl
@[simp] theorem State.doneCmd_master (s : State) (r : List Nat) : (s.doneCmd r).master = s.master := by unfold State.doneCmd State.finishCmd; rfl
@[simp] theorem State.doneCmd_pod (s : State) (r : List Nat) : (s.doneCmd r).pod = s.pod := by unfold State.doneCmd State.finishCmd; rfl
@[simp] theorem State.doneCmd_paths (s : State) (r : List Nat) : (s.doneCmd r).paths = s.paths := by unfold State.doneCmd State.finishCmd; rfl
@[simp] theorem State.doneCmd_counts (s : State) (r : List Nat) : (s.doneCmd r).counts = s.counts := by unfold State.doneCmd State.finishCmd; rfl
@[simp] theorem State.doneCmd_perfs (s : State) (r : List Nat) : (s.doneCmd r).perfs = s.perfs := by unfold State.doneCmd State.finishCmd; rfl
@[simp] theorem State.doneCmd_sent (s : State) (r : List Nat) : (s.doneCmd r).sent = s.sent := by unfold State.doneCmd State.finishCmd; rfl
@[simp] theorem State.doneCmd_answers (s : State) (r : List Nat) : (s.doneCmd r).answers = s.answers := by unfold State.doneCmd State.finishCmd; rfl
@[simp] theorem State.doneCmd_reply (s : State) (r : List Nat) : (s.doneCmd r).reply = s.reply := by unfold State.doneCmd State.finishCmd; rfl
@[simp] theorem State.doneCmd_heldPkts (s : State) (r : List Nat) : (s.doneCmd r).heldPkts = s.heldPkts := by unfold State.doneCmd State.finishCmd; rfl
@[simp] theorem State.doneCmd_farResv (s : State) (r : List Nat) : (s.doneCmd r).farResv = s.farResv := by unfold State.doneCmd State.finishCmd; rfl
@[simp] theorem State.doneCmd_linkDown (s : State) (r : List Nat) : (s.doneCmd r).linkDown = s.linkDown := by unfold State.doneCmd State.finishCmd; rfl
@[simp] theorem State.doneCmd_badLanes (s : State) (r : List Nat) : (s.doneCmd r).badLanes = s.badLanes := by unfold State.doneCmd State.finishCmd; rfl
@[simp] theorem State.doneCmd_retrains (s : State) (r : List Nat) : (s.doneCmd r).retrains = s.retrains := by unfold State.doneCmd State.finishCmd; rfl
@[simp] theorem State.doneCmd_powerCap (s : State) (r : List Nat) : (s.doneCmd r).powerCap = s.powerCap := by unfold State.doneCmd State.finishCmd; rfl
@[simp] theorem State.doneCmd_snap (s : State) (r : List Nat) : (s.doneCmd r).snap = s.snap := by unfold State.doneCmd State.finishCmd; rfl
@[simp] theorem State.doneCmd_samples (s : State) (r : List Nat) : (s.doneCmd r).samples = s.samples := by unfold State.doneCmd State.finishCmd; rfl

/-! setPath -/
@[simp] theorem State.setPath_cur (s : State) (a b : Nat) (l : LinkState) (m : Nat) : (s.setPath a b l m).cur = s.cur := rfl
@[simp] theorem State.setPath_agenda (s : State) (a b : Nat) (l : LinkState) (m : Nat) : (s.setPath a b l m).agenda = s.agenda := rfl
@[simp] theorem State.setPath_free (s : State) (a b : Nat) (l : LinkState) (m : Nat) : (s.setPath a b l m).free = s.free := rfl
@[simp] theorem State.setPath_serial (s : State) (a b : Nat) (l : LinkState) (m : Nat) : (s.setPath a b l m).serial = s.serial := rfl
@[simp] theorem State.setPath_bus (s : State) (a b : Nat) (l : LinkState) (m : Nat) : (s.setPath a b l m).bus = s.bus := rfl
@[simp] theorem State.setPath_mem (s : State) (a b : Nat) (l : LinkState) (m : Nat) : (s.setPath a b l m).mem = s.mem := rfl
@[simp] theorem State.setPath_tags (s : State) (a b : Nat) (l : LinkState) (m : Nat) : (s.setPath a b l m).tags = s.tags := rfl
@[simp] theorem State.setPath_poison (s : State) (a b : Nat) (l : LinkState) (m : Nat) : (s.setPath a b l m).poison = s.poison := rfl
@[simp] theorem State.setPath_dies (s : State) (a b : Nat) (l : LinkState) (m : Nat) : (s.setPath a b l m).dies = s.dies := rfl
@[simp] theorem State.setPath_cores (s : State) (a b : Nat) (l : LinkState) (m : Nat) : (s.setPath a b l m).cores = s.cores := rfl
@[simp] theorem State.setPath_parts (s : State) (a b : Nat) (l : LinkState) (m : Nat) : (s.setPath a b l m).parts = s.parts := rfl
@[simp] theorem State.setPath_wgs (s : State) (a b : Nat) (l : LinkState) (m : Nat) : (s.setPath a b l m).wgs = s.wgs := rfl
@[simp] theorem State.setPath_groups (s : State) (a b : Nat) (l : LinkState) (m : Nat) : (s.setPath a b l m).groups = s.groups := rfl
@[simp] theorem State.setPath_records (s : State) (a b : Nat) (l : LinkState) (m : Nat) : (s.setPath a b l m).records = s.records := rfl
@[simp] theorem State.setPath_recordBase (s : State) (a b : Nat) (l : LinkState) (m : Nat) : (s.setPath a b l m).recordBase = s.recordBase := rfl
@[simp] theorem State.setPath_classes (s : State) (a b : Nat) (l : LinkState) (m : Nat) : (s.setPath a b l m).classes = s.classes := rfl
@[simp] theorem State.setPath_halts (s : State) (a b : Nat) (l : LinkState) (m : Nat) : (s.setPath a b l m).halts = s.halts := rfl
@[simp] theorem State.setPath_mailbox (s : State) (a b : Nat) (l : LinkState) (m : Nat) : (s.setPath a b l m).mailbox = s.mailbox := rfl
@[simp] theorem State.setPath_master (s : State) (a b : Nat) (l : LinkState) (m : Nat) : (s.setPath a b l m).master = s.master := rfl
@[simp] theorem State.setPath_pod (s : State) (a b : Nat) (l : LinkState) (m : Nat) : (s.setPath a b l m).pod = s.pod := rfl
@[simp] theorem State.setPath_counts (s : State) (a b : Nat) (l : LinkState) (m : Nat) : (s.setPath a b l m).counts = s.counts := rfl
@[simp] theorem State.setPath_perfs (s : State) (a b : Nat) (l : LinkState) (m : Nat) : (s.setPath a b l m).perfs = s.perfs := rfl
@[simp] theorem State.setPath_sent (s : State) (a b : Nat) (l : LinkState) (m : Nat) : (s.setPath a b l m).sent = s.sent := rfl
@[simp] theorem State.setPath_answers (s : State) (a b : Nat) (l : LinkState) (m : Nat) : (s.setPath a b l m).answers = s.answers := rfl
@[simp] theorem State.setPath_reply (s : State) (a b : Nat) (l : LinkState) (m : Nat) : (s.setPath a b l m).reply = s.reply := rfl
@[simp] theorem State.setPath_heldPkts (s : State) (a b : Nat) (l : LinkState) (m : Nat) : (s.setPath a b l m).heldPkts = s.heldPkts := rfl
@[simp] theorem State.setPath_farResv (s : State) (a b : Nat) (l : LinkState) (m : Nat) : (s.setPath a b l m).farResv = s.farResv := rfl
@[simp] theorem State.setPath_linkDown (s : State) (a b : Nat) (l : LinkState) (m : Nat) : (s.setPath a b l m).linkDown = s.linkDown := rfl
@[simp] theorem State.setPath_badLanes (s : State) (a b : Nat) (l : LinkState) (m : Nat) : (s.setPath a b l m).badLanes = s.badLanes := rfl
@[simp] theorem State.setPath_retrains (s : State) (a b : Nat) (l : LinkState) (m : Nat) : (s.setPath a b l m).retrains = s.retrains := rfl
@[simp] theorem State.setPath_powerCap (s : State) (a b : Nat) (l : LinkState) (m : Nat) : (s.setPath a b l m).powerCap = s.powerCap := rfl
@[simp] theorem State.setPath_snap (s : State) (a b : Nat) (l : LinkState) (m : Nat) : (s.setPath a b l m).snap = s.snap := rfl
@[simp] theorem State.setPath_samples (s : State) (a b : Nat) (l : LinkState) (m : Nat) : (s.setPath a b l m).samples = s.samples := rfl

/-! setBraid -/
@[simp] theorem State.setBraid_cur (s : State) (b : BraidCount) : (s.setBraid b).cur = s.cur := rfl
@[simp] theorem State.setBraid_agenda (s : State) (b : BraidCount) : (s.setBraid b).agenda = s.agenda := rfl
@[simp] theorem State.setBraid_free (s : State) (b : BraidCount) : (s.setBraid b).free = s.free := rfl
@[simp] theorem State.setBraid_serial (s : State) (b : BraidCount) : (s.setBraid b).serial = s.serial := rfl
@[simp] theorem State.setBraid_bus (s : State) (b : BraidCount) : (s.setBraid b).bus = s.bus := rfl
@[simp] theorem State.setBraid_mem (s : State) (b : BraidCount) : (s.setBraid b).mem = s.mem := rfl
@[simp] theorem State.setBraid_tags (s : State) (b : BraidCount) : (s.setBraid b).tags = s.tags := rfl
@[simp] theorem State.setBraid_poison (s : State) (b : BraidCount) : (s.setBraid b).poison = s.poison := rfl
@[simp] theorem State.setBraid_dies (s : State) (b : BraidCount) : (s.setBraid b).dies = s.dies := rfl
@[simp] theorem State.setBraid_cores (s : State) (b : BraidCount) : (s.setBraid b).cores = s.cores := rfl
@[simp] theorem State.setBraid_parts (s : State) (b : BraidCount) : (s.setBraid b).parts = s.parts := rfl
@[simp] theorem State.setBraid_wgs (s : State) (b : BraidCount) : (s.setBraid b).wgs = s.wgs := rfl
@[simp] theorem State.setBraid_groups (s : State) (b : BraidCount) : (s.setBraid b).groups = s.groups := rfl
@[simp] theorem State.setBraid_records (s : State) (b : BraidCount) : (s.setBraid b).records = s.records := rfl
@[simp] theorem State.setBraid_recordBase (s : State) (b : BraidCount) : (s.setBraid b).recordBase = s.recordBase := rfl
@[simp] theorem State.setBraid_classes (s : State) (b : BraidCount) : (s.setBraid b).classes = s.classes := rfl
@[simp] theorem State.setBraid_halts (s : State) (b : BraidCount) : (s.setBraid b).halts = s.halts := rfl
@[simp] theorem State.setBraid_mailbox (s : State) (b : BraidCount) : (s.setBraid b).mailbox = s.mailbox := rfl
@[simp] theorem State.setBraid_master (s : State) (b : BraidCount) : (s.setBraid b).master = s.master := rfl
@[simp] theorem State.setBraid_pod (s : State) (b : BraidCount) : (s.setBraid b).pod = s.pod := rfl
@[simp] theorem State.setBraid_paths (s : State) (b : BraidCount) : (s.setBraid b).paths = s.paths := rfl
@[simp] theorem State.setBraid_perfs (s : State) (b : BraidCount) : (s.setBraid b).perfs = s.perfs := rfl
@[simp] theorem State.setBraid_sent (s : State) (b : BraidCount) : (s.setBraid b).sent = s.sent := rfl
@[simp] theorem State.setBraid_answers (s : State) (b : BraidCount) : (s.setBraid b).answers = s.answers := rfl
@[simp] theorem State.setBraid_reply (s : State) (b : BraidCount) : (s.setBraid b).reply = s.reply := rfl
@[simp] theorem State.setBraid_heldPkts (s : State) (b : BraidCount) : (s.setBraid b).heldPkts = s.heldPkts := rfl
@[simp] theorem State.setBraid_farResv (s : State) (b : BraidCount) : (s.setBraid b).farResv = s.farResv := rfl
@[simp] theorem State.setBraid_linkDown (s : State) (b : BraidCount) : (s.setBraid b).linkDown = s.linkDown := rfl
@[simp] theorem State.setBraid_badLanes (s : State) (b : BraidCount) : (s.setBraid b).badLanes = s.badLanes := rfl
@[simp] theorem State.setBraid_retrains (s : State) (b : BraidCount) : (s.setBraid b).retrains = s.retrains := rfl
@[simp] theorem State.setBraid_powerCap (s : State) (b : BraidCount) : (s.setBraid b).powerCap = s.powerCap := rfl
@[simp] theorem State.setBraid_snap (s : State) (b : BraidCount) : (s.setBraid b).snap = s.snap := rfl
@[simp] theorem State.setBraid_samples (s : State) (b : BraidCount) : (s.setBraid b).samples = s.samples := rfl

/-! countAck -/
@[simp] theorem State.countAck_cur (s : State) (q : SentPacket) : (s.countAck q).cur = s.cur := rfl
@[simp] theorem State.countAck_agenda (s : State) (q : SentPacket) : (s.countAck q).agenda = s.agenda := rfl
@[simp] theorem State.countAck_free (s : State) (q : SentPacket) : (s.countAck q).free = s.free := rfl
@[simp] theorem State.countAck_serial (s : State) (q : SentPacket) : (s.countAck q).serial = s.serial := rfl
@[simp] theorem State.countAck_bus (s : State) (q : SentPacket) : (s.countAck q).bus = s.bus := rfl
@[simp] theorem State.countAck_mem (s : State) (q : SentPacket) : (s.countAck q).mem = s.mem := rfl
@[simp] theorem State.countAck_tags (s : State) (q : SentPacket) : (s.countAck q).tags = s.tags := rfl
@[simp] theorem State.countAck_poison (s : State) (q : SentPacket) : (s.countAck q).poison = s.poison := rfl
@[simp] theorem State.countAck_dies (s : State) (q : SentPacket) : (s.countAck q).dies = s.dies := rfl
@[simp] theorem State.countAck_cores (s : State) (q : SentPacket) : (s.countAck q).cores = s.cores := rfl
@[simp] theorem State.countAck_parts (s : State) (q : SentPacket) : (s.countAck q).parts = s.parts := rfl
@[simp] theorem State.countAck_wgs (s : State) (q : SentPacket) : (s.countAck q).wgs = s.wgs := rfl
@[simp] theorem State.countAck_groups (s : State) (q : SentPacket) : (s.countAck q).groups = s.groups := rfl
@[simp] theorem State.countAck_records (s : State) (q : SentPacket) : (s.countAck q).records = s.records := rfl
@[simp] theorem State.countAck_recordBase (s : State) (q : SentPacket) : (s.countAck q).recordBase = s.recordBase := rfl
@[simp] theorem State.countAck_classes (s : State) (q : SentPacket) : (s.countAck q).classes = s.classes := rfl
@[simp] theorem State.countAck_halts (s : State) (q : SentPacket) : (s.countAck q).halts = s.halts := rfl
@[simp] theorem State.countAck_mailbox (s : State) (q : SentPacket) : (s.countAck q).mailbox = s.mailbox := rfl
@[simp] theorem State.countAck_master (s : State) (q : SentPacket) : (s.countAck q).master = s.master := rfl
@[simp] theorem State.countAck_pod (s : State) (q : SentPacket) : (s.countAck q).pod = s.pod := rfl
@[simp] theorem State.countAck_paths (s : State) (q : SentPacket) : (s.countAck q).paths = s.paths := rfl
@[simp] theorem State.countAck_perfs (s : State) (q : SentPacket) : (s.countAck q).perfs = s.perfs := rfl
@[simp] theorem State.countAck_sent (s : State) (q : SentPacket) : (s.countAck q).sent = s.sent := rfl
@[simp] theorem State.countAck_answers (s : State) (q : SentPacket) : (s.countAck q).answers = s.answers := rfl
@[simp] theorem State.countAck_reply (s : State) (q : SentPacket) : (s.countAck q).reply = s.reply := rfl
@[simp] theorem State.countAck_heldPkts (s : State) (q : SentPacket) : (s.countAck q).heldPkts = s.heldPkts := rfl
@[simp] theorem State.countAck_farResv (s : State) (q : SentPacket) : (s.countAck q).farResv = s.farResv := rfl
@[simp] theorem State.countAck_linkDown (s : State) (q : SentPacket) : (s.countAck q).linkDown = s.linkDown := rfl
@[simp] theorem State.countAck_badLanes (s : State) (q : SentPacket) : (s.countAck q).badLanes = s.badLanes := rfl
@[simp] theorem State.countAck_retrains (s : State) (q : SentPacket) : (s.countAck q).retrains = s.retrains := rfl
@[simp] theorem State.countAck_powerCap (s : State) (q : SentPacket) : (s.countAck q).powerCap = s.powerCap := rfl
@[simp] theorem State.countAck_snap (s : State) (q : SentPacket) : (s.countAck q).snap = s.snap := rfl
@[simp] theorem State.countAck_samples (s : State) (q : SentPacket) : (s.countAck q).samples = s.samples := rfl

/-! countRetrain -/
@[simp] theorem State.countRetrain_cur (s : State) (u : Nat) : (s.countRetrain u).cur = s.cur := rfl
@[simp] theorem State.countRetrain_agenda (s : State) (u : Nat) : (s.countRetrain u).agenda = s.agenda := rfl
@[simp] theorem State.countRetrain_free (s : State) (u : Nat) : (s.countRetrain u).free = s.free := rfl
@[simp] theorem State.countRetrain_serial (s : State) (u : Nat) : (s.countRetrain u).serial = s.serial := rfl
@[simp] theorem State.countRetrain_bus (s : State) (u : Nat) : (s.countRetrain u).bus = s.bus := rfl
@[simp] theorem State.countRetrain_mem (s : State) (u : Nat) : (s.countRetrain u).mem = s.mem := rfl
@[simp] theorem State.countRetrain_tags (s : State) (u : Nat) : (s.countRetrain u).tags = s.tags := rfl
@[simp] theorem State.countRetrain_poison (s : State) (u : Nat) : (s.countRetrain u).poison = s.poison := rfl
@[simp] theorem State.countRetrain_dies (s : State) (u : Nat) : (s.countRetrain u).dies = s.dies := rfl
@[simp] theorem State.countRetrain_cores (s : State) (u : Nat) : (s.countRetrain u).cores = s.cores := rfl
@[simp] theorem State.countRetrain_parts (s : State) (u : Nat) : (s.countRetrain u).parts = s.parts := rfl
@[simp] theorem State.countRetrain_wgs (s : State) (u : Nat) : (s.countRetrain u).wgs = s.wgs := rfl
@[simp] theorem State.countRetrain_groups (s : State) (u : Nat) : (s.countRetrain u).groups = s.groups := rfl
@[simp] theorem State.countRetrain_records (s : State) (u : Nat) : (s.countRetrain u).records = s.records := rfl
@[simp] theorem State.countRetrain_recordBase (s : State) (u : Nat) : (s.countRetrain u).recordBase = s.recordBase := rfl
@[simp] theorem State.countRetrain_classes (s : State) (u : Nat) : (s.countRetrain u).classes = s.classes := rfl
@[simp] theorem State.countRetrain_halts (s : State) (u : Nat) : (s.countRetrain u).halts = s.halts := rfl
@[simp] theorem State.countRetrain_mailbox (s : State) (u : Nat) : (s.countRetrain u).mailbox = s.mailbox := rfl
@[simp] theorem State.countRetrain_master (s : State) (u : Nat) : (s.countRetrain u).master = s.master := rfl
@[simp] theorem State.countRetrain_pod (s : State) (u : Nat) : (s.countRetrain u).pod = s.pod := rfl
@[simp] theorem State.countRetrain_paths (s : State) (u : Nat) : (s.countRetrain u).paths = s.paths := rfl
@[simp] theorem State.countRetrain_counts (s : State) (u : Nat) : (s.countRetrain u).counts = s.counts := rfl
@[simp] theorem State.countRetrain_perfs (s : State) (u : Nat) : (s.countRetrain u).perfs = s.perfs := rfl
@[simp] theorem State.countRetrain_sent (s : State) (u : Nat) : (s.countRetrain u).sent = s.sent := rfl
@[simp] theorem State.countRetrain_answers (s : State) (u : Nat) : (s.countRetrain u).answers = s.answers := rfl
@[simp] theorem State.countRetrain_reply (s : State) (u : Nat) : (s.countRetrain u).reply = s.reply := rfl
@[simp] theorem State.countRetrain_heldPkts (s : State) (u : Nat) : (s.countRetrain u).heldPkts = s.heldPkts := rfl
@[simp] theorem State.countRetrain_farResv (s : State) (u : Nat) : (s.countRetrain u).farResv = s.farResv := rfl
@[simp] theorem State.countRetrain_linkDown (s : State) (u : Nat) : (s.countRetrain u).linkDown = s.linkDown := rfl
@[simp] theorem State.countRetrain_badLanes (s : State) (u : Nat) : (s.countRetrain u).badLanes = s.badLanes := rfl
@[simp] theorem State.countRetrain_powerCap (s : State) (u : Nat) : (s.countRetrain u).powerCap = s.powerCap := rfl
@[simp] theorem State.countRetrain_snap (s : State) (u : Nat) : (s.countRetrain u).snap = s.snap := rfl
@[simp] theorem State.countRetrain_samples (s : State) (u : Nat) : (s.countRetrain u).samples = s.samples := rfl

/-! count -/
@[simp] theorem State.count_cur (s : State) (a b : Nat) (f : CohCounters → CohCounters) : (s.count a b f).cur = s.cur := rfl
@[simp] theorem State.count_agenda (s : State) (a b : Nat) (f : CohCounters → CohCounters) : (s.count a b f).agenda = s.agenda := rfl
@[simp] theorem State.count_free (s : State) (a b : Nat) (f : CohCounters → CohCounters) : (s.count a b f).free = s.free := rfl
@[simp] theorem State.count_serial (s : State) (a b : Nat) (f : CohCounters → CohCounters) : (s.count a b f).serial = s.serial := rfl
@[simp] theorem State.count_bus (s : State) (a b : Nat) (f : CohCounters → CohCounters) : (s.count a b f).bus = s.bus := rfl
@[simp] theorem State.count_mem (s : State) (a b : Nat) (f : CohCounters → CohCounters) : (s.count a b f).mem = s.mem := rfl
@[simp] theorem State.count_tags (s : State) (a b : Nat) (f : CohCounters → CohCounters) : (s.count a b f).tags = s.tags := rfl
@[simp] theorem State.count_poison (s : State) (a b : Nat) (f : CohCounters → CohCounters) : (s.count a b f).poison = s.poison := rfl
@[simp] theorem State.count_cores (s : State) (a b : Nat) (f : CohCounters → CohCounters) : (s.count a b f).cores = s.cores := rfl
@[simp] theorem State.count_parts (s : State) (a b : Nat) (f : CohCounters → CohCounters) : (s.count a b f).parts = s.parts := rfl
@[simp] theorem State.count_wgs (s : State) (a b : Nat) (f : CohCounters → CohCounters) : (s.count a b f).wgs = s.wgs := rfl
@[simp] theorem State.count_groups (s : State) (a b : Nat) (f : CohCounters → CohCounters) : (s.count a b f).groups = s.groups := rfl
@[simp] theorem State.count_records (s : State) (a b : Nat) (f : CohCounters → CohCounters) : (s.count a b f).records = s.records := rfl
@[simp] theorem State.count_recordBase (s : State) (a b : Nat) (f : CohCounters → CohCounters) : (s.count a b f).recordBase = s.recordBase := rfl
@[simp] theorem State.count_classes (s : State) (a b : Nat) (f : CohCounters → CohCounters) : (s.count a b f).classes = s.classes := rfl
@[simp] theorem State.count_halts (s : State) (a b : Nat) (f : CohCounters → CohCounters) : (s.count a b f).halts = s.halts := rfl
@[simp] theorem State.count_mailbox (s : State) (a b : Nat) (f : CohCounters → CohCounters) : (s.count a b f).mailbox = s.mailbox := rfl
@[simp] theorem State.count_master (s : State) (a b : Nat) (f : CohCounters → CohCounters) : (s.count a b f).master = s.master := rfl
@[simp] theorem State.count_pod (s : State) (a b : Nat) (f : CohCounters → CohCounters) : (s.count a b f).pod = s.pod := rfl
@[simp] theorem State.count_paths (s : State) (a b : Nat) (f : CohCounters → CohCounters) : (s.count a b f).paths = s.paths := rfl
@[simp] theorem State.count_counts (s : State) (a b : Nat) (f : CohCounters → CohCounters) : (s.count a b f).counts = s.counts := rfl
@[simp] theorem State.count_perfs (s : State) (a b : Nat) (f : CohCounters → CohCounters) : (s.count a b f).perfs = s.perfs := rfl
@[simp] theorem State.count_sent (s : State) (a b : Nat) (f : CohCounters → CohCounters) : (s.count a b f).sent = s.sent := rfl
@[simp] theorem State.count_answers (s : State) (a b : Nat) (f : CohCounters → CohCounters) : (s.count a b f).answers = s.answers := rfl
@[simp] theorem State.count_reply (s : State) (a b : Nat) (f : CohCounters → CohCounters) : (s.count a b f).reply = s.reply := rfl
@[simp] theorem State.count_heldPkts (s : State) (a b : Nat) (f : CohCounters → CohCounters) : (s.count a b f).heldPkts = s.heldPkts := rfl
@[simp] theorem State.count_farResv (s : State) (a b : Nat) (f : CohCounters → CohCounters) : (s.count a b f).farResv = s.farResv := rfl
@[simp] theorem State.count_linkDown (s : State) (a b : Nat) (f : CohCounters → CohCounters) : (s.count a b f).linkDown = s.linkDown := rfl
@[simp] theorem State.count_badLanes (s : State) (a b : Nat) (f : CohCounters → CohCounters) : (s.count a b f).badLanes = s.badLanes := rfl
@[simp] theorem State.count_retrains (s : State) (a b : Nat) (f : CohCounters → CohCounters) : (s.count a b f).retrains = s.retrains := rfl
@[simp] theorem State.count_powerCap (s : State) (a b : Nat) (f : CohCounters → CohCounters) : (s.count a b f).powerCap = s.powerCap := rfl
@[simp] theorem State.count_snap (s : State) (a b : Nat) (f : CohCounters → CohCounters) : (s.count a b f).snap = s.snap := rfl
@[simp] theorem State.count_samples (s : State) (a b : Nat) (f : CohCounters → CohCounters) : (s.count a b f).samples = s.samples := rfl

end Sys2Proof.Machine
end

