-- ==== Sys2Proof/Tests/Slice0.lean ====
section
/-!
SUPPORT. Tests: words that the spec prints, terms that the checks refuse, one step on a small state, and for the statements a
state and operands that meet their hypotheses.
-/
namespace Sys2Proof.Tests
open Sys2Proof.Machine

/-! ### A small state: one instruction of one group, in the place that step runs next -/

/-- The operands of an instruction, unguarded, in short form. -/
def args (d a b c : BitVec 8) (mod : BitVec 5) : Args := ⟨Guard.always, d, a, b, c, none, false, mod⟩

/-- The state after reset with an instruction placed, and its group changed. -/
def probe (o : Op) (x : Args) (f : Group → Group) : State :=
  (State.reset.placeProbe (o.word x) (x.long.getD 0)).modGroup 1 f

/-- What the split that issues sees. -/
def seen (s : State) : Option Ctx :=
  match s.cur with
  | some (g, sid) => (s.ctx? g sid).map s.passSite
  | none => none

/-- The split that `cur` names issues the instruction, which is a legal one. -/
def issuesHere (o : Op) (x : Args) (s : State) : Bool :=
  match seen s with
  | some c => c.atWord && c.encodingFault o x == none && c.active x != [] && c.flagHold o x == none && (o.instr x).wf
  | none => false

theorem issues_of {o : Op} {x : Args} {s : State} {c : Ctx} (hs : seen s = some c) (h : issuesHere o x s = true) : s.issues o x c := by
  unfold issuesHere at h
  rw [hs] at h
  unfold seen at hs
  split at hs
  · next g sid hc =>
    obtain ⟨c0, h0, rfl⟩ := Option.map_eq_some_iff.1 hs
    simp only [Bool.and_eq_true, beq_iff_eq, bne_iff_ne, ne_eq] at h
    exact ⟨⟨g, sid, c0, hc, h0, h.1.1.1.1, rfl⟩, h.1.1.1.2, h.1.1.2, h.1.2⟩
  · exact nomatch hs

/-- The group of the instruction after one step. -/
def after (s : State) : Option Group :=
  match step s with
  | .next t => t.group? 1
  | _ => none

/-- `s` registers set. -/
def withS (l : List (Nat × Word)) (g : Group) : Group := { g with s := l }
/-- `v` registers of lane 0 set. -/
def withV (l : List (Nat × Word)) (g : Group) : Group := { g with v := l.map (fun k => (k.1 * 64, k.2)) }
/-- The split runs with lane 0 alone. -/
def lane0 (g : Group) : Group := { g with splits := g.splits.map (fun sp => { sp with mask := 1 }) }

/-- A value of `s` after a step. -/
def sAfter (s : State) (n : Nat) : Option Word := (after s).map (fun g => g.sReg n)
/-- A value of `v` in lane 0 after a step. -/
def vAfter (s : State) (n : Nat) : Option Word := (after s).map (fun g => g.vReg n 0)

/-- `p` registers set. -/
def withP (l : List (Nat × Ptr)) (g : Group) : Group := { g with p := l.map (fun k => (k.1, k.2.toBits)) }
/-- A pointer to the first 4096 bytes of the core's scratchpad, with every right but X. -/
def pad : Ptr := ⟨0, 0, 4096, 0, 1, 0, 0, 0, true, true, false, true, false, 0⟩

/-! ### Words that the spec prints (06 R122; 09, 10, 13, 14, 16, 22), and words of its opcode map -/

/-- 13: the worked copy. -/
theorem test_word_stream : decodeTableWord 64 0xE0000002010E0509 = some (.stream (args 4 2 0x1C 10 9)) := by decide
/-- 14: the worked matrix multiply. -/
theorem test_word_mstepV : decodeTableWord 64 0xE2000000100A0C10 = some (.mstepV (args 0 0x20 0x14 0x18 0x10)) := by decide
theorem test_word_azero : decodeTableWord 64 0xE300000000000000 = some (.azero (args 0 0 0 0 0)) := by decide
theorem test_word_aswap : decodeTableWord 64 0xE280000000000000 = some (.aswap (args 0 0 0 0 0)) := by decide
/-- 22: the worked trap. -/
theorem test_word_tret : decodeTableWord 64 0x0680000000000000 = some (.tret (args 0 0 0 0 0)) := by decide
theorem test_word_trap : decodeTableWord 64 0x0640700010800000 =
    some (.trap ⟨⟨true, false, false, 7, 0⟩, 0, 0x21, 0, 0, none, false, 0⟩) := by decide
/-- 09, 16: the worked lane and atomic instructions. -/
theorem test_word_match : decodeTableWord 64 0x8200000605000000 = some (.matchLanes (args 12 10 0 0 0)) := by decide
theorem test_word_vcmp : decodeTableWord 128 0x470000088700004C = some (.vcmp { args 0x11 14 0 0 12 with long := some 0 }) := by decide
theorem test_word_vpopc : decodeTableWord 64 0x498000098600000C = some (.vpopc (args 0x13 12 0 0 12)) := by decide
theorem test_word_atomn : decodeTableWord 64 0xC0C1100005058980 =
    some (.atomn ⟨⟨true, false, false, 0x11, 0⟩, 0, 10, 11, 0x13, none, false, 0⟩) := by decide
theorem test_word_lred : decodeTableWord 64 0x8380000502000800 = some (.lred (args 10 4 0 0x10 0)) := by decide
/-- 21: the message over Braid. -/
theorem test_word_st : decodeTableWord 64 0xA500000200010302 = some (.st (args 4 0 2 6 2)) := by decide
theorem test_word_ld : decodeTableWord 64 0xA480000280810304 = some (.ld (args 5 1 2 6 4)) := by decide
/-- 08: CALL and RET as assembled. -/
theorem test_word_call : decodeTableWord 64 0x0240700500004000 =
    some (.call ⟨⟨true, false, false, 7, 0⟩, 10, 0, 0, 0x80, none, false, 0⟩) := by decide
theorem test_word_ret : decodeTableWord 64 0x0300000005000000 = some (.ret (args 0 10 0 0 0)) := by decide
/-- Written from the tables of 09 R199, R202 and 10: OP in [63:55], D in [38:31], A in [30:23], B in [22:15], C in [14:7]. -/
theorem test_word_sadd : decodeTableWord 64 (0x040 * 2 ^ 55 + 3 * 2 ^ 31 + 1 * 2 ^ 23 + 2 * 2 ^ 15 + 8) = some (.sadd (args 3 1 2 0 8)) := by decide
theorem test_word_fadd : decodeTableWord 64 (0x0C0 * 2 ^ 55 + 3 * 2 ^ 31 + 1 * 2 ^ 23 + 2 * 2 ^ 15 + 1) = some (.fadd (args 3 1 2 0 1)) := by decide

/-! ### What the checks of a word refuse (06 R120, R123 to R128, R130) -/

/-- The check of GE, GN, GK, GREG and GBIT: a guard field set with GE clear, and a GREG of `s` that is no register. -/
theorem test_illformed_guard : Instr.wf (.sadd { args 3 1 2 0 0 with guard := ⟨false, false, false, 7, 0⟩ }) = false ∧
    Instr.wf (.sadd { args 3 1 2 0 0 with guard := ⟨true, false, true, 128, 0⟩ }) = false := by decide
/-- The check of the operand fields: an unused field set, and a pair from an odd register. -/
theorem test_illformed_operand : Instr.wf (.sadd (args 3 1 2 1 0)) = false ∧ Instr.wf (.sadd (args 3 2 4 0 16)) = false := by decide
/-- The check of MOD: a condition that SCMP does not admit, and bits that SADD has not. -/
theorem test_illformed_mod : Instr.wf (.scmp (args 3 1 2 0 6)) = false ∧ Instr.wf (.sadd (args 3 1 2 0 1)) = false := by decide
/-- The check of the long form: SMOVI without it, SMOV with it, and a 32-bit immediate with a bit above. -/
theorem test_illformed_long : Instr.wf (.smovi (args 3 0 0 0 0)) = false ∧ Instr.wf (.smov { args 3 1 0 0 0 with long := some 0 }) = false ∧
    Instr.wf (.sadd { args 3 1 0 0 0 with long := some 0x100000000 }) = false := by decide
/-- The check of FS: in an instruction that is not flag-counted. -/
theorem test_illformed_fs : Instr.wf (.sadd { args 3 1 2 0 0 with fs := true }) = false := by decide
/-- An opcode that 06 R128 leaves unassigned, and a legal term. -/
theorem test_unassigned : decodeTableWord 64 (0x054 * 2 ^ 55) = none ∧
    Instr.wf (.sadd (args 3 1 2 0 0)) = true := by decide

/-! ### One step (values worked out from 09 R197 to R206) -/

theorem test_sadd_wraps : sAfter (probe .sadd (args 3 1 2 0 0) (withS [(1, 0xFFFFFFFF), (2, 2)])) 3 = some 1 := by decide
theorem test_sadd_pair_carries : sAfter (probe .sadd (args 4 2 6 0 24) (withS [(2, 0xFFFFFFFF), (6, 1)])) 5 = some 1 := by decide
theorem test_ssub_borrows : sAfter (probe .ssub (args 3 1 2 0 0) (withS [(1, 1), (2, 2)])) 3 = some 0xFFFFFFFF := by decide
theorem test_smulh_unsigned : sAfter (probe .smulh (args 3 1 2 0 8) (withS [(1, 0xFFFFFFFF), (2, 0xFFFFFFFF)])) 3 = some 0xFFFFFFFE := by decide
theorem test_smulh_signed : sAfter (probe .smulh (args 3 1 2 0 0) (withS [(1, 0xFFFFFFFF), (2, 0xFFFFFFFF)])) 3 = some 0 := by decide
theorem test_sshl_by_width : sAfter (probe .sshl (args 3 1 2 0 0) (withS [(1, 1), (2, 32)])) 3 = some 0 := by decide
theorem test_ssra_beyond_width : sAfter (probe .ssra (args 3 1 2 0 0) (withS [(1, 0x80000000), (2, 40)])) 3 = some 0xFFFFFFFF := by decide
theorem test_scmp_signed : sAfter (probe .scmp (args 3 1 2 0 2) (withS [(1, 0xFFFFFFFF), (2, 1)])) 3 = some 0xFFFFFFFF := by decide
theorem test_scmp_unsigned : sAfter (probe .scmp (args 3 1 2 0 10) (withS [(1, 0xFFFFFFFF), (2, 1)])) 3 = some 0 := by decide
theorem test_sbfe_signed : sAfter (probe .sbfe (args 3 1 2 0 0) (withS [(1, 0x80), (2, 0x404)])) 3 = some 0xFFFFFFF8 := by decide
theorem test_sbfi : sAfter (probe .sbfi (args 3 1 2 4 0) (withS [(1, 0xF), (2, 0x404), (4, 1)])) 3 = some 0xF1 := by decide
theorem test_spopc : sAfter (probe .spopc (args 3 1 0 0 0) (withS [(1, 0xF0F0)])) 3 = some 8 := by decide
theorem test_sclz_zero : sAfter (probe .sclz (args 3 1 0 0 0) id) 3 = some 32 := by decide
theorem test_smovi : sAfter (probe .smovi { args 3 0 0 0 0 with long := some 0x12345678 } id) 3 = some 0x12345678 := by decide
theorem test_vadd_halves : vAfter (probe .vadd (args 3 1 2 0 16) (fun g => lane0 (withV [(1, 0x0001FFFF), (2, 0x00010001)] g))) 3 =
    some 0x00020000 := by decide
theorem test_vadd_saturates : vAfter (probe .vadd (args 3 1 2 0 25) (fun g => lane0 (withV [(1, 0x7F), (2, 1)] g))) 3 = some 0x7F := by decide
theorem test_vabs_least : vAfter (probe .vabs (args 3 1 0 0 0) (fun g => lane0 (withV [(1, 0x80000000)] g))) 3 = some 0x80000000 := by decide
theorem test_vdot4 : vAfter (probe .vdot4 (args 3 1 2 4 28) (fun g => lane0 (withV [(1, 0x01010101), (2, 0x02020202), (4, 1)] g))) 3 =
    some 9 := by decide
theorem test_vadd_other_lane : (after (probe .vadd (args 3 1 2 0 4) (fun g => lane0 { g with v := [(65, 5), (129, 6), (193, 7)] }))).map
    (fun g => g.vReg 3 1) = some 7 := by decide
theorem test_fadd : vAfter (probe .fadd (args 3 1 2 0 0) (fun g => lane0 (withV [(1, 0x3F800000), (2, 0x40000000)] g))) 3 =
    some 0x40400000 := by decide
theorem test_ffma : vAfter (probe .ffma (args 3 1 2 4 0) (fun g => lane0 (withV [(1, 0x3F800000), (2, 0x3F800000), (4, 0xBF800000)] g))) 3 =
    some 0 := by decide
theorem test_frcp_zero : vAfter (probe .frcp (args 3 1 0 0 0) lane0) 3 = some 0x7F800000 := by decide
theorem test_fsqrt : vAfter (probe .fsqrt (args 3 1 0 0 0) (fun g => lane0 (withV [(1, 0x40800000)] g))) 3 = some 0x40000000 := by decide +kernel
theorem test_fround_even : vAfter (probe .fround (args 3 1 0 0 0) (fun g => lane0 (withV [(1, 0x40200000)] g))) 3 = some 0x40000000 := by decide
theorem test_nop_moves : (after (probe .nop (args 0 0 0 0 0) id)).map (fun g => g.splits.map (fun sp => (sp.pc, sp.word))) =
    some [(16, 0)] := by decide

/-! ### States and operands that meet the hypotheses of the statements -/

/-- Some split may issue the instruction in `s`. -/
theorem can_issue {o : Op} {x : Args} {s : State} (h : issuesHere o x s = true) : ∃ c, s.issues o x c := by
  cases hs : seen s with
  | none => unfold issuesHere at h; rw [hs] at h; exact nomatch h
  | some c => exact ⟨c, issues_of hs h⟩

/-- Some state and operands let the instruction issue. -/
theorem can (o : Op) (x : Args) (h : issuesHere o x (probe o x id) = true) : ∃ (s : State) (c : Ctx) (x : Args), s.issues o x c :=
  ⟨_, (can_issue h).choose, x, (can_issue h).choose_spec⟩

/-- Some split may issue the instruction in `s`, and what it sees meets a condition. -/
theorem can_with {o : Op} {x : Args} {s : State} (P : Ctx → Prop) [∀ c, Decidable (P c)]
    (h : (issuesHere o x s && (seen s).all (fun c => decide (P c))) = true) : ∃ c, s.issues o x c ∧ P c := by
  obtain ⟨h1, h2⟩ := Bool.and_eq_true_iff.1 h
  cases hs : seen s with
  | none => unfold issuesHere at h1; rw [hs] at h1; exact nomatch h1
  | some c => exact ⟨c, issues_of hs h1, of_decide_eq_true (by rw [hs] at h2; exact h2)⟩

/-- The split that `cur` names is at a word it may issue. -/
theorem sees_of {s : State} {c : Ctx} (hs : seen s = some c) (h : c.atWord = true) : s.sees c := by
  unfold seen at hs
  split at hs
  · next g sid hc =>
    obtain ⟨c0, h0, rfl⟩ := Option.map_eq_some_iff.1 hs
    exact ⟨g, sid, c0, hc, h0, h, rfl⟩
  · exact nomatch hs

/-- An instruction that lane 0 alone executes: its guard is bit 0 of `v7`. -/
def guarded (x : Args) : Args := { x with guard := ⟨true, false, false, 7, 0⟩ }

theorem witness_EncodedInstructionsDecode : ∀ i ∈ [Instr.sadd (args 126 126 126 0 24), .nop (args 0 0 0 0 0),
    .vcmp { args 0x11 14 0 0 12 with long := some 0 }, .smovi { args 127 0 0 0 0 with long := some 0 },
    .ld { guarded (args 5 1 2 6 4) with fs := true }], i.opArgs?.isSome = true ∧ i.wf = true := by decide
theorem witness_DecodedInstructionsEncode : ∃ (l rest : List Byte) (i : Instr), decodeBytes l = .ok (i, rest) :=
  ⟨bytesOfDWord 0x0680000000000000 ++ [1], [1], .tret (args 0 0 0 0 0), rfl⟩
theorem witness_StepRunsDecodedInstruction : ∃ (s : State) (gid sid n : Nat) (c : Ctx) (i : Instr), s.cur = some (gid, sid) ∧
    s.ctx? gid sid = some c ∧ c.atWord = true ∧ decodeAt c.sp.clause c.sp.word = .ok (i, n) ∧
    ((s.siteOf c.w c.sp).isSome = true → s.samples.any (fun x => x.gid == gid && x.sid == sid) = false) ∧ s.stopDue c = false :=
  ⟨probe .sadd (args 3 1 2 0 0) id, 1, 0, 2, _, .sadd (args 3 1 2 0 0), rfl, rfl, by decide, rfl, fun _ => rfl, by decide⟩
theorem witness_StepRunsListedEvent : ∃ (s : State) (i : Instr) (rest : List Instr), s.cur = none ∧ s.agenda = i :: rest :=
  ⟨{ State.reset with agenda := [.mstatRead] }, .mstatRead, [], rfl, rfl⟩
theorem witness_IssueChecks_encoding : ∃ (s : State) (c : Ctx), Op.aswap ≠ .yield ∧ s.sees c ∧
    c.encodingFault .aswap (args 0 0 0 0 0) = some 0x5001 :=
  ⟨(probe .aswap (args 0 0 0 0 0) id).modWg 0 (fun w => { w with legacy := true }), _, by decide, sees_of rfl (by decide), by decide⟩
theorem witness_IssueChecks_register : ∃ (s : State) (c : Ctx), Op.sadd ≠ .yield ∧ s.sees c ∧
    c.encodingFault .sadd (args 3 1 2 0 0) = some 0x5003 :=
  ⟨probe .sadd (args 3 1 2 0 0) (fun g => { g with sregs := 2 }), _, by decide, sees_of rfl (by decide), by decide⟩
theorem witness_IssueChecks_empty : ∃ (s : State) (c : Ctx) (x : Args), Op.vadd ≠ .yield ∧ s.sees c ∧ c.encodingFault .vadd x = none ∧
    c.active x = [] :=
  ⟨probe .vadd (guarded (args 3 1 2 0 0)) id, _, guarded (args 3 1 2 0 0), by decide, sees_of rfl (by decide), by decide, by decide⟩
theorem witness_IssueChecks_limit : ∃ (s : State) (c : Ctx) (x : Args), s.sees c ∧ c.encodingFault .ld x = none ∧
    c.active x ≠ [] ∧ Op.ld.flagCounted = true ∧ c.g.flagAwaited c.sp.id (c.flag x) = false ∧ 63 ≤ c.g.flag (c.flag x) :=
  ⟨probe .ld (args 4 0 0 0 0) (fun g => { g with flags := [(0, 63)] }), _, args 4 0 0 0 0, sees_of rfl (by decide), by decide, by decide,
    by decide, by decide, by decide⟩
theorem witness_StepKeepsInvariant : ∃ s t : State, s.Inv ∧ step s = .next t :=
  ⟨probe .nop (args 0 0 0 0 0) id, _, ⟨by unfold State.memWf; decide, by unfold State.wholePackage; decide, by unfold State.cyclesFit; decide⟩,
    rfl⟩

theorem witness_ScalarIntegerResults : (∀ row ∈ scalarBlock, ∃ (s : State) (c : Ctx) (x : Args), s.issues row.1 x c) ∧
    ∃ (s : State) (c : Ctx) (x : Args) (imm : DWord), x.long = some imm ∧ s.issues .smovi x c := by
  refine ⟨?_, probe .smovi { args 3 0 0 0 0 with long := some 5 } id, _, { args 3 0 0 0 0 with long := some 5 }, 5, rfl, issues_of rfl (by decide)⟩
  have h : ∀ row ∈ scalarBlock, issuesHere row.1 (args 126 0 0 0 0) (probe row.1 (args 126 0 0 0 0) id) = true := by decide
  exact fun row hr => can _ _ (h row hr)
theorem witness_VectorIntegerResults : (∀ row ∈ vectorBlock, ∃ (s : State) (c : Ctx) (x : Args), s.issues row.1 x c) ∧
    ∃ (s : State) (c : Ctx) (x : Args), s.issues .vdot4 x c := by
  refine ⟨?_, can .vdot4 (args 3 1 2 4 28) (by decide)⟩
  have h : ∀ row ∈ vectorBlock, issuesHere row.1 (args 255 0 0 0 0) (probe row.1 (args 255 0 0 0 0) id) = true := by decide
  exact fun row hr => can _ _ (h row hr)
theorem witness_FloatingPointResults : ∀ row ∈ floatBlock, ∃ (s : State) (c : Ctx) (x : Args), s.issues row.1 x c := by
  have h : ∀ row ∈ floatBlock, issuesHere row.1 (args 255 0 0 0 0) (probe row.1 (args 255 0 0 0 0) id) = true := by decide
  exact fun row hr => can _ _ (h row hr)
theorem witness_ConversionResults : (∃ (s : State) (c : Ctx) (x : Args), s.issues .cvt x c) ∧ (∃ (s : State) (c : Ctx) (x : Args), s.issues .cvtpk x c) ∧
    ∃ (s : State) (c : Ctx) (x : Args), s.issues .scalex x c :=
  ⟨can .cvt (args 3 1 0x10 0x12 0) (by decide), can .cvtpk (args 3 1 2 0x12 0) (by decide), can .scalex (args 3 1 2 0 0) (by decide)⟩
theorem witness_LaneInstructionResults : ∀ row ∈ laneBlock, ∃ (s : State) (c : Ctx) (x : Args), s.issues row.1 x c := by
  have h : ∀ row ∈ laneBlock, issuesHere row.1 (args 4 0 0 0 0) (probe row.1 (args 4 0 0 0 0) id) = true := by decide
  exact fun row hr => can _ _ (h row hr)
theorem witness_ScalarDestinationResults : ∀ row ∈ toScalarBlock, ∃ (s : State) (c : Ctx) (x : Args), s.issues row.1 x c := by
  have h : ∀ row ∈ toScalarBlock, issuesHere row.1 (args 4 0 0 0 0) (probe row.1 (args 4 0 0 0 0) id) = true := by decide
  exact fun row hr => can _ _ (h row hr)
theorem witness_ReductionResults : (∃ (s : State) (c : Ctx) (x : Args), s.issues .lred x c) ∧ ∃ (s : State) (c : Ctx) (x : Args), s.issues .lscan x c :=
  ⟨can .lred (args 10 4 0 0x10 0) (by decide), can .lscan (args 10 4 1 0x10 0) (by decide)⟩
theorem witness_PassedInstructionFrame : ∃ (u : State) (c : Ctx) (g : Group), u.group? c.g.gid = some g ∧
    ∃ sp, g.split? c.sp.id = some sp ∧ sp.pc = c.sp.pc ∧ sp.word = c.sp.word ∧ sp.state = c.sp.state ∧ sp.hold ≠ .faulted :=
  ⟨probe .nop (args 0 0 0 0 0) id, ((probe .nop (args 0 0 0 0 0) id).ctx? 1 0).get rfl, _, rfl, _, rfl, by decide, by decide, by decide, by decide⟩

/-- A state in which lane 0 alone of a split of 64 lanes executes a guarded instruction. -/
def oneLane (o : Op) (x : Args) (f : Group → Group) : State := probe o (guarded x) (fun g => f { g with v := [(7 * 64, 1)] })

/-- The operands of a branch: a word with RW for those that have it, with no reconvergence offset of its own. -/
def branchArgs (o : Op) : Args :=
  match o with
  | .bra | .brd | .bri => { args 0 0 0 0 0 with long := some (2 ^ 24) }
  | _ => args 0 0 0 0 0

theorem witness_UniformBranchesGoToTarget : ∀ row ∈ branchBlock, ∃ (s : State) (x : Args) (c : Ctx), s.issues row.1 x c ∧ c.g.unspilled ∧
    c.sp.mask &&& ~~~maskOf (c.active x) = 0 ∧ (row.2.1 c x).toNat % 8 = 0 := by
  have h : ∀ row ∈ branchBlock, (issuesHere row.1 (branchArgs row.1) (probe row.1 (branchArgs row.1) id) &&
    (seen (probe row.1 (branchArgs row.1) id)).all (fun c => decide ((∀ sp ∈ c.g.splits, sp.spilled = false) ∧
      c.sp.mask &&& ~~~maskOf (c.active (branchArgs row.1)) = 0 ∧ (row.2.1 c (branchArgs row.1)).toNat % 8 = 0))) = true := by decide
  exact fun row hr => ⟨_, _, can_with (fun c => (∀ sp ∈ c.g.splits, sp.spilled = false) ∧ c.sp.mask &&& ~~~maskOf (c.active (branchArgs row.1)) = 0 ∧
    (row.2.1 c (branchArgs row.1)).toNat % 8 = 0) (h row hr)⟩
/-- A branch to a reconvergence offset of its own, whose split gets a divided parent, with eight entries, six in use. -/
theorem witness_DivergentBranchesDivide : ∀ row ∈ branchBlock, ∃ (s : State) (x : Args) (c : Ctx), s.issues row.1 x c ∧ c.g.unspilled ∧
    c.g.splits.length ≤ 6 ∧ c.sp.mask &&& ~~~maskOf (c.active x) ≠ 0 ∧ (row.2.1 c x).toNat % 8 = 0 := by
  have h : ∀ row ∈ branchBlock, (issuesHere row.1 (guarded (branchArgs row.1)) (oneLane row.1 (branchArgs row.1) id) &&
    (seen (oneLane row.1 (branchArgs row.1) id)).all (fun c => decide ((∀ sp ∈ c.g.splits, sp.spilled = false) ∧ c.g.splits.length ≤ 6 ∧
      c.sp.mask &&& ~~~maskOf (c.active (guarded (branchArgs row.1))) ≠ 0 ∧ (row.2.1 c (guarded (branchArgs row.1))).toNat % 8 = 0))) = true := by
    decide
  exact fun row hr => ⟨_, _, can_with (fun c => (∀ sp ∈ c.g.splits, sp.spilled = false) ∧ c.g.splits.length ≤ 6 ∧
    c.sp.mask &&& ~~~maskOf (c.active (guarded (branchArgs row.1))) ≠ 0 ∧ (row.2.1 c (guarded (branchArgs row.1))).toNat % 8 = 0) (h row hr)⟩
/-- The operands of a branch by lane 0 that reconverges at offset 0x40. -/
def meetAt : Args := guarded { args 0 0 0 2 0 with long := some 8 }
/-- The two cases: the same RPC, and another. -/
theorem witness_DivergentBranchesDivide_cases :
    (∃ (s : State) (x : Args) (c : Ctx), s.issues .bra x c ∧ c.sp.mask &&& ~~~maskOf (c.active x) ≠ 0 ∧ rwOf x ≠ noRpc ∧ rwOf x ≠ c.sp.rpc) ∧
    ∃ (s : State) (x : Args) (c : Ctx), s.issues .bra x c ∧ c.sp.mask &&& ~~~maskOf (c.active x) ≠ 0 ∧ c.sp.state = .inTrap :=
  ⟨⟨oneLane .bra { args 0 0 0 2 0 with long := some 8 } id, meetAt, can_with _ (by decide)⟩,
    oneLane .bra (branchArgs .bra) (fun g => { g with splits := g.splits.map (fun sp => { sp with state := .inTrap }) }), guarded (branchArgs .bra),
    can_with _ (by decide)⟩
theorem witness_MisalignedBranchTraps : (∃ (s : State) (x : Args) (c : Ctx), s.issues .bri x c ∧ (c.s x.a.toNat).toNat % 8 ≠ 0) ∧
    (∃ (s : State) (x : Args) (c : Ctx), s.issues .calli x c ∧ (c.s x.a.toNat).toNat % 8 ≠ 0) ∧
    ∃ (s : State) (x : Args) (c : Ctx), s.issues .ret x c ∧ (c.s x.a.toNat).toNat % 8 ≠ 0 :=
  ⟨⟨probe .bri { branchArgs .bri with a := 1 } (withS [(1, 4)]), { branchArgs .bri with a := 1 }, can_with _ (by decide)⟩,
    ⟨probe .calli (args 2 1 0 0 0) (withS [(1, 7)]), args 2 1 0 0 0, can_with _ (by decide)⟩,
    probe .ret (args 0 1 0 0 0) (withS [(1, 1)]), args 0 1 0 0 0, can_with _ (by decide)⟩
/-- All lanes of a root leave, and some. -/
theorem witness_MaskAndEndRemoveLanes : (∃ (s : State) (x : Args) (c : Ctx), s.issues .endLanes x c ∧
      c.sp.mask &&& ~~~(maskOf (c.active x)) = 0 ∧ c.sp.parent = none ∧ c.sp.rpc = noRpc) ∧
    (∃ (s : State) (x : Args) (c : Ctx), s.issues .endLanes x c ∧ c.sp.mask &&& ~~~(maskOf (c.active x)) ≠ 0) ∧
    ∃ (s : State) (x : Args) (c : Ctx), s.issues .maskLanes x c ∧ c.sp.mask &&& ~~~(maskOf (c.active x) &&&
        if x.mod.toNat % 2 = 1 then BitVec.ofNat 64 (c.s2 x.a.toNat) else BitVec.allOnes 64) ≠ 0 :=
  ⟨⟨probe .endLanes (args 0 0 0 0 0) id, args 0 0 0 0 0, can_with _ (by decide)⟩,
    ⟨oneLane .endLanes (args 0 0 0 0 0) id, guarded (args 0 0 0 0 0), can_with _ (by decide)⟩,
    probe .maskLanes (args 0 2 0 0 1) (withS [(2, 1)]), args 0 2 0 0 1, can_with _ (by decide)⟩
theorem witness_NopYieldAndWaitev : (∃ (s : State) (c : Ctx) (x : Args), s.issues .nop x c) ∧ (∃ (s : State) (c : Ctx) (x : Args), s.issues .yield x c) ∧
    (∃ (s : State) (c : Ctx) (x : Args), s.issues .waitevTl x c) ∧ (∃ (s : State) (c : Ctx) (x : Args), s.issues .waitevFlag x c) ∧
    (∃ (s : State) (x : Args) (c : Ctx), s.issues .waitevBar x c ∧ c.w.barrierOffset (c.s x.a.toNat).toNat = true) ∧
    ∃ (s : State) (x : Args) (c : Ctx), s.issues .waitevBar x c ∧ c.w.barrierOffset (c.s x.a.toNat).toNat = false :=
  ⟨can .nop (args 0 0 0 0 0) (by decide), can .yield (args 0 0 0 0 0) (by decide), can .waitevTl (args 0 1 2 0 1) (by decide),
    can .waitevFlag (args 0 11 0 0 3) (by decide), ⟨probe .waitevBar (args 0 1 2 0 2) (withS [(1, 0x3F0)]), args 0 1 2 0 2, can_with _ (by decide)⟩,
    probe .waitevBar (args 0 1 2 0 2) (withS [(1, 0x400)]), args 0 1 2 0 2, can_with _ (by decide)⟩
/-- A trap frame. -/
def frame0 : TrapFrame := trapFrame 0 0x5006 (lanesTrap [0] 0x5006) false false 0 ⟨1, 0, 5⟩
/-- The split is in a trap, with a frame. -/
def trapped (g : Group) : Group :=
  { g with frames := [frame0], splits := g.splits.map (fun sp => { sp with state := .inTrap, frame := some 0 }) }
theorem witness_TrapAndTret : (∃ (s : State) (c : Ctx) (x : Args), s.issues .trap x c) ∧
    (∃ (s : State) (x : Args) (c : Ctx), s.issues .tret x c ∧ c.sp.state ≠ .inTrap) ∧
    ∃ (s : State) (x : Args) (c : Ctx), s.issues .tret x c ∧ c.sp.state = .inTrap ∧ c.sp.frame = some 0 ∧
      c.g.frames.find? (fun f => f.num == 0) = some frame0 ∧ (c.g.splits.filter (fun sp => sp.frame == some 0)).length = 1 :=
  ⟨can .trap (args 0 0x21 0 0 0) (by decide), ⟨probe .tret (args 0 0 0 0 0) id, args 0 0 0 0 0, can_with _ (by decide)⟩,
    probe .tret (args 0 0 0 0 0) trapped, args 0 0 0 0 0, can_with _ (by decide)⟩
/-- The role has a handler. -/
def handled (g : Group) : Group := { g with handler := 0x100 }
theorem witness_TrapEntersHandler : ∃ (s : State) (c : Ctx) (ts : List LaneTrap), s.sees c ∧ codesOf ts = [0x5006] ∧ alwaysFatal 0x5006 = false ∧
    c.sp.state ≠ .inTrap ∧ c.g.handler ≠ noRpc ∧ c.g.freeFrame = some 0 ∧ c.g.unspilled ∧ c.sp.mask &&& ~~~lanesOfCode ts 0x5006 = 0 :=
  ⟨probe .trap (args 0 5 0 0 0) (fun g => lane0 (handled g)), _, lanesTrap [0] 0x5006, sees_of rfl (by decide), by decide, by decide, by decide,
    by decide, by decide, by unfold Group.unspilled; decide, by decide⟩
theorem witness_TrapDividesLanes : ∃ (s : State) (c : Ctx) (ts : List LaneTrap), s.sees c ∧ codesOf ts = [0x3001] ∧ alwaysFatal 0x3001 = false ∧
    c.sp.state ≠ .inTrap ∧ c.g.handler ≠ noRpc ∧ c.g.freeFrame = some 1 ∧ c.g.unspilled ∧ c.g.splits.length ≤ 7 ∧
    c.sp.mask &&& ~~~lanesOfCode ts 0x3001 ≠ 0 :=
  ⟨probe .ld (args 4 0 0 0 0) (fun g => { handled g with frames := [frame0] }), _, lanesTrap [0, 63] 0x3001, sees_of rfl (by decide), by decide,
    by decide, by decide, by decide, by decide, by unfold Group.unspilled; decide, by decide, by decide⟩
/-- No handler; in a trap; a code that is always fatal. -/
theorem witness_TrapWithoutHandlerIsFatal : (∃ (s : State) (c : Ctx) (ts : List LaneTrap), s.sees c ∧ codesOf ts = [0x5006] ∧ c.g.handler = noRpc ∧
      ∀ h ∈ s.halts, h.wgs.contains c.w.key = false) ∧
    (∃ (s : State) (c : Ctx) (ts : List LaneTrap), s.sees c ∧ codesOf ts = [0x5006] ∧ c.sp.state = .inTrap ∧
      ∀ h ∈ s.halts, h.wgs.contains c.w.key = false) ∧
    ∃ (s : State) (c : Ctx) (ts : List LaneTrap), s.sees c ∧ codesOf ts = [0x6002] ∧ alwaysFatal 0x6002 = true ∧
      ∀ h ∈ s.halts, h.wgs.contains c.w.key = false :=
  ⟨⟨probe .trap (args 0 5 0 0 0) id, _, lanesTrap [0] 0x5006, sees_of rfl (by decide), by decide, by decide, by decide⟩,
    ⟨probe .trap (args 0 5 0 0 0) (fun g => handled (trapped g)), _, lanesTrap [0] 0x5006, sees_of rfl (by decide), by decide, by decide, by decide⟩,
    probe .ld (args 4 0 0 0 0) handled, _, lanesTrap [0] 0x6002, sees_of rfl (by decide), by decide, by decide, by decide⟩
theorem witness_ServicesAct : (∃ (s : State) (x : Args) (c : Ctx), s.issues .sysRecord x c ∧ x.a = 0) ∧
    (∃ (s : State) (x : Args) (c : Ctx), s.issues .sysRecord x c ∧ x.a ≠ 0) ∧
    (∃ (s : State) (x : Args) (c : Ctx), s.issues .sysNotify x c ∧ ((s.releaseCore c.w.phys 3).partOf c.w.part).irqJ = 0) ∧
    (∃ (s : State) (c : Ctx) (x : Args), s.issues .sysStop x c) :=
  ⟨⟨probe .sysRecord (args 4 0 2 0 0) id, args 4 0 2 0 0, can_with _ (by decide)⟩,
    ⟨probe .sysRecord (args 4 3 2 0 0) id, args 4 3 2 0 0, can_with _ (by decide)⟩,
    ⟨probe .sysNotify (args 4 1 2 0 0) id, args 4 1 2 0 0, can_with _ (by decide)⟩, can .sysStop (args 0 2 0 0 0) (by decide)⟩
/-- Partition 0 changed. -/
def withPart (s : State) (f : Partition → Partition) : State := s.modPart 0 f
theorem witness_BreakpointStopsOrPasses :
    (∃ (s : State) (x : Args) (c : Ctx), s.issues .bkpt x c ∧ ((s.partOf c.w.part).obs.bken && !c.sp.stop.restarted) = false) ∧
    ∃ (s : State) (x : Args) (c : Ctx), s.issues .bkpt x c ∧ ((s.partOf c.w.part).obs.bken && !c.sp.stop.restarted) = true :=
  ⟨⟨probe .bkpt (args 0 7 0 0 0) id, args 0 7 0 0 0, can_with _ (by decide)⟩,
    withPart (probe .bkpt (args 0 7 0 0 0) id) (fun p => { p with obs := { p.obs with bken := true } }), args 0 7 0 0 0, can_with _ (by decide)⟩
theorem witness_SpecialRegisters : (∃ (s : State) (x : Args) (c : Ctx), s.issues .rds x c ∧ 0x18 ≤ x.a.toNat ∧ c.sp.frame = none) ∧
    (∃ (s : State) (x : Args) (c : Ctx), s.issues .rds x c ∧ x.a.toNat = 0x18 ∧ c.sp.frame.isSome = true) ∧
    (∃ (s : State) (x : Args) (c : Ctx), s.issues .rds x c ∧ x.a.toNat < 0x18 ∧ x.mod.toNat % 2 = 1) ∧
    (∃ (s : State) (x : Args) (c : Ctx), s.issues .wrs x c ∧ x.d = 0x10) ∧ ∃ (s : State) (x : Args) (c : Ctx), s.issues .wrs x c ∧ x.d = 0x11 :=
  ⟨⟨probe .rds (args 4 0x18 0 0 0) id, args 4 0x18 0 0 0, can_with _ (by decide)⟩, ⟨probe .rds (args 4 0x18 0 0 0) trapped, args 4 0x18 0 0 0, can_with _ (by decide)⟩,
    ⟨probe .rds (args 4 0x01 0 0 1) id, args 4 0x01 0 0 1, can_with _ (by decide)⟩,
    ⟨probe .wrs (args 0x10 2 0 0 0) id, args 0x10 2 0 0 0, can_with _ (by decide)⟩, probe .wrs (args 0x11 2 0 0 0) id, args 0x11 2 0 0 0, can_with _ (by decide)⟩

/-- One lane of one group runs, with `p0` a pointer. -/
def ptrProbe (q : Ptr) (o : Op) (x : Args) (f : Group → Group) : State := probe o x (fun g => f (lane0 { g with p := [(0, q.toBits)] }))
/-- Every byte of the accesses lies in a bank. -/
def banked (l : List LaneAcc) : Bool := l.all (fun a => a.places.all (fun p => match p with | .fixed _ => true | _ => false))
theorem inBank_of_banked {l : List LaneAcc} (h : banked l = true) : ∀ a ∈ l, a.inBank := by
  intro a ha p hp
  have := List.all_eq_true.1 (List.all_eq_true.1 h a ha) p hp
  split at this
  · exact ⟨_, rfl⟩
  · exact nomatch this
/-- Every byte of the accesses is reached through L1. -/
def inCache (l : List LaneAcc) : Bool :=
  l.all (fun a => a.q.way false == .l1 && a.places.all (fun p => match p with | .home _ _ false false => true | _ => false))
theorem inL1_of_inCache {l : List LaneAcc} (h : inCache l = true) : ∀ a ∈ l, a.inL1 := by
  intro a ha p hp
  have h1 := Bool.and_eq_true_iff.1 (List.all_eq_true.1 h a ha)
  have := List.all_eq_true.1 h1.2 p hp
  split at this
  · exact ⟨_, _, rfl, beq_iff_eq.1 h1.1⟩
  · exact nomatch this
/-- An operation answers, with no wait. -/
def answers {ε α : Type} (r : Except ε α) : Bool := match r with | .ok _ => true | .error _ => false
theorem ok_of_answers {ε α : Type} {r : Except ε α} (h : answers r = true) : ∃ u, r = .ok u := by
  unfold answers at h; split at h
  · exact ⟨_, rfl⟩
  · exact nomatch h

/-- Derived, and refused: beyond the length, and of a null pointer. -/
theorem witness_PointerDerivation : (∃ (s : State) (x : Args) (c : Ctx), s.issues .pder x c ∧
      answers ((c.ptr x.a.toNat).derive (c.s2 x.b.toNat) (some ((immOf x).getD (c.s2 x.c.toNat)))) = true) ∧
    (∃ (s : State) (x : Args) (c : Ctx), s.issues .pder x c ∧
      answers ((c.ptr x.a.toNat).derive (c.s2 x.b.toNat) (some ((immOf x).getD (c.s2 x.c.toNat)))) = false) ∧
    (∃ (s : State) (x : Args) (c : Ctx), s.issues .padd x c ∧ answers ((c.ptr x.a.toNat).derive ((immOf x).getD (c.s2 x.b.toNat)) none) = true) ∧
    (∃ (s : State) (x : Args) (c : Ctx), s.issues .pfmt x c ∧ (c.ptr x.a.toNat).wf = true) ∧
    (∃ (s : State) (x : Args) (c : Ctx), s.issues .pfmt x c ∧ (c.ptr x.a.toNat).wf = false) ∧
    ∃ (s : State) (x : Args) (c : Ctx), s.issues .pright x c ∧ answers ((c.ptr x.a.toNat).restrict x.b.toNat x.c.toNat) = true :=
  ⟨⟨ptrProbe pad .pder (args 1 0 2 4 0) (withS [(2, 4095), (4, 1)]), args 1 0 2 4 0, can_with _ (by decide)⟩,
    ⟨ptrProbe pad .pder (args 1 0 2 4 0) (withS [(2, 4095), (4, 2)]), args 1 0 2 4 0, can_with _ (by decide)⟩,
    ⟨ptrProbe pad .padd (args 1 0 2 0 0) (withS [(2, 4096)]), args 1 0 2 0 0, can_with _ (by decide)⟩,
    ⟨ptrProbe pad .pfmt (args 1 0 0 6 0) id, args 1 0 0 6 0, can_with _ (by decide)⟩,
    ⟨ptrProbe { pad with top := 1 } .pfmt (args 1 0 0 6 0) id, args 1 0 0 6 0, can_with _ (by decide)⟩,
    ptrProbe pad .pright (args 1 0 0 1 0) id, args 1 0 0 1 0, can_with _ (by decide)⟩
theorem witness_DerivationNeverWidens : (∃ (q q' : Ptr) (off : Nat) (len : Option Nat), q.derive off len = .ok q') ∧
    ∃ (q q' : Ptr) (b m : Nat), q.restrict b m = .ok q' := ⟨⟨pad, _, 16, some 16, rfl⟩, pad, _, 0, 1, rfl⟩
theorem witness_PointerMoves : (∃ (s : State) (c : Ctx) (x : Args), s.issues .pnull x c) ∧
    ∃ (s : State) (x : Args) (c : Ctx), s.issues .pgetQuad x c ∧ x.d.toNat % 4 = 0 :=
  ⟨can .pnull (args 31 0 0 0 0) (by decide), ptrProbe pad .pgetQuad (args 252 0 0 0 6) id, args 252 0 0 0 6, can_with _ (by decide)⟩

theorem witness_LoadsBringElements : ∃ (s : State) (x : Args) (c : Ctx), s.issues .ld x c ∧ s.replayOf c.w.part = none ∧
    (c.ldstLanes s x false (c.active x) .load).1 = [] ∧ (c.ldstLanes s x false (c.active x) .load).2 ≠ [] ∧
    s.holdOf c (c.ldstLanes s x false (c.active x) .load).2 false 1
      ((c.elements x (c.ldstLanes s x false (c.active x) .load).2).map (fun e => (e.1, e.2.2.first))) = none ∧
    s.poisonTraps (c.ldstLanes s x false (c.active x) .load).2 = [] ∧
    banked (c.ldstLanes s x false (c.active x) .load).2 = true ∧ (widestSync (c.ldstLanes s x false (c.active x) .load).2).getD 0 = 0 :=
  ⟨ptrProbe pad .ld (args 4 0 2 6 0) (withV [(2, 4092)]), args 4 0 2 6 0, can_with _ (by decide)⟩
/-- A page that the TLB of core 0 holds for partition 0: 2 MiB from virtual address 0, at physical address 2^30. -/
def mapped (s : State) : State :=
  s.modCore 0 (fun k => { k with tlb := [⟨0, 0, 0x200000, ⟨1, 2 ^ 30, false, true, true, true, false, false, false, false, false, 0⟩, [false]⟩] })
/-- A pointer to the first 4096 bytes of memory, PRIV. -/
def glob : Ptr := { pad with space := 0 }
/-- The last word that the pointer reaches, through L1. -/
theorem witness_LoadsBringElements_cached : ∃ (s : State) (x : Args) (c : Ctx), s.issues .ld x c ∧ s.replayOf c.w.part = none ∧
    (c.ldstLanes s x false (c.active x) .load).1 = [] ∧ (c.ldstLanes s x false (c.active x) .load).2 ≠ [] ∧
    s.holdOf c (c.ldstLanes s x false (c.active x) .load).2 false 1
      ((c.elements x (c.ldstLanes s x false (c.active x) .load).2).map (fun e => (e.1, e.2.2.first))) = none ∧
    s.poisonTraps (c.ldstLanes s x false (c.active x) .load).2 = [] ∧
    inCache (c.ldstLanes s x false (c.active x) .load).2 = true ∧ (widestSync (c.ldstLanes s x false (c.active x) .load).2).getD 0 = 0 ∧
    (uniq ((s.core c.w.phys).linesHeld ++ (wordsOf (c.ldstLanes s x false (c.active x) .load).2 .l1).map (· / 32))).length ≤ l1Lines :=
  ⟨mapped (ptrProbe glob .ld (args 4 0 2 6 0) (withV [(2, 4092)])), args 4 0 2 6 0, can_with _ (by decide)⟩
theorem witness_LoadsBringElements_pairs : ∃ (s : State) (x : Args) (c : Ctx), s.issues .ldVp x c ∧ s.replayOf c.w.part = none ∧
    (c.ldstLanes s x true (c.active x) .load).1 = [] ∧ (c.ldstLanes s x true (c.active x) .load).2 ≠ [] ∧
    s.holdOf c (c.ldstLanes s x true (c.active x) .load).2 false 1
      ((c.elements x (c.ldstLanes s x true (c.active x) .load).2).map (fun e => (e.1, e.2.2.first))) = none ∧
    s.poisonTraps (c.ldstLanes s x true (c.active x) .load).2 = [] :=
  ⟨ptrProbe pad .ldVp (args 4 8 2 6 18) (fun g => { g with v := (List.range 4).map (fun i => ((8 + i) * 64, pad.toBits.extractLsb' (32 * i) 32)), vtags := [128] }),
    args 4 8 2 6 18, can_with _ (by decide)⟩
theorem witness_StoresWriteElements : ∃ (s : State) (x : Args) (c : Ctx), s.issues .st x c ∧ s.replayOf c.w.part = none ∧
    (c.ldstLanes s x false (c.active x) .store).1 = [] ∧ (c.ldstLanes s x false (c.active x) .store).2 ≠ [] ∧
    s.holdOf c (c.ldstLanes s x false (c.active x) .store).2 true 2
      (((c.elements x (c.ldstLanes s x false (c.active x) .store).2).map (c.stored x)).map (fun e => (e.1.a, e.1.sp.first))) = none ∧
    answers (s.releaseLanes c (c.ldstLanes s x false (c.active x) .store).2) = true ∧
    banked (c.ldstLanes s x false (c.active x) .store).2 = true ∧ (widestSync (c.ldstLanes s x false (c.active x) .store).2).getD 0 = 0 :=
  ⟨ptrProbe pad .st (args 4 0 2 6 0) (withV [(2, 4092), (4, 7)]), args 4 0 2 6 0, can_with _ (by decide)⟩
theorem witness_StoresWriteElements_cached : ∃ (s : State) (x : Args) (c : Ctx), s.issues .st x c ∧ s.replayOf c.w.part = none ∧
    (c.ldstLanes s x false (c.active x) .store).1 = [] ∧ (c.ldstLanes s x false (c.active x) .store).2 ≠ [] ∧
    s.holdOf c (c.ldstLanes s x false (c.active x) .store).2 true 2
      (((c.elements x (c.ldstLanes s x false (c.active x) .store).2).map (c.stored x)).map (fun e => (e.1.a, e.1.sp.first))) = none ∧
    answers (s.releaseLanes c (c.ldstLanes s x false (c.active x) .store).2) = true ∧
    inCache (c.ldstLanes s x false (c.active x) .store).2 = true ∧ (widestSync (c.ldstLanes s x false (c.active x) .store).2).getD 0 = 0 ∧
    (s.partOf c.w.part).obs.ckt = 0 ∧
    (uniq ((s.core c.w.phys).linesHeld ++ (wordsOf (c.ldstLanes s x false (c.active x) .store).2 .l1).map (· / 32))).length ≤ l1Lines :=
  ⟨mapped (ptrProbe glob .st (args 4 0 2 6 0) (withV [(2, 4092), (4, 7)])), args 4 0 2 6 0, can_with _ (by decide)⟩
theorem witness_StoresWriteElements_pairs : ∃ (s : State) (x : Args) (c : Ctx), s.issues .stVp x c ∧ s.replayOf c.w.part = none ∧
    (c.ldstLanes s x true (c.active x) .store).1 = [] ∧ (c.ldstLanes s x true (c.active x) .store).2 ≠ [] ∧
    answers (s.releaseLanes c (c.ldstLanes s x true (c.active x) .store).2) = true :=
  ⟨ptrProbe pad .stVp (args 4 8 2 6 18) (fun g => { g with v := (List.range 4).map (fun i => ((8 + i) * 64, pad.toBits.extractLsb' (32 * i) 32)), vtags := [128] }),
    args 4 8 2 6 18, can_with _ (by decide)⟩
/-- A pointer to pointers. -/
def padP : Ptr := { pad with fmt := 0x20 }
/-- The last granule, whose tag is set. -/
theorem witness_PointerLoadsBringGranules : ∃ (s : State) (x : Args) (c : Ctx), s.issues .ldp x c ∧ s.replayOf c.w.part = none ∧
    (c.pairLanes s x false (c.active x) .ldp (fun _ => none)).1 = [] ∧ (c.pairLanes s x false (c.active x) .ldp (fun _ => none)).2 ≠ [] ∧
    s.holdOf c (c.pairLanes s x false (c.active x) .ldp (fun _ => none)).2 false 1
      ((c.pairLanes s x false (c.active x) .ldp (fun _ => none)).2.map (fun a => (a, 0))) = none ∧
    s.poisonTraps (c.pairLanes s x false (c.active x) .ldp (fun _ => none)).2 = [] ∧
    banked (c.pairLanes s x false (c.active x) .ldp (fun _ => none)).2 = true ∧
    ∀ a ∈ (c.pairLanes s x false (c.active x) .ldp (fun _ => none)).2,
      ((wordsOf (c.pairLanes s x false (c.active x) .ldp (fun _ => none)).2 .l1).foldl (fun s k => s.fillGranule c.w.phys c.w.part k)
        (s.prepRead c (c.pairLanes s x false (c.active x) .ldp (fun _ => none)).2)).tagSeen c a = true :=
  ⟨{ ptrProbe padP .ldp (args 1 0 2 0 4) (withS [(2, 4080)]) with tags := [(scratchKey 0 4080) / 16] }, args 1 0 2 0 4, can_with _ (by decide)⟩
theorem witness_PointerLoadsBringGranules_quads : ∃ (s : State) (x : Args) (c : Ctx), s.issues .ldpQ x c ∧ s.replayOf c.w.part = none ∧
    (c.pairLanes s x true (c.active x) .ldp (fun _ => none)).1 = [] ∧ (c.pairLanes s x true (c.active x) .ldp (fun _ => none)).2 ≠ [] ∧
    s.holdOf c (c.pairLanes s x true (c.active x) .ldp (fun _ => none)).2 false 1
      ((c.pairLanes s x true (c.active x) .ldp (fun _ => none)).2.map (fun a => (a, 0))) = none ∧
    s.poisonTraps (c.pairLanes s x true (c.active x) .ldp (fun _ => none)).2 = [] ∧
    banked (c.pairLanes s x true (c.active x) .ldp (fun _ => none)).2 = true ∧
    ∀ a ∈ (c.pairLanes s x true (c.active x) .ldp (fun _ => none)).2,
      ((wordsOf (c.pairLanes s x true (c.active x) .ldp (fun _ => none)).2 .l1).foldl (fun s k => s.fillGranule c.w.phys c.w.part k)
        (s.prepRead c (c.pairLanes s x true (c.active x) .ldp (fun _ => none)).2)).tagSeen c a = true :=
  ⟨{ ptrProbe padP .ldpQ (args 4 0 2 0 1) (withV [(2, 0)]) with tags := [(scratchKey 0 0) / 16] }, args 4 0 2 0 1, can_with _ (by decide)⟩
theorem witness_PointerStoresWriteGranules : ∃ (s : State) (x : Args) (c : Ctx), s.issues .stp x c ∧ s.replayOf c.w.part = none ∧
    (let r := c.pairLanes s x false (c.active x) .stp (fun _ => if !(Ptr.ofBits (c.p x.d.toNat)).wf then some 0x2007 else none)
     r.1 = [] ∧ r.2 ≠ [] ∧ s.holdOf c r.2 true 2 (r.2.map (fun a => (a, 0))) = none ∧ answers (s.releaseLanes c r.2) = true ∧
       banked r.2 = true ∧ (widestSync r.2).getD 0 = 0) :=
  ⟨ptrProbe padP .stp (args 0 0 2 0 4) (withS [(2, 4080)]), args 0 0 2 0 4, can_with _ (by decide)⟩
theorem witness_ReservationsGuardStores : (∃ (s : State) (x : Args) (c : Ctx), s.issues .ldres x c ∧ s.replayOf c.w.part = none ∧
      (let r := c.resvLanes s x (c.active x)
       r.1 = [] ∧ r.2 ≠ [] ∧ s.holdOf c r.2 false 5 (r.2.map (fun a => (a, 0))) = none ∧ s.poisonTraps r.2 = [] ∧ banked r.2 = true)) ∧
    ∃ (s : State) (x : Args) (c : Ctx), s.issues .stcnd x c ∧ s.replayOf c.w.part = none ∧
      (let r := c.resvLanes s x (c.active x)
       r.1 = [] ∧ r.2 ≠ [] ∧ s.holdOf c r.2 true 6 (r.2.map (fun a => (a, 0))) = none ∧
         answers (s.releaseLanes c (r.2.filter (fun a => c.g.resvStatus a == 0))) = true ∧ banked r.2 = true ∧
         r.2.length = 1 ∧ (widestSync r.2).getD 0 = 0) :=
  ⟨⟨ptrProbe pad .ldres (args 4 0 2 6 0) (withV [(2, 4092)]), args 4 0 2 6 0, can_with _ (by decide)⟩,
    ptrProbe pad .stcnd (args 4 0 2 6 0) (withV [(2, 4092)]), args 4 0 2 6 0, can_with _ (by decide)⟩
/-- ATOM ADD of 32 bits, and CAS of 64. -/
theorem witness_AtomicsActOnMemory : (∃ (s : State) (x : Args) (c : Ctx), s.issues .atom x c ∧ s.replayOf c.w.part = none ∧
      (let op := x.mod.toNat / 2
       let z := if x.mod.toNat % 2 == 1 then 8 else 4
       let r := splitLanes ((c.active x).map (fun l =>
         s.checkLane c .atomic (fun q => q.space != 4 && atomFmt op z q.fmt) (atomMore z)
           { lane := l, q := c.ptr x.a.toNat, valid := true, off := (c.v x.b.toNat l).toNat + immOffset x, n := z }))
       r.1 = [] ∧ r.2 ≠ [] ∧ s.holdOf c r.2 true 3 (r.2.map (fun a => (a, 0))) = none ∧ s.poisonTraps r.2 = [] ∧
         answers (s.releaseLanes c r.2) = true ∧ banked r.2 = true ∧ (widestSync r.2).getD 0 = 0)) ∧
    ∃ (s : State) (x : Args) (c : Ctx), s.issues .cas x c ∧ s.replayOf c.w.part = none ∧
      (let z := if x.mod.toNat % 2 == 1 then 8 else 4
       let r := splitLanes ((c.active x).map (fun l =>
         s.checkLane c .atomic (fun q => q.space != 4 && atomFmt 9 z q.fmt) (atomMore z)
           { lane := l, q := c.ptr x.a.toNat, valid := true, off := (c.v x.b.toNat l).toNat + immOffset x, n := z }))
       r.1 = [] ∧ r.2 ≠ [] ∧ s.holdOf c r.2 true 4 (r.2.map (fun a => (a, 0))) = none ∧ s.poisonTraps r.2 = [] ∧
         answers (s.releaseLanes c r.2) = true ∧ banked r.2 = true ∧ (widestSync r.2).getD 0 = 0) :=
  ⟨⟨ptrProbe { pad with fmt := 6 } .atom (args 4 0 2 6 0) (withV [(2, 4092)]), args 4 0 2 6 0, can_with _ (by decide)⟩,
    ptrProbe pad .cas (args 4 0 2 6 1) (withV [(2, 4088)]), args 4 0 2 6 1, can_with _ (by decide)⟩
theorem witness_ScopesAndCodeLines : (∃ (s : State) (x : Args) (c : Ctx), s.issues .widen x c ∧ (c.ptr x.a.toNat).wf = true ∧
      covers (c.ptr x.a.toNat).scope (c.ptr x.a.toNat).origin c.core = true ∧ (c.ptr x.a.toNat).scope ≤ x.b.toNat ∧
      x.b.toNat ≤ (c.ptr x.a.toNat).ceil ∧ x.b.toNat < 4 ∧
      s.rangeUnacked c (c.ptr x.a.toNat) = false) ∧
    (∃ (s : State) (x : Args) (c : Ctx), s.issues .narrow x c ∧ (c.ptr x.a.toNat).wf = true ∧
      covers (c.ptr x.a.toNat).scope (c.ptr x.a.toNat).origin c.core = true ∧ x.b.toNat ≤ (c.ptr x.a.toNat).scope) ∧
    (∃ (s : State) (x : Args) (c : Ctx), s.issues .icinv x c ∧ (c.ptr x.a.toNat).wf = true ∧ (c.ptr x.a.toNat).space = 4 ∧
      (c.ptr x.a.toNat).w = true ∧ covers (c.ptr x.a.toNat).scope (c.ptr x.a.toNat).origin c.core = true ∧
      s.rangeUnacked c (c.ptr x.a.toNat) = false) ∧
    (∃ (s : State) (x : Args) (c : Ctx), s.issues .pref x c ∧ x.mod.toNat % 2 = 1) ∧
    ∃ (s : State) (x : Args) (c : Ctx), s.issues .pref x c ∧
      (let as := (splitLanes ((c.active x).map (fun l =>
         s.checkLane c .load (fun q => fmtPlain q.fmt) (fun _ _ => none) (c.laneAsk x false l (c.offset x l) 1)))).2
       as ≠ [] ∧ (uniq ((s.core c.w.phys).linesHeld ++ as.flatMap (fun a => a.places.map (fun p => p.key / 128)))).length ≤ l1Lines) :=
  ⟨⟨ptrProbe { glob with ceil := 3 } .widen (args 1 0 3 0 0) id, args 1 0 3 0 0, can_with _ (by decide)⟩,
    ⟨ptrProbe { glob with cls := 2, scope := 1, ceil := 3 } .narrow (args 1 0 1 0 0) id, args 1 0 1 0 0, can_with _ (by decide)⟩,
    ⟨ptrProbe { glob with space := 4 } .icinv (args 0 0 0 0 0) id, args 0 0 0 0 0, can_with _ (by decide)⟩,
    ⟨probe .pref (args 0 0 0 0 1) id, args 0 0 0 0 1, can_with _ (by decide)⟩,
    mapped (ptrProbe glob .pref (args 0 0 2 0 0) (withV [(2, 4092)])), args 0 0 2 0 0, can_with _ (by decide)⟩
theorem witness_CodebookWeights : ∃ (s : State) (x : Args) (c : Ctx), s.issues .cbexp x c ∧
    (let index := fun (l : Nat) => elemAt 16 (x.mod.toNat / 8 % 2) (c.v x.a.toNat l).toNat
     let r := splitLanes ((c.active x).map (fun l =>
       s.checkLane c .codebook (fun q => (q.fmt == 0x16 || q.fmt == 0) && (q.space == 1 || q.space == 2)) (fun _ _ => none)
         { lane := l, q := c.ptr x.b.toNat, valid := true, off := 4 * (index l / 256), n := 4 }))
     r.1 = [] ∧ r.2 ≠ [] ∧ s.accessHold c r.2 false = none ∧ s.poisonTraps r.2 = []) :=
  ⟨ptrProbe pad .cbexp (args 8 2 0 0 0) (withV [(2, 0xFFFF)]), args 8 2 0 0 0, can_with _ (by decide)⟩

/-- The state after an instruction or event. -/
def ran (i : Instr) (s : State) : State := match exec i s with | .next t => t | _ => s
/-- A record at offset 8192 of the scratchpad: rows of `n` elements, side by side on both sides. -/
def copyOf (n : Byte) (s : State) : State :=
  { s with mem := [(scratchKey 0 8192, 1)] ++ (if n = 0 then [] else [(scratchKey 0 8208, n)]) ++ [(scratchKey 0 8212, 1), (scratchKey 0 8218, 1)] }
/-- Two pointers, to the first and the second 4096 bytes of the scratchpad, and the record's offset. -/
def twoPads (g : Group) : Group := { g with s := [(8, 8192)], p := [(0, pad.toBits), (1, { pad with base := 4096 }.toBits)] }
/-- The engine of core 0 holds a copy of 16 bytes within the scratchpad. -/
def copying : State := ran (.stream (args 2 0 1 8 0)) (copyOf 16 (probe .stream (args 2 0 1 8 0) twoPads))
/-- A barrier at the start of the scratchpad of core 0. -/
def withBarrier (b : Barrier) (s : State) : State := s.setBarrier (scratchKey 0 0) b
/-- A barrier of which one arrival of `n` is pending. -/
def oneLeft (n : Nat) (tx : Int) : Barrier := ⟨n, 1, 0, tx, true, 0⟩
/-- The operand names the barrier at the start of the scratchpad of core 0, and nothing holds the action. -/
def unheld (own write : Bool) (s : State) (x : Args) (c : Ctx) : Bool :=
  (s.replayOf c.w.part).isNone && c.w.barrierKey own (c.s x.a.toNat) == some (scratchKey 0 0) &&
    !s.scratchBusy (keyCore (scratchKey 0 0)) (scratchKey 0 0 % 2 ^ 21) (scratchKey 0 0 % 2 ^ 21 + 16) write &&
    !s.barrierAhead c (scratchKey 0 0)
/-- The barrier that the witnesses act on. -/
def theBarrier (s : State) : Barrier := s.barrierAt (scratchKey 0 0)
/-- An operation of the engine of core 0 that writes the barrier's bytes. -/
def overBarrier (s : State) : State :=
  s.modCore 0 (fun k => { k with ops := (copying.core 0).ops.map (fun o => { o with intervals := [⟨0, 16, true, false⟩], entry := true }) })
/-- Another split, held for the barrier since an earlier number. -/
def aheadOf (g : Group) : Group :=
  { g with splits := g.splits ++ g.splits.map (fun sp => { sp with id := 1, hold := .scoreboard, waitOn := some (0, scratchKey 0 0) }) }
/-- Counts of 1 and 65535; the last arrival; the greatest sum of bytes; a phase that has passed, and one that has not. -/
theorem witness_BarrierActions :
    (∃ (s : State) (x : Args) (c : Ctx), s.issues .binit x c ∧ unheld true true s x c = true ∧ s.barrierBusy (scratchKey 0 0) = false ∧
      (c.s x.b.toNat).toNat = 1) ∧
    (∃ (s : State) (x : Args) (c : Ctx), s.issues .binit x c ∧ unheld true true s x c = true ∧ s.barrierBusy (scratchKey 0 0) = false ∧
      (c.s x.b.toNat).toNat = 65535) ∧
    (∃ (s : State) (x : Args) (c : Ctx), s.issues .barv x c ∧ unheld false true s x c = true ∧ (theBarrier s).valid = true ∧
      (theBarrier s).pendArr = 1 ∧
      (let n := if x.mod.toNat % 2 = 1 then c.s2 x.b.toNat else 0
       n < 2 ^ 47 ∧ txFits ((theBarrier s).pendTx + n) = true)) ∧
    (∃ (s : State) (x : Args) (c : Ctx), s.issues .bexp x c ∧ unheld false true s x c = true ∧ (theBarrier s).valid = true ∧
      c.s2 x.b.toNat = 1 ∧ (theBarrier s).pendTx = 2 ^ 47 - 2 ∧ txFits ((theBarrier s).pendTx + c.s2 x.b.toNat) = true) ∧
    (∃ (s : State) (x : Args) (c : Ctx), s.issues .binval x c ∧ unheld true true s x c = true ∧ s.barrierBusy (scratchKey 0 0) = false ∧
      (theBarrier s).valid = true) ∧
    (∃ (s : State) (x : Args) (c : Ctx), s.issues .bwait x c ∧ unheld false false s x c = true ∧ (theBarrier s).valid = true ∧
      (theBarrier s).phase % 2 ≠ (c.s x.b.toNat).toNat % 2) ∧
    (∃ (s : State) (x : Args) (c : Ctx), s.issues .bwait x c ∧ unheld false false s x c = true ∧ (theBarrier s).valid = true ∧
      (theBarrier s).phase % 2 = (c.s x.b.toNat).toNat % 2) ∧
    ∃ (s : State) (x : Args) (c : Ctx), s.issues .btest x c ∧ unheld false false s x c = true ∧ (theBarrier s).valid = true :=
  ⟨⟨probe .binit (args 0 1 2 0 0) (withS [(2, 1)]), args 0 1 2 0 0, can_with _ (by decide)⟩,
    ⟨probe .binit (args 0 1 2 0 0) (withS [(2, 65535)]), args 0 1 2 0 0, can_with _ (by decide)⟩,
    ⟨withBarrier (oneLeft 4 0) (probe .barv (args 0 1 0 0 0) id), args 0 1 0 0 0, can_with _ (by decide)⟩,
    ⟨withBarrier (oneLeft 4 (2 ^ 47 - 2)) (probe .bexp (args 0 1 2 0 0) (withS [(2, 1)])), args 0 1 2 0 0, can_with _ (by decide)⟩,
    ⟨withBarrier (oneLeft 4 0) (probe .binval (args 0 1 0 0 0) id), args 0 1 0 0 0, can_with _ (by decide)⟩,
    ⟨withBarrier (oneLeft 4 0) (probe .bwait (args 0 1 2 0 0) (withS [(2, 1)])), args 0 1 2 0 0, can_with _ (by decide)⟩,
    ⟨withBarrier (oneLeft 4 0) (probe .bwait (args 0 1 2 0 0) id), args 0 1 2 0 0, can_with _ (by decide)⟩,
    withBarrier (oneLeft 4 0) (probe .btest (args 4 1 2 0 0) id), args 4 1 2 0 0, can_with _ (by decide)⟩
/-- Held by an operation of the engine, and by an action that came before. -/
theorem witness_BarrierActions_held :
    (∃ (s : State) (x : Args) (c : Ctx), s.issues .barv x c ∧ (s.replayOf c.w.part).isNone = true ∧
      c.w.barrierKey false (c.s x.a.toNat) = some (scratchKey 0 0) ∧
      s.scratchBusy (keyCore (scratchKey 0 0)) (scratchKey 0 0 % 2 ^ 21) (scratchKey 0 0 % 2 ^ 21 + 16) true = true) ∧
    ∃ (s : State) (x : Args) (c : Ctx), s.issues .btest x c ∧ (s.replayOf c.w.part).isNone = true ∧
      c.w.barrierKey false (c.s x.a.toNat) = some (scratchKey 0 0) ∧ s.barrierAhead c (scratchKey 0 0) = true :=
  ⟨⟨overBarrier (probe .barv (args 0 1 0 0 0) id), args 0 1 0 0 0, can_with _ (by decide)⟩,
    { probe .btest (args 4 1 2 0 0) aheadOf with serial := 5 }, args 4 1 2 0 0, can_with _ (by decide)⟩
/-- An operand above the allotment; busy; counts of 0 and 65536; not valid; no arrival left; a count of 2^47. -/
theorem witness_BarrierFaults :
    (∃ (s : State) (x : Args) (c : Ctx), s.issues .binit x c ∧ (s.replayOf c.w.part).isNone = true ∧
      c.w.barrierKey true (c.s x.a.toNat) = none) ∧
    (∃ (s : State) (x : Args) (c : Ctx), s.issues .binit x c ∧ unheld true true s x c = true ∧ s.barrierBusy (scratchKey 0 0) = true) ∧
    (∃ (s : State) (x : Args) (c : Ctx), s.issues .binit x c ∧ unheld true true s x c = true ∧ s.barrierBusy (scratchKey 0 0) = false ∧
      (c.s x.b.toNat).toNat = 0) ∧
    (∃ (s : State) (x : Args) (c : Ctx), s.issues .binit x c ∧ unheld true true s x c = true ∧ s.barrierBusy (scratchKey 0 0) = false ∧
      (c.s x.b.toNat).toNat = 65536) ∧
    (∃ (s : State) (x : Args) (c : Ctx), s.issues .binval x c ∧ unheld true true s x c = true ∧ (theBarrier s).valid = true ∧
      s.barrierBusy (scratchKey 0 0) = true) ∧
    (∃ (s : State) (x : Args) (c : Ctx), s.issues .barv x c ∧ unheld false true s x c = true ∧ (theBarrier s).valid = false) ∧
    (∃ (s : State) (x : Args) (c : Ctx), s.issues .barv x c ∧ unheld false true s x c = true ∧ (theBarrier s).valid = true ∧
      (theBarrier s).pendArr = 0) ∧
    ∃ (s : State) (x : Args) (c : Ctx), s.issues .bexp x c ∧ unheld false true s x c = true ∧ (theBarrier s).valid = true ∧
      c.s2 x.b.toNat = 2 ^ 47 :=
  ⟨⟨probe .binit (args 0 1 2 0 0) (withS [(1, 0x400)]), args 0 1 2 0 0, can_with _ (by decide)⟩,
    ⟨withBarrier (oneLeft 4 1) (probe .binit (args 0 1 2 0 0) id), args 0 1 2 0 0, can_with _ (by decide)⟩,
    ⟨probe .binit (args 0 1 2 0 0) id, args 0 1 2 0 0, can_with _ (by decide)⟩,
    ⟨probe .binit (args 0 1 2 0 0) (withS [(2, 65536)]), args 0 1 2 0 0, can_with _ (by decide)⟩,
    ⟨withBarrier (oneLeft 4 1) (probe .binval (args 0 1 0 0 0) id), args 0 1 0 0 0, can_with _ (by decide)⟩,
    ⟨probe .barv (args 0 1 0 0 0) id, args 0 1 0 0 0, can_with _ (by decide)⟩,
    ⟨withBarrier ⟨4, 0, 0, 5, true, 0⟩ (probe .barv (args 0 1 0 0 0) id), args 0 1 0 0 0, can_with _ (by decide)⟩,
    withBarrier (oneLeft 4 0) (probe .bexp (args 0 1 2 0 0) (withS [(3, 0x8000)])), args 0 1 2 0 0, can_with _ (by decide)⟩
/-- A ticket reached, and the next. -/
theorem witness_TimelineInstructions : (∃ (s : State) (x : Args) (c : Ctx), s.issues .tlwait x c ∧ c.tlValue x = (c.w.timeline x.a.toNat).reached) ∧
    (∃ (s : State) (x : Args) (c : Ctx), s.issues .tlwait x c ∧ c.tlValue x = (c.w.timeline x.a.toNat).reached + 1) ∧
    (∃ (s : State) (c : Ctx) (x : Args), s.issues .tltest x c) ∧ (∃ (s : State) (c : Ctx) (x : Args), s.issues .tlreadIss x c) ∧
    ∃ (s : State) (c : Ctx) (x : Args), s.issues .tlreadDone x c :=
  ⟨⟨probe .tlwait (args 0 7 2 0 0) id, args 0 7 2 0 0, can_with _ (by decide)⟩, ⟨probe .tlwait (args 0 7 2 0 0) (withS [(2, 1)]), args 0 7 2 0 0, can_with _ (by decide)⟩,
    can .tltest (args 4 0 2 0 0) (by decide), can .tlreadIss (args 4 0 0 0 0) (by decide), can .tlreadDone (args 4 0 0 0 1) (by decide)⟩
theorem witness_LaunchRegistersWork : (∃ (s : State) (x : Args) (c : Ctx), s.issues .launch x c ∧
      (c.ptr x.a.toNat).check c.core c.w.gangSize 0 896 .launch true = none) ∧
    ∃ (s : State) (x : Args) (c : Ctx), s.issues .launch x c ∧ (c.ptr x.a.toNat).check c.core c.w.gangSize 0 896 .launch true = some 0x2001 :=
  ⟨⟨ptrProbe { glob with len := 896 } .launch (args 4 0 0 0 0) id, args 4 0 0 0 0, can_with _ (by decide)⟩,
    ptrProbe { glob with len := 895 } .launch (args 4 0 0 0 0) id, args 4 0 0 0 0, can_with _ (by decide)⟩

/-- A copy within the scratchpad, of `n` elements, may enter. -/
def copyReady (s : State) (x : Args) (c : Ctx) (n : Nat) : Bool :=
  let a := c.ptr x.a.toNat
  let b := c.ptr x.b.toNat
  let off := (c.s x.c.toNat).toNat
  let lo := c.w.scratchOff
  let hi := lo + c.w.scratchLen
  c.mayStream && c.streamPtrs a b == none && off % 16 == 0 && decide (lo ≤ off) && decide (off + 160 ≤ hi) &&
    !s.scratchBusy c.w.phys off (off + 160) false && s.poison == [] && formatPairOk a.fmt b.fmt && sidesOk false a b &&
    x.mod.toNat / 8 % 2 == 0 && decide (s.entriesHeld c.w.phys < 32) && !s.askedBefore c .entry && (s.op? s.serial).isNone &&
    !(s.partOf c.w.part).obs.trace.getLsbD 0 &&
    (shapeOf (s.bytes (scratchKey c.w.phys off) 160) false lo hi).any (fun sh =>
      let o : EngineOp := { (c.newEngineOp s .stream) with src := c.p x.a.toNat, dst := c.p x.b.toNat, dims := sh.dims }
      let onto := o.destHull
      let from_ := o.srcHull
      productOf sh.dims == n && (n == 0 || (decide (0 ≤ onto.1) && b.boundsOk c.w.gangSize onto.1.toNat (onto.2 - onto.1).toNat &&
        decide ((a.base : Int) + from_.2 ≤ (b.base : Int) + onto.1))))
/-- A copy of 16 elements, and one of none; a decoding into the scratchpad. -/
theorem witness_StreamsEnterScoreboard : (∃ (s : State) (x : Args) (c : Ctx), s.issues .stream x c ∧ copyReady s x c 16 = true) ∧
    (∃ (s : State) (x : Args) (c : Ctx), s.issues .stream x c ∧ copyReady s x c 0 = true) ∧
    ∃ (s : State) (x : Args) (c : Ctx), s.issues .sdec x c ∧ c.mayStream = true ∧ c.streamPtrs (c.ptr x.a.toNat) (c.ptr x.b.toNat) = none ∧
      (c.ptr x.a.toNat).fmt = 0 ∧ sidesOk true (c.ptr x.a.toNat) (c.ptr x.b.toNat) = true ∧ x.mod.toNat / 8 % 2 = 0 ∧
      s.entriesHeld c.w.phys < 32 ∧ s.askedBefore c .entry = false ∧ (s.op? s.serial).isNone = true ∧
      (s.partOf c.w.part).obs.trace.getLsbD 0 = false :=
  ⟨⟨copyOf 16 (probe .stream (args 2 0 1 8 0) twoPads), args 2 0 1 8 0, can_with _ (by decide)⟩,
    ⟨copyOf 0 (probe .stream (args 2 0 1 8 7) twoPads), args 2 0 1 8 7, can_with _ (by decide)⟩,
    probe .sdec (args 2 0 1 0 0) twoPads, args 2 0 1 0 0, can_with _ (by decide)⟩
/-- Rows of two bytes of index at offset 0x3000: a gather of 2 rows of 16. -/
def gatherOf (s : State) : State :=
  { s with mem := [(scratchKey 0 8192, 2), (scratchKey 0 8193, 6), (scratchKey 0 8197, 0x30), (scratchKey 0 8208, 16), (scratchKey 0 8212, 1),
      (scratchKey 0 8218, 1), (scratchKey 0 8224, 2), (scratchKey 0 8228, 16), (scratchKey 0 8234, 16)] }
theorem witness_StreamsEnterScoreboard_gather : ∃ (s : State) (x : Args) (c : Ctx), s.issues .sgath x c ∧ c.mayStream = true ∧
    c.streamPtrs (c.ptr x.a.toNat) (c.ptr x.b.toNat) = none ∧ sidesOk false (c.ptr x.a.toNat) (c.ptr x.b.toNat) = true ∧
    (shapeOf (s.bytes (scratchKey c.w.phys (c.s x.c.toNat).toNat) 160) true c.w.scratchOff (c.w.scratchOff + c.w.scratchLen)).isSome = true :=
  ⟨gatherOf (probe .sgath (args 2 0 1 8 0) twoPads), args 2 0 1 8 0, can_with _ (by decide)⟩

/-- A format block at offset 0x1000: A and B of format 0x13, one row and one column of one element. -/
def withBlock (s : State) : State :=
  { s with mem := [(scratchKey 0 0x1000, 0x13), (scratchKey 0 0x1001, 0x13), (scratchKey 0 0x1002, 0x80), (scratchKey 0 0x1014, 1),
      (scratchKey 0 0x1015, 1), (scratchKey 0 0x1016, 1)] }
/-- A step of `n` may be queued. -/
def stepReady (av : Bool) (one : Bool) (n : Nat) (s : State) (x : Args) (c : Ctx) : Bool :=
  let lo := c.w.scratchOff
  let hi := lo + c.w.scratchLen
  let off := (c.s x.c.toNat).toNat
  let blk := s.bytes (scratchKey c.w.phys off) 32
  let f := formatBlockOf blk
  let words := (if av then [0, 0] else [c.s x.a.toNat, c.s (x.a.toNat + 1)]) ++ [c.s x.b.toNat, c.s (x.b.toNat + 1)]
  (one || (c.s (x.c.toNat + 1)).toNat == n) && off % 32 == 0 && decide (lo ≤ off) && decide (off + 32 ≤ hi) &&
    !s.scratchBusy c.w.phys off (off + 32) false && s.poison == [] && formatBlockOk blk av lo hi &&
    (matOperand (words.getD 0 0) (words.getD 1 0)).any (fun a => (matOperand (words.getD 2 0) (words.getD 3 0)).any (fun b =>
      ((if av then [] else [a.hull f.afmt f.mrows n]) ++ (if f.ascl then [scaleHull f.ascale f.astep f.mrows n] else []) ++
        b.hull f.bfmt f.ncols n :: (if f.bscl then [scaleHull f.bscale f.bstep f.ncols n] else [])).all (fun h => hullIn h lo hi))) &&
    f.bfmt != 0x16 && decide ((s.stepQueue c.w.phys).length < 8) && !s.askedBefore c .sequencer && decide (s.entriesHeld c.w.phys < 32) &&
    !s.askedBefore c .entry
/-- Loops of no step and of 2^16 - 1; a step; one with A from registers; the accumulators. -/
theorem witness_MatrixOperations : (∃ (s : State) (x : Args) (c : Ctx), s.issues .mloop x c ∧ stepReady false false 0 s x c = true) ∧
    (∃ (s : State) (x : Args) (c : Ctx), s.issues .mloop x c ∧ stepReady false false (2 ^ 16 - 1) s x c = true) ∧
    (∃ (s : State) (x : Args) (c : Ctx), s.issues .mstep x c ∧ stepReady false true 1 s x c = true) ∧
    (∃ (s : State) (x : Args) (c : Ctx), s.issues .mstepV x c ∧ stepReady true true 1 s x c = true) ∧
    (∃ (s : State) (c : Ctx) (x : Args), s.issues .aswap x c) ∧ (∃ (s : State) (c : Ctx) (x : Args), s.issues .azero x c) ∧
    (∃ (s : State) (x : Args) (c : Ctx), s.issues .aread x c ∧ (immOf x).getD (c.s x.b.toNat).toNat + countOf (x.mod.toNat % 4) = 64 ∧
      s.rowsWait c x.a.toNat 64 = false) ∧
    (∃ (s : State) (x : Args) (c : Ctx), s.issues .astore x c ∧
      (let q := c.ptr x.a.toNat
       let rb := (c.s x.b.toNat).toNat
       let cnt := rb / 256 % 256
       let pitch := (c.s x.c.toNat).toNat
       let last := (cnt - 1) * pitch + 63
       let n := if fmtWidth q.fmt = 4 then last / 2 + 1 else (last + 1) * (fmtWidth q.fmt / 8)
       rb < 2 ^ 16 ∧ cnt ≠ 0 ∧ rb % 256 + cnt = 64 ∧ pitch < 2 ^ 24 ∧ q.space = 1 ∧
         q.check c.core c.w.gangSize 0 n .tileStore (storeFmt q.fmt) = none ∧ s.entriesHeld c.w.phys < 32 ∧ s.askedBefore c .entry = false ∧
         s.rowsWait c x.d.toNat 64 = false)) ∧
    ∃ (s : State) (c : Ctx) (x : Args), s.issues .amark x c :=
  ⟨⟨withBlock (probe .mloop (args 0 0 2 8 0) (withS [(8, 0x1000)])), args 0 0 2 8 0, can_with _ (by decide)⟩,
    ⟨withBlock (probe .mloop (args 0 0 2 8 0) (withS [(8, 0x1000), (9, 0xFFFF)])), args 0 0 2 8 0, can_with _ (by decide)⟩,
    ⟨withBlock (probe .mstep (args 3 0 2 8 0) (withS [(8, 0x1000)])), args 3 0 2 8 0, can_with _ (by decide)⟩,
    ⟨withBlock (probe .mstepV (args 0 0x20 2 8 16) (withS [(8, 0x1000)])), args 0 0x20 2 8 16, can_with _ (by decide)⟩,
    can .aswap (args 0 0 0 0 0) (by decide), can .azero (args 0 0 0 0 0) (by decide),
    ⟨probe .aread (args 4 0 2 0x10 0) (withS [(2, 63)]), args 4 0 2 0x10 0, can_with _ (by decide)⟩,
    ⟨ptrProbe { pad with fmt := 0x10 } .astore (args 0 0 2 4 0) (withS [(2, 0x013F)]), args 0 0 2 4 0, can_with _ (by decide)⟩,
    can .amark (args 4 0 0 0 0) (by decide)⟩
/-- The workgroup's image is legacy, and no row of tile 0 of its core is ready. -/
def notReady (s : State) : State := (s.modWg 0 (fun w => { w with legacy := true })).modTile 0 0 (fun t => { t with watermark := 0 })
/-- Of a legacy image, whose tile is not ready. -/
theorem witness_MatrixOperations_rows : (∃ (s : State) (x : Args) (c : Ctx), s.issues .aread x c ∧
      (immOf x).getD (c.s x.b.toNat).toNat + countOf (x.mod.toNat % 4) ≤ 64 ∧
      s.rowsWait c x.a.toNat ((immOf x).getD (c.s x.b.toNat).toNat + countOf (x.mod.toNat % 4)) = true) ∧
    ∃ (s : State) (x : Args) (c : Ctx), s.issues .astore x c ∧
      (let q := c.ptr x.a.toNat
       let rb := (c.s x.b.toNat).toNat
       let cnt := rb / 256 % 256
       let pitch := (c.s x.c.toNat).toNat
       let last := (cnt - 1) * pitch + 63
       let n := if fmtWidth q.fmt = 4 then last / 2 + 1 else (last + 1) * (fmtWidth q.fmt / 8)
       rb < 2 ^ 16 ∧ cnt ≠ 0 ∧ rb % 256 + cnt ≤ 64 ∧ pitch < 2 ^ 24 ∧ q.space = 1 ∧
         q.check c.core c.w.gangSize 0 n .tileStore (storeFmt q.fmt) = none ∧ s.entriesHeld c.w.phys < 32 ∧ s.askedBefore c .entry = false ∧
         s.rowsWait c x.d.toNat (rb % 256 + cnt) = true) :=
  ⟨⟨(notReady (probe .aread (args 4 0 2 0x10 0) id)), args 4 0 2 0x10 0, can_with _ (by decide)⟩,
    notReady (ptrProbe { pad with fmt := 0x10 } .astore (args 0 0 2 4 0) (withS [(2, 0x0100)])), args 0 0 2 4 0, can_with _ (by decide)⟩
theorem witness_TransformOperations : (∃ (s : State) (x : Args) (c : Ctx), s.issues .xtopk x c ∧ s.pipeBusy c.w.phys = false ∧
      s.askedBefore c .pipe = false ∧
      (let q := c.ptr x.b.toNat
       let off := (c.s x.c.toNat).toNat
       q.check c.core c.w.gangSize off 512 .topk (q.fmt == 0x10 || q.fmt == 0) = none ∧ q.space = 1 ∧ off % 4 = 0 ∧
         s.scratchBusy c.w.phys (q.base + off) (q.base + off + 512) true = false ∧ s.poison = [])) ∧
    (∃ (s : State) (x : Args) (c : Ctx), s.issues .xqnt x c ∧ s.pipeBusy c.w.phys = false ∧ s.askedBefore c .pipe = false) ∧
    ∃ (s : State) (x : Args) (c : Ctx), s.issues .xdqnt x c ∧ s.pipeBusy c.w.phys = false ∧ s.askedBefore c .pipe = false := by
  exact ⟨⟨ptrProbe pad .xtopk (args 8 2 0 4 15) id, args 8 2 0 4 15, can_with _ (by decide)⟩,
    ⟨ptrProbe pad .xqnt (args 8 2 4 0x13 0) id, args 8 2 4 0x13 0, can_with _ (by decide)⟩,
    ptrProbe pad .xdqnt (args 8 2 4 0x13 0) id, args 8 2 4 0x13 0, can_with _ (by decide)⟩

/-- What a split sees meets a condition. -/
theorem can_see {s : State} {g sid : Nat} (P : Ctx → Prop) [∀ c, Decidable (P c)] (h : (s.ctx? g sid).any (fun c => decide (P c)) = true) :
    ∃ c, s.ctx? g sid = some c ∧ P c := by
  cases hs : s.ctx? g sid with
  | none => rw [hs] at h; exact nomatch h
  | some c => exact ⟨c, rfl, of_decide_eq_true (by rw [hs] at h; exact h)⟩
/-- What an option holds meets a condition. -/
theorem can_take {α : Type} {r : Option α} (P : α → Prop) [∀ c, Decidable (P c)] (h : r.any (fun c => decide (P c)) = true) :
    ∃ c, r = some c ∧ P c := by
  cases r with
  | none => exact nomatch h
  | some c => exact ⟨c, rfl, of_decide_eq_true h⟩
/-- One split of one group, changed. -/
def splitAt (f : Split → Split) : State :=
  probe .nop (args 0 0 0 0 0) (fun g => { g with splits := g.splits.map f, fetchPtr := { glob with space := 4, len := 0x58, w := false, x := true, p := false }.toBits })
/-- The split stands at the start of the clause at an offset, not fetched. -/
def unfetched (pc : Word) (sp : Split) : Split := { sp with pc := pc, word := 0, clause := [] }
/-- Twelve flags that count one instruction each. -/
def counting (g : Group) : Group := { g with flags := (List.range 12).map (fun k => (k, 1)) }
/-- A packet of partition 0 from package 1, one byte at the start of line 0. -/
def packet0 (kind op : Nat) (ordered : Bool) (snapshot : List Nat) : Packet :=
  { source := 1, part := 0, path := 0, seq := 1, kind := kind, line := 0, bytes := if kind = 2 then [] else [(0, 5)], op := op, width := 4, fmt := 6,
    lanes := if kind = 2 then [⟨0, 124, 1, 0⟩] else [], group := 0, tagged := false, ordered := ordered, snapshot := snapshot, replay := false }
/-- A packet sent for the operation outstanding. -/
def sent0 (engine : Bool) : SentPacket :=
  { dest := 1, pkt := packet0 0 0 false [], gid := 1, opId := 5, engine := engine, lanes := 1, va := 0, pinnedDown := false, keep := none,
    sync := false, strong := false, elems := [] }
/-- One split stands before a clause that is the last of a page of 2 MiB and goes on in the next; the page is mapped, the next one, strongly
ordered, is or is not. -/
def pageEnd (next : Bool) : State :=
  let s := probe .nop (args 0 0 0 0 0) (fun g => { g with
    splits := g.splits.map (unfetched 0)
    fetchPtr := { glob with space := 4, base := 0x1FFFB8, len := 0x58, w := false, x := true, p := false }.toBits })
  let leaf : Leaf := ⟨1, 2 ^ 30, false, true, true, true, false, false, false, false, false, 0⟩
  { s.modCore 0 (fun k => { k with tlb := ⟨0, 0, 0x200000, leaf, [false]⟩ ::
      if next then [⟨0, 0x200000, 0x200000, { leaf with pa := 2 ^ 30 + 0x200000, ord := true }, [false]⟩] else [] }) with
    mem := [(2 ^ 30 + 0x1FFFF8, 1)] }
/-- One packet of group 1 is not acknowledged. -/
def unacked (s : State) : State := { s with sent := [sent0 false] }
/-- A page of strongly ordered memory in place of the one mapped. -/
def ordered (s : State) : State :=
  s.modCore 0 (fun k => { k with tlb := k.tlb.map (fun e => { e with leaf := { e.leaf with ord := true } }) })
/-- What the fetch of the header answers. -/
def headerFetch (s : State) (c : Ctx) : Except (Option (Nat × Nat × Option Nat)) (State × List DWord) := s.fetchWords c (c.codeVa c.sp.pc.toNat) 1
/-- What the fetch of the words after the header answers, where the header has been fetched and the whole clause passes its checks. -/
def restFetch (s : State) (c : Ctx) : Option (Except (Option (Nat × Nat × Option Nat)) (State × List DWord)) :=
  match headerFetch s c with
  | .ok (s1, [h]) => if c.fetchCheck c.sp.pc.toNat (8 * ((headerOf h).len + 1)) == none then
      some (s1.fetchWords c (c.codeVa c.sp.pc.toNat + 8) (headerOf h).len) else none
  | _ => none
/-- A fetch meets a fault, cannot be made yet, or brings words. -/
def isFault {α β : Type} (r : Except (Option α) β) : Bool := match r with | .error (some _) => true | _ => false
def isLater {α β : Type} (r : Except (Option α) β) : Bool := match r with | .error none => true | _ => false
/-- A split of group 1 that may fetch. -/
def fetching (s : State) (P : Ctx → Prop) : Prop :=
  ∃ c, s.ctx? 1 0 = some c ∧ c.fetches = true ∧ c.sp.atRpc = false ∧ P c
/-- A split of group 1 at a clause start. -/
def starting (s : State) (P : Ctx → Prop) : Prop :=
  ∃ c, s.ctx? 1 0 = some c ∧ c.runnable = true ∧ (c.sp.word = 0 ∨ c.sp.skipRpc = true) ∧ c.g.replaceParent s.free 0 = c.g ∧
    (∀ sp ∈ c.g.splits, sp.spilled = false) ∧ P c
/-- A split of group 1 that waits for its clause. -/
def awaiting (s : State) (P : Ctx → DWord → List DWord → Prop) : Prop :=
  ∃ c, s.ctx? 1 0 = some c ∧ c.sp.clause ≠ [] ∧ c.mayMove = true ∧
    (c.sp.state = .waitingFlags ∨ c.sp.state = .inTrap ∧ c.sp.hold = .clauseWait) ∧ (∀ sp ∈ c.g.splits, sp.spilled = false) ∧
    P c (c.sp.clause.headD 0) c.sp.clause.tail
/-- The header fails its checks (the clause at 24 lies beyond CODELEN), meets a fault, must wait, and is fetched, of a clause that fails its checks
and of one whose other words meet a fault, must wait and are fetched. -/
theorem witness_ClauseEvents_fetch :
    (∃ s, fetching s (fun c => c.fetchCheck c.sp.pc.toNat 8 = some 0x2001)) ∧
    (∃ s, fetching s (fun c => c.fetchCheck c.sp.pc.toNat 8 = none ∧ isFault (headerFetch s c) = true)) ∧
    (∃ s, fetching s (fun c => c.fetchCheck c.sp.pc.toNat 8 = none ∧ isLater (headerFetch s c) = true)) ∧
    (∃ s, fetching s (fun c => c.fetchCheck c.sp.pc.toNat 8 = none ∧ (match headerFetch s c with
      | .ok (_, [h]) => c.fetchCheck c.sp.pc.toNat (8 * ((headerOf h).len + 1)) == some 0x2001
      | _ => false) = true)) ∧
    (∃ s, fetching s (fun c => c.fetchCheck c.sp.pc.toNat 8 = none ∧ (restFetch s c).any isFault = true)) ∧
    (∃ s, fetching s (fun c => c.fetchCheck c.sp.pc.toNat 8 = none ∧ (restFetch s c).any isLater = true)) ∧
    (∃ s, fetching s (fun c => c.fetchCheck c.sp.pc.toNat 8 = none ∧ (restFetch s c).any answers = true)) ∧
    ∃ (s : State) (c : Ctx), s.ctx? 1 0 = some c ∧ c.mayMove = true ∧ c.sp.clause ≠ [] :=
  ⟨⟨splitAt (unfetched 24), can_see _ (by decide)⟩, ⟨splitAt (unfetched 0), can_see _ (by decide)⟩,
    ⟨unacked (ordered (mapped (splitAt (unfetched 0)))), can_see _ (by decide)⟩,
    ⟨{ mapped (splitAt (unfetched 0)) with mem := [(2 ^ 30 + 0x40, 7)] }, can_see _ (by decide)⟩,
    ⟨pageEnd false, can_see _ (by decide)⟩, ⟨unacked (pageEnd true), can_see _ (by decide)⟩, ⟨pageEnd true, can_see _ (by decide)⟩,
    splitAt id, can_see _ (by decide)⟩
/-- At its RPC; clauses illegal, whose WAIT holds, and whose WAIT does not, ready and in a trap. -/
theorem witness_ClauseEvents_start :
    (∃ s, starting s (fun c => c.sp.atRpc = true)) ∧
    (∃ s, starting s (fun c => c.sp.atRpc = false ∧ c.sp.clause ≠ [] ∧ clauseLegal (c.sp.clause.headD 0) c.sp.clause.tail = false)) ∧
    (∃ s, starting s (fun c => c.sp.atRpc = false ∧ clauseLegal (c.sp.clause.headD 0) c.sp.clause.tail = true ∧
      (headerOf (c.sp.clause.headD 0)).merge = false ∧ c.sp.skipRpc = false ∧ c.g.waitHolds (headerOf (c.sp.clause.headD 0)) = true)) ∧
    (∃ s, starting s (fun c => c.sp.atRpc = false ∧ clauseLegal (c.sp.clause.headD 0) c.sp.clause.tail = true ∧
      (headerOf (c.sp.clause.headD 0)).merge = false ∧ c.sp.skipRpc = false ∧ c.sp.passed = false ∧
      c.g.waitHolds (headerOf (c.sp.clause.headD 0)) = false)) ∧
    ∃ s, starting s (fun c => c.sp.atRpc = false ∧ clauseLegal (c.sp.clause.headD 0) c.sp.clause.tail = true ∧
      (headerOf (c.sp.clause.headD 0)).merge = false ∧ c.sp.skipRpc = true ∧ (headerOf (c.sp.clause.headD 0)).len = c.sp.word ∧
      c.sp.passed = false ∧ c.g.waitHolds (headerOf (c.sp.clause.headD 0)) = false ∧ c.sp.state = .inTrap) :=
  ⟨⟨splitAt (fun sp => { sp with word := 0, rpc := 0 }), can_see _ (by decide)⟩,
    ⟨splitAt (fun sp => { sp with word := 0, clause := [0xFFFFFFFFFFFFFFFF] }), can_see _ (by decide)⟩,
    ⟨splitAt (fun sp => { sp with word := 0 }), can_see _ (by decide)⟩,
    ⟨(splitAt (fun sp => { sp with word := 0, clause := [0x7FF9, 0] })).modGroup 1 counting, can_see _ (by decide)⟩,
    (splitAt (fun sp => { sp with state := .inTrap, skipRpc := true, clause := [0x7FF9, 0] })).modGroup 1 counting, can_see _ (by decide)⟩
/-- A wait that goes on, one that is over, one whose clause has changed, and one whose clause is no longer legal. -/
theorem witness_ClauseEvents_wait :
    (∃ s, awaiting s (fun c h _ => c.g.waitHolds (headerOf h) = false ∧ c.sp.awaits = (headerOf h).wait)) ∧
    (∃ s, awaiting s (fun c h body => c.g.waitHolds (headerOf h) = true ∧ clauseLegal h body = true ∧ c.sp.skipRpc = false)) ∧
    (∃ s, awaiting s (fun c h body => c.g.waitHolds (headerOf h) = false ∧ c.sp.awaits ≠ (headerOf h).wait ∧ clauseLegal h body = true ∧
      c.sp.skipRpc = false)) ∧
    ∃ s, awaiting s (fun c h body => c.sp.awaits ≠ (headerOf h).wait ∧ clauseLegal h body = false) :=
  ⟨⟨(splitAt (fun sp => { sp with word := 0, state := .waitingFlags, awaits := 0xFFF, clause := [0x7FF9, 0] })).modGroup 1 counting, can_see _ (by decide)⟩,
    ⟨splitAt (fun sp => { sp with word := 0, state := .waitingFlags }), can_see _ (by decide)⟩,
    ⟨(splitAt (fun sp => { sp with word := 0, state := .inTrap, hold := .clauseWait, awaits := 1, clause := [0x7FF9, 0] })).modGroup 1 counting, can_see _ (by decide)⟩,
    splitAt (fun sp => { sp with word := 0, state := .waitingFlags, clause := [0xFFFFFFFFFFFFFFFF] }), can_see _ (by decide)⟩

/-- Two splits: `r` resident, which stands at a clause start, and `h` at the head of the queue of the spilled. -/
def rotating : State :=
  mapped (probe .nop (args 0 0 0 0 0) (fun g => { g with splits := g.splits.flatMap (fun sp =>
    [{ sp with word := 0, mask := 1 }, { sp with id := 1, word := 0, mask := 2, spilled := true, slot := 0, queuedAt := some 0 }]) }))
/-- A spilled split that waits for a timeline to reach its ticket, among eight resident ones or alone with one. -/
def spilledWait (full : Bool) : State :=
  mapped (probe .nop (args 0 0 0 0 0) (fun g => { g with splits := g.splits.flatMap (fun sp =>
    (List.range (if full then 8 else 1)).map (fun k => { sp with id := k, word := 0, mask := 1 }) ++
      [{ sp with id := 8, word := 0, mask := 2, state := .waitingEvent, evKind := 1, spilled := true, slot := 0 }]) }))
/-- The records that a change of the split table reads and writes meet no fault. -/
def putsFree (s : State) (x : Group) (w : Workgroup) (y : Group) : Bool :=
  ((s.modGroup x.gid (fun _ => y)).bump.spillAll w x.gid (s.spillBase w x)
    ((recordsTaken x y).map (fun r => (r.slot, none)) ++ (recordsChanged x y).map (fun r => (r.slot, some r.recordBytes)))).2.isNone
/-- The group with its spilled splits woken whose condition holds. -/
def woken (s : State) (w : Workgroup) (x : Group) : Group :=
  { x with splits := x.splits.map (fun (sp : Split) => if sp.spilled && s.spilledReady w x sp then sp.wakeSpilled s.serial else sp) }
/-- Waits whose event has come and has not, ready and in a trap; a split that is issue-ready; a rotation; spilled splits none of which is ready, and
one that is, where a place is free and where none is; a core with issue-ready splits, with none, with a group of no split, and with no group. -/
theorem witness_SchedulingEvents :
    (∃ (s : State) (c : Ctx), s.ctx? 1 0 = some c ∧ s.eventHolds c.w c.g c.sp.evKind c.sp.evReg c.sp.evVal = false ∧ c.mayMove = true ∧
      c.sp.state = .waitingEvent) ∧
    (∃ (s : State) (c : Ctx), s.ctx? 1 0 = some c ∧ s.eventHolds c.w c.g c.sp.evKind c.sp.evReg c.sp.evVal = true ∧ c.mayMove = true ∧
      c.sp.state = .waitingEvent) ∧
    (∃ (s : State) (c : Ctx), s.ctx? 1 0 = some c ∧ c.sp.waitOn = some (256, 0) ∧ s.eventHolds c.w c.g 1 0 0 = true ∧ c.mayMove = true ∧
      c.sp.state = .inTrap ∧ c.sp.hold = .event ∧ answers (decodeAt c.sp.clause c.sp.word) = true) ∧
    (∃ (s : State) (c : Ctx), s.ctx? 1 0 = some c ∧ c.sp.waitOn = some (256, 1) ∧ s.eventHolds c.w c.g 1 0 1 = false ∧ c.mayMove = true ∧
      c.sp.state = .inTrap ∧ c.sp.hold = .event ∧ answers (decodeAt c.sp.clause c.sp.word) = true) ∧
    (∃ (s : State) (c : Ctx), s.ctx? 1 0 = some c ∧ c.issueReady = true ∧ c.sp.starved = none) ∧
    (∃ (s : State) (x : Group) (w : Workgroup) (h r : Split), s.group? 1 = some x ∧ s.wg? x.wgKey = some w ∧ w.status = .resident ∧
      x.queueHead = some h ∧ x.split? h.id = some h ∧
      leastBy (fun (y : Split) => 2 ^ 80 - y.issuedAt) (x.splits.filter (fun y => !y.spilled && y.state == .ready)) = some r ∧
      x.split? r.id = some r ∧ r.word = 0 ∧ putsFree s x w (x.giveWay s.serial r.id) = true) ∧
    (∃ (s : State) (x : Group) (w : Workgroup), s.group? 1 = some x ∧ s.wg? x.wgKey = some w ∧ w.status = .resident ∧ woken s w x = x) ∧
    (∃ (s : State) (x : Group) (w : Workgroup), s.group? 1 = some x ∧ s.wg? x.wgKey = some w ∧ w.status = .resident ∧ woken s w x ≠ x ∧
      x.resident.length < 8 ∧ putsFree s x w ((woken s w x).refill 8) = true) ∧
    (∃ (s : State) (x : Group) (w : Workgroup), s.group? 1 = some x ∧ s.wg? x.wgKey = some w ∧ w.status = .resident ∧ woken s w x ≠ x ∧
      8 ≤ x.resident.length ∧ putsFree s x w ((woken s w x).refill 8) = true) ∧
    (∃ (s : State) (g : Group) (sp : Split) (c : Ctx), leastBy (·.age) ((s.groupsOn 0).filter (fun g => g.sched == 0)) = some g ∧
      leastBy (fun sp => g.splitRank sp) g.splits = some sp ∧ s.ctx? g.gid sp.id = some c ∧ c.issueReady = true) ∧
    (∃ (s : State) (g : Group) (sp : Split) (c : Ctx), leastBy (·.age) ((s.groupsOn 0).filter (fun g => g.sched == 0)) = some g ∧
      leastBy (fun sp => g.splitRank sp) g.splits = some sp ∧ s.ctx? g.gid sp.id = some c ∧ c.issueReady = false) ∧
    (∃ (s : State) (g : Group), leastBy (·.age) ((s.groupsOn 0).filter (fun g => g.sched == 0)) = some g ∧ g.splits = []) ∧
    ∃ s : State, (s.groupsOn 0).filter (fun g => g.sched == 0) = [] :=
  ⟨⟨splitAt (fun sp => { sp with state := .waitingEvent, evKind := 1, evVal := 1 }), can_see _ (by decide)⟩,
    ⟨splitAt (fun sp => { sp with state := .waitingEvent, evKind := 1, evVal := 0 }), can_see _ (by decide)⟩,
    ⟨splitAt (fun sp => { sp with state := .inTrap, hold := .event, waitOn := some (256, 0) }), can_see _ (by decide)⟩,
    ⟨splitAt (fun sp => { sp with state := .inTrap, hold := .event, waitOn := some (256, 1) }), can_see _ (by decide)⟩,
    ⟨splitAt id, can_see _ (by decide)⟩,
    ⟨rotating, _, _, _, _, rfl, rfl, by decide, rfl, rfl, rfl, rfl, by decide, by decide⟩,
    ⟨splitAt id, _, _, rfl, rfl, by decide, by decide⟩, ⟨spilledWait false, _, _, rfl, rfl, by decide, by decide, by decide, by decide⟩,
    ⟨spilledWait true, _, _, rfl, rfl, by decide, by decide, by decide, by decide⟩,
    ⟨splitAt id, _, _, _, rfl, rfl, rfl, by decide⟩,
    ⟨splitAt (fun sp => { sp with state := .waitingEvent, evKind := 1, evVal := 1 }), _, _, _, rfl, rfl, rfl, by decide⟩,
    ⟨probe .nop (args 0 0 0 0 0) (fun g => { g with splits := [] }), _, rfl, rfl⟩, State.reset, by decide⟩

/-- One instruction outstanding, with a number of its own. -/
def pending0 : PendingOp := ⟨5, 0, false, [(64, 7)], [], [], [], [], 0, [], [], [], 0, false, 0, false⟩
/-- A split held, with one instruction of its group outstanding and core 0's pipe holding it. -/
def heldAt (f : Split → Split) (s : State) : State :=
  (s.modCore 0 (fun k => { k with pipe := [(1, 5)] })).modGroup 1 (fun g => { g with splits := g.splits.map f, ops := [pending0], flags := [(0, 1)] })
/-- A completion; a reply at the head of the pipe and one behind; a phase that has passed and one that has not; a ticket reached and the
next; a place that has come free; a page that is mapped and one that is not. -/
theorem witness_CompletionEvents :
    (∃ (s : State) (x : Group) (w : Workgroup) (o : PendingOp), s.group? 1 = some x ∧ s.wg? x.wgKey = some w ∧
      x.ops.find? (fun y => y.id == 5) = some o ∧ o.ready = true ∧ o.awaits = [] ∧ (s.core w.phys).pipe.head? = some (1, 5)) ∧
    (∃ (s : State) (x : Group) (w : Workgroup) (o : PendingOp), s.group? 1 = some x ∧ s.wg? x.wgKey = some w ∧
      x.ops.find? (fun y => y.id == 5) = some o ∧ o.awaits = [] ∧ (s.core w.phys).pipe.head? ≠ some (1, 5)) ∧
    (∃ (s : State) (c : Ctx), s.ctx? 1 0 = some c ∧ c.mayMove = true ∧ answers (decodeAt c.sp.clause c.sp.word) = true ∧ c.sp.hold = .bwait ∧
      c.sp.waitOn = some (scratchKey 0 0, 1) ∧ s.replayOf c.w.part = none ∧ (s.barrierAt (scratchKey 0 0)).passed 1 = true) ∧
    (∃ (s : State) (c : Ctx), s.ctx? 1 0 = some c ∧ c.mayMove = true ∧ answers (decodeAt c.sp.clause c.sp.word) = true ∧ c.sp.hold = .bwait ∧
      c.sp.waitOn = some (scratchKey 0 0, 0) ∧ s.replayOf c.w.part = none ∧ (s.barrierAt (scratchKey 0 0)).passed 0 = false) ∧
    (∃ (s : State) (c : Ctx), s.ctx? 1 0 = some c ∧ c.mayMove = true ∧ c.sp.hold = .tlwait ∧ c.sp.waitOn = some (0, 0) ∧
      0 ≤ (c.w.timeline 0).reached) ∧
    (∃ (s : State) (c : Ctx), s.ctx? 1 0 = some c ∧ c.mayMove = true ∧ c.sp.hold = .tlwait ∧ c.sp.waitOn = some (0, 1) ∧
      (c.w.timeline 0).reached < 1) ∧
    (∃ (s : State) (c : Ctx), s.ctx? 1 0 = some c ∧ c.mayMove = true ∧ c.sp.hold = .scoreboard) ∧
    (∃ (s : State) (c : Ctx), s.ctx? 1 0 = some c ∧ c.mayMove = true ∧ c.sp.hold = .entry ∧ s.entriesHeld c.w.phys < 32 ∧
      s.askedBefore c .entry = false) ∧
    (∃ (s : State) (c : Ctx), s.ctx? 1 0 = some c ∧ c.mayMove = true ∧ c.sp.hold = .sequencer ∧ (s.stepQueue c.w.phys).length < 8 ∧
      s.askedBefore c .sequencer = false) ∧
    (∃ (s : State) (c : Ctx), s.ctx? 1 0 = some c ∧ c.mayMove = true ∧ c.sp.hold = .pipe ∧ s.pipeBusy c.w.phys = false ∧
      leastBy (fun (p : Nat × Split) => p.2.askedAt .pipe 0) (s.groups.flatMap (fun y =>
          if (s.wg? y.wgKey).map (·.phys) = some c.w.phys then (y.splits.filter (fun z => z.hold == .pipe)).map (fun z => (y.gid, z))
          else [])) = some (1, c.sp)) ∧
    (∃ (s : State) (p : Partition), s.part? 0 = some p) :=
  ⟨⟨heldAt id (splitAt id), _, _, _, rfl, rfl, rfl, by decide, by decide, by decide⟩, ⟨(heldAt id (splitAt id)).modCore 0 (fun k => { k with pipe := [] }), _, _, _, rfl, rfl, rfl, by decide, by decide⟩,
    ⟨splitAt (fun sp => { sp with hold := .bwait, waitOn := some (scratchKey 0 0, 1) }), can_see _ (by decide)⟩,
    ⟨splitAt (fun sp => { sp with hold := .bwait, waitOn := some (scratchKey 0 0, 0) }), can_see _ (by decide)⟩,
    ⟨splitAt (fun sp => { sp with hold := .tlwait, waitOn := some (0, 0) }), can_see _ (by decide)⟩,
    ⟨splitAt (fun sp => { sp with hold := .tlwait, waitOn := some (0, 1) }), can_see _ (by decide)⟩,
    ⟨splitAt (fun sp => { sp with hold := .scoreboard }), can_see _ (by decide)⟩,
    ⟨splitAt (fun sp => { sp with hold := .entry }), can_see _ (by decide)⟩,
    ⟨splitAt (fun sp => { sp with hold := .sequencer }), can_see _ (by decide)⟩,
    ⟨splitAt (fun sp => { sp with hold := .pipe }), can_see _ (by decide)⟩, splitAt id, _, rfl⟩

/-- The engine of core 0 holds a decoding into the scratchpad. -/
def decoding : State := ran (.sdec (args 2 0 1 0 0)) (probe .sdec (args 2 0 1 0 0) twoPads)
/-- An operation of core 0, changed. -/
def withOp (f : EngineOp → EngineOp) (s : State) : State := s.modCore 0 (fun k => { k with ops := k.ops.map f })
/-- An operation of the workgroup of the group placed. -/
def opOf (s : State) (P : EngineOp → Workgroup → Prop) : Prop :=
  ∃ (op : Nat) (o : EngineOp) (w : Workgroup), s.op? op = some (0, o) ∧ (s.core 0).ops.find? (fun y => y.id == op) = some o ∧
    s.wg? o.wgKey = some w ∧ o.id = op ∧ P o w
theorem has_op {s : State} (op : Nat) (P : EngineOp → Workgroup → Prop) [∀ o w, Decidable (P o w)]
    (h : (match s.op? op with
      | some (k, o) => k == 0 && (s.core 0).ops.find? (fun y => y.id == op) == some o && o.id == op &&
          (s.wg? o.wgKey).any (fun w => decide (P o w))
      | none => false) = true) : opOf s P := by
  split at h
  · next k o ho =>
    simp only [Bool.and_eq_true, beq_iff_eq] at h
    obtain ⟨⟨⟨rfl, h1⟩, h2⟩, h3⟩ := h
    obtain ⟨w, hw, hp⟩ := can_take _ h3
    exact ⟨op, o, w, ho, h1, hw, h2, hp⟩
  · exact nomatch h
/-- The places are bytes of banks. -/
def inBanks (l : List Place) : Bool := l.all (fun p => match p with | .fixed _ => true | _ => false)
/-- An element not yet read is brought from banks, and its bytes lie in banks. -/
def bringsInto (s : State) (i : Nat) (o : EngineOp) (w : Workgroup) : Bool :=
  let q := Ptr.ofBits o.src
  let d := Ptr.ofBits o.dst
  let u := if o.landed = [] then s.untagHull w o else s
  let sp := elemSpan (sideWidth d.fmt q.fmt) (o.destPos i).toNat
  !s.elemRead o i && decide (i < productOf o.dims) && (match u.bringElem 0 w o i with
    | .value v f qs => inBanks qs &&
        (match (u.modOp 0 o.id (fun y => { y with fetched := y.fetched ++ [(i, v)], fstat := y.fstat ||| f })).placesFrom w d sp.1 sp.2.1 (engineUse true) with
         | .ok ps => inBanks ps
         | .error _ => false)
    | _ => false)
/-- What a fetch brings. -/
def fetched (s : State) (w : Workgroup) (o : EngineOp) (off n : Nat) : Option (List Byte) :=
  match s.fetchBytes w o (Ptr.ofBits o.src) off n with | .bytes h _ => some h | _ => none
/-- The operation has met no fault, nothing holds its intervals, it counts into no barrier, and copies are not traced. -/
def movesOn (s : State) (o : EngineOp) (w : Workgroup) : Bool :=
  o.fault.isNone && s.partClear 0 o false && s.partClear 0 o true && o.barrier.isNone && !(s.partOf w.part).obs.trace.getLsbD 0
/-- A decoding that is the first of core 0, alone under its number, while accesses are not recorded. -/
def decodesFirst (s : State) (o : EngineOp) (w : Workgroup) : Bool :=
  movesOn s o w && o.kind == .sdec && (s.core 0).ops.all (fun y => !y.decoding || decide (o.id ≤ y.id)) &&
    ((s.part? w.part).any (fun p => p.accRing.size == 0)) && s.cores.all (fun k => k.2.ops.all (fun y => y.id != o.id || k.1 == 0))
/-- The header of a decoding, yet to be read. -/
def headerOfOp (s : State) (o : EngineOp) (w : Workgroup) : Option (List Byte) :=
  if o.outlen = none ∧ o.steps = 0 ∧ 928 ≤ (Ptr.ofBits o.src).len then fetched s w o 0 928 else none
/-- What the symbol that comes next makes of its decoder's state. -/
def nextState (o : EngineOp) : Nat :=
  let x := o.rans.getD (o.steps % 32) 0
  let sy := symbolAt (freqsOf o.header) 0 0 (x % 4096)
  sy.2.2 * (x / 4096) + x % 4096 - sy.2.1
/-- The decoding has a header: two symbols of equal frequency, two bytes to land, one word of stream. -/
def decodable : State :=
  ran (.sdec (args 2 0 1 0 0)) { probe .sdec (args 2 0 1 0 0) twoPads with
    mem := ([(0, 1), (4, 2), (8, 2), (0xC, 0xA0), (0xD, 3)] ++ (List.range 32).map (fun j => (0x22 + 4 * j, 1)) ++ [(0x1A1, 8), (0x1A3, 8)] :
      List (Nat × Byte)).map (fun c => (scratchKey 0 c.1, c.2)) }
/-- That header. -/
def header0 : List Byte :=
  [1, 0, 0, 0, 2, 0, 0, 0, 2, 0, 0, 0, 0xA0, 3, 0, 0] ++ List.replicate 16 0 ++ (List.replicate 32 [0, 0, 1, 0]).flatten ++
    List.replicate 256 0 ++ [0, 8, 0, 8] ++ List.replicate 508 0
/-- The decoding with its header read, changed. -/
def decoded (f : EngineOp → EngineOp) : State :=
  withOp (fun o => f { o with header := header0, outlen := some 2, rans := List.replicate 32 65536 }) decodable
/-- The first element of a copy, and the last; a copy that has landed all; a step operation that has made all its steps; one that has met a fault. -/
theorem witness_StreamEngineEvents :
    opOf copying (fun o w => movesOn copying o w = true ∧ o.kind = .stream ∧ bringsInto copying 0 o w = true ∧ bringsInto copying 15 o w = true ∧
      (Ptr.ofBits o.dst).space ≠ 2) ∧
    opOf (withOp (fun o => { o with landed := List.range 16 }) copying) (fun o w =>
      movesOn (withOp (fun o => { o with landed := List.range 16 }) copying) o w = true ∧
      (withOp (fun o => { o with landed := List.range 16 }) copying).streamDone o = true ∧
      ((withOp (fun o => { o with landed := List.range 16 }) copying).group? o.gid).isSome = true) ∧
    opOf (withOp (fun o => { o with kind := .mstep }) copying) (fun o w =>
      (withOp (fun o => { o with kind := .mstep }) copying).streamDone o = false ∧ o.stepsDone = true) ∧
    opOf (withOp (fun o => { o with fault := some ⟨0x6102, 0, false, 0, false⟩ }) copying) (fun o w => o.fault.isSome = true ∧ o.reported = false ∧
      (copying.group? o.gid).isSome = true ∧ ∀ h ∈ copying.halts, h.wgs.contains w.key = false) := by
  refine ⟨has_op 2 _ (by decide +kernel), has_op 2 _ (by decide +kernel), has_op 2 _ (by decide +kernel), has_op 2 _ (by decide +kernel)⟩
/-- A header that is valid, and one that is not, at an address that is no multiple of 16. -/
theorem witness_StreamEngineEvents_header :
    opOf decodable (fun o w => decodesFirst decodable o w = true ∧ (Ptr.ofBits o.src).base % 16 = 0 ∧
      (headerOfOp decodable o w).any (fun h => headerValid h && decide (fieldOf h 0xC 4 + fieldOf h 8 4 ≤ (Ptr.ofBits o.src).len ∧
        fieldOf h 4 4 ≤ (Ptr.ofBits o.dst).len ∧ fieldOf h 4 4 ≠ 0)) = true) ∧
    opOf (withOp (fun o => { o with src := { pad with base := 8, len := 4088 }.toBits }) decoding) (fun o w =>
      decodesFirst (withOp (fun o => { o with src := { pad with base := 8, len := 4088 }.toBits }) decoding) o w = true ∧
      (Ptr.ofBits o.src).base % 16 ≠ 0 ∧
      (headerOfOp (withOp (fun o => { o with src := { pad with base := 8, len := 4088 }.toBits }) decoding) o w).any (fun h => !headerValid h) = true) :=
  ⟨has_op 2 _ (by decide +kernel), has_op 2 _ (by decide +kernel)⟩
/-- A symbol that takes no word, one that takes the word read ahead, one that reads its word, and one for which the stream has none. -/
theorem witness_StreamEngineEvents_symbol :
    opOf (decoded (fun o => { o with rans := List.replicate 32 (2 ^ 31), fetched := [(0, 7)] })) (fun o w =>
      decodesFirst (decoded (fun o => { o with rans := List.replicate 32 (2 ^ 31), fetched := [(0, 7)] })) o w = true ∧ o.outlen = some 2 ∧
      o.steps = 0 ∧ o.fetched ≠ [] ∧ 2 ^ 16 ≤ nextState o) ∧
    opOf (decoded (fun o => { o with fetched := [(0, 7)] })) (fun o w =>
      decodesFirst (decoded (fun o => { o with fetched := [(0, 7)] })) o w = true ∧ o.outlen = some 2 ∧ o.steps = 0 ∧ o.fetched ≠ [] ∧
      nextState o < 2 ^ 16) ∧
    opOf (decoded id) (fun o w => decodesFirst (decoded id) o w = true ∧ o.outlen = some 2 ∧ o.steps = 0 ∧ o.fetched = [] ∧
      2 * o.consumed < fieldOf o.header 8 4 ∧ (fetched (decoded id) w o (fieldOf o.header 0xC 4 + 2 * o.consumed) 2).isSome = true ∧
      nextState o < 2 ^ 16) ∧
    opOf (decoded (fun o => { o with consumed := 1 })) (fun o w => decodesFirst (decoded (fun o => { o with consumed := 1 })) o w = true ∧
      o.outlen = some 2 ∧ o.steps = 0 ∧ o.fetched = [] ∧ fieldOf o.header 8 4 ≤ 2 * o.consumed ∧ nextState o < 2 ^ 16) :=
  ⟨has_op 2 _ (by decide +kernel), has_op 2 _ (by decide +kernel), has_op 2 _ (by decide +kernel), has_op 2 _ (by decide +kernel)⟩

/-- The tile of core 0 after a matrix instruction has entered, its operands at offset 0. -/
def queuedStep : State := ran (.mstep (args 3 0 2 8 0)) (withBlock (probe .mstep (args 3 0 2 8 0) (withS [(8, 0x1000)])))
def queuedTile (o : Op) (x : Args) : State := ran (o.instr x) (ptrProbe { pad with fmt := 0x10 } o x (withS [(2, 0x013F)]))
/-- A step over clean bytes and over poisoned ones; the four tile operations. -/
theorem witness_MatrixEngineEvents :
    (∃ (s : State) (o : EngineOp) (w : Workgroup), s.sequencerHead 0 = some o ∧ s.wg? o.wgKey = some w ∧ s.tileTurn 0 w.legacy o = true ∧
      s.opClear 0 o = true ∧ s.stepPoison w.phys o = false ∧ o.tile = 3 ∧ o.tile < (s.core 0).tiles.length ∧ (s.group? o.gid).isSome = true) ∧
    (∃ (s : State) (o : EngineOp) (w : Workgroup), s.sequencerHead 0 = some o ∧ s.wg? o.wgKey = some w ∧ s.tileTurn 0 w.legacy o = true ∧
      s.opClear 0 o = true ∧ s.stepPoison w.phys o = true) ∧
    (∃ (s : State) (y : Nat × Workgroup × EngineOp), s.tileOp 2 .azero = some y ∧ y.1 = 0) ∧
    (∃ (s : State) (y : Nat × Workgroup × EngineOp), s.tileOp 2 .aswap = some y ∧ y.1 = 0) ∧
    (∃ (s : State) (y : Nat × Workgroup × EngineOp), s.tileOp 2 .aread = some y ∧ s.rowsReady 0 y.2.1.legacy y.2.2 = true ∧
      (s.group? y.2.2.gid).any (fun x => (x.ops.find? (fun z => z.id == y.2.2.pending)).any (fun p => p.awaits == [])) = true) ∧
    ∃ (s : State) (y : Nat × Workgroup × EngineOp), s.tileOp 2 .astore = some y ∧ s.rowsReady 0 y.2.1.legacy y.2.2 = true ∧
      s.opClear 0 y.2.2 = true ∧ (s.group? y.2.2.gid).isSome = true := by
  refine ⟨⟨queuedStep, _, _, rfl, rfl, by decide +kernel, by decide +kernel, by decide +kernel, by decide +kernel, by decide +kernel, by decide +kernel⟩,
    ⟨{ queuedStep with poison := [scratchKey 0 0 / 16] }, _, _, rfl, rfl, by decide +kernel, by decide +kernel, by decide +kernel⟩,
    ⟨queuedTile .azero (args 0 0 0 0 0), ?_⟩, ⟨queuedTile .aswap (args 0 0 0 0 0), ?_⟩, ⟨queuedTile .aread (args 4 0 4 0x10 0), ?_⟩,
    ⟨queuedTile .astore (args 0 0 2 4 0), ?_⟩⟩ <;> exact can_take _ (by decide +kernel)

/-- A partition of one cluster, whose region root is at 0x400, its queue empty or full. -/
def home0 (full : Bool) : Partition :=
  { Partition.blank 0 with ndie := 1, pdie := [0], clmap := 0 :: List.replicate 23 0xFF, extents := [⟨false, 0, 4294967296⟩], rbroot := 0x400, launches := if full then List.replicate 256 probeLaunch else [] }
/-- Pages: 1 GiB from virtual address 0 at physical 2^30, through tables at 0, 0x1000 and 0x2000; a launch block at 0, a region block, the
root, at 0x400, a legacy image at 0x480. -/
def submission (full : Bool) : State :=
  { State.reset with
    parts := [home0 full]
    mem := [(0, 1), (1, 0x10), (0x1000, 1), (0x1001, 0x20), (0x2000, 0x83), (0x2001, 3), (0x2003, 0x40),
      (0x40000000, 2), (0x40000009, 4), (0x40000040, 0x80), (0x40000041, 4), (0x40000048, 1), (0x4000004C, 1), (0x40000050, 1), (0x40000054, 1),
      (0x40000055, 1), (0x40000108, 8), (0x4000010A, 8), (0x4000010B, 1), (0x4000010C, 1), (0x40000400, 1), (0x40000402, 127), (0x40000412, 1),
      (0x40000418, 1), (0x4000041A, 8), (0x40000421, 1), (0x40000480, 0x49), (0x40000481, 0x4D), (0x40000482, 0x44), (0x40000483, 0x37),
      (0x40000485, 5), (0x40000488, 1), (0x4000048C, 8), (0x40000490, 0x40)] }
theorem submission_walk (full : Bool) (va : Nat) (h : va < 2 ^ 30) : ∃ f, (submission full).walkFrom (home0 full) va 5 0 = .leaf f ∧ f.pa = 2 ^ 30 ∧ pageSize f.level = 2 ^ 30 ∧
    f.fwd = false ∧ f.dev = false ∧ f.w = true ∧ f.r = true := by
  have h5 : levelIndex va 5 = 0 := by unfold levelIndex levelShift; omega
  have h4 : levelIndex va 4 = 0 := by unfold levelIndex levelShift; omega
  have h3 : levelIndex va 3 = 0 := by unfold levelIndex levelShift; omega
  have e5 : (submission full).num 0 8 = 0x1001 := by cases full <;> decide
  have e4 : (submission full).num 0x1000 8 = 0x2001 := by cases full <;> decide
  have e3 : (submission full).num 0x2000 8 = 0x40000383 := by cases full <;> decide
  have t5 : (home0 full).holds false 0x1000 4096 = true := by cases full <;> decide
  have t4 : (home0 full).holds false 0x2000 4096 = true := by cases full <;> decide
  refine ⟨leafOf 0x40000383 3 0x2000, ?_, by decide, by decide, by decide, by decide, by decide, by decide⟩
  have b5 : bits 0x1001 51 12 * 4096 = 0x1000 := by decide
  have b4 : bits 0x2001 51 12 * 4096 = 0x2000 := by decide
  have r3 : leafReserved 0x40000383 3 = false := by decide
  simp only [State.walkFrom, h5, h4, h3, Nat.reduceAdd, Nat.reduceMul, e5, e4, e3, b5, b4, t5, t4, r3]
  rfl
theorem submission_keys (full : Bool) (va n : Nat) (write : Bool) (h : va + n ≤ 2 ^ 30) :
    (submission full).vaKeys (home0 full) va n write = some ((List.range n).map (fun i => 2 ^ 30 + (va + i))) := by
  unfold State.vaKeys
  suffices ∀ l : List Nat, (∀ i ∈ l, i < n) → l.mapM (fun i => match (submission full).walkFrom (home0 full) (va + i) 5 (home0 full).ptroot with
    | .leaf f =>
      let pa := f.pa + (va + i) % pageSize f.level
      if f.fwd || f.dev || !(home0 full).holds false f.pa (pageSize f.level) || (if write then !f.w else !f.r) then none else some pa
    | .fault _ _ _ => none) = some (l.map (fun i => 2 ^ 30 + (va + i))) from this _ (fun i hi => List.mem_range.1 hi)
  intro l hl
  induction l with
  | nil => rfl
  | cons i l ih =>
    obtain ⟨f, hw, h1, h2, h3, h4, h5, h6⟩ := submission_walk full (va + i) (by have := hl i (by simp); omega)
    have hh : (home0 full).holds false (2 ^ 30) (2 ^ 30) = true := by cases full <;> decide
    have hm : (va + i) % 2 ^ 30 = va + i := Nat.mod_eq_of_lt (by have := hl i (by simp); omega)
    have hp : (home0 full).ptroot = 0 := rfl
    rw [List.mapM_cons, ih (fun j hj => hl j (by simp [hj]))]
    rw [hp, hw]
    simp only [h1, h2, h3, h4, h5, h6, hm, hh]
    cases write <;> rfl
theorem submission_block (full : Bool) (va n : Nat) (h : va + n ≤ 2 ^ 30) :
    (submission full).readBlock (home0 full) va n = some ((submission full).bytes (2 ^ 30 + va) n) := by
  unfold State.readBlock
  rw [submission_keys full va n true h, submission_keys full va n false h]
  simp [State.bytes, State.bytesAt, Function.comp_def, Nat.add_assoc]
theorem verdict_is {w : Verdict} {full : Bool} (v : Verdict) (h : w = v)
    (a : (match v with | .accepted _ => !full | .full => full | _ => false) = true) : ∃ l, w = if full then .full else .accepted l := by
  rw [h]
  cases full <;> cases v <;> first | exact ⟨probeLaunch, rfl⟩ | exact ⟨_, rfl⟩ | exact nomatch a
theorem submission_judged (full : Bool) : ∃ l, (submission full).judge (home0 full) 0 = if full then .full else .accepted l := by
  have r : (submission full).regionPath (home0 full) 8 0x400 = some [(0x400, (submission full).bytes (2 ^ 30 + 0x400) 128)] := by
    unfold State.regionPath
    rw [submission_block full 0x400 128 (by decide)]
    cases full <;> decide +kernel
  have d : (submission full).descriptor (home0 full) 0x480 = some ((submission full).bytes (2 ^ 30 + 0x480) 64) := by
    unfold State.descriptor
    rw [submission_keys full 0x480 64 false (by decide)]
    cases full <;> decide +kernel
  have hb : (submission full).readBlock (home0 full) 0 896 = some ((submission full).bytes (2 ^ 30) 896) := submission_block full 0 896 (by decide)
  have f8 : fieldOf ((submission full).bytes (2 ^ 30) 896) 8 8 = 0x400 := by cases full <;> decide +kernel
  have f40 : fieldOf ((submission full).bytes (2 ^ 30) 896) 0x40 8 = 0x480 := by cases full <;> decide +kernel
  unfold State.judge
  rw [hb]
  simp only [f8, f40, r, d]
  exact verdict_is _ rfl (by cases full <;> decide +kernel)

/-- A launch of one workgroup, with ticket 1. -/
def launch1 : Launch := { probeLaunch with ticket := 1, nextWg := 0, state := 2 }
/-- Partition 0 holds a launch; nothing is placed. -/
def withLaunch (l : Launch) (f : Partition → Partition) : State :=
  { State.reset with parts := [f { Partition.blank 0 with ndie := 1, pdie := [0], clmap := 0 :: List.replicate 23 0xFF, ticketNext := 2, launches := [l] }] }
/-- The launch of ticket 1 of partition 0. -/
def launchIn (s : State) (P : Partition → Launch → Prop) : Prop := ∃ p l, s.part? 0 = some p ∧ p.launch? 1 = some l ∧ P p l
theorem has_launch {s : State} (P : Partition → Launch → Prop) [∀ p l, Decidable (P p l)]
    (h : (s.part? 0).any (fun p => (p.launch? 1).any (fun l => decide (P p l))) = true) : launchIn s P := by
  cases hp : s.part? 0 with
  | none => rw [hp] at h; exact nomatch h
  | some p =>
    rw [hp] at h
    obtain ⟨l, hl, hP⟩ := can_take _ h
    exact ⟨p, l, hp, hl, hP⟩
/-- Submissions accepted, turned away and rejected; a launch ready, failed by a prerequisite, and waiting for one; a carve-out at the end of
the Firn; a placement, and one whose mint fails; a gang placed; a launch over, and one that failed; a group over; a workgroup that may
retire. -/
theorem witness_LaunchEvents :
    (∃ l, (submission false).judge (home0 false) 0 = .accepted l) ∧ (submission true).judge (home0 true) 0 = .full ∧
    (submission false).judge (home0 false) 1 = .rejected 0xB101 ∧
    launchIn (withLaunch { launch1 with state := 1 } id) (fun p l => l.state = 1 ∧ p.runs = true ∧ l.pre = []) ∧
    launchIn (withLaunch { launch1 with state := 1, pre := [0] } (fun p => { p with launches := p.launches ++ [{ probeLaunch with state := 5, queued := true }] }))
      (fun p l => l.state = 1 ∧ l.pre.any (fun t => p.launches.any (fun x => x.ticket == t && x.queued && x.state == 5)) = true) ∧
    launchIn (withLaunch { launch1 with state := 1, pre := [0] } (fun p => { p with launches := p.launches ++ [probeLaunch] }))
      (fun p l => l.state = 1 ∧ p.runs = true ∧ l.pre.any (fun t => p.launches.any (fun x => x.ticket == t && x.queued && x.state == 5)) = false ∧
        ∃ t ∈ l.pre, ∃ x ∈ p.launches, x.queued = true ∧ x.ticket = t) ∧
    launchIn (withLaunch { launch1 with firnLen := 0x10000 } id) (fun p l => l.state = 2 ∧ p.runs = true ∧ l.firnLen ≠ 0 ∧ l.carve = none ∧
      (2 ^ 26 - 0x10000) % 0x10000 = 0 ∧ 2 ^ 26 - 0x10000 + l.firnLen ≤ 2 ^ 26 ∧
      (∀ k ∈ p.carves, k.2.1 + k.2.2 ≤ 2 ^ 26 - 0x10000 ∨ 2 ^ 26 - 0x10000 + l.firnLen ≤ k.2.1) ∧
      ∀ d ∈ p.pdie, (withLaunch { launch1 with firnLen := 0x10000 } id).carvedOn d + l.firnLen ≤ 2 ^ 26) ∧
    launchIn (withLaunch launch1 id) (fun p l => l.state = 2 ∧ p.runs = true ∧ l.firnLen = 0 ∧ (withLaunch launch1 id).mintFault p l = none ∧
      (withLaunch launch1 id).firstFits p l = true) ∧
    launchIn (withLaunch { launch1 with mints := [(0, BitVec.ofNat 128 (2 ^ 127))] } id) (fun p l => l.state = 2 ∧ p.runs = true ∧ l.firnLen = 0 ∧
      (withLaunch { launch1 with mints := [(0, BitVec.ofNat 128 (2 ^ 127))] } id).mintFault p l = some 0) ∧
    (let s := (withLaunch { launch1 with state := 3 } id).modShare 0 (fun c => { c with resident := some 0 })
     launchIn s (fun p l => l.state = 3 ∧ l.wantsPlace = true ∧ p.runs = true ∧ s.gangFits p l [⟨0, 0, 0, [0]⟩] = true ∧
       p.physCluster 0 0 = some 0 ∧ (s.share 0).resident = some 0 ∧ s.turnOf p l = true)) ∧
    (let s := withLaunch { launch1 with state := 3 } id
     launchIn s (fun p l => l.state = 3 ∧ l.wantsPlace = true ∧ p.runs = true ∧ (s.adoptDefects 0).gangFits p l [⟨0, 0, 0, [0]⟩] = true ∧
       p.physCluster 0 0 = some 0 ∧ (s.share 0).resident = none ∧ s.turnAt 0 = some 0 ∧ s.savedWgs 0 0 0 = [] ∧ s.turnOf p l = true)) ∧
    launchIn (withLaunch { launch1 with state := 3, nextWg := 1, retired := 1 } id) (fun _ l => l.failed = false ∧
      (withLaunch { launch1 with state := 3, nextWg := 1, retired := 1 } id).launchOver 0 l = true) ∧
    launchIn (withLaunch { launch1 with state := 3, failed := true, fdom := 2 } id) (fun _ l => l.failed = true ∧
      (withLaunch { launch1 with state := 3, failed := true, fdom := 2 } id).launchOver 0 l = true) ∧
    (∃ (s : State) (x : Group), s.group? 1 = some x ∧ x.ended = false ∧ s.groupOver x = true) ∧
    ∃ (s : State) (w : Workgroup), s.wg? 0 = some w ∧ s.mayRetire w = true ∧
      ((s.modWg 0 (fun x => { x with retired := true })).modLaunch w.part w.ticket (fun l => { l with retired := l.retired + 1 })).gangOf w ≠ [] := by
  refine ⟨by simpa using submission_judged false, by simpa using (submission_judged true).choose_spec, by decide, has_launch _ (by decide), has_launch _ (by decide),
    has_launch _ (by decide), has_launch _ (by decide), has_launch _ (by decide), has_launch _ (by decide), has_launch _ (by decide), has_launch _ (by decide),
    has_launch _ (by decide), has_launch _ (by decide), ⟨probe .nop (args 0 0 0 0 0) (fun g => { g with splits := [] }), can_take _ (by decide)⟩,
    ⟨probe .nop (args 0 0 0 0 0) (fun g => { g with splits := [], ended := true }), can_take _ (by decide)⟩⟩

theorem inv_of {s : State} (h : (Memory.wf s.mem && s.dies.length == 4 && s.dies.all (fun d => d.clusters.length == 7 && decide (d.cycle < 2 ^ 64))) = true) :
    s.Inv := by
  simp only [Bool.and_eq_true, List.all_eq_true, beq_iff_eq, decide_eq_true_eq] at h
  exact ⟨h.1.1, ⟨h.1.2, fun d hd => (h.2 d hd).1⟩, fun d hd => (h.2 d hd).2⟩
/-- Partition 0 has the slice of cluster 0, one workgroup there. -/
def sliced (f : ClusterShare → ClusterShare) (g : Workgroup → Workgroup) (ps : List Partition) (hs : List Halt) : State :=
  let s := (splitAt (fun sp => { sp with word := 0 })).modWg 0 g
  { (s.modShare 0 (fun c => f { c with resident := some 0 })) with parts := s.parts ++ ps, halts := hs }
/-- A partition that waits for cluster 0. -/
def waiter (prio : Nat) : Partition :=
  { Partition.blank 1 with ndie := 1, pdie := [0], clmap := 0 :: List.replicate 23 0xFF, prio := prio, launches := [{ launch1 with state := 3 }] }
/-- A halt of partition 0 over its workgroup. -/
def halt0 (stage : HaltStage) (dropped : Bool) : Halt :=
  ⟨stage, 0, 3, 0, 0, 0, [0], (State.reset.plainRecord 0 0 0x0002 0), 0, 0, none, [], dropped, false⟩
def stops0 (w : Workgroup) : Workgroup := { w with status := .stopping }
def saved0 (w : Workgroup) : Workgroup := { w with status := .saved, savedAt := 0 }
def halts0 (w : Workgroup) : Workgroup := { w with status := .halted }
/-- The partition leaves cluster 0 before its quantum ends. -/
def leaves (s : State) (p : Partition) : Bool :=
  (s.share 0).retiring || (s.waiters 0).any (fun q => decide (p.prio < q.prio)) || (s.residentWgs 0).isEmpty && !s.wantsCluster 0 p && !(s.waiters 0).isEmpty
/-- Partition 0 has saved workgroups of cluster 0, whose turn it is, and the schedulers given take them. -/
def restores (s : State) : Bool :=
  (s.part? 0).any (fun p => p.logicalOf 0 == some (0, 0)) && (s.share 0).resident.isNone && s.turnAt 0 == some 0 && !(s.savedWgs 0 0 0).isEmpty &&
    (s.adoptDefects 0).schedsTake (s.savedWgs 0 0 0) (fun key =>
      ((((s.savedWgs 0 0 0).find? (fun w => w.key == key)).bind (fun w => (s.adoptDefects 0).physCore 0 w.lcore))).getD 0) [(1, 0)]
/-- A state in which the invariant and more hold. -/
def someState (P : State → Prop) : Prop := ∃ s, s.Inv ∧ P s
theorem witness_PreemptionAndHaltEvents :
    -- a quantum ends with no waiter, with one of the same priority, with one of a higher; a retirement; what may be saved and what may not
    someState (fun s => (s.share 0).resident = some 0 ∧ (s.part? 0).any (fun p => !leaves s p && (s.waiters 0).all (fun q => q.prio != p.prio)) = true ∧
      (s.share 0).preempt = false ∧ (s.share 0).retiring = false ∧ s.residentWgs 0 ≠ []) ∧
    someState (fun s => (s.share 0).resident = some 0 ∧ (s.part? 0).any (fun p => !leaves s p && (s.waiters 0).any (fun q => q.prio == p.prio)) = true ∧
      (s.share 0).preempt = false) ∧
    someState (fun s => (s.share 0).resident = some 0 ∧ (s.part? 0).any (fun p => (s.waiters 0).any (fun q => decide (p.prio < q.prio))) = true ∧
      (s.share 0).preempt = false) ∧
    someState (fun s => (s.share 0).resident = some 0 ∧ (s.part? 0).any (fun p => !s.wantsCluster 0 p) = true ∧ s.residentWgs 0 = [] ∧
      s.waiters 0 ≠ [] ∧ (s.share 0).preempt = false) ∧
    someState (fun s => (s.share 0).resident = some 0 ∧ (s.part? 0).isSome = true ∧ (s.share 0).preempt = false ∧ (s.share 0).retiring = true) ∧
    someState (fun s => (s.share 0).resident = some 0 ∧ (s.part? 0).isSome = true ∧ (s.share 0).preempt = true ∧ (s.residentWgs 0).all s.canSave = false) ∧
    someState (fun s => (s.share 0).resident = some 0 ∧ (s.share 0).preempt = true ∧ s.residentWgs 0 ≠ [] ∧ (s.residentWgs 0).all s.canSave = true) ∧
    someState (fun s => (s.share 0).resident = none ∧ (s.share 0).retiring = true ∧ s.swapping 0 = none ∧
      ∀ w ∈ s.wgs, w.onCore = true → coreCluster w.phys ≠ 0) ∧
    -- a saved workgroup whose turn it is, on an enabled cluster and in the middle of a swap on one that retires
    someState (fun s => (s.share 0).state = .enabled ∧ s.swapping 0 = none ∧ restores s = true) ∧
    someState (fun s => (s.share 0).state = .retired ∧ s.swapping 0 = some 0 ∧ restores s = true) ∧
    -- a halt raised; dumps dropped, with no area, and with room
    someState (fun s => (s.halts.find? (fun h => h.stage == .raised)).isSome = true ∧ (s.part? 0).isSome = true) ∧
    someState (fun s => ((s.halts.filter (fun h => h.stage == .halted)).find? (fun h => h.dropped && s.drainedAll h)).isSome = true) ∧
    someState (fun s => (leastBy (fun (h : Halt) => h.haltCyc) ((s.halts.filter (fun h => h.stage == .halted)).filter (fun h => !h.dropped))).any
      (fun h => s.drainedAll h && (s.partOf h.part).dumpArea.size == 0) = true) ∧
    someState (fun s => (leastBy (fun (h : Halt) => h.haltCyc) ((s.halts.filter (fun h => h.stage == .halted)).filter (fun h => !h.dropped))).any
      (fun h => s.drainedAll h && (s.partOf h.part).dumpArea.size != 0 &&
        decide (s.num ((s.partOf h.part).dumpArea.addr + 0x10) 8 + 256 ≤ (s.partOf h.part).dumpArea.size)) = true) ∧
    -- a message held, with room and without
    someState (fun s => (s.part? 0).any (fun p => p.irqJ != 0 && !s.irqFull p && p.held != []) = true) ∧
    someState (fun s => (s.part? 0).any (fun p => p.irqJ != 0 && s.irqFull p) = true) := by
  refine ⟨⟨sliced id id [] [], inv_of (by decide), by decide⟩, ⟨sliced id id [waiter 0] [], inv_of (by decide), by decide⟩,
    ⟨sliced id id [waiter 1] [], inv_of (by decide), by decide⟩,
    ⟨{ sliced id id [waiter 0] [] with wgs := [] }, inv_of (by decide), by decide⟩, ⟨sliced (fun c => { c with retiring := true }) id [] [], inv_of (by decide), by decide⟩,
    ⟨sliced (fun c => { c with preempt := true }) id [] [], inv_of (by decide), by decide⟩,
    ⟨sliced (fun c => { c with preempt := true }) stops0 [] [], inv_of (by decide), by decide⟩,
    ⟨State.reset.modShare 0 (fun c => { c with resident := none, retiring := true }), inv_of (by decide), by decide⟩,
    ⟨(sliced id saved0 [] []).modShare 0 (fun c => { c with resident := none }), inv_of (by decide), by decide⟩,
    ⟨(sliced id saved0 [] []).modShare 0 (fun c => { c with resident := none, state := .retired, incoming := some 0 }), inv_of (by decide), by decide⟩,
    ⟨sliced id id [] [halt0 .raised false], inv_of (by decide), by decide⟩, ⟨sliced id halts0 [] [halt0 .halted true], inv_of (by decide), by decide⟩,
    ⟨sliced id halts0 [] [halt0 .halted false], inv_of (by decide), by decide⟩,
    ⟨withPart (sliced id halts0 [] [halt0 .halted false]) (fun p => { p with dumpArea := ⟨0x10000, 4096⟩ }), inv_of (by decide), by decide⟩,
    ⟨withPart (sliced id id [] []) (fun p => { p with irqJ := 4, irqRing := 0x10000, held := [⟨3, 0, 0⟩] }), inv_of (by decide), by decide⟩,
    ⟨withPart { sliced id id [] [] with mem := [(0x10000, 15)] } (fun p => { p with irqJ := 4, irqRing := 0x10000, held := [⟨3, 0, 0⟩] }), inv_of (by decide), by decide⟩⟩

/-- The pages of `submission`, with nothing of it else. -/
def owner (s : State) : State := { s with parts := [home0 false], mem := (submission false).mem }
/-- An event, and the log that a replay of partition 0 has for home 0: that event, then another. -/
def entry0 (seq : Nat) (addr : DWord) : LogEntry := ⟨seq, 3, 0, 0, 0, 0, addr, 5⟩
def replaying (log : List LogEntry) : State :=
  withPart (splitAt id) (fun p => { p with replay := some { ckpt := 0, freeRun := false, log := if log = [] then [(1, [entry0 0 0])] else [(0, log)] } })
def event0 (addr value : DWord) : Event := { kind := 3, lane := 0, group := 0, wg := 0, ticket := 0, home := 0, addr := addr, value := value }
/-- A sample that waits for the split placed. -/
def sample0 : PendingSample := { gid := 1, sid := 0, part := 0, die := 0, cycle := 0, stall := 0xFF }
/-- Observation of partition 0. -/
def observed (f : ObsControl → ObsControl) (s : State) : State := withPart s (fun p => { p with obs := f p.obs })
/-- A legacy image of no words, with its empty list of safe points. -/
def object0 : CodeObject :=
  ⟨true, true, 0xC7D7, 3, [⟨shImage, 0, 0x10000, [0, 0, 0, 0, 0, 5] ++ List.replicate 58 0⟩, ⟨shSafe, 0, 0x20000, []⟩], [], 0x10000⟩
/-- A split asked to stop; one that meets a breakpoint, a BKPT, or neither; samples with and without a split, timely and late; the four
latches of a snapshot; a checkpoint that may be taken or not, with contexts that may be saved or not; objects that load and that do not;
events of a replay that match, differ, come later, or nowhere. -/
theorem witness_ObservationEvents :
    (∃ (s : State) (c : Ctx), s.ctx? 1 0 = some c ∧ c.sp.stop = .boundary ∧ c.sp.stop.due = true ∧ c.sp.word = 0) ∧
    (∃ (s : State) (c : Ctx), s.ctx? 1 0 = some c ∧ c.sp.stop.due = true ∧ (s.siteOf c.w c.sp).isSome = true) ∧
    (∃ (s : State) (c : Ctx), s.ctx? 1 0 = some c ∧ c.sp.stop = .running ∧ c.mayMove = true ∧ c.sp.state = .ready ∧ s.bpHits c = true ∧
      c.sp.bkptTag = none) ∧
    (∃ (s : State) (c : Ctx), s.ctx? 1 0 = some c ∧ c.sp.stop = .running ∧ c.mayMove = true ∧ c.sp.state = .inTrap ∧ s.bpHits c = true ∧
      c.sp.bkptTag = some 7) ∧
    (∃ (s : State) (c : Ctx), s.ctx? 1 0 = some c ∧ c.sp.stop = .running ∧ c.mayMove = true ∧ s.bpHits c = false ∧ c.sp.bkptTag = some 7 ∧
      (s.partOf c.w.part).obs.bken = true) ∧
    (∃ (s : State) (c : Ctx), s.ctx? 1 0 = some c ∧ c.sp.stop = .running ∧ c.mayMove = true ∧ s.bpHits c = false ∧ c.sp.bkptTag = none) ∧
    (∃ s : State, s.sampleSplit 0 0 = none) ∧
    (∃ (s : State) (y : Ctx × Nat), s.sampleSplit 0 0 = some y ∧ (s.partOf y.1.w.part).obs.smpl = 0) ∧
    (∃ (s : State) (y : Ctx × Nat), s.sampleSplit 0 0 = some y ∧ (s.partOf y.1.w.part).obs.smpl ≠ 0) ∧
    (∃ (s : State) (x : PendingSample), s.samples.find? (fun x => x.gid == 1 && x.sid == 0) = some x ∧ (s.ctx? x.gid x.sid).isNone = true) ∧
    (∃ (s : State) (x : PendingSample), s.samples.find? (fun x => x.gid == 1 && x.sid == 0) = some x ∧ ¬ 65536 < (s.die x.die).cycle - x.cycle ∧
      (s.ctx? x.gid x.sid).any (fun c => (s.siteOf c.w c.sp).isSome && c.mayMove && c.sp.state == .ready) = true) ∧
    (∃ (s : State) (x : PendingSample), s.samples.find? (fun x => x.gid == 1 && x.sid == 0) = some x ∧ 65536 < (s.die x.die).cycle - x.cycle ∧
      (s.ctx? x.gid x.sid).isSome = true) ∧
    (∃ s : State, s.snap.active = false) ∧ (∃ s : State, s.snap.active = true ∧ s.snap.latched.any (fun x => x.1 == 3) = true) ∧
    (∃ s : State, s.snap.active = true ∧ s.snap.latched.any (fun x => x.1 == 3) = false ∧ s.snap.latched.length = 3) ∧
    (∃ s : State, s.snap.active = true ∧ s.snap.latched.any (fun x => x.1 == 3) = false ∧ s.snap.latched.length ≠ 3) ∧
    (∃ (s : State) (p : Partition), s.part? 0 = some p ∧ s.mayCheckpoint p = false) ∧
    (∃ (s : State) (p : Partition), s.part? 0 = some p ∧ s.mayCheckpoint p = true ∧ (((s.signalPart 0).modPart 0 (fun p => { p with ckptBusy := true })).checkpointWgs 0).all
      ((s.signalPart 0).modPart 0 (fun p => { p with ckptBusy := true })).canSave = false) ∧
    (∃ (s : State) (p : Partition), s.part? 0 = some p ∧ s.mayCheckpoint p = true ∧ (((s.signalPart 0).modPart 0 (fun p => { p with ckptBusy := true })).checkpointWgs 0).all
      ((s.signalPart 0).modPart 0 (fun p => { p with ckptBusy := true })).canSave = true) ∧
    loadObject ⟨false, true, 0xC7D7, 3, [], [], 0⟩ 1 = .failed 0xB201 ∧
    (∃ (s : State) (p : Partition), s.part? 0 = some p ∧ (match loadObject object0 p.imageNext with
      | .ready xs _ => (xs.mapM (s.loadSection p)).isNone
      | _ => false) = true) ∧
    (∃ (s : State) (p : Partition), s.part? 0 = some p ∧ (match loadObject object0 p.imageNext with
      | .ready xs _ => (xs.mapM (s.loadSection p)).isSome
      | _ => false) = true) ∧
    (∃ s : State, (s.replayOf 0).any (fun r => logOf 0 r.log == []) = true) ∧
    (∃ s : State, (s.replayOf 0).any (fun r => logOf 0 r.log == [entry0 0 16, entry0 1 32]) = true) ∧
    (event0 16 5).hits (entry0 0 16) = true ∧ (event0 32 5).hits (entry0 0 16) = false ∧ [entry0 1 32].any (event0 32 5).hits = true ∧
    [entry0 1 32].any (event0 48 5).hits = false := by
  refine ⟨⟨splitAt (fun sp => { sp with word := 0, stop := .boundary }), can_see _ (by decide)⟩, ⟨splitAt (fun sp => { sp with stop := .asked }), can_see _ (by decide)⟩,
    ⟨observed (fun o => { o with bken := true, bps := [(0x8000FFFFFFFF0000, 1)] }) (splitAt id), can_see _ (by decide)⟩,
    ⟨observed (fun o => { o with bken := true, bps := [(0x8000FFFFFFFF0000, 1)] }) (probe .bkpt (args 0 7 0 0 0) trapped), can_see _ (by decide)⟩,
    ⟨observed (fun o => { o with bken := true }) (probe .bkpt (args 0 7 0 0 0) id), can_see _ (by decide)⟩, ⟨splitAt id, can_see _ (by decide)⟩,
    ⟨State.reset, by decide⟩, ⟨splitAt id, can_take _ (by decide)⟩, ⟨observed (fun o => { o with smpl := 1 }) (splitAt id), can_take _ (by decide)⟩,
    ⟨{ State.reset with samples := [sample0] }, can_take _ (by decide)⟩, ⟨{ splitAt id with samples := [sample0] }, can_take _ (by decide)⟩,
    ⟨{ (splitAt id).modDie 0 (fun d => { d with cycle := 65537 }) with samples := [sample0] }, can_take _ (by decide)⟩,
    ⟨State.reset, by decide⟩, ⟨{ State.reset with snap := { Snapshot.reset with active := true, latched := [(3, 0)] } }, by decide⟩,
    ⟨{ State.reset with snap := { Snapshot.reset with active := true, latched := [(0, 0), (1, 0), (2, 0)] } }, by decide⟩,
    ⟨{ State.reset with snap := { Snapshot.reset with active := true } }, by decide⟩, ⟨splitAt id, can_take _ (by decide)⟩,
    ⟨observed (fun o => { o with ckt := 1 }) (splitAt id), can_take _ (by decide)⟩, ⟨observed (fun o => { o with ckt := 1 }) (splitAt (fun sp => { sp with word := 0 })), can_take _ (by decide)⟩,
    rfl, ⟨splitAt id, can_take _ (by decide +kernel)⟩, ⟨owner State.reset, can_take _ (by decide +kernel)⟩, ⟨replaying [], by decide⟩, ⟨replaying [entry0 0 16, entry0 1 32], by decide⟩, by decide, by decide, by decide, by decide⟩

/-- A word at physical address 4096, in a core's L1. -/
def word0 (st : L1State) : L1Word := { key := 1024, part := 0, st := st, data := 7, have_ := 15, dirty := 15, nibs := 0xFF, tag := false, inv := false }
/-- The word in the L1 of a core. -/
def cached (core : Nat) (st : L1State) (s : State) : State := s.modCore core (fun k => { k with l1 := [word0 st] })
/-- Nodes of die 0's directory. -/
def noded (ns : List Node) (cycle : Nat) : State := State.reset.modDie 0 (fun d => { d with nodes := ns, cycle := cycle })
def node0 (base size : Nat) (st : NodeState) (hold : BitVec 5) : Node := { base := base, size := size, st := st, hold := hold, changed := 0 }
theorem witness_CoherenceEvents :
    -- a word that is D, V, or not there; one that another core of the die holds registered, and one that none does
    someState (fun s => ((s.core 0).word? 1024).any (fun w => w.st == .dirty) = true) ∧
    someState (fun s => ∀ w ∈ (s.core 0).l1, w.key / 32 ≠ 32) ∧
    someState (fun s => (s.core 0).word? 1024 = none ∧ (uniq ((s.core 0).linesHeld ++ [1024 / 32])).length ≤ l1Lines ∧
      s.poisonAt 4096 = false ∧ (s.registrants 1024 (some 0)).any (fun c => coreDie c == coreDie 0) = true) ∧
    someState (fun s => (s.registrants 1024 (some 0)).any (fun c => coreDie c == coreDie 0) = false) ∧
    -- a node that covers the line at which a request is made
    someState (fun s => memoryRange (128 * 32) 128 = true ∧ homeDie (32 * 128) = 0 ∧ ((s.die 0).nodes.find? (fun n => n.covers 32)).any (fun n =>
      n.st == .u && (s.die 0).nodes.all (fun x => !x.covers 32 || x.base == n.base)) = true) ∧
    -- quiet siblings that may merge, and siblings that are not quiet
    someState (fun s => ((s.die 0).nodes.find? (fun n => n.base == 32)).any (fun a => ((s.die 0).nodes.find? (fun n => n.base == 33 && n.size == 0)).any (fun b =>
      (s.die 0).isQuiet a && (s.die 0).isQuiet b && mergedState s.free a b == some (.s, 3))) = true) ∧
    someState (fun s => ((s.die 0).nodes.find? (fun n => n.base == 32)).any (fun a => decide (a.size < 9) && ((s.die 0).nodes.find? (fun n => n.base == 33 && n.size == 0)).any
      (fun b => !(s.die 0).isQuiet a || !(s.die 0).isQuiet b)) = true) ∧
    -- a node that a die owns
    someState (fun s => homeDie (128 * 32) = 0 ∧ ((s.die 0).nodes.find? (fun n => n.base == 32)).any (fun n => n.st == .o && n.hold.getLsbD 3) = true ∧
      s.parts = []) ∧
    -- a partition whose extents meet a node, and one whose extents do not
    someState (fun s => homeDie (128 * 32) = 0 ∧ ((s.die 0).nodes.find? (fun n => n.base == 32)).any (fun n => s.parts.any (fun p => p.extents.any (fun e =>
      !e.device && decide (128 * n.base < e.base + e.size) && decide (e.base < 128 * (n.base + 2 ^ n.size))))) = true) ∧
    someState (fun s => homeDie (128 * 32) = 0 ∧ s.parts ≠ [] ∧ ((s.die 0).nodes.find? (fun n => n.base == 32)).any (fun n => s.parts.all (fun p =>
      p.extents.all (fun e => !(!e.device && decide (128 * n.base < e.base + e.size) && decide (e.base < 128 * (n.base + 2 ^ n.size)))))) = true) ∧
    -- the companion: memory, a register, an address that is none
    someState (fun s => s.linkDown = false ∧ memoryRange 4096 1 = true) ∧
    someState (fun s => s.linkDown = false ∧ memoryRange Config.mailboxPage 8 = false ∧ isDevice Config.mailboxPage = true ∧
      (s.deviceStore Config.mailboxPage 8 5).isSome = true) ∧
    someState (fun s => memoryRange (Config.mailboxPage + 0x1000000) 8 = false ∧ isDevice (Config.mailboxPage + 0x1000000) = true ∧
      (s.deviceStore (Config.mailboxPage + 0x1000000) 8 5).isNone = true) ∧
    someState (fun s => s.linkDown = false ∧ memoryRange (2 ^ 51) 8 = false ∧ isDevice (2 ^ 51) = false) := by
  refine ⟨⟨cached 0 .dirty State.reset, inv_of (by decide), by decide⟩, ⟨State.reset, inv_of (by decide), by decide⟩,
    ⟨cached 1 .registered State.reset, inv_of (by decide), by decide⟩, ⟨State.reset, inv_of (by decide), by decide⟩,
    ⟨noded [node0 32 0 .u 0] 0, inv_of (by decide), by decide⟩, ⟨noded [node0 32 0 .s 1, node0 33 0 .s 2] (2 ^ 40), inv_of (by decide), by decide⟩,
    ⟨noded [node0 32 0 .s 1, node0 33 0 .s 2] 0, inv_of (by decide), by decide⟩, ⟨noded [node0 32 0 .o 8] 0, inv_of (by decide), by decide⟩,
    ⟨{ noded [node0 32 0 .o 8] 0 with parts := [home0 false] }, inv_of (by decide), by decide⟩,
    ⟨{ noded [node0 32 0 .o 8] 0 with parts := [{ home0 false with extents := [⟨false, 4224, 4096⟩] }] }, inv_of (by decide), by decide⟩,
    ⟨State.reset, inv_of (by decide), by decide⟩, ⟨State.reset, inv_of (by decide), by decide⟩, ⟨State.reset, inv_of (by decide), by decide⟩,
    ⟨State.reset, inv_of (by decide), by decide⟩⟩

/-- The places of a packet at its owner. -/
def atOwner (s : State) (p : Packet) : Option (Nat × Leaf) :=
  (s.part? p.part).bind (fun pt => match s.ownerByte pt (128 * p.line + (packetOffsets p).headD 0) (packetUse p) with | .ok y => some y | .error _ => none)
def sending (engine : Bool) : State := { heldAt id (splitAt id) with sent := [sent0 engine] }
/-- The paths to package 1 are down. -/
def pathsDown (s : State) : State := { s with paths := (List.range 4).map (fun k => ⟨1, k, k, .down, 0⟩) }
theorem witness_FabricEvents :
    -- a packet of no partition here; one performed; one held; one performed now: not mapped, a load, poisoned, a store, an atomic
    (∃ s : State, s.part? (packet0 0 0 false []).part = none) ∧
    (∃ (s : State) (pt : Partition), s.part? (packet0 0 0 false []).part = some pt ∧ s.performed (packet0 0 0 false []) = true) ∧
    (∃ (s : State) (pt : Partition), s.part? (packet0 1 0 true [2]).part = some pt ∧ s.performed (packet0 1 0 true [2]) = false ∧ s.heldPkts = [] ∧
      (packet0 1 0 true [2]).ordered = true ∧ s.covered (packet0 1 0 true [2]) = false) ∧
    (∃ (s : State) (pt : Partition), s.part? (packet0 0 0 false []).part = some pt ∧ s.performed (packet0 0 0 false []) = false ∧ s.heldPkts = [] ∧
      pt.replay = none ∧ s.observes 0 = false ∧ atOwner s (packet0 0 0 false []) = none) ∧
    (∀ p ∈ [packet0 0 0 false [], packet0 1 0 true [], packet0 2 8 false []], ∃ (s : State) (pt : Partition), s.part? p.part = some pt ∧ s.performed p = false ∧
      s.heldPkts = [] ∧ (p.ordered = false ∨ s.covered p = true) ∧ pt.replay = none ∧ s.observes p.part = false ∧ (atOwner s p).isSome = true ∧
      pt.obs.ckt = 0 ∧ ∀ o ∈ packetOffsets p, s.poisonAt (((atOwner s p).map (·.1)).getD 0 / 128 * 128 + o) = false) ∧
    (∃ (s : State) (pt : Partition), s.part? 0 = some pt ∧ packetReads (packet0 0 0 false []) = true ∧ pt.replay = none ∧
      (atOwner s (packet0 0 0 false [])).map (·.1) = some (2 ^ 30) ∧ s.poisonAt (2 ^ 30) = true) ∧
    -- a held packet that is covered, and one that is not
    (∃ s : State, (s.heldPkts.find? (fun q => q.source == 1 && q.part == 0 && q.path == 0 && q.seq == 1)).any (fun p => p.ordered && s.covered p) = true ∧
      (s.part? 0).any (fun pt => pt.replay.isNone) = true) ∧
    (∃ s : State, (s.heldPkts.find? (fun q => q.source == 1 && q.part == 0 && q.path == 0 && q.seq == 1)).any (fun p => p.ordered && !s.covered p) = true ∧
      (s.part? 0).any (fun pt => pt.replay.isNone) = true) ∧
    -- a packet sent, for an operation and for an engine
    (∃ (s : State) (q : SentPacket), s.sentPacket 1 0 0 1 = some q ∧ s.answers = [] ∧ q.engine = false ∧ q.keep = none ∧
      (s.group? q.gid).any (fun g => (g.ops.find? (fun o => o.id == q.opId)).any (fun o => o.untagged q [] == 0)) = true) ∧
    (∃ (s : State) (q : SentPacket), s.sentPacket 1 0 0 1 = some q ∧ q.engine = false ∧ q.pkt.kind = 0 ∧
      (s.group? q.gid).any (fun g => (g.ops.find? (fun o => o.id == q.opId)).any (fun o => o.untagged q [] != 0)) = true) ∧
    (∃ (s : State) (q : SentPacket), s.sentPacket 1 0 0 1 = some q) ∧
    -- paths
    (∃ s : State, 3 < Config.pathsPerRoute ∧ 1 ≠ s.pod ∧ (s.linkState 1 3).takes = true) ∧
    (∃ s : State, (s.linkState 1 3).takes = false ∧ ∀ b ∈ s.counts, b.dest = 1 → b.path = 3 → b.sent = b.acked) ∧
    (∃ s : State, (s.linkState 1 3).takes = false ∧ ∃ b ∈ s.counts, b.dest = 1 ∧ b.path = 3 ∧ b.sent ≠ b.acked) ∧
    (∃ s : State, s.livePaths 1 ≠ []) ∧ (∃ s : State, s.livePaths 1 = [] ∧ ∀ q ∈ s.sent, q.dest ≠ 1) ∧
    ∃ s : State, s.livePaths 1 = [] ∧ (∃ q ∈ s.sent, q.dest = 1) ∧ ∀ q ∈ s.sent, q.dest = 1 → q.pkt.part = 0 := by
  refine ⟨⟨State.reset, by decide⟩, ⟨{ splitAt id with perfs := [⟨1, 0, 0, 1, []⟩] }, can_take _ (by decide)⟩, ⟨splitAt id, can_take _ (by decide)⟩,
    ⟨splitAt id, can_take _ (by decide)⟩, ?_, ⟨{ owner State.reset with poison := [2 ^ 30 / 16] }, can_take _ (by decide)⟩,
    ⟨{ splitAt id with heldPkts := [packet0 1 0 true []] }, by decide⟩, ⟨{ splitAt id with heldPkts := [packet0 1 0 true [2]] }, by decide⟩,
    ⟨sending false, can_take _ (by decide)⟩,
    ⟨(sending false).modGroup 1 (fun g => { g with ops := g.ops.map (fun o => { o with elems := [⟨0, 4, 0, 16, 2, 0x20, 0⟩] }) }), can_take _ (by decide)⟩,
    ⟨sending true, _, rfl⟩, ⟨State.reset, by decide⟩, ⟨pathsDown State.reset, by decide⟩,
    ⟨{ pathsDown State.reset with counts := [⟨0, 1, 3, 1, 0⟩] }, by decide⟩, ⟨State.reset, by decide⟩, ⟨pathsDown State.reset, by decide⟩,
    ⟨pathsDown (sending false), by decide⟩⟩
  intro p hp
  simp only [List.mem_cons, List.not_mem_nil, or_false] at hp
  obtain rfl | rfl | rfl := hp <;> exact ⟨owner State.reset, can_take _ (by decide)⟩

/-- Operands of a command. -/
def mgmt (a0 a1 a2 a3 a4 a5 : DWord) : MgmtArgs := ⟨a0, a1, a2, a3, a4, a5⟩
/-- A partition descriptor at physical address 2^30: one die, cluster 0, one page of memory. -/
def described : State :=
  { State.reset with mem := ([(0, 0x50), (1, 0x44), (2, 0x53), (3, 0x43), (4, 1), (7, 1), (0x19, 0xFF), (0x1A, 0xFF), (0x1B, 0xFF)] ++
      (List.range 23).map (fun i => (0x1D + i, 0xFF)) ++ [(0x34, 1), (0x49, 0x10)] : List (Nat × Byte)).map (fun c => (2 ^ 30 + c.1, c.2)) }
/-- Buffers at physical address 2^30; a partition that exists and one that does not; a doorbell that starts a command, that meets none, and
that meets one in progress. -/
theorem witness_MailboxAndCommands :
    (∃ s : State, s.mailbox.busy = true) ∧ (∃ s : State, s.mailbox.busy = false ∧ s.mailbox.command = none) ∧
    (∃ (s : State) (i : Instr), s.mailbox.busy = false ∧ s.mailbox.command = some i) ∧
    blankFrom 2 (mgmt 0 0 1 0 0 0) = false ∧ State.reset.part? 0 = none ∧
    (blankFrom 2 (mgmt 0x40000000 64 0 0 0 0) = true ∧ bufferOk 0x40000000 64 = true) ∧
    (blankFrom 2 (mgmt 3 (2 ^ 40 - 1 - 0xFE) 0 0 0 0) = true ∧ bits (2 ^ 40 - 1 - 0xFE) 63 40 = 0 ∧ bits (2 ^ 40 - 1 - 0xFE) 7 1 = 0) ∧
    (blankFrom 2 (mgmt 0xFFFF 15 0 0 0 0) = true) ∧ (blankFrom 3 (mgmt 0x40000000 0 16 0 0 0) = true ∧ bufferOk 0x40000000 0 = true) ∧
    bufferOk 0x40000000 232 = true ∧
    (blankFrom 3 (mgmt 0x40000000 4096 0xFFFF0001 0 0 0) = true ∧ bufferOk 0x40000000 4096 = true ∧ bits 0xFFFF0001 15 1 = 0) ∧
    (∃ (s : State) (bs : List Byte), s.readDescriptor 0x40000000 = some bs ∧
      s.descriptorValid { partitionOf s.freshPart bs with domain := s.pod :: Config.braidDomain s.freshPart } bs = false) ∧
    ∃ (s : State) (bs : List Byte), s.readDescriptor 0x40000000 = some bs ∧
      s.descriptorValid { partitionOf s.freshPart bs with domain := s.pod :: Config.braidDomain s.freshPart } bs = true := by
  refine ⟨⟨{ State.reset with mailbox := { Mailbox.reset with mstat := 2 ^ 62 } }, by decide +kernel⟩,
    ⟨{ State.reset with mailbox := { Mailbox.reset with cmd := 0x99 } }, by decide⟩,
    ⟨{ State.reset with mailbox := { Mailbox.reset with cmd := 1 } }, _, by decide, rfl⟩,
    by decide, by decide, by decide, by decide, by decide, by decide, by decide, by decide, ⟨State.reset, can_take _ (by decide +kernel)⟩, ⟨described, can_take _ (by decide +kernel)⟩⟩

/-- The partition of `submission`, its descriptor at 2^30 + 0x800. -/
def managed (f : Partition → Partition) : State := { State.reset with parts := [f (home0 false)], mem := (submission false).mem }
/-- A checkpoint with a number. -/
def check0 (n : Nat) : Checkpoint := ⟨n, [], [], [], 1, [], [], [], [], [], [(0, [entry0 0 0])]⟩
/-- Operands in range, at the ends of their ranges; a map that needs no wait; a checkpoint in progress; two checkpoints, with logs; the group
placed. -/
theorem witness_PartitionCommands :
    (∃ (s : State) (p : Partition), s.part? (mgmt 0 0 0 0 0 0).a0.toNat = some p ∧ blankFrom 1 (mgmt 0 0 0 0 0 0) = true) ∧
    (∃ (s : State) (p : Partition), s.part? 0 = some p ∧ p.state ≠ .reconfiguring ∧ (s.readDescriptor (2 ^ 30)).any (fun bs =>
      s.descriptorValid (partitionOf p.num bs) bs && (partitionOf p.num bs).ptroot == p.ptroot && (partitionOf p.num bs).rbroot == p.rbroot &&
        (partitionOf p.num bs).ndie == p.ndie && (partitionOf p.num bs).pdie == p.pdie) = true) ∧
    (∃ (s : State) (p : Partition), s.part? 0 = some p ∧ (s.readDescriptor (2 ^ 30 + 0x1000)).any (fun bs => s.obsOk p bs) = true) ∧
    (∃ (s : State) (p : Partition), s.part? 0 = some p ∧ p.ticketOk 0 = true ∧ (0 : Nat) ≠ 0xFFFF ∧ 15 < 16) ∧
    (∃ (s : State) (p : Partition), s.part? 0 = some p ∧ p.ticketOk 1 = true ∧ p.checkpointing = false) ∧
    (∃ (s : State) (p : Partition), s.part? 0 = some p ∧ p.ticketOk 1 = true ∧ p.checkpointing = true) ∧
    (∃ (s : State) (p : Partition), s.part? 0 = some p ∧
      (((s.copyWhere (fun n _ => n == p.num)).partOf p.num).ckpts.find? (fun k => k.num == 0)).isSome = true ∧
      (((s.copyWhere (fun n _ => n == p.num)).partOf p.num).ckpts.find? (fun k => k.num == 1)).isSome = true) ∧
    (∃ (s : State) (p : Partition), s.part? 0 = some p ∧ (2 ^ 57 - 4096) / 4096 * 4096 + 1 * 4096 ≤ 2 ^ 57) ∧
    (∃ (s : State) (p : Partition), s.part? 0 = some p ∧ 0x40000000 % 64 = 0 ∧ memoryRange 0x40000000 (64 + 32 * 2 ^ 4) = true ∧
      memoryRange 0x40000000 (64 + 32 * 2 ^ 12) = true) ∧
    (∃ (s : State) (p : Partition), s.part? 0 = some p ∧ s.ringOk p 0x1000 128 64 128 = true) ∧
    (∃ (s : State) (p : Partition), s.part? 0 = some p ∧ s.ringOk p 0x1000 80 16 80 = true) ∧
    (∃ (s : State) (p : Partition), s.part? 0 = some p ∧ p.holds false 0x40000000 4096 = true ∧ memoryRange 0x40000000 4096 = true) ∧
    (∃ (s : State) (p : Partition), s.part? 0 = some p ∧
      (((s.copyWhere (fun n _ => n == p.num)).partOf p.num).ckpts.find? (fun k => k.num == 0)).any (fun k => k.log != []) = true) ∧
    ∃ (s : State) (p : Partition), s.part? 0 = some p ∧ (s.wgs.find? (fun w => w.part == p.num && w.ticket == 0 && w.wg == 0)).any (fun w =>
      ((s.groupsOf w.key).find? (fun g => g.groupId == 0)).isSome) = true := by
  refine ⟨⟨managed id, can_take _ (by decide)⟩, ⟨{ described with parts := [{ Partition.blank 0 with ndie := 1, pdie := [0] }] }, can_take _ (by decide +kernel)⟩,
    ⟨managed id, can_take _ (by decide +kernel)⟩, ⟨managed id, can_take _ (by decide)⟩,
    ⟨managed (fun p => { p with launches := [launch1] }), can_take _ (by decide)⟩,
    ⟨managed (fun p => { p with launches := [launch1], ckptBusy := true }), can_take _ (by decide)⟩,
    ⟨managed (fun p => { p with ckpts := [check0 0, check0 1] }), can_take _ (by decide +kernel)⟩, ⟨managed id, can_take _ (by decide +kernel)⟩,
    ⟨managed id, can_take _ (by decide +kernel)⟩, ⟨managed id, can_take _ (by decide +kernel)⟩, ⟨managed id, can_take _ (by decide +kernel)⟩,
    ⟨managed id, can_take _ (by decide +kernel)⟩, ⟨managed (fun p => { p with ckpts := [check0 0] }), can_take _ (by decide +kernel)⟩,
    ⟨splitAt id, can_take _ (by decide)⟩⟩

/-- The cluster 0 of die 0 changed. -/
def clustered (f : ClusterShare → ClusterShare) : State := State.reset.modShare 0 f
/-- A workgroup saved from cluster 0 whose place the map no longer names. -/
def strayed (clmap : List Nat) : State :=
  withPart ((sliced (fun c => { c with resident := none }) (fun w => { w with status := .saved, savedAt := 0 }) [] [])) (fun p => { p with clmap := clmap })
theorem witness_ServiceCommands :
    (∃ s : State, s.Inv ∧ s.part? 0xFFFF = none ∧ ∀ d ∈ s.dies, d.spareImage = true) ∧
    (∃ s : State, s.Inv ∧ s.part? 0xFFFF = none ∧ ∃ d ∈ s.dies, d.spareImage = false) ∧
    (blankFrom 2 (mgmt 0x40000000 1 0 0 0 0) = true ∧ bufferOk 0x40000000 1 = true) ∧
    (blankFrom 3 (mgmt 3 6 255 0 0 0) = true ∧ unitOk (mgmt 3 6 255 0 0 0) = true ∧ unitOk (mgmt 0 0 0 0 0 0) = true) ∧
    (∃ s : State, s.Inv ∧ s.part? 0xFFFF = none ∧ (s.share 0).checked = true ∧ (s.share 0).state = .retired) ∧
    (∃ s : State, s.Inv ∧ s.part? 0xFFFF = none ∧ (s.share 0).checked = false ∧ (s.share 0).state = .retired ∧ s.mailbox.busy = false) ∧
    (∃ s : State, s.Inv ∧ s.part? 0xFFFF = none ∧ (s.share 0).state = .enabled ∧ (s.share 0).resident = none ∧ s.swapping 0 = none ∧ s.wgs = []) ∧
    (∃ s : State, s.Inv ∧ s.part? 0xFFFF = none ∧ (s.share 0).state = .inService) ∧
    (∃ s : State, s.Inv ∧ s.part? 0xFFFF = none ∧ (s.share 0).state = .enabled ∧ ∃ w ∈ s.wgs, coreCluster w.phys = 0 ∧ w.onCore = true) ∧
    (∃ s : State, s.Inv ∧ s.part? 0xFFFF = none ∧ ∃ w ∈ s.wgs, w.status = .saved ∧ w.savedAt = 0 ∧ (s.partOf w.part).physCluster w.ldie w.lcluster = none) ∧
    (∃ s : State, s.Inv ∧ s.part? 0xFFFF = none ∧ (s.share 0).state ≠ .inService ∧ (∀ w ∈ s.wgs, w.status = .saved → w.savedAt = 0 → (s.partOf w.part).physCluster w.ldie w.lcluster ≠ none) ∧
      ∃ w ∈ s.wgs, w.status = .saved ∧ w.savedAt = 0) ∧
    (∃ s : State, s.Inv ∧ s.part? 0xFFFF = none ∧ (s.share 0).state ≠ .inService ∧ ∀ w ∈ s.wgs, w.status = .saved → w.savedAt ≠ 0) := by
  refine ⟨⟨{ State.reset with dies := State.reset.dies.map (fun d => { d with fwValidA := true, fwValidB := true }) }, inv_of (by decide), by decide, by decide⟩,
    ⟨{ State.reset with dies := State.reset.dies.map (fun d => { d with fwValidA := false, fwValidB := false }) }, inv_of (by decide), by decide, by decide⟩, by decide, by decide,
    ⟨clustered (fun c => { c with checked := true, state := .retired }), inv_of (by decide), by decide⟩,
    ⟨clustered (fun c => { c with checked := false, state := .retired }), inv_of (by decide), by decide⟩,
    ⟨clustered (fun c => { c with state := .enabled }), inv_of (by decide), by decide⟩,
    ⟨clustered (fun c => { c with state := .inService }), inv_of (by decide), by decide⟩, ⟨sliced id id [] [], inv_of (by decide), by decide⟩,
    ⟨strayed (List.replicate 24 0xFF), inv_of (by decide), by decide⟩, ⟨strayed (0 :: List.replicate 23 0xFF), inv_of (by decide), by decide⟩,
    ⟨State.reset, inv_of (by decide), by decide⟩⟩
/-- The resets of each scope; the cold reset's choices; the link up and down, with a tier-2 access outstanding and without; a reader. -/
theorem witness_ResetAndErrorEvents :
    (∃ s : State, s.Inv ∧ s.part? 0xFFFF = none ∧ s.linkDown = false ∧ (∀ g ∈ s.groups, ∀ o ∈ g.ops, o.tier2 = false)) ∧
    (∃ s : State, s.Inv ∧ s.part? 0xFFFF = none ∧ s.linkDown = true ∧ s.master < 4) ∧
    (∃ s : State, s.Inv ∧ s.part? 0xFFFF = none ∧ s.linkDown = false ∧ ∃ g ∈ s.groups, (∃ o ∈ g.ops, o.tier2 = true) ∧ g.splits ≠ [] ∧ (s.wg? g.wgKey).isSome = true) ∧
    (∃ s : State, s.Inv ∧ s.part? 0xFFFF = none ∧ ∃ p ∈ s.parts, 0 ∈ p.pdie) ∧
    (∃ s : State, s.Inv ∧ s.part? 0xFFFF = none ∧ (((some 1 : Option Nat).bind s.group?).any (fun g => (s.wg? g.wgKey).isSome && g.splits != [])) = true) ∧
    (∃ s : State, s.Inv ∧ s.part? 0xFFFF = none ∧ (none : Option Nat).bind s.group? = none) ∧
    (∃ s : State, s.Inv ∧ ∃ w ∈ s.wgs, coreCluster w.phys = 0 ∧ w.onCore = true) ∧
    (blankFrom 3 (mgmt 0 0 1 0 0 0) = true ∧ blankFrom 3 (mgmt 1 3 0 0 0 0) = true ∧ 30 / 8 < 4 ∧ 30 % 8 < 7 ∧ blankFrom 3 (mgmt 2 30 0 0 0 0) = true) ∧
    ([0x3F, 0x7F, 0x40, 1] : List (BitVec 8)).length = 4 ∧
    ∀ d < 4, [5, 6, 6, 0].getD d 7 < 7 ∧ (([0x3F, 0x7F, 0x40, 1] : List (BitVec 8)).getD d 0).getLsbD ([5, 6, 6, 0].getD d 7) = true := by
  refine ⟨⟨State.reset, inv_of (by decide), by decide⟩, ⟨{ State.reset with linkDown := true }, inv_of (by decide), by decide⟩,
    ⟨probe .nop (args 0 0 0 0 0) (fun g => { g with ops := [{ pending0 with tier2 := true }] }), inv_of (by decide), by decide⟩,
    ⟨splitAt id, inv_of (by decide), by decide⟩, ⟨splitAt id, inv_of (by decide), by decide⟩, ⟨State.reset, inv_of (by decide), by decide⟩,
    ⟨splitAt id, inv_of (by decide), by decide⟩, by decide, by decide, by decide⟩

/-! ### One step of memory, control and traps (values worked out from 08 R171, R180, R181; 10 R231 to R236; 16 R348, R357; 22 R405 to R411) -/

/-- The state after one step. -/
def now (s : State) : Option State := match step s with | .next t => some t | _ => none
/-- A step answers a next state. -/
def runs (s : State) : Bool := (now s).isSome
theorem test_runs_at_reset : runs (State.reset.withFetchWord 64 0) = true ∧ runs (State.reset.withFetchWord 64 0x0680000000000000) = true ∧
    runs (State.reset.withFetchWord 64 0xE0000002010E0509) = true := by decide
theorem test_ld_little_endian : (after { ptrProbe pad .ld (args 4 0 2 6 0) (withV [(2, 16)]) with
    mem := [(scratchKey 0 16, 0x44), (scratchKey 0 17, 0x33), (scratchKey 0 18, 0x22), (scratchKey 0 19, 0x11)] }).map (fun g => g.ops.map (·.vWrites)) =
    some [[(256, 0x11223344)]] := by decide
theorem test_ld_beyond_length : (after (ptrProbe pad .ld (args 4 0 2 6 0) (withV [(2, 4093)]))).map (·.faulted) = some true := by decide
theorem test_st_bytes : ((now (ptrProbe pad .st (args 4 0 2 6 0) (withV [(2, 4092), (4, 0x11223344)]))).map (fun t => t.bytes (scratchKey 0 4091) 5)) =
    some [0, 0x44, 0x33, 0x22, 0x11] := by decide
theorem test_atom_add : (now { ptrProbe { pad with fmt := 6 } .atom (args 4 0 2 6 0) (withV [(2, 8), (6, 3)]) with mem := [(scratchKey 0 8, 255)] }).map
    (fun t => t.bytes (scratchKey 0 8) 2) = some [2, 1] := by decide
theorem test_barv_last_arrival : (now (withBarrier (oneLeft 4 0) (probe .barv (args 0 1 0 0 0) id))).map (fun t =>
    ((t.barrierAt (scratchKey 0 0)).phase, (t.barrierAt (scratchKey 0 0)).pendArr)) = some (1, 4) := by decide
theorem test_bra_target : (after (probe .bra { branchArgs .bra with c := 5 } id)).map (fun g => g.splits.map (·.pc)) = some [40] := by decide +kernel
theorem test_bra_divides : (after (oneLane .bra { branchArgs .bra with c := 4 } id)).map (fun g => g.splits.map (fun sp => (sp.mask, sp.pc))) =
    some [(0xFFFFFFFFFFFFFFFE, 24), (1, 32)] := by decide +kernel
theorem test_call_saves : sAfter (probe .call (args 10 0 0 2 0) id) 10 = some 16 := by decide
theorem test_end_last : (after (probe .endLanes (args 0 0 0 0 0) id)).map (·.splits) = some [] := by decide
theorem test_trap_enters : (after (probe .trap (args 0 0x21 0 0 0) handled)).map (fun g =>
    (g.splits.map (fun sp => (sp.pc, sp.state)), g.frames.map (fun f => (f.code, f.aux)))) = some ([(0x100, .inTrap)], [(0x5006, 0x21)]) := by decide +kernel
theorem test_tret_returns : (after (probe .tret (args 0 0 0 0 0) trapped)).map (fun g => (g.splits.map (fun sp => (sp.state, sp.word)), g.frames)) =
    some ([(.ready, 2)], []) := by decide
theorem test_wrs_fmode : (after (probe .wrs (args 0x10 2 0 0 0) (withS [(2, 0xFF)]))).map (·.fmode0) = some 7 := by decide
theorem test_pder_narrows : (after (ptrProbe pad .pder (args 1 0 2 4 0) (withS [(2, 16), (4, 32)]))).map (fun g =>
    ((Ptr.ofBits (g.pReg 1)).base, (Ptr.ofBits (g.pReg 1)).len)) = some (16, 32) := by decide
theorem test_stream_ticket : sAfter (copyOf 16 (probe .stream (args 2 0 1 8 0) twoPads)) 2 = some 1 := by decide

end Sys2Proof.Tests
end

section
/-!
The machine as a whole: the state after reset, and what every step keeps.
-/
namespace Sys2Proof.Device
open Sys2Proof.Machine Sys2Proof.Laws

/-! ### Reset -/

/-- 01 R9, 08 R185: a die at cold reset has seven clusters, and its CYCLE is zero. -/
theorem dieReset_ok : Die.reset.clusters.length = 7 ∧ Die.reset.cycle < 2 ^ 64 := by decide

theorem diesOk_replicate {d : Die} (h : d.clusters.length = 7 ∧ d.cycle < 2 ^ 64) : diesOk (List.replicate 4 d) :=
  ⟨List.length_replicate, fun _ hd => (List.eq_of_mem_replicate hd).symm ▸ h⟩

theorem reset_inv : State.reset.Inv :=
  (State.inv_iff _).2 ⟨rfl, diesOk_replicate dieReset_ok⟩

/-- Log entry 8: no byte has been written, so every key reads as the byte that nothing has written. -/
@[simp] theorem reset_byte (k : Nat) : State.reset.byte k = resetByte := rfl

@[simp] theorem reset_die (d : Nat) : State.reset.die d = Die.reset := by
  simp only [State.die, State.reset, List.getD_eq_getElem?_getD, List.getElem?_replicate]
  split <;> rfl

/-- Settles O7: memory is empty, so in its canonical form, and every die is as a cold reset leaves it. -/
theorem resetMeetsInvariant : Obligations.ResetMeetsInvariant := by
  refine ⟨reset_inv, rfl, rfl, rfl, rfl, rfl, rfl, rfl, rfl, rfl, rfl, rfl, rfl, rfl, reset_byte, fun d _ => ?_⟩
  rw [reset_die]
  exact ⟨rfl, rfl⟩

/-! ### Steps -/

/-- 08 R185: time passes on every die, its CYCLE modulo 2^64. -/
theorem tick_inv {s : State} (h : s.Inv) : s.tick.Inv :=
  State.Inv.withDies (s := s) rfl
    (diesOk_map h.dies _ fun _ hd => ⟨hd.1, Nat.mod_lt _ (by decide)⟩) h

/-- What a step can do: a split's instruction or another agent's move is performed, or nothing moves; then time passes. -/
theorem step_cases {s t : State} (ht : step s = .next t) :
    (∃ i s' u, s.choose = .issue i s' ∧ exec i s' = .next u ∧ t = ({ u with cur := none } : State).tick) ∨
    (∃ i s' u, s.choose = .event i s' ∧ exec i s' = .next u ∧ t = u.tick) ∨
    (∃ s', s.choose = .stay s' ∧ t = s'.tick) := by
  unfold step at ht
  split at ht
  case h_1 i s' hc =>
    split at ht <;> cases ht
    exact .inl ⟨i, s', _, hc, ‹_›, rfl⟩
  case h_2 i s' hc =>
    split at ht <;> cases ht
    exact .inr (.inl ⟨i, s', _, hc, ‹_›, rfl⟩)
  case h_3 s' hc =>
    cases ht
    exact .inr (.inr ⟨s', hc, rfl⟩)

theorem exec_next_inv {i : Instr} {s u : State} (h : s.Inv) (hu : exec i s = .next u) : u.Inv := by
  have ho := exec_inv i s h
  rwa [hu] at ho

/-- Settles O8: the state that a move names meets the invariant, no instruction or event breaks it, nor does the passing of
time. -/
theorem stepKeepsInvariant : Obligations.StepKeepsInvariant := by
  intro s t h ht
  have hm := choose_ok h
  obtain ⟨i, s', u, hc, hu, rfl⟩ | ⟨i, s', u, hc, hu, rfl⟩ | ⟨s', hc, rfl⟩ := step_cases ht
  all_goals rw [hc] at hm
  · exact tick_inv (State.Inv.same (s := u) rfl rfl (exec_next_inv hm hu))
  · exact tick_inv (exec_next_inv hm hu)
  · exact tick_inv hm

end Sys2Proof.Device
end

section
/-!
Pointer derivation (02 R26, R36): what a derived pointer reaches, and that it is well-formed.
-/
namespace Sys2Proof.Laws
open Sys2Proof.Machine

/-- 02 R25: the limits of BASE and LEN, SPACE 2 apart. -/
theorem limitsOk_narrow {q q' : Ptr} (hs : q'.space = q.space) (h2 : q.space ≠ 2)
    (he : q'.base + q'.len ≤ q.base + q.len) (h : q.limitsOk = true) : q'.limitsOk = true := by
  unfold Ptr.limitsOk scratchSize at *
  rw [hs]
  split at h <;> rename_i hspace
  · simp only [Bool.and_eq_true, decide_eq_true_eq] at h ⊢
    omega
  · exact absurd hspace h2
  · simp only [decide_eq_true_eq] at h ⊢
    omega
  · simp only [decide_eq_true_eq] at h ⊢
    omega

/-- 02 R25: the limits of BASE and LEN in SPACE 2. -/
theorem limitsOk_gang {q : Ptr} (h2 : q.space = 2) :
    q.limitsOk = true ↔ q.base < 2 ^ 24 ∧ q.base % 2 ^ 21 + q.len ≤ scratchSize := by
  simp [Ptr.limitsOk, h2]

/-- 02 R26: what well-formedness asks beside the limits of SPACE does not look at BASE, LEN. -/
theorem wf_moved {q : Ptr} (base len : Nat) (h : q.wf = true) (hl : ({ q with base := base, len := len } : Ptr).limitsOk = true) :
    ({ q with base := base, len := len } : Ptr).wf = true := by
  unfold Ptr.wf at *
  rw [Bool.and_eq_true] at h ⊢
  exact ⟨h.1, hl⟩

theorem limitsOk_of_wf {q : Ptr} (h : q.wf = true) : q.limitsOk = true := by
  unfold Ptr.wf at h
  exact (Bool.and_eq_true_iff.1 h).2

/-- 02 R26, R36: clearing rights and lowering CEIL to no less than SCOPE keeps a pointer well-formed. -/
theorem wf_restricted {q : Ptr} (r w x p inv : Bool) (ceil : Nat) (h : q.wf = true) (hs : q.scope ≤ ceil) (hc : ceil ≤ q.ceil)
    (hi : inv = true → q.inv = true) : ({ q with r := r, w := w, x := x, p := p, inv := inv, ceil := ceil } : Ptr).wf = true := by
  unfold Ptr.wf at *
  simp only [Bool.and_eq_true, decide_eq_true_eq] at h ⊢
  obtain ⟨⟨⟨⟨⟨⟨⟨⟨⟨htop, hspace⟩, hcls⟩, hscope⟩, hceil⟩, -⟩, hwide⟩, hinv⟩, horigin⟩, hlim⟩ := h
  refine ⟨⟨⟨⟨⟨⟨⟨⟨⟨htop, hspace⟩, hcls⟩, hscope⟩, Nat.le_trans hc hceil⟩, hs⟩, Nat.le_trans hc hwide⟩, ?_⟩, horigin⟩, hlim⟩
  cases inv with
  | false => rfl
  | true => rw [hi rfl] at hinv; exact hinv

/-- What a derivation of a sub-range leaves: the bytes of its source from an offset on, within the limits of SPACE. -/
theorem derive_subrange {q q' : Ptr} {off : Nat} {len : Option Nat} (h : q.derive off len = .ok q') :
    ∃ base n, q' = { q with base := base, len := n } ∧ n ≤ q.len ∧ q'.limitsOk = true ∧
      (q.space ≠ 2 → q.base ≤ base ∧ base + n ≤ q.base + q.len) ∧
      (q.space = 2 → q.base / 2 ^ 21 ≤ base / 2 ^ 21 ∧ q.base % 2 ^ 21 ≤ base % 2 ^ 21 ∧ base % 2 ^ 21 + n ≤ q.base % 2 ^ 21 + q.len) := by
  obtain ⟨hwf, n, hflat, hgang⟩ := derive_ok h
  have hlim := limitsOk_of_wf hwf
  by_cases h2 : q.space = 2
  · obtain ⟨hn, -, hm, rfl⟩ := hgang h2
    rw [limitsOk_gang h2, scratchSize] at hlim
    refine ⟨_, n, rfl, by omega, ?_, fun h => absurd h2 h, fun _ => by omega⟩
    refine (limitsOk_gang (q := { q with base := _, len := n }) h2).2 ?_
    dsimp only [scratchSize]
    omega
  · obtain ⟨hn, rfl⟩ := hflat h2
    exact ⟨_, n, rfl, by omega, limitsOk_narrow (q := q) rfl h2 (by dsimp only; omega) hlim,
      fun _ => by omega, fun h => absurd h h2⟩

/-- 10 R223: a sub-range of a well-formed pointer is well-formed. -/
theorem derive_wf {q q' : Ptr} {off : Nat} {len : Option Nat} (h : q.derive off len = .ok q') : q'.wf = true := by
  obtain ⟨base, n, rfl, -, hl, -⟩ := derive_subrange h
  exact wf_moved base n (derive_ok h).1 hl

/-- 10 R225: PRIGHT of a well-formed pointer gives one. -/
theorem restrict_wf {q q' : Ptr} {b m : Nat} (h : q.restrict b m = .ok q') : q'.wf = true := by
  obtain ⟨hwf, ceil, hs, hc, rfl⟩ := restrict_ok h
  exact wf_restricted _ _ _ _ _ ceil hwf hs hc (fun hi => (Bool.and_eq_true_iff.1 hi).1)

/-- Settles O30: a sub-range keeps rights, CEIL and home and lies in its source; a restriction keeps the bytes, and its rights and
CEIL are among those of its source. -/
theorem derivationNeverWidens : Obligations.DerivationNeverWidens := by
  refine ⟨fun q q' off b m len h => ?_, fun q q' off b m len h => h.elim derive_wf restrict_wf⟩
  rcases h with h | h
  · obtain ⟨base, n, rfl, hn, -, hflat, hgang⟩ := derive_subrange h
    exact ⟨id, id, id, id, Nat.le_refl _, rfl, rfl, rfl, hn, hflat, hgang⟩
  · obtain ⟨-, ceil, -, hc, rfl⟩ := restrict_ok h
    have kept : ∀ a b : Bool, (a && b) = true → a = true := fun _ _ h => (Bool.and_eq_true_iff.1 h).1
    exact ⟨kept _ _, kept _ _, kept _ _, kept _ _, hc, rfl, rfl, rfl, Nat.le_refl _,
      fun _ => ⟨Nat.le_refl _, Nat.le_refl _⟩, fun _ => ⟨Nat.le_refl _, Nat.le_refl _, Nat.le_refl _⟩⟩

end Sys2Proof.Laws
end

section
/-!
LDP (10 R241): what its outstanding instruction is, and what it brings.
-/
namespace Sys2Proof.Laws
open Sys2Proof.Machine

/-- LDP.p and LDP.q are one instruction in two forms. -/
theorem exec_ldp {row : Op × Bool} (h : row ∈ [(Op.ldp, false), (.ldpQ, true)]) (x : Args) (s : State) :
    exec (row.1.instr x) s = loadPtrExec row.1 row.2 x s := by
  simp only [List.mem_cons, List.not_mem_nil, or_false] at h
  obtain rfl | rfl := h <;> rfl

/-- 10 R241: the granules that the accesses of an LDP read at once, each as a pointer. -/
def granulesHere (s : State) (c : Ctx) (as : List LaneAcc) : List (LaneAcc × PtrBits) :=
  as.filterMap (fun a => (s.readPlaces c a.q a.places).map (fun bs => (a, BitVec.ofNat 128 (natOfBytes bs))))

/-- The accesses of an LDP whose granules a response brings. -/
def granulesAway (s : State) (c : Ctx) (as : List LaneAcc) : List LaneAcc :=
  as.filter (fun a => !(granulesHere s c as).any (fun h => h.1.lane == a.lane))

/-- 06 R120, 10 R241: what an LDP is while it is outstanding. -/
def ldpOp (c : Ctx) (x : Args) (q : Bool) (s : State) (as : List LaneAcc) : PendingOp :=
  let here := granulesHere s c as
  let far := granulesAway s c as
  { c.newOp x s.serial with
    vWrites := if q then here.flatMap (fun h => quadPut x.d.toNat h.1.lane h.2) else [],
    vTags := if q then (here.filter (fun h => (Ptr.ofBits h.2).wf)).map (fun h => x.d.toNat / 4 * 64 + h.1.lane) else [],
    pWrites := if q then [] else here.map (fun h => (x.d.toNat, h.2)),
    awaits := (s.sendLines c s.serial far loadPacket).2,
    elems := far.map (fun a => { lane := a.lane, reg := x.d.toNat, va := a.q.base + a.off, bytes := 16, nibble := 2,
                                 mfmt := 0x20, tfmt := if q then 0x21 else 0x20 }),
    tier2 := as.any (·.overLink),
    acq := if far.isEmpty then 0 else (match widestSync as with
      | some n => n + 1
      | none => 0) }

/-- What an LDP whose granules have been brought near leaves before it passes. -/
def pendLdp (s : State) (c : Ctx) (x : Args) (q : Bool) (as : List LaneAcc) : State :=
  let far := granulesAway s c as
  let t := ((s.sendLines c s.serial far loadPacket).1.logElems c 1 ((granulesHere s c as).map (fun h => (h.1, 0, h.2.toNat)))).pend c
    (ldpOp c x q s as)
  if far.isEmpty then t.acquireLanes c as else t

/-- 02 R30: the state in which an LDP reads: its lines have come, its granules are read as units. -/
def prepGranules (s : State) (c : Ctx) (as : List LaneAcc) : State :=
  (wordsOf as .l1).foldl (fun s k => s.fillGranule c.w.phys c.w.part k) (s.prepRead c as)

/-- An LDP that no check, no hold, no poison and no clear tag stops is outstanding. -/
theorem loadPtrExec_next {o : Op} {q : Bool} {x : Args} {s : State} {c : Ctx} (hi : s.issues o x c) {as : List LaneAcc}
    (hr : c.pairLanes s x q (c.active x) .ldp (fun _ => none) = ([], as))
    (hh : s.holdOf c as false 1 (as.map (fun a => (a, 0))) = none) (hp : s.poisonTraps as = [])
    (ht : ∀ a ∈ as, (prepGranules s c as).tagSeen c a = true) :
    loadPtrExec o q x s = .next ((pendLdp (prepGranules s c as) c x q as).finish c x) := by
  have hne : as ≠ [] := by
    have := pairLanes_ne hi.2.2.1 (congrArg Prod.fst hr)
    rwa [hr] at this
  have hclear : as.filter (fun a => !(prepGranules s c as).tagSeen c a) = [] :=
    List.filter_eq_nil_iff.2 fun a ha => by simp [ht a ha]
  unfold prepGranules at hclear
  unfold loadPtrExec
  rw [issue_eq hi]
  simp only [hr, hh, hp, hclear, List.map_nil, List.append_nil, List.flatMap_nil, ite_self, List.isEmpty_nil, Bool.not_true,
    stopsAll, List.any_nil, Bool.false_or, List.isEmpty_eq_false_iff.2 hne, Bool.false_eq_true, if_false, afterLanes, if_true]
  rfl

theorem prepGranules_carried (s : State) (c : Ctx) (as : List LaneAcc) :
    ∃ F, touches F ∧ s.Carried c.g.gid F (prepGranules s c as) := by
  obtain ⟨F, hF, h⟩ := prepRead_carried s c as
  exact ⟨F, hF, carried_calm h fun _ hG => calm_foldl (fun _ _ h => fillGranule_calm _ _ _ _ h) _ hG⟩

theorem pendLdp_carried {s t : State} {c : Ctx} {F : Group → Group} (h : s.Carried c.g.gid F t) (hF : ∀ g, (F g).gid = g.gid)
    (hr : s.replayOf c.w.part = none) (x : Args) (q : Bool) (as : List LaneAcc) :
    s.Carried c.g.gid (fun g => { ((F g).countUp (ldpOp c x q t as).flag) with ops := (F g).ops ++ [ldpOp c x q t as] }) (pendLdp t c x q as) := by
  have hsent := carried_calm h (fun _ hG => sendLines_calm t c t.serial (granulesAway t c as) loadPacket hG)
  have hpend := pend_carried (logElems_carried hsent hr 1 ((granulesHere t c as).map (fun h => (h.1, 0, h.2.toNat)))) hF (ldpOp c x q t as)
  unfold pendLdp
  dsimp only
  split
  · exact carried_calm hpend (fun _ hG => acquireLanes_calm _ _ _ hG)
  · exact hpend

/-! ### Granules in banks -/

/-- The pointer that the bytes of an access make. -/
def granuleAt (s : State) (a : LaneAcc) : PtrBits := BitVec.ofNat 128 (natOfBytes (a.places.map (fun p => s.byte p.key)))

theorem granulesHere_bank {as : List LaneAcc} (h : ∀ a ∈ as, a.inBank) (s : State) (c : Ctx) :
    granulesHere s c as = as.map (fun a => (a, granuleAt s a)) :=
  filterMap_all _ _ _ fun a ha => by rw [readPlaces_bank (h a ha)]; rfl

theorem granulesAway_bank {as : List LaneAcc} (h : ∀ a ∈ as, a.inBank) (s : State) (c : Ctx) : granulesAway s c as = [] := by
  unfold granulesAway
  rw [granulesHere_bank h]
  refine List.filter_eq_nil_iff.2 fun a ha => ?_
  have : (as.map (fun a => (a, granuleAt s a))).any (fun h => h.1.lane == a.lane) = true :=
    List.any_eq_true.2 ⟨(a, granuleAt s a), List.mem_map_of_mem ha, beq_self_eq_true _⟩
  simp [this]

theorem prepGranules_bank {as : List LaneAcc} (h : ∀ a ∈ as, a.inBank) (s : State) (c : Ctx) : prepGranules s c as = s := by
  unfold prepGranules
  rw [wordsOf_bank h, prepRead_bank h]; rfl

/-- An LDP of granules in banks leaves memory and tags. -/
theorem pendLdp_bank_mem {s : State} {c : Ctx} (hr : s.replayOf c.w.part = none) (x : Args) (q : Bool) {as : List LaneAcc}
    (h : ∀ a ∈ as, a.inBank) : (pendLdp s c x q as).mem = s.mem ∧ (pendLdp s c x q as).tags = s.tags := by
  unfold pendLdp
  simp only [granulesAway_bank h, List.isEmpty_nil, if_true]
  obtain ⟨hm, ht, -⟩ := acquireLanes_mem
    (((s.sendLines c s.serial [] loadPacket).1.logElems c 1 ((granulesHere s c as).map (fun h => (h.1, 0, h.2.toNat)))).pend c (ldpOp c x q s as)) c as
  rw [hm, ht]
  obtain ⟨ps, hps, -⟩ := logElems_parts (s := s) hr 1 ((granulesHere s c as).map (fun h => (h.1, 0, h.2.toNat)))
  rw [show (s.sendLines c s.serial [] loadPacket).1 = s from rfl, hps]
  exact ⟨rfl, rfl⟩

/-- Of granules in banks an LDP has the pointers at once. -/
theorem ldpOp_bank {s : State} {c : Ctx} (x : Args) (q : Bool) {as : List LaneAcc} (h : ∀ a ∈ as, a.inBank) :
    (ldpOp c x q s as).ready = true ∧ (ldpOp c x q s as).elems = [] ∧
      (ldpOp c x q s as).pWrites = (if q then [] else as.map (fun a => (x.d.toNat, granuleAt s a))) ∧
      (ldpOp c x q s as).vWrites = (if q then as.flatMap (fun a => quadPut x.d.toNat a.lane (granuleAt s a)) else []) ∧
      (ldpOp c x q s as).vTags =
        (if q then (as.filter (fun a => (Ptr.ofBits (granuleAt s a)).wf)).map (fun a => x.d.toNat / 4 * 64 + a.lane) else []) := by
  unfold ldpOp
  simp only [granulesAway_bank h, granulesHere_bank h]
  refine ⟨rfl, rfl, ?_, ?_, ?_⟩ <;> cases q
  · simp only [Bool.false_eq_true, if_false, List.map_map]; rfl
  · rfl
  · rfl
  · simp only [if_true, List.flatMap_map]
  · rfl
  · simp only [if_true, List.filter_map, List.map_map]; rfl

/-- Settles O34: the instruction that `ldpOp` gives is outstanding; of granules in banks its lanes read at once. -/
theorem pointerLoadsBringGranules : Obligations.PointerLoadsBringGranules := by
  intro row hrow s c x hi hr r u val h1 hh hp ht
  obtain ⟨F, hF, hu⟩ := prepGranules_carried s c r.2
  have hpend := pendLdp_carried hu (touches_gid hF) hr x row.2 r.2
  obtain ⟨g, hS, hregs, hmodes, hcount, hops, -⟩ := served_pending hi.1 x hF (ldpOp c x row.2 u r.2) rfl hpend
  refine ⟨(pendLdp u c x row.2 r.2).finish c x, g, ldpOp c x row.2 u r.2, ?_, hS, hregs, hmodes, hcount, hops, rfl, rfl, fun hb => ?_⟩
  · rw [exec_ldp hrow]
    exact loadPtrExec_next hi (Prod.ext h1 rfl) hh hp ht
  · have hsu : u = s := prepGranules_bank hb s c
    clear_value u
    subst hsu
    obtain ⟨hready, helems, hbrings⟩ := ldpOp_bank (s := u) (c := c) x row.2 hb
    obtain ⟨hm, htag⟩ := pendLdp_bank_mem (s := u) hr x row.2 hb
    exact ⟨hready, helems, hm, htag, hbrings⟩

end Sys2Proof.Laws
end

section
/-!
STP (10 R241): the granules that it writes.
-/
namespace Sys2Proof.Laws
open Sys2Proof.Machine

/-- STP.p and STP.q are one instruction in two forms. -/
theorem exec_stp {row : Op × Bool} (h : row ∈ [(Op.stp, false), (.stpQ, true)]) (x : Args) (s : State) :
    exec (row.1.instr x) s = storePtrExec row.1 row.2 x s := by
  simp only [List.mem_cons, List.not_mem_nil, or_false] at h
  obtain rfl | rfl := h <;> rfl

/-- 10 R241: the pointer that an STP stores for a lane. -/
def stpValue (c : Ctx) (x : Args) (q : Bool) (l : Nat) : PtrBits := if q then c.quad x.d.toNat l else c.p x.d.toNat

/-- 02 R32, 10 R241: what an STP checks of the pointer that it stores for a lane. -/
def stpCheck (c : Ctx) (x : Args) (q : Bool) (l : Nat) : Option Nat :=
  if q && !c.quadTag x.d.toNat l then some 0x2006 else if !(Ptr.ofBits (stpValue c x q l)).wf then some 0x2007 else none

/-- 02 R30: the packets of an STP. -/
def stpPacket (val : Nat → PtrBits) (line : Nat) (mine : List LaneAcc) (p : Packet) : Packet :=
  { p with kind := 1, tagged := true, ordered := mine.any (fun a => a.sync && a.q.scope == 4),
           bytes := mine.flatMap (fun a => (a.farIn line).zip (bytesOfNat 16 (val a.lane).toNat)) }

/-- The granules of some accesses written in turn. -/
def writePtrs (s : State) (c : Ctx) (val : Nat → PtrBits) (as : List LaneAcc) : State :=
  as.foldl (fun s a => s.writePtr c a (val a.lane)) s

/-- What an STP leaves before it passes, from a state in which its release has been made. -/
def putGranules (s : State) (c : Ctx) (val : Nat → PtrBits) (as : List LaneAcc) : State :=
  let t := (writePtrs (s.prepWrite c as) c val as).logElems c 2 (as.map (fun a => (a, 0, (val a.lane).toNat)))
  (t.sendLines c t.serial as (stpPacket val)).1

/-- An STP that no check and no hold stops, its release made, passes. -/
theorem storePtrExec_next {o : Op} {q : Bool} {x : Args} {s u : State} {c : Ctx} (hi : s.issues o x c) {as : List LaneAcc}
    (hr : c.pairLanes s x q (c.active x) .stp (stpCheck c x q) = ([], as))
    (hh : s.holdOf c as true 2 (as.map (fun a => (a, 0))) = none) (hu : s.releaseLanes c as = .ok u) :
    storePtrExec o q x s = .next ((putGranules u c (stpValue c x q) as).finish c x) := by
  have hne : as ≠ [] := by
    have := pairLanes_ne hi.2.2.1 (congrArg Prod.fst hr)
    rwa [hr] at this
  unfold stpCheck stpValue at hr
  unfold storePtrExec
  rw [issue_eq hi]
  simp only [hr, hh, hu, stopsAll, List.any_nil, Bool.false_or, List.isEmpty_eq_false_iff.2 hne, Bool.false_eq_true, if_false,
    afterLanes, List.isEmpty_nil, if_true]
  rfl

theorem prepWrite_carried_from {s t : State} {c : Ctx} {F : Group → Group} (h : s.Carried c.g.gid F t) (hF : ∀ g, (F g).gid = g.gid)
    (l : List LaneAcc) : ∃ H, touches H ∧ s.Carried c.g.gid (fun g => H (F g)) (t.prepWrite c l) := by
  obtain ⟨H, hH, h2⟩ := carried_noteLines (carried_calm h (fun _ hG => walkAll_calm t c l true hG)) hF (wordsOf l .l1)
  exact ⟨H, hH, carried_calm h2 (fun _ hG => markDirty_calm _ _ _ hG)⟩

theorem writePtr_calm {G : Placed} (s : State) (c : Ctx) (a : LaneAcc) (d : PtrBits) (h : s.Calm G) : (s.writePtr c a d).Calm G := by
  unfold State.writePtr
  split
  · exact State.storePtr_calm _ _ _ h
  · split
    · exact State.dirtyPtr_calm _ _ _ _ _ h
    · exact State.storePtr_calm _ _ _ (State.sliceWrite_calm _ _ _ _ h)
    · exact State.storePtr_calm _ _ _ (State.sliceWrite_calm _ _ _ _ h)
  · exact h

theorem putGranules_carried {s u : State} {c : Ctx} (hu : ∀ G : Placed, s.Calm G → u.Calm G) (hr : s.replayOf c.w.part = none)
    (val : Nat → PtrBits) (as : List LaneAcc) : ∃ F, touches F ∧ s.Carried c.g.gid F (putGranules u c val as) := by
  obtain ⟨F, hF, h⟩ := prepWrite_carried_from (carried_calm (carried_refl s c.g.gid) hu) (fun _ => rfl) as
  have hput := carried_calm h (fun G hG => calm_foldl (f := fun s a => s.writePtr c a (val a.lane)) (G := G)
    (fun _ _ h => writePtr_calm _ _ _ _ h) as hG)
  have hlog := logElems_carried hput hr 2 (as.map (fun a => (a, 0, (val a.lane).toNat)))
  exact ⟨F, hF, carried_calm hlog (fun _ hG => sendLines_calm _ _ _ _ _ hG)⟩

/-- An instruction that memory serves and that has nothing for its group passes. -/
theorem served_only {s t : State} {c : Ctx} (hs : s.sees c) (x : Args) {F : Group → Group} (hT : touches F) (h : s.Carried c.g.gid F t) :
    ∃ g, s.Served (t.finish c x) c x g ∧ c.g.sameRegs g ∧ c.g.sameModes g ∧ g.flags = c.g.flags ∧ g.ops = c.g.ops := by
  obtain ⟨b, rfl⟩ := hT
  obtain ⟨g0, -, he, hS⟩ := served_of hs x h (fun _ => rfl) rfl
  refine ⟨_, hS, ?_⟩
  rw [he]
  exact ⟨⟨rfl, rfl, rfl, rfl⟩, ⟨rfl, rfl, rfl, rfl⟩, rfl, rfl⟩

/-! ### Granules in banks -/

/-- The key of the first byte of an access. -/
def firstKey (a : LaneAcc) : Nat := (a.places.headD (.fixed 0)).key

/-- The bytes that an STP writes. -/
def granuleWrites (val : Nat → PtrBits) (as : List LaneAcc) : List (Nat × Byte) :=
  as.flatMap (fun a => ((List.range 16).zip (bytesOfNat 16 (val a.lane).toNat)).map (fun b => (firstKey a + b.1, b.2)))

theorem laneAsk_n (c : Ctx) (x : Args) (vp : Bool) (l off n : Nat) : (c.laneAsk x vp l off n).n = n := by
  unfold Ctx.laneAsk
  split <;> rfl

/-- The first byte of an access of some bytes lies where its offset does. -/
theorem placesFrom_first {s : State} {w : Workgroup} {q : Ptr} {off n : Nat} {u : Use} {l : List Place} (hn : n ≠ 0)
    (h : s.placesFrom w q off n u = .ok l) : ∃ p rest, l = p :: rest ∧ s.placeAt w q off u = .ok p := by
  cases n with
  | zero => exact absurd rfl hn
  | succ n =>
    unfold State.placesFrom at h
    split at h
    · cases h
    · next p hp =>
      split at h
      · cases h
      · next rest _ => cases h; exact ⟨p, rest, rfl, hp⟩

/-- 02 R28: an access of an STP in a bank starts at a granule. -/
theorem stp_places {s : State} {c : Ctx} {x : Args} {q : Bool} {act : List Nat} {m : Nat → Option Nat} {as : List LaneAcc}
    (hr : c.pairLanes s x q act .stp m = ([], as)) (hact : act ≠ []) {a : LaneAcc} (ha : a ∈ as) (hb : a.inBank) :
    ∃ k rest, a.places = .fixed k :: rest ∧ k % 16 = 0 := by
  obtain ⟨l, hl⟩ := pairLanes_mem (congrArg Prod.fst hr) hact (by rw [hr]; exact ha)
  obtain ⟨-, -, -, hcheck, -, hplaces⟩ := checkLane_ok hl
  obtain ⟨p, rest, hp, hat⟩ := placesFrom_first (by rw [laneAsk_n]; decide) hplaces
  obtain ⟨k, rfl⟩ := hb p (by rw [hp]; exact List.mem_cons_self)
  exact ⟨k, rest, hp, (place_key hat).trans (check_align (.inr rfl) hcheck)⟩

theorem storePtr_byte (s : State) (k : Nat) (d : PtrBits) (j : Nat) :
    (s.storePtr k d).byte j = writeIn s.byte (((List.range 16).zip (bytesOfNat 16 d.toNat)).map (fun b => (k + b.1, b.2))) j := by
  have h := storeBytes_byte s k (bytesOfNat 16 d.toNat) j
  rw [bytesOfNat_length] at h
  exact h

/-- 02 R30: a granule in a bank written: its bytes, and its tag. -/
theorem writePtr_bank {a : LaneAcc} {k : Nat} {rest : List Place} (ha : a.places = .fixed k :: rest) (s : State) (c : Ctx) (d : PtrBits) :
    s.writePtr c a d = s.storePtr (firstKey a) d := by
  unfold State.writePtr firstKey
  rw [ha]; rfl

/-- Granules in banks written in turn: their bytes, and no others. -/
theorem writePtrs_byte {as : List LaneAcc} (h : ∀ a ∈ as, ∃ k rest, a.places = .fixed k :: rest ∧ k % 16 = 0) (s : State) (c : Ctx)
    (val : Nat → PtrBits) (j : Nat) : (writePtrs s c val as).byte j = writeIn s.byte (granuleWrites val as) j := by
  induction as generalizing s with
  | nil => rfl
  | cons a as ih =>
    obtain ⟨k, rest, ha, -⟩ := h a List.mem_cons_self
    show (writePtrs (s.writePtr c a (val a.lane)) c val as).byte j = writeIn s.byte (_ ++ granuleWrites val as) j
    rw [ih (fun b hb => h b (List.mem_cons_of_mem _ hb)), writeIn_append, writePtr_bank ha]
    exact writeIn_congr (storePtr_byte s (firstKey a) (val a.lane)) _ j

/-- Granules in banks written in turn: their tags, and no others. -/
theorem writePtrs_tags {as : List LaneAcc} (h : ∀ a ∈ as, ∃ k rest, a.places = .fixed k :: rest ∧ k % 16 = 0) (s : State) (c : Ctx)
    (val : Nat → PtrBits) (n : Nat) : n ∈ (writePtrs s c val as).tags ↔ n ∈ s.tags ∨ ∃ a ∈ as, n = firstKey a / 16 := by
  induction as generalizing s with
  | nil => simp [writePtrs]
  | cons a as ih =>
    obtain ⟨k, rest, ha, hk⟩ := h a List.mem_cons_self
    have hkey : firstKey a = k := by unfold firstKey; rw [ha]; rfl
    show n ∈ (writePtrs (s.writePtr c a (val a.lane)) c val as).tags ↔ _
    rw [ih (fun b hb => h b (List.mem_cons_of_mem _ hb)), writePtr_bank ha, storePtr_tags _ _ _ (hkey ▸ hk)]
    simp only [List.mem_cons, exists_eq_or_imp, or_assoc]

/-- An STP in banks leaves in memory what writing its granules leaves. -/
theorem putGranules_bank {s : State} {c : Ctx} (hr : s.replayOf c.w.part = none) (val : Nat → PtrBits) {as : List LaneAcc}
    (h : ∀ a ∈ as, a.inBank) :
    (putGranules s c val as).mem = (writePtrs s c val as).mem ∧ (putGranules s c val as).tags = (writePtrs s c val as).tags := by
  unfold putGranules
  simp only [sendLines_here (allHere_bank h), prepWrite_bank h]
  have hcalm : (writePtrs s c val as).Calm s.placed := calm_foldl (fun _ _ h => writePtr_calm _ _ _ _ h) as rfl
  obtain ⟨ps, hps, -⟩ := logElems_parts ((calm_replayOf hcalm _).trans hr) 2 (as.map (fun a => (a, 0, (val a.lane).toNat)))
  rw [hps]
  exact ⟨rfl, rfl⟩

/-- 06 R111: passing leaves memory and tags. -/
theorem finish_memory (s : State) (c : Ctx) (x : Args) : (s.finish c x).mem = s.mem ∧ (s.finish c x).tags = s.tags := ⟨rfl, rfl⟩

/-- Settles O35: what `putGranules` leaves carries the group that issued; in banks it is the granules written in turn. -/
theorem pointerStoresWriteGranules : Obligations.PointerStoresWriteGranules := by
  intro row hrow s u c x hi hr d r key h1 hh hu
  have hlanes : c.pairLanes s x row.2 (c.active x) .stp (stpCheck c x row.2) = ([], r.2) := Prod.ext h1 rfl
  obtain ⟨F, hF, hput⟩ := putGranules_carried (fun _ h => releaseLanes_calm hu h) hr (stpValue c x row.2) r.2
  obtain ⟨g, hS, hregs, hmodes, hflags, hops⟩ := served_only hi.1 x hF hput
  refine ⟨(putGranules u c (stpValue c x row.2) r.2).finish c x, g, ?_, hS, hregs, hmodes, hflags, hops, fun hb hsync => ?_⟩
  · rw [exec_stp hrow]
    exact storePtrExec_next hi hlanes hh hu
  · have hplaces := fun a ha => stp_places hlanes hi.2.2.1 ha (hb a ha)
    obtain ⟨hm, ht⟩ := putGranules_bank (s := s) hr (stpValue c x row.2) hb
    rw [release_unsynced hu hsync]
    refine ⟨fun k => ?_, fun n => ?_⟩
    · rw [State.byte_of ((finish_memory _ c x).1.trans hm) k]
      exact writePtrs_byte hplaces s c (stpValue c x row.2) k
    · rw [(finish_memory _ c x).2, ht]
      exact writePtrs_tags hplaces s c (stpValue c x row.2) n

end Sys2Proof.Laws
end

section
/-!
Launches (04 R88 to R95; 05 R97 to R104; 24 R443 to R445; 22 R414): from a submission to the end of a launch.
-/
namespace Sys2Proof.Laws
open Sys2Proof.Machine

/-! ### Submission (04 R88 to R91) -/

/-- 04 R89: a port takes the verdict of what is written to it, and the verdict is settled. -/
theorem submit_next {s : State} {part port : Nat} {p : Partition} (hp : s.part? part = some p) (hport : port < 16) (addr : DWord) :
    exec (.submit part port addr) s = .next ((s.settleVerdict p (s.judge p addr.toNat)).modPart part
      (fun y => { y with status := y.status.modify port (fun _ => (s.judge p addr.toNat).status) })) := by
  show execSubmit part port addr s = _
  unfold execSubmit
  rw [hp]
  exact congrArg Host.Outcome.next (if_neg (Nat.not_le.2 hport))

theorem submitStatusRead_next {s : State} {part : Nat} {p : Partition} (hp : s.part? part = some p) (port : Nat) :
    exec (.submitStatusRead part port) s = .next { s with bus := bytesOfNat 8 (p.status.getD port 0).toNat } := by
  show execSubmitStatusRead part port s = _
  unfold execSubmitStatusRead
  rw [hp]

/-- 04 R91: FAILACK frees the entry of a failed launch, and no other. -/
theorem failack_next {s : State} {part : Nat} {p : Partition} (hp : s.part? part = some p) (ticket : DWord) :
    ∃ t q, exec (.failack part ticket) s = .next t ∧ t.part? part = some q ∧ t.mem = s.mem ∧
      ∀ l, l ∈ q.launches ↔ l ∈ p.launches ∧ ¬(l.ticket = ticket.toNat ∧ l.state = 5 ∧ l.queued = true) := by
  refine ⟨_, _, rfl, part?_set _ (fun _ => rfl) hp, rfl, fun l => ?_⟩
  simp only [List.mem_filter, Bool.not_eq_true', ← Bool.not_eq_true, Bool.and_eq_true, beq_iff_eq, and_assoc]

/-! ### Readiness (04 R92) -/

/-- 04 R92: a prerequisite of a launch holds an entry as a failed launch. -/
def preFailed (p : Partition) (l : Launch) : Bool := l.pre.any (fun t => p.launches.any (fun x => x.ticket == t && x.queued && x.state == 5))

/-- 04 R92: the prerequisites of a launch have been given out, and none holds an entry. -/
def preEnded (p : Partition) (l : Launch) : Bool :=
  l.pre.all (fun t => t < p.ticketNext && !p.launches.any (fun x => x.ticket == t && x.queued))

theorem preEnded_iff (p : Partition) (l : Launch) :
    preEnded p l = true ↔ ∀ t ∈ l.pre, t < p.ticketNext ∧ ∀ x ∈ p.launches, x.queued = true → x.ticket ≠ t := by
  simp only [preEnded, List.all_eq_true, Bool.and_eq_true, decide_eq_true_eq, Bool.not_eq_true', List.any_eq_false, beq_iff_eq,
    not_and]
  exact forall₂_congr fun t _ => and_congr_right fun _ => forall₂_congr fun x _ => ⟨fun h hq ht => h ht hq, fun h ht hq => h hq ht⟩

/-- 04 R92: what becomes of a launch at STATE 1. -/
theorem launchReady_next {s : State} {part ticket : Nat} {p : Partition} {l : Launch} (hp : s.part? part = some p)
    (hl : p.launch? ticket = some l) (h1 : l.state = 1) :
    exec (.launchReady part ticket) s = .next (
      if preFailed p l then (s.record (s.launchRecord p 0xB108 (some ticket))).failLaunch part ticket
      else if p.runs && preEnded p l then s.setLaunchState part ticket 2 else s) := by
  show Host.Outcome.next (s.readyLaunch part ticket) = _
  unfold State.readyLaunch
  simp only [hp, hl, h1, bne_self_eq_false, Bool.false_eq_true, if_false]
  rfl

/-! ### Carve-outs and the beginning of placement (05 R103, 04 R94, 02 R33, R34) -/

/-- 05 R103: an offset that no other carve-out of the partition meets, where the dies have room, is fixed. -/
theorem carveoutOffsetFix_next {s : State} {part ticket off : Nat} {p : Partition} {l : Launch} (hp : s.part? part = some p)
    (hl : p.launch? ticket = some l) (h2 : l.state = 2) (hruns : p.runs = true) (hlen : l.firnLen ≠ 0) (hnone : l.carve = none)
    (halign : off % 0x10000 = 0) (hfit : off + l.firnLen ≤ 2 ^ 26)
    (hapart : ∀ k ∈ p.carves, k.2.1 + k.2.2 ≤ off ∨ off + l.firnLen ≤ k.2.1) (hroom : ∀ d ∈ p.pdie, s.carvedOn d + l.firnLen ≤ 2 ^ 26) :
    ∃ t q, exec (.carveoutOffsetFix part ticket off) s = .next t ∧ t.part? part = some q ∧
      q.launch? ticket = some { l with carve := some off } ∧ q.carves = p.carves ++ [(ticket, off, l.firnLen)] ∧ t.mem = s.mem := by
  have hapart' : p.carves.all (fun c => decide (c.2.1 + c.2.2 ≤ off) || decide (off + l.firnLen ≤ c.2.1)) = true :=
    List.all_eq_true.2 fun k hk => by simpa using hapart k hk
  have hroom' : p.pdie.all (fun d => decide (s.carvedOn d + l.firnLen ≤ 2 ^ 26)) = true :=
    List.all_eq_true.2 fun d hd => decide_eq_true (hroom d hd)
  refine ⟨_, _, ?_, part?_set (fun p => { p.modLaunch ticket (fun l => { l with carve := some off }) with
    carves := p.carves ++ [(ticket, off, l.firnLen)] }) (fun _ => rfl) hp, ?_, rfl, rfl⟩
  · show execCarveoutOffsetFix part ticket off s = _
    unfold execCarveoutOffsetFix
    simp only [hp, hl, h2, hruns, hnone, halign, hfit, hapart', hroom', bne_iff_ne.2 hlen, Option.isNone_none, beq_self_eq_true,
      decide_true, Bool.and_self, if_true]
  · exact launch?_set (fun l => { l with carve := some off }) (fun _ => rfl) hl

/-- 02 R34: a mint that fails ends the launch. -/
theorem placementBegin_mintFails {s : State} {part ticket i : Nat} {p : Partition} {l : Launch} (hp : s.part? part = some p)
    (hl : p.launch? ticket = some l) (h2 : l.state = 2) (hruns : p.runs = true) (hcarve : l.firnLen = 0 ∨ l.carve.isSome = true)
    (hmint : s.mintFault p l = some i) :
    exec (.placementBegin part ticket) s = .next
      ((s.record { s.launchRecord p 0x200A (some ticket) with paddr := i }).failLaunch part ticket) := by
  have hfixed : (l.firnLen == 0 || l.carve.isSome) = true := by simpa using hcarve
  show execPlacementBegin part ticket s = _
  unfold execPlacementBegin
  simp only [hp, hl, h2, hruns, hfixed, hmint, bne_self_eq_false, Bool.not_true, Bool.or_self, Bool.false_eq_true, if_false]

/-- 04 R94: placement of a ready launch whose mints pass begins when its first gang fits. -/
theorem placementBegin_begins {s : State} {part ticket : Nat} {p : Partition} {l : Launch} (hp : s.part? part = some p)
    (hl : p.launch? ticket = some l) (h2 : l.state = 2) (hruns : p.runs = true) (hcarve : l.firnLen = 0 ∨ l.carve.isSome = true)
    (hmint : s.mintFault p l = none) (hfits : s.firstFits p l = true) :
    exec (.placementBegin part ticket) s = .next (((s.setLaunchState part ticket 3).flushPart part).flushCode part) := by
  have hfixed : (l.firnLen == 0 || l.carve.isSome) = true := by simpa using hcarve
  show execPlacementBegin part ticket s = _
  unfold execPlacementBegin
  simp only [hp, hl, h2, hruns, hfixed, hmint, hfits, bne_self_eq_false, Bool.not_true, Bool.or_self, Bool.false_eq_true, if_false,
    if_true]

/-! ### Placing a gang (05 R97 to R105) -/

/-- 05 R102, R105: the state in which a gang is placed on a cluster: the partition's slice of it has started, the core masks set
before in effect. -/
def openSlice (s : State) (k part quantum : Nat) : State := 
  if (s.share k).resident.isNone then (s.adoptDefects k).startSlice k part quantum else s

/-- The physical cores of the places of a gang. -/
def gangCores (s : State) (k : Nat) (places : List PlaceAt) : List Nat :=
  places.map (fun y => ((if (s.share k).resident.isNone then s.adoptDefects k else s).physCore k y.lcore).getD 0)

/-- 05 R100, R101: the members of a gang on their cores. -/
def placeGang (s : State) (part : Nat) (l : Launch) (places : List PlaceAt) (phys : List Nat) : State :=
  ((List.range places.length).zip (places.zip phys)).foldl
    (fun s y => s.placeWg part l (l.nextWg + y.1) y.2.1 y.2.2 ((List.range phys.length).zip phys)) s

/-- 05 R104: what placing a gang notes of its launch. -/
def notePlaced (x : PlaceAt) (n : Nat) (l : Launch) : Launch :=
  { l with nextWg := l.nextWg + n, charged := if l.firnLen = 0 then l.charged else setAdd x.ldie l.charged }

/-- 05 R105, R106: a partition may place on a cluster that its slice holds, or that is nobody's and whose turn is the partition's. -/
def mayPlace (s : State) (p : Partition) (l : Launch) (k part : Nat) (x : PlaceAt) (places : List PlaceAt) : Prop :=
  ((s.share k).resident = some part ∧ s.gangFits p l places = true) ∨
    ((s.share k).resident = none ∧ (s.adoptDefects k).gangFits p l places = true ∧ s.turnAt k = some part ∧
      s.savedWgs part x.ldie x.lcluster = [])

/-- 05 R100: the next gang of a launch is placed where it fits. -/
theorem workgroupPlace_next {s : State} {part ticket k : Nat} {p : Partition} {l : Launch} {x : PlaceAt} {rest : List PlaceAt}
    (hp : s.part? part = some p) (hl : p.launch? ticket = some l) (h3 : l.state = 3) (hwants : l.wantsPlace = true)
    (hruns : p.runs = true) (hturn : s.turnOf p l = true) (hk : p.physCluster x.ldie x.lcluster = some k)
    (hmay : mayPlace s p l k part x (x :: rest)) :
    exec (.workgroupPlace part ticket (x :: rest)) s = .next
      ((placeGang (openSlice s k part l.quantum) part l (x :: rest) (gangCores s k (x :: rest))).modLaunch part ticket
        (notePlaced x (x :: rest).length)) := by
  show execWorkgroupPlace part ticket (x :: rest) s = _
  unfold execWorkgroupPlace gangCores openSlice
  rcases hmay with ⟨hres, hfits⟩ | ⟨hres, hfits, hat, hsaved⟩
  · simp only [hp, hl, hk, h3, hwants, hruns, hturn, hres, hfits, Option.isNone_some, Bool.false_eq_true, if_false, Bool.not_false,
      Bool.true_or, beq_self_eq_true, Bool.and_self, if_true]
    rfl
  · simp only [hp, hl, hk, h3, hwants, hruns, hturn, hres, hfits, hat, hsaved, Option.isNone_none, if_true, List.isEmpty_nil,
      Bool.not_true, Bool.false_or, beq_self_eq_true, Bool.and_self]
    rfl

/-- 05 R105: the start of a slice leaves partitions and workgroups. -/
theorem openSlice_keeps (s : State) (k part quantum : Nat) :
    (openSlice s k part quantum).parts = s.parts ∧ (openSlice s k part quantum).wgs = s.wgs := by
  unfold openSlice State.startSlice
  dsimp only
  split
  · split <;> exact ⟨rfl, rfl⟩
  · exact ⟨rfl, rfl⟩

/-- 05 R101: the workgroups that placing a gang adds, numbered on from the launch's next. -/
theorem placeGang_wgs (s : State) (part : Nat) (l : Launch) {places : List PlaceAt} {phys : List Nat} (hn : phys.length = places.length) :
    (placeGang s part l places phys).parts = s.parts ∧
      (placeGang s part l places phys).wgs.map (fun w => (w.part, w.ticket, w.wg)) = s.wgs.map (fun w => (w.part, w.ticket, w.wg)) ++
        (List.range places.length).map (fun i => (part, l.ticket, l.nextWg + i)) ∧
      ∀ w ∈ (placeGang s part l places phys).wgs, w ∈ s.wgs ∨
        (w.status = .resident ∧ w.gangSize = places.length ∧ w.timelines = List.replicate l.tlallot Timeline.zero) := by
  obtain ⟨hparts, hnew, hall⟩ := placeFold part l l.nextWg ((List.range phys.length).zip phys)
    ((List.range places.length).zip (places.zip phys)) s
  have hsize : ((List.range phys.length).zip phys).length = places.length := by simp [hn]
  have hnums : ((List.range places.length).zip (places.zip phys)).map Prod.fst = List.range places.length :=
    List.map_fst_zip (by simp [hn])
  refine ⟨hparts, hnew.trans (congrArg _ ?_), fun w hw => (hall w hw).imp_right fun h => by rwa [hsize] at h⟩
  calc _ = (((List.range places.length).zip (places.zip phys)).map Prod.fst).map (fun i => (part, l.ticket, l.nextWg + i)) := by
        rw [List.map_map]; rfl
    _ = _ := by rw [hnums]

/-- 05 R97 to R104: a gang placed stands on its cores, and its launch goes on from the workgroup after it. -/
theorem workgroupPlace_places {s : State} {part ticket k : Nat} {p : Partition} {l : Launch} {x : PlaceAt} {rest : List PlaceAt}
    (hp : s.part? part = some p) (hl : p.launch? ticket = some l) (h3 : l.state = 3) (hwants : l.wantsPlace = true)
    (hruns : p.runs = true) (hturn : s.turnOf p l = true) (hk : p.physCluster x.ldie x.lcluster = some k)
    (hmay : mayPlace s p l k part x (x :: rest)) :
    ∃ t q, exec (.workgroupPlace part ticket (x :: rest)) s = .next t ∧ t.part? part = some q ∧
      (q.launch? ticket).map (·.nextWg) = some (l.nextWg + (rest.length + 1)) ∧
      (t.wgs.map (fun w => (w.part, w.ticket, w.wg)) = s.wgs.map (fun w => (w.part, w.ticket, w.wg)) ++
        (List.range (rest.length + 1)).map (fun i => (part, l.ticket, l.nextWg + i))) ∧
      (∀ w ∈ t.wgs, w ∈ s.wgs ∨ (w.status = .resident ∧ w.gangSize = rest.length + 1 ∧ w.timelines = List.replicate l.tlallot Timeline.zero)) := by
  obtain ⟨hslice, hold⟩ := openSlice_keeps s k part l.quantum
  obtain ⟨hparts, hnew, hall⟩ := placeGang_wgs (openSlice s k part l.quantum) part l
    (places := x :: rest) (phys := gangCores s k (x :: rest)) (by simp [gangCores])
  rw [hold] at hnew hall
  have hq : (placeGang (openSlice s k part l.quantum) part l (x :: rest) (gangCores s k (x :: rest))).part? part = some p := by
    unfold State.part?
    rw [hparts, hslice]
    exact hp
  refine ⟨_, _, workgroupPlace_next hp hl h3 hwants hruns hturn hk hmay,
    part?_set (fun p => p.modLaunch ticket (notePlaced x (x :: rest).length)) (fun _ => rfl) hq, ?_, hnew, hall⟩
  exact congrArg (Option.map (·.nextWg)) (launch?_set (notePlaced x (x :: rest).length) (fun _ => rfl) hl)

/-! ### The end of groups, workgroups and launches (24 R443 to R445, 22 R414) -/

theorem groupEnd_next {s : State} {g : Nat} {x : Group} (hg : s.group? g = some x) (hend : x.ended = false) (hover : s.groupOver x = true) :
    exec (.groupEnd g) s = .next (s.modGroup g (fun x => { x with ended := true, resv := [] })) := by
  show execGroupEnd g s = _
  unfold execGroupEnd
  simp only [hg, hend, hover, Bool.not_false, Bool.and_self, if_true]

/-- A workgroup of which nothing is left marked retired, and counted at its launch. -/
def noteRetired (s : State) (k : Nat) (w : Workgroup) : State :=
  (s.modWg k (fun x => { x with retired := true })).modLaunch w.part w.ticket (fun l => { l with retired := l.retired + 1 })

/-- 24 R444: a workgroup retires; its gang's places are freed with the last of it. -/
theorem workgroupRetire_next {s : State} {k : Nat} {w : Workgroup} (hw : s.wg? k = some w) (hmay : s.mayRetire w = true) :
    exec (.workgroupRetire k) s = .next (if ((noteRetired s k w).gangOf w).all (·.retired) then
      (noteRetired s k w).dropWgs (((noteRetired s k w).gangOf w).map (·.key)) else noteRetired s k w) := by
  show execWorkgroupRetire k s = _
  unfold execWorkgroupRetire
  simp only [hw, hmay, if_true]
  rfl

/-- Workgroups taken off the machine go with their groups, and nothing else does. -/
theorem mem_dropWgs (s : State) (zs : List Workgroup) :
    (∀ y, y ∈ (s.dropWgs (zs.map (·.key))).wgs ↔ y ∈ s.wgs ∧ ∀ z ∈ zs, z.key ≠ y.key) ∧
      ∀ h, h ∈ (s.dropWgs (zs.map (·.key))).groups ↔ h ∈ s.groups ∧ ∀ z ∈ zs, z.key ≠ h.wgKey := by
  constructor <;> intro y <;> simp [State.dropWgs, List.mem_filter]

/-- 24 R445: the launch after its completion and the launches that it makes ready. -/
theorem launchComplete_next {s : State} {part ticket : Nat} {p : Partition} {l : Launch} (hp : s.part? part = some p)
    (hl : p.launch? ticket = some l) (hok : l.failed = false) (hover : s.launchOver part l = true) :
    exec (.launchComplete part ticket) s = .next (
      let u := ((s.flushPart part).setLaunchState part ticket 4).modPart part (fun p =>
        { p with launches := p.launches.filter (fun x => x.ticket != ticket), carves := p.carves.filter (fun c => c.1 != ticket) })
      let v := ((u.partOf part).launches.map (·.ticket)).foldl (fun s t => s.readyLaunch part t) u
      if l.notify then v.notifyLaunch part 1 ticket else v) := by
  show execLaunchComplete part ticket s = _
  unfold execLaunchComplete
  simp only [hp, hl, hok, hover, Option.bind_some, Bool.not_false, Bool.and_self, if_true]

theorem launchFail_next {s : State} {part ticket : Nat} {p : Partition} {l : Launch} (hp : s.part? part = some p)
    (hl : p.launch? ticket = some l) (hfailed : l.failed = true) (hover : s.launchOver part l = true) :
    exec (.launchFail part ticket) s = .next ((s.flushPart part).failLaunch part ticket) := by
  show execLaunchFail part ticket s = _
  unfold execLaunchFail
  simp only [hp, hl, hfailed, hover, Option.bind_some, Bool.and_self, if_true]

/-- Settles O52: each event by the lemma that says what it leaves. -/
theorem launchEvents : Obligations.LaunchEvents := by
  intro s
  refine ⟨fun part p hp => ⟨fun port addr hport => ?_, submitStatusRead_next hp, failack_next hp, fun ticket l hl =>
    ⟨fun h1 => ?_, ?_, fun h2 hruns hcarve => ?_, ?_, launchComplete_next hp hl, launchFail_next hp hl⟩⟩, ?_, fun k w hw hmay => ?_⟩
  · -- a submission
    have hnext := submit_next hp hport addr
    refine ⟨fun l hv => ⟨?_, judge_accepted hv⟩, fun hv => ?_, fun code hv => ?_⟩
    all_goals
      show exec (.submit part port addr) s = _
      rw [hnext, hv]
      rfl
  · -- readiness
    have hnext := launchReady_next hp hl h1
    refine ⟨fun hf => ?_, fun hf hruns hended => ?_, fun hf hheld => ?_⟩
    · exact hnext.trans (congrArg Host.Outcome.next (if_pos hf))
    · rw [hruns, (preEnded_iff p l).2 hended] at hnext
      exact hnext.trans (congrArg Host.Outcome.next (if_neg (Bool.eq_false_iff.1 hf)))
    · obtain ⟨t, ht, x, hx, hq, rfl⟩ := hheld
      have hnot : preEnded p l = false := Bool.eq_false_iff.2 fun he => ((preEnded_iff p l).1 he _ ht).2 x hx hq rfl
      rw [hnot, Bool.and_false] at hnext
      exact hnext.trans (congrArg Host.Outcome.next (if_neg (Bool.eq_false_iff.1 hf)))
  · exact fun off h2 hruns hlen hnone halign hfit hapart hroom =>
      carveoutOffsetFix_next hp hl h2 hruns hlen hnone halign hfit hapart hroom
  · exact ⟨fun i hmint => placementBegin_mintFails hp hl h2 hruns hcarve hmint,
      fun hmint hfits => placementBegin_begins hp hl h2 hruns hcarve hmint hfits⟩
  · exact fun x rest k h3 hwants hruns hturn hk hmay => workgroupPlace_places hp hl h3 hwants hruns hturn hk hmay
  · exact fun g x hg => groupEnd_next hg
  · -- retirement
    have hnext := workgroupRetire_next hw hmay
    refine ⟨fun hsome => hnext.trans (congrArg Host.Outcome.next (if_neg (Bool.eq_false_iff.1 hsome))), fun hall => ?_⟩
    exact ⟨_, hnext.trans (congrArg Host.Outcome.next (if_pos hall)), rfl, mem_dropWgs _ _⟩

end Sys2Proof.Laws
end

section
/-!
The floating-point block, the conversions (09 R202 to R212) and the special registers (08 R185 to R187).
-/
namespace Sys2Proof.Laws
open Sys2Proof.Machine

/-- 09 R203 to R208: each row of the floating-point block is executed by its function of one element. -/
theorem exec_float {row : Op × (Nat → Bool → Nat → RMode → Nat → Nat → Nat → Flagged)} (h : row ∈ floatBlock) (x : Args) (s : State) :
    exec (row.1.instr x) s = floatExec row.1 x s (row.2 x.c.toNat) := by
  simp only [floatBlock, List.mem_cons, List.not_mem_nil, or_false] at h
  obtain rfl | rfl | rfl | rfl | rfl | rfl | rfl | rfl | rfl | rfl | rfl | rfl | rfl | rfl | rfl | rfl := h <;> rfl

/-- Settles O11: the instruction of every row is `floatExec` of its function. -/
theorem floatingPointResults : Obligations.FloatingPointResults := by
  intro row hrow s c x hi f
  rw [exec_float hrow]
  exact floatExec_next (row.2 x.c.toNat) hi

/-- 09 R202, 03 R54: what an instruction leaves that writes a value in each active lane, with its flags. -/
theorem writeFlagged_next {o : Op} {x : Args} {s : State} {c : Ctx} (hi : s.issues o x c) (f : Ctx → Nat → Flagged) :
    ∃ t g, issueDone o x s (fun c act => writeFlagged s c act x.d.toNat (f c)) = .next t ∧ s.Wrote t c x g ∧
      c.g.wroteLanes g (c.active x) false x.d.toNat (fun l => (f c l).1) ∧
      c.g.tookFlags g c.sp.half (orFlags ((c.active x).map (fun l => (f c l).2))) ∧ g.s = c.g.s ∧ g.p = c.g.p ∧ g.yielded = false :=
  flagged_next hi false _ _ _ (writeFlagged_eq s c (c.active x) x.d.toNat (f c))

/-- 09 R209, R210: likewise for elements of a format, in registers or pairs. -/
theorem writeElems_next {o : Op} {x : Args} {s : State} {c : Ctx} (hi : s.issues o x c) (fmt : Nat) (f : Ctx → Nat → Flagged) :
    ∃ t g, issueDone o x s (fun c act => writeElems s c act fmt x.d.toNat (f c)) = .next t ∧ s.Wrote t c x g ∧
      c.g.wroteLanes g (c.active x) (fmtWide fmt) x.d.toNat (fun l => extendElem fmt (f c l).1) ∧
      c.g.tookFlags g c.sp.half (orFlags ((c.active x).map (fun l => (f c l).2))) ∧ g.s = c.g.s ∧ g.p = c.g.p ∧ g.yielded = false :=
  flagged_next hi (fmtWide fmt) _ _ _ (writeElems_eq s c (c.active x) fmt x.d.toNat (f c))

/-- 09 R209, R210: the element of a lane that CVT converts. -/
def cvtLane (x : Args) (c : Ctx) (l : Nat) : Flagged :=
  convertFmt (ftzOf c.fmode) (c.rounding x) x.b.toNat x.c.toNat
    (elemAt (fmtWidth x.c.toNat) (x.mod.toNat / 8) (c.vw (fmtWide x.c.toNat) x.a.toNat l))

/-- 09 R211: the two values of a lane that CVTPK puts side by side. -/
def cvtpkLane (x : Args) (c : Ctx) (l : Nat) : Flagged :=
  let lo := convertFmt (ftzOf c.fmode) (c.rounding x) x.c.toNat 0x10 (c.v x.a.toNat l).toNat
  let hi := convertFmt (ftzOf c.fmode) (c.rounding x) x.c.toNat 0x10 (c.v x.b.toNat l).toNat
  (insertPair (fmtWidth x.c.toNat) (x.mod.toNat / 8) (c.v x.d.toNat l).toNat lo.1 hi.1, lo.2 ||| hi.2)

/-- 09 R212: the value of a lane by its block scale. -/
def scalexLane (x : Args) (c : Ctx) (l : Nat) : Flagged :=
  let k := scaleOfWord (c.v x.b.toNat l).toNat (x.mod.toNat / 8)
  if k.isNan then (0x7FC00000, flagNV)
  else mulElem (ftzOf c.fmode) 0x10 (c.rounding x) (inFmt (ftzOf c.fmode) 0x10 (c.v x.a.toNat l).toNat) k

theorem exec_cvt (x : Args) (s : State) :
    exec (.cvt x) s = issueDone .cvt x s (fun c act => writeElems s c act x.b.toNat x.d.toNat (cvtLane x c)) := rfl
theorem exec_cvtpk (x : Args) (s : State) :
    exec (.cvtpk x) s = issueDone .cvtpk x s (fun c act => writeFlagged s c act x.d.toNat (cvtpkLane x c)) := rfl
theorem exec_scalex (x : Args) (s : State) :
    exec (.scalex x) s = issueDone .scalex x s (fun c act => writeFlagged s c act x.d.toNat (scalexLane x c)) := rfl

/-- Settles O12: CVT writes elements of the format that B names, CVTPK and SCALEX words, each with its flags. -/
theorem conversionResults : Obligations.ConversionResults := by
  intro s c x done ftz
  refine ⟨fun hi => ?_, fun hi => ?_, fun hi => ?_⟩
  · obtain ⟨t, g, ht, hrest⟩ := writeElems_next hi x.b.toNat (cvtLane x)
    exact ⟨t, g, (exec_cvt x s).trans ht, hrest⟩
  · obtain ⟨t, g, ht, hrest⟩ := writeFlagged_next hi (cvtpkLane x)
    exact ⟨t, g, (exec_cvtpk x s).trans ht, hrest⟩
  · obtain ⟨t, g, ht, hrest⟩ := writeFlagged_next hi (scalexLane x)
    exact ⟨t, g, (exec_scalex x s).trans ht, hrest⟩

/-! ### Special registers (08 R185 to R187, 03 R53) -/

/-- 08 R186: RDS of TRAPINFO outside a handler raises 0x5008 in every lane. -/
theorem execRds_outside {s : State} {c : Ctx} {x : Args} (hi : s.issues .rds x c) (hsr : 0x18 ≤ x.a.toNat) (hframe : c.sp.frame = none) :
    execRds x s = .next (s.trapped c x (lanesTrap (c.active x) 0x5008) 0) := by
  unfold execRds
  rw [issue_eq hi]
  simp only [hsr, hframe, Option.isNone_none, decide_true, Bool.and_self, if_true]
  rfl

/-- What RDS writes where it does not trap. -/
def rdsBody (x : Args) (s : State) (c : Ctx) (act : List Nat) : State :=
  let value := c.special ((s.die (coreDie c.w.phys)).cycle % 2 ^ 64) x.a.toNat
  if x.mod.toNat % 2 = 1 then writeLanes s c act (srWide x.a.toNat) x.d.toNat value
  else s.writeS c (sPut (srWide x.a.toNat) x.d.toNat (value 0))

/-- 08 R186: RDS of a register that can be read. -/
theorem execRds_readable {s : State} {c : Ctx} {x : Args} (hi : s.issues .rds x c) (hread : x.a.toNat < 0x18 ∨ c.sp.frame.isSome = true) :
    execRds x s = issueDone .rds x s (rdsBody x s) := by
  have hok : (decide (0x18 ≤ x.a.toNat) && c.sp.frame.isNone) = false := by
    rcases hread with h | h
    · simp only [Nat.not_le.2 h, decide_false, Bool.false_and]
    · rw [Option.isNone_eq_false_iff.2 h, Bool.and_false]
  unfold execRds rdsBody
  rw [issue_eq hi, issueDone_eq hi]
  simp only [hok, Bool.false_eq_true, if_false]
  split <;> rfl

/-- 03 R53, R57: WRS changes FMODE or FSTAT alone. -/
theorem writeMode_frame (g : Group) (half mode : Bool) (w : Word) :
    g.writeMode half mode w = { g with fmode0 := (g.writeMode half mode w).fmode0, fmode1 := (g.writeMode half mode w).fmode1,
                                       fstat0 := (g.writeMode half mode w).fstat0, fstat1 := (g.writeMode half mode w).fstat1 } := by
  cases half <;> cases mode <;> rfl

/-- 03 R53: FMODE of a half written: its three bits, and nothing of the other half or of FSTAT. -/
theorem writeMode_fmode (g : Group) (half : Bool) (w : Word) :
    (g.writeMode half true w).fmode half = w &&& 7 ∧ (g.writeMode half true w).fmode (!half) = g.fmode (!half) ∧
      (g.writeMode half true w).fstat0 = g.fstat0 ∧ (g.writeMode half true w).fstat1 = g.fstat1 := by
  cases half <;> exact ⟨rfl, rfl, rfl, rfl⟩

/-- 03 R53: FSTAT of a half written: its five flags, and nothing of the other half or of FMODE. -/
theorem writeMode_fstat (g : Group) (half : Bool) (w : Word) :
    (g.writeMode half false w).fstat half = w &&& 0x1F ∧ (g.writeMode half false w).fstat (!half) = g.fstat (!half) ∧
      (g.writeMode half false w).fmode0 = g.fmode0 ∧ (g.writeMode half false w).fmode1 = g.fmode1 := by
  cases half <;> exact ⟨rfl, rfl, rfl, rfl⟩

/-- 08 R187: what WRS leaves: its group passed, with the mode register written. -/
theorem execWrs_next {s : State} {c : Ctx} {x : Args} (hi : s.issues .wrs x c) :
    ∃ t, execWrs x s = .next t ∧ s.Wrote t c x (c.after s x (c.g.writeMode c.sp.half (x.d == 0x10#8) (c.s x.a.toNat))) := by
  obtain ⟨t, ht, hw⟩ := wrote_of hi.1 x (fun g => g.writeMode c.sp.half (x.d == 0x10#8) (c.s x.a.toNat)) (fun g => by rw [writeMode_frame])
  exact ⟨t, by rw [← ht]; exact issueDone_eq hi _, hw⟩

/-- Settles O28: RDS traps or writes lanes or `s` registers; WRS writes a mode register of the split's half. -/
theorem specialRegisters : Obligations.SpecialRegisters := by
  constructor
  · intro s c x hi sr cycle
    refine ⟨execRds_outside hi, fun hread => ?_⟩
    rw [show exec (.rds x) s = _ from execRds_readable hi hread]
    split
    next hv =>
      obtain ⟨t, g, ht, hw, hlanes, hs, hp, hm, -⟩ := lanes_next hi (srWide sr) (c.special cycle sr) (rdsBody x s) (if_pos hv)
      exact ⟨t, g, ht, hw, hp, hm, hlanes, hs⟩
    next hv =>
      obtain ⟨t, g, ht, hw, hscalar, hvr, hvt, hp, hm, -⟩ := scalar_next hi (srWide sr) (c.special cycle sr 0) (rdsBody x s) (if_neg hv)
      exact ⟨t, g, ht, hw, hp, hm, hscalar, hvr, hvt⟩
  · intro s c x hi
    obtain ⟨t, ht, hw⟩ := execWrs_next hi
    have hframe := writeMode_frame c.g c.sp.half (x.d == 0x10#8) (c.s x.a.toNat)
    refine ⟨t, _, ht, hw, ?_, ?_, ?_, ?_, ?_, ?_⟩
    iterate 5 (rw [hframe]; rfl)
    split
    next hd =>
      rw [show (x.d == 0x10#8) = true from beq_iff_eq.2 hd]
      exact writeMode_fmode c.g c.sp.half (c.s x.a.toNat)
    next hd =>
      rw [show (x.d == 0x10#8) = false from beq_eq_false_iff_ne.2 hd]
      exact writeMode_fstat c.g c.sp.half (c.s x.a.toNat)

end Sys2Proof.Laws
end

section
/-!
CBEXP (09 R213): the weights that it writes.
-/
namespace Sys2Proof.Laws
open Sys2Proof.Machine

/-- 09 R213: the row of the codebook that the bytes of an access make. -/
def codeRow (s : State) (a : LaneAcc) : Nat := natOfBytes (a.places.map (fun p => s.byte p.key))

/-- 09 R213: the weights of a lane's index over its row. -/
def laneWeights (s : State) (x : Args) (index : Nat → Nat) (a : LaneAcc) : List Word := cbWeights (cbFmt x) (index a.lane) (codeRow s a)

/-- 09 R213: the register writes of the lanes of a CBEXP. -/
def weightWrites (s : State) (x : Args) (index : Nat → Nat) (as : List LaneAcc) : List (Nat × Word) :=
  as.flatMap (fun a => ((List.range (laneWeights s x index a).length).zip (laneWeights s x index a)).map
    (fun e => ((x.d.toNat + e.1) * 64 + a.lane, e.2)))

theorem mem_range_zip {α : Type} {l : List α} {i : Nat} {v : α} : (i, v) ∈ (List.range l.length).zip l ↔ l[i]? = some v := by
  rw [List.mem_iff_getElem?]
  simp only [List.getElem?_zip_eq_some, List.getElem?_eq_some_iff (l := List.range _), List.getElem_range, List.length_range]
  constructor
  · rintro ⟨n, ⟨-, rfl⟩, hv⟩
    exact hv
  · exact fun h => ⟨i, ⟨(List.getElem?_eq_some_iff.1 h).1, rfl⟩, h⟩

theorem mem_weightWrites {s : State} {x : Args} {index : Nat → Nat} {as : List LaneAcc} {kv : Nat × Word} :
    kv ∈ weightWrites s x index as ↔
      ∃ a ∈ as, ∃ i, (laneWeights s x index a)[i]? = some kv.2 ∧ kv.1 = (x.d.toNat + i) * 64 + a.lane := by
  unfold weightWrites
  simp only [List.mem_flatMap, List.mem_map, Prod.exists]
  refine exists_congr fun a => and_congr_right fun _ => ⟨?_, ?_⟩
  · rintro ⟨i, v, hiv, rfl⟩
    exact ⟨i, mem_range_zip.1 hiv, rfl⟩
  · rintro ⟨i, hv, hk⟩
    exact ⟨i, kv.2, mem_range_zip.2 hv, by rw [← hk]⟩

/-- A CBEXP that no check, no hold and no poison stops, of accesses in banks. -/
theorem execCbexp_next {s : State} {c : Ctx} {x : Args} (hi : s.issues .cbexp x c) {index : Nat → Nat}
    (hindex : index = fun l => elemAt 16 (x.mod.toNat / 8 % 2) (c.v x.a.toNat l).toNat) {as : List LaneAcc}
    (hr : splitLanes ((c.active x).map (fun l =>
      s.checkLane c .codebook (fun q => (q.fmt == 0x16 || q.fmt == 0) && (q.space == 1 || q.space == 2)) (fun _ _ => none)
        { lane := l, q := c.ptr x.b.toNat, valid := true, off := 4 * (index l / 256), n := 4 })) = ([], as))
    (hbank : ∀ a ∈ as, a.inBank) (hh : s.accessHold c as false = none) (hp : s.poisonTraps as = []) :
    execCbexp x s = .next ((s.writeV c (weightWrites s x index as)).finish c x) := by
  have hne : as ≠ [] := by
    have := splitLanes_nonempty (by simpa using hi.2.2.1) (congrArg Prod.fst hr)
    rwa [hr] at this
  subst hindex
  have hrow : ∀ a ∈ as, natOfBytes ((s.readPlaces c a.q a.places).getD []) = codeRow s a := fun a ha => by
    rw [readPlaces_bank (hbank a ha)]; rfl
  unfold execCbexp
  rw [issue_eq hi]
  simp only [hr, hh, hp, stopsAll, List.any_nil, Bool.false_or, List.isEmpty_eq_false_iff.2 hne, Bool.false_eq_true, if_false,
    List.isEmpty_nil, Bool.not_true, afterLanes, if_true]
  rw [flatMap_congr_mem (fun a ha => by rw [hrow a ha])]
  rfl

/-- What an instruction leaves that writes `v` registers, at any lanes: of each the last value written, else what it held; no quad
becomes a valid pointer. -/
theorem writeV_wrote {s : State} {c : Ctx} (h : s.sees c) (x : Args) (ws : List (Nat × Word)) :
    ∃ g, s.Wrote ((s.writeV c ws).finish c x) c x g ∧ g.s = c.g.s ∧ g.p = c.g.p ∧ c.g.sameModes g ∧
      (∀ k ∈ g.vtags, k ∈ c.g.vtags) ∧ g.v = assocSets 0 ws c.g.v := by
  obtain ⟨t, rfl, hw⟩ := wrote_of h x (fun g => (g.dropPending c.free (ws.map (·.1))).setV ws)
    (fun g => by rw [setV_frame, dropPending_ops])
  refine ⟨_, hw, ?_⟩
  rw [dropPending_ops]
  refine ⟨rfl, rfl, ⟨rfl, rfl, rfl, rfl⟩, fun k hk => ?_, rfl⟩
  simp only [Ctx.after, Group.modSplit, Group.setV] at hk
  split at hk
  · exact hk
  · exact (List.mem_filter.1 hk).1

/-- A register in a lane after a CBEXP: the weight of its place where the lane's access brings one there. -/
theorem weightWrites_get {s : State} {x : Args} {index : Nat → Nat} {as : List LaneAcc} (hlane : ∀ a ∈ as, a.lane < 64)
    (hone : ∀ a ∈ as, ∀ b ∈ as, a.lane = b.lane → a = b) (v : Assoc Word) {n l : Nat} (hl : l < 64) :
    assocGet 0 (n * 64 + l) (assocSets 0 (weightWrites s x index as) v) =
      match as.find? (fun a => a.lane == l) with
      | some a => ((cbWeights (cbFmt x) (index l) (codeRow s a))[n - x.d.toNat]?).elim (assocGet 0 (n * 64 + l) v)
          (fun w => if x.d.toNat ≤ n then w else assocGet 0 (n * 64 + l) v)
      | none => assocGet 0 (n * 64 + l) v := by
  -- a write at the register in the lane is one of the lane's access, at the register's distance from the first
  have hkey : ∀ kv ∈ weightWrites s x index as, kv.1 = n * 64 + l →
      ∃ a ∈ as, a.lane = l ∧ x.d.toNat ≤ n ∧ (laneWeights s x index a)[n - x.d.toNat]? = some kv.2 := fun kv hkv hk => by
    obtain ⟨a, ha, i, hw, he⟩ := mem_weightWrites.1 hkv
    have := hlane a ha
    obtain ⟨hi, hn⟩ : i = n - x.d.toNat ∧ a.lane = l ∧ x.d.toNat ≤ n := by omega
    exact ⟨a, ha, hn.1, hn.2, hi ▸ hw⟩
  cases hfind : as.find? (fun a => a.lane == l) with
  | none =>
    refine assocGet_sets_ne _ _ _ _ fun kv hkv hk => ?_
    obtain ⟨a, ha, hal, -⟩ := hkey kv hkv hk
    exact List.find?_eq_none.1 hfind a ha (beq_iff_eq.2 hal)
  | some a =>
    have ha := List.mem_of_find?_eq_some hfind
    have hal : a.lane = l := by simpa using List.find?_some hfind
    have hws : laneWeights s x index a = cbWeights (cbFmt x) (index l) (codeRow s a) := by unfold laneWeights; rw [hal]
    dsimp only
    rw [← hws]
    have hown : ∀ b ∈ as, b.lane = l → b = a := fun b hb hbl => hone b hb a ha (hbl.trans hal.symm)
    cases hw : (laneWeights s x index a)[n - x.d.toNat]? with
    | none =>
      refine assocGet_sets_ne _ _ _ _ fun kv hkv hk => ?_
      obtain ⟨b, hb, hbl, -, hbw⟩ := hkey kv hkv hk
      rw [hown b hb hbl, hw] at hbw
      cases hbw
    | some w =>
      dsimp only [Option.elim_some]
      split
      next hd =>
        refine assocGet_sets_mem _ _ _ _ _ (mem_weightWrites.2 ⟨a, ha, _, hw, ?_⟩) fun kv hkv hk => ?_
        · dsimp only; rw [Nat.add_sub_cancel' hd, hal]
        · obtain ⟨b, hb, hbl, -, hbw⟩ := hkey kv hkv hk
          rw [hown b hb hbl, hw] at hbw
          exact (Option.some.inj hbw).symm
      next hd =>
        refine assocGet_sets_ne _ _ _ _ fun kv hkv hk => ?_
        obtain ⟨-, -, -, hle, -⟩ := hkey kv hkv hk
        exact hd hle

/-- Settles O39: the accesses of a CBEXP lie in banks, one for each lane, and its writes are the weights of their rows. -/
theorem codebookWeights : Obligations.CodebookWeights := by
  intro s c x hi index r h1 hh hp
  obtain ⟨-, hlanes⟩ := lanes_of_split (fun l a h => (checkLane_ok h).1) h1
  have hbank : ∀ a ∈ r.2, a.inBank := fun a ha => by
    obtain ⟨-, -, -, hcheck, -, hplaces⟩ := checkLane_ok (hlanes a ha).2
    have hspace := check_fmt hcheck
    simp only [Bool.and_eq_true, Bool.or_eq_true, beq_iff_eq] at hspace
    exact placesFrom_bank (hspace.2.imp_right .inl) _ _ _ hplaces
  obtain ⟨g, hw, hs, hpr, hm, ht, hv⟩ := writeV_wrote hi.1 x (weightWrites s x index r.2)
  refine ⟨_, g, execCbexp_next hi rfl (Prod.ext h1 rfl) hbank hh hp, hw, hs, hpr, hm, ht, fun n l hl => ?_⟩
  unfold Group.vReg
  rw [hv]
  refine (weightWrites_get (fun a ha => Machine.active_lt c x _ (hlanes a ha).1) (fun a ha b hb hab => ?_) c.g.v hl).trans ?_
  · exact Except.ok.inj ((hlanes a ha).2.symm.trans (hab ▸ (hlanes b hb).2))
  · rfl

end Sys2Proof.Laws
end

section
/-!
ST (10 R234, R236): the elements that it writes.
-/
namespace Sys2Proof.Laws
open Sys2Proof.Machine

/-- ST in its plain and its vector-pointer form are one instruction. -/
theorem exec_st {row : Op × Bool} (h : row ∈ [(Op.st, false), (.stVp, true)]) (x : Args) (s : State) :
    exec (row.1.instr x) s = storeExec row.1 row.2 x s := by
  simp only [List.mem_cons, List.not_mem_nil, or_false] at h
  obtain rfl | rfl := h <;> rfl

/-- 10 R233, R236: the elements that an ST stores for its accesses, each with its flags. -/
def storedElems (c : Ctx) (x : Args) (as : List LaneAcc) : List (StoreElem × FlagBits) := (c.elements x as).map (c.stored x)

/-- The elements stored are of the accesses of the lanes. -/
theorem storedElems_access {c : Ctx} {x : Args} {as : List LaneAcc} {e : StoreElem} (h : e ∈ (storedElems c x as).map (·.1)) : e.a ∈ as := by
  simp only [storedElems, Ctx.elements, List.mem_map, List.mem_flatMap] at h
  obtain ⟨_, ⟨_, ⟨a, ha, _, -, rfl⟩, rfl⟩, rfl⟩ := h
  exact ha

/-- What an ST leaves in memory before it passes, from a state in which its release has been made. -/
def putElems (s : State) (c : Ctx) (es : List StoreElem) (as : List LaneAcc) : State :=
  let t := (es.foldl (fun s e => s.storeElem c e) (s.prepWrite c as)).logElems c 2 (es.map (fun e => (e.a, e.sp.first, e.val)))
  (t.sendLines c t.serial as (storePacket es)).1

/-- What an ST leaves before it passes: its elements stored, its flags contributed, its events listed. -/
def afterStore (u : State) (c : Ctx) (vs : List (StoreElem × FlagBits)) (as : List LaneAcc) (evs : List Instr) : State :=
  { (putElems u c (vs.map (·.1)) as).addFlags c (orFlags (vs.map (·.2))) with agenda := evs ++ (putElems u c (vs.map (·.1)) as).agenda }

/-- An ST that no check and no hold stops, its release made, passes. -/
theorem storeExec_next {o : Op} {vp : Bool} {x : Args} {s u : State} {c : Ctx} (hi : s.issues o x c) {as : List LaneAcc}
    (hr : c.ldstLanes s x vp (c.active x) .store = ([], as))
    (hh : s.holdOf c as true 2 ((storedElems c x as).map (fun e => (e.1.a, e.1.sp.first))) = none) (hu : s.releaseLanes c as = .ok u) :
    storeExec o vp x s =
      .next ((afterStore u c (storedElems c x as) as (s.deviceEvents ((storedElems c x as).map (·.1)))).finish c x) := by
  have hne : as ≠ [] := by
    have := splitLanes_nonempty (by simpa using hi.2.2.1) (congrArg Prod.fst hr)
    rwa [show splitLanes _ = ([], as) from hr] at this
  have hvals : storedElems c x as = as.flatMap (fun a =>
      ((List.range (countOf (x.mod.toNat % 4))).zip (spansOf a.q.fmt x.c.toNat (c.offset x a.lane) (countOf (x.mod.toNat % 4)))).map
        (fun k => c.stored x (a, k.1, k.2))) := by
    unfold storedElems Ctx.elements
    simp only [List.map_flatMap, List.map_map]
    rfl
  have hholds : (storedElems c x as).map (fun e => (e.1.a, e.1.sp.first)) =
      ((storedElems c x as).map (·.1)).map (fun e => (e.a, e.sp.first)) := by rw [List.map_map]; rfl
  rw [hholds] at hh
  rw [hvals] at hh ⊢
  unfold Ctx.stored at hh ⊢
  unfold storeExec
  rw [issue_eq hi]
  simp only [hr, hh, hu, stopsAll, List.any_nil, Bool.false_or, List.isEmpty_eq_false_iff.2 hne, Bool.false_eq_true, if_false,
    afterLanes, List.isEmpty_nil, if_true]
  rfl

theorem putElems_carried {s u : State} {c : Ctx} (hu : ∀ G : Placed, s.Calm G → u.Calm G) (hr : s.replayOf c.w.part = none)
    (es : List StoreElem) (as : List LaneAcc) : ∃ F, touches F ∧ s.Carried c.g.gid F (putElems u c es as) := by
  obtain ⟨F, hF, h⟩ := prepWrite_carried_from (carried_calm (carried_refl s c.g.gid) hu) (fun _ => rfl) as
  have hput := carried_calm h (fun _ hG => calm_foldl (fun s e h => storeElem_calm s c e h) es hG)
  have hlog := logElems_carried hput hr 2 (es.map (fun e => (e.a, e.sp.first, e.val)))
  exact ⟨F, hF, carried_calm hlog (fun _ hG => sendLines_calm _ _ _ _ _ hG)⟩

/-- What a state carries that differs from another in one group, it lists of events. -/
theorem carried_agenda {s t : State} {k : Nat} {F : Group → Group} (h : s.Carried k F t) : t.agenda = s.agenda :=
  (calm_agenda h).trans rfl

theorem addFlags_unlooking (half : Bool) (f : FlagBits) : unlooking (fun g => g.addFlags half f) := fun g => by
  unfold Group.addFlags; split <;> rfl

/-- What an instruction that memory has served leaves of its group, when it contributes flags and lists events. -/
theorem served_flags {s t : State} {c : Ctx} (hs : s.sees c) (x : Args) {F : Group → Group} (hF : touches F) (h : s.Carried c.g.gid F t)
    (f : FlagBits) (ag : List Instr) :
    ∃ g, s.Served (({ t.addFlags c f with agenda := ag } : State).finish c x) c x g ∧ c.g.sameRegs g ∧ g.flags = c.g.flags ∧
      g.ops = c.g.ops ∧ c.g.tookFlags g c.sp.half f := by
  have hflags := carried_modGroup h (fun g => g.addFlags c.sp.half f) (touches_gid hF) (addFlags_unlooking c.sp.half f)
  obtain ⟨g, hS, hrest⟩ := served_plain hs x hF f hflags
  exact ⟨g, served_agenda hS ag, hrest⟩

/-- What an ST leaves of the group that issued it, and of the events listed. -/
theorem afterStore_served {s u : State} {c : Ctx} {x : Args} (hs : s.sees c) (hu : ∀ G : Placed, s.Calm G → u.Calm G)
    (hr : s.replayOf c.w.part = none) (vs : List (StoreElem × FlagBits)) (as : List LaneAcc) (evs : List Instr) :
    ∃ g, s.Served ((afterStore u c vs as evs).finish c x) c x g ∧ c.g.sameRegs g ∧ g.flags = c.g.flags ∧ g.ops = c.g.ops ∧
      c.g.tookFlags g c.sp.half (orFlags (vs.map (·.2))) ∧ ((afterStore u c vs as evs).finish c x).agenda = evs ++ s.agenda := by
  obtain ⟨F, hF, hput⟩ := putElems_carried hu hr (vs.map (·.1)) as
  obtain ⟨g, hS, hregs, hflags, hops, htook⟩ := served_flags hs x hF hput (orFlags (vs.map (·.2)))
    (evs ++ (putElems u c (vs.map (·.1)) as).agenda)
  exact ⟨g, hS, hregs, hflags, hops, htook, congrArg (evs ++ ·) (carried_agenda hput)⟩

/-- Passing, and what an ST contributes and lists, leave memory and what the cores see of it. -/
theorem afterStore_sameView (u : State) (c : Ctx) (x : Args) (vs : List (StoreElem × FlagBits)) (as : List LaneAcc) (evs : List Instr) :
    (putElems u c (vs.map (·.1)) as).SameView ((afterStore u c vs as evs).finish c x) := sameView_of rfl rfl rfl (fun _ => rfl)

/-- Of accesses in banks and through L1, what an ST leaves of memory is its elements stored in turn. -/
theorem putElems_sameView {s : State} {c : Ctx} (hr : s.replayOf c.w.part = none) (es : List StoreElem) {as : List LaneAcc} (h : allHere as) :
    (es.foldl (fun s e => s.storeElem c e) (s.prepWrite c as)).SameView (putElems s c es as) := by
  obtain ⟨F, -, hprep⟩ := prepWrite_carried s c as
  have hput := carried_calm hprep (fun _ hG => calm_foldl (fun s e h => storeElem_calm s c e h) es hG)
  unfold putElems
  simp only [sendLines_here h]
  exact logElems_sameView ((carried_replayOf hput _).trans hr) 2 _

/-- Of elements in banks, memory holds what storing them in turn makes of it. -/
theorem putElems_bank {s : State} {c : Ctx} (hr : s.replayOf c.w.part = none) (es : List StoreElem) {as : List LaneAcc}
    (hes : ∀ e ∈ es, e.a ∈ as) (hb : ∀ a ∈ as, a.inBank) (k : Nat) :
    (putElems s c es as).byte k = es.foldl StoreElem.writeIn s.byte k := by
  rw [State.byte_of (putElems_sameView hr es (allHere_bank hb)).mem, prepWrite_bank hb]
  exact storeElems_bank c es (fun e he => hb _ (hes e he)) s k

/-- The line of a byte that an access reaches through L1 is among those of the words that it asks for. -/
theorem line_of_l1 {as : List LaneAcc} {a : LaneAcc} (ha : a ∈ as) (h1 : a.inL1) {p : Place} (hp : p ∈ a.places) :
    p.key / 128 ∈ (wordsOf as .l1).map (· / 32) := by
  obtain ⟨pa, va, rfl, hway⟩ := h1 p hp
  refine List.mem_map.2 ⟨pa / 4, mem_uniq.2 (List.mem_flatMap.2 ⟨a, ha, List.mem_filterMap.2 ⟨_, hp, ?_⟩⟩), ?_⟩
  · exact if_pos hway
  · exact Nat.div_div_eq_div_mul pa 4 32

/-- Of elements through an L1 with room for their lines, the core sees them stored in turn, and memory stands. -/
theorem putElems_l1 {s : State} {c : Ctx} (hr : s.replayOf c.w.part = none) (es : List StoreElem) {as : List LaneAcc}
    (hes : ∀ e ∈ es, e.a ∈ as) (h1 : ∀ a ∈ as, a.inL1) (hckt : (s.partOf c.w.part).obs.ckt = 0)
    (hroom : (s.core c.w.phys).roomy ((wordsOf as .l1).map (· / 32))) :
    (putElems s c es as).mem = s.mem ∧ ∃ m : Nat → Byte, (∀ pa, m pa = s.seeByte c.w.phys pa ∨ m pa = s.byte pa) ∧
      ∀ pa, (putElems s c es as).seeByte c.w.phys pa = es.foldl StoreElem.writeIn m pa := by
  have hhere : allHere as := fun a ha => .inr (h1 a ha)
  obtain ⟨hview, hkeys⟩ := prepWrite_l1 hhere s c hckt
  obtain ⟨hfits, hlines⟩ := Core.roomy_fits hroom
  obtain ⟨ks, hwrote⟩ := storeElems_l1 c es (fun e he => h1 _ (hes e he)) (s.prepWrite c as) (fits_keepsKeys hkeys hfits)
    (fun e he p hp => hlines _ (line_of_l1 (hes e he) (h1 _ (hes e he)) hp))
  obtain ⟨m, hm, hsees⟩ := hwrote.seen
  have hput := putElems_sameView hr es hhere
  refine ⟨hput.mem.trans (hwrote.mem.trans hview.mem), m, fun pa => ?_, fun pa => (hput.sees _ pa).trans (hsees pa)⟩
  rw [← hview.sees, ← State.byte_of hview.mem]
  exact hm pa

/-- Settles O33: what `afterStore` leaves carries the group that issued; what it leaves of memory is its elements stored in turn. -/
theorem storesWriteElements : Obligations.StoresWriteElements := by
  intro row hrow s u c x hi hr r es h1 hh hu
  have hes : ∀ e ∈ es.map (·.1), e.a ∈ r.2 := fun e => storedElems_access
  obtain ⟨g, hS, hregs, hflags, hops, htook, hagenda⟩ := afterStore_served (x := x) hi.1 (fun _ h => releaseLanes_calm hu h) hr es r.2
    (s.deviceEvents (es.map (·.1)))
  have hview := afterStore_sameView u c x es r.2 (s.deviceEvents (es.map (·.1)))
  refine ⟨_, g, ?_, hS, hregs, hflags, hops, htook, hagenda, fun hb hsync k => ?_, fun hl1 hsync hckt hroom => ?_⟩
  · rw [exec_st hrow]
    exact storeExec_next hi (Prod.ext h1 rfl) hh hu
  · obtain rfl := release_unsynced hu hsync
    exact (State.byte_of hview.mem k).trans (putElems_bank hr _ hes hb k)
  · obtain rfl := release_unsynced hu hsync
    obtain ⟨hmem, m, hm, hsees⟩ := putElems_l1 hr _ hes hl1 hckt hroom
    exact ⟨hview.mem.trans hmem, m, hm, fun pa => (hview.sees _ pa).trans (hsees pa)⟩

end Sys2Proof.Laws
end

section
/-!
The stream engine (13 R279 to R292, 03 R57, R67 to R70): landings, decode steps, completion and faults.
-/
namespace Sys2Proof.Laws
open Sys2Proof.Machine

/-! ### An operation of a core's engines -/

/-- An operation of a core's engines, which its number and its core both find. -/
structure Found (s : State) (n k : Nat) (o : EngineOp) : Prop where
  here : s.op? n = some (k, o)
  in_ : (s.core k).ops.find? (fun y => y.id == n) = some o

theorem Runs.found {s : State} {n k : Nat} {o : EngineOp} (h : Runs s n k o) : Found s n k o := ⟨h.here, h.in_⟩

theorem Found.id_eq {s : State} {n k : Nat} {o : EngineOp} (h : Found s n k o) : o.id = n := by
  simpa using List.find?_some h.in_

theorem Found.modOp {s : State} {n k : Nat} {o : EngineOp} (h : Found s n k o) (f : EngineOp → EngineOp) (hf : ∀ y, (f y).id = y.id) :
    Found (s.modOp k n f) n k (f o) :=
  ⟨(op?_modOp h.here h.in_ f hf).1, (op?_modOp h.here h.in_ f hf).2⟩

theorem Found.of_cores {s t : State} {n k : Nat} {o : EngineOp} (h : Found s n k o) (hc : t.cores = s.cores) : Found t n k o := by
  refine ⟨?_, ?_⟩
  · unfold State.op?; rw [hc]; exact h.here
  · unfold State.core; rw [hc]; exact h.in_

/-- An operation as it was, but for which of its intervals are complete and whether it holds its entry. -/
def EngineOp.closesTo (o o' : EngineOp) : Prop := o' = { o with intervals := o'.intervals, entry := o'.entry }

theorem state_ite_cases (c : Prop) [Decidable c] (s t : State) : (if c then s else t) = s ∨ (if c then s else t) = t := by
  by_cases h : c
  · exact .inl (if_pos h)
  · exact .inr (if_neg h)

/-- 13 R291: the reads of an operation close, or nothing happens. -/
theorem Found.closeReads_cases {s : State} {n k : Nat} {o : EngineOp} (h : Found s n k o) :
    s.closeReads k n = s.modOp k n (·.close false) ∨ s.closeReads k n = s := by
  unfold State.closeReads
  simp only [h.here]
  exact state_ite_cases _ _ _

/-- 13 R291: closing reads changes no more than the operation's intervals and entry. -/
theorem Found.closeReads {s : State} {n k : Nat} {o : EngineOp} (h : Found s n k o) :
    ∃ o' cs, Found (s.closeReads k n) n k o' ∧ EngineOp.closesTo o o' ∧ s.closeReads k n = { s with cores := cs } := by
  rcases h.closeReads_cases with e | e <;> rw [e]
  · exact ⟨_, _, h.modOp (·.close false) (fun _ => rfl), rfl, rfl⟩
  · exact ⟨o, s.cores, h, rfl, rfl⟩

/-- 13 R291: an operation of which both parts are closed holds no entry, and its intervals are complete. -/
theorem close_both (o : EngineOp) : ((o.close false).close true).entry = false ∧ ∀ z ∈ ((o.close false).close true).intervals, z.complete = true := by
  have hall : ∀ z ∈ ((o.close false).close true).intervals, z.complete = true := fun z hz => by
    simp only [EngineOp.close, List.mem_map] at hz
    obtain ⟨_, ⟨i, -, rfl⟩, rfl⟩ := hz
    cases hw : i.write <;> simp [hw]
  refine ⟨?_, hall⟩
  have hnone : ((o.close false).close true).intervals.any (fun i => !i.complete) = false :=
    List.any_eq_false.2 fun z hz => by simp [hall z hz]
  exact (congrArg ((o.close false).entry && ·) hnone).trans (Bool.and_false _)

/-! ### No barrier, no copy tracing -/

theorem partOf_of_parts {s t : State} (h : t.parts = s.parts) (n : Nat) : t.partOf n = s.partOf n := by
  unfold State.partOf State.part?
  rw [h]

theorem traceCopy_off {s : State} {w : Workgroup} (h : (s.partOf w.part).obs.trace.getLsbD 0 = false) (o : EngineOp) (kind : Nat) :
    s.traceCopy w o kind = s := if_neg (by rw [h]; exact Bool.false_ne_true)

theorem countBytes_none {o : EngineOp} (h : o.barrier = none) (s : State) (core upto : Nat) : s.countBytes core o upto = s := by
  unfold State.countBytes; rw [h]

/-- After a landing of an operation that counts into no barrier and is not traced: when it was the last, its intervals close. -/
theorem afterLanding_eq {s : State} {n k : Nat} {o : EngineOp} {w : Workgroup} (h : Found s n k o) (hb : o.barrier = none)
    (ht : (s.partOf w.part).obs.trace.getLsbD 0 = false) (before now total : Nat) :
    s.afterLanding k w n before now total = if now = total then s.modOp k n (fun o => (o.close false).close true) else s := by
  unfold State.afterLanding
  simp only [h.here, traceCopy_off ht, countBytes_none hb, ite_self]

/-- 13 R288, R291: what a step leaves that has landed elements of an operation with no barrier and no tracing. -/
theorem landed_next {t : State} {op core before total : Nat} {o1 : EngineOp} {w : Workgroup} (h : Found t op core o1)
    (hb : o1.barrier = none) (ht : (t.partOf w.part).obs.trace.getLsbD 0 = false) (hnow : o1.landed.length = before + 1) :
    ∃ v o' cs, (let u := t.closeReads core op
        let now := ((u.op? op).map (fun x => x.2.landed.length)).getD 0
        if now = before then u else u.afterLanding core w op before now total) = v ∧ v = { t with cores := cs } ∧
      Found v op core o' ∧ EngineOp.closesTo o1 o' ∧
      (o'.landed.length = total → o'.entry = false ∧ ∀ z ∈ o'.intervals, z.complete = true) := by
  obtain ⟨o2, cs, h2, hc2, hcs⟩ := h.closeReads
  have hlen : o2.landed.length = before + 1 := by rw [hc2]; exact hnow
  have hb2 : o2.barrier = none := by rw [hc2]; exact hb
  have ht2 : ((t.closeReads core op).partOf w.part).obs.trace.getLsbD 0 = false := by rw [hcs]; exact ht
  simp only [h2.here, Option.map_some, Option.getD_some, hlen, Nat.add_one_ne_self, if_false, afterLanding_eq h2 hb2 ht2]
  by_cases hall : before + 1 = total
  · rw [if_pos hall]
    refine ⟨_, _, _, rfl, by rw [hcs]; rfl, h2.modOp _ (fun _ => rfl), ?_, fun _ => close_both o2⟩
    unfold EngineOp.closesTo
    rw [hc2]; rfl
  · rw [if_neg hall]
    exact ⟨_, o2, cs, rfl, hcs, h2, hc2, fun he => absurd (hlen.symm.trans he) hall⟩

/-! ### Landing (13 R279 to R283) -/

theorem all_replaceBy {α : Type} (p q : α → Bool) (f : α → α) (h : ∀ a, q (f a) = q a) (l : List α) : (replaceBy p f l).all q = l.all q := by
  have := congrArg (List.all · id) (map_replaceBy_same p f q h l)
  rw [List.all_map, List.all_map] at this
  exact this

/-- 13 R292: whether a part of an operation may run looks at no more of the engines than intervals and entries. -/
theorem partClear_modOp (s : State) {f : EngineOp → EngineOp} (hf : ∀ y, f y = { y with fetched := (f y).fetched, fstat := (f y).fstat })
    (core n : Nat) (o : EngineOp) (write : Bool) : (s.modOp core n f).partClear core (f o) write = s.partClear core o write := by
  have hclear : ∀ i, (s.modOp core n f).intervalClear core (f o) i = s.intervalClear core o i := fun i => by
    unfold State.intervalClear State.modOp
    rw [State.core_modCore, if_pos rfl, hf o]
    dsimp only
    exact all_replaceBy _ _ f (fun y => by rw [hf y]; rfl) _
  unfold State.partClear
  rw [hf o]
  refine congrArg (List.all o.intervals) (funext fun i => ?_)
  rw [← hclear i, ← hf o]

/-- 13 R279: a STREAM or SGATH that has met no fault, asked to land one element: it lands as `landElem` has it, then the reads may close
and the landing is noted. -/
theorem execStreamLanding_one {s u t : State} {op core i : Nat} {o : EngineOp} {w : Workgroup} (h : Found s op core o)
    (hw : s.wg? o.wgKey = some w) (hk : o.kind = .stream ∨ o.kind = .sgath) (hf : o.fault = none) (hcl : s.partClear core o true = true)
    (hu : u = if o.landed = [] then s.untagHull w o else s)
    (ht : (u.fetchElem core w op i).landElem core w op i [] = (t, [])) :
    exec (.streamLanding op [i]) s = .next (
      let v := t.closeReads core op
      let now := ((v.op? op).map (fun x => x.2.landed.length)).getD 0
      if now = o.landed.length then v else v.afterLanding core w op o.landed.length now (productOf o.dims)) := by
  have hkind : (o.kind == .stream || o.kind == .sgath) = true := by
    rcases hk with hk | hk <;> rw [hk] <;> rfl
  have hstart : (if (o.landed.isEmpty && !(List.isEmpty [i]) && s.partClear core o true) = true then s.untagHull w o else s) = u := by
    rw [hu, hcl]
    cases o.landed <;> rfl
  have hsend : t.sendParts core w op o.gid [] = t := rfl
  show execStreamLanding op [i] s = _
  unfold execStreamLanding
  simp only [h.here, hw, hkind, hf, Option.isSome_none, Bool.not_true, Bool.or_self, Bool.false_eq_true, if_false, hstart,
    List.foldl_cons, List.foldl_nil, ht, hsend]

/-- An element of an operation has been read, and stands to land. -/
def EngineOp.take (i v : Nat) (f : FlagBits) (o : EngineOp) : EngineOp := { o with fetched := o.fetched ++ [(i, v)], fstat := o.fstat ||| f }

theorem find?_take {s : State} {o : EngineOp} {i : Nat} (h : s.elemRead o i = false) (v : Nat) (f : FlagBits) :
    (EngineOp.take i v f o).fetched.find? (fun e => e.1 == i) = some (i, v) := by
  simp only [State.elemRead, Bool.or_eq_false_iff] at h
  obtain ⟨⟨-, hfetched⟩, -⟩ := h
  have hnone : o.fetched.find? (fun e => e.1 == i) = none :=
    List.find?_eq_none.2 fun e he => by simpa using List.any_eq_false.1 hfetched e he
  simp [EngineOp.take, List.find?_append, hnone]

theorem not_landed {s : State} {o : EngineOp} {i : Nat} (h : s.elemRead o i = false) : i ∉ o.landed := by
  simp only [State.elemRead, Bool.or_eq_false_iff] at h
  obtain ⟨⟨hlanded, -⟩, -⟩ := h
  simpa using hlanded

/-- 13 R281: the byte offset, bytes and nibble of an element's position at its destination. -/
def EngineOp.destSpan (o : EngineOp) (i : Nat) : Nat × Nat × Option Bool :=
  elemSpan (sideWidth (Ptr.ofBits o.dst).fmt (Ptr.ofBits o.src).fmt) (o.destPos i).toNat

/-- What memory holds once an element has landed at its places: a nibble, or its bytes (13 R281, R282). -/
def landedByte (m : Nat → Byte) (ps : List Place) (sp : Nat × Nat × Option Bool) (v k : Nat) : Byte :=
  match sp.2.2 with
  | none => writeIn m ((ps.map Place.key).zip (bytesOfNat sp.2.1 v)) k
  | some hi => writeIn m ((ps.map Place.key).zip (ps.map (fun p => setNibble (m p.key) hi (v % 256)))) k

/-- Element i of an operation can be read, as the value v with the flags f, and can land: its places are in scratchpads and
carve-outs, and nothing holds them. -/
structure Landable (u : State) (op core : Nat) (o : EngineOp) (w : Workgroup) (i v : Nat) (f : FlagBits) (ps : List Place) : Prop where
  found : Found u op core o
  sound : o.fault = none
  reads : u.partClear core o false = true
  writes : u.partClear core o true = true
  unread : u.elemRead o i = false
  lt : i < productOf o.dims
  brought : ∃ qs, u.bringElem core w o i = .value v f qs ∧ ∀ p ∈ qs, ∃ k, p = .fixed k
  places : (u.modOp core op (EngineOp.take i v f)).placesFrom w (Ptr.ofBits o.dst) (EngineOp.destSpan o i).1 (EngineOp.destSpan o i).2.1 (engineUse true) = .ok ps
  fixed : ∀ p ∈ ps, ∃ k, p = .fixed k
  free : (Ptr.ofBits o.dst).space = 2 → ps.any (fun p => (u.modOp core op (EngineOp.take i v f)).peerBusy (EngineOp.take i v f o) p.key true) = false

/-- 13 R279, R282: such an element is read, and lands unless one of a higher index prevails at its position. -/
theorem Landable.lands {u : State} {op core i v : Nat} {o : EngineOp} {w : Workgroup} {f : FlagBits} {ps : List Place}
    (h : Landable u op core o w i v f ps) :
    ∃ t, (u.fetchElem core w op i).landElem core w op i [] = (t, []) ∧ Found t op core ((EngineOp.take i v f o).land i) ∧
      t.parts = u.parts ∧ t.Calm u.placed ∧
      ∀ k, t.byte k = if (o.landed ++ u.underWay op).any (fun j => i < j && o.destPos j == o.destPos i) then u.byte k
        else landedByte u.byte ps (EngineOp.destSpan o i) v k := by
  obtain ⟨qs, hbring, hqs⟩ := h.brought
  have htake : Found (u.modOp core op (EngineOp.take i v f)) op core (EngineOp.take i v f o) := h.found.modOp _ (fun _ => rfl)
  have hclear : (u.modOp core op (EngineOp.take i v f)).partClear core (EngineOp.take i v f o) true = true :=
    (partClear_modOp u (fun _ => rfl) core op o true).trans h.writes
  obtain ⟨t, hland, hcores, hparts, -, -, hcalm, hbyte⟩ :=
    landElem_here (w := w) htake.here h.sound (find?_take h.unread v f) hclear h.places h.fixed h.free
  refine ⟨_, ?_, (htake.of_cores hcores).modOp (·.land i) (fun _ => rfl), hparts, ?_, hbyte⟩
  · rw [fetchElem_here h.found.here h.sound h.unread h.lt h.reads hbring hqs]
    exact hland
  · exact State.modOp_calm _ _ _ _ (hcalm _ (State.modOp_calm _ _ _ _ rfl))

/-- 13 R279, R282, R283, R288, R291: an element of a STREAM or SGATH lands, and the intervals close when it is the last. -/
theorem streamLanding_lands {s : State} {ts : List Nat} {op core i v : Nat} {o : EngineOp} {w : Workgroup} {f : FlagBits} {ps : List Place}
    (hu : (if o.landed = [] then s.untagHull w o else s) = { s with tags := ts })
    (h : Landable { s with tags := ts } op core o w i v f ps) (hwg : s.wg? o.wgKey = some w) (hk : o.kind = .stream ∨ o.kind = .sgath)
    (hb : o.barrier = none) (ht : (s.partOf w.part).obs.trace.getLsbD 0 = false) :
    ∃ t o', exec (.streamLanding op [i]) s = .next t ∧ t.op? op = some (core, o') ∧ o'.landed = setAdd i o.landed ∧
      o'.fstat = o.fstat ||| f ∧ t.groups.map Group.bare = s.groups.map Group.bare ∧ t.wgs = s.wgs ∧
      (o'.landed.length = productOf o.dims → o'.entry = false ∧ ∀ z ∈ o'.intervals, z.complete = true) ∧
      ∀ k, t.byte k = if (o.landed ++ s.underWay op).any (fun j => i < j && o.destPos j == o.destPos i) then s.byte k
        else landedByte s.byte ps (EngineOp.destSpan o i) v k := by
  obtain ⟨t, hland, hfound, hparts, hcalm, hbyte⟩ := h.lands
  have hobs : (t.partOf w.part).obs.trace.getLsbD 0 = false := by
    rw [partOf_of_parts (s := s) hparts]; exact ht
  obtain ⟨t', o', cs, hend, hframe, hfound', hcloses, hall⟩ :=
    landed_next (total := productOf o.dims) hfound hb hobs (setAdd_length (not_landed (o := o) h.unread))
  have hcalm' : t'.Calm s.placed := by rw [hframe]; exact hcalm
  have hnext := (execStreamLanding_one (s := s) ⟨h.found.here, h.found.in_⟩ hwg hk h.sound h.writes hu.symm hland).trans (congrArg Host.Outcome.next hend)
  refine ⟨t', o', hnext, hfound'.here, by rw [hcloses]; rfl, by rw [hcloses]; rfl, congrArg (·.1) hcalm', calm_wgs hcalm', hall, fun k => ?_⟩
  rw [hframe]
  exact hbyte k

/-! ### Decoding (03 R67 to R70, 13 R284) -/

/-- What SDEC_DECODE does once the header is read or the steps are made. -/
def decodeEnd (core : Nat) (w : Workgroup) (op : Nat) (o : EngineOp) (s : State) : State :=
  match s.op? op with
  | none => s
  | some (_, o') =>
    let s := if o'.outlen.isNone || (o'.outlen != some 0 && o'.steps = o.steps) then s
      else s.afterLanding core w op o.steps o'.steps (o'.outlen.getD 0)
    if o'.fault.isSome || o'.outlen != some o'.steps || o'.endsWell then s
    else s.failOp core op (o'.decodeFault 0x5303 o'.steps)

/-- 13 R284: SDEC_DECODE of the oldest SDEC of a core that has met no fault, nothing holding what it reads. -/
theorem execSdecDecode_first {s : State} {op core : Nat} {o : EngineOp} {w : Workgroup} (h : Found s op core o)
    (hw : s.wg? o.wgKey = some w) (hk : o.kind = .sdec) (hfirst : ∀ y ∈ (s.core core).ops, y.decoding = true → op ≤ y.id)
    (hf : o.fault = none) (hcl : s.partClear core o false = true) (n : Nat) :
    exec (.sdecDecode op n) s = .next (decodeEnd core w op o (((List.range n).foldl (fun s _ => s.decodeOn core w op)
      (if o.outlen.isNone = true then s.decodeHeader core w o else s)).closeReads core op)) := by
  have hall : (s.core core).ops.all (fun y => !y.decoding || decide (y.id ≥ o.id)) = true :=
    List.all_eq_true.2 fun y hy => by
      cases hd : y.decoding
      · rfl
      · simpa [h.id_eq] using hfirst y hy hd
  show execSdecDecode op n s = _
  unfold execSdecDecode
  simp only [h.here, hw, hk, hall, hf, hcl, bne_self_eq_false, Bool.not_true, Option.isSome_none, Bool.or_self, Bool.false_eq_true,
    if_false, Bool.and_true]
  rfl

/-- 03 R69: nothing more is done where no step has been made, and the operation has met a fault or has steps to make. -/
theorem decodeEnd_unmoved {s : State} {op core : Nat} {o o' : EngineOp} (h : Found s op core o') (w : Workgroup)
    (hstep : o'.outlen = none ∨ o'.outlen ≠ some 0 ∧ o'.steps = o.steps) (hmore : o'.fault.isSome = true ∨ o'.outlen ≠ some o'.steps) :
    decodeEnd core w op o s = s := by
  have h1 : (o'.outlen.isNone || (o'.outlen != some 0 && decide (o'.steps = o.steps))) = true := by
    rcases hstep with h | ⟨h0, hs⟩
    · rw [h]; rfl
    · rw [bne_iff_ne.2 h0, hs]; simp
  have h2 : (o'.fault.isSome || o'.outlen != some o'.steps || o'.endsWell) = true := by
    rcases hmore with h | h
    · rw [h]; rfl
    · rw [bne_iff_ne.2 h]; simp
  unfold decodeEnd
  simp only [h.here, h1, h2, if_true]

/-- 13 R288: nothing more is done after a step that was not the last, without barrier and tracing. -/
theorem decodeEnd_stepped {s : State} {op core n : Nat} {o o' : EngineOp} {w : Workgroup} (h : Found s op core o')
    (hn : o'.outlen = some n) (hmore : o'.steps ≠ n) (hb : o'.barrier = none)
    (ht : (s.partOf w.part).obs.trace.getLsbD 0 = false) : decodeEnd core w op o s = s := by
  have h2 : (o'.fault.isSome || some n != some o'.steps || o'.endsWell) = true := by
    rw [bne_iff_ne.2 (fun e => hmore (Option.some.inj e).symm)]; simp
  unfold decodeEnd
  simp only [h.here, hn, h2, afterLanding_eq h hb ht, Option.getD_some, if_neg hmore, ite_self, if_true]

/-- 03 R67, R68: the fields that a header sets. -/
def EngineOp.withHeader (h : List Byte) (o : EngineOp) : EngineOp :=
  { o with header := h, outlen := some (fieldOf h 4 4), size := fieldOf h 4 4,
           rans := (List.range 32).map (fun j => fieldOf h (0x20 + 4 * j) 4) }

/-- 03 R67: a header in order is taken over. -/
theorem decodeHeader_valid {s : State} {core : Nat} {w : Workgroup} {o : EngineOp} {h : List Byte} {ps : List Place}
    (hlen : 928 ≤ (Ptr.ofBits o.src).len) (hfetch : s.fetchBytes w o (Ptr.ofBits o.src) 0 928 = .bytes h ps)
    (halign : (Ptr.ofBits o.src).base % 16 = 0) (hvalid : headerValid h = true)
    (hin : fieldOf h 0xC 4 + fieldOf h 8 4 ≤ (Ptr.ofBits o.src).len) (hout : fieldOf h 4 4 ≤ (Ptr.ofBits o.dst).len) :
    s.decodeHeader core w o = (s.engineReach core w.part ps false).modOp core o.id (EngineOp.withHeader h) := by
  unfold State.decodeHeader
  simp only [Nat.not_lt.2 hlen, hfetch, halign, hvalid, Nat.not_lt.2 hin, Nat.not_lt.2 hout, bne_self_eq_false, Bool.not_true,
    Bool.or_self, Bool.false_eq_true, if_false, decide_false]
  rfl

/-- 03 R70: a header out of order is the fault 0x5301. -/
theorem decodeHeader_invalid {s : State} {core : Nat} {w : Workgroup} {o : EngineOp} {h : List Byte} {ps : List Place}
    (hlen : 928 ≤ (Ptr.ofBits o.src).len) (hfetch : s.fetchBytes w o (Ptr.ofBits o.src) 0 928 = .bytes h ps)
    (hbad : (Ptr.ofBits o.src).base % 16 ≠ 0 ∨ headerValid h = false) :
    s.decodeHeader core w o = (s.engineReach core w.part ps false).failOp core o.id (o.decodeFault 0x5301 0) := by
  have hbad' : ((Ptr.ofBits o.src).base % 16 != 0 || !headerValid h) = true := by
    rcases hbad with h | h
    · rw [bne_iff_ne.2 h]; rfl
    · rw [h]; simp
  unfold State.decodeHeader
  simp only [Nat.not_lt.2 hlen, hfetch, hbad', if_false, if_true]

/-- 13 R284, R291: what follows a header read or a fault leaves the operation so, but for what closes of it. -/
theorem decode_unmoved {u : State} {op core : Nat} {o o1 : EngineOp} (h : Found u op core o1) (w : Workgroup)
    (hstep : o1.outlen = none ∨ o1.outlen ≠ some 0 ∧ o1.steps = o.steps) (hmore : o1.fault.isSome = true ∨ o1.outlen ≠ some o1.steps) :
    ∃ o', (decodeEnd core w op o (u.closeReads core op)).op? op = some (core, o') ∧ EngineOp.closesTo o1 o' ∧
      (decodeEnd core w op o (u.closeReads core op)).mem = u.mem := by
  obtain ⟨o', cs, hfound, hcloses, hframe⟩ := h.closeReads
  have hsame : decodeEnd core w op o (u.closeReads core op) = u.closeReads core op :=
    decodeEnd_unmoved hfound w (by rw [hcloses]; exact hstep) (by rw [hcloses]; exact hmore)
  rw [hsame]
  exact ⟨o', hfound.here, hcloses, by rw [hframe]⟩

/-- 13 R284, R288, R291: and what follows a step that is not the last. -/
theorem decode_stepped {u : State} {op core n : Nat} {o1 : EngineOp} {w : Workgroup} (h : Found u op core o1) (o : EngineOp)
    (hn : o1.outlen = some n) (hmore : o1.steps ≠ n) (hb : o1.barrier = none) (ht : (u.partOf w.part).obs.trace.getLsbD 0 = false) :
    ∃ o', (decodeEnd core w op o (u.closeReads core op)).op? op = some (core, o') ∧ EngineOp.closesTo o1 o' ∧
      (decodeEnd core w op o (u.closeReads core op)).mem = u.mem := by
  obtain ⟨o', cs, hfound, hcloses, hframe⟩ := h.closeReads
  have hsame : decodeEnd core w op o (u.closeReads core op) = u.closeReads core op :=
    decodeEnd_stepped hfound (n := n) (by rw [hcloses]; exact hn) (by rw [hcloses]; exact hmore) (by rw [hcloses]; exact hb)
      (by rw [hframe]; exact ht)
  rw [hsame]
  exact ⟨o', hfound.here, hcloses, by rw [hframe]⟩

/-- An operation that meets its first fault. -/
theorem Found.failOp {s : State} {n k : Nat} {o : EngineOp} (h : Found s n k o) (hf : o.fault = none) (e : FaultInfo) :
    Found (s.failOp k n e) n k { o with fault := some e } := by
  have := h.modOp (fun y => { y with fault := y.fault.orElse (fun _ => some e) }) (fun _ => rfl)
  rw [hf] at this
  exact this

/-! ### A decode step (03 R68) -/

/-- 03 R68: the symbol of a decode step, with its cumulative frequency and its frequency. -/
def EngineOp.slot (o : EngineOp) : Nat × Nat × Nat := symbolAt (freqsOf o.header) 0 0 (o.rans.getD (o.steps % 32) 0 % 4096)

/-- 03 R68: the state of a decode step, before a word is taken in. -/
def EngineOp.advanced (o : EngineOp) : Nat :=
  (EngineOp.slot o).2.2 * (o.rans.getD (o.steps % 32) 0 / 4096) + o.rans.getD (o.steps % 32) 0 % 4096 - (EngineOp.slot o).2.1

/-- 03 R68: an operation after the decode step of a number. -/
def EngineOp.stepTo (i next used : Nat) (o : EngineOp) : EngineOp :=
  { o with rans := o.rans.modify (i % 32) (fun _ => next), consumed := o.consumed + used, steps := i + 1, fetched := o.fetched.drop used }

/-- 03 R68: what a decode step makes of the words read: the next state of its decoder, and how many words it takes. -/
def EngineOp.Takes (o : EngineOp) (ahead : List (Nat × Nat)) (next used : Nat) : Prop :=
  2 ^ 16 ≤ EngineOp.advanced o ∧ next = EngineOp.advanced o ∧ used = 0 ∨
    EngineOp.advanced o < 2 ^ 16 ∧ ∃ e r, ahead = e :: r ∧ next = EngineOp.advanced o * 2 ^ 16 + e.2 ∧ used = 1

/-- 03 R68: a decode step that has the word it needs lands a byte. -/
theorem decodeStep_lands {t : State} {op core n next used : Nat} {o : EngineOp} (w : Workgroup) (h : Found t op core o) (hf : o.fault = none)
    (hn : o.outlen = some n) (hmore : o.steps ≠ n) (htakes : EngineOp.Takes o o.fetched next used) :
    t.decodeStep core w op =
      (t.store [(scratchKey w.phys ((Ptr.ofBits o.dst).base + o.steps), BitVec.ofNat 8 (fieldOf o.header (0xA0 + (EngineOp.slot o).1) 1))]
        none).modOp core op (EngineOp.stepTo o.steps next used) := by
  have hgo : (o.fault.isSome || o.outlen.isNone || some o.steps == o.outlen) = false := by
    rw [hf, hn]; simpa using hmore
  unfold State.decodeStep
  simp only [h.here, hgo, Bool.false_eq_true, if_false]
  rcases htakes with ⟨hge, rfl, rfl⟩ | ⟨hlt, e, r, hfetched, rfl, rfl⟩
  · exact if_neg (Nat.not_lt.2 hge)
  · rw [hfetched]
    exact if_pos hlt

/-- 03 R69, R70: a decode step that needs a word fails where the stream has none left. -/
theorem decodeStep_fails {t : State} {op core n : Nat} {o : EngineOp} (w : Workgroup) (h : Found t op core o) (hf : o.fault = none)
    (hn : o.outlen = some n) (hmore : o.steps ≠ n) (hlt : EngineOp.advanced o < 2 ^ 16) (hnone : o.fetched = [])
    (hend : fieldOf o.header 8 4 ≤ 2 * o.consumed) : t.decodeStep core w op = t.failOp core op (o.decodeFault 0x5302 o.steps) := by
  have hgo : (o.fault.isSome || o.outlen.isNone || some o.steps == o.outlen) = false := by
    rw [hf, hn]; simpa using hmore
  unfold State.decodeStep
  simp only [h.here, hgo, Bool.false_eq_true, if_false, hnone]
  exact (if_pos hlt).trans (if_pos hend)

/-- 13 R284, R292: an SDEC of which nothing holds what it reads or writes reads a word when it has none, and makes a step. -/
theorem decodeOn_clear {s : State} {op core : Nat} {o : EngineOp} (w : Workgroup) (h : Found s op core o)
    (hr : s.partClear core o false = true) (hw : s.partClear core o true = true) :
    s.decodeOn core w op = (if o.fetched.isEmpty then s.readAhead core w op else s).decodeStep core w op := by
  unfold State.decodeOn
  simp only [h.here, hr, hw, Bool.not_true, Bool.or_false, Bool.and_true, if_true]

/-- 03 R68: the words of the stream that stand read when a step is made. -/
def State.Ahead (s : State) (o : EngineOp) (w : Workgroup) (ahead : List (Nat × Nat)) : Prop :=
  o.fetched ≠ [] ∧ ahead = o.fetched ∨
  o.fetched = [] ∧ fieldOf o.header 8 4 ≤ 2 * o.consumed ∧ ahead = [] ∨
  o.fetched = [] ∧ 2 * o.consumed < fieldOf o.header 8 4 ∧
    ∃ bs ps, s.fetchBytes w o (Ptr.ofBits o.src) (fieldOf o.header 0xC 4 + 2 * o.consumed) 2 = .bytes bs ps ∧ ahead = [(o.consumed, natOfBytes bs)]

/-- 03 R68, 13 R291: a word is read when there is none; of an operation that runs, nothing else changes. -/
theorem ahead_read {s : State} {op core n : Nat} {o : EngineOp} {w : Workgroup} {ahead : List (Nat × Nat)} (h : Runs s op core o)
    (hf : o.fault = none) (hn : o.outlen = some n) (hring : (s.partOf w.part).accRing.size = 0) (ha : State.Ahead s o w ahead) :
    ∃ t, (if o.fetched.isEmpty then s.readAhead core w op else s) = t ∧ Found t op core { o with fetched := ahead } ∧
      t.mem = s.mem ∧ (t.partOf w.part).obs = (s.partOf w.part).obs := by
  rcases ha with ⟨hsome, rfl⟩ | ⟨hnone, hend, rfl⟩ | ⟨hnone, hmore, bs, ps, hfetch, rfl⟩
  · rw [if_neg (by simpa using hsome)]
    exact ⟨s, rfl, h.found, rfl, rfl⟩
  · have hwords : 2 * o.wordsRead ≥ fieldOf o.header 8 4 := by
      unfold EngineOp.wordsRead; rw [hnone]; exact hend
    have hread : s.readAhead core w op = s := by
      unfold State.readAhead
      simp [h.here, hwords]
    rw [hread, ite_self]
    exact ⟨s, rfl, hnone ▸ h.found, rfl, rfl⟩
  · have hwords : o.wordsRead = o.consumed := by unfold EngineOp.wordsRead; rw [hnone]; rfl
    have hkept := kept_reach s core w.part ps hring
    have hread : s.readAhead core w op = (s.engineReach core w.part ps false).modOp core op
        (fun o => { o with fetched := o.fetched ++ [(o.wordsRead, natOfBytes bs)] }) := by
      unfold State.readAhead
      simp only [h.here, hf, hn, hwords, hfetch, Option.isSome_none, Option.isNone_some, Bool.or_self, Bool.false_or, decide_eq_true_eq,
        ge_iff_le, if_neg (Nat.not_le.2 hmore)]
    have hfound := (hkept.runs _ _ _ h).found.modOp (fun o => { o with fetched := o.fetched ++ [(o.wordsRead, natOfBytes bs)] }) (fun _ => rfl)
    rw [hwords, hnone] at hfound
    rw [if_pos (by rw [hnone]; rfl), hread]
    exact ⟨_, rfl, hfound, hkept.mem, hkept.obs w.part⟩

/-! ### What SDEC_DECODE makes of the decoder's operation -/

/-- An SDEC that its core decodes next: the oldest, with no fault met, nothing holding what it reads, no barrier counting its bytes, copy
tracing off, and no accesses recorded of its partition. -/
structure Decodes (s : State) (op core : Nat) (o : EngineOp) (w : Workgroup) : Prop where
  runs : Runs s op core o
  home : s.wg? o.wgKey = some w
  kind : o.kind = .sdec
  first : ∀ y ∈ (s.core core).ops, y.decoding = true → op ≤ y.id
  sound : o.fault = none
  reads : s.partClear core o false = true
  writes : s.partClear core o true = true
  barrier : o.barrier = none
  untraced : (s.partOf w.part).obs.trace.getLsbD 0 = false
  unrecorded : (s.partOf w.part).accRing.size = 0

theorem Decodes.exec_eq {s : State} {op core : Nat} {o : EngineOp} {w : Workgroup} (h : Decodes s op core o w) (n : Nat) :
    exec (.sdecDecode op n) s = .next (decodeEnd core w op o (((List.range n).foldl (fun s _ => s.decodeOn core w op)
      (if o.outlen.isNone = true then s.decodeHeader core w o else s)).closeReads core op)) :=
  execSdecDecode_first h.runs.found h.home h.kind h.first h.sound h.reads n

/-- 03 R67, 13 R284: a header in order is taken over. -/
theorem Decodes.header_valid {s : State} {op core : Nat} {o : EngineOp} {w : Workgroup} {hd : List Byte} {ps : List Place}
    (h : Decodes s op core o w) (hnone : o.outlen = none) (hzero : o.steps = 0) (hlen : 928 ≤ (Ptr.ofBits o.src).len)
    (hfetch : s.fetchBytes w o (Ptr.ofBits o.src) 0 928 = .bytes hd ps) (halign : (Ptr.ofBits o.src).base % 16 = 0)
    (hvalid : headerValid hd = true) (hin : fieldOf hd 0xC 4 + fieldOf hd 8 4 ≤ (Ptr.ofBits o.src).len)
    (hout : fieldOf hd 4 4 ≤ (Ptr.ofBits o.dst).len) (hsome : fieldOf hd 4 4 ≠ 0) :
    ∃ t o', exec (.sdecDecode op 0) s = .next t ∧ t.op? op = some (core, o') ∧ o'.header = hd ∧ o'.outlen = some (fieldOf hd 4 4) ∧
      o'.rans = (List.range 32).map (fun j => fieldOf hd (0x20 + 4 * j) 4) ∧ o'.fault = none ∧ t.mem = s.mem := by
  have hkept := kept_reach s core w.part ps h.unrecorded
  have hexec := h.exec_eq 0
  rw [hnone, Option.isNone_none, if_pos rfl, decodeHeader_valid hlen hfetch halign hvalid hin hout, h.runs.found.id_eq] at hexec
  have hlong : some (fieldOf hd 4 4) ≠ some 0 := fun e => hsome (Option.some.inj e)
  have hread : Found _ op core (EngineOp.withHeader hd o) := (hkept.runs _ _ _ h.runs).found.modOp (EngineOp.withHeader hd) (fun _ => rfl)
  obtain ⟨o', hfound, hcloses, hmem⟩ := decode_unmoved (o := o) hread w (.inr ⟨hlong, rfl⟩)
    (.inr (fun e => hlong (e.trans (congrArg some hzero))))
  refine ⟨_, o', hexec, hfound, ?_, ?_, ?_, ?_, hmem.trans hkept.mem⟩
  · rw [hcloses]; rfl
  · rw [hcloses]; rfl
  · rw [hcloses]; rfl
  · rw [hcloses]; exact h.sound

/-- 03 R70, 13 R284: a header out of order is a fault. -/
theorem Decodes.header_invalid {s : State} {op core : Nat} {o : EngineOp} {w : Workgroup} {hd : List Byte} {ps : List Place}
    (h : Decodes s op core o w) (hnone : o.outlen = none) (hlen : 928 ≤ (Ptr.ofBits o.src).len)
    (hfetch : s.fetchBytes w o (Ptr.ofBits o.src) 0 928 = .bytes hd ps)
    (hbad : (Ptr.ofBits o.src).base % 16 ≠ 0 ∨ headerValid hd = false) :
    ∃ t o' e, exec (.sdecDecode op 0) s = .next t ∧ t.op? op = some (core, o') ∧ o'.fault = some e ∧ e.code = 0x5301 ∧ t.mem = s.mem := by
  have hkept := kept_reach s core w.part ps h.unrecorded
  have hexec := h.exec_eq 0
  rw [hnone, Option.isNone_none, if_pos rfl, decodeHeader_invalid hlen hfetch hbad, h.runs.found.id_eq] at hexec
  have hfailed := (hkept.runs _ _ _ h.runs).found.failOp h.sound (o.decodeFault 0x5301 0)
  obtain ⟨o', hfound, hcloses, hmem⟩ := decode_unmoved (o := o) hfailed w (.inl hnone) (.inl rfl)
  exact ⟨_, o', _, hexec, hfound, by rw [hcloses], rfl, hmem.trans hkept.mem⟩

/-- 13 R284: SDEC_DECODE of one step reads ahead if no word stands read, then decodes. -/
theorem Decodes.one_step {s : State} {op core n : Nat} {o : EngineOp} {w : Workgroup} (h : Decodes s op core o w) (hn : o.outlen = some n) :
    exec (.sdecDecode op 1) s = .next (decodeEnd core w op o
      (((if o.fetched.isEmpty then s.readAhead core w op else s).decodeStep core w op).closeReads core op)) := by
  rw [h.exec_eq 1, hn, ← decodeOn_clear w h.runs.found h.reads h.writes]
  rfl

/-- 03 R68, 13 R284: a step, not the last, that has the word it needs. -/
theorem Decodes.step_lands {s : State} {op core n next used : Nat} {o : EngineOp} {w : Workgroup} {ahead : List (Nat × Nat)}
    (h : Decodes s op core o w) (hn : o.outlen = some n) (hmore : o.steps + 1 < n) (ha : State.Ahead s o w ahead)
    (htakes : EngineOp.Takes o ahead next used) :
    ∃ t o', exec (.sdecDecode op 1) s = .next t ∧ t.op? op = some (core, o') ∧ o'.steps = o.steps + 1 ∧
      o'.rans = o.rans.modify (o.steps % 32) (fun _ => next) ∧ o'.consumed = o.consumed + used ∧ o'.fetched = ahead.drop used ∧
      o'.fault = none ∧ ∀ k, t.byte k =
        if k = scratchKey w.phys ((Ptr.ofBits o.dst).base + o.steps) then BitVec.ofNat 8 (fieldOf o.header (0xA0 + (EngineOp.slot o).1) 1)
        else s.byte k := by
  have hne : o.steps ≠ n := by omega
  have hexec := h.one_step hn
  obtain ⟨t, hread, hfound, hmem, hobs⟩ := ahead_read h.runs h.sound hn h.unrecorded ha
  rw [hread, decodeStep_lands w hfound h.sound hn hne htakes] at hexec
  obtain ⟨hcores, hparts, -, -⟩ := store_frame t
    [(scratchKey w.phys ((Ptr.ofBits o.dst).base + o.steps), BitVec.ofNat 8 (fieldOf o.header (0xA0 + (EngineOp.slot o).1) 1))]
  have hstepped := (hfound.of_cores hcores).modOp (EngineOp.stepTo o.steps next used) (fun _ => rfl)
  obtain ⟨o', hop, hcloses, hmem'⟩ := decode_stepped (w := w) (n := n) hstepped o hn (Nat.ne_of_lt hmore) h.barrier
    ((congrArg (·.obs.trace.getLsbD 0) (partOf_of_parts hparts w.part)).trans ((congrArg (·.trace.getLsbD 0) hobs).trans h.untraced))
  refine ⟨_, o', hexec, hop, ?_, ?_, ?_, ?_, ?_, fun k => ?_⟩
  · rw [hcloses]; rfl
  · rw [hcloses]; rfl
  · rw [hcloses]; rfl
  · rw [hcloses]; rfl
  · rw [hcloses]; exact h.sound
  · refine (State.byte_of hmem' k).trans ((store_byte t _ none k).trans ?_)
    rw [show t.byte = s.byte from funext (State.byte_of hmem)]
    rfl

/-- 03 R69, R70, 13 R284: a step that needs a word when the stream has none left. -/
theorem Decodes.step_fails {s : State} {op core n : Nat} {o : EngineOp} {w : Workgroup} (h : Decodes s op core o w) (hn : o.outlen = some n)
    (hmore : o.steps + 1 < n) (ha : State.Ahead s o w []) (hlt : EngineOp.advanced o < 2 ^ 16) (hnone : o.fetched = []) :
    ∃ t o' e, exec (.sdecDecode op 1) s = .next t ∧ t.op? op = some (core, o') ∧ o'.fault = some e ∧ e.code = 0x5302 ∧ t.mem = s.mem := by
  have hend : fieldOf o.header 8 4 ≤ 2 * o.consumed := by
    rcases ha with ⟨hsome, -⟩ | ⟨-, hend, -⟩ | ⟨-, -, _, _, -, hcons⟩
    · exact absurd hnone hsome
    · exact hend
    · exact absurd hcons (List.cons_ne_nil _ _).symm
  have hne : o.steps ≠ n := by omega
  have hexec := h.one_step hn
  obtain ⟨t, hread, hfound, hmem, -⟩ := ahead_read h.runs h.sound hn h.unrecorded ha
  rw [hread, decodeStep_fails w hfound h.sound hn hne hlt rfl hend] at hexec
  have hlong : o.outlen ≠ some 0 := fun e => by have := Option.some.inj (hn.symm.trans e); omega
  obtain ⟨o', hop, hcloses, hmem'⟩ := decode_unmoved (o := o) (hfound.failOp h.sound _) w (.inr ⟨hlong, rfl⟩) (.inl rfl)
  exact ⟨_, o', _, hexec, hop, by rw [hcloses], rfl, hmem'.trans hmem⟩

/-! ### Completion and faults (13 R286, R299) -/

theorem wg?_key {s : State} {k : Nat} {w : Workgroup} (h : s.wg? k = some w) : w.key = k := by
  simpa using List.find?_some h

theorem execEngineOpComplete_done {s : State} {op core : Nat} {o : EngineOp} {w : Workgroup} (h : Found s op core o)
    (hw : s.wg? o.wgKey = some w) (hd : s.streamDone o = true) (hf : o.fault = none) (hb : o.barrier = none)
    (ht : (s.partOf w.part).obs.trace.getLsbD 0 = false) :
    exec (.engineOpComplete op) s = .next
      (((s.modGroup o.gid (fun g => g.addFlags o.half o.fstat)).modTimeline o.wgKey o.timeline (·.complete o.ticket)).dropOp core op) := by
  have hoff : ∀ t : State, t.parts = s.parts → t.traceCopy w o 3 = t := fun t e =>
    traceCopy_off (by rw [partOf_of_parts e]; exact ht) o 3
  show execEngineOpComplete op s = _
  unfold execEngineOpComplete State.completeStream
  simp only [h.here, hw, hd, if_true, countBytes_none hb, h.id_eq, hf, Option.isSome_none, Bool.false_eq_true, if_false, wg?_key hw]
  refine congrArg (fun t => Host.Outcome.next (State.dropOp t core op)) (hoff _ ?_)
  rfl

/-- 13 R286 to R288, 03 R57: an operation of the stream engine that has landed all contributes its flags, completes its ticket and leaves. -/
theorem engineOpComplete_next {s : State} {op core : Nat} {o : EngineOp} {w : Workgroup} {x : Group} (h : Found s op core o)
    (hw : s.wg? o.wgKey = some w) (hd : s.streamDone o = true) (hf : o.fault = none) (hb : o.barrier = none)
    (ht : (s.partOf w.part).obs.trace.getLsbD 0 = false) (hx : s.group? o.gid = some x) :
    ∃ t h v, exec (.engineOpComplete op) s = .next t ∧ t.group? o.gid = some h ∧ x.tookFlags h o.half o.fstat ∧ x.sameRegs h ∧
      t.wg? w.key = some v ∧ v.timelines = w.timelines.modify o.timeline (·.complete o.ticket) ∧ t.mem = s.mem ∧
      (t.core core).ops = (s.core core).ops.filter (fun y => y.id != op) := by
  obtain ⟨hflags, hregs, -⟩ := addFlags_took x o.half o.fstat
  have hgroup := group?_set (fun g => g.addFlags o.half o.fstat) (fun g => (addFlags_took g o.half o.fstat).2.2) hx
  have hwg := (modTimeline_get (s.modGroup o.gid (fun g => g.addFlags o.half o.fstat)) o.wgKey o.timeline (·.complete o.ticket)).trans
    (congrArg (Option.map _) hw)
  refine ⟨_, _, { w with timelines := w.timelines.modify o.timeline (·.complete o.ticket) }, execEngineOpComplete_done h hw hd hf hb ht,
    hgroup, hflags, hregs, (congrArg (State.wg? _) (wg?_key hw)).trans hwg, rfl, rfl, ?_⟩
  unfold State.dropOp
  rw [State.core_modCore, if_pos rfl]
  rfl

/-- 14 R311: an MLOOP or MSTEP that has made its steps contributes its flags and leaves. -/
theorem engineOpComplete_steps {s : State} {op core : Nat} {o : EngineOp} {w : Workgroup} (h : Found s op core o)
    (hw : s.wg? o.wgKey = some w) (hd : s.streamDone o = false) (hs : o.stepsDone = true) :
    exec (.engineOpComplete op) s = .next ((s.modGroup o.gid (fun g => g.addFlags o.half o.fstat)).dropOp core op) := by
  show execEngineOpComplete op s = _
  unfold execEngineOpComplete
  simp only [h.here, hw, hd, hs, Bool.false_eq_true, if_false, if_true]

/-- 13 R286, R299: a fault met after issue raises a halt of its workgroup's fault domain. -/
theorem engineOpFault_next {s : State} {op core : Nat} {o : EngineOp} {w : Workgroup} {f : FaultInfo} {x : Group} (h : Found s op core o)
    (hw : s.wg? o.wgKey = some w) (hf : o.fault = some f) (hr : o.reported = false) (hx : s.group? o.gid = some x)
    (hno : ∀ h ∈ s.halts, h.wgs.contains w.key = false) :
    ∃ t h g, exec (.engineOpFault op) s = .next t ∧ h ∈ t.halts ∧ h.stage = .raised ∧ h.part = w.part ∧ h.wgs = s.domain w ∧
      h.cause.code = f.code ∧ h.cause.addr = f.addr ∧ t.group? o.gid = some g ∧ g.bare = { x.bare with faulted := true } ∧ t.wgs = s.wgs := by
  have hexec : exec (.engineOpFault op) s = .next (((s.fatal w (s.engineRecord w o f)).modOp core op (fun o => { o with reported := true })).modGroup
      o.gid (fun g => { g with faulted := true })) := by
    show execEngineOpFault op s = _
    unfold execEngineOpFault
    simp only [h.here, hw, hf, hr, Bool.false_eq_true, if_false]
  obtain ⟨r, ⟨hcode, haddr⟩, hfatal⟩ := fatal_shape w (s.engineRecord w o f) hno
  have hcalm : (s.record r).Calm s.placed := State.record_calm s r rfl
  obtain ⟨y, hy, hbare⟩ := calm_group? hcalm o.gid hx
  rw [hfatal] at hexec
  refine ⟨_, _, _, hexec, List.mem_append_right _ (List.mem_singleton.2 rfl), rfl, rfl, rfl, hcode, haddr,
    group?_set (fun g => { g with faulted := true }) (fun _ => rfl) hy, ?_, (calm_wgs hcalm : (s.record r).wgs = s.wgs)⟩
  rw [hbare]
  rfl

/-- Settles O50: a STREAM or SGATH lands its element (`streamLanding_lands`), an SDEC reads its header or makes a step (`Decodes`), and
completion and fault are one step of the machine each. -/
theorem streamEngineEvents : Obligations.StreamEngineEvents := by
  unfold Obligations.StreamEngineEvents
  intro s op core o w hop hin hw q d
  have hfound : Found s op core o := ⟨hop, hin⟩
  refine ⟨fun hf hr hwr hb ht => ⟨?_, ?_, ?_⟩, fun hd hs => engineOpComplete_steps hfound hw hd hs,
    fun f x hf hrep _ hx hno => engineOpFault_next hfound hw hf hrep hx hno⟩
  · intro i v f qs ps hk u got sp hi hlt hbring hqs hps hfixed hbusy
    obtain ⟨ts, hu⟩ : ∃ ts, (if o.landed = [] then s.untagHull w o else s) = { s with tags := ts } := by
      split
      · exact untag_frame s w o
      · exact ⟨s.tags, rfl⟩
    have hu' : u = { s with tags := ts } := hu
    clear_value u
    subst hu'
    exact streamLanding_lands hu ⟨⟨hop, hin⟩, hf, hr, hwr, hi, hlt, ⟨qs, hbring, hqs⟩, hps, hfixed, hbusy⟩ hw hk hb ht
  · intro hk hfirst _ honly hring
    have hdec : Decodes s op core o w :=
      ⟨⟨hop, hin, fun j hj y hy he => hj (honly j y hy he)⟩, hw, hk, hfirst, hf, hr, hwr, hb, ht, hring⟩
    refine ⟨fun hd ps hnone hzero hlen hfetch => ⟨?_, ?_⟩, ?_⟩
    · exact hdec.header_valid hnone hzero hlen hfetch
    · exact hdec.header_invalid hnone hlen hfetch
    · intro n ahead hn hmore ha x sy x'
      exact ⟨fun next used htakes => hdec.step_lands hn hmore ha htakes,
        fun hlt hnone hahead => hdec.step_fails hn hmore (hahead ▸ ha) hlt hnone⟩
  · exact fun hd _ x hx => engineOpComplete_next hfound hw hd hf hb ht hx

end Sys2Proof.Laws
end

section
/-!
LAUNCH (08 R184; 04 R88, R89, R93): what Confluence decides of a pointer to a block, and the word that tells it.
-/
namespace Sys2Proof.Laws
open Sys2Proof.Machine

/-- 04 R88: the fields of the STATUS word of a verdict, as one number. -/
def statusFields (v : Verdict) : Nat :=
  match v with
  | .accepted l => 2 ^ 62 + l.ticket % 2 ^ 48
  | .full => 2 * 2 ^ 62
  | .rejected code => 3 * 2 ^ 62 + code % 2 ^ 12 * 2 ^ 48

/-- 04 R88: the fields lie side by side in 64 bits, so that the STATUS word loses none of them. -/
theorem status_toNat (v : Verdict) : v.status.toNat = statusFields v := by
  cases v with
  | accepted l => exact (BitVec.toNat_ofNat _ _).trans (by rw [statusFields]; omega)
  | full => rfl
  | rejected code => exact (BitVec.toNat_ofNat _ _).trans (by rw [statusFields]; omega)

/-- 04 R89, R93: the verdict on the block that a pointer names: one outside SPACE 0 or off a line is malformed, unless its partition
does not run, which is checked first. -/
def launchVerdict (u : State) (p : Partition) (q : Ptr) : Verdict :=
  if q.space ≠ 0 ∨ q.base % 128 ≠ 0 then (if p.runs then .rejected 0xB101 else .rejected 0xB109) else u.judge p q.base

/-- 08 R184: a LAUNCH in the state that its release leaves: the verdict settled, and its STATUS word in `s`D. -/
def submitPtr (u : State) (c : Ctx) (x : Args) : State :=
  let p := u.partOf c.w.part
  let v := launchVerdict u p (c.ptr x.a.toNat)
  (u.settleVerdict p v).writeS c (sPut true x.d.toNat v.status.toNat)

/-- 02 R28, 04 R93: the pointer itself fails. -/
theorem launch_traps {s : State} {c : Ctx} {x : Args} {code : Nat} (hi : s.issues .launch x c)
    (hq : (c.ptr x.a.toNat).check c.core c.w.gangSize 0 896 .launch true = some code) :
    exec (.launch x) s = .next (s.trapped c x (lanesTrap (c.active x) code) 0) := by
  show execLaunch x s = _
  unfold execLaunch
  rw [issue_eq hi]
  simp only [hq]
  rfl

/-- 08 R184, 04 R93: a LAUNCH whose pointer passes releases, submits and passes. -/
theorem launch_submits {s : State} {c : Ctx} {x : Args} (hi : s.issues .launch x c)
    (hq : (c.ptr x.a.toNat).check c.core c.w.gangSize 0 896 .launch true = none) :
    exec (.launch x) s = .next ((submitPtr (s.releaseCore c.w.phys 3) c x).finish c x) := by
  show execLaunch x s = _
  unfold execLaunch submitPtr launchVerdict
  rw [issue_eq hi]
  simp only [hq, Bool.or_eq_true, bne_iff_ne, Bool.not_eq_true', ← Bool.not_eq_true, ite_not]
  rfl

/-- Settles O43: a pointer that fails traps; what a submission leaves is served, for the release and the settling of a verdict change
no group, and the word in `s`D is the verdict's fields. -/
theorem launchRegistersWork : Obligations.LaunchRegistersWork := by
  intro s c x hi q u p v
  split
  · next code hq => exact launch_traps hi hq
  · next hq =>
    obtain ⟨g, hS, hw, hrest⟩ := writeS_served hi.1 x true x.d.toNat v.status.toNat (u := u.settleVerdict p v)
      (fun _ h => settleVerdict_calm u p v (State.releaseCore_calm s c.w.phys 3 h))
    rw [status_toNat] at hw
    exact ⟨_, g, launch_submits hi hq, hS, hw, hrest⟩

end Sys2Proof.Laws
end

section
/-!
Slices, pre-emption, halts, dumps and held messages (05 R105 to R110; 22 R414 to R426; 24 R447, R460 to R462; 21 R402).
-/
namespace Sys2Proof.Laws
open Sys2Proof.Machine

/-! ### Quanta and pre-emption (05 R105, R106, R110; 22 R418) -/

/-- 05 R106, R109, R110: why a partition leaves a cluster at once. -/
theorem mustLeave_iff (s : State) (k : Nat) (p : Partition) :
    s.mustLeave k p = true ↔ (s.share k).retiring = true ∨ (∃ q ∈ s.waiters k, p.prio < q.prio) ∨
      (s.residentWgs k = [] ∧ s.wantsCluster k p = false ∧ s.waiters k ≠ []) := by
  simp only [State.mustLeave, Bool.or_eq_true, Bool.and_eq_true, List.any_eq_true, decide_eq_true_eq, Bool.not_eq_true',
    List.isEmpty_iff, List.isEmpty_eq_false_iff, or_assoc, and_assoc, ne_eq]

/-- 05 R106, R109, 22 R418: a resident partition that is to leave at once is signalled, unless it has been. -/
theorem preemption_next {s : State} {die cluster n : Nat} {p : Partition} (hres : (s.share (die * 7 + cluster)).resident = some n)
    (hp : s.part? n = some p) :
    exec (.preemption die cluster) s = .next (if !(s.share (die * 7 + cluster)).preempt && s.mustLeave (die * 7 + cluster) p then
      s.signal (die * 7 + cluster) else s) := by
  show execPreemption die cluster s = _
  unfold execPreemption
  simp only [hres, Option.bind_some, hp]

/-- 05 R106: what becomes of a slice whose quantum expires. -/
theorem quantumExpiry_next {s : State} {die cluster n : Nat} {p : Partition} (hres : (s.share (die * 7 + cluster)).resident = some n)
    (hp : s.part? n = some p) :
    exec (.quantumExpiry die cluster) s = .next (
      if (s.share (die * 7 + cluster)).preempt || s.mustLeave (die * 7 + cluster) p then s
      else if (s.waiters (die * 7 + cluster)).any (fun q => q.prio == p.prio) then s.signal (die * 7 + cluster)
      else s.modShare (die * 7 + cluster) (fun c =>
        { c with sliceStart := (s.die die).cycle, quantum := s.quantumOf (die * 7 + cluster) p })) := by
  show execQuantumExpiry die cluster s = _
  unfold execQuantumExpiry
  simp only [hres, Option.bind_some, hp]

/-- 05 R109: a cluster that retires, with nothing on it and no swap in progress, is retired. -/
theorem preemption_retires {s : State} (hI : s.Inv) {die cluster : Nat} (hk : die * 7 + cluster < 28)
    (hres : (s.share (die * 7 + cluster)).resident = none) (hret : (s.share (die * 7 + cluster)).retiring = true)
    (hswap : s.swapping (die * 7 + cluster) = none) (hempty : ∀ w ∈ s.wgs, w.onCore = true → coreCluster w.phys ≠ die * 7 + cluster) :
    ∃ t, exec (.preemption die cluster) s = .next t ∧ t.wgs = s.wgs ∧ (t.share (die * 7 + cluster)).state = .retired ∧
      (t.share (die * 7 + cluster)).retiring = false := by
  have hnext : exec (.preemption die cluster) s = .next (s.goOnRetiring (die * 7 + cluster)) := by
    show execPreemption die cluster s = _
    unfold execPreemption
    simp only [hres, Option.bind_none]
  have hnone : s.wgs.any (fun w => coreCluster w.phys == die * 7 + cluster && w.onCore) = false := by
    simpa only [List.any_eq_false, Bool.and_eq_true, beq_iff_eq, not_and, imp_not_comm] using hempty
  have hgo : s.goOnRetiring (die * 7 + cluster) = (s.moveAll (die * 7 + cluster)).modShare (die * 7 + cluster)
      (fun c => { c with state := .retired, retiring := false, checked := false }) := by
    unfold State.goOnRetiring
    simp only [hret, hres, hswap, hnone, Option.isNone_none, Bool.not_false, Bool.and_self, if_true]
  have hshare := share_modShare (State.moveAll_inv s (die * 7 + cluster) hI) hk
    (fun c => { c with state := .retired, retiring := false, checked := false })
  refine ⟨_, hnext, (goOn_wgs s _).1, ?_, ?_⟩ <;> rw [hgo, hshare]

/-! ### The save (22 R418 to R423) -/

theorem modShare_dies {s t : State} (hd : t.dies = s.dies) (k : Nat) (f : ClusterShare → ClusterShare) :
    (t.modShare k f).dies = (s.modShare k f).dies := by
  unfold State.modShare State.modDie
  rw [hd]

/-- A change of a cluster in a state whose dies are those of one that meets the invariant. -/
theorem share_modShare_of_dies {s t : State} (hI : s.Inv) (hd : t.dies = s.dies) {k : Nat} (hk : k < 28)
    (f : ClusterShare → ClusterShare) : (t.modShare k f).share k = f (s.share k) := by
  rw [share_of_dies (modShare_dies hd k f), share_modShare hI hk]

/-- 20 R384: the L1 words of a partition leave the cores of a cluster. -/
def evictCluster (s : State) (k part : Nat) : State :=
  ((List.range 8).map (k * 8 + ·)).foldl
    (fun s c => s.evictWords c (((s.core c).l1.filter (fun x => x.part == part)).map (·.key))) s

theorem evictCluster_inv {s : State} (hI : s.Inv) (k part : Nat) : (evictCluster s k part).Inv :=
  inv_foldl (fun _ _ h => State.evictWords_inv _ _ _ h) _ hI

theorem evictCluster_wgs (s : State) (k part : Nat) : (evictCluster s k part).wgs = s.wgs :=
  calm_wgs (calm_foldl (fun _ _ h => State.evictWords_calm _ _ _ h) _ rfl)

/-- 22 R423: what a save takes from the state in which the cluster's L1 words are gone. -/
theorem saveCluster_parts (s : State) (k part : Nat) : ∃ (v : State) (incoming : Option Nat),
    s.saveCluster k part = (v.modShare k (fun c => { c with resident := none, preempt := false })).modShare k
      (fun c => { c with incoming := if c.retiring then none else incoming }) ∧
    v.dies = (evictCluster s k part).dies ∧
    v.wgs = (evictCluster s k part).wgs.map (fun w =>
      (((s.residentWgs k).map ((evictCluster s k part).saveWg k)).find? (fun x => x.key == w.key)).getD w) ∧
    v.cores = (evictCluster s k part).cores.map (fun kc =>
      if coreCluster kc.1 == k then
        (kc.1, { kc.2 with icache := kc.2.icache.filter (fun l => l.part != part), l1 := kc.2.l1.filter (fun w => w.part != part),
                           ops := kc.2.ops.filter (fun o => !((s.residentWgs k).map (·.key)).contains o.wgKey) })
      else kc) := by
  unfold State.saveCluster
  rw [← evictCluster]
  generalize evictCluster s k part = u
  exact ⟨_, _, rfl, rfl, rfl, rfl⟩

/-- 05 R107: a save leaves the cluster with no resident partition and no signal. -/
theorem saveCluster_share {s : State} (hI : s.Inv) {k : Nat} (hk : k < 28) (part : Nat) :
    ((s.saveCluster k part).share k).resident = none ∧ ((s.saveCluster k part).share k).preempt = false := by
  obtain ⟨v, incoming, hsave, hdies, -, -⟩ := saveCluster_parts s k part
  have hE := evictCluster_inv hI k part
  rw [hsave, share_modShare_of_dies (State.modShare_inv hE k _) (modShare_dies hdies k _) hk, share_modShare hE hk]
  exact ⟨rfl, rfl⟩

/-- 22 R423: after a save a workgroup is as it was, and not of the resident partition, or stands saved for the cluster. -/
theorem mem_saveCluster {s : State} {k part : Nat} {w : Workgroup} (hw : w ∈ (s.saveCluster k part).wgs) :
    (w ∈ s.wgs ∧ ∀ v ∈ s.residentWgs k, v.key ≠ w.key) ∨
      (∃ v ∈ s.residentWgs k, v.key = w.key) ∧ w.status = .saved ∧ w.savedAt = k := by
  obtain ⟨v, incoming, hsave, -, hwgs, -⟩ := saveCluster_parts s k part
  have hv : (s.saveCluster k part).wgs = v.wgs := by rw [hsave]; rfl
  rw [hv, hwgs, evictCluster_wgs, List.mem_map] at hw
  obtain ⟨w0, hw0, rfl⟩ := hw
  cases hfind : ((s.residentWgs k).map ((evictCluster s k part).saveWg k)).find? (fun x => x.key == w0.key) with
  | none =>
    refine .inl ⟨hw0, fun v hv he => ?_⟩
    exact List.find?_eq_none.1 hfind _ (List.mem_map_of_mem hv) (beq_iff_eq.2 he)
  | some x =>
    obtain ⟨v, hv, rfl⟩ := List.mem_map.1 (List.mem_of_find?_eq_some hfind)
    exact .inr ⟨⟨v, hv, rfl⟩, rfl, rfl⟩

/-- 20 R384, 22 R423: a save leaves no code and no L1 word of the partition on the cluster's cores. -/
theorem saveCluster_cores {s : State} {k part c : Nat} {x : Core} (hx : (c, x) ∈ (s.saveCluster k part).cores) (hc : coreCluster c = k) :
    (∀ l ∈ x.icache, l.part ≠ part) ∧ ∀ l ∈ x.l1, l.part ≠ part := by
  obtain ⟨v, incoming, hsave, -, -, hcores⟩ := saveCluster_parts s k part
  have hv : (s.saveCluster k part).cores = v.cores := by rw [hsave]; rfl
  rw [hv, hcores] at hx
  obtain ⟨⟨c0, y⟩, -, he⟩ := List.mem_map.1 hx
  split at he
  · cases he
    exact ⟨fun l hl => by simpa using (List.mem_filter.1 hl).2, fun l hl => by simpa using (List.mem_filter.1 hl).2⟩
  · next hn =>
    cases he
    exact absurd (beq_iff_eq.2 hc) hn

theorem contextSave_next {s : State} {die cluster part : Nat} (hres : (s.share (die * 7 + cluster)).resident = some part)
    (hpre : (s.share (die * 7 + cluster)).preempt = true) :
    exec (.contextSave die cluster) s = .next (if (s.residentWgs (die * 7 + cluster)).all s.canSave then
      s.saveCluster (die * 7 + cluster) part else s) := by
  show execContextSave die cluster s = _
  unfold execContextSave
  simp only [hres, hpre, Bool.true_and]

/-! ### The restore (22 R421 to R426; 05 R105, R107) -/

/-- The physical core that a saved workgroup is restored on (05 R102, R108). -/
def restoreCore (s : State) (k : Nat) (ws : List Workgroup) (key : Nat) : Nat :=
  (((ws.find? (fun w => w.key == key)).bind (fun w => (s.adoptDefects k).physCore k w.lcore))).getD 0

/-- 05 R105, 22 R421: a partition's slice with the saved workgroups put back. -/
def restoreAll (s : State) (k part : Nat) (ws : List Workgroup) : State :=
  ws.foldl (fun u w => u.restoreWg w (restoreCore s k ws w.key)) ((s.adoptDefects k).startSlice k part 1)

/-- 05 R105: the partition whose slice starts is resident, and not to leave yet. -/
theorem startSlice_share {s : State} (hI : s.Inv) {k : Nat} (hk : k < 28) (part quantum : Nat) :
    ((s.startSlice k part quantum).share k).resident = some part ∧ ((s.startSlice k part quantum).share k).preempt = false := by
  unfold State.startSlice
  dsimp only
  rw [share_modShare_of_dies hI (by split <;> rfl) hk]
  exact ⟨rfl, rfl⟩

theorem startSlice_wgs (s : State) (k part quantum : Nat) : (s.startSlice k part quantum).wgs = s.wgs := by
  unfold State.startSlice
  dsimp only
  split <;> rfl

/-- 05 R101: a binding table filled changes no other field of a workgroup. -/
theorem wg?_rebind {s : State} (ks : List Nat) {j : Nat} {v : Workgroup} (hv : s.wg? j = some v) :
    ∃ b, (s.rebind ks).wg? j = some { v with binding := b } := by
  unfold State.wg? State.rebind at *
  rw [find?_mapSame _ _ _ (fun a => by split <;> rfl), hv]
  by_cases hk : ks.contains v.key = true
  · exact ⟨_, congrArg some (if_pos hk)⟩
  · exact ⟨v.binding, congrArg some (if_neg hk)⟩

/-- 05 R105, R107, R110: the slice whose turn it is may start, on schedulers that take its groups. -/
theorem restore_open {s : State} {k part : Nat} {take : Bool} (hres : (s.share k).resident = none)
    (hopen : (s.share k).state = .enabled ∨ s.swapping k = some part) (hturn : s.turnAt k = some part) (htake : take = true) :
    ¬((s.share k).resident.isSome || !((s.share k).state == .enabled || s.swapping k == some part) || s.turnAt k != some part ||
      !take) = true := by
  have hgate : ((s.share k).state == .enabled || s.swapping k == some part) = true := by
    simpa only [Bool.or_eq_true, beq_iff_eq] using hopen
  simp only [hres, hgate, hturn, htake, Option.isSome_none, Bool.not_true, bne_self_eq_false, Bool.or_self, Bool.false_eq_true,
    not_false_eq_true]

section
variable {s : State} {die cluster k part d c : Nat} {p : Partition} {scheds : List (Nat × Nat)} (hkey : k = die * 7 + cluster)
  (hp : s.part? part = some p) (hlog : p.logicalOf k = some (d, c)) (hres : (s.share k).resident = none)
  (hopen : (s.share k).state = .enabled ∨ s.swapping k = some part) (hturn : s.turnAt k = some part)
  (htake : (s.adoptDefects k).schedsTake (s.savedWgs part d c) (restoreCore s k (s.savedWgs part d c)) scheds = true)
include hkey hp hlog hres hopen hturn htake

/-- 22 R425: a context lost in shadow storage is not restored. -/
theorem contextRestore_loses (hsome : s.savedWgs part d c ≠ []) :
    exec (.contextRestore die cluster part scheds true) s = .next (s.loseContext die k p) := by
  have hlost : (true && !(s.savedWgs part d c).isEmpty) = true := by
    rw [List.isEmpty_eq_false_iff.2 hsome]; rfl
  subst hkey
  show execContextRestore die cluster part scheds true s = _
  unfold execContextRestore
  rw [hp]
  dsimp only
  rw [hlog]
  exact congrArg Host.Outcome.next ((if_neg (restore_open hres hopen hturn htake)).trans (if_pos hlost))

/-- 05 R105, 22 R421 to R426: a restore starts the slice, puts the saved workgroups back, and fills their binding tables. -/
theorem contextRestore_next : ∃ v : State, exec (.contextRestore die cluster part scheds false) s =
      .next (v.modShare k (fun c => { c with quantum := v.quantumOf k p })) ∧
    v.dies = (restoreAll s k part (s.savedWgs part d c)).dies ∧
    v.wgs = ((restoreAll s k part (s.savedWgs part d c)).rebind ((s.savedWgs part d c).map (·.key))).wgs := by
  subst hkey
  show ∃ v : State, execContextRestore die cluster part scheds false s = _ ∧ _
  unfold execContextRestore
  rw [hp]
  dsimp only
  rw [hlog]
  exact ⟨_, congrArg Host.Outcome.next ((if_neg (restore_open hres hopen hturn htake)).trans (if_neg Bool.false_ne_true)), rfl, rfl⟩

/-- 05 R105, 22 R421: the partition is resident, and its saved workgroups are on the cores that they belong to. -/
theorem contextRestore_restores (hI : s.Inv) (hk : k < 28) :
    ∃ t, exec (.contextRestore die cluster part scheds false) s = .next t ∧
      (t.share k).resident = some part ∧ (t.share k).preempt = false ∧
      ∀ w ∈ s.savedWgs part d c, ∃ v, t.wg? w.key = some v ∧ v.status = .resident ∧
        v.phys = restoreCore s k (s.savedWgs part d c) w.key ∧ v.savedScratch = [] := by
  obtain ⟨v, hnext, hdies, hwgs⟩ := contextRestore_next hkey hp hlog hres hopen hturn htake
  have hadopt := State.adoptDefects_inv s k hI
  obtain ⟨hfold, -, hback⟩ := restore_fold (restoreCore s k (s.savedWgs part d c)) (s.savedWgs part d c)
    ((s.adoptDefects k).startSlice k part 1)
  have hshare := share_modShare_of_dies (State.startSlice_inv _ k part 1 hadopt) (hdies.trans hfold) hk
    (fun c => { c with quantum := v.quantumOf k p })
  obtain ⟨hresident, hstays⟩ := startSlice_share hadopt hk part 1
  refine ⟨_, hnext, by rw [hshare]; exact hresident, by rw [hshare]; exact hstays, fun w hw => ?_⟩
  have hthere : (((s.adoptDefects k).startSlice k part 1).wg? w.key).isSome = true := by
    unfold State.wg?
    rw [startSlice_wgs, List.find?_isSome]
    exact ⟨w, (List.mem_filter.1 hw).1, beq_self_eq_true _⟩
  obtain ⟨x, hx, hstatus, hphys, hscratch⟩ := hback w.key (List.mem_map_of_mem hw) hthere
  obtain ⟨b, hb⟩ := wg?_rebind ((s.savedWgs part d c).map (·.key)) hx
  refine ⟨{ x with binding := b }, ?_, hstatus, hphys, hscratch⟩
  unfold State.wg? at hb ⊢
  exact (congrArg (List.find? _) hwgs).trans hb

end

/-! ### The halt (22 R414, R415) -/

/-- 22 R415: the workgroups that a halt stops where they stand: those of its domain that are not saved. -/
def haltedKeys (s : State) (h : Halt) : List Nat :=
  ((s.haltedWgs { h with wgs := s.haltSet h }).filter (fun w => w.status != .saved)).map (·.key)

theorem haltedKeys_contains (s : State) (h : Halt) (k : Nat) :
    (haltedKeys s h).contains k = s.wgs.any (fun w => (s.haltSet h).contains w.key && w.status != .saved && w.key == k) := by
  unfold haltedKeys State.haltedWgs
  rw [List.contains_eq_any_beq, List.any_map, List.any_filter, List.any_filter]
  congr 1
  funext w
  simp only [Function.comp, Bool.and_assoc, Bool.beq_comm]

/-- 22 R415: what the halt that was raised first leaves. -/
theorem faultDomainHalt_next {s : State} {h : Halt} (hh : s.halts.find? (fun h => h.stage == .raised) = some h) :
    exec .faultDomainHalt s = .next (({ s with
      wgs := s.wgs.map (fun w => if (haltedKeys s h).contains w.key then { w with status := .halted } else w),
      groups := s.groups.map (fun g => if (haltedKeys s h).contains g.wgKey then g.abandon else g),
      halts := replaceBy (fun x => x.stage == .raised) (fun x => { x with
        wgs := s.haltSet h, stage := .halted, haltCyc := (s.die x.die).cycle, dropped := 17 ≤ s.dumpsWaiting }) s.halts } : State).modPart
      h.part (fun p => p.failLaunches h)) := by
  show execFaultDomainHalt s = _
  unfold execFaultDomainHalt
  rw [hh]
  rfl

/-- 22 R415: a workgroup after the halt, in the domain or not. -/
theorem mem_haltWgs {s : State} {h : Halt} {w : Workgroup}
    (hw : w ∈ s.wgs.map (fun w => if (haltedKeys s h).contains w.key then { w with status := .halted } else w)) :
    ((s.haltSet h).contains w.key = true → w.status = .halted ∨ w.status = .saved) ∧
      ((s.haltSet h).contains w.key = false → w ∈ s.wgs) := by
  obtain ⟨v, hv, rfl⟩ := List.mem_map.1 hw
  by_cases hk : (haltedKeys s h).contains v.key = true
  · rw [if_pos hk]
    refine ⟨fun _ => .inl rfl, fun hout => ?_⟩
    rw [haltedKeys_contains, List.any_eq_true] at hk
    obtain ⟨u, -, hu⟩ := hk
    simp only [Bool.and_eq_true, beq_iff_eq] at hu
    obtain ⟨⟨hin, -⟩, hkey⟩ := hu
    rw [hkey, hout] at hin
    exact nomatch hin
  · rw [if_neg hk]
    refine ⟨fun hin => .inr (Decidable.byContradiction fun hne => hk ?_), fun _ => hv⟩
    rw [haltedKeys_contains, List.any_eq_true]
    exact ⟨v, hv, by simp only [hin, bne_iff_ne.2 hne, beq_self_eq_true, Bool.and_self]⟩

theorem faultDomainHalt_idle {s : State} (hnone : ∀ h ∈ s.halts, h.stage ≠ .raised) : exec .faultDomainHalt s = .next s := by
  show execFaultDomainHalt s = _
  unfold execFaultDomainHalt
  rw [List.find?_eq_none.2 (fun h hh => by simpa using hnone h hh)]

/-! ### The dump (24 R447, R460 to R462) -/

/-- 24 R462: a dump dropped or written frees its domain. -/
theorem dropDump_gone (s : State) (h : Halt) (area : Ring) : ∀ w ∈ (s.dropDump h area).wgs, h.wgs.contains w.key = false :=
  dropDomain_gone _ h

theorem putDump_gone (s : State) (h : Halt) (area : Ring) : ∀ w ∈ (s.putDump h area).wgs, h.wgs.contains w.key = false :=
  dropDomain_gone _ h

/-- 24 R460: a drained domain whose dump is to be dropped comes first. -/
theorem dumpWrite_drops {s : State} {h : Halt}
    (hd : (s.halts.filter (fun h => h.stage == .halted)).find? (fun h => h.dropped && s.drainedAll h) = some h) :
    exec .dumpWrite s = .next (s.dropDump h (s.partOf h.part).dumpArea) := by
  show execDumpWrite s = _
  unfold execDumpWrite
  simp only [hd]

/-- 24 R447, R461: the domain that halted first waits to drain; then its dump is written where it fits. -/
theorem dumpWrite_next {s : State} {h : Halt}
    (hnone : (s.halts.filter (fun h => h.stage == .halted)).find? (fun h => h.dropped && s.drainedAll h) = none)
    (hfirst : leastBy (fun (h : Halt) => h.haltCyc) ((s.halts.filter (fun h => h.stage == .halted)).filter (fun h => !h.dropped)) = some h) :
    exec .dumpWrite s = .next (if !s.drainedAll h then s
      else if (s.partOf h.part).dumpArea.size = 0 ∨
          (s.partOf h.part).dumpArea.size < s.num ((s.partOf h.part).dumpArea.addr + 0x10) 8 + 256 then
        s.dropDump h (s.partOf h.part).dumpArea
      else s.putDump h (s.partOf h.part).dumpArea) := by
  show execDumpWrite s = _
  unfold execDumpWrite
  simp only [hnone, hfirst, Bool.or_eq_true, decide_eq_true_eq]

/-! ### Held messages (21 R402) -/

theorem irqMessageDeliver_waits {s : State} {part : Nat} {p : Partition} (hp : s.part? part = some p) (hfull : s.irqFull p = true) :
    exec (.irqMessageDeliver part) s = .next s := by
  show execIrqMessageDeliver part s = _
  unfold execIrqMessageDeliver
  simp only [hp, hfull, Bool.or_true, if_true]

section
variable {s : State} {part : Nat} {p : Partition} (hp : s.part? part = some p) (hon : p.irqJ ≠ 0)
include hp hon

theorem irqMessageDeliver_puts (hroom : s.irqFull p = false) {m : HeldIrq} {rest : List HeldIrq} (hheld : p.held = m :: rest) :
    exec (.irqMessageDeliver part) s = .next ((s.irqPut p m.kind m.value m.ticket).modPart part (fun p => { p with held := rest })) := by
  show execIrqMessageDeliver part s = _
  unfold execIrqMessageDeliver
  simp only [hp, hon, hroom, hheld, decide_false, Bool.or_self, Bool.false_eq_true, if_false]

theorem irqMessageDeliver_signals (hroom : s.irqFull p = false) (hheld : p.held = []) :
    exec (.irqMessageDeliver part) s = .next (s.signalRecords part) := by
  show execIrqMessageDeliver part s = _
  unfold execIrqMessageDeliver
  simp only [hp, hon, hroom, hheld, decide_false, Bool.or_self, Bool.false_eq_true, if_false]

end

/-- 21 R402: the message put into the ring is held no more. -/
theorem irqPut_unheld {s : State} {part : Nat} {p : Partition} (hp : s.part? part = some p) (m : HeldIrq) (rest : List HeldIrq) :
    ∃ q, ((s.irqPut p m.kind m.value m.ticket).modPart part (fun p => { p with held := rest })).part? part = some q ∧ q.held = rest := by
  obtain ⟨q, hq⟩ := part?_calm (State.irqPut_calm s p m.kind m.value m.ticket rfl) hp
  exact ⟨_, part?_set (fun p => { p with held := rest }) (fun _ => rfl) hq, rfl⟩

/-- Settles O53: each event by the lemma that says what it leaves. -/
theorem preemptionAndHaltEvents : Obligations.PreemptionAndHaltEvents := by
  intro s hI
  refine ⟨fun die cluster hdie hcluster => ?_, fun h hh => ?_, faultDomainHalt_idle, ?_, fun part p hp hon => ?_⟩
  · have hk : die * 7 + cluster < 28 := by omega
    intro k stops
    refine ⟨fun n p hres hp => ?_, preemption_retires hI hk, fun part hres hpre => ?_, ?_⟩
    · -- the end of a slice
      have hpreempt := preemption_next hres hp
      have hquantum := quantumExpiry_next hres hp
      have hsignal := signal_stops hI hk
      refine ⟨fun hpre => ?_, fun hpre => ⟨fun hleaves => ?_, fun hstays => ?_⟩⟩
      · rw [hpreempt, hquantum, hpre]
        exact ⟨rfl, rfl⟩
      · have hmust := (mustLeave_iff s k p).2 hleaves
        rw [hpre, hmust, Bool.not_false, Bool.and_self, if_pos rfl] at hpreempt
        rw [hpre, hmust, Bool.or_true, if_pos rfl] at hquantum
        exact ⟨⟨_, hpreempt, hsignal⟩, hquantum⟩
      · have hmust := Bool.eq_false_iff.2 (mt (mustLeave_iff s k p).1 hstays)
        rw [hpre, hmust, Bool.and_false, if_neg Bool.false_ne_true] at hpreempt
        rw [hpre, hmust, Bool.or_self, if_neg Bool.false_ne_true] at hquantum
        refine ⟨hpreempt, fun ⟨q, hq, hprio⟩ => ⟨_, hquantum.trans (congrArg Host.Outcome.next (if_pos ?_)), hsignal⟩,
          fun hno => hquantum.trans (congrArg Host.Outcome.next (if_neg ?_))⟩
        · exact List.any_eq_true.2 ⟨q, hq, beq_iff_eq.2 hprio⟩
        · simpa using hno
    · -- the save
      have hnext := contextSave_next hres hpre
      refine ⟨fun hsome => by rw [hnext, hsome, if_neg Bool.false_ne_true], fun hall => ?_⟩
      rw [hall, if_pos rfl] at hnext
      obtain ⟨hfree, hquiet⟩ := saveCluster_share hI hk part
      refine ⟨_, hnext, hfree, hquiet, fun v hv w hw he => ?_, fun w hw hnot => ?_, fun c x hx hc => saveCluster_cores hx hc⟩
      · exact (mem_saveCluster hw).elim (fun h => absurd he.symm (h.2 v hv)) (fun h => h.2)
      · exact (mem_saveCluster hw).elim (fun h => h.1) (fun ⟨⟨v, hv, he⟩, _⟩ => absurd he (hnot v hv))
    · -- the restore
      intro part p d c scheds hp hlog hres hopen hturn ws u phys htake
      exact ⟨contextRestore_loses rfl hp hlog hres hopen hturn htake,
        contextRestore_restores rfl hp hlog hres hopen hturn htake hI hk⟩
  · -- the halt
    refine ⟨_, faultDomainHalt_next hh, rfl, fun w hw hin => (mem_haltWgs hw).1 hin, fun w hw hout => (mem_haltWgs hw).2 hout, ?_,
      fun p hp => part?_set (fun p => p.failLaunches h) (fun _ => rfl) hp, ?_⟩
    · exact List.map_congr_left fun g _ => by rw [haltedKeys_contains]
    · exact mem_replaceBy _ (fun x : Halt => { x with
        wgs := s.haltSet h, stage := .halted, haltCyc := (s.die x.die).cycle, dropped := 17 ≤ s.dumpsWaiting }) hh
  · -- the dump
    intro hs h area gone
    refine ⟨fun hd => ⟨dumpWrite_drops hd, dropDump_gone s h area⟩, fun hnone hfirst => ?_⟩
    have hnext := dumpWrite_next hnone hfirst
    refine ⟨fun hbusy => ?_, fun hdrained hfull => ⟨?_, dropDump_gone s h area⟩, fun hdrained harea hfits => ⟨?_, putDump_gone s h area⟩⟩
    · rw [hnext, hbusy, Bool.not_false, if_pos rfl]
    · rw [hdrained, Bool.not_true, if_neg Bool.false_ne_true] at hnext
      exact hnext.trans (congrArg Host.Outcome.next (if_pos hfull))
    · rw [hdrained, Bool.not_true, if_neg Bool.false_ne_true] at hnext
      exact hnext.trans (congrArg Host.Outcome.next (if_neg fun h => h.elim harea (Nat.not_lt.2 hfits)))
  · -- a held message
    refine ⟨irqMessageDeliver_waits hp, fun hroom => ⟨fun m rest hheld => ?_, irqMessageDeliver_signals hp hon hroom⟩⟩
    obtain ⟨q, hq, hrest⟩ := irqPut_unheld hp m rest
    exact ⟨_, q, irqMessageDeliver_puts hp hon hroom hheld, hq, hrest, rfl⟩

end Sys2Proof.Laws
end

section
/-!
The words of an instruction as the decoder reads them back, and the words that decode (06 R122 to R130).
-/
namespace Sys2Proof.Laws

theorem encodeBytes_instr (o : Op) (x : Args) :
    encodeBytes (o.instr x) = bytesOfDWord (o.word x) ++ x.long.toList.flatMap bytesOfDWord := by
  unfold encodeBytes encode
  rw [opArgs_instr]
  rfl

theorem wf_instr (o : Op) (x : Args) : (o.instr x).wf = o.legal x := by
  unfold Instr.wf
  rw [opArgs_instr]

theorem modOk_of_legal {o : Op} {x : Args} (h : o.legal x = true) : o.modOk x = true := by
  simp only [Op.legal, Bool.and_eq_true] at h
  obtain ⟨⟨⟨-, hmod⟩, -⟩, -⟩ := h
  exact hmod

/-- 06 R122 to R128: the words of a legal instruction decode to it. -/
theorem decodeWord_word {o : Op} {x : Args} (h : o.legal x = true) : decodeWord (o.word x) x.long = .ok (o.instr x) := by
  have hargs := argsOf_word o x
  have hselect := select_rowOf o x (modOk_of_legal h)
  unfold decodeWord
  simp only [opField_word, ofCode_code, longBit_word]
  cases hl : x.long with
  | none =>
    rw [hl] at hargs
    simp only [Option.isSome_none, Bool.false_eq_true, if_false, hargs, hselect]
    exact check_legal o x h
  | some imm =>
    rw [hl] at hargs
    simp only [Option.isSome_some, if_true, hargs, hselect]
    exact check_legal o x h

/-- The doubleword at the head of the bytes of one. -/
theorem dword_take (w : DWord) (l : List Byte) : dwordOfBytes ((bytesOfDWord w ++ l).take 8) = w := by
  rw [(take_drop_bytes w l).1, dword_bytes]

/-- Bytes of an instruction of one word, with what follows them. -/
theorem decodeBytes_short {w : DWord} {i : Instr} (rest : List Byte) (hl : longBit w = false) (h : decodeWord w none = .ok i) :
    decodeBytes (bytesOfDWord w ++ rest) = .ok (i, rest) := by
  have hlen : ¬ (bytesOfDWord w ++ rest).length < 8 := by simp [bytes_len]
  unfold decodeBytes
  simp only [hlen, if_false, dword_take, hl, Bool.false_eq_true, h, (take_drop_bytes w rest).2]

/-- Bytes of an instruction in long form, with what follows them. -/
theorem decodeBytes_long {w imm : DWord} {i : Instr} (rest : List Byte) (hl : longBit w = true)
    (h : decodeWord w (some imm) = .ok i) : decodeBytes (bytesOfDWord w ++ (bytesOfDWord imm ++ rest)) = .ok (i, rest) := by
  have hlen : ¬ (bytesOfDWord w ++ (bytesOfDWord imm ++ rest)).length < 16 := by simp [bytes_len]; omega
  have hlen8 : ¬ (bytesOfDWord w ++ (bytesOfDWord imm ++ rest)).length < 8 := by omega
  have hdrop : (bytesOfDWord w ++ (bytesOfDWord imm ++ rest)).drop 16 = rest := by
    rw [show 16 = 8 + 8 from rfl, ← List.drop_drop, (take_drop_bytes w _).2, (take_drop_bytes imm rest).2]
  unfold decodeBytes
  simp only [hlen, hlen8, if_false, dword_take, hl, if_true, (take_drop_bytes w _).2, h, hdrop]

/-- Settles O1, by the two forms of an instruction. -/
theorem encodedInstructionsDecode : Obligations.EncodedInstructionsDecode := by
  intro i rest hargs hwf
  obtain ⟨⟨o, x⟩, ho⟩ := Option.isSome_iff_exists.1 hargs
  obtain rfl := instr_opArgs i o x ho
  rw [wf_instr] at hwf
  have hword := decodeWord_word hwf
  rw [encodeBytes_instr]
  cases hl : x.long with
  | none =>
    rw [hl] at hword
    simpa using decodeBytes_short rest ((longBit_word o x).trans (by rw [hl]; rfl)) hword
  | some imm =>
    rw [hl] at hword
    simpa using decodeBytes_long rest ((longBit_word o x).trans (by rw [hl]; rfl)) hword

/-- Eight bytes at the head of a list are those of the doubleword read there. -/
theorem bytes_take {l : List Byte} (h : 8 ≤ l.length) : bytesOfDWord (dwordOfBytes (l.take 8)) = l.take 8 :=
  bytes_dword _ (by simp [h])

/-- Bytes that decode are the words of an instruction and what is left of them. -/
theorem decodeBytes_ok {l rest : List Byte} {i : Instr} (h : decodeBytes l = .ok (i, rest)) :
    ∃ w imm, decodeWord w imm = .ok i ∧
      (longBit w = false ∧ l = bytesOfDWord w ++ rest ∨ longBit w = true ∧ ∃ v, imm = some v ∧ l = bytesOfDWord w ++ (bytesOfDWord v ++ rest)) := by
  unfold decodeBytes at h
  split at h
  · cases h
  next hlen =>
    have hhead := bytes_take (Nat.le_of_not_lt hlen)
    dsimp only at h
    split at h
    next hl =>
      split at h
      · cases h
      next hlen16 =>
        have hnext := bytes_take (l := l.drop 8) (by simp; omega)
        split at h
        next j hw =>
          cases h
          refine ⟨_, _, hw, .inr ⟨hl, _, rfl, ?_⟩⟩
          rw [hhead, hnext, show l.drop 16 = (l.drop 8).drop 8 by rw [List.drop_drop], List.take_append_drop,
            List.take_append_drop]
        next => cases h
    next hl =>
      split at h
      next j hw =>
        cases h
        exact ⟨_, _, hw, .inl ⟨by simpa using hl, by rw [hhead, List.take_append_drop]⟩⟩
      next => cases h

/-- Settles O2: a word that decodes is that of a legal instruction (`word_decoded`), and its bytes are the instruction's. -/
theorem decodedInstructionsEncode : Obligations.DecodedInstructionsEncode := by
  intro l rest i h
  obtain ⟨w, imm, hw, hbytes⟩ := decodeBytes_ok h
  obtain ⟨o, x, rfl, hlegal, rfl, hlong, -⟩ := word_decoded hw
  refine ⟨(wf_instr o x).trans hlegal, ?_⟩
  rw [encodeBytes_instr, hlong]
  rcases hbytes with ⟨hl, rfl⟩ | ⟨hl, v, rfl, rfl⟩
  · simp [hl]
  · simp [hl]

end Sys2Proof.Laws
end

section
/-!
What comes before an instruction's effect, and what its passing leaves (06 R111, R120, R130, R131; 07 R155, R159).
-/
namespace Sys2Proof.Laws
open Sys2Proof.Machine

/-- 06 R130: an encoding fault is an illegal instruction or an operand beyond its limit. -/
theorem encodingFault_codes {c : Ctx} {o : Op} {x : Args} {code : Nat} (h : c.encodingFault o x = some code) :
    code = 0x5001 ∨ code = 0x5003 := by
  unfold Ctx.encodingFault at h
  split at h
  · exact .inl (Option.some.inj h).symm
  · split at h
    · exact .inr (Option.some.inj h).symm
    · cases h

theorem not_yield_of_flagCounted {o : Op} (h : o.flagCounted = true) : o ≠ .yield := by
  rintro rfl
  exact absurd h (by decide)

theorem flagHold_busy {c : Ctx} {o : Op} {x : Args} (ho : o.flagCounted = true) (hk : c.g.flagAwaited c.sp.id (c.flag x) = true) :
    c.flagHold o x = some .flagBusy := by
  simp [Ctx.flagHold, ho, hk]

theorem flagHold_limit {c : Ctx} {o : Op} {x : Args} (ho : o.flagCounted = true) (hk : c.g.flagAwaited c.sp.id (c.flag x) = false)
    (hn : 63 ≤ c.g.flag (c.flag x)) : c.flagHold o x = some .flagLimit := by
  have hn' : assocGet 0 (c.flag x) c.g.flags ≥ 63 := hn
  simp [Ctx.flagHold, ho, hk, hn']

/-- Settles O6: every instruction but YIELD is an issue of its row, and `issue` makes the three checks in turn. -/
theorem issueChecks : Obligations.IssueChecks := by
  refine ⟨fun o s c x code ho hs he => ⟨?_, encodingFault_codes he⟩, fun o s c x ho hs he ha => ?_, fun o s c x hs he ha ho => ?_⟩
  · obtain ⟨body, hbody⟩ := exec_issue o ho x s
    rw [hbody, issue_enc hs he]
  · obtain ⟨body, hbody⟩ := exec_issue o ho x s
    rw [hbody, issue_empty hs he ha]
  · obtain ⟨body, hbody⟩ := exec_issue o (not_yield_of_flagCounted ho) x s
    refine ⟨fun hk => ?_, fun hk hn => ?_⟩
    · rw [hbody, issue_hold hs he ha (flagHold_busy ho hk)]
    · rw [hbody, issue_hold hs he ha (flagHold_limit ho hk hn)]

theorem split?_after (c : Ctx) (u : State) (x : Args) (g : Group) (k : Nat) :
    (c.after u x g).split? k = if k = c.sp.id then (g.split? c.sp.id).map (fun sp => c.marked u (c.moved x sp)) else g.split? k :=
  Group.split?_modSplit g c.sp.id k _ fun sp => (Ctx.marked_id u c _).trans (Ctx.moved_id c x sp)

/-- A split that still stands where it issued moves past the instruction. -/
theorem moved_here {c : Ctx} {sp : Split} (x : Args) (hpc : sp.pc = c.sp.pc) (hword : sp.word = c.sp.word)
    (hstate : sp.state = c.sp.state) (hhold : sp.hold ≠ .faulted) : c.moved x sp = sp.advance (nextWord c.sp x) := by
  simp [Ctx.moved, hpc, hword, hstate, hhold]

/-- 06 R111: a split past a word of its clause: where it stands, and what of it stands. -/
theorem advance_place (sp : Split) (k : Nat) :
    ((sp.advance k).pc, (sp.advance k).word) = (if k < sp.clause.length then (sp.pc, k) else (sp.nextPc, 0)) ∧
      (sp.advance k).mask = sp.mask ∧ (sp.advance k).held = sp.held ∧ (sp.advance k).rpc = sp.rpc ∧
      (sp.advance k).parent = sp.parent ∧ (sp.advance k).state = sp.state ∧ (sp.advance k).frame = sp.frame ∧
      (sp.advance k).hold = sp.hold := by
  unfold Split.advance
  split <;> exact ⟨rfl, rfl, rfl, rfl, rfl, rfl, rfl, rfl⟩

/-- Settles O16: passing is the change `Ctx.after` of the issuing group. -/
theorem passedInstructionFrame : Obligations.PassedInstructionFrame := by
  intro u c x g hg t
  have ht : t = u.modGroup c.g.gid (fun g => c.after u x g) := State.finish_eq u c x
  refine ⟨c.after u x g, ?_, ?_, rfl, fun k hk => ?_, fun sp hsp hpc hword hstate hhold => ?_⟩
  · rw [ht, State.group?_modGroup u _ _ (fun g => c.after u x g) (fun _ => rfl), if_pos rfl, hg]; rfl
  · rw [ht]
    exact State.sameBut_modGroup u c.g.gid (fun g => c.after u x g) (fun _ => rfl)
  · rw [split?_after, if_neg hk]
  · obtain ⟨hplace, hmask, hheld, hrpc, hparent, hst, hframe, hh⟩ := advance_place sp (nextWord c.sp x)
    refine ⟨c.marked u (sp.advance (nextWord c.sp x)), ?_, ?_, hplace, hmask, hheld, hrpc, hparent, hst, hframe⟩
    · rw [split?_after, if_pos rfl, hsp, ← moved_here x hpc hword hstate hhold]; rfl
    · simp [Ctx.marked, hh, hhold]

/-- 23 R431: counting debug registers down does not change which split is chosen. -/
theorem bpCount_cur (s : State) (c : Ctx) : (s.bpCount c).cur = s.cur := by
  unfold State.bpCount
  split
  · rfl
  · split <;> rfl

theorem set_cur_same {s : State} {k : Option (Nat × Nat)} (h : s.cur = k) : ({ s with cur := k } : State) = s := by
  subst h; rfl

/-- A split that stands at an instruction and that no sample and no stop meets there issues it. -/
theorem issueOf_decoded {s : State} {gid sid n : Nat} {c : Ctx} {i : Instr} (hcur : s.cur = some (gid, sid))
    (hctx : s.ctx? gid sid = some c) (hw : c.atWord = true) (hd : decodeAt c.sp.clause c.sp.word = .ok (i, n))
    (hsample : (s.siteOf c.w c.sp).isSome = true → s.samples.any (fun x => x.gid == gid && x.sid == sid) = false)
    (hstop : s.stopDue c = false) :
    s.issueOf gid sid = .issue i ((if c.sp.stop = .running ∧ c.sp.hold = .none then s.bpCount c else s).spendYields c) := by
  have hno : ((s.siteOf c.w c.sp).isSome && s.samples.any (fun x => x.gid == gid && x.sid == sid)) = false := by
    cases hs : (s.siteOf c.w c.sp).isSome with
    | false => rfl
    | true => exact hsample hs
  have hcount : (if (c.sp.stop == .running && c.sp.hold == .none) = true then s.bpCount c else s) =
      if c.sp.stop = .running ∧ c.sp.hold = .none then s.bpCount c else s := by
    simp only [Bool.and_eq_true, beq_iff_eq]
  have hkeep : ((if c.sp.stop = .running ∧ c.sp.hold = .none then s.bpCount c else s).spendYields c).cur = some (gid, sid) := by
    show (if c.sp.stop = .running ∧ c.sp.hold = .none then s.bpCount c else s).cur = _
    split
    · exact (bpCount_cur s c).trans hcur
    · exact hcur
  unfold State.issueOf
  simp only [hctx, hw, if_true, hno, hstop, Bool.false_eq_true, if_false, hd, hcount, set_cur_same hkeep]

/-- Settles O4: the split that `cur` names is the one that moves. -/
theorem stepRunsDecodedInstruction : Obligations.StepRunsDecodedInstruction := by
  intro s gid sid n c i hcur hctx hw hd hsample hstop
  have hchoose : s.choose = s.issueOf gid sid := by
    unfold State.choose
    rw [hcur]
  have hmove := hchoose.trans (issueOf_decoded hcur hctx hw hd hsample hstop)
  unfold step
  generalize s.choose = m at hmove ⊢
  subst hmove
  rfl

end Sys2Proof.Laws
end

section
/-!
LD (10 R231 to R234): what its outstanding instruction is, and the elements that it brings.
-/
namespace Sys2Proof.Laws
open Sys2Proof.Machine

/-- LD in its plain and its vector-pointer form are one instruction. -/
theorem exec_ld {row : Op × Bool} (h : row ∈ [(Op.ld, false), (.ldVp, true)]) (x : Args) (s : State) :
    exec (row.1.instr x) s = loadExec row.1 row.2 x s := by
  simp only [List.mem_cons, List.not_mem_nil, or_false] at h
  obtain rfl | rfl := h <;> rfl

/-- 10 R231, R232: an element of a load, as it is read. -/
def readElem (u : State) (c : Ctx) (x : Args) (e : LaneAcc × Nat × Span) : LoadElem :=
  u.loadElem c e.1 x.c.toNat (x.d.toNat + e.2.1 * regsOf x.c.toNat) e.2.2

/-- The elements that a load reads at once, as they are logged. -/
def readLog (u : State) (c : Ctx) (x : Args) (as : List LaneAcc) : List (LaneAcc × Nat × Nat) :=
  (c.elements x as).filterMap (fun e => (readElem u c x e).raw.map (fun n => (e.1, e.2.2.first, n)))

/-- 06 R120: what a LD is while it is outstanding, once its lines have come. -/
def ldOp (u : State) (c : Ctx) (x : Args) (as : List LaneAcc) : PendingOp :=
  mkOp c x (u.logElems c 1 (readLog u c x as)) as ((c.elements x as).map (readElem u c x)) x.c.toNat loadPacket

/-- What a LD whose lines have come leaves before it passes. -/
def pendLd (u : State) (c : Ctx) (x : Args) (as : List LaneAcc) : State :=
  (u.logElems c 1 (readLog u c x as)).pendLoad c x as ((c.elements x as).map (readElem u c x)) x.c.toNat loadPacket

/-- A LD that no check, no hold and no poison stops is outstanding. -/
theorem loadExec_next {o : Op} {vp : Bool} {x : Args} {s : State} {c : Ctx} (hi : s.issues o x c) {as : List LaneAcc}
    (hr : c.ldstLanes s x vp (c.active x) .load = ([], as))
    (hh : s.holdOf c as false 1 ((c.elements x as).map (fun e => (e.1, e.2.2.first))) = none) (hp : s.poisonTraps as = []) :
    loadExec o vp x s = .next ((pendLd (s.prepRead c as) c x as).finish c x) := by
  have ⟨_, _, hact, _⟩ := hi
  have hne : as ≠ [] := by
    have := splitLanes_nonempty (by simpa using hact) (congrArg Prod.fst hr)
    rwa [show splitLanes _ = ([], as) from hr] at this
  unfold Ctx.elements at hh
  unfold loadExec
  rw [issue_eq hi]
  simp only [hr, hh, hp, List.isEmpty_nil, Bool.not_true, stopsAll, List.any_nil, Bool.false_or,
    List.isEmpty_eq_false_iff.2 hne, Bool.false_eq_true, if_false, afterLanes, if_true, List.map_map, List.filterMap_map]
  rfl

theorem pendLd_carried {s u : State} {c : Ctx} {F : Group → Group} (h : s.Carried c.g.gid F u) (hF : ∀ g, (F g).gid = g.gid)
    (hr : s.replayOf c.w.part = none) (x : Args) (as : List LaneAcc) :
    s.Carried c.g.gid (fun g => { ((F g).countUp (ldOp u c x as).flag) with ops := (F g).ops ++ [ldOp u c x as] }) (pendLd u c x as) :=
  (pendLoad_carried x as _ _ loadPacket (logElems_carried h hr 1 (readLog u c x as)) hF).1

/-! ### Elements in banks and through L1 -/

/-- The elements of a load are of the accesses of the lanes. -/
theorem elements_access {c : Ctx} {x : Args} {as : List LaneAcc} {e : LaneAcc × Nat × Span} (h : e ∈ c.elements x as) : e.1 ∈ as := by
  simp only [Ctx.elements, List.mem_flatMap, List.mem_map] at h
  obtain ⟨a, ha, _, -, rfl⟩ := h
  exact ha

/-- An element in a bank or an L1 is read at once. -/
theorem readElem_here {as : List LaneAcc} (h : allHere as) (u : State) {c : Ctx} {x : Args} {e : LaneAcc × Nat × Span}
    (he : e ∈ c.elements x as) : (readElem u c x e).raw = some ((u.spanRead c e.1 e.2.2).getD 0) := by
  obtain ⟨n, hn⟩ := Option.isSome_iff_exists.1 (spanRead_here h (elements_access he) u c e.2.2)
  show u.spanRead c e.1 e.2.2 = _
  rw [hn]; rfl

theorem readElems_here {as : List LaneAcc} (h : allHere as) (u : State) (c : Ctx) (x : Args) :
    ∀ e ∈ (c.elements x as).map (readElem u c x), e.raw.isSome = true := by
  intro y hy
  obtain ⟨e, he, rfl⟩ := List.mem_map.1 hy
  rw [readElem_here h u he]; rfl

/-- 10 R233: the values of elements read at once. -/
theorem readElems_values {as : List LaneAcc} (h : allHere as) (u : State) (c : Ctx) (x : Args) :
    ((c.elements x as).map (readElem u c x)).filterMap
        (fun e => e.raw.map (fun n => (e, loadValue c.fmode e.far.mfmt x.c.toNat n))) =
      (c.elements x as).map (fun e => (readElem u c x e, u.loaded c x e)) := by
  rw [List.filterMap_map]
  refine filterMap_all _ _ _ fun e he => ?_
  show ((readElem u c x e).raw.map _) = _
  rw [readElem_here h u he]; rfl

/-- Of elements in banks and L1 a LD has the values at once. -/
theorem ldOp_here {as : List LaneAcc} (h : allHere as) (u : State) (c : Ctx) (x : Args) :
    (ldOp u c x as).ready = true ∧ (ldOp u c x as).elems = [] ∧
      (ldOp u c x as).vWrites = (c.elements x as).flatMap (fun e =>
        elemWrites x.c.toNat (x.d.toNat + e.2.1 * regsOf x.c.toNat) e.1.lane (u.loaded c x e).1) ∧
      (ldOp u c x as).fstat = orFlags ((c.elements x as).map (fun e => (u.loaded c x e).2)) := by
  obtain ⟨hawaits, hengine, helems, -⟩ := (pendLoad_carried x as _ x.c.toNat loadPacket
    (carried_refl (u.logElems c 1 (readLog u c x as)) c.g.gid) (fun _ => rfl)).2 h (readElems_here h u c x)
  refine ⟨?_, helems, ?_, ?_⟩
  · unfold PendingOp.ready
    rw [show (ldOp u c x as).awaits = [] from hawaits, show (ldOp u c x as).waitsEngine = false from hengine]; rfl
  · show (List.filterMap _ ((c.elements x as).map (readElem u c x))).flatMap _ = _
    rw [readElems_values h, List.flatMap_map]; rfl
  · show orFlags ((List.filterMap _ ((c.elements x as).map (readElem u c x))).map _) = _
    rw [readElems_values h, List.map_map]; rfl

/-- A LD of elements in banks and L1 that passes leaves memory; with no acquire, what every core sees. -/
theorem pendLd_here {as : List LaneAcc} (h : allHere as) {u : State} {c : Ctx} (hr : u.replayOf c.w.part = none) (x : Args) :
    ((pendLd u c x as).finish c x).mem = u.mem ∧ ((pendLd u c x as).finish c x).tags = u.tags ∧
      (unsynced as → u.SameView ((pendLd u c x as).finish c x)) := by
  obtain ⟨-, -, -, hpend⟩ := (pendLoad_carried x as _ x.c.toNat loadPacket
    (carried_refl (u.logElems c 1 (readLog u c x as)) c.g.gid) (fun _ => rfl)).2 h (readElems_here h u c x)
  have hview : u.SameView ((u.logElems c 1 (readLog u c x as)).pend c (ldOp u c x as)) :=
    (logElems_sameView hr 1 (readLog u c x as)).trans (pend_sameView _ c _)
  obtain ⟨hmem, htags, hsync⟩ := acquireLanes_mem ((u.logElems c 1 (readLog u c x as)).pend c (ldOp u c x as)) c as
  rw [show pendLd u c x as = ((u.logElems c 1 (readLog u c x as)).pend c (ldOp u c x as)).acquireLanes c as from hpend]
  obtain ⟨hfmem, hftags⟩ := finish_memory (((u.logElems c 1 (readLog u c x as)).pend c (ldOp u c x as)).acquireLanes c as) c x
  refine ⟨hfmem.trans (hmem.trans hview.mem), hftags.trans (htags.trans hview.tags), fun hs => ?_⟩
  rw [hsync hs]
  exact hview.trans (finish_sameView _ c x)

/-- Settles O32: the instruction that `ldOp` gives is outstanding; through L1 what it reads is what filling the lines leaves. -/
theorem loadsBringElements : Obligations.LoadsBringElements := by
  intro row hrow s c x hi hr r es h1 hh hp
  have hexec := (exec_ld hrow x s).trans (loadExec_next hi (Prod.ext h1 rfl) hh hp)
  obtain ⟨F, hF, hu⟩ := prepRead_carried s c r.2
  have hbank := fun hb : ∀ a ∈ r.2, a.inBank => prepRead_bank hb s c
  have hfresh := fun hl1 : allHere r.2 => prepRead_refreshed hl1 s c
  generalize s.prepRead c r.2 = u at hexec hu hbank hfresh
  obtain ⟨g, hS, hregs, hmodes, hcount, hops, -⟩ :=
    served_pending hi.1 x hF (ldOp u c x r.2) rfl (pendLd_carried hu (touches_gid hF) hr x r.2)
  have hreplay := replay_prep hu hr
  refine ⟨_, g, ldOp u c x r.2, hexec, hS, hregs, hmodes, hcount, hops, rfl, rfl, fun hb => ?_, fun hl1 hroom => ?_⟩
  · obtain ⟨hready, helems, hwrites, hflags⟩ := ldOp_here (allHere_bank hb) u c x
    obtain ⟨hmem, htags, -⟩ := pendLd_here (allHere_bank hb) hreplay x
    obtain rfl := hbank hb
    exact ⟨hready, helems, hwrites, hflags, hmem, htags⟩
  · obtain ⟨hready, helems, hwrites, hflags⟩ := ldOp_here hl1 u c x
    obtain ⟨hmem, htags, hview⟩ := pendLd_here hl1 hreplay x
    obtain ⟨hmem', htags', -, hsees⟩ := hfresh hl1 hroom
    exact ⟨u, hmem', htags', hsees, hready, helems, hwrites, hflags, hmem.trans hmem', htags.trans htags',
      fun hs => (hview hs).sees⟩

end Sys2Proof.Laws
end

section
/-!
How a split comes to a clause (06 R112 to R114, R119, R131; 07 R147, R149, R155).
-/
namespace Sys2Proof.Laws
open Sys2Proof.Machine

theorem ctx?_ids {s : State} {g sid : Nat} {c : Ctx} (h : s.ctx? g sid = some c) : c.g.gid = g ∧ c.sp.id = sid :=
  ⟨State.group?_gid (State.ctx?_eq h).1, Group.split?_id (State.ctx?_eq h).2.2.1⟩

/-! ### Fetch and prefetch -/

theorem clausePrefetch_next {s : State} {g sid n : Nat} {c : Ctx} (hctx : s.ctx? g sid = some c) (hmove : c.mayMove = true)
    (hc : c.sp.clause ≠ []) : exec (.clausePrefetch g sid n) s = .next (s.prefetchLines c (c.codeVa c.sp.nextPc.toNat) n) := by
  show execClausePrefetch g sid n s = _
  unfold execClausePrefetch
  simp only [hctx, hmove, Bool.not_true, Bool.false_or, List.isEmpty_eq_false_iff.2 hc, Bool.false_eq_true, if_false]

/-- 06 R114: one line prefetched is held. -/
theorem prefetchLines_holds {s : State} {c : Ctx} {va pa : Nat} {f : Leaf} {d : Bool} (hlen : va < c.codeVa c.w.codeLen)
    (ht : s.translate c.w.phys (s.partOf c.w.part) va = .ok pa f d) (hord : f.ord = false) (hdev : f.dev = false) (hx : f.x = true)
    (hok : f.refuse (s.partOf c.w.part) s.pod fetchUse = none) :
    (((s.prefetchLines c va 1).core c.w.phys).line? (s.partOf c.w.part).num (va / 128)).isSome = true := by
  unfold State.prefetchLines
  simp only [ge_iff_le, Nat.not_le.2 hlen, if_false, ht, hord, hdev, hx, hok, Bool.not_true, Option.isSome_none, Bool.or_self,
    Bool.false_eq_true, State.prefetchLines]
  split
  · assumption
  · exact Option.isSome_iff_ne_none.2 (fillLine_frame s c.w.phys (s.partOf c.w.part).num (va / 128) pa false).2.2

/-! ### Clause starts -/

/-- 06 R119, 07 R155: a split at the start of a clause whose header is `h`: it begins, or waits. -/
def clauseStarts (c : Ctx) (h : DWord) (sp : Split) : Split :=
  if c.sp.passed = true ∨ c.g.waitHolds (headerOf h) = true then sp.begin_
  else if c.sp.state = .inTrap then { sp with hold := .clauseWait, awaits := (headerOf h).wait }
  else { sp with state := .waitingFlags, awaits := (headerOf h).wait }

/-- 07 R152: a changed table of a group none of whose splits is spilled goes into the state as it is. -/
theorem putTable_unspilled {s : State} {c : Ctx} (hg : s.group? c.g.gid = some c.g) (hu : c.g.unspilled) (f : Split → Split)
    (hf : ∀ sp, (f sp).spilled = sp.spilled) : s.putTable c (c.g.modSplit c.sp.id f) = (s.modSplit c.g.gid c.sp.id f).bump := by
  have hnew := Group.unspilled_modSplit hu c.sp.id f hf
  unfold State.putTable
  simp only [hg, Group.unspilled_refill 8 hnew]
  rw [State.putSplits_eq s c.w c.sp.id _ _ (records_nil hu hnew), modSplit_const hg]

/-- 06 R130: an illegal clause traps. -/
theorem startClause_illegal {s : State} {c : Ctx} {h : DWord} {body : List DWord} (hc : c.sp.clause = h :: body)
    (hl : clauseLegal h body = false) : s.startClause c = s.fetchTrap c 0x5002 none none h := by
  unfold State.startClause
  simp only [hc, hl, Bool.not_false, if_true]

/-- 06 R119: a legal clause that fuses nothing begins, or waits. -/
theorem startClause_legal {s : State} {c : Ctx} {h : DWord} {body : List DWord} (hg : s.group? c.g.gid = some c.g)
    (hc : c.sp.clause = h :: body) (hl : clauseLegal h body = true)
    (hm : ((headerOf h).merge && c.sp.state == .ready && !c.sp.skipRpc) = false) (hu : c.g.unspilled)
    (hpast : ¬(c.sp.skipRpc = true ∧ (headerOf h).len < c.sp.word)) :
    s.startClause c = (s.modSplit c.g.gid c.sp.id (clauseStarts c h)).bump := by
  have hpast' : (c.sp.skipRpc && decide ((headerOf h).len < c.sp.word)) = false := by simpa using hpast
  unfold State.startClause
  simp only [hc, hl, Bool.not_true, Bool.false_eq_true, if_false, hpast', hm, Bool.or_eq_true, beq_iff_eq]
  unfold clauseStarts
  by_cases hpass : c.sp.passed = true ∨ c.g.waitHolds (headerOf h) = true
  · simp only [hpass, if_true]
    exact putTable_unspilled hg hu _ fun _ => rfl
  · by_cases htrap : c.sp.state = .inTrap
    · simp only [hpass, if_false, htrap, if_true]
      exact putTable_unspilled hg hu _ fun _ => rfl
    · simp only [hpass, if_false, htrap]
      exact putTable_unspilled hg hu _ fun _ => rfl

/-- 07 R149: where no parent is replaced, a clause start tests the RPC, then starts the clause. -/
theorem clauseStart_next {s : State} {c : Ctx} (hctx : s.ctx? c.g.gid c.sp.id = some c) (hrun : c.runnable = true)
    (hat : c.sp.word = 0 ∨ c.sp.skipRpc = true) (hrep : c.g.replaceParent s.free c.sp.id = c.g) :
    exec (.clauseStart c.g.gid c.sp.id) s = .next (if c.sp.atRpc = true then
      s.putSplits c.w c.sp.id c.g (c.g.reachRpc s.serial c.sp.id) else s.startClause c) := by
  have hsame : s.modGroup c.g.gid (fun x => x.replaceParent s.free c.sp.id) = s :=
    (State.modGroup_congr (State.ctx?_eq hctx).1 (f' := id) hrep).trans (State.modGroup_id s _)
  have hat' : (c.sp.word == 0 || c.sp.skipRpc) = true := by simpa using hat
  show execClauseStart c.g.gid c.sp.id s = _
  unfold execClauseStart
  simp only [hctx, hrun, hat', Bool.not_true, Bool.or_self, Bool.false_eq_true, if_false, hsame]

/-- 07 R147: a split at its RPC parks. -/
theorem putSplits_reachRpc {s : State} {c : Ctx} (hg : s.group? c.g.gid = some c.g) (hu : c.g.unspilled) :
    s.putSplits c.w c.sp.id c.g (c.g.reachRpc s.serial c.sp.id) =
      (s.modGroup c.g.gid (fun x => x.reachRpc s.serial c.sp.id)).bump := by
  rw [State.putSplits_eq s c.w c.sp.id _ _ (records_nil hu (Group.unspilled_reachRpc hu s.serial c.sp.id))]
  exact congrArg State.bump (State.modGroup_congr hg rfl)

/-- 07 R155: a retest of a split that waits at a clause start. -/
theorem waitRetest_next {s : State} {c : Ctx} {h : DWord} {body : List DWord} (hctx : s.ctx? c.g.gid c.sp.id = some c)
    (hc : c.sp.clause = h :: body) (hmove : c.mayMove = true) (hwait : c.sp.waiting = true) :
    exec (.waitRetestStart c.g.gid c.sp.id) s =
      .next (if c.g.waitHolds (headerOf h) = true ∨ c.sp.awaits ≠ (headerOf h).wait then s.startClause c else s) := by
  show execWaitRetestStart c.g.gid c.sp.id s = _
  unfold execWaitRetestStart
  simp only [hctx, hc, hmove, hwait, Bool.true_and, Bool.or_eq_true, bne_iff_ne]

/-- A split that waits at a clause start is not ready. -/
theorem waiting_of {sp : Split} (h : sp.state = .waitingFlags ∨ sp.state = .inTrap ∧ sp.hold = .clauseWait) :
    sp.waiting = true ∧ (sp.state == .ready) = false := by
  unfold Split.waiting
  rcases h with h | ⟨h, hh⟩
  · rw [h]; exact ⟨rfl, rfl⟩
  · rw [h, hh]; exact ⟨rfl, rfl⟩

/-- Settles O47: each event by the lemma that says what it leaves. -/
theorem clauseEvents : Obligations.ClauseEvents := by
  intro s g sid c hctx
  dsimp only
  obtain ⟨rfl, rfl⟩ := ctx?_ids hctx
  have hgroup := (State.ctx?_eq hctx).1
  refine ⟨fun hf hr => ?_, fun n hmove hc => ?_, fun hrun hat hrep => ?_, fun h body hc hmove hwait => ?_⟩
  · -- the fetch
    have hnext : exec (.clauseFetch c.g.gid c.sp.id) s = execClauseFetch c.g.gid c.sp.id s := rfl
    unfold execClauseFetch at hnext
    simp only [hctx, hf, hr, Bool.not_true, Bool.or_self, Bool.false_eq_true, if_false] at hnext
    refine ⟨fun code hcode => by rw [hnext, hcode], fun hcheck => ?_⟩
    simp only [hcheck] at hnext
    refine ⟨fun code va pa hw => by rw [hnext, hw], fun hw => by rw [hnext, hw], fun s1 h hw => ?_⟩
    simp only [hw, List.getD_cons_zero] at hnext
    refine ⟨fun code hcode => by rw [hnext, hcode], fun hall => ?_⟩
    simp only [hall] at hnext
    refine ⟨fun code va pa hrest => by rw [hnext, hrest], fun hrest => by rw [hnext, hrest],
      fun s2 ws hrest => ⟨fetchWords_len hrest, by rw [hnext, hrest]; rfl⟩⟩
  · -- the prefetch
    obtain ⟨hview, hcalm⟩ := prefetch_frame n s c (c.codeVa c.sp.nextPc.toNat)
    have hkept := hcalm s.placed rfl
    refine ⟨_, clausePrefetch_next hctx hmove hc, congrArg (·.1) hkept, calm_wgs hkept, hview.mem, ?_⟩
    rintro pa f d rfl hlen ht hord hdev hx hok
    exact prefetchLines_holds hlen ht hord hdev hx hok
  · -- the clause start
    have hnext := clauseStart_next hctx hrun hat hrep
    refine ⟨fun hr hu => ?_, fun h body hc hr => ⟨fun hl => ?_, fun hl hm hu hpast => ?_⟩⟩
    · rw [hnext, if_pos hr, putSplits_reachRpc hgroup hu]
    · rw [hnext, hr, if_neg Bool.false_ne_true, startClause_illegal hc hl]
    · rw [hnext, hr, if_neg Bool.false_ne_true, startClause_legal hgroup hc hl (by rw [hm]; rfl) hu hpast]
      rfl
  · -- the retest
    obtain ⟨hwaiting, hready⟩ := waiting_of hwait
    have hnext := waitRetest_next hctx hc hmove hwaiting
    refine ⟨fun hzero hsame => ?_, fun hgo => ⟨fun hl => ?_, fun hl hu hpast => ?_⟩⟩
    · rw [hnext, if_neg]
      rintro (h' | h')
      · exact Bool.false_ne_true (hzero.symm.trans h')
      · exact h' hsame
    · rw [hnext, if_pos hgo, startClause_illegal hc hl]
    · rw [hnext, if_pos hgo, startClause_legal hgroup hc hl (by rw [hready, Bool.and_false, Bool.false_and]) hu hpast]
      rfl

end Sys2Proof.Laws
end

section
/-!
What was waited for arrives (06 R120; 11 R254; 13 R294, R296; 14 R317, R320; 16 R353, R355).
-/
namespace Sys2Proof.Laws
open Sys2Proof.Machine

/-! ### Completions -/

/-- 14 R320: an outstanding instruction to which the pipe has replied. -/
def repliedOp (o : PendingOp) : PendingOp := { o with waitsEngine := false }

/-- The group of an instruction to which the pipe has replied. -/
def repliedGroup (x : Group) (op : Nat) : Group := { x with ops := x.ops.map (fun p => if p.id == op then repliedOp p else p) }

theorem find?_replied {l : List PendingOp} {op : Nat} {o : PendingOp} (h : l.find? (fun y => y.id == op) = some o) :
    (l.map (fun p => if p.id == op then repliedOp p else p)).find? (fun y => y.id == op) = some (repliedOp o) := by
  have hid : o.id = op := by simpa using List.find?_some h
  rw [List.find?_map, show ((fun y : PendingOp => y.id == op) ∘ fun p => if p.id == op then repliedOp p else p) =
    fun y => y.id == op from funext fun p => by dsimp only [Function.comp]; split <;> rfl, h]
  simp [hid]

/-- A reply changes no other outstanding instruction. -/
theorem filter_replied (l : List PendingOp) (op : Nat) :
    (l.map (fun p => if p.id == op then repliedOp p else p)).filter (fun y => y.id != op) = l.filter (fun y => y.id != op) := by
  induction l with
  | nil => rfl
  | cons a t ih =>
    by_cases h : a.id = op
    · have h' : (repliedOp a).id = op := h
      simpa [h, h'] using ih
    · simpa [h] using ih

/-- What completes once the pipe has replied has completed. -/
theorem finished_replied {x : Group} {op : Nat} {o : PendingOp} (h : x.ops.find? (fun y => y.id == op) = some o) :
    x.finished ((repliedGroup x op).finishOp (repliedOp o)) o := by
  have hid : o.id = op := by simpa using List.find?_some h
  obtain ⟨hv, hs, hp, hf, hflags, hops, hsplits⟩ := finishOp_finished (repliedGroup x op) (repliedOp o)
  refine ⟨hv, hs, hp, hf, hflags, hops.trans ?_, hsplits⟩
  show ((repliedGroup x op).ops).filter (fun y => y.id != o.id) = _
  rw [hid]
  exact filter_replied x.ops op

/-- 06 R120: an instruction that is ready completes. -/
theorem completion_next {s : State} {g op : Nat} {x : Group} {w : Workgroup} {o : PendingOp} (hx : s.group? g = some x)
    (hw : s.wg? x.wgKey = some w) (ho : x.ops.find? (fun y => y.id == op) = some o) (hr : o.ready = true) :
    ∃ t h, exec (.flagCountedCompletion g op) s = .next t ∧ t.group? g = some h ∧ x.finished h o ∧ t.mem = s.mem := by
  obtain ⟨hg, hm, -⟩ := finishOp_next hx hw ho hr
  exact ⟨s.finishOp g op, x.finishOp o, rfl, hg, finishOp_finished x o, hm⟩

theorem transformReply_found {s : State} {g op : Nat} {x : Group} {w : Workgroup} (hx : s.group? g = some x) (hw : s.wg? x.wgKey = some w) :
    exec (.transformReply g op) s = .next (if (s.core w.phys).pipe.head? = some (g, op) then
      ((s.modCore w.phys (fun k => { k with pipe := k.pipe.drop 1 })).modGroup g (fun y => repliedGroup y op)).finishOp g op else s) := by
  show execTransformReply g op s = _
  unfold execTransformReply
  simp only [hx, Option.bind_some, hw, bne_iff_ne, ne_eq, ite_not]
  rfl

/-- 14 R320: the instruction at the head of the pipe completes, and the pipe moves on. -/
theorem transformReply_next {s : State} {g op : Nat} {x : Group} {w : Workgroup} {o : PendingOp} (hx : s.group? g = some x)
    (hw : s.wg? x.wgKey = some w) (ho : x.ops.find? (fun y => y.id == op) = some o) (ha : o.awaits = [])
    (hhead : (s.core w.phys).pipe.head? = some (g, op)) :
    ∃ t h, exec (.transformReply g op) s = .next t ∧ t.group? g = some h ∧ x.finished h o ∧ t.mem = s.mem ∧
      (o.acq = 0 → (t.core w.phys).pipe = (s.core w.phys).pipe.drop 1) := by
  let u := (s.modCore w.phys (fun k => { k with pipe := k.pipe.drop 1 })).modGroup g (fun y => repliedGroup y op)
  have hu : u.group? g = some (repliedGroup x op) :=
    group?_set (s := s.modCore w.phys (fun k => { k with pipe := k.pipe.drop 1 })) (fun y => repliedGroup y op) (fun _ => rfl) hx
  have hready : (repliedOp o).ready = true := by
    simp [PendingOp.ready, repliedOp, ha]
  obtain ⟨hg, hm, hc⟩ := finishOp_next (s := u) hu hw (find?_replied ho) hready
  refine ⟨u.finishOp g op, _, ?_, hg, finished_replied ho, hm, fun hacq => ?_⟩
  · rw [transformReply_found hx hw, if_pos hhead]
  · have hcore : (u.finishOp g op).core w.phys = u.core w.phys := by
      unfold State.core
      rw [hc hacq]
    rw [hcore, show u.core w.phys = (s.modCore w.phys (fun k => { k with pipe := k.pipe.drop 1 })).core w.phys from rfl,
      core_modCore_self]

/-! ### Waits that pass -/

/-- A wait of a split has passed: it stands past its instruction, and nothing else of its group has changed. -/
def passedWait (s t : State) (c : Ctx) (n : Nat) : Prop :=
  ∃ h sp, t.group? c.g.gid = some h ∧ h.split? c.sp.id = some sp ∧ sp.hold = .none ∧ sp.state = c.sp.state ∧ sp.waitOn = none ∧
    (sp.pc, sp.word) = (if n < c.sp.clause.length then (c.sp.pc, n) else (c.sp.nextPc, 0)) ∧ c.g.sameRegs h ∧
    h.flags = c.g.flags ∧ t.mem = s.mem

/-- Passing a wait, in a state whose groups and memory are those before. -/
theorem passWait_passed {s u : State} {c : Ctx} {i : Instr} {n : Nat} (hctx : s.ctx? c.g.gid c.sp.id = some c)
    (hd : decodeAt c.sp.clause c.sp.word = .ok (i, n)) (hh : c.sp.hold ≠ .faulted) (hg : u.groups = s.groups) (hm : u.mem = s.mem) :
    passedWait s (u.passWait c) c n := by
  obtain ⟨hgroup, -, hsplit, -⟩ := State.ctx?_eq hctx
  have hu : u.group? c.g.gid = some c.g := by
    unfold State.group?
    rw [hg]; exact hgroup
  obtain ⟨g, sp, hg', hsp, hhold, hstate, hplace, hregs, hflags, hwait, -, hmem⟩ := passWait_group hd hu hsplit hh
  exact ⟨g, sp, hg', hsp, hhold, hstate, hwait, hplace, hregs, hflags, hmem.trans hm⟩

theorem passWait_replay (u : State) (c : Ctx) (n : Nat) : (u.passWait c).replayOf n = u.replayOf n := by
  unfold State.passWait
  split <;> rfl

theorem acquireCore_replay (s : State) (core part scope n : Nat) : (s.acquireCore core part scope).replayOf n = s.replayOf n :=
  calm_replayOf (State.acquireCore_calm s core part scope rfl) n

/-- 23 R440: logging a barrier action leaves groups and memory. -/
theorem passedWait_logBarrier {s t : State} {c : Ctx} {n : Nat} (h : passedWait s t c n) (hr : t.replayOf c.w.part = none)
    (act : List Nat) (k : Nat) : passedWait s (t.logBarrier c act k) c n := by
  obtain ⟨ps, hps, -⟩ := logBarrier_parts hr act k
  rw [hps]
  exact h

/-- 16 R353: a held BWAIT, once its phase has changed and before. -/
theorem bwaitPass_next {s : State} {c : Ctx} {k parity : Nat} (hctx : s.ctx? c.g.gid c.sp.id = some c) (hmove : c.mayMove = true)
    (hh : c.sp.hold = .bwait) (hw : c.sp.waitOn = some (k, parity)) (hr : s.replayOf c.w.part = none) :
    exec (.bwaitPass c.g.gid c.sp.id) s = .next (if (s.barrierAt k).passed parity = true then
      ((s.acquireCore c.w.phys c.w.part 1).passWait c).logBarrier c (lanesOf c.sp.mask) k else s) := by
  show execBwaitPass c.g.gid c.sp.id s = _
  unfold execBwaitPass
  simp only [hctx, hh, hw, hmove, heldByReplay_none hr, Bool.true_and, Bool.not_false, Bool.and_true]

/-- 16 R355: a held TLWAIT, once its timeline has reached its ticket and before. -/
theorem tlwaitPass_next {s : State} {c : Ctx} {k m : Nat} (hctx : s.ctx? c.g.gid c.sp.id = some c) (hmove : c.mayMove = true)
    (hh : c.sp.hold = .tlwait) (hw : c.sp.waitOn = some (k, m)) :
    exec (.tlwaitPass c.g.gid c.sp.id) s =
      .next (if m ≤ (c.w.timeline k).reached then (s.acquireTl c.w k m).passWait c else s) := by
  show execTlwaitPass c.g.gid c.sp.id s = _
  unfold execTlwaitPass
  simp only [hctx, hh, hw, hmove, Bool.true_and, decide_eq_true_eq]

theorem acquireTl_frame (s : State) (w : Workgroup) (k m : Nat) :
    (s.acquireTl w k m).groups = s.groups ∧ (s.acquireTl w k m).mem = s.mem := by
  unfold State.acquireTl
  split
  · exact ⟨rfl, rfl⟩
  · exact ⟨acquireCore_groups .., acquireCore_mem ..⟩

/-! ### Held splits that issue next -/

/-- A split held for one thing is the next to issue. -/
theorem reissue_next {s : State} {g sid : Nat} {c : Ctx} {h : Hold} {ready : Ctx → Bool} (hctx : s.ctx? g sid = some c)
    (hmove : c.mayMove = true) (hh : c.sp.hold = h) (hr : ready c = true) : s.reissue g sid h ready = { s with cur := some (g, sid) } := by
  unfold State.reissue
  simp only [hctx, hh, hmove, hr, beq_self_eq_true, Bool.and_self, if_true]

theorem transformPipeAccept_next {s : State} {g sid : Nat} {c : Ctx} (hctx : s.ctx? g sid = some c) (hmove : c.mayMove = true)
    (hh : c.sp.hold = .pipe) (hbusy : s.pipeBusy c.w.phys = false)
    (hfirst : leastBy (fun (p : Nat × Split) => p.2.askedAt .pipe 0) (s.groups.flatMap (fun y =>
      if (s.wg? y.wgKey).map (·.phys) = some c.w.phys then (y.splits.filter (fun z => z.hold == .pipe)).map (fun z => (y.gid, z))
      else [])) = some (g, c.sp)) :
    exec (.transformPipeAccept c.w.phys) s = .next { s with cur := some (g, sid) } := by
  show execTransformPipeAccept c.w.phys s = _
  unfold execTransformPipeAccept
  simp only [beq_iff_eq]
  rw [hfirst]
  simp only [hbusy, Bool.false_eq_true, if_false, (ctx?_ids hctx).2]
  rw [reissue_next hctx hmove hh rfl]

/-! ### Page walks -/

/-- 11 R254: a walk that faults leaves nothing. -/
theorem pageWalk_faults {s : State} {core part va : Nat} {p : Partition} {f : Nat × Nat × Bool} (hp : s.part? part = some p)
    (hmiss : s.miss core p va = .inr f) : exec (.pageWalk core part va) s = .next s := by
  show execPageWalk core part va s = _
  unfold execPageWalk
  simp only [hp, State.install, hmiss]

/-- 11 R254, R264: a translation that a walk installs comes first in the core's TLB; groups and memory stand. -/
theorem install_frame {s : State} {core va : Nat} {p : Partition} {e : TlbEntry} {ws : List WalkEntry} {b : Bool}
    (hmiss : s.miss core p va = .inl (e, ws, b)) :
    ((s.install core p va).core core).tlb.head? = some e ∧ (s.install core p va).groups = s.groups ∧
      (s.install core p va).mem = s.mem := by
  have hcore : ∀ (u : State) (f : Partition → Partition), (if b = true then u.modPart p.num f else u).core core = u.core core :=
    fun u f => by split <;> rfl
  unfold State.install
  simp only [hmiss]
  refine ⟨?_, by split <;> rfl, by split <;> rfl⟩
  rw [hcore, core_modCore_self]; rfl

/-- 11 R254, R264: a walk leaves its translation in the core's TLB. -/
theorem pageWalk_installs {s : State} {core part va : Nat} {p : Partition} {e : TlbEntry} {ws : List WalkEntry} {b : Bool}
    (hp : s.part? part = some p) (hmiss : s.miss core p va = .inl (e, ws, b)) :
    ∃ t, exec (.pageWalk core part va) s = .next t ∧ t.groups = s.groups ∧ t.mem = s.mem ∧
      (e.part = p.num → e.va ≤ va → va < e.va + e.size → t.translate core p va = e.trans va) := by
  have hexec : exec (.pageWalk core part va) s = .next (s.install core p va) := by
    show execPageWalk core part va s = _
    unfold execPageWalk
    simp only [hp]
  obtain ⟨hhead, hgroups, hmem⟩ := install_frame hmiss
  obtain ⟨l, htlb⟩ := List.head?_eq_some_iff.1 hhead
  refine ⟨_, hexec, hgroups, hmem, fun hpart hlo hhi => ?_⟩
  have hhit : ((s.install core p va).core core).tlbHit p.num va = some e := by
    unfold Core.tlbHit
    rw [htlb]
    simp [hpart, hlo, hhi]
  unfold State.translate
  simp only [hhit]

/-- Settles O49: each event by the lemma that says what it leaves. -/
theorem completionEvents : Obligations.CompletionEvents := by
  intro s
  refine ⟨fun g op x w o hx hw ho hr => completion_next hx hw ho hr, fun g op x w o hx hw ho ha => ⟨?_, fun hne => ?_⟩,
    fun g sid c hctx hmove => ?_, fun core part va p hp => ?_⟩
  · exact transformReply_next hx hw ho ha
  · rw [transformReply_found hx hw, if_neg hne]
  · intro passes issues
    obtain ⟨rfl, rfl⟩ := ctx?_ids hctx
    have hpasses : ∀ {e t n}, exec e s = .next t → passedWait s t c n → passes e n := fun he ⟨h, sp, hrest⟩ => ⟨_, h, sp, he, hrest⟩
    refine ⟨fun i n hd => ⟨fun k parity hh hw hr => ?_, fun k m hh hw => ?_⟩, fun hh => ?_, fun hh hfree hfirst => ?_,
      fun hh hfree hfirst => ?_, fun hh hfree hfirst => transformPipeAccept_next hctx hmove hh hfree hfirst⟩
    · have hnext := bwaitPass_next hctx hmove hh hw hr
      refine ⟨fun hpass => ?_, fun hpass => ?_⟩
      · rw [if_pos hpass] at hnext
        have hpassed := passWait_passed (u := s.acquireCore c.w.phys c.w.part 1) hctx hd (by rw [hh]; decide)
          (acquireCore_groups ..) (acquireCore_mem ..)
        exact hpasses hnext (passedWait_logBarrier hpassed
          ((passWait_replay _ c _).trans ((acquireCore_replay ..).trans hr)) (lanesOf c.sp.mask) k)
      · rw [hnext, hpass, if_neg Bool.false_ne_true]
    · have hnext := tlwaitPass_next hctx hmove hh hw
      refine ⟨fun hreached => ?_, fun hshort => ?_⟩
      · rw [if_pos hreached] at hnext
        obtain ⟨hgroups, hmem⟩ := acquireTl_frame s c.w k m
        exact hpasses hnext (passWait_passed hctx hd (by rw [hh]; decide) hgroups hmem)
      · rw [hnext, if_neg (Nat.not_le.2 hshort)]
    · exact congrArg Host.Outcome.next (reissue_next hctx hmove hh rfl)
    · exact congrArg Host.Outcome.next (reissue_next hctx hmove hh (by simp [hfree, hfirst]))
    · exact congrArg Host.Outcome.next (reissue_next hctx hmove hh (by simp [hfree, hfirst]))
  · cases hmiss : s.miss core p va with
    | inr f => exact pageWalk_faults hp hmiss
    | inl e =>
      obtain ⟨e, ws, b⟩ := e
      exact pageWalk_installs hp hmiss

end Sys2Proof.Laws
end

section
/-!
Branches that some lanes take (07 R146; 08 R171): the split divides.
-/
namespace Sys2Proof.Laws
open Sys2Proof.Machine

/-! ### The split that issues -/

/-- The split that issues, as its group holds it: only the safe point that its word passes may not be noted yet. -/
theorem sees_split {s : State} {c : Ctx} (h : s.sees c) : ∃ site, c.g.split? c.sp.id = some { c.sp with site := site } := by
  obtain ⟨sp, site, hsp, hc, -⟩ := sees_sp h
  refine ⟨sp.site, hsp.trans (congrArg some ?_)⟩
  rw [hc]

theorem steers_tables {g P K : Group} (h : g.steers P) (hK : P.tables K) : g.steers K := by
  unfold Group.steers Group.tables at *
  rw [hK, h]

theorem preF_steers (s : State) (c : Ctx) (x : Args) (call : Bool) (g : Group) : g.steers (preF s c x call g) := by
  unfold Group.steers
  rw [preF_frame]

theorem preF_splits (s : State) (c : Ctx) (x : Args) (call : Bool) (g : Group) : (preF s c x call g).splits = g.splits := by
  rw [preF_frame]

/-- The marks of an issue keep every split of the group, with all that they do not touch. -/
theorem exists_noted {s : State} {c : Ctx} {g : Group} {Q : Split → Prop} (hQ : ∀ x, Q x → Q (c.marked s x))
    (h : ∃ b ∈ g.splits, Q b) : ∃ b ∈ (c.noted s g).splits, Q b :=
  exists_modSplit hQ h

theorem length_noted (s : State) (c : Ctx) (g : Group) : (c.noted s g).splits.length = g.splits.length :=
  length_modSplit g c.sp.id _

theorem unspilled_noted {g : Group} (h : g.unspilled) (s : State) (c : Ctx) : (c.noted s g).unspilled :=
  Group.unspilled_modSplit h c.sp.id _ fun _ => rfl

/-- The issuing split in a group that notes the issue. -/
theorem noted_split {g : Group} {c : Ctx} {a : Split} (h : g.split? c.sp.id = some a) (s : State) :
    (c.noted s g).split? c.sp.id = some (c.marked s a) := by
  rw [Ctx.split?_noted, if_pos rfl, h]; rfl

/-! ### The division -/

/-- 08 R171: a branch that some lanes take, where there is room, leaves its group divided. -/
theorem branch_divides {s : State} {c : Ctx} {act : List Nat} {tgt r : Word} {g K : Group} (hg : s.group? c.g.gid = some g)
    (ht : tgt.toNat % 8 = 0) (hrest : c.sp.mask &&& ~~~maskOf act ≠ 0)
    (hd : g.divide (c.w.spill / 64) s.serial c.sp.id (maskOf act) tgt (if r = noRpc then c.sp.rpc else r) = .ok K)
    (hu : g.unspilled) (hK : K.unspilled) :
    s.branch c act tgt r = .moved (s.modGroup c.g.gid (fun _ => K)).bump := by
  have ht' : (tgt.toNat % 8 != 0) = false := by simp [ht]
  unfold State.branch
  simp only [ht', Bool.false_eq_true, if_false, hg, hrest, hd]
  rw [State.putSplits_eq _ _ _ _ _ (records_nil hu hK), State.group?_gid hg]

/-- Settles O18: the division is `divide_flat` or `divide_tree` of the group after the scalar effect; the marks of the issue change
nothing of what they say. -/
theorem divergentBranchesDivide : Obligations.DivergentBranchesDivide := by
  intro row hrow s c x hi hu hlen m r hrest htgt
  obtain ⟨hgroup, hput⟩ := preG s c x hi.1 row.2.2.2
  obtain ⟨site, hsp⟩ := sees_split hi.1
  let P := preF s c x row.2.2.2 c.g
  have hsplits : P.splits = c.g.splits := preF_splits ..
  have hP : P.split? c.sp.id = some { c.sp with site := site } := by
    unfold Group.split?
    rw [hsplits]; exact hsp
  have hPu : P.unspilled := fun sp h => hu sp (hsplits ▸ h)
  have hPlen : P.splits.length ≤ 6 := hsplits ▸ hlen
  have hleaves : ∀ K, P.divide (c.w.spill / 64) (preS s c x row.2.2.2).serial c.sp.id m (row.2.1 c x) r = .ok K → K.unspilled →
      ∃ t, exec (row.1.instr x) s = .next t ∧ s.Steered t c (c.noted s.bump K) ∧ (c.noted s.bump K).unspilled := by
    intro K hd hK
    refine ⟨_, ?_, (moved_steered hi.1 K (steers_tables (preF_steers ..) (Group.tables_divide hd))).2, unspilled_noted hK _ c⟩
    rw [branch_rows row hrow s c x hi, branch_divides hgroup htgt hrest hd hPu hK, hput]
    rfl
  by_cases hflat : c.sp.state = .inTrap ∨ r = c.sp.rpc
  · obtain ⟨K, hd, hK, hn, ⟨a, ha, hrem⟩, hb⟩ := divide_flat hP hPu hPlen hflat
    obtain ⟨t, hexec, hsteer, hun⟩ := hleaves K hd hK
    refine ⟨t, _, hexec, hsteer, hun, ?_⟩
    rw [if_pos hflat]
    exact ⟨by rw [length_noted, hn, hsplits], ⟨_, noted_split ha _, hrem⟩, exists_noted (fun _ h => h) hb⟩
  · obtain ⟨K, hd, hK, hn, ⟨p, hp, hpar⟩, ha, hb⟩ := divide_tree hP hPu hPlen hflat
    obtain ⟨t, hexec, hsteer, hun⟩ := hleaves K hd hK
    refine ⟨t, _, hexec, hsteer, hun, ?_⟩
    rw [if_neg hflat]
    exact ⟨by rw [length_noted, hn, hsplits], ⟨_, noted_split hp _, hpar⟩, exists_noted (fun _ h => h) ha,
      exists_noted (fun _ h => h) hb⟩

end Sys2Proof.Laws
end

section
/-!
MASK, END, NOP, YIELD and WAITEV (08 R174 to R179): lanes that leave their split, and splits that pass or wait.
-/
namespace Sys2Proof.Laws
open Sys2Proof.Machine

/-! ### An instruction that changes its own split -/

theorem modSplit_self (s : State) (g sid : Nat) : s.modSplit g sid id = s := by
  unfold State.modSplit Group.modSplit
  simp only [replaceBy_id]
  exact State.modGroup_id s g

theorem modSplit_modSplit (s : State) (g sid : Nat) (f h : Split → Split) (hf : ∀ y, (f y).id = y.id) :
    (s.modSplit g sid f).modSplit g sid h = s.modSplit g sid (fun y => h (f y)) := by
  unfold State.modSplit
  rw [State.modGroup_modGroup _ _ (fun x => x.modSplit sid f) _ fun _ => rfl]
  simp only [Group.modSplit_modSplit _ _ _ _ hf]

/-- The issuing split as its group holds it once it has been changed. -/
theorem changed_split {s : State} {c : Ctx} (h : s.sees c) (f : Split → Split) (hf : ∀ y, (f y).id = y.id) :
    (∃ site, (c.g.modSplit c.sp.id f).split? c.sp.id = some (f { c.sp with site := site })) ∧
      ∀ k, k ≠ c.sp.id → (c.g.modSplit c.sp.id f).split? k = c.g.split? k := by
  obtain ⟨site, hsp⟩ := sees_split h
  exact ⟨⟨site, split?_set f hf hsp⟩, fun k hk => by rw [Group.split?_modSplit _ _ _ f hf, if_neg hk]⟩

/-- 06 R111: an instruction that has changed its own split passes. -/
theorem passes_steered {s : State} {c : Ctx} (h : s.sees c) (x : Args) (f : Split → Split) :
    s.Steered ((s.modSplit c.g.gid c.sp.id f).finish c x) c (c.after s x (c.g.modSplit c.sp.id f)) := by
  have hpass : (s.modSplit c.g.gid c.sp.id f).finish c x = s.modGroup c.g.gid (fun _ => c.after s x (c.g.modSplit c.sp.id f)) :=
    (passed_modGroup s c x (fun g => g.modSplit c.sp.id f) fun _ => rfl).trans (State.modGroup_congr (State.sees_eq h).1 rfl)
  rw [hpass]
  exact (steered_put h (c.after s x (c.g.modSplit c.sp.id f)) rfl).1

/-- 06 R111: where a split that passes stands, what it changed of itself apart. -/
theorem passes_split {s : State} {c : Ctx} (h : s.sees c) (x : Args) {f : Split → Split}
    (hf : ∀ y, f y = { y with mask := (f y).mask, held := (f y).held }) :
    (∃ site, (c.after s x (c.g.modSplit c.sp.id f)).split? c.sp.id =
        some (c.marked s ((f { c.sp with site := site }).advance (nextWord c.sp x)))) ∧
      ∀ k, k ≠ c.sp.id → (c.after s x (c.g.modSplit c.sp.id f)).split? k = c.g.split? k := by
  obtain ⟨⟨site, hsp⟩, hothers⟩ := changed_split h f fun y => by rw [hf y]
  refine ⟨⟨site, ?_⟩, fun k hk => by rw [split?_after, if_neg hk, hothers k hk]⟩
  rw [split?_after, if_pos rfl, hsp, Option.map_some, moved_here x] <;> rw [hf]
  exact State.sees_hold h

/-- 06 R111: the place and the hold of a split that has passed. -/
theorem marked_place (s : State) {c : Ctx} {sp : Split} (k : Nat) (h : sp.hold ≠ .faulted) :
    ((c.marked s (sp.advance k)).pc, (c.marked s (sp.advance k)).word) = (if k < sp.clause.length then (sp.pc, k) else (sp.nextPc, 0)) ∧
      (c.marked s (sp.advance k)).hold = .none := by
  obtain ⟨hplace, -, -, -, -, -, -, hhold⟩ := advance_place sp k
  exact ⟨hplace, by simp [Ctx.marked, hhold, h]⟩

/-! ### MASK and END -/

/-- 08 R174, R175: a split that some lanes leave, held for its RPC or ended. -/
def withoutLanes (m : LaneMask) (hold : Bool) (sp : Split) : Split :=
  { sp with mask := sp.mask &&& ~~~m, held := if hold then sp.held ||| m else sp.held }

theorem removeLanes_some {s : State} {c : Ctx} {m : LaneMask} (hold : Bool) (h : c.sp.mask &&& ~~~m ≠ 0) :
    s.removeLanes c m hold = .done (s.modSplit c.g.gid c.sp.id (withoutLanes m hold)) :=
  if_neg h

/-- 07 R150: the last lane leaves. -/
theorem removeLanes_all {s : State} {c : Ctx} {m : LaneMask} (hs : s.sees c) (hu : c.g.unspilled) (hold : Bool)
    (h : c.sp.mask &&& ~~~m = 0) : s.removeLanes c m hold =
      .moved (s.modGroup c.g.gid (fun _ => (c.g.modSplit c.sp.id (withoutLanes m hold)).vanish s.serial c.sp.id)).bump := by
  have hgroup : (s.modSplit c.g.gid c.sp.id (withoutLanes m hold)).group? c.g.gid = some (c.g.modSplit c.sp.id (withoutLanes m hold)) :=
    group?_set (fun g => g.modSplit c.sp.id (withoutLanes m hold)) (fun _ => rfl) (State.sees_eq hs).1
  have hold' := Group.unspilled_modSplit hu c.sp.id (withoutLanes m hold) fun _ => rfl
  refine (if_pos h).trans (congrArg Eff.moved ?_)
  show (s.modSplit c.g.gid c.sp.id (withoutLanes m hold)).vanishSplit c = _
  unfold State.vanishSplit
  simp only [hgroup]
  rw [State.putSplits_eq _ _ _ _ _ (records_nil hold' (Group.unspilled_vanish hold' _ _))]
  exact congrArg State.bump (State.modGroup_modGroup s c.g.gid (fun g => g.modSplit c.sp.id (withoutLanes m hold)) _ fun _ => rfl)

/-- 08 R174, R175: lanes leave their split, and it passes. -/
theorem removeLanes_passes {s : State} {c : Ctx} {m : LaneMask} (hs : s.sees c) (x : Args) (hold : Bool) (h : c.sp.mask &&& ~~~m ≠ 0) :
    ∃ t g, settleEff c x s (s.removeLanes c m hold) = .next t ∧ s.Steered t c g ∧ g.s = c.g.s ∧
      ∃ sp, g.split? c.sp.id = some sp ∧ sp.mask = c.sp.mask &&& ~~~m ∧ sp.held = (if hold then c.sp.held ||| m else c.sp.held) ∧
        (sp.pc, sp.word) = (if nextWord c.sp x < c.sp.clause.length then (c.sp.pc, nextWord c.sp x) else (c.sp.nextPc, 0)) ∧
        sp.rpc = c.sp.rpc ∧ sp.parent = c.sp.parent ∧ sp.state = c.sp.state ∧ ∀ k, k ≠ c.sp.id → g.split? k = c.g.split? k := by
  obtain ⟨⟨site, hsp⟩, hothers⟩ := passes_split hs x (f := withoutLanes m hold) fun _ => rfl
  obtain ⟨hplace, hmask, hheld, hrpc, hparent, hstate, -, -⟩ :=
    advance_place (withoutLanes m hold { c.sp with site := site }) (nextWord c.sp x)
  refine ⟨_, _, ?_, passes_steered hs x (withoutLanes m hold), rfl, _, hsp, hmask, hheld, hplace, hrpc, hparent, hstate, hothers⟩
  rw [removeLanes_some hold h]
  rfl

/-- 07 R150: the last lane leaves, and a split with no parent and no RPC leaves its group. -/
theorem removeLanes_vanishes {s : State} {c : Ctx} {m : LaneMask} (hs : s.sees c) (hu : c.g.unspilled) (x : Args) (hold : Bool)
    (h : c.sp.mask &&& ~~~m = 0) :
    ∃ t g, settleEff c x s (s.removeLanes c m hold) = .next t ∧ s.Steered t c g ∧ g.s = c.g.s ∧
      (c.sp.parent = none → c.sp.rpc = noRpc → g.split? c.sp.id = none) := by
  let K := (c.g.modSplit c.sp.id (withoutLanes m hold)).vanish s.serial c.sp.id
  have htables : c.g.tables K := Group.tables_trans (Group.tables_modSplit ..) (Group.tables_vanish ..)
  refine ⟨_, c.noted s.bump K, ?_, (moved_steered hs K (Group.tables_steers htables)).2, ?_, fun hp hr => ?_⟩
  · rw [removeLanes_all hs hu hold h]
    rfl
  · show K.s = c.g.s
    rw [htables]
  · obtain ⟨⟨site, hsp⟩, -⟩ := changed_split hs (withoutLanes m hold) fun _ => rfl
    have hgone : K.split? c.sp.id = none := Group.vanish_frees hsp hr hp
    rw [Ctx.split?_noted, if_pos rfl, hgone]; rfl

theorem mask_eq {s : State} {c : Ctx} {x : Args} (hi : s.issues .maskLanes x c) :
    exec (.maskLanes x) s = settleEff c x s (s.removeLanes c
      (maskOf (c.active x) &&& if x.mod.toNat % 2 = 1 then BitVec.ofNat 64 (c.s2 x.a.toNat) else BitVec.allOnes 64)
      (c.sp.parent.isSome || c.sp.rpc != noRpc)) := by
  show execMaskLanes x s = _
  unfold execMaskLanes
  rw [issue_eq hi]

theorem end_eq {s : State} {c : Ctx} {x : Args} (hi : s.issues .endLanes x c) :
    exec (.endLanes x) s = settleEff c x s (s.removeLanes c (maskOf (c.active x)) false) := by
  show execEndLanes x s = _
  unfold execEndLanes
  rw [issue_eq hi]

/-- Settles O20: MASK and END are `removeLanes` of their lanes, which leaves the split some lanes or none. -/
theorem maskAndEndRemoveLanes : Obligations.MaskAndEndRemoveLanes := by
  intro s c x hold removes
  have hremoves : ∀ (i : Instr) (m : LaneMask) (keep : Bool), s.sees c → exec i s = settleEff c x s (s.removeLanes c m keep) →
      removes i m keep := by
    intro i m keep hs he
    refine ⟨?_, fun hm => ?_⟩
    · rw [he]
      unfold State.removeLanes
      dsimp only
      split <;> exact ⟨_, rfl⟩
    · rw [he]
      by_cases hrest : c.sp.mask &&& ~~~m = 0
      · obtain ⟨t, g, hexec, hsteer, hregs, hgone⟩ := removeLanes_vanishes hs (hm.resolve_left fun h => h hrest) x keep hrest
        exact ⟨t, g, hexec, hsteer, hregs, by rw [if_neg fun h => h hrest]; exact hgone⟩
      · obtain ⟨t, g, hexec, hsteer, hregs, hsplit⟩ := removeLanes_passes hs x keep hrest
        exact ⟨t, g, hexec, hsteer, hregs, by rw [if_pos hrest]; exact hsplit⟩
  exact ⟨fun hi => hremoves _ _ _ hi.1 (mask_eq hi), fun hi => hremoves _ _ _ hi.1 (end_eq hi)⟩

/-! ### NOP and YIELD -/

theorem nop_next {s : State} {c : Ctx} {x : Args} (hi : s.issues .nop x c) : exec (.nop x) s = .next (s.finish c x) := by
  show execNop x s = _
  unfold execNop
  rw [issueDone_eq hi]
  rfl

/-- 08 R177: YIELD passes, then counts its split as the last and its group as the youngest. -/
theorem yield_next {s : State} {c : Ctx} {x : Args} (hi : s.issues .yield x c) :
    exec (.yield x) s = .next ((s.finish c x).modGroup c.g.gid (fun g =>
      { (g.modSplit c.sp.id (fun sp => { sp with yielded := true })) with yielded := true })) := by
  obtain ⟨-, -, -, hcur, -⟩ := State.sees_eq hi.1
  show execYield x s = _
  unfold execYield
  rw [issue_eq hi, hcur]
  rfl

/-! ### WAITEV -/

/-- 08 R178: an in-trap split whose condition holds passes its WAITEV. -/
theorem waitEvent_passes {s : State} {c : Ctx} (hs : s.sees c) (x : Args) {kind reg : Nat} {val : DWord} (ht : c.sp.state = .inTrap)
    (he : s.eventHolds c.w c.g kind reg val = true) :
    ∃ t g sp, settleEff c x s (s.waitEvent c kind reg val) = .next t ∧ s.Steered t c g ∧ g.s = c.g.s ∧ g.split? c.sp.id = some sp ∧
      (∀ k, k ≠ c.sp.id → g.split? k = c.g.split? k) ∧ sp.mask = c.sp.mask ∧ sp.state = .inTrap ∧ sp.hold = .none ∧
      (sp.pc, sp.word) = (if nextWord c.sp x < c.sp.clause.length then (c.sp.pc, nextWord c.sp x) else (c.sp.nextPc, 0)) := by
  obtain ⟨⟨site, hsp⟩, hothers⟩ := passes_split hs x (f := id) fun _ => rfl
  obtain ⟨-, hmask, -, -, -, hstate, -, -⟩ := advance_place (id { c.sp with site := site }) (nextWord c.sp x)
  obtain ⟨hplace, hhold⟩ := marked_place s (c := c) (sp := id { c.sp with site := site }) (nextWord c.sp x) (State.sees_hold hs)
  have hsteer := passes_steered hs x id
  rw [modSplit_self] at hsteer
  refine ⟨_, _, _, ?_, hsteer, rfl, hsp, hothers, hmask, hstate.trans ht, hhold, hplace⟩
  simp only [State.waitEvent, ht, he, beq_self_eq_true, if_true]
  rfl

/-- 08 R178: an in-trap split whose condition does not hold is held at its WAITEV. -/
theorem waitEvent_holds {s : State} {c : Ctx} (hs : s.sees c) (x : Args) {kind reg : Nat} {val : DWord} (ht : c.sp.state = .inTrap)
    (he : s.eventHolds c.w c.g kind reg val = false) :
    ∃ t g sp, settleEff c x s (s.waitEvent c kind reg val) = .next t ∧ s.Steered t c g ∧ g.s = c.g.s ∧ g.split? c.sp.id = some sp ∧
      (∀ k, k ≠ c.sp.id → g.split? k = c.g.split? k) ∧
      ∃ site, sp = { c.sp with site := site, waitOn := some (256 * kind + reg, val.toNat), hold := .event } := by
  let f : Split → Split := fun sp => { sp with waitOn := some (256 * kind + reg, val.toNat), hold := .event }
  obtain ⟨⟨site, hsp⟩, hothers⟩ := changed_split hs f fun _ => rfl
  refine ⟨_, _, _, ?_, (steered_put hs (c.g.modSplit c.sp.id f) rfl).1, rfl, hsp, hothers, site, rfl⟩
  simp only [State.waitEvent, ht, he, beq_self_eq_true, Bool.false_eq_true, if_true, if_false, settleEff]
  rw [modSplit_const (State.sees_eq hs).1, modSplit_modSplit s _ _ (fun sp => { sp with waitOn := some (256 * kind + reg, val.toNat) })
    _ fun _ => rfl]

/-- 08 R178: a ready split parks at the next clause with its condition. -/
theorem waitEvent_parks {s : State} {c : Ctx} (hs : s.sees c) (x : Args) (kind reg : Nat) (val : DWord) (ht : c.sp.state ≠ .inTrap) :
    ∃ t g sp, settleEff c x s (s.waitEvent c kind reg val) = .next t ∧ s.Steered t c g ∧ g.s = c.g.s ∧ g.split? c.sp.id = some sp ∧
      (∀ k, k ≠ c.sp.id → g.split? k = c.g.split? k) ∧ sp.mask = c.sp.mask ∧ sp.state = .waitingEvent ∧ sp.pc = c.sp.nextPc ∧
      sp.word = 0 ∧ sp.evKind = kind ∧ sp.evReg = reg ∧ sp.evVal = val := by
  let f : Split → Split := fun sp => { sp.goto sp.nextPc with evKind := kind, evReg := reg, evVal := val, state := .waitingEvent }
  obtain ⟨⟨site, hsp⟩, hothers⟩ := changed_split hs f fun _ => rfl
  refine ⟨_, _, _, ?_, (moved_steered hs (c.g.modSplit c.sp.id f) rfl).1, rfl, noted_split hsp s,
    fun k hk => by rw [Ctx.split?_noted, if_neg hk, hothers k hk], rfl, rfl, rfl, rfl, rfl, rfl, rfl⟩
  have htrap : (c.sp.state == .inTrap) = false := by simpa using ht
  simp only [State.waitEvent, htrap, Bool.false_eq_true, if_false, modSplit_const (State.sees_eq hs).1]
  rfl

theorem waitevTl_eq {s : State} {c : Ctx} {x : Args} (hi : s.issues .waitevTl x c) :
    exec (.waitevTl x) s = settleEff c x s (s.waitEvent c 1 x.a.toNat (BitVec.ofNat 64 (c.s2 x.b.toNat))) := by
  show execWaitevTl x s = _
  unfold execWaitevTl
  rw [issue_eq hi]

theorem waitevFlag_eq {s : State} {c : Ctx} {x : Args} (hi : s.issues .waitevFlag x c) :
    exec (.waitevFlag x) s = settleEff c x s (s.waitEvent c 3 x.a.toNat 0) := by
  show execWaitevFlag x s = _
  unfold execWaitevFlag
  rw [issue_eq hi]

/-- 08 R178: WAITEV.bar looks at the offset of its barrier first. -/
theorem waitevBar_eq {s : State} {c : Ctx} {x : Args} (hi : s.issues .waitevBar x c) :
    exec (.waitevBar x) s = settleEff c x s (
      if c.w.barrierOffset (c.s x.a.toNat).toNat = true then
        s.waitEvent c 2 0 (BitVec.ofNat 64 ((c.s x.a.toNat).toNat + 2 ^ 32 * ((c.s x.b.toNat).toNat % 2)))
      else .trap s (c.allLanes 0x500A none none) 0) := by
  show execWaitevBar x s = _
  unfold execWaitevBar
  rw [issue_eq hi]
  simp only [Bool.not_eq_true', ← Bool.not_eq_true, ite_not]

/-- Settles O21: NOP and YIELD by their equations; each WAITEV is `waitEvent` of its condition, which passes, holds or parks its
split. -/
theorem nopYieldAndWaitev : Obligations.NopYieldAndWaitev := by
  refine ⟨fun s c x => ⟨nop_next, yield_next⟩, fun s c x => ?_⟩
  intro waits
  have hwaits : ∀ (i : Instr) (kind reg : Nat) (val : DWord), s.sees c → exec i s = settleEff c x s (s.waitEvent c kind reg val) →
      waits i kind reg val := by
    intro i kind reg val hs he
    unfold waits
    rw [he]
    by_cases ht : c.sp.state = .inTrap
    · simp only [ht, if_true]
      cases hev : s.eventHolds c.w c.g kind reg val with
      | true =>
        obtain ⟨t, g, sp, hexec, hsteer, hregs, hsp, hothers, hmask, hstate, hhold, hplace⟩ := waitEvent_passes hs x ht hev
        exact ⟨t, g, sp, hexec, hsteer, hregs, hsp, hothers, hmask, hstate, hhold, hplace⟩
      | false =>
        obtain ⟨t, g, _, hexec, hsteer, hregs, hsp, hothers, site, rfl⟩ := waitEvent_holds hs x ht hev
        exact ⟨t, g, _, hexec, hsteer, hregs, hsp, hothers, rfl, ht, rfl, rfl, rfl, rfl, rfl, rfl, rfl⟩
    · simp only [ht, if_false]
      exact waitEvent_parks hs x kind reg val ht
  refine ⟨fun hi => hwaits _ _ _ _ hi.1 (waitevTl_eq hi), fun hi => hwaits _ _ _ _ hi.1 (waitevFlag_eq hi), fun hi => ?_⟩
  intro off
  have hbar := waitevBar_eq hi
  split
  · next hoff =>
    rw [if_pos hoff] at hbar
    exact hwaits _ _ _ _ hi.1 hbar
  · next hoff =>
    rw [if_neg hoff] at hbar
    exact hbar

end Sys2Proof.Laws
end

section
/-!
Traps that are not fatal (22 R405 to R408; 07 R151): the split goes to its handler, or the lanes that trap leave it.
-/
namespace Sys2Proof.Laws
open Sys2Proof.Machine

/-- 07 R151: a split sent to a handler in trap frame `k`, to come back to the clause at `pc`. -/
def sentToHandler (handler pc : Word) (k : Nat) (sp : Split) : Split :=
  { (sp.goto handler) with state := .inTrap, resume := pc, frame := some k, hold := .none, skipRpc := false }

/-- 07 R151: the split of the lanes that trap, whatever its entry gives it. -/
def trappedChild (handler : Word) (sp : Split) (k : Nat) (m : LaneMask) (b : Split) : Prop :=
  ∃ id slot spilled queuedAt nchild, b = { sentToHandler handler sp.pc k sp with
    mask := m, held := 0, nchild := nchild, id := id, slot := slot, spilled := spilled, queuedAt := queuedAt }

/-- A group that differs in its splits, trap frames and reservations at most. -/
def trapTables (g h : Group) : Prop := h = { g with splits := h.splits, frames := h.frames, resv := h.resv }

theorem trapTables_trans {a b d : Group} (h1 : trapTables a b) (h2 : trapTables b d) : trapTables a d := by
  unfold trapTables at *
  rw [h2, h1]

theorem tables_trapTables {g h : Group} (e : g.tables h) : trapTables g h := by
  unfold Group.tables at e
  unfold trapTables
  rw [e]

/-- 22 R407, 10 R244: a group that has taken a trap frame, the lanes that enter the handler without their reservations. -/
def withFrame (g : Group) (m : LaneMask) (f : TrapFrame) : Group := { (g.dropResv m 4) with frames := g.frames ++ [f] }

theorem withFrame_tables (g : Group) (m : LaneMask) (f : TrapFrame) :
    trapTables g (withFrame g m f) ∧ (withFrame g m f).splits = g.splits ∧ (withFrame g m f).frames = g.frames ++ [f] :=
  ⟨rfl, rfl, rfl⟩

theorem split?_congr {g h : Group} (e : g.splits = h.splits) (k : Nat) : g.split? k = h.split? k := by
  unfold Group.split?
  rw [e]

/-! ### The count of children -/

theorem countChild_frame (g : Group) (p : Option Nat) (f : Nat → Nat) :
    g.countChild p f = { g with splits := (g.countChild p f).splits } := by
  cases p <;> rfl

theorem length_countChild (g : Group) (p : Option Nat) (f : Nat → Nat) : (g.countChild p f).splits.length = g.splits.length := by
  cases p with
  | none => rfl
  | some p => exact length_modSplit g p _

/-- A count of children leaves what else is true of a split. -/
theorem exists_countChild {g : Group} {p : Option Nat} {f : Nat → Nat} {Q : Split → Prop}
    (hQ : ∀ x n, Q x → Q { x with nchild := n }) (h : ∃ b ∈ g.splits, Q b) : ∃ b ∈ (g.countChild p f).splits, Q b := by
  cases p with
  | none => exact h
  | some p => exact exists_modSplit (fun x hx => hQ x _ hx) h

/-! ### Forming an in-trap split -/

section Formed
variable {g : Group} {sid k : Nat} {sp : Split} {m : LaneMask}

/-- 07 R151: all lanes trap: the split itself goes to the handler. -/
theorem formTrap_whole (hsp : g.split? sid = some sp) (hk : g.freeFrame = some k) (hm : sp.mask &&& ~~~m = 0) (hu : g.unspilled)
    (cap n : Nat) (fr : Nat → TrapFrame) :
    ∃ K, g.formTrap cap n sid m fr = .ok K ∧ trapTables g K ∧ K.frames = g.frames ++ [fr k] ∧ K.unspilled ∧
      K.split? sid = some (sentToHandler g.handler sp.pc k sp) ∧ ∀ j, j ≠ sid → K.split? j = g.split? j := by
  obtain ⟨htables, hsplits, hframes⟩ := withFrame_tables g m (fr k)
  let enter := sentToHandler g.handler sp.pc k
  have hmod : ∀ j, ((withFrame g m (fr k)).modSplit sid enter).split? j = if j = sid then some (enter sp) else g.split? j := fun j => by
    rw [Group.split?_modSplit _ sid j enter fun _ => rfl, split?_congr hsplits, split?_congr hsplits, hsp]; rfl
  refine ⟨(withFrame g m (fr k)).modSplit sid enter, ?_, trapTables_trans htables (tables_trapTables (Group.tables_modSplit ..)), hframes,
    Group.unspilled_modSplit (fun x hx => hu x (hsplits ▸ hx)) sid enter fun _ => rfl, ?_, fun j hj => ?_⟩
  · unfold Group.formTrap
    simp only [hsp, hk, hm, beq_self_eq_true, if_true]
    rfl
  · rw [hmod, if_pos rfl]
  · rw [hmod, if_neg hj]

/-- 07 R151: some lanes trap, with a resident entry free: they leave the split for one of their own. -/
theorem formTrap_part (hsp : g.split? sid = some sp) (hk : g.freeFrame = some k) (hm : sp.mask &&& ~~~m ≠ 0) (hu : g.unspilled)
    (hlen : g.splits.length ≤ 7) (cap n : Nat) (fr : Nat → TrapFrame) :
    ∃ K, g.formTrap cap n sid m fr = .ok K ∧ trapTables g K ∧ K.unspilled ∧ K.splits.length = g.splits.length + 1 ∧
      (∃ nchild, K.split? sid = some { withoutLanes m false sp with nchild := nchild }) ∧
      ∃ b ∈ K.splits, trappedChild g.handler sp k m b := by
  obtain ⟨htables, hsplits, -⟩ := withFrame_tables g m (fr k)
  let left := (withFrame g m (fr k)).modSplit sid (withoutLanes m false)
  let child : Split := { sentToHandler g.handler sp.pc k sp with mask := m, held := 0, nchild := 0 }
  have hleft : left.unspilled := Group.unspilled_modSplit (fun x hx => hu x (hsplits ▸ hx)) sid (withoutLanes m false) fun _ => rfl
  have hsp' : left.split? sid = some (withoutLanes m false sp) :=
    split?_set (withoutLanes m false) (fun _ => rfl) ((split?_congr hsplits sid).trans hsp)
  have hm' : (sp.mask &&& ~~~m == 0) = false := by simpa using hm
  have hroom : (withFrame g m (fr k)).room cap n [sid] = .ok (withFrame g m (fr k)) := room_ok (hsplits ▸ hlen) cap n [sid]
  refine ⟨(left.addSplit child).countChild sp.parent (· + 1), ?_, ?_, Group.unspilled_countChild (unspilled_addSplit hleft child) _ _, ?_,
    countChild_split? _ sp.parent sid (split?_addSplit child hsp'), ?_⟩
  · unfold withFrame at hroom
    unfold Group.formTrap
    simp only [hsp, hk, hm', Bool.false_eq_true, if_false, hroom]
    rfl
  · exact trapTables_trans htables (tables_trapTables (Group.tables_trans (Group.tables_modSplit ..)
      (Group.tables_trans (Group.tables_addSplit ..) (Group.tables_countChild ..))))
  · simp only [length_countChild, Group.addSplit, List.length_append, List.length_singleton, left, length_modSplit, hsplits]
  · refine exists_countChild ?_ ⟨_, List.mem_append_right _ (List.mem_singleton.2 rfl), _, _, _, _, _, rfl⟩
    rintro x n ⟨num, slot, spilled, queuedAt, -, rfl⟩
    exact ⟨num, slot, spilled, queuedAt, n, rfl⟩

end Formed

/-! ### What a trap leaves of its group -/

/-- The group as a trap finds it: the safe point passed is noted on the split. -/
def sited (c : Ctx) : Group := c.g.modSplit c.sp.id (fun x => { x with site := c.sp.site })

theorem sited_split {s : State} {c : Ctx} (h : s.sees c) : (sited c).split? c.sp.id = some c.sp := by
  obtain ⟨site, hsp⟩ := sees_split h
  exact split?_set (y := { c.sp with site := site }) (fun x => { x with site := c.sp.site }) (fun _ => rfl) hsp

theorem sited_others (c : Ctx) {j : Nat} (h : j ≠ c.sp.id) : (sited c).split? j = c.g.split? j := by
  unfold sited
  rw [Group.split?_modSplit _ _ _ (fun x => { x with site := c.sp.site }) (fun _ => rfl), if_neg h]

theorem sited_unspilled {c : Ctx} (h : c.g.unspilled) : (sited c).unspilled :=
  Group.unspilled_modSplit h c.sp.id (fun x => { x with site := c.sp.site }) fun _ => rfl

/-- 22 R405: what a trap that is not fatal leaves of its group: its new table, and all else of it but what memory notes there. -/
theorem takeTrap_formed {s : State} {c : Ctx} {ts : List LaneTrap} {tw : TrapWord} {code : Nat} (h : s.sees c)
    (h1 : codesOf ts = [code]) (h2 : alwaysFatal code = false) (h3 : c.sp.state ≠ .inTrap) (h4 : c.g.handler ≠ noRpc)
    (h5 : c.g.unspilled) {K : Group} (hK : (sited c).formTrap (c.w.spill / 64) s.serial c.sp.id (lanesOfCode ts code)
      (fun k => trapFrame k code ts c.w.legacy c.sp.half c.sp.pc tw) = .ok K) (hu : K.unspilled) (ht : trapTables (sited c) K) :
    ∃ g, (s.takeTrap c ts tw).group? c.g.gid = some g ∧ g.splits = K.splits ∧ g.frames = K.frames ∧ g.v = c.g.v ∧
      g.vtags = c.g.vtags ∧ g.s = c.g.s ∧ g.p = c.g.p ∧ g.flags = c.g.flags ∧ c.g.sameModes g ∧ g.ops = c.g.ops := by
  have hself : K = { c.g with splits := K.splits, frames := K.frames, resv := K.resv } :=
    trapTables_trans (tables_trapTables (Group.tables_modSplit ..)) ht
  obtain ⟨g, hg, he⟩ := takeTrap_ok h h1 h2 h3 h4 hK hu (by rw [hself]) h5
  obtain ⟨resv, touched, victims, rfl⟩ : ∃ resv touched victims,
      g = { c.g with splits := K.splits, frames := K.frames, resv := resv, touched := touched, victims := victims } :=
    ⟨g.resv, g.touched, g.victims, by rw [he, hself]⟩
  exact ⟨_, hg, rfl, rfl, rfl, rfl, rfl, rfl, rfl, ⟨rfl, rfl, rfl, rfl⟩, rfl⟩

/-- 22 R408, R409: what a trap frame keeps. -/
theorem trapFrame_fields (k code : Nat) (ts : List LaneTrap) (legacy half : Bool) (pc : Word) (tw : TrapWord) :
    let f := trapFrame k code ts legacy half pc tw
    f.num = k ∧ f.code.toNat = code % 2 ^ 16 ∧ f.resume = pc ∧ f.word = tw.word ∧ f.iword = tw.iword ∧
      (f.retry = true ↔ code ≠ 0x5006) ∧ f.aux = (if code = 0x5006 then tw.aux else 0) ∧
      f.lanes = (if legacy && half then lanesOfCode ts code >>> 32 else lanesOfCode ts code) := by
  refine ⟨rfl, BitVec.toNat_ofNat _ _, rfl, rfl, rfl, ?_, ?_, rfl⟩
  · simp only [trapFrame, bne_iff_ne]
  · simp only [trapFrame, beq_iff_eq]

/-- Settles O23: the split is sent to its handler by `formTrap_whole`, in the frame that `trapFrame` gives. -/
theorem trapEntersHandler : Obligations.TrapEntersHandler := by
  intro s c ts tw code k hs hcode hfatal hstate hhandler hframe hu hall
  let frame : Nat → TrapFrame := fun k => trapFrame k code ts c.w.legacy c.sp.half c.sp.pc tw
  obtain ⟨K, hform, htables, hframes, hKu, hsp, hothers⟩ :=
    formTrap_whole (sited_split hs) hframe hall (sited_unspilled hu) (c.w.spill / 64) s.serial frame
  obtain ⟨g, hg, hsplits, hfr, hv, hvtags, hregs, hp, hflags, hmodes, hops⟩ :=
    takeTrap_formed hs hcode hfatal hstate hhandler hu hform hKu htables
  obtain ⟨hnum, hfcode, hres, hword, hiword, hretry, haux, hlanes⟩ := trapFrame_fields k code ts c.w.legacy c.sp.half c.sp.pc tw
  have hlist : g.frames = c.g.frames ++ [frame k] := hfr.trans hframes
  refine ⟨g, sentToHandler c.g.handler c.sp.pc k c.sp, frame k, hg, (split?_congr hsplits _).trans hsp, ?_, rfl, rfl, rfl, rfl, rfl, rfl,
    rfl, rfl, rfl, rfl, hnum, hfcode, hres, hword, hiword, hretry, haux, hlanes, hlist, hv, hvtags, hregs, hp, hflags, hmodes, hops,
    fun j hj => ?_⟩
  · rw [hlist]
    exact List.mem_append_right _ (List.mem_singleton.2 rfl)
  · exact (split?_congr hsplits j).trans ((hothers j hj).trans (sited_others c hj))

/-- Settles O24: the lanes leave their split by `formTrap_part`; a count of children changes nothing else of either split. -/
theorem trapDividesLanes : Obligations.TrapDividesLanes := by
  intro s c ts tw code k hs hcode hfatal hstate hhandler hframe hu hlen hsome
  have hsited : (sited c).splits.length = c.g.splits.length := length_modSplit ..
  obtain ⟨K, hform, htables, hKu, hcount, ⟨nchild, hsp⟩, b, hb, hchild⟩ :=
    formTrap_part (sited_split hs) hframe hsome (sited_unspilled hu) (Nat.le_trans (Nat.le_of_eq hsited) hlen) (c.w.spill / 64) s.serial
      (fun k => trapFrame k code ts c.w.legacy c.sp.half c.sp.pc tw)
  obtain ⟨g, hg, hsplits, -, hv, hvtags, hregs, hp, hflags, hmodes, -⟩ :=
    takeTrap_formed hs hcode hfatal hstate hhandler hu hform hKu htables
  have hmem : b ∈ g.splits := hsplits ▸ hb
  obtain ⟨num, slot, spilled, queuedAt, count, rfl⟩ := hchild
  exact ⟨g, _, _, hg, (split?_congr hsplits _).trans hsp, hmem, by rw [hsplits, hcount, hsited], rfl, rfl, rfl, rfl, rfl, rfl,
    rfl, rfl, rfl, rfl, rfl, rfl, rfl, rfl, rfl, rfl, rfl, hv, hvtags, hregs, hp, hflags, hmodes⟩

end Sys2Proof.Laws
end

section
/-!
The scheduler's own steps (07 R153, R156, R160, R162, R166, R167).
-/
namespace Sys2Proof.Laws
open Sys2Proof.Machine

/-! ### Wakes and the guard -/

/-- 07 R156: a split that waits becomes ready once its condition holds. -/
theorem eventWake_waiting {s : State} {g sid : Nat} {c : Ctx} (hctx : s.ctx? g sid = some c) (hmove : c.mayMove = true)
    (hw : c.sp.state = .waitingEvent) : exec (.eventWake g sid) s =
      .next (if s.eventHolds c.w c.g c.sp.evKind c.sp.evReg c.sp.evVal then s.modSplit g sid Split.wake else s) := by
  show execEventWake g sid s = _
  unfold execEventWake
  simp only [hctx, hmove, hw, Bool.not_true, Bool.false_eq_true, if_false, beq_self_eq_true, if_true]

/-- 08 R178: an in-trap split held at its WAITEV passes it once its condition holds. -/
theorem eventWake_held {s : State} {g sid k v : Nat} {c : Ctx} (hctx : s.ctx? g sid = some c) (hmove : c.mayMove = true)
    (ht : c.sp.state = .inTrap) (hh : c.sp.hold = .event) (hw : c.sp.waitOn = some (k, v)) : exec (.eventWake g sid) s =
      .next (if s.eventHolds c.w c.g (k / 256) (k % 256) (BitVec.ofNat 64 v) then s.passWait c else s) := by
  have hstate : (c.sp.state == .waitingEvent) = false := by rw [ht]; rfl
  show execEventWake g sid s = _
  unfold execEventWake
  simp only [hctx, hmove, hstate, hh, hw, Bool.not_true, Bool.false_eq_true, if_false]

/-- 08 R178: past its WAITEV the split runs on in its handler. -/
theorem eventWake_passes {s : State} {c : Ctx} {k v n : Nat} {i : Instr} (hctx : s.ctx? c.g.gid c.sp.id = some c)
    (hmove : c.mayMove = true) (ht : c.sp.state = .inTrap) (hh : c.sp.hold = .event) (hw : c.sp.waitOn = some (k, v))
    (hd : decodeAt c.sp.clause c.sp.word = .ok (i, n))
    (hb : s.eventHolds c.w c.g (k / 256) (k % 256) (BitVec.ofNat 64 v) = true) :
    ∃ t g sp, exec (.eventWake c.g.gid c.sp.id) s = .next t ∧ t.group? c.g.gid = some g ∧ g.split? c.sp.id = some sp ∧
      sp.hold = .none ∧ sp.state = .inTrap ∧
      (sp.pc, sp.word) = (if n < c.sp.clause.length then (c.sp.pc, n) else (c.sp.nextPc, 0)) ∧ c.g.sameRegs g ∧
      g.flags = c.g.flags ∧ t.mem = s.mem := by
  obtain ⟨g, sp, hg, hsp, hhold, hstate, -, hplace, hregs, hflags, hmem⟩ :=
    passWait_passed (u := s) hctx hd (by rw [hh]; decide) rfl rfl
  refine ⟨_, g, sp, ?_, hg, hsp, hhold, hstate.trans ht, hplace, hregs, hflags, hmem⟩
  rw [eventWake_held hctx hmove ht hh hw, if_pos hb]

/-- 07 R160: the guard marks an issue-ready split that it has not marked. -/
theorem starvationGuard_next {s : State} {g sid : Nat} {c : Ctx} (hctx : s.ctx? g sid = some c) :
    exec (.starvationGuard g sid) s = .next (if c.issueReady = true ∧ c.sp.starved = none then
      (s.modSplit g sid (fun sp => { sp with starved := some s.serial })).bump else s) := by
  show execStarvationGuard g sid s = _
  unfold execStarvationGuard
  simp only [hctx, Bool.and_eq_true, Option.isNone_iff_eq_none]

/-! ### Spill records -/

/-- 07 R153: the accesses of spill records that a changed split table makes. -/
def spillPlan (x y : Group) : List (Nat × Option (List Byte)) :=
  (recordsTaken x y).map (fun r => (r.slot, none)) ++ (recordsChanged x y).map (fun r => (r.slot, some r.recordBytes))

theorem group?_put {s : State} {k : Nat} {g K : Group} (hg : s.group? k = some g) (hK : K.gid = k) :
    (s.modGroup k (fun _ => K)).group? k = some K := by
  unfold State.group? State.modGroup at *
  rw [find?_replaceBy_self _ _ _ fun _ _ => by simp [hK], hg]; rfl

/-- 07 R152: spill records that meet no fault. -/
theorem putSplits_accesses {s : State} {w : Workgroup} {x y : Group}
    (hok : ((s.modGroup x.gid (fun _ => y)).bump.spillAll w x.gid (s.spillBase w x) (spillPlan x y)).2 = none) (sid : Nat) :
    s.putSplits w sid x y = ((s.modGroup x.gid (fun _ => y)).bump.spillAll w x.gid (s.spillBase w x) (spillPlan x y)).1 := by
  unfold State.putSplits
  unfold spillPlan at *
  dsimp only
  split
  · next hnil => rw [List.isEmpty_iff.1 hnil]; rfl
  · split
    · next heq => rw [heq]
    · next heq => rw [heq] at hok; cases hok

/-- 07 R152, R153: a changed split table, where the spill records that it reads and writes meet no fault. -/
theorem putSplits_group {s : State} {w : Workgroup} {x y : Group} (hx : s.group? x.gid = some x) (hy : x.tables y)
    (hok : ((s.modGroup x.gid (fun _ => y)).bump.spillAll w x.gid (s.spillBase w x) (spillPlan x y)).2 = none) (sid : Nat) :
    ∃ f, (s.putSplits w sid x y).group? x.gid = some f ∧ f.splits = y.splits ∧ x.sameRegs f ∧ f.flags = x.flags ∧
      (s.putSplits w sid x y).wgs = s.wgs := by
  have hcalm : (s.putSplits w sid x y).Calm (s.modGroup x.gid (fun _ => y)).bump.placed := by
    rw [putSplits_accesses hok]
    exact spillAll_calm _ w x.gid _ _ rfl
  have hput : (s.modGroup x.gid (fun _ => y)).bump.group? x.gid = some y := group?_put hx (by rw [hy])
  obtain ⟨f, hf, he⟩ := calm_group? hcalm x.gid hput
  rw [hy] at he
  refine ⟨f, hf, ?_, ?_, ?_, (calm_wgs hcalm).trans rfl⟩
  · rw [he]
  · rw [he]; exact ⟨rfl, rfl, rfl, rfl⟩
  · rw [he]

/-! ### Rotation -/

/-- 07 R153: a resident split and the head of the queue exchange their places. -/
theorem giveWay_exchanges {x : Group} {h r : Split} (hq : x.queueHead = some h) (hh : x.split? h.id = some h)
    (hr : x.split? r.id = some r) (hres : r.spilled = false) (n : Nat) :
    (x.giveWay n r.id).split? h.id = some { h with spilled := false, slot := r.slot, queuedAt := none } ∧
      (x.giveWay n r.id).split? r.id = some { r with spilled := true, slot := h.slot, queuedAt := some n } ∧
      ∀ k, k ≠ h.id → k ≠ r.id → (x.giveWay n r.id).split? k = x.split? k := by
  have hspilled : h.spilled = true := by
    have hmem := List.mem_filter.1 (leastBy_mem hq)
    simp only [Bool.and_eq_true] at hmem
    exact hmem.2.1
  have hne : h.id ≠ r.id := fun e => by
    rw [e, hr] at hh
    cases hh
    rw [hres] at hspilled
    cases hspilled
  let into : Split → Split := fun y => { y with spilled := false, slot := r.slot, queuedAt := none }
  let out : Split → Split := fun y => { y with spilled := true, slot := h.slot, queuedAt := some n }
  have hgive : x.giveWay n r.id = (x.modSplit h.id into).modSplit r.id out := by
    unfold Group.queueHead at hq
    unfold Group.giveWay
    simp only [hr, hq, hres, Bool.false_eq_true, if_false]
    rfl
  have hsplit : ∀ k, (x.giveWay n r.id).split? k =
      if k = r.id then some (out r) else if k = h.id then some (into h) else x.split? k := fun k => by
    rw [hgive, Group.split?_modSplit _ _ _ out fun _ => rfl, Group.split?_modSplit _ _ _ into fun _ => rfl,
      Group.split?_modSplit _ _ _ into fun _ => rfl, if_neg hne.symm, hr, hh]
    rfl
  refine ⟨?_, ?_, fun k hkh hkr => ?_⟩
  · rw [hsplit, if_neg hne, if_pos rfl]
  · rw [hsplit, if_pos rfl]
  · rw [hsplit, if_neg hkr, if_neg hkh]

/-- 07 R153: the rotation makes the exchange. -/
theorem spillRotation_next {s : State} {g : Nat} {x : Group} {w : Workgroup} {h r : Split} (hx : s.group? g = some x)
    (hw : s.wg? x.wgKey = some w) (hrun : w.status = .resident) (hq : x.queueHead = some h)
    (hr : leastBy (fun (y : Split) => 2 ^ 80 - y.issuedAt) (x.splits.filter (fun y => !y.spilled && y.state == .ready)) = some r)
    (hword : r.word = 0) : exec (.spillRotation g) s = .next (s.putSplits w r.id x (x.giveWay s.serial r.id)) := by
  show execSpillRotation g s = _
  unfold execSpillRotation
  simp only [hx, hw, hq, hr, hword, hrun, beq_self_eq_true, Bool.and_self, if_true]

theorem ready_resident {x : Group} {key : Split → Nat} {r : Split}
    (hr : leastBy key (x.splits.filter (fun y => !y.spilled && y.state == .ready)) = some r) : r.spilled = false := by
  have hmem := List.mem_filter.1 (leastBy_mem hr)
  simp only [Bool.and_eq_true, Bool.not_eq_true'] at hmem
  exact hmem.2.1

/-- 07 R153: after the rotation the head of the queue stands in the entry of the split that issued last, where the spill records meet
no fault. -/
theorem spillRotation_exchanges {s : State} {x : Group} {w : Workgroup} {h r : Split} (hx : s.group? x.gid = some x)
    (hw : s.wg? x.wgKey = some w) (hrun : w.status = .resident) (hq : x.queueHead = some h) (hh : x.split? h.id = some h)
    (hr : leastBy (fun (y : Split) => 2 ^ 80 - y.issuedAt) (x.splits.filter (fun y => !y.spilled && y.state == .ready)) = some r)
    (hr' : x.split? r.id = some r) (hword : r.word = 0)
    (hok : ((s.modGroup x.gid (fun _ => x.giveWay s.serial r.id)).bump.spillAll w x.gid (s.spillBase w x)
      (spillPlan x (x.giveWay s.serial r.id))).2 = none) :
    ∃ t f, exec (.spillRotation x.gid) s = .next t ∧ t.group? x.gid = some f ∧
      f.split? h.id = some { h with spilled := false, slot := r.slot, queuedAt := none } ∧
      f.split? r.id = some { r with spilled := true, slot := h.slot, queuedAt := some s.serial } ∧
      (∀ k, k ≠ h.id → k ≠ r.id → f.split? k = x.split? k) ∧ x.sameRegs f ∧ f.flags = x.flags ∧ t.wgs = s.wgs := by
  obtain ⟨hin, hout, hothers⟩ := giveWay_exchanges hq hh hr' (ready_resident hr) s.serial
  obtain ⟨f, hf, hsplits, hregs, hflags, hwgs⟩ := putSplits_group hx (Group.tables_giveWay ..) hok r.id
  exact ⟨_, f, spillRotation_next hx hw hrun hq hr hword, hf, (split?_congr hsplits _).trans hin,
    (split?_congr hsplits _).trans hout, fun k hk hk' => (split?_congr hsplits k).trans (hothers k hk hk'), hregs, hflags, hwgs⟩

/-! ### Conditions of spilled splits -/

/-- 07 R153: a group whose spilled splits have joined the queue where their conditions hold. -/
def wokenSpilled (s : State) (w : Workgroup) (x : Group) : Group :=
  { x with splits := x.splits.map (fun (sp : Split) => if sp.spilled && s.spilledReady w x sp then sp.wakeSpilled s.serial else sp) }

/-- 07 R153: a condition test of the spilled splits of a group. -/
theorem spillConditionTest_next {s : State} {g : Nat} {x : Group} {w : Workgroup} (hx : s.group? g = some x)
    (hw : s.wg? x.wgKey = some w) (hrun : w.status = .resident) : exec (.spillConditionTest g) s =
      .next (if wokenSpilled s w x = x then s else s.putSplits w x.lastSid x ((wokenSpilled s w x).refill 8)) := by
  have hrun' : (w.status != .resident) = false := by rw [hrun]; rfl
  show execSpillConditionTest g s = _
  unfold execSpillConditionTest
  simp only [hx, hw, hrun', Bool.false_eq_true, if_false, beq_iff_eq]
  rfl

theorem wokenSpilled_tables (s : State) (w : Workgroup) (x : Group) (fuel : Nat) : x.tables ((wokenSpilled s w x).refill fuel) :=
  Group.tables_trans (b := wokenSpilled s w x) rfl (Group.tables_refill ..)

/-- 07 R153: spilled splits join the queue, and free entries take the queue's head, where the spill records meet no fault. -/
theorem spillConditionTest_joins {s : State} {x : Group} {w : Workgroup} (hx : s.group? x.gid = some x)
    (hw : s.wg? x.wgKey = some w) (hrun : w.status = .resident) (hne : wokenSpilled s w x ≠ x)
    (hok : ((s.modGroup x.gid (fun _ => (wokenSpilled s w x).refill 8)).bump.spillAll w x.gid (s.spillBase w x)
      (spillPlan x ((wokenSpilled s w x).refill 8))).2 = none) :
    ∃ t f, exec (.spillConditionTest x.gid) s = .next t ∧ t.group? x.gid = some f ∧
      f.splits = ((wokenSpilled s w x).refill 8).splits ∧ x.sameRegs f ∧ f.flags = x.flags ∧ t.wgs = s.wgs := by
  obtain ⟨f, hf, hsplits, hregs, hflags, hwgs⟩ := putSplits_group hx (wokenSpilled_tables s w x 8) hok x.lastSid
  refine ⟨_, f, ?_, hf, hsplits, hregs, hflags, hwgs⟩
  rw [spillConditionTest_next hx hw hrun, if_neg hne]

theorem wakeSpilled_spilled (sp : Split) (n : Nat) : (sp.wakeSpilled n).spilled = sp.spilled := by
  unfold Split.wakeSpilled
  dsimp only
  split
  · rfl
  · split <;> rfl

/-- Joining the queue frees no entry. -/
theorem wokenSpilled_resident (s : State) (w : Workgroup) (x : Group) :
    (wokenSpilled s w x).resident.length = x.resident.length := by
  unfold Group.resident wokenSpilled
  rw [List.filter_map, List.length_map]
  congr 1
  refine List.filter_congr fun sp _ => ?_
  dsimp only [Function.comp]
  split
  · rw [wakeSpilled_spilled]
  · rfl

/-- 07 R153: with every entry taken nothing leaves the queue. -/
theorem refill_full {g : Group} (h : 8 ≤ g.resident.length) (fuel : Nat) : g.refill fuel = g := by
  cases fuel with
  | zero => rfl
  | succ fuel => exact if_neg (Nat.not_lt.2 h)

/-! ### Scores -/

/-- 07 R162: a score halves. -/
def halved (g : Group) : Group := { g with score := g.score / 2 }

/-- 07 R162: a score halves some number of times. -/
def halvedTimes : Nat → Group → Group
  | 0, g => g
  | n + 1, g => halvedTimes n (halved g)

theorem map_halvedTimes_zero (o : Option Group) : o.map (halvedTimes 0) = o := by
  cases o <;> rfl

theorem map_halvedTimes_succ (n : Nat) (o : Option Group) : o.map (halvedTimes (n + 1)) = (o.map halved).map (halvedTimes n) := by
  cases o <;> rfl

/-- 07 R162: what halving the scores of some groups in turn leaves: each group's as often as it is listed. -/
theorem halves_group? (l : List Group) (s : State) (k : Nat) :
    (l.foldl (fun s g => s.modGroup g.gid halved) s).group? k = (s.group? k).map (halvedTimes ((l.map (·.gid)).count k)) := by
  induction l generalizing s with
  | nil => exact (map_halvedTimes_zero _).symm
  | cons a l ih =>
    rw [List.foldl_cons, ih, State.group?_modGroup _ _ _ halved fun _ => rfl, List.map_cons, List.count_cons]
    by_cases h : k = a.gid
    · subst h
      rw [if_pos rfl, if_pos (beq_self_eq_true a.gid), map_halvedTimes_succ]
    · have h' : ¬(a.gid == k) = true := fun e => h (beq_iff_eq.1 e).symm
      rw [if_neg h, if_neg h', Nat.add_zero]

theorem scoreHalving_next (s : State) (core : Nat) :
    exec (.scoreHalving core) s = .next ((s.groupsOn core).foldl (fun s g => s.modGroup g.gid halved) s) := rfl

theorem halves_frame (l : List Group) (s : State) :
    ∃ gs, l.foldl (fun s g => s.modGroup g.gid halved) s = { s with groups := gs } := by
  induction l generalizing s with
  | nil => exact ⟨s.groups, rfl⟩
  | cons a l ih =>
    obtain ⟨gs, h⟩ := ih (s.modGroup a.gid halved)
    exact ⟨gs, h⟩

/-! ### The stall histogram -/

/-- 07 R167: the reason that a cycle without an issue-ready split is charged to, of the groups of a scheduler. -/
def chargedReason (s : State) (gs : List Group) : Nat :=
  match leastBy (fun (g : Group) => g.age) gs with
  | none => 0
  | some g =>
    match leastBy (fun sp => g.splitRank sp) g.splits with
    | none => 7
    | some sp => ((s.ctx? g.gid sp.id).map s.stallReason).getD 0

theorem chargedReason_nil (s : State) : chargedReason s [] = 0 := rfl

theorem chargedReason_ended {s : State} {gs : List Group} {g : Group} (hg : leastBy (·.age) gs = some g) (h : g.splits = []) :
    chargedReason s gs = 7 := by
  unfold chargedReason
  simp only [hg, h, leastBy_nil']

theorem chargedReason_split {s : State} {gs : List Group} {g : Group} {sp : Split} {c : Ctx} (hg : leastBy (·.age) gs = some g)
    (hsp : leastBy (fun sp => g.splitRank sp) g.splits = some sp) (hc : s.ctx? g.gid sp.id = some c) :
    chargedReason s gs = s.stallReason c := by
  unfold chargedReason
  simp only [hg, hsp, hc, Option.map_some, Option.getD_some]

/-- Settles O48: each event by the lemma that says what it leaves. -/
theorem schedulingEvents : Obligations.SchedulingEvents := by
  intro s puts
  refine ⟨fun g sid c hctx => ⟨eventWake_waiting hctx, fun k v i n hmove ht hh hw hd => ?_, starvationGuard_next hctx⟩,
    fun g x w h r hx hw hrun hq hh hr hr' hword hok => ?_, fun g x w hx hw hrun => ?_, fun core => ?_, fun core => ?_,
    fun die cluster core sched => ?_⟩
  · obtain ⟨rfl, rfl⟩ := ctx?_ids hctx
    refine ⟨fun hb => ?_, eventWake_passes hctx hmove ht hh hw hd⟩
    rw [eventWake_held hctx hmove ht hh hw, hb, if_neg Bool.false_ne_true]
  · obtain rfl := State.group?_gid hx
    exact spillRotation_exchanges hx hw hrun hq hh hr hr' hword hok
  · obtain rfl := State.group?_gid hx
    refine ⟨fun hy => (spillConditionTest_next hx hw hrun).trans (congrArg Host.Outcome.next (if_pos hy)),
      fun hy hok => spillConditionTest_joins hx hw hrun hy hok, fun hfull => refill_full ?_ 8⟩
    exact (wokenSpilled_resident s w x).symm ▸ hfull
  · refine ⟨_, rfl, rfl, ?_, ?_⟩ <;> rw [core_modCore_self]
  · obtain ⟨gs, hgs⟩ := halves_frame (s.groupsOn core) s
    refine ⟨_, scoreHalving_next s core, by rw [hgs], fun k => ⟨fun hk => ?_, fun hk => ?_⟩⟩
    · rw [halves_group?, hk]
      rfl
    · rw [halves_group?, hk, map_halvedTimes_zero]
  · refine ⟨_, chargedReason s _, rfl, rfl, ?_, fun h => ?_, fun g hg h => chargedReason_ended hg h,
      fun g sp c hg hsp hc => chargedReason_split hg hsp hc⟩
    · rw [core_modCore_self]
      rfl
    · rw [h]; rfl

end Sys2Proof.Laws
end

section
/-!
Branches that every lane takes, and branches to misaligned targets (08 R171 to R173).
-/
namespace Sys2Proof.Laws
open Sys2Proof.Machine

/-! ### Misaligned targets -/

/-- 08 R171: a target that is not a multiple of 8. -/
theorem branch_misaligned {s : State} {c : Ctx} {act : List Nat} {tgt r : Word} (h : tgt.toNat % 8 ≠ 0) :
    s.branch c act tgt r = .trap s (lanesTrap act 0x5005) 0 :=
  if_pos (bne_iff_ne.2 h)

/-- Settles O19: the trap is taken in the state after the scalar effect. -/
theorem misalignedBranchTraps : Obligations.MisalignedBranchTraps := by
  intro row hrow s c x hi htgt
  rw [branch_rows row hrow s c x hi, branch_misaligned htgt]
  rfl

/-! ### Branches of a whole split -/

/-- 08 R171: a split that has branched with all its lanes. -/
def branched (g : Group) (sid : Nat) (tgt : Word) : Group := g.modSplit sid (fun sp => sp.goto tgt)

theorem branched_unspilled {g : Group} (h : g.unspilled) (sid : Nat) (tgt : Word) : (branched g sid tgt).unspilled :=
  Group.unspilled_modSplit h sid _ fun _ => rfl

theorem branched_split? (g : Group) (sid k : Nat) (tgt : Word) :
    (branched g sid tgt).split? k = if k = sid then (g.split? sid).map (fun sp => sp.goto tgt) else g.split? k :=
  Group.split?_modSplit g sid k _ fun _ => rfl

/-- 08 R171: a branch that all lanes take; no split waits in a spill record for it to give way (07 R153). -/
theorem branch_whole {s : State} {c : Ctx} {act : List Nat} {tgt r : Word} {g : Group} (hg : s.group? c.g.gid = some g)
    (ht : tgt.toNat % 8 = 0) (hall : c.sp.mask &&& ~~~maskOf act = 0) (hu : g.unspilled) :
    s.branch c act tgt r = .moved (s.modGroup c.g.gid (fun _ => branched g c.sp.id tgt)).bump := by
  have ht' : (tgt.toNat % 8 != 0) = false := by simp [ht]
  have hb := branched_unspilled hu c.sp.id tgt
  have hput := State.putSplits_eq s c.w c.sp.id g _ (records_nil hu hb)
  rw [State.group?_gid hg] at hput
  unfold branched at hb hput
  unfold State.branch
  simp only [ht', Bool.false_eq_true, if_false, hg, hall, if_true, giveWay_unspilled hb, ite_self, hput]
  rfl

theorem marked_hold (s : State) (c : Ctx) {sp : Split} (h : sp.hold ≠ .faulted) : (c.marked s sp).hold = .none := by
  simp [Ctx.marked, h]

/-- 08 R171: a branch and its issue leave registers, outstanding instructions and frames. -/
theorem branched_keeps (s : State) (c : Ctx) (g : Group) (tgt : Word) :
    let h := c.noted s (branched g c.sp.id tgt)
    h.s = g.s ∧ h.ops = g.ops ∧ h.frames = g.frames :=
  ⟨rfl, rfl, rfl⟩

/-- Settles O17: `branch_whole` of the group after the scalar effect; the issue marks the split where it has gone. -/
theorem uniformBranchesGoToTarget : Obligations.UniformBranchesGoToTarget := by
  intro row hrow s c x hi hu hall htgt
  let P := preF s c x row.2.2.2 c.g
  let K := branched P c.sp.id (row.2.1 c x)
  obtain ⟨hgroup, hput⟩ := preG s c x hi.1 row.2.2.2
  obtain ⟨site, hsp⟩ := sees_split hi.1
  have hsplits : P.splits = c.g.splits := preF_splits ..
  have hPu : P.unspilled := fun sp h => hu sp (hsplits ▸ h)
  have hframes : P.frames = c.g.frames := by
    rw [show P = _ from preF_frame ..]
  have hK : K.split? c.sp.id = some (({ c.sp with site := site } : Split).goto (row.2.1 c x)) := by
    rw [branched_split?, if_pos rfl, split?_congr hsplits, hsp]; rfl
  obtain ⟨hregs, hops, hfr⟩ := branched_keeps s.bump c P (row.2.1 c x)
  have hsteer := (moved_steered hi.1 K (steers_tables (preF_steers ..) (Group.tables_modSplit ..))).2
  refine ⟨_, _, _, ?_, hsteer, noted_split hK _, ?_⟩
  · rw [branch_rows row hrow s c x hi, branch_whole hgroup htgt hall hPu, hput]
    rfl
  · refine ⟨rfl, rfl, rfl, marked_hold _ c (State.sees_hold hi.1), rfl, rfl, rfl, rfl, rfl, fun k hk => ?_, hfr.trans hframes, ?_⟩
    · rw [Ctx.split?_noted, if_neg hk, branched_split?, if_neg hk, split?_congr hsplits]
    · exact preF_regs hi.1 _ _ hregs hops

end Sys2Proof.Laws
end

section
/-!
TRAP, TRET, SYS and BKPT (08 R180 to R183).
-/
namespace Sys2Proof.Laws
open Sys2Proof.Machine

/-! ### TRAP and TRET -/

theorem trap_next {s : State} {c : Ctx} {x : Args} (hi : s.issues .trap x c) :
    exec (.trap x) s = .next (s.trapped c x (lanesTrap (c.active x) 0x5006) x.a) := by
  show execTrap x s = _
  unfold execTrap
  rw [issue_eq hi]
  rfl

/-- 08 R181: TRET outside a handler. -/
theorem tret_outside {s : State} {c : Ctx} {x : Args} (hi : s.issues .tret x c) (ht : c.sp.state ≠ .inTrap) :
    exec (.tret x) s = .next (s.trapped c x (c.allLanes 0x5008 none none) 0) := by
  show execTret x s = _
  unfold execTret
  rw [issue_eq hi, if_neg (mt beq_iff_eq.1 ht)]
  rfl

/-- 08 R181: TRET within a handler moves its split itself. -/
theorem tret_inside {s : State} {c : Ctx} {x : Args} (hi : s.issues .tret x c) (ht : c.sp.state = .inTrap) :
    exec (.tret x) s = .next ((s.modGroup c.g.gid (fun _ => c.g.trapReturn c.sp.id)).noteIssue c) := by
  have hput : s.modGroup c.g.gid (fun g => g.trapReturn c.sp.id) = s.modGroup c.g.gid (fun _ => c.g.trapReturn c.sp.id) :=
    State.modGroup_congr (State.sees_eq hi.1).1 rfl
  show execTret x s = _
  unfold execTret
  rw [issue_eq hi, if_pos (beq_iff_eq.2 ht), ← hput]
  rfl

section Returns
variable {g : Group} {sid k : Nat} {sp : Split} {f : TrapFrame}

theorem trapReturn_eq (hsp : g.split? sid = some sp) (hk : sp.frame = some k) (hf : g.frames.find? (fun f => f.num == k) = some f) :
    g.trapReturn sid = (g.modSplit sid (fun sp => sp.trapReturn f)).dropFrames := by
  unfold Group.trapReturn
  simp only [hsp, Option.bind_some, hk, hf]

theorem tables_trapReturn (g : Group) (sid : Nat) : g.tables (g.trapReturn sid) := by
  unfold Group.trapReturn
  split
  · rfl
  · split <;> rfl

/-- 22 R411: the split goes back as its frame says, and the others stand. -/
theorem trapReturn_split? (hsp : g.split? sid = some sp) (hk : sp.frame = some k)
    (hf : g.frames.find? (fun f => f.num == k) = some f) :
    (g.trapReturn sid).split? sid = some (sp.trapReturn f) ∧ ∀ j, j ≠ sid → (g.trapReturn sid).split? j = g.split? j := by
  have hmod : ∀ j, (g.trapReturn sid).split? j = if j = sid then (g.split? sid).map (fun sp => sp.trapReturn f) else g.split? j := by
    intro j
    rw [trapReturn_eq hsp hk hf]
    exact Group.split?_modSplit g sid j _ fun _ => rfl
  refine ⟨?_, fun j hj => ?_⟩
  · rw [hmod, if_pos rfl, hsp]; rfl
  · rw [hmod, if_neg hj]

/-- 22 R407: no split keeps the frame of which the split that returns was the sole holder, so it is freed. -/
theorem trapReturn_frees (hsp : g.split? sid = some sp) (hk : sp.frame = some k)
    (hf : g.frames.find? (fun f => f.num == k) = some f) (hsole : (g.splits.filter (fun sp => sp.frame == some k)).length = 1) :
    ∀ f ∈ (g.trapReturn sid).frames, f.num ≠ k := by
  have hcount := filter_replaceBy (q := fun sp : Split => sp.frame == some k) (f := fun sp => sp.trapReturn f) hsp
    (beq_iff_eq.2 hk) rfl
  rw [hsole, Nat.add_eq_right, List.length_eq_zero_iff, List.filter_eq_nil_iff] at hcount
  rw [trapReturn_eq hsp hk hf]
  rintro f' hf' rfl
  obtain ⟨holder, hmem, hholds⟩ := List.any_eq_true.1 (List.mem_filter.1 hf').2
  exact hcount holder hmem hholds

end Returns

/-- Settles O22: TRET within a handler is `Group.trapReturn` of its split; the issue marks that split and no other. -/
theorem trapAndTret : Obligations.TrapAndTret := by
  refine fun s c x => ⟨trap_next, tret_outside, fun k f hi ht hk hf hsole => ?_⟩
  obtain ⟨site, hsp⟩ := sees_split hi.1
  obtain ⟨hback, hothers⟩ := trapReturn_split? hsp hk hf
  have htables := tables_trapReturn c.g c.sp.id
  refine ⟨_, _, _, tret_inside hi ht, (moved_steered hi.1 _ (Group.tables_steers htables)).1, ?_, noted_split hback s,
    rfl, rfl, rfl, rfl, rfl, rfl, rfl, trapReturn_frees hsp hk hf hsole, fun j hj => ?_⟩
  · show (c.g.trapReturn c.sp.id).s = c.g.s
    rw [htables]
  · rw [Ctx.split?_noted, if_neg hj, hothers j hj]

/-! ### Services -/

/-- 08 R183: SYS RECORD, and the services unknown of its form. -/
theorem sysRecord_next {s : State} {c : Ctx} {x : Args} (hi : s.issues .sysRecord x c) :
    exec (.sysRecord x) s = .next (if x.a = 0 then
        let r := s.releaseCore c.w.phys 3
        ((r.record (r.sysRecordOf c x (c.active x) 0x0001)).writeS c [(x.d.toNat, 0)]).finish c x
      else s.trapped c x (lanesTrap (c.active x) 0x500B) 0) := by
  show execSysRecord x s = _
  unfold execSysRecord
  rw [issue_eq hi]
  by_cases hservice : x.a = 0
  · rw [if_pos hservice, if_neg (by simp [hservice])]
    rfl
  · rw [if_neg hservice, if_pos (bne_iff_ne.2 hservice)]
    rfl

/-- 08 R183, 21 R402: SYS NOTIFY, by whether the ring takes a message. -/
theorem sysNotify_next {s : State} {c : Ctx} {x : Args} (hi : s.issues .sysNotify x c) :
    let r := s.releaseCore c.w.phys 3
    let p := r.partOf c.w.part
    exec (.sysNotify x) s = .next (if p.irqJ = 0 ∨ r.irqFull p = true then (r.writeS c [(x.d.toNat, 1)]).finish c x
      else ((r.irqPut p 3 (c.s2 x.b.toNat) c.w.ticket).writeS c [(x.d.toNat, 0)]).finish c x) := by
  intro r p
  show execSysNotify x s = _
  unfold execSysNotify
  rw [issueDone_eq hi]
  by_cases hring : p.irqJ = 0 ∨ r.irqFull p = true
  · have hring' : (decide (p.irqJ = 0) || r.irqFull p) = true := by simpa using hring
    rw [if_pos hring]
    dsimp only
    rw [if_pos hring']
    rfl
  · have hring' : ¬(decide (p.irqJ = 0) || r.irqFull p) = true := by simpa using hring
    rw [if_neg hring]
    dsimp only
    rw [if_neg hring']
    rfl

theorem sysStop_next {s : State} {c : Ctx} {x : Args} (hi : s.issues .sysStop x c) :
    let r := s.releaseCore c.w.phys 3
    exec (.sysStop x) s =
      .next (((r.fatal c.w (r.sysRecordOf c x (c.active x) 0x0002)).markFaulted c.g.gid c.sp.id).noteIssue c) := by
  show execSysStop x s = _
  unfold execSysStop
  rw [issue_eq hi]
  rfl

/-- Settles O26: each service by the lemma that says what it leaves. -/
theorem servicesAct : Obligations.ServicesAct :=
  fun _ _ _ => ⟨sysRecord_next, sysNotify_next, sysStop_next⟩

/-! ### Breakpoints -/

/-- Settles O27: BKPT asks whether its partition stops at breakpoints and whether its split was restarted here. -/
theorem breakpointStopsOrPasses : Obligations.BreakpointStopsOrPasses := by
  intro s c x hi stops
  have hexec : exec (.bkpt x) s = settleEff c x s (if stops = true then .wait (s.triggerStop c x.a.toNat) .none else .done s) := by
    show execBkpt x s = _
    unfold execBkpt
    rw [issue_eq hi]
  refine ⟨fun h => ?_, fun h => ?_⟩
  · rw [hexec, h]
    rfl
  · rw [hexec, h]
    rfl

end Sys2Proof.Laws
end

section
/-!
The integer blocks (09 R191 to R201), the lane instructions (09 R215 to R220), and the instructions that write one `s` register
or pair: PGET and PEQ (10 R226, R228) and SPLITQ (08 R176) among them.
-/
namespace Sys2Proof.Laws
open Sys2Proof.Machine

/-! ### The integer blocks -/

/-- 09 R199: each scalar row is executed by its operation. -/
theorem exec_scalar {row : Op × (Args → IntFn) × Bool × Bool} (h : row ∈ scalarBlock) (x : Args) (s : State) :
    exec (row.1.instr x) s = scalarExec row.1 (row.2.1 x) row.2.2.1 row.2.2.2 x s := by
  simp only [scalarBlock, List.mem_cons, List.not_mem_nil, or_false] at h
  obtain rfl | rfl | rfl | rfl | rfl | rfl | rfl | rfl | rfl | rfl | rfl | rfl | rfl | rfl | rfl | rfl | rfl | rfl | rfl := h <;> rfl

/-- 09 R200: each vector row is executed by its operation. -/
theorem exec_vector {row : Op × (Args → IntFn) × Bool × Bool} (h : row ∈ vectorBlock) (x : Args) (s : State) :
    exec (row.1.instr x) s = vectorExec row.1 (row.2.1 x) row.2.2.1 row.2.2.2 x s := by
  simp only [vectorBlock, List.mem_cons, List.not_mem_nil, or_false] at h
  obtain rfl | rfl | rfl | rfl | rfl | rfl | rfl | rfl | rfl | rfl | rfl | rfl | rfl | rfl | rfl | rfl | rfl | rfl | rfl | rfl |
    rfl := h <;> rfl

/-- 09 R199: what SMOVI writes is its immediate. -/
theorem exec_smovi {x : Args} {imm : DWord} (himm : x.long = some imm) (s : State) :
    exec (.smovi x) s =
      issueDone .smovi x s (fun c _ => s.writeS c (sPut (sWide x.mod.toNat) x.d.toNat imm.toNat)) := by
  show execSmovi x s = _
  unfold execSmovi
  rw [himm]
  rfl

/-- 09 R201: what VDOT4 computes of a lane: B is the immediate as written, an `s` register or the lane's own. -/
def vdot4Lane (x : Args) (c : Ctx) (l : Nat) : Nat :=
  dot4 (vecSat x) (vecSigned x) (c.v x.a.toNat l).toNat
    ((immOf x).getD (if vecUs x then (c.s x.b.toNat).toNat else (c.v x.b.toNat l).toNat)) (c.v x.c.toNat l).toNat

theorem exec_vdot4 (x : Args) (s : State) :
    exec (.vdot4 x) s = issueDone .vdot4 x s (fun c act => writeLanes s c act false x.d.toNat (vdot4Lane x c)) := by
  show execVdot4 x s = _
  unfold execVdot4 vdot4Lane
  cases immOf x <;> rfl

/-- Settles O9: the instruction of every row is `scalarExec` of its operation; SMOVI writes its immediate. -/
theorem scalarIntegerResults : Obligations.ScalarIntegerResults := by
  constructor
  · intro row hrow s c x hi
    rw [exec_scalar hrow]
    exact scalarExec_next (row.2.1 x) row.2.2.1 row.2.2.2 hi
  · intro s c x imm himm hi
    rw [exec_smovi himm]
    exact scalar_next hi (sWide x.mod.toNat) imm.toNat _ rfl

/-- Settles O10: the instruction of every row is `vectorExec` of its operation; VDOT4 writes its sum in each lane. -/
theorem vectorIntegerResults : Obligations.VectorIntegerResults := by
  constructor
  · intro row hrow s c x hi
    rw [exec_vector hrow]
    exact vectorExec_next (row.2.1 x) row.2.2.1 row.2.2.2 hi
  · intro s c x hi
    rw [exec_vdot4]
    exact lanes_next hi false (vdot4Lane x c) _ rfl

/-! ### The lane instructions -/

/-- 09 R215, R217, R220: each lane row writes its value in the lanes of Active(S), computed of the registers as the issue
finds them. -/
theorem exec_lane {row : Op × (Args → Bool) × (Ctx → Args → Nat → Nat)} (h : row ∈ laneBlock) (x : Args) (s : State) :
    ∃ body, exec (row.1.instr x) s = issueDone row.1 x s body ∧
      ∀ c : Ctx, body c (c.active x) = writeLanes s c (c.active x) (row.2.1 x) x.d.toNat (row.2.2 c x) := by
  simp only [laneBlock, List.mem_cons, List.not_mem_nil, or_false] at h
  obtain rfl | rfl | rfl | rfl := h
  · show ∃ body, execMatchLanes x s = _ ∧ _
    exact ⟨_, rfl, fun _ => rfl⟩
  · show ∃ body, execShfl x s = _ ∧ _
    exact ⟨_, rfl, fun _ => rfl⟩
  · show ∃ body, execBcast x s = _ ∧ _
    exact ⟨_, rfl, fun _ => rfl⟩
  · show ∃ body, execS2v x s = _ ∧ _
    exact ⟨_, rfl, fun _ => rfl⟩

/-- Settles O13: the instruction of every row writes its lanes, and nothing else. -/
theorem laneInstructionResults : Obligations.LaneInstructionResults := by
  intro row hrow s c x hi
  obtain ⟨body, hexec, hbody⟩ := exec_lane hrow x s
  rw [hexec]
  exact lanes_next hi (row.2.1 x) (row.2.2 c x) body (hbody c)

/-! ### One `s` register or pair -/

/-- One `s` register takes a word as it is. -/
theorem sPut_word (d : Nat) (w : Word) : sPut false d w.toNat = [(d, w)] := by
  simp [sPut, loWord]

/-- 10 R228: PEQ writes all ones or zero. -/
theorem sPut_allOnes (d : Nat) (t : Bool) :
    sPut false d (if t then 0xFFFFFFFF else 0) = [(d, if t then 0xFFFFFFFF#32 else 0#32)] := by
  cases t <;> rfl

/-- 09 R191: each row of scalar destinations writes its value there, computed of the registers as the issue finds them. -/
theorem exec_toScalar {row : Op × (Args → Bool) × (Ctx → Args → Nat)} (h : row ∈ toScalarBlock) (x : Args) (s : State) :
    ∃ body, exec (row.1.instr x) s = issueDone row.1 x s body ∧
      ∀ c : Ctx, body c (c.active x) = s.writeS c (sPut (row.2.1 x) x.d.toNat (row.2.2 c x)) := by
  simp only [toScalarBlock, List.mem_cons, List.not_mem_nil, or_false] at h
  obtain rfl | rfl | rfl | rfl | rfl | rfl := h
  · show ∃ body, execBallot x s = _ ∧ _
    exact ⟨_, rfl, fun _ => rfl⟩
  · show ∃ body, execRdlane x s = _ ∧ _
    exact ⟨_, rfl, fun _ => rfl⟩
  · show ∃ body, execV2s x s = _ ∧ _
    exact ⟨_, rfl, fun _ => rfl⟩
  · show ∃ body, execPget x s = _ ∧ _
    exact ⟨_, rfl, fun c => congrArg (s.writeS c) (sPut_word _ _).symm⟩
  · show ∃ body, execPeq x s = _ ∧ _
    exact ⟨_, rfl, fun c => congrArg (s.writeS c) (sPut_allOnes _ _).symm⟩
  · show ∃ body, execSplitq x s = _ ∧ _
    exact ⟨_, rfl, fun _ => rfl⟩

/-- Settles O14: the instruction of every row writes its `s` destination, and nothing else. -/
theorem scalarDestinationResults : Obligations.ScalarDestinationResults := by
  intro row hrow s c x hi
  obtain ⟨body, hexec, hbody⟩ := exec_toScalar hrow x s
  rw [hexec]
  exact scalar_next hi (row.2.1 x) (row.2.2 c x) body (hbody c)

/-! ### Reductions -/

/-- 09 R218: the value of LRED's tree, with its flags. -/
def lredResult (x : Args) (c : Ctx) (act : List Nat) : Flagged :=
  reduceTree (c.redOp x) (fun l => c.vw (fmtWide x.c.toNat) x.a.toNat l) act

/-- 09 R219: each lane with the running combination before it and at it, and the flags of every combination. -/
def lscanResult (x : Args) (c : Ctx) (act : List Nat) : List (Nat × Option Nat × Nat) × FlagBits :=
  scanLanes (c.redOp x) (fun l => c.vw (fmtWide x.c.toNat) x.a.toNat l) act (none, 0)

/-- 09 R219: what LSCAN writes in a lane: the combination at it, or the one before it. -/
def lscanLane (x : Args) (c : Ctx) (act : List Nat) (l : Nat) : Nat :=
  match lastOf l (lscanResult x c act).1 with
  | some (prev, now) => if x.b.toNat % 2 = 0 then now else prev.getD (redIdentity (x.mod.toNat / 8) x.c.toNat)
  | none => 0

/-- What LRED writes and contributes. -/
def lredBody (x : Args) (s : State) (c : Ctx) (act : List Nat) : State :=
  (writeLanes s c act (fmtWide x.c.toNat) x.d.toNat (fun _ => (lredResult x c act).1)).addFlags c (lredResult x c act).2

/-- What LSCAN writes and contributes. -/
def lscanBody (x : Args) (s : State) (c : Ctx) (act : List Nat) : State :=
  (writeLanes s c act (fmtWide x.c.toNat) x.d.toNat (lscanLane x c act)).addFlags c (lscanResult x c act).2

theorem exec_lred (x : Args) (s : State) : exec (.lred x) s = issueDone .lred x s (lredBody x s) := rfl

theorem exec_lscan (x : Args) (s : State) : exec (.lscan x) s = issueDone .lscan x s (lscanBody x s) := rfl

/-- Settles O15: LRED and LSCAN write their lanes and contribute the flags of the combinations made. -/
theorem reductionResults : Obligations.ReductionResults := by
  intro s c x wide val act done
  constructor
  · intro hi r
    obtain ⟨t, g, ht, hrest⟩ := flagged_next hi wide (fun _ => r.1) r.2 (lredBody x s) rfl
    exact ⟨t, g, (exec_lred x s).trans ht, hrest⟩
  · intro hi r
    obtain ⟨t, g, ht, hrest⟩ := flagged_next hi wide (lscanLane x c act) r.2 (lscanBody x s) rfl
    exact ⟨t, g, (exec_lscan x s).trans ht, hrest⟩

end Sys2Proof.Laws
end

section
/-!
Pointers derived (10 R222 to R225) and moved (10 R226, R227): what PDER, PADD, PFMT, PRIGHT, PNULL and PGET.quad write.
-/
namespace Sys2Proof.Laws
open Sys2Proof.Machine

/-! ### PDER, PADD, PFMT and PRIGHT -/

/-- What answers one code or else a pointer refuses with that code. -/
theorem refusal_code {p : Prop} [Decidable p] {a code : Nat} {q : Ptr}
    (h : (if p then .error a else .ok q : Except Nat Ptr) = .error code) : code = a := by
  split at h <;> cases h
  rfl

/-- 10 R223: what refuses a sub-range. -/
theorem derive_error {q : Ptr} {off code : Nat} {len : Option Nat} (h : q.derive off len = .error code) :
    code = 0x2007 ∨ code = 0x2008 := by
  unfold Ptr.derive at h
  split at h
  next => exact .inl (Except.error.inj h).symm
  next =>
    by_cases h2 : q.space = 2
    · simp only [h2, if_true] at h
      exact .inr (refusal_code h)
    · simp only [h2, if_false] at h
      exact .inr (refusal_code h)

/-- 10 R225: what refuses a restriction. -/
theorem restrict_error {q : Ptr} {b m code : Nat} (h : q.restrict b m = .error code) : code = 0x2007 ∨ code = 0x2008 := by
  unfold Ptr.restrict at h
  split at h
  next => exact .inl (Except.error.inj h).symm
  next =>
    dsimp only at h
    split at h
    · exact .inr (refusal_code h)
    · cases h

/-- 10 R224: PFMT changes the format of a well-formed pointer. -/
def reformat (q : Ptr) (fmt : Nat) : Except Nat Ptr := if q.wf then .ok { q with fmt := fmt } else .error 0x2007

theorem reformat_error {q : Ptr} {fmt code : Nat} (h : reformat q fmt = .error code) : code = 0x2007 ∨ code = 0x2008 := by
  unfold reformat at h
  split at h
  · cases h
  · exact .inl (Except.error.inj h).symm

section Derivations
variable {o : Op} {x : Args} {s : State} {c : Ctx} {f : Ctx → Except Nat Ptr}

/-- 10 R222: an instruction whose derivation succeeds writes `p`D. -/
theorem deriveExec_next (hi : s.issues o x c) {q : Ptr} (hf : f c = .ok q) :
    ∃ t g, deriveExec o x s f = .next t ∧ s.Wrote t c x g ∧ c.g.wrotePointer g x.d.toNat q.toBits ∧
      g.v = c.g.v ∧ g.vtags = c.g.vtags ∧ g.s = c.g.s ∧ c.g.sameModes g := by
  obtain ⟨t, g, ht, hw, hp, hv, hvt, hs, hm, -⟩ := writeP_wrote hi.1 x x.d.toNat q.toBits
  refine ⟨t, g, ?_, hw, hp, hv, hvt, hs, hm⟩
  unfold deriveExec
  rw [issue_eq hi, hf, ← ht]
  rfl

/-- 10 R222: one whose derivation fails traps in every lane. -/
theorem deriveExec_traps (hi : s.issues o x c) {code : Nat} (hf : f c = .error code) :
    deriveExec o x s f = .next (s.trapped c x (lanesTrap (c.active x) code) 0) := by
  unfold deriveExec
  rw [issue_eq hi, hf]
  rfl

end Derivations

/-- Settles O29: each instruction is `deriveExec` of its derivation, which answers a pointer or one of the two codes. -/
theorem pointerDerivation : Obligations.PointerDerivation := by
  intro s c x q derives
  have row : ∀ {o : Op} {i : Instr} (f : Ctx → Except Nat Ptr), s.issues o x c → exec i s = deriveExec o x s f →
      (∀ code, f c = .error code → code = 0x2007 ∨ code = 0x2008) → derives i (f c) := by
    intro o i f hi hexec hcode
    cases hf : f c with
    | ok q' =>
      obtain ⟨t, g, ht, hrest⟩ := deriveExec_next hi hf
      exact ⟨t, g, hexec.trans ht, hrest⟩
    | error code => exact ⟨hcode code hf, hexec.trans (deriveExec_traps hi hf)⟩
  refine ⟨fun hi => ?_, fun hi => ?_, fun hi => ?_, fun hi => ?_⟩
  · exact row (fun c => (c.ptr x.a.toNat).derive (c.s2 x.b.toNat) (some ((immOf x).getD (c.s2 x.c.toNat)))) hi rfl
      fun _ => derive_error
  · exact row (fun c => (c.ptr x.a.toNat).derive ((immOf x).getD (c.s2 x.b.toNat)) none) hi rfl fun _ => derive_error
  · exact row (fun c => reformat (c.ptr x.a.toNat) x.c.toNat) hi rfl fun _ => reformat_error
  · exact row (fun c => (c.ptr x.a.toNat).restrict x.b.toNat x.c.toNat) hi rfl fun _ => restrict_error

/-! ### PNULL and PGET.quad -/

/-- 10 R226: the register writes of a pointer moved into a quad of each of some lanes. -/
def quadWrites (act : List Nat) (d : Nat) (q : PtrBits) : List (Nat × Word) := act.flatMap (fun l => quadPut d l q)

theorem mem_quadWrites {act : List Nat} {d : Nat} {q : PtrBits} {kv : Nat × Word} :
    kv ∈ quadWrites act d q ↔ ∃ l ∈ act, ∃ i < 4, kv = ((d + i) * 64 + l, q.extractLsb' (32 * i) 32) := by
  have hput : ∀ l, kv ∈ quadPut d l q ↔ ∃ i < 4, kv = ((d + i) * 64 + l, q.extractLsb' (32 * i) 32) := fun l => by
    simp only [quadPut, List.mem_cons, List.not_mem_nil, or_false, Nat.exists_lt_succ_right, Nat.not_lt_zero, false_and,
      exists_false, false_or, or_assoc]
    rfl
  simp only [quadWrites, List.mem_flatMap, hput]

theorem mem_foldl_setAdd {ts l : List Nat} {j : Nat} : j ∈ ts.foldl (fun l t => setAdd t l) l ↔ j ∈ ts ∨ j ∈ l := by
  induction ts generalizing l with
  | nil => simp
  | cons t ts ih => rw [List.foldl_cons, ih, mem_setAdd, List.mem_cons, or_left_comm, or_assoc]

/-- 10 R226, 02 R32: a group with a pointer in a quad of each of some lanes, and its pointer-valid bit as it is well-formed. -/
def putQuads (g : Group) (act : List Nat) (d : Nat) (q : PtrBits) : Group :=
  let h := g.setV (quadWrites act d q)
  if (Ptr.ofBits q).wf then h.tagV (act.map (fun l => d / 4 * 64 + l)) else h

section Quads
variable {g : Group} {act : List Nat} {d : Nat} {q : PtrBits}

theorem putQuads_frame (g : Group) (act : List Nat) (d : Nat) (q : PtrBits) :
    putQuads g act d q =
      { g with v := assocSets 0 (quadWrites act d q) g.v, vtags := (putQuads g act d q).vtags } := by
  unfold putQuads
  dsimp only
  split <;> rfl

/-- 10 R226: the registers of the quads hold the words of the pointer. -/
theorem putQuads_vReg (hact : ∀ l ∈ act, l < 64) (hd : d % 4 = 0) {r l : Nat} (hl : l < 64) :
    (putQuads g act d q).vReg r l =
      if l ∈ act ∧ r / 4 = d / 4 then q.extractLsb' (32 * (r % 4)) 32 else g.vReg r l := by
  have hkey : ∀ kv ∈ quadWrites act d q, kv.1 = r * 64 + l →
      l ∈ act ∧ r / 4 = d / 4 ∧ kv.2 = q.extractLsb' (32 * (r % 4)) 32 := fun kv hkv hk => by
    obtain ⟨l', hl', i, hi, rfl⟩ := mem_quadWrites.1 hkv
    have := hact l' hl'
    dsimp only at hk
    obtain ⟨rfl, rfl⟩ : l' = l ∧ r = d + i := by omega
    exact ⟨hl', by omega, by rw [show (d + i) % 4 = i by omega]⟩
  unfold Group.vReg
  rw [putQuads_frame]
  split
  next h =>
    refine assocGet_sets_mem _ _ _ _ _ (mem_quadWrites.2 ⟨l, h.1, r % 4, Nat.mod_lt _ (by decide), ?_⟩) fun kv hkv hk => (hkey kv hkv hk).2.2
    rw [show d + r % 4 = r by omega]
  next h => exact assocGet_sets_ne _ _ _ _ fun kv hkv hk => h ⟨(hkey kv hkv hk).1, (hkey kv hkv hk).2.1⟩

/-- 02 R32: a write of quads clears the pointer-valid bits of those quads. -/
theorem mem_setV_quadWrites (hact : ∀ l ∈ act, l < 64) (hd : d % 4 = 0) {n l : Nat} (hl : l < 64) :
    n * 64 + l ∈ (g.setV (quadWrites act d q)).vtags ↔ n * 64 + l ∈ g.vtags ∧ ¬(l ∈ act ∧ n = d / 4) := by
  have hany : (quadWrites act d q).any (fun kv => kv.1 / 256 * 64 + kv.1 % 64 == n * 64 + l) = true ↔ l ∈ act ∧ n = d / 4 := by
    rw [List.any_eq_true]
    constructor
    · rintro ⟨kv, hkv, hk⟩
      obtain ⟨l', hl', i, hi, rfl⟩ := mem_quadWrites.1 hkv
      have := hact l' hl'
      rw [beq_iff_eq] at hk
      dsimp only at hk
      obtain ⟨rfl, hn⟩ : l' = l ∧ n = d / 4 := by omega
      exact ⟨hl', hn⟩
    · rintro ⟨hmem, rfl⟩
      exact ⟨_, mem_quadWrites.2 ⟨l, hmem, 0, by decide, rfl⟩, beq_iff_eq.2 (by dsimp only; omega)⟩
  unfold Group.setV
  dsimp only
  split
  next he => simp only [List.isEmpty_iff.1 he, List.not_mem_nil, false_and]
  next => rw [List.mem_filter, Bool.not_eq_true', ← Bool.not_eq_true, hany]

/-- 10 R226: the quads are valid pointers just where the pointer is well-formed. -/
theorem putQuads_vtags (hact : ∀ l ∈ act, l < 64) (hd : d % 4 = 0) {n l : Nat} (hl : l < 64) :
    n * 64 + l ∈ (putQuads g act d q).vtags ↔
      if l ∈ act ∧ n = d / 4 then (Ptr.ofBits q).wf = true else n * 64 + l ∈ g.vtags := by
  have hset := mem_setV_quadWrites (g := g) (q := q) hact hd (n := n) hl
  have htag : n * 64 + l ∈ act.map (fun l => d / 4 * 64 + l) ↔ l ∈ act ∧ n = d / 4 := by
    rw [List.mem_map]
    constructor
    · rintro ⟨l', hl', hk⟩
      have := hact l' hl'
      obtain ⟨rfl, hn⟩ : l' = l ∧ n = d / 4 := by omega
      exact ⟨hl', hn⟩
    · rintro ⟨hmem, rfl⟩
      exact ⟨l, hmem, rfl⟩
  unfold putQuads
  dsimp only
  by_cases hwf : (Ptr.ofBits q).wf = true
  · rw [if_pos hwf]
    unfold Group.tagV
    rw [mem_foldl_setAdd, htag, hset]
    split <;> simp_all
  · rw [if_neg hwf, hset]
    split <;> simp_all

end Quads

/-- 10 R226: what PGET.quad leaves. -/
theorem execPgetQuad_next {s : State} {c : Ctx} {x : Args} (hi : s.issues .pgetQuad x c) :
    ∃ t, execPgetQuad x s = .next t ∧
      s.Wrote t c x (c.after s x (putQuads
        (c.g.dropPending c.free ((quadWrites (c.active x) x.d.toNat (c.p x.a.toNat)).map (·.1))) (c.active x) x.d.toNat (c.p x.a.toNat))) := by
  obtain ⟨t, rfl, hw⟩ := wrote_of hi.1 x (fun g => putQuads
      (g.dropPending c.free ((quadWrites (c.active x) x.d.toNat (c.p x.a.toNat)).map (·.1))) (c.active x) x.d.toNat (c.p x.a.toNat))
    (fun g => by rw [putQuads_frame, dropPending_ops])
  refine ⟨_, ?_, hw⟩
  unfold execPgetQuad
  rw [issueDone_eq hi]
  dsimp only [putQuads]
  split
  · rw [State.writeV, State.modGroup_modGroup _ _ _ _ (fun g => by rw [setV_frame, dropPending_ops])]
    rfl
  · rfl

/-- Settles O31: PNULL writes one pointer; PGET.quad puts its pointer into a quad of each active lane. -/
theorem pointerMoves : Obligations.PointerMoves := by
  intro s c x
  refine ⟨fun hi => ?_, fun hi hd => ?_⟩
  · obtain ⟨t, g, rfl, hw, hp, hv, hvt, hs, hm, -⟩ := writeP_wrote hi.1 x x.d.toNat nullPtr
    exact ⟨_, g, (show execPnull x s = _ from issueDone_eq hi _), hw, hp, hv, hvt, hs, hm⟩
  · obtain ⟨t, ht, hw⟩ := execPgetQuad_next hi
    have hact := Machine.active_lt c x
    refine ⟨t, _, ht, hw, fun r l hl => ?_, fun n l hl => ?_, ?_, ?_, ?_⟩
    · refine (putQuads_vReg (g := c.g.dropPending _ _) hact hd hl).trans ?_
      simp only [Group.vReg, dropPending_v]
    · refine (putQuads_vtags (g := c.g.dropPending _ _) hact hd hl).trans ?_
      simp only [dropPending_vtags]
    iterate 2 (rw [putQuads_frame, dropPending_ops]; rfl)
    · rw [putQuads_frame, dropPending_ops]
      exact ⟨rfl, rfl, rfl, rfl⟩

end Sys2Proof.Laws
end

section
/-!
WIDEN and NARROW (10 R229, R230), ICINV (10 R246), PREF (10 R245).
-/
namespace Sys2Proof.Laws
open Sys2Proof.Machine

/-! ### WIDEN and NARROW -/

section Rescoped
variable {s : State} {c : Ctx} {x : Args}

theorem scopeCheck_widen {q : Ptr} {n : Nat} (hwf : q.wf = true) (hcov : covers q.scope q.origin c.core = true)
    (hlo : q.scope ≤ n) (hhi : n ≤ q.ceil) : scopeCheck c q true n = none := by
  simp [scopeCheck, hwf, hcov, Nat.not_lt.2 hlo, Nat.not_lt.2 hhi]

theorem scopeCheck_narrow {q : Ptr} {n : Nat} (hwf : q.wf = true) (hcov : covers q.scope q.origin c.core = true)
    (hn : n ≤ q.scope) : scopeCheck c q false n = none := by
  simp [scopeCheck, hwf, hcov, Nat.not_lt.2 hn]

/-- 10 R229, R230: a WIDEN that no check and no acknowledgement holds releases its range and writes the pointer. -/
theorem widen_next (hi : s.issues .widen x c) (hcheck : scopeCheck c (c.ptr x.a.toNat) true x.b.toNat = none)
    (hpod : x.b.toNat < 4 ∨ s.podWait c none = none) (hack : s.rangeUnacked c (c.ptr x.a.toNat) = false) :
    exec (.widen x) s = .next (((s.releaseRange c.w.phys (s.partOf c.w.part) (c.ptr x.a.toNat) x.b.toNat).writeP c
      [(x.d.toNat, ((c.ptr x.a.toNat).rescope 2 x.b.toNat c.core).toBits)]).finish c x) := by
  have hwait : (if x.b.toNat ≥ 4 then s.podWait c none else none) = none := by
    split
    next h => exact hpod.resolve_left (Nat.not_lt.2 h)
    next => rfl
  show execWiden x s = _
  unfold execWiden
  rw [issue_eq hi]
  simp only [hcheck, hwait, hack, Bool.false_eq_true, if_false]
  rfl

/-- 10 R229, R230: a NARROW that no check stops acquires its range and writes the pointer. -/
theorem narrow_next (hi : s.issues .narrow x c) (hcheck : scopeCheck c (c.ptr x.a.toNat) false x.b.toNat = none) :
    exec (.narrow x) s =
      .next (((s.acquireRange c.w.phys (s.partOf c.w.part) (c.ptr x.a.toNat) (c.ptr x.a.toNat).scope).writeP c
        [(x.d.toNat, ((c.ptr x.a.toNat).rescope 0 x.b.toNat c.core).toBits)]).finish c x) := by
  show execNarrow x s = _
  unfold execNarrow
  rw [issue_eq hi]
  simp only [hcheck]
  rfl

end Rescoped

/-! ### ICINV -/

/-- 10 R246: the code of a pointer's reachable set discarded from the cores within a scope of a core. -/
def dropCode (s : State) (p : Partition) (q : Ptr) (n core : Nat) : State :=
  (coresWithin n core).foldl (fun (s : State) k => s.discardCode p q k) s

/-- 10 R246: an ICINV whose checks pass, with nothing of its range unacknowledged, releases and discards. -/
theorem icinv_next {s : State} {c : Ctx} {x : Args} (hi : s.issues .icinv x c) (hwf : (c.ptr x.a.toNat).wf = true)
    (hspace : (c.ptr x.a.toNat).space = 4) (hw : (c.ptr x.a.toNat).w = true)
    (hcov : covers (c.ptr x.a.toNat).scope (c.ptr x.a.toNat).origin c.core = true)
    (hack : s.rangeUnacked c (c.ptr x.a.toNat) = false) :
    exec (.icinv x) s = .next ((dropCode (s.releaseRange c.w.phys (s.partOf c.w.part) (c.ptr x.a.toNat) (max x.b.toNat 1))
      (s.partOf c.w.part) (c.ptr x.a.toNat) x.b.toNat c.w.phys).finish c x) := by
  show execIcinv x s = _
  unfold execIcinv
  rw [issue_eq hi]
  simp only [hwf, hspace, hw, hcov, hack, Bool.not_true, Bool.false_eq_true, if_false, ne_eq, not_true_eq_false]
  rfl

theorem discarded_id {sp sp' : Split} (h : sp.discarded sp') : sp'.id = sp.id := by
  rcases h with rfl | ⟨-, rfl⟩ <;> rfl

/-- 06 R115: a split within its clause keeps it. -/
theorem discarded_started {sp sp' : Split} (h : sp.discarded sp') (hs : sp.started = true) : sp' = sp :=
  h.resolve_right fun h => absurd h.1 (by simp [hs])

/-- 06 R115: a split at a word of its clause has started it. -/
theorem sees_started {s : State} {c : Ctx} (h : s.sees c) :
    ∃ sp site, c.g.split? c.sp.id = some sp ∧ sp.started = true ∧ sp.hold ≠ .faulted ∧ c.sp = { sp with site := site } := by
  obtain ⟨-, -, -, -, c0, -, hw, hc, hsp⟩ := State.sees_eq h
  simp only [Ctx.atWord, Bool.and_eq_true, bne_iff_ne, ne_eq, Bool.not_eq_true'] at hw
  obtain ⟨⟨⟨-, hword⟩, hskip⟩, hhold⟩ := hw
  refine ⟨c0.sp, c.sp.site, hsp, ?_, hhold, by rw [hc]; rfl⟩
  simp [Split.started, hword, hskip]

/-- 06 R115: a group whose splits may have lost clauses that they had not started. -/
def trimGroup (g : Group) (f : Split → Split) : Group := { g with splits := g.splits.map f }

theorem trim_split? {g : Group} {f : Split → Split} (hf : ∀ sp : Split, sp.discarded (f sp)) (k : Nat) :
    (trimGroup g f).split? k = (g.split? k).map f :=
  find?_mapSame (fun sp : Split => sp.id == k) f g.splits fun sp => by rw [discarded_id (hf sp)]

/-- 06 R115: the groups of a state trimmed. -/
theorem trimmed_group? {s t : State} {f : Group → Split → Split} (h : t.groups = s.groups.map (fun g => trimGroup g (f g))) (k : Nat) :
    t.group? k = (s.group? k).map (fun g => trimGroup g (f g)) := by
  unfold State.group?
  rw [h]
  exact find?_mapSame (fun g : Group => g.gid == k) _ s.groups fun _ => rfl

theorem trimmed_gids {s t : State} {f : Group → Split → Split} (h : t.groups = s.groups.map (fun g => trimGroup g (f g))) :
    t.groups.map (·.gid) = s.groups.map (·.gid) := by
  rw [h, List.map_map]; rfl

/-- 10 R246: what an ICINV leaves of the instruction caches. -/
theorem dropCode_icache {s : State} (core : Nat) (p p' : Partition) (q : Ptr) (m n : Nat) (k : Nat) :
    ((dropCode (s.releaseRange core p' q m) p q n core).core k).icache = if k ∈ coresWithin n core then
      (s.core k).icache.filter (fun l => !(s.releaseRange core p' q m).codeOverlaps p q l) else (s.core k).icache := by
  unfold dropCode
  rw [discards_icache p q _ (coresWithin_nodup n core), (sc_releaseRange s core p' q m).eq]

/-- 10 R246, 06 R115: what an ICINV leaves of the groups: the issuing split has passed, and of the others clauses that they had
fetched and not started may have gone. -/
structure Invalidated (s t : State) (c : Ctx) (x : Args) (g : Group) : Prop where
  group : t.group? c.g.gid = some g
  regs : c.g.sameRegs g
  modes : c.g.sameModes g
  flags : g.flags = c.g.flags
  ops : g.ops = c.g.ops
  passed : ∃ sp, g.split? c.sp.id = some sp ∧ sp.mask = c.sp.mask ∧
    (sp.pc, sp.word) = (if nextWord c.sp x < c.sp.clause.length then (c.sp.pc, nextWord c.sp x) else (c.sp.nextPc, 0))
  gids : t.groups.map (·.gid) = s.groups.map (·.gid)
  others : ∀ k, k ≠ c.g.gid → ∀ y, s.group? k = some y → ∃ h f, t.group? k = some h ∧ (∀ sp : Split, sp.discarded (f sp)) ∧
    h.bare = { y.bare with splits := y.splits.map f }
  splits : ∀ j, j ≠ c.sp.id → ∀ y, c.g.split? j = some y → ∃ y', g.split? j = some y' ∧ y.discarded y'

/-- An instruction after which groups differ by what memory has done and by clauses discarded. -/
theorem invalidated_of {s u v : State} {c : Ctx} (hs : s.sees c) (x : Args) (hu : ∀ G : Placed, s.Calm G → u.Calm G) (hv : Trimmed u v) :
    ∃ g, Invalidated s (v.finish c x) c x g := by
  obtain ⟨f, hf, hgroups⟩ := hv
  have hcalm : u.Calm s.placed := hu _ rfl
  obtain ⟨g0, hg0, he0⟩ := calm_group? hcalm c.g.gid (State.sees_eq hs).1
  have hsplits : g0.splits = c.g.splits := by rw [he0]
  have hgv : v.group? c.g.gid = some (trimGroup g0 (f g0)) := by rw [trimmed_group? hgroups, hg0]; rfl
  have hsplit : ∀ j, (trimGroup g0 (f g0)).split? j = (c.g.split? j).map (f g0) := fun j => by
    rw [trim_split? (hf g0), split?_congr hsplits]
  obtain ⟨h, hh, hsame, hframe, hothers, hissuer⟩ := passedInstructionFrame v c x _ hgv
  obtain ⟨sp, site, hsp, hstarted, hhold, hc⟩ := sees_started hs
  have hkept : (trimGroup g0 (f g0)).split? c.sp.id = some sp := by
    rw [hsplit, hsp, Option.map_some, discarded_started (hf g0 sp) hstarted]
  obtain ⟨sp', hsp', -, hplace, hmask, -⟩ := hissuer sp hkept (by rw [hc]) (by rw [hc]) (by rw [hc]) hhold
  obtain ⟨hregs, hmodes, hflags, hops⟩ : c.g.sameRegs h ∧ c.g.sameModes h ∧ h.flags = c.g.flags ∧ h.ops = c.g.ops := by
    rw [hframe, he0]
    exact ⟨⟨rfl, rfl, rfl, rfl⟩, ⟨rfl, rfl, rfl, rfl⟩, rfl, rfl⟩
  refine ⟨h, hh, hregs, hmodes, hflags, hops, ⟨sp', hsp', by rw [hmask, hc], by rw [hplace, hc]; rfl⟩, ?_, fun k hk y hy => ?_,
    fun j hj y hy => ?_⟩
  · exact hsame.2.1.trans ((trimmed_gids hgroups).trans (calm_gids hcalm))
  · obtain ⟨y', hy', he⟩ := calm_group? hcalm k hy
    refine ⟨trimGroup y' (f y'), f y', ?_, hf y', ?_⟩
    · rw [hsame.2.2 k hk, trimmed_group? hgroups, hy']; rfl
    · rw [he]; rfl
  · exact ⟨f g0 y, by rw [hothers j hj, hsplit, hy]; rfl, hf g0 y⟩

/-! ### PREF -/

/-- 10 R245: what PREF does for a lane. -/
def prefLane (c : Ctx) (x : Args) (s : State) (a : LaneAcc) : State :=
  match a.places with
  | [.home pa va false _] =>
    if prefTakes a.q then (s.touches c.w.phys (s.partOf c.w.part) [va]).prefLine c (x.mod.toNat % 2 == 1) a.q.inv pa else s
  | [.far o va ace false] =>
    if prefTakes a.q && a.q.cls == 1 then (s.touches c.w.phys (s.partOf c.w.part) [va]).prefFar c a.q (.far o va ace false) else s
  | _ => s

/-- The accesses of a PREF that pass their checks: the others fault no lane. -/
def prefAccs (s : State) (c : Ctx) (x : Args) : List LaneAcc :=
  (splitLanes ((c.active x).map (fun l =>
    s.checkLane c .load (fun q => fmtPlain q.fmt) (fun _ _ => none) (c.laneAsk x false l (c.offset x l) 1)))).2

/-- 10 R245: PREF never traps. -/
theorem pref_next {s : State} {c : Ctx} {x : Args} (hi : s.issues .pref x c) :
    exec (.pref x) s = .next (((prefAccs s c x).foldl (prefLane c x) s).finish c x) := by
  show execPref x s = _
  unfold execPref
  rw [issue_eq hi]
  rfl

/-- 10 R245: PREF does nothing for a lane, or asks for its line in its own package, or in another. -/
theorem prefLane_cases (c : Ctx) (x : Args) (s : State) (a : LaneAcc) :
    prefLane c x s a = s ∨
    (∃ pa va ace, a.places = [.home pa va false ace] ∧
      prefLane c x s a = (s.touches c.w.phys (s.partOf c.w.part) [va]).prefLine c (x.mod.toNat % 2 == 1) a.q.inv pa) ∨
    ∃ va p, prefLane c x s a = (s.touches c.w.phys (s.partOf c.w.part) [va]).prefFar c a.q p := by
  unfold prefLane
  split
  next pa va ace hp =>
    split
    · exact .inr (.inl ⟨pa, va, ace, hp, rfl⟩)
    · exact .inl rfl
  next o va ace _ =>
    split
    · exact .inr (.inr ⟨va, .far o va ace false, rfl⟩)
    · exact .inl rfl
  next => exact .inl rfl

/-- 10 R245: what obtaining a line of the package may be. -/
theorem prefLine_cases (s : State) (c : Ctx) (firn inv : Bool) (pa : Nat) :
    s.prefLine c firn inv pa = s ∨
    (firn = true ∧ s.prefLine c firn inv pa = s.share_ (coreDie c.w.phys) (pa / 128)) ∨
    (firn = false ∧ ∃ u, s.roomFor c.w.phys (pa / 128) (s.resvLines c.w.phys) = some u ∧
      s.prefLine c firn inv pa = u.fillFrom c.w.phys c.w.part inv (pa / 128)) := by
  unfold State.prefLine
  dsimp only
  split
  · exact .inl rfl
  · split
    next hfirn => exact .inr (.inl ⟨hfirn, rfl⟩)
    next hfirn =>
      split
      next u hu => exact .inr (.inr ⟨Bool.eq_false_iff.2 hfirn, u, hu, rfl⟩)
      next => exact .inl rfl

/-- 10 R245, 20 R379: asking for a line of another package sends a packet, or nothing. -/
theorem prefFar_cases (s : State) (c : Ctx) (q : Ptr) (p : Place) :
    s.prefFar c q p = s ∨ ∃ pkt, s.prefFar c q p = (s.send pkt).1 := by
  unfold State.prefFar
  split
  · split
    · exact .inl rfl
    · exact .inr ⟨_, rfl⟩
  · exact .inl rfl

theorem prefLine_calm {G : Placed} (s : State) (c : Ctx) (firn inv : Bool) (pa : Nat) (h : s.Calm G) : (s.prefLine c firn inv pa).Calm G := by
  obtain e | ⟨-, e⟩ | ⟨-, u, hu, e⟩ := prefLine_cases s c firn inv pa <;> rw [e]
  · exact h
  · exact State.share__calm _ _ _ h
  · exact State.fillFrom_calm _ _ _ _ _ (State.roomFor_calm hu h)

theorem prefFar_calm {G : Placed} (s : State) (c : Ctx) (q : Ptr) (p : Place) (h : s.Calm G) : (s.prefFar c q p).Calm G := by
  obtain e | ⟨pkt, e⟩ := prefFar_cases s c q p <;> rw [e]
  · exact h
  · exact State.send_calm _ _ h

theorem prefLane_calm {G : Placed} (c : Ctx) (x : Args) (s : State) (a : LaneAcc) (h : s.Calm G) : (prefLane c x s a).Calm G := by
  obtain e | ⟨pa, va, -, -, e⟩ | ⟨va, p, e⟩ := prefLane_cases c x s a <;> rw [e]
  · exact h
  · exact prefLine_calm _ _ _ _ _ (State.touches_calm _ _ _ _ h)
  · exact prefFar_calm _ _ _ _ (State.touches_calm _ _ _ _ h)

/-- 01 R12: an L1 whose lines fit it beside a line holds that line, or fewer lines than it can. -/
theorem linesHeld_fits {k : Core} {line : Nat} {S : List Nat} (h : k.fits S) (hl : line ∈ S) :
    k.linesHeld.length < l1Lines ∨ line ∈ k.linesHeld := by
  refine Decidable.byContradiction fun hn => ?_
  obtain ⟨hfull, hout⟩ := not_or.1 hn
  have hheld : ∀ y ∈ line :: k.linesHeld, y ∈ S := fun y hy => by
    rcases List.mem_cons.1 hy with rfl | hy
    · exact hl
    · obtain ⟨w, hw, rfl⟩ := List.mem_map.1 (mem_uniq.1 hy)
      exact h.held w hw
  have hlen := nodup_length (List.nodup_cons.2 ⟨hout, nodup_uniq _⟩) hheld
  have hsize := h.size
  rw [List.length_cons] at hlen
  omega

/-- 01 R12: an L1 that has room for a line gives it with nothing evicted, whatever lines it is to keep. -/
theorem roomFor_fits {s u : State} {core line : Nat} {S keep : List Nat} (h : (s.core core).fits S) (hl : line ∈ S)
    (hu : s.roomFor core line keep = some u) : u = s := by
  unfold State.roomFor at hu
  dsimp only at hu
  split at hu
  · exact (Option.some.inj hu).symm
  · rw [if_pos (by simpa using linesHeld_fits h hl)] at hu
    exact (Option.some.inj hu).symm

theorem fillFrom_fits {s : State} {core line : Nat} {S : List Nat} (h : (s.core core).fits S) (hl : line ∈ S) (part : Nat) (inv : Bool) :
    ((s.fillFrom core part inv line).core core).fits S := by
  unfold State.fillFrom
  dsimp only
  rw [core_modCore_self]
  refine fits_fillLine (fits_keepsKeys (keepsKeys_trans (share_keepsKeys s _ _)
    (keepsKeys_foldl (fun _ _ => noteForward_keepsKeys ..) _ _)) h) hl _ fun k w e => ?_
  split at e
  · cases e
  · cases e; rfl

theorem send_sameView (s : State) (pkt : SentPacket) : s.SameView (s.send pkt).1 ∧ s.keepsKeys (s.send pkt).1 :=
  ⟨sameView_of rfl rfl rfl fun _ => rfl, keepsKeys_of fun _ => rfl⟩

theorem prefFar_sameView (s : State) (c : Ctx) (q : Ptr) (p : Place) : s.SameView (s.prefFar c q p) ∧ s.keepsKeys (s.prefFar c q p) := by
  obtain e | ⟨pkt, e⟩ := prefFar_cases s c q p <;> rw [e]
  · exact ⟨.refl s, keepsKeys_of fun _ => rfl⟩
  · exact send_sameView s pkt

/-- 10 R245: into the Firn, or into an L1 with room for its line, PREF of a lane leaves memory, and the L1 with that room. -/
theorem prefLane_refreshed {c : Ctx} {x : Args} {S : List Nat} {s : State} {a : LaneAcc}
    (h : x.mod.toNat % 2 = 1 ∨ (s.core c.w.phys).fits S ∧ ∀ p ∈ a.places, p.key / 128 ∈ S) :
    s.Refreshed (prefLane c x s a) ∧ (x.mod.toNat % 2 = 1 ∨ ((prefLane c x s a).core c.w.phys).fits S) := by
  have htouch : ∀ va, s.SameView (s.touches c.w.phys (s.partOf c.w.part) [va]) ∧ s.keepsKeys (s.touches c.w.phys (s.partOf c.w.part) [va]) :=
    fun va => ⟨touches_sameView .., touches_keepsKeys ..⟩
  have hfits : ∀ {t : State}, s.keepsKeys t → x.mod.toNat % 2 = 1 ∨ (t.core c.w.phys).fits S :=
    fun hk => h.imp_right fun h => fits_keepsKeys hk h.1
  obtain e | ⟨pa, va, ace, hp, e⟩ | ⟨va, p, e⟩ := prefLane_cases c x s a <;> rw [e]
  · exact ⟨(State.SameView.refl s).refreshed, hfits (keepsKeys_of fun _ => rfl)⟩
  · obtain ⟨hview, hkeys⟩ := htouch va
    generalize s.touches c.w.phys (s.partOf c.w.part) [va] = t at hview hkeys
    obtain e | ⟨-, e⟩ | ⟨hfirn, u, hu, e⟩ := prefLine_cases t c (x.mod.toNat % 2 == 1) a.q.inv pa <;> rw [e]
    · exact ⟨hview.refreshed, hfits hkeys⟩
    · exact ⟨(hview.trans (share_sameView ..)).refreshed, hfits (keepsKeys_trans hkeys (share_keepsKeys ..))⟩
    · have hl1 := h.resolve_left (beq_eq_false_iff_ne.1 hfirn)
      have hline : pa / 128 ∈ S := hl1.2 (.home pa va false ace) (by rw [hp]; exact List.mem_cons_self)
      have ht := fits_keepsKeys hkeys hl1.1
      obtain rfl := roomFor_fits ht hline hu
      exact ⟨hview.refreshed.trans (fillFrom_refreshed ..), .inr (fillFrom_fits ht hline _ _)⟩
  · obtain ⟨hview, hkeys⟩ := htouch va
    obtain ⟨hfar, hfark⟩ := prefFar_sameView (s.touches c.w.phys (s.partOf c.w.part) [va]) c a.q p
    exact ⟨(hview.trans hfar).refreshed, hfits (keepsKeys_trans hkeys hfark)⟩

/-- 10 R245: likewise of its lanes in turn. -/
theorem prefLanes_refreshed {c : Ctx} {x : Args} {S : List Nat} {as : List LaneAcc} {s : State}
    (h : x.mod.toNat % 2 = 1 ∨ (s.core c.w.phys).fits S ∧ ∀ a ∈ as, ∀ p ∈ a.places, p.key / 128 ∈ S) :
    s.Refreshed (as.foldl (prefLane c x) s) := by
  induction as generalizing s with
  | nil => exact (State.SameView.refl s).refreshed
  | cons a as ih =>
    obtain ⟨hlane, hroom⟩ := prefLane_refreshed (a := a) (h.imp_right fun h => ⟨h.1, h.2 a List.mem_cons_self⟩)
    refine hlane.trans (ih ?_)
    rcases h with h | ⟨-, hlines⟩
    · exact .inl h
    · exact hroom.imp_right fun hf => ⟨hf, fun b hb => hlines b (List.mem_cons_of_mem a hb)⟩

/-- Settles O38: WIDEN and NARROW write one pointer in a state that memory has served; ICINV by `invalidated_of` and
`dropCode_icache`; PREF by its lanes in turn. -/
theorem scopesAndCodeLines : Obligations.ScopesAndCodeLines := by
  intro s c x q n moves
  refine ⟨fun hi hwf hcov hlo hhi hpod hack => ?_, fun hi hwf hcov hn => ?_, fun hi hwf hspace hw hcov hack => ?_, fun hi => ?_⟩
  · obtain ⟨g, hrest⟩ := writeP_served hi.1 x x.d.toNat (q.rescope 2 n c.core).toBits
      (fun _ h => State.releaseRange_calm s c.w.phys (s.partOf c.w.part) q n h)
    exact ⟨_, g, widen_next hi (scopeCheck_widen hwf hcov hlo hhi) hpod hack, hrest⟩
  · obtain ⟨g, hrest⟩ := writeP_served hi.1 x x.d.toNat (q.rescope 0 n c.core).toBits
      (fun _ h => State.acquireRange_calm s c.w.phys (s.partOf c.w.part) q q.scope h)
    exact ⟨_, g, narrow_next hi (scopeCheck_narrow hwf hcov hn), hrest⟩
  · intro u
    have hcalm : ∀ G : Placed, s.Calm G → u.Calm G := fun _ h => State.releaseRange_calm _ _ _ _ _ h
    obtain ⟨htrim, hwgs⟩ := discards_trimmed (s.partOf c.w.part) q (coresWithin n c.w.phys) u
    obtain ⟨g, hgroup, hregs, hmodes, hflags, hops, ⟨sp, hsp, hmask, hplace⟩, hgids, hothers, hsplits⟩ :=
      invalidated_of hi.1 x hcalm htrim
    exact ⟨_, g, sp, icinv_next hi hwf hspace hw hcov hack, hgroup, hregs, hmodes, hflags, hops, hsp, hmask, hplace,
      hwgs.trans (calm_wgs (hcalm _ rfl)), hgids, hothers, hsplits, dropCode_icache c.w.phys _ _ q (max n 1) n⟩
  · intro as
    have hcarried : s.Carried c.g.gid id (as.foldl (prefLane c x) s) :=
      carried_calm (carried_refl ..) fun _ h => calm_foldl (prefLane_calm c x) as h
    obtain ⟨g, hS, hregs, hmodes, hflags, hops⟩ := served_only hi.1 x ⟨id, rfl⟩ hcarried
    refine ⟨_, g, pref_next hi, hS, hregs, hmodes, hflags, hops, fun h => ?_⟩
    have hfresh : s.Refreshed (as.foldl (prefLane c x) s) := prefLanes_refreshed <| h.imp_right fun hroom => by
      obtain ⟨hfits, hlines⟩ := Core.roomy_fits hroom
      exact ⟨hfits, fun a ha p hp => hlines _ (List.mem_flatMap.2 ⟨a, ha, List.mem_map.2 ⟨p, hp, rfl⟩⟩)⟩
    exact ⟨hfresh.mem, hfresh.tags, hfresh.poison⟩

end Sys2Proof.Laws
end

section
/-!
LDRES and STCND (10 R242 to R244): the reservations that they leave and clear, what they read, and what they store.
-/
namespace Sys2Proof.Laws
open Sys2Proof.Machine

/-! ### The reservations of a group -/

/-- The reservations that a group holds, by lane. -/
def resvsHeld (s : State) (k : Nat) : Option (Assoc Reservation) := (s.group? k).map (·.resv)

theorem resvsHeld_groups {s t : State} (h : t.groups = s.groups) (k : Nat) : resvsHeld t k = resvsHeld s k := by
  unfold resvsHeld State.group?
  rw [h]

/-- An outstanding instruction is listed with the reservations as they are. -/
theorem resvsHeld_pend (s : State) (c : Ctx) (op : PendingOp) (k : Nat) : resvsHeld (s.pend c op) k = resvsHeld s k := by
  have hmod := State.group?_modGroup s c.g.gid k (fun g => { (g.countUp op.flag) with ops := g.ops ++ [op] }) fun _ => rfl
  show ((s.modGroup c.g.gid _).group? k).map _ = _
  unfold resvsHeld
  rw [hmod]
  split
  next h => rw [h, Option.map_map]; rfl
  next => rfl

theorem resvsHeld_pendLoad (s : State) (c : Ctx) (x : Args) (as : List LaneAcc) (es : List LoadElem) (ty : Nat)
    (mk : Nat → List LaneAcc → Packet → Packet) (k : Nat) : resvsHeld (s.pendLoad c x as es ty mk) k = resvsHeld s k := by
  have hsent := fun far => (resvsHeld_pend _ c (mkOp c x s as es ty mk) k).trans
    (resvsHeld_groups (sendLines_groups s c s.serial far mk) k)
  rw [pendLoad_eq]
  dsimp only
  split
  · exact (resvsHeld_groups (acquireLanes_groups _ c as) k).trans (hsent _)
  · exact hsent _

/-! ### LDRES -/

/-- 10 R243: what an LDRES reads for a lane; a far element is brought by the answer to its packet. -/
def resvElem (u : State) (c : Ctx) (x : Args) (a : LaneAcc) : LoadElem :=
  let z := fmtWidth x.c.toNat / 8
  let e := u.loadElem c a x.c.toNat x.d.toNat ⟨0, z, 2⟩
  if a.isFar then { e with raw := none, here := [], far := answerElem x.c.toNat x.d.toNat a.lane z }
  else { e with far := { e.far with mfmt := 0 } }

/-- 10 R243: the elements of the accesses of an LDRES. -/
def resvElems (u : State) (c : Ctx) (x : Args) (as : List LaneAcc) : List LoadElem := as.map (resvElem u c x)

/-- 10 R244: the state in which an LDRES reads: clean words are read anew. -/
def prepResv (s : State) (c : Ctx) (as : List LaneAcc) : State := (s.dropClean c.w.phys (wordsOf as .l1)).prepRead c as

/-- 10 R243: each lane's reservation set. -/
def putResvs (u : State) (c : Ctx) (as : List LaneAcc) : State :=
  u.modGroup c.g.gid (fun g => as.foldl (fun g a => g.putResv a.lane (some a.resv)) g)

/-- The state in which an LDRES has read, reserved and logged. -/
def reserved (u : State) (c : Ctx) (x : Args) (as : List LaneAcc) : State :=
  (putResvs u c as).logElems c 5 ((as.zip (resvElems u c x as)).filterMap (fun e => e.2.raw.map (fun n => (e.1, 0, n))))

/-- 10 R243: the packet of an LDRES to another package. -/
abbrev resvPacket (x : Args) : Nat → List LaneAcc → Packet → Packet :=
  atomicPacket 10 (fmtWidth x.c.toNat / 8) x.c.toNat (fun _ => 0) (fun _ => 0)

/-- 06 R120: what an LDRES is while it is outstanding. -/
def ldresOp (u : State) (c : Ctx) (x : Args) (as : List LaneAcc) : PendingOp :=
  mkOp c x (reserved u c x as) as (resvElems u c x as) x.c.toNat (resvPacket x)

/-- What an LDRES leaves before it passes. -/
def pendLdres (u : State) (c : Ctx) (x : Args) (as : List LaneAcc) : State :=
  (reserved u c x as).pendLoad c x as (resvElems u c x as) x.c.toNat (resvPacket x)

/-- The accesses of the lanes of Active(S), where all pass their checks. -/
theorem resvLanes_ne {s : State} {c : Ctx} {x : Args} {as : List LaneAcc} (hact : c.active x ≠ [])
    (hr : c.resvLanes s x (c.active x) = ([], as)) : as ≠ [] := by
  have hlanes := (resvLanes_mem (congrArg Prod.fst hr)).1
  rw [hr] at hlanes
  rintro rfl
  exact hact hlanes.symm

/-- An LDRES that no check, no hold and no poison stops is outstanding. -/
theorem ldres_next {s : State} {c : Ctx} {x : Args} (hi : s.issues .ldres x c) {as : List LaneAcc}
    (hr : c.resvLanes s x (c.active x) = ([], as)) (hh : s.holdOf c as false 5 (as.map (fun a => (a, 0))) = none)
    (hp : s.poisonTraps as = []) : exec (.ldres x) s = .next ((pendLdres (prepResv s c as) c x as).finish c x) := by
  show execLdres x s = _
  unfold execLdres
  rw [issue_eq hi]
  simp only [hr, hh, hp, stopsAll, List.any_nil, Bool.false_or, List.isEmpty_eq_false_iff.2 (resvLanes_ne hi.2.2.1 hr),
    Bool.false_eq_true, if_false, List.isEmpty_nil, Bool.not_true, afterLanes, if_true]
  rfl

theorem dropClean_placed (s : State) (core : Nat) (ks : List Nat) (k : Nat) (F : Group → Group) :
    ((s.dropClean core ks).modGroup k F).placed = (s.modGroup k F).placed := by
  unfold State.dropClean
  split <;> rfl

theorem prepResv_carried (s : State) (c : Ctx) (as : List LaneAcc) : ∃ F, touches F ∧ s.Carried c.g.gid F (prepResv s c as) := by
  obtain ⟨F, hF, h⟩ := prepRead_carried (s.dropClean c.w.phys (wordsOf as .l1)) c as
  refine ⟨F, hF, ?_⟩
  unfold State.Carried at h
  rwa [dropClean_placed] at h

theorem reserved_carried {s u : State} {c : Ctx} {F : Group → Group} (h : s.Carried c.g.gid F u) (hF : touches F)
    (hr : s.replayOf c.w.part = none) (x : Args) (as : List LaneAcc) :
    s.Carried c.g.gid (fun g => { F g with resv := resvsOf as (F g) }) (reserved u c x as) := by
  have hput := carried_modGroup h _ (touches_gid hF) (putResvs_unlooking as)
  rw [show (fun g => as.foldl (fun g a => g.putResv a.lane (some a.resv)) (F g)) = _ from funext fun g => putResvs_eq as (F g)] at hput
  exact logElems_carried hput hr 5 _

/-- 10 R243: an LDRES that passes: its group, with what it has outstanding and the reservations that it has set. -/
theorem pendLdres_served {s u : State} {c : Ctx} {F : Group → Group} (hs : s.sees c) (h : s.Carried c.g.gid F u) (hF : touches F)
    (hr : s.replayOf c.w.part = none) (x : Args) {as : List LaneAcc} (hlanes : (as.map (·.lane)).Nodup) :
    ∃ g, s.Served ((pendLdres u c x as).finish c x) c x g ∧ c.g.sameRegs g ∧ c.g.sameModes g ∧ c.g.counted g (c.flag x) ∧
      g.ops = c.g.ops ++ [ldresOp u c x as] ∧
      ∀ a ∈ as, (g.resv.find? (fun kv => kv.1 == a.lane)).map (·.2) = some a.resv := by
  have hres := reserved_carried h hF hr x as
  have hpend := (pendLoad_carried x as (resvElems u c x as) x.c.toNat (resvPacket x) hres fun g => touches_gid hF g).1
  obtain ⟨g, hS, hregs, hmodes, hcount, hops, g0, hg0, hresv⟩ :=
    served_counted (t := pendLdres u c x as) hs x hF (fun g => resvsOf as (F g)) (ldresOp u c x as) rfl hpend
  refine ⟨g, hS, hregs, hmodes, hcount, hops, fun a ha => ?_⟩
  obtain ⟨gu, hgu, -⟩ := carried_group hs h (touches_gid hF)
  have hheld : resvsHeld (pendLdres u c x as) c.g.gid = some (resvsOf as gu) := by
    have hput : (putResvs u c as).group? c.g.gid = some (as.foldl (fun g a => g.putResv a.lane (some a.resv)) gu) := by
      unfold putResvs
      rw [State.group?_modGroup _ _ _ _ fun g => by rw [putResvs_eq], if_pos rfl, hgu]; rfl
    refine (resvsHeld_pendLoad ..).trans ((resvsHeld_groups (logElems_groups ?_ 5 _) _).trans ?_)
    · exact (carried_replayOf h _).trans hr
    · unfold resvsHeld
      rw [hput]; rfl
  unfold resvsHeld at hheld
  rw [hg0, Option.map_some, Option.some.injEq] at hheld
  rw [hresv, hheld]
  exact putResvs_find as hlanes gu a ha

/-! ### LDRES of elements in banks -/

/-- The number that the bytes of an access in a bank make. -/
def elemAtBank (s : State) (a : LaneAcc) : Nat := natOfBytes (a.places.map (fun p => s.byte p.key))

theorem prepResv_bank {as : List LaneAcc} (h : ∀ a ∈ as, a.inBank) (s : State) (c : Ctx) : prepResv s c as = s := by
  unfold prepResv
  rw [wordsOf_bank h, show s.dropClean c.w.phys [] = s from rfl, prepRead_bank h]

/-- 10 R243: an element in a bank is read at once, as it is. -/
theorem resvElem_bank {a : LaneAcc} (h : a.inBank) (u : State) (c : Ctx) {x : Args} (hn : a.places.length = fmtWidth x.c.toNat / 8) :
    resvElem u c x a = { lane := a.lane, reg := x.d.toNat, raw := some (elemAtBank u a), here := [],
                         far := { (u.loadElem c a x.c.toNat x.d.toNat ⟨0, fmtWidth x.c.toNat / 8, 2⟩).far with mfmt := 0 } } := by
  have hbank : ∀ b ∈ [a], b.inBank := fun b hb => List.mem_singleton.1 hb ▸ h
  have hraw : u.spanRead c a ⟨0, fmtWidth x.c.toNat / 8, 2⟩ = some (elemAtBank u a) := by
    rw [spanRead_eq (allHere_bank hbank) List.mem_cons_self, List.drop_zero, List.take_of_length_le (Nat.le_of_eq hn),
      readPlaces_bank h]
    rfl
  unfold resvElem
  simp only [isFar_here (allHere_bank hbank) List.mem_cons_self, Bool.false_eq_true, if_false]
  unfold State.loadElem
  simp only [hraw, Option.isSome_some, if_true]

section Banks
variable {as : List LaneAcc} {x : Args} (hb : ∀ a ∈ as, a.inBank) (hn : ∀ a ∈ as, a.places.length = fmtWidth x.c.toNat / 8)
include hb hn

theorem resvElems_here (u : State) (c : Ctx) : ∀ e ∈ resvElems u c x as, e.raw.isSome = true := fun e he => by
  obtain ⟨a, ha, rfl⟩ := List.mem_map.1 he
  rw [resvElem_bank (hb a ha) u c (hn a ha)]; rfl

/-- Of elements in banks an LDRES has the values at once. -/
theorem ldresOp_bank (u : State) (c : Ctx) :
    (ldresOp u c x as).ready = true ∧ (ldresOp u c x as).elems = [] ∧
      (ldresOp u c x as).vWrites =
        as.flatMap (fun a => elemWrites x.c.toNat x.d.toNat a.lane (extendElem x.c.toNat (elemAtBank u a))) := by
  obtain ⟨hawaits, hengine, helems, -⟩ := (pendLoad_carried x as (resvElems u c x as) x.c.toNat (resvPacket x)
    (carried_refl (reserved u c x as) c.g.gid) (fun _ => rfl)).2 (allHere_bank hb) (resvElems_here hb hn u c)
  refine ⟨?_, helems, ?_⟩
  · unfold PendingOp.ready
    rw [show (ldresOp u c x as).awaits = [] from hawaits, show (ldresOp u c x as).waitsEngine = false from hengine]; rfl
  · show (List.filterMap _ (as.map (resvElem u c x))).flatMap _ = _
    rw [List.filterMap_map, filterMap_all as _ (fun a => (resvElem u c x a, loadValue c.fmode 0 x.c.toNat (elemAtBank u a))) fun a ha => ?_,
      List.flatMap_map]
    · refine flatMap_congr_mem fun a ha => ?_
      rw [resvElem_bank (hb a ha) u c (hn a ha)]
      rfl
    · show (resvElem u c x a).raw.map _ = _
      rw [resvElem_bank (hb a ha) u c (hn a ha)]; rfl

/-- An LDRES of elements in banks leaves memory and tags. -/
theorem pendLdres_bank {u : State} {c : Ctx} (hr : u.replayOf c.w.part = none) :
    (pendLdres u c x as).mem = u.mem ∧ (pendLdres u c x as).tags = u.tags := by
  obtain ⟨-, -, -, hpend⟩ := (pendLoad_carried x as (resvElems u c x as) x.c.toNat (resvPacket x)
    (carried_refl (reserved u c x as) c.g.gid) (fun _ => rfl)).2 (allHere_bank hb) (resvElems_here hb hn u c)
  have hput : u.SameView (putResvs u c as) := sameView_of rfl rfl rfl fun _ => rfl
  have hview : u.SameView ((reserved u c x as).pend c (ldresOp u c x as)) :=
    (hput.trans (logElems_sameView (s := putResvs u c as) hr 5 _)).trans (pend_sameView _ c _)
  obtain ⟨hmem, htags, -⟩ := acquireLanes_mem ((reserved u c x as).pend c (ldresOp u c x as)) c as
  rw [show pendLdres u c x as = ((reserved u c x as).pend c (ldresOp u c x as)).acquireLanes c as from hpend]
  exact ⟨hmem.trans hview.mem, htags.trans hview.tags⟩

end Banks

/-! ### STCND -/

/-- 10 R244: the accesses of a STCND whose lanes' reservations hold as it issues. -/
def storing (c : Ctx) (as : List LaneAcc) : List LaneAcc := as.filter (fun a => c.g.resvStatus a == 0)

/-- What a STCND stores for a lane. -/
def condValue (c : Ctx) (x : Args) (l : Nat) : Nat := c.vw (fmtWide x.c.toNat) x.d.toNat l

/-- 10 R244: lanes that store in turn, each where its reservation then holds, with their statuses. -/
def condLanes (s : State) (c : Ctx) (x : Args) (as : List LaneAcc) : State × List (LaneAcc × Nat) :=
  as.foldl (fun (acc : State × List (LaneAcc × Nat)) a =>
    ((acc.1.condLane c a (condValue c x a.lane)).1, acc.2 ++ [(a, (acc.1.condLane c a (condValue c x a.lane)).2)])) (s, [])

/-- The lanes of a STCND whose stores go to another package. -/
def condFar (out : List (LaneAcc × Nat)) : List LaneAcc := (out.filter (fun o => o.2 == 0 && o.1.isFar)).map (·.1)

/-- The lanes of a STCND that have their status at once. -/
def condNear (out : List (LaneAcc × Nat)) : List (LaneAcc × Nat) := out.filter (fun o => !(o.2 == 0 && o.1.isFar))

/-- 10 R244: the packets of a STCND. -/
def condSent (s : State) (c : Ctx) (x : Args) (out : List (LaneAcc × Nat)) : State × List (Nat × Nat × Nat) :=
  s.sendLines c s.serial (condFar out) (atomicPacket 11 (fmtWidth x.c.toNat / 8) x.c.toNat (condValue c x) (fun _ => 0))

theorem condSent_calm {G : Placed} (s : State) (c : Ctx) (x : Args) (out : List (LaneAcc × Nat)) (h : s.Calm G) :
    (condSent s c x out).1.Calm G := sendLines_calm _ _ _ _ _ h

theorem condSent_groups (s : State) (c : Ctx) (x : Args) (out : List (LaneAcc × Nat)) : (condSent s c x out).1.groups = s.groups :=
  sendLines_groups ..

/-- 06 R120, 10 R244: what a STCND is while it is outstanding. -/
def stcndOp (s : State) (c : Ctx) (x : Args) (out : List (LaneAcc × Nat)) : PendingOp :=
  { c.newOp x s.serial with
    vWrites := (condNear out).flatMap (fun o => vPut (fmtWide x.c.toNat) x.d.toNat o.1.lane o.2) ++
      (if fmtWide x.c.toNat then (condFar out).map (fun a => ((x.d.toNat + 1) * 64 + a.lane, 0#32)) else []),
    awaits := (condSent s c x out).2, elems := (condFar out).map (fun a => answerElem 0x06 x.d.toNat a.lane 1) }

/-- The lanes of a STCND in turn, once its release has been made. -/
def condRun (u : State) (c : Ctx) (x : Args) (as : List LaneAcc) : State × List (LaneAcc × Nat) :=
  condLanes (u.prepWrite c (storing c as)) c x as

/-- The state in which a STCND has stored and logged. -/
def condStored (u : State) (c : Ctx) (x : Args) (as : List LaneAcc) : State :=
  (condRun u c x as).1.logElems c 6 ((condNear (condRun u c x as).2).map (fun o => (o.1, 0, o.2)))

/-- What a STCND with some statuses leaves before it passes. -/
def pendStcnd (s : State) (c : Ctx) (x : Args) (out : List (LaneAcc × Nat)) : State := (condSent s c x out).1.pend c (stcndOp s c x out)

/-- A STCND that no check and no hold stops, its release made, is outstanding. -/
theorem stcnd_next {s u : State} {c : Ctx} {x : Args} (hi : s.issues .stcnd x c) {as : List LaneAcc}
    (hr : c.resvLanes s x (c.active x) = ([], as)) (hh : s.holdOf c as true 6 (as.map (fun a => (a, 0))) = none)
    (hu : s.releaseLanes c (storing c as) = .ok u) :
    exec (.stcnd x) s = .next ((pendStcnd (condStored u c x as) c x (condRun u c x as).2).finish c x) := by
  show execStcnd x s = _
  unfold storing at hu
  unfold execStcnd
  rw [issue_eq hi]
  simp only [hr, hh, hu, stopsAll, List.any_nil, Bool.false_or, List.isEmpty_eq_false_iff.2 (resvLanes_ne hi.2.2.1 hr),
    Bool.false_eq_true, if_false, List.isEmpty_nil, afterLanes, if_true]
  rfl

theorem condStored_carried {s u : State} {c : Ctx} (hu : ∀ G : Placed, s.Calm G → u.Calm G) (hr : s.replayOf c.w.part = none)
    (x : Args) (as : List LaneAcc) : ∃ F, ∃ R : Group → Assoc Reservation,
      touches F ∧ s.Carried c.g.gid (fun g => { F g with resv := R g }) (condStored u c x as) := by
  obtain ⟨F, hF, h⟩ := prepWrite_carried_from (carried_calm (carried_refl s c.g.gid) hu) (fun _ => rfl) (storing c as)
  exact ⟨F, _, hF, logElems_carried (condLanes_carried c (condValue c x) as h (touches_gid hF) []) hr 6 _⟩

/-- 10 R244: a STCND that passes: its group, with what it has outstanding; which lanes hold a reservation its stores have said. -/
theorem pendStcnd_served {s u : State} {c : Ctx} (hs : s.sees c) (hu : ∀ G : Placed, s.Calm G → u.Calm G)
    (hr : s.replayOf c.w.part = none) (x : Args) (as : List LaneAcc) (out : List (LaneAcc × Nat)) :
    ∃ g, s.Served ((pendStcnd (condStored u c x as) c x out).finish c x) c x g ∧ c.g.sameRegs g ∧ c.g.sameModes g ∧
      c.g.counted g (c.flag x) ∧ g.ops = c.g.ops ++ [stcndOp (condStored u c x as) c x out] ∧
      resvsHeld (condStored u c x as) c.g.gid = some g.resv := by
  obtain ⟨F, R, hF, h⟩ := condStored_carried hu hr x as
  have hpend := pend_carried (carried_calm h fun _ hG => condSent_calm _ c x out hG) (fun g => touches_gid hF g)
    (stcndOp (condStored u c x as) c x out)
  obtain ⟨g, hS, hregs, hmodes, hcount, hops, g0, hg0, hresv⟩ := served_counted hs x hF R _ rfl hpend
  refine ⟨g, hS, hregs, hmodes, hcount, hops, ?_⟩
  have hheld : resvsHeld (pendStcnd (condStored u c x as) c x out) c.g.gid = resvsHeld (condStored u c x as) c.g.gid :=
    (resvsHeld_pend ..).trans (resvsHeld_groups (condSent_groups _ c x out) _)
  rw [← hheld, hresv]
  exact congrArg (Option.map (·.resv)) hg0

/-- 10 R244: of lanes in banks and L1 a STCND leaves no reservation. -/
theorem condStored_clears {s u : State} {c : Ctx} (hs : s.sees c) (hu : ∀ G : Placed, s.Calm G → u.Calm G)
    (hr : s.replayOf c.w.part = none) (x : Args) {as : List LaneAcc} (h : allHere as) {rs : Assoc Reservation}
    (hrs : resvsHeld (condStored u c x as) c.g.gid = some rs) : ∀ a ∈ as, ∀ kv ∈ rs, kv.1 ≠ a.lane := by
  obtain ⟨F, hF, hprep⟩ := prepWrite_carried_from (carried_calm (carried_refl s c.g.gid) hu) (fun _ => rfl) (storing c as)
  obtain ⟨g0, hg0, -⟩ := carried_group hs hprep (touches_gid hF)
  obtain ⟨ks, hks, -, hclear⟩ := condLanes_keys h c (condValue c x) as (fun _ ha => ha) (u.prepWrite c (storing c as)) []
    (g0.resv.map (·.1)) (by unfold resvKeys; rw [hg0]; rfl)
  have hrun := condLanes_carried c (condValue c x) as hprep (touches_gid hF) []
  have hlog : resvsHeld (condRun u c x as).1 c.g.gid = some rs :=
    (resvsHeld_groups (logElems_groups ((carried_replayOf hrun _).trans hr) 6 _) _).symm.trans hrs
  have hkeys : rs.map (·.1) = ks := by
    have hmap : resvKeys (condRun u c x as).1 c.g.gid = (resvsHeld (condRun u c x as).1 c.g.gid).map (·.map (·.1)) := by
      unfold resvKeys resvsHeld
      rw [Option.map_map]; rfl
    rw [hlog] at hmap
    exact Option.some.inj (hmap.symm.trans hks)
  intro a ha kv hkv he
  exact hclear a ha (he ▸ hkeys ▸ List.mem_map_of_mem hkv)

/-! ### STCND of one lane in a bank -/

section OneLane
variable {a : LaneAcc} {c : Ctx} {s : State}

theorem storing_one (a : LaneAcc) (c : Ctx) : storing c [a] = if c.g.resvStatus a = 0 then [a] else [] := by
  simp [storing, List.filter_cons]

theorem storing_unsynced (h : unsynced [a]) : unsynced (storing c [a]) := by
  rw [storing_one]
  split
  · exact h
  · rfl

/-- 10 R244: a lane in a bank: its own reservation says whether it stores. -/
theorem condLane_bank (hs : s.sees c) (hb : a.inBank) (v : Nat) :
    (s.condLane c a v).2 = c.g.resvStatus a ∧
      ∀ k, (s.condLane c a v).1.byte k = if c.g.resvStatus a = 0 then
        writeIn s.byte ((a.places.map Place.key).zip (bytesOfNat a.places.length v)) k else s.byte k := by
  have hfar : a.isFar = false := isFar_here (allHere_bank fun b hb' => List.mem_singleton.1 hb' ▸ hb) List.mem_cons_self
  unfold State.condLane
  simp only [(State.sees_eq hs).1, Option.map_some, Option.getD_some, hfar, Bool.not_false, Bool.and_true, decide_eq_true_eq, true_and]
  intro k
  split
  · refine (writePlaces_bank hb s c a.q _ _ k).trans ?_
    rw [List.zip_map_left]
    rfl
  · rfl

/-- 10 R244: one lane in a bank has its status at once; what it stores stands. -/
theorem pendStcnd_one {x : Args} (hs : s.sees c) (hr : s.replayOf c.w.part = none) (hb : a.inBank) :
    let t := condStored s c x [a]
    let op := stcndOp t c x (condRun s c x [a]).2
    op.ready = true ∧ op.elems = [] ∧ op.vWrites = vPut (fmtWide x.c.toNat) x.d.toNat a.lane (c.g.resvStatus a) ∧
      ∀ k, (pendStcnd t c x (condRun s c x [a]).2).byte k = if c.g.resvStatus a = 0 then
        writeIn s.byte ((a.places.map Place.key).zip (bytesOfNat a.places.length (condValue c x a.lane))) k else s.byte k := by
  have hbs : ∀ b ∈ storing c [a], b.inBank := fun b hb' => List.mem_singleton.1 (List.mem_filter.1 hb').1 ▸ hb
  have hfar : a.isFar = false := isFar_here (allHere_bank fun b hb' => List.mem_singleton.1 hb' ▸ hb) List.mem_cons_self
  obtain ⟨hstatus, hbytes⟩ := condLane_bank hs hb (condValue c x a.lane)
  have hrun : condRun s c x [a] = ((s.condLane c a (condValue c x a.lane)).1, [(a, c.g.resvStatus a)]) := by
    unfold condRun
    rw [prepWrite_bank hbs, ← hstatus]
    rfl
  have hcondFar : condFar [(a, c.g.resvStatus a)] = [] := by simp [condFar, hfar]
  have hcondNear : condNear [(a, c.g.resvStatus a)] = [(a, c.g.resvStatus a)] := by simp [condNear, hfar]
  intro t op
  have hsent : condSent t c x (condRun s c x [a]).2 = (t, []) := by
    unfold condSent
    rw [hrun, hcondFar]
    rfl
  have hreplay : (s.condLane c a (condValue c x a.lane)).1.replayOf c.w.part = none :=
    (carried_replayOf (condLane_carried (carried_refl s c.g.gid) (fun _ => rfl) a _) _).trans hr
  have hmem : (pendStcnd t c x (condRun s c x [a]).2).mem = (s.condLane c a (condValue c x a.lane)).1.mem := by
    unfold pendStcnd
    rw [hsent, (pend_sameView t c _).mem]
    show (State.logElems _ c 6 _).mem = _
    rw [hrun]
    exact (logElems_sameView hreplay 6 _).mem
  refine ⟨?_, ?_, ?_, fun k => (State.byte_of hmem k).trans (hbytes k)⟩
  · show (stcndOp t c x (condRun s c x [a]).2).ready = true
    unfold PendingOp.ready stcndOp
    rw [hsent]; rfl
  · show (condFar (condRun s c x [a]).2).map _ = []
    rw [hrun, hcondFar]; rfl
  · show (condNear (condRun s c x [a]).2).flatMap _ ++ (if _ then (condFar (condRun s c x [a]).2).map _ else []) = _
    rw [hrun, hcondFar, hcondNear]
    simp

end OneLane

/-- Settles O36: the instruction that `ldresOp` or `stcndOp` gives is outstanding; LDRES sets the reservations of its lanes, and STCND
clears them. -/
theorem reservationsGuardStores : Obligations.ReservationsGuardStores := by
  intro s c x hr r pending h1
  obtain ⟨hlanes, hwidth⟩ : r.2.map (·.lane) = c.active x ∧ ∀ a ∈ r.2, a.places.length = fmtWidth x.c.toNat / 8 := resvLanes_mem h1
  have hnodup : (r.2.map (·.lane)).Nodup := hlanes ▸ active_nodup c x
  have hpass : c.resvLanes s x (c.active x) = ([], r.2) := Prod.ext h1 rfl
  clear_value r
  refine ⟨fun hi hh hp => ?_, fun hi hh ⟨u, hu⟩ => ?_⟩
  · obtain ⟨F, hF, hprep⟩ := prepResv_carried s c r.2
    obtain ⟨g, hS, hregs, hmodes, hcount, hops, hresv⟩ := pendLdres_served hi.1 hprep hF hr x hnodup
    refine ⟨_, g, _, ldres_next hi hpass hh hp, hS, hregs, hmodes, hcount, hops, rfl, hresv, fun hb => ?_⟩
    rw [prepResv_bank hb]
    obtain ⟨hready, helems, hwrites⟩ := ldresOp_bank hb hwidth s c
    obtain ⟨hmem, htags⟩ := pendLdres_bank hb hwidth hr
    obtain ⟨hfmem, hftags⟩ := finish_memory (pendLdres s c x r.2) c x
    exact ⟨hfmem.trans hmem, hftags.trans htags, hready, helems, hwrites⟩
  · have hcalm : ∀ G : Placed, s.Calm G → u.Calm G := fun _ h => releaseLanes_calm hu h
    obtain ⟨g, hS, hregs, hmodes, hcount, hops, hheld⟩ := pendStcnd_served hi.1 hcalm hr x r.2 (condRun u c x r.2).2
    refine ⟨_, g, _, stcnd_next hi hpass hh hu, hS, hregs, hmodes, hcount, hops, rfl,
      fun hhere => condStored_clears hi.1 hcalm hr x hhere hheld, fun a ha hb hsync => ?_⟩
    have hus : u = s := release_unsynced hu (ha ▸ storing_unsynced (ha ▸ hsync))
    rw [hus, ha]
    obtain ⟨hready, helems, hwrites, hbytes⟩ := pendStcnd_one (x := x) hi.1 hr hb
    exact ⟨hready, helems, hwrites, fun k => (State.byte_of (finish_memory _ c x).1 k).trans (hbytes k)⟩

end Sys2Proof.Laws
end

section
/-!
STREAM, SGATH and SDEC (13 R273 to R288): the operation that each hands to its engine once its checks have passed, and what it is
when it has taken its ticket.
-/
namespace Sys2Proof.Laws
open Sys2Proof.Machine

/-! ### The checks of a copy (13 R275 to R283) -/

/-- 13 R277, R281: the operation of a copy of a shape, with the pointers as they are at issue and no interval yet. -/
def bareCopy (s : State) (c : Ctx) (x : Args) (gather : Bool) (sh : Shape) : EngineOp :=
  { (c.newEngineOp s (if gather then .sgath else .stream)) with
    src := c.p x.a.toNat, dst := c.p x.b.toNat, dims := sh.dims, fill := BitVec.ofNat 64 sh.fill, idxFmt := sh.idxFmt,
    idxOff := sh.idxOff,
    size := sizeOf_ (productOf sh.dims) (sideWidth (c.ptr x.b.toNat).fmt (c.ptr x.a.toNat).fmt) }

/-- 13 R290: the operation of a copy, with what it reads and writes of its core's scratchpad. -/
def copyOp (s : State) (c : Ctx) (x : Args) (gather : Bool) (sh : Shape) : EngineOp :=
  let a := c.ptr x.a.toNat
  let b := c.ptr x.b.toNat
  let o := bareCopy s c x gather sh
  { o with
    intervals := ((if a.space = 1 then [⟨a.base + o.srcHull.1, a.base + o.srcHull.2, false, false⟩] else []) ++
      (if gather then [⟨sh.idxOff, sh.idxOff + fmtWidth sh.idxFmt / 8 * (sh.dims.map (·.ext)).getD 1 0, false, false⟩] else [])) ++
      (if b.space = 1 then [⟨b.base + o.destHull.1.toNat, b.base + o.destHull.2.toNat, true, false⟩] else []) }

/-- 13 R281, R282: the destination hull of an operation lies within the destination's bounds, and where both sides are scratchpad,
the source hull is empty or lies clear of it. -/
def hullsOk (o : EngineOp) (a b : Ptr) (gang : Nat) : Prop :=
  0 ≤ o.destHull.1 ∧ b.boundsOk gang o.destHull.1.toNat (o.destHull.2 - o.destHull.1).toNat = true ∧
  (a.space = 1 → b.space = 1 → o.srcHull.2 ≤ o.srcHull.1 ∨ (b.base : Int) + o.destHull.2 ≤ ((a.base + o.srcHull.1 : Nat) : Int) ∨
    ((a.base + o.srcHull.2 : Nat) : Int) ≤ (b.base : Int) + o.destHull.1)

/-- 13 R275: a copy passes the checks of its issue, up to its barrier operand. -/
structure CopyAdmitted (s : State) (c : Ctx) (x : Args) (gather : Bool) (sh : Shape) : Prop where
  rights : c.mayStream = true
  pointers : c.streamPtrs (c.ptr x.a.toNat) (c.ptr x.b.toNat) = none
  sides : sidesOk false (c.ptr x.a.toNat) (c.ptr x.b.toNat) = true
  aligned : (c.s x.c.toNat).toNat % 16 = 0
  above : c.w.scratchOff ≤ (c.s x.c.toNat).toNat
  below : (c.s x.c.toNat).toNat + 160 ≤ c.w.scratchOff + c.w.scratchLen
  quiet : s.scratchBusy c.w.phys (c.s x.c.toNat).toNat ((c.s x.c.toNat).toNat + 160) false = false
  clean : s.poison = []
  shape : shapeOf (s.bytes (scratchKey c.w.phys (c.s x.c.toNat).toNat) 160) gather c.w.scratchOff
    (c.w.scratchOff + c.w.scratchLen) = some sh
  formats : formatPairOk (c.ptr x.a.toNat).fmt (c.ptr x.b.toNat).fmt = true
  hulls : productOf sh.dims ≠ 0 → hullsOk (bareCopy s c x gather sh) (c.ptr x.a.toNat) (c.ptr x.b.toNat) c.w.gangSize

/-- 13 R282: the test for an overlap fails for hulls that lie apart. -/
theorem overlap_false {o : EngineOp} {a b : Ptr} {gang n : Nat} (h : n ≠ 0 → hullsOk o a b gang) :
    (n != 0 && a.space == 1 && b.space == 1 && decide (o.srcHull.1 < o.srcHull.2) &&
      decide (((a.base + o.srcHull.1 : Nat) : Int) < (b.base : Int) + o.destHull.2) &&
      decide ((b.base : Int) + o.destHull.1 < ((a.base + o.srcHull.2 : Nat) : Int))) = false := by
  by_contra hne
  simp only [Bool.not_eq_false, Bool.and_eq_true, bne_iff_ne, beq_iff_eq, decide_eq_true_eq] at hne
  obtain ⟨⟨⟨⟨⟨hn, ha⟩, hb⟩, hlt⟩, hto⟩, hfrom⟩ := hne
  obtain ⟨-, -, hapart⟩ := h hn
  rcases hapart ha hb with hempty | hbefore | hafter <;> omega

/-- 13 R281: the test of the bounds fails for a hull that lies within them. -/
theorem outside_false {o : EngineOp} {a b : Ptr} {gang n : Nat} (h : n ≠ 0 → hullsOk o a b gang) :
    (n != 0 && (decide (o.destHull.1 < (0 : Int)) ||
      !b.boundsOk gang o.destHull.1.toNat (o.destHull.2 - o.destHull.1).toNat)) = false := by
  by_cases hn : n = 0
  · simp [hn]
  · obtain ⟨hlo, hok, -⟩ := h hn
    simp [hok, hlo]

/-- 13 R275: a copy that its checks let pass reaches the last steps of its issue. -/
theorem copy_admitted {op : Op} {gather : Bool} {x : Args} {s : State} {c : Ctx} {sh : Shape} (hi : s.issues op x c)
    (h : CopyAdmitted s c x gather sh) :
    streamExec op gather x s = settleEff c x s
      (streamIssue c x (c.active x) s (copyOp s c x gather sh) (c.s (x.c.toNat + 1)).toNat (productOf sh.dims != 0)) := by
  have hplace : ((c.s x.c.toNat).toNat % 16 != 0 || decide ((c.s x.c.toNat).toNat < c.w.scratchOff) ||
      decide (c.w.scratchOff + c.w.scratchLen < (c.s x.c.toNat).toNat + 160)) = false := by
    simp [h.aligned, h.above, h.below]
  have hclean : (List.range 10).any (fun k => s.poisonAt (scratchKey c.w.phys ((c.s x.c.toNat).toNat + 16 * k))) = false := by
    simp [State.poisonAt, h.clean]
  unfold streamExec
  rw [issue_eq hi]
  simp only [h.rights, h.pointers, hplace, h.quiet, hclean, h.shape, h.formats, h.sides, Bool.not_true, Bool.false_eq_true, if_false,
    Bool.false_or]
  exact congrArg (settleEff c x s)
    ((if_neg (Bool.eq_false_iff.1 (overlap_false h.hulls))).trans (if_neg (Bool.eq_false_iff.1 (outside_false h.hulls))))

/-- 13 R284: the operation of a decoding, with the intervals that R290 gives it. -/
def decodeOp (s : State) (c : Ctx) (x : Args) : EngineOp :=
  let a := c.ptr x.a.toNat
  let b := c.ptr x.b.toNat
  { (c.newEngineOp s .sdec) with
    src := c.p x.a.toNat, dst := c.p x.b.toNat,
    intervals := (if a.space = 1 then [⟨a.base, a.base + a.len, false, false⟩] else []) ++
      [⟨b.base, b.base + b.len, true, false⟩] }

/-- 13 R275, R284: a decoding that its checks let pass reaches the last steps of its issue. -/
theorem decode_admitted {x : Args} {s : State} {c : Ctx} (hi : s.issues .sdec x c) (hrights : c.mayStream = true)
    (hptrs : c.streamPtrs (c.ptr x.a.toNat) (c.ptr x.b.toNat) = none) (hfmt : (c.ptr x.a.toNat).fmt = 0)
    (hsides : sidesOk true (c.ptr x.a.toNat) (c.ptr x.b.toNat) = true) :
    execSdec x s = settleEff c x s (streamIssue c x (c.active x) s (decodeOp s c x) (c.s x.c.toNat).toNat true) := by
  unfold execSdec
  rw [issue_eq hi]
  simp only [hrights, hptrs, hfmt, hsides, bne_self_eq_false, Bool.not_true, Bool.false_eq_true, if_false]
  rfl

/-! ### The ticket and the entry (13 R275, R287, R289) -/

/-- 13 R275, R289: an operation as the scoreboard and its timeline take it. -/
def enrolled (s : State) (c : Ctx) (x : Args) (o : EngineOp) (barOff : Nat) : EngineOp :=
  { o with
    barrier := if x.mod.toNat / 8 % 2 == 1 then s.barrierOperand c.w barOff else none, timeline := x.mod.toNat % 8,
    ticket := (c.w.timeline (x.mod.toNat % 8)).issued + 1, intervals := realIntervals o.intervals,
    entry := !(realIntervals o.intervals).isEmpty }

/-- 13 R274, R287: an instruction has passed with the next ticket of its timeline in `s`D, and nothing else of its group's registers
and modes, and nothing of memory, differs. -/
structure TicketTaken (s t : State) (c : Ctx) (x : Args) (g : Group) : Prop where
  group : t.group? c.g.gid = some g
  passed : g.passed c x
  memory : t.mem = s.mem ∧ t.tags = s.tags
  ticket : c.g.wroteScalar g (c.sIndex x.d.toNat) true ((c.w.timeline (x.mod.toNat % 8)).issued + 1)
  vectors : g.v = c.g.v ∧ g.vtags = c.g.vtags
  pointers : g.p = c.g.p
  modes : c.g.sameModes g
  flags : g.flags = c.g.flags
  timeline : ∃ w, t.wg? c.w.key = some w ∧ (x.mod.toNat % 8 < c.w.timelines.length →
    (w.timeline (x.mod.toNat % 8)).issued = (c.w.timeline (x.mod.toNat % 8)).issued + 1)

/-- An operation that holds nothing but its issue, its sides, its shape and its intervals. -/
structure Fresh (s : State) (c : Ctx) (o : EngineOp) : Prop where
  id : o.id = s.serial
  issuer : o.gid = c.g.gid ∧ o.wgKey = c.w.key ∧ o.half = c.sp.half ∧ o.fmode = c.fmode
  untouched : o.counted = 0 ∧ o.fstat = 0 ∧ o.fault = none

/-- 13 R275, R281, R287: the last steps of an issue give a ticket, and leave the operation where it has elements to move. -/
theorem streamIssue_takes {s : State} {c : Ctx} {x : Args} {o : EngineOp} {barOff : Nat} {moves : Bool} (hs : s.sees c)
    (hfresh : Fresh s c o) (hsize : moves = false → o.size = 0)
    (hbar : x.mod.toNat / 8 % 2 = 1 → (s.barrierOperand c.w barOff).isSome = true)
    (hroom : moves = true → s.entriesHeld c.w.phys < 32 ∧ s.askedBefore c .entry = false) (hnew : s.op? s.serial = none)
    (htrace : (s.partOf c.w.part).obs.trace.getLsbD 0 = false) :
    ∃ t g, settleEff c x s (streamIssue c x (c.active x) s o barOff moves) = .next t ∧ TicketTaken s t c x g ∧
      (moves = false → ∀ o ∈ (t.core c.w.phys).ops, o ∈ (s.core c.w.phys).ops) ∧
      (moves = true → s.Queued t c x g (enrolled s c x o barOff)) := by
  obtain ⟨hid, hissuer, hcounted, hfstat, hfault⟩ := hfresh
  cases moves with
  | false =>
    obtain ⟨t, g, ht, hg, hp, hm, htag, hw, hv, hvt, hptr, hmodes, hflags, hwg, hops⟩ :=
      stream_none hs hissuer (hsize rfl) hcounted hfstat hfault hid hnew hbar htrace
    exact ⟨t, g, ht, ⟨hg, hp, ⟨hm, htag⟩, hw, ⟨hv, hvt⟩, hptr, hmodes, hflags, hwg⟩, fun _ => hops, nofun⟩
  | true =>
    obtain ⟨hheld, hasked⟩ := hroom rfl
    obtain ⟨t, g, _, ht, hq, hm, htag, hw, hv, hvt, hptr, hmodes, hflags, hwg, rfl⟩ :=
      stream_some hs hissuer hbar hheld hasked htrace
    exact ⟨t, g, ht, ⟨hq.group, hq.passed, ⟨hm, htag⟩, hw, ⟨hv, hvt⟩, hptr, hmodes, hflags, hwg⟩, nofun, fun _ => hq⟩

theorem enrolled_intervals_lt (s : State) (c : Ctx) (x : Args) (o : EngineOp) (barOff : Nat) :
    ∀ i ∈ (enrolled s c x o barOff).intervals, i.lo < i.hi := fun _ hi => real_lt hi

theorem enrolled_entry_iff (s : State) (c : Ctx) (x : Args) (o : EngineOp) (barOff : Nat) :
    (enrolled s c x o barOff).entry = true ↔ (enrolled s c x o barOff).intervals ≠ [] := by
  simp [enrolled]

theorem copyOp_fresh (s : State) (c : Ctx) (x : Args) (gather : Bool) (sh : Shape) : Fresh s c (copyOp s c x gather sh) :=
  ⟨rfl, ⟨rfl, rfl, rfl, rfl⟩, rfl, rfl, rfl⟩

theorem decodeOp_fresh (s : State) (c : Ctx) (x : Args) : Fresh s c (decodeOp s c x) :=
  ⟨rfl, ⟨rfl, rfl, rfl, rfl⟩, rfl, rfl, rfl⟩

/-- 13 R281: no elements, no bytes. -/
theorem sizeOf_zero (w : Nat) : sizeOf_ 0 w = 0 := by
  simp [sizeOf_]

/-- Settles O44: a copy or a decoding reaches the last steps of its issue (`copy_admitted`, `decode_admitted`), and these leave the
ticket, with the operation where there is something to move (`streamIssue_takes`). -/
theorem streamsEnterScoreboard : Obligations.StreamsEnterScoreboard := by
  intro row hrow s c x sh hi a b off lo top tl o0 onto from_ empty hrights hptrs hchecks hsides hbar hroom hnew htrace
  have hadmitted : ∃ o, exec (row.1.instr x) s = settleEff c x s (streamIssue c x (c.active x) s o
        (c.s (if row.2.2 then x.c.toNat else x.c.toNat + 1)).toNat (row.2.2 || productOf sh.dims != 0)) ∧
      Fresh s c o ∧ o.src = c.p x.a.toNat ∧ o.dst = c.p x.b.toNat ∧
      (row.2.2 = false → o.dims = sh.dims ∧ o.size = sizeOf_ (productOf sh.dims) (sideWidth b.fmt a.fmt)) := by
    simp only [List.mem_cons, List.not_mem_nil, or_false] at hrow
    rcases hrow with rfl | rfl | rfl
    · obtain ⟨haligned, habove, hbelow, hquiet, hclean, hshape, hformats, hhulls⟩ := hchecks
      exact ⟨copyOp s c x false sh,
        copy_admitted hi ⟨hrights, hptrs, hsides, haligned, habove, hbelow, hquiet, hclean, hshape, hformats, hhulls⟩,
        copyOp_fresh s c x false sh, rfl, rfl, fun _ => ⟨rfl, rfl⟩⟩
    · obtain ⟨haligned, habove, hbelow, hquiet, hclean, hshape, hformats, hhulls⟩ := hchecks
      exact ⟨copyOp s c x true sh,
        copy_admitted hi ⟨hrights, hptrs, hsides, haligned, habove, hbelow, hquiet, hclean, hshape, hformats, hhulls⟩,
        copyOp_fresh s c x true sh, rfl, rfl, fun _ => ⟨rfl, rfl⟩⟩
    · exact ⟨decodeOp s c x, decode_admitted hi hrights hptrs hchecks hsides, decodeOp_fresh s c x, rfl, rfl, nofun⟩
  obtain ⟨o, hexec, hfresh, hsrc, hdst, hshape⟩ := hadmitted
  have hempty : (row.2.2 || productOf sh.dims != 0) = false ↔ empty := by
    rw [Bool.or_eq_false_iff, bne_eq_false_iff_eq]
  have hmoves : (row.2.2 || productOf sh.dims != 0) = true ↔ ¬empty := by
    rw [← hempty, Bool.not_eq_false]
  have hsize : empty → o.size = 0 := fun ⟨hcopy, hn⟩ => by rw [(hshape hcopy).2, hn, sizeOf_zero]
  obtain ⟨t, g, ht, hT, hnone, hsome⟩ := streamIssue_takes hi.1 hfresh (fun h => hsize (hempty.1 h)) hbar (fun h => hroom (hmoves.1 h))
    hnew htrace
  obtain ⟨hg, hpassed, ⟨hmem, htags⟩, hticket, ⟨hv, hvtags⟩, hp, hmodes, hflags, htl⟩ := hT
  refine ⟨t, g, hexec.trans ht, hg, hpassed, hmem, htags, hticket, hv, hvtags, hp, hmodes, hflags, htl,
    fun h => hnone (hempty.2 h), fun h => ⟨_, hsome (hmoves.2 h), hsrc, hdst, rfl, rfl, bar_iff hbar, hshape,
      enrolled_intervals_lt s c x o _, enrolled_entry_iff s c x o _⟩⟩

end Sys2Proof.Laws
end

section
/-!
The words of the manual's programs (06 R122 to R126), and the step of an event.
-/
namespace Sys2Proof.Laws
open Sys2Proof.Machine

/-- Settles O3, word by word. -/
theorem specWordsDecode : Obligations.SpecWordsDecode := by
  unfold Obligations.SpecWordsDecode
  decide

/-- Settles O5: with no split chosen, the machine moves the event at the head of the agenda. -/
theorem stepRunsListedEvent : Obligations.StepRunsListedEvent := by
  intro s i rest hcur hagenda
  have hchoose : s.choose = .event i { s with agenda := rest } := by
    unfold State.choose
    rw [hcur, hagenda]
  unfold step
  generalize s.choose = m at hchoose ⊢
  subst hchoose
  rfl

end Sys2Proof.Laws
end

section
/-!
Fatal traps (22 R405, R414).
-/
namespace Sys2Proof.Laws
open Sys2Proof.Machine

/-- A code that is never delivered, a split that is in a trap, and a role without a handler each make the trap fatal. -/
theorem fatalCodes_single {c : Ctx} {ts : List LaneTrap} {code : Nat} (h : codesOf ts = [code])
    (hf : alwaysFatal code = true ∨ c.sp.state = .inTrap ∨ c.g.handler = noRpc) : fatalCodes c ts = [code] := by
  unfold fatalCodes
  cases ha : alwaysFatal code with
  | true => simp [h, ha]
  | false =>
    have hor : c.sp.state = .inTrap ∨ c.g.handler = noRpc := hf.resolve_left (by rw [ha]; decide)
    simp [h, ha, hor]

/-- The group and the split of a state to which a fault was fatal. -/
theorem markFaulted_group {t : State} {k sid : Nat} {G : Group} {sp : Split} (hG : t.group? k = some G) (hsp : G.split? sid = some sp) :
    ∃ g, (t.markFaulted k sid).group? k = some g ∧ g.faulted = true ∧ g.split? sid = some { sp with hold := .faulted } ∧
      g.v = G.v ∧ g.s = G.s ∧ g.p = G.p ∧ g.flags = G.flags ∧ g.frames = G.frames :=
  ⟨_, group?_set _ (fun _ => rfl) hG, rfl, split?_set _ (fun _ => rfl) hsp, rfl, rfl, rfl, rfl, rfl⟩

/-- 22 R414: a fault that is fatal to a workgroup that no halt has yet starts a halt of its domain. -/
theorem fatal_starts {s : State} {w : Workgroup} {r : ErrorRecord} (hno : ∀ h ∈ s.halts, h.wgs.contains w.key = false) :
    ∃ h, h ∈ (s.fatal w r).halts ∧ h.stage = .raised ∧ h.part = w.part ∧ h.fdom = w.fdom ∧ h.wgs = s.domain w ∧
      h.cause.code = r.code := by
  obtain ⟨r', ⟨hcode, -⟩, hr⟩ := fatal_shape (r := r) w hno
  exact ⟨_, by rw [hr]; exact List.mem_append_right _ (List.mem_singleton_self _), rfl, rfl, rfl, rfl, hcode⟩

/-- A fatal fault leaves a group its registers, flags, splits and frames. -/
theorem fatal_group {s : State} {w : Workgroup} {r : ErrorRecord} (hno : ∀ h ∈ s.halts, h.wgs.contains w.key = false) {k : Nat}
    {g : Group} (hg : s.group? k = some g) :
    ∃ h, (s.fatal w r).group? k = some h ∧ h = { g with resv := h.resv, touched := h.touched, victims := h.victims } := by
  obtain ⟨r', -, hr⟩ := fatal_shape (r := r) w hno
  rw [hr]
  exact record_group r' hg

/-- Settles O25: the one code is fatal, and no halt has the workgroup yet. -/
theorem trapWithoutHandlerIsFatal : Obligations.TrapWithoutHandlerIsFatal := by
  intro s c ts tw code hsees hcode hfatal hhalts
  obtain ⟨hg, -, -, -, c0, -, -, hc, hsp⟩ := State.sees_eq hsees
  obtain ⟨cs, ps, ht, -⟩ := touchTraps_eq s c ts
  obtain ⟨r, hrc, htake⟩ : ∃ r : ErrorRecord, r.code = code ∧
      s.takeTrap c ts tw = ((s.touchTraps c ts).fatal c.w r).markFaulted c.g.gid c.sp.id := by
    refine ⟨(s.touchTraps c ts).trapRecord c ts code 0 tw, rfl, ?_⟩
    unfold State.takeTrap
    rw [fatalCodes_single hcode hfatal]
    rfl
  rw [ht] at htake
  obtain ⟨K, hK, hKe⟩ := fatal_group (s := { s with cores := cs, parts := ps }) (r := r) hhalts hg
  have hKsp : K.split? c.sp.id = some c0.sp := by rw [hKe]; exact hsp
  obtain ⟨g, hgt, hfaulted, hgsp, hv, hsr, hp, hfl, hfr⟩ := markFaulted_group hK hKsp
  obtain ⟨h, hmem, hstage, hpart, hfdom, hwgs, hcause⟩ :=
    fatal_starts (s := { s with cores := cs, parts := ps }) (w := c.w) (r := r) hhalts
  intro t
  have htt : t = _ := htake
  rw [htt]
  exact ⟨g, _, h, hgt, hfaulted, hgsp, rfl, by rw [hc]; rfl, by rw [hc]; rfl, by rw [hc]; rfl, hmem, hstage, hpart, hfdom, hwgs,
    hcause.trans hrc, by rw [hv, hKe], by rw [hsr, hKe], by rw [hp, hKe], by rw [hfl, hKe], by rw [hfr, hKe]⟩

end Sys2Proof.Laws
end

section
/-!
Barriers and timelines (16 R346 to R355): what each instruction makes of the object that its operand names, and what turns it away.
-/
namespace Sys2Proof.Laws
open Sys2Proof.Machine

/-- Every barrier instruction looks for its object and then acts on it. -/
theorem exec_barrier {o : Op} {own write : Bool} (h : (o, own, write) ∈ [(Op.binit, true, true), (.barv, false, true),
    (.bexp, false, true), (.bwait, false, false), (.btest, false, false), (.binval, true, true)]) (x : Args) (s : State) :
    ∃ body, exec (o.instr x) s = barrierExec o own write x s body := by
  simp only [List.mem_cons, List.not_mem_nil, or_false, Prod.mk.injEq] at h
  obtain ⟨rfl, rfl, rfl⟩ | ⟨rfl, rfl, rfl⟩ | ⟨rfl, rfl, rfl⟩ | ⟨rfl, rfl, rfl⟩ | ⟨rfl, rfl, rfl⟩ | ⟨rfl, rfl, rfl⟩ := h
  exacts [⟨_, (rfl : execBinit x s = _)⟩, ⟨_, (rfl : execBarv x s = _)⟩, ⟨_, (rfl : execBexp x s = _)⟩,
    ⟨_, (rfl : execBwait x s = _)⟩, ⟨_, (rfl : execBtest x s = _)⟩, ⟨_, (rfl : execBinval x s = _)⟩]

/-- 16 R347: an operand that names no barrier raises 0x4002 for every active lane. -/
theorem barrierExec_unnamed {o : Op} {own write : Bool} {x : Args} {s : State} {c : Ctx} (h : s.issues o x c)
    (hk : c.w.barrierKey own (c.s x.a.toNat) = none) (body : Ctx → List Nat → Nat → Barrier → Eff) :
    barrierExec o own write x s body = .next (s.trapped c x (lanesTrap (c.active x) 0x4002) 0) := by
  unfold barrierExec
  rw [issue_eq h]
  simp only [hk]
  rfl

/-- 17 R361: an action on an object that the scoreboard has busy, or behind an earlier one on it, joins the queue of those held. -/
theorem barrierExec_queued {o : Op} {own write : Bool} {x : Args} {s : State} {c : Ctx} {k : Nat} (h : s.issues o x c)
    (hk : c.w.barrierKey own (c.s x.a.toNat) = some k)
    (hq : s.scratchBusy (keyCore k) (k % 2 ^ 21) (k % 2 ^ 21 + 16) write = true ∨ s.barrierAhead c k = true)
    (body : Ctx → List Nat → Nat → Barrier → Eff) :
    barrierExec o own write x s body = .next ((s.modSplit c.g.gid c.sp.id (fun sp =>
      { sp with waitOn := some (c.sp.askedAt .scoreboard s.serial, k), hold := .scoreboard })).bump) := by
  unfold barrierExec
  rw [issue_eq h]
  simp only [hk, (Bool.or_eq_true_iff ..).2 hq, if_true]
  exact congrArg (fun t : State => Host.Outcome.next t.bump) (modSplit_two s c.g.gid c.sp.id
    (fun sp => { sp with waitOn := some (c.sp.askedAt .scoreboard s.serial, k) }) (fun sp => { sp with hold := .scoreboard })
    (fun _ => rfl))

section Named
variable {i : Instr} {o : Op} {own write : Bool} {x : Args} {s : State} {c : Ctx} {k : Nat}
  {body : Ctx → List Nat → Nat → Barrier → Eff} (he : exec i s = barrierExec o own write x s body) (h : s.issues o x c)
  (hr : s.replayOf c.w.part = none) (hk : c.w.barrierKey own (c.s x.a.toNat) = some k)
  (hq : s.scratchBusy (keyCore k) (k % 2 ^ 21) (k % 2 ^ 21 + 16) write = false) (ha : s.barrierAhead c k = false)
include he h hr hk hq ha

/-- 16 R350: an action that is turned away raises its code for every active lane. -/
theorem barrier_traps {code : Nat} (hbody : body c (c.active x) k (s.barrierAt k) = .trap s (lanesTrap (c.active x) code) 0) :
    exec i s = .next (s.trapped c x (lanesTrap (c.active x) code) 0) := by
  rw [he, bar_exec h hr ⟨hk, hq⟩ ha, hbody]
  rfl

/-- 16 R353: an action that waits holds its split. -/
theorem barrier_waits {v : State} {k' : Hold} (hbody : body c (c.active x) k (s.barrierAt k) = .wait v k') :
    exec i s = .next (v.modSplit c.g.gid c.sp.id (fun sp => { sp with hold := k' })) := by
  rw [he, bar_exec h hr ⟨hk, hq⟩ ha, hbody]
  rfl

/-- 16 R350: an action that acts passes, with the object that it makes and the memory that it leaves. -/
theorem barrier_makes {u v : State} {b : Barrier} (hbody : body c (c.active x) k (s.barrierAt k) = .done v)
    (hv : ∀ G : Placed, s.Calm G → v.Calm G) (hat : v.barrierAt k = b ∧ ∀ j, j < k ∨ k + 16 ≤ j → v.byte j = u.byte j) :
    ∃ t g, exec i s = .next t ∧ s.Served t c x g ∧ c.g.sameRegs g ∧ c.g.sameModes g ∧
      g.flags = c.g.flags ∧ t.barrierAt k = b ∧ ∀ j, j < k ∨ k + 16 ≤ j → t.byte j = u.byte j := by
  obtain ⟨t, g, ht, hS, hregs, hmodes, hflags, -, -, hbar, hbytes⟩ := bar_pass (x := x) h.1 hr hv (c.active x) k
  refine ⟨t, g, ?_, hS, hregs, hmodes, hflags, hbar.trans hat.1, fun j hj => (hbytes j).trans (hat.2 j hj)⟩
  rw [he, bar_exec h hr ⟨hk, hq⟩ ha, hbody, ht]

/-- 16 R350: an action that writes one `s` register, once memory has served it, passes with that register written. -/
theorem barrier_writes {u : State} {n : Nat}
    (hbody : body c (c.active x) k (s.barrierAt k) = .done (u.writeS c (sPut false x.d.toNat n)))
    (hu : ∀ G : Placed, s.Calm G → u.Calm G) :
    ∃ t g, exec i s = .next t ∧ s.Served t c x g ∧ c.g.wroteScalar g (c.sIndex x.d.toNat) false n ∧
      g.v = c.g.v ∧ g.p = c.g.p ∧ t.mem = u.mem := by
  have hru : u.replayOf c.w.part = none := replay_prep (carried_calm (carried_refl s c.g.gid) hu) hr
  obtain ⟨ps, hlog, hps⟩ := logBarrier_parts (s := u.writeS c (sPut false x.d.toNat n)) hru (c.active x) k
  obtain ⟨g, hS, hs, hgv, -, hgp, -⟩ := writeS_served h.1 x false x.d.toNat n (u := { u with parts := ps })
    fun G hG => parts_calm hps (hu G hG)
  refine ⟨_, g, ?_, hS, hs, hgv, hgp, rfl⟩
  rw [he, bar_exec h hr ⟨hk, hq⟩ ha, hbody]
  exact congrArg (fun t : State => Host.Outcome.next (t.finish c x)) hlog

end Named

/-- Settles O41: an operand that names no barrier traps before anything else; each other code is what the instruction's own action
raises. -/
theorem barrierFaults : Obligations.BarrierFaults := by
  intro s c x hr traps
  refine ⟨fun row hrow hi hk => ?_, fun k hq ha => ?_⟩
  · obtain ⟨write, hrow⟩ : ∃ write, (row.1, row.2, write) ∈ [(Op.binit, true, true), (.barv, false, true),
        (.bexp, false, true), (.bwait, false, false), (.btest, false, false), (.binval, true, true)] := by
      simp only [List.mem_cons, List.not_mem_nil, or_false] at hrow
      rcases hrow with rfl | rfl | rfl | rfl | rfl | rfl <;> simp
    obtain ⟨body, he⟩ := exec_barrier hrow x s
    exact he.trans (barrierExec_unnamed hi hk body)
  · intro b
    refine ⟨fun hi hk => ⟨fun hbusy => ?_, fun hfree hcount => ?_⟩, fun hi hk hvalid hbusy => ?_, fun o ho hi hk => ?_⟩
    · exact barrier_traps (i := .binit x) (rfl : execBinit x s = _) hi hr hk hq ha (if_pos hbusy)
    · exact barrier_traps (i := .binit x) (rfl : execBinit x s = _) hi hr hk hq ha (by simp [hfree, hcount])
    · exact barrier_traps (i := .binval x) (rfl : execBinval x s = _) hi hr hk hq ha
        (by simp [show (s.barrierAt k).valid = true from hvalid, hbusy])
    · simp only [List.mem_cons, List.not_mem_nil, or_false] at ho
      rcases ho with rfl | rfl
      · intro n
        have hbytes : (if x.mod.toNat % 2 = 1 then c.s2 x.b.toNat else 0) = n := by
          rcases Nat.mod_two_eq_zero_or_one x.mod.toNat with hm | hm <;> simp [n, hm]
        refine ⟨fun hv => ?_, fun hv _ hz => ?_, fun hv hz hn => ?_⟩
        all_goals refine barrier_traps (i := .barv x) (rfl : execBarv x s = _) hi hr hk hq ha ?_
        · exact if_pos (by rw [hv]; rfl)
        · exact (if_neg (by rw [hv]; decide)).trans (if_pos hz)
        · refine (if_neg (by rw [hv]; decide)).trans ((if_neg (hz rfl)).trans (if_pos ?_))
          rw [hbytes]
          simpa using hn
      · refine ⟨fun hv => ?_, fun _ ho => absurd ho (by decide), fun hv _ hn => ?_⟩
        all_goals refine barrier_traps (i := .bexp x) (rfl : execBexp x s = _) hi hr hk hq ha ?_
        · exact if_pos (by rw [hv]; rfl)
        · exact (if_neg (by rw [hv]; decide)).trans (if_pos (by simpa using hn))

/-! ### Barriers in order -/

/-- 16 R350: the object that BINIT makes. -/
theorem barOk_fresh {n : Nat} (h : n ≤ 65535) :
    barOk { expect := n, pendArr := n, phase := 0, pendTx := 0, valid := true, rest := 0 } :=
  ⟨Nat.lt_succ_of_le h, Nat.lt_succ_of_le h, Nat.two_pow_pos _, rfl, Nat.two_pow_pos _⟩

/-- 16 R350: an object whose counts move within their ranges stays in order. -/
theorem barOk_moved {b : Barrier} (h : barOk b) {arrivals : Nat} {tx : Int} (ha : arrivals ≤ b.pendArr) (ht : txFits tx = true) :
    barOk { b with pendArr := arrivals, pendTx := tx } :=
  ⟨h.e, Nat.lt_of_le_of_lt ha h.a, h.p, ht, h.r⟩

/-- 16 R350: the test of a byte count fails for one that is in range. -/
theorem txRange_false {n : Nat} {tx : Int} (hn : n < 2 ^ 47) (ht : txFits tx = true) : ¬(decide (n ≥ 2 ^ 47) || !txFits tx) = true := by
  rw [ht, decide_eq_false (Nat.not_le.2 hn)]
  decide

/-- Memory that has not changed holds the object that it held. -/
theorem barrierAt_of {s t : State} (h : t.mem = s.mem) (k : Nat) : t.barrierAt k = s.barrierAt k := by
  unfold State.barrierAt
  rw [sees_bytes h]

/-- 16 R350: BINVAL of an object writes it whole. -/
theorem storeNum_barrierAt (s : State) (k : Nat) :
    (s.storeNum k 16 0).barrierAt k = Barrier.ofNat 0 ∧ ∀ j, j < k ∨ k + 16 ≤ j → (s.storeNum k 16 0).byte j = s.byte j := by
  refine ⟨?_, fun j hj => ?_⟩
  · unfold State.barrierAt
    rw [storeNum_num _ _ _ _ (by decide)]
  · rw [storeNum_byte, if_neg (by omega)]

/-- Settles O40: what each instruction's action leaves at its object (`barrier_makes`, `barrier_writes`), a BWAIT that waits, and an
action held behind another (`barrierExec_queued`). -/
theorem barrierActions : Obligations.BarrierActions := by
  intro s c x k hr b named makes parity
  have hb : barOk b := barOk_ofNat _
  refine ⟨fun hi ⟨hk, hq, ha⟩ hfree n hn hlo hhi => ?_, fun hi ⟨hk, hq, ha⟩ hv hz n hn hlt hfit => ?_,
    fun hi ⟨hk, hq, ha⟩ hv n hn hlt hfit => ?_, fun hi ⟨hk, hq, ha⟩ hfree => ?_, fun hi ⟨hk, hq, ha⟩ hv hp => ?_,
    fun hi ⟨hk, hq, ha⟩ hv hp => ?_, fun hi ⟨hk, hq, ha⟩ hv => ?_, fun row hrow hi hk hq => ?_⟩
  · refine barrier_makes (i := .binit x) (rfl : execBinit x s = _) hi hr hk hq ha ?_ (fun G hG => setBarrier_calm s k _ hG)
      (setBarrier_at s k (barOk_fresh hhi))
    subst hn
    exact (if_neg (by simp [hfree])).trans (if_neg (by simp; omega))
  · refine barrier_makes (i := .barv x) (rfl : execBarv x s = _) hi hr hk hq ha ?_
      (fun G hG => setBarrier_calm _ k _ (State.releaseCore_calm s _ _ hG))
      (setBarrier_at _ k (barOk_evaluate (barOk_moved hb (Nat.sub_le _ 1) hfit)))
    subst hn
    exact (if_neg (by rw [show (s.barrierAt k).valid = true from hv]; decide)).trans ((if_neg hz).trans (if_neg (txRange_false hlt hfit)))
  · refine barrier_makes (i := .bexp x) (rfl : execBexp x s = _) hi hr hk hq ha ?_ (fun G hG => setBarrier_calm s k _ hG)
      (setBarrier_at s k (barOk_evaluate (barOk_moved hb (Nat.le_refl _) hfit)))
    subst hn
    exact (if_neg (by rw [show (s.barrierAt k).valid = true from hv]; decide)).trans (if_neg (txRange_false hlt hfit))
  · cases hv : b.valid with
    | false =>
      exact barrier_makes (i := .binval x) (rfl : execBinval x s = _) hi hr hk hq ha (if_pos (by rw [hv]; rfl)) (fun _ hG => hG)
        ⟨rfl, fun _ _ => rfl⟩
    | true =>
      exact barrier_makes (i := .binval x) (rfl : execBinval x s = _) hi hr hk hq ha
        ((if_neg (by rw [hv]; decide)).trans (if_neg (by rw [hfree]; decide))) (fun _ hG => State.store_calm _ _ _ hG)
        (storeNum_barrierAt s k)
  · exact barrier_makes (i := .bwait x) (rfl : execBwait x s = _) hi hr hk hq ha
      ((if_neg (by rw [show (s.barrierAt k).valid = true from hv]; decide)).trans (if_pos (bne_iff_ne.2 hp)))
      (fun _ hG => State.acquireCore_calm s _ _ _ hG)
      ⟨barrierAt_of (acquireCore_mem s _ _ _) k, fun j _ => State.byte_of (acquireCore_mem s _ _ _) j⟩
  · refine (barrier_waits (i := .bwait x) (rfl : execBwait x s = _) hi hr hk hq ha
      ((if_neg (by rw [show (s.barrierAt k).valid = true from hv]; decide)).trans
        (if_neg fun h => bne_iff_ne.1 h hp))).trans ?_
    exact congrArg Host.Outcome.next (modSplit_two s c.g.gid c.sp.id (fun sp => { sp with waitOn := some (k, parity) })
      (fun sp => { sp with hold := .bwait }) (fun _ => rfl))
  · have hvalid : ¬(!(s.barrierAt k).valid) = true := by rw [show (s.barrierAt k).valid = true from hv]; decide
    by_cases hp : b.phase % 2 ≠ parity
    · rw [if_pos hp, ← acquireCore_mem s c.w.phys c.w.part 1]
      exact barrier_writes (i := .btest x) (rfl : execBtest x s = _) hi hr hk hq ha
        ((if_neg hvalid).trans (if_pos (bne_iff_ne.2 hp))) (fun _ hG => State.acquireCore_calm s _ _ _ hG)
    · rw [if_neg hp]
      exact barrier_writes (i := .btest x) (rfl : execBtest x s = _) hi hr hk hq ha
        ((if_neg hvalid).trans (if_neg (mt bne_iff_ne.1 hp))) (fun _ hG => hG)
  · obtain ⟨body, he⟩ := exec_barrier hrow x s
    exact he.trans (barrierExec_queued hi hk hq body)

end Sys2Proof.Laws
end

section
/-!
Timelines (16 R354, R355): waiting for one, testing it and reading it.
-/
namespace Sys2Proof.Laws
open Sys2Proof.Machine

/-- What an instruction that issues leaves is what its own effect settles to. -/
theorem exec_issued {i : Instr} {o : Op} {x : Args} {s : State} {c : Ctx} {body : Ctx → List Nat → Eff} {e : Eff}
    (he : exec i s = issue o x s body) (hi : s.issues o x c) (hbody : body c (c.active x) = e) : exec i s = settleEff c x s e := by
  rw [he, issue_eq hi, hbody]

/-- 16 R355: an instruction that acts once, memory serving it, and writes an `s` register or a pair leaves that written. -/
theorem issueDone_writes {i : Instr} {o : Op} {x : Args} {s u : State} {c : Ctx} {wide : Bool} {n : Nat} {body : Ctx → List Nat → State}
    (he : exec i s = issueDone o x s body) (hi : s.issues o x c) (hbody : body c (c.active x) = u.writeS c (sPut wide x.d.toNat n))
    (hu : ∀ G : Placed, s.Calm G → u.Calm G) :
    ∃ t g, exec i s = .next t ∧ s.Served t c x g ∧ c.g.wroteScalar g (c.sIndex x.d.toNat) wide n ∧ g.v = c.g.v ∧
      g.vtags = c.g.vtags ∧ g.p = c.g.p ∧ c.g.sameModes g ∧ t.mem = u.mem := by
  obtain ⟨g, hS, hs, hv, hvtags, hp, hmodes, -⟩ := writeS_served hi.1 x wide x.d.toNat n hu
  refine ⟨_, g, ?_, hS, hs, hv, hvtags, hp, hmodes, rfl⟩
  rw [he, issueDone_eq hi, hbody]
  rfl

/-- Settles O42: a TLWAIT passes with its acquire or holds its split; the others write their `s` destination. -/
theorem timelineInstructions : Obligations.TimelineInstructions := by
  intro s c x tl n writes
  refine ⟨fun hi hn => ?_, fun hi hn => ?_, fun hi => ?_, fun hi => ?_, fun hi => ?_⟩
  · obtain ⟨g, hS, hregs, hmodes, -⟩ := served_bare hi.1 x
      (carried_calm (carried_refl s c.g.gid) fun _ hG => acquireTl_calm s c.w x.a.toNat n hG)
    exact ⟨_, g, exec_issued (i := .tlwait x) (rfl : execTlwait x s = _) hi (if_pos hn), hS, hregs, hmodes, acquireTl_mem s c.w x.a.toNat n⟩
  · refine (exec_issued (i := .tlwait x) (rfl : execTlwait x s = _) hi (if_neg (Nat.not_le.2 hn))).trans ?_
    exact congrArg Host.Outcome.next (modSplit_two s c.g.gid c.sp.id (fun sp => { sp with waitOn := some (x.a.toNat, n) })
      (fun sp => { sp with hold := .tlwait }) (fun _ => rfl))
  · by_cases hn : n ≤ tl.reached
    · rw [if_pos hn]
      obtain ⟨t, g, ht, hrest⟩ := issueDone_writes (i := .tltest x) (wide := false) (n := 0xFFFFFFFF) (rfl : execTltest x s = _) hi
        (if_pos hn) (fun _ hG => acquireTl_calm s c.w x.a.toNat n hG)
      rw [acquireTl_mem] at hrest
      exact ⟨t, g, ht, hrest⟩
    · rw [if_neg hn]
      exact issueDone_writes (i := .tltest x) (rfl : execTltest x s = _) hi (if_neg hn) (fun _ hG => hG)
  · exact issueDone_writes (i := .tlreadIss x) (rfl : execTlreadIss x s = _) hi rfl (fun _ hG => hG)
  · exact issueDone_writes (i := .tlreadDone x) (rfl : execTlreadDone x s = _) hi rfl (fun _ hG => hG)

end Sys2Proof.Laws
end

section
/-!
ATOM, ATOMN and CAS (16 R356, R357): what the lanes leave of memory, in turn, and what is outstanding for them.
-/
namespace Sys2Proof.Laws
open Sys2Proof.Machine

/-- 16 R356: the operation of an atomic, 9 for CAS. -/
def atomOf (o : Op) (x : Args) : Nat := if o = .cas then 9 else x.mod.toNat / 2
/-- 16 R356: the elements of an atomic are 64-bit ones. -/
def atomWide (x : Args) : Bool := x.mod.toNat % 2 == 1
/-- 16 R356: the bytes of an element. -/
def atomBytes (x : Args) : Nat := if atomWide x then 8 else 4
/-- 16 R356: the operand of a lane: D of a CAS, else C. -/
def atomOperand (c : Ctx) (x : Args) (op l : Nat) : Nat :=
  if op = 9 then c.vw (atomWide x) x.d.toNat l else c.vw (atomWide x) x.c.toNat l
/-- 16 R356: what a lane of a CAS compares with. -/
def atomCompare (c : Ctx) (x : Args) (op l : Nat) : Nat := if op = 9 then c.vw (atomWide x) x.c.toNat l else 0

/-- 16 R356: the access of a lane, once it has been checked. -/
def atomLaneOf (s : State) (c : Ctx) (x : Args) (op l : Nat) : Except LaneTrap LaneAcc :=
  s.checkLane c .atomic (fun q => q.space != 4 && atomFmt op (atomBytes x) q.fmt) (atomMore (atomBytes x))
    { lane := l, q := c.ptr x.a.toNat, valid := true, off := (c.v x.b.toNat l).toNat + immOffset x, n := atomBytes x }

/-- 16 R357: the lanes of this package in turn, from a state in which their release has been made. -/
def atomRun (u : State) (c : Ctx) (x : Args) (op : Nat) (as : List LaneAcc) : State × List (LaneAcc × Nat × Nat) :=
  (as.filter (fun a => !a.isFar)).foldl (fun (acc : State × List (LaneAcc × Nat × Nat)) a =>
    ((acc.1.atomLane c a op (atomOperand c x op a.lane) (atomCompare c x op a.lane)).1,
      acc.2 ++ [(a, 0, (acc.1.atomLane c a op (atomOperand c x op a.lane) (atomCompare c x op a.lane)).2)]))
    ((u.walkAll c as true).noteLines c (wordsOf as .l1), [])

/-- The state in which the lanes have acted and been logged. -/
def atomLogged (u : State) (c : Ctx) (x : Args) (op : Nat) (as : List LaneAcc) : State :=
  (atomRun u c x op as).1.logElems c (if op = 9 then 4 else 3) (atomRun u c x op as).2

/-- 21 R386: the packets of the lanes in other packages' memory. -/
def atomSent (u : State) (c : Ctx) (x : Args) (op : Nat) (as : List LaneAcc) : State × List (Nat × Nat × Nat) :=
  (atomLogged u c x op as).sendLines c (atomLogged u c x op as).serial (as.filter (·.isFar))
    (atomicPacket op (atomBytes x) (c.ptr x.a.toNat).fmt (atomOperand c x op) (atomCompare c x op))

/-- 21 R395: the acquire that follows the responses, one more than its scope. -/
def atomAcquire (as : List LaneAcc) : Nat :=
  match widestSync as with
  | some n => n + 1
  | none => 0

/-- 06 R120, 16 R357: what an ATOM or a CAS is while it is outstanding. -/
def atomOp (u : State) (c : Ctx) (x : Args) (op : Nat) (as : List LaneAcc) : PendingOp :=
  { c.newOp x (atomLogged u c x op as).serial with
    vWrites := ((atomRun u c x op as).2.map (fun k => (k.1.lane, k.2.2))).flatMap (fun k => vPut (atomWide x) x.d.toNat k.1 k.2),
    awaits := (atomSent u c x op as).2,
    elems := (as.filter (·.isFar)).map (fun a => answerElem (if atomWide x then 0x08 else 0x06) x.d.toNat a.lane (atomBytes x)),
    acq := if (as.filter (·.isFar)).isEmpty then 0 else atomAcquire as, tier2 := as.any (·.overLink) }

/-- 21 R395: what an ATOMN is while its acquire awaits its responses: it counts no flag. -/
def atomnOp (u : State) (c : Ctx) (x : Args) (op : Nat) (as : List LaneAcc) : PendingOp :=
  { c.newOp x (atomLogged u c x op as).serial with flag := 12, awaits := (atomSent u c x op as).2, acq := atomAcquire as }

/-- 10 R239: the acquire of an instruction all of whose lanes have been served. -/
def acquireNear (t : State) (c : Ctx) (as : List LaneAcc) : State :=
  if (as.filter (·.isFar)).isEmpty then t.acquireLanes c as else t

/-- What an ATOM or a CAS leaves before it passes. -/
def pendAtom (u : State) (c : Ctx) (x : Args) (op : Nat) (as : List LaneAcc) : State :=
  acquireNear ((atomSent u c x op as).1.pend c (atomOp u c x op as)) c as

/-- What an ATOMN leaves before it passes. -/
def pendAtomn (u : State) (c : Ctx) (x : Args) (op : Nat) (as : List LaneAcc) : State :=
  if (as.filter (·.isFar)).isEmpty || atomAcquire as = 0 then acquireNear (atomSent u c x op as).1 c as
  else ((atomSent u c x op as).1.modGroup c.g.gid (fun g => { g with ops := g.ops ++ [atomnOp u c x op as] })).bump

/-- An atomic that no check, no hold and no poison stops, its release made, passes. -/
theorem atomExec_next {o : Op} {ret : Bool} {x : Args} {s u : State} {c : Ctx} {as : List LaneAcc} (hi : s.issues o x c)
    (hr : splitLanes ((c.active x).map (atomLaneOf s c x (atomOf o x))) = ([], as))
    (hh : s.holdOf c as true (if atomOf o x = 9 then 4 else 3) (as.map (fun a => (a, 0))) = none) (hp : s.poisonTraps as = [])
    (hu : s.releaseLanes c as = .ok u) :
    atomExec o ret x s = .next ((if ret then pendAtom u c x (atomOf o x) as else pendAtomn u c x (atomOf o x) as).finish c x) := by
  have hne : as ≠ [] := by
    have hne := splitLanes_nonempty (mt List.map_eq_nil_iff.1 hi.2.2.1) (congrArg Prod.fst hr)
    rwa [hr] at hne
  have hop : (if o == .cas then 9 else x.mod.toNat / 2) = atomOf o x := by
    unfold atomOf
    simp only [beq_iff_eq]
  unfold atomExec
  rw [issue_eq hi]
  simp only [hop]
  generalize atomOf o x = op at hr hh ⊢
  unfold atomLaneOf atomBytes atomWide at hr
  simp only [hr, hh, hp, hu, stopsAll, List.any_nil, Bool.false_or, List.isEmpty_eq_false_iff.2 hne, List.isEmpty_nil,
    Bool.not_true, Bool.false_eq_true, if_false, afterLanes, if_true]
  cases ret with
  | true => rfl
  | false =>
    by_cases hc : ((as.filter (·.isFar)).isEmpty || decide (atomAcquire as = 0)) = true
    · rw [show pendAtomn u c x op as = acquireNear (atomSent u c x op as).1 c as from if_pos hc]
      exact congrArg (settleEff c x s) (if_pos hc)
    · rw [show pendAtomn u c x op as = ((atomSent u c x op as).1.modGroup c.g.gid
        (fun g => { g with ops := g.ops ++ [atomnOp u c x op as] })).bump from if_neg hc]
      exact congrArg (settleEff c x s) (if_neg hc)

/-! ### The group that issued -/

/-- What the lanes have done and sent leaves the group that issued but for its score. -/
theorem atomSent_carried {s u : State} {c : Ctx} (x : Args) (op : Nat) (as : List LaneAcc) (hu : ∀ G : Placed, s.Calm G → u.Calm G)
    (hr : s.replayOf c.w.part = none) : ∃ F, touches F ∧ s.Carried c.g.gid F (atomSent u c x op as).1 := by
  have hwalk := carried_calm (carried_refl s c.g.gid) (fun G hG => walkAll_calm u c as true (hu G hG))
  obtain ⟨F, hF, hnote⟩ := carried_noteLines hwalk (fun _ => rfl) (wordsOf as .l1)
  have hrun := carried_calm hnote (fun G hG =>
    atomLanes_calm _ c op (atomOperand c x op) (atomCompare c x op) (as.filter (fun a => !a.isFar)) [] hG)
  exact ⟨F, hF, carried_calm (logElems_carried hrun hr _ _) (fun _ hG => sendLines_calm _ _ _ _ _ hG)⟩

theorem acquireNear_calm {G : Placed} {t : State} (c : Ctx) (as : List LaneAcc) (h : t.Calm G) : (acquireNear t c as).Calm G := by
  unfold acquireNear
  split
  · exact acquireLanes_calm t c as h
  · exact h

/-- 06 R120: an ATOM or a CAS that passes is outstanding on its flag. -/
theorem pendAtom_served {s u : State} {c : Ctx} (hs : s.sees c) (x : Args) (op : Nat) (as : List LaneAcc)
    (hu : ∀ G : Placed, s.Calm G → u.Calm G) (hr : s.replayOf c.w.part = none) :
    ∃ g, s.Served ((pendAtom u c x op as).finish c x) c x g ∧ c.g.sameRegs g ∧ c.g.sameModes g ∧ c.g.counted g (c.flag x) ∧
      g.ops = c.g.ops ++ [atomOp u c x op as] := by
  obtain ⟨F, hF, h⟩ := atomSent_carried x op as hu hr
  have hpend := pend_carried h (touches_gid hF) (atomOp u c x op as)
  obtain ⟨g, hS, hregs, hmodes, hcount, hops, -⟩ :=
    served_pending hs x hF (atomOp u c x op as) rfl (carried_calm hpend (fun _ hG => acquireNear_calm c as hG))
  exact ⟨g, hS, hregs, hmodes, hcount, hops⟩

/-- 16 R357: an ATOMN that passes counts no flag, and is outstanding only for what is far. -/
theorem pendAtomn_served {s u : State} {c : Ctx} (hs : s.sees c) (x : Args) (op : Nat) (as : List LaneAcc)
    (hu : ∀ G : Placed, s.Calm G → u.Calm G) (hr : s.replayOf c.w.part = none) :
    ∃ g, s.Served ((pendAtomn u c x op as).finish c x) c x g ∧ c.g.sameRegs g ∧ c.g.sameModes g ∧ g.flags = c.g.flags ∧
      ((∀ a ∈ as, a.isFar = false) → g.ops = c.g.ops) := by
  obtain ⟨F, hF, h⟩ := atomSent_carried x op as hu hr
  unfold pendAtomn
  split
  · obtain ⟨g, hS, hregs, hmodes, hflags, hops⟩ := served_only hs x hF (carried_calm h (fun _ hG => acquireNear_calm c as hG))
    exact ⟨g, hS, hregs, hmodes, hflags, fun _ => hops⟩
  · next hfar =>
    have hpend := carried_modGroup h (fun g => { g with ops := g.ops ++ [atomnOp u c x op as] }) (touches_gid hF) (fun _ => rfl)
    obtain ⟨b, rfl⟩ := hF
    obtain ⟨g, -, he, hS⟩ := served_of hs x (carried_calm hpend (fun _ hG => State.bump_calm _ hG)) (fun _ => rfl) rfl
    refine ⟨_, hS, ?_⟩
    rw [he]
    refine ⟨⟨rfl, rfl, rfl, rfl⟩, ⟨rfl, rfl, rfl, rfl⟩, rfl, fun hnear => absurd ?_ hfar⟩
    rw [List.filter_eq_nil_iff.2 (fun a ha => by rw [hnear a ha]; decide)]
    rfl

/-! ### Lanes in banks -/

/-- 16 R357: lanes in banks act in turn on memory, and give their old values. -/
theorem atomRun_bank {s : State} {c : Ctx} {x : Args} {op fmt : Nat} {as : List LaneAcc} (h : ∀ a ∈ as, a.inBank ∧ a.q.fmt = fmt) :
    (atomRun s c x op as).2.map (fun k => (k.1.lane, k.2.2)) =
        (atomIn op fmt (atomOperand c x op) (atomCompare c x op) s.byte as).2 ∧
      ∀ k, (atomRun s c x op as).1.byte k = (atomIn op fmt (atomOperand c x op) (atomCompare c x op) s.byte as).1 k := by
  have hbank : ∀ a ∈ as, a.inBank := fun a ha => (h a ha).1
  have hnear : as.filter (fun a => !a.isFar) = as :=
    List.filter_eq_self.2 (fun a ha => by rw [isFar_here (allHere_bank hbank) ha]; rfl)
  unfold atomRun
  rw [hnear, walkAll_bank hbank, wordsOf_bank hbank, atomIn_eq]
  exact atomLanes_bank c op fmt (atomOperand c x op) (atomCompare c x op) as h s [] s.byte [] (fun _ => rfl) rfl

/-- What lanes in banks leave of memory, once they have been logged. -/
theorem atomLogged_bank {s : State} {c : Ctx} {x : Args} {op fmt : Nat} {as : List LaneAcc} (hr : s.replayOf c.w.part = none)
    (h : ∀ a ∈ as, a.inBank ∧ a.q.fmt = fmt) (k : Nat) :
    (atomLogged s c x op as).byte k = (atomIn op fmt (atomOperand c x op) (atomCompare c x op) s.byte as).1 k := by
  have hcalm : (atomRun s c x op as).1.Calm s.placed := by
    have hbank : ∀ a ∈ as, a.inBank := fun a ha => (h a ha).1
    unfold atomRun
    rw [walkAll_bank hbank, wordsOf_bank hbank]
    exact atomLanes_calm s c op (atomOperand c x op) (atomCompare c x op) _ [] rfl
  obtain ⟨ps, hps, -⟩ := logElems_parts ((calm_replayOf hcalm _).trans hr) (if op = 9 then 4 else 3) (atomRun s c x op as).2
  unfold atomLogged
  rw [hps]
  exact (atomRun_bank h).2 k

/-- Lanes in banks send no packet. -/
theorem atomSent_bank {s : State} {c : Ctx} {x : Args} {op : Nat} {as : List LaneAcc} (h : ∀ a ∈ as, a.inBank) :
    atomSent s c x op as = (atomLogged s c x op as, []) := by
  have hfar : as.filter (·.isFar) = [] :=
    List.filter_eq_nil_iff.2 (fun a ha => by rw [isFar_here (allHere_bank h) ha]; decide)
  unfold atomSent
  rw [hfar]
  exact sendLines_here (fun _ ha => by cases ha) _ _ _ _

/-- 16 R357: an ATOM or a CAS in banks awaits nothing, and has its old values. -/
theorem atomOp_bank {s : State} {c : Ctx} {x : Args} {op fmt : Nat} {as : List LaneAcc} (h : ∀ a ∈ as, a.inBank ∧ a.q.fmt = fmt) :
    (atomOp s c x op as).ready = true ∧ (atomOp s c x op as).elems = [] ∧ (atomOp s c x op as).vWrites =
      (atomIn op fmt (atomOperand c x op) (atomCompare c x op) s.byte as).2.flatMap (fun k => vPut (atomWide x) x.d.toNat k.1 k.2) := by
  have hbank : ∀ a ∈ as, a.inBank := fun a ha => (h a ha).1
  have hfar : as.filter (·.isFar) = [] :=
    List.filter_eq_nil_iff.2 (fun a ha => by rw [isFar_here (allHere_bank hbank) ha]; decide)
  refine ⟨?_, ?_, ?_⟩
  · show ((atomSent s c x op as).2.isEmpty && !false) = true
    rw [atomSent_bank hbank]
    rfl
  · show (as.filter (·.isFar)).map _ = []
    rw [hfar]
    rfl
  · show List.flatMap _ _ = _
    rw [(atomRun_bank h).1]

theorem acquireNear_byte (t : State) (c : Ctx) (as : List LaneAcc) (k : Nat) : (acquireNear t c as).byte k = t.byte k := by
  unfold acquireNear
  split
  · exact State.byte_of (acquireLanes_mem t c as).1 k
  · rfl

/-- The memory that an atomic in banks leaves. -/
theorem pendAtom_bank {s : State} {c : Ctx} {x : Args} {op fmt : Nat} {as : List LaneAcc} (hr : s.replayOf c.w.part = none)
    (h : ∀ a ∈ as, a.inBank ∧ a.q.fmt = fmt) (ret : Bool) (k : Nat) :
    ((if ret then pendAtom s c x op as else pendAtomn s c x op as).finish c x).byte k =
      (atomIn op fmt (atomOperand c x op) (atomCompare c x op) s.byte as).1 k := by
  have hsent : (atomSent s c x op as).1 = atomLogged s c x op as := by rw [atomSent_bank (fun a ha => (h a ha).1)]
  rw [State.byte_of (finish_memory _ c x).1, ← atomLogged_bank hr h k, ← hsent]
  cases ret with
  | true => exact acquireNear_byte _ c as k
  | false =>
    show (pendAtomn s c x op as).byte k = _
    unfold pendAtomn
    split
    · exact acquireNear_byte _ c as k
    · rfl

/-- The lanes' accesses go through the one pointer. -/
theorem atomLanes_fmt {s : State} {c : Ctx} {x : Args} {op : Nat} {as : List LaneAcc}
    (hr : splitLanes ((c.active x).map (atomLaneOf s c x op)) = ([], as)) {a : LaneAcc} (ha : a ∈ as) :
    a.q.fmt = (c.ptr x.a.toNat).fmt := by
  obtain ⟨-, hok⟩ := lanes_of_split (f := atomLaneOf s c x op) (fun l a h => (checkLane_ok h).1) (congrArg Prod.fst hr)
  rw [hr] at hok
  rw [(checkLane_ok (hok a ha).2).2.1]

theorem exec_atomic {row : Op × Bool} (h : row ∈ [(Op.atom, true), (.atomn, false), (.cas, true)]) (x : Args) (s : State) :
    exec (row.1.instr x) s = atomExec row.1 row.2 x s := by
  simp only [List.mem_cons, List.not_mem_nil, or_false] at h
  rcases h with rfl | rfl | rfl <;> rfl

/-- Settles O37: what the lanes leave carries the group that issued; in banks it is what `atomIn` makes of memory. -/
theorem atomicsActOnMemory : Obligations.AtomicsActOnMemory := by
  intro row hrow s u c x hi hr op wide z operand compare r h1 hh hp hu
  have hlanes : splitLanes ((c.active x).map (atomLaneOf s c x (atomOf row.1 x))) = ([], r.2) := Prod.ext h1 rfl
  have hnext := atomExec_next (ret := row.2) hi hlanes hh hp hu
  have hcalm : ∀ G : Placed, s.Calm G → u.Calm G := fun _ h => releaseLanes_calm hu h
  have hfmt : (∀ a ∈ r.2, a.inBank) → ∀ a ∈ r.2, a.inBank ∧ a.q.fmt = (c.ptr x.a.toNat).fmt :=
    fun hb a ha => ⟨hb a ha, atomLanes_fmt hlanes ha⟩
  have hbytes : (∀ a ∈ r.2, a.inBank) → unsynced r.2 → ∀ k,
      ((if row.2 then pendAtom u c x op r.2 else pendAtomn u c x op r.2).finish c x).byte k =
        (atomIn op (c.ptr x.a.toNat).fmt operand compare s.byte r.2).1 k := by
    intro hb hsync k
    rw [release_unsynced hu hsync]
    exact pendAtom_bank hr (hfmt hb) row.2 k
  rw [← exec_atomic hrow] at hnext
  cases hret : row.2 with
  | true =>
    rw [hret] at hnext hbytes
    obtain ⟨g, hS, hregs, hmodes, hcount, hops⟩ := pendAtom_served hi.1 x op r.2 hcalm hr
    exact ⟨_, g, hnext, hS, hregs, hmodes, ⟨hcount, _, hops, rfl, fun hb hsync =>
      release_unsynced hu hsync ▸ atomOp_bank (hfmt hb)⟩, hbytes⟩
  | false =>
    rw [hret] at hnext hbytes
    obtain ⟨g, hS, hregs, hmodes, hflags, hops⟩ := pendAtomn_served hi.1 x op r.2 hcalm hr
    exact ⟨_, g, hnext, hS, hregs, hmodes, ⟨hflags, hops⟩, hbytes⟩

end Sys2Proof.Laws
end

section
/-!
The matrix instructions (14 R309 to R319): what each leaves to the sequencer.
-/
namespace Sys2Proof.Laws
open Sys2Proof.Machine

/-- Each instruction of steps is `matExec` of its count. -/
theorem exec_steps {row : Op × EngKind × Bool} (h : row ∈ [(Op.mloop, EngKind.mloop, false), (.mstep, .mstep, false), (.mstepV, .mstep, true)])
    {c : Ctx} {x : Args} {n : Nat} (hn : n = if row.1 = .mloop then (c.s (x.c.toNat + 1)).toNat else 1) (hlt : n < 2 ^ 16) (s : State) :
    ∃ count : Ctx → Option Nat, exec (row.1.instr x) s = matExec row.1 row.2.1 row.2.2 x s count ∧ count c = some n := by
  simp only [List.mem_cons, List.not_mem_nil, or_false] at h
  rcases h with rfl | rfl | rfl
  · subst hn
    exact ⟨fun c => c.loopCount x, rfl, if_pos hlt⟩
  · exact ⟨fun _ => some 1, rfl, congrArg some hn.symm⟩
  · exact ⟨fun _ => some 1, rfl, congrArg some hn.symm⟩

/-- An accumulator instruction leaves its operation to the sequencer, with no scoreboard entry. -/
theorem exec_accumulator {row : Op × EngKind} (h : row ∈ [(Op.aswap, EngKind.aswap), (.azero, .azero)]) {s : State} {c : Ctx} {x : Args}
    (hi : s.issues row.1 x c) :
    exec (row.1.instr x) s = settleEff c x s (.done (s.queueOp c { c.newEngineOp s row.2 with tile := x.d.toNat })) := by
  simp only [List.mem_cons, List.not_mem_nil, or_false] at h
  rcases h with rfl | rfl
  · exact exec_issued (i := .aswap x) (body := fun c _ => .done (s.queueOp c { c.newEngineOp s .aswap with tile := x.d.toNat })) rfl hi rfl
  · exact exec_issued (i := .azero x) (body := fun c _ => .done (s.queueOp c { c.newEngineOp s .azero with tile := x.d.toNat })) rfl hi rfl

/-- 14 R314: an AREAD that leaves its operation is outstanding on its flag. -/
theorem queued_pending {s : State} {c : Ctx} {x : Args} {o : EngineOp} (hs : s.sees c)
    (ho : o.gid = c.g.gid ∧ o.wgKey = c.w.key ∧ o.half = c.sp.half ∧ o.fmode = c.fmode) (op : PendingOp) (hop : op.flag = c.flag x) :
    ∃ t g, settleEff c x s (.done ((s.queueOp c o).pend c op)) = .next t ∧ s.Queued t c x g o ∧ t.mem = s.mem ∧ t.tags = s.tags ∧
      c.g.sameRegs g ∧ c.g.sameModes g ∧ c.g.counted g (c.flag x) ∧ g.ops = c.g.ops ++ [op] := by
  obtain ⟨hgroups, hmem, htags, -⟩ := queueOp_frame s c o
  have hq := queued_done (u := (s.queueOp c o).pend c op) (x := x) hs (fun g => { g.countUp op.flag with ops := g.ops ++ [op] })
    (fun _ => rfl) (by unfold State.modGroup; rw [← hgroups]; rfl) (queueOp_core s c o) ho
  refine ⟨_, _, rfl, hq, hmem, htags, ⟨rfl, rfl, rfl, rfl⟩, ⟨rfl, rfl, rfl, rfl⟩, ?_, rfl⟩
  rw [← hop]
  exact countUp_counted c.g op.flag c.g.ops c.g.resv

theorem countOf_pos (n : Nat) : 0 < countOf n := by
  unfold countOf
  split <;> decide

/-- 14 R314: the operation that an AREAD from a row leaves. -/
def areadOp (s : State) (c : Ctx) (x : Args) (r : Nat) : EngineOp :=
  { c.newEngineOp s .aread with
    tile := x.a.toNat, row := r, rows := countOf (x.mod.toNat % 4), dreg := x.d.toNat, fmt := x.c.toNat,
    lanes := maskOf (c.active x), pending := s.serial + 1 }

/-- 14 R318: the operation that an ASTORE of some rows leaves, of the bytes that it writes. -/
def astoreOp (s : State) (c : Ctx) (x : Args) (q : Ptr) (r0 cnt pitch n : Nat) : EngineOp :=
  { c.newEngineOp s .astore with
    tile := x.d.toNat, dst := c.p x.a.toNat, row := r0, rows := cnt, pitch := pitch, entry := true, fmt := q.fmt,
    intervals := [⟨q.base, q.base + n, true, false⟩] }

/-- 14 R314, R319: an AREAD of rows that the tile has waits for them, or leaves its operation. -/
theorem aread_settles {s : State} {c : Ctx} {x : Args} (hi : s.issues .aread x c) {r : Nat} (hr : r = (immOf x).getD (c.s x.b.toNat).toNat)
    (h64 : r + countOf (x.mod.toNat % 4) ≤ 64) :
    exec (.aread x) s = settleEff c x s (if s.rowsWait c x.a.toNat (r + countOf (x.mod.toNat % 4)) then .held .rows
      else .done ((s.queueOp c (areadOp s c x r)).pend c { c.newOp x (s.serial + 1) with waitsEngine := true })) := by
  have hpos := countOf_pos (x.mod.toNat % 4)
  have hrange : ¬(decide (r ≥ 64) || decide (r + countOf (x.mod.toNat % 4) > 64)) = true := by
    simp only [Bool.or_eq_true, decide_eq_true_eq]
    omega
  subst hr
  refine exec_issued (i := .aread x) (rfl : execAread x s = _) hi ((if_neg hrange).trans ?_)
  split
  · rfl
  · dsimp only
    rw [(queueOp_frame s c _).2.2.2]
    rfl

/-- 14 R318, R319: an ASTORE whose checks pass waits for its rows, or leaves its operation. -/
theorem astore_settles {s : State} {c : Ctx} {x : Args} (hi : s.issues .astore x c) {q : Ptr} {rb cnt pitch n : Nat}
    (hq : q = c.ptr x.a.toNat) (hrb : rb = (c.s x.b.toNat).toNat) (hcnt : cnt = rb / 256 % 256) (hpitch : pitch = (c.s x.c.toNat).toNat)
    (hn : n = if fmtWidth q.fmt = 4 then ((cnt - 1) * pitch + 63) / 2 + 1 else (((cnt - 1) * pitch + 63) + 1) * (fmtWidth q.fmt / 8))
    (hrblt : rb < 2 ^ 16) (hcnt0 : cnt ≠ 0) (h64 : rb % 256 + cnt ≤ 64) (hpitchlt : pitch < 2 ^ 24) (hspace : q.space = 1)
    (hcheck : q.check c.core c.w.gangSize 0 n .tileStore (storeFmt q.fmt) = none)
    (hentries : s.entriesHeld c.w.phys < 32) (hasked : s.askedBefore c .entry = false) :
    exec (.astore x) s = settleEff c x s (if s.rowsWait c x.d.toNat (rb % 256 + cnt) then .held .rows
      else .done (s.queueOp c (astoreOp s c x q (rb % 256) cnt pitch n))) := by
  have hmod : pitch % 2 ^ 24 = pitch := Nat.mod_eq_of_lt hpitchlt
  have hok : ¬(q.space != 1 || decide (rb ≥ 2 ^ 16) || decide (cnt = 0) || decide (rb % 256 + cnt > 64) || decide (pitch ≥ 2 ^ 24)) = true := by
    simp only [Bool.or_eq_true, bne_iff_ne, decide_eq_true_eq, not_or]
    omega
  subst hq hpitch
  rw [← hmod] at hn
  subst hcnt hrb hn
  refine exec_issued (i := .astore x) (rfl : execAstore x s = _) hi ?_
  dsimp only
  rw [hcheck]
  refine (if_neg hok).trans ?_
  simp only [entryWait_no hentries hasked, Bool.false_eq_true, if_false]
  rfl

/-- An instruction that acts once and writes an `s` register or a pair leaves that written. -/
theorem scalar_writes {i : Instr} {o : Op} {x : Args} {s : State} {c : Ctx} {wide : Bool} {n : Nat} {body : Ctx → List Nat → State}
    (he : exec i s = issueDone o x s body) (hi : s.issues o x c) (hbody : body c (c.active x) = s.writeS c (sPut wide x.d.toNat n)) :
    ∃ t g, exec i s = .next t ∧ s.Wrote t c x g ∧ c.g.wroteScalar g (c.sIndex x.d.toNat) wide n ∧ g.v = c.g.v ∧
      g.vtags = c.g.vtags ∧ g.p = c.g.p ∧ c.g.sameModes g := by
  obtain ⟨t, g, ht, hw, hscalar, hv, hvtags, hp, hmodes, -⟩ := scalar_next hi wide n body hbody
  exact ⟨t, g, he.trans ht, hw, hscalar, hv, hvtags, hp, hmodes⟩

/-- Settles O45: each instruction's effect is one operation queued, or the hold of its rows. -/
theorem matrixOperations : Obligations.MatrixOperations := by
  intro s c x lo hi off blk f queued plain rowsHeld
  refine ⟨?_, ?_, ?_, ?_, ?_⟩
  · intro row hrow a b hissues n words h1 h2 h3 h4 h5 h6 h7 h8 hlt h9 h10
    obtain ⟨count, hexec, hcount⟩ := exec_steps hrow (n := n) rfl hlt s
    obtain ⟨hzero, hsome⟩ := mat_rows (kind := row.2.1) (av := row.2.2) hissues hcount lo hi off blk f words rfl rfl rfl rfl rfl rfl
      h1 h2 h3 h4 h5 h6 h7 h8 h9 h10
    refine ⟨fun hn => hexec.trans (hzero hn), fun hn hqueue hasked hentries hentry => ?_⟩
    obtain ⟨o, ho, hissuer, hfields⟩ := hsome hn hqueue hasked hentries hentry
    obtain ⟨t, g, ht, hq, hmem, htags, hregs, hmodes, hplain⟩ := queued_plain (x := x) hissues.1 hissuer
    exact ⟨t, g, o, (hexec.trans ho).trans ht, hq, hmem, htags, hregs, hmodes, hplain, hfields⟩
  · intro row hrow hissues
    obtain ⟨t, g, ht, hq, hmem, htags, hregs, hmodes, hplain⟩ := queued_plain (x := x)
      (o := { c.newEngineOp s row.2 with tile := x.d.toNat }) hissues.1 ⟨rfl, rfl, rfl, rfl⟩
    exact ⟨t, g, _, (exec_accumulator hrow hissues).trans ht, hq, hmem, htags, hregs, hmodes, hplain, rfl, rfl, rfl⟩
  · intro hissues r hr h64
    have hexec := aread_settles hissues hr h64
    split
    · next hw =>
      rw [if_pos hw] at hexec
      exact hexec
    · next hw =>
      rw [if_neg hw] at hexec
      obtain ⟨t, g, ht, hq, hmem, htags, hregs, hmodes, hcounted, hops⟩ := queued_pending (x := x)
        (o := areadOp s c x r) hissues.1 ⟨rfl, rfl, rfl, rfl⟩ { c.newOp x (s.serial + 1) with waitsEngine := true } rfl
      exact ⟨t, g, _, hexec.trans ht, hq, hmem, htags, hregs, hmodes, rfl, rfl, rfl, rfl, rfl, hcounted, _, hops, rfl, rfl, rfl⟩
  · intro hissues q rb cnt pitch last n hrb hcnt h64 hpitch hspace hcheck hentries hasked
    have hexec := astore_settles hissues rfl rfl rfl rfl rfl hrb hcnt h64 hpitch hspace hcheck hentries hasked
    split
    · next hw =>
      rw [if_pos hw] at hexec
      exact hexec
    · next hw =>
      rw [if_neg hw] at hexec
      obtain ⟨t, g, ht, hq, hmem, htags, hregs, hmodes, hplain⟩ := queued_plain (x := x)
        (o := astoreOp s c x q (rb % 256) cnt pitch n) hissues.1 ⟨rfl, rfl, rfl, rfl⟩
      exact ⟨t, g, _, hexec.trans ht, hq, hmem, htags, hregs, hmodes, hplain, rfl, rfl, rfl, rfl, rfl, rfl, rfl, rfl⟩
  · intro hissues
    exact scalar_writes (i := .amark x) (wide := false) (rfl : execAmark x s = _) hissues rfl

end Sys2Proof.Laws
end

section
/-!
The transform instructions (14 R320 to R324): what goes to the pipe.
-/
namespace Sys2Proof.Laws
open Sys2Proof.Machine

/-- 14 R320: an instruction that sends to the pipe is outstanding on its flag, memory having served it. -/
theorem sent_pipe {i : Instr} {s u : State} {c : Ctx} {x : Args} (hs : s.sees c) (hu : ∀ G : Placed, s.Calm G → u.Calm G)
    (hcores : u.cores = s.cores) {op : PendingOp} (hflag : op.flag = c.flag x) (hid : op.id = s.serial)
    (he : exec i s = settleEff c x s (.done (u.sendPipe c op))) {Q : State → PendingOp → Prop}
    (hQ : ∀ t : State, t.mem = u.mem → Q t { op with waitsEngine := true }) :
    ∃ t g op, exec i s = .next t ∧ t.group? c.g.gid = some g ∧ g.passed c x ∧ c.g.sameRegs g ∧ c.g.sameModes g ∧
      c.g.counted g (c.flag x) ∧ g.ops = c.g.ops ++ [op] ∧ op.flag = c.flag x ∧ op.waitsEngine = true ∧ op.id = s.serial ∧
      (t.core c.w.phys).pipe = (s.core c.w.phys).pipe ++ [(c.g.gid, op.id)] ∧ Q t op := by
  obtain ⟨g0, hg0, hb⟩ := calm_group? (hu _ rfl) c.g.gid (State.sees_eq hs).1
  obtain ⟨t, g, ht, hg, hpassed, hregs, hmodes, hcounted, hops, hpipe, hmem⟩ := sent_done (x := x) hs hg0 hb hcores op hflag hid
  exact ⟨t, g, _, he.trans ht, hg, hpassed, hregs, hmodes, hcounted, hops, hflag, rfl, hid, by rw [hpipe, ← hid], hQ t hmem⟩

/-- 14 R320: with the pipe free for it, an instruction of the pipe acts. -/
theorem exec_piped {i : Instr} {o : Op} {x : Args} {s : State} {c : Ctx} {body : Ctx → List Nat → Eff} {e : Eff}
    (he : exec i s = pipeExec o x s body) (hi : s.issues o x c) (hbusy : s.pipeBusy c.w.phys = false)
    (hasked : s.askedBefore c .pipe = false) (hbody : body c (c.active x) = e) : exec i s = settleEff c x s e :=
  exec_issued he hi ((if_neg (by rw [hbusy, hasked]; decide)).trans hbody)

/-! ### XTOPK (14 R322) -/

/-- 14 R322: what XTOPK ranks at a position: the sum of the register's element and the scratchpad's. -/
def topkSum (s : State) (c : Ctx) (x : Args) (k e : Nat) : Flagged :=
  addElem (ftzOf c.fmode) 0x10 (rmOf c.fmode) (inFmt (ftzOf c.fmode) 0x10 (c.blockWord x.a.toNat e))
    (inFmt (ftzOf c.fmode) 0x10 (s.num (k + 4 * e) 4))

/-- 14 R322: the values and the positions kept, in the lanes of two registers. -/
def keptWrites (d : Nat) (kept : List (Nat × Nat)) : List (Nat × Word) :=
  (List.range 64).flatMap (fun j => [(d * 64 + j, BitVec.ofNat 32 ((kept[j]?).getD (0xFFFFFFFF, 0)).2),
    ((d + 1) * 64 + j, BitVec.ofNat 32 ((kept[j]?).getD (0xFFFFFFFF, 0)).1)])

theorem lastOf_keptWrites (d : Nat) (kept : List (Nat × Nat)) {j : Nat} (hj : j < 64) :
    lastOf (d * 64 + j) (keptWrites d kept) = some (BitVec.ofNat 32 ((kept[j]?).getD (0xFFFFFFFF, 0)).2) ∧
      lastOf ((d + 1) * 64 + j) (keptWrites d kept) = some (BitVec.ofNat 32 ((kept[j]?).getD (0xFFFFFFFF, 0)).1) := by
  unfold keptWrites
  constructor
  · refine lastOf_flatMap _ _ 64 j _ hj ?_ (fun i hi hne => ?_)
    · rw [lastOf_two, if_neg (by omega), if_pos rfl]
    · rw [lastOf_two, if_neg (by omega), if_neg (by omega)]
  · refine lastOf_flatMap _ _ 64 j _ hj ?_ (fun i hi hne => ?_)
    · rw [lastOf_two, if_pos rfl]
    · rw [lastOf_two, if_neg (by omega), if_neg (by omega)]

/-- 14 R322: the sums of the positions that are not kept, and 0 at those kept, in scratchpad. -/
def topkStored (s : State) (c : Ctx) (x : Args) (k : Nat) (pos : List Nat) (kept : List (Nat × Nat)) : State :=
  pos.foldl (fun t e => t.storeNum (k + 4 * e) 4 (if kept.any (fun z => z.1 == e) then 0 else (topkSum s c x k e).1)) s

/-- 14 R322: what an XTOPK sends. -/
def topkOp (s : State) (c : Ctx) (x : Args) (k : Nat) (pos : List Nat) (kept : List (Nat × Nat)) : PendingOp :=
  { c.newOp x (topkStored s c x k pos kept).serial with
    vWrites := keptWrites x.d.toNat kept,
    fstat := orFlags ((pos.filter (fun e => kept.any (fun z => z.1 == e))).map (fun e => (topkSum s c x k e).2)) }

/-- 14 R322: an XTOPK whose checks pass stores its sums and sends what it has kept. -/
theorem xtopk_settles {s : State} {c : Ctx} {x : Args} (hi : s.issues .xtopk x c) {q : Ptr} {off k : Nat} {pos : List Nat}
    {kept : List (Nat × Nat)} (hq : q = c.ptr x.b.toNat) (hoff : off = (c.s x.c.toNat).toNat) (hk : k = scratchKey c.w.phys (q.base + off))
    (hpos : pos = presentOf (c.active x)) (hkept : kept = topK (x.mod.toNat + 1) (pos.map (fun e => (e, (topkSum s c x k e).1))))
    (hcheck : q.check c.core c.w.gangSize off 512 .topk (q.fmt == 0x10 || q.fmt == 0) = none) (hspace : q.space = 1) (halign : off % 4 = 0)
    (hfree : s.scratchBusy c.w.phys (q.base + off) (q.base + off + 512) true = false) (hpoison : s.poison = [])
    (hbusy : s.pipeBusy c.w.phys = false) (hasked : s.askedBefore c .pipe = false) :
    exec (.xtopk x) s = settleEff c x s (.done ((topkStored s c x k pos kept).sendPipe c (topkOp s c x k pos kept))) := by
  subst hq hoff
  refine exec_issued (i := .xtopk x) (rfl : execXtopk x s = _) hi ?_
  have hplace : ((c.ptr x.b.toNat).space != 1 || (c.s x.c.toNat).toNat % 4 != 0) = false := by simp [hspace, halign]
  simp only [hcheck, hplace, hfree, scratchPoison_nil hpoison, hbusy, hasked, Bool.or_self, Bool.false_eq_true, if_false]
  subst hk hpos
  unfold topkStored topkOp keptWrites
  subst hkept
  simp only [List.foldl_map, List.filter_map, List.map_map, Function.comp_def]
  rfl

theorem topkStored_memory (s : State) (c : Ctx) (x : Args) (k : Nat) (kept : List (Nat × Nat)) {pos : List Nat} (hpos : ∀ e ∈ pos, e < 128) :
    (∀ e < 128, (topkStored s c x k pos kept).num (k + 4 * e) 4 = if e ∈ pos then
      (if kept.any (fun z => z.1 == e) then 0 else (topkSum s c x k e).1 % 2 ^ 32) else s.num (k + 4 * e) 4) ∧
    (∀ j, j < k ∨ k + 512 ≤ j → (topkStored s c x k pos kept).byte j = s.byte j) ∧
    (∀ G : Placed, s.Calm G → (topkStored s c x k pos kept).Calm G) ∧ (topkStored s c x k pos kept).cores = s.cores ∧
      (topkStored s c x k pos kept).serial = s.serial := by
  obtain ⟨hnum, hbyte, hcalm, hcores, hserial⟩ :=
    storeNums k (fun e => if kept.any (fun z => z.1 == e) then 0 else (topkSum s c x k e).1) pos hpos s
  refine ⟨fun e he => (hnum e he).trans ?_, hbyte, hcalm, hcores, hserial⟩
  simp only [apply_ite (· % 2 ^ 32), Nat.zero_mod]

/-- A number read from memory that is another's. -/
theorem num_of {s t : State} (hm : t.mem = s.mem) (k n : Nat) : t.num k n = s.num k n := by
  unfold State.num State.bytes State.byte
  rw [hm]

/-- Settles O46: the replies are what the pending operations that `sendPipe` lists will write. -/
theorem transformOperations : Obligations.TransformOperations := by
  intro s c x ftz fmt pos sent hbusy hasked
  refine ⟨?_, ?_, ?_⟩
  · intro hi q off k sum kept hcheck hspace halign hfree hpoison
    obtain ⟨hnum, hbyte, hcalm, hcores, hserial⟩ := topkStored_memory s c x k kept (fun e he => presentOf_lt he : ∀ e ∈ pos, e < 128)
    refine sent_pipe hi.1 hcalm hcores (op := topkOp s c x k pos kept) rfl hserial
      (xtopk_settles hi rfl rfl rfl rfl rfl hcheck hspace halign hfree hpoison hbusy hasked) (fun t hm => ⟨?_, rfl, ?_, ?_⟩)
    · intro j hj
      exact lastOf_keptWrites x.d.toNat kept hj
    · intro e he
      rw [num_of hm]
      exact hnum e he
    · exact fun j hj => (State.byte_of hm j).trans (hbyte j hj)
  · intro hi val sc q
    refine sent_pipe hi.1 (fun _ h => h) rfl rfl rfl (exec_piped (i := .xqnt x) (rfl : execXqnt x s = _) hi hbusy hasked rfl)
      (fun t hm => ⟨?_, ?_, ?_, hm⟩)
    · simp only [List.map_map, Function.comp_def]
      rfl
    · exact congrArg (fun l => [(c.sIndex x.b.toNat, BitVec.ofNat 32 (leastScale fmt (amaxOf l)))]) List.map_map
    · simp only [List.map_map, Function.comp_def]
      rfl
  · intro hi r
    refine sent_pipe hi.1 (fun _ h => h) rfl rfl rfl (exec_piped (i := .xdqnt x) (rfl : execXdqnt x s = _) hi hbusy hasked rfl)
      (fun t hm => ⟨?_, ?_, hm⟩)
    · exact List.map_map
    · exact congrArg orFlags List.map_map

end Sys2Proof.Laws
end

section
/-!
The sequencer and the tiles (14 R307 to R319): what a step, AZERO, ASWAP, AREAD and ASTORE leave.
-/
namespace Sys2Proof.Laws
open Sys2Proof.Machine

/-! ### Tiles and operations of a core -/

theorem modTile_core (s : State) (core k : Nat) (f : Tile → Tile) :
    (s.modTile core k f).core core = { s.core core with tiles := (s.core core).tiles.modify k f } := by
  unfold State.modTile
  rw [State.core_modCore, if_pos rfl]

theorem dropOp_core (s : State) (core n : Nat) :
    (s.dropOp core n).core core = { s.core core with ops := (s.core core).ops.filter (fun o => o.id != n) } := by
  unfold State.dropOp
  rw [State.core_modCore, if_pos rfl]

theorem modOp_core (s : State) (core n : Nat) (f : EngineOp → EngineOp) :
    (s.modOp core n f).core core = { s.core core with ops := replaceBy (fun o => o.id == n) f (s.core core).ops } := by
  unfold State.modOp
  rw [State.core_modCore, if_pos rfl]

theorem modTile_tiles (s : State) (core k : Nat) (f : Tile → Tile) :
    ((s.modTile core k f).core core).tiles.length = (s.core core).tiles.length := by
  rw [modTile_core]
  exact List.length_modify ..

theorem tile_of {s t : State} {core : Nat} (h : (t.core core).tiles = (s.core core).tiles) (k : Nat) : t.tile core k = s.tile core k := by
  unfold State.tile
  rw [h]

/-! ### Steps (14 R307, R311, R317, R319) -/

/-- 14 R311: an operation whose steps are done contributes its flags and leaves; its tile's banks stand. -/
theorem finishSteps_leaves (s : State) (core : Nat) (o : EngineOp) (hk : o.tile < (s.core core).tiles.length) :
    ((s.finishSteps core o).tile core o.tile).working = (s.tile core o.tile).working ∧
    ((s.finishSteps core o).tile core o.tile).visible = (s.tile core o.tile).visible ∧
    (s.finishSteps core o).mem = s.mem ∧
    ((s.finishSteps core o).core core).ops = (s.core core).ops.filter (fun y => y.id != o.id) ∧
    ∀ x, s.group? o.gid = some x → ∃ h, (s.finishSteps core o).group? o.gid = some h ∧ x.tookFlags h o.half o.fstat := by
  let u := (s.modGroup o.gid (fun g => g.addFlags o.half o.fstat)).dropOp core o.id
  have hucore : u.core core = { s.core core with ops := (s.core core).ops.filter (fun y => y.id != o.id) } := dropOp_core _ core o.id
  have hutile : u.tile core o.tile = s.tile core o.tile := tile_of (by rw [hucore]) o.tile
  have hugroup : ∀ x, s.group? o.gid = some x → ∃ h, u.group? o.gid = some h ∧ x.tookFlags h o.half o.fstat :=
    fun x hx => ⟨_, group?_set _ (fun g => (addFlags_took g _ _).2.2) hx, (addFlags_took x o.half o.fstat).1⟩
  have hfinish : s.finishSteps core o = if (u.stepQueue core).any (fun y => y.tile == o.tile) then u
      else u.modTile core o.tile (fun t => { t with watermark := 64 }) := rfl
  rw [hfinish]
  split
  · exact ⟨by rw [hutile], by rw [hutile], rfl, by rw [hucore], hugroup⟩
  · have hset := tile_modTile u core o.tile (fun t => { t with watermark := 64 }) (by rw [hucore]; exact hk)
    refine ⟨?_, ?_, rfl, ?_, hugroup⟩
    · rw [hset, hutile]
    · rw [hset, hutile]
    · rw [modTile_core, hucore]

/-- 14 R319: no step operation on the tile comes after this one. -/
def lastStep (s : State) (core : Nat) (o : EngineOp) : Bool := !((s.stepQueue core).any (fun y => y.tile == o.tile && y.id > o.id))

/-- 14 R319: the row up to which a step is served: eight rows on at the end of a legacy tile's operation, else all. -/
def stepUpto (s : State) (core : Nat) (w : Workgroup) (o : EngineOp) : Nat :=
  if w.legacy && o.steps + 1 = o.count && (lastStep s core o || 0 < o.row) then o.row + 8 else 64

/-- 14 R307: the bank that a step leaves, with its flags. -/
def stepRows (s : State) (core : Nat) (w : Workgroup) (o : EngineOp) : Assoc Word × FlagBits :=
  s.matRowsStep w.phys o (s.tile core o.tile).working o.row (stepUpto s core w o)

/-- 14 R307: an operation once the rows of a step up to the one given have been done, with their flags. -/
def steppedOp (o : EngineOp) (hi : Nat) (f : FlagBits) : EngineOp :=
  { o with fstat := o.fstat ||| f, steps := if 64 ≤ hi then o.steps + 1 else o.steps, row := if 64 ≤ hi then 0 else hi }

/-- A step's rows in its tile's working bank. -/
def stepped (s : State) (core : Nat) (w : Workgroup) (o : EngineOp) : State :=
  s.modTile core o.tile (fun t => { t with
    working := (stepRows s core w o).1,
    watermark := if (w.legacy && o.steps + 1 = o.count && (lastStep s core o || 0 < o.row)) && lastStep s core o then stepUpto s core w o
      else t.watermark })

/-- 14 R317: the sequencer makes a step of the operation at its head, whose turn has come and whose operands are admitted. -/
theorem matrixStep_next {s : State} {core : Nat} {o : EngineOp} {w : Workgroup} (hhead : s.sequencerHead core = some o)
    (hw : s.wg? o.wgKey = some w) (hturn : s.tileTurn core w.legacy o = true) (hclear : s.opClear core o = true) :
    exec (.matrixStep core) s = .next (s.serveStep core w o) := by
  show execMatrixStep core s = _
  unfold execMatrixStep
  rw [hhead]
  dsimp only
  rw [hw]
  exact congrArg Host.Outcome.next (if_pos (by rw [hturn, hclear]; rfl))

/-- 14 R307: a step without poison writes its rows to the working bank, and the operation goes on or is finished. -/
theorem serveStep_eq {s : State} {core : Nat} {w : Workgroup} {o : EngineOp} (hp : s.stepPoison w.phys o = false) :
    s.serveStep core w o =
      if (steppedOp o (stepUpto s core w o) (stepRows s core w o).2).steps = o.count then
        (stepped s core w o).finishSteps core (steppedOp o (stepUpto s core w o) (stepRows s core w o).2)
      else (stepped s core w o).modOp core o.id (fun _ => steppedOp o (stepUpto s core w o) (stepRows s core w o).2) := by
  unfold State.serveStep
  rw [if_neg (by rw [hp]; decide)]
  rfl

/-- 14 R307: what a step leaves of its tile. -/
theorem stepped_tile {s : State} {core : Nat} {w : Workgroup} {o : EngineOp} (hk : o.tile < (s.core core).tiles.length) :
    ((stepped s core w o).tile core o.tile).working = (stepRows s core w o).1 ∧
      ((stepped s core w o).tile core o.tile).visible = (s.tile core o.tile).visible := by
  unfold stepped
  rw [tile_modTile s core o.tile _ hk]
  exact ⟨rfl, rfl⟩

/-! ### Effects in the tile's order (14 R313 to R315, R318) -/

/-- 14 R314: the destinations of an AREAD, with its flags, as its pending instruction will write them. -/
def areadPending (o : EngineOp) (bank : Assoc Word) (p : PendingOp) : PendingOp :=
  { p with
    waitsEngine := false, fstat := orFlags ((areadElems o bank).map (·.2.2)),
    vWrites := ((areadElems o bank).map (fun e => (e.1, BitVec.ofNat 32 e.2.1))).filter (fun kv => !p.lost.contains kv.1) }

/-- 14 R314: an AREAD in its turn gives its pending instruction its rows, and that instruction is finished. -/
theorem tileAread_next {s : State} {op core : Nat} {w : Workgroup} {o : EngineOp} (hop : s.tileOp op .aread = some (core, w, o))
    (hready : s.rowsReady core w.legacy o = true) :
    exec (.tileAreadEffect op) s = .next (((s.modGroup o.gid (fun g => { g with
      ops := g.ops.map (fun p => if p.id == o.pending then areadPending o ((s.tile core o.tile).readBank w.legacy) p else p) })).dropOp
        core op).finishOp o.gid o.pending) := by
  show execTileAreadEffect op s = _
  unfold execTileAreadEffect
  rw [hop]
  exact congrArg Host.Outcome.next (if_neg (by rw [hready]; decide))

/-- 14 R318: an ASTORE in its turn writes its rows, contributes its flags and completes. -/
theorem tileAstore_next {s : State} {op core : Nat} {w : Workgroup} {o : EngineOp} (hop : s.tileOp op .astore = some (core, w, o))
    (hready : s.rowsReady core w.legacy o = true) (hclear : s.opClear core o = true) :
    exec (.tileAstoreEffect op) s = .next ((((astoreElems o ((s.tile core o.tile).readBank w.legacy)).foldl (fun s e =>
      s.storeElemAt (scratchKey w.phys (Ptr.ofBits o.dst).base) o.fmt e.1 e.2.1) s).modGroup o.gid (fun g =>
        g.addFlags o.half (orFlags ((astoreElems o ((s.tile core o.tile).readBank w.legacy)).map (·.2.2))))).dropOp core op) := by
  show execTileAstoreEffect op s = _
  unfold execTileAstoreEffect
  rw [hop]
  exact congrArg Host.Outcome.next (if_neg (by rw [hready, hclear]; decide))

theorem storeElems_frame (s : State) (b f : Nat) (es : List (Nat × Flagged)) :
    (∀ G : Placed, s.Calm G → (es.foldl (fun s e => s.storeElemAt b f e.1 e.2.1) s).Calm G) ∧
      (es.foldl (fun s e => s.storeElemAt b f e.1 e.2.1) s).cores = s.cores := by
  induction es generalizing s with
  | nil => exact ⟨fun _ h => h, rfl⟩
  | cons e es ih =>
    obtain ⟨hcalm, hcores⟩ := storeElemAt_frame s b f e.1 e.2.1
    obtain ⟨ihcalm, ihcores⟩ := ih (s.storeElemAt b f e.1 e.2.1)
    exact ⟨fun G h => ihcalm G (hcalm G h), ihcores.trans hcores⟩

/-- A flag taken by a group that differs in its reservations and lines is taken by the group. -/
theorem tookFlags_calm {x g h : Group} {b : Bool} {f : FlagBits} (hg : g = { x with resv := g.resv, touched := g.touched, victims := g.victims })
    (ht : g.tookFlags h b f) : x.tookFlags h b f := by
  unfold Group.tookFlags at *
  rw [hg] at ht
  exact ht

theorem sameRegs_calm {x g h : Group} (hg : g = { x with resv := g.resv, touched := g.touched, victims := g.victims })
    (hr : g.sameRegs h) : x.sameRegs h := by
  unfold Group.sameRegs at *
  rw [hg] at hr
  exact hr

/-- 14 R307, R311, R319: what one step of the sequencer leaves, without poison. -/
theorem matrixStep_served {s : State} {core : Nat} {o : EngineOp} {w : Workgroup} (hhead : s.sequencerHead core = some o)
    (hw : s.wg? o.wgKey = some w) (hturn : s.tileTurn core w.legacy o = true) (hclear : s.opClear core o = true)
    (hpoison : s.stepPoison w.phys o = false) (hk : o.tile < (s.core core).tiles.length) :
    ∃ t, exec (.matrixStep core) s = .next t ∧ (t.tile core o.tile).working = (stepRows s core w o).1 ∧
      (t.tile core o.tile).visible = (s.tile core o.tile).visible ∧ t.mem = s.mem ∧
      if (steppedOp o (stepUpto s core w o) (stepRows s core w o).2).steps = o.count then
        (t.core core).ops = (s.core core).ops.filter (fun y => y.id != o.id) ∧
          ∀ x, s.group? o.gid = some x → ∃ h, t.group? o.gid = some h ∧ x.tookFlags h o.half (o.fstat ||| (stepRows s core w o).2)
      else t.groups = s.groups ∧ (t.core core).ops =
        replaceBy (fun y => y.id == o.id) (fun _ => steppedOp o (stepUpto s core w o) (stepRows s core w o).2) (s.core core).ops := by
  have hcore : (stepped s core w o).core core = { s.core core with tiles := ((stepped s core w o).core core).tiles } := by
    unfold stepped
    rw [modTile_core]
  have hlen : ((stepped s core w o).core core).tiles.length = (s.core core).tiles.length := modTile_tiles ..
  obtain ⟨hworking, hvisible⟩ := stepped_tile (w := w) hk
  rw [matrixStep_next hhead hw hturn hclear, serveStep_eq hpoison]
  split
  · obtain ⟨hw1, hv1, hmem, hops, hgroup⟩ := finishSteps_leaves (stepped s core w o) core
      (steppedOp o (stepUpto s core w o) (stepRows s core w o).2) (by rw [hlen]; exact hk)
    rw [hcore] at hops
    exact ⟨_, rfl, hw1.trans hworking, hv1.trans hvisible, hmem, hops, hgroup⟩
  · have hmod := modOp_core (stepped s core w o) core o.id (fun _ => steppedOp o (stepUpto s core w o) (stepRows s core w o).2)
    have htile : ((stepped s core w o).modOp core o.id (fun _ => steppedOp o (stepUpto s core w o) (stepRows s core w o).2)).tile
        core o.tile = (stepped s core w o).tile core o.tile := tile_of (by rw [hmod]) o.tile
    refine ⟨_, rfl, by rw [htile, hworking], by rw [htile, hvisible], rfl, rfl, ?_⟩
    rw [hmod, hcore]

/-- Settles O51: steps by `matrixStep_served`, and each tile operation by what it leaves. -/
theorem matrixEngineEvents : Obligations.MatrixEngineEvents := by
  intro s
  refine ⟨fun core o w hhead hw hturn hclear => ⟨fun hpoison => ?_, fun hpoison => ?_⟩, fun op core w o => ?_⟩
  · rw [matrixStep_next hhead hw hturn hclear]
    exact congrArg Host.Outcome.next (if_pos hpoison)
  · intro last hi r hk
    exact matrixStep_served hhead hw hturn hclear hpoison hk
  intro bank acts
  refine ⟨fun hop => ?_, fun hop => ?_, fun hop hready x v p hx hv hp hawaits => ?_, fun hop hready hclear x hx => ?_⟩
  · show execTileAzeroEffect op s = _
    unfold execTileAzeroEffect
    rw [hop]
  · show execTileAswapEffect op s = _
    unfold execTileAswapEffect
    rw [hop]
  · intro es
    have hid : ∀ p, (areadPending o bank p).id = p.id := fun _ => rfl
    have hgroup := group?_set (s := s) (fun g => { g with
      ops := g.ops.map (fun p => if p.id == o.pending then areadPending o bank p else p) }) (fun _ => rfl) hx
    obtain ⟨hnext, hmem, -⟩ := finishOp_next (s := (s.modGroup o.gid _).dropOp core op) hgroup hv
      (find?_mapIf (areadPending o bank) hid o.pending p x.ops hp) (by unfold PendingOp.ready areadPending; rw [hawaits]; rfl)
    refine ⟨_, _, tileAread_next hop hready, hnext, hmem, ?_⟩
    obtain ⟨hfv, hfs, hfp, hfflags, hfcount, hfops, hfsplits⟩ := finishOp_finished { x with
      ops := x.ops.map (fun p => if p.id == o.pending then areadPending o bank p else p) } (areadPending o bank p)
    refine ⟨hfv, hfs, hfp, hfflags, hfcount, ?_, hfsplits⟩
    have hpid : p.id = o.pending := by simpa using List.find?_some hp
    rw [hfops, hid, hpid]
    exact filter_mapIf (areadPending o bank) hid o.pending x.ops
  · intro es u
    obtain ⟨hcalm, hcores⟩ := storeElems_frame s (scratchKey w.phys (Ptr.ofBits o.dst).base) o.fmt es
    obtain ⟨g, hg, hgx⟩ := calm_group? (hcalm _ rfl) o.gid hx
    obtain ⟨htook, hregs, -⟩ := addFlags_took g o.half (orFlags (es.map (·.2.2)))
    refine ⟨_, _, tileAstore_next hop hready hclear, rfl, group?_set _ (fun g => (addFlags_took g _ _).2.2) hg,
      tookFlags_calm hgx htook, ?_, ?_⟩
    · exact sameRegs_calm hgx hregs
    · rw [dropOp_core]
      show ((u.core core).ops.filter _) = _
      unfold State.core
      rw [hcores]

end Sys2Proof.Laws
end

section
/-!
The mailbox and its commands (21 R403; 25 R468, R469, R477 to R483; 20 R377; 23 R436, R437).
-/
namespace Sys2Proof.Laws
open Sys2Proof.Machine

/-! ### The mailbox (21 R403) -/

theorem failCmd_bits (s : State) {code : Nat} (h : code < 2 ^ 16) :
    bits (s.failCmd code).mailbox.mstat.toNat 63 62 = 3 ∧ bits (s.failCmd code).mailbox.mstat.toNat 15 0 = code := by
  obtain ⟨hstatus, hcode, -⟩ := finish_bits
    (s.record { s.plainRecord 0xFFFF s.master code 0 with engine := 12 * 2 ^ 24 }).mailbox 3 code [] (by decide)
  exact ⟨hstatus, hcode.trans (Nat.mod_eq_of_lt h)⟩

/-- 21 R403: a command just started reads busy. -/
theorem finish_busy (m : Mailbox) (code : Nat) (res : List Nat) : (m.finish 1 code res).busy = true := by
  unfold Mailbox.busy
  rw [(finish_bits m 1 code res (by decide)).1]
  rfl

/-- 21 R403: a write to DOORBELL. -/
theorem doorbell_next (s : State) (v : DWord) :
    (s.mailbox.busy = true → exec (.doorbell v) s = .next s) ∧
    (s.mailbox.busy = false → s.mailbox.command = none → exec (.doorbell v) s = .next (s.failCmd 0xB401)) ∧
    ∀ i, s.mailbox.busy = false → s.mailbox.command = some i →
      ∃ t, exec (.doorbell v) s = .next t ∧ t.agenda = i :: s.agenda ∧ t.mailbox.busy = true ∧ t.mem = s.mem := by
  have hring : exec (.doorbell v) s = .next s.ringDoorbell := rfl
  unfold State.ringDoorbell at hring
  refine ⟨fun hb => ?_, fun hb hc => ?_, fun i hb hc => ?_⟩
  · rw [hring, if_pos hb]
  · rw [hring, if_neg (by rw [hb]; decide), hc]
  · rw [if_neg (by rw [hb]; decide), hc] at hring
    exact ⟨_, hring, rfl, finish_busy _ 0 [], rfl⟩

/-- 21 R403: a write to a register of the mailbox page is one of the doubleword that holds it. -/
theorem registerWrite_mailbox (s : State) {off : Nat} (h : off < 4096) (v : DWord) :
    exec (.registerWrite (Config.mailboxPage + off) v) s =
      .next (if off = 0x38 then s.ringDoorbell else { s with mailbox := s.mailbox.write (off / 8 * 8) v }) := by
  show execRegisterWrite (Config.mailboxPage + off) v s = _
  unfold execRegisterWrite
  rw [if_pos (by simp [h]), Nat.add_sub_cancel_left]

theorem write_arg {m : Mailbox} (hb : m.busy = false) {i : Nat} (hi : i < 6) (v : DWord) :
    m.write (8 + 8 * i) v = { m with args := m.args.modify i (fun _ => v) } := by
  have hrange : (decide (8 ≤ 8 + 8 * i) && decide (8 + 8 * i < 0x38)) = true := by
    rw [Bool.and_eq_true, decide_eq_true_eq, decide_eq_true_eq]
    omega
  unfold Mailbox.write
  rw [if_neg (by rw [hb]; decide), if_neg (by omega), if_pos hrange, Nat.add_sub_cancel_left, Nat.mul_div_cancel_left i (by decide)]

/-- 21 R403: what a write to the page of the mailbox does. -/
theorem registerWrite_cases (s : State) (off : Nat) (v : DWord) (h : off < 4096) :
    (off = 0x38 → exec (.registerWrite (Config.mailboxPage + off) v) s = .next s.ringDoorbell) ∧
    (off ≠ 0x38 → s.mailbox.busy = true → exec (.registerWrite (Config.mailboxPage + off) v) s = .next s) ∧
    (s.mailbox.busy = false → off = 0 → exec (.registerWrite (Config.mailboxPage + off) v) s =
      .next { s with mailbox := { s.mailbox with cmd := v } }) ∧
    ∀ i, s.mailbox.busy = false → i < 6 → off = 8 + 8 * i → exec (.registerWrite (Config.mailboxPage + off) v) s =
      .next { s with mailbox := { s.mailbox with args := s.mailbox.args.modify i (fun _ => v) } } := by
  rw [registerWrite_mailbox s h v]
  refine ⟨fun hd => by rw [if_pos hd], fun hd hb => ?_, fun hb h0 => ?_, fun i hb hi ho => ?_⟩
  · rw [if_neg hd]
    unfold Mailbox.write
    rw [if_pos hb]
  · subst h0
    unfold Mailbox.write
    rw [if_neg (by decide), if_neg (by rw [hb]; decide), if_pos rfl]
  · rw [if_neg (by omega), show off / 8 * 8 = 8 + 8 * i by omega, write_arg hb hi]

/-! ### Operands (25 R479) -/

/-- Commands that name no partition, with the number of their operands. -/
def plainCommands (x : MgmtArgs) : List (Instr × Nat) :=
  [(.summary x, 2), (.errread x, 3), (.histrd x, 6), (.snap x, 3), (.cohcfg x, 2), (.fwload x, 2), (.retire x, 3), (.returnUnit x, 3),
    (.drcal x, 2), (.ltrain x, 3), (.memchk x, 2)]

/-- Commands that name a partition, with the number of their operands. -/
def partCommands (x : MgmtArgs) : List (Instr × Nat) :=
  [(.pdestroy x, 1), (.precfg x, 2), (.preset x, 1), (.tlbi x, 3), (.irqcfg x, 3), (.errcfg x, 3), (.accfg x, 4), (.obscfg x, 2),
    (.stop x, 2), (.resume x, 2), (.step x, 4), (.ckfree x, 2), (.replay x, 3), (.dumpcfg x, 3)]

theorem exec_plainCommand (s : State) {x : MgmtArgs} {y : Instr × Nat} (h : y ∈ plainCommands x) :
    ∃ ok t, exec y.1 s = s.command x y.2 ok t := by
  simp only [plainCommands, List.mem_cons, List.not_mem_nil, or_false] at h
  rcases h with rfl | rfl | rfl | rfl | rfl | rfl | rfl | rfl | rfl | rfl | rfl <;> exact ⟨_, _, rfl⟩

theorem exec_partCommand (s : State) {x : MgmtArgs} {y : Instr × Nat} (h : y ∈ partCommands x) :
    ∃ f, exec y.1 s = s.partCommand x y.2 f := by
  simp only [partCommands, List.mem_cons, List.not_mem_nil, or_false] at h
  rcases h with rfl | rfl | rfl | rfl | rfl | rfl | rfl | rfl | rfl | rfl | rfl | rfl | rfl | rfl <;> exact ⟨_, rfl⟩

theorem pcreate_blank {s : State} {x : MgmtArgs} (h : blankFrom 1 x = false) : exec (.pcreate x) s = .next (s.failCmd 0xB402) := by
  show execPcreate x s = _
  unfold execPcreate
  rw [if_neg (by rw [h]; decide)]

theorem cntclr_blank {s : State} {x : MgmtArgs} (h : blankFrom 2 x = false) : exec (.cntclr x) s = .next (s.failCmd 0xB402) := by
  show execCntclr x s = _
  unfold execCntclr
  split
  · exact command_bad h
  · exact partCommand_bad h

theorem fwswitch_blank {s : State} {x : MgmtArgs} (h : blankFrom 0 x = false) : exec (.fwswitch x) s = .next (s.failCmd 0xB402) := by
  show execFwswitch x s = _
  unfold execFwswitch
  rw [if_pos (by rw [h]; rfl)]

theorem reset_blank {s : State} {x : MgmtArgs} (h : blankFrom 3 x = false) : exec (.reset x) s = .next (s.failCmd 0xB402) := by
  exact congrArg Host.Outcome.next (if_pos (by rw [h]; rfl))

/-- 25 R479: a blank operand that is not zero fails the command. -/
theorem exec_blank (s : State) {x : MgmtArgs} {y : Instr × Nat}
    (h : y ∈ plainCommands x ++ partCommands x ++ [(.pcreate x, 1), (.cntclr x, 2), (.fwswitch x, 0), (.reset x, 3)])
    (hb : blankFrom y.2 x = false) : exec y.1 s = .next (s.failCmd 0xB402) := by
  rcases List.mem_append.1 h with h | h
  · rcases List.mem_append.1 h with h | h
    · obtain ⟨ok, t, he⟩ := exec_plainCommand s h
      exact he.trans (command_bad hb)
    · obtain ⟨f, he⟩ := exec_partCommand s h
      exact he.trans (partCommand_bad hb)
  · simp only [List.mem_cons, List.not_mem_nil, or_false] at h
    rcases h with rfl | rfl | rfl | rfl
    · exact pcreate_blank hb
    · exact cntclr_blank hb
    · exact fwswitch_blank hb
    · exact reset_blank hb

/-! ### Commands that name no partition -/

/-- 25 R478: PCREATE of a descriptor that is read. -/
theorem pcreate_read {s : State} {x : MgmtArgs} {bs : List Byte} (hb : blankFrom 1 x = true) (hbs : s.readDescriptor x.a0.toNat = some bs) :
    exec (.pcreate x) s = .next (if s.descriptorValid { partitionOf s.freshPart bs with domain := s.pod :: Config.braidDomain s.freshPart } bs
      then ({ s with parts := s.parts ++ [{ partitionOf s.freshPart bs with domain := s.pod :: Config.braidDomain s.freshPart }] } :
        State).doneCmd [s.freshPart, Config.controlPage s.freshPart, 1] else s.failCmd 0xB402) := by
  show execPcreate x s = _
  unfold execPcreate
  rw [if_pos hb, hbs]

/-- 23 R436: the state in which HISTRD has read a histogram and, if asked to, reset it. -/
def histRead (s : State) (x : MgmtArgs) (phys : Nat) (bs : List Byte) : State :=
  if x.a5.toNat = 1 then
    (s.outerBytes x.a4.toNat bs).modCore phys (fun c => { c with hist := c.hist.modify x.a3.toNat (fun _ => Histogram.reset) })
  else s.outerBytes x.a4.toNat bs

theorem histRead_byte (s : State) (x : MgmtArgs) (phys : Nat) (bs : List Byte) (k : Nat) :
    (histRead s x phys bs).byte k = (s.outerBytes x.a4.toNat bs).byte k := by
  unfold histRead
  split <;> rfl

theorem histRead_reset (s : State) {x : MgmtArgs} (phys : Nat) (bs : List Byte) (h1 : x.a5.toNat = 1)
    (hlen : x.a3.toNat < ((histRead s x phys bs).core phys).hist.length) :
    ((histRead s x phys bs).core phys).hist.getD x.a3.toNat Histogram.reset = Histogram.reset := by
  unfold histRead at hlen ⊢
  rw [if_pos h1, State.core_modCore, if_pos rfl] at hlen ⊢
  rw [List.getD_eq_getElem _ _ hlen]
  exact List.getElem_modify_eq ..

/-- 23 R437: SNAP while a snapshot is being taken, and otherwise. -/
theorem snap_next {s : State} {x : MgmtArgs} (hb : blankFrom 3 x = true) (hbuf : bufferOk x.a0.toNat x.a1.toNat = true)
    (hbits : bits x.a2.toNat 15 1 = 0) (hlt : x.a2.toNat < 2 ^ 32) :
    (s.snap.active = true → ∃ u : State, exec (.snap x) s = .next (u.doneCmd [0]) ∧ u.snap = { s.snap with ignored := s.snap.ignored + 1 }) ∧
    (s.snap.active = false → ∃ t, exec (.snap x) s = .next t ∧ t.snap.active = true ∧ t.snap.latched = [] ∧ t.snap.buffer = x.a0.toNat ∧
      t.snap.size = x.a1.toNat ∧ t.snap.onStop = bitOf x.a2.toNat 0 ∧ t.mailbox = s.mailbox) := by
  have hok : (bufferOk x.a0.toNat x.a1.toNat && bits x.a2.toNat 15 1 == 0 && decide (x.a2.toNat < 2 ^ 32)) = true := by
    rw [hbuf, hbits, decide_eq_true hlt]
    rfl
  refine ⟨fun ha => ⟨s.snapTrigger, ?_, ?_⟩, fun ha => ?_⟩
  · exact (command_ok hb hok).trans (congrArg Host.Outcome.next (if_pos ha))
  · unfold State.snapTrigger
    rw [if_pos ha]
  · refine ⟨_, (command_ok hb hok).trans (congrArg Host.Outcome.next (if_neg (by rw [ha]; decide))), ?_⟩
    unfold State.snapTrigger
    rw [if_neg (by rw [ha]; decide)]
    exact ⟨rfl, rfl, rfl, rfl, rfl, rfl⟩

/-- Settles O57, command by command. -/
theorem mailboxAndCommands : Obligations.MailboxAndCommands := by
  intro s x bad
  refine ⟨fun u res => ⟨doneCmd_mem u res, doneCmd_parts u res, doneCmd_status u res, doneCmd_code u res, doneCmd_tag u res,
    doneCmd_res u res⟩, fun code h => failCmd_bits s h, ?_, doorbell_next s, rfl, fun off v h => registerWrite_cases s off v h,
    ?_, ?_, ?_, ?_, ?_, ?_, ?_, ?_, fun hb hbuf hbits hlt => snap_next hb hbuf hbits hlt⟩
  · intro y hy
    fin_cases hy <;> rfl
  · intro y hy hb
    refine exec_blank s (x := x) ?_ hb
    simp only [plainCommands, partCommands, List.mem_append, List.mem_cons, List.not_mem_nil, or_false] at hy ⊢
    tauto
  · intro i hi hnone
    obtain ⟨y, hy, rfl⟩ : ∃ y ∈ partCommands x, y.1 = i := List.mem_map.1 hi
    obtain ⟨f, he⟩ := exec_partCommand s hy
    exact he.trans (partCommand_none hnone)
  · intro hb hbuf bs
    exact ⟨s.outerBytes x.a0.toNat bs, command_ok hb hbuf, outerBytes_byte s x.a0.toNat bs⟩
  · intro bs hb hbs n p
    rw [pcreate_read hb hbs]
    exact ⟨fun hv => by rw [if_pos hv], fun hv => by rw [if_neg (by rw [hv]; decide)]⟩
  · intro hb h0 h1 h2
    exact command_ok hb (by rw [decide_eq_true h0, h1, h2]; rfl)
  · intro hb h0 h1
    exact (if_pos h0).trans (command_ok hb (decide_eq_true h1))
  · intro hb rs bs hbuf
    exact ⟨s.outerBytes x.a0.toNat bs, command_ok hb hbuf, outerBytes_byte s x.a0.toNat bs⟩
  · intro hb h0 h1 h2 h3 hbuf h5 phys h bs
    refine ⟨histRead s x phys bs, command_ok hb ?_, fun k => ?_, histRead_reset s phys bs⟩
    · rw [decide_eq_true h0, decide_eq_true h1, decide_eq_true h2, decide_eq_true h3, hbuf, decide_eq_true h5]
      rfl
    · rw [histRead_byte]
      exact outerBytes_byte s x.a4.toNat bs k

end Sys2Proof.Laws
end

section
/-!
The service commands (25 R471, R477, R484 to R487; 05 R109).
-/
namespace Sys2Proof.Laws
open Sys2Proof.Machine

/-! ### Firmware (25 R484) -/

/-- 25 R484: FWSWITCH changes nothing where an image is invalid, and else takes the other image of every die. -/
theorem fwswitch_next {s : State} {x : MgmtArgs} (hb : blankFrom 0 x = true) :
    ((∃ d ∈ s.dies, d.spareImage = false) → exec (.fwswitch x) s = .next (s.failCmd 0xB404)) ∧
    ((∀ d ∈ s.dies, d.spareImage = true) → exec (.fwswitch x) s =
      .next (({ s with dies := s.dies.map (fun (d : Die) => { d with fwActiveB := !d.fwActiveB }) } : State).doneService 0x31)) := by
  have hexec : exec (.fwswitch x) s = .next (if !s.dies.all Die.spareImage then s.failCmd 0xB404
      else ({ s with dies := s.dies.map (fun (d : Die) => { d with fwActiveB := !d.fwActiveB }) } : State).doneService 0x31) :=
    congrArg Host.Outcome.next (if_neg (by rw [hb]; decide))
  refine ⟨fun ⟨d, hd, hinvalid⟩ => ?_, fun hall => ?_⟩
  · have hnot : s.dies.all Die.spareImage = false := List.all_eq_false.2 ⟨d, hd, by rw [hinvalid]; decide⟩
    rw [hexec, hnot]
    rfl
  · rw [hexec, List.all_eq_true.2 hall]
    rfl

/-! ### MEMCHK (25 R477, R480, R485) -/

/-- The contexts that a cluster keeps in shadow storage. -/
def keptAt (s : State) (k : Nat) : List Workgroup := s.wgs.filter (fun w => w.status == .saved && w.savedAt == k)

theorem mem_keptAt {s : State} {k : Nat} {w : Workgroup} : w ∈ keptAt s k ↔ w ∈ s.wgs ∧ w.status = .saved ∧ w.savedAt = k := by
  simp [keptAt, List.mem_filter]

/-- 25 R477: what MEMCHK of a cluster comes to. -/
theorem memchk_cases {s : State} {x : MgmtArgs} {k : Nat} (hk : k = x.a0.toNat * 7 + x.a1.toNat) (hb : blankFrom 2 x = true)
    (h0 : x.a0.toNat < 4) (h1 : x.a1.toNat < 7) :
    exec (.memchk x) s = .next (if (s.share k).state == .inService then s.failCmd 0xB403
      else if (keptAt s k).any (fun w => ((s.partOf w.part).physCluster w.ldie w.lcluster).isNone) then s.failCmd 0xB403
      else if !(keptAt s k).isEmpty then s
      else (s.modShare k (fun c => { c with checked := Config.freeBool s.free })).doneService 0x37) := by
  subst hk
  exact command_ok hb (by rw [decide_eq_true h0, decide_eq_true h1]; rfl)

/-- 25 R477, R480, R485: MEMCHK fails, waits or is done. -/
theorem memchk_next {s : State} (hI : s.Inv) {x : MgmtArgs} {k : Nat} (hk : k = x.a0.toNat * 7 + x.a1.toNat) (hb : blankFrom 2 x = true)
    (h0 : x.a0.toNat < 4) (h1 : x.a1.toNat < 7) :
    ((s.share k).state = .inService → exec (.memchk x) s = .next (s.failCmd 0xB403)) ∧
    ((∃ w ∈ s.wgs, w.status = .saved ∧ w.savedAt = k ∧ (s.partOf w.part).physCluster w.ldie w.lcluster = none) →
      exec (.memchk x) s = .next (s.failCmd 0xB403)) ∧
    ((s.share k).state ≠ .inService → (∀ w ∈ s.wgs, w.status = .saved → w.savedAt = k → (s.partOf w.part).physCluster w.ldie w.lcluster ≠ none) →
      (∃ w ∈ s.wgs, w.status = .saved ∧ w.savedAt = k) → exec (.memchk x) s = .next s) ∧
    ((s.share k).state ≠ .inService → (∀ w ∈ s.wgs, w.status = .saved → w.savedAt ≠ k) → ∃ u : State, exec (.memchk x) s = .next (u.doneService 0x37) ∧
      ∃ ok, u.share k = { s.share k with checked := ok }) := by
  have hexec := memchk_cases hk hb h0 h1 (s := s)
  refine ⟨fun hin => ?_, fun ⟨w, hw, hsaved, hat, hnone⟩ => ?_, fun hout hmapped ⟨w, hw, hsaved, hat⟩ => ?_, fun hout hnot => ?_⟩
  · rw [hexec, if_pos (beq_iff_eq.2 hin)]
  · have hany : (keptAt s k).any (fun w => ((s.partOf w.part).physCluster w.ldie w.lcluster).isNone) = true :=
      List.any_eq_true.2 ⟨w, mem_keptAt.2 ⟨hw, hsaved, hat⟩, by rw [hnone]; rfl⟩
    rw [hexec, hany, if_pos rfl, ite_self]
  · have hany : (keptAt s k).any (fun w => ((s.partOf w.part).physCluster w.ldie w.lcluster).isNone) = false := by
      refine List.any_eq_false.2 fun v hv => ?_
      obtain ⟨hvw, hvs, hva⟩ := mem_keptAt.1 hv
      rw [Option.isNone_iff_eq_none]
      exact hmapped v hvw hvs hva
    have hsome : (keptAt s k).isEmpty = false := List.isEmpty_eq_false_iff.2 (List.ne_nil_of_mem (mem_keptAt.2 ⟨hw, hsaved, hat⟩))
    rw [hexec, if_neg (by simpa using hout), hany, hsome]
    rfl
  · have hnil : keptAt s k = [] := List.eq_nil_iff_forall_not_mem.2 fun w hw =>
      hnot w (mem_keptAt.1 hw).1 (mem_keptAt.1 hw).2.1 (mem_keptAt.1 hw).2.2
    refine ⟨_, ?_, Config.freeBool s.free, share_modShare hI (by omega) (fun c => { c with checked := Config.freeBool s.free })⟩
    rw [hexec, if_neg (by simpa using hout), hnil]
    rfl

/-! ### Memory and links (25 R486, R487) -/

/-- 25 R486: a channel that fails calibration is poisoned, and its record is written. -/
theorem loseChannel_leaves {s : State} (h : s.part? 0xFFFF = none) (die channel : Nat) :
    (∀ g ∈ channelGranules die channel, g ∈ (s.loseChannel die channel).poison ∧ g ∉ (s.loseChannel die channel).tags) ∧
      (s.loseChannel die channel).mem = s.mem ∧ ∃ r ∈ (s.loseChannel die channel).records, r.code = 0x6103 := by
  let v := s.modDie die (fun d => { d with mappedOut := setAdd channel d.mappedOut })
  obtain ⟨hquiet, hrec⟩ := record_quiet (s := v) (r := { v.plainRecord 0xFFFF die 0x6103 (actionOf 0 6) with engine := 10 * 2 ^ 24 + channel }) h
  exact ⟨poisoned _ (channelGranules die channel), hquiet.mem, _, hrec, rfl⟩

/-- 25 R486: DRCAL succeeds, or loses its channel. -/
theorem drcal_next {s : State} (h : s.part? 0xFFFF = none) {x : MgmtArgs} (hb : blankFrom 2 x = true) (h0 : x.a0.toNat < 4)
    (h1 : x.a1.toNat < Config.channels) :
    exec (.drcal x) s = .next (s.doneService 0x34) ∨ ∃ u : State, exec (.drcal x) s = .next (u.doneService 0x34) ∧
      (∀ g ∈ channelGranules x.a0.toNat x.a1.toNat, g ∈ u.poison ∧ g ∉ u.tags) ∧ u.mem = s.mem ∧ ∃ r ∈ u.records, r.code = 0x6103 := by
  have hexec : exec (.drcal x) s = .next ((if Config.freeBool s.free then s else s.loseChannel x.a0.toNat x.a1.toNat).doneService 0x34) :=
    command_ok hb (by rw [decide_eq_true h0, decide_eq_true h1]; rfl)
  rw [hexec]
  split
  · exact .inl rfl
  · exact .inr ⟨_, rfl, loseChannel_leaves h x.a0.toNat x.a1.toNat⟩

/-- The Mbatil lanes of a mask. -/
def lanesIn (mask : Nat) : List Nat := (List.range 64).filter (bitOf mask)

theorem mem_lanesIn {mask l : Nat} (hl : l < 64) (hb : bitOf mask l = true) : l ∈ lanesIn mask :=
  List.mem_filter.2 ⟨List.mem_range.2 hl, hb⟩

/-- 25 R487: the record of a lane, and what it leaves alone. -/
theorem laneRecord_leaves {s : State} (h : s.part? 0xFFFF = none) (lane : Nat) :
    Quiet s (s.laneRecord lane) ∧ ∃ r ∈ (s.laneRecord lane).records, r.code = 0x9002 := by
  obtain ⟨hquiet, hrec⟩ := record_quiet (s := s)
    (r := { s.plainRecord 0xFFFF s.master 0x9002 (actionOf 0 6) with engine := 9 * 2 ^ 24 + lane }) h
  exact ⟨hquiet, _, hrec, rfl⟩

/-- 25 R487: lanes that are trained are in use again, or left out. -/
theorem trainLanes_next {s : State} (h : s.part? 0xFFFF = none) (mask : Nat) :
    ∃ u : State, s.trainLanes mask = u.doneService 0x35 ∧ u.mem = s.mem ∧ (∃ r ∈ u.records, r.code = 0x9002) ∧
      ((u.linkDown = false ∧ ∀ l < 64, bitOf mask l = true → l ∉ u.badLanes) ∨ ∀ l < 64, bitOf mask l = true → l ∈ u.badLanes) := by
  obtain ⟨hquiet, hrec⟩ := laneRecord_leaves h ((lanesIn mask).headD 0)
  obtain ⟨hmem, hparts, hrecords, hbad⟩ := countFold (lanesIn mask) (s.laneRecord ((lanesIn mask).headD 0))
  let v := (lanesIn mask).foldl (fun s l => s.countRetrain l) (s.laneRecord ((lanesIn mask).headD 0))
  have htrain : s.trainLanes mask = if Config.freeBool v.free then
      ({ v with badLanes := v.badLanes.filter (fun l => !(lanesIn mask).contains l), linkDown := false } : State).doneService 0x35
    else (({ v with badLanes := (lanesIn mask).foldl (fun l k => setAdd k l) v.badLanes } : State).laneRecord
      ((lanesIn mask).headD 0)).doneService 0x35 := rfl
  rw [htrain]
  split
  · refine ⟨_, rfl, hmem.trans hquiet.mem, by rw [← hrecords] at hrec; exact hrec, .inl ⟨rfl, fun l hl hb hin => ?_⟩⟩
    have hout := (List.mem_filter.1 (show l ∈ v.badLanes.filter (fun l => !(lanesIn mask).contains l) from hin)).2
    simp [mem_lanesIn hl hb] at hout
  · have hv : v.part? 0xFFFF = none := part?_of (hparts.trans hquiet.parts) h
    obtain ⟨hquiet2, hrec2⟩ := laneRecord_leaves
      (s := { v with badLanes := (lanesIn mask).foldl (fun l k => setAdd k l) v.badLanes }) hv ((lanesIn mask).headD 0)
    refine ⟨_, rfl, hquiet2.mem.trans (hmem.trans hquiet.mem), hrec2, .inr fun l hl hb => ?_⟩
    rw [hquiet2.link.2]
    exact (foldSet v.badLanes).2 l (mem_lanesIn hl hb)

/-- Settles O59, command by command. -/
theorem serviceCommands : Obligations.ServiceCommands := by
  intro s x hI h k mask
  refine ⟨fun u code hu _ => ?_, fun hb h0 hbuf => ?_, fun hb => fwswitch_next hb, fun hb hu => retire_facts hI hb hu,
    fun hb => ⟨fun h0 h1 => memchk_next hI rfl hb h0 h1, fun h0 h1 => drcal_next h hb h0 h1⟩, fun hb => ⟨fun h0 => ?_, fun h0 h1 => ?_⟩⟩
  · obtain ⟨⟨r, hr, hcode, hpaddr⟩, hrest⟩ := doneService_facts u code hu
    exact ⟨r, hr, hcode, hpaddr, hrest⟩
  · exact ⟨_, _, command_ok hb (by rw [hbuf, Bool.and_true, bne_iff_ne]; exact h0)⟩
  · obtain ⟨u, hu, hrest⟩ := trainLanes_next h x.a2.toNat
    refine ⟨u, ?_, hrest⟩
    rw [← hu]
    refine (command_ok hb ?_).trans (congrArg Host.Outcome.next (if_pos h0))
    rw [h0]
    rfl
  · refine (command_ok hb ?_).trans (congrArg Host.Outcome.next (if_neg (by omega)))
    rw [h0, decide_eq_true h1]
    rfl

end Sys2Proof.Laws
end

section
/-!
Resets and hardware errors (25 R471 to R476; 21 R404; 20 R382; 01 R10).
-/
namespace Sys2Proof.Laws
open Sys2Proof.Machine

/-- What a running machine works on stands. -/
theorem Still.works {s u : State} (h : Still s u) : u.mem = s.mem ∧ u.tags = s.tags ∧ u.poison = s.poison ∧ u.cores = s.cores ∧
    u.parts = s.parts ∧ u.wgs = s.wgs ∧ u.groups = s.groups :=
  ⟨h.mem, h.tags, h.poison, h.cores, h.parts, h.wgs, h.groups⟩

/-- A record that names no partition leaves what the machine works on, and is among the records. -/
theorem record_works {s : State} {r : ErrorRecord} (h : s.part? r.part = none) :
    ((s.record r).mem = s.mem ∧ (s.record r).tags = s.tags ∧ (s.record r).poison = s.poison ∧ (s.record r).cores = s.cores ∧
      (s.record r).parts = s.parts ∧ (s.record r).wgs = s.wgs ∧ (s.record r).groups = s.groups) ∧ r ∈ (s.record r).records :=
  ⟨(record_quiet h).1.still.works, (record_quiet h).2⟩

/-! ### The command RESET (25 R474, R477) -/

/-- 25 R474: RESET of the package, warm or cold. -/
theorem reset_package {s : State} (hI : s.Inv) (h : s.part? 0xFFFF = none) {x : MgmtArgs} (hb : blankFrom 3 x = true) (h0 : x.a0.toNat = 0)
    (h1 : x.a1.toNat = 0) :
    (x.a2.toNat = 1 → ∃ u, exec (.reset x) s = .next u ∧ Gone u ∧ (∀ d < 4, Took u d 2 0 0) ∧ ∀ k, isGlobal k = true → u.byte k = s.byte k) ∧
    (x.a2.toNat = 0 → ∃ u, exec (.reset x) s = .next u ∧ Gone u ∧ (∀ d < 4, Took u d 3 0 0) ∧ u.mem = [] ∧ u.tags = []) := by
  obtain ⟨v, hv, hvI, -, -, -, -, hvmem⟩ := idle_facts s hI h
  have hexec := fun (hw : x.a2.toNat < 2) => exec_reset_eq x s v hv hb hw
  simp only [h0, h1, if_true] at hexec
  refine ⟨fun h2 => ?_, fun h2 => ?_⟩
  · obtain ⟨hgone, htook, hmem, -⟩ := resetPackage_facts v hvI (cause := 2) (by decide) true
    refine ⟨_, (hexec (by omega)).trans (by rw [h2]; rfl), hgone, htook, fun k hk => ?_⟩
    unfold State.byte
    rw [hmem, hvmem]
    exact assocGet_filter isGlobal s.mem k hk
  · obtain ⟨hgone, htook, hmem, htags⟩ := resetPackage_facts v hvI (cause := 3) (by decide) false
    exact ⟨_, (hexec (by omega)).trans (by rw [h2]; rfl), hgone, htook, hmem, htags⟩

/-- 25 R474: RESET of a die. -/
theorem reset_die {s : State} (hI : s.Inv) (h : s.part? 0xFFFF = none) {x : MgmtArgs} (hb : blankFrom 3 x = true) (h0 : x.a0.toNat = 1)
    (h1 : x.a1.toNat < 4) (h2 : x.a2.toNat = 0) : ∃ u : State, exec (.reset x) s = .next u ∧ Lost s u x.a1.toNat 4 0 := by
  obtain ⟨v, hv, -, hv0, hlen, hwgs, hparts, -⟩ := idle_facts s hI h
  have hexec := exec_reset_eq x s v hv hb (by omega)
  rw [h0] at hexec
  refine ⟨_, hexec.trans (congrArg Host.Outcome.next (if_pos ?_)),
    (resetDie_lost hv0 (by omega) (by decide) (by decide)).of hwgs hparts⟩
  rw [decide_eq_true h1, decide_eq_true h2]
  rfl

/-- 25 R474: RESET of a cluster. -/
theorem reset_cluster {s : State} (hI : s.Inv) (h : s.part? 0xFFFF = none) {x : MgmtArgs} {k : Nat} (hb : blankFrom 3 x = true)
    (h0 : x.a0.toNat = 2) (hd : x.a1.toNat / 8 < 4) (hc : x.a1.toNat % 8 < 7) (h2 : x.a2.toNat = 0)
    (hk : k = x.a1.toNat / 8 * 7 + x.a1.toNat % 8) :
    ∃ u : State, exec (.reset x) s = .next u ∧ (u.share k).state ≠ .enabled ∧ (u.share k).state ≠ .spare ∧
      (∀ w ∈ s.wgs, coreCluster w.phys = k → w.onCore = true → ∃ h ∈ u.halts, w.key ∈ h.wgs) ∧ u.wgs = s.wgs := by
  obtain ⟨v, hv, hvI, hv0, -, hwgs, -, -⟩ := idle_facts s hI h
  have hexec := exec_reset_eq x s v hv hb (by omega)
  rw [h0] at hexec
  have hcond : (decide (x.a1.toNat / 8 < 4) && decide (x.a1.toNat % 8 < 7) && decide (x.a2.toNat = 0)) = true := by
    rw [decide_eq_true hd, decide_eq_true hc, decide_eq_true h2]
    rfl
  obtain ⟨henabled, hspare, hhalts, hstay⟩ := resetCluster_facts hvI hv0 (k := k) (by omega)
  rw [hwgs] at hhalts hstay
  subst hk
  exact ⟨_, hexec.trans (congrArg Host.Outcome.next (if_pos hcond)), henabled, hspare, hhalts, hstay⟩

/-- 25 R474: RESET of no scope that there is, or with an operand out of range. -/
theorem reset_bad {s : State} {x : MgmtArgs} (hb : blankFrom 3 x = true) (hbad : 3 ≤ x.a0.toNat ∨ 2 ≤ x.a2.toNat) :
    exec (.reset x) s = .next (s.failCmd 0xB402) := by
  by_cases h2 : 2 ≤ x.a2.toNat
  · exact congrArg Host.Outcome.next (if_pos (by rw [hb, decide_eq_true h2]; rfl))
  · have h0 : 3 ≤ x.a0.toNat := hbad.resolve_right h2
    rw [exec_reset_eq x s _ rfl hb (by omega)]
    obtain ⟨n, hn⟩ := Nat.exists_eq_add_of_le' h0
    rw [hn]
    rfl

/-! ### Resets of a die by other causes (25 R474, R475) -/

/-- 25 R474: a die that is reset once a record of it has been written. -/
theorem recordReset_lost {s : State} (hI : s.Inv) (h : s.part? 0xFFFF = none) {r : ErrorRecord} (hr : r.part = 0xFFFF)
    {die cause code : Nat} (hd : die < 4) (hcause : cause < 256) (hcode : code < 2 ^ 16) :
    Lost s ((s.record r).resetDie die cause code) die cause code := by
  have hq := (record_quiet (r := r) (by rw [hr]; exact h)).1
  have hlen : die < (s.record r).dies.length := by rw [hq.dies, hI.dies.1]; exact hd
  exact (resetDie_lost (part?_of hq.parts h) hlen hcause hcode).of hq.wgs hq.parts

theorem thermalTrip_lost {s : State} (hI : s.Inv) (h : s.part? 0xFFFF = none) {die : Nat} (hd : die < 4) :
    ∃ u : State, exec (.thermalTrip die) s = .next u ∧ Lost s u die 8 0xA003 :=
  ⟨_, congrArg Host.Outcome.next (if_pos hd), recordReset_lost hI h rfl hd (by decide) (by decide)⟩

theorem directoryArray_lost {s : State} (hI : s.Inv) (h : s.part? 0xFFFF = none) {die : Nat} (hd : die < 4) :
    ∃ u : State, exec (.directoryArrayUncorrectable die) s = .next u ∧ Lost s u die 4 0x7002 :=
  ⟨_, congrArg Host.Outcome.next (if_pos hd), recordReset_lost hI h rfl hd (by decide) (by decide)⟩

/-- 25 R474: the watchdog of a Cirque resets it alone. -/
theorem watchdog_next {s : State} (hI : s.Inv) (h : s.part? 0xFFFF = none) {die m : Nat} (hd : die < 4) (hm : m < 4) :
    ∃ u, exec (.cirqueWatchdogReset die m) s = .next u ∧ (u.mem = s.mem ∧ u.tags = s.tags ∧ u.poison = s.poison ∧ u.cores = s.cores ∧
      u.parts = s.parts ∧ u.wgs = s.wgs ∧ u.groups = s.groups) ∧ Took u die 7 4 0xB405 ∧ u.master = (if s.master = die then m else s.master) := by
  obtain ⟨hsame, htook, hmaster, -⟩ := resetCirque_facts h (master := m) (cause := 7) (code := 0xB405)
    (by rw [hI.dies.1]; exact hd) (by decide) (by decide)
  exact ⟨_, congrArg Host.Outcome.next (if_pos (by rw [decide_eq_true hd, decide_eq_true hm]; rfl)), hsame, htook, hmaster⟩

/-- 25 R474: a firmware fault of a Cirque resets it alone, and the other image is taken. -/
theorem firmwareFault_next {s : State} (hI : s.Inv) (h : s.part? 0xFFFF = none) {die m : Nat} (hd : die < 4) (hm : m < 4) :
    ∃ u, exec (.firmwareFault die m) s = .next u ∧ (u.mem = s.mem ∧ u.tags = s.tags ∧ u.poison = s.poison ∧ u.cores = s.cores ∧
      u.parts = s.parts ∧ u.wgs = s.wgs ∧ u.groups = s.groups) ∧ Took u die 10 4 0xB406 ∧
      u.master = (if s.master = die then m else s.master) ∧ (u.die die).fwActiveB = !(s.die die).fwActiveB := by
  have hlen : die < s.dies.length := by rw [hI.dies.1]; exact hd
  obtain ⟨hsame, htook, hmaster, hfw⟩ := resetCirque_facts (s := s.modDie die (fun d => { d with fwActiveB := !d.fwActiveB })) h
    (master := m) (cause := 10) (code := 0xB406) ((List.length_modify ..).symm ▸ hlen) (by decide) (by decide)
  refine ⟨_, congrArg Host.Outcome.next (if_pos (by rw [decide_eq_true hd, decide_eq_true hm]; rfl)), hsame, htook, hmaster, ?_⟩
  rw [hfw, die_modDie, if_pos ⟨rfl, hlen⟩]

/-! ### Throttling, the power cap, the link (25 R471; 21 R404) -/

/-- 25 R471: a die that is throttled goes on, and its record is written. -/
theorem dieThrottle_next {s : State} (hI : s.Inv) (h : s.part? 0xFFFF = none) {die : Nat} (hd : die < 4) :
    ∃ u, exec (.dieThrottle die) s = .next u ∧ (u.mem = s.mem ∧ u.tags = s.tags ∧ u.poison = s.poison ∧ u.cores = s.cores ∧
      u.parts = s.parts ∧ u.wgs = s.wgs ∧ u.groups = s.groups) ∧ (u.die die).throttled = true ∧ ∃ r ∈ u.records, r.code = 0xA001 := by
  let v := s.modDie die (fun d => { d with throttled := true })
  let r : ErrorRecord := { s.plainRecord 0xFFFF die 0xA001 (actionOf 5 7) with engine := 12 * 2 ^ 24 }
  obtain ⟨hsame, hrec⟩ := record_works (s := v) (r := r) h
  refine ⟨v.record r, congrArg Host.Outcome.next (if_pos hd), hsame, ?_, _, hrec, rfl⟩
  have hdie : (v.record r).die die = v.die die := by unfold State.die; rw [(record_quiet (s := v) (r := r) h).1.dies]
  rw [hdie, die_modDie, if_pos ⟨rfl, by rw [hI.dies.1]; exact hd⟩]

/-- 25 R471: the power cap is reached. -/
theorem powerCap_next {s : State} (h : s.part? 0xFFFF = none) :
    ∃ u, exec .powerCapReached s = .next u ∧ (u.mem = s.mem ∧ u.tags = s.tags ∧ u.poison = s.poison ∧ u.cores = s.cores ∧
      u.parts = s.parts ∧ u.wgs = s.wgs ∧ u.groups = s.groups) ∧ u.powerCap = true ∧ ∃ r ∈ u.records, r.code = 0xA002 := by
  let r : ErrorRecord := { s.plainRecord 0xFFFF s.master 0xA002 (actionOf 6 7) with engine := 12 * 2 ^ 24 }
  obtain ⟨hsame, hrec⟩ := record_works (s := { s with powerCap := true }) (r := r) h
  exact ⟨_, rfl, hsame, record_cap { s with powerCap := true } r h, _, hrec, rfl⟩

/-- 25 R474: the loss of the link resets it. -/
theorem linkLossReset_next {s : State} (hI : s.Inv) (h : s.part? 0xFFFF = none) (hlink : s.linkDown = true) :
    ∃ u, exec .linkLossReset s = .next u ∧ (u.mem = s.mem ∧ u.tags = s.tags ∧ u.poison = s.poison ∧ u.cores = s.cores ∧
      u.parts = s.parts ∧ u.wgs = s.wgs ∧ u.groups = s.groups) ∧ u.linkDown = false ∧ u.badLanes = [] ∧
      (s.master < 4 → Took u s.master 9 5 0x9001) := by
  have hstill := note_still (s := { s with linkDown := false, badLanes := [] }) (die := s.master) (cause := 9) (scope := 5) (code := 0x9001) h
  refine ⟨_, congrArg Host.Outcome.next (if_pos hlink), hstill.works, hstill.link.1, hstill.link.2, fun hm => ?_⟩
  exact note_took (s := { s with linkDown := false, badLanes := [] }) h (by show s.master < s.dies.length; rw [hI.dies.1]; exact hm)
    (by decide) (by decide) (by decide)

/-- The outstanding accesses of Tier 2, with their groups. -/
def overLink (s : State) : List (Group × PendingOp) := s.groups.flatMap (fun g => (g.ops.filter (fun o => o.tier2)).map (fun o => (g, o)))

theorem mem_overLink {s : State} {g : Group} {o : PendingOp} (hg : g ∈ s.groups) (ho : o ∈ g.ops) (h2 : o.tier2 = true) : (g, o) ∈ overLink s :=
  List.mem_flatMap.2 ⟨g, hg, List.mem_map.2 ⟨o, List.mem_filter.2 ⟨ho, h2⟩, rfl⟩⟩

theorem overLink_nil {s : State} (h : ∀ g ∈ s.groups, ∀ o ∈ g.ops, o.tier2 = false) : overLink s = [] := by
  refine List.flatMap_eq_nil_iff.2 fun g hg => ?_
  rw [List.filter_eq_nil_iff.2 (fun o ho => by rw [h g hg o ho]; decide)]
  rfl

/-- 21 R404: the link goes down: what is outstanding over it is fatal to its readers. -/
theorem mbatilLinkDown_next {s : State} (hlink : s.linkDown = false) :
    ∃ u, exec .mbatilLinkDown s = .next u ∧ u.wgs = s.wgs ∧
      ((∀ g ∈ s.groups, ∀ o ∈ g.ops, o.tier2 = false) → u.linkDown = true ∧ u.halts = s.halts) ∧
      ∀ g ∈ s.groups, ∀ o ∈ g.ops, o.tier2 = true → g.splits ≠ [] → ∀ w, s.wg? g.wgKey = some w → ∃ h ∈ u.halts, w.key ∈ h.wgs := by
  let t : State := (overLink s).foldl (fun s x => s.failAccess x.1 x.2) { s with linkDown := true }
  obtain ⟨hwgs, -, hfly⟩ := flyFold (overLink s) { s with linkDown := true }
  obtain ⟨hewgs, hehalts, helink⟩ := failEngines_halts t
  refine ⟨t.failEngines, congrArg Host.Outcome.next (if_neg (by rw [hlink]; decide)), hewgs.trans hwgs, fun hnone => ?_, ?_⟩
  · have ht : t = { s with linkDown := true } := by
      show (overLink s).foldl _ _ = _
      rw [overLink_nil hnone]
      rfl
    rw [hehalts, helink, ht]
    exact ⟨rfl, rfl⟩
  · intro g hg o ho h2 hs w hw
    obtain ⟨W, hW, hkey⟩ := hfly (g, o) (mem_overLink hg ho h2) w hw hs
    obtain ⟨k, hk, rfl⟩ := List.mem_map.1 hW
    exact ⟨k, by rw [hehalts]; exact hk, hkey⟩

/-- 21 R404: a lane that is degraded is left out, and its record is written. -/
theorem laneDegraded_next {s : State} (h : s.part? 0xFFFF = none) (lane : Nat) :
    ∃ u, exec (.mbatilLaneDegraded lane) s = .next u ∧ (u.mem = s.mem ∧ u.tags = s.tags ∧ u.poison = s.poison ∧ u.cores = s.cores ∧
      u.parts = s.parts ∧ u.wgs = s.wgs ∧ u.groups = s.groups) ∧ lane ∈ u.badLanes ∧ ∃ r ∈ u.records, r.code = 0x9002 := by
  let v : State := { s.countRetrain lane with badLanes := setAdd lane s.badLanes }
  let r : ErrorRecord := { v.plainRecord 0xFFFF v.master 0x9002 (actionOf 0 6) with engine := 9 * 2 ^ 24 + lane }
  obtain ⟨hsame, hrec⟩ := record_works (s := v) (r := r) h
  refine ⟨v.record r, rfl, hsame, ?_, _, hrec, rfl⟩
  rw [(record_quiet (s := v) (r := r) h).1.link.2]
  exact (mem_setAdd lane lane s.badLanes).2 (.inl rfl)

/-! ### Errors of memory (25 R472, R473) -/

/-- 25 R473: what the scrubber cannot correct is poisoned. -/
theorem patrolScrub_next {s : State} (h : s.part? 0xFFFF = none) {die : Nat} (hd : die < 4) (bad : List Nat) :
    ∃ u, exec (.patrolScrub die bad) s = .next u ∧ u.mem = s.mem ∧ u.wgs = s.wgs ∧ ∀ key ∈ bad, key / 16 ∈ u.poison ∧ key / 16 ∉ u.tags := by
  obtain ⟨hmem, hwgs, hparts, -, -, hbad⟩ := scrub_fold die bad s h
  have hstill := correct_still (part?_of hparts h) die
  refine ⟨_, congrArg Host.Outcome.next (if_pos hd), hstill.mem.trans hmem, hstill.wgs.trans hwgs, fun key hkey => ?_⟩
  rw [hstill.poison, hstill.tags]
  exact hbad key hkey

/-- 25 R472: an uncorrectable error poisons its granule, and is fatal to a reader. -/
theorem uncorrectable_next (s : State) (key : Nat) (reader : Option Nat) :
    ∃ u, exec (.uncorrectableError key reader) s = .next u ∧ u.wgs = s.wgs ∧
      (reader.bind s.group? = none → key / 16 ∈ u.poison ∧ key / 16 ∉ u.tags ∧ u.mem = s.mem) ∧
      ∀ g w, reader.bind s.group? = some g → s.wg? g.wgKey = some w → g.splits ≠ [] → ∃ h ∈ u.halts, w.key ∈ h.wgs := by
  have hexec : ∃ u, exec (.uncorrectableError key reader) s = .next u ∧ u = match reader.bind s.group? with
      | none => s.poisonKey key
      | some g => match s.wg? g.wgKey, g.splits.head? with
        | some w, some sp => (s.poisonKey key).fatal w { (s.poisonKey key).groupRecord w g sp (errorAt key).1 0 sp.mask with
            engine := (errorAt key).2, pav := isGlobal key, paddr := if isGlobal key then key / 16 * 16 else 0 }
        | _, _ => s.poisonKey key := ⟨_, rfl, rfl⟩
  obtain ⟨u, hu, he⟩ := hexec
  obtain ⟨hpoison, htag⟩ := poisoned s [key / 16] (key / 16) (List.mem_singleton_self _)
  refine ⟨u, hu, ?_⟩
  cases hr : reader.bind s.group? with
  | none =>
    rw [hr] at he
    subst he
    exact ⟨rfl, fun _ => ⟨hpoison, htag, rfl⟩, fun g w hg => (nomatch hg)⟩
  | some g =>
    rw [hr] at he
    refine ⟨?_, fun hnone => (nomatch hnone), fun g' w hg hw hs => ?_⟩
    · rw [he]
      dsimp only
      split
      · next w sp hw _ => exact (fatal_halts (s.poisonKey key) w _ (wg?_mem hw).1).2.2
      · rfl
    · cases hg
      obtain ⟨sp, rest, hsp⟩ := List.exists_cons_of_ne_nil hs
      dsimp only at he
      rw [hw, hsp] at he
      rw [he]
      exact (fatal_halts (s.poisonKey key) w _ (wg?_mem hw).1).1

/-- Settles O60, event by event. -/
theorem resetAndErrorEvents : Obligations.ResetAndErrorEvents := by
  intro s hI h same took lost gone
  refine ⟨fun x hb => ⟨fun h0 h1 => reset_package hI h hb h0 h1, fun h0 h1 h2 => reset_die hI h hb h0 h1 h2,
      fun h0 hd hc h2 => reset_cluster hI h hb h0 hd hc h2 rfl, fun hbad => reset_bad hb hbad⟩, ?_,
    fun pass spares master h1 h2 h3 h4 => coldReset_facts s pass spares master h1 h2 h3 h4,
    fun die hd => ⟨fun m hm => ⟨watchdog_next hI h hd hm, firmwareFault_next hI h hd hm⟩, thermalTrip_lost hI h hd,
      directoryArray_lost hI h hd, dieThrottle_next hI h hd, patrolScrub_next h hd⟩,
    powerCap_next h, linkLossReset_next hI h, fun hl => congrArg Host.Outcome.next (if_pos hl), mbatilLinkDown_next,
    laneDegraded_next h, uncorrectable_next s⟩
  obtain ⟨u, hu, hgone, htook, hmem, -⟩ := packageReset hI
  exact ⟨u, hu, hgone, htook, hmem⟩

end Sys2Proof.Laws
end

section
/-!
The commands on a partition that exists (25 R468, R474, R478, R488; 11 R262, R267; 21 R402; 23 R430 to R432, R439, R441; 24 R446).
-/
namespace Sys2Proof.Laws
open Sys2Proof.Machine

theorem part?_modOther {s : State} {j k : Nat} (f : Partition → Partition) (hf : ∀ p, (f p).num = p.num) (h : j ≠ k) :
    (s.modPart k f).part? j = s.part? j := by
  unfold State.part? State.modPart
  refine find?_replaceBy_other (fun p : Partition => p.num == k) (fun p => p.num == j) f s.parts (fun p hp => ?_)
  simp only [beq_iff_eq] at hp
  simp [hf p, hp, Ne.symm h]

/-! ### Clusters left unmapped (05 R109) -/

/-- 05 R109: no logical cluster of the partition is left unmapped. -/
def clustersMapped (p : Partition) : Prop := ∀ i < 24, p.clmap.getD i 0xFF ≠ 0xFE

/-- Mapping a logical cluster leaves the numbers of partitions, and a partition that has all its clusters mapped. -/
theorem mapOne_part? {s : State} {n : Nat} (part : Nat) {i : Nat} (hi : i < 24) (h : ∀ p, s.part? n = some p → clustersMapped p) :
    (s.mapOne part i).part? n = s.part? n := by
  unfold State.mapOne
  split
  · rfl
  · next p hp =>
    split
    · next hc =>
      split
      · next t ht =>
        by_cases hn : n = part
        · subst hn
          simp only [Bool.and_eq_true, beq_iff_eq] at hc
          exact absurd hc.1 (h p hp i hi)
        · exact part?_modOther (fun p => p.remap (i / 6) (i % 6) (t % 7)) (fun _ => rfl) hn
      · rfl
    · rfl

theorem mapOne_mem (s : State) (part i : Nat) : (s.mapOne part i).mem = s.mem := by
  unfold State.mapOne
  split
  · rfl
  · split
    · split <;> rfl
    · rfl

theorem mapAll_keeps {n : Nat} (l : List (Nat × Nat)) (hl : ∀ x ∈ l, x.2 < 24) (s : State) (h : ∀ p, s.part? n = some p → clustersMapped p) :
    (l.foldl (fun s x => s.mapOne x.1 x.2) s).part? n = s.part? n ∧ (l.foldl (fun s x => s.mapOne x.1 x.2) s).mem = s.mem := by
  induction l generalizing s with
  | nil => exact ⟨rfl, rfl⟩
  | cons x l ih =>
    have hone := mapOne_part? x.1 (hl x List.mem_cons_self) h
    obtain ⟨ihp, ihm⟩ := ih (fun y hy => hl y (List.mem_cons_of_mem _ hy)) (s.mapOne x.1 x.2) (by rw [hone]; exact h)
    exact ⟨ihp.trans hone, ihm.trans (mapOne_mem s x.1 x.2)⟩

/-- 05 R109: where a partition is not, or has all its clusters mapped, mapping changes nothing of it. -/
theorem mapUnmapped_keeps {s : State} {n : Nat} (h : ∀ p, s.part? n = some p → clustersMapped p) :
    s.mapUnmapped.part? n = s.part? n ∧ s.mapUnmapped.mem = s.mem := by
  refine mapAll_keeps _ (fun x hx => ?_) s h
  obtain ⟨p, -, hxp⟩ := List.mem_flatMap.1 hx
  obtain ⟨i, hi, rfl⟩ := List.mem_map.1 hxp
  exact List.mem_range.1 hi

/-- Each place of a row of clusters, then blanks, holds a cluster or a blank. -/
theorem row_entry {row : List Nat} (hblank : (row.drop (row.takeWhile (· != 0xFF)).length).all (· == 0xFF) = true)
    (hused : (row.takeWhile (· != 0xFF)).all (· < 7) = true) (j : Nat) : row.getD j 0xFF < 7 ∨ row.getD j 0xFF = 0xFF := by
  rw [List.getD_eq_getElem?_getD]
  cases hj : row[j]? with
  | none => exact .inr rfl
  | some v =>
    have hmem : v ∈ row := List.mem_of_getElem? hj
    obtain ⟨rest, hrest⟩ := List.takeWhile_prefix (p := (· != 0xFF)) (l := row)
    have hdrop : row.drop (row.takeWhile (· != 0xFF)).length = rest := by
      have hleft := List.drop_left (l₁ := row.takeWhile (· != 0xFF)) (l₂ := rest)
      rwa [hrest] at hleft
    rw [← hrest] at hmem
    rcases List.mem_append.1 hmem with hin | hin
    · exact .inl (by simpa using List.all_eq_true.1 hused v hin)
    · rw [hdrop] at hblank
      exact .inr (by simpa using List.all_eq_true.1 hblank v hin)

/-- 25 R478: a map in range leaves no cluster unmapped. -/
theorem clmapOk_allMapped {s : State} {p : Partition} (h : s.clmapOk p = true) : clustersMapped p := by
  intro i hi
  have hrow := List.all_eq_true.1 h (i / 6) (List.mem_range.2 (by omega))
  simp only [Bool.and_eq_true] at hrow
  obtain ⟨⟨⟨hblank, -⟩, hused⟩, -⟩ := hrow
  have hused7 : (((p.clmap.drop (6 * (i / 6))).take 6).takeWhile (· != 0xFF)).all (· < 7) = true := by
    refine List.all_eq_true.2 fun c hc => ?_
    have := List.all_eq_true.1 hused c hc
    simp only [Bool.and_eq_true] at this
    exact this.1.1
  have hentry := row_entry hblank hused7 (i % 6)
  have hplace : ((p.clmap.drop (6 * (i / 6))).take 6).getD (i % 6) 0xFF = p.clmap.getD i 0xFF := by
    rw [List.getD_eq_getElem?_getD, List.getD_eq_getElem?_getD, List.getElem?_take_of_lt (Nat.mod_lt _ (by decide)), List.getElem?_drop,
      Nat.div_add_mod]
  omega

theorem descriptorValid_clmap {s : State} {p : Partition} {bs : List Byte} (h : s.descriptorValid p bs = true) : s.clmapOk p = true := by
  unfold State.descriptorValid at h
  rw [Bool.and_eq_true] at h
  exact h.2

/-! ### PRESET and PDESTROY (25 R474, R488) -/

theorem failLaunches_calm {G : Placed} (part : Nat) (l : List Launch) (s : State) (h : s.Calm G) :
    (l.foldl (fun s l => s.failLaunch part l.ticket) s).Calm G :=
  calm_foldl (fun s _ h => failLaunch_calm s part _ h) l h

/-- 25 R474: a partition once it has been reset. -/
def emptied (p : Partition) : Partition := { p with launches := [], carves := [], state := .running, replay := none, ckptBusy := false }

/-- 25 R474: a partition that is reset has no launch, no workgroup and no packet. -/
theorem resetPart_leaves (s : State) (p : Partition) :
    (∀ q, (s.resetPart p).part? p.num = some q → q.launches = [] ∧ q.carves = [] ∧ q.state = .running ∧ q.replay = none) ∧
      (∀ w ∈ (s.resetPart p).wgs, w.part ≠ p.num) ∧ ∀ q ∈ (s.resetPart p).sent, q.pkt.part ≠ p.num := by
  refine ⟨fun q hq => ?_, fun w hw => ?_, fun q hq => ?_⟩
  · have hpart : (s.resetPart p).part? p.num = (((p.launches.filter (fun l => l.state < 4)).foldl
        (fun s l => s.failLaunch p.num l.ticket) ((s.flushPart p.num).dropPart p.num)).part? p.num).map emptied :=
      part?_modSelf emptied (fun _ => rfl)
    obtain ⟨r, -, rfl⟩ := Option.map_eq_some_iff.1 (hpart.symm.trans hq)
    exact ⟨rfl, rfl, rfl, rfl⟩
  · have hcalm := failLaunches_calm p.num (p.launches.filter (fun l => l.state < 4)) ((s.flushPart p.num).dropPart p.num) rfl
    exact (dropPart_wgs (s.flushPart p.num) p.num w (calm_wgs hcalm ▸ hw)).2
  · simpa using (List.mem_filter.1 (show q ∈ List.filter _ _ from hq)).2

/-- 25 R488: after PDESTROY there is no partition of the number. -/
theorem pdestroy_next {s : State} {x : MgmtArgs} {p : Partition} (hb : blankFrom 1 x = true) (hp : s.part? x.a0.toNat = some p) :
    ∃ u : State, exec (.pdestroy x) s = .next (u.doneCmd []) ∧ u.part? p.num = none := by
  refine ⟨_, partCommand_ok hb hp rfl, ?_⟩
  have hnone : ∀ (l : List Partition), (l.filter (fun q => q.num != p.num)).find? (fun q => q.num == p.num) = none := by
    intro l
    refine List.find?_eq_none.2 fun q hq => ?_
    simpa using (List.mem_filter.1 hq).2
  refine (mapUnmapped_keeps fun q hq => ?_).1.trans (hnone _)
  exact nomatch (hnone _).symm.trans hq

/-! ### PRECFG, OBSCFG, CNTCLR (25 R478, R488; 23 R430; 25 R469) -/

/-- 25 R478: the partition as another descriptor configures it. -/
def reconfigured (p q : Partition) : Partition :=
  { p with prio := q.prio, clmap := q.clmap, extents := q.extents, state := if p.state == .running then .reconfiguring else p.state }

/-- 25 R478, R488: PRECFG puts the new map in place, and is done once no removed cluster holds a workgroup. -/
theorem precfg_next {s : State} {x : MgmtArgs} {p : Partition} {bs : List Byte} (hb : blankFrom 2 x = true) (hp : s.part? x.a0.toNat = some p)
    (hstate : p.state ≠ .reconfiguring) (hbs : s.readDescriptor x.a1.toNat = some bs) (hvalid : s.descriptorValid (partitionOf p.num bs) bs = true)
    (hpt : (partitionOf p.num bs).ptroot = p.ptroot) (hrb : (partitionOf p.num bs).rbroot = p.rbroot)
    (hnd : (partitionOf p.num bs).ndie = p.ndie) (hpd : (partitionOf p.num bs).pdie = p.pdie) :
    ∃ u : State, u.part? p.num = some (reconfigured p (partitionOf p.num bs)) ∧ u.mem = s.mem ∧
      (u.onRemoved (reconfigured p (partitionOf p.num bs)) = true → exec (.precfg x) s = .next u) ∧
      (u.onRemoved (reconfigured p (partitionOf p.num bs)) = false → exec (.precfg x) s = .next ((u.modPart p.num (fun p =>
        { p with state := if p.state == .reconfiguring then .running else p.state })).doneCmd [])) := by
  have hnum : p.num = x.a0.toNat := part?_num hp
  let v := s.modPart p.num (fun r => reconfigured r (partitionOf p.num bs))
  have hv : v.part? p.num = some (reconfigured p (partitionOf p.num bs)) := part?_set _ (fun _ => rfl) (by rw [hnum]; exact hp)
  obtain ⟨hkeep, hmem⟩ := mapUnmapped_keeps (s := v) (n := p.num) fun q hq => by
    rw [hv] at hq
    cases hq
    exact clmapOk_allMapped (p := partitionOf p.num bs) (descriptorValid_clmap hvalid)
  have hu := hkeep.trans hv
  have hexec : exec (.precfg x) s = .next (v.mapUnmapped.settleConfig p.num) := by
    refine partCommand_ok hb hp ?_
    have hidle : ¬(p.state == .reconfiguring) = true := by simpa using hstate
    rw [if_neg hidle, hbs, Option.bind_some]
    refine if_pos ?_
    rw [hvalid, hpt, hrb, hnd, hpd]
    simp only [beq_self_eq_true, Bool.and_self]
  unfold State.settleConfig at hexec
  rw [hu] at hexec
  refine ⟨v.mapUnmapped, hu, hmem, fun hr => ?_, fun hr => ?_⟩
  · rw [hexec]
    exact congrArg Host.Outcome.next (if_pos hr)
  · rw [hexec]
    exact congrArg Host.Outcome.next (if_neg (by rw [hr]; decide))

/-- 23 R430: OBSCFG sets the observation control. -/
theorem obscfg_next {s : State} {x : MgmtArgs} {p : Partition} {bs : List Byte} (hb : blankFrom 2 x = true) (hp : s.part? x.a0.toNat = some p)
    (hbs : s.readDescriptor x.a1.toNat = some bs) (hok : s.obsOk p bs = true) :
    ∃ (u : State) (q : Partition), exec (.obscfg x) s = .next (u.doneCmd []) ∧ u.part? p.num = some q ∧ q.obs = obsOf bs ∧ u.mem = s.mem := by
  let f : Partition → Partition := fun p =>
    if (obsOf bs).ckarea == p.obs.ckarea then { p with obs := obsOf bs } else { p with obs := obsOf bs, ckpts := [], ckptNext := 0 }
  have hnum : ∀ p, (f p).num = p.num := fun p => by
    unfold f
    split <;> rfl
  refine ⟨s.modPart p.num f, f p, partCommand_ok hb hp ?_, part?_set f hnum (by rw [part?_num hp]; exact hp), ?_, rfl⟩
  · rw [hbs, Option.bind_some, if_pos hok]
  · unfold f
    split <;> rfl

/-- Counters cleared on some dies leave memory and partitions. -/
theorem clearDies_leaves (c : Nat → Bool) (f : Die → Die) (l : List Nat) (s : State) :
    (l.foldl (fun s d => if c d then s.modDie d f else s) s).mem = s.mem ∧
      (l.foldl (fun s d => if c d then s.modDie d f else s) s).parts = s.parts := by
  induction l generalizing s with
  | nil => exact ⟨rfl, rfl⟩
  | cons d l ih =>
    obtain ⟨ihm, ihp⟩ := ih (if c d then s.modDie d f else s)
    refine ⟨ihm.trans ?_, ihp.trans ?_⟩ <;> split <;> rfl

/-- 25 R469: CNTCLR clears the counters of a partition. -/
theorem cntclr_next {s : State} {x : MgmtArgs} {p : Partition} (hb : blankFrom 2 x = true) (hp : s.part? x.a0.toNat = some p)
    (h0 : x.a0.toNat ≠ 0xFFFF) (h1 : x.a1.toNat < 16) :
    ∃ (u : State) (q : Partition), exec (.cntclr x) s = .next (u.doneCmd []) ∧ u.part? p.num = some q ∧ q.classes = List.replicate 16 0 ∧
      u.mem = s.mem := by
  let v := s.modPart p.num (fun p => { p with classes := List.replicate 16 0 })
  obtain ⟨hmem, hparts⟩ := clearDies_leaves (bitOf x.a1.toNat)
    (fun d => { d with coh := assocSet CohCounters.zero p.num CohCounters.zero d.coh }) (List.range 4) v
  refine ⟨_, { p with classes := List.replicate 16 0 }, (if_neg h0).trans (partCommand_ok hb hp (if_neg (Nat.not_le.2 h1))), ?_, rfl, hmem⟩
  have hv : v.part? p.num = some { p with classes := List.replicate 16 0 } := part?_set _ (fun _ => rfl) (by rw [part?_num hp]; exact hp)
  unfold State.part? at hv ⊢
  rw [hparts]
  exact hv

/-! ### STOP, RESUME, CKFREE (23 R431, R432, R439) -/

/-- 23 R431, R432: STOP and RESUME of a launch, or of all. -/
theorem stop_next {s : State} {x : MgmtArgs} {p : Partition} (hb : blankFrom 2 x = true) (hp : s.part? x.a0.toNat = some p)
    (ht : p.ticketOk x.a1.toNat = true) :
    (p.checkpointing = true → exec (.stop x) s = .next s) ∧
    (p.checkpointing = false → exec (.stop x) s = .next ((s.beginStop p.num (s.launchSet p.num x.a1.toNat)
      { s.plainRecord p.num (p.pdie.headD 0) 0x0003 0 with engine := 12 * 2 ^ 24 }).doneCmd [])) ∧
    exec (.resume x) s = .next ((s.restart (s.launchSet p.num x.a1.toNat) s.resumeSplit).doneCmd []) := by
  refine ⟨fun hc => ?_, fun hc => ?_, partCommand_ok hb hp (if_pos ht)⟩
  · exact partCommand_ok hb hp ((if_pos ht).trans (congrArg some (if_pos hc)))
  · exact partCommand_ok hb hp ((if_pos ht).trans (congrArg some (if_neg (by rw [hc]; decide))))

/-- 23 R439: the partition once checkpoint m of some has been joined to checkpoint n. -/
def joined (m n : Checkpoint) (ks : List Checkpoint) (p : Partition) : Partition :=
  { p with ckpts := (ks.filter (fun k => k.num != m.num)).map (fun k => if k.num == n.num then m.mergeInto n else k) }

/-- 23 R439: CKFREE joins a checkpoint to the next. -/
theorem ckfree_next {s : State} {x : MgmtArgs} {p : Partition} {m n : Checkpoint} (hb : blankFrom 2 x = true) (hp : s.part? x.a0.toNat = some p)
    (hm : ((s.copyWhere (fun n _ => n == p.num)).partOf p.num).ckpts.find? (fun k => k.num == x.a1.toNat) = some m)
    (hn : ((s.copyWhere (fun n _ => n == p.num)).partOf p.num).ckpts.find? (fun k => k.num == x.a1.toNat + 1) = some n) :
    ∃ (u : State) (q : Partition), exec (.ckfree x) s = .next (u.doneCmd []) ∧ u.part? p.num = some q ∧ u.mem = s.mem ∧
      (∀ k ∈ q.ckpts, k.num ≠ x.a1.toNat) ∧ m.mergeInto n ∈ q.ckpts := by
  have hmnum : m.num = x.a1.toNat := by simpa using List.find?_some hm
  have hnnum : n.num = x.a1.toNat + 1 := by simpa using List.find?_some hn
  obtain ⟨r, hr, -⟩ := copyWhere_part? (g := fun n _ => n == p.num) (s := s) (n := p.num) (by rw [part?_num hp]; exact hp)
  refine ⟨_, joined m n ((s.copyWhere (fun n _ => n == p.num)).partOf p.num).ckpts r, partCommand_ok hb hp ?_,
    part?_set (joined m n _) (fun _ => rfl) hr, rfl, fun k hk => ?_, ?_⟩
  · dsimp only
    rw [hm, hn]
    rfl
  · obtain ⟨k0, hk0, rfl⟩ := List.mem_map.1 hk
    have hne : k0.num ≠ m.num := by simpa using (List.mem_filter.1 hk0).2
    split
    · show n.num ≠ _
      omega
    · omega
  · refine List.mem_map.2 ⟨n, List.mem_filter.2 ⟨List.mem_of_find?_eq_some hn, ?_⟩, if_pos (beq_self_eq_true _)⟩
    simp only [bne_iff_ne]
    omega

/-! ### TLBI, ERRCFG, ACCFG (11 R262, R267; 25 R468) -/

/-- 11 R267: TLBI drops the translations in its range, and is done once no packet is out. -/
theorem tlbi_next {s : State} {x : MgmtArgs} {p : Partition} (hb : blankFrom 3 x = true) (hp : s.part? x.a0.toNat = some p)
    (hrange : x.a1.toNat / 4096 * 4096 + x.a2.toNat * 4096 ≤ 2 ^ 57) :
    ∃ u : State, (exec (.tlbi x) s = if u.packetsOut p.num then .next u else .next (u.doneCmd [])) ∧
      ∀ c ∈ u.cores, ∀ t ∈ c.2.tlb, t.part = p.num → x.a2.toNat * 4096 ≠ 0 ∧
        ¬(t.va < x.a1.toNat / 4096 * 4096 + x.a2.toNat * 4096 ∧ x.a1.toNat / 4096 * 4096 < t.va + t.size) := by
  let range := if x.a2.toNat * 4096 = 0 then none else some (x.a1.toNat / 4096 * 4096, x.a2.toNat * 4096)
  refine ⟨(s.releasePart p.num).tlbiAll p.num range, ?_, fun c hc t ht hpart => ?_⟩
  · refine (partCommand_ok hb hp (if_neg (Nat.not_lt.2 hrange))).trans ?_
    exact apply_ite Host.Outcome.next _ _ _
  · obtain ⟨lo, n, heq, hout⟩ := tlbiAll_tlb _ p.num range c hc t ht hpart
    unfold range at heq
    split at heq
    · exact nomatch heq
    · next hne =>
      cases heq
      exact ⟨hne, hout⟩

/-- 25 R468: ERRCFG gives the partition its ring of records. -/
theorem errcfg_next {s : State} {x : MgmtArgs} {p : Partition} (hb : blankFrom 3 x = true) (hp : s.part? x.a0.toNat = some p)
    (hring : s.ringOk p x.a1.toNat x.a2.toNat 64 128 = true) :
    ∃ (u : State) (q : Partition), exec (.errcfg x) s = .next (u.doneCmd []) ∧ u.part? p.num = some q ∧
      q.errRing = ⟨x.a1.toNat, x.a2.toNat⟩ ∧ u.mem = (s.ringClear p x.a1.toNat).mem := by
  obtain ⟨r, hr⟩ := part?_calm (ringClear_calm p x.a1.toNat (rfl : s.Calm s.placed)) (part := p.num) (by rw [part?_num hp]; exact hp)
  exact ⟨_, _, partCommand_ok hb hp (if_pos hring), part?_set _ (fun _ => rfl) hr, rfl, rfl⟩

/-- 11 R262: ACCFG gives the partition its ring of access counts and its threshold. -/
theorem accfg_next {s : State} {x : MgmtArgs} {p : Partition} (hb : blankFrom 4 x = true) (hp : s.part? x.a0.toNat = some p)
    (hring : s.ringOk p x.a1.toNat x.a2.toNat 16 80 = true) (h3 : x.a3.toNat < 65536) :
    ∃ (u : State) (q : Partition), exec (.accfg x) s = .next (u.doneCmd []) ∧ u.part? p.num = some q ∧
      q.accRing = ⟨x.a1.toNat, x.a2.toNat⟩ ∧ q.threshold = if x.a3.toNat = 0 then 256 else x.a3.toNat := by
  let v : State := { s with dies := s.dies.map (fun (d : Die) =>
    { d with access := d.access.filter (fun kv => kv.1 / 2 ^ 41 != p.num),
             accessKind := d.accessKind.filter (fun kv => kv.1 / 2 ^ 41 != p.num) }) }
  obtain ⟨r, hr⟩ := part?_calm (s := v) (ringClear_calm p x.a1.toNat rfl) (part := p.num) (by rw [part?_num hp]; exact hp)
  exact ⟨_, _, partCommand_ok hb hp (if_pos (by rw [hring, decide_eq_true h3]; rfl)), part?_set _ (fun _ => rfl) hr, rfl, rfl⟩

/-- 23 R432: STEP of a group of a workgroup. -/
theorem step_next {s : State} {x : MgmtArgs} {p : Partition} {w : Workgroup} {g : Group} (hb : blankFrom 4 x = true)
    (hp : s.part? x.a0.toNat = some p)
    (hw : s.wgs.find? (fun w => w.part == p.num && w.ticket == x.a1.toNat && w.wg == x.a2.toNat) = some w)
    (hg : (s.groupsOf w.key).find? (fun g => g.groupId == x.a3.toNat) = some g) :
    exec (.step x) s = .next ((s.restart [g.gid] s.stepSplit).doneCmd []) := by
  refine partCommand_ok hb hp ?_
  rw [hw]
  dsimp only
  rw [hg]

/-- Settles O58, command by command. -/
theorem partitionCommands : Obligations.PartitionCommands := by
  intro s x p hp
  refine ⟨fun hb => ?_, fun hb => ⟨?_, ?_, ?_, ?_, ?_⟩, fun hb => ⟨?_, ?_, ?_, ?_, ?_⟩, fun hb => ⟨?_, ?_⟩⟩
  · obtain ⟨hlaunches, hwgs, hsent⟩ := resetPart_leaves s p
    exact ⟨partCommand_ok hb hp rfl, hlaunches, hwgs, hsent, pdestroy_next hb hp⟩
  · intro bs hstate hbs q hvalid hpt hrb hnd hpd p'
    exact precfg_next hb hp hstate hbs hvalid hpt hrb hnd hpd
  · exact fun bs hbs hok => obscfg_next hb hp hbs hok
  · exact fun h0 h1 => cntclr_next hb hp h0 h1
  · exact fun ht => stop_next hb hp ht
  · exact fun m n hm hn => ckfree_next hb hp hm hn
  · exact fun hrange => tlbi_next hb hp hrange
  · exact fun h1 h2 h3 h4 => irqcfg_done hp hb h1 h2 h3 h4
  · exact fun hring => errcfg_next hb hp hring
  · exact fun h1 h2 h3 h4 => dumpcfg_done hp hb h1 h2 h3 h4
  · exact fun k h1 hk hlog => replay_done hp hb h1 hk hlog
  · exact fun hring h3 => accfg_next hb hp hring h3
  · exact fun w g hw hg => step_next hb hp hw hg

end Sys2Proof.Laws
end

section
/-!
Coherence as the machine makes it happen (20 R366 to R381; 15 R334; 25 R471; 07 R162).
-/
namespace Sys2Proof.Laws
open Sys2Proof.Machine

/-! ### Registration and eviction (20 R367) -/

/-- Words put into an L1 as registered stand there so, where each is the only one of its key. -/
theorem word?_putRegistered {ws : List L1Word} {key : Nat → Option L1Word} (hkey : ∀ x ∈ ws, key x.key = some x) {x : L1Word} :
    ∀ c : Core, x ∈ ws ∨ (key x.key = some x ∧ c.word? x.key = some { x with st := .registered }) →
      (ws.foldl (fun c y => c.putWord { y with st := .registered }) c).word? x.key = some { x with st := .registered } := by
  induction ws with
  | nil =>
    intro c h
    exact h.elim (fun h => nomatch h) (·.2)
  | cons y ys ih =>
    intro c h
    refine ih (fun z hz => hkey z (List.mem_cons_of_mem _ hz)) _ ?_
    have hx : key x.key = some x := h.elim (hkey x) (·.1)
    have hput := Core.word?_putWord c { y with st := .registered } x.key
    by_cases he : x.key = y.key
    · have hxy : x = y := Option.some.inj (hx.symm.trans ((congrArg key he).trans (hkey y (List.mem_cons_self ..))))
      subst hxy
      exact .inr ⟨hx, hput.trans (if_pos rfl)⟩
    · rcases h with h | ⟨-, h⟩
      · exact .inl ((List.mem_cons.1 h).resolve_left fun e => he (congrArg L1Word.key e))
      · exact .inr ⟨hx, hput.trans ((if_neg he).trans h)⟩

/-- 20 R367: what is not written in an L1 is not registered. -/
theorem registerWord_notDirty {s : State} {core key : Nat} (h : ∀ w, (s.core core).word? key = some w → w.st ≠ .dirty) :
    s.registerWord core key false = s := by
  unfold State.registerWord
  split
  · rfl
  · next w hw => rw [if_neg (h w hw), if_neg Bool.false_ne_true]

/-- 20 R367: a D word is registered with its unit. -/
theorem sliceRegistration_next {s : State} {core key : Nat} {w : L1Word} (hw : (s.core core).word? key = some w) (hd : w.st = .dirty) :
    ∃ t, exec (.sliceRegistration core key) s = .next t ∧
      (∀ x ∈ (s.core core).unitOf w, (t.core core).word? x.key = some { x with st := .registered }) ∧
      (∀ k, t.byte k = writeIn s.byte (regBytes s ((s.core core).unitOf w)) k) ∧
      ∀ c x, c ≠ core → (t.core c).word? key = some x → x.st ≠ .registered := by
  obtain ⟨v, hbyte, -, hother, ht⟩ := register_dirty hw hd false
  have hkey : w.key = key := by simpa using List.find?_some (p := fun (v : L1Word) => v.key == key) hw
  have hcore := fun c => State.core_modCore v core c
    (fun c => ((s.core core).unitOf w).foldl (fun c x => c.putWord { x with st := .registered }) c)
  refine ⟨_, congrArg Host.Outcome.next ht, fun x hx => ?_, hbyte, fun c x hc hx => ?_⟩
  · refine (congrArg (fun c : Core => c.word? x.key) ((hcore core).trans (if_pos rfl))).trans ?_
    exact word?_putRegistered (fun y hy => (unit_mem hy).2.1) _ (.inl hx)
  · have hx' : (v.core c).word? w.key = some x := by
      rw [hkey, ← hx]
      exact congrArg (fun c : Core => c.word? key) ((hcore c).trans (if_neg hc)).symm
    exact hother c x hc w (unit_self hw hd) hx'

/-- 20 R367: the words of a line leave an L1. -/
theorem l1Eviction_next (s : State) (core line : Nat) :
    ((∀ w ∈ (s.core core).l1, w.key / 32 ≠ line) → exec (.l1Eviction core line) s = .next s) ∧
    ∃ t, exec (.l1Eviction core line) s = .next t ∧ (∀ w ∈ (t.core core).l1, w.key / 32 ≠ line) ∧
      ∀ k, k / 128 ≠ line → t.byte k = s.byte k := by
  have hexec : exec (.l1Eviction core line) s = .next (s.evictLine core line) := rfl
  rw [hexec]
  unfold State.evictLine
  dsimp only
  generalize hks : ((s.core core).l1.filter (fun w => w.key / 32 == line)).map (·.key) = ks
  have hmem : ∀ k, k ∈ ks ↔ ∃ w ∈ (s.core core).l1, w.key = k ∧ k / 32 = line := by
    intro k
    simp only [← hks, List.mem_map, List.mem_filter, beq_iff_eq]
    exact ⟨fun ⟨w, ⟨h1, h2⟩, h3⟩ => ⟨w, h1, h3, h3 ▸ h2⟩, fun ⟨w, h1, h3, h2⟩ => ⟨w, ⟨h1, h3 ▸ h2⟩, h3⟩⟩
  by_cases hnil : ks = []
  · have hnone : ∀ w ∈ (s.core core).l1, w.key / 32 ≠ line := fun w hw he => by
      have := (hmem w.key).2 ⟨w, hw, rfl, he⟩
      rw [hnil] at this
      exact nomatch this
    rw [if_pos (by rw [hnil]; rfl)]
    exact ⟨fun _ => rfl, s, rfl, hnone, fun _ _ => rfl⟩
  · rw [if_neg (by simpa using hnil)]
    obtain ⟨hleft, hbyte⟩ := evict_line core line ks (fun k hk => ((hmem k).1 hk).choose_spec.2.2) s
    have hdrop := rc_dropLine (ks.foldl (fun s k => s.registerWord core k true) s) core (uniq (ks.map (· / 32)))
    refine ⟨fun h => absurd (List.eq_nil_iff_forall_not_mem.2 fun k hk => ?_) hnil, _, rfl, fun w hw he => ?_, fun k hk => ?_⟩
    · obtain ⟨w, hw, rfl, he⟩ := (hmem k).1 hk
      exact h w hw he
    · obtain ⟨v, hv, hvk, -⟩ := hdrop.l1 core w hw
      obtain ⟨hnot, z, hz, hzk⟩ := hleft v hv
      exact hnot ((hmem v.key).2 ⟨z, hz, hzk, hvk ▸ he⟩)
    · exact (State.byte_of hdrop.mem k).trans (hbyte k hk)

/-! ### Forwarded reads (20 R366, R369) -/

/-- 20 R366: a word that an L1 has not is brought in with its line. -/
theorem word?_fillLine_absent {c : Core} {line : Nat} {fresh : Nat → Option L1Word} (hf : ∀ k w, fresh k = some w → w.key = k) {k : Nat}
    (hk : k / 32 = line) (h : c.word? k = none) {w : L1Word} (hw : fresh k = some w) : (c.fillLine line fresh).word? k = some w := by
  have hmem : w ∈ (c.fillLine line fresh).l1 := by
    have hk' : line * 32 + k % 32 = k := by omega
    refine List.mem_append_left _ (List.mem_append_right _ (List.mem_filterMap.2 ⟨k % 32, List.mem_range.2 (by omega), ?_⟩))
    dsimp only
    rw [hk', show c.l1.find? (fun w => w.key == k) = none from h]
    exact hw
  rcases Core.word?_fillLine c line fresh hf k with he | ⟨-, he⟩
  · have := List.find?_eq_none.1 (he.trans h) w hmem
    simp [hf k w hw] at this
  · exact he.trans hw

/-- 20 R369: the read of a word that another core of the die holds registered brings the slices' word. -/
theorem forwardedRead_next {s : State} {core key : Nat} (hnone : (s.core core).word? key = none) (hroom : (s.core core).roomy [key / 32])
    (hclean : s.poisonAt (4 * key) = false) (hreg : (s.registrants key (some core)).any (fun c => coreDie c == coreDie core) = true) :
    ∃ t w, exec (.forwardedRead core key) s = .next t ∧ t.mem = s.mem ∧ (t.core core).word? key = some w ∧
      w.st = .valid ∧ w.data = s.sliceWord key ∧ w.have_ = 15 ∧ ∀ c pa, t.seeByte c pa = s.seeByte c pa ∨ t.seeByte c pa = s.byte pa := by
  obtain ⟨hfits, hlines⟩ := Core.roomy_fits hroom
  have hl1 := l1Room_fits hfits (hlines (key / 32) (List.mem_singleton.2 rfl))
  generalize hpart : s.partAt (4 * key) = part
  have hexec : exec (.forwardedRead core key) s = .next (s.fillFrom core part false (key / 32)) := by
    refine congrArg Host.Outcome.next ((if_pos ?_).trans ?_)
    · rw [hreg, hnone]; rfl
    · unfold State.fillWord
      rw [hnone, hpart]
      exact congrArg (fun s : State => s.fillFrom core part false (key / 32)) hl1
  have hseen := fillFrom_refreshed s core part false (key / 32)
  refine ⟨_, s.freshWord part false key, hexec, hseen.mem, ?_, rfl, rfl, rfl, hseen.sees⟩
  unfold State.fillFrom
  dsimp only
  generalize hks : List.filter _ (List.map _ _) = ks
  have hview := (share_sameView s (coreDie core) (key / 32)).trans (noteForwards_sameView _ core part ks)
  have hkeys := keepsKeys_trans (share_keepsKeys s (coreDie core) (key / 32))
    (keepsKeys_foldl (fun s k => noteForward_keepsKeys s core part k) ks _)
  generalize List.foldl (fun (s : State) k => s.noteForward core part k) _ ks = u at hview hkeys ⊢
  rw [core_modCore_self]
  have habsent : (u.core core).word? key = none := by
    refine List.find?_eq_none.2 fun w hw he => ?_
    obtain ⟨x, hx, hxw⟩ := hkeys.old core w hw
    exact List.find?_eq_none.1 hnone x hx (by rw [hxw]; exact he)
  refine word?_fillLine_absent (fun k w e => ?_) rfl habsent ?_
  · split at e
    · cases e
    · cases e; rfl
  · have hpoison : u.poisonAt (4 * key) = false := by
      unfold State.poisonAt at hclean ⊢
      rw [hview.poison]; exact hclean
    rw [if_neg (by rw [hpoison]; exact Bool.false_ne_true)]
    unfold State.freshWord State.tagAt
    rw [State.sliceWord_of hview.mem, hview.tags]

/-! ### The home directory (20 R373 to R378, R381) -/

/-- The home die of an address is a die of the package. -/
theorem die_lt {s : State} (hI : s.Inv) {die : Nat} (h : die < 4) : die < s.dies.length := by rw [hI.dies.1]; exact h

/-- 20 R373 to R375: the home directory serves a request. -/
theorem directoryRequest_next (s : State) {holder line : Nat} (own : Bool) (hh : holder ≤ 4) (hm : memoryRange (128 * line) 128 = true) :
    exec (.directoryRequest holder own line) s = .next (s.dirRequest holder own line) ∧ (s.dirRequest holder own line).mem = s.mem ∧
      (own = false → ∀ c pa, (s.dirRequest holder own line).seeByte c pa = s.seeByte c pa) := by
  refine ⟨congrArg Host.Outcome.next (if_pos (by simp [hh, hm])), (rc_dir s holder own line).mem, ?_⟩
  rintro rfl
  exact (dirRequest_sameView s holder line).sees

/-- 20 R376: two siblings merge once both are quiet. -/
theorem nodeMerge_next {s : State} (hI : s.Inv) {die base : Nat} (hdie : die < 4) {a b : Node}
    (ha : (s.die die).nodes.find? (fun n => n.base == base) = some a) (hsize : a.size < 9)
    (hb : (s.die die).nodes.find? (fun n =>
      n.base == (if base = base / 2 ^ (a.size + 1) * 2 ^ (a.size + 1) then base + 2 ^ a.size else base / 2 ^ (a.size + 1) * 2 ^ (a.size + 1)) &&
        n.size == a.size) = some b) :
    ((s.die die).isQuiet a = false ∨ (s.die die).isQuiet b = false → exec (.nodeMerge die base) s = .next s) ∧
    ∀ st hold, (s.die die).isQuiet a = true → (s.die die).isQuiet b = true → mergedState s.free a b = some (st, hold) →
      ∃ t n, exec (.nodeMerge die base) s = .next t ∧ n ∈ (t.die die).nodes ∧ n.base = base / 2 ^ (a.size + 1) * 2 ^ (a.size + 1) ∧
        n.size = a.size + 1 ∧ n.st = st ∧ n.hold = hold ∧ t.mem = s.mem ∧ t.cores = s.cores := by
  have hexec : exec (.nodeMerge die base) s = execNodeMerge die base s := rfl
  have hcase : ∀ q : Bool, (decide (a.size ≥ 9) || !(s.die die).isQuiet a || !(s.die die).isQuiet b) = q ↔
      (!(s.die die).isQuiet a || !(s.die die).isQuiet b) = q := by
    intro q; rw [decide_eq_false (by omega), Bool.false_or]
  constructor
  · intro hq
    rw [hexec]
    unfold execNodeMerge
    dsimp only
    rw [ha]
    dsimp only
    rw [hb]
    exact congrArg Host.Outcome.next (if_pos ((hcase true).2 (by rcases hq with h | h <;> simp [h])))
  · intro st hold hqa hqb hst
    generalize hlo : base / 2 ^ (a.size + 1) * 2 ^ (a.size + 1) = lo at hb
    let n : Node := { base := lo, size := a.size + 1, st := st, hold := hold,
                      changed := if a.st == b.st then max a.changed b.changed else (s.die die).cycle }
    refine ⟨(s.modDie die (fun d => d.putNode n)).count die (s.partAt (128 * lo)) (fun c => { c with merges := sat48 (c.merges + 1) }), n,
      ?_, ?_, rfl, rfl, rfl, rfl, rfl, rfl⟩
    · rw [hexec]
      unfold execNodeMerge
      dsimp only
      rw [ha]
      dsimp only
      rw [hlo, hb]
      dsimp only
      rw [if_neg (by rw [(hcase false).2 (by simp [hqa, hqb])]; exact Bool.false_ne_true), hst]
    · rw [count_nodes, die_modDie, if_pos ⟨rfl, die_lt hI hdie⟩]
      exact mem_insertBy_self _ _ _

/-- 20 R378: a node that is evicted leaves the directory. -/
theorem directoryEviction_next {s : State} (hI : s.Inv) {die : Nat} (hdie : die < 4) (base : Nat) :
    ∃ t, exec (.directoryEviction die base) s = .next t ∧ t.mem = s.mem ∧ ∀ n ∈ (t.die die).nodes, n.base ≠ base := by
  have hexec : exec (.directoryEviction die base) s = execDirectoryEviction die base s := rfl
  rw [hexec]
  unfold execDirectoryEviction
  split
  · next hnone => exact ⟨s, rfl, rfl, fun n hn he => by simpa [he] using List.find?_eq_none.1 hnone n hn⟩
  · next n _ =>
    dsimp only
    generalize hu : (if (n.st == NodeState.o) = true then _ else s) = u
    have hkeep : u.mem = s.mem ∧ u.dies.length = s.dies.length := by
      rw [← hu]
      split
      · exact ⟨(rc_trans (rc_fold (fun s h => rc_recallNode s die h n false) _ s) (rc_recallLines ..).1).mem,
          (congrArg List.length (recallLines_dies ..)).trans (recalls_dies die n false _ s).2⟩
      · exact ⟨rfl, rfl⟩
    refine ⟨_, rfl, hkeep.1, fun x hx => ?_⟩
    rw [count_nodes, die_modDie, if_pos ⟨rfl, by rw [hkeep.2]; exact die_lt hI hdie⟩] at hx
    simpa using (List.mem_filter.1 hx).2

/-- 20 R381: a recall of a node from the die that owns it leaves no word of it registered there. -/
theorem recall_next {s : State} {die base : Nat} {n : Node} (sharing : Bool) (hdie : die < 4)
    (hn : (s.die (homeDie (128 * base))).nodes.find? (fun n => n.base == base) = some n) (ho : n.st = .o) (hold : n.hold.getLsbD die = true) :
    ∃ t, exec (.recall die base sharing) s = .next t ∧ t.mem = s.mem ∧
      ∀ c w, coreDie c = die → w ∈ (t.core c).l1 → n.base ≤ w.key / 32 → w.key / 32 < n.base + 2 ^ n.size → w.st ≠ .registered := by
  have hexec : exec (.recall die base sharing) s = .next (s.recallNode (homeDie (128 * base)) die n sharing) := by
    have : exec (.recall die base sharing) s = execRecall die base sharing s := rfl
    rw [this]
    unfold execRecall
    dsimp only
    rw [hn]
    exact congrArg Host.Outcome.next (if_pos (by simp [ho, hold, hdie]))
  refine ⟨_, hexec, (rc_recallNode ..).mem, fun c w hc hw h1 h2 => ?_⟩
  unfold State.recallNode at hw
  dsimp only at hw
  rw [if_pos hdie] at hw
  exact (rc_recallLines s die n.base (2 ^ n.size) sharing (die == homeDie (128 * base))).2 hdie c w hc hw h1 h2

/-! ### Halts under a record (25 R468, R471) -/

/-- A fold of operations that leave the halts leaves the halts. -/
theorem halts_foldl {α : Type} {f : State → α → State} (hf : ∀ s a, (f s a).halts = s.halts) (l : List α) (s : State) :
    (l.foldl f s).halts = s.halts := by
  induction l generalizing s with
  | nil => rfl
  | cons a l ih => exact (ih _).trans (hf s a)

theorem dropLineResv_halts (s : State) (core : Nat) (lines : List Nat) : (s.dropLineResv core lines).halts = s.halts := by
  unfold State.dropLineResv; split <;> rfl

theorem recallLines_halts (s : State) (holder lo n : Nat) (sharing home : Bool) : (s.recallLines holder lo n sharing home).halts = s.halts := by
  unfold State.recallLines
  split
  · rfl
  · dsimp only
    split
    · rfl
    · refine (halts_foldl (fun s kc => ?_) _ _).trans rfl
      split
      · exact dropLineResv_halts ..
      · rfl

theorem recallNode_halts (s : State) (homeD holder : Nat) (n : Node) (sharing : Bool) : (s.recallNode homeD holder n sharing).halts = s.halts := by
  unfold State.recallNode
  dsimp only
  split <;> exact recallLines_halts ..

theorem dirRequest_halts (s : State) (h : Nat) (own : Bool) (line : Nat) : (s.dirRequest h own line).halts = s.halts := by
  have hrecalls := fun (s : State) home n b l => halts_foldl (fun s g => recallNode_halts s home g n b) l s
  unfold State.dirRequest
  dsimp only
  generalize ((s.die (homeDie (line * 128))).node? line).getD ((s.die (homeDie (line * 128))).freshNode line) = n0
  generalize hsn : (if (n0.st != NodeState.u && n0.hold != holderBit h && (s.die (homeDie (line * 128))).splitEn &&
    decide (n0.size > 0)) = true then s.splitNode (homeDie (line * 128)) n0 line else (s, n0)) = sn
  have hs : sn.1.halts = s.halts := by rw [← hsn]; split <;> rfl
  have hput : ∀ (u : State) (p : Prop) [Decidable p] (f g : Die → Die),
      (if p then u.modDie (homeDie (line * 128)) f else u.modDie (homeDie (line * 128)) g).halts = u.halts := by
    intro u p _ f g; split <;> rfl
  refine Eq.trans ?_ hs
  split
  · exact hput ..
  · exact hput ..
  · exact hput ..
  · exact hput ..
  · split
    · rfl
    · exact (hput ..).trans (hrecalls ..)
  · split
    · rfl
    · exact (hput ..).trans (hrecalls ..)

theorem own_halts (s : State) (die line : Nat) : (s.own die line).halts = s.halts := by
  unfold State.own
  split
  · rfl
  · exact dirRequest_halts ..

theorem collect_halts (s : State) (k : Nat) (but : Option Nat) : (s.collect k but).halts = s.halts :=
  halts_foldl (fun s c => State.modCore_halts s c fun x => x.dropWord k) _ s

theorem outerWrite_halts (s : State) (ws : List (Nat × Byte)) : (s.outerWrite ws).halts = s.halts := by
  unfold State.outerWrite
  dsimp only
  have hstore : ∀ t : State, (t.store ws none).halts = t.halts := fun t => by unfold State.store; split <;> rfl
  rw [hstore, halts_foldl fun s k => ?_]
  · rfl
  · exact (collect_halts ..).trans (own_halts ..)

theorem vaStore_halts (s : State) (p : Partition) (va : Nat) (bs : List Byte) : (s.vaStore p va bs).halts = s.halts := by
  unfold State.vaStore
  split
  · exact outerWrite_halts ..
  · rfl

theorem ringPut_halts (s : State) (p : Partition) (r : Ring) (bs : List Byte) : (s.ringPut p r bs).halts = s.halts := by
  unfold State.ringPut
  dsimp only
  split
  · rfl
  · split
    · exact vaStore_halts ..
    · exact (vaStore_halts ..).trans (vaStore_halts ..)

theorem irqPut_halts (s : State) (p : Partition) (kind value ticket : Nat) : (s.irqPut p kind value ticket).halts = s.halts := by
  unfold State.irqPut State.outerNum State.outerBytes
  dsimp only
  rw [outerWrite_halts, outerWrite_halts]

theorem signalRecords_halts (s : State) (part : Nat) : (s.signalRecords part).halts = s.halts := by
  unfold State.signalRecords
  split
  · rfl
  · dsimp only
    split
    · rfl
    · split
      · unfold State.outerNum State.outerBytes
        exact outerWrite_halts ..
      · split
        · rfl
        · exact (State.modPart_halts ..).trans (irqPut_halts ..)

theorem countRecord_halts (s : State) (part : Nat) : (s.countRecord part).halts = s.halts := by
  unfold State.countRecord
  split
  · rfl
  · split
    · rfl
    · exact signalRecords_halts ..

/-- What a halt is of: its partition, its domain and its cause. -/
def haltSite (h : Halt) : Nat × Nat × ErrorRecord := (h.part, h.fdom, h.cause)

/-- 25 R468: a record leaves what each halt is of. -/
theorem record_haltSites (s : State) (r : ErrorRecord) : (s.record r).halts.map haltSite = s.halts.map haltSite := by
  have hcover : ∀ f : Halt → Halt, (∀ h, haltSite (f h) = haltSite h) → (s.halts.map f).map haltSite = s.halts.map haltSite := by
    intro f hf
    rw [List.map_map]
    exact List.map_congr_left fun h _ => hf h
  unfold State.record
  dsimp only
  have hsnap : ∀ (b : Prop) [Decidable b] (t : State), t.halts.map haltSite = s.halts.map haltSite →
      (if b then t.snapTrigger else t).halts.map haltSite = s.halts.map haltSite := by
    intro b _ t ht
    split
    · unfold State.snapTrigger; split <;> exact ht
    · exact ht
  have hbase := hcover (fun (h : Halt) =>
      if h.stage == HaltStage.halted && h.covers r s.wgs && h.records.length < 256 then { h with records := h.records ++ [r] } else h)
    fun h => by split <;> rfl
  have hsnapped := fun t => hsnap (s.snap.classes.getLsbD (r.code / 0x1000) = true) t
  split
  · exact hsnapped _ hbase
  · refine Eq.trans (congrArg (List.map haltSite) ((countRecord_halts ..).trans (ringPut_halts ..))) ?_
    rw [State.modPart_halts]
    exact hsnapped _ hbase

/-- A change of halts that leaves what each is of. -/
theorem haltSites_replaceBy (p : Halt → Bool) {f : Halt → Halt} (hf : ∀ h, haltSite (f h) = haltSite h) (l : List Halt) :
    (replaceBy p f l).map haltSite = l.map haltSite := map_replaceBy_same p f haltSite hf l

/-- 25 R471: a fault fatal to a partition: the halts are of what they were, but for one of the partition, new or there before. -/
theorem fatalPartition_sites (s : State) (part die : Nat) (r : ErrorRecord) :
    (s.fatalPartition part die r).wgs = s.wgs ∧
    ((s.fatalPartition part die r).halts.map haltSite = s.halts.map haltSite ∨
      (s.fatalPartition part die r).halts.map haltSite = s.halts.map haltSite ++ [(part, 3, r)]) := by
  unfold State.fatalPartition
  dsimp only
  have hw : (s.record r).wgs = s.wgs := calm_wgs (State.record_calm s r rfl)
  split
  · exact ⟨hw, .inl ((haltSites_replaceBy _ (f := fun h =>
      { h with nsecond := h.nsecond + 1, second := if h.second.isNone then some r else h.second }) (fun _ => rfl) _).trans
        (record_haltSites s r))⟩
  · refine ⟨hw, .inr ?_⟩
    show ((s.record r).halts ++ [_]).map haltSite = _
    rw [List.map_append, record_haltSites]
    rfl

/-- The halts of a state are those of another, or of a node whose recall did not end in time. -/
structure Unrecalled (lo die : Nat) (s t : State) : Prop where
  wgs : t.wgs = s.wgs
  kept : ∀ x ∈ s.halts.map haltSite, x ∈ t.halts.map haltSite
  sites : ∀ x ∈ t.halts.map haltSite, x ∈ s.halts.map haltSite ∨ (x.2.2.code = 0x7001 ∧ x.2.2.addr = lo ∧ x.2.2.paddr = die)

theorem unrecalled_refl (lo die : Nat) (s : State) : Unrecalled lo die s s := ⟨rfl, fun _ h => h, fun _ h => .inl h⟩

theorem unrecalled_trans {lo die : Nat} {s t u : State} (h : Unrecalled lo die s t) (h' : Unrecalled lo die t u) : Unrecalled lo die s u :=
  ⟨h'.wgs.trans h.wgs, fun x hx => h'.kept x (h.kept x hx), fun x hx => (h'.sites x hx).elim (h.sites x) .inr⟩

theorem fatalPartition_unrecalled (s : State) (part home : Nat) {lo die : Nat} {r : ErrorRecord}
    (hr : r.code = 0x7001 ∧ r.addr = lo ∧ r.paddr = die) : Unrecalled lo die s (s.fatalPartition part home r) := by
  obtain ⟨hw, hsites | hsites⟩ := fatalPartition_sites s part home r
  · exact ⟨hw, fun x hx => hsites ▸ hx, fun x hx => .inl (hsites ▸ hx)⟩
  · refine ⟨hw, fun x hx => hsites ▸ List.mem_append_left _ hx, fun x hx => ?_⟩
    rw [hsites] at hx
    rcases List.mem_append.1 hx with hx | hx
    · exact .inl hx
    · exact .inr (List.mem_singleton.1 hx ▸ hr)

/-- The record of a recall that did not end in time (25 R471). -/
def recallRecord (s : State) (home lo die part : Nat) : ErrorRecord :=
  { s.plainRecord part home 0x7001 (actionOf 4 2) with engine := 7 * 2 ^ 24, addr := lo, paddr := die }

/-- 25 R471: each of some partitions is halted. -/
theorem fatalPartitions_unrecalled (home lo die : Nat) (l : List Partition) (s : State) :
    let t := l.foldl (fun s p => s.fatalPartition p.num home (recallRecord s home lo die p.num)) s
    Unrecalled lo die s t ∧ ∀ p ∈ l, ∃ x ∈ t.halts.map haltSite, x.1 = p.num ∧ x.2.1 = 3 := by
  induction l generalizing s with
  | nil => exact ⟨unrecalled_refl lo die s, fun _ h => nomatch h⟩
  | cons p l ih =>
    obtain ⟨hlater, hall⟩ := ih (s.fatalPartition p.num home (recallRecord s home lo die p.num))
    refine ⟨unrecalled_trans (fatalPartition_unrecalled s p.num home ⟨rfl, rfl, rfl⟩) hlater, fun q hq => ?_⟩
    rcases List.mem_cons.1 hq with rfl | hq
    · obtain ⟨h, hh, hpart, hdom⟩ := fatalPartition_halts s q.num home (recallRecord s home lo die q.num)
      exact ⟨_, hlater.kept _ (List.mem_map_of_mem hh), hpart, hdom⟩
    · exact hall q hq

/-- 25 R471: memory of a partition meets a node. -/
def meetsNode (n : Node) (p : Partition) : Bool :=
  p.extents.any (fun e => !e.device && e.base < 128 * n.base + 128 * 2 ^ n.size && 128 * n.base < e.base + e.size)

theorem meetsNode_iff {n : Node} {p : Partition} : meetsNode n p = true ↔
    ∃ e ∈ p.extents, e.device = false ∧ 128 * n.base < e.base + e.size ∧ e.base < 128 * (n.base + 2 ^ n.size) := by
  unfold meetsNode
  rw [List.any_eq_true]
  refine exists_congr fun e => and_congr_right fun _ => ?_
  simp only [Bool.and_eq_true, Bool.not_eq_true', decide_eq_true_eq, Nat.mul_add]
  exact ⟨fun ⟨⟨h1, h2⟩, h3⟩ => ⟨h1, h3, h2⟩, fun ⟨h1, h3, h2⟩ => ⟨⟨h1, h2⟩, h3⟩⟩

/-- 25 R471, 20 R382: a recall that does not end in time. -/
theorem recallBoundExceeded_next (s : State) (die base : Nat) :
    ((s.die (homeDie (128 * base))).nodes.find? (fun n => n.base == base) = none → exec (.recallBoundExceeded die base) s = .next s) ∧
    ∀ n, (s.die (homeDie (128 * base))).nodes.find? (fun n => n.base == base) = some n →
      ((∀ p ∈ s.parts, ¬ meetsNode n p = true) → exec (.recallBoundExceeded die base) s = .next s) ∧
      ∃ t, exec (.recallBoundExceeded die base) s = .next t ∧ t.wgs = s.wgs ∧
        ∀ p ∈ s.parts, meetsNode n p = true → ∃ h ∈ t.halts, h.part = p.num ∧ h.fdom = 3 ∧
          ((∃ x ∈ s.halts, x.part = p.num ∧ x.fdom = 3) ∨ (h.cause.code = 0x7001 ∧ h.cause.addr = 128 * n.base ∧ h.cause.paddr = die)) := by
  have hexec : exec (.recallBoundExceeded die base) s = execRecallBoundExceeded die base s := rfl
  rw [hexec]
  unfold execRecallBoundExceeded
  dsimp only
  constructor
  · intro h; rw [h]
  · intro n h
    rw [h]
    obtain ⟨hun, hall⟩ := fatalPartitions_unrecalled (homeDie (128 * base)) (128 * n.base) die (s.parts.filter (meetsNode n)) s
    refine ⟨fun hno => ?_, _, rfl, hun.wgs, fun p hp hm => ?_⟩
    · have hnil : s.parts.filter (meetsNode n) = [] := List.filter_eq_nil_iff.2 hno
      exact congrArg (fun l => Host.Outcome.next (l.foldl (fun s p =>
        s.fatalPartition p.num (homeDie (128 * base)) (recallRecord s (homeDie (128 * base)) (128 * n.base) die p.num)) s)) hnil
    · obtain ⟨x, hx, hpart, hdom⟩ := hall p (List.mem_filter.2 ⟨hp, hm⟩)
      obtain ⟨h, hh, rfl⟩ := List.mem_map.1 hx
      refine ⟨h, hh, hpart, hdom, (hun.sites _ hx).imp_left fun hold => ?_⟩
      obtain ⟨y, hy, he⟩ := List.mem_map.1 hold
      exact ⟨y, hy, (congrArg Prod.fst he).trans hpart, (congrArg (·.2.1) he).trans hdom⟩

/-! ### The companion (15 R334, 20 R380, 25 R472) -/

/-- 15 R334: a write by the companion. -/
theorem companionWrite_next (s : State) {pa : Nat} {bytes : List Byte} (hlink : s.linkDown = false) (hne : bytes ≠ []) :
    (memoryRange pa bytes.length = true → exec (.companionWrite pa bytes) s = .next (s.outerBytes pa bytes)) ∧
    (memoryRange pa bytes.length = false → isDevice pa = true → exec (.companionWrite pa bytes) s =
      .next { s with agenda := (s.deviceStore pa bytes.length (natOfBytes bytes)).toList ++ s.agenda }) ∧
    (memoryRange pa bytes.length = false → isDevice pa = false → exec (.companionWrite pa bytes) s = .fault (.notPopulated pa)) := by
  have hexec : exec (.companionWrite pa bytes) s = execCompanionWrite pa bytes s := rfl
  rw [hexec]
  unfold execCompanionWrite
  rw [if_neg (by simp [hlink, hne])]
  exact ⟨fun h => if_pos h, fun h hd => (if_neg (by simp [h])).trans (if_pos hd),
    fun h hd => (if_neg (by simp [h])).trans (if_neg (by simp [hd]))⟩

/-- 20 R380: the companion reads as a sharer: memory stands, and what each core sees. -/
theorem outerRead_sameView (s : State) (pa n : Nat) : s.SameView (s.outerRead pa n) :=
  sameView_foldl (fun s line => share_sameView s 4 line) _ s

/-- 15 R334, 25 R472: what the companion reads of memory, of which poison gives nothing. -/
theorem companionRead_memory {s : State} {pa n : Nat} (hlink : s.linkDown = false) (hn : n ≠ 0) (hm : memoryRange pa n = true) :
    ∃ t, exec (.companionRead pa n) s = .next t ∧ t.mem = s.mem ∧
      ((∀ i < n, s.poisonAt (pa + i) = false) → t.bus = s.bytes pa n) ∧ ((∃ i < n, s.poisonAt (pa + i) = true) → t.bus = []) ∧
      ∀ c k, t.seeByte c k = s.seeByte c k := by
  have hview := outerRead_sameView s pa n
  have hpoison : ∀ k, (s.outerRead pa n).poisonAt k = s.poisonAt k := fun k => by unfold State.poisonAt; rw [hview.poison]
  have hexec : exec (.companionRead pa n) s = .next { s.outerRead pa n with
      bus := if (List.range n).any (fun i => (s.outerRead pa n).poisonAt (pa + i)) then [] else (s.outerRead pa n).bytes pa n } :=
    (show _ = execCompanionRead pa n s from rfl).trans ((if_neg (by simp [hlink, hn])).trans (if_pos hm))
  refine ⟨_, hexec, hview.mem, fun h => ?_, fun ⟨i, hi, h⟩ => ?_, hview.sees⟩
  · refine (if_neg ?_).trans (by unfold State.bytes State.byte; rw [hview.mem])
    simpa [hpoison] using h
  · exact if_pos (List.any_eq_true.2 ⟨i, List.mem_range.2 hi, (hpoison (pa + i)).trans h⟩)

/-- 15 R334: a read by the companion of what is not memory. -/
theorem companionRead_other (s : State) {pa n : Nat} (hlink : s.linkDown = false) (hn : n ≠ 0) (hm : memoryRange pa n = false) :
    (isDevice pa = true → exec (.companionRead pa n) s = .next { s with bus := bytesOfNat n (s.deviceLoad 0 pa n) }) ∧
    (isDevice pa = false → exec (.companionRead pa n) s = .fault (.notPopulated pa)) := by
  have hexec : exec (.companionRead pa n) s = execCompanionRead pa n s := rfl
  rw [hexec]
  unfold execCompanionRead
  rw [if_neg (by simp [hlink, hn]), if_neg (by simp [hm])]
  exact ⟨fun h => if_pos h, fun h => if_neg (by simp [h])⟩

/-- Settles O55, event by event. -/
theorem coherenceEvents : Obligations.CoherenceEvents := by
  intro s hI
  refine ⟨fun core key => ⟨fun h => congrArg Host.Outcome.next (registerWord_notDirty h), fun w hw hd => sliceRegistration_next hw hd⟩,
    fun core line => l1Eviction_next s core line,
    fun core key => ⟨forwardedRead_next, fun h => congrArg Host.Outcome.next (if_neg (by rw [h]; simp))⟩,
    fun holder own line hh hm => ?_,
    fun die base a hdie ha hsize b hb => nodeMerge_next hI hdie ha hsize hb,
    fun die base hdie => directoryEviction_next hI hdie base,
    fun die base n sharing hdie hn ho hold => recall_next sharing hdie hn ho hold,
    fun die base => ?_,
    fun pa bytes hlink hne => ?_,
    fun pa n hlink hn => ⟨companionRead_memory hlink hn,
      fun hm => (companionRead_other s hlink hn hm).1, fun hm => (companionRead_other s hlink hn hm).2⟩⟩
  · obtain ⟨hexec, hmem, hsees⟩ := directoryRequest_next s own hh hm
    exact ⟨_, hexec, hmem, hsees, fun n hn hu hc => dir_answer hI holder line own n hn hu hc⟩
  · simp only [← meetsNode_iff]
    exact recallBoundExceeded_next s die base
  · obtain ⟨hmem, hdev, hnone⟩ := companionWrite_next s hlink hne
    exact ⟨fun h => ⟨_, hmem h, outerBytes_byte s pa bytes⟩, hdev, hnone⟩

end Sys2Proof.Laws
end

section
/-!
Braid: packets, answers, refusals, paths (21 R388 to R393, R397, R398; 11 R263; 20 R379).
-/
namespace Sys2Proof.Laws
open Sys2Proof.Machine

/-! ### Packets received (21 R390, R393) -/

/-- 23 R441: outside a replay no packet's event is held. -/
theorem packetHeld_outside {pt : Partition} (h : pt.replay = none) (s : State) (p : Packet) : s.packetHeld pt p = false := by
  unfold State.packetHeld
  rw [h]

/-- 21 R393: a packet is not performed while it is ordered and its snapshot is not covered. -/
theorem waits_false {s : State} {p : Packet} (h : p.ordered = false ∨ s.covered p = true) : (p.ordered && !s.covered p) = false := by
  rcases h with h | h <;> simp [h]

/-- 21 R390, R393, R397: what becomes of a packet whose partition this package holds. -/
theorem packetReceive_cases {s : State} {p : Packet} {pt : Partition} (hp : s.part? p.part = some pt) :
    (s.performed p = true → exec (.packetReceive p) s = .next s) ∧
    (s.performed p = false → (∀ q ∈ s.heldPkts, ¬(q.source = p.source ∧ q.part = p.part ∧ q.path = p.path ∧ q.seq = p.seq)) →
      (p.ordered = true → s.covered p = false → exec (.packetReceive p) s = .next { s with heldPkts := s.heldPkts ++ [p] }) ∧
      (p.ordered = false ∨ s.covered p = true → pt.replay = none → exec (.packetReceive p) s = .next (s.performPacket pt p))) := by
  have hexec : exec (.packetReceive p) s = execPacketReceive p s := rfl
  rw [hexec]
  unfold execPacketReceive
  rw [hp]
  dsimp only
  constructor
  · intro h
    exact congrArg Host.Outcome.next (if_pos (by rw [h, Bool.true_or]))
  · intro h hheld
    have hnot : s.heldPkts.any (fun q => q.source == p.source && q.part == p.part && q.path == p.path && q.seq == p.seq) = false := by
      rw [List.any_eq_false]
      intro q hq he
      simp only [Bool.and_eq_true, beq_iff_eq] at he
      exact hheld q hq ⟨he.1.1.1, he.1.1.2, he.1.2, he.2⟩
    rw [h, hnot, if_neg (by simp)]
    refine ⟨fun ho hc => congrArg Host.Outcome.next (if_pos (by simp [ho, hc])), fun hw hr => congrArg Host.Outcome.next (if_neg ?_)⟩
    rw [waits_false hw, packetHeld_outside hr]
    exact Bool.false_ne_true

/-! ### Packets performed (21 R390; 11 R263) -/

theorem packetBytes_of {s u : State} (h : u.mem = s.mem) (p : Packet) (line : Nat) : u.packetBytes p line = s.packetBytes p line := by
  unfold State.packetBytes State.byte
  rw [h]

/-- 11 R263, R391: a packet whose translation faults, or that reads poison, is answered with the fault. -/
theorem perform_fault {s : State} {pt : Partition} {p : Packet} :
    (∀ code, s.ownerByte pt (128 * p.line + (packetOffsets p).headD 0) (packetUse p) = .error code →
      (s.performPacket pt p).mem = s.mem ∧ (s.performPacket pt p).reply = some (packetAnswer p false code [] [])) ∧
    ∀ pa f, s.ownerByte pt (128 * p.line + (packetOffsets p).headD 0) (packetUse p) = .ok (pa, f) → packetReads p = true →
      ¬(∀ o ∈ packetOffsets p, s.poisonAt (pa / 128 * 128 + o) = false) →
      (s.performPacket pt p).mem = s.mem ∧ (s.performPacket pt p).reply = some (packetAnswer p false 0x6002 [] []) := by
  unfold State.performPacket
  dsimp only
  constructor
  · intro code h
    rw [h]
    exact ⟨rfl, rfl⟩
  · intro pa f h hr hpoison
    rw [h]
    dsimp only
    have hany : ((packetOffsets p).map (pa / 128 * 128 + ·)).any s.poisonAt = true := by
      simpa using hpoison
    rw [hr, hany, if_pos (Bool.and_self true)]
    exact ⟨rfl, rfl⟩

section
variable {s : State} {pt : Partition} {p : Packet} {pa : Nat} {f : Leaf} (hp : s.part? p.part = some pt) (ho : s.observes p.part = false)
  (ha : s.ownerByte pt (128 * p.line + (packetOffsets p).headD 0) (packetUse p) = .ok (pa, f))
include hp ho ha

/-- 21 R390: a load's answer carries the bytes. -/
theorem perform_load (hk : p.kind = 0) (hclean : ∀ o ∈ packetOffsets p, s.poisonAt (pa / 128 * 128 + o) = false) :
    ∃ tags, (s.performPacket pt p).mem = s.mem ∧
      (s.performPacket pt p).reply = some (packetAnswer p false 0 (p.bytes.map (fun b => (b.1, s.byte (pa / 128 * 128 + b.1)))) tags) := by
  obtain ⟨u, hmem, -, hdo⟩ := perform_ok hp ho ha (fun _ => hclean) (fun h => by simp [packetMayWrite, hk] at h)
  have hload : u.doPacket p (pa / 128 * 128) = ⟨u, p.bytes.map (fun b => (b.1, s.byte (pa / 128 * 128 + b.1))),
      ((List.range 8).map (16 * ·)).filter (fun o => u.tagAt (pa / 128 * 128 + o))⟩ := by
    unfold State.doPacket
    rw [hk]
    simp only [State.byte_of hmem]
  rw [hload] at hdo
  rw [hdo rfl]
  exact ⟨_, hmem, rfl⟩

/-- 21 R390: a store's bytes stand in memory. -/
theorem perform_store (hk : p.kind = 1) (hckt : pt.obs.ckt = 0) :
    (s.performPacket pt p).reply = some (packetAnswer p false 0 [] []) ∧
      ∀ k, (s.performPacket pt p).byte k = writeIn s.byte (s.packetBytes p (pa / 128 * 128)) k := by
  obtain ⟨u, hmem, -, hdo⟩ := perform_ok hp ho ha (fun h => by simp [packetReads, hk] at h) (fun _ => hckt)
  generalize hline : pa / 128 * 128 = line at hdo ⊢
  have hstore : ∃ v, u.doPacket p line = ⟨v, [], []⟩ ∧ v.parts = u.parts ∧ ∀ k, v.byte k = writeIn s.byte (s.packetBytes p line) k := by
    let v := u.store (u.packetBytes p line) none
    refine ⟨if p.tagged then v.tagKeys (p.bytes.map (fun b => line + b.1)) else v, ?_, ?_, fun k => ?_⟩
    · unfold State.doPacket
      rw [hk]
      rfl
    · dsimp only [v]
      split <;> exact store_parts ..
    · have hbyte : (u.store (u.packetBytes p line) none).byte k = writeIn s.byte (s.packetBytes p line) k := by
        rw [store_byte, packetBytes_of hmem]
        exact writeIn_congr (State.byte_of hmem) _ _
      dsimp only [v]
      split <;> exact hbyte
  obtain ⟨v, hv, hparts, hbyte⟩ := hstore
  rw [hv] at hdo
  rw [hdo (by unfold State.part?; rw [hparts])]
  exact ⟨rfl, hbyte⟩

/-- 16 R356, 21 R390: an atomic returns the old value, and its new one is stored. -/
theorem perform_atomic {l : PacketLane} (hk : p.kind = 2) (hckt : pt.obs.ckt = 0) (hl : p.lanes = [l]) (hop : p.op < 9)
    (hclean : ∀ o ∈ packetOffsets p, s.poisonAt (pa / 128 * 128 + o) = false) :
    let old := s.num (pa / 128 * 128 + l.off) p.width
    (s.performPacket pt p).reply = some (packetAnswer p false 0
        (((List.range p.width).map (fun i => 8 * l.lane + i)).zip (bytesOfNat p.width old)) []) ∧
      ∀ k, (s.performPacket pt p).byte k = writeIn s.byte (((List.range p.width).map (fun i => pa / 128 * 128 + l.off + i)).zip
        (bytesOfNat p.width (atomNew p.op p.width p.fmt old (l.operand.toNat % 2 ^ (8 * p.width))))) k := by
  obtain ⟨u, hmem, -, hdo⟩ := perform_ok hp ho ha (fun _ => hclean) (fun _ => hckt)
  generalize hline : pa / 128 * 128 = line at hdo ⊢
  intro old
  have hlane : ∀ key, u.packetLane p l key = (u.store (((List.range p.width).map (fun i => key + i)).zip
      (bytesOfNat p.width (atomNew p.op p.width p.fmt (u.num key p.width) (l.operand.toNat % 2 ^ (8 * p.width))))) none,
      bytesOfNat p.width (u.num key p.width)) := by
    intro key
    unfold State.packetLane
    split
    · omega
    · omega
    · omega
    · rfl
  have hatom : u.doPacket p line = ⟨u.store (((List.range p.width).map (fun i => line + l.off + i)).zip
      (bytesOfNat p.width (atomNew p.op p.width p.fmt old (l.operand.toNat % 2 ^ (8 * p.width))))) none,
      ((List.range p.width).map (fun i => 8 * l.lane + i)).zip (bytesOfNat p.width old), []⟩ := by
    unfold State.doPacket
    rw [hk, hl]
    simp only [List.foldl_cons, List.foldl_nil, hlane, num_of hmem, bytesOfNat_length, List.nil_append]
    rfl
  rw [hatom] at hdo
  rw [hdo (by unfold State.part?; rw [store_parts])]
  refine ⟨rfl, fun k => (store_byte ..).trans ?_⟩
  exact writeIn_congr (State.byte_of hmem) _ _

end

/-- 21 R393: a held packet is performed once its snapshot is covered. -/
theorem orderedPacketRelease_next {s : State} {source part path seq : Nat} {p : Packet} {pt : Partition}
    (hfind : s.heldPkts.find? (fun q => q.source == source && q.part == part && q.path == path && q.seq == seq) = some p)
    (hp : s.part? part = some pt) (hr : pt.replay = none) :
    (p.ordered = true → s.covered p = false → exec (.orderedPacketRelease source part path seq) s = .next s) ∧
    (p.ordered = false ∨ s.covered p = true → exec (.orderedPacketRelease source part path seq) s =
      .next (({ s with heldPkts := s.heldPkts.filter (fun q =>
        !(q.source == source && q.part == part && q.path == path && q.seq == seq)) } : State).performPacket pt p)) := by
  have hexec : exec (.orderedPacketRelease source part path seq) s = execOrderedPacketRelease source part path seq s := rfl
  rw [hexec]
  unfold execOrderedPacketRelease
  rw [hfind, hp]
  dsimp only
  rw [packetHeld_outside hr]
  exact ⟨fun h1 h2 => congrArg Host.Outcome.next (if_neg (by simp [h1, h2])),
    fun h => congrArg Host.Outcome.next (if_pos (by rcases h with h | h <;> simp [h]))⟩

/-! ### Answers to packets sent (21 R388, R390) -/

/-- What an acknowledgement finds: the packet taken off those sent, and ACKED raised. -/
def acknowledged (s : State) (q : SentPacket) : State := (s.dropSent q).countAck q

/-- The operation that an acknowledged packet serves. -/
theorem acknowledged_op {s : State} {q : SentPacket} {g : Group} {o : PendingOp} (hg : s.group? q.gid = some g)
    (ho : g.ops.find? (fun o => o.id == q.opId) = some o) :
    (((s.dropSent q).countAck q).group? q.gid).bind (fun g => g.ops.find? (fun o => o.id == q.opId)) = some o := by
  rw [show ((s.dropSent q).countAck q).group? q.gid = some g from hg]
  exact ho

/-- 21 R388, R390: an answer without a fault serves its operation. -/
theorem packetAck_served {s : State} {dest part path seq : Nat} {q : SentPacket} (hq : s.sentPacket dest part path seq = some q)
    {bytes : List (Nat × Byte)} {tags : List Nat} {g : Group} {o : PendingOp} (hans : s.answers = []) (he : q.engine = false) (hkeep : q.keep = none)
    (hg : s.group? q.gid = some g) (ho : g.ops.find? (fun o => o.id == q.opId) = some o) (hu : q.pkt.kind ≠ 0 ∨ o.untagged q tags = 0) :
    exec (.packetAck dest part path seq bytes tags 0) s = .next ((acknowledged s q).serveAnswer q bytes false) := by
  have hexec : exec (.packetAck dest part path seq bytes tags 0) s = execPacketAck dest part path seq bytes tags 0 s := rfl
  have hbad : (if (q.engine || q.pkt.kind != 0) = true then 0 else o.untagged q tags) = 0#64 := by
    rcases hu with hk | h0
    · exact if_pos (by simp [hk])
    · rw [h0]; exact ite_self _
  have hline : (acknowledged s q).keepLine q bytes tags = acknowledged s q := by unfold State.keepLine; rw [hkeep]
  have hl1 : (acknowledged s q).keepInL1 q bytes = acknowledged s q := by unfold State.keepInL1; rw [hkeep]
  rw [hexec]
  unfold execPacketAck
  rw [hq]
  dsimp only
  rw [acknowledged_op hg ho, if_neg (by decide)]
  dsimp only
  rw [if_neg (by rw [hbad]; decide)]
  refine congrArg Host.Outcome.next ?_
  rw [show (s.dropSent q).countAck q = acknowledged s q from rfl, hline, hl1]
  refine raiseAnswers_nil q.gid q.opId ?_
  unfold State.serveAnswer
  rw [he]
  exact hans

/-- 21 R390: what an answer leaves of the group and of memory. -/
theorem serveAnswer_group {s : State} {q : SentPacket} {bytes : List (Nat × Byte)} {g : Group} {o : PendingOp} (he : q.engine = false)
    (hg : s.group? q.gid = some g) (ho : g.ops.find? (fun o => o.id == q.opId) = some o) :
    ∃ g', ((acknowledged s q).serveAnswer q bytes false).group? q.gid = some g' ∧
      g'.ops.find? (fun o => o.id == q.opId) = some (o.take q (q.gotBytes bytes) false) := by
  unfold State.serveAnswer
  rw [he, if_neg Bool.false_ne_true]
  let serve := fun g : Group => { g with ops := replaceBy (fun o => o.id == q.opId) (fun o => o.take q (q.gotBytes bytes) false) g.ops }
  have hgroup := State.group?_modGroup (acknowledged s q) q.gid q.gid serve fun _ => rfl
  rw [if_pos rfl, show (acknowledged s q).group? q.gid = some g from hg] at hgroup
  refine ⟨serve g, hgroup, ?_⟩
  exact (find?_replaceBy_self _ (fun o => o.take q (q.gotBytes bytes) false) _ fun _ h => h).trans (congrArg (Option.map _) ho)

/-- 21 R388: what an answer leaves of memory and of the packets. -/
theorem serveAnswer_braid {s : State} {q : SentPacket} (bytes : List (Nat × Byte)) (he : q.engine = false) :
    let t := (acknowledged s q).serveAnswer q bytes false
    t.mem = s.mem ∧ t.sent = (s.dropSent q).sent ∧ t.counts = (s.countAck q).counts ∧
      (t.braid q.pkt.part q.dest q.pkt.path).acked = ((s.braid q.pkt.part q.dest q.pkt.path).acked + 1) % 2 ^ 32 := by
  unfold State.serveAnswer
  rw [he, if_neg Bool.false_ne_true]
  exact ⟨rfl, rfl, rfl, braid_countAck (s.dropSent q) q⟩

/-- 11 R263: the fault that an answer carries is raised once the last packet of its operation is answered. -/
theorem packetAck_fault {s : State} {dest part path seq : Nat} {q : SentPacket} (hq : s.sentPacket dest part path seq = some q)
    (bytes : List (Nat × Byte)) (tags : List Nat) {code : Nat} (hc : code ≠ 0) (he : q.engine = false) :
    exec (.packetAck dest part path seq bytes tags code) s =
      .next (({ ((s.dropSent q).countAck q).serveAnswer q [] true with answers := s.answers ++ [(q, code)] } : State).raiseAnswers q.gid q.opId) := by
  have hexec : exec (.packetAck dest part path seq bytes tags code) s = execPacketAck dest part path seq bytes tags code s := rfl
  rw [hexec]
  unfold execPacketAck
  rw [hq]
  dsimp only
  rw [if_pos (by simpa using hc), if_neg (by rw [he]; exact Bool.false_ne_true)]
  rfl

/-- 10 R241, 02 R28: an LDP whose granules came without their tags traps once its packets are answered. -/
theorem packetAck_untagged {s : State} {dest part path seq : Nat} {q : SentPacket} (hq : s.sentPacket dest part path seq = some q)
    (bytes : List (Nat × Byte)) {tags : List Nat} {g : Group} {o : PendingOp} (he : q.engine = false) (hk : q.pkt.kind = 0)
    (hg : s.group? q.gid = some g) (ho : g.ops.find? (fun o => o.id == q.opId) = some o) (hu : o.untagged q tags ≠ 0) :
    exec (.packetAck dest part path seq bytes tags 0) s =
      .next (({ (((s.dropSent q).countAck q).serveAnswer q [] true).modGroup q.gid (fun g =>
          { g with ops := replaceBy (fun o => o.id == q.opId) PendingOp.stopAll g.ops }) with
        answers := s.answers ++ [({ q with lanes := o.untagged q tags }, 0x2006)] } : State).raiseAnswers q.gid q.opId) := by
  have hexec : exec (.packetAck dest part path seq bytes tags 0) s = execPacketAck dest part path seq bytes tags 0 s := rfl
  rw [hexec]
  unfold execPacketAck
  rw [hq]
  dsimp only
  rw [acknowledged_op hg ho, if_neg (by decide)]
  dsimp only
  rw [if_pos (by rw [if_neg (by simp [he, hk])]; simpa using hu), if_neg (by simp [he, hk])]
  rfl

/-- 21 R398: a packet that is refused is fatal to its partition. -/
theorem packetRefusal_fatal {s : State} {dest part path seq : Nat} {q : SentPacket} (hq : s.sentPacket dest part path seq = some q) :
    ∃ t, exec (.packetRefusal dest part path seq) s = .next t ∧ ∃ h ∈ t.halts, h.part = part ∧ h.fdom = 3 := by
  have hexec : exec (.packetRefusal dest part path seq) s = execPacketRefusal dest part path seq s := rfl
  rw [hexec]
  unfold execPacketRefusal
  rw [hq]
  exact ⟨_, rfl, fatalPartition_halts ..⟩

/-! ### Paths (21 R397, R398) -/

/-- What a path that goes down leaves before its record: its packets are resent as replays. -/
def pathDowned (s : State) (dest path : Nat) : State :=
  { s.setPath dest path .down (s.sent.filter (fun q => q.dest == dest && q.pkt.path == path)).length with
    sent := s.sent.map (fun q =>
      if q.dest == dest && q.pkt.path == path then { q with pkt := { q.pkt with replay := true }, pinnedDown := true } else q) }

/-- 21 R397: a packet of a path that goes down is resent as a replay; every other stands as it was. -/
theorem mem_pathDowned {s : State} {dest path : Nat} {q : SentPacket} (h : q ∈ (pathDowned s dest path).sent) :
    (q.dest = dest → q.pkt.path = path → q.pkt.replay = true ∧ q.pinnedDown = true) ∧ (¬(q.dest = dest ∧ q.pkt.path = path) → q ∈ s.sent) := by
  obtain ⟨q', hq', rfl⟩ := List.mem_map.1 h
  dsimp only
  split
  · next hm =>
    simp only [Bool.and_eq_true, beq_iff_eq] at hm
    exact ⟨fun _ _ => ⟨rfl, rfl⟩, fun hno => absurd hm hno⟩
  · next hm =>
    exact ⟨fun h1 h2 => absurd (by simp [h1, h2]) hm, fun _ => hq'⟩

/-- 21 R397: a path goes down. -/
theorem pathDown_next {s : State} {dest path : Nat} (hpath : path < Config.pathsPerRoute) (hdest : dest ≠ s.pod)
    (htakes : (s.linkState dest path).takes = true) :
    ∃ r : ErrorRecord, exec (.pathDown dest path) s = .next ((pathDowned s dest path).record r) ∧ r.code = 0x8001 ∧ r.paddr = dest :=
  ⟨_, congrArg Host.Outcome.next (if_pos (by simp [hpath, hdest, htakes])), rfl, rfl⟩

/-- 21 R397: a path is up again once what was sent on it is acknowledged. -/
theorem pathRestore_next {s : State} {dest path : Nat} (htakes : (s.linkState dest path).takes = false) :
    ((∀ b ∈ s.counts, b.dest = dest → b.path = path → b.sent = b.acked) → exec (.pathRestore dest path) s = .next (s.setPath dest path .up 0)) ∧
    ((∃ b ∈ s.counts, b.dest = dest ∧ b.path = path ∧ b.sent ≠ b.acked) → exec (.pathRestore dest path) s = .next s) := by
  have hall : s.counts.all (fun b => b.dest != dest || b.path != path || b.sent == b.acked) = true ↔
      ∀ b ∈ s.counts, b.dest = dest → b.path = path → b.sent = b.acked := by
    rw [List.all_eq_true]
    refine forall₂_congr fun b _ => ?_
    simp only [Bool.or_eq_true, bne_iff_ne, beq_iff_eq]
    tauto
  refine ⟨fun h => congrArg Host.Outcome.next (if_pos ?_), fun ⟨b, hb, h1, h2, h3⟩ => congrArg Host.Outcome.next (if_neg fun hc => ?_)⟩
  · rw [htakes, hall.2 h]; rfl
  · rw [Bool.and_eq_true, hall] at hc
    exact h3 (hc.2 b hb h1 h2)

/-- 21 R398: a destination that no path reaches is fatal to the partition whose packets are for it. -/
theorem destinationUnreachable_next (s : State) (dest : Nat) :
    (s.livePaths dest ≠ [] → exec (.destinationUnreachable dest) s = .next s) ∧
    (s.livePaths dest = [] → (∀ q ∈ s.sent, q.dest ≠ dest) → exec (.destinationUnreachable dest) s = .next s) ∧
    ∀ part, s.livePaths dest = [] → (∃ q ∈ s.sent, q.dest = dest) → (∀ q ∈ s.sent, q.dest = dest → q.pkt.part = part) →
      ∃ t, exec (.destinationUnreachable dest) s = .next t ∧ ∃ h ∈ t.halts, h.part = part ∧ h.fdom = 3 := by
  have hexec : exec (.destinationUnreachable dest) s = execDestinationUnreachable dest s := rfl
  rw [hexec]
  unfold execDestinationUnreachable
  refine ⟨fun h => congrArg Host.Outcome.next (if_pos (by simpa using h)), fun h hno => ?_, fun part h ⟨q, hq, hd⟩ hpart => ?_⟩
  · have hnil : s.sent.filter (fun q => q.dest == dest) = [] := List.filter_eq_nil_iff.2 fun q hq => by simpa using hno q hq
    rw [if_neg (by simp [h])]
    dsimp only
    rw [hnil]
    rfl
  · have hparts : uniq ((s.sent.filter (fun q => q.dest == dest)).map (·.pkt.part)) = [part] := by
      refine uniq_const part _ (List.ne_nil_of_mem (List.mem_map_of_mem (List.mem_filter.2 ⟨hq, by simpa using hd⟩))) fun x hx => ?_
      obtain ⟨y, hy, rfl⟩ := List.mem_map.1 hx
      obtain ⟨hy, hyd⟩ := List.mem_filter.1 hy
      exact hpart y hy (by simpa using hyd)
    rw [if_neg (by simp [h])]
    dsimp only
    rw [hparts]
    exact ⟨_, rfl, fatalPartition_halts ..⟩

/-- Settles O56, event by event. -/
theorem fabricEvents : Obligations.FabricEvents := by
  intro s fatalTo
  refine ⟨fun p => ⟨fun hp => ?_, fun pt hp => ⟨(packetReceive_cases hp).1, fun hnew hheld =>
      ⟨((packetReceive_cases hp).2 hnew hheld).1, fun hw hr ho => ?_⟩⟩⟩,
    fun source part path seq p pt hfind hp hr => orderedPacketRelease_next hfind hp hr,
    fun dest part path seq q hq => ⟨?_, fun bytes tags code hc he => packetAck_fault hq bytes tags hc he,
      fun bytes tags g o he hk hg ho hu => packetAck_untagged hq bytes he hk hg ho hu, packetRefusal_fatal hq⟩,
    fun dest path hpath hdest htakes => ?_,
    fun dest path htakes => ⟨fun h => ⟨_, (pathRestore_next htakes).1 h, setPath_link s dest path .up 0, rfl, rfl⟩, (pathRestore_next htakes).2⟩,
    fun dest => destinationUnreachable_next s dest⟩
  · have hexec : exec (.packetReceive p) s = execPacketReceive p s := rfl
    rw [hexec]
    unfold execPacketReceive
    rw [hp]
  · have hexec := ((packetReceive_cases hp).2 hnew hheld).2 hw hr
    refine ⟨fun code he => ⟨_, hexec, perform_fault.1 code he⟩,
      fun pa f ha => ⟨fun hreads hdirty => ⟨_, hexec, perform_fault.2 pa f ha hreads hdirty⟩,
      fun hk hclean => ?_, fun hk hckt => ⟨_, hexec, perform_store hp ho ha hk hckt⟩,
      fun l hk hckt hl hop hclean => ⟨_, hexec, perform_atomic hp ho ha hk hckt hl hop hclean⟩⟩⟩
    obtain ⟨tags, hmem, hreply⟩ := perform_load hp ho ha hk hclean
    exact ⟨_, tags, hexec, hmem, hreply⟩
  · intro bytes tags g o hans he hkeep hg ho hu
    obtain ⟨g', hg', ho'⟩ := serveAnswer_group (bytes := bytes) he hg ho
    obtain ⟨hmem, hsent, hcounts, hacked⟩ := serveAnswer_braid (s := s) bytes he
    exact ⟨_, g', packetAck_served hq hans he hkeep hg ho hu, hmem, hg', ho', hsent, hcounts, hacked⟩
  · obtain ⟨r, hexec, hcode, hpaddr⟩ := pathDown_next hpath hdest htakes
    exact ⟨_, r, hexec, setPath_link .., hcode, hpaddr, List.length_map .., fun q hq => (mem_pathDowned hq).1,
      fun q hq => (mem_pathDowned hq).2, rfl⟩

end Sys2Proof.Laws
end

section
/-!
Observation, replay and the loading of code (23 R431, R434, R437 to R442; 04 R71 to R79).
-/
namespace Sys2Proof.Laws
open Sys2Proof.Machine

/-! ### Stops (23 R431) -/

/-- 23 R431: a split that has been asked stops. -/
theorem stopAtSite_asked {s : State} {g sid : Nat} {c : Ctx} (hc : s.ctx? g sid = some c) (hdue : c.sp.stop.due = true)
    (hsite : c.sp.word = 0 ∨ (s.siteOf c.w c.sp).isSome = true) :
    exec (.stopAtSite g sid) s = .next (s.modSplit g sid (fun x => { x with stop := .stopped })) := by
  have hexec : exec (.stopAtSite g sid) s = execStopAtSite g sid s := rfl
  rw [hexec]
  unfold execStopAtSite
  rw [hc]
  dsimp only
  exact congrArg Host.Outcome.next (if_pos (by rcases hsite with h | h <;> simp [hdue, h]))

/-- 23 R431: an enabled breakpoint matches at a stop site only. -/
theorem bpHits_site {s : State} {c : Ctx} (h : s.bpHits c = true) : (s.siteOf c.w c.sp).isSome = true := by
  unfold State.bpHits at h
  split at h
  · exact nomatch h
  · next site hsite => rw [hsite]; rfl

/-- 23 R431, 08 R182: a split that runs triggers a stop at an enabled breakpoint, or at a BKPT. -/
theorem stopAtSite_running {s : State} {g sid : Nat} {c : Ctx} (hc : s.ctx? g sid = some c) (hrun : c.sp.stop = .running)
    (hmove : c.mayMove = true) :
    (c.sp.state = .ready ∨ c.sp.state = .inTrap → s.bpHits c = true →
      exec (.stopAtSite g sid) s = .next (s.triggerStop c (c.sp.bkptTag.getD 0))) ∧
    (s.bpHits c = false → ∀ tag, c.sp.bkptTag = some tag → (s.partOf c.w.part).obs.bken = true →
      exec (.stopAtSite g sid) s = .next (s.triggerStop c tag)) ∧
    (s.bpHits c = false → c.sp.bkptTag = none → exec (.stopAtSite g sid) s = .next s) := by
  have hexec : exec (.stopAtSite g sid) s = execStopAtSite g sid s := rfl
  have hnotDue : c.sp.stop.due = false := by rw [hrun]; rfl
  have hstopDue : s.stopDue c = ((s.siteOf c.w c.sp).isSome && s.bpHits c) := by
    unfold State.stopDue
    rw [hnotDue, hrun]
    rfl
  rw [hexec]
  unfold execStopAtSite
  rw [hc]
  dsimp only
  rw [hnotDue, hstopDue, hrun, hmove, Bool.false_and, if_neg Bool.false_ne_true]
  refine ⟨fun hstate hbp => congrArg Host.Outcome.next (if_pos ?_), fun hbp tag htag hbk => ?_, fun hbp hnone => ?_⟩
  · rw [hbp, bpHits_site hbp]
    rcases hstate with h | h <;> rw [h] <;> rfl
  · rw [hbp, htag, hbk, if_neg (by simp)]
    rfl
  · rw [hbp, hnone, if_neg (by simp)]
    rfl

/-! ### Samples (23 R434) -/

/-- 23 R434: a firing of the sample timer names the split that comes first. -/
theorem sampleTimer_next (s : State) (die cluster core sched : Nat) :
    (s.sampleSplit ((die * 7 + cluster) * 8 + core) sched = none → exec (.sampleTimer die cluster core sched) s = .next s) ∧
    ∀ c stall, s.sampleSplit ((die * 7 + cluster) * 8 + core) sched = some (c, stall) →
      ((s.partOf c.w.part).obs.smpl = 0 → exec (.sampleTimer die cluster core sched) s = .next s) ∧
      ((s.partOf c.w.part).obs.smpl ≠ 0 → exec (.sampleTimer die cluster core sched) s = .next { s with samples := s.samples ++
        [{ gid := c.g.gid, sid := c.sp.id, part := c.w.part, die := die, cycle := (s.die die).cycle, stall := stall }] }) := by
  have hexec : exec (.sampleTimer die cluster core sched) s = execSampleTimer die cluster core sched s := rfl
  rw [hexec]
  unfold execSampleTimer
  dsimp only
  refine ⟨fun h => by rw [h], fun c stall h => ?_⟩
  rw [h]
  exact ⟨fun h0 => congrArg Host.Outcome.next (if_pos h0), fun h0 => congrArg Host.Outcome.next (if_neg h0)⟩

/-- 23 R434: a sample is settled as its split stands. -/
theorem sampleWrite_settle {s : State} {g sid : Nat} {x : PendingSample} (hx : s.samples.find? (fun x => x.gid == g && x.sid == sid) = some x) :
    (s.settleSample x = none → exec (.sampleWrite g sid) s = .next s) ∧
    ∀ u, s.settleSample x = some u → exec (.sampleWrite g sid) s = .next { u with samples := u.samples.erase x } := by
  have hexec : exec (.sampleWrite g sid) s = execSampleWrite g sid s := rfl
  rw [hexec]
  unfold execSampleWrite
  rw [hx]
  dsimp only
  exact ⟨fun h => by rw [h], fun u h => by rw [h]⟩

/-- 23 R434: a sample is dropped when its split is gone or late, written at the split's stop site, and else waits. -/
theorem settleSample_cases (s : State) (x : PendingSample) :
    let late := 65536 < (s.die x.die).cycle - x.cycle
    (s.ctx? x.gid x.sid = none → s.settleSample x = some (s.dropSample x.part)) ∧
    ∀ c, s.ctx? x.gid x.sid = some c →
      (late → s.settleSample x = some (s.dropSample x.part)) ∧
      (¬ late → s.siteOf c.w c.sp = none → s.settleSample x = none) ∧
      ∀ site, ¬ late → s.siteOf c.w c.sp = some site → c.mayMove = true → c.sp.state = .ready ∨ c.sp.state = .inTrap →
        s.settleSample x = some (s.ringPut (s.partOf x.part) (s.partOf x.part).obs.sbuf (s.sampleBytes c x site)) := by
  intro late
  unfold State.settleSample
  dsimp only
  refine ⟨fun h => by rw [h], fun c hc => ?_⟩
  rw [hc]
  dsimp only
  refine ⟨fun hlate => ?_, fun hlate hsite => ?_, fun site hlate hsite hmove hstate => ?_⟩
  · cases s.siteOf c.w c.sp with
    | none => exact if_pos hlate
    | some site => exact (if_neg (by rw [decide_eq_true hlate]; simp)).trans (if_pos hlate)
  · rw [hsite]
    exact if_neg hlate
  · rw [hsite]
    refine if_pos ?_
    rw [hmove, decide_eq_false hlate]
    rcases hstate with h | h <;> rw [h] <;> rfl

/-! ### Snapshots (23 R437) -/

/-- A snapshot with the blocks of a die latched. -/
def latched (s : State) (die : Nat) : State :=
  { s with snap := { s.snap with
    latched := s.snap.latched ++ [(die, (s.die die).cycle)], blocks := s.snap.blocks ++ s.snapDie die (fun k => (s.swapping k).isSome) } }

/-- 23 R437: an image that is written is latched no longer. -/
theorem writeSnapshot_snap (s : State) : s.writeSnapshot.snap.active = false ∧ s.writeSnapshot.snap.latched = [] := by
  unfold State.writeSnapshot
  dsimp only
  split <;> exact ⟨rfl, rfl⟩

/-- 23 R437: the trigger of a snapshot reaches a die. -/
theorem snapshotLatch_next (s : State) {die : Nat} (hdie : die < 4) :
    (s.snap.active = false → exec (.snapshotLatch die) s = .next s) ∧
    (s.snap.active = true → s.snap.latched.any (fun x => x.1 == die) = true → exec (.snapshotLatch die) s = .next s) ∧
    (s.snap.active = true → s.snap.latched.any (fun x => x.1 == die) = false →
      exec (.snapshotLatch die) s = .next (if s.snap.latched.length = 3 then (latched s die).writeSnapshot else latched s die)) := by
  have hexec : exec (.snapshotLatch die) s = execSnapshotLatch die s := rfl
  rw [hexec]
  unfold execSnapshotLatch
  refine ⟨fun h => congrArg Host.Outcome.next (if_pos (by simp [h])), fun h hany => congrArg Host.Outcome.next (if_pos (by rw [hany]; simp)),
    fun h hany => congrArg Host.Outcome.next ((if_neg (by rw [h, hany]; simp [hdie])).trans ?_)⟩
  have hfull : (latched s die).snap.latched.length = 4 ↔ s.snap.latched.length = 3 := by
    rw [show (latched s die).snap.latched.length = s.snap.latched.length + 1 from List.length_append ..]
    omega
  exact ite_congr (propext hfull) (fun _ => rfl) (fun _ => rfl)

/-! ### Checkpoints (23 R438, R439) -/

/-- A partition that has been changed is what the change makes of one. -/
theorem part?_modPart_some {s : State} {k : Nat} {f : Partition → Partition} {q : Partition} (hq : (s.modPart k f).part? k = some q)
    (hf : ∀ p, (f p).num = p.num) : ∃ r, f r = q := by
  rw [part?_modSelf f hf] at hq
  exact (Option.map_eq_some_iff.1 hq).imp fun _ h => h.2

/-- 23 R438, R439: a checkpoint is taken, or logging ends. -/
theorem closeCheckpoint_part (s : State) {part : Nat} {p q : Partition} (hp : p.num = part)
    (hq : (s.closeCheckpoint p).part? part = some q) : q.ckptBusy = false ∧ (q.logOff = true ∨ q.logOff = false ∧ q.ckpts ≠ []) := by
  subst hp
  unfold State.closeCheckpoint at hq
  dsimp only at hq
  rw [resume_part?] at hq
  split at hq
  · obtain ⟨r, rfl⟩ := part?_modPart_some hq fun _ => rfl
    exact ⟨rfl, .inr ⟨rfl, by simp⟩⟩
  · obtain ⟨r, rfl⟩ := part?_modPart_some hq fun _ => rfl
    exact ⟨rfl, .inl rfl⟩

/-- 23 R438, R439: a checkpoint stops the groups of its partition, and is taken once all can be saved. -/
theorem checkpoint_next {s : State} {part : Nat} {p : Partition} (hp : s.part? part = some p) :
    (s.mayCheckpoint p = false → exec (.checkpoint part) s = .next (s.modPart part (fun p => { p with ckptBusy := false }))) ∧
    (s.mayCheckpoint p = true →
      let u := (s.signalPart part).modPart part (fun p => { p with ckptBusy := true })
      ((u.checkpointWgs part).all u.canSave = false → exec (.checkpoint part) s = .next u) ∧
      ((u.checkpointWgs part).all u.canSave = true → exec (.checkpoint part) s = .next (u.closeCheckpoint p))) := by
  have hexec : exec (.checkpoint part) s = execCheckpoint part s := rfl
  rw [hexec]
  unfold execCheckpoint
  rw [hp]
  dsimp only
  refine ⟨fun h => congrArg Host.Outcome.next (if_pos (by rw [h]; rfl)), fun h => ?_⟩
  rw [if_neg (by rw [h]; decide)]
  exact ⟨fun hall => congrArg Host.Outcome.next (if_neg (by rw [hall]; decide)), fun hall => congrArg Host.Outcome.next (if_pos hall)⟩

/-- 23 R438: a partition of which the pending pieces that a test selects are copied. -/
def copied (s : State) (f : Nat → Nat × Nat × Nat → Bool) (p : Partition) : Partition :=
  if p.ckpts.any (fun k => k.pending.any (f p.num)) then
    { p with ckpts := p.ckpts.map (fun k => k.copy s.mem s.tags (k.pending.filter (f p.num))) }
  else p

theorem copied_ckpts (s : State) (f : Nat → Nat × Nat × Nat → Bool) (p : Partition) :
    (copied s f p).num = p.num ∧ (copied s f p).ckpts.map (·.num) = p.ckpts.map (·.num) ∧
      ∀ k ∈ (copied s f p).ckpts, ∀ r ∈ k.pending, f p.num r = false := by
  unfold copied
  split
  · refine ⟨rfl, by simp [Checkpoint.copy], fun k hk r hr => ?_⟩
    obtain ⟨k', -, rfl⟩ := List.mem_map.1 hk
    obtain ⟨hr, hnot⟩ := List.mem_filter.1 hr
    by_contra hf
    simp [hr, hf] at hnot
  · next h =>
    refine ⟨rfl, rfl, fun k hk r hr => ?_⟩
    by_contra hf
    exact h (List.any_eq_true.2 ⟨k, hk, List.any_eq_true.2 ⟨r, hr, by simpa using hf⟩⟩)

/-- 23 R438: the pending pieces of a region are copied. -/
theorem checkpointRegionCopy_next {s : State} {part : Nat} {p : Partition} (hp : s.part? part = some p) (va : Nat) :
    ∃ t q, exec (.checkpointRegionCopy part va) s = .next t ∧ t.part? part = some q ∧ t.mem = s.mem ∧
      q.ckpts.map (·.num) = p.ckpts.map (·.num) ∧ ∀ k ∈ q.ckpts, ∀ r ∈ k.pending, r.1 ≠ va := by
  have hnum : p.num = part := by simpa using List.find?_some (p := fun (p : Partition) => p.num == part) hp
  generalize hf : (fun (n : Nat) (r : Nat × Nat × Nat) => n == part && r.1 == va) = f
  have hexec : exec (.checkpointRegionCopy part va) s = .next (s.copyWhere f) := by rw [← hf]; rfl
  obtain ⟨-, hnums, hpending⟩ := copied_ckpts s f p
  refine ⟨_, copied s f p, hexec, ?_, rfl, hnums, fun k hk r hr he => ?_⟩
  · refine (find?_mapSame (fun p : Partition => p.num == part) (copied s f) s.parts fun p => ?_).trans (congrArg (Option.map _) hp)
    rw [(copied_ckpts s f p).1]
  · have := hpending k hk r hr
    rw [← hf] at this
    simp [hnum, he] at this

/-! ### The loading of code (04 R71 to R79) -/

/-- 04 R76, R79: a code object is loaded in full, or only recorded. -/
theorem codeObjectLoad_next {s : State} {part : Nat} {p : Partition} (hp : s.part? part = some p) (obj : CodeObject) :
    (∀ code, loadObject obj p.imageNext = .failed code → exec (.codeObjectLoad part obj) s =
      .next (s.record { s.plainRecord part (p.pdie.headD 0) code 0 with engine := 13 * 2 ^ 24 })) ∧
    ∀ xs img, loadObject obj p.imageNext = .ready xs img →
      (xs.mapM (s.loadSection p) = none → exec (.codeObjectLoad part obj) s = .next s) ∧
      ∀ ws, xs.mapM (s.loadSection p) = some ws → ∃ t q, exec (.codeObjectLoad part obj) s = .next t ∧
        (s.outerWrite ws.flatten).part? part = some q ∧ t.mem = (s.outerWrite ws.flatten).mem ∧
        t.part? part = some { q with images := q.images ++ [img], imageNext := q.imageNext + 1 } := by
  have hexec : exec (.codeObjectLoad part obj) s = execCodeObjectLoad part obj s := rfl
  rw [hexec]
  unfold execCodeObjectLoad
  rw [hp]
  dsimp only
  refine ⟨fun code h => by rw [h], fun xs img h => ?_⟩
  rw [h]
  dsimp only
  refine ⟨fun hnone => by rw [hnone], fun ws hws => ?_⟩
  rw [hws]
  obtain ⟨q, hq⟩ := part?_calm (State.outerWrite_calm s ws.flatten rfl) hp
  let load := fun p : Partition => { p with images := p.images ++ [img], imageNext := p.imageNext + 1 }
  exact ⟨_, q, rfl, hq, rfl, (part?_modSelf load fun _ => rfl).trans (congrArg (Option.map load) hq)⟩

/-! ### Replay (23 R441, R442) -/

/-- 23 R441: an event is matched against its home's log. -/
theorem matchEvent_cases {s : State} {part : Nat} {r : Replay} (hr : s.replayOf part = some r) (e : Event) :
    (logOf e.home r.log = [] → s.matchEvent part e = s.diverge part e.home 0 e.ticket e.wg e.group e.lane e.addr) ∧
    ∀ x rest, logOf e.home r.log = x :: rest →
      (e.hits x = true → x.value ≠ e.value → s.matchEvent part e = s.diverge part e.home x.seq e.ticket e.wg e.group e.lane e.addr) ∧
      (e.hits x = true → x.value = e.value →
        let u := s.modPart part (fun p => { p with replay := some { r with log := setLog e.home rest r.log } })
        (setLog e.home rest r.log ≠ [] → s.matchEvent part e = u) ∧
        (setLog e.home rest r.log = [] → s.matchEvent part e = u.replayDone part { r with log := [] })) ∧
      (e.hits x = false → (rest.take 63).any e.hits = true → s.matchEvent part e = s) ∧
      (e.hits x = false → (rest.take 63).any e.hits = false →
        s.matchEvent part e = s.diverge part e.home x.seq e.ticket e.wg e.group e.lane e.addr) := by
  unfold State.matchEvent
  rw [hr]
  dsimp only
  refine ⟨fun h => by rw [h]; rfl, fun x rest h => ?_⟩
  rw [h]
  unfold Event.against
  dsimp only
  refine ⟨fun hhit hv => ?_, fun hhit hv => ⟨fun hne => ?_, fun hnil => ?_⟩, fun hhit hlater => ?_, fun hhit hlater => ?_⟩
  · rw [if_pos hhit]
    exact if_neg (by simpa using hv)
  · rw [if_pos hhit]
    exact (if_pos (by simpa using hv)).trans (if_neg (by simpa using hne))
  · rw [if_pos hhit]
    refine (if_pos (by simpa using hv)).trans ((if_pos (by rw [hnil]; rfl)).trans ?_)
    rw [hnil]
  · rw [if_neg (by simp [hhit]), if_pos hlater]
  · rw [if_neg (by simp [hhit]), if_neg (by simp [hlater])]
    rfl

/-- 23 R442: an entry that does not come is a divergence. -/
theorem replayHoldTimeout_next {s : State} {part home : Nat} {r : Replay} (hr : s.replayOf part = some r) :
    (logOf home r.log = [] → exec (.replayHoldTimeout part home) s = .next s) ∧
    ∀ x rest, logOf home r.log = x :: rest →
      exec (.replayHoldTimeout part home) s = .next (s.diverge part home x.seq x.ticket x.wg x.group x.lane x.addr) := by
  have hexec : exec (.replayHoldTimeout part home) s = execReplayHoldTimeout part home s := rfl
  rw [hexec]
  unfold execReplayHoldTimeout
  rw [hr]
  dsimp only
  exact ⟨fun h => by rw [h], fun x rest h => by rw [h]⟩

/-- Settles O54, event by event. -/
theorem observationEvents : Obligations.ObservationEvents := by
  intro s
  refine ⟨fun g sid c hc => ⟨stopAtSite_asked hc, stopAtSite_running hc⟩,
    sampleTimer_next s,
    fun g sid x hx => ?_,
    fun die hdie => ?_,
    fun part p hp => ⟨(checkpoint_next hp).1, fun hmay => ?_, checkpointRegionCopy_next hp, codeObjectLoad_next hp⟩,
    fun part home r hr => ⟨fun kind ticket wg group lane addr value => ?_, (replayHoldTimeout_next hr).1,
      fun x rest h => ⟨_, (replayHoldTimeout_next hr).2 x rest h, rfl, diverge_ends _ _ _ _ _ _ _ _ _ r hr⟩⟩⟩
  · obtain ⟨hwait, hdone⟩ := sampleWrite_settle hx
    obtain ⟨hgone, hcases⟩ := settleSample_cases s x
    refine ⟨fun h => hdone _ (hgone h), fun c hc => ?_⟩
    obtain ⟨hlate, hnosite, hsite⟩ := hcases c hc
    exact ⟨fun h => hdone _ (hlate h), fun h h0 => hwait (hnosite h h0), fun site h h0 hm hst => hdone _ (hsite site h h0 hm hst)⟩
  · obtain ⟨hidle, htwice, hlatch⟩ := snapshotLatch_next s hdie
    refine ⟨hidle, htwice, fun h hany => ⟨_, hlatch h hany, fun hlen => if_neg hlen, fun hlen => ?_⟩⟩
    rw [if_pos hlen]
    exact writeSnapshot_snap _
  · obtain ⟨hwait, htake⟩ := (checkpoint_next hp).2 hmay
    have hnum : p.num = part := by simpa using List.find?_some (p := fun (p : Partition) => p.num == part) hp
    exact ⟨hwait, fun hall => ⟨_, htake hall, fun q hq => closeCheckpoint_part _ hnum hq⟩⟩
  · intro e i diverges
    obtain ⟨hempty, hcases⟩ := matchEvent_cases hr e
    have hdiverges : ∀ seq, s.matchEvent part e = s.diverge part home seq ticket wg group lane addr → diverges seq := fun seq h =>
      ⟨_, congrArg Host.Outcome.next h, rfl, diverge_ends _ _ _ _ _ _ _ _ _ r hr⟩
    refine ⟨fun h => hdiverges 0 (hempty h), fun x rest h => ?_⟩
    obtain ⟨hvalue, hperform, hhold, hother⟩ := hcases x rest h
    exact ⟨fun h1 h2 => hdiverges x.seq (hvalue h1 h2),
      fun h1 h2 => ⟨fun h3 => congrArg Host.Outcome.next ((hperform h1 h2).1 h3), fun h3 => congrArg Host.Outcome.next ((hperform h1 h2).2 h3)⟩,
      fun h1 h2 => congrArg Host.Outcome.next (hhold h1 h2), fun h1 h2 => hdiverges x.seq (hother h1 h2)⟩

end Sys2Proof.Laws
end
